-- ==== Sys2Proof/Word.lean ====
section
/-! DEFINITION. The plain word types of the Wienalu and the names of its numbered parts. -/

namespace Sys2Proof

/-- A scalar register or a system register: 64 bits (R19, R309). -/
abbrev Word := BitVec 64
/-- The smallest addressable unit. -/
abbrev Byte := BitVec 8
/-- One vector lane (R19). -/
abbrev Lane := BitVec 32
/-- A vector register: 64 lanes, lane i in bits [32i+31:32i] (R19, R170). -/
abbrev VecWord := BitVec 2048
/-- An instruction word (R118). -/
abbrev InsWord := BitVec 80
/-- A scalar register number `s0` to `s63`. -/
abbrev SReg := Fin 64
/-- A vector register number `v0` to `v31`. -/
abbrev VReg := Fin 32
/-- A predicate register number `p0` to `p7`. -/
abbrev PReg := Fin 8
/-- A scoreboard tag `t0` to `t7`. -/
abbrev TagId := Fin 8
/-- A ring `q0` to `q15`. -/
abbrev RingId := Fin 16
/-- A pool lane 0 to 3 (R230). -/
abbrev LaneId := Fin 4
/-- A core identifier (R16): DIE [7:6], Y [5:3], X [2:0]. -/
abbrev CoreId := Fin 256
/-- A die D0 to D3 (R14). -/
abbrev DieId := Fin 4
/-- A partition 0 to 15 (R375). -/
abbrev PartId := Fin 16
/-- A link port 0 to 7 (R396). -/
abbrev PortId := Fin 8
/-- An HBM stack 0 to 7, two per die (R14). -/
abbrev StackId := Fin 8
/-- A launch queue 0 to 63 of a partition (R326). -/
abbrev QueueNo := Fin 64
/-- A circuit number 0 to 63 (R264). -/
abbrev CircNo := Fin 64
/-- A copy entry 0 to 15 (R249). -/
abbrev EntryNo := Fin 16

/-- DIE of a core identifier (R16). -/
def CoreId.die (c : CoreId) : DieId := Fin.ofNat 4 (c.val / 64)
/-- Mesh row of a core identifier (R16). -/
def CoreId.y (c : CoreId) : Nat := c.val / 8 % 8
/-- Mesh column of a core identifier (R16). -/
def CoreId.x (c : CoreId) : Nat := c.val % 8

end Sys2Proof
end

