-- ==== Sys2Proof/Syntax.lean ====
section
/-! DEFINITION. The instructions and events of the Wienalu: one constructor of `Instr` per row of the
opcode table. Front-end words carry their control header; an event carries the choices the specification
leaves to the device (which core, which message, which order). -/

namespace Sys2Proof

/-- The control header below OP (R119). `tag` is SBA, `wait` is SBW. -/
structure Hdr where
  tag : Option TagId
  wait : BitVec 8
  pda : Fin 4
  pdb : Fin 4
  pneg : Bool
  pred : PReg
  deriving DecidableEq, Repr

/-- The header with every field zero. -/
def Hdr.zero : Hdr := ⟨none, 0, 0, 0, false, 0⟩

/-- Width of a scalar integer operation (R148): 64 bits, or `.i32`. -/
inductive IWidth | x64 | i32
  deriving DecidableEq, Repr
/-- Rounding field RM (R65). -/
inductive Rnd | rne | rtz | rsr | dyn
  deriving DecidableEq, Repr
/-- Source width of `sext` and `zext` (R152). -/
inductive ExtW | x8 | x16 | x32
  deriving DecidableEq, Repr
/-- Shift amount of the scalar shifts (R149, R150). -/
inductive ShAmt | reg (b : SReg) | imm (n : Fin 64)
  deriving DecidableEq, Repr
/-- Conditions of `cmp` (R153), also of `vcmp` under `.i32` and of `bc`. -/
inductive ICond | eq | ne | lt | ge | ltu | geu
  deriving DecidableEq, Repr
/-- Conditions of `fcmp` (R156), also of `vcmp` under `.f32`. -/
inductive FCond | eq | lt | le | un
  deriving DecidableEq, Repr
/-- Second source of `cmp` (R150). -/
inductive CmpSrc | reg (b : SReg) | imm (n : BitVec 12)
  deriving DecidableEq, Repr
/-- Conversions of `fcvt` (R157). -/
inductive FConv | f2i | i2f | f2bf | bf2f | f2l | l2f
  deriving DecidableEq, Repr
/-- Conditions of `bc` with their sources (R159). -/
inductive BCond
  | cmp (k : ICond) (a b : SReg)
  | pt (a : PReg) | pf (a : PReg) | pany (a : PReg) | pall (a : PReg) | pnone (a : PReg)
  deriving DecidableEq, Repr
/-- The control registers of R168. -/
inductive CtlReg
  | cycle | ptime | core | fflags | round | seed | wcnt | tags | priv
  | ls0 | le0 | lc0 | ls1 | le1 | lc1
  deriving DecidableEq, Repr
/-- Element types of the element-wise instructions (R123, R174). -/
inductive VTy | f32 | bf16 | i32 | i16 | i8
  deriving DecidableEq, Repr
/-- Float element types. -/
inductive FTy | f32 | bf16
  deriving DecidableEq, Repr
/-- Integer element types. -/
inductive ITy | i32 | i16 | i8
  deriving DecidableEq, Repr
/-- Shift amount of the vector shifts (R176). -/
inductive VShAmt | reg (b : VReg) | imm (n : Fin 32)
  deriving DecidableEq, Repr
/-- Condition of `vcmp` (R178). -/
inductive VCond | f (k : FCond) | i (k : ICond)
  deriving DecidableEq, Repr
/-- Forms of `vbcast` (R181). -/
inductive VBcastSrc | scalar (a : SReg) | lane (a : VReg) (n : Fin 64)
  deriving DecidableEq, Repr
/-- Forms of `vmov` (R181). -/
inductive VMovForm
  | mov (d a : VReg) | extract (d : SReg) (a : VReg) (n : Fin 64) | insert (d : VReg) (a : SReg) (n : Fin 64)
  deriving DecidableEq, Repr
/-- Amount of `vrot` and `vslide` (R181). -/
inductive RotAmt | reg (b : SReg) | imm (n : Fin 64)
  deriving DecidableEq, Repr
/-- Types of the lane reductions (R184). -/
inductive RedTy | f32 | bf16 | i32
  deriving DecidableEq, Repr
/-- Types of `vredmax` and `vredmin` (R184). -/
inductive ExtTy | f32 | i32 | u32
  deriving DecidableEq, Repr
/-- Forms of `vbmand` (R187). -/
inductive BmForm | scalars (a b : SReg) | preds (a b : PReg)
  deriving DecidableEq, Repr
/-- Source of `vpfx` (R187). -/
inductive PfxSrc | scalar (a : SReg) | pred (a : PReg)
  deriving DecidableEq, Repr
/-- Forms of `pset` (R194). -/
inductive PSetForm | imm (n : Fin 65) | count (a : SReg) | bits (a : SReg)
  deriving DecidableEq, Repr
/-- Type of `vcvt` (R188): `.i32` or a format tag of R49, tag 7 being no format (R50). -/
inductive CvtTy | i32 | tag (t : Fin 8)
  deriving DecidableEq, Repr
/-- The four spaces of a load or store (R79, R126). -/
inductive Space | g | wb | ab | cb
  deriving DecidableEq, Repr
/-- Access width (R126). -/
inductive MWidth | b | h | w | d
  deriving DecidableEq, Repr
/-- Ordering scope (R104, R126). -/
inductive Scope | core | die | pkg | sys
  deriving DecidableEq, Repr
/-- ORDER field (R105). -/
inductive Ord | none | acq | rel | ar
  deriving DecidableEq, Repr
/-- Combining form of `vscatter` (R201). -/
inductive Comb | none | addI32 | addF32 | maxI32 | maxF32
  deriving DecidableEq, Repr
/-- Operations of `amo` and `cred` (R205). -/
inductive AmoOp | add | fadd | min | max | and | or | xor | swap
  deriving DecidableEq, Repr
/-- Phase source of `bar.wait` (R195, R213). -/
inductive PhSrc | imm (ph : Bool) | reg (b : SReg)
  deriving DecidableEq, Repr
/-- Token field [51:48] of an engine-queue instruction (R127, R128). -/
structure Tok where
  wp : Bool
  wn : Bool
  sp : Bool
  sn : Bool
  deriving DecidableEq, Repr
/-- The three pool queues (R18). -/
inductive PoolQ | k | o | d
  deriving DecidableEq, Repr
/-- The three typed buffers (R79). -/
inductive Buf | wb | ab | cb
  deriving DecidableEq, Repr
/-- Scope of `tlbi` (R351). -/
inductive TlbScope | core | part | pkg
  deriving DecidableEq, Repr
/-- Kind of `tlbi` (R351). -/
inductive TlbKind | all | asid (n : BitVec 8) | va (a : SReg) (vahi n : BitVec 8)
  deriving DecidableEq, Repr
/-- FIELD of `cast` (R319). -/
inductive CastField | cyc | ns | stat
  deriving DecidableEq, Repr
/-- Targets of `freeze` and `thaw` (R318): the FE, CE, BW mask of a core, or the link endpoint of a port. -/
inductive FreezeSel | core (mask : Fin 8) | port (lk : Bool)
  deriving DecidableEq, Repr
/-- Who writes a register from outside the front end's own words (R309, R391): the physical function at
level M, the virtual function of a partition at level S. -/
inductive Agent | pf | vf (p : PartId) | i3c
  deriving DecidableEq, Repr
/-- Blocks outside the core regions that take strikes (R355, R364): of a UCIe edge, the interface on a die; of the scheduler,
its unit on a die. -/
inductive SharedBlock
  | router (c : CoreId) | cache (d : DieId) | hbm (s : StackId) | edge (d : DieId) (e : Fin 4) | link (p : PortId)
  | sched (d : DieId)
  deriving DecidableEq, Repr
/-- Metered resources of a budget regulator (R383). -/
inductive Meter | hbm (d : DieId) | spine (d : DieId) | linkOut | linkIn | pool
  deriving DecidableEq, Repr

/-- The instructions and events. Front-end words come first, each with its header `h`; every later
constructor is an event of the opcode table. -/
inductive Instr
  -- scalar integer (R149 to R154)
  | add (h : Hdr) (w : IWidth) (d a b : SReg)
  | sub (h : Hdr) (w : IWidth) (d a b : SReg)
  | addi (h : Hdr) (d a : SReg) (imm : BitVec 32)
  | mul (h : Hdr) (w : IWidth) (d a b : SReg)
  | mulh (h : Hdr) (w : IWidth) (d a b : SReg)
  | mulhu (h : Hdr) (w : IWidth) (d a b : SReg)
  | div (h : Hdr) (w : IWidth) (d a b : SReg)
  | divu (h : Hdr) (w : IWidth) (d a b : SReg)
  | rem (h : Hdr) (w : IWidth) (d a b : SReg)
  | remu (h : Hdr) (w : IWidth) (d a b : SReg)
  | and (h : Hdr) (d a b : SReg)
  | or (h : Hdr) (d a b : SReg)
  | xor (h : Hdr) (d a b : SReg)
  | andn (h : Hdr) (d a b : SReg)
  | shl (h : Hdr) (w : IWidth) (d a : SReg) (n : ShAmt)
  | shr (h : Hdr) (w : IWidth) (d a : SReg) (n : ShAmt)
  | sra (h : Hdr) (w : IWidth) (d a : SReg) (n : ShAmt)
  | rot (h : Hdr) (d a : SReg) (n : ShAmt)
  | clz (h : Hdr) (w : IWidth) (d a : SReg)
  | ctz (h : Hdr) (w : IWidth) (d a : SReg)
  | popc (h : Hdr) (w : IWidth) (d a : SReg)
  | min (h : Hdr) (w : IWidth) (d a b : SReg)
  | max (h : Hdr) (w : IWidth) (d a b : SReg)
  | minu (h : Hdr) (w : IWidth) (d a b : SReg)
  | maxu (h : Hdr) (w : IWidth) (d a b : SReg)
  | sext (h : Hdr) (x : ExtW) (d a : SReg)
  | zext (h : Hdr) (x : ExtW) (d a : SReg)
  | bfx (h : Hdr) (signed : Bool) (d a : SReg) (wm1 lsb : Fin 64)
  | bfi (h : Hdr) (d a : SReg) (wm1 lsb : Fin 64)
  | mov (h : Hdr) (d a : SReg)
  | movi (h : Hdr) (d : SReg) (imm : BitVec 32)
  | movhi (h : Hdr) (d : SReg) (imm : BitVec 32)
  | sel (h : Hdr) (d a b : SReg) (c : PReg)
  | cmp (h : Hdr) (w : IWidth) (k : ICond) (d : PReg) (a : SReg) (b : CmpSrc)
  | lea (h : Hdr) (d a b : SReg) (sh : Fin 8)
  -- scalar FP32 (R155 to R157)
  | fadd (h : Hdr) (rm : Rnd) (d a b : SReg)
  | fsub (h : Hdr) (rm : Rnd) (d a b : SReg)
  | fmul (h : Hdr) (rm : Rnd) (d a b : SReg)
  | ffma (h : Hdr) (rm : Rnd) (d a b c : SReg)
  | fmin (h : Hdr) (d a b : SReg)
  | fmax (h : Hdr) (d a b : SReg)
  | fcmp (h : Hdr) (k : FCond) (d : PReg) (a b : SReg)
  | fcvt (h : Hdr) (k : FConv) (rm : Rnd) (sat : Bool) (d a : SReg)
  -- control (R159 to R167)
  | br (h : Hdr) (off : BitVec 32)
  | bc (h : Hdr) (k : BCond) (off : BitVec 32)
  | call (h : Hdr) (off : BitVec 32)
  | ret (h : Hdr) (a : SReg)
  | jmpr (h : Hdr) (link : Bool) (a : SReg)
  | loop (h : Hdr) (set1 : Bool) (a : SReg) (off : BitVec 32)
  | loopi (h : Hdr) (set1 : Bool) (count : BitVec 12) (off : BitVec 32)
  | endit (h : Hdr)
  | trap (h : Hdr) (imm : BitVec 32)
  | nop (h : Hdr)
  | pause (h : Hdr) (imm : BitVec 32)
  | getc (h : Hdr) (r : CtlReg) (d : SReg) (sel : Fin 128)
  | setc (h : Hdr) (r : CtlReg) (a : SReg)
  -- element-wise vector (R174 to R180)
  | vadd (h : Hdr) (t : VTy) (rm : Rnd) (d a b : VReg)
  | vsub (h : Hdr) (t : VTy) (rm : Rnd) (d a b : VReg)
  | vmul (h : Hdr) (t : VTy) (rm : Rnd) (d a b : VReg)
  | vfma (h : Hdr) (t : FTy) (rm : Rnd) (d a b c : VReg)
  | vfms (h : Hdr) (t : FTy) (rm : Rnd) (d a b c : VReg)
  | vnfma (h : Hdr) (t : FTy) (rm : Rnd) (d a b c : VReg)
  | vmin (h : Hdr) (t : VTy) (u : Bool) (d a b : VReg)
  | vmax (h : Hdr) (t : VTy) (u : Bool) (d a b : VReg)
  | vabs (h : Hdr) (t : VTy) (d a : VReg)
  | vneg (h : Hdr) (t : VTy) (d a : VReg)
  | vcmp (h : Hdr) (k : VCond) (d : PReg) (a b : VReg)
  | vsel (h : Hdr) (d a b : VReg) (c : PReg)
  | vand (h : Hdr) (d a b : VReg)
  | vor (h : Hdr) (d a b : VReg)
  | vxor (h : Hdr) (d a b : VReg)
  | vnot (h : Hdr) (d a : VReg)
  | vshl (h : Hdr) (t : ITy) (d a : VReg) (n : VShAmt)
  | vshr (h : Hdr) (t : ITy) (d a : VReg) (n : VShAmt)
  | vsra (h : Hdr) (t : ITy) (d a : VReg) (n : VShAmt)
  | vadds (h : Hdr) (t : ITy) (u subtract : Bool) (d a b : VReg)
  | vmulh (h : Hdr) (t : ITy) (u : Bool) (d a b : VReg)
  | vdot2 (h : Hdr) (flt : Bool) (rm : Rnd) (d a b c : VReg)
  | vexp2 (h : Hdr) (d a : VReg)
  | vlog2 (h : Hdr) (d a : VReg)
  | vrcp (h : Hdr) (d a : VReg)
  | vrsqrt (h : Hdr) (d a : VReg)
  | vsqrt (h : Hdr) (rm : Rnd) (d a : VReg)
  | vtanh (h : Hdr) (d a : VReg)
  | vsigm (h : Hdr) (d a : VReg)
  -- moving lanes, reductions, selection (R181 to R187)
  | vbcast (h : Hdr) (d : VReg) (a : VBcastSrc)
  | vmov (h : Hdr) (f : VMovForm)
  | vperm (h : Hdr) (d a b : VReg)
  | vrot (h : Hdr) (d a : VReg) (n : RotAmt)
  | vslide (h : Hdr) (up : Bool) (d a c : VReg) (n : RotAmt)
  | vcompact (h : Hdr) (d a : VReg) (c : PReg)
  | vexpand (h : Hdr) (d a : VReg) (c : PReg)
  | vredsum (h : Hdr) (t : RedTy) (d : SReg) (a : VReg) (c : PReg)
  | vredmax (h : Hdr) (t : ExtTy) (d : SReg) (a : VReg) (c : PReg)
  | vredmin (h : Hdr) (t : ExtTy) (d : SReg) (a : VReg) (c : PReg)
  | vscan (h : Hdr) (flt : Bool) (d a : VReg) (c : PReg)
  | vtopk (h : Hdr) (flt mag idx : Bool) (k : Fin 65) (d a : VReg) (c : PReg)
  | vbmand (h : Hdr) (d : PReg) (f : BmForm)
  | vpopc (h : Hdr) (d a : VReg)
  | vpfx (h : Hdr) (d : VReg) (a : PfxSrc)
  -- conversions (R188 to R193)
  | vcvt (h : Hdr) (up : Bool) (rm : Rnd) (sat : Bool) (t : CvtTy) (d a : VReg)
  | vquantScale (h : Hdr) (t : Fin 8) (d : SReg) (a : VReg) (c : PReg)
  | vquant (h : Hdr) (rm : Rnd) (sat : Bool) (t : Fin 8) (d a : VReg) (b : SReg)
  | vdequant (h : Hdr) (rm : Rnd) (t : Fin 8) (d a : VReg) (b : SReg)
  | vpack (h : Hdr) (t : Fin 8) (part : Fin 8) (d a : VReg)
  | vunpack (h : Hdr) (t : Fin 8) (part : Fin 8) (d a : VReg)
  | vrnd (h : Hdr) (rm : Rnd) (d a : VReg)
  -- predicates (R194)
  | pand (h : Hdr) (d a b : PReg)
  | por (h : Hdr) (d a b : PReg)
  | pxor (h : Hdr) (d a b : PReg)
  | pnot (h : Hdr) (d a : PReg)
  | pcnt (h : Hdr) (bits : Bool) (d : SReg) (a : PReg)
  | pfirst (h : Hdr) (d : SReg) (a : PReg)
  | pset (h : Hdr) (d : PReg) (f : PSetForm)
  -- memory and synchronisation (R195 to R216)
  | ld (h : Hdr) (d base : SReg) (sp : Space) (w : MWidth) (sx : Bool) (off : BitVec 24)
  | st (h : Hdr) (data base : SReg) (sp : Space) (w : MWidth) (off : BitVec 24)
  | ldacq (h : Hdr) (d base : SReg) (sp : Space) (w : MWidth) (scope : Scope) (sx : Bool) (off : BitVec 24)
  | strel (h : Hdr) (data base : SReg) (sp : Space) (w : MWidth) (scope : Scope) (off : BitVec 24)
  | vld (h : Hdr) (d : VReg) (base : SReg) (sp : Space) (str : Bool) (off : BitVec 24)
  | vst (h : Hdr) (data : VReg) (base : SReg) (sp : Space) (str : Bool) (off : BitVec 24)
  | vgather (h : Hdr) (d : VReg) (base : SReg) (sp : Space) (x : VReg) (off : BitVec 24)
  | vscatter (h : Hdr) (data : VReg) (base : SReg) (sp : Space) (comb : Comb) (x : VReg) (off : BitVec 24)
  | align (h : Hdr)
  | fence (h : Hdr) (ord : Ord) (scope : Scope)
  | amo (h : Hdr) (d base : SReg) (dbl : Bool) (scope : Scope) (ord : Ord) (op : AmoOp) (u : Bool) (off : BitVec 24)
  | cas (h : Hdr) (d base : SReg) (dbl : Bool) (scope : Scope) (ord : Ord) (off : BitVec 24)
  | cred (h : Hdr) (data base : SReg) (dbl : Bool) (scope : Scope) (ord : Ord) (op : AmoOp) (u : Bool) (cm1 : Fin 16) (off : BitVec 24)
  | barInit (h : Hdr) (data base : SReg) (scope : Scope) (off : BitVec 24)
  | barArrive (h : Hdr) (base : SReg) (rel : Bool) (scope : Scope) (off : BitVec 24)
  | barWait (h : Hdr) (base : SReg) (scope : Scope) (ph : PhSrc) (off : BitVec 24)
  | gjoin (h : Hdr) (base : SReg) (off : BitVec 24)
  | gleave (h : Hdr) (base : SReg) (off : BitVec 24)
  | gbar (h : Hdr) (base : SReg) (scope : Scope) (off : BitVec 24)
  | tokw (h : Hdr) (wp wn : Bool)
  | toks (h : Hdr) (sp sn : Bool)
  -- pool queue instructions (R230)
  | carve (h : Hdr) (t : Tok) (a b : SReg) (clr : Bool)
  | wload (h : Hdr) (t : Tok) (q : RingId) (a : SReg)
  | mmap (h : Hdr) (t : Tok) (a b : SReg)
  | plane (h : Hdr) (t : Tok) (copy : Bool)
  | sbind (h : Hdr) (t : Tok) (q : RingId) (lane : LaneId) (en : Bool)
  | feed (h : Hdr) (t : Tok) (q : RingId) (a b c : SReg) (lane : LaneId) (slot : Fin 8) (tpsm1 : Fin 256)
  | feedx (h : Hdr) (t : Tok) (a b c : SReg) (lane : LaneId) (slot : Fin 8) (fmt : Fin 8)
  | drain (h : Hdr) (t : Tok) (q : RingId) (a b : SReg) (lane : LaneId) (bias : RingId)
  | aclr (h : Hdr) (t : Tok) (b : SReg)
  | pstat (h : Hdr) (d : SReg) (sel : Fin 16)
  -- rings, copies, circuits (R254)
  | qdef (h : Hdr) (q : RingId) (a b : SReg)
  | qreset (h : Hdr) (q : RingId)
  | qfill (h : Hdr) (q : RingId) (a : SReg)
  | qpop (h : Hdr) (d : SReg) (q : RingId)
  | qpopFree (h : Hdr) (d : SReg) (q : RingId)
  | qtag (h : Hdr) (d : SReg) (q : RingId) (slot : Fin 64) (ptr : Bool)
  | cdef (h : Hdr) (e : EntryNo) (sp : Space) (a : SReg)
  | cgo (h : Hdr) (e : EntryNo) (a b : SReg)
  | cdem (h : Hdr) (e : EntryNo) (a b : SReg)
  | cwait (h : Hdr) (e : EntryNo)
  | circ (h : Hdr) (n : CircNo) (q : RingId) (a b : SReg)
  | ccls (h : Hdr) (n : CircNo)
  | cstat (h : Hdr) (d : SReg) (circuit : Bool) (n : Fin 64)
  -- walker and launches (R282, R41)
  | wdrive (h : Hdr) (d a : SReg)
  | wdriveNew (h : Hdr) (d a : SReg)
  | wdriveAbort (h : Hdr) (d : SReg)
  | wstat (h : Hdr) (d : SReg) (sel : Fin 16)
  | launch (h : Hdr) (d a : SReg) (q : QueueNo)
  | lwait (h : Hdr) (d a : SReg)
  | lwaitT (h : Hdr) (d a : SReg)
  -- system (R309 to R322, R335, R336, R351)
  | rett (h : Hdr)
  | prd (h : Hdr) (r : BitVec 12) (d : SReg)
  | pwr (h : Hdr) (r : BitVec 12) (a : SReg)
  | tlbi (h : Hdr) (scope : TlbScope) (kind : TlbKind)
  | cast (h : Hdr) (d : SReg) (f : CastField) (j : Fin 4)
  | freeze (h : Hdr) (f : FreezeSel) (a : SReg)
  | thaw (h : Hdr) (f : FreezeSel) (a : SReg)
  | wfi (h : Hdr) (wake : Fin 8) (a : SReg)
  | ctxsave (h : Hdr) (a : SReg)
  | ctxload (h : Hdr) (a : SReg)
  | qsave (h : Hdr) (q : QueueNo) (a : SReg)
  | qload (h : Hdr) (q : QueueNo) (a : SReg)
  | sysc (h : Hdr) (n : BitVec 34)
  | halt (h : Hdr)
  -- events of the front end (R165, R106, R216, R133, R314, R320)
  | pauseEnd (c : CoreId)
  | releaseWaitEnd (c : CoreId)
  | tokwPop (c : CoreId)
  -- events of the pool (R219 to R245)
  | carveBegin (c : CoreId)
  | carveRecordRead (c : CoreId)
  | wloadSlotStep (c : CoreId)
  | mmapBegin (c : CoreId)
  | sbindBegin (c : CoreId)
  | planeSwap (c : CoreId)
  | feedArm (c : CoreId)
  | tokenEntryBegin (c : CoreId) (q : PoolQ)
  | poolOperationFire (c : CoreId) (lane : LaneId)
  | passEnterResultStage (c : CoreId) (lane : LaneId)
  | operationRetire (c : CoreId) (lane : LaneId)
  | extendedPartArrive (msg : Nat)
  | drainBegin (c : CoreId)
  | drainSlotFull (c : CoreId)
  | aclrBegin (c : CoreId)
  -- events of rings, copies and circuits (R248 to R268)
  | qdefTakeEffect (c : CoreId) (q : RingId)
  | qresetTakeEffect (c : CoreId) (q : RingId)
  | qfillSlotFull (c : CoreId) (q : RingId)
  | qpopTake (c : CoreId)
  | cdefReadComplete (c : CoreId) (e : EntryNo)
  | cwaitReturn (c : CoreId)
  | copyBlock (c : CoreId) (e : EntryNo)
  | copyDone (c : CoreId) (e : EntryNo)
  | copyCompletionTokenPush (c : CoreId) (e : EntryNo)
  | circuitOpeningArrive (msg : Nat)
  | circuitReplyArrive (msg : Nat)
  | circuitFlitLeave (c : CoreId) (n : CircNo)
  | branchFillBegin (c : CoreId) (n : CircNo) (branch : Fin 16)
  | circuitFlitArrive (c : CoreId) (n : CircNo) (branch : Fin 16)
  | circuitClosed (c : CoreId) (n : CircNo)
  -- events of the walker (R274 to R281)
  | feltHeaderRead (c : CoreId)
  | feltActionPlace (c : CoreId)
  | loadwBlock (c : CoreId)
  | walkerToken (c : CoreId)
  | feltSuccessor (c : CoreId)
  | tagbrResolve (c : CoreId)
  -- launches, freezes, waits
  | launchRequestArrive (msg : Nat)
  | lwaitReturn (c : CoreId)
  | freezeApply (msg : Nat)
  | wfiWake (c : CoreId)
  | engineFaultTaken (c : CoreId)
  | registerResultArrive (c : CoreId) (t : TagId)
  -- events of memory and ordering (R84 to R116)
  | holdbackDepart (c : CoreId) (n : Nat)
  | writeAgePerform (c : CoreId) (b : Buf) (order : Nat)
  | loadPerform (c : CoreId) (n unit : Nat)
  | homeStoreApply (msg unit : Nat)
  | amoApply (msg : Nat)
  | casApply (msg : Nat)
  | credApply (msg : Nat)
  | barInitApply (msg : Nat)
  | barrierArrivalApply (msg : Nat)
  | boundCopyWriteApply (msg : Nat)
  | barWaitCheck (c : CoreId)
  | barWaitReturn (c : CoreId)
  | groupOpApply (msg : Nat)
  | gbarArrivalApply (msg : Nat)
  | gbarReturn (c : CoreId)
  | requestAck (c : CoreId) (n : Nat)
  | freeNoticeArrive (msg : Nat)
  | slotReleaseDepart (c : CoreId) (q : RingId)
  | cacheMissRead (d : DieId) (block : Nat)
  | compressedWriteback (d : DieId) (block : Nat)
  -- translation (R344 to R348)
  | walkSlotGrant (d : DieId)
  | pageWalkComplete (c : CoreId) (n : Nat)
  -- scheduling (R326 to R331, R35 to R46)
  | lqDoorWrite (by_ : Agent) (c : CoreId) (v : Word)
  | waitbarRead (p : PartId) (q : QueueNo)
  | schedulerGrant (p : PartId)
  | headStarving (p : PartId) (q : QueueNo)
  | coreClearComplete (c : CoreId)
  | iterationDispatch (c : CoreId)
  | coreRelease (c : CoreId)
  | launchComplete (p : PartId) (n : Nat)
  | deadlockDetect (p : PartId)
  -- reliability (R28, R355 to R369)
  | castTake (c : CoreId)
  | strikeReport (c : CoreId) (time estimate : Nat)
  | sharedBlockStrike (b : SharedBlock)
  | lockstepMismatch (b : SharedBlock)
  | residueReject (msg : Nat)
  | hbmScrubPass (s : StackId) (unit : Nat)
  | hbmErrSample (s : StackId)
  -- partitions (R376 to R390)
  | guardDrop (msg : Nat)
  | dropNoticeArrive (msg : Nat)
  | budgetWindow
  -- contexts (R332 to R338)
  | gangSwitch (p : PartId)
  | coreStop (c : CoreId)
  | saveComplete (c : CoreId)
  | loadComplete (c : CoreId)
  -- register writes from outside the front end (R311, R323 to R412)
  | acceptWrite (by_ : Agent) (n : Fin 3) (v : Word)
  | accept3Write (by_ : Agent) (v : Word)
  | coreCtlWrite (by_ : Agent) (c : CoreId) (v : Word)
  | lqCfgWrite (by_ : Agent) (c : CoreId) (q : QueueNo) (v : Word)
  | switchAtWrite (by_ : Agent) (c : CoreId) (v : Word)
  | pmapWrite (by_ : Agent) (n : Fin 16) (v : Word)
  | pctlWrite (by_ : Agent) (v : Word)
  | calWrite (by_ : Agent) (n : Fin 4) (v : Word)
  | rtabxWrite (by_ : Agent) (p : PartId) (v : Word)
  | budgetWrite (by_ : Agent) (c : CoreId) (n : Fin 4) (v : Word)
  | feedBudWrite (by_ : Agent) (c : CoreId) (v : Word)
  | mdbaseWrite (by_ : Agent) (s : StackId) (v : Word)
  | apbaseWrite (by_ : Agent) (v : Word)
  | lpctlWrite (by_ : Agent) (p : PortId) (v : Word)
  | pcapWrite (v : Word)
  | tlimitWrite (v : Word)
  | attCtlGo
  | registerWrite (by_ : Agent) (c : CoreId) (r : BitVec 12) (v : Word)
  -- host and links (R391 to R403)
  | hostWrite (by_ : Agent) (addr : Nat) (n : Fin 257) (v : BitVec 2048)
  | hostRead (by_ : Agent) (addr : Nat) (n : Fin 513)
  | vfFunctionReset (p : PartId)
  | pfFunctionReset
  | linkFlitReceive (p : PortId)
  | linkNakResend (p : PortId)
  | linkResendTimeout (p : PortId)
  | portRetrain (p : PortId)
  | portTrained (p : PortId)
  | timeExchange (p : PortId)
  -- bring-up and power (R406 to R415)
  | powerRamp (ok : Bool)
  | rstNAssert
  | rstNRelease
  | bootStage (ok : Bool)
  | serviceProcessorStrike
  | governorSample
  | thermtrip (d : DieId)
  | attReportReady
  | powerRemoval
  | tlbEntryLeave (c : CoreId) (n : Nat)
  deriving DecidableEq, Repr

end Sys2Proof
end

