-- ==== Sys2Proof/WellFormed.lean ====
section
/-! DEFINITION. The checks of R138 row 3 that the syntax does not already exclude. A front-end word whose
instruction fails one of them raises UNDEF; an event is always well formed. -/

namespace Sys2Proof

/-- No producer distance for a source A the instruction does not have (R138). -/
def Hdr.noA (h : Hdr) : Bool := h.pda == 0
/-- No producer distance for a source B the instruction does not have (R138). -/
def Hdr.noB (h : Hdr) : Bool := h.pdb == 0
/-- No producer distance at all. -/
def Hdr.noAB (h : Hdr) : Bool := h.noA && h.noB
/-- A variable-latency instruction allocates a tag (R133). -/
def Hdr.tagged (h : Hdr) : Bool := h.tag.isSome

/-- A 32-bit shift amount under `.i32` (R150). -/
def ShAmt.wf (h : Hdr) (w : IWidth) : ShAmt → Bool
  | .reg _ => true
  | .imm n => h.noB && (w == .x64 || decide (n.val < 32))
/-- The field of `bfx` and `bfi` lies in the register (R152). -/
def fieldFits (wm1 lsb : Fin 64) : Bool := decide (lsb.val + wm1.val + 1 ≤ 64)
/-- The body of a loop has at least one word (R160). -/
def loopOffOk (off : BitVec 32) : Bool := decide (1 ≤ off.toInt)
/-- Only float types round (R174). -/
def VTy.isFloat : VTy → Bool
  | .f32 | .bf16 => true
  | .i32 | .i16 | .i8 => false
/-- Bits of an integer element (R176). -/
def ITy.bits : ITy → Nat
  | .i32 => 32
  | .i16 => 16
  | .i8 => 8
/-- Vector shift amounts below the element width (R176). -/
def VShAmt.wf (h : Hdr) (t : ITy) : VShAmt → Bool
  | .reg _ => true
  | .imm n => h.noB && decide (n.val < t.bits)
/-- An immediate amount leaves source B unused. -/
def RotAmt.wf (h : Hdr) : RotAmt → Bool
  | .reg _ => true
  | .imm _ => h.noB
/-- Element bits of a format tag (R49); 32 stands for tag 7, which is no format. -/
def tagBits (t : Fin 8) : Nat :=
  match t.val with
  | 0 => 16
  | 1 | 2 | 4 | 6 => 8
  | 3 | 5 => 4
  | _ => 32
/-- The part of `vpack` and `vunpack` exists (R192); tag 7 has no parts to check (R50). -/
def partOk (t part : Fin 8) : Bool := t.val == 7 || decide (part.val < 32 / tagBits t)
/-- SCOPE is 0 when ORDER is 0 (R126). -/
def scopeOk (o : Ord) (s : Scope) : Bool := o != .none || s == .core
/-- Operations that take U (R195). -/
def AmoOp.signable : AmoOp → Bool
  | .min | .max => true
  | .add | .fadd | .and | .or | .xor | .swap => false
/-- The system register numbers that name a register (R308, R309, R326, R354, R363, R389, R390). -/
def sysRegKnown (r : BitVec 12) : Bool :=
  let n := r.toNat
  decide (n ≤ 0x00B) || (decide (0x100 ≤ n) && decide (n ≤ 0x10B)) ||
  (decide (0x200 ≤ n) && decide (n ≤ 0x205)) || (decide (0x300 ≤ n) && decide (n ≤ 0x307)) ||
  (decide (0x400 ≤ n) && decide (n ≤ 0x409)) || (decide (0x500 ≤ n) && decide (n ≤ 0x5CC)) ||
  (decide (0x600 ≤ n) && decide (n ≤ 0x602)) || (decide (0x608 ≤ n) && decide (n ≤ 0x60B)) ||
  (decide (0x610 ≤ n) && decide (n ≤ 0x620)) || (decide (0x700 ≤ n) && decide (n ≤ 0x714)) ||
  (decide (0x720 ≤ n) && decide (n ≤ 0x76F)) || (decide (0x780 ≤ n) && decide (n ≤ 0x78E)) || n == 0x7C0

/-- The row-3 checks of R138 on a front-end word. -/
def Instr.wf : Instr → Bool
  | .clz h _ _ _ | .ctz h _ _ _ | .popc h _ _ _ | .sext h _ _ _ | .zext h _ _ _ | .mov h _ _ => h.noB
  | .shl h w _ _ n | .shr h w _ _ n | .sra h w _ _ n => n.wf h w
  | .rot h _ _ n => n.wf h .x64
  | .bfx h _ _ _ wm1 lsb | .bfi h _ _ wm1 lsb => h.noB && fieldFits wm1 lsb
  | .addi h _ _ _ => h.noB
  | .movi h _ _ | .movhi h _ _ => h.noAB
  | .cmp h _ _ _ _ (.imm _) => h.noB
  | .fcvt h k rm sat _ _ => h.noB && (!sat || k == .f2bf) && (k != .bf2f || rm == .rne)
  | .br h _ | .call h _ => h.noAB
  | .bc _ (.cmp _ _ _) _ => true
  | .bc h (.pt _) _ | .bc h (.pf _) _ | .bc h (.pany _) _ | .bc h (.pall _) _ | .bc h (.pnone _) _ => h.noB
  | .ret h _ | .jmpr h _ _ => h.noB
  | .loop h _ _ off => h.noB && loopOffOk off
  | .loopi h _ _ off => h.noAB && loopOffOk off
  | .endit h | .trap h _ | .pause h _ => h.noAB
  | .nop h => h == Hdr.zero
  | .getc h r _ n => h.noAB && (r == .wcnt || n == 0)
  | .setc h _ _ => h.noB
  | .vadd _ t rm _ _ _ | .vsub _ t rm _ _ _ | .vmul _ t rm _ _ _ => t.isFloat || rm == .rne
  | .vmin _ t u _ _ _ | .vmax _ t u _ _ _ => !(t.isFloat && u)
  | .vabs h _ _ _ | .vneg h _ _ _ | .vnot h _ _ => h.noB
  | .vshl h t _ _ n | .vshr h t _ _ n | .vsra h t _ _ n => n.wf h t
  | .vmulh _ t _ _ _ _ => t != .i8
  | .vdot2 _ flt rm _ _ _ _ => flt || rm == .rne
  | .vexp2 h _ _ | .vlog2 h _ _ | .vrcp h _ _ | .vrsqrt h _ _ | .vtanh h _ _ | .vsigm h _ _ => h.tagged && h.noB
  | .vsqrt h _ _ _ => h.tagged && h.noB
  | .vbcast h _ _ | .vmov h _ | .vcompact h _ _ _ | .vexpand h _ _ _ => h.noB
  | .vrot h _ _ n | .vslide h _ _ _ _ n => n.wf h
  | .vredsum h _ _ _ _ | .vredmax h _ _ _ _ | .vredmin h _ _ _ _ | .vscan h _ _ _ _ => h.noB
  | .vtopk h _ _ _ k _ _ _ => h.noB && k != 0
  | .vpopc h _ _ | .vpfx h _ _ => h.noB
  | .vcvt h up rm sat t _ _ => h.noB && (!up || t == .i32 || (rm == .rne && !sat))
  | .vquantScale h _ _ _ _ => h.noB
  | .vpack h t part _ _ | .vunpack h t part _ _ => h.noB && partOk t part
  | .vrnd h _ _ _ => h.noB
  | .pnot h _ _ | .pcnt h _ _ _ | .pfirst h _ _ => h.noB
  | .pset h _ (.imm _) => h.noAB
  | .pset h _ (.count _) | .pset h _ (.bits _) => h.noB
  | .ld h _ _ _ w sx _ | .ldacq h _ _ _ w _ sx _ => h.tagged && h.noB && !(sx && w == .d)
  | .vld h _ _ _ _ _ | .vgather h _ _ _ _ _ => h.tagged && h.noB
  | .vscatter _ _ _ sp k _ _ => sp != .g || k == .none
  | .align h => h.noAB
  | .fence h o _ => h.noAB && o != .none
  | .amo h _ _ dbl s o op u _ => h.tagged && scopeOk o s && (!u || op.signable) && !(op == .fadd && dbl)
  | .cas h d _ _ s o _ => h.tagged && scopeOk o s && d.val % 2 == 0
  | .cred _ _ _ dbl s o op _ _ _ => scopeOk o s && op != .swap && !(op == .fadd && dbl)
  | .barArrive h _ rel s _ => h.noB && (rel || s == .core)
  | .barWait h _ _ (.imm _) _ => h.noB
  | .gjoin h _ _ | .gleave h _ _ | .gbar h _ _ _ => h.noB
  | .tokw h wp wn => h.noAB && (wp || wn)
  | .toks h sp sn => h.noAB && (sp || sn)
  | .wload h _ _ _ => h.noB
  | .plane h _ _ => h.noAB
  | .sbind h _ q _ en => h.noAB && (en || q == 0)
  | .aclr h _ _ => h.noA
  | .pstat h _ n => h.tagged && h.noAB && (decide (n.val < 2) || (decide (4 ≤ n.val) && decide (n.val < 8)))
  | .qreset h _ | .cwait h _ | .ccls h _ => h.noAB
  | .qfill h _ _ | .cdef h _ _ _ => h.noB
  | .qpop h _ _ | .qpopFree h _ _ => h.tagged && h.noAB
  | .qtag h _ _ slot ptr => h.tagged && h.noAB && (!ptr || slot == 0)
  | .cstat h _ circuit n => h.tagged && h.noAB && (circuit || decide (n.val < 16))
  | .wdrive h _ _ | .wdriveNew h _ _ => h.tagged && h.noB
  | .wdriveAbort h _ => h.tagged && h.noAB
  | .wstat h _ n => h.tagged && h.noAB && decide (n.val < 10)
  | .launch h _ _ _ | .lwait h _ _ | .lwaitT h _ _ => h.tagged && h.noB
  | .rett h | .sysc h _ | .halt h => h.noAB
  | .prd h r _ => h.tagged && h.noAB && sysRegKnown r
  | .pwr h r _ => h.noB && sysRegKnown r
  | .tlbi h _ (.all) | .tlbi h _ (.asid _) => h.noAB
  | .tlbi h _ (.va _ _ _) => h.noB
  | .cast h _ _ _ => h.tagged && h.noAB
  | .freeze h _ _ | .thaw h _ _ => h.noB
  | .wfi h wake a => h.noB && wake != 0 && (decide (4 ≤ wake.val) || (h.noA && a == 0))
  | .ctxsave h _ | .ctxload h _ | .qsave h _ _ | .qload h _ _ => h.noB
  -- what the syntax admits is well formed
  | .cmp _ _ _ _ _ (.reg _) | .barWait _ _ _ (.reg _) _ | .add _ _ _ _ _ | .sub _ _ _ _ _ | .mul _ _ _ _ _
  | .mulh _ _ _ _ _ | .mulhu _ _ _ _ _ | .div _ _ _ _ _ | .divu _ _ _ _ _ | .rem _ _ _ _ _ | .remu _ _ _ _ _
  | .and _ _ _ _ | .or _ _ _ _ | .xor _ _ _ _ | .andn _ _ _ _ | .min _ _ _ _ _ | .max _ _ _ _ _
  | .minu _ _ _ _ _ | .maxu _ _ _ _ _ | .sel _ _ _ _ _ | .lea _ _ _ _ _ | .fadd _ _ _ _ _ | .fsub _ _ _ _ _
  | .fmul _ _ _ _ _ | .ffma _ _ _ _ _ _ | .fmin _ _ _ _ | .fmax _ _ _ _ | .fcmp _ _ _ _ _
  | .vfma _ _ _ _ _ _ _ | .vfms _ _ _ _ _ _ _ | .vnfma _ _ _ _ _ _ _ | .vcmp _ _ _ _ _ | .vsel _ _ _ _ _
  | .vand _ _ _ _ | .vor _ _ _ _ | .vxor _ _ _ _ | .vadds _ _ _ _ _ _ _ | .vperm _ _ _ _ | .vbmand _ _ _
  | .vquant _ _ _ _ _ _ _ | .vdequant _ _ _ _ _ _ | .pand _ _ _ _ | .por _ _ _ _ | .pxor _ _ _ _
  | .st _ _ _ _ _ _ | .strel _ _ _ _ _ _ _ | .vst _ _ _ _ _ _ | .barInit _ _ _ _ _ | .carve _ _ _ _ _
  | .mmap _ _ _ _ | .feed _ _ _ _ _ _ _ _ _ | .feedx _ _ _ _ _ _ _ _ | .drain _ _ _ _ _ _ _ | .qdef _ _ _ _
  | .cgo _ _ _ _ | .cdem _ _ _ _ | .circ _ _ _ _ _ => true
  -- events
  | .pauseEnd _ | .releaseWaitEnd _ | .tokwPop _ | .carveBegin _ | .carveRecordRead _ | .wloadSlotStep _
  | .mmapBegin _ | .sbindBegin _ | .planeSwap _ | .feedArm _ | .tokenEntryBegin _ _ | .poolOperationFire _ _
  | .passEnterResultStage _ _ | .operationRetire _ _ | .extendedPartArrive _ | .drainBegin _
  | .drainSlotFull _ | .aclrBegin _ | .qdefTakeEffect _ _ | .qresetTakeEffect _ _ | .qfillSlotFull _ _
  | .qpopTake _ | .cdefReadComplete _ _ | .cwaitReturn _ | .copyBlock _ _ | .copyDone _ _
  | .copyCompletionTokenPush _ _ | .circuitOpeningArrive _ | .circuitReplyArrive _ | .circuitFlitLeave _ _
  | .branchFillBegin _ _ _ | .circuitFlitArrive _ _ _ | .circuitClosed _ _ | .feltHeaderRead _
  | .feltActionPlace _ | .loadwBlock _ | .walkerToken _ | .feltSuccessor _ | .tagbrResolve _
  | .launchRequestArrive _ | .lwaitReturn _ | .freezeApply _ | .wfiWake _ | .engineFaultTaken _
  | .registerResultArrive _ _ | .holdbackDepart _ _ | .writeAgePerform _ _ _ | .loadPerform _ _ _
  | .homeStoreApply _ _ | .amoApply _ | .casApply _ | .credApply _ | .barInitApply _ | .barrierArrivalApply _
  | .boundCopyWriteApply _ | .barWaitCheck _ | .barWaitReturn _ | .groupOpApply _ | .gbarArrivalApply _
  | .gbarReturn _ | .requestAck _ _ | .freeNoticeArrive _ | .slotReleaseDepart _ _ | .cacheMissRead _ _
  | .compressedWriteback _ _ | .walkSlotGrant _ | .pageWalkComplete _ _ | .lqDoorWrite _ _ _
  | .waitbarRead _ _ | .schedulerGrant _ | .headStarving _ _ | .coreClearComplete _ | .iterationDispatch _
  | .coreRelease _ | .launchComplete _ _ | .deadlockDetect _ | .castTake _ | .strikeReport _ _ _
  | .sharedBlockStrike _ | .lockstepMismatch _ | .residueReject _ | .hbmScrubPass _ _ | .hbmErrSample _
  | .guardDrop _ | .dropNoticeArrive _ | .budgetWindow | .gangSwitch _ | .coreStop _ | .saveComplete _
  | .loadComplete _ | .acceptWrite _ _ _ | .accept3Write _ _ | .coreCtlWrite _ _ _ | .lqCfgWrite _ _ _ _
  | .switchAtWrite _ _ _ | .pmapWrite _ _ _ | .pctlWrite _ _ | .calWrite _ _ _ | .rtabxWrite _ _ _
  | .budgetWrite _ _ _ _ | .feedBudWrite _ _ _ | .mdbaseWrite _ _ _ | .apbaseWrite _ _ | .lpctlWrite _ _ _
  | .pcapWrite _ | .tlimitWrite _ | .attCtlGo | .registerWrite _ _ _ _ | .hostWrite _ _ _ _ | .hostRead _ _ _
  | .vfFunctionReset _ | .pfFunctionReset | .linkFlitReceive _ | .linkNakResend _ | .linkResendTimeout _
  | .portRetrain _ | .portTrained _ | .timeExchange _ | .powerRamp _ | .rstNAssert | .rstNRelease
  | .bootStage _ | .serviceProcessorStrike | .governorSample | .thermtrip _ | .attReportReady | .powerRemoval
  | .tlbEntryLeave _ _ => true

end Sys2Proof
end

