-- ==== Sys2Proof/Decode.lean ====
section
/-! DEFINITION. The 80-bit instruction word: the control header (R119), the six payload formats (R122 to
R129), the encoder and the decoder (R136, R138). Words are natural numbers below 2^80 here, so that a field
is a quotient and a remainder. -/

namespace Sys2Proof

/-- Bits [pos + width - 1 : pos] of a number. -/
def bitsAt (w pos width : Nat) : Nat := w / 2 ^ pos % 2 ^ width
/-- A Boolean as a bit. -/
def b2n (b : Bool) : Nat := if b then 1 else 0
/-- A bit as a Boolean. -/
def n2b (n : Nat) : Bool := n % 2 == 1

/-- Payload of format A (R122). -/
structure PayA where
  d : Nat
  a : Nat
  b : Nat
  c : Nat
  ty : Nat
  fn : Nat
  rm : Nat
  sat : Nat
  aux : Nat
  deriving DecidableEq, Repr
/-- Payload of format I (R124). -/
structure PayI where
  d : Nat
  a : Nat
  imm : Nat
  fn : Nat
  deriving DecidableEq, Repr
/-- Payload of format B (R125). -/
structure PayB where
  cond : Nat
  a : Nat
  b : Nat
  off : Nat
  fn : Nat
  deriving DecidableEq, Repr
/-- Payload of format M (R126). -/
structure PayM where
  data : Nat
  base : Nat
  space : Nat
  width : Nat
  scope : Nat
  order : Nat
  off : Nat
  fn : Nat
  deriving DecidableEq, Repr
/-- Payload of format E (R127). `tok` is [51:48]. -/
structure PayE where
  tok : Nat
  a : Nat
  b : Nat
  c : Nat
  ring : Nat
  spec : Nat
  deriving DecidableEq, Repr
/-- Payload of format S (R129). -/
structure PayS where
  sysreg : Nat
  a : Nat
  imm : Nat
  deriving DecidableEq, Repr

def PayA.pack (p : PayA) : Nat :=
  p.d * 2^46 + p.a * 2^40 + p.b * 2^34 + p.c * 2^28 + p.ty * 2^24 + p.fn * 2^16 + p.rm * 2^13 + p.sat * 2^12 + p.aux
def PayA.unpack (w : Nat) : PayA :=
  ⟨bitsAt w 46 6, bitsAt w 40 6, bitsAt w 34 6, bitsAt w 28 6, bitsAt w 24 4, bitsAt w 16 8, bitsAt w 13 3,
   bitsAt w 12 1, bitsAt w 0 12⟩
def PayI.pack (p : PayI) : Nat := p.d * 2^46 + p.a * 2^40 + p.imm * 2^8 + p.fn
def PayI.unpack (w : Nat) : PayI := ⟨bitsAt w 46 6, bitsAt w 40 6, bitsAt w 8 32, bitsAt w 0 8⟩
def PayB.pack (p : PayB) : Nat := p.cond * 2^48 + p.a * 2^42 + p.b * 2^36 + p.off * 2^4 + p.fn
def PayB.unpack (w : Nat) : PayB := ⟨bitsAt w 48 4, bitsAt w 42 6, bitsAt w 36 6, bitsAt w 4 32, bitsAt w 0 4⟩
def PayM.pack (p : PayM) : Nat :=
  p.data * 2^46 + p.base * 2^40 + p.space * 2^38 + p.width * 2^36 + p.scope * 2^34 + p.order * 2^32 + p.off * 2^8 + p.fn
def PayM.unpack (w : Nat) : PayM :=
  ⟨bitsAt w 46 6, bitsAt w 40 6, bitsAt w 38 2, bitsAt w 36 2, bitsAt w 34 2, bitsAt w 32 2, bitsAt w 8 24, bitsAt w 0 8⟩
def PayE.pack (p : PayE) : Nat :=
  p.tok * 2^48 + p.a * 2^42 + p.b * 2^36 + p.c * 2^30 + p.ring * 2^26 + p.spec
def PayE.unpack (w : Nat) : PayE :=
  ⟨bitsAt w 48 4, bitsAt w 42 6, bitsAt w 36 6, bitsAt w 30 6, bitsAt w 26 4, bitsAt w 0 26⟩
def PayS.pack (p : PayS) : Nat := p.sysreg * 2^40 + p.a * 2^34 + p.imm
def PayS.unpack (w : Nat) : PayS := ⟨bitsAt w 40 12, bitsAt w 34 6, bitsAt w 0 34⟩

/-- A payload in one of the six formats. -/
inductive Pay
  | a (p : PayA) | i (p : PayI) | b (p : PayB) | m (p : PayM) | e (p : PayE) | s (p : PayS)
  deriving DecidableEq, Repr
def Pay.pack : Pay → Nat
  | .a p => p.pack
  | .i p => p.pack
  | .b p => p.pack
  | .m p => p.pack
  | .e p => p.pack
  | .s p => p.pack

/-- The header as bits [71:52] (R119). -/
def Hdr.pack (h : Hdr) : Nat :=
  (match h.tag with | none => 0 | some t => (8 + t.val) * 2^16) + h.wait.toNat * 2^8 + h.pda.val * 2^6 +
  h.pdb.val * 2^4 + b2n h.pneg * 2^3 + h.pred.val
def Hdr.unpack (w : Nat) : Hdr :=
  ⟨if n2b (bitsAt w 19 1) then some (Fin.ofNat 8 (bitsAt w 16 3)) else none, BitVec.ofNat 8 (bitsAt w 8 8),
   Fin.ofNat 4 (bitsAt w 6 2), Fin.ofNat 4 (bitsAt w 4 2), n2b (bitsAt w 3 1), Fin.ofNat 8 (bitsAt w 0 3)⟩

/-- An instruction word taken apart: opcode, header and payload. -/
structure Enc where
  op : Nat
  h : Hdr
  pay : Pay
  deriving DecidableEq, Repr
/-- The word of an encoding (R118, R119). -/
def Enc.word (e : Enc) : Nat := e.op * 2^72 + e.h.pack * 2^52 + e.pay.pack

/-! Field codes. -/

def IWidth.code : IWidth → Nat
  | .x64 => 0
  | .i32 => 3
def IWidth.dec : Nat → Option IWidth
  | 0 => some .x64
  | 3 => some .i32
  | _ => none
def Rnd.code : Rnd → Nat
  | .rne => 0
  | .rtz => 1
  | .rsr => 2
  | .dyn => 3
def Rnd.dec : Nat → Option Rnd
  | 0 => some .rne
  | 1 => some .rtz
  | 2 => some .rsr
  | 3 => some .dyn
  | _ => none
def ExtW.code : ExtW → Nat
  | .x8 => 0
  | .x16 => 1
  | .x32 => 2
def ExtW.dec : Nat → Option ExtW
  | 0 => some .x8
  | 1 => some .x16
  | 2 => some .x32
  | _ => none
def ICond.code : ICond → Nat
  | .eq => 0
  | .ne => 1
  | .lt => 2
  | .ge => 3
  | .ltu => 4
  | .geu => 5
def ICond.dec : Nat → Option ICond
  | 0 => some .eq
  | 1 => some .ne
  | 2 => some .lt
  | 3 => some .ge
  | 4 => some .ltu
  | 5 => some .geu
  | _ => none
def FCond.code : FCond → Nat
  | .eq => 0
  | .lt => 1
  | .le => 2
  | .un => 3
def FCond.dec : Nat → Option FCond
  | 0 => some .eq
  | 1 => some .lt
  | 2 => some .le
  | 3 => some .un
  | _ => none
def FConv.code : FConv → Nat
  | .f2i => 0
  | .i2f => 1
  | .f2bf => 2
  | .bf2f => 3
  | .f2l => 4
  | .l2f => 5
def FConv.dec : Nat → Option FConv
  | 0 => some .f2i
  | 1 => some .i2f
  | 2 => some .f2bf
  | 3 => some .bf2f
  | 4 => some .f2l
  | 5 => some .l2f
  | _ => none
def CtlReg.code : CtlReg → Nat
  | .cycle => 0
  | .ptime => 1
  | .core => 2
  | .fflags => 3
  | .round => 4
  | .seed => 5
  | .wcnt => 6
  | .tags => 7
  | .priv => 8
  | .ls0 => 9
  | .le0 => 10
  | .lc0 => 11
  | .ls1 => 12
  | .le1 => 13
  | .lc1 => 14
def CtlReg.dec : Nat → Option CtlReg
  | 0 => some .cycle
  | 1 => some .ptime
  | 2 => some .core
  | 3 => some .fflags
  | 4 => some .round
  | 5 => some .seed
  | 6 => some .wcnt
  | 7 => some .tags
  | 8 => some .priv
  | 9 => some .ls0
  | 10 => some .le0
  | 11 => some .lc0
  | 12 => some .ls1
  | 13 => some .le1
  | 14 => some .lc1
  | _ => none
def VTy.code : VTy → Nat
  | .f32 => 1
  | .bf16 => 2
  | .i32 => 3
  | .i16 => 4
  | .i8 => 5
def VTy.dec : Nat → Option VTy
  | 1 => some .f32
  | 2 => some .bf16
  | 3 => some .i32
  | 4 => some .i16
  | 5 => some .i8
  | _ => none
def FTy.code : FTy → Nat
  | .f32 => 1
  | .bf16 => 2
def FTy.dec : Nat → Option FTy
  | 1 => some .f32
  | 2 => some .bf16
  | _ => none
def ITy.code : ITy → Nat
  | .i32 => 3
  | .i16 => 4
  | .i8 => 5
def ITy.dec : Nat → Option ITy
  | 3 => some .i32
  | 4 => some .i16
  | 5 => some .i8
  | _ => none
def RedTy.code : RedTy → Nat
  | .f32 => 1
  | .bf16 => 2
  | .i32 => 3
def RedTy.dec : Nat → Option RedTy
  | 1 => some .f32
  | 2 => some .bf16
  | 3 => some .i32
  | _ => none
/-- Type code and fn of `vredmax` and `vredmin` (R184). -/
def ExtTy.code : ExtTy → Nat × Nat
  | .f32 => (1, 0)
  | .i32 => (3, 0)
  | .u32 => (3, 1)
def ExtTy.dec : Nat → Nat → Option ExtTy
  | 1, 0 => some .f32
  | 3, 0 => some .i32
  | 3, 1 => some .u32
  | _, _ => none
/-- FP32 or INT32 type code (R123). -/
def fltCode (flt : Bool) : Nat := if flt then 1 else 3
def fltDec : Nat → Option Bool
  | 1 => some true
  | 3 => some false
  | _ => none
/-- Type code and fn of `vcmp` (R178). -/
def VCond.code : VCond → Nat × Nat
  | .f k => (1, k.code)
  | .i k => (3, k.code)
def VCond.dec (ty fn : Nat) : Option VCond :=
  match ty with
  | 1 => (FCond.dec fn).map .f
  | 3 => (ICond.dec fn).map .i
  | _ => none
def CvtTy.code : CvtTy → Nat
  | .i32 => 3
  | .tag t => 8 + t.val
def CvtTy.dec (n : Nat) : Option CvtTy :=
  if n = 3 then some .i32 else if 8 ≤ n then some (.tag (Fin.ofNat 8 n)) else none
/-- A format tag as a type code (R123). -/
def tagDec (n : Nat) : Option (Fin 8) := if 8 ≤ n then some (Fin.ofNat 8 n) else none
def Space.code : Space → Nat
  | .g => 0
  | .wb => 1
  | .ab => 2
  | .cb => 3
def Space.dec (n : Nat) : Space :=
  match n % 4 with
  | 0 => .g
  | 1 => .wb
  | 2 => .ab
  | _ => .cb
def MWidth.code : MWidth → Nat
  | .b => 0
  | .h => 1
  | .w => 2
  | .d => 3
def MWidth.dec (n : Nat) : MWidth :=
  match n % 4 with
  | 0 => .b
  | 1 => .h
  | 2 => .w
  | _ => .d
def Scope.code : Scope → Nat
  | .core => 0
  | .die => 1
  | .pkg => 2
  | .sys => 3
def Scope.dec (n : Nat) : Scope :=
  match n % 4 with
  | 0 => .core
  | 1 => .die
  | 2 => .pkg
  | _ => .sys
def Ord.code : Ord → Nat
  | .none => 0
  | .acq => 1
  | .rel => 2
  | .ar => 3
def Ord.dec (n : Nat) : Ord :=
  match n % 4 with
  | 0 => .none
  | 1 => .acq
  | 2 => .rel
  | _ => .ar
/-- COMB and FLT of `vscatter`, fn[7:5] (R195, R201). -/
def Comb.code : Comb → Nat
  | .none => 0
  | .addI32 => 1
  | .maxI32 => 2
  | .addF32 => 5
  | .maxF32 => 6
def Comb.dec : Nat → Option Comb
  | 0 => some .none
  | 1 => some .addI32
  | 2 => some .maxI32
  | 5 => some .addF32
  | 6 => some .maxF32
  | _ => none
def AmoOp.code : AmoOp → Nat
  | .add => 0
  | .fadd => 1
  | .min => 2
  | .max => 3
  | .and => 4
  | .or => 5
  | .xor => 6
  | .swap => 7
def AmoOp.dec (n : Nat) : AmoOp :=
  match n % 8 with
  | 0 => .add
  | 1 => .fadd
  | 2 => .min
  | 3 => .max
  | 4 => .and
  | 5 => .or
  | 6 => .xor
  | _ => .swap
def Tok.code (t : Tok) : Nat := b2n t.wp * 8 + b2n t.wn * 4 + b2n t.sp * 2 + b2n t.sn
def Tok.dec (n : Nat) : Tok := ⟨n2b (n / 8), n2b (n / 4), n2b (n / 2), n2b n⟩
def TlbScope.code : TlbScope → Nat
  | .core => 0
  | .part => 1
  | .pkg => 2
def TlbScope.dec : Nat → Option TlbScope
  | 0 => some .core
  | 1 => some .part
  | 2 => some .pkg
  | _ => none
def CastField.code : CastField → Nat
  | .cyc => 0
  | .ns => 1
  | .stat => 2
def CastField.dec : Nat → Option CastField
  | 0 => some .cyc
  | 1 => some .ns
  | 2 => some .stat
  | _ => none

/-! The encoder: one line per front-end constructor, from the encoding tables of R149 to R351. -/

/-- Format A with type, and with every other field zero. -/
def encA (op : Nat) (h : Hdr) (d a b c : Nat) (ty fn rm sat aux : Nat := 0) : Enc :=
  ⟨op, h, .a ⟨d, a, b, c, ty, fn, rm, sat, aux⟩⟩
def encI (op : Nat) (h : Hdr) (d a imm fn : Nat) : Enc := ⟨op, h, .i ⟨d, a, imm, fn⟩⟩
def encB (op : Nat) (h : Hdr) (cond a b off fn : Nat) : Enc := ⟨op, h, .b ⟨cond, a, b, off, fn⟩⟩
def encM (op : Nat) (h : Hdr) (data base space width scope order off fn : Nat) : Enc :=
  ⟨op, h, .m ⟨data, base, space, width, scope, order, off, fn⟩⟩
def encE (op : Nat) (h : Hdr) (tok a b c ring spec : Nat) : Enc := ⟨op, h, .e ⟨tok, a, b, c, ring, spec⟩⟩
def encS (op : Nat) (h : Hdr) (sysreg a imm : Nat) : Enc := ⟨op, h, .s ⟨sysreg, a, imm⟩⟩

/-- A shift by register or immediate: fields b, fn and AUX (R149, R150). -/
def encShift (op : Nat) (h : Hdr) (ty d a : Nat) : ShAmt → Enc
  | .reg b => encA op h d a b.val 0 ty
  | .imm n => encA op h d a 0 0 ty 1 0 0 n.val
def encVShift (op : Nat) (h : Hdr) (ty d a : Nat) : VShAmt → Enc
  | .reg b => encA op h d a b.val 0 ty
  | .imm n => encA op h d a 0 0 ty 1 0 0 n.val

/-- The encoding of a front-end word; an event has none. -/
def Instr.enc : Instr → Option Enc
  | .add h w d a b => some (encA 0x01 h d a b 0 w.code)
  | .sub h w d a b => some (encA 0x02 h d a b 0 w.code)
  | .addi h d a imm => some (encI 0x03 h d a imm.toNat 0)
  | .mul h w d a b => some (encA 0x04 h d a b 0 w.code)
  | .mulh h w d a b => some (encA 0x05 h d a b 0 w.code)
  | .mulhu h w d a b => some (encA 0x06 h d a b 0 w.code)
  | .div h w d a b => some (encA 0x07 h d a b 0 w.code)
  | .divu h w d a b => some (encA 0x08 h d a b 0 w.code)
  | .rem h w d a b => some (encA 0x09 h d a b 0 w.code)
  | .remu h w d a b => some (encA 0x0A h d a b 0 w.code)
  | .and h d a b => some (encA 0x0B h d a b 0)
  | .or h d a b => some (encA 0x0C h d a b 0)
  | .xor h d a b => some (encA 0x0D h d a b 0)
  | .andn h d a b => some (encA 0x0E h d a b 0)
  | .shl h w d a n => some (encShift 0x0F h w.code d a n)
  | .shr h w d a n => some (encShift 0x10 h w.code d a n)
  | .sra h w d a n => some (encShift 0x11 h w.code d a n)
  | .rot h d a n => some (encShift 0x12 h 0 d a n)
  | .clz h w d a => some (encA 0x13 h d a 0 0 w.code)
  | .ctz h w d a => some (encA 0x14 h d a 0 0 w.code)
  | .popc h w d a => some (encA 0x15 h d a 0 0 w.code)
  | .min h w d a b => some (encA 0x16 h d a b 0 w.code)
  | .max h w d a b => some (encA 0x17 h d a b 0 w.code)
  | .minu h w d a b => some (encA 0x18 h d a b 0 w.code)
  | .maxu h w d a b => some (encA 0x19 h d a b 0 w.code)
  | .sext h x d a => some (encA 0x1A h d a 0 0 0 x.code)
  | .zext h x d a => some (encA 0x1B h d a 0 0 0 x.code)
  | .bfx h s d a w l => some (encA 0x1C h d a 0 0 0 (b2n s) 0 0 (w.val * 64 + l.val))
  | .bfi h d a w l => some (encA 0x1D h d a 0 0 0 0 0 0 (w.val * 64 + l.val))
  | .mov h d a => some (encA 0x1E h d a 0 0)
  | .movi h d imm => some (encI 0x1F h d 0 imm.toNat 0)
  | .movhi h d imm => some (encI 0x20 h d 0 imm.toNat 0)
  | .sel h d a b c => some (encA 0x21 h d a b c)
  | .cmp h w k d a (.reg b) => some (encA 0x22 h d a b 0 w.code k.code)
  | .cmp h w k d a (.imm n) => some (encA 0x22 h d a 0 0 w.code (0x80 + k.code) 0 0 n.toNat)
  | .lea h d a b s => some (encA 0x23 h d a b 0 0 0 0 0 s)
  | .fadd h rm d a b => some (encA 0x24 h d a b 0 1 0 rm.code)
  | .fsub h rm d a b => some (encA 0x25 h d a b 0 1 0 rm.code)
  | .fmul h rm d a b => some (encA 0x26 h d a b 0 1 0 rm.code)
  | .ffma h rm d a b c => some (encA 0x27 h d a b c 1 0 rm.code)
  | .fmin h d a b => some (encA 0x28 h d a b 0 1)
  | .fmax h d a b => some (encA 0x29 h d a b 0 1)
  | .fcmp h k d a b => some (encA 0x2A h d a b 0 1 k.code)
  | .fcvt h k rm s d a => some (encA 0x2B h d a 0 0 1 k.code rm.code (b2n s))
  | .br h off => some (encB 0x30 h 0 0 0 off.toNat 0)
  | .bc h (.cmp k a b) off => some (encB 0x31 h k.code a b off.toNat 0)
  | .bc h (.pt a) off => some (encB 0x31 h 8 a 0 off.toNat 0)
  | .bc h (.pf a) off => some (encB 0x31 h 9 a 0 off.toNat 0)
  | .bc h (.pany a) off => some (encB 0x31 h 10 a 0 off.toNat 0)
  | .bc h (.pall a) off => some (encB 0x31 h 11 a 0 off.toNat 0)
  | .bc h (.pnone a) off => some (encB 0x31 h 12 a 0 off.toNat 0)
  | .call h off => some (encB 0x32 h 0 0 0 off.toNat 0)
  | .ret h a => some (encB 0x33 h 0 a 0 0 0)
  | .jmpr h l a => some (encB 0x34 h 0 a 0 0 (b2n l))
  | .loop h s a off => some (encB 0x35 h 0 a 0 off.toNat (b2n s))
  | .loopi h s n off => some (encB 0x36 h 0 (n.toNat / 64) (n.toNat % 64) off.toNat (b2n s))
  | .endit h => some (encB 0x37 h 0 0 0 0 0)
  | .trap h imm => some (encI 0x38 h 0 0 imm.toNat 0)
  | .nop h => some (encA 0x39 h 0 0 0 0)
  | .pause h imm => some (encI 0x3A h 0 0 imm.toNat 0)
  | .getc h r d n => some (encS 0x3B h r.code d n)
  | .setc h r a => some (encS 0x3C h r.code a 0)
  | .vadd h t rm d a b => some (encA 0x40 h d a b 0 t.code 0 rm.code)
  | .vsub h t rm d a b => some (encA 0x41 h d a b 0 t.code 0 rm.code)
  | .vmul h t rm d a b => some (encA 0x42 h d a b 0 t.code 0 rm.code)
  | .vfma h t rm d a b c => some (encA 0x43 h d a b c t.code 0 rm.code)
  | .vfms h t rm d a b c => some (encA 0x44 h d a b c t.code 0 rm.code)
  | .vnfma h t rm d a b c => some (encA 0x45 h d a b c t.code 0 rm.code)
  | .vmin h t u d a b => some (encA 0x46 h d a b 0 t.code (b2n u))
  | .vmax h t u d a b => some (encA 0x47 h d a b 0 t.code (b2n u))
  | .vabs h t d a => some (encA 0x48 h d a 0 0 t.code)
  | .vneg h t d a => some (encA 0x49 h d a 0 0 t.code)
  | .vcmp h k d a b => some (encA 0x4A h d a b 0 k.code.1 k.code.2)
  | .vsel h d a b c => some (encA 0x4B h d a b c)
  | .vand h d a b => some (encA 0x4C h d a b 0)
  | .vor h d a b => some (encA 0x4D h d a b 0)
  | .vxor h d a b => some (encA 0x4E h d a b 0)
  | .vnot h d a => some (encA 0x4F h d a 0 0)
  | .vshl h t d a n => some (encVShift 0x50 h t.code d a n)
  | .vshr h t d a n => some (encVShift 0x51 h t.code d a n)
  | .vsra h t d a n => some (encVShift 0x52 h t.code d a n)
  | .vadds h t u s d a b => some (encA 0x53 h d a b 0 t.code (b2n u + 2 * b2n s))
  | .vmulh h t u d a b => some (encA 0x54 h d a b 0 t.code (b2n u))
  | .vdot2 h f rm d a b c => some (encA 0x55 h d a b c (if f then 2 else 4) 0 rm.code)
  | .vexp2 h d a => some (encA 0x58 h d a 0 0 1)
  | .vlog2 h d a => some (encA 0x59 h d a 0 0 1)
  | .vrcp h d a => some (encA 0x5A h d a 0 0 1)
  | .vrsqrt h d a => some (encA 0x5B h d a 0 0 1)
  | .vsqrt h rm d a => some (encA 0x5C h d a 0 0 1 0 rm.code)
  | .vtanh h d a => some (encA 0x5D h d a 0 0 1)
  | .vsigm h d a => some (encA 0x5E h d a 0 0 1)
  | .vbcast h d (.scalar a) => some (encA 0x60 h d a 0 0)
  | .vbcast h d (.lane a n) => some (encA 0x60 h d a 0 0 0 1 0 0 n)
  | .vmov h (.mov d a) => some (encA 0x61 h d a 0 0)
  | .vmov h (.extract d a n) => some (encA 0x61 h d a 0 0 0 1 0 0 n)
  | .vmov h (.insert d a n) => some (encA 0x61 h d a 0 0 0 2 0 0 n)
  | .vperm h d a b => some (encA 0x62 h d a b 0)
  | .vrot h d a (.reg b) => some (encA 0x63 h d a b 0)
  | .vrot h d a (.imm n) => some (encA 0x63 h d a 0 0 0 1 0 0 n)
  | .vslide h u d a c (.reg b) => some (encA 0x64 h d a b c 0 (2 * b2n u))
  | .vslide h u d a c (.imm n) => some (encA 0x64 h d a 0 c 0 (1 + 2 * b2n u) 0 0 n)
  | .vcompact h d a c => some (encA 0x65 h d a 0 c)
  | .vexpand h d a c => some (encA 0x66 h d a 0 c)
  | .vredsum h t d a c => some (encA 0x67 h d a 0 c t.code)
  | .vredmax h t d a c => some (encA 0x68 h d a 0 c t.code.1 t.code.2)
  | .vredmin h t d a c => some (encA 0x69 h d a 0 c t.code.1 t.code.2)
  | .vscan h f d a c => some (encA 0x6A h d a 0 c (fltCode f))
  | .vtopk h f m x k d a c => some (encA 0x6B h d a 0 c (fltCode f) (b2n m + 2 * b2n x) 0 0 k)
  | .vbmand h d (.scalars a b) => some (encA 0x6C h d a b 0)
  | .vbmand h d (.preds a b) => some (encA 0x6C h d a b 0 0 1)
  | .vpopc h d a => some (encA 0x6D h d a 0 0)
  | .vpfx h d (.scalar a) => some (encA 0x6E h d a 0 0)
  | .vpfx h d (.pred a) => some (encA 0x6E h d a 0 0 0 1)
  | .vcvt h up rm s t d a => some (encA 0x70 h d a 0 0 t.code (b2n up) rm.code (b2n s))
  | .vquantScale h t d a c => some (encA 0x71 h d a 0 c (8 + t.val) 1)
  | .vquant h rm s t d a b => some (encA 0x71 h d a b 0 (8 + t.val) 0 rm.code (b2n s))
  | .vdequant h rm t d a b => some (encA 0x72 h d a b 0 (8 + t.val) 0 rm.code)
  | .vpack h t p d a => some (encA 0x73 h d a 0 0 (8 + t.val) 0 0 0 p)
  | .vunpack h t p d a => some (encA 0x74 h d a 0 0 (8 + t.val) 0 0 0 p)
  | .vrnd h rm d a => some (encA 0x75 h d a 0 0 1 0 rm.code)
  | .pand h d a b => some (encA 0x78 h d a b 0)
  | .por h d a b => some (encA 0x79 h d a b 0)
  | .pxor h d a b => some (encA 0x7A h d a b 0)
  | .pnot h d a => some (encA 0x7B h d a 0 0)
  | .pcnt h b d a => some (encA 0x7C h d a 0 0 0 (b2n b))
  | .pfirst h d a => some (encA 0x7D h d a 0 0)
  | .pset h d (.imm n) => some (encA 0x7E h d 0 0 0 0 0 0 0 n)
  | .pset h d (.count a) => some (encA 0x7E h d a 0 0 0 1)
  | .pset h d (.bits a) => some (encA 0x7E h d a 0 0 0 2)
  | .ld h d a sp w sx off => some (encM 0xA0 h d a sp.code w.code 0 0 off.toNat (b2n sx))
  | .st h b a sp w off => some (encM 0xA1 h b a sp.code w.code 0 0 off.toNat 0)
  | .ldacq h d a sp w s sx off => some (encM 0xA2 h d a sp.code w.code s.code 1 off.toNat (b2n sx))
  | .strel h b a sp w s off => some (encM 0xA3 h b a sp.code w.code s.code 2 off.toNat 0)
  | .vld h d a sp str off => some (encM 0xA4 h d a sp.code 2 0 0 off.toNat (b2n str))
  | .vst h b a sp str off => some (encM 0xA5 h b a sp.code 2 0 0 off.toNat (b2n str))
  | .vgather h d a sp x off => some (encM 0xA6 h d a sp.code 2 0 0 off.toNat x)
  | .vscatter h b a sp k x off => some (encM 0xA7 h b a sp.code 2 0 0 off.toNat (x.val + 32 * k.code))
  | .align h => some (encM 0xA8 h 0 0 0 0 0 0 0 0)
  | .fence h o s => some (encM 0xA9 h 0 0 0 0 s.code o.code 0 0)
  | .amo h d a dbl s o op u off => some (encM 0xAA h d a 0 (2 + b2n dbl) s.code o.code off.toNat (op.code + 8 * b2n u))
  | .cas h d a dbl s o off => some (encM 0xAB h d a 0 (2 + b2n dbl) s.code o.code off.toNat 0)
  | .cred h b a dbl s o op u k off =>
    some (encM 0xAC h b a 0 (2 + b2n dbl) s.code o.code off.toNat (op.code + 8 * b2n u + 16 * k.val))
  | .barInit h b a s off => some (encM 0xB0 h b a 0 0 s.code 0 off.toNat 0)
  | .barArrive h a r s off => some (encM 0xB1 h 0 a 0 0 s.code (2 * b2n r) off.toNat 0)
  | .barWait h a s (.imm p) off => some (encM 0xB2 h 0 a 0 0 s.code 0 off.toNat (b2n p))
  | .barWait h a s (.reg b) off => some (encM 0xB2 h b a 0 0 s.code 0 off.toNat 2)
  | .gjoin h a off => some (encM 0xB3 h 0 a 0 0 0 0 off.toNat 0)
  | .gleave h a off => some (encM 0xB4 h 0 a 0 0 0 0 off.toNat 0)
  | .gbar h a s off => some (encM 0xB5 h 0 a 0 0 s.code 0 off.toNat 0)
  | .tokw h wp wn => some (encE 0xB6 h (8 * b2n wp + 4 * b2n wn) 0 0 0 0 0)
  | .toks h sp sn => some (encE 0xB7 h (2 * b2n sp + b2n sn) 0 0 0 0 0)
  | .carve h t a b clr => some (encE 0xC0 h t.code a b 0 0 (b2n clr))
  | .wload h t q a => some (encE 0xC1 h t.code a 0 0 q 0)
  | .mmap h t a b => some (encE 0xC2 h t.code a b 0 0 0)
  | .plane h t cp => some (encE 0xC3 h t.code 0 0 0 0 (b2n cp))
  | .sbind h t q l en => some (encE 0xC4 h t.code 0 0 0 q (l.val + 4 * b2n en))
  | .feed h t q a b c l s n => some (encE 0xC5 h t.code a b c q (l.val + 4 * s.val + 32 * n.val))
  | .feedx h t a b c l s f => some (encE 0xC6 h t.code a b c 0 (l.val + 4 * s.val + 8192 * f.val))
  | .drain h t q a b l m => some (encE 0xC7 h t.code a b 0 q (l.val + 4 * m.val))
  | .aclr h t b => some (encE 0xC8 h t.code 0 b 0 0 0)
  | .pstat h d n => some (encE 0xC9 h 0 0 0 d 0 n)
  | .qdef h q a b => some (encE 0xCA h 0 a b 0 q 0)
  | .qreset h q => some (encE 0xCB h 0 0 0 0 q 0)
  | .qfill h q a => some (encE 0xCC h 0 a 0 0 q 0)
  | .qpop h d q => some (encE 0xCD h 0 0 0 d q 0)
  | .qpopFree h d q => some (encE 0xCD h 0 0 0 d q 1)
  | .qtag h d q s p => some (encE 0xCE h 0 0 0 d q (s.val + 64 * b2n p))
  | .cdef h e sp a => some (encE 0xCF h 0 a 0 0 0 (e.val + 16 * sp.code))
  | .cgo h e a b => some (encE 0xD0 h 0 a b 0 0 e)
  | .cdem h e a b => some (encE 0xD1 h 0 a b 0 0 e)
  | .cwait h e => some (encE 0xD2 h 0 0 0 0 0 e)
  | .circ h n q a b => some (encE 0xD3 h 0 a b 0 q n)
  | .ccls h n => some (encE 0xD4 h 0 0 0 0 0 n)
  | .cstat h d k n => some (encE 0xD5 h 0 0 0 d 0 (n.val + 64 * b2n k))
  | .wdrive h d a => some (encE 0xD6 h 0 a 0 d 0 0)
  | .wdriveNew h d a => some (encE 0xD6 h 0 a 0 d 0 1)
  | .wdriveAbort h d => some (encE 0xD6 h 0 0 0 d 0 2)
  | .wstat h d n => some (encE 0xD7 h 0 0 0 d 0 n)
  | .launch h d a q => some (encI 0xDE h d a q 0)
  | .lwait h d a => some (encI 0xDF h d a 0 0)
  | .lwaitT h d a => some (encI 0xDF h d a 0 1)
  | .rett h => some (encS 0xE0 h 0 0 0)
  | .prd h r d => some (encS 0xE1 h r.toNat d 0)
  | .pwr h r a => some (encS 0xE2 h r.toNat a 0)
  | .tlbi h s .all => some (encS 0xE3 h 0 0 (s.code * 2^18))
  | .tlbi h s (.asid n) => some (encS 0xE3 h 0 0 (s.code * 2^18 + 2^16 + n.toNat))
  | .tlbi h s (.va a hi n) => some (encS 0xE3 h 0 a (s.code * 2^18 + 2 * 2^16 + hi.toNat * 2^8 + n.toNat))
  | .cast h d f j => some (encS 0xE4 h 0 d (j.val + 4 * f.code))
  | .freeze h (.core m) a => some (encS 0xE5 h 0 a m)
  | .freeze h (.port l) a => some (encS 0xE5 h 0 a (2^33 + 8 * b2n l))
  | .thaw h (.core m) a => some (encS 0xE6 h 0 a m)
  | .thaw h (.port l) a => some (encS 0xE6 h 0 a (2^33 + 8 * b2n l))
  | .wfi h k a => some (encS 0xE7 h 0 a k)
  | .ctxsave h a => some (encS 0xE8 h 0 a 0)
  | .ctxload h a => some (encS 0xE9 h 0 a 0)
  | .qsave h q a => some (encS 0xEA h 0 a q)
  | .qload h q a => some (encS 0xEB h 0 a q)
  | .sysc h n => some (encS 0xEC h 0 0 n.toNat)
  | .halt h => some (encS 0xED h 0 0 0)
  -- events
  | .pauseEnd _ | .releaseWaitEnd _ | .tokwPop _ | .carveBegin _ | .carveRecordRead _ | .wloadSlotStep _
  | .mmapBegin _ | .sbindBegin _ | .planeSwap _ | .feedArm _ | .tokenEntryBegin _ _ | .poolOperationFire _ _
  | .passEnterResultStage _ _ | .operationRetire _ _ | .extendedPartArrive _ | .drainBegin _
  | .drainSlotFull _ | .aclrBegin _ | .qdefTakeEffect _ _ | .qresetTakeEffect _ _ | .qfillSlotFull _ _
  | .qpopTake _ | .cdefReadComplete _ _ | .cwaitReturn _ | .copyBlock _ _ | .copyDone _ _
  | .copyCompletionTokenPush _ _ | .circuitOpeningArrive _ | .circuitReplyArrive _ | .circuitFlitLeave _ _
  | .branchFillBegin _ _ _ | .circuitFlitArrive _ _ _ | .circuitClosed _ _ | .feltHeaderRead _
  | .feltActionPlace _ | .loadwBlock _ | .walkerToken _ | .feltSuccessor _ | .tagbrResolve _
  | .launchRequestArrive _ | .lwaitReturn _ | .freezeApply _ | .wfiWake _ | .engineFaultTaken _
  | .registerResultArrive _ _ | .holdbackDepart _ _ | .writeAgePerform _ _ _ | .loadPerform _ _ _
  | .homeStoreApply _ _ | .amoApply _ | .casApply _ | .credApply _ | .barInitApply _ | .barrierArrivalApply _
  | .boundCopyWriteApply _ | .barWaitCheck _ | .barWaitReturn _ | .groupOpApply _ | .gbarArrivalApply _
  | .gbarReturn _ | .requestAck _ _ | .freeNoticeArrive _ | .slotReleaseDepart _ _ | .cacheMissRead _ _
  | .compressedWriteback _ _ | .walkSlotGrant _ | .pageWalkComplete _ _ | .lqDoorWrite _ _ _
  | .waitbarRead _ _ | .schedulerGrant _ | .headStarving _ _ | .coreClearComplete _ | .iterationDispatch _
  | .coreRelease _ | .launchComplete _ _ | .deadlockDetect _ | .castTake _ | .strikeReport _ _ _
  | .sharedBlockStrike _ | .lockstepMismatch _ | .residueReject _ | .hbmScrubPass _ _ | .hbmErrSample _
  | .guardDrop _ | .dropNoticeArrive _ | .budgetWindow | .gangSwitch _ | .coreStop _ | .saveComplete _
  | .loadComplete _ | .acceptWrite _ _ _ | .accept3Write _ _ | .coreCtlWrite _ _ _ | .lqCfgWrite _ _ _ _
  | .switchAtWrite _ _ _ | .pmapWrite _ _ _ | .pctlWrite _ _ | .calWrite _ _ _ | .rtabxWrite _ _ _
  | .budgetWrite _ _ _ _ | .feedBudWrite _ _ _ | .mdbaseWrite _ _ _ | .apbaseWrite _ _ | .lpctlWrite _ _ _
  | .pcapWrite _ | .tlimitWrite _ | .attCtlGo | .registerWrite _ _ _ _ | .hostWrite _ _ _ _ | .hostRead _ _ _
  | .vfFunctionReset _ | .pfFunctionReset | .linkFlitReceive _ | .linkNakResend _ | .linkResendTimeout _
  | .portRetrain _ | .portTrained _ | .timeExchange _ | .powerRamp _ | .rstNAssert | .rstNRelease
  | .bootStage _ | .serviceProcessorStrike | .governorSample | .thermtrip _ | .attReportReady | .powerRemoval
  | .tlbEntryLeave _ _ => none

/-- The word of an instruction (0 for an event, which has none). -/
def encode (i : Instr) : Nat :=
  match i.enc with
  | some e => e.word
  | none => 0

/-! The decoder. -/

def fS (n : Nat) : SReg := Fin.ofNat 64 n
/-- A vector register field: bit 5 must be 0 (R121). -/
def fV (n : Nat) : VReg := Fin.ofNat 32 n
/-- A predicate register field: bits [5:3] must be 0 (R121). -/
def fP (n : Nat) : PReg := Fin.ofNat 8 n
def f64 (n : Nat) : Fin 64 := Fin.ofNat 64 n
def f4 (n : Nat) : Fin 4 := Fin.ofNat 4 n
def f8 (n : Nat) : Fin 8 := Fin.ofNat 8 n
def f16 (n : Nat) : Fin 16 := Fin.ofNat 16 n

/-- Shift amount from fn, b and AUX. -/
def decShift (p : PayA) : ShAmt := if p.fn = 1 then .imm (f64 p.aux) else .reg (fS p.b)
def decVShift (p : PayA) : VShAmt := if p.fn = 1 then .imm (Fin.ofNat 32 p.aux) else .reg (fV p.b)

/-- Formats A, opcodes 0x01 to 0x2B and 0x39. A candidate: unused fields are compared later. -/
def candScalar (op : Nat) (h : Hdr) (p : PayA) : Option Instr :=
  let d := fS p.d
  let a := fS p.a
  let b := fS p.b
  let w := IWidth.dec p.ty
  let rm := Rnd.dec p.rm
  match op with
  | 0x01 => w.map fun w => .add h w d a b
  | 0x02 => w.map fun w => .sub h w d a b
  | 0x04 => w.map fun w => .mul h w d a b
  | 0x05 => w.map fun w => .mulh h w d a b
  | 0x06 => w.map fun w => .mulhu h w d a b
  | 0x07 => w.map fun w => .div h w d a b
  | 0x08 => w.map fun w => .divu h w d a b
  | 0x09 => w.map fun w => .rem h w d a b
  | 0x0A => w.map fun w => .remu h w d a b
  | 0x0B => some (.and h d a b)
  | 0x0C => some (.or h d a b)
  | 0x0D => some (.xor h d a b)
  | 0x0E => some (.andn h d a b)
  | 0x0F => w.map fun w => .shl h w d a (decShift p)
  | 0x10 => w.map fun w => .shr h w d a (decShift p)
  | 0x11 => w.map fun w => .sra h w d a (decShift p)
  | 0x12 => some (.rot h d a (decShift p))
  | 0x13 => w.map fun w => .clz h w d a
  | 0x14 => w.map fun w => .ctz h w d a
  | 0x15 => w.map fun w => .popc h w d a
  | 0x16 => w.map fun w => .min h w d a b
  | 0x17 => w.map fun w => .max h w d a b
  | 0x18 => w.map fun w => .minu h w d a b
  | 0x19 => w.map fun w => .maxu h w d a b
  | 0x1A => (ExtW.dec p.fn).map fun x => .sext h x d a
  | 0x1B => (ExtW.dec p.fn).map fun x => .zext h x d a
  | 0x1C => some (.bfx h (n2b p.fn) d a (f64 (p.aux / 64)) (f64 p.aux))
  | 0x1D => some (.bfi h d a (f64 (p.aux / 64)) (f64 p.aux))
  | 0x1E => some (.mov h d a)
  | 0x21 => some (.sel h d a b (fP p.c))
  | 0x22 => w.bind fun w => (ICond.dec (p.fn % 128)).map fun k =>
      .cmp h w k (fP p.d) a (if p.fn < 128 then .reg b else .imm (BitVec.ofNat 12 p.aux))
  | 0x23 => some (.lea h d a b (f8 p.aux))
  | 0x24 => rm.map fun rm => .fadd h rm d a b
  | 0x25 => rm.map fun rm => .fsub h rm d a b
  | 0x26 => rm.map fun rm => .fmul h rm d a b
  | 0x27 => rm.map fun rm => .ffma h rm d a b (fS p.c)
  | 0x28 => some (.fmin h d a b)
  | 0x29 => some (.fmax h d a b)
  | 0x2A => (FCond.dec p.fn).map fun k => .fcmp h k (fP p.d) a b
  | 0x2B => rm.bind fun rm => (FConv.dec p.fn).map fun k => .fcvt h k rm (n2b p.sat) d a
  | 0x39 => some (.nop h)
  | _ => none

/-- Format A, opcodes 0x40 to 0x5E. -/
def candVector (op : Nat) (h : Hdr) (p : PayA) : Option Instr :=
  let d := fV p.d
  let a := fV p.a
  let b := fV p.b
  let c := fV p.c
  let t := VTy.dec p.ty
  let ft := FTy.dec p.ty
  let it := ITy.dec p.ty
  let rm := Rnd.dec p.rm
  match op with
  | 0x40 => t.bind fun t => rm.map fun rm => .vadd h t rm d a b
  | 0x41 => t.bind fun t => rm.map fun rm => .vsub h t rm d a b
  | 0x42 => t.bind fun t => rm.map fun rm => .vmul h t rm d a b
  | 0x43 => ft.bind fun t => rm.map fun rm => .vfma h t rm d a b c
  | 0x44 => ft.bind fun t => rm.map fun rm => .vfms h t rm d a b c
  | 0x45 => ft.bind fun t => rm.map fun rm => .vnfma h t rm d a b c
  | 0x46 => t.map fun t => .vmin h t (n2b p.fn) d a b
  | 0x47 => t.map fun t => .vmax h t (n2b p.fn) d a b
  | 0x48 => t.map fun t => .vabs h t d a
  | 0x49 => t.map fun t => .vneg h t d a
  | 0x4A => (VCond.dec p.ty p.fn).map fun k => .vcmp h k (fP p.d) a b
  | 0x4B => some (.vsel h d a b (fP p.c))
  | 0x4C => some (.vand h d a b)
  | 0x4D => some (.vor h d a b)
  | 0x4E => some (.vxor h d a b)
  | 0x4F => some (.vnot h d a)
  | 0x50 => it.map fun t => .vshl h t d a (decVShift p)
  | 0x51 => it.map fun t => .vshr h t d a (decVShift p)
  | 0x52 => it.map fun t => .vsra h t d a (decVShift p)
  | 0x53 => it.map fun t => .vadds h t (n2b p.fn) (n2b (p.fn / 2)) d a b
  | 0x54 => it.map fun t => .vmulh h t (n2b p.fn) d a b
  | 0x55 => rm.map fun rm => .vdot2 h (p.ty == 2) rm d a b c
  | 0x58 => some (.vexp2 h d a)
  | 0x59 => some (.vlog2 h d a)
  | 0x5A => some (.vrcp h d a)
  | 0x5B => some (.vrsqrt h d a)
  | 0x5C => rm.map fun rm => .vsqrt h rm d a
  | 0x5D => some (.vtanh h d a)
  | 0x5E => some (.vsigm h d a)
  | _ => none

/-- Format A, opcodes 0x60 to 0x7E. -/
def candSelect (op : Nat) (h : Hdr) (p : PayA) : Option Instr :=
  let d := fV p.d
  let a := fV p.a
  let pc := fP p.c
  let t := tagDec p.ty
  let rm := Rnd.dec p.rm
  match op with
  | 0x60 => some (.vbcast h d (if p.fn = 1 then .lane a (f64 p.aux) else .scalar (fS p.a)))
  | 0x61 => some (.vmov h (if p.fn = 1 then .extract (fS p.d) a (f64 p.aux)
      else if p.fn = 2 then .insert d (fS p.a) (f64 p.aux) else .mov d a))
  | 0x62 => some (.vperm h d a (fV p.b))
  | 0x63 => some (.vrot h d a (if p.fn = 1 then .imm (f64 p.aux) else .reg (fS p.b)))
  | 0x64 => some (.vslide h (n2b (p.fn / 2)) d a (fV p.c) (if n2b p.fn then .imm (f64 p.aux) else .reg (fS p.b)))
  | 0x65 => some (.vcompact h d a pc)
  | 0x66 => some (.vexpand h d a pc)
  | 0x67 => (RedTy.dec p.ty).map fun t => .vredsum h t (fS p.d) a pc
  | 0x68 => (ExtTy.dec p.ty p.fn).map fun t => .vredmax h t (fS p.d) a pc
  | 0x69 => (ExtTy.dec p.ty p.fn).map fun t => .vredmin h t (fS p.d) a pc
  | 0x6A => (fltDec p.ty).map fun f => .vscan h f d a pc
  | 0x6B => (fltDec p.ty).map fun f => .vtopk h f (n2b p.fn) (n2b (p.fn / 2)) (Fin.ofNat 65 p.aux) d a pc
  | 0x6C => some (.vbmand h (fP p.d) (if p.fn = 1 then .preds (fP p.a) (fP p.b) else .scalars (fS p.a) (fS p.b)))
  | 0x6D => some (.vpopc h d a)
  | 0x6E => some (.vpfx h d (if p.fn = 1 then .pred (fP p.a) else .scalar (fS p.a)))
  | 0x70 => rm.bind fun rm => (CvtTy.dec p.ty).map fun t => .vcvt h (n2b p.fn) rm (n2b p.sat) t d a
  | 0x71 => rm.bind fun rm => t.map fun t =>
      if p.fn = 1 then .vquantScale h t (fS p.d) a pc else .vquant h rm (n2b p.sat) t d a (fS p.b)
  | 0x72 => rm.bind fun rm => t.map fun t => .vdequant h rm t d a (fS p.b)
  | 0x73 => t.map fun t => .vpack h t (f8 p.aux) d a
  | 0x74 => t.map fun t => .vunpack h t (f8 p.aux) d a
  | 0x75 => rm.map fun rm => .vrnd h rm d a
  | 0x78 => some (.pand h (fP p.d) (fP p.a) (fP p.b))
  | 0x79 => some (.por h (fP p.d) (fP p.a) (fP p.b))
  | 0x7A => some (.pxor h (fP p.d) (fP p.a) (fP p.b))
  | 0x7B => some (.pnot h (fP p.d) (fP p.a))
  | 0x7C => some (.pcnt h (n2b p.fn) (fS p.d) (fP p.a))
  | 0x7D => some (.pfirst h (fS p.d) (fP p.a))
  | 0x7E => some (.pset h (fP p.d) (if p.fn = 1 then .count (fS p.a) else if p.fn = 2 then .bits (fS p.a)
      else .imm (Fin.ofNat 65 p.aux)))
  | _ => none

/-- Format I. -/
def candI (op : Nat) (h : Hdr) (p : PayI) : Option Instr :=
  let d := fS p.d
  let a := fS p.a
  let imm := BitVec.ofNat 32 p.imm
  match op with
  | 0x03 => some (.addi h d a imm)
  | 0x1F => some (.movi h d imm)
  | 0x20 => some (.movhi h d imm)
  | 0x38 => some (.trap h imm)
  | 0x3A => some (.pause h imm)
  | 0xDE => some (.launch h d a (f64 p.imm))
  | 0xDF => some (if p.fn = 1 then .lwaitT h d a else .lwait h d a)
  | _ => none

/-- Condition field of `bc` (R159). -/
def decBCond (p : PayB) : Option BCond :=
  match p.cond with
  | 8 => some (.pt (fP p.a))
  | 9 => some (.pf (fP p.a))
  | 10 => some (.pany (fP p.a))
  | 11 => some (.pall (fP p.a))
  | 12 => some (.pnone (fP p.a))
  | k => (ICond.dec k).map fun k => .cmp k (fS p.a) (fS p.b)

/-- Format B. -/
def candB (op : Nat) (h : Hdr) (p : PayB) : Option Instr :=
  let off := BitVec.ofNat 32 p.off
  match op with
  | 0x30 => some (.br h off)
  | 0x31 => (decBCond p).map fun k => .bc h k off
  | 0x32 => some (.call h off)
  | 0x33 => some (.ret h (fS p.a))
  | 0x34 => some (.jmpr h (n2b p.fn) (fS p.a))
  | 0x35 => some (.loop h (n2b p.fn) (fS p.a) off)
  | 0x36 => some (.loopi h (n2b p.fn) (BitVec.ofNat 12 (p.a * 64 + p.b)) off)
  | 0x37 => some (.endit h)
  | _ => none

/-- Format M. -/
def candM (op : Nat) (h : Hdr) (p : PayM) : Option Instr :=
  let d := fS p.data
  let v := fV p.data
  let a := fS p.base
  let sp := Space.dec p.space
  let w := MWidth.dec p.width
  let s := Scope.dec p.scope
  let o := Ord.dec p.order
  let off := BitVec.ofNat 24 p.off
  match op with
  | 0xA0 => some (.ld h d a sp w (n2b p.fn) off)
  | 0xA1 => some (.st h d a sp w off)
  | 0xA2 => some (.ldacq h d a sp w s (n2b p.fn) off)
  | 0xA3 => some (.strel h d a sp w s off)
  | 0xA4 => some (.vld h v a sp (n2b p.fn) off)
  | 0xA5 => some (.vst h v a sp (n2b p.fn) off)
  | 0xA6 => some (.vgather h v a sp (fV p.fn) off)
  | 0xA7 => (Comb.dec (p.fn / 32)).map fun k => .vscatter h v a sp k (fV p.fn) off
  | 0xA8 => some (.align h)
  | 0xA9 => some (.fence h o s)
  | 0xAA => some (.amo h d a (n2b p.width) s o (AmoOp.dec p.fn) (n2b (p.fn / 8)) off)
  | 0xAB => some (.cas h d a (n2b p.width) s o off)
  | 0xAC => some (.cred h d a (n2b p.width) s o (AmoOp.dec p.fn) (n2b (p.fn / 8)) (f16 (p.fn / 16)) off)
  | 0xB0 => some (.barInit h d a s off)
  | 0xB1 => some (.barArrive h a (n2b (p.order / 2)) s off)
  | 0xB2 => some (.barWait h a s (if n2b (p.fn / 2) then .reg d else .imm (n2b p.fn)) off)
  | 0xB3 => some (.gjoin h a off)
  | 0xB4 => some (.gleave h a off)
  | 0xB5 => some (.gbar h a s off)
  | _ => none

/-- Format E. -/
def candE (op : Nat) (h : Hdr) (p : PayE) : Option Instr :=
  let t := Tok.dec p.tok
  let a := fS p.a
  let b := fS p.b
  let c := fS p.c
  let q := f16 p.ring
  match op with
  | 0xB6 => some (.tokw h t.wp t.wn)
  | 0xB7 => some (.toks h t.sp t.sn)
  | 0xC0 => some (.carve h t a b (n2b p.spec))
  | 0xC1 => some (.wload h t q a)
  | 0xC2 => some (.mmap h t a b)
  | 0xC3 => some (.plane h t (n2b p.spec))
  | 0xC4 => some (.sbind h t q (f4 p.spec) (n2b (p.spec / 4)))
  | 0xC5 => some (.feed h t q a b c (f4 p.spec) (f8 (p.spec / 4)) (Fin.ofNat 256 (p.spec / 32)))
  | 0xC6 => some (.feedx h t a b c (f4 p.spec) (f8 (p.spec / 4)) (f8 (p.spec / 8192)))
  | 0xC7 => some (.drain h t q a b (f4 p.spec) (f16 (p.spec / 4)))
  | 0xC8 => some (.aclr h t b)
  | 0xC9 => some (.pstat h c (f16 p.spec))
  | 0xCA => some (.qdef h q a b)
  | 0xCB => some (.qreset h q)
  | 0xCC => some (.qfill h q a)
  | 0xCD => some (if n2b p.spec then .qpopFree h c q else .qpop h c q)
  | 0xCE => some (.qtag h c q (f64 p.spec) (n2b (p.spec / 64)))
  | 0xCF => some (.cdef h (f16 p.spec) (Space.dec (p.spec / 16)) a)
  | 0xD0 => some (.cgo h (f16 p.spec) a b)
  | 0xD1 => some (.cdem h (f16 p.spec) a b)
  | 0xD2 => some (.cwait h (f16 p.spec))
  | 0xD3 => some (.circ h (f64 p.spec) q a b)
  | 0xD4 => some (.ccls h (f64 p.spec))
  | 0xD5 => some (.cstat h c (n2b (p.spec / 64)) (f64 p.spec))
  | 0xD6 => match p.spec with
    | 0 => some (.wdrive h c a)
    | 1 => some (.wdriveNew h c a)
    | 2 => some (.wdriveAbort h c)
    | _ => none
  | 0xD7 => some (.wstat h c (f16 p.spec))
  | _ => none

/-- IMM34 of `freeze` and `thaw` (R318). -/
def decFreeze (imm : Nat) : FreezeSel := if 2^33 ≤ imm then .port (n2b (imm / 8)) else .core (f8 imm)

/-- Format S. -/
def candS (op : Nat) (h : Hdr) (p : PayS) : Option Instr :=
  let a := fS p.a
  match op with
  | 0x3B => (CtlReg.dec p.sysreg).map fun r => .getc h r a (Fin.ofNat 128 p.imm)
  | 0x3C => (CtlReg.dec p.sysreg).map fun r => .setc h r a
  | 0xE0 => some (.rett h)
  | 0xE1 => some (.prd h (BitVec.ofNat 12 p.sysreg) a)
  | 0xE2 => some (.pwr h (BitVec.ofNat 12 p.sysreg) a)
  | 0xE3 => (TlbScope.dec (p.imm / 2^18)).bind fun s =>
      match p.imm / 2^16 % 4 with
      | 0 => some (.tlbi h s .all)
      | 1 => some (.tlbi h s (.asid (BitVec.ofNat 8 p.imm)))
      | 2 => some (.tlbi h s (.va a (BitVec.ofNat 8 (p.imm / 2^8)) (BitVec.ofNat 8 p.imm)))
      | _ => none
  | 0xE4 => (CastField.dec (p.imm / 4)).map fun f => .cast h a f (f4 p.imm)
  | 0xE5 => some (.freeze h (decFreeze p.imm) a)
  | 0xE6 => some (.thaw h (decFreeze p.imm) a)
  | 0xE7 => some (.wfi h (f8 p.imm) a)
  | 0xE8 => some (.ctxsave h a)
  | 0xE9 => some (.ctxload h a)
  | 0xEA => some (.qsave h (f64 p.imm) a)
  | 0xEB => some (.qload h (f64 p.imm) a)
  | 0xEC => some (.sysc h (BitVec.ofNat 34 p.imm))
  | 0xED => some (.halt h)
  | _ => none

/-- Why a word is not an instruction (R138 rows 1 and 3); both raise UNDEF. -/
inductive DecodeError
  | unassignedOpcode (op : Nat)
  | illFormedWord (word : Nat)
  deriving DecidableEq, Repr

/-- The opcodes R136 assigns. -/
def opAssigned (op : Nat) : Bool :=
  (decide (0x01 ≤ op) && decide (op ≤ 0x2B)) || (decide (0x30 ≤ op) && decide (op ≤ 0x3C)) ||
  (decide (0x40 ≤ op) && decide (op ≤ 0x55)) || (decide (0x58 ≤ op) && decide (op ≤ 0x5E)) ||
  (decide (0x60 ≤ op) && decide (op ≤ 0x6E)) || (decide (0x70 ≤ op) && decide (op ≤ 0x75)) ||
  (decide (0x78 ≤ op) && decide (op ≤ 0x7E)) || (decide (0xA0 ≤ op) && decide (op ≤ 0xAC)) ||
  (decide (0xB0 ≤ op) && decide (op ≤ 0xB7)) || (decide (0xC0 ≤ op) && decide (op ≤ 0xD7)) ||
  op == 0xDE || op == 0xDF || (decide (0xE0 ≤ op) && decide (op ≤ 0xED))

/-- The instruction a word's used fields name, before the checks of R138 row 3. -/
def candidate (w : Nat) : Option Instr :=
  let op := bitsAt w 72 8
  let h := Hdr.unpack (bitsAt w 52 20)
  let pay := bitsAt w 0 52
  if op = 0x03 ∨ op = 0x1F ∨ op = 0x20 ∨ op = 0x38 ∨ op = 0x3A ∨ op = 0xDE ∨ op = 0xDF then candI op h (PayI.unpack pay)
  else if op = 0x3B ∨ op = 0x3C ∨ 0xE0 ≤ op then candS op h (PayS.unpack pay)
  else if op < 0x30 ∨ op = 0x39 then candScalar op h (PayA.unpack pay)
  else if op < 0x40 then candB op h (PayB.unpack pay)
  else if op < 0x60 then candVector op h (PayA.unpack pay)
  else if op < 0xA0 then candSelect op h (PayA.unpack pay)
  else if op < 0xB6 then candM op h (PayM.unpack pay)
  else candE op h (PayE.unpack pay)

/-- Decoding (R138 rows 1 and 3). A word is the instruction its used fields name exactly when that instruction
is well formed and every other field of the word is zero, that is, when the instruction encodes to this word. -/
def decode (w : Nat) : Except DecodeError Instr :=
  if opAssigned (bitsAt w 72 8) then
    match candidate w with
    | some i => if i.wf && encode i == w then .ok i else .error (.illFormedWord w)
    | none => .error (.illFormedWord w)
  else .error (.unassignedOpcode (bitsAt w 72 8))

/-- The ten bytes of a word, least significant first (R5, R118). -/
def wordBytes (w : Nat) : List Byte := (List.range 10).map fun k => BitVec.ofNat 8 (w / 256 ^ k)

/-- A number from bytes, least significant first (R5). -/
def bytesNat : List Byte → Nat
  | [] => 0
  | b :: bs => b.toNat + 256 * bytesNat bs

/-- The instruction at the front of a list of bytes, with the rest of the list (R118). -/
def decodeBytes (bs : List Byte) : Option (Instr × List Byte) :=
  if bs.length < 10 then none
  else
    match decode (bytesNat (bs.take 10)) with
    | .ok i => some (i, bs.drop 10)
    | .error _ => none

/-- The instruction the decoder reads from a word whose low `nbits` bits are `w`, every bit above them zero. -/
def decodeTableWord (nbits w : Nat) : Option Instr :=
  (decodeBytes (wordBytes (w % 2 ^ nbits))).map Prod.fst

end Sys2Proof
end

