-- ==== Sys2Proof/Machine/Num.lean ====
section
/-! DEFINITION. Number formats and arithmetic (R49 to R76): exact values, one rounding, the codes of each
format, and the flags of R68. -/

namespace Sys2Proof.Machine

/-- The eight sticky flags of `ctl.fflags`, bit n as R68 numbers them. -/
abbrev FFlags := BitVec 8
def fNV : FFlags := 1
def fDZ : FFlags := 2
def fOF : FFlags := 4
def fUF : FFlags := 8
def fNX : FFlags := 16
def fNANLOST : FFlags := 32
def fISAT : FFlags := 64
def fFSAT : FFlags := 128
/-- A flag under a condition. -/
def fIf (b : Bool) (f : FFlags) : FFlags := if b then f else 0

/-- A rounding mode with `.dyn` resolved (R65). -/
inductive RMode | rne | rtz | rsr
  deriving DecidableEq, Repr

/-- An exact value: `fin neg m e` is plus or minus m times 2^e, a signed zero when m = 0. -/
inductive Num | nan | inf (neg : Bool) | fin (neg : Bool) (m : Nat) (e : Int)
  deriving DecidableEq, Repr

def Num.zero : Num := .fin false 0 0
def Num.isNan : Num → Bool
  | .nan => true
  | _ => false
def Num.isZero : Num → Bool
  | .fin _ m _ => m == 0
  | _ => false
def Num.negative : Num → Bool
  | .fin n _ _ => n
  | .inf n => n
  | .nan => false
def Num.negate : Num → Num
  | .nan => .nan
  | .inf n => .inf (!n)
  | .fin n m e => .fin (!n) m e
/-- An integer as an exact value. -/
def Num.ofInt (i : Int) : Num := .fin (decide (i < 0)) i.natAbs 0
/-- Multiplication by a power of two, exact. -/
def Num.scaleBy : Num → Int → Num
  | .fin n m e, k => .fin n m (e + k)
  | x, _ => x

/-- Exact product, with whether it met zero times infinity (R57, R175). -/
def Num.mul (a b : Num) : Num × Bool :=
  match a, b with
  | .nan, _ | _, .nan => (.nan, false)
  | .inf n, .inf k => (.inf (n != k), false)
  | .inf n, .fin k m _ | .fin k m _, .inf n => if m = 0 then (.nan, true) else (.inf (n != k), false)
  | .fin n m e, .fin k l f => (.fin (n != k) (m * l) (e + f), false)

/-- A signed integer at exponent `e` for a value at exponent `e` or above. -/
def atExp (n : Bool) (m : Nat) (e e0 : Int) : Int :=
  let v : Int := m * 2 ^ (e - e0).toNat
  if n then -v else v

/-- Exact sum, with whether it met infinities of opposite sign (R60, R175). The sum of zeros of opposite
sign, and an exact cancellation, is +0. -/
def Num.add (a b : Num) : Num × Bool :=
  match a, b with
  | .nan, _ | _, .nan => (.nan, false)
  | .inf n, .inf k => if n = k then (.inf n, false) else (.nan, true)
  | .inf n, .fin _ _ _ | .fin _ _ _, .inf n => (.inf n, false)
  | .fin n m e, .fin k l f =>
    let e0 := min e f
    let s := atExp n m e e0 + atExp k l f e0
    if s = 0 then (.fin (n && k) 0 e0, false) else (.fin (decide (s < 0)) s.natAbs e0, false)

/-- Order of two exact values that are not NaN, with -0 equal to +0. -/
def Num.lt (a b : Num) : Bool :=
  match a, b with
  | .nan, _ | _, .nan => false
  | .inf n, .inf k => n && !k
  | .inf n, .fin _ _ _ => n
  | .fin _ _ _, .inf k => !k
  | .fin n m e, .fin k l f =>
    let e0 := min e f
    decide (atExp n m e e0 < atExp k l f e0)
/-- Equality of two exact values that are not NaN. -/
def Num.eqv (a b : Num) : Bool := !a.isNan && !b.isNan && !a.lt b && !b.lt a

/-- m / 2^s rounded to an integer: the result, whether it is inexact, whether the upper neighbour was taken
(R65, R66). `y` is the stochastic register after its step. -/
def roundShift (rm : RMode) (y m s : Nat) : Nat × Bool × Bool :=
  let q := m / 2 ^ s
  let r := m % 2 ^ s
  if r = 0 then (q, false, false)
  else
    let up := match rm with
      | .rne => decide (2 ^ s < 2 * r) || (2 * r == 2 ^ s && q % 2 == 1)
      | .rtz => false
      | .rsr => decide (y ≤ r * 65536 / 2 ^ s)
    (if up then q + 1 else q, true, up)

/-- Round m times 2^e to a multiple of 2^qe. -/
def roundQuant (rm : RMode) (y m : Nat) (e qe : Int) : Nat × Bool × Bool :=
  if qe ≤ e then (m * 2 ^ (e - qe).toNat, false, false) else roundShift rm y m (qe - e).toNat

/-- A binary format (R51): precision with the hidden bit, exponent of the least normal number, magnitude codes
of the largest finite value and of the overflow value (an infinity, or the NaN of E4M3), the canonical NaN. -/
structure FDesc where
  prec : Nat
  emin : Int
  maxCode : Nat
  ovfCode : Nat
  nanCode : Nat
  signBit : Nat
  deriving DecidableEq, Repr

def descF32 : FDesc := ⟨24, -126, 0x7F7FFFFF, 0x7F800000, 0x7FC00000, 31⟩
def descBf16 : FDesc := ⟨8, -126, 0x7F7F, 0x7F80, 0x7FC0, 15⟩
def descE4m3 : FDesc := ⟨4, -6, 0x7E, 0x7F, 0x7F, 7⟩
def descE5m2 : FDesc := ⟨3, -14, 0x7B, 0x7C, 0x7E, 7⟩
def descE2m1 : FDesc := ⟨2, 0, 0x7, 0x8, 0x8, 3⟩

/-- A code with its sign. -/
def FDesc.signed (f : FDesc) (neg : Bool) (mag : Nat) : Nat := (if neg then 2 ^ f.signBit else 0) + mag

/-- The magnitude code of q times 2^qe. -/
def FDesc.magCode (f : FDesc) (q : Nat) (qe : Int) : Nat :=
  let h := 2 ^ (f.prec - 1)
  if q < h then q else (qe + (f.prec - 1 : Nat) - f.emin + 1).toNat * h + (q - h)

/-- A nonzero magnitude rounded to a format. -/
structure Rounded where
  /-- magnitude code, possibly above the largest finite value -/
  mag : Nat
  inexact : Bool
  /-- tiny after rounding and inexact (R68) -/
  under : Bool
  /-- hi, or lo already, lies beyond the largest finite value (R66) -/
  ovf : Bool
  /-- the value taken lies beyond the largest finite value -/
  beyond : Bool
  deriving DecidableEq, Repr

def FDesc.round (f : FDesc) (rm : RMode) (y m : Nat) (e : Int) : Rounded :=
  let top := e + (Nat.log2 m : Nat)
  let p1 : Int := (f.prec - 1 : Nat)
  let qe := max top f.emin - p1
  let (q, inexact, up) := roundQuant rm y m e qe
  let mag := f.magCode q qe
  let q' := (roundQuant rm y m e (top - p1)).1
  let tiny := decide (top < f.emin) && !(top == f.emin - 1 && decide (2 ^ f.prec ≤ q'))
  let lo := if up then f.magCode (q - 1) qe else mag
  let beyond := decide (f.maxCode < mag)
  let ovf := beyond || (rm == .rsr && inexact && lo == f.maxCode)
  ⟨mag, inexact, inexact && tiny, ovf, beyond⟩

/-- The result of FP32 or BF16 arithmetic from its exact value (R69). -/
def FDesc.arith (f : FDesc) (rm : RMode) (y : Nat) : Num → Nat × FFlags
  | .nan => (f.nanCode, 0)
  | .inf n => (f.signed n f.ovfCode, 0)
  | .fin n m e =>
    if m = 0 then (f.signed n 0, 0)
    else
      let r := f.round rm y m e
      if r.ovf then
        let inf := match rm with
          | .rne => true
          | .rtz => false
          | .rsr => r.beyond
        (f.signed n (if inf then f.ovfCode else f.maxCode), fOF ||| fNX)
      else (f.signed n r.mag, fIf r.inexact fNX ||| fIf r.under fUF)

/-- The overflow result of a conversion (R71). -/
def FDesc.convOver (f : FDesc) (sat neg : Bool) : Nat × FFlags :=
  if sat then (f.signed neg f.maxCode, fFSAT ||| fNX) else (f.signed neg f.ovfCode, fOF ||| fNX)

/-- A conversion to FP32, BF16, E4M3 or E5M2 (R71); `hasInf` is false for E4M3. -/
def FDesc.conv (f : FDesc) (hasInf : Bool) (rm : RMode) (sat : Bool) (y : Nat) : Num → Nat × FFlags
  | .nan => (f.nanCode, 0)
  | .inf n => if hasInf && !sat then (f.signed n f.ovfCode, 0) else f.convOver sat n
  | .fin n m e =>
    if m = 0 then (f.signed n 0, 0)
    else
      let r := f.round rm y m e
      if r.ovf then f.convOver sat n
      else (f.signed n r.mag, fIf r.inexact fNX ||| fIf r.under fUF)

/-- Conversion to FP4 (R66, R72). -/
def convFp4 (rm : RMode) (y : Nat) : Num → Nat × FFlags
  | .nan => (0, fNANLOST)
  | .inf n => (descE2m1.signed n 7, fFSAT ||| fNX)
  | .fin n m e =>
    if m = 0 then (descE2m1.signed n 0, 0)
    else
      let r := descE2m1.round rm y m e
      if r.ovf then (descE2m1.signed n 7, fFSAT ||| fNX)
      else (descE2m1.signed n r.mag, fIf r.inexact fNX)

/-- Conversion to an integer in [lo, hi] (R73). -/
def convInt (lo hi : Int) (rm : RMode) (y : Nat) : Num → Int × FFlags
  | .nan => (0, fNANLOST)
  | .inf n => (if n then lo else hi, fISAT)
  | .fin n m e =>
    let r := roundQuant rm y m e 0
    let v : Int := if n then -(r.1 : Int) else r.1
    if v < lo then (lo, fISAT) else if hi < v then (hi, fISAT) else (v, fIf r.2.1 fNX)

/-! PS2 (R53, R74). Magnitudes are counted in units of 1/64. -/

/-- The magnitude of one PS2 term with exponent E, in units of 1/64. -/
def ps2Term (e : Nat) : Nat := if e < 7 then 2 ^ (6 - e) else 0
/-- The value of a PS2 code in units of 1/64 (R53). -/
def ps2Value (c : Nat) : Int :=
  let t1 : Int := ps2Term (c / 16 % 8)
  let t2 : Int := ps2Term (c % 8)
  (if c / 128 % 2 = 1 then -t1 else t1) + (if c / 8 % 2 = 1 then -t2 else t2)
/-- The exponents of a PS2 term. -/
def ps2Exps : List Nat := [0, 1, 2, 3, 4, 5, 6, 7]
/-- Every magnitude of a PS2 value, with repeats. -/
def ps2Mags : List Nat := ps2Exps.flatMap fun i => ps2Exps.flatMap fun j => [ps2Term i + ps2Term j, ps2Term i - ps2Term j]
/-- The exponent of a magnitude that is a single term or zero. -/
def ps2ExpOf (k : Nat) : Option Nat := ps2Exps.find? fun e => ps2Term e == k
/-- The canonical code of a PS2 value in units of 1/64 (R74). -/
def ps2Canon (neg : Bool) (k : Nat) : Nat :=
  if k = 0 then 0x77
  else
    let s := if neg then 128 else 0
    match (ps2Exps.take 7).find? fun e => ps2Term e == k with
    | some e => s + e * 16 + 7
    | none =>
      match (ps2Exps.take 7).find? fun e => (ps2ExpOf ((k : Int) - ps2Term e).natAbs).isSome with
      | some e =>
        let r : Int := (k : Int) - ps2Term e
        let s2 := if decide (r < 0) != neg then 8 else 0
        s + e * 16 + s2 + (ps2ExpOf r.natAbs).getD 7
      | none => s
/-- Conversion to PS2 (R74). -/
def convPs2 (rm : RMode) (y : Nat) : Num → Nat × FFlags
  | .nan => (0x77, fNANLOST)
  | .inf n => (ps2Canon n 128, fFSAT ||| fNX)
  | .fin n m e =>
    let num := m * 2 ^ (e + 6).toNat
    let den := 2 ^ (-(e + 6)).toNat
    if 128 * den < num then (ps2Canon n 128, fFSAT ||| fNX)
    else
      let lo := (ps2Mags.filter fun k => decide (k * den ≤ num)).foldl max 0
      if lo * den = num then (ps2Canon n lo, 0)
      else
        let hi := (ps2Mags.filter fun k => decide (num < k * den)).foldl min 128
        let up := match rm with
          | .rne => decide ((lo + hi) * den < 2 * num)
          | .rtz => false
          | .rsr => decide (y ≤ (num - lo * den) * 65536 / ((hi - lo) * den))
        (ps2Canon n (if up then hi else lo), fNX)

/-! Decoding (R51 to R53). -/

/-- Two's complement value of the low w bits. -/
def toSigned (w n : Nat) : Int :=
  let v := n % 2 ^ w
  if 2 ^ (w - 1) ≤ v then (v : Int) - 2 ^ w else v
/-- The w-bit code of an integer. -/
def ofSigned (w : Nat) (i : Int) : Nat := (i % 2 ^ w).toNat

/-- The exact value of a code of a binary format. -/
def FDesc.decode (f : FDesc) (c : Nat) : Num :=
  let neg := c / 2 ^ f.signBit % 2 == 1
  let mag := c % 2 ^ f.signBit
  let h := 2 ^ (f.prec - 1)
  if f.maxCode < mag then (if mag = f.ovfCode then .inf neg else .nan)
  else if mag < h then .fin neg mag (f.emin - (f.prec - 1 : Nat))
  else .fin neg (mag % h + h) ((mag / h : Nat) - 1 + f.emin - (f.prec - 1 : Nat))
/-- The exact value of an FP32 word. -/
def decF32 (c : BitVec 32) : Num := descF32.decode c.toNat
/-- The exact value of a BF16 word. -/
def decBf16 (c : BitVec 16) : Num := descBf16.decode c.toNat
/-- The exact value of a code in the format of a tag (R49 to R53); tag 7 is no format. -/
def decTag (t : Fin 8) (c : Nat) : Num :=
  match t.val with
  | 0 => descBf16.decode (c % 2 ^ 16)
  | 1 => if c % 128 = 127 then .nan else descE4m3.decode (c % 256)
  | 2 => descE5m2.decode (c % 256)
  | 3 => descE2m1.decode (c % 16)
  | 4 => .ofInt (toSigned 8 c)
  | 5 => .ofInt (toSigned 4 c)
  | 6 => let k := ps2Value (c % 256); .fin (decide (k < 0)) k.natAbs (-6)
  | _ => .nan
/-- The value under a UE8M0 block scale (R54). -/
def Num.scaled (x : Num) (sc : Nat) : Num := if sc = 255 then .nan else x.scaleBy ((sc : Int) - 127)
/-- Whether an element counts as zero for zero-skipping (R59, R76). -/
def zeroElem (t : Fin 8) (c : Nat) : Bool := (decTag t c).isZero
/-- The zero code of a format (R76, R190). -/
def zeroCode (t : Fin 8) : Nat := if t.val = 6 then 0x77 else 0
/-- A −0 element of a float format, which a keep-signed-zero stream sends as a literal (R76). -/
def negZeroElem (t : Fin 8) (c : Nat) : Bool :=
  match decTag t c with
  | .fin true 0 _ => decide (t.val < 4)
  | _ => false

/-- Conversion of an exact value to the format of a tag (R71 to R74). -/
def convTag (t : Fin 8) (rm : RMode) (sat : Bool) (y : Nat) (x : Num) : Nat × FFlags :=
  match t.val with
  | 0 => descBf16.conv true rm sat y x
  | 1 => descE4m3.conv false rm sat y x
  | 2 => descE5m2.conv true rm sat y x
  | 3 => convFp4 rm y x
  | 4 => let r := convInt (-128) 127 rm y x; (ofSigned 8 r.1, r.2)
  | 5 => let r := convInt (-8) 7 rm y x; (ofSigned 4 r.1, r.2)
  | _ => convPs2 rm y x
/-- Conversion to FP32 (R71, R75). -/
def convF32 (rm : RMode) (sat : Bool) (y : Nat) (x : Num) : BitVec 32 × FFlags :=
  let r := descF32.conv true rm sat y x
  (BitVec.ofNat 32 r.1, r.2)
/-- Conversion to INT32 (R73). -/
def convI32 (rm : RMode) (y : Nat) (x : Num) : BitVec 32 × FFlags :=
  let r := convInt (-2 ^ 31) (2 ^ 31 - 1) rm y x
  (BitVec.ofInt 32 r.1, r.2)

/-! Arithmetic on codes. -/

/-- FP32 arithmetic result. -/
def arithF32 (rm : RMode) (y : Nat) (x : Num) : BitVec 32 × FFlags :=
  let r := descF32.arith rm y x
  (BitVec.ofNat 32 r.1, r.2)
/-- The node operation of the sum tree in FP32 mode (R60). -/
def addNode (a b : BitVec 32) : BitVec 32 := (arithF32 .rne 0 (Num.add (decF32 a) (decF32 b)).1).1
/-- `sat32` of R64, with whether it clamped. -/
def sat32 (i : Int) : BitVec 32 × Bool :=
  if i < -2 ^ 31 then (BitVec.ofInt 32 (-2 ^ 31), true)
  else if 2 ^ 31 - 1 < i then (BitVec.ofInt 32 (2 ^ 31 - 1), true) else (BitVec.ofInt 32 i, false)
/-- a × b + c exactly, with the invalid cases of R175. -/
def fmaExact (a b c : Num) : Num × Bool :=
  let p := a.mul b
  let s := p.1.add c
  (s.1, p.2 || s.2)
/-- The smaller or larger of two codes by R156: −0 below +0, a single NaN yields the other operand. -/
def minMaxCode (f : FDesc) (larger : Bool) (a b : Nat) : Nat :=
  let x := f.decode a
  let y := f.decode b
  if x.isNan && y.isNan then f.nanCode
  else if x.isNan then b
  else if y.isNan then a
  else
    let less := x.lt y || (x.eqv y && x.negative && !y.negative)
    if less == larger then b else a
/-- The conditions of `fcmp` (R156): result and NV. -/
def fcmpCode (k : FCond) (a b : BitVec 32) : Bool × FFlags :=
  let x := decF32 a
  let y := decF32 b
  let un := x.isNan || y.isNan
  match k with
  | .eq => (x.eqv y, 0)
  | .lt => (x.lt y, fIf un fNV)
  | .le => (!un && !(y.lt x), fIf un fNV)
  | .un => (un, 0)

/-- One step of a stochastic register (R66). -/
def lfsrStep (s : BitVec 16) : BitVec 16 :=
  let fb := (s >>> 15) ^^^ (s >>> 13) ^^^ (s >>> 12) ^^^ (s >>> 10)
  (s <<< 1) ||| (fb &&& 1)
/-- The state of lane i under a seed (R67). -/
def laneSeed (seed : BitVec 16) (i : Nat) : BitVec 16 :=
  let v := seed ^^^ BitVec.ofNat 16 (i * 0x0B05)
  if v = 0 then 1 else v

/-- The UE8M0 scale of a block for a target format (R189): amax as an exact magnitude. -/
def maxFinite (t : Fin 8) : Nat × Int :=
  match t.val with
  | 0 => (255, 120)
  | 1 => (448, 0)
  | 2 => (57344, 0)
  | 3 => (6, 0)
  | 4 => (127, 0)
  | 5 => (7, 0)
  | _ => (2, 0)
/-- The least integer k with m·2^e ≤ l·2^f·2^k, for nonzero m and l (R189). -/
def ceilLog2Ratio (m : Nat) (e : Int) (l : Nat) (f : Int) : Int :=
  let k : Int := (Nat.log2 m : Int) + e - (Nat.log2 l : Int) - f
  let le (k : Int) : Bool := let d := e - f - k; decide (m * 2 ^ d.toNat ≤ l * 2 ^ (-d).toNat)
  if le (k - 1) then k - 1 else if le k then k else k + 1
/-- The block scale of R189 over a list of values, with NANLOST. -/
def blockScale (t : Fin 8) (xs : List Num) : Nat × FFlags :=
  if xs.any Num.isNan then (255, fNANLOST)
  else
    let amax := xs.foldl (fun a x =>
      let x := match x with
        | .inf _ => Num.inf false
        | .fin _ m e => Num.fin false m e
        | .nan => Num.nan
      if a.lt x then x else a) Num.zero
    match amax with
    | .inf _ => (254, 0)
    | .fin _ 0 _ => (127, 0)
    | .fin _ m e =>
      let (l, f) := maxFinite t
      ((min 254 (max 0 (127 + ceilLog2Ratio m e l f))).toNat, 0)
    | .nan => (255, fNANLOST)

end Sys2Proof.Machine
end

