-- ==== Sys2Proof/Config.lean ====
section
/-! DEFINITION. What the specification leaves open: free values, each an opaque constant that nothing in Lean
can evaluate. Fixed figures of the device stand beside them. -/

namespace Sys2Proof

/-- What a step does: the front end of a core issues its next word, an event happens, or a core takes the cast of this cycle
(R28), or applies a report that waited (R362). `refetch` says that a line already cached is read from memory again (R139). -/
inductive Act | front (c : CoreId) (refetch : Bool) | event (i : Instr) | cast (c : CoreId) | strike (c : CoreId)
  deriving DecidableEq, Repr, Inhabited

/-- One turn of the machine: cycles that pass first, and what then happens. -/
structure Turn where
  wait : Nat
  act : Act
  deriving DecidableEq, Repr, Inhabited

end Sys2Proof

namespace Sys2Proof.Config

/-- Quarantine hold tQ in cycles (R6). -/
def tQ : Nat := 160
/-- Strike report bound tDET in cycles (R6). -/
def tDET : Nat := 144
/-- Retained casts (R28). -/
def casts : Nat := 4
/-- Lines of the instruction cache: 128 KiB in lines of 80 bytes (R18, R118). -/
def icacheLines : Nat := 1638
/-- Expanded 4 KiB blocks that a die's 96 MiB slice of the memory-side cache holds (R14, R95). -/
def sliceBlocks : Nat := 24576
/-- Hold-back buffer bytes (R27). -/
def holdBytes : Nat := 65536

/-- A word the specification gives no value for, one for each reading of the counter it is applied to. -/
opaque freeWord : Nat → Word
/-- A natural number the specification gives no value for. -/
opaque freeNat : Nat → Nat
/-- Which party moves next, and whether a cycle passes first: the specification leaves the cycle of most events open (R103). -/
opaque turn : Nat → Turn
/-- The block that a full slice of the memory-side cache writes back to make room for another, as a place among those it
holds. -/
opaque cacheVictim : Nat → Nat
/-- The core monitor code of the Flelas image, and the number of the 80-byte line of HBM that it is copied to (R409). -/
opaque monitorCode : List (BitVec 8)
opaque monitorLine : Nat
/-- The ports named by the configuration in flash (R408). -/
opaque flashPorts : BitVec 8
/-- Bytes of the attestation report and certificate that come from the part and its image (R411): the image's digest and
security version, the signature over what precedes it, and the certificate. -/
opaque imageDigest : Nat → BitVec 8
opaque imageVersion : BitVec 64
opaque reportSignature : List (BitVec 8) → Nat → BitVec 8
opaque certificate : Nat → BitVec 8

end Sys2Proof.Config
end

