-- ==== Sys2Proof/Machine/SMap.lean ====
section
/-! DEFINITION. Sparse data by key: a list of pairs with strictly rising keys and no value equal to what an
unlisted key reads as. Memory, the buffers and the pool's registers are kept so. -/

namespace Sys2Proof.Machine

/-- A sparse map from numbers; its default value is an argument of the operations. -/
abbrev SMap (α : Type) := List (Nat × α)

/-- The value at a key. -/
def SMap.get {α : Type} (d : α) : SMap α → Nat → α
  | [], _ => d
  | (k, v) :: m, a => if a = k then v else SMap.get d m a

/-- The map without a key. -/
def SMap.erase {α : Type} : SMap α → Nat → SMap α
  | [], _ => []
  | (k, v) :: m, a => if a = k then SMap.erase m a else (k, v) :: SMap.erase m a

/-- The map with a key listed at a value. -/
def SMap.insert {α : Type} : SMap α → Nat → α → SMap α
  | [], a, x => [(a, x)]
  | (k, v) :: m, a, x =>
    if a < k then (a, x) :: (k, v) :: m
    else if a = k then (k, x) :: m
    else (k, v) :: SMap.insert m a x

/-- The map with a value at a key, in canonical form. -/
def SMap.set {α : Type} [DecidableEq α] (d : α) (m : SMap α) (a : Nat) (x : α) : SMap α :=
  if x = d then m.erase a else m.insert a x

/-- The canonical form: keys strictly rising, no entry equal to the default. -/
def SMap.wf {α : Type} [DecidableEq α] (d : α) : SMap α → Bool
  | [] => true
  | [(_, v)] => v != d
  | (k, v) :: (l, w) :: m => decide (k < l) && v != d && SMap.wf d ((l, w) :: m)

end Sys2Proof.Machine
end

