-- ==== Sys2Proof/Machine/Mem.lean ====
section
/-! DEFINITION. Byte memory in canonical form, and wider accesses built from bytes in one place (R5). An
unlisted byte reads as 0 (the contents after power-on are this model's choice). -/

namespace Sys2Proof.Machine

/-- Byte memory: HBM by physical address, or a buffer by offset. -/
abbrev Memory := List Host.Cell

/-- What an unlisted address reads as. -/
def Memory.blank : Byte := 0
/-- One byte. -/
def Memory.readByte (m : Memory) (a : Nat) : Byte := SMap.get Memory.blank m a
/-- Writing one byte. -/
def Memory.writeByte (m : Memory) (a : Nat) (b : Byte) : Memory := SMap.set Memory.blank m a b
/-- The canonical form. -/
def Memory.wf (m : Memory) : Bool := SMap.wf Memory.blank m
/-- n bytes from an address, as a little-endian number (R5). -/
def Memory.read (m : Memory) (a : Nat) : Nat → Nat
  | 0 => 0
  | n + 1 => (m.readByte a).toNat + 256 * Memory.read m (a + 1) n
/-- Writing n bytes of a little-endian number (R5). -/
def Memory.write (m : Memory) (a : Nat) : Nat → Nat → Memory
  | 0, _ => m
  | n + 1, v => Memory.write (m.writeByte a (BitVec.ofNat 8 v)) (a + 1) n (v / 256)
/-- n bytes set to zero. -/
def Memory.clear (m : Memory) (a n : Nat) : Memory := m.filter fun c => !(decide (a ≤ c.1) && decide (c.1 < a + n))

end Sys2Proof.Machine
end

