-- ==== Sys2Proof/Machine/FrontTypes.lean ====
section
/-! DEFINITION. The state of a front end: registers, the issue window, scoreboard tags, trap frames, and what a
waiting front end waits for. -/

namespace Sys2Proof.Machine

/-- A register that an instruction's result goes to, or that a source names. -/
inductive Reg | s (n : SReg) | v (n : VReg) | p (n : PReg)
  deriving DecidableEq, Repr

/-- Cause codes of R313. DEADLOCK is never delivered to a core and has no constructor here. -/
inductive Cause
  | undef | priv | alignFault | bounds | format | ringDoubleFill | ringState | tokenOver | transl | perm
  | weightExec | wblock | barOver | poison | userTrap | copyDesc | compressAtomic
  deriving DecidableEq, Repr

/-- Privilege levels (R307). -/
inductive Level | u | s | m
  deriving DecidableEq, Repr

/-- The party of a trap: SRC of R310. -/
inductive Src | front | k | o | d | ce | bw
  deriving DecidableEq, Repr

/-- A trap with its information word (R313) and what its fault record says beside it (R315). -/
structure Trap where
  cause : Cause
  info : Word
  src : Src := .front
  /-- Address of the word at fault. -/
  word : Word := 0
  /-- Level of the trapping party, where it is not the front end (R315). -/
  level : Option Level := none
  /-- D0 to D3 of the fault record. -/
  d0 : Word := 0
  d1 : Word := 0
  d2 : Word := 0
  d3 : Word := 0
  /-- The front end has taken it, and its party stands until the front end next runs at level U (R220). -/
  taken : Bool := false
  deriving DecidableEq, Repr

/-- The six loop registers (R19). -/
structure Loops where
  ls0 : Word
  le0 : Word
  lc0 : Word
  ls1 : Word
  le1 : Word
  lc1 : Word
  deriving DecidableEq, Repr

/-- One register write of an issued word: the register as it read before, the bits that the word wrote, and, for each
earlier word whose result for the register was still pending, that word's number and the bits that words since had
written (R172). -/
structure RegWrite where
  reg : Reg
  old : VecWord
  mask : VecWord
  under : List (Nat × VecWord)
  deriving DecidableEq, Repr

/-- A word of the issue window (R130): its fixed latency (none where it has none), its issue cycle, and what it
wrote. -/
structure WinWord where
  lat : Option Nat
  issued : Nat
  writes : List RegWrite
  deriving DecidableEq, Repr

/-- A trap frame (R309, R310), with the issue window saved beside it (R135) and bits [71:64] of the program
counter at the trap (R316). -/
structure Frame where
  pc : Word
  cause : Word
  info : Word
  stat : Word
  loops : Loops
  vec : Word
  scratch : Word
  win : List WinWord
  pcHi : Byte
  deriving DecidableEq, Repr

/-- A pending scoreboard tag (R133). `fixed` marks a tag of a word of fixed latency, or of one without a
register result: it clears by itself at `minAt`, or once an earlier result for its register has landed (R172). Otherwise the result is written by an event no earlier than
`minAt` (R134), once `value` is known, into the bits of `mask`. -/
structure Pend where
  fixed : Bool
  minAt : Nat
  dst : Option Reg
  mask : VecWord
  value : Option VecWord
  trap : Option Trap
  /-- Program-order number of the word. -/
  po : Nat
  /-- Bits of the destination that later lane-wise words have written already (R172). -/
  over_ : VecWord
  /-- Flags that its completion sets (R173). -/
  flags : BitVec 8
  /-- Address of the word. -/
  word : Word
  deriving DecidableEq, Repr

/-- The `gbar` progress of R215: the group record whose arrival has been sent, the number of that arrival (no other one of
the device has it), and the replied phase. -/
structure GbarProg where
  addr : Nat
  num : Nat
  reply : Option Bool
  deriving DecidableEq, Repr

/-- What a front end that issues no later word waits for. -/
inductive FWait
  | none
  /-- `pause` until a cycle (R165). -/
  | pause (until_ : Nat)
  /-- `wfi` with its WAKE mask and limit (R320). -/
  | wfi (wake : Fin 8) (limit : Nat)
  /-- `tokw` (R216). -/
  | tokw (wp wn : Bool)
  /-- `bar.wait`: record address, its virtual address, awaited phase, scope, and the verdict once a check has found one: some true
  for BAR_OVER, some false for a return (R213). -/
  | barWait (addr : Nat) (va : Word) (ph : Bool) (scope : Scope) (verdict : Option Bool)
  /-- `gbar` (R215): record, virtual address, scope, and whether the arrival has been sent. -/
  | gbar (addr : Nat) (va : Word) (scope : Scope) (sent : Bool)
  /-- `qpop` of a ring, with its destination and tag (R262). -/
  | qpop (q : RingId) (d : SReg) (t : TagId)
  /-- `cwait` of a copy entry (R257). -/
  | cwait (e : EntryNo)
  /-- `wdrive`, with its destination and tag (R283). -/
  | wdrive (d : SReg) (t : TagId)
  deriving DecidableEq, Repr

/-- The registers that words compute with (R19, R168). -/
structure Regs where
  s : Vector Word 64
  v : Vector VecWord 32
  p : Vector Word 8
  loops : Loops
  fflags : Word
  round : Word
  seed : Word
  /-- The 64 stochastic lane registers (R67). -/
  lfsr : Vector (BitVec 16) 64
  deriving DecidableEq, Repr

/-- Where the front end stands in its program. -/
structure Pos where
  /-- Program counter bits [63:0], and [71:64]. -/
  pc : Word
  pcHi : Byte
  /-- VAHI of the running launch (R31). -/
  vahi : Byte
  wait : FWait
  /-- Issue cycle of the word that waits. -/
  waitSince : Nat
  /-- The front end has executed `halt`, or has no iteration (R322). -/
  idle : Bool
  /-- Earliest cycle of the next issue. -/
  nextAt : Nat
  /-- Number of the next word in program order. -/
  po : Nat
  /-- Number of the newest `align` before the next word (R99). -/
  mark : Nat
  /-- A trap whose entry waits for tags and fences (R135), and the address to resume at. -/
  trapping : Option (Trap × Word)
  /-- POISON traps of loads whose data arrived while another trap waited for its entry (R197). -/
  late : List Trap
  deriving DecidableEq, Repr

/-- The state of a front end that a cast holds (R358), with its program counter. -/
structure Front where
  regs : Regs
  at_ : Pos
  tags : Vector (Option Pend) 8
  win : List WinWord
  /-- Ready cycles of fixed-latency writes, for interlocked reads (R132). -/
  busy : List (Reg × Nat)
  /-- Cycle by which every flag set so far is complete (R68, R132). -/
  flagsAt : Nat
  level : Level
  sFrame : Frame
  mFrame : Frame
  gbar : List GbarProg
  deriving DecidableEq, Repr

end Sys2Proof.Machine
end

