-- ==== Sys2Proof/Machine/RingTypes.lean ====
section
/-! DEFINITION. Rings and their slots, copy entries, and circuits. -/

namespace Sys2Proof.Machine

/-- Slot states (R87). -/
inductive SlotState | empty | filling | full | held
  deriving DecidableEq, Repr

/-- Who took or fills a slot. -/
inductive Holder
  | none | front | wload | lane (l : LaneId) | drain | copy (e : EntryNo) | circuit (n : CircNo) | remote
  /-- An EMPTY slot that a fill of the core's own will begin on again after a rollback, behind a later one that stands
  (R361). -/
  | again
  deriving DecidableEq, Repr

/-- A ring slot: the fields of its tag (R87), and the party that fills or holds it. -/
structure Slot where
  coord : BitVec 32
  res : Byte
  tagerr : Bool
  poison : Bool
  fmt : Fin 8
  state : SlotState
  by_ : Holder
  /-- Cycle from which the slot becomes FULL by itself no earlier (R261), for a fill of the front end. -/
  since : Nat
  /-- Number of the fill among those of the core's own parties. -/
  own : Nat
  deriving DecidableEq, Repr

/-- A release of a slot that ages tQ before it departs (R361). -/
structure Release where
  slot : Nat
  entered : Nat
  deriving DecidableEq, Repr

/-- A slot whose release has departed (R361): its ring and the number of the definition, that of the take, the slot, and the
tag that the take found. -/
structure Gone where
  ring : RingId
  defNo : Nat
  num : Nat
  slot : Nat
  tag : Slot
  deriving DecidableEq, Repr

/-- A fill of the front end under way (R261): its slot, COORD and FMT, and the word's number. -/
structure OwnFill where
  slot : Nat
  coord : BitVec 32
  fmt : Fin 8
  po : Nat
  deriving DecidableEq, Repr

/-- The definition of a ring (R31, R259). -/
structure RingDef where
  buf : Buf
  /-- BASE and SLOTSZ, in units of 512 bytes. -/
  base : Nat
  nslot : Nat
  slotsz : Nat
  coord0 : BitVec 32
  cstep : BitVec 32
  chk : Bool
  deriving DecidableEq, Repr

/-- The circuit that feeds a ring (R264): its source core, number, branch and opening, the number of the newest flit that
has landed (R268), and whether one of the fill in progress was poisoned (R88). -/
structure Feed where
  src : CoreId
  circ : CircNo
  branch : Nat
  opening : Nat
  landed : Option Nat
  poison : Bool
  deriving DecidableEq, Repr
/-- The feed is of a branch of a circuit of a core. -/
def Feed.is (f : Feed) (c : CoreId) (n : CircNo) (b : Nat) : Bool := f.src == c && f.circ == n && f.branch == b

/-- The circuit of another chip that feeds a ring (R400): the port it comes through, its chip, the endpoint of its source
and its number, and of the fill in progress the bytes that have come, their sum, and whether any was poisoned; and the
number of the newest flit that has landed (R268). -/
structure FarFeed where
  port : PortId
  chip : Nat
  source : Nat
  circ : CircNo
  done : Nat
  sum : Nat
  poison : Bool
  landed : Option Nat
  deriving DecidableEq, Repr

/-- A defined ring (R86 to R88, R259), with the number of the `qdef` or `qreset` that made it so, 0 for a launch.
`filled` and `taken` count the slots begun and taken since the definition;
the pointers of R88 are these counts modulo NSLOT. The counts ending in `Made` belong to a cast; after a rollback they lag behind
the pointers until re-execution has made the same effects again (R359, R361). `viewNo` is the definition that re-execution has
reached. -/
structure Ring where
  def_ : RingDef
  defNo : Nat
  viewNo : Nat
  filled : Nat
  taken : Nat
  tookMade : Nat
  /-- Fills begun by the core's own parties: made, and standing. -/
  ownMade : Nat
  ownKept : Nat
  /-- Releases departed. -/
  relDep : Nat
  /-- Slots that the core has taken again, or taken before the cast, whose release has departed already (R361). -/
  ghosts : List Nat
  /-- The cycle and slot of the newest fill that found its slot not EMPTY (R89). -/
  clash : Option (Nat × Nat)
  slots : List Slot
  rels : List Release
  fills : List OwnFill
  /-- Slots the front end holds, oldest first (R262). -/
  frontHeld : List Nat
  /-- The circuit that feeds the ring (R264). -/
  fedBy : Option Feed
  /-- The circuit of another chip that feeds it (R400). -/
  fedFar : Option FarFeed
  deriving DecidableEq, Repr

/-- States of a copy entry (R258). -/
inductive CopyState | idle | run | demand | fault | done
  deriving DecidableEq, Repr

/-- A tile that a copy has written whole into a slot, which becomes FULL once its writes are performed (R252):
the slot, and the slot of its scales. -/
structure TileEnd where
  ring : RingId
  slot : Nat
  scale : Option (RingId × Nat)
  coord : BitVec 32
  fmt : Fin 8
  res : Nat
  sres : Nat
  poison : Bool
  /-- Number of the copy's next write. -/
  seq : Nat
  deriving DecidableEq, Repr

/-- A copy entry (R249, R255, R258). -/
structure CopyEntry where
  /-- The 32 words of the descriptor, once one has been loaded. -/
  desc : Option (List Word)
  /-- A read of a descriptor in progress: its space and address, and its fault (R255). -/
  reading : Option (Space × Nat)
  readTrap : Option Trap
  state : CopyState
  demand : Bool
  srcOff : Word
  dstOff : Word
  level : Level
  vahi : Byte
  /-- Address of the `cgo` or `cdem`. -/
  word : Word
  /-- Program-order number of the `cgo` or `cdem` (R108). -/
  po : Nat
  /-- Elements whose copy blocks have been written or sent (R258). -/
  pos : Nat
  /-- NX, FSAT, ISAT and NANLOST (R258). -/
  flags : BitVec 8
  /-- Stochastic register (R66). -/
  rsr : BitVec 16
  /-- Next sequence number (R268). -/
  seq : Nat
  /-- Slots of the tile in progress: those it fills, of the destination and of its scales, once begun (inner
  none: the slot has stood FULL since before a rollback), and those it reads. -/
  dslot : Option (Option Nat)
  dcslot : Option (Option Nat)
  sslot : Option Nat
  cslot : Option Nat
  /-- Codes, scale bytes and poison of the tile in progress. -/
  acc : List Nat
  sacc : List Nat
  tilePoison : Bool
  ends : List TileEnd
  /-- Offset of the next block in a zero-skipped source row and destination row (R251). -/
  zsSrc : Nat
  zsDst : Nat
  /-- Physical address of the barrier of CMPL = 1, fixed at the start (R253). -/
  bar : Option Nat
  /-- Opening number of the destination circuit (R265). -/
  opening : Nat
  trap : Option Trap
  deriving DecidableEq, Repr

/-- One flit of a circuit (R265): the slot bytes of the blocks that it completes, its tile's number and tag,
and whether it is the tile's first or last. -/
structure Flit where
  seq : Nat
  tile : Nat
  first : Bool
  last : Bool
  bytes : List (Nat × Byte)
  coord : BitVec 32
  fmt : Fin 8
  res : Byte
  poison : Bool
  /-- Source slot of a ring-fed circuit. -/
  slot : Option Nat
  /-- Copy entry of a copy-fed circuit. -/
  entry : Option EntryNo
  /-- Cycle at which it left the hold-back buffer. -/
  left : Nat
  deriving DecidableEq, Repr

/-- A branch of a circuit (R264, R265). -/
structure Branch where
  dst : CoreId
  /-- Answer of the destination: none while awaited, some 0 for a refusal, some (n + 1) for a credit of n. -/
  reply : Option Nat
  credit : Nat
  elastic : List Flit
  /-- The tile whose fill has begun at the destination, and its slot there. -/
  filling : Option (Nat × Nat)
  deriving DecidableEq, Repr

/-- Circuit states (R258). -/
inductive CircState | closed | opening | open_ | closing | refused
  deriving DecidableEq, Repr

/-- A circuit (R264 to R266). -/
structure Circuit where
  state : CircState
  /-- Source ring; none when a copy feeds the circuit. -/
  src : Option RingId
  ksz : Bool
  tslot : Nat
  remote : Option (BitVec 16)
  /-- The port of a circuit to another chip, as the chip table named it at the opening (R400). -/
  port : Option PortId
  dring : RingId
  branches : List Branch
  /-- Flits cut and not yet entered into the hold-back buffer. -/
  cut : List Flit
  /-- Next flit sequence number, and next tile number. -/
  seq : Nat
  tile : Nat
  /-- Tiles fully taken by every branch (R258). -/
  sent : Nat
  /-- Number of the take of its source ring before which it still takes slots when CLOSING (R266). -/
  due : Option Nat
  /-- The closing request came while the circuit was OPENING. -/
  early : Bool
  /-- How often the number has been opened (R265). -/
  openings : Nat
  /-- Address, level and program-order number of the `circ` that opened it last (R108, R315). -/
  word : Word
  level : Level
  po : Nat
  /-- A fault of a source slot (R89). -/
  trap : Option Trap
  deriving DecidableEq, Repr

end Sys2Proof.Machine
end

