-- ==== Sys2Proof/Machine/PoolTypes.lean ====
section
/-! DEFINITION. The pool: planes, groups, queue entries, streams, operations in flight, and parts held at a
home; and the block walker. -/

namespace Sys2Proof.Machine

/-- A pool group of a plane (R221 to R223). -/
structure Group where
  cell0 : Nat
  len : Nat
  /-- Elements per cell: 1, 2 or 4. -/
  pack : Nat
  ext : Bool
  /-- Accumulate mode: true for INT32 (R58). -/
  int : Bool
  lane : LaneId
  members : List CoreId
  /-- Carved, and not yet live: its operations are numbered from the swap on (R241). -/
  fresh : Bool
  /-- Format and scales of each weight slot. -/
  fmts : Vector (Fin 8) 8
  scales : Vector Bool 8
  deriving DecidableEq, Repr

/-- A weight register with its scale byte (R221) and poison mark (R366). -/
structure WReg where
  bits : BitVec 32
  scale : Byte
  poison : Bool
  deriving DecidableEq, Repr

/-- One plane of the pool (R221). Weight registers are keyed by 8 × cell + slot; unlisted ones read zero. -/
structure Plane where
  groups : SMap (Option Group)
  /-- The multicast map: OFFSET and CBIDX by group (R228). -/
  map : SMap (Nat × Nat)
  /-- Scale ring of each lane (R229). -/
  lanes : Vector (Option RingId) 4
  regs : SMap WReg
  deriving DecidableEq, Repr

/-- What a queue entry does (R230, R278). -/
inductive QOp
  | carve (a b : Word) (clr : Bool)
  | wload (q : RingId) (a : Word)
  /-- A LOADW felt at an address: its `wload` word, format, first cell and cell count (R278). -/
  | wfelt (felt a : Word) (fmt : Fin 8) (fcell ncell : Nat)
  | mmap (a b : Word)
  | plane (copy : Bool)
  | sbind (q : RingId) (lane : LaneId) (en : Bool)
  | feed (q : RingId) (a b c : Word) (lane : LaneId) (slot : Fin 8) (tps : Nat)
  | feedx (a b c : Word) (lane : LaneId) (slot fmt : Fin 8)
  | drain (q : RingId) (a b : Word) (lane : LaneId) (bias : RingId)
  | aclr (b : Word)
  /-- A TOKEN felt (R279). -/
  | token
  deriving DecidableEq, Repr

/-- A queue entry (R218, R219). -/
structure QEntry where
  op : QOp
  tok : Tok
  /-- Address of the word that dispatched it, its level and bits [71:64] of its addresses. -/
  word : Word
  level : Level
  vahi : Byte
  /-- Dispatch generation (R224). -/
  gen : Nat
  /-- Program-order number (R108). -/
  po : Nat
  /-- Cycle of its begin; its tokens have been popped. -/
  began : Option Nat
  popped : Bool
  /-- Cycle at which it finishes, when that is settled. -/
  doneAt : Option Nat
  /-- Slot step reached, byte stream position, and format of a `wload`. -/
  step : Nat
  pos : Nat
  fmt : Option (Fin 8)
  /-- The output slot of a drain that is being filled, and the bias slot it holds. -/
  oslot : Option Nat
  bslot : Option Nat
  /-- Flags and poison of what a drain has converted (R68, R366). -/
  flags : BitVec 8
  poison : Bool
  /-- A fault at which the queue stopped (R220). -/
  trap : Option Trap
  deriving DecidableEq, Repr

/-- A stream armed on a lane (R230 to R233). -/
structure Stream where
  /-- Operand ring; none for `feedx`. -/
  ring : Option RingId
  count : Nat
  nrow : Nat
  rstride : Nat
  /-- Tile pitch of `feed`, or stride of `feedx`, in bytes. -/
  pitch : Nat
  base : Nat
  space : Buf
  fmt : Fin 8
  slot : Fin 8
  tps : Nat
  gen : Nat
  /-- Operations fired, and retired (R247). -/
  fired : Nat
  retired : Nat
  tok : Tok
  word : Word
  level : Level
  po : Nat
  /-- Slot held at the consumer end by the stream, and scale slot. -/
  oslot : Option Nat
  sslot : Option (RingId × Nat)
  /-- Slots of both kinds that are still HELD for operations to be fired again (R247), oldest first. -/
  again : List Nat
  sagain : List Nat
  trap : Option Trap
  deriving DecidableEq, Repr

/-- A pass or part that an operation formed: its group, its destination entry, value and poison (R232, R241). -/
structure Pass where
  group : Nat
  entry : Nat
  /-- FP32 bits, or an integer of R60. -/
  value : BitVec 48
  int : Bool
  poison : Bool
  /-- Extended group: members in ascending order; empty otherwise. -/
  members : List CoreId
  /-- Part number of an extended group (R241). -/
  part : Nat
  deriving DecidableEq, Repr

/-- An operation in flight on a lane (R233 to R242). -/
structure PoolOp where
  /-- Number of its retirement on the lane. -/
  num : Nat
  n : Nat
  fired : Nat
  /-- max(Fc, Cc) of R234. -/
  span : Nat
  /-- Cycle at which its newest pass entered the result stage. -/
  entered : Option Nat
  /-- Passes and parts still to enter. -/
  passes : List Pass
  /-- Group and part number of the extended passes that its home has combined (R241); their parts stay held until the
  operation retires (R247). -/
  joined : List (Nat × Nat)
  /-- Operand and scale slots that the operation releases at retirement. -/
  oslot : Option (RingId × Nat)
  sslot : Option (RingId × Nat)
  deriving DecidableEq, Repr

/-- An extended-group part held at its home (R241). -/
structure HeldPart where
  group : Nat
  part : Nat
  src : CoreId
  value : BitVec 48
  int : Bool
  poison : Bool
  deriving DecidableEq, Repr

/-- What a lane keeps in a cast (R247): its streams, oldest first, of which the last may still fire, its
undrained count, and when it last fired. -/
structure LaneState where
  streams : List Stream
  undrained : Nat
  lastFire : Nat
  lastSpan : Nat
  deriving DecidableEq, Repr

/-- Queues, FIFO counts, generations and lane positions (R358). FIFO j is numbered as in R47. -/
structure Queues where
  k : List QEntry
  o : List QEntry
  d : List QEntry
  fifo : Vector (Fin 17) 8
  /-- For each token of a FIFO, oldest first, the program-order number up to which its signaller had observed the core's
  stores (R108, R216). -/
  marks : Vector (List Nat) 8
  /-- Dispatch generation and live generation (R224). -/
  genD : Nat
  genL : Nat
  /-- Cycle of the newest swap (R233). -/
  swapAt : Option Nat
  lanes : Vector LaneState 4
  /-- Parts formed so far for each extended group (R241). -/
  parts : SMap Nat
  /-- Stochastic register of the drain (R66). -/
  rsr : BitVec 16
  /-- Faults of fills that reached a ring of this core (R89). -/
  fillTraps : List Trap
  /-- The first cycle in which the next instruction of K, O and D may begin (R219). -/
  readyAt : Vector Nat 3
  deriving DecidableEq, Repr

/-- States of the walker (R285). -/
inductive WState | idle | run | wait | susp
  deriving DecidableEq, Repr

/-- What a waiting walker awaits (R46, R286). -/
inductive WWait | none | token | slot (q : RingId) (n : Nat) | queue (q : PoolQ) | read (since : Nat)
  deriving DecidableEq, Repr

/-- The block walker: the ten words of R285, with the header words of the current felt. -/
structure Walker where
  nfelt : Nat
  cause : Byte
  bop : Byte
  reserr : Bool
  end_ : Fin 4
  state : WState
  phase : Fin 4
  felt : Word
  boff : Nat
  voff : Nat
  blk : Nat
  run : Nat
  racc : Nat
  scan : Bool
  elem : Nat
  b0 : BitVec 32
  b1 : BitVec 32
  stack : List Word
  deriving DecidableEq, Repr

/-- What the walker holds beside its ten words. -/
structure WalkerCtx where
  /-- H0 to H7 of the current felt. -/
  hdr : List Word
  /-- Level and bits [71:64] of its reads, and the address and number of the `wdrive`. -/
  level : Level
  vahi : Byte
  word : Word
  po : Nat
  /-- Cycle at which the header was asked for. -/
  asked : Nat
  /-- Inline carve words placed, or the queue entry placed, of the current felt. -/
  placed : Nat
  /-- Number of the queue entry that the current felt placed last: that of its `wdrive` (R278). -/
  entry : Nat
  /-- The run marker of the blocks still due carried an uncorrectable error (R276). -/
  runBad : Bool
  /-- Tokens of a TOKEN felt have been popped. -/
  popped : Bool
  wait : WWait
  trap : Option Trap
  deriving DecidableEq, Repr

end Sys2Proof.Machine
end

