-- ==== Sys2Proof/Machine/MemTypes.lean ====
section
/-! DEFINITION. Accesses on their way: loads, stores, the hold-back buffer, the write-age stages, and the
messages that have left a core. -/

namespace Sys2Proof.Machine

/-- Bytes written at one place by one single-copy atomic write: the physical address or buffer offset, bits
[63:0] of the virtual address, and the bytes. -/
structure WUnit where
  addr : Nat
  va : Word
  bytes : List Byte
  /-- The page is compressed (R346). -/
  cmp : Bool
  deriving DecidableEq, Repr

/-- Kinds of access (R345). -/
inductive Access | load | store | rmw | fetch | felt
  deriving DecidableEq, Repr
/-- The accesses of an issued word that still wait for a translation (R348): each address with its length, and the level,
VAHI and kind that they are checked with. -/
structure Need where
  xs : List (Word × Nat)
  level : Level
  vahi : Byte
  acc : Access
  deriving DecidableEq, Repr

/-- What leaves a core, or stays in its store stream. -/
inductive Req
  /-- A store to global memory (R199, R200). -/
  | store (units : List WUnit)
  | amo (addr : Nat) (va : Word) (dbl : Bool) (op : AmoOp) (u : Bool) (x : Word) (tag : TagId) (po : Nat)
  | cas (addr : Nat) (va : Word) (dbl : Bool) (expect new : Word) (tag : TagId) (po : Nat)
  /-- A counted-reduction contribution with its weight and sequence number (R209). -/
  | cred (addr : Nat) (va : Word) (dbl : Bool) (op : AmoOp) (u : Bool) (cnt : Nat) (x : Word) (seq : Nat)
  | barInit (addr : Nat) (va : Word) (scope : Scope) (x : Word)
  | barArrive (addr : Nat) (va : Word)
  /-- `gjoin` or `gleave`, with the outstanding arrival's phase (R45). -/
  | group (addr : Nat) (va : Word) (join : Bool) (arrived : Option Bool)
  /-- The arrival of a `gbar` (R215), with its number. -/
  | gbar (addr : Nat) (va : Word) (num : Nat)
  | launch (addr : Nat) (va : Word) (cmp : Bool) (q : QueueNo) (tag : TagId) (po : Nat) (asid : Byte) (vahi : Byte)
  /-- `freeze` or `thaw` (R318): a core with its mask, or a port. -/
  | freeze (target : Nat) (port : Bool) (mask : Fin 8) (thaw : Bool)
  /-- The opening of branches of a circuit (R264): branch numbers with their cores, and the source slot size. It
  leaves the core whole, and goes on as one message for each branch. -/
  | opening (n : CircNo) (dsts : List (Nat × CoreId)) (remote : Option (Nat × Option PortId)) (ring : RingId) (size : Nat) (opening : Nat)
  /-- The closing request of a circuit (R266). -/
  | close (n : CircNo)
  /-- A write of a copy block to global memory (R252), reducing or plain, with its bound barrier. -/
  | copyWrite (e : EntryNo) (units : List WUnit) (red : Fin 5) (bar : Option Nat)
  | flit (n : CircNo) (f : Flit)
  /-- A free notice to a branch of a circuit of another core, for one of its openings (R265). -/
  | notice (dst : CoreId) (n : CircNo) (branch : Nat) (opening : Nat)
  /-- A free notice, or the reply to an opening, to a circuit of another chip (R265, R400): the port its opening came
through, the chip, the endpoint of its source, and the reply's code. -/
  | far (q : PortId) (chip source : Nat) (n : CircNo) (code : Option Nat)
  /-- The reply to an opening: 0 refuses, k + 1 accepts with credit k (R264). -/
  | reply (dst : CoreId) (n : CircNo) (branch : Nat) (code : Nat) (opening : Nat)
  /-- An extended-group part on its way to its home (R241). -/
  | part (home : CoreId) (p : HeldPart)
  deriving DecidableEq, Repr

/-- The outbound streams of R359. `other` carries effects that belong to none of them. -/
inductive OutStream | store | copy (e : EntryNo) | circuit (n : CircNo) | ring (q : RingId) | lane (l : LaneId) | other
  deriving DecidableEq, Repr

/-- An entry of the hold-back buffer (R27). -/
structure Hold where
  req : Req
  stream : OutStream
  num : Nat
  /-- Party of the route identifier (R378). -/
  party : Fin 4
  entered : Nat
  /-- Bytes it takes in the buffer. -/
  size : Nat
  poison : Bool
  /-- Made at level M: it writes no shadow page (R371, R372). -/
  phys : Bool
  deriving DecidableEq, Repr

/-- Where a write is performed (R104). -/
inductive Home | buffer | die (d : DieId) | chip (n : Nat)
  deriving DecidableEq, Repr

/-- A store-stream effect from its production until its acknowledgement (R106, R364). -/
structure Sent where
  num : Nat
  po : Nat
  /-- The homes of its units. -/
  homes : List Home
  /-- An `amo` or `cas` (R111). -/
  atomic : Bool
  /-- A relaxed barrier arrival, which orders nothing (R114). -/
  loose : Bool
  /-- Units not yet performed. -/
  left : Nat
  entered : Nat
  /-- Cycle of its performance. -/
  done : Option Nat
  deriving DecidableEq, Repr

/-- Where an effect of one unit is performed. -/
def Sent.home (e : Sent) : Home := e.homes.headD .buffer

/-- Party of a write-age entry (R84). -/
inductive AgeParty | front (num po : Nat) | copy (e : EntryNo) (seq : Nat) | drain | aclr | pass (lane : LaneId) (n : Nat)
  deriving DecidableEq, Repr

/-- A write that ages beside a buffer (R84): bytes of one bank word, or combining words in groups of four bytes
(R201). -/
structure Age where
  buf : Buf
  party : AgeParty
  bytes : List (Nat × Byte)
  comb : Comb
  entered : Nat
  poison : Bool
  /-- The pass clamped (R64). -/
  isat : Bool
  deriving DecidableEq, Repr

/-- One single-copy atomic unit of a load: where it lies, its bytes, the bit of the result at which it lands,
and its value once performed. -/
structure LoadUnit where
  addr : Nat
  va : Word
  n : Nat
  bit : Nat
  cmp : Bool
  value : Option Nat
  /-- The port through which the request has gone to another chip (R398, R399). -/
  asked : Option PortId
  /-- The data carried an uncorrectable error (R197). -/
  bad : Bool
  deriving DecidableEq, Repr

/-- Kinds of load-stream entries (R98). -/
inductive LoadKind
  | scalar (n : Nat) (sx : Bool)
  | vec
  | lwait (test : Bool)
  | qload (q : QueueNo)
  /-- An acquire still to take effect: of a `fence.acq`, of a performed load, or of an atomic whose
  program-order number is given (R106). -/
  | acquire (atomic : Option Nat)
  deriving DecidableEq, Repr

/-- An entry of the load stream. -/
structure Load where
  kind : LoadKind
  space : Space
  units : List LoadUnit
  tag : Option TagId
  po : Nat
  mark : Nat
  acq : Option Scope
  issued : Nat
  /-- Accesses that wait for their translation (R348); the addresses of the units are then still open. -/
  need : Option Need
  /-- Address of the word. -/
  word : Word
  deriving DecidableEq, Repr

/-- What a store-stream entry does when it enters. -/
inductive StoreAct
  | req (r : Req)
  /-- Buffer writes: the units, or combining words (R200, R201). -/
  | buf (b : Buf) (units : List WUnit) (comb : Comb)
  /-- A release with no access: `fence.rel` and the release of `gbar` (R204, R215). -/
  | release
  | tlbi (scope : TlbScope) (kind : TlbKind) (va : Word)
  /-- The record of a freeze at another chip (R315, R317), which is no effect of the front end's own. -/
  | record (units : List WUnit)
  deriving DecidableEq, Repr

/-- A store-stream entry that still waits (R106). -/
structure StoreOp where
  act : StoreAct
  po : Nat
  num : Nat
  release : Option Scope
  tag : Option TagId
  /-- Party of its route identifier: 0 for the front end, 2 for the walker. -/
  party : Fin 4
  /-- Accesses that wait for their translation (R348); the addresses of the act are then still open. -/
  need : Option Need
  /-- Address of the word, and whether it issued at level M, where addresses are physical (R307). -/
  word : Word
  phys : Bool
  deriving DecidableEq, Repr

/-- A request that has left its core, or another message on the device's paths (R364). -/
structure Msg where
  id : Nat
  src : CoreId
  hold : Hold
  /-- Partition of its route identifier (R378), taken at injection. -/
  part : Fin 16
  departed : Nat
  /-- Units already applied, by index. -/
  applied : List Nat
  /-- Failed sends in a row (R365). -/
  sends : Nat
  /-- Dropped by a guard, with its kind (R380). -/
  dropped : Option (Fin 5)
  /-- The link port that carries it to another chip (R400). -/
  port : Option PortId
  deriving DecidableEq, Repr

end Sys2Proof.Machine
end

