-- ==== Sys2Proof/Machine/CoreTypes.lean ====
section
/-! DEFINITION. The state of one core: what a cast holds, its buffers and outbound stages, its translations,
its registers, and how it runs. -/

namespace Sys2Proof.Machine

/-- A leaf of a page table (R343): its physical base, whether it maps a 1 GiB block, its permissions and
attributes. -/
structure Leaf where
  pa : Nat
  blk : Bool
  r : Bool
  w : Bool
  x : Bool
  xw : Bool
  u : Bool
  g : Bool
  cmp : Bool
  shd : Bool
  deriving DecidableEq, Repr

/-- A TLB entry (R347): its tag VA[71:16], or VA[71:30] for a block, and its leaf. -/
structure TlbEntry where
  asid : Byte
  page : Nat
  leaf : Leaf
  deriving DecidableEq, Repr

/-- An outstanding miss (R348). A failed walk stays until the access that asked for it is tried again. -/
structure Miss where
  asid : Byte
  va : Nat
  walking : Bool
  since : Nat
  failed : Bool
  /-- A `tlbi` overtook the walk: it installs nothing (R352). -/
  cancelled : Bool
  /-- The access that waits: 0 of the load stream, 1 of the store stream, 2 of the walker, 3 a fetch, 4 to 6 of K, O and D,
  16 + e of copy entry e. -/
  party : Nat
  deriving DecidableEq, Repr

/-- A fetched line (R139): its address, context and the level it was fetched at, and its ten-byte words' 80 bytes. -/
structure Line where
  va : Nat
  asid : Byte
  level : Level
  bytes : List Byte
  deriving DecidableEq, Repr

/-- Effects made by each outbound stream (R359) that no other part of the cast counts. -/
structure Produced where
  store : Nat
  /-- Sequence numbers given to `cred` (R209). -/
  cred : Nat
  /-- Drain outputs, and maquette writes of K. -/
  drain : Nat
  maq : Nat
  /-- `qdef` and `qreset` of each ring. -/
  defs : Vector Nat 16
  /-- Retirements of each lane. -/
  lanes : Vector Nat 4
  deriving DecidableEq, Repr

/-- The state of a core that a cast holds (R358). -/
structure Live where
  front : Front
  queues : Queues
  rings : Vector (Option Ring) 16
  copies : Vector CopyEntry 16
  /-- The copy entry served last (R248). -/
  served : EntryNo
  circuits : Vector Circuit 64
  walker : Walker
  wctx : WalkerCtx
  prod : Produced
  deriving DecidableEq, Repr

/-- A cast (R358): its state, its cycle and package time, and whether it is free of uncorrectable errors. -/
structure Cast where
  live : Live
  cyc : Nat
  ns : Nat
  usable : Bool
  deriving DecidableEq, Repr

/-- A `tlbi` that has removed its entries and waits for the accesses that used them (R352): what it names, and for each
targeted core the first program-order number not concerned. -/
structure TlbiWait where
  po : Nat
  kind : TlbKind
  va : Word
  bounds : List (CoreId × Nat)
  /-- Cycle of the removal. -/
  since : Nat
  tag : Option TagId
  deriving DecidableEq, Repr

/-- A `qdef` or `qreset` that takes effect tQ after issue (R259, R260). -/
structure RingChange where
  ring : RingId
  def_ : Option RingDef
  issued : Nat
  num : Nat
  deriving DecidableEq, Repr

/-- What a drain has converted, kept for a rollback that finds its writes departed (R359): its number, flags,
residue, poison, and the drain's stochastic register after it. -/
structure DrainLog where
  num : Nat
  flags : BitVec 8
  res : Nat
  poison : Bool
  rsr : BitVec 16
  deriving DecidableEq, Repr

/-- A write of the planes by K (R359): its number, its entry into the write-age stage, and the planes with the live one
before it and after it. -/
structure PlaneWrite where
  num : Nat
  entered : Nat
  before : Vector Plane 2 × Fin 2
  after : Vector Plane 2 × Fin 2
  deriving DecidableEq, Repr

/-- Buffers, planes, and the stages that effects pass through. The planes are as K's writes leave them, those that still
age among them: nothing but K sees the maquette plane before a swap. -/
structure Store where
  wb : Memory
  ab : Memory
  cb : Memory
  /-- Poisoned 64-byte bank words of the three buffers, and poisoned Accumulator Buffer entries (R366). -/
  wbBad : List Nat
  abBad : List Nat
  cbBad : List Nat
  cbMarks : List Nat
  planes : Vector Plane 2
  /-- The physical plane that is live. -/
  liveSel : Fin 2
  /-- Operations in flight on each lane. -/
  ops : Vector (List PoolOp) 4
  held : List HeldPart
  aging : List Age
  deriving DecidableEq, Repr

/-- The outbound and inbound streams of a core. -/
structure Flow where
  hold : List Hold
  sent : List Sent
  storeQ : List StoreOp
  loads : List Load
  changes : List RingChange
  tlbi : Option TlbiWait
  /-- Departed counts (R359). -/
  dep : Produced
  /-- Departed counts of copy entries and circuits, by sequence number. -/
  depCopy : Vector Nat 16
  depCirc : Vector Nat 64
  /-- The replay log (R360): values by program-order number. -/
  replay : List (Nat × Option VecWord)
  /-- Slots whose release has departed since the oldest cast (R361). -/
  gone : List Gone
  /-- Retirements that clamped an entry, since the oldest cast: lane and number (R68). -/
  sats : List (LaneId × Nat)
  /-- Flits of the tiles that circuits have cut since the oldest cast, by circuit and tile number (R265). -/
  cuts : List (CircNo × Nat × Nat)
  drained : List DrainLog
  /-- K's writes of the planes since the oldest cast: those still ageing, and those performed, which a rollback
  finds departed (R359). -/
  planeLog : List PlaneWrite
  /-- Departed parts of each extended group (R241). -/
  depParts : SMap Nat
  /-- The cycle of the newest departure or performance (R356). -/
  leftAt : Option Nat
  /-- Loads whose results have come since the oldest cast, to be performed again where a logged value is lost (R360). -/
  past : List Load
  /-- What `circ` and `ccls` words have found, by program-order number: TRAP_INFO of a BOUNDS, or none (R264, R359). -/
  circLog : List (Nat × Option Word)
  deriving DecidableEq, Repr

/-- Frozen masters and FREEZE_STAT.VIOL (R317). -/
structure Freeze where
  fe : Bool
  ce : Bool
  bw : Bool
  viol : Fin 16
  deriving DecidableEq, Repr

/-- Registers of one core (R309, R375, R390). -/
structure CoreRegs where
  asid : Byte
  freeze : Freeze
  faultBase : Word
  faultHead : Fin 64
  poisonCont : Bool
  sramCe : BitVec 32
  feed : Nat
  feedUsed : Nat
  /-- The firing limit in force in the present window (R413). -/
  feedNow : Nat
  deriving DecidableEq, Repr

/-- How far a core's stop, save or load has come (R332, R335). -/
inductive Stop
  | none
  /-- Asked to stop by `ctxsave` or a gang switch (true). -/
  | asked (gang : Bool) (since : Nat)
  | saving (gang : Bool) (since : Nat)
  | stopped
  | loading (asid : Byte) (gang : Bool) (since : Nat)
  deriving DecidableEq, Repr

/-- The launch a core is assigned to (R37). -/
structure Job where
  part : PartId
  launch : Nat
  /-- Mirror side of a paired launch (R370). -/
  sideB : Bool
  /-- The iteration that runs. -/
  iter : Option Nat
  /-- Cycle since which the core waits for an iteration, or is to be cleared. -/
  since : Nat
  clearing : Bool
  /-- No iteration of this launch has run on the core (R35). -/
  fresh : Bool
  /-- KIND 4 record of the iteration has been written (R367). -/
  poisoned : Bool
  /-- Ends and dispatches of iterations on the core by program-order number, oldest first: none for an end. After
  a rollback, how many ends that have been counted will be executed again, and the iterations to be started
  again (R356). -/
  hist : List (Nat × Option Nat)
  endsDone : Nat
  redo : List Nat
  wbKib : Nat
  abKib : Nat
  cbKib : Nat
  deriving DecidableEq, Repr

/-- How a core runs. -/
structure Run where
  /-- Held before stage 5 of the boot (R408). -/
  inHold : Bool
  /-- Has executed its first `halt` (R409). -/
  halted : Bool
  stop : Stop
  job : Option Job
  /-- ASID of the last launch, whose data the buffers may hold (R37). -/
  lastAsid : Option Byte
  /-- Endpoints of drops already recorded for its frozen masters (R380): kind, route and record index. -/
  drops : List (Nat × Nat × Nat)
  /-- The cycle in which the present rollback ends, and the estimates of reports that wait for it (R362). -/
  rollEnd : Nat
  strikes : List Nat
  deriving DecidableEq, Repr

/-- One core. -/
structure Core where
  live : Live
  store : Store
  flow : Flow
  regs : CoreRegs
  run : Run
  tlb : List TlbEntry
  misses : List Miss
  icache : List Line
  casts : List Cast
  deriving DecidableEq, Repr

end Sys2Proof.Machine
end

