-- ==== Sys2Proof/Machine/SysTypes.lean ====
section
/-! DEFINITION. The state outside the cores: launches and partitions, the package, the host port, the links,
and bring-up. -/

namespace Sys2Proof.Machine

/-- The fields of a launch record that the device uses after enqueue (R31), as they stood then (R33). -/
structure LaunchRec where
  cmax : Nat
  cmin : Nat
  gang : Bool
  waiten : Bool
  paired : Bool
  prio : Fin 4
  code : Word
  waitph : Bool
  vahi : Byte
  param : Word
  wbKib : Nat
  abKib : Nat
  cbKib : Nat
  /-- EXTENT and ORDER of the used dimensions. -/
  dims : List (Nat × Nat)
  /-- Ring definition words. -/
  rings : List Word
  deriving DecidableEq, Repr

/-- A launch from its enqueue to its completion (R31 to R40). -/
structure Launch where
  id : Nat
  part : PartId
  queue : QueueNo
  /-- Physical and virtual address of the record, and its context. -/
  addr : Nat
  va : Word
  asid : Byte
  /-- The record lies in a compressed page (R346). -/
  cmp : Bool
  /-- The first code line, as the launch buffer read it at enqueue (R327, R350). -/
  line : Option (List Byte)
  lrec : LaunchRec
  /-- Physical addresses fixed at enqueue (R32). -/
  waitBar : Option Nat
  doneBar : Option Nat
  /-- Next iteration, and iterations ended. -/
  next : Nat
  ended : Nat
  cores : List CoreId
  /-- Order of first dispatch (R329). -/
  order : Nat
  /-- STATE := 2 has been written. -/
  running : Bool
  /-- Signatures of the two sides of a paired launch (R372). -/
  sigA : Word
  sigB : Word
  deriving DecidableEq, Repr

/-- A launch queue (R326, R328). -/
structure LQueue where
  cfg : Word
  ptr : Word
  ctx : Word
  entries : List Launch
  /-- PHASE of the head's WAITBAR as last read (R328). -/
  seen : Option Bool
  /-- Cycle since which the head has been eligible, and whether it is starving (R329). -/
  since : Option Nat
  starving : Bool
  /-- The `qsave` that shut the queue last, as core and number in the store stream, with the LQ_CFG and the age word that
  its image holds: executed again after a rollback it stores the same (R336). -/
  saved : Option (CoreId × Nat × Word × Word)
  deriving DecidableEq, Repr

/-- A gang switch in progress (R338): the cores to save and those to load. -/
structure Switch where
  busy : Bool
  done : Bool
  saves : List CoreId
  loads : List CoreId
  /-- Its core set: every core that it saves or loads (R335). FROM's scheduler block has been written. -/
  set_ : List CoreId
  written : Bool
  /-- Contexts whose queues a switch has paused (R338). -/
  paused : List Byte
  deriving DecidableEq, Repr

/-- Logs, areas and events of a partition (R363, R382, R387, R388). -/
structure PartLogs where
  rlogBase : Word
  rlogHead : Fin 64
  reports : BitVec 32
  rollbacks : BitVec 32
  pevent : BitVec 4
  evaddr : Word
  dlkBase : Word
  glogBase : Word
  glogHead : Fin 64
  deriving DecidableEq, Repr

/-- Budgets of a partition (R383): the registers BUD_HBM to BUD_POOL, the values in force in this window, and
the use on each die. -/
structure Budgets where
  regs : Vector Word 4
  now : Vector Word 4
  used : Vector (Vector Nat 4) 4
  deriving DecidableEq, Repr

/-- A partition (R326, R375, R389). -/
structure Part where
  queues : Vector LQueue 64
  dstat : Word
  switchAt : Word
  switchCtl : Word
  switch : Switch
  ctxBusy : BitVec 256
  ctxErr : BitVec 256
  running : List Launch
  /-- Cycle of the last grant: one at most in a cycle (R329). -/
  grantAt : Option Nat
  /-- Queue whose head last began dispatch, at each PRIO (R329). -/
  lastQ : Vector QueueNo 4
  logs : PartLogs
  budgets : Budgets
  /-- Last cycle in which traffic moved, and whether a deadlock record stands for this quiet stretch (R46). -/
  moved : Nat
  reported : Bool
  deriving DecidableEq, Repr

/-- A compressed block held in expanded form by the memory-side cache (R95): its bytes, which of its lines are
dirty, which 64-byte half-lines are poisoned, and the partition whose ways hold it (R383, R385). -/
structure CBlock where
  bytes : List Byte
  dirty : List Nat
  bad : List Nat
  owner : PartId
  deriving DecidableEq, Repr

/-- Package registers (R309, R325, R354, R375, R389). -/
structure PkgRegs where
  accept : Word
  locked : Bool
  ctxdir : Word
  chipid : BitVec 16
  mdbase : Vector Word 8
  mscCe : Vector (BitVec 32) 4
  hbmErr : Vector Word 8
  hbmScrub : Vector (BitVec 32) 8
  pmap : Vector Word 16
  pctl : Word
  cal : Vector Word 4
  /-- STRICT and CAL in force in the present window (R385). -/
  strictNow : Bool
  calNow : Vector Word 4
  /-- The cycle in which the present window of the regulators began (R383). -/
  windowAt : Option Nat
  /-- RTAB(p, d) at 4p + d. -/
  rtab : Vector Word 64
  rtabx : Vector Word 16
  deriving DecidableEq, Repr

/-- A non-leaf entry of a die's walk cache (R348): its context, level, the address bits that select it, and the table
it names. -/
structure WalkEntry where
  asid : Byte
  level : Nat
  pre : Nat
  table : Nat
  deriving DecidableEq, Repr

/-- The memory side of the package. -/
structure Mem where
  /-- HBM by physical address, as the memory-side caches see it. -/
  hbm : Memory
  /-- Poisoned 64-byte units of HBM (R366). -/
  bad : List Nat
  /-- Uncorrectable errors found in each stack since its counts were last read (R369). -/
  found : Vector Nat 8
  /-- Blocks of compressed pages held in expanded form, by block number. -/
  blocks : SMap (Option CBlock)
  /-- Highest sequence number applied from each source route of each other chip (R400). -/
  farSeen : SMap (Option Nat)
  /-- Highest sequence number of `cred` applied at each home from each core (R112). -/
  applied : SMap (Option Nat)
  /-- The same of the copy writes of each copy entry (R268). -/
  copied : SMap (Option Nat)
  /-- Core that last received a walk slot, on each die (R348). -/
  walkLast : Vector CoreId 4
  /-- The same for each partition, under STRICT (R385). -/
  walkPart : Vector (Vector CoreId 16) 4
  /-- The walk cache of each die (R348). -/
  walkCache : Vector (List WalkEntry) 4
  deriving DecidableEq, Repr

/-- A flit in the replay buffer of a port (R398): its SEQ, the flit as it was built, and how often in a row it has been sent
without an ACK. -/
structure KeptFlit where
  seq : Nat
  flit : VecWord
  sends : Nat
  deriving DecidableEq, Repr

/-- A scale-out port (R396 to R399, R404). -/
structure Port where
  ctl : Word
  state : Fin 3
  seqerr : Bool
  /-- The contexts that gang switches have stopped (R402). -/
  paused : List Byte
  resends : BitVec 16
  mac : Word
  peer : Word
  asym : BitVec 32
  rto : Nat
  /-- Next transmit SEQ, oldest SEQ not acknowledged, next expected receive SEQ. -/
  tx : Nat
  txOld : Nat
  rx : Nat
  /-- The replay buffer, oldest first. -/
  keep : List KeptFlit
  /-- Flits received ahead of a gap, with their SEQs. -/
  ahead : List (Nat × VecWord)
  /-- Flits held for paused contexts, oldest first, each with its context (R402). -/
  heldIn : List (Byte × VecWord)
  /-- The bytes that the port last put on its lanes (R396, R397). -/
  wire : List Byte
  /-- A flit that the peer has asked for again, and whether its NAK had PAUSE set (R398). -/
  nak : Option (Nat × Bool)
  /-- Cycle at which the port went DOWN, and of the newest send. -/
  down : Nat
  sentAt : Nat
  frozen : Bool
  viol : Fin 16
  /-- The saved context whose flits the port keeps in its own buffers, having no extension area (R402). -/
  kept : Option Byte
  deriving DecidableEq, Repr

/-- The package block of the physical function (R404). -/
structure HostRegs where
  apbase : Word
  errOffs : BitVec 32
  errBits : BitVec 4
  /-- The bits of HOSTERR that accesses of each virtual function have set (R395). -/
  errBy : Vector (BitVec 4) 16
  ctab : Word
  timectl : Word
  ljob : Vector (BitVec 16) 16
  /-- SR-IOV VF Enable (R392, R395). -/
  vfEnable : Bool
  /-- MSI-X messages pending: function and vector (R395). -/
  msix : List (Nat × Nat)
  /-- The MSI-X tables (R395): the entry of function f and vector v at 2f + v. -/
  msixTable : SMap (BitVec 128)
  /-- The last request completed as Unsupported Request (R392). -/
  unsupported : Bool
  /-- Exchanges in a row within ±10 ns (R403). -/
  lockRun : Nat
  /-- What the last host read returned. -/
  readData : BitVec 4096
  deriving DecidableEq, Repr

/-- Management registers and the service processor (R408 to R413). -/
structure Mgmt where
  stage : Fin 7
  err : Byte
  temps : Vector (BitVec 16) 4
  power : BitVec 16
  pcap : BitVec 16
  glim : Nat
  tlimit : BitVec 16
  nonce : BitVec 256
  /-- Nonce of the report being formed. -/
  nonceUsed : BitVec 256
  attReady : Bool
  attBusy : Bool
  /-- ATT_CTL.GO as last written. -/
  attGo : Bool
  report : List Byte
  /-- Cycle of the governor's newest sample (R413). -/
  sampledAt : Option Nat
  /-- Resets since manufacture (R411). -/
  resets : Nat
  /-- The PCI Express port is enabled (R408). -/
  pcie : Bool
  /-- RST_N is low; the rails are up; THERMTRIP_N is asserted (R406, R407, R414). -/
  rstLow : Bool
  powered : Bool
  tripped : Bool
  deriving DecidableEq, Repr

end Sys2Proof.Machine
end

