-- ==== Sys2Proof/Machine/State.lean ====
section
/-! DEFINITION. The whole state of the device, its reset value, and the reasons a step can stop. -/

namespace Sys2Proof.Machine

/-- Reasons to fault. No meaning raises one: every fault of the specification is a trap that a core takes
(R312, R313), a frozen master (R317), or a bit of a status register, and the machine goes on. Safe. -/
inductive Fault
  /-- Raised by nothing. -/
  | noPower
  deriving DecidableEq, Repr

/-- Reasons to refuse. -/
inductive Refusal
  /-- Raised by an arm of `exec` whose instruction has no meaning yet, with its mnemonic. Safe: nothing is
  claimed of the instruction. -/
  | notModelled (mnemonic : String)
  deriving DecidableEq, Repr

/-- The state of the device. -/
structure State where
  cores : Vector Core 256
  parts : Vector Part 16
  mem : Mem
  pkg : PkgRegs
  host : HostRegs
  ports : Vector Port 8
  mgmt : Mgmt
  /-- Messages that have left a core, or came in over a link, and their next number. -/
  net : List Msg
  /-- What the save areas hold beside the bytes the specification lays out (R334), by the physical address of the
  core slot. -/
  images : List (Nat × Core)
  /-- Requests of saved cores that wait at a port which takes nothing, by the address of the core's slot (R332, R339). -/
  parked : List (Nat × Msg)
  nextMsg : Nat
  nextLaunch : Nat
  /-- `ctl.cycle`; package time in ns, its sixths, and whether it runs (R17, R408). -/
  cycle : Nat
  ptime : Nat
  sixths : Nat
  timeRuns : Bool
  /-- For each place that applies requests one at a time, the cycle and the route identifier of the last one (R111). -/
  ties : SMap (Option (Nat × Nat))
  /-- The model's own: the core whose front end issues, the turns already settled, the count of turns taken
  from `Config.turn`, and the count of free values taken. -/
  cur : CoreId
  turns : List Turn
  steps : Nat
  free : Nat
  deriving DecidableEq, Repr

/-- Loop registers at reset (R168). -/
def Loops.zero : Loops := ⟨0, 0, 0, 0, 0, 0⟩

/-- A trap frame at reset (R309). -/
def Frame.zero : Frame := ⟨0, 0, 0, 0, .zero, 0, 0, [], 0⟩

/-- Registers at reset: the specification gives zero for the control registers; a core leaves its hold with
every front-end register zero (R409), and every lane is seeded as by SEED = 0 (R67). -/
def Regs.zero : Regs :=
  { s := .replicate 64 0, v := .replicate 32 0, p := .replicate 8 0, loops := .zero, fflags := 0, round := 0,
    seed := 0, lfsr := .ofFn fun i => laneSeed 0 i }

/-- A front end in its hold, at level M (R307, R408). -/
def Front.reset : Front :=
  { regs := .zero
    at_ := { pc := 0, pcHi := 0, vahi := 0, wait := .none, waitSince := 0, idle := false, nextAt := 0, po := 1,
             mark := 0, trapping := none, late := [] }
    tags := .replicate 8 none, win := [], busy := [], flagsAt := 0, level := .m, sFrame := .zero, mFrame := .zero,
    gbar := [] }

/-- Queues empty, generations 0 (R224), the drain's stochastic register at 0x0001 (R66). -/
def Queues.reset : Queues :=
  { k := [], o := [], d := [], fifo := .replicate 8 0, marks := .replicate 8 [], genD := 0, genL := 0, swapAt := none,
    lanes := .replicate 4 ⟨[], 0, 0, 0⟩, parts := [], rsr := 1, fillTraps := [], readyAt := .replicate 3 0 }

/-- A copy entry that holds no descriptor (R255). -/
def CopyEntry.reset : CopyEntry :=
  { desc := none, reading := none, readTrap := none, state := .idle, demand := false, srcOff := 0, dstOff := 0,
    level := .u, vahi := 0, word := 0, po := 0, pos := 0, flags := 0, rsr := 1, seq := 0, dslot := none,
    dcslot := none, sslot := none, cslot := none, acc := [], sacc := [], tilePoison := false, ends := [], zsSrc := 0, zsDst := 0, bar := none,
    opening := 0, trap := none }

/-- A CLOSED circuit (R258). -/
def Circuit.reset : Circuit :=
  { state := .closed, src := none, ksz := false, tslot := 0, remote := none, port := none, dring := 0, branches := [],
    cut := [], seq := 0, tile := 0, sent := 0, due := none, early := false, openings := 0, word := 0, level := .u, po := 0, trap := none }

/-- An IDLE walker with every word zero (R285). -/
def Walker.reset : Walker :=
  { nfelt := 0, cause := 0, bop := 0, reserr := false, end_ := 0, state := .idle, phase := 0, felt := 0,
    boff := 0, voff := 0, blk := 0, run := 0, racc := 0, scan := false, elem := 0, b0 := 0, b1 := 0,
    stack := [] }

/-- What the walker holds beside its words, before a walk. -/
def WalkerCtx.reset : WalkerCtx :=
  { hdr := [], level := .u, vahi := 0, word := 0, po := 0, asked := 0, placed := 0, entry := 0, runBad := false, popped := false,
    wait := .none, trap := none }

/-- No effect made. -/
def Produced.zero : Produced :=
  { store := 0, cred := 0, drain := 0, maq := 0, defs := .replicate 16 0, lanes := .replicate 4 0 }

/-- The part of a core that casts hold, at reset. -/
def Live.reset : Live :=
  { front := .reset, queues := .reset, rings := .replicate 16 none, copies := .replicate 16 .reset, served := 15,
    circuits := .replicate 64 .reset, walker := .reset, wctx := .reset, prod := .zero }

/-- A plane without groups and with every weight register zero (R221). -/
def Plane.reset : Plane := { groups := [], map := [], lanes := .replicate 4 none, regs := [] }

/-- Buffers and planes at reset. -/
def Store.reset : Store :=
  { wb := [], ab := [], cb := [], wbBad := [], abBad := [], cbBad := [], cbMarks := [],
    planes := .replicate 2 .reset, liveSel := 0, ops := .replicate 4 [], held := [], aging := [] }

/-- Streams with nothing under way. -/
def Flow.reset : Flow :=
  { hold := [], sent := [], storeQ := [], loads := [], changes := [], tlbi := none, dep := .zero,
    depCopy := .replicate 16 0, depCirc := .replicate 64 0, replay := [], gone := [], sats := [], cuts := [], drained := [], planeLog := [], depParts := [],
    leftAt := none, past := [], circLog := [] }

/-- Registers of a core at reset (R309, R375, R390). -/
def CoreRegs.reset : CoreRegs :=
  { asid := 0, freeze := ⟨false, false, false, 0⟩, faultBase := 0, faultHead := 0, poisonCont := false,
    sramCe := 0, feed := 4096, feedUsed := 0, feedNow := 4096 }

/-- A core held for the boot (R408). -/
def Core.reset : Core :=
  { live := .reset, store := .reset, flow := .reset, regs := .reset
    run := { inHold := true, halted := false, stop := .none, job := none, lastAsid := none, drops := [], rollEnd := 0, strikes := [] }
    tlb := [], misses := [], icache := [], casts := [] }

/-- A launch queue at reset (R326). -/
def LQueue.reset : LQueue :=
  { cfg := 0, ptr := 0, ctx := 0, entries := [], seen := none, since := none, starving := false, saved := none }

/-- A partition at reset (R326, R375, R389): budgets are unmetered, everything else is zero. -/
def Part.reset : Part :=
  { queues := .replicate 64 .reset, dstat := 0, switchAt := 0, switchCtl := 0,
    switch := ⟨false, false, [], [], [], false, []⟩, ctxBusy := 0, ctxErr := 0, running := [], grantAt := none, lastQ := .replicate 4 63,
    logs := { rlogBase := 0, rlogHead := 0, reports := 0, rollbacks := 0, pevent := 0, evaddr := 0, dlkBase := 0,
              glogBase := 0, glogHead := 0 },
    budgets := { regs := .replicate 4 0xFFFFFF, now := .replicate 4 0xFFFFFF,
                 used := .replicate 4 (.replicate 4 0) },
    moved := 0, reported := false }

/-- Package registers at reset: ACCEPT bit 0 always reads 1 (R325). -/
def PkgRegs.reset : PkgRegs :=
  { accept := 1, locked := false, ctxdir := 0, chipid := 0, mdbase := .replicate 8 0, mscCe := .replicate 4 0,
    hbmErr := .replicate 8 0, hbmScrub := .replicate 8 0, pmap := .replicate 16 0, pctl := 0,
    cal := .replicate 4 0, strictNow := false, calNow := .replicate 4 0, windowAt := none, rtab := .replicate 64 0,
    rtabx := .replicate 16 0 }

/-- A port at reset (R404). -/
def Port.reset : Port :=
  { ctl := 0, state := 0, seqerr := false, paused := [], resends := 0, mac := 0, peer := 0, asym := 0,
    rto := 20000, tx := 0, txOld := 0, rx := 0, keep := [], ahead := [], heldIn := [], wire := [], nak := none, down := 0,
    sentAt := 0, frozen := false, viol := 0, kept := none }

/-- The package block at reset (R404). -/
def HostRegs.reset : HostRegs :=
  { apbase := 0, errOffs := 0, errBits := 0, ctab := 0, timectl := 0, ljob := .replicate 16 0, vfEnable := false,
    errBy := .replicate 16 0, msix := [], msixTable := [], unsupported := false, lockRun := 0, readData := 0 }

/-- Management registers at reset: boot stage 1, no error, TLIMIT 95 °C, GLIM 4,096 (R412). -/
def Mgmt.reset : Mgmt :=
  { stage := 1, err := 0, temps := .replicate 4 0, power := 0, pcap := 0, glim := 4096, tlimit := 95 * 16,
    nonce := 0, nonceUsed := 0, attReady := false, attBusy := false, attGo := false, report := [], sampledAt := none, resets := 0,
    pcie := false, rstLow := false, powered := true, tripped := false }

/-- The device at the release of RST_N (R407, R408): every register at its reset value, the cores held, HBM
holding nothing that a program may rely on. -/
def State.reset : State :=
  { cores := .replicate 256 .reset, parts := .replicate 16 .reset
    mem := { hbm := [], bad := [], found := .replicate 8 0, blocks := [], farSeen := [], applied := [], copied := [], walkLast := .replicate 4 255
             walkPart := .replicate 4 (.replicate 16 255), walkCache := .replicate 4 [] }
    pkg := .reset, host := .reset, ports := .replicate 8 .reset, mgmt := .reset
    net := [], images := [], parked := [], nextMsg := 0, nextLaunch := 0
    cycle := 0, ptime := 0, sixths := 0, timeRuns := false
    ties := [], cur := 0, turns := [], steps := 0, free := 0 }

end Sys2Proof.Machine
end

