-- ==== Sys2Proof/Machine/Operands.lean ====
section
/-! DEFINITION. Operand forms: registers with their hard-wired members, reads through the issue window, lanes,
and immediates. -/

namespace Sys2Proof.Machine

/-- A scalar register: s0 reads zero (R19). -/
def Regs.getS (r : Regs) (n : SReg) : Word := if n = 0 then 0 else r.s[n]
/-- Writing a scalar register: a write to s0 is discarded (R19). -/
def Regs.setS (r : Regs) (n : SReg) (x : Word) : Regs := if n = 0 then r else { r with s := r.s.set n x }
/-- A vector register. -/
def Regs.getV (r : Regs) (n : VReg) : VecWord := r.v[n]
/-- Writing a vector register. -/
def Regs.setV (r : Regs) (n : VReg) (x : VecWord) : Regs := { r with v := r.v.set n x }
/-- A predicate register: p0 reads all ones (R19). -/
def Regs.getP (r : Regs) (n : PReg) : Word := if n = 0 then BitVec.allOnes 64 else r.p[n]
/-- Writing a predicate register: a write to p0 is discarded (R19). -/
def Regs.setP (r : Regs) (n : PReg) (x : Word) : Regs := if n = 0 then r else { r with p := r.p.set n x }

/-- A register of any class, in the low bits of a vector word. -/
def Regs.get (r : Regs) : Reg → VecWord
  | .s n => (r.getS n).setWidth 2048
  | .v n => r.getV n
  | .p n => (r.getP n).setWidth 2048
/-- Writing a register of any class. -/
def Regs.set (r : Regs) (g : Reg) (x : VecWord) : Regs :=
  match g with
  | .s n => r.setS n (x.setWidth 64)
  | .v n => r.setV n x
  | .p n => r.setP n (x.setWidth 64)
/-- The registers that discard writes (R19). -/
def Reg.wired : Reg → Bool
  | .s n => n == 0
  | .v _ => false
  | .p n => n == 0
/-- Replacing the bits of a mask. -/
def mergeBits (old new mask : VecWord) : VecWord := (old &&& ~~~mask) ||| (new &&& mask)

/-- A word of the window at distance k hides its writes from a source with producer distance pd (R130). -/
def WinWord.hides (w : WinWord) (k pd : Nat) : Bool :=
  match w.lat with
  | some l => decide (k < l) && decide (k ≠ pd)
  | none => false

/-- A register as a source sees it through the window (R130): from the newest word back, bits of `live` have
met no visible write yet, and hidden writes are undone there. -/
def viewFrom (g : Reg) (pd : Nat) : List WinWord → Nat → VecWord → VecWord → VecWord
  | [], _, _, x => x
  | w :: ws, k, live, x =>
    match w.writes.find? fun y => y.reg == g with
    | none => viewFrom g pd ws (k + 1) live x
    | some y =>
      if w.hides k pd then viewFrom g pd ws (k + 1) live (mergeBits x y.old (y.mask &&& live))
      else viewFrom g pd ws (k + 1) (live &&& ~~~y.mask) x

/-- A source of any class, read with a producer distance (R130). -/
def Front.view (f : Front) (g : Reg) (pd : Nat) : VecWord :=
  if g.wired then f.regs.get g else viewFrom g pd f.win 1 (BitVec.allOnes 2048) (f.regs.get g)
/-- A scalar source (R130). -/
def Front.srcS (f : Front) (n : SReg) (pd : Fin 4) : Word := (f.view (.s n) pd.val).setWidth 64
/-- A vector source (R130). -/
def Front.srcV (f : Front) (n : VReg) (pd : Fin 4) : VecWord := f.view (.v n) pd.val
/-- A predicate source (R130). -/
def Front.srcP (f : Front) (n : PReg) (pd : Fin 4) : Word := (f.view (.p n) pd.val).setWidth 64

/-- A producer distance's word has written its result by this cycle (R130). -/
def Front.pdReady (f : Front) (now : Nat) (pd : Fin 4) : Bool :=
  if pd = 0 then true
  else match f.win[pd.val - 1]? with
    | some w => match w.lat with
      | some l => decide (w.issued + l ≤ now)
      | none => true
    | none => true

/-- An earlier word's result for the register of a fixed-latency write is still pending, and holds that write back
(R172). -/
def Front.heldBack (f : Front) (p : Pend) : Bool :=
  p.dst.isSome && (List.finRange 8).any fun t => match f.tags[t] with
    | some q => !q.fixed && q.dst == p.dst && decide (q.po < p.po)
    | none => false
/-- A scoreboard tag is pending (R133). -/
def Front.tagPending (f : Front) (now : Nat) (t : TagId) : Bool :=
  match f.tags[t] with
  | none => false
  | some p => if p.fixed then decide (now < p.minAt) || f.heldBack p else true
/-- Tags named by a mask are all clear (R119). -/
def Front.tagsClear (f : Front) (now : Nat) (m : BitVec 8) : Bool :=
  (List.finRange 8).all fun t => !(m.getLsbD t.val && f.tagPending now t)
/-- No tag is pending. -/
def Front.allClear (f : Front) (now : Nat) : Bool := f.tagsClear now 0xFF
/-- A register is the destination of a pending tag (R132). -/
def Front.pendingDst (f : Front) (now : Nat) (g : Reg) : Bool :=
  (List.finRange 8).any fun t => match f.tags[t] with
    | some p => p.dst == some g && f.tagPending now t
    | none => false
/-- An interlocked read need not wait (R132). -/
def Front.settled (f : Front) (now : Nat) (g : Reg) : Bool :=
  g.wired || (!f.pendingDst now g && f.busy.all fun b => b.1 != g || decide (b.2 ≤ now))

/-- The header predicate with its inversion (R120). -/
def Front.predicate (f : Front) (h : Hdr) : Word :=
  let p := f.regs.getP h.pred
  if h.pneg then ~~~p else p

/-- Lane i of a vector word (R19). -/
def lane (x : VecWord) (i : Nat) : Lane := x.extractLsb' (32 * i) 32
/-- A vector word from its lanes. -/
def ofLanes (f : Nat → Lane) : VecWord :=
  BitVec.ofNat 2048 ((List.range 64).foldr (fun i n => (f i).toNat + 2 ^ 32 * n) 0)
/-- The bits of the lanes of a lane mask. -/
def laneMask (m : Word) : VecWord := ofLanes fun i => if m.getLsbD i then BitVec.allOnes 32 else 0
/-- The active lanes of a mask, ascending. -/
def activeLanes (m : Word) : List Nat := (List.range 64).filter fun i => m.getLsbD i

/-- The address of the word n words further on, within bits [63:0] (R158). -/
def wordTarget (pc : Word) (off : BitVec 32) : Word := pc + 10 * off.signExtend 64

end Sys2Proof.Machine
end

