-- ==== Sys2Proof/Machine/Flags.lean ====
section
/-! DEFINITION. Flags and rounding of the front end: the sticky flags of R68, the rounding mode of R65, and the
stochastic registers of R66. -/

namespace Sys2Proof.Machine

/-- ORing flags into ctl.fflags (R68). -/
def Regs.orFlags (r : Regs) (fl : FFlags) : Regs := { r with fflags := r.fflags ||| fl.setWidth 64 }

/-- The rounding mode of a word (R65); `.dyn` takes the mode of ctl.round (R67), where 3 is never stored. -/
def roundMode (rm : Rnd) (round : Word) : RMode :=
  match rm with
  | .rne => .rne
  | .rtz => .rtz
  | .rsr => .rsr
  | .dyn => if round.extractLsb' 0 2 = 1 then .rtz else if round.extractLsb' 0 2 = 2 then .rsr else .rne

/-- A stochastic register stepped n times. -/
def lfsrN : Nat → BitVec 16 → BitVec 16
  | 0, x => x
  | n + 1, x => lfsrN n (lfsrStep x)

/-- The draw of the k-th element, from 1, of a lane under a mode (R66): the register stepped k times. -/
def draw (rm : RMode) (f : Front) (i k : Nat) : Nat :=
  match rm with
  | .rsr => (lfsrN k (f.regs.lfsr[i]?.getD 0)).toNat
  | _ => 0

/-- The lane registers after each lane of a mask has produced n elements under a mode (R66). -/
def stepLanes (rm : RMode) (m : Word) (n : Nat) (v : Vector (BitVec 16) 64) : Vector (BitVec 16) 64 :=
  match rm with
  | .rsr => .ofFn fun i => if m.getLsbD i.val then lfsrN n v[i] else v[i]
  | _ => v

/-- What a write of ctl.seed stores: SEED, and every lane seeded (R67). -/
def Regs.seedWith (r : Regs) (x : Word) : Regs :=
  { r with seed := x &&& 0xFFFF, lfsr := .ofFn fun i => laneSeed (x.setWidth 16) i.val }

/-- What a write of ctl.round stores (R67): 3 stores 0. -/
def roundStored (x : Word) : Word := let m := x &&& 3; if m = 3 then 0 else m

end Sys2Proof.Machine
end

