-- ==== Sys2Proof/Machine/Access.lean ====
section
/-! DEFINITION. Access to the state: cores and partitions, HBM with its poison marks and compressed blocks, the
buffers, and address translation. -/

namespace Sys2Proof.Machine

/-- A core. -/
def State.core (s : State) (c : CoreId) : Core := s.cores[c]
/-- A state with one core replaced. -/
def State.setCore (s : State) (c : CoreId) (x : Core) : State := { s with cores := s.cores.set c x }
/-- A state with one core changed. -/
def State.modCore (s : State) (c : CoreId) (f : Core → Core) : State := s.setCore c (f (s.core c))
/-- The front end of a core. -/
def State.front (s : State) (c : CoreId) : Front := (s.core c).live.front
/-- A core with its front end replaced. -/
def Core.setFront (k : Core) (f : Front) : Core := { k with live := { k.live with front := f } }
/-- A state with one front end changed. -/
def State.modFront (s : State) (c : CoreId) (f : Front → Front) : State :=
  s.modCore c fun k => k.setFront (f k.live.front)
/-- A front end with its registers changed. -/
def Front.modRegs (f : Front) (g : Regs → Regs) : Front := { f with regs := g f.regs }
/-- A front end with its position changed. -/
def Front.modAt (f : Front) (g : Pos → Pos) : Front := { f with at_ := g f.at_ }
/-- A partition. -/
def State.part (s : State) (p : PartId) : Part := s.parts[p]
/-- A state with one partition changed. -/
def State.modPart (s : State) (p : PartId) (f : Part → Part) : State :=
  { s with parts := s.parts.set p (f (s.part p)) }
/-- A state with one running launch of a partition changed. -/
def State.modLaunch (s : State) (p : PartId) (n : Nat) (f : Launch → Launch) : State :=
  s.modPart p fun x => { x with running := x.running.map fun (l : Launch) => if l.id == n then f l else l }
/-- A state with one port changed. -/
def State.modPort (s : State) (q : PortId) (f : Port → Port) : State :=
  { s with ports := s.ports.set q (f s.ports[q]) }

/-- A nibble of a row of words, 16 to a word (R389). -/
def nibble (v : Vector Word 16) (c : Nat) : Fin 16 :=
  Fin.ofNat 16 ((v[c / 16]?.getD 0).toNat / 2 ^ (4 * (c % 16)))
/-- The partition PMAP gives a core (R376). -/
def State.pmapOf (s : State) (c : CoreId) : PartId := nibble s.pkg.pmap c.val
/-- Bit p of PCTL.EN. -/
def State.enabled (s : State) (p : PartId) : Bool := s.pkg.pctl.getLsbD p.val
/-- The partition a core belongs to (R376). -/
def State.partOf (s : State) (c : CoreId) : Option PartId :=
  if s.enabled (s.pmapOf c) then some (s.pmapOf c) else none
/-- The cores of a partition in ascending identifier. -/
def State.coresOf (s : State) (p : PartId) : List CoreId :=
  (List.finRange 256).filter fun c => s.partOf c == some p

/-- A free word, and the state that has taken it. -/
def State.takeWord (s : State) : Word × State := (Config.freeWord s.free, { s with free := s.free + 1 })
/-- Free words, and the state that has taken them. -/
def State.takeWords (s : State) : Nat → List Word × State
  | 0 => ([], s)
  | n + 1 =>
    let w := s.takeWord
    let r := w.2.takeWords n
    (w.1 :: r.1, r.2)
/-- A free number, and the state that has taken it. -/
def State.takeNat (s : State) : Nat × State := (Config.freeNat s.free, { s with free := s.free + 1 })

/-- Traffic of a partition has moved (R46). -/
def State.touch (s : State) (p : PartId) : State := s.modPart p fun x => { x with moved := s.cycle, reported := false }

/-- Bytes of a little-endian number (R5). -/
def toBytes : Nat → Nat → List Byte
  | 0, _ => []
  | n + 1, v => BitVec.ofNat 8 v :: toBytes n (v / 256)
/-- A little-endian number from bytes (R5). -/
def ofBytes : List Byte → Nat
  | [] => 0
  | b :: bs => b.toNat + 256 * ofBytes bs
/-- The residue of bytes: their sum modulo 255 (R87, R364). -/
def residue (bs : List Byte) : Nat := bs.foldl (fun n b => n + b.toNat) 0 % 255

/-- n bytes of memory from an address. -/
def Memory.bytes (m : Memory) (a n : Nat) : List Byte := (List.range n).map fun i => m.readByte (a + i)
/-- Bytes written from an address. -/
def Memory.put (m : Memory) (a : Nat) : List Byte → Memory
  | [] => m
  | b :: bs => Memory.put (m.writeByte a b) (a + 1) bs

/-- Units of 64 bytes that n bytes from an address touch. -/
def unitsOf (a n : Nat) : List Nat := if n = 0 then [] else List.range' (a / 64) ((a + n - 1) / 64 + 1 - a / 64)
/-- Poison marks after a write (R366): marked data marks every unit it touches, correct data clears the units
it covers whole. -/
def markWrite (bad : List Nat) (a n : Nat) (poison : Bool) : List Nat :=
  if poison then (unitsOf a n).foldl (fun l u => if l.contains u then l else u :: l) bad
  else bad.filter fun u => !(decide (a ≤ 64 * u) && decide (64 * u + 64 ≤ a + n))

/-- Local HBM (R342). -/
def localHbm (a : Nat) : Bool := decide (a < 2 ^ 39)
/-- Remote HBM (R342): its chip number. -/
def remoteChip (a : Nat) : Option Nat := if a / 2 ^ 55 = 1 then some (a / 2 ^ 39 % 2 ^ 16) else none
/-- Home die of a local address (R29). -/
def homeDie (a : Nat) : DieId := Fin.ofNat 4 (a / 2 ^ 37)
/-- Stack of a local address (R29). -/
def stackOf (a : Nat) : StackId := Fin.ofNat 8 (2 * (a / 2 ^ 37 % 4) + a / 2 ^ 12 % 2)
/-- Where a physical address is performed. -/
def homeOf (a : Nat) : Home :=
  match remoteChip a with
  | some n => .chip n
  | none => .die (homeDie a)

/-- Address of the metadata entry of the block that holds a local address (R346). -/
def metaAddr (mdbase : Vector Word 8) (a : Nat) : Nat := mdbase[stackOf a].toNat + 2 * (a / 2 ^ 13 % 2 ^ 24)

/-- The chunks of a compressed form expanded (R94): n chunks from the stored bytes. -/
def expandChunks : Nat → List Byte → List Byte
  | 0, _ => []
  | n + 1, bs =>
    let bm := ofBytes (bs.take 8)
    let step := (List.range 64).foldl (fun (st : List Byte × List Byte) i =>
      if bm / 2 ^ i % 2 = 1 then (st.1 ++ [st.2.headD 0], st.2.drop 1) else (st.1 ++ [0], st.2)) ([], bs.drop 8)
    step.1 ++ expandChunks n step.2
/-- The chunks of a block compressed (R94). -/
def compressChunks : Nat → List Byte → List Byte
  | 0, _ => []
  | n + 1, bs =>
    let c := bs.take 64
    let bm := (List.range 64).foldl (fun k i => if c.getD i 0 = 0 then k else k + 2 ^ i) 0
    toBytes 8 bm ++ c.filter (· ≠ 0) ++ compressChunks n (bs.drop 64)

/-- A compressed block read from HBM and expanded (R93, R94), with its poison marks: 4,096 bytes, whatever its entry
says. -/
def Mem.expand (m : Mem) (mdbase : Vector Word 8) (b : Nat) : CBlock :=
  let e := m.hbm.read (metaAddr mdbase (b * 4096)) 2
  let len := e % 128
  let raw := e / 128 % 2 = 1
  let okForm := if raw then len = 64 else 1 ≤ len ∧ len ≤ 63
  let bytes := if raw then m.hbm.bytes (b * 4096) 4096 else expandChunks 64 (m.hbm.bytes (b * 4096) (64 * len))
  let good := decide okForm && residue bytes == e / 256 && (unitsOf (b * 4096) (64 * len)).all fun u => !m.bad.contains u
  { bytes := bytes, dirty := [], bad := if good then [] else List.range 64, owner := 0 }

/-- The block in expanded form: as the cache holds it, or as HBM gives it. -/
def Mem.block (m : Mem) (mdbase : Vector Word 8) (b : Nat) : CBlock :=
  match SMap.get none m.blocks b with
  | some x => x
  | none => m.expand mdbase b

/-- What a write-back of a block stores (R95): its dirty lines over the block as HBM gives it. -/
def Mem.merged (m : Mem) (mdbase : Vector Word 8) (b : Nat) (k : CBlock) : CBlock :=
  if 32 ≤ k.dirty.length then k
  else
    let h := m.expand mdbase b
    { bytes := (List.range 32).flatMap fun l => ((if k.dirty.contains l then k.bytes else h.bytes).drop (128 * l)).take 128
      dirty := k.dirty
      owner := k.owner
      bad := (List.range 64).filter fun u => (if k.dirty.contains (u / 2) then k.bad else h.bad).contains u }
/-- A block leaves the cache (R94, R95): a clean one is dropped; a dirty one is merged, compressed and written back with
its metadata. -/
def Mem.writeback (m : Mem) (mdbase : Vector Word 8) (b : Nat) : Mem :=
  match SMap.get none m.blocks b with
  | none => m
  | some k =>
    if k.dirty.isEmpty then { m with blocks := SMap.erase m.blocks b }
    else
      let x := m.merged mdbase b k
      let packed := compressChunks 64 x.bytes
      let raw := decide (4032 < packed.length)
      let len := if raw then 64 else (packed.length + 63) / 64
      let stored := if raw then x.bytes else packed ++ List.replicate (64 * len - packed.length) 0
      let entry := residue x.bytes * 256 + (if raw then 128 else 0) + len
      { m with
        hbm := (m.hbm.put (b * 4096) stored).put (metaAddr mdbase (b * 4096)) (toBytes 2 entry)
        bad := markWrite m.bad (b * 4096) stored.length !x.bad.isEmpty
        blocks := SMap.erase m.blocks b }
/-- The blocks that the slice of a die holds. -/
def Mem.slice (m : Mem) (d : DieId) : List Nat := (m.blocks.filter fun e => e.2.isSome && homeDie (e.1 * 4096) == d).map (·.1)
/-- A slice has room for one more block (R14). -/
def Mem.sliceRoom (m : Mem) (d : DieId) : Bool := decide ((m.slice d).length < Config.sliceBlocks)
/-- Who allocates in a slice, and how many blocks its ways hold where a limit is in force (R385). -/
structure WayUse where
  owner : PartId
  limit : Option Nat
  deriving DecidableEq, Repr
/-- The block that leaves a slice to make room for another one: some block of the same ways where these are full, else some
block of a full slice. -/
def Mem.victim (m : Mem) (w : WayUse) (b : Nat) : Option Nat :=
  let d := homeDie (b * 4096)
  let ours := (m.slice d).filter fun x => (SMap.get none m.blocks x).any fun k => k.owner == w.owner
  let full := w.limit.any fun n => decide (n ≤ ours.length)
  let mine := if full then ours else m.slice d
  if (SMap.get none m.blocks b).isSome || (!full && m.sliceRoom d) then none
  else mine[Config.cacheVictim b % mine.length]?
/-- Room for a block in its slice. -/
def Mem.makeRoom (m : Mem) (mdbase : Vector Word 8) (w : WayUse) (b : Nat) : Mem :=
  match m.victim w b with
  | some v => m.writeback mdbase v
  | none => m
/-- Expanded copies of the blocks that a write of stored bytes touches are dropped where they are clean (R346). -/
def Mem.dropClean (m : Mem) (a n : Nat) : Mem :=
  { m with blocks := m.blocks.filter fun e => decide (e.1 < a / 4096) || decide ((a + n - 1) / 4096 < e.1) || (match e.2 with
      | some k => !k.dirty.isEmpty
      | none => true) }

/-- n bytes at a home, and whether any is poisoned. A compressed page is read in expanded form (R346). -/
def Mem.read (m : Mem) (mdbase : Vector Word 8) (a n : Nat) (cmp : Bool) : List Byte × Bool :=
  if cmp then
    let k := m.block mdbase (a / 4096)
    ((k.bytes.drop (a % 4096)).take n, (unitsOf (a % 4096) n).any k.bad.contains)
  else (m.hbm.bytes a n, (unitsOf a n).any m.bad.contains)

/-- Bytes written at a home (R95, R346, R366). A block that the ways of its writer do not hold is written back at once
(R385). -/
def Mem.write (m : Mem) (mdbase : Vector Word 8) (a : Nat) (bs : List Byte) (cmp poison : Bool) (w : WayUse := ⟨0, none⟩) : Mem :=
  if cmp then
    let m := m.makeRoom mdbase w (a / 4096)
    let k := m.block mdbase (a / 4096)
    let o := a % 4096
    let lines := (List.range' (o / 128) ((o + bs.length - 1) / 128 + 1 - o / 128)).filter fun l => !k.dirty.contains l
    let x : CBlock :=
      { bytes := k.bytes.take o ++ bs ++ k.bytes.drop (o + bs.length)
        dirty := k.dirty ++ lines
        bad := markWrite k.bad o bs.length poison
        owner := if k.dirty.isEmpty then w.owner else k.owner }
    let m := { m with blocks := SMap.insert m.blocks (a / 4096) (some x) }
    if w.limit = some 0 then m.writeback mdbase (a / 4096) else m
  else { m.dropClean a bs.length with hbm := m.hbm.put a bs, bad := markWrite m.bad a bs.length poison }

/-- n bytes at a home, as a number, with poison. -/
def State.peek (s : State) (a n : Nat) (cmp : Bool := false) : Nat × Bool :=
  let r := s.mem.read s.pkg.mdbase a n cmp
  (ofBytes r.1, r.2)
/-- Blocks that the ways of a partition hold in each slice, under STRICT (R385): each of 16 ways holds a sixteenth. -/
def State.wayUse (s : State) (p : PartId) : WayUse :=
  let ways := s.pkg.rtabx[p].toNat / 2 ^ 12
  ⟨p, if s.pkg.strictNow then some ((List.range 16).countP ways.testBit * (Config.sliceBlocks / 16)) else none⟩
/-- Use of a meter on a die counted for a partition (R383): 0 HBM, 1 spine, 2 link, 3 pool. -/
def State.charge (s : State) (p : PartId) (d : DieId) (m : Fin 4) (n : Nat) : State :=
  s.modPart p fun x => { x with budgets := { x.budgets with
    used := x.budgets.used.set d (x.budgets.used[d].set m (x.budgets.used[d][m] + n)) } }
/-- Units of 64 bytes that the write-back of a block stores, and its owner (R383, R394); none where it is clean. -/
def Mem.storedUnits (m : Mem) (mdbase : Vector Word 8) (b : Nat) : Option (PartId × Nat) :=
  match SMap.get none m.blocks b with
  | none => none
  | some k =>
    if k.dirty.isEmpty then none
    else
      let n := (compressChunks 64 (m.merged mdbase b k).bytes).length
      some (k.owner, if 4032 < n then 64 else (n + 63) / 64)
/-- A write of a partition at a home. What it drives out of the cache is charged to the partition whose ways held it
(R383). -/
def State.poke (s : State) (a : Nat) (bs : List Byte) (cmp poison : Bool := false) (own : PartId := 0) : State :=
  let out := if cmp then (s.mem.victim (s.wayUse own) (a / 4096)).bind fun v => s.mem.storedUnits s.pkg.mdbase v else none
  let s := { s with mem := s.mem.write s.pkg.mdbase a bs cmp poison (s.wayUse own) }
  match out with
  | some (p, n) => s.charge p (homeDie a) 0 n
  | none => s
/-- The units of n bytes that a list of addresses covers whole. -/
def covered (n : Nat) (as : List Nat) : List Nat := ((as.map (· / n)).dedup).filter fun u => (List.range n).all fun i => as.contains (n * u + i)
/-- A write of correct data, all of whose units have been performed, clears the marks of the 64-byte units that it covers
whole (R366). -/
def State.clearMarks (s : State) (cells : List Nat) (cmp : Bool) : State :=
  let us := covered 64 cells
  if us.isEmpty then s
  else if cmp then
    let drop := fun (b : Nat) (k : CBlock) => { k with bad := k.bad.filter fun u => !us.contains (64 * b + u) }
    { s with mem := { s.mem with blocks := s.mem.blocks.map fun e => (e.1, e.2.map (drop e.1)) } }
  else { s with mem := { s.mem with bad := s.mem.bad.filter fun u => !us.contains u } }
/-- A word written at a home by the device. -/
def State.pokeWord (s : State) (a : Nat) (x : Word) : State := s.poke a (toBytes 8 x.toNat)

/-- Size of a buffer in bytes (R79). -/
def bufSize : Buf → Nat
  | .wb => 2 ^ 22
  | .ab => 3 * 2 ^ 20
  | .cb => 2 ^ 20
/-- The bytes of a buffer. -/
def Store.buf (t : Store) : Buf → Memory
  | .wb => t.wb
  | .ab => t.ab
  | .cb => t.cb
/-- A store with the bytes of a buffer replaced. -/
def Store.setBuf (t : Store) (b : Buf) (m : Memory) : Store :=
  match b with
  | .wb => { t with wb := m }
  | .ab => { t with ab := m }
  | .cb => { t with cb := m }
/-- Poisoned bank words of a buffer (R366). -/
def Store.badOf (t : Store) : Buf → List Nat
  | .wb => t.wbBad
  | .ab => t.abBad
  | .cb => t.cbBad
/-- A store with the poisoned bank words of a buffer replaced. -/
def Store.setBad (t : Store) (b : Buf) (l : List Nat) : Store :=
  match b with
  | .wb => { t with wbBad := l }
  | .ab => { t with abBad := l }
  | .cb => { t with cbBad := l }
/-- Entries of the Accumulator Buffer that a span of it touches. -/
def entriesOf (a n : Nat) : List Nat := if n = 0 then [] else List.range' (a / 4) ((a + n - 1) / 4 + 1 - a / 4)
/-- A span of a buffer holds poisoned data: a marked bank word, or a marked entry (R366). -/
def Store.badAt (t : Store) (b : Buf) (a n : Nat) : Bool :=
  (unitsOf a n).any (t.badOf b).contains || (b == .cb && (entriesOf a n).any t.cbMarks.contains)
/-- Bytes performed in a buffer, with their poison (R366). A write that covers a marked entry clears it. -/
def Store.perform (t : Store) (b : Buf) (a : Nat) (bs : List Byte) (poison : Bool) : Store :=
  let t := (t.setBuf b ((t.buf b).put a bs)).setBad b (markWrite (t.badOf b) a bs.length poison)
  if b = .cb then { t with cbMarks := t.cbMarks.filter fun e => poison || !(decide (a ≤ 4 * e) && decide (4 * e + 4 ≤ a + bs.length)) }
  else t
/-- Bytes performed together in a buffer (R83), with their poison: the marks that they cover whole go (R366). -/
def Store.performCells (t : Store) (b : Buf) (cells : List (Nat × Byte)) (poison : Bool) : Store :=
  let t := t.setBuf b (cells.foldl (fun m x => m.writeByte x.1 x.2) (t.buf b))
  let as := cells.map (·.1)
  let bad := if poison then as.foldl (fun l a => markWrite l a 1 true) (t.badOf b)
    else (t.badOf b).filter fun u => !(covered 64 as).contains u
  let t := t.setBad b bad
  if b = .cb ∧ !poison then { t with cbMarks := t.cbMarks.filter fun e => !(covered 4 as).contains e } else t
/-- The buffer of a space. -/
def spaceBuf : Space → Option Buf
  | .g => none
  | .wb => some .wb
  | .ab => some .ab
  | .cb => some .cb

/-- Bytes of a launch's reservation in a buffer (R37); none when the core runs no launch. -/
def Core.reserved (k : Core) (b : Buf) : Nat :=
  match k.run.job with
  | none => 0
  | some j => 1024 * (match b with | .wb => j.wbKib | .ab => j.abKib | .cb => j.cbKib)
/-- The bound of a buffer offset at a level (R80). -/
def Core.bufLimit (k : Core) (l : Level) (b : Buf) : Nat := if l = .u then k.reserved b else bufSize b

/-- The answer of a translation: a physical address with the compression attribute, a miss that must be
walked, or a trap. -/
inductive Xlate | ok (pa : Nat) (cmp : Bool) | miss | trap (c : Cause)
  deriving DecidableEq, Repr

/-- Index of an address at a level 1 to 4 (R341), the address being 72 bits. -/
def vaIndex (level va : Nat) : Nat := va / 2 ^ (72 - 14 * level) % 2 ^ 14

/-- A leaf from a table entry (R343). -/
def leafOf (e : Nat) (blk : Bool) : Leaf :=
  let bit := fun i => e / 2 ^ i % 2 == 1
  { pa := e / 2 ^ 16 % 2 ^ 40 * 2 ^ 16, blk := blk, r := bit 2, w := bit 3, x := bit 4, xw := bit 5, u := bit 6,
    g := bit 7, cmp := bit 8, shd := bit 9 }

/-- A leaf's physical address lies in a listed region, local where it is compressed (R344). -/
def State.leafOk (s : State) (l : Leaf) : Bool :=
  match remoteChip l.pa with
  | some n => n != s.pkg.chipid.toNat && !l.cmp
  | none => localHbm l.pa

/-- What a walk does with a table entry at a level (R344): a leaf, the next table, or TRANSL. -/
def State.walkStep (s : State) (level e : Nat) : Option (Leaf ⊕ Nat) :=
  let res := decide (e / 2 ^ 56 = 0) && decide (e / 2 ^ 10 % 64 = 0)
  let checked := fun (l : Leaf) => if s.leafOk l then some (Sum.inl l) else none
  if e % 2 = 0 || !res then none
  else if level = 4 then (if e / 2 % 2 = 1 then none else checked (leafOf e false))
  else if level = 3 && e / 2 % 2 == 1 then (if e / 2 ^ 16 % 2 ^ 14 = 0 then checked (leafOf e true) else none)
  else
    let pa := e / 2 ^ 16 % 2 ^ 40 * 2 ^ 16
    if e / 2 % 2 = 1 || e / 4 % 2 ^ 8 != 0 || e / 2 ^ 16 % 2 != 0 || !localHbm pa then none else some (.inr pa)
/-- The walk of R344 from a table at level `level`, with fuel for the levels left. -/
def State.walkFrom (s : State) (va : Nat) : Nat → Nat → Nat → Option Leaf
  | 0, _, _ => none
  | fuel + 1, level, t =>
    match s.walkStep level (s.mem.hbm.read (t + 8 * vaIndex level va) 8) with
    | none => none
    | some (.inl l) => some l
    | some (.inr pa) => s.walkFrom va fuel (level + 1) pa

/-- An entry of the context directory (R323), word i. -/
def State.ctxWord (s : State) (a : Byte) (i : Nat) : Nat := s.mem.hbm.read (s.pkg.ctxdir.toNat + 64 * a.toNat + 8 * i) 8
/-- STATE and PART of a context, where its ASID matches its index (R323). -/
def State.ctxMarked (s : State) (a : Byte) : Option PartId :=
  let w := s.ctxWord a 0
  if w % 256 = a.toNat && w / 256 % 4 == 2 then some (Fin.ofNat 16 (w / 4096)) else none
/-- Rank of a core among those of its partition (R333). -/
def State.rankOf (s : State) (c : CoreId) : Nat := ((List.finRange 256).filter fun d => s.pmapOf d == s.pmapOf c && decide (d < c)).length
/-- Base of a context's save area (R323). -/
def State.saveBase (s : State) (a : Byte) : Nat := s.ctxWord a 2 % 2 ^ 56
/-- The slot of a core in a context's save area (R333). -/
def State.slotAddr (s : State) (a : Byte) (c : CoreId) : Nat := s.saveBase a + 0x10000 + s.rankOf c * 0x8F0000
/-- A context is RESIDENT in a partition: marked so, and among the 16 lowest ASIDs so marked (R323). -/
def State.resident (s : State) (a : Byte) (p : PartId) : Bool :=
  s.ctxMarked a == some p &&
    decide (((List.range a.toNat).filter fun b => (s.ctxMarked (BitVec.ofNat 8 b)).isSome).length < 16)
/-- PART of a context's directory entry (R323). -/
def State.ctxPart (s : State) (a : Byte) : PartId := Fin.ofNat 16 (s.ctxWord a 0 / 4096)
/-- A context is RESIDENT in the partition that its entry names: it may own walks (R323). -/
def State.mayWalk (s : State) (a : Byte) : Bool :=
  match s.ctxMarked a with
  | some p => s.resident a p
  | none => false
/-- A full walk (R344). -/
def State.walk (s : State) (a : Byte) (va : Nat) : Option Leaf :=
  if !s.mayWalk a then none else s.walkFrom va 4 1 (s.ctxWord a 1 / 2 ^ 16 % 2 ^ 40 * 2 ^ 16)

/-- A TLB entry serves an address in a context (R347). -/
def TlbEntry.serves (e : TlbEntry) (asid : Byte) (va : Nat) : Bool :=
  (e.leaf.g || e.asid == asid) && e.page == va / 2 ^ (if e.leaf.blk then 30 else 16)
/-- The leaf a core's TLB gives. -/
def Core.lookup (k : Core) (asid : Byte) (va : Nat) : Option Leaf :=
  (k.tlb.find? fun e => e.serves asid va).map (·.leaf)

/-- A leaf permits an access at a level (R345). -/
def Leaf.permits (l : Leaf) (acc : Access) (lv : Level) : Bool :=
  match acc with
  | .load => l.r && (lv != .u || l.u)
  | .store => l.w && (lv != .u || l.u)
  | .rmw => l.r && l.w && (lv != .u || l.u)
  | .fetch => l.x && (if lv = .u then l.u else !l.u)
  | .felt => l.xw && (lv != .u || l.u)

/-- A physical address at level M (R307, R342). -/
def State.physical (s : State) (a : Nat) : Xlate :=
  match remoteChip a with
  | some n => if a < 2 ^ 56 && n != s.pkg.chipid.toNat then .ok a false else .trap .transl
  | none => if localHbm a then .ok a false else .trap .transl

/-- The running launch of a core. -/
def State.launchOf (s : State) (c : CoreId) : Option Launch :=
  match (s.core c).run.job with
  | none => none
  | some j => (s.part j.part).running.find? fun l => l.id == j.launch
/-- The core runs a paired launch: its side, true for side B (R370). -/
def State.pairedSide (s : State) (c : CoreId) : Option Bool :=
  match s.launchOf c, (s.core c).run.job with
  | some l, some j => if l.lrec.paired then some j.sideB else none
  | _, _ => none

/-- The permitted address of a leaf: shadow pages of a paired launch, and what such a launch may not reach
(R371, R374). -/
def State.leafAddr (s : State) (c : CoreId) (l : Leaf) (acc : Access) (va : Nat) : Xlate :=
  let pa := if l.blk then l.pa + va % 2 ^ 30 else l.pa + va % 2 ^ 16
  match s.pairedSide c with
  | none => .ok pa l.cmp
  | some b =>
    if (remoteChip l.pa).isSome then .trap .perm
    else if l.shd then
      if l.blk || l.pa / 2 ^ 16 % 4 != 0 then .trap .transl
      else .ok (pa + (if b then 0x20000 else 0x10000)) l.cmp
    else if acc == .store || acc == .rmw then .trap .perm
    else .ok pa l.cmp

/-- Translation of a 72-bit address for a party of a core (R341 to R349); bits [71:56] of a physical one are zero
(R307). -/
def State.translate (s : State) (c : CoreId) (lv : Level) (hi : Byte) (va : Word) (acc : Access) : Xlate :=
  if lv = .m then (if hi = 0 then s.physical va.toNat else .trap .transl)
  else
    let full := hi.toNat * 2 ^ 64 + va.toNat
    let k := s.core c
    match k.lookup k.regs.asid full with
    | some l =>
      if l.permits acc lv then s.leafAddr c l acc full
      else .trap (if acc = .felt then .weightExec else .perm)
    | none =>
      if k.misses.any fun m => m.failed && m.asid == k.regs.asid && m.va / 2 ^ 16 == full / 2 ^ 16 then .trap .transl
      else .miss

/-- The page's translation is gone after a PERM or WEIGHT_EXEC, and a failed walk is forgotten once its trap
has been raised (R347). -/
def Core.dropLeaf (k : Core) (hi : Byte) (va : Word) : Core :=
  let full := hi.toNat * 2 ^ 64 + va.toNat
  { k with tlb := k.tlb.filter fun e => !e.serves k.regs.asid full
           misses := k.misses.filter fun m => !(m.failed && m.va / 2 ^ 16 == full / 2 ^ 16) }

/-- A core as one of its accesses sees it: a walk that failed for another one says nothing to it (R347). -/
def State.asParty (s : State) (c : CoreId) (party : Nat) : State :=
  s.modCore c fun k => { k with misses := k.misses.filter fun m => !m.failed || m.party == party }
/-- A miss asked for (R348): one walk for one page or block, at most 64 outstanding. -/
def Core.askWalk (k : Core) (now : Nat) (hi : Byte) (va : Word) (party : Nat) (blk : Bool) : Core :=
  let full := hi.toNat * 2 ^ 64 + va.toNat
  let size := 2 ^ (if blk then 30 else 16)
  if k.misses.any (fun m => m.asid == k.regs.asid && m.va / size == full / size && (!m.failed || m.party == party)) ||
    64 ≤ k.misses.countP (fun m => !m.failed) then k
  else { k with misses := k.misses ++ [{ asid := k.regs.asid, va := full, walking := false, since := now,
                                         failed := false, cancelled := false, party := party }] }
/-- A miss of an access of a core asked for; a 1 GiB block is one leaf (R343). -/
def State.askWalk (s : State) (c : CoreId) (hi : Byte) (va : Word) (party : Nat) : State :=
  let blk := (s.walk (s.core c).regs.asid (hi.toNat * 2 ^ 64 + va.toNat)).any (·.blk)
  s.modCore c fun k => k.askWalk s.cycle hi va party blk

end Sys2Proof.Machine
end

