-- ==== Sys2Proof/Machine/Ops.lean ====
section
/-! DEFINITION. The shared operations: issue and retirement of a word, the outbound streams, partition events
and logs, freezing, taking a trap and returning from one, and the slots of rings. -/

namespace Sys2Proof.Machine

/-- The outcome of a meaning. -/
abbrev Outcome := Host.Outcome State Fault Refusal

/-- n cycles pass: the core clock, and package time at 1.2 GHz (R17, R30), which is a 64-bit count (R6). -/
def State.pass (s : State) (n : Nat) : State :=
  let t := s.sixths + 5 * n
  { s with cycle := s.cycle + n
           ptime := if s.timeRuns then (s.ptime + t / 6) % 2 ^ 64 else s.ptime
           sixths := if s.timeRuns then t % 6 else s.sixths }

/-- Of requests that reach one place in one cycle, the one of the lower route identifier is applied first (R111): none is
applied after one of a higher one. -/
def State.tieFree (s : State) (key route : Nat) : Bool :=
  match SMap.get none s.ties key with
  | some (c, r) => c != s.cycle || decide (r ≤ route)
  | none => true
/-- A place has applied a request of a route. -/
def State.tie (s : State) (key route : Nat) : State := { s with ties := SMap.set none s.ties key (some (s.cycle, route)) }
/-- The places that apply requests one at a time, beside the combiner of each die: the masters of a core (R318), a link
endpoint, a core's context (R335), and a launch queue (R327). -/
def tieCore (c : CoreId) : Nat := 0x100 + c.val
def tiePort (q : PortId) : Nat := 0x200 + q.val
def tieContext (c : CoreId) : Nat := 0x300 + c.val
def tieQueue (p : PartId) (q : QueueNo) : Nat := 0x400 + 64 * p.val + q.val

-- codes

def Level.code : Level → Nat
  | .u => 0
  | .s => 1
  | .m => 2
/-- PREV of a trap frame: 3 is stored as 0 (R310). -/
def Level.dec : Nat → Level
  | 1 => .s
  | 2 => .m
  | _ => .u
def Src.code : Src → Nat
  | .front => 0
  | .k => 1
  | .o => 2
  | .d => 3
  | .ce => 4
  | .bw => 5
/-- Cause codes (R313). -/
def Cause.code : Cause → Nat
  | .undef => 0x01
  | .priv => 0x02
  | .alignFault => 0x03
  | .bounds => 0x04
  | .format => 0x05
  | .ringDoubleFill => 0x06
  | .ringState => 0x07
  | .tokenOver => 0x08
  | .transl => 0x09
  | .perm => 0x0A
  | .weightExec => 0x0B
  | .wblock => 0x0C
  | .barOver => 0x0D
  | .poison => 0x0E
  | .userTrap => 0x0F
  | .copyDesc => 0x10
  | .compressAtomic => 0x11

-- partition events and logs

/-- A partition event (R387): its PEVENT bit, the event word, and MSI-X messages when the bit rises, the virtual function's
where it exists (R392, R395). -/
def State.signal (s : State) (p : PartId) (bit : Nat) : State :=
  let old := (s.part p).logs.pevent
  let ev := (s.part p).logs.evaddr
  let s := s.modPart p fun x => { x with logs := { x.logs with pevent := old ||| BitVec.ofNat 4 (2 ^ bit) } }
  let a := ev.toNat / 8 % 2 ^ 53 * 8
  let s := if ev.getLsbD 0 && localHbm a then s.pokeWord a (BitVec.ofNat 64 ((s.peek a 8).1) ||| BitVec.ofNat 64 (2 ^ bit)) else s
  if old.getLsbD bit then s
  else { s with host := { s.host with
    msix := s.host.msix ++ (if s.host.vfEnable && s.enabled p then [(p.val + 1, 0)] else []) ++ [(0, 1)] } }

/-- Words written one after another at a physical address. -/
def State.pokeWords (s : State) (a : Nat) : List Word → State
  | [] => s
  | w :: ws => (s.pokeWord a w).pokeWords (a + 8) ws

/-- Base address of a log register: bits [55:12] as a page (R363, R382). -/
def logBase (w : Word) : Nat := w.toNat / 2 ^ 12 % 2 ^ 44 * 2 ^ 12
/-- Base address of the fault records: bits [63:12] as a page (R315). -/
def faultPage (w : Word) : Nat := w.toNat / 2 ^ 12 * 2 ^ 12

/-- A reliability record (R363): header word, P0, P1 and P2; the RLOG event follows whether or not the log is
enabled. -/
def State.rlog (s : State) (p : PartId) (hdr : Nat) (p0 p1 p2 : Word) : State :=
  let g := (s.part p).logs
  let s :=
    if g.rlogBase.getLsbD 0 then
      let s := s.pokeWords (logBase g.rlogBase + 64 * g.rlogHead.val)
        [BitVec.ofNat 64 (hdr + p.val * 2 ^ 32), BitVec.ofNat 64 s.ptime, p0, p1, p2, 0, 0, 0]
      s.modPart p fun x => { x with logs := { x.logs with rlogHead := x.logs.rlogHead + 1 } }
    else s
  s.signal p 3
/-- Header of a reliability record: N, UNIT, CORE, DIE, KIND (R363). -/
def rlogHdr (n unit core die kind : Nat) : Nat := n % 2 ^ 16 * 2 ^ 48 + unit * 2 ^ 24 + core * 2 ^ 16 + die * 2 ^ 8 + kind
/-- A reliability record of a core's region. -/
def State.rlogCore (s : State) (c : CoreId) (n kind : Nat) (p0 p1 p2 : Word) : State :=
  s.rlog (s.pmapOf c) (rlogHdr n 0 c.val c.die.val kind) p0 p1 p2

-- the store stream (R98, R106, R359)

/-- A scope's rank: a scope covers those of no higher rank (R104). -/
def scopeRank : Scope → Nat
  | .core => 0
  | .die => 1
  | .pkg => 2
  | .sys => 3
/-- A home's writes belong to a release at a scope, for a core on a die (R104). -/
def Home.within (h : Home) (x : Scope) (d : DieId) : Bool :=
  match h with
  | .buffer => true
  | .die e => 2 ≤ scopeRank x || (1 ≤ scopeRank x && e == d)
  | .chip _ => 3 ≤ scopeRank x
/-- Bytes a request takes in the hold-back buffer: whole 64-byte flits. -/
def Req.size : Req → Nat
  | .store us => 64 * ((us.foldl (fun n u => n + u.bytes.length) 0 + 63) / 64)
  | .copyWrite _ us _ _ => 64 * ((us.foldl (fun n u => n + u.bytes.length) 0 + 63) / 64)
  | _ => 64
/-- The homes of the units of a request that is performed at homes (R97); a `launch` is performed at the home of its
record (R42). -/
def Req.homes : Req → List Home
  | .store us => us.map fun u => homeOf u.addr
  | .amo a .. => [homeOf a]
  | .cas a .. => [homeOf a]
  | .cred a .. => [homeOf a]
  | .barInit a .. => [homeOf a]
  | .barArrive a _ => [homeOf a]
  | .group a .. => [homeOf a]
  | .launch a .. => [homeOf a]
  | _ => []
/-- A relaxed barrier arrival orders nothing (R114). -/
def StoreOp.loose (o : StoreOp) : Bool :=
  o.release.isNone && match o.act with
    | .req (.barArrive ..) => true
    | _ => false
/-- An `amo` or `cas` (R111). -/
def Req.atomic : Req → Bool
  | .amo .. => true
  | .cas .. => true
  | _ => false
/-- Room in the hold-back buffer (R27). -/
def Core.holdRoom (k : Core) (n : Nat) : Bool :=
  decide (k.flow.hold.foldl (fun m h => m + h.size) 0 + n ≤ Config.holdBytes)
/-- A core with its flow changed. -/
def Core.modFlow (k : Core) (f : Flow → Flow) : Core := { k with flow := f k.flow }
/-- A core with its cast state changed. -/
def Core.modLive (k : Core) (f : Live → Live) : Core := { k with live := f k.live }
/-- The planes with the live one, and a store with them replaced. -/
def Store.bothPlanes (t : Store) : Vector Plane 2 × Fin 2 := (t.planes, t.liveSel)
def Store.setPlanes (t : Store) (p : Vector Plane 2 × Fin 2) : Store := { t with planes := p.1, liveSel := p.2 }
/-- A core with its buffers and planes changed. -/
def Core.modStore (k : Core) (f : Store → Store) : Core := { k with store := f k.store }
/-- Every write of K to the planes has been performed (R359). -/
def Core.planesDone (k : Core) : Bool := decide (k.live.prod.maq ≤ k.flow.dep.maq)
def Core.planesPerformed (k : Core) : Core :=
  k.modFlow fun f => { f with dep := { f.dep with maq := max f.dep.maq k.live.prod.maq } }
/-- The planes as they stood before effect n of K; later writes that have not been performed are discarded (R359). -/
def Core.planesBack (k : Core) (n : Nat) : Core :=
  let k1 := match k.flow.planeLog.find? fun w => decide (n ≤ w.num) with
    | some w => k.modStore fun t => t.setPlanes w.before
    | none => k
  k1.modFlow fun f => { f with planeLog := f.planeLog.filter fun w => decide (w.num < f.dep.maq ∨ w.num < n) }

/-- A load-stream entry whose completion later loads and stores wait for (R106). -/
def Load.blocks (l : Load) : Bool :=
  l.acq.isSome || match l.kind with
    | .lwait _ => true
    | .acquire _ => true
    | _ => false
/-- A store-stream entry may enter (R106): no earlier acquire is open; for a release, every earlier load is
performed and every earlier write of its scope is acknowledged. -/
def Core.gateOpen (k : Core) (c : CoreId) (op : StoreOp) : Bool :=
  k.flow.loads.all (fun l => decide (op.po ≤ l.po) || !l.blocks) &&
  match op.release with
  | none => true
  | some x => k.flow.loads.all (fun l => decide (op.po ≤ l.po)) &&
      k.flow.sent.all fun e => decide (op.po ≤ e.po) || !e.homes.any fun h => h.within x c.die

/-- The party of a request's route identifier: circuits belong to the copy engine (R378). -/
def Req.party (r : Req) (p : Fin 4) : Fin 4 :=
  match r with
  | .opening .. => 1
  | .close _ => 1
  | .reply .. => 1
  | _ => p
/-- A tag of a word without register result clears when its word is accepted (R133). -/
def Front.clearTag (f : Front) (t : Option TagId) : Front :=
  match t with
  | none => f
  | some t => { f with tags := f.tags.set t none }

/-- The bytes of a unit with their addresses. -/
def WUnit.cells (u : WUnit) : List (Nat × Byte) := (List.range u.bytes.length).map fun i => (u.addr + i, u.bytes.getD i 0)
/-- Units joined by the 64-byte bank word they lie in, in their order (R83). -/
def joinBanks : List WUnit → List (Nat × List (Nat × Byte)) → List (Nat × List (Nat × Byte))
  | [], g => g
  | u :: us, g =>
    let w := u.addr / 64
    joinBanks us (if g.any fun x => x.1 == w then g.map fun x => if x.1 == w then (w, x.2 ++ u.cells) else x
                  else g ++ [(w, u.cells)])
/-- Age entries of buffer writes: one for each bank word. -/
def ageUnits (b : Buf) (p : AgeParty) (comb : Comb) (now : Nat) (us : List WUnit) : List Age :=
  (joinBanks us []).map fun g =>
    { buf := b, party := p, bytes := g.2, comb := comb, entered := now, poison := false, isat := false }

/-- A store-stream entry enters the hold-back buffer or the write-age stage (R27, R84). -/
def Core.enterStore (k : Core) (now : Nat) (op : StoreOp) : Core :=
  let k := k.setFront (k.live.front.clearTag op.tag)
  match op.act with
  | .req r => k.modFlow fun f =>
      let e : Hold := ⟨r, .store, op.num, r.party op.party, now, r.size, false, op.phys⟩
      { f with
        hold := f.hold ++ [e]
        sent := if r.homes.isEmpty then f.sent
          else f.sent ++ [⟨op.num, op.po, r.homes, r.atomic, op.loose, r.homes.length, now, none⟩] }
  | .buf b us comb =>
      let es := ageUnits b (.front op.num op.po) comb now us
      (k.modStore fun t => { t with aging := t.aging ++ es }).modFlow fun f =>
        if es.isEmpty then f
        else { f with sent := f.sent ++ [⟨op.num, op.po, [.buffer], false, false, es.length, now, none⟩] }
  | .record us => k.modFlow fun f => { f with hold := f.hold ++ [⟨.store us, .other, op.num, op.party, now, (Req.store us).size, false, false⟩] }
  | .release => k
  | .tlbi .. => k

/-- Waiting store-stream entries enter in order while they may (R98, R106); a `tlbi` waits for its own event, and an entry
whose address is not translated for its walk (R348). -/
def Core.settleFrom (c : CoreId) (now : Nat) : List StoreOp → Core → Core
  | [], k => k.modFlow fun f => { f with storeQ := [] }
  | op :: ops, k =>
    let wide := match op.act with | .req r => r.size | .record us => (Req.store us).size | _ => 0
    let stays := op.need.isSome || match op.act with | .tlbi .. => true | _ => false
    if k.gateOpen c op && k.holdRoom wide && !stays then settleFrom c now ops (k.enterStore now op)
    else k.modFlow fun f => { f with storeQ := op :: ops }
/-- A scope covers another (R104). -/
def Scope.covers (r x : Scope) : Bool := decide (scopeRank x ≤ scopeRank r)
/-- Acquires at the head of the load stream take effect once every earlier release at a covering scope has
completed its waits (R106). -/
def dropAcquires (q : List StoreOp) : List Load → List Load
  | [] => []
  | l :: ls =>
    match l.kind with
    | .acquire none =>
      if q.any fun o => decide (o.po ≤ l.po) && (match o.release, l.acq with
          | some r, some x => Scope.covers r x
          | _, _ => false)
      then l :: ls else dropAcquires q ls
    | _ => l :: ls
/-- Acquires that may take effect do. -/
def Core.popAcquires (k : Core) : Core := k.modFlow fun f => { f with loads := dropAcquires f.storeQ f.loads }
/-- Settling the two streams of a core. -/
def Core.settle (k : Core) (c : CoreId) (now : Nat) : Core :=
  let k := (Core.settleFrom c now k.flow.storeQ k).popAcquires
  (Core.settleFrom c now k.flow.storeQ k).popAcquires

/-- An effect joins the store stream (R359): numbered, suppressed while re-execution has not passed the
departed count, and settled at once where nothing holds it back. -/
def Core.pushStore (k : Core) (c : CoreId) (now : Nat) (act : StoreAct) (rel : Option Scope) (tag : Option TagId)
    (party : Fin 4 := 0) (need : Option Need := none) : Core :=
  let n := k.live.prod.store
  let level := if party = 2 then k.live.wctx.level else k.live.front.level
  let k1 := k.modLive fun l => { l with prod := { l.prod with store := n + 1 } }
  if n < k.flow.dep.store then k1
  else (k1.modFlow fun f =>
    { f with storeQ := f.storeQ ++ [⟨act, k.live.front.at_.po, n, rel, tag, party, need, k.live.front.at_.pc, level == .m⟩] }).settle c now
/-- A store-stream entry that is no numbered effect: `fence.rel`, `tlbi`, and the record of a freeze. -/
def Core.pushGate (k : Core) (c : CoreId) (now : Nat) (act : StoreAct) (rel : Scope) (tag : Option TagId) : Core :=
  (k.modFlow fun f =>
    { f with storeQ := f.storeQ ++ [⟨act, k.live.front.at_.po, k.live.prod.store, some rel, tag, 0, none, k.live.front.at_.pc, false⟩] }).settle c now

/-- Re-execution has not yet reproduced every departed effect of the store stream (R360). -/
def Core.replaying (k : Core) : Bool := decide (k.live.prod.store < k.flow.dep.store)
/-- The logged value of the next word that takes an input (R360). -/
def Core.logged (k : Core) : Option (Option VecWord) :=
  if k.replaying then (k.flow.replay.find? fun e => e.1 == k.live.front.at_.po).map (·.2) else none
/-- Bytes of a log entry. -/
def logBytes (v : Option VecWord) : Nat :=
  match v with
  | none => 8
  | some x => if x.toNat < 2 ^ 64 then 8 else 256
/-- The replay log of 96 KiB has room (R360). -/
def Core.logRoom (k : Core) : Bool := decide (k.flow.replay.foldl (fun n e => n + logBytes e.2) 0 + 256 ≤ 98304)
/-- A value, or a completion, recorded in the replay log (R360). -/
def Core.logInput (k : Core) (n : Nat) (v : Option VecWord) : Core :=
  k.modFlow fun f => { f with replay := f.replay.filter (fun e => e.1 != n) ++ [(n, v)] }

-- freezing and traps

/-- The fault record's words (R315). -/
def State.recordWords (s : State) (c : CoreId) (lv : Nat) (src cause : Nat) (t : Trap) : List Word :=
  [BitVec.ofNat 64 ((s.core c).regs.asid.toNat * 2 ^ 32 + (s.pmapOf c).val * 2 ^ 28 + c.val * 2 ^ 20
      + (match t.level with | some l => l.code | none => lv % 4) * 2 ^ 18 + src * 2 ^ 15 + cause),
   BitVec.ofNat 64 s.ptime, t.word, t.info, t.d0, t.d1, t.d2, t.d3]

/-- The physical address of the next fault record: FAULT_BASE names a virtual address at S and a physical one
at M. A write that would fault gives none (R315). -/
def State.recordAddr (s : State) (c : CoreId) (target : Level) : Option (Nat × Bool) :=
  let k := s.core c
  let a := faultPage k.regs.faultBase + 64 * k.regs.faultHead.val
  if target = .m then
    match s.physical a with
    | .ok pa cmp => some (pa, cmp)
    | _ => none
  else
    let va := k.live.front.at_.vahi.toNat * 2 ^ 64 + a
    match s.walk k.regs.asid va with
    | some l => if l.permits .store .s then
        match s.leafAddr c l .store va with
        | .ok pa cmp => some (pa, cmp)
        | _ => none
      else none
    | none => none

/-- FAULT_HEAD advances (R315). -/
def Core.nextRecord (k : Core) : Core := { k with regs := { k.regs with faultHead := k.regs.faultHead + 1 } }

/-- The eight words of a record at a physical and a virtual address. -/
def recordUnits (a va : Nat) (ws : List Word) (cmp : Bool) : List WUnit :=
  (List.range 8).map fun i => { addr := a + 8 * i, va := BitVec.ofNat 64 (va + 8 * i), bytes := toBytes 8 (ws.getD i 0).toNat, cmp := cmp }
/-- A fault record in the store stream ahead of a handler, and whether it was written (R315). -/
def State.faultRecord (s : State) (c : CoreId) (target : Level) (ws : List Word) : State × Bool :=
  let k := s.core c
  if !k.regs.faultBase.getLsbD 0 then (s, false)
  else match s.recordAddr c target with
    | none => (s.modCore c Core.nextRecord, false)
    | some (a, cmp) =>
      let us := recordUnits a (faultPage k.regs.faultBase + 64 * k.regs.faultHead.val) ws cmp
      (s.modCore c fun k => (k.pushStore c s.cycle (.req (.store us)) none none).nextRecord, true)

/-- A front end that takes a trap at its `wdrive` suspends the walk (R220, R267, R286). -/
def Live.leaveWalk (l : Live) (cause : Nat) : Live :=
  match l.front.at_.wait with
  | .wdrive .. =>
    if l.walker.state = .run ∨ l.walker.state = .wait then
      { l with walker := { l.walker with state := .susp, cause := BitVec.ofNat 8 cause }, wctx := { l.wctx with wait := .none } }
    else l
  | _ => l
/-- Freezing masters of a core (R317): the bits, VIOL, the fault record, and the FROZEN event. DESIGN CHOICE (log 62): the
record goes to a virtual address unless the front end runs at M, and a freeze of several masters at once writes one record,
with SRC of the first of FE, CE and BW; the specification says neither. A record at another chip follows the core's earlier
stores (R27). -/
def State.freezeCore (s : State) (c : CoreId) (fe ce bw : Bool) (viol : Fin 16) (t : Option Trap) : State :=
  let k := s.core c
  let z := k.regs.freeze
  let lv := if k.live.front.level = .m then Level.m else Level.s
  let x : Trap := t.getD { cause := .undef, info := 0 }
  let cause := match t with | some t => t.cause.code | none => 0
  let src := if fe then 0 else if ce then 4 else 5
  let ws := s.recordWords c k.live.front.level.code src cause x
  let s := if k.regs.faultBase.getLsbD 0 then
      let s : State := match s.recordAddr c lv with
        | some (a, cmp) =>
          let us := recordUnits a a ws cmp
          if (remoteChip a).isNone then us.foldl (fun (s : State) u => s.poke u.addr u.bytes cmp) s
          else s.modCore c fun k => (k.modFlow fun f => { f with storeQ := f.storeQ ++
              [⟨.record us, k.live.front.at_.po, k.live.prod.store, none, none, 0, none, k.live.front.at_.pc, false⟩] }).settle c s.cycle
        | none => s
      s.modCore c Core.nextRecord
    else s
  let s := s.modCore c fun k =>
    let k := { k with regs := { k.regs with freeze := ⟨z.fe || fe, z.ce || ce, z.bw || bw, viol⟩ } }
    if fe then k.setFront (k.live.front.modAt fun a => { a with wait := .none }) else k
  s.signal (s.pmapOf c) 0

/-- The frame of a level. -/
def Front.frame (f : Front) (l : Level) : Frame := if l = .m then f.mFrame else f.sFrame
/-- A front end with the frame of a level replaced. -/
def Front.setFrame (f : Front) (l : Level) (x : Frame) : Front :=
  if l = .m then { f with mFrame := x } else { f with sFrame := x }
/-- TRAP_STAT (R310). -/
def statWord (rec_ : Nat) (recv : Bool) (src prev : Nat) : Word :=
  BitVec.ofNat 64 (rec_ * 2 ^ 7 + (if recv then 64 else 0) + src * 8 + 4 + prev)
/-- VALID of a frame (R310). -/
def Frame.valid (x : Frame) : Bool := x.stat.getLsbD 2
/-- A frame with VALID cleared. -/
def Frame.clear (x : Frame) : Frame := { x with stat := x.stat &&& ~~~4 }

/-- What entry does to the front end (R312): the frame written, the loops switched off, the level and the
program counter set. -/
def Front.enter (f : Front) (target : Level) (t : Trap) (resume stat : Word) (now : Nat) : Front :=
  let x := f.frame target
  let f := f.setFrame target { x with
    pc := resume, cause := BitVec.ofNat 64 t.cause.code, info := t.info, stat := stat, loops := f.regs.loops
    win := f.win, pcHi := f.at_.pcHi }
  { f with
    regs := { f.regs with loops := { f.regs.loops with lc0 := 0, lc1 := 0 } }
    win := []
    level := target
    at_ := { f.at_ with pc := x.vec, pcHi := if target = .m then 0 else f.at_.vahi, trapping := none, wait := .none
                        nextAt := now + 1 } }

/-- Trap entry at the first level of a list that can take it (R312): a level whose frame is in use passes the
trap on, one whose VEC is misaligned passes on ALIGN_FAULT, and past M the front end freezes with VIOL 5. -/
def State.enterAt (s : State) (c : CoreId) (t : Trap) (resume : Word) : List Level → State
  | [] => (s.freezeCore c true false false 5 (some t)).modFront c fun f =>
      f.modAt fun a => { a with trapping := none, wait := .none, pc := resume }
  | l :: ls =>
    let x := (s.front c).frame l
    if x.valid then s.enterAt c t resume ls
    else if x.vec.toNat % 10 ≠ 0 then
      s.enterAt c { cause := .alignFault, info := x.vec, word := t.word } resume ls
    else
      let prev := (s.front c).level
      let head := (s.core c).regs.faultHead
      let r := s.faultRecord c l (s.recordWords c prev.code t.src.code t.cause.code t)
      r.1.modFront c fun f =>
        f.enter l t resume (statWord (if r.2 then head.val else 0) r.2 t.src.code prev.code) s.cycle

/-- The levels a trap taken at a level tries in turn (R312). -/
def Level.above : Level → List Level
  | .u => [.s, .m]
  | .s => [.m]
  | .m => []

/-- Started fences have completed their waits (R204). -/
def Flow.fencesDone (f : Flow) : Bool :=
  f.storeQ.all (fun o => match o.act with | .release => false | .tlbi .. => false | _ => true) &&
  f.loads.all (fun l => match l.kind with | .acquire none => false | _ => true) && f.tlbi.isNone

/-- A position at which the oldest late trap becomes the pending one (R197). -/
def Pos.pickLate (a : Pos) : Pos :=
  match a.late with
  | [] => a
  | x :: xs => if a.trapping.isNone then { a with trapping := some (x, a.pc), late := xs } else a
/-- A pending trap is entered once every tag has cleared and every started fence has completed (R135, R204), unless the
front end is frozen (R317). -/
def State.enterIf (s : State) (c : CoreId) (t : Trap) (resume : Word) : State :=
  let k := s.core c
  if k.live.front.allClear s.cycle && k.flow.fencesDone && !k.regs.freeze.fe then
    (s.enterAt c t resume k.live.front.level.above).modFront c fun f => f.modAt Pos.pickLate
  else s
/-- The same for the trap that is pending, or for a late one once the front end's wait has ended. -/
def State.tryEnter (s : State) (c : CoreId) : State :=
  let a := (s.front c).at_
  match a.trapping, a.late with
  | some (t, resume), _ => s.enterIf c t resume
  | none, [] => s
  | none, x :: _ => if a.wait = .none then (s.modFront c fun f => f.modAt Pos.pickLate).enterIf c x a.pc else s

/-- Failed walks are forgotten: their accesses are made again, and failed walks are not cached (R347). -/
def Core.forget (k : Core) : Core := { k with misses := k.misses.filter fun m => !m.failed }
/-- Return from a trap (R316), for a frame that allows it: loop registers, window, level and program counter
come from the frame, and VALID is cleared. -/
def Front.leave (f : Front) (now : Nat) : Front :=
  let x := f.frame f.level
  let f1 := f.setFrame f.level x.clear
  { f1 with
    regs := { f1.regs with loops := x.loops }
    win := x.win
    level := Level.dec (x.stat.toNat % 4)
    at_ := { f1.at_ with pc := x.pc, pcHi := x.pcHi, nextAt := now + 1, po := f1.at_.po + 1 } }

/-- The parties whose faults have been taken attempt their faulting steps again, once the front end runs at
level U (R220, R267, R288). -/
def Live.resumeParties (l : Live) : Live :=
  let over_ := fun (t : Option Trap) => t.filter fun x => !x.taken
  let fix := fun (es : List QEntry) => es.map fun e => { e with trap := over_ e.trap }
  { l with
    queues := { l.queues with
      k := fix l.queues.k, o := fix l.queues.o, d := fix l.queues.d
      lanes := l.queues.lanes.map fun x => { x with streams := x.streams.map fun (y : Stream) => { y with trap := over_ y.trap } } }
    copies := l.copies.map fun e => match e.trap with
      | some t => if t.taken then { e with trap := none, state := .run } else e
      | none => e
    circuits := l.circuits.map fun (x : Circuit) => { x with trap := over_ x.trap }
    wctx := { l.wctx with trap := over_ l.wctx.trap } }

/-- A core's part in the end of an iteration. -/
def Job.ended (j : Job) (po now : Nat) : Job :=
  if j.iter.isSome then { j with iter := none, since := now, hist := j.hist ++ [(po, none)], endsDone := j.endsDone - 1 }
  else { j with since := now }
/-- An iteration ends (R36, R163): the launch counts it, a suspended block walker goes idle, and the front end has
no instruction until another iteration is handed to it. The word that ends it counts in the window (R130). -/
def State.endIteration (s : State) (c : CoreId) : State :=
  let k := s.core c
  let s := match k.run.job with
    | some j =>
      if j.iter.isSome && j.endsDone == 0 then s.modLaunch j.part j.launch fun l => { l with ended := l.ended + 1 } else s
    | none => s
  s.modCore c fun k =>
    let po := k.live.front.at_.po
    let k := { k with run := { k.run with job := k.run.job.map fun (j : Job) => j.ended po s.cycle } }
    k.modLive fun l =>
      let w := l.walker
      { l with
        walker := if w.state = WState.susp then { w with state := .idle, end_ := 2 } else w
        front := { l.front with
          regs := { l.front.regs with loops := { l.front.regs.loops with lc0 := 0, lc1 := 0 } }
          win := (⟨none, s.cycle, []⟩ :: l.front.win).take 3
          at_ := { l.front.at_ with idle := true, nextAt := s.cycle + 1, po := l.front.at_.po + 1 } } }

-- issue

/-- What a word asks for before it issues. -/
structure Use where
  /-- Sources A and B with their producer distances. -/
  srcs : List (Reg × Fin 4) := []
  /-- Interlocked reads beside the predicate (R121). -/
  locks : List Reg := []
  dsts : List Reg := []
  /-- Fixed latency (R131). -/
  lat : Option Nat := none
  lanewise : Bool := false
  /-- Feature bit of the opcode (R324). -/
  feature : Nat := 0
  level : Level := .u
  /-- A load, store or engine instruction, which an open `tlbi` holds back (R352). -/
  engine : Bool := false
  /-- Reads the sticky flags. -/
  flags : Bool := false

/-- What the front end of a core does with a word. -/
inductive Gate | stall | trap (t : Trap) | off | go

/-- The engines of a core run: it is out of its hold and not stopped (R332). A frozen front end does not stop
them. -/
def Core.enginesRun (k : Core) : Bool :=
  !k.run.inHold && match k.run.stop with
    | .none => true
    | .asked .. => true
    | _ => false

/-- The front end may issue: it is not held, frozen, stopped, idle or waiting, and its cycle has come. -/
def Core.mayIssue (k : Core) (now : Nat) : Bool :=
  !k.run.inHold && !k.regs.freeze.fe && k.run.stop == .none && !k.live.front.at_.idle &&
  k.live.front.at_.wait == .none && k.live.front.at_.trapping.isNone && k.live.front.at_.late.isEmpty &&
  decide (k.live.front.at_.nextAt ≤ now)

/-- No `tlbi` is under way (R352). -/
def Flow.tlbiFree (f : Flow) : Bool :=
  f.tlbi.isNone && f.storeQ.all fun o => match o.act with | .tlbi .. => false | _ => true
/-- Every flag that an issued word sets has been set (R132, R173). -/
def Front.flagsDone (f : Front) (now : Nat) : Bool :=
  decide (f.flagsAt ≤ now) && (List.finRange 8).all fun t => match f.tags[t] with
    | some p => p.flags == 0
    | none => true

/-- Every wait of a word has ended (R119, R130, R132, R133). -/
def Core.ready (k : Core) (now : Nat) (h : Hdr) (u : Use) : Bool :=
  let f := k.live.front
  f.tagsClear now h.wait &&
  (match h.tag with | some t => !f.tagPending now t | none => true) &&
  u.srcs.all (fun x => f.pdReady now x.2) &&
  f.settled now (.p h.pred) && u.locks.all (f.settled now) && (u.lanewise || u.dsts.all (fun g => !f.pendingDst now g)) &&
  (!u.flags || f.flagsDone now) && (!u.engine || k.flow.tlbiFree)

/-- The driver has accepted the feature of an opcode (R325). -/
def State.accepted (s : State) (f : Nat) : Bool := s.pkg.accept.getLsbD f
/-- The word of an instruction, as TRAP_INFO holds it (R138). -/
def wordInfo (i : Instr) : Word := BitVec.ofNat 64 (encode i)
/-- The core whose front end issues. -/
def State.me (s : State) : Core := s.core s.cur
/-- A trap of the word that issues. -/
def State.wordTrap (s : State) (cause : Cause) (info : Word) : Trap :=
  { cause := cause, info := info, word := s.me.live.front.at_.pc }

/-- Decides what happens to a word (R138). -/
def State.gate (s : State) (i : Instr) (h : Hdr) (u : Use) : Gate :=
  let k := s.me
  let f := k.live.front
  if !k.mayIssue s.cycle then .stall
  else if !s.accepted u.feature then .trap (s.wordTrap .undef (wordInfo i))
  else if f.level.code < u.level.code then .trap (s.wordTrap .priv (wordInfo i))
  else if !k.ready s.cycle h u then .stall
  else if !u.lanewise && !(f.predicate h).getLsbD 0 then .off
  else .go

/-- What an issued word leaves behind. -/
structure Done where
  /-- Register, value, and the bits written. -/
  writes : List (Reg × VecWord × VecWord) := []
  flags : FFlags := 0
  lfsr : Option (Vector (BitVec 16) 64) := none
  /-- Target of a taken transfer. -/
  target : Option Word := none
  /-- Loop set that the word itself loaded, and whether it is `call` or `jmpr.l` (R161). -/
  own : Option Bool := none
  keeps : Bool := false
  /-- The variable-latency result that the word's tag stands for. -/
  pend : Option Pend := none
  /-- The word's tag clears by a later acceptance. -/
  holdTag : Bool := false

/-- One set of the loop check for a taken transfer (R161). -/
def loopLeaves (ls le lc pc target : Word) : Bool :=
  decide (lc ≠ 0) && decide (ls.toNat ≤ pc.toNat) && decide (pc.toNat ≤ le.toNat) &&
  (decide (target.toNat < ls.toNat) || decide (le.toNat < target.toNat))
/-- The loop check of R161: the loop registers after a word and the address of the next one. -/
def loopCheck (l : Loops) (pc : Word) (target : Option Word) (own : Option Bool) (keeps : Bool) : Loops × Word :=
  match target with
  | some t =>
    let l := if !keeps && own != some false && loopLeaves l.ls0 l.le0 l.lc0 pc t then { l with lc0 := 0 } else l
    let l := if !keeps && own != some true && loopLeaves l.ls1 l.le1 l.lc1 pc t then { l with lc1 := 0 } else l
    (l, t)
  | none =>
    let hit1 := decide (l.lc1 ≠ 0) && pc == l.le1
    let l1 := if hit1 then { l with lc1 := l.lc1 - 1 } else l
    if hit1 && decide (l1.lc1 ≠ 0) then (l1, l1.ls1)
    else
      let hit0 := decide (l1.lc0 ≠ 0) && pc == l1.le0
      let l0 := if hit0 then { l1 with lc0 := l1.lc0 - 1 } else l1
      if hit0 && decide (l0.lc0 ≠ 0) then (l0, l0.ls0) else (l0, pc + 10)

/-- The register file after a word's writes (R19), and what the issue window records of them (R130). -/
def applyWrites : List (Reg × VecWord × VecWord) → Regs → Regs × List RegWrite
  | [], r => (r, [])
  | (g, x, m) :: ws, r =>
    if g.wired then applyWrites ws r
    else
      let n := applyWrites ws (r.set g (mergeBits (r.get g) x m))
      (n.1, ⟨g, r.get g, m, []⟩ :: n.2)

/-- The cycle by which every fixed-latency write to a register that has issued lands. -/
def Front.landed (f : Front) (g : Option Reg) (n : Nat) : Nat := f.busy.foldl (fun n b => if g == some b.1 then max n b.2 else n) n
/-- The words whose results for a register are still pending, with the bits that later words have written. -/
def Front.pendingFor (f : Front) (g : Reg) : List (Nat × VecWord) :=
  (List.finRange 8).filterMap fun t => match f.tags[t] with
    | some p => if !p.fixed && p.dst == some g then some (p.po, p.over_) else none
    | none => none
/-- The tag a word allocates (R133). -/
def Front.allocate (f : Front) (h : Hdr) (lat : Option Nat) (d : Done) (now : Nat) : Front :=
  match h.tag with
  | none => f
  | some t =>
    match d.pend with
    | some p =>
      { f with tags := f.tags.set t (some { p with minAt := f.landed p.dst p.minAt }) }
    | none =>
      if d.holdTag then { f with tags := f.tags.set t (some ⟨false, 0, none, 0, none, none, f.at_.po, 0, 0, f.at_.pc⟩) }
      else match lat with
        | some l =>
          let g := d.writes.head?.map (·.1)
          { f with tags := f.tags.set t (some ⟨true, f.landed g (now + l), g, 0, none, none, f.at_.po, 0, 0, f.at_.pc⟩) }
        | none => { f with tags := f.tags.set t none }

/-- A later word's writes lie above a pending result (R172). -/
def Pend.cover (p : Pend) (ws : List RegWrite) : Pend :=
  { p with over_ := ws.foldl (fun m w => if p.dst == some w.reg then m ||| w.mask else m) p.over_ }

/-- A word retires from issue: registers, window, flags, tag, loop check, and the next address (R130, R161).
After a taken transfer the next word issues no earlier than 3 cycles on (R158). -/
def Front.retire (f : Front) (h : Hdr) (lat : Option Nat) (d : Done) (now : Nat) : Front :=
  let f := f.allocate h lat d now
  let w := applyWrites d.writes f.regs
  let l := loopCheck w.1.loops f.at_.pc d.target d.own d.keeps
  { f with
    regs := { w.1.orFlags d.flags with loops := l.1, lfsr := d.lfsr.getD w.1.lfsr }
    tags := f.tags.map fun x => x.map fun p => p.cover w.2
    win := (⟨lat, now, w.2.map fun y => { y with under := f.pendingFor y.reg }⟩ :: f.win).take 3
    busy := match lat with
      | some n => (w.2.map fun x => (x.reg, now + n)) ++ f.busy.filter fun b => decide (now < b.2)
      | none => f.busy.filter fun b => decide (now < b.2)
    flagsAt := if d.flags = 0 then f.flagsAt else max f.flagsAt (now + lat.getD 0)
    at_ := { f.at_ with pc := l.2, nextAt := now + (if d.target.isSome then 3 else 1), po := f.at_.po + 1 } }

/-- A queue of the pool. -/
def Src.queue : Src → Bool
  | .k | .o | .d => true
  | _ => false
/-- A `pause` that a trap ends counts as complete (R165). DEDUCED (log 44): the fault of a queue abandons it, and it executes
again (R220). -/
def Front.pauseDone (f : Front) (src : Src) (now : Nat) : Front :=
  match f.at_.wait with
  | .pause _ => if src.queue then f else f.retire Hdr.zero none {} now
  | _ => f
/-- A trap is taken: the front end's wait is abandoned, and entry follows (R312, R314). -/
def State.takeTrap (s : State) (c : CoreId) (t : Trap) (resume : Word) : State :=
  let f := (s.front c).pauseDone t.src s.cycle
  let resume := if f.at_.po = (s.front c).at_.po then resume else f.at_.pc
  ((s.modCore c fun k => ((k.setFront f).modLive fun l => l.leaveWalk t.cause.code).forget).modFront c fun f =>
    f.modAt fun a => { a with trapping := some (t, resume), wait := .none }).tryEnter c

/-- The word that the issuing front end has taken retires. -/
def State.retire (s : State) (h : Hdr) (lat : Option Nat) (d : Done) : State :=
  s.modFront s.cur fun f => f.retire h lat d s.cycle

/-- A trap of the word that issues, taken at that word (R314): its tag is released. -/
def State.trapHere (s : State) (cause : Cause) (info : Word) : State :=
  s.takeTrap s.cur (s.wordTrap cause info) s.me.live.front.at_.pc

/-- Issue of a word: stall, trap, predicated off, or its own effect (R138). A word that is predicated off changes
nothing, and its tag is released at once (R120). -/
def State.issue (s : State) (i : Instr) (h : Hdr) (u : Use) (eff : State → Outcome) : Outcome :=
  match s.gate i h u with
  | .stall => .next (s.tryEnter s.cur)
  | .trap t => .next (s.takeTrap s.cur t s.me.live.front.at_.pc)
  | .off => .next (s.retire { h with tag := none } u.lat {})
  | .go => eff s

/-- A scalar result in the low bits of a vector word. -/
def wordOf (x : Word) : VecWord := x.setWidth 2048
/-- A scalar write, whole. -/
def writeS (d : SReg) (x : Word) : Reg × VecWord × VecWord := (.s d, wordOf x, wordOf (BitVec.allOnes 64))
/-- A predicate write, whole. -/
def writeP (d : PReg) (x : Word) : Reg × VecWord × VecWord := (.p d, wordOf x, wordOf (BitVec.allOnes 64))
/-- A vector write in the lanes of a mask. -/
def writeV (d : VReg) (x : VecWord) (m : Word) : Reg × VecWord × VecWord := (.v d, x, laneMask m)

/-- The pending result of a variable-latency word (R133, R134). -/
def Front.pendOf (f : Front) (dst : Reg) (mask : VecWord) (minAt : Nat) (v : Option VecWord) : Pend :=
  { fixed := false, minAt := minAt, dst := some dst, mask := mask, value := v, trap := none, po := f.at_.po, over_ := 0, flags := 0, word := f.at_.pc }
/-- A word of variable latency whose value the device has when it issues: its tag waits for the result
(R133). A word that executes again takes its logged value (R360). -/
def State.deliver (s : State) (h : Hdr) (d : SReg) (lat : Nat) (v : Word) : State :=
  let k := s.me
  let n := k.live.front.at_.po
  let x := match k.logged with
    | some (some x) => x
    | _ => wordOf v
  let s := s.modCore s.cur fun k => k.logInput n (some x)
  let f := s.me.live.front
  s.retire h none { pend := some (f.pendOf (.s d) (wordOf (BitVec.allOnes 64)) (s.cycle + lat) (some x)) }

/-- A write that the window records, with a pending result written beneath it (R130): in the bits that no word between
has written (R172). -/
def RegWrite.slide (y : RegWrite) (p : Pend) (x : VecWord) : RegWrite :=
  let over_ := match y.under.find? fun u => u.1 == p.po with
    | some u => u.2
    | none => 0
  { y with old := mergeBits y.old x (p.mask &&& ~~~over_) }
/-- A register result is written (R133), also beneath the writes that the window records (R130). -/
def Front.arrive (f : Front) (t : TagId) (p : Pend) (x : VecWord) : Front :=
  let f := { f with tags := f.tags.set t none, regs := f.regs.orFlags p.flags }
  match p.dst with
  | none => f
  | some g =>
    if g.wired then f
    else { f with
      regs := f.regs.set g (mergeBits (f.regs.get g) x (p.mask &&& ~~~p.over_))
      win := f.win.map fun w => { w with writes := w.writes.map fun y =>
        if y.reg == g then RegWrite.slide y p x else y } }

end Sys2Proof.Machine
end

