-- ==== Sys2Proof/Machine/Klt.lean ====
section
/-! DEFINITION. The flits of the Kamnan Link Transport: their header, their CRC and their framing, and a port that puts one on
its lanes (R396 to R398). -/

namespace Sys2Proof.Machine

/-- 8n free bytes. -/
def State.takeBytes : Nat → State → List Byte × State
  | 0, s => ([], s)
  | n + 1, s =>
    let t := s.takeWord
    let r := State.takeBytes n t.2
    (toBytes 8 t.1.toNat ++ r.1, r.2)

/-- One byte through the CRC-32 of IEEE 802.3, least significant bit first (R397). -/
def crcByte (c : BitVec 32) (b : Byte) : BitVec 32 :=
  (List.range 8).foldl (fun c _ => if c.getLsbD 0 then (c >>> 1) ^^^ 0xEDB88320 else c >>> 1) (c ^^^ b.setWidth 32)
/-- The CRC-32 of bytes. -/
def crc32 (bs : List Byte) : BitVec 32 := ~~~(bs.foldl crcByte (BitVec.allOnes 32))

/-- Word Hi of a flit (R397). -/
def kltWord (x : VecWord) (i : Nat) : Nat := x.toNat / 2 ^ (64 * i) % 2 ^ 64
/-- A field of a header word. -/
def kltField (x : VecWord) (i lo n : Nat) : Nat := kltWord x i / 2 ^ lo % 2 ^ n
/-- TYPE, NUNIT and SEQ (R397). -/
def kltType (x : VecWord) : Nat := kltField x 1 52 4
def kltUnits (x : VecWord) : Nat := kltField x 1 56 8
def kltSeq (x : VecWord) : Nat := kltField x 0 0 32
/-- The flit that the peer asks for again, and whether it is for a paused context (R397). -/
def kltNak (x : VecWord) : Option (Nat × Bool) :=
  if kltField x 2 32 1 = 1 then some (kltField x 2 0 32, kltField x 2 33 1 == 1) else none
/-- The 64 bytes of a unit. -/
def kltUnit (x : VecWord) (i : Nat) : List Byte := toBytes 64 (x.toNat / 2 ^ (512 * (i + 1)))
/-- The CRC of a flit: over every byte but its own four (R397). -/
def kltCrc (x : VecWord) : BitVec 32 :=
  let bs := toBytes 256 x.toNat
  crc32 (bs.take 56 ++ bs.drop 60)
/-- No reserved field is set, and the CRC matches (R397). -/
def kltGood (x : VecWord) : Bool :=
  kltField x 1 48 4 == 0 && kltField x 2 34 30 == 0 && ((List.range 3).all fun i => kltField x (3 + i) 50 14 == 0) &&
  (kltType x == 3 || kltWord x 6 == 0) && kltField x 7 32 32 == 0 && BitVec.ofNat 32 (kltField x 7 0 32) == kltCrc x
/-- A flit from its header words without ACK, NAK and CRC, and its units. -/
def kltMake (seq type_ nunit dchip schip job : Nat) (udesc : List Nat) (tstamp : Nat) (units : List Byte) : VecWord :=
  BitVec.ofNat 2048 (ofBytes (toBytes 8 seq ++
    toBytes 8 (nunit * 2 ^ 56 + type_ * 2 ^ 52 + dchip % 2 ^ 16 * 2 ^ 32 + schip * 2 ^ 16 + job) ++ toBytes 8 0 ++
    ((List.range 3).flatMap fun i => toBytes 8 (udesc.getD i 0)) ++ toBytes 8 tstamp ++ toBytes 8 0 ++ units))
/-- UDESC of a unit (R397): destination endpoint, circuit, and circuit sequence number. -/
def udescOf (endpoint circ seq : Nat) : Nat := endpoint % 2 ^ 12 + circ * 2 ^ 12 + seq % 2 ^ 32 * 2 ^ 18
/-- A flit as it goes out: with the ACK and the NAK of that moment, and its CRC (R397, R398). -/
def kltSeal (x : VecWord) (ack : Nat) (nak : Option (Nat × Bool)) : VecWord :=
  let h2 := match nak with
    | some (n, pause) => n + 2 ^ 32 + (if pause then 2 ^ 33 else 0)
    | none => 0
  let bs := toBytes 256 x.toNat
  let y : VecWord := BitVec.ofNat 2048 (ofBytes (bs.take 4 ++ toBytes 4 ack ++ (bs.drop 8).take 8 ++ toBytes 8 h2 ++ (bs.drop 24).take 32
    ++ toBytes 8 0 ++ bs.drop 64))
  y + BitVec.ofNat 2048 ((kltCrc y).toNat * 2 ^ 448)

/-- MODE of LPCTL (R396): true for ETH. -/
def Port.eth (x : Port) : Bool := x.ctl.getLsbD 1
/-- What goes onto the lanes for flits (R396): the flits themselves, or an Ethernet frame that carries them. -/
def Port.frame (x : Port) (fs : List VecWord) : List Byte :=
  let body := fs.flatMap fun f => toBytes 256 f.toNat
  if x.eth then (toBytes 6 x.peer.toNat).reverse ++ (toBytes 6 x.mac.toNat).reverse ++ [0x88, 0xB5] ++ body else body
/-- The NAK that a port sends (R398): for the first missing SEQ, while flits stand ahead of a gap. -/
def Port.gap (x : Port) : Option (Nat × Bool) := if x.ahead.isEmpty then none else some (x.rx, false)
/-- A flit put on the lanes. -/
def Port.emit (x : Port) (f : VecWord) (nak : Option (Nat × Bool)) : Port := { x with wire := x.frame [kltSeal f x.rx nak] }
/-- A flit of TYPE 1, which repeats the next SEQ and consumes none (R398), with a NAK. -/
def State.sendNak (s : State) (q : PortId) (nak : Nat × Bool) : State :=
  s.modPort q fun x => x.emit (kltMake x.tx 1 0 0 s.pkg.chipid.toNat 0 [] 0 []) (some nak)
/-- A new flit of a partition to a chip (R397, R398): it takes the next SEQ, and the replay buffer keeps it. The bytes of its
units are open: no layout of a spine flit is stated. -/
def State.transmit (s : State) (q : PortId) (p : PartId) (type_ dchip : Nat) (udesc : List Nat) : State :=
  let u := State.takeBytes (8 * udesc.length) s
  u.2.modPort q fun x =>
    let f := kltMake x.tx type_ udesc.length dchip u.2.pkg.chipid.toNat (u.2.host.ljob[p]).toNat udesc 0 u.1
    { x.emit f x.gap with keep := x.keep ++ [⟨x.tx, f, 1⟩], tx := (x.tx + 1) % 2 ^ 32, sentAt := u.2.cycle }

end Sys2Proof.Machine
end

