-- ==== Sys2Proof/Machine/Stream.lean ====
section
/-! DEFINITION. The load stream: checks of an access, forwarding of the core's own writes, and loads on their way
(R96 to R102, R108, R196 to R203). -/

namespace Sys2Proof.Machine

/-- A piece of an access: one single-copy atomic unit at a physical address or buffer offset. -/
structure Piece where
  addr : Nat
  va : Word
  n : Nat
  cmp : Bool
  deriving DecidableEq, Repr

/-- What the checks of an access find (R197). -/
inductive MemCheck
  /-- The pieces of each access. -/
  | ok (ps : List (List Piece))
  | miss (a : Word)
  | trap (c : Cause) (a : Word)

/-- An access of n bytes cut at multiples of m (R198). -/
def cutAt (m : Nat) (a : Word) (n : Nat) : List (Word × Nat) :=
  let r := m - a.toNat % m
  if n ≤ r then [(a, n)] else [(a, r), (a + BitVec.ofNat 64 r, n - r)]

/-- The checks of accesses to a buffer (R80, R197). -/
def bufCheck (limit : Nat) (xs : List (Word × Nat)) : MemCheck :=
  match xs.find? fun x => decide (limit < x.1.toNat + x.2) with
  | some x => .trap .bounds x.1
  | none => .ok (xs.map fun x => (cutAt 64 x.1 x.2).map fun p => ⟨p.1.toNat, p.1, p.2, false⟩)

/-- The pieces of a global access translated in order (R197). -/
def State.pieces (s : State) (c : CoreId) (lv : Level) (hi : Byte) (acc : Access) :
    List (Word × Nat) → MemCheck
  | [] => .ok [[]]
  | (a, n) :: ps =>
    match s.translate c lv hi a acc with
    | .miss => .miss a
    | .trap cause => .trap cause a
    | .ok pa cmp =>
      match s.pieces c lv hi acc ps with
      | .ok (q :: _) => .ok ((⟨pa, a, n, cmp⟩ :: q) :: [])
      | x => x
/-- The checks of accesses to global memory (R96, R197). -/
def State.globalCheck (s : State) (c : CoreId) (lv : Level) (hi : Byte) (acc : Access) : List (Word × Nat) → MemCheck
  | [] => .ok []
  | (a, n) :: xs =>
    match s.pieces c lv hi acc (cutAt n a n) with
    | .ok (p :: _) =>
      match s.globalCheck c lv hi acc xs with
      | .ok ps => .ok (p :: ps)
      | x => x
    | x => x
/-- The checks of an instruction's accesses, in their order (R197): alignment, bounds, translation and
permission, compression. `deny` is a PERM of the instruction itself (R374). DESIGN CHOICE (log 61): it comes after alignment
and before translation; the specification does not give its place (R207). -/
def State.memCheck (s : State) (c : CoreId) (lv : Level) (hi : Byte) (sp : Space) (acc : Access) (align : Nat) (deny : Bool)
    (xs : List (Word × Nat)) : MemCheck :=
  match xs.find? fun x => x.1.toNat % align != 0 with
  | some x => .trap .alignFault x.1
  | none =>
    match spaceBuf sp with
    | some b => bufCheck ((s.core c).bufLimit lv b) xs
    | none =>
      match deny, xs with
      | true, x :: _ => .trap .perm x.1
      | _, _ =>
        match s.globalCheck c lv hi acc xs with
        | .ok ps =>
          match acc, (ps.flatten.find? fun p => p.cmp) with
          | .rmw, some p => .trap .compressAtomic p.va
          | _, _ => .ok ps
        | x => x

/-- The core with the leaves that walks of the pages of some accesses would now bring (R344). -/
def State.foresee (s : State) (c : CoreId) (hi : Byte) (xs : List (Word × Nat)) : State :=
  let k := s.core c
  let ls := (xs.flatMap fun x => [x.1, x.1 + BitVec.ofNat 64 (x.2 - 1)]).filterMap fun a =>
    let full := hi.toNat * 2 ^ 64 + a.toNat
    (s.walk k.regs.asid full).map fun l => { asid := k.regs.asid, page := full / 2 ^ (if l.blk then 30 else 16), leaf := l : TlbEntry }
  s.modCore c fun k => { k with tlb := k.tlb ++ ls }
/-- The accesses of a word before their translation: each piece at its virtual address. -/
def untranslated (xs : List (Word × Nat)) : List (List Piece) :=
  xs.map fun x => (cutAt x.2 x.1 x.2).map fun y => ⟨y.1.toNat, y.1, y.2, false⟩
/-- The walk of an access of the load stream is asked for by another party than one of the store stream (R348). -/
def Access.stream (a : Access) : Nat := if a = .load then 0 else 1
/-- A word of the stream waits for its translation: the stream is suspended, and takes no later word (R348). -/
def Core.suspended (k : Core) (acc : Access) : Bool :=
  if acc = .load then k.flow.loads.any fun l => l.need.isSome else k.flow.storeQ.any fun o => o.need.isSome
/-- A front-end access that passes its checks goes on, and one that fails them traps (R197). One that misses, and that its walk
will let pass, enters its stream and waits there while other words go on (R348); any other one waits at issue. DEDUCED (log
61): so a word that traps is the word being issued (R314). `blocks` is a word after which no later one issues; `stream` tells
the stream of a word apart from what it checks. -/
def State.withMem (s : State) (sp : Space) (acc : Access) (align : Nat) (xs : List (Word × Nat))
    (k : State → List (List Piece) → Option Need → Outcome) (deny : Bool := false) (blocks : Bool := false)
    (stream : Access := acc) : Outcome :=
  let f := s.me.live.front
  if sp = .g ∧ s.me.suspended stream then .next s
  else
  match (s.asParty s.cur stream.stream).memCheck s.cur f.level f.at_.vahi sp acc align deny xs with
  | .ok ps => k s ps none
  | .miss a =>
    let t := s.askWalk s.cur f.at_.vahi a stream.stream
    match ((s.asParty s.cur stream.stream).foresee s.cur f.at_.vahi xs).memCheck s.cur f.level f.at_.vahi sp acc align deny xs with
    | .ok _ => if blocks then .next t else k t (untranslated xs) (some ⟨xs, f.level, f.at_.vahi, acc⟩)
    | _ => .next t
  | .trap cause a =>
    let s := if sp = .g ∧ (cause = .perm ∨ cause = .transl) then s.modCore s.cur fun k => k.dropLeaf f.at_.vahi a else s
    .next (s.trapHere cause a)

-- forwarding (R99, R100, R108)

/-- A write of the core's own store stream that is not yet performed. -/
structure Own where
  num : Nat
  cells : List (Nat × Byte)
  /-- It cannot be forwarded (R201). -/
  blocked : Bool
  poison : Bool

/-- Program-order number of a store-stream effect. -/
def Flow.poOf (f : Flow) (num : Nat) : Nat := ((f.sent.find? fun e => e.num == num).map (·.po)).getD 0
/-- Cells of the units of a request that have not been applied. -/
def Req.cells (r : Req) (applied : List Nat) : List (Nat × Byte) :=
  match r with
  | .store us => ((List.range us.length).filter fun i => !applied.contains i).flatMap fun i =>
      match us[i]? with | some u => u.cells | none => []
  | _ => []
/-- The front end's own unperformed writes to a buffer that precede a program-order number. -/
def Core.ownBuf (k : Core) (e : Buf) (mark : Nat) : List Own :=
  (k.flow.storeQ.filterMap fun o =>
    if mark ≤ o.po then none
    else match o.act with
      | .buf d us comb => if d = e then some ⟨o.num, us.flatMap WUnit.cells, comb != .none, false⟩ else none
      | _ => none) ++
  k.store.aging.filterMap fun a =>
    match a.party with
    | .front num po => if a.buf = e ∧ po < mark then some ⟨num, a.bytes, a.comb != .none, a.poison⟩ else none
    | _ => none
/-- The core's own unperformed writes to a space that precede a program-order number. -/
def State.ownWrites (s : State) (c : CoreId) (b : Option Buf) (mark : Nat) : List Own :=
  let k := s.core c
  match b with
  | none =>
    (k.flow.storeQ.filterMap fun o =>
      if mark ≤ o.po then none
      else match o.act with
        | .req r => some ⟨o.num, r.cells [], false, false⟩
        | _ => none)
    ++ (k.flow.hold.filterMap fun e =>
        if e.stream = .store ∧ k.flow.poOf e.num < mark then some ⟨e.num, e.req.cells [], false, e.poison⟩ else none)
    ++ (s.net.filterMap fun m =>
        if m.src = c ∧ m.hold.stream = .store ∧ k.flow.poOf m.hold.num < mark then
          some ⟨m.hold.num, m.hold.req.cells m.applied, false, m.hold.poison⟩ else none)
  | some e => k.ownBuf e mark
/-- The newest own write of a byte: its value and poison. -/
def newestOwn (ws : List Own) (a : Nat) : Option (Nat × Byte × Bool) :=
  ws.foldl (fun best w =>
    match (w.cells.reverse.find? fun x => x.1 == a) with
    | none => best
    | some x => match best with
      | some (n, _, _) => if n ≤ w.num then some (w.num, x.2, w.poison) else best
      | none => some (w.num, x.2, w.poison)) none
/-- A unit must wait for an own write that cannot be forwarded (R201). -/
def ownBlocks (ws : List Own) (a n : Nat) : Bool :=
  ws.any fun w => w.blocked && w.cells.any fun x => decide (a ≤ x.1) && decide (x.1 < a + n)
/-- Bytes with the core's own writes forwarded over them, and their poison. -/
def forwardOver (ws : List Own) (a : Nat) (bs : List Byte) (bad : Bool) : List Byte × Bool :=
  let xs := (List.range bs.length).map fun i =>
    match newestOwn ws (a + i) with
    | some (_, x, p) => (x, p)
    | none => (bs.getD i 0, bad)
  (xs.map (·.1), xs.any (·.2))

/-- n bytes as a party of a core reads them (R99, R108): none where it must wait. A remote home answers with
values that this device does not hold. -/
def State.readOwn (s : State) (c : CoreId) (b : Option Buf) (mark a n : Nat) (cmp : Bool) : Option (List Byte × Bool × State) :=
  let ws := s.ownWrites c b mark
  if ownBlocks ws a n then none
  else
    let base : List Byte × Bool × State := match b with
      | some e => let t := (s.core c).store; ((t.buf e).bytes a n, t.badAt e a n, s)
      | none =>
        if (remoteChip a).isSome then
          let w := s.takeWords ((n + 7) / 8)
          ((w.1.flatMap fun x => toBytes 8 x.toNat).take n, false, w.2)
        else let r := s.mem.read s.pkg.mdbase a n cmp; (r.1, r.2, s)
    let r := forwardOver ws a base.1 base.2.1
    some (r.1, r.2, base.2.2)

/-- n bytes of a buffer as an engine reads them for an instruction (R108): none where it must wait for a store of the front
end that cannot be forwarded. -/
def Core.readBuf (k : Core) (b : Buf) (mark a n : Nat) : Option (List Byte × Bool) :=
  let ws := k.ownBuf b mark
  if ownBlocks ws a n then none else some (forwardOver ws a ((k.store.buf b).bytes a n) (k.store.badAt b a n))

/-- The address of the line that holds a word (R118). -/
def lineOf (pc : Word) : Word := BitVec.ofNat 64 (pc.toNat / 80 * 80)
/-- The pieces of n bytes from an address that lie in one 64 KiB page each (R197): address and length. -/
def pagePieces (a : Word) (n : Nat) : List (Word × Nat) :=
  let room := 2 ^ 16 - a.toNat % 2 ^ 16
  if n ≤ room then [(a, n)] else [(a, room), (a + BitVec.ofNat 64 room, n - room)]

/-- n bytes at a physical address as the device reads them; those of another chip are free (R342). -/
def State.readFar (s : State) (a n : Nat) (cmp : Bool) : List Byte × State :=
  if (remoteChip a).isSome then
    let w := s.takeWords ((n + 7) / 8)
    ((w.1.flatMap fun x => toBytes 8 x.toNat).take n, w.2)
  else ((s.mem.read s.pkg.mdbase a n cmp).1, s)

/-- A cached line serves a fetch of a core: same address and context, and the level at which it was permitted (R345). -/
def Line.serves (l : Line) (k : Core) (va : Nat) : Bool :=
  l.va == va && l.level == k.live.front.level && (l.level == .m || l.asid == k.regs.asid)

/-- Edges between two dies (R14, R15). -/
def edges (a b : DieId) : Nat := (if a.val % 2 = b.val % 2 then 0 else 1) + (if a.val / 2 = b.val / 2 then 0 else 1)
/-- Die of a port (R14). -/
def portDie (q : Nat) : Nat := q / 2 % 4
/-- The port that the chip table names for a chip (R400), where its entry is valid. -/
def State.chipPort (s : State) (n : Nat) : Option PortId :=
  let e := ((s.mem.hbm.readByte (s.host.ctab.toNat / 2 ^ 16 % 2 ^ 40 * 2 ^ 16 + n)).toNat)
  if s.host.ctab.getLsbD 0 && decide (128 ≤ e) then some (Fin.ofNat 8 e) else none
/-- Cycles a request of a core takes on its way to where it is performed, at least (R217): 24 for each UCIe edge, and 480 for
the link behind the port of another chip (R401). -/
def State.wayTo (s : State) (c : CoreId) : Home → Nat
  | .die d => 24 * edges c.die d
  | .chip n => 480 + match s.chipPort n with
    | some q => 24 * edges c.die (Fin.ofNat 4 (portDie q.val))
    | none => 0
  | .buffer => 0
/-- The same for the home of an address. -/
def State.homeDelay (s : State) (c : CoreId) (a : Nat) : Nat := s.wayTo c (homeOf a)

/-- The bytes of an access form, in order: pieces with the bit of the result each lands at. -/
def loadUnits : List (Nat × List Piece) → List LoadUnit
  | [] => []
  | (_, []) :: xs => loadUnits xs
  | (bit, [p]) :: xs => ⟨p.addr, p.va, p.n, bit, p.cmp, none, none, false⟩ :: loadUnits xs
  | (bit, p :: q :: _) :: xs =>
    ⟨p.addr, p.va, p.n, bit, p.cmp, none, none, false⟩ :: ⟨q.addr, q.va, q.n, bit + 8 * p.n, q.cmp, none, none, false⟩ :: loadUnits xs

/-- A load word issues (R98, R133): it joins the load stream, or takes its logged value (R360). -/
def State.loadWord (s : State) (h : Hdr) (dst : Reg) (mask : VecWord) (kind : LoadKind) (sp : Space) (us : List LoadUnit)
    (acq : Option Scope) (lat : Nat) (need : Option Need := none) : Outcome :=
  let k := s.me
  let f := k.live.front
  if !k.logRoom then .next s
  else
    let far := us.foldl (fun n u => max n (if sp = .g ∧ need.isNone then 2 * s.homeDelay s.cur u.addr else 0)) 0
    let known : Option VecWord := match k.logged with
      | some (some x) => some x
      | _ => if us.isEmpty then some 0 else none
    let p := f.pendOf dst mask (s.cycle + lat + far) known
    let s := s.retire h none { pend := some p }
    .next (if known.isSome then s
      else s.modCore s.cur fun k => k.modFlow fun fl =>
        { fl with loads := fl.loads ++ [⟨kind, sp, us, h.tag, f.at_.po, f.at_.mark, acq, s.cycle, need, f.at_.pc⟩] })

/-- A word that joins the store stream (R98): it stalls while the hold-back buffer has no room for it (R27). -/
def State.storeWord (s : State) (h : Hdr) (act : StoreAct) (rel : Option Scope) (need : Option Need := none) : Outcome :=
  let k := s.me
  let size := fun (a : StoreAct) => match a with | .req r => r.size | _ => 0
  let queued := k.flow.storeQ.foldl (fun n o => n + size o.act) 0
  if !k.holdRoom (queued + size act) then .next s
  else
    let po := k.live.front.at_.po
    let s := s.modCore s.cur fun k => k.pushStore s.cur s.cycle act rel h.tag 0 need
    .next (s.retire h none { holdTag := s.me.flow.storeQ.any fun o => o.po == po })

end Sys2Proof.Machine
end

