-- ==== Sys2Proof/Machine/Guard.lean ====
section
/-! DEFINITION. Routes over the spine, the boundary guards and the budget regulators (R15, R377 to R387). -/

namespace Sys2Proof.Machine

/-- Where a flit goes. -/
inductive Dest
  | core (c : CoreId)
  | home (d : DieId)
  /-- An endpoint of another chip, through the port of a circuit or the one that the chip table names (R400). -/
  | chip (n endpoint : Nat) (via : Option PortId)
  /-- The link endpoint of a port. -/
  | port (q : PortId)
  /-- The scheduler's unit on a die. -/
  | sched (d : DieId)
  | off
  deriving DecidableEq, Repr

/-- A place on a route: a router with its input port as R382 numbers it, or a UCIe edge as R389 numbers it. -/
inductive Hop | router (r : CoreId) (port : Nat) | edge (e : Nat)
  deriving DecidableEq, Repr

/-- A core identifier from its fields (R16). -/
def coreAt (die y x : Nat) : CoreId := Fin.ofNat 256 (64 * die + 8 * y + x)
/-- Positions from a (not itself) to b. -/
def towards (a b : Nat) : List Nat := if a ≤ b then List.range' (a + 1) (b - a) else (List.range' b (a - b)).reverse
/-- Routers entered on the way along the row and then the column (R377). -/
def meshHops (die x y tx ty : Nat) : List Hop :=
  ((towards x tx).map fun x' => .router (coreAt die y x') (if x < tx then 4 else 2)) ++
  (towards y ty).map fun y' => .router (coreAt die y' tx) (if y < ty then 1 else 3)
/-- UCIe edge between neighbouring dies (R389). -/
def edgeOf (a b : Nat) : Nat :=
  match min a b, max a b with
  | 0, 1 => 0
  | 2, 3 => 1
  | 0, 2 => 2
  | _, _ => 3
/-- The dies crossed after the first, the horizontal edge first (R15). -/
def dieHops (a b : Nat) : List Nat :=
  let h := if a % 2 = b % 2 then [] else [if a % 2 = 0 then a + 1 else a - 1]
  if a / 2 = b / 2 then h else h ++ [b]
/-- Route through the dies of a list, from a position; at the last die it goes on to a target or stops at its
edge. -/
def dieRoute (target : Option (Nat × Nat)) : List Nat → Nat → Nat → Nat → List Hop
  | [], die, x, y => match target with
    | some (tx, ty) => meshHops die x y tx ty
    | none => []
  | d :: ds, die, x, y =>
    let across := decide (die / 2 = d / 2)
    let bx := if across then (if die % 2 = 0 then 7 else 0) else (match target with | some (tx, _) => tx | none => x)
    let by_ := if across then y else (if die / 2 = 0 then 7 else 0)
    let ex := if across then 7 - bx else bx
    let ey := if across then y else 7 - by_
    meshHops die x y bx by_ ++ [.edge (edgeOf die d)] ++
      (if ds.isEmpty && target.isNone then [] else [.router (coreAt d ey ex) 6]) ++ dieRoute target ds d ex ey
/-- The route of a flit from a core (R377). Traffic to a home on the same die crosses no router but the core's own. -/
def routeOf (c : CoreId) (d : Dest) (port : Nat) : List Hop :=
  let die := c.die.val
  let toDie := fun (h : Nat) => Hop.router c 0 :: dieRoute none (dieHops die h) die c.x c.y
  match d with
  | .core t => .router c 0 :: dieRoute (some (t.x, t.y)) (dieHops die t.die.val) die c.x c.y
  | .home h => toDie h.val
  | .sched h => toDie h.val
  | .chip .. => toDie (portDie port)
  | .port q => toDie (portDie q.val)
  | .off => []
/-- A drop: its kind, and the router and port that found it. -/
structure Drop where
  kind : Nat
  router : CoreId
  port : Nat
  deriving DecidableEq, Repr

/-- The checks along a route (R379). -/
def State.guardHops (s : State) (p : PartId) : List Hop → CoreId → Nat → Option Drop
  | [], _, _ => none
  | .router r q :: hs, _, _ =>
    if !s.enabled p then some ⟨4, r, q⟩
    else if !(s.pkg.rtab[4 * p.val + r.die.val]?.getD 0).getLsbD (r.val % 64) then some ⟨1, r, q⟩
    else s.guardHops p hs r q
  | .edge e :: hs, r, q =>
    if !(s.pkg.rtabx[p].getLsbD (8 + e)) then some ⟨3, r, q⟩ else s.guardHops p hs r q
/-- The guards' answer for a flit of a partition from a core to a destination (R379, R400). -/
def State.guard (s : State) (p : PartId) (c : CoreId) (d : Dest) : Option Drop :=
  match d with
  | .chip n _ via =>
    match via <|> s.chipPort n with
    | none => some ⟨3, c, 0⟩
    | some q =>
      match s.guardHops p (routeOf c d q.val) c 0 with
      | some x => some x
      | none => if s.pkg.rtabx[p].getLsbD q.val then none else some ⟨3, c, 0⟩
  | .core t =>
    let hs := routeOf c d 0
    match s.guardHops p hs c 0 with
    | some x => some x
    | none =>
      if s.partOf t == some p then none
      else match hs.getLast? with
        | some (.router r q) => some ⟨2, r, q⟩
        | _ => some ⟨2, c, 0⟩
  | _ => s.guardHops p (routeOf c d 0) c 0

/-- The destination of an address. -/
def destOf (a : Nat) : Dest :=
  match remoteChip a with
  | some n => .chip n (0x400 + 16 * (homeDie a).val) none
  | none => .home (homeDie a)
/-- Destination and record TYPE of a request (R382). A circuit's flits and closing request are no requests of their own. -/
def Req.dest (r : Req) : Dest × Nat :=
  match r with
  | .store us => (match us with | u :: _ => destOf u.addr | [] => .off, 3)
  | .copyWrite _ us red _ => (match us with | u :: _ => destOf u.addr | [] => .off, if red = 0 then 3 else 4)
  | .amo a .. => (destOf a, 4)
  | .cas a .. => (destOf a, 4)
  | .cred a .. => (destOf a, 4)
  | .barInit a .. => (destOf a, 4)
  | .barArrive a _ => (destOf a, 4)
  | .group a .. => (destOf a, 4)
  | .gbar a _ _ => (destOf a, 4)
  | .opening _ ds remote .. => (match remote, ds with
    | some (n, via), d :: _ => .chip n d.2.val via
    | some (n, via), [] => .chip n 0 via
    | none, d :: _ => .core d.2
    | none, [] => .off, 0)
  | .notice dst .. => (.core dst, 2)
  | .reply dst .. => (.core dst, 2)
  | .part home _ => (.core home, 5)
  | .flit .. => (.off, 1)
  | .far q chip source .. => (.chip chip source (some q), 2)
  | .launch a .. => (.sched (homeDie a), 6)
  | .freeze t port .. => (if port then .port (Fin.ofNat 8 t) else .core (Fin.ofNat 256 t), 6)
  | .close _ => (.off, 6)
/-- DEST and DCHIP of a guard record (R378, R382). -/
def destWord (chip : BitVec 16) (d : Dest) : Nat :=
  match d with
  | .core t => chip.toNat * 2 ^ 12 + t.val
  | .home h => chip.toNat * 2 ^ 12 + 0x400 + 16 * h.val
  | .chip n e _ => n * 2 ^ 12 + e
  | .port q => chip.toNat * 2 ^ 12 + 0x800 + q.val
  | .sched h => chip.toNat * 2 ^ 12 + 0x400 + 16 * h.val + 3
  | .off => chip.toNat * 2 ^ 12
/-- Source endpoint of a party of a core (R378). -/
def endpoint (c : CoreId) (party : Fin 4) : Nat := 256 * party.val + c.val
/-- Source endpoint of a shared block of a die (R378): unit 3 is the scheduler. -/
def sharedEndpoint (d : DieId) (unit : Nat) : Nat := 0x400 + 16 * d.val + unit
/-- Route identifier of a core's front end (R378). -/
def State.frontRoute (s : State) (c : CoreId) : Nat := 4096 * (s.pmapOf c).val + endpoint c 0
/-- The master of a party is frozen (R378). -/
def Core.partyFrozen (k : Core) (party : Fin 4) : Bool :=
  if party = 0 then k.regs.freeze.fe else if party = 1 then k.regs.freeze.ce else k.regs.freeze.bw

/-- A new guard record for a partition, from a route (R382), and the GUARD event. -/
def State.newGuard (s : State) (p : PartId) (route : Nat) (x : Drop) (d : Dest) (type : Nat) : State :=
  let g := (s.part p).logs
  let owner := match s.partOf x.router with | some o => o.val | none => 0
  let w0 := 2 ^ 48 + route * 2 ^ 32 + x.router.val * 2 ^ 24 + x.port * 2 ^ 20 + owner * 2 ^ 16 + type * 2 ^ 8 + x.kind
  let s :=
    if g.glogBase.getLsbD 0 then
      (s.pokeWords (logBase g.glogBase + 64 * g.glogHead.val)
        [BitVec.ofNat 64 w0, BitVec.ofNat 64 s.ptime, BitVec.ofNat 64 (destWord s.pkg.chipid d), 0, 0, 0, 0, 0]).modPart p
        fun q => { q with logs := { q.logs with glogHead := q.logs.glogHead + 1 } }
    else s
  s.signal p 2
/-- A guard record written or counted up, and the GUARD event (R380, R382): a further drop of one kind and route from a
frozen master counts in the newest record of the route. -/
def State.guardRecord (s : State) (c : CoreId) (party : Fin 4) (p : PartId) (x : Drop) (d : Dest) (type : Nat) : State :=
  let route := 4096 * p.val + endpoint c party
  let k := s.core c
  let g := (s.part p).logs
  let seen := k.partyFrozen party && k.run.drops.any fun e => e.1 == x.kind && e.2.1 == route
  match (if seen then k.run.drops.find? fun e => e.2.1 == route else none) with
  | some (_, _, i) =>
    let at_ := logBase g.glogBase + 64 * i + 6
    let s := if g.glogBase.getLsbD 0 then s.poke at_ (toBytes 2 (min 0xFFFF ((s.peek at_ 2).1 + 1))) else s
    s.signal p 2
  | none =>
    (s.newGuard p route x d type).modCore c fun k =>
      { k with run := { k.run with drops := (x.kind, route, g.glogHead.val) :: k.run.drops.filter fun e => e.1 != x.kind || e.2.1 != route } }
/-- The master of a dropped flit's source freezes with VIOL 1 (R380). -/
def State.dropFreeze (s : State) (c : CoreId) (party : Fin 4) : State :=
  s.freezeCore c (party == 0) (party == 1) (party == 2) 1 none

-- ports (R398, R400)

/-- The chip a request goes to. -/
def Req.chip (r : Req) : Option Nat :=
  match r.dest.1 with
  | .chip n _ _ => some n
  | _ => none
/-- The port that a request to another chip takes (R400): its circuit's, or the one that the chip table names. -/
def State.reqPort (s : State) (r : Req) : Option PortId :=
  match r.dest.1 with
  | .chip n _ via => via <|> s.chipPort n
  | _ => none
/-- A port carries traffic: it is UP and not frozen. While it is DOWN its traffic waits (R398). -/
def Port.up (x : Port) : Bool := x.state == 2 && !x.frozen
/-- The port of a chip, where the table names one, carries traffic. -/
def State.chipReady (s : State) (n : Option Nat) : Bool :=
  match n.bind s.chipPort with
  | some q => (s.ports[q]).up
  | none => true
/-- The port that carries a message carries traffic. -/
def State.portReady (s : State) (m : Msg) : Bool :=
  match m.port with
  | some q => (s.ports[q]).up
  | none => true

-- regulators (R383, R385)

/-- Under STRICT an arbiter serves only the partition of the present calendar slot (R385). -/
def State.served (s : State) (p : PartId) : Bool :=
  !s.pkg.strictNow ||
  (let c := s.cycle % 64
   decide ((s.pkg.calNow[c / 16]?.getD 0).toNat / 2 ^ (4 * (c % 16)) % 16 = p.val))
/-- A grant of n units of a meter on a die (R383): 0 HBM, 1 spine, 2 link, 3 pool. -/
def State.grant (s : State) (p : PartId) (d : DieId) (m : Fin 4) (n : Nat) : Option State :=
  if n = 0 then some s
  else
    let b := (s.part p).budgets
    let budget := b.now[m].toNat % 2 ^ 24
    if budget = 0xFFFFFF ∨ b.used[d][m] < budget then
      some (s.charge p d m n)
    else none
/-- The dies between two, where traffic from one to the other passes (R15). -/
def diesBetween (a b : DieId) : List DieId := (dieHops a.val b.val).dropLast.map (Fin.ofNat 4 ·)
/-- The dies that traffic to a destination crosses between the first and the last (R15). -/
def State.viaDies (s : State) (c : CoreId) (d : Dest) : List DieId :=
  diesBetween c.die (match d with
    | .core t => t.die
    | .home h => h
    | .sched h => h
    | .chip n _ via => match via <|> s.chipPort n with
      | some q => Fin.ofNat 4 (portDie q.val)
      | none => c.die
    | .port q => Fin.ofNat 4 (portDie q.val)
    | .off => c.die)
/-- The destinations of a request. -/
def Req.dests (r : Req) : List Dest :=
  match r with
  | .store us => us.map fun u => destOf u.addr
  | .copyWrite _ us _ _ => us.map fun u => destOf u.addr
  | .opening _ ds none .. => ds.map fun d => .core d.2
  | _ => [r.dest.1]
/-- The spine budget of n flits on the dies of a list (R383). -/
def State.spineOn (s : State) (p : PartId) (ds : List DieId) (n : Nat) : Option State :=
  ds.foldl (fun (s : Option State) d => s.bind fun s => s.grant p d 1 n) (some s)
/-- The spine budget of n flits (R15, R383): on the core's die, and on each die that the traffic crosses. -/
def State.spineGrant (s : State) (p : PartId) (c : CoreId) (ds : List Dest) (n : Nat) : Option State :=
  s.spineOn p (c.die :: (ds.flatMap (s.viaDies c)).dedup) n
/-- The spine budget of n bytes that a home answers to a core with (R383). -/
def State.replyGrant (s : State) (p : PartId) (c : CoreId) (a n : Nat) : Option State :=
  s.spineOn p (homeDie a :: diesBetween (homeDie a) c.die) ((n + 63) / 64)
/-- What the HBM controller moves for an access that the cache does not answer, in units of 64 bytes (R383): a compressed
block counts its stored length. -/
def State.hbmUnits (s : State) (a n : Nat) (cmp : Bool) : Nat :=
  if !cmp then (unitsOf a n).length
  else if (SMap.get none s.mem.blocks (a / 4096)).isSome then 0
  else s.mem.hbm.read (metaAddr s.pkg.mdbase a) 2 % 128
/-- An access at a home, for a partition: served, and granted what it needs of the HBM controller. How much of
it the memory-side cache answers is open; of a compressed block, all or nothing. -/
def State.homeGrant (s : State) (p : PartId) (a n : Nat) (cmp : Bool := false) : Option State :=
  if !s.served p then none
  else
    let t := s.takeNat
    let units := s.hbmUnits a n cmp
    t.2.grant p (homeDie a) 0 (if cmp then t.1 % 2 * units else t.1 % (units + 1))

/-- A port carries the traffic of a context (R402): the context is not stopped, and the port keeps no flits of a saved one. -/
def Port.carries (x : Port) (a : Byte) : Bool := x.kept.isNone && !x.paused.contains a
/-- A port takes n flits of a core for another chip (R383, R385, R398, R402): its arbiter serves the partition, it is UP and
carries the core's context, its replay buffer has room, and the link budget grants the flits. -/
def State.portGrant (s : State) (p : PartId) (c : CoreId) (q : PortId) (n : Nat) : Option State :=
  let x := s.ports[q]
  if !s.served p || !x.up || !x.carries (s.core c).regs.asid || 512 < x.keep.length + n then none
  else s.grant p (Fin.ofNat 4 (portDie q.val)) 2 n
/-- Flits of 256 bytes that n bytes take (R397). -/
def flitsOf (n : Nat) : Nat := (n / 64 + 2) / 3
/-- The same for a request that may go to another chip. -/
def State.linkGrant (s : State) (p : PartId) (c : CoreId) (r : Req) : Option State :=
  match s.reqPort r with
  | none => some s
  | some q => s.portGrant p c q (flitsOf r.size)
/-- TYPE of the flits that carry a request (R397): 4 openings, replies and notices, 5 requests. -/
def Req.flitType : Req → Nat
  | .opening .. => 4
  | .far .. => 4
  | _ => 5
/-- n bytes go out in flits of three units each (R397). -/
def State.transmitAll (s : State) (q : PortId) (p : PartId) (type_ dchip udesc n : Nat) : State :=
  (List.range (flitsOf n)).foldl (fun s i => s.transmit q p type_ dchip (List.replicate (min 3 (n / 64 - 3 * i)) udesc)) s

/-- What becomes of a read at a home: a guard drops its request, it waits, or what it asks for is granted. -/
inductive ReadGrant | drop (x : Drop) | wait | ok (s : State)
/-- A read of n bytes for a party of a core (R379, R383, R385): its request passes the guards, the home and the HBM
controller serve it, and request and answer take their slots of the spine; one of another chip goes through a port. -/
def State.readGrant (s : State) (c : CoreId) (a n : Nat) (cmp : Bool) : ReadGrant :=
  let p := s.pmapOf c
  match s.guard p c (destOf a) with
  | some x => .drop x
  | none =>
    let sent := s.spineGrant p c [destOf a] 1
    let r := match remoteChip a with
      | none => (sent.bind fun t => t.homeGrant p a n cmp).bind fun t => t.replyGrant p c a n
      | some chip => match s.chipPort chip with
        | none => none
        | some q => (sent.bind fun t => t.portGrant p c q 1).map fun t =>
            t.transmit q p 5 chip [udescOf (0x400 + 16 * (homeDie a).val) 0 0]
    match r with
    | some t => .ok t
    | none => .wait

end Sys2Proof.Machine
end

