-- ==== Sys2Proof/Machine/Fetch.lean ====
section
/-! DEFINITION. Fetch: lines of 80 bytes through the instruction cache and the TLB (R118, R139), and when
nothing in the device moves. -/

namespace Sys2Proof.Machine

/-- What a front end finds at its program counter. -/
inductive Fetched
  /-- Nothing issues. -/
  | stall (s : State)
  /-- The fetch traps (R139). -/
  | trap (t : Trap) (s : State)
  /-- The ten bytes of the word. -/
  | word (w : Nat) (s : State)

/-- The pieces translated in order, or the first that misses or fails. -/
def State.translateAll (s : State) (c : CoreId) (lv : Level) (hi : Byte) (acc : Access) :
    List (Word × Nat) → List (Word × Xlate)
  | [] => []
  | (a, _) :: ps => (a, s.translate c lv hi a acc) :: s.translateAll c lv hi acc ps

/-- The pieces of a line read at their homes in order: address, length and compression of each. A guard may drop a request
(R379, R380). DEDUCED (log 60): a fetch at level M meets no guard and no regulator, for the cores leave their hold before any
partition is enabled (R409). -/
def State.readLine (s : State) (c : CoreId) : List (Nat × Nat × Bool) → List Byte → State ⊕ (List Byte × State)
  | [], bs => .inr (bs, s)
  | (pa, n, cmp) :: ps, bs =>
    match (if (s.front c).level = .m then .ok s else s.readGrant c pa n cmp) with
    | .drop x => .inl ((s.guardRecord c 0 (s.pmapOf c) x (destOf pa) 3).dropFreeze c 0)
    | .wait => .inl s
    | .ok t =>
      let y := t.readFar pa n cmp
      y.2.readLine c ps (bs ++ y.1)
/-- Fetching a line (R139): its bytes, or why not. -/
def State.fetchLine (s : State) (c : CoreId) (va : Word) : Fetched ⊕ (List Byte × State) :=
  let f := s.front c
  let ps := pagePieces va 80
  let xs := (s.asParty c 3).translateAll c f.level f.at_.pcHi .fetch ps
  match xs.find? fun x => match x.2 with | .ok .. => false | _ => true with
  | some (a, .trap cause) =>
    .inl (.trap { cause := cause, info := a, word := f.at_.pc } (s.modCore c fun k => k.dropLeaf f.at_.pcHi a))
  | some (a, _) => .inl (.stall (s.askWalk c f.at_.pcHi a 3))
  | none =>
    match s.readLine c ((ps.zip xs).filterMap fun x => match x.2.2 with
      | .ok pa cmp => some (pa, x.1.2, cmp)
      | _ => none) [] with
    | .inl s => .inl (.stall s)
    | .inr r => .inr r

/-- A line enters the instruction cache (R18): another copy of it goes, and some line leaves where the cache is full. -/
def Core.keepLine (k : Core) (va : Nat) (line : Line) (victim : Nat) : Core :=
  let old := k.icache.filter fun l => !l.serves k va
  { k with icache := line :: (if Config.icacheLines ≤ old.length then old.eraseIdx (victim % old.length) else old) }
/-- The next word of a core. A line already cached is used again unless the turn reads it anew: stores do not
update the cache, and a changed line may be held in either form (R139). -/
def State.fetch (s : State) (c : CoreId) (refetch : Bool) : Fetched :=
  let k := s.core c
  let f := k.live.front
  if !k.mayIssue s.cycle then .stall (s.tryEnter c)
  else
    let va := lineOf f.at_.pc
    let full := f.at_.pcHi.toNat * 2 ^ 64 + va.toNat
    let off := f.at_.pc.toNat % 80
    match (if refetch then none else k.icache.find? fun l => l.serves k full) with
    | some l => .word (bytesNat ((l.bytes.drop off).take 10)) s
    | none =>
      match s.fetchLine c va with
      | .inl r => r
      | .inr (bs, s) =>
        let line : Line := { va := full, asid := k.regs.asid, level := f.level, bytes := bs }
        let v := s.takeNat
        .word (bytesNat ((bs.drop off).take 10)) (v.2.modCore c fun k => k.keepLine full line v.1)

/-- An instruction of the opcode table that is an event of the device, not a word. -/
def isEvent (i : Instr) : Bool := i.enc.isNone

/-- Nothing in the device moves (R406, R407, R414): the rails are down, RST_N is low, or THERMTRIP_N is asserted. -/
def State.held (s : State) : Bool := !s.mgmt.powered || s.mgmt.rstLow || s.mgmt.tripped
/-- What the board and a host's read still do then. -/
def Act.outside (a : Act) : Bool :=
  match a with
  | .event (.powerRamp _) => true
  | .event .rstNAssert => true
  | .event .rstNRelease => true
  | .event .powerRemoval => true
  | .event (.hostRead ..) => true
  | _ => false
end Sys2Proof.Machine
end

