-- ==== Sys2Proof/Machine/Slots.lean ====
section
/-! DEFINITION. Slots of rings: beginning and completing a fill, taking and releasing a slot (R86 to R89, R259,
R361, R416). -/

namespace Sys2Proof.Machine

/-- A slot tag at its reset value (R87). -/
def Slot.empty : Slot :=
  { coord := 0, res := 0, tagerr := false, poison := false, fmt := 0, state := .empty, by_ := .none, since := 0, own := 0 }
/-- A ring as its definition leaves it: every tag at reset, both pointers 0 (R37, R259). -/
def Ring.fresh (d : RingDef) : Ring :=
  { def_ := d, defNo := 0, viewNo := 0, filled := 0, taken := 0, tookMade := 0, ownMade := 0, ownKept := 0, relDep := 0,
    ghosts := [], clash := none, slots := List.replicate d.nslot .empty, rels := [], fills := [], frontHeld := [], fedBy := none, fedFar := none }
/-- Producer and consumer pointer (R88). -/
def Ring.prod (r : Ring) : Nat := r.filled % r.def_.nslot
def Ring.cons (r : Ring) : Nat := r.taken % r.def_.nslot
/-- Bytes of a slot, and its offset in the buffer (R86). -/
def Ring.size (r : Ring) : Nat := 512 * r.def_.slotsz
def Ring.offset (r : Ring) (i : Nat) : Nat := 512 * r.def_.base + i * r.size
/-- A slot. -/
def Ring.slot (r : Ring) (i : Nat) : Slot := r.slots.getD i .empty
/-- A ring with one slot changed. -/
def Ring.modSlot (r : Ring) (i : Nat) (f : Slot → Slot) : Ring := { r with slots := r.slots.set i (f (r.slot i)) }
/-- The newest number, of those below a count, that fell on a slot. -/
def Ring.numberOf (r : Ring) (count i : Nat) : Nat := count - 1 - (count + r.def_.nslot - 1 - i) % r.def_.nslot
/-- The coordinate expected of fill n, and NEXTC (R259). -/
def Ring.expected (r : Ring) (n : Nat) : BitVec 32 := r.def_.coord0 + BitVec.ofNat 32 n * r.def_.cstep
def Ring.nextc (r : Ring) : BitVec 32 := r.expected r.filled
/-- A fill may begin on a slot: it is EMPTY, and none of the core's own returns to it (R361). -/
def Slot.open (x : Slot) : Bool := x.state == .empty && x.by_ != .again
/-- Slots that are EMPTY. -/
def Ring.empties (r : Ring) : Nat := r.slots.countP Slot.open

/-- STATE of a slot tag, and the whole tag (R87). -/
def SlotState.code : SlotState → Nat
  | .empty => 0
  | .filling => 1
  | .full => 2
  | .held => 3
def Slot.tag (x : Slot) : Word :=
  BitVec.ofNat 64 (x.coord.toNat * 2 ^ 16 + x.res.toNat * 2 ^ 8 + (if x.tagerr then 64 else 0) + (if x.poison then 32 else 0)
    + x.fmt.val * 4 + x.state.code)

/-- TRAP_INFO of a ring and slot (R89). -/
def slotInfo (q : RingId) (slot : Nat) : Word := BitVec.ofNat 64 (q.val + 16 * slot)

/-- TRAP_INFO of a conflicting fill: ring, slot, and the route identifier of the fill (R89). -/
def State.fillInfo (s : State) (c : CoreId) (party : Fin 4) (q : RingId) (slot : Nat) : Word :=
  BitVec.ofNat 64 (q.val + 16 * slot + 2 ^ 16 * (4096 * (s.pmapOf c).val + endpoint c party))

/-- A core's ring. -/
def Core.ring (k : Core) (q : RingId) : Option Ring := k.live.rings[q]
/-- A core with a ring changed. -/
def Core.modRing (k : Core) (q : RingId) (f : Ring → Ring) : Core :=
  k.modLive fun l => { l with rings := l.rings.set q (l.rings[q].map f) }

/-- What a consumer finds at the consumer pointer (R88, R89): the slot, its tag, and whether it takes a slot
again whose release has departed already (R361). -/
structure Taken where
  slot : Nat
  tag : Slot
  gone : Bool
  deriving DecidableEq, Repr

/-- The slot that the take of a number gets; none while it must wait. Re-execution finds the tag of a slot whose release has
departed (R361). -/
def Core.takeOf (k : Core) (q : RingId) (n : Nat) : Option Taken :=
  (k.ring q).bind fun r =>
    match k.flow.gone.find? fun e => e.ring == q && e.defNo == r.viewNo && e.num == n with
    | some e => some ⟨e.slot, e.tag, true⟩
    | none =>
      let i := n % r.def_.nslot
      if r.viewNo = r.defNo ∧ n < r.filled ∧ (r.slot i).state = .full then some ⟨i, r.slot i, false⟩ else none
/-- The slot the next take of a ring gets. -/
def Core.head (k : Core) (q : RingId) : Option Taken := (k.ring q).bind fun r => k.takeOf q r.tookMade
/-- The take itself: FULL → HELD, and the pointer advances (R88). -/
def Core.take (k : Core) (q : RingId) (who : Holder) : Core :=
  match k.head q with
  | none => k
  | some t => k.modRing q fun r =>
    if t.gone then { r with tookMade := r.tookMade + 1, ghosts := r.ghosts ++ [t.slot] }
    else { r.modSlot t.slot fun x => { x with state := .held, by_ := who } with
      taken := max r.taken (r.tookMade + 1), tookMade := r.tookMade + 1 }
/-- A release joins its ring's stream; it departs tQ later (R361). -/
def Core.release (k : Core) (q : RingId) (slot now : Nat) : Core :=
  k.modRing q fun r =>
    if r.ghosts.contains slot then { r with ghosts := r.ghosts.erase slot } else { r with rels := r.rels ++ [⟨slot, now⟩] }

/-- A slot passes from HELD to EMPTY, and a free notice to a producer on another core enters the hold-back buffer, where it
ages in its turn (R27, R88, R90, R265). -/
def Core.emptySlot (k : Core) (q : RingId) (slot now : Nat) : Core :=
  match k.ring q with
  | none => k
  | some r =>
    let k := (k.modRing q fun r =>
      { r.modSlot slot fun x => { x with state := .empty, by_ := .none } with relDep := r.relDep + 1 }).modFlow fun f =>
        { f with gone := f.gone ++ [⟨q, r.defNo, r.numberOf r.taken slot, slot, r.slot slot⟩] }
    let enter := fun (x : Req) => k.modFlow fun f => { f with hold := f.hold ++ [⟨x, .ring q, r.relDep, 0, now, 64, false, false⟩] }
    match r.fedBy, r.fedFar with
    | some x, _ => enter (.notice x.src x.circ x.branch x.opening)
    | none, some x => enter (.far x.port x.chip x.source x.circ none)
    | none, none => k
/-- The hold-back buffer has room for the notice that the release of a slot of a ring sends (R27). -/
def Core.noticeRoom (k : Core) (q : RingId) : Bool :=
  match k.ring q with
  | some r => (r.fedBy.isNone && r.fedFar.isNone) || k.holdRoom 64
  | none => true
/-- A release by a consumer whose effect has aged already: a retirement, or the end of a drain (R239, R244). The slot is
EMPTY in that cycle; it follows the ring's releases that still age (R359). -/
def Core.releaseAged (k : Core) (q : RingId) (slot now : Nat) : Core :=
  match k.ring q with
  | none => k
  | some r =>
    if r.ghosts.contains slot then k.modRing q fun r => { r with ghosts := r.ghosts.erase slot }
    else if r.rels.isEmpty then k.emptySlot q slot now
    else k.modRing q fun r => { r with rels := r.rels ++ [⟨slot, now - Config.tQ⟩] }
/-- The releases of a ring whose time has come depart in order (R361). -/
def Core.departFrom (q : RingId) (now : Nat) : List Release → Core → Core
  | [], k => k
  | e :: es, k =>
    if now < e.entered + Config.tQ || !k.noticeRoom q then k
    else departFrom q now es ((k.modRing q fun r => { r with rels := es }).emptySlot q e.slot now)
/-- A slot that is freed in the cycle in which a fill begins on it becomes EMPTY first (R89). -/
def Core.freeFirst (k : Core) (q : RingId) (now : Nat) : Core :=
  match k.ring q with
  | some r => if (r.slot r.prod).state = .held then departFrom q now r.rels k else k
  | none => k

/-- A fill has found a slot of a ring not EMPTY in this cycle: what would free the slot comes in a later one (R89). -/
def Core.clashes (k : Core) (q : RingId) (slot now : Nat) : Bool := (k.ring q).any fun r => r.clash == some (now, slot)
/-- Such a fill. -/
def Core.doubleFill (k : Core) (q : RingId) (now : Nat) : Core := k.modRing q fun r => { r with clash := some (now, r.prod) }
/-- The answer to a fill that would begin. -/
inductive Fill | ok (slot : Nat) (k : Core) | kept (k : Core) | busy (slot : Nat)
/-- A fill of the core's own party begins at the producer pointer (R88). One whose slot stands FULL since before
a rollback is only counted (R361). -/
def Core.beginFill (k : Core) (q : RingId) (who : Holder) (now : Nat) : Fill :=
  let k := k.freeFirst q now
  match k.ring q with
  | none => .busy 0
  | some r =>
    if r.viewNo ≠ r.defNo then .kept (k.modRing q fun r => { r with ownMade := r.ownMade + 1 })
    else if r.ownMade < r.ownKept then
      match r.slots.findIdx? fun x => x.by_ == .again && x.own == r.ownMade with
      | some i => .ok i (k.modRing q fun r =>
        { r.modSlot i fun x => { x with state := .filling, by_ := who, since := now } with ownMade := r.ownMade + 1 })
      | none => .kept (k.modRing q fun r => { r with ownMade := r.ownMade + 1 })
    else if !(r.slot r.prod).open then .busy r.prod
    else .ok r.prod (k.modRing q fun r =>
      { r.modSlot r.prod fun x => { x with state := .filling, by_ := who, since := now, own := r.ownMade } with
        filled := r.filled + 1, ownMade := r.ownMade + 1, ownKept := r.ownMade + 1 })
/-- A fill from another core begins (R265); none where the slot is not EMPTY (R89). -/
def Core.beginRemote (k : Core) (q : RingId) (now : Nat) : Option (Nat × Core) :=
  let k := k.freeFirst q now
  match k.ring q with
  | none => none
  | some r =>
    if !(r.slot r.prod).open then none
    else some (r.prod, k.modRing q fun r =>
      { r.modSlot r.prod fun x => { x with state := .filling, by_ := .remote, since := now } with filled := r.filled + 1 })
/-- A fill completes (R87, R88, R259); one on a ring reset since, or no longer defined, is dropped (R260). -/
def Core.endFill (k : Core) (q : RingId) (slot : Nat) (who : Holder) (coord : BitVec 32) (fmt : Fin 8) (res : Nat)
    (poison : Bool) : Core :=
  k.modRing q fun r =>
    let x := r.slot slot
    if x.state ≠ .filling ∨ x.by_ ≠ who then r
    else r.modSlot slot fun x =>
      { x with
        coord := coord, res := BitVec.ofNat 8 res, poison := poison, fmt := fmt, state := .full, by_ := .none
        tagerr := r.def_.chk && coord != r.expected (r.numberOf r.filled slot) }

/-- The slot's data carries a mark: POISON of its tag, or a marked bank word among n bytes from an offset
(R366). -/
def Core.slotBad (k : Core) (r : Ring) (slot off n : Nat) : Bool :=
  (r.slot slot).poison || k.store.badAt r.def_.buf (r.offset slot + off) n
/-- n bytes of a slot from an offset. -/
def Core.slotBytes (k : Core) (r : Ring) (slot off n : Nat) : List Byte :=
  (k.store.buf r.def_.buf).bytes (r.offset slot + off) n

/-- The oldest release of a ring departs (R361): HELD → EMPTY, and a free notice goes to a producer on another
core (R88, R265). -/
def execSlotReleaseDepart (c : CoreId) (q : RingId) (s : State) : Outcome :=
  let k := s.core c
  match k.ring q with
  | none => .next s
  | some r =>
    match r.rels with
    | [] => .next s
    | e :: es =>
      if s.cycle < e.entered + Config.tQ || !k.noticeRoom q || k.clashes q e.slot s.cycle then .next s
      else .next (s.modCore c fun k => (k.modRing q fun r => { r with rels := es }).emptySlot q e.slot s.cycle)

/-- The first consumption of marked data by an iteration on a core writes a KIND 4 record, where the system
continues on poison (R367). -/
def State.poisonSeen (s : State) (c : CoreId) (what : Word) : State :=
  match (s.core c).run.job, s.launchOf c with
  | some j, some l =>
    if j.poisoned then s
    else
      (s.rlogCore c 0 4 what l.va (BitVec.ofNat 64 (j.iter.getD 0))).modCore c fun k =>
        { k with run := { k.run with job := k.run.job.map fun (j : Job) => { j with poisoned := true } } }
  | _, _ => s

/-- A core with a circuit changed. -/
def Core.modCirc (k : Core) (n : CircNo) (f : Circuit → Circuit) : Core :=
  k.modLive fun l => { l with circuits := l.circuits.set n (f l.circuits[n]) }
/-- A core with a copy entry changed. -/
def Core.modCopy (k : Core) (e : EntryNo) (f : CopyEntry → CopyEntry) : Core :=
  k.modLive fun l => { l with copies := l.copies.set e (f l.copies[e]) }
/-- Slots that a copy has filled become FULL, in order, once its writes into them are performed (R252). -/
def Core.endTilesFrom (k : Core) (e : EntryNo) : List TileEnd → Core
  | [] => k
  | t :: ts =>
    if k.store.aging.any fun a => match a.party with
        | .copy f n => f == e && decide (n < t.seq)
        | _ => false
    then k
    else
      let k := (k.endFill t.ring t.slot (.copy e) t.coord t.fmt t.res t.poison).modCopy e fun x => { x with ends := ts }
      Core.endTilesFrom (match t.scale with
        | some (q, i) => k.endFill q i (.copy e) t.coord 0 t.sres t.poison
        | none => k) e ts
/-- The same for every copy entry that has not faulted (R267). -/
def Core.endTiles (k : Core) : Core :=
  (List.finRange 16).foldl (fun k e =>
    let x := k.live.copies[e]
    if x.state = .fault then k else k.endTilesFrom e x.ends) k

end Sys2Proof.Machine
end

