-- ==== Sys2Proof/Machine/EngineMem.lean ====
section
/-! DEFINITION. Reads of memory by the engines of a core: the queues, the copy engine and the block walker
(R108, R255, R267, R287). -/

namespace Sys2Proof.Machine

/-- The answer to a read of an engine. -/
inductive EngRead
  /-- Not yet: a walk, a store of the core that cannot be forwarded, or a regulator. -/
  | wait (s : State)
  | trap (c : Cause) (a : Word) (s : State)
  /-- The bytes, and the virtual address of the first marked unit. -/
  | ok (bs : List Byte) (bad : Option Word) (s : State)

/-- The master of a core that an access is made for: the copy engine, the block walker, and the front end else. -/
def masterOf (who : Nat) : Fin 4 := if 16 ≤ who then 1 else if who = 2 then 2 else 0
/-- The pieces of a read taken in order. A party whose master is frozen asks for nothing (R317), so that a request that a
guard has dropped is not sent again before it is thawed (R380). -/
def State.readPieces (s : State) (c : CoreId) (party : Fin 4) (b : Option Buf) (mark : Nat) :
    List Piece → List Byte → Option Word → EngRead
  | [], bs, bad => .ok bs bad s
  | p :: ps, bs, bad =>
    match (if b.isSome then .ok s else if (s.core c).partyFrozen party then .wait else s.readGrant c p.addr p.n p.cmp) with
    | .drop x => .wait ((s.guardRecord c party (s.pmapOf c) x (destOf p.addr) 3).dropFreeze c party)
    | .wait => .wait s
    | .ok s1 =>
      match s1.readOwn c b mark p.addr p.n p.cmp with
      | none => .wait s1
      | some (x, isBad, s2) =>
        s2.readPieces c party b mark ps (bs ++ x) (if bad.isNone && isBad then some p.va else bad)
/-- Accesses of a party of a core (as `Miss.party` numbers it) at a level, observing the core's own writes before a program-order number
(R108). -/
def State.engineReadAll (s : State) (c : CoreId) (party : Nat) (lv : Level) (hi : Byte) (acc : Access) (mark : Nat)
    (sp : Space) (xs : List (Word × Nat)) : EngRead :=
  match (s.asParty c party).memCheck c lv hi sp acc 1 false xs with
  | .miss x => .wait (s.askWalk c hi x party)
  | .trap cause x =>
    .trap cause x (if sp = .g ∧ cause ≠ .bounds then s.modCore c fun k => k.dropLeaf hi x else s)
  | .ok ps => s.readPieces c (masterOf party) (spaceBuf sp) mark ps.flatten [] none
/-- A read of n bytes, n a power of two. -/
def State.engineRead (s : State) (c : CoreId) (party : Nat) (lv : Level) (hi : Byte) (acc : Access) (mark : Nat)
    (sp : Space) (a : Word) (n : Nat) : EngRead :=
  s.engineReadAll c party lv hi acc mark sp [(a, n)]
/-- n bytes of a slot from an offset as an engine reads them for an instruction, and whether they carry a mark (R108,
R366). -/
def Core.slotData (k : Core) (r : Ring) (mark slot off n : Nat) : Option (List Byte × Bool) :=
  (k.readBuf r.def_.buf mark (r.offset slot + off) n).map fun x => (x.1, (r.slot slot).poison || x.2)
/-- n bytes cut at multiples of 64. -/
def chunks64 : Nat → Word → Nat → List (Word × Nat)
  | 0, _, _ => []
  | fuel + 1, a, n =>
    let r := 64 - a.toNat % 64
    if n = 0 then [] else if n ≤ r then [(a, n)] else (a, r) :: chunks64 fuel (a + BitVec.ofNat 64 r) (n - r)

end Sys2Proof.Machine
end

