-- ==== Sys2Proof/Machine/Scalar.lean ====
section
/-! DEFINITION. The scalar integer instructions (R148 to R154). -/

namespace Sys2Proof.Machine

/-- A scalar instruction of fixed latency: its result is a function of the front end as it issues. -/
def State.scalarOp (s : State) (i : Instr) (h : Hdr) (lat : Nat) (srcs : List (Reg × Fin 4)) (locks : List Reg)
    (d : SReg) (f : Front → Word) : Outcome :=
  s.issue i h { srcs := srcs, locks := locks, dsts := [.s d], lat := some lat } fun s =>
    .next (s.retire h (some lat) { writes := [writeS d (f s.me.live.front)] })
/-- One scalar source. -/
def State.scalar1 (s : State) (i : Instr) (h : Hdr) (lat : Nat) (d a : SReg) (f : Word → Word) : Outcome :=
  s.scalarOp i h lat [(.s a, h.pda)] [] d fun r => f (r.srcS a h.pda)
/-- Two scalar sources. -/
def State.scalar2 (s : State) (i : Instr) (h : Hdr) (lat : Nat) (d a b : SReg) (f : Word → Word → Word) : Outcome :=
  s.scalarOp i h lat [(.s a, h.pda), (.s b, h.pdb)] [] d fun r => f (r.srcS a h.pda) (r.srcS b h.pdb)

/-- A two-source operation in 64 bits, or in 32 bits with its result sign-extended (R148). -/
def widthOp (w : IWidth) (f : {n : Nat} → BitVec n → BitVec n → BitVec n) (a b : Word) : Word :=
  match w with
  | .x64 => f a b
  | .i32 => (f (a.setWidth 32) (b.setWidth 32)).signExtend 64
/-- A one-source operation in either width (R148). -/
def widthOp1 (w : IWidth) (f : {n : Nat} → BitVec n → BitVec n) (a : Word) : Word :=
  match w with
  | .x64 => f a
  | .i32 => (f (a.setWidth 32)).signExtend 64

/-- High half of the signed product (R149). -/
def mulHigh {n : Nat} (a b : BitVec n) : BitVec n := (a.signExtend (n + n) * b.signExtend (n + n)).extractLsb' n n
/-- High half of the unsigned product (R149). -/
def mulHighU {n : Nat} (a b : BitVec n) : BitVec n := (a.setWidth (n + n) * b.setWidth (n + n)).extractLsb' n n
/-- Signed division (R151). -/
def divS {n : Nat} (a b : BitVec n) : BitVec n := if b = 0 then BitVec.allOnes n else a.sdiv b
/-- Unsigned division (R151). -/
def divU {n : Nat} (a b : BitVec n) : BitVec n := if b = 0 then BitVec.allOnes n else a / b
/-- Signed remainder (R151). -/
def remS {n : Nat} (a b : BitVec n) : BitVec n := if b = 0 then a else a.srem b
/-- Unsigned remainder (R151). -/
def remU {n : Nat} (a b : BitVec n) : BitVec n := if b = 0 then a else a % b
/-- Leading zero bits (R149). -/
def leadingZeros {n : Nat} (a : BitVec n) : BitVec n :=
  if a = 0 then BitVec.ofNat n n else BitVec.ofNat n (n - 1 - a.toNat.log2)
/-- Trailing zero bits (R149). -/
def trailingZeros {n : Nat} (a : BitVec n) : BitVec n :=
  BitVec.ofNat n (((List.range n).find? fun i => a.getLsbD i).getD n)
/-- Number of 1 bits (R149). -/
def onesCount {n : Nat} (a : BitVec n) : BitVec n := BitVec.ofNat n ((List.range n).countP fun i => a.getLsbD i)
/-- Signed and unsigned minimum and maximum (R149). -/
def minS {n : Nat} (a b : BitVec n) : BitVec n := if b.slt a then b else a
def maxS {n : Nat} (a b : BitVec n) : BitVec n := if a.slt b then b else a
def minU {n : Nat} (a b : BitVec n) : BitVec n := if b.ult a then b else a
def maxU {n : Nat} (a b : BitVec n) : BitVec n := if a.ult b then b else a

/-- A condition of `cmp` (R153). -/
def icond {n : Nat} (k : ICond) (a b : BitVec n) : Bool :=
  match k with
  | .eq => a == b
  | .ne => a != b
  | .lt => a.slt b
  | .ge => !a.slt b
  | .ltu => a.ult b
  | .geu => !a.ult b
/-- The condition over W bits (R153). -/
def icondW (w : IWidth) (k : ICond) (a b : Word) : Bool :=
  match w with
  | .x64 => icond k a b
  | .i32 => icond k (a.setWidth 32) (b.setWidth 32)
/-- A comparison's result in a predicate register: all ones or all zeros (R153). -/
def predOf (b : Bool) : Word := if b then BitVec.allOnes 64 else 0

/-- The field of `bfx` (R152). -/
def bitField (signed : Bool) (a : Word) (wm1 lsb : Fin 64) : Word :=
  let up := 63 - wm1.val
  let x := (a >>> lsb.val) <<< up
  if signed then x.sshiftRight up else x >>> up
/-- The insertion of `bfi` (R152). -/
def bitInsert (d a : Word) (wm1 lsb : Fin 64) : Word :=
  let m := (BitVec.allOnes 64 >>> (63 - wm1.val)) <<< lsb.val
  (d &&& ~~~m) ||| ((a <<< lsb.val) &&& m)
/-- Width extension (R152). -/
def extendOp (signed : Bool) (x : ExtW) (a : Word) : Word :=
  match x, signed with
  | .x8, true => (a.setWidth 8).signExtend 64
  | .x16, true => (a.setWidth 16).signExtend 64
  | .x32, true => (a.setWidth 32).signExtend 64
  | .x8, false => (a.setWidth 8).setWidth 64
  | .x16, false => (a.setWidth 16).setWidth 64
  | .x32, false => (a.setWidth 32).setWidth 64

/-- Shift amount from its low bits: [5:0], or [4:0] under `.i32` (R149). -/
def shiftBits (w : IWidth) (x : Word) : Nat :=
  match w with
  | .x64 => x.toNat % 64
  | .i32 => x.toNat % 32
/-- A shift in either width. -/
def State.shiftOp (s : State) (i : Instr) (h : Hdr) (w : IWidth) (d a : SReg) (n : ShAmt)
    (f : {n : Nat} → BitVec n → Nat → BitVec n) : Outcome :=
  let g : Word → Nat → Word := fun x k => widthOp1 w (fun y => f y k) x
  match n with
  | .reg b => s.scalar2 i h 1 d a b fun x y => g x (shiftBits w y)
  | .imm k => s.scalar1 i h 1 d a fun x => g x k.val

def execAdd (h : Hdr) (w : IWidth) (d a b : SReg) (s : State) : Outcome :=
  s.scalar2 (.add h w d a b) h 1 d a b (widthOp w (· + ·))
def execSub (h : Hdr) (w : IWidth) (d a b : SReg) (s : State) : Outcome :=
  s.scalar2 (.sub h w d a b) h 1 d a b (widthOp w (· - ·))
def execAddi (h : Hdr) (d a : SReg) (imm : BitVec 32) (s : State) : Outcome :=
  s.scalar1 (.addi h d a imm) h 1 d a (· + imm.signExtend 64)
def execMul (h : Hdr) (w : IWidth) (d a b : SReg) (s : State) : Outcome :=
  s.scalar2 (.mul h w d a b) h 3 d a b (widthOp w (· * ·))
def execMulh (h : Hdr) (w : IWidth) (d a b : SReg) (s : State) : Outcome :=
  s.scalar2 (.mulh h w d a b) h 3 d a b (widthOp w mulHigh)
def execMulhu (h : Hdr) (w : IWidth) (d a b : SReg) (s : State) : Outcome :=
  s.scalar2 (.mulhu h w d a b) h 3 d a b (widthOp w mulHighU)
def execDiv (h : Hdr) (w : IWidth) (d a b : SReg) (s : State) : Outcome :=
  s.scalar2 (.div h w d a b) h 20 d a b (widthOp w divS)
def execDivu (h : Hdr) (w : IWidth) (d a b : SReg) (s : State) : Outcome :=
  s.scalar2 (.divu h w d a b) h 20 d a b (widthOp w divU)
def execRem (h : Hdr) (w : IWidth) (d a b : SReg) (s : State) : Outcome :=
  s.scalar2 (.rem h w d a b) h 20 d a b (widthOp w remS)
def execRemu (h : Hdr) (w : IWidth) (d a b : SReg) (s : State) : Outcome :=
  s.scalar2 (.remu h w d a b) h 20 d a b (widthOp w remU)
def execAnd (h : Hdr) (d a b : SReg) (s : State) : Outcome := s.scalar2 (.and h d a b) h 1 d a b (· &&& ·)
def execOr (h : Hdr) (d a b : SReg) (s : State) : Outcome := s.scalar2 (.or h d a b) h 1 d a b (· ||| ·)
def execXor (h : Hdr) (d a b : SReg) (s : State) : Outcome := s.scalar2 (.xor h d a b) h 1 d a b (· ^^^ ·)
def execAndn (h : Hdr) (d a b : SReg) (s : State) : Outcome :=
  s.scalar2 (.andn h d a b) h 1 d a b fun x y => x &&& ~~~y
def execShl (h : Hdr) (w : IWidth) (d a : SReg) (n : ShAmt) (s : State) : Outcome :=
  s.shiftOp (.shl h w d a n) h w d a n fun x k => x <<< k
def execShr (h : Hdr) (w : IWidth) (d a : SReg) (n : ShAmt) (s : State) : Outcome :=
  s.shiftOp (.shr h w d a n) h w d a n fun x k => x >>> k
def execSra (h : Hdr) (w : IWidth) (d a : SReg) (n : ShAmt) (s : State) : Outcome :=
  s.shiftOp (.sra h w d a n) h w d a n fun x k => x.sshiftRight k
def execRot (h : Hdr) (d a : SReg) (n : ShAmt) (s : State) : Outcome :=
  s.shiftOp (.rot h d a n) h .x64 d a n fun x k => x.rotateRight k
def execClz (h : Hdr) (w : IWidth) (d a : SReg) (s : State) : Outcome :=
  s.scalar1 (.clz h w d a) h 1 d a (widthOp1 w leadingZeros)
def execCtz (h : Hdr) (w : IWidth) (d a : SReg) (s : State) : Outcome :=
  s.scalar1 (.ctz h w d a) h 1 d a (widthOp1 w trailingZeros)
def execPopc (h : Hdr) (w : IWidth) (d a : SReg) (s : State) : Outcome :=
  s.scalar1 (.popc h w d a) h 1 d a (widthOp1 w onesCount)
def execMin (h : Hdr) (w : IWidth) (d a b : SReg) (s : State) : Outcome :=
  s.scalar2 (.min h w d a b) h 1 d a b (widthOp w minS)
def execMax (h : Hdr) (w : IWidth) (d a b : SReg) (s : State) : Outcome :=
  s.scalar2 (.max h w d a b) h 1 d a b (widthOp w maxS)
def execMinu (h : Hdr) (w : IWidth) (d a b : SReg) (s : State) : Outcome :=
  s.scalar2 (.minu h w d a b) h 1 d a b (widthOp w minU)
def execMaxu (h : Hdr) (w : IWidth) (d a b : SReg) (s : State) : Outcome :=
  s.scalar2 (.maxu h w d a b) h 1 d a b (widthOp w maxU)
def execSext (h : Hdr) (x : ExtW) (d a : SReg) (s : State) : Outcome :=
  s.scalar1 (.sext h x d a) h 1 d a (extendOp true x)
def execZext (h : Hdr) (x : ExtW) (d a : SReg) (s : State) : Outcome :=
  s.scalar1 (.zext h x d a) h 1 d a (extendOp false x)
def execBfx (h : Hdr) (signed : Bool) (d a : SReg) (wm1 lsb : Fin 64) (s : State) : Outcome :=
  s.scalar1 (.bfx h signed d a wm1 lsb) h 1 d a fun x => bitField signed x wm1 lsb
/-- `sD` is read interlocked (R121). -/
def execBfi (h : Hdr) (d a : SReg) (wm1 lsb : Fin 64) (s : State) : Outcome :=
  s.scalarOp (.bfi h d a wm1 lsb) h 1 [(.s a, h.pda)] [.s d] d fun r =>
    bitInsert (r.regs.getS d) (r.srcS a h.pda) wm1 lsb
def execMov (h : Hdr) (d a : SReg) (s : State) : Outcome := s.scalar1 (.mov h d a) h 1 d a id
def execMovi (h : Hdr) (d : SReg) (imm : BitVec 32) (s : State) : Outcome :=
  s.scalarOp (.movi h d imm) h 1 [] [] d fun _ => imm.signExtend 64
/-- `sD` is read interlocked (R150). -/
def execMovhi (h : Hdr) (d : SReg) (imm : BitVec 32) (s : State) : Outcome :=
  s.scalarOp (.movhi h d imm) h 1 [] [.s d] d fun r =>
    (imm.setWidth 64 <<< 32) ||| ((r.regs.getS d).setWidth 32).setWidth 64
/-- `pC` is read interlocked (R154). -/
def execSel (h : Hdr) (d a b : SReg) (c : PReg) (s : State) : Outcome :=
  s.scalarOp (.sel h d a b c) h 1 [(.s a, h.pda), (.s b, h.pdb)] [.p c] d fun r =>
    if (r.regs.getP c).getLsbD 0 then r.srcS a h.pda else r.srcS b h.pdb
def execCmp (h : Hdr) (w : IWidth) (k : ICond) (d : PReg) (a : SReg) (b : CmpSrc) (s : State) : Outcome :=
  let srcs := (.s a, h.pda) :: match b with | .reg b => [(.s b, h.pdb)] | .imm _ => []
  s.issue (.cmp h w k d a b) h { srcs := srcs, dsts := [.p d], lat := some 1 } fun s =>
    let f := s.me.live.front
    let y := match b with | .reg b => f.srcS b h.pdb | .imm n => n.signExtend 64
    .next (s.retire h (some 1) { writes := [writeP d (predOf (icondW w k (f.srcS a h.pda) y))] })
def execLea (h : Hdr) (d a b : SReg) (sh : Fin 8) (s : State) : Outcome :=
  s.scalar2 (.lea h d a b sh) h 1 d a b fun x y => x + (y <<< sh.val)

end Sys2Proof.Machine
end

