-- ==== Sys2Proof/Machine/ScalarFp.lean ====
section
/-! DEFINITION. The scalar FP32 instructions (R155 to R157). -/

namespace Sys2Proof.Machine

/-- A scalar FP32 instruction that rounds: latency 4, lane 0's stochastic register, flags (R66, R131, R155).
`f` takes the front end, the mode and the draw. -/
def State.fpOp (s : State) (i : Instr) (h : Hdr) (rm : Rnd) (srcs : List (Reg × Fin 4)) (locks : List Reg) (d : SReg)
    (f : Front → RMode → Nat → Word × FFlags) : Outcome :=
  s.issue i h { srcs := srcs, locks := locks, dsts := [.s d], lat := some 4 } fun s =>
    let r := s.me.live.front
    let m := roundMode rm r.regs.round
    let x := f r m (draw m r 0 1)
    .next (s.retire h (some 4) { writes := [writeS d x.1], flags := x.2, lfsr := some (stepLanes m 1 1 r.regs.lfsr) })

/-- A binary32 operand from bits [31:0] (R155). -/
def f32Of (x : Word) : Num := decF32 (x.setWidth 32)
/-- A binary32 result: bits [63:32] are 0 (R155). -/
def f32Word (x : BitVec 32 × FFlags) : Word × FFlags := (x.1.setWidth 64, x.2)
/-- An exact result rounded, with NV where the operation is invalid (R155). -/
def f32Round (m : RMode) (y : Nat) (x : Num × Bool) : Word × FFlags :=
  let r := arithF32 m y x.1
  (r.1.setWidth 64, r.2 ||| fIf x.2 fNV)

def execFadd (h : Hdr) (rm : Rnd) (d a b : SReg) (s : State) : Outcome :=
  s.fpOp (.fadd h rm d a b) h rm [(.s a, h.pda), (.s b, h.pdb)] [] d fun r m y =>
    f32Round m y (Num.add (f32Of (r.srcS a h.pda)) (f32Of (r.srcS b h.pdb)))
def execFsub (h : Hdr) (rm : Rnd) (d a b : SReg) (s : State) : Outcome :=
  s.fpOp (.fsub h rm d a b) h rm [(.s a, h.pda), (.s b, h.pdb)] [] d fun r m y =>
    f32Round m y (Num.add (f32Of (r.srcS a h.pda)) (f32Of (r.srcS b h.pdb)).negate)
def execFmul (h : Hdr) (rm : Rnd) (d a b : SReg) (s : State) : Outcome :=
  s.fpOp (.fmul h rm d a b) h rm [(.s a, h.pda), (.s b, h.pdb)] [] d fun r m y =>
    f32Round m y (Num.mul (f32Of (r.srcS a h.pda)) (f32Of (r.srcS b h.pdb)))
/-- One rounding of the exact value; `sC` is read interlocked (R155). -/
def execFfma (h : Hdr) (rm : Rnd) (d a b c : SReg) (s : State) : Outcome :=
  s.fpOp (.ffma h rm d a b c) h rm [(.s a, h.pda), (.s b, h.pdb)] [.s c] d fun r m y =>
    f32Round m y (fmaExact (f32Of (r.srcS a h.pda)) (f32Of (r.srcS b h.pdb)) (f32Of (r.regs.getS c)))
def execFmin (h : Hdr) (d a b : SReg) (s : State) : Outcome :=
  s.scalar2 (.fmin h d a b) h 4 d a b fun x y =>
    BitVec.ofNat 64 (minMaxCode descF32 false (x.toNat % 2 ^ 32) (y.toNat % 2 ^ 32))
def execFmax (h : Hdr) (d a b : SReg) (s : State) : Outcome :=
  s.scalar2 (.fmax h d a b) h 4 d a b fun x y =>
    BitVec.ofNat 64 (minMaxCode descF32 true (x.toNat % 2 ^ 32) (y.toNat % 2 ^ 32))
def execFcmp (h : Hdr) (k : FCond) (d : PReg) (a b : SReg) (s : State) : Outcome :=
  s.issue (.fcmp h k d a b) h { srcs := [(.s a, h.pda), (.s b, h.pdb)], dsts := [.p d], lat := some 4 } fun s =>
    let r := s.me.live.front
    let x := fcmpCode k ((r.srcS a h.pda).setWidth 32) ((r.srcS b h.pdb).setWidth 32)
    .next (s.retire h (some 4) { writes := [writeP d (predOf x.1)], flags := x.2 })

/-- The conversions of R157. -/
def fconv (k : FConv) (m : RMode) (sat : Bool) (y : Nat) (x : Word) : Word × FFlags :=
  match k with
  | .f2i => let r := convInt (-2 ^ 31) (2 ^ 31 - 1) m y (f32Of x)
    (BitVec.ofInt 64 r.1, r.2)
  | .i2f => f32Word (arithF32 m y (Num.ofInt (x.setWidth 32).toInt))
  | .f2bf => let r := descBf16.conv true m sat y (f32Of x)
    (BitVec.ofNat 64 r.1, r.2)
  | .bf2f => (((x.setWidth 16).setWidth 64) <<< 16, 0)
  | .f2l => let r := convInt (-2 ^ 63) (2 ^ 63 - 1) m y (f32Of x)
    (BitVec.ofInt 64 r.1, r.2)
  | .l2f => f32Word (arithF32 m y (Num.ofInt x.toInt))
def execFcvt (h : Hdr) (k : FConv) (rm : Rnd) (sat : Bool) (d a : SReg) (s : State) : Outcome :=
  s.fpOp (.fcvt h k rm sat d a) h rm [(.s a, h.pda)] [] d fun r m y => fconv k m sat y (r.srcS a h.pda)

end Sys2Proof.Machine
end

