-- ==== Sys2Proof/Machine/Special.lean ====
section
/-! DEFINITION. The special functions (R179, R180): the exact value, rounded once. Algebraic functions are
computed from an integer quotient or root with a sticky bit; the others in fixed point, far beyond the precision of binary32. -/

namespace Sys2Proof.Machine

/-- floor(sqrt n) for n < 4^k. -/
def isqrtGo (n : Nat) : Nat → Nat → Nat
  | 0, r => r
  | k + 1, r =>
    let c := r + 2 ^ k
    isqrtGo n k (if c * c ≤ n then c else r)
def isqrt (k n : Nat) : Nat := isqrtGo n k 0

/-- Fraction bits of the fixed-point enclosures. -/
def fixP : Nat := 200
/-- Units by which a fixed-point series may fall short. -/
def fixErr : Nat := 2 ^ 12

/-- Sum of z^(2k+1)/(2k+1) in fixed point; `pw` is z^(2k+1). -/
def atanhGo (z2 : Nat) : Nat → Nat → Nat → Nat → Nat
  | 0, _, _, acc => acc
  | fuel + 1, k, pw, acc => atanhGo z2 fuel (k + 1) (pw * z2 / 2 ^ fixP) (acc + pw / (2 * k + 1))
/-- ln(n/d) in fixed point for 1 ≤ n/d ≤ 2, by 2·atanh((n−d)/(n+d)). -/
def lnFix (n d : Nat) : Nat :=
  let z := (n - d) * 2 ^ fixP / (n + d)
  2 * atanhGo (z * z / 2 ^ fixP) 72 0 z 0
def ln2Fix : Nat := lnFix 2 1
/-- Sum of t^k/k! in fixed point. -/
def expGo (t : Nat) : Nat → Nat → Nat → Nat → Nat
  | 0, _, _, acc => acc
  | fuel + 1, k, term, acc => expGo t fuel (k + 1) (term * t / 2 ^ fixP / (k + 1)) (acc + term)
/-- 2^f in fixed point, for f a fixed-point fraction below 1. -/
def exp2Fix (f : Nat) : Nat := expGo (f * ln2Fix / 2 ^ fixP) 56 0 (2 ^ fixP) 0

/-- FP32 result of an inexact magnitude that lies in [lo, lo + err] times 2^e (R180): that of the middle, which stands as
close to the exact value as the fixed point allows (log 7). -/
def encloseF32 (neg : Bool) (lo err : Nat) (e : Int) : BitVec 32 × FFlags :=
  arithF32 .rne 0 (.fin neg (2 * (lo + err / 2) + 1) (e - 1))

/-- An exact magnitude m·2^e with a sticky bit. -/
def stickyF32 (rm : RMode) (y : Nat) (neg exact : Bool) (m : Nat) (e : Int) : BitVec 32 × FFlags :=
  arithF32 rm y (.fin neg (2 * m + if exact then 0 else 1) (e - 1))

def canonNaN : BitVec 32 := 0x7FC00000#32
def infF32 (neg : Bool) : BitVec 32 := if neg then 0xFF800000#32 else 0x7F800000#32
def oneF32 : BitVec 32 := 0x3F800000#32

/-- 2^x (R179). -/
def spExp2 (a : BitVec 32) : BitVec 32 × FFlags :=
  match decF32 a with
  | .nan => (canonNaN, 0)
  | .inf n => (if n then 0 else infF32 false, 0)
  | .fin n m e =>
    if m = 0 then (oneF32, 0)
    else if e + (Nat.log2 m : Nat) < -26 then encloseF32 false (if n then 2 ^ 60 - 1 else 2 ^ 60) 0 (-60)
    else if 9 ≤ e + (Nat.log2 m : Nat) then arithF32 .rne 0 (.fin false 1 (if n then -600 else 600))
    else
      let v : Int := (if n then -(m : Int) else m) * 2 ^ (e + 60).toNat
      let k := v / 2 ^ 60
      let f := (v % 2 ^ 60).toNat
      if f = 0 then arithF32 .rne 0 (.fin false 1 k)
      else encloseF32 false (exp2Fix (f * 2 ^ (fixP - 60))) fixErr (k - fixP)

/-- log2 x (R179). -/
def spLog2 (a : BitVec 32) : BitVec 32 × FFlags :=
  match decF32 a with
  | .nan => (canonNaN, 0)
  | .inf n => if n then (canonNaN, fNV) else (infF32 false, 0)
  | .fin n m e =>
    if m = 0 then (infF32 true, fDZ)
    else if n then (canonNaN, fNV)
    else
      let l := Nat.log2 m
      let k : Int := e + l
      if m = 2 ^ l then arithF32 .rne 0 (Num.ofInt k)
      else
        let fr := lnFix m (2 ^ l) * 2 ^ fixP / ln2Fix
        let v : Int := k * 2 ^ fixP + fr
        if 0 ≤ v then encloseF32 false (v.toNat - fixErr) (2 * fixErr) (-fixP)
        else encloseF32 true ((-v).toNat - fixErr) (2 * fixErr) (-fixP)

/-- 1 ÷ x (R179). -/
def spRcp (a : BitVec 32) : BitVec 32 × FFlags :=
  match decF32 a with
  | .nan => (canonNaN, 0)
  | .inf n => (BitVec.ofNat 32 (descF32.signed n 0), 0)
  | .fin n m e =>
    if m = 0 then (infF32 n, fDZ)
    else stickyF32 .rne 0 n (2 ^ 100 % m == 0) (2 ^ 100 / m) (-100 - e)

/-- √x (R179), rounded by the instruction's mode. -/
def spSqrt (rm : RMode) (y : Nat) (a : BitVec 32) : BitVec 32 × FFlags :=
  match decF32 a with
  | .nan => (canonNaN, 0)
  | .inf n => if n then (canonNaN, fNV) else (infF32 false, 0)
  | .fin n m e =>
    if m = 0 then (a, 0)
    else if n then (canonNaN, fNV)
    else
      let par := (e % 2).toNat
      let v := m * 2 ^ (100 + par)
      let r := isqrt 64 v
      stickyF32 rm y false (r * r == v) r ((e - par - 100) / 2)

/-- 1 ÷ √x (R179). -/
def spRsqrt (a : BitVec 32) : BitVec 32 × FFlags :=
  match decF32 a with
  | .nan => (canonNaN, 0)
  | .inf n => if n then (canonNaN, fNV) else (0, 0)
  | .fin n m e =>
    if m = 0 then (infF32 n, fDZ)
    else if n then (canonNaN, fNV)
    else
      let par := (e % 2).toNat
      let v := m * 2 ^ par
      let r := isqrt 80 (2 ^ 140 / v)
      stickyF32 .rne 0 false (r * r * v == 2 ^ 140) r (-70 - (e - par) / 2)

/-- e^(−x) for a positive x = m·2^e below 2^8, as a mantissa in fixed point and an exponent. -/
def expNeg (m : Nat) (e : Int) : Nat × Int :=
  -- −x·log2(e) split into an integer and a fraction, all in fixed point
  let x := if 0 ≤ e then m * 2 ^ (fixP + e.toNat) else m * 2 ^ fixP / 2 ^ (-e).toNat
  let v : Int := -((x * 2 ^ fixP / ln2Fix : Nat) : Int)
  (exp2Fix (v % 2 ^ fixP).toNat, v / 2 ^ fixP)

/-- tanh x (R179). -/
def spTanh (a : BitVec 32) : BitVec 32 × FFlags :=
  match decF32 a with
  | .nan => (canonNaN, 0)
  | .inf n => (BitVec.ofNat 32 (descF32.signed n 0x3F800000), 0)
  | .fin n m e =>
    if m = 0 then (a, 0)
    else
      let top := e + (Nat.log2 m : Nat)
      if top < -13 then arithF32 .rne 0 (.fin n (m * 2 ^ 60 - 1) (e - 60))
      else if 4 ≤ top then arithF32 .rne 0 (.fin n (2 ^ 60 - 1) (-60))
      else
        let t := expNeg m (e + 1)
        let d := t.1 / 2 ^ (-t.2).toNat
        let one := 2 ^ fixP
        encloseF32 n ((one - d) * 2 ^ fixP / (one + d) - 2 ^ 20) (2 ^ 21) (-fixP)

/-- 1 ÷ (1 + e^(−x)) (R179). -/
def spSigm (a : BitVec 32) : BitVec 32 × FFlags :=
  match decF32 a with
  | .nan => (canonNaN, 0)
  | .inf n => (if n then 0 else oneF32, 0)
  | .fin n m e =>
    if m = 0 then (0x3F000000#32, 0)
    else
      let top := e + (Nat.log2 m : Nat)
      if top < -26 then arithF32 .rne 0 (.fin false (if n then 2 ^ 60 - 1 else 2 ^ 60 + 1) (-61))
      else if 7 ≤ top then
        (if n then arithF32 .rne 0 (.fin false 1 (-200)) else arithF32 .rne 0 (.fin false (2 ^ 60 - 1) (-60)))
      else
        let t := expNeg m e
        let k := (-t.2).toNat
        if n then encloseF32 false (t.1 * 2 ^ (fixP + k) / (2 ^ (fixP + k) + t.1) - 2 ^ 20) (2 ^ 21) (-(fixP + k : Nat))
        else encloseF32 false (2 ^ (2 * fixP + k) / (2 ^ (fixP + k) + t.1) - 2 ^ 20) (2 ^ 21) (-fixP)

end Sys2Proof.Machine
end

