-- ==== Sys2Proof/Machine/Vector.lean ====
section
/-! DEFINITION. The element-wise vector instructions and the special functions (R170 to R180). -/

namespace Sys2Proof.Machine

/-- Element width in bits (R170). -/
def VTy.width : VTy → Nat
  | .f32 => 32
  | .bf16 => 16
  | .i32 => 32
  | .i16 => 16
  | .i8 => 8
/-- The float format of a type. -/
def VTy.float : VTy → Option FDesc
  | .f32 => some descF32
  | .bf16 => some descBf16
  | _ => none
/-- The format of a float type. -/
def FTy.desc : FTy → FDesc
  | .f32 => descF32
  | .bf16 => descBf16
/-- Element width of a float type. -/
def FTy.width : FTy → Nat
  | .f32 => 32
  | .bf16 => 16
/-- Element width of an integer type. -/
def ITy.width : ITy → Nat
  | .i32 => 32
  | .i16 => 16
  | .i8 => 8
/-- Fixed latency by type (R131). -/
def vecLat (float : Bool) : Nat := if float then 4 else 2

/-- Element j of a lane (R170). -/
def elem (w j : Nat) (x : Lane) : Nat := x.toNat / 2 ^ (w * j) % 2 ^ w
/-- A lane from its elements, with the OR of their flags. -/
def packLane (w : Nat) (f : Nat → Nat × FFlags) : Lane × FFlags :=
  let r := (List.range (32 / w)).foldr (fun j (n : Nat × FFlags) =>
    let x := f j
    (x.1 % 2 ^ w + 2 ^ w * n.1, x.2 ||| n.2)) (0, 0)
  (BitVec.ofNat 32 r.1, r.2)
/-- The lanes of a mask computed, ascending, with the OR of their flags (R173). -/
def computeLanes (m : Word) (f : Nat → Lane × FFlags) : VecWord × FFlags :=
  let r := (List.range 64).foldr (fun i (n : Nat × FFlags) =>
    if m.getLsbD i then
      let x := f i
      (x.1.toNat + 2 ^ 32 * n.1, x.2 ||| n.2)
    else (2 ^ 32 * n.1, n.2)) (0, 0)
  (BitVec.ofNat 2048 r.1, r.2)

/-- A lane-wise instruction of fixed latency (R171): `f` gives an active lane from the front end and the mode;
under RSR each active lane steps n times (R66). -/
def State.laneOp (s : State) (i : Instr) (h : Hdr) (lat : Nat) (srcs : List (Reg × Fin 4)) (locks : List Reg) (d : VReg)
    (rm : Rnd) (n : Nat) (f : Front → RMode → Nat → Lane × FFlags) (feature : Nat := 0) : Outcome :=
  s.issue i h { srcs := srcs, locks := locks, dsts := [.v d], lat := some lat, lanewise := true, feature := feature } fun s =>
    let r := s.me.live.front
    let m := roundMode rm r.regs.round
    let p := r.predicate h
    let x := computeLanes p (f r m)
    .next (s.retire h (some lat) { writes := [writeV d x.1 p], flags := x.2, lfsr := some (stepLanes m p n r.regs.lfsr) })
/-- One vector source, no rounding. -/
def State.lane1 (s : State) (i : Instr) (h : Hdr) (lat : Nat) (d a : VReg) (f : Lane → Lane) : Outcome :=
  s.laneOp i h lat [(.v a, h.pda)] [] d .rne 0 fun r _ k => (f (lane (r.srcV a h.pda) k), 0)
/-- Two vector sources, no rounding. -/
def State.lane2 (s : State) (i : Instr) (h : Hdr) (lat : Nat) (d a b : VReg) (f : Lane → Lane → Lane × FFlags) : Outcome :=
  s.laneOp i h lat [(.v a, h.pda), (.v b, h.pdb)] [] d .rne 0 fun r _ k =>
    f (lane (r.srcV a h.pda) k) (lane (r.srcV b h.pdb) k)

/-- One float element: its exact value rounded, NV where the formula is invalid (R175). -/
def floatElem (fd : FDesc) (m : RMode) (y : Nat) (x : Num × Bool) : Nat × FFlags :=
  let r := fd.arith m y x.1
  (r.1, r.2 ||| fIf x.2 fNV)
/-- A two-source operation over the elements of each active lane, exact on floats and on signed integers
(R174, R175, R176). -/
def State.elem2 (s : State) (i : Instr) (h : Hdr) (t : VTy) (rm : Rnd) (d a b : VReg) (ff : Num → Num → Num × Bool)
    (fi : Int → Int → Int) : Outcome :=
  let w := VTy.width t
  s.laneOp i h (vecLat (VTy.float t).isSome) [(.v a, h.pda), (.v b, h.pdb)] [] d rm (32 / w) fun r m k =>
    let x := lane (r.srcV a h.pda) k
    let y := lane (r.srcV b h.pdb) k
    packLane w fun j => match VTy.float t with
      | some fd => floatElem fd m (draw m r k (j + 1)) (ff (fd.decode (elem w j x)) (fd.decode (elem w j y)))
      | none => (ofSigned w (fi (toSigned w (elem w j x)) (toSigned w (elem w j y))), 0)
/-- A fused operation over the float elements of each active lane; `vC` is read interlocked (R174). -/
def State.elem3 (s : State) (i : Instr) (h : Hdr) (t : FTy) (rm : Rnd) (d a b c : VReg)
    (ff : Num → Num → Num → Num × Bool) : Outcome :=
  let w := FTy.width t
  let fd := FTy.desc t
  s.laneOp i h 4 [(.v a, h.pda), (.v b, h.pdb)] [.v c] d rm (32 / w) fun r m k =>
    let x := lane (r.srcV a h.pda) k
    let y := lane (r.srcV b h.pdb) k
    let z := lane (r.regs.getV c) k
    packLane w fun j => floatElem fd m (draw m r k (j + 1))
      (ff (fd.decode (elem w j x)) (fd.decode (elem w j y)) (fd.decode (elem w j z)))

def execVadd (h : Hdr) (t : VTy) (rm : Rnd) (d a b : VReg) (s : State) : Outcome :=
  s.elem2 (.vadd h t rm d a b) h t rm d a b Num.add (· + ·)
def execVsub (h : Hdr) (t : VTy) (rm : Rnd) (d a b : VReg) (s : State) : Outcome :=
  s.elem2 (.vsub h t rm d a b) h t rm d a b (fun x y => x.add y.negate) (· - ·)
def execVmul (h : Hdr) (t : VTy) (rm : Rnd) (d a b : VReg) (s : State) : Outcome :=
  s.elem2 (.vmul h t rm d a b) h t rm d a b Num.mul (· * ·)
def execVfma (h : Hdr) (t : FTy) (rm : Rnd) (d a b c : VReg) (s : State) : Outcome :=
  s.elem3 (.vfma h t rm d a b c) h t rm d a b c fmaExact
def execVfms (h : Hdr) (t : FTy) (rm : Rnd) (d a b c : VReg) (s : State) : Outcome :=
  s.elem3 (.vfms h t rm d a b c) h t rm d a b c fun x y z => fmaExact x y z.negate
def execVnfma (h : Hdr) (t : FTy) (rm : Rnd) (d a b c : VReg) (s : State) : Outcome :=
  s.elem3 (.vnfma h t rm d a b c) h t rm d a b c fun x y z => fmaExact x.negate y z

/-- The smaller or the larger element (R175, R176). -/
def minMaxElem (t : VTy) (larger u : Bool) (x y : Nat) : Nat :=
  let w := VTy.width t
  match VTy.float t with
  | some fd => minMaxCode fd larger x y
  | none =>
    let less := if u then decide (x < y) else decide (toSigned w x < toSigned w y)
    if less == larger then y else x
def execVmin (h : Hdr) (t : VTy) (u : Bool) (d a b : VReg) (s : State) : Outcome :=
  s.lane2 (.vmin h t u d a b) h (vecLat (VTy.float t).isSome) d a b fun x y =>
    packLane (VTy.width t) fun j => (minMaxElem t false u (elem (VTy.width t) j x) (elem (VTy.width t) j y), 0)
def execVmax (h : Hdr) (t : VTy) (u : Bool) (d a b : VReg) (s : State) : Outcome :=
  s.lane2 (.vmax h t u d a b) h (vecLat (VTy.float t).isSome) d a b fun x y =>
    packLane (VTy.width t) fun j => (minMaxElem t true u (elem (VTy.width t) j x) (elem (VTy.width t) j y), 0)

/-- The absolute value of an element (R175, R176): a float keeps its NaN payload. -/
def absElem (t : VTy) (x : Nat) : Nat :=
  let w := VTy.width t
  match VTy.float t with
  | some _ => x % 2 ^ (w - 1)
  | none => ofSigned w (toSigned w x).natAbs
/-- The negation of an element (R175, R176). -/
def negElem (t : VTy) (x : Nat) : Nat :=
  let w := VTy.width t
  match VTy.float t with
  | some _ => (x + 2 ^ (w - 1)) % 2 ^ w
  | none => ofSigned w (-toSigned w x)
def execVabs (h : Hdr) (t : VTy) (d a : VReg) (s : State) : Outcome :=
  s.lane1 (.vabs h t d a) h 2 d a fun x => (packLane (VTy.width t) fun j => (absElem t (elem (VTy.width t) j x), 0)).1
def execVneg (h : Hdr) (t : VTy) (d a : VReg) (s : State) : Outcome :=
  s.lane1 (.vneg h t d a) h 2 d a fun x => (packLane (VTy.width t) fun j => (negElem t (elem (VTy.width t) j x), 0)).1

/-- The condition of `vcmp` on a lane, with NV (R178). -/
def vcond (k : VCond) (x y : Lane) : Bool × FFlags :=
  match k with
  | .f k => fcmpCode k x y
  | .i k => (icond k x y, 0)
/-- Sets the bits of active lanes only (R172, R178). -/
def execVcmp (h : Hdr) (k : VCond) (d : PReg) (a b : VReg) (s : State) : Outcome :=
  let lat := match k with | .f _ => 4 | .i _ => 2
  s.issue (.vcmp h k d a b) h
    { srcs := [(.v a, h.pda), (.v b, h.pdb)], dsts := [.p d], lat := some lat, lanewise := true } fun s =>
    let r := s.me.live.front
    let p := r.predicate h
    let x := r.srcV a h.pda
    let y := r.srcV b h.pdb
    let f := fun i => vcond k (lane x i) (lane y i)
    let bits := BitVec.ofNat 64 ((activeLanes p).foldl (fun n i => if (f i).1 then n + 2 ^ i else n) 0)
    let fl := (activeLanes p).foldl (fun n i => n ||| (f i).2) 0
    .next (s.retire h (some lat) { writes := [(.p d, wordOf bits, wordOf p)], flags := fl })
def execVsel (h : Hdr) (d a b : VReg) (c : PReg) (s : State) : Outcome :=
  s.laneOp (.vsel h d a b c) h 2 [(.v a, h.pda), (.v b, h.pdb)] [.p c] d .rne 0 fun r _ k =>
    (if (r.regs.getP c).getLsbD k then lane (r.srcV a h.pda) k else lane (r.srcV b h.pdb) k, 0)
def execVand (h : Hdr) (d a b : VReg) (s : State) : Outcome :=
  s.lane2 (.vand h d a b) h 2 d a b fun x y => (x &&& y, 0)
def execVor (h : Hdr) (d a b : VReg) (s : State) : Outcome :=
  s.lane2 (.vor h d a b) h 2 d a b fun x y => (x ||| y, 0)
def execVxor (h : Hdr) (d a b : VReg) (s : State) : Outcome :=
  s.lane2 (.vxor h d a b) h 2 d a b fun x y => (x ^^^ y, 0)
def execVnot (h : Hdr) (d a : VReg) (s : State) : Outcome :=
  s.lane1 (.vnot h d a) h 2 d a fun x => ~~~x

/-- A vector shift (R176): the amount is the low log2(w) bits of element b, or n. -/
def State.vshift (s : State) (i : Instr) (h : Hdr) (t : ITy) (d a : VReg) (n : VShAmt) (f : Nat → Nat → Nat → Nat) : Outcome :=
  let w := ITy.width t
  match n with
  | .reg b => s.lane2 i h 2 d a b fun x y => packLane w fun j => (f w (elem w j x) (elem w j y % w), 0)
  | .imm n => s.lane1 i h 2 d a fun x => (packLane w fun j => (f w (elem w j x) n.val, 0)).1
def execVshl (h : Hdr) (t : ITy) (d a : VReg) (n : VShAmt) (s : State) : Outcome :=
  s.vshift (.vshl h t d a n) h t d a n fun w x k => x * 2 ^ k % 2 ^ w
def execVshr (h : Hdr) (t : ITy) (d a : VReg) (n : VShAmt) (s : State) : Outcome :=
  s.vshift (.vshr h t d a n) h t d a n fun _ x k => x / 2 ^ k
def execVsra (h : Hdr) (t : ITy) (d a : VReg) (n : VShAmt) (s : State) : Outcome :=
  s.vshift (.vsra h t d a n) h t d a n fun w x k => ofSigned w (toSigned w x / 2 ^ k)

/-- An element as signed or unsigned. -/
def intElem (w : Nat) (u : Bool) (x : Nat) : Int := if u then (x : Int) else toSigned w x
/-- Clamping to the range of a type, with ISAT (R176). -/
def clampElem (w : Nat) (u : Bool) (x : Int) : Nat × FFlags :=
  let lo : Int := if u then 0 else -2 ^ (w - 1)
  let hi : Int := if u then 2 ^ w - 1 else 2 ^ (w - 1) - 1
  if x < lo then (ofSigned w lo, fISAT) else if hi < x then (ofSigned w hi, fISAT) else (ofSigned w x, 0)
def execVadds (h : Hdr) (t : ITy) (u subtract : Bool) (d a b : VReg) (s : State) : Outcome :=
  let w := ITy.width t
  s.lane2 (.vadds h t u subtract d a b) h 2 d a b fun x y => packLane w fun j =>
    let p := intElem w u (elem w j x)
    let q := intElem w u (elem w j y)
    clampElem w u (if subtract then p - q else p + q)
def execVmulh (h : Hdr) (t : ITy) (u : Bool) (d a b : VReg) (s : State) : Outcome :=
  let w := ITy.width t
  s.lane2 (.vmulh h t u d a b) h 2 d a b fun x y => packLane w fun j =>
    (ofSigned w (intElem w u (elem w j x) * intElem w u (elem w j y) / 2 ^ w), 0)

/-- One lane of `vdot2.bf16` (R177): one rounding of the exact value. -/
def dotBf16 (m : RMode) (y : Nat) (a b c : Lane) : Lane × FFlags :=
  let p0 := (descBf16.decode (elem 16 0 a)).mul (descBf16.decode (elem 16 0 b))
  let p1 := (descBf16.decode (elem 16 1 a)).mul (descBf16.decode (elem 16 1 b))
  let q := p0.1.add p1.1
  let z := q.1.add (decF32 c)
  let r := arithF32 m y z.1
  (r.1, r.2 ||| fIf (p0.2 || p1.2 || q.2 || z.2) fNV)
/-- One lane of `vdot2.i16` (R177). -/
def dotI16 (a b c : Lane) : Lane :=
  BitVec.ofInt 32 (c.toInt + toSigned 16 (elem 16 0 a) * toSigned 16 (elem 16 0 b)
    + toSigned 16 (elem 16 1 a) * toSigned 16 (elem 16 1 b))
def execVdot2 (h : Hdr) (flt : Bool) (rm : Rnd) (d a b c : VReg) (s : State) : Outcome :=
  s.laneOp (.vdot2 h flt rm d a b c) h 4 [(.v a, h.pda), (.v b, h.pdb)] [.v c] d rm 1 fun r m k =>
    let x := lane (r.srcV a h.pda) k
    let y := lane (r.srcV b h.pdb) k
    let z := lane (r.regs.getV c) k
    if flt then dotBf16 m (draw m r k 1) x y z else (dotI16 x y z, 0)

/-- A special function (R179): variable latency, at least 10 cycles (R134). -/
def State.specialOp (s : State) (i : Instr) (h : Hdr) (rm : Rnd) (d a : VReg) (f : RMode → Nat → Lane → Lane × FFlags) :
    Outcome :=
  s.issue i h { srcs := [(.v a, h.pda)], dsts := [.v d], lanewise := true } fun s =>
    let r := s.me.live.front
    let m := roundMode rm r.regs.round
    let p := r.predicate h
    let x := computeLanes p fun k => f m (draw m r k 1) (lane (r.srcV a h.pda) k)
    .next (s.retire h none
      { lfsr := some (stepLanes m p 1 r.regs.lfsr)
        pend := some { r.pendOf (.v d) (laneMask p) (s.cycle + 10) (some x.1) with flags := x.2 } })
def execVexp2 (h : Hdr) (d a : VReg) (s : State) : Outcome :=
  s.specialOp (.vexp2 h d a) h .rne d a fun _ _ x => spExp2 x
def execVlog2 (h : Hdr) (d a : VReg) (s : State) : Outcome :=
  s.specialOp (.vlog2 h d a) h .rne d a fun _ _ x => spLog2 x
def execVrcp (h : Hdr) (d a : VReg) (s : State) : Outcome :=
  s.specialOp (.vrcp h d a) h .rne d a fun _ _ x => spRcp x
def execVrsqrt (h : Hdr) (d a : VReg) (s : State) : Outcome :=
  s.specialOp (.vrsqrt h d a) h .rne d a fun _ _ x => spRsqrt x
def execVsqrt (h : Hdr) (rm : Rnd) (d a : VReg) (s : State) : Outcome :=
  s.specialOp (.vsqrt h rm d a) h rm d a fun m y x => spSqrt m y x
def execVtanh (h : Hdr) (d a : VReg) (s : State) : Outcome :=
  s.specialOp (.vtanh h d a) h .rne d a fun _ _ x => spTanh x
def execVsigm (h : Hdr) (d a : VReg) (s : State) : Outcome :=
  s.specialOp (.vsigm h d a) h .rne d a fun _ _ x => spSigm x

end Sys2Proof.Machine
end

