-- ==== Sys2Proof/Machine/VectorMove.lean ====
section
/-! DEFINITION. Moving lanes, reductions, scans, ranking, and the sparse instructions (R181 to R187). -/

namespace Sys2Proof.Machine

def execVbcast (h : Hdr) (d : VReg) (a : VBcastSrc) (s : State) : Outcome :=
  match a with
  | .scalar x => s.laneOp (.vbcast h d a) h 3 [(.s x, h.pda)] [] d .rne 0 fun r _ _ => ((r.srcS x h.pda).setWidth 32, 0)
  | .lane x n => s.laneOp (.vbcast h d a) h 3 [(.v x, h.pda)] [] d .rne 0 fun r _ _ => (lane (r.srcV x h.pda) n.val, 0)
/-- `vmov.x` is a whole instruction; `vmov.i` writes one lane, if it is active (R181). -/
def execVmov (h : Hdr) (f : VMovForm) (s : State) : Outcome :=
  match f with
  | .mov d a => s.lane1 (.vmov h f) h 3 d a id
  | .extract d a n => s.scalarOp (.vmov h f) h 3 [(.v a, h.pda)] [] d fun r => (lane (r.srcV a h.pda) n.val).setWidth 64
  | .insert d a n =>
    s.issue (.vmov h f) h { srcs := [(.s a, h.pda)], dsts := [.v d], lat := some 3, lanewise := true } fun s =>
      let r := s.me.live.front
      let x := ofLanes fun _ => (r.srcS a h.pda).setWidth 32
      .next (s.retire h (some 3) { writes := [writeV d x (r.predicate h &&& BitVec.ofNat 64 (2 ^ n.val))] })
def execVperm (h : Hdr) (d a b : VReg) (s : State) : Outcome :=
  s.laneOp (.vperm h d a b) h 3 [(.v a, h.pda), (.v b, h.pdb)] [] d .rne 0 fun r _ k =>
    (lane (r.srcV a h.pda) ((lane (r.srcV b h.pdb) k).toNat % 64), 0)

/-- The amount of `vrot` and `vslide`: its source, and its value modulo 64 (R181). -/
def RotAmt.src (n : RotAmt) (pd : Fin 4) : List (Reg × Fin 4) :=
  match n with
  | .reg b => [(.s b, pd)]
  | .imm _ => []
def RotAmt.value (n : RotAmt) (r : Front) (pd : Fin 4) : Nat :=
  match n with
  | .reg b => (r.srcS b pd).toNat % 64
  | .imm n => n.val
def execVrot (h : Hdr) (d a : VReg) (n : RotAmt) (s : State) : Outcome :=
  s.laneOp (.vrot h d a n) h 3 ((.v a, h.pda) :: RotAmt.src n h.pdb) [] d .rne 0 fun r _ k =>
    (lane (r.srcV a h.pda) ((k + RotAmt.value n r h.pdb) % 64), 0)
/-- R182; `vC` is read interlocked. -/
def execVslide (h : Hdr) (up : Bool) (d a c : VReg) (n : RotAmt) (s : State) : Outcome :=
  s.laneOp (.vslide h up d a c n) h 3 ((.v a, h.pda) :: RotAmt.src n h.pdb) [.v c] d .rne 0 fun r _ k =>
    let n := RotAmt.value n r h.pdb
    let x := r.srcV a h.pda
    let z := r.regs.getV c
    (if up then (if n ≤ k then lane x (k - n) else lane z (k + 64 - n))
     else (if k + n < 64 then lane x (k + n) else lane z (k + n - 64)), 0)
/-- Number of 1 bits below bit i. -/
def onesBelow (m : Word) (i : Nat) : Nat := (List.range i).countP fun j => m.getLsbD j
def execVcompact (h : Hdr) (d a : VReg) (c : PReg) (s : State) : Outcome :=
  s.laneOp (.vcompact h d a c) h 3 [(.v a, h.pda)] [.p c] d .rne 0 fun r _ k =>
    (match (activeLanes (r.regs.getP c))[k]? with
     | some j => lane (r.srcV a h.pda) j
     | none => 0, 0)
def execVexpand (h : Hdr) (d a : VReg) (c : PReg) (s : State) : Outcome :=
  s.laneOp (.vexpand h d a c) h 3 [(.v a, h.pda)] [.p c] d .rne 0 fun r _ k =>
    let m := r.regs.getP c
    (if m.getLsbD k then lane (r.srcV a h.pda) (onesBelow m k) else 0, 0)

/-- The lane tree (R183): node k of a level over selected leaves. -/
def laneNode {α : Type} (combine : α → α → α) (leaf : Nat → Option α) : Nat → Nat → Option α
  | 0, k => leaf k
  | n + 1, k =>
    match laneNode combine leaf n (2 * k), laneNode combine leaf n (2 * k + 1) with
    | none, y => y
    | x, none => x
    | some x, some y => some (combine x y)
/-- The FP32 combine with its flags (R183). -/
def combineF (x y : Lane × FFlags) : Lane × FFlags :=
  let z := Num.add (decF32 x.1) (decF32 y.1)
  let r := arithF32 .rne 0 z.1
  (r.1, x.2 ||| y.2 ||| r.2 ||| fIf z.2 fNV)
/-- Leaves of an FP32 sum: the selected lanes. -/
def leafF32 (x : VecWord) (m : Word) (k : Nat) : Option (Lane × FFlags) := if m.getLsbD k then some (lane x k, 0) else none
/-- Leaves of a BF16 sum: the elements of the selected lanes, widened exactly. -/
def leafBf16 (x : VecWord) (m : Word) (k : Nat) : Option (Lane × FFlags) :=
  if m.getLsbD (k / 2) then some (BitVec.ofNat 32 (elem 16 (k % 2) (lane x (k / 2)) * 2 ^ 16), 0) else none

/-- A reduction (R184): a whole instruction of latency 8, over the lanes that `pC` selects. -/
def State.reduceOp (s : State) (i : Instr) (h : Hdr) (d : SReg) (a : VReg) (c : PReg)
    (f : VecWord → Word → Word × FFlags) : Outcome :=
  s.issue i h { srcs := [(.v a, h.pda)], locks := [.p c], dsts := [.s d], lat := some 8 } fun s =>
    let r := s.me.live.front
    let x := f (r.srcV a h.pda) (r.regs.getP c)
    .next (s.retire h (some 8) { writes := [writeS d x.1], flags := x.2 })
/-- The sums of R184. -/
def redSum (t : RedTy) (x : VecWord) (m : Word) : Word × FFlags :=
  match t with
  | .f32 => let r := (laneNode combineF (leafF32 x m) 6 0).getD (0, 0); (r.1.setWidth 64, r.2)
  | .bf16 => let r := (laneNode combineF (leafBf16 x m) 7 0).getD (0, 0); (r.1.setWidth 64, r.2)
  | .i32 => (BitVec.ofInt 64 ((activeLanes m).foldl (fun n k => n + (lane x k).toInt) 0), 0)
/-- The extreme FP32 value of the selected lanes (R184). -/
def redExtF (larger : Bool) (x : VecWord) (m : Word) : Lane :=
  match activeLanes m with
  | [] => infF32 larger
  | sel =>
    match sel.filter fun k => !(decF32 (lane x k)).isNan with
    | [] => canonNaN
    | k :: ks => ks.foldl (fun n k => BitVec.ofNat 32 (minMaxCode descF32 larger n.toNat (lane x k).toNat)) (lane x k)
/-- The extreme integer of the selected lanes (R184). -/
def redExtI (u larger : Bool) (x : VecWord) (m : Word) : Int :=
  let val := fun k => if u then ((lane x k).toNat : Int) else (lane x k).toInt
  let lo : Int := if u then 0 else -2 ^ 31
  let hi : Int := if u then 2 ^ 32 - 1 else 2 ^ 31 - 1
  (activeLanes m).foldl (fun n k => if larger then max n (val k) else min n (val k)) (if larger then lo else hi)
/-- `vredmax` and `vredmin` (R184). -/
def redExt (t : ExtTy) (larger : Bool) (x : VecWord) (m : Word) : Word × FFlags :=
  match t with
  | .f32 => ((redExtF larger x m).setWidth 64, 0)
  | .i32 => (BitVec.ofInt 64 (redExtI false larger x m), 0)
  | .u32 => (BitVec.ofInt 64 (redExtI true larger x m), 0)
def execVredsum (h : Hdr) (t : RedTy) (d : SReg) (a : VReg) (c : PReg) (s : State) : Outcome :=
  s.reduceOp (.vredsum h t d a c) h d a c (redSum t)
def execVredmax (h : Hdr) (t : ExtTy) (d : SReg) (a : VReg) (c : PReg) (s : State) : Outcome :=
  s.reduceOp (.vredmax h t d a c) h d a c (redExt t true)
def execVredmin (h : Hdr) (t : ExtTy) (d : SReg) (a : VReg) (c : PReg) (s : State) : Outcome :=
  s.reduceOp (.vredmin h t d a c) h d a c (redExt t false)

/-- The prefix over lanes 0 to i from the aligned blocks that cover them (R185), from a level down. -/
def scanGo {α : Type} (combine : α → α → α) (leaf : Nat → Option α) (i : Nat) : Nat → Nat → Option α → Option α
  | n, lo, acc =>
    let size := 2 ^ n
    let next : Nat × Option α :=
      if lo + size ≤ i + 1 then
        (lo + size, match acc, laneNode combine leaf n (lo / size) with
          | none, x => x
          | a, none => a
          | some a, some x => some (combine a x))
      else (lo, acc)
    match n with
    | 0 => next.2
    | m + 1 => scanGo combine leaf i m next.1 next.2
/-- `vscan` (R185). -/
def execVscan (h : Hdr) (flt : Bool) (d a : VReg) (c : PReg) (s : State) : Outcome :=
  s.laneOp (.vscan h flt d a c) h 8 [(.v a, h.pda)] [.p c] d .rne 0 fun r _ k =>
    let x := r.srcV a h.pda
    let m := r.regs.getP c
    if flt then (scanGo combineF (leafF32 x m) k 6 0 none).getD (0, 0)
    else ((scanGo (· + ·) (fun j => if m.getLsbD j then some (lane x j) else none) k 6 0 none).getD 0, 0)

/-- A lane ranks strictly before another by its value (R186). -/
def ranksBefore (flt mag : Bool) (x y : Lane) : Bool :=
  if flt then
    let a := decF32 (if mag then x &&& 0x7FFFFFFF else x)
    let b := decF32 (if mag then y &&& 0x7FFFFFFF else y)
    if a.isNan then !b.isNan else if b.isNan then false else b.lt a
  else
    let key := fun (z : Lane) => if mag then (z.toInt.natAbs : Int) else z.toInt
    decide (key y < key x)
/-- Insertion into a ranking, after every lane that does not rank below. -/
def insertRank (before : Nat → Nat → Bool) (i : Nat) : List Nat → List Nat
  | [] => [i]
  | j :: js => if before i j then i :: j :: js else j :: insertRank before i js
/-- The selected lanes in the order of `vtopk` (R186). -/
def ranking (flt mag : Bool) (x : VecWord) (m : Word) : List Nat :=
  (activeLanes m).foldl (fun l i => insertRank (fun i j => ranksBefore flt mag (lane x i) (lane x j)) i l) []
/-- `vtopk` (R186). -/
def execVtopk (h : Hdr) (flt mag idx : Bool) (k : Fin 65) (d a : VReg) (c : PReg) (s : State) : Outcome :=
  s.issue (.vtopk h flt mag idx k d a c) h
    { srcs := [(.v a, h.pda)], locks := [.p c], dsts := [.v d], lat := some 12, lanewise := true, feature := 2 } fun s =>
    let r := s.me.live.front
    let x := r.srcV a h.pda
    let order := ranking flt mag x (r.regs.getP c)
    let out := ofLanes fun n => match order[n]? with
      | some j => if idx then BitVec.ofNat 32 j else lane x j
      | none => if idx then 0xFFFFFFFF else if flt then 0xFF800000 else 0x80000000
    let m := r.predicate h &&& BitVec.ofNat 64 (2 ^ k.val - 1)
    .next (s.retire h (some 12) { writes := [writeV d out m] })

def execVbmand (h : Hdr) (d : PReg) (f : BmForm) (s : State) : Outcome :=
  let srcs : List (Reg × Fin 4) := match f with
    | .scalars a b => [(.s a, h.pda), (.s b, h.pdb)]
    | .preds a b => [(.p a, h.pda), (.p b, h.pdb)]
  s.issue (.vbmand h d f) h { srcs := srcs, dsts := [.p d], lat := some 3, feature := 1 } fun s =>
    let r := s.me.live.front
    let x := match f with
      | .scalars a b => r.srcS a h.pda &&& r.srcS b h.pdb
      | .preds a b => r.srcP a h.pda &&& r.srcP b h.pdb
    .next (s.retire h (some 3) { writes := [writeP d x] })
def execVpopc (h : Hdr) (d a : VReg) (s : State) : Outcome :=
  s.laneOp (.vpopc h d a) h 3 [(.v a, h.pda)] [] d .rne 0 (fun r _ k => (onesCount (lane (r.srcV a h.pda) k), 0)) 1
def execVpfx (h : Hdr) (d : VReg) (a : PfxSrc) (s : State) : Outcome :=
  let src : Reg := match a with
    | .scalar x => .s x
    | .pred x => .p x
  s.laneOp (.vpfx h d a) h 3 [(src, h.pda)] [] d .rne 0
    (fun r _ k => (BitVec.ofNat 32 (onesBelow ((r.view src h.pda.val).setWidth 64) k), 0)) 1

end Sys2Proof.Machine
end

