-- ==== Sys2Proof/Machine/VectorConv.lean ====
section
/-! DEFINITION. The conversions (R188 to R193) and the predicate instructions (R194). -/

namespace Sys2Proof.Machine

/-- Element width of a format tag in bits (R49). -/
def tagWidth (t : Fin 8) : Nat := if t = 0 then 16 else if t = 3 ∨ t = 5 then 4 else 8
/-- A code widened to FP32 (R70): a BF16 NaN keeps its bits. -/
def widenTag (t : Fin 8) (rm : RMode) (y : Nat) (c : Nat) (sc : Int) : Lane × FFlags :=
  let x := decTag t c
  if t = 0 ∧ x.isNan then (BitVec.ofNat 32 (c % 2 ^ 16 * 2 ^ 16), 0) else convF32 rm false y (x.scaleBy sc)
/-- One lane of `vcvt` (R188). -/
def vcvtLane (up : Bool) (t : CvtTy) (m : RMode) (sat : Bool) (y : Nat) (x : Lane) : Lane × FFlags :=
  match up, t with
  | false, .i32 => convI32 m y (decF32 x)
  | false, .tag t => let r := convTag t m sat y (decF32 x); (BitVec.ofNat 32 r.1, r.2)
  | true, .i32 => convF32 m sat y (Num.ofInt x.toInt)
  | true, .tag t => widenTag t m y (x.toNat % 2 ^ tagWidth t) 0
/-- A lane-wise conversion: a type of 0xF traps once a lane is active (R138), else the lanes are computed. -/
def State.convOp (s : State) (i : Instr) (h : Hdr) (t : CvtTy) (srcs : List (Reg × Fin 4)) (d : VReg) (rm : Rnd) (n : Nat)
    (f : Front → RMode → Nat → Lane × FFlags) : Outcome :=
  s.issue i h { srcs := srcs, dsts := [.v d], lat := some 4, lanewise := true } fun s =>
    let r := s.me.live.front
    let m := roundMode rm r.regs.round
    let p := r.predicate h
    if t = .tag 7 ∧ p ≠ 0 then .next (s.trapHere .format (wordInfo i))
    else
      let x := computeLanes p (f r m)
      .next (s.retire h (some 4) { writes := [writeV d x.1 p], flags := x.2, lfsr := some (stepLanes m p n r.regs.lfsr) })
def execVcvt (h : Hdr) (up : Bool) (rm : Rnd) (sat : Bool) (t : CvtTy) (d a : VReg) (s : State) : Outcome :=
  s.convOp (.vcvt h up rm sat t d a) h t [(.v a, h.pda)] d rm 1 fun r m k =>
    vcvtLane up t m sat (draw m r k 1) (lane (r.srcV a h.pda) k)
def execVquantScale (h : Hdr) (t : Fin 8) (d : SReg) (a : VReg) (c : PReg) (s : State) : Outcome :=
  s.issue (.vquantScale h t d a c) h { srcs := [(.v a, h.pda)], locks := [.p c], dsts := [.s d], lat := some 4 } fun s =>
    let r := s.me.live.front
    let x := blockScale t ((activeLanes (r.regs.getP c)).map fun k => decF32 (lane (r.srcV a h.pda) k))
    if t = 7 then .next (s.trapHere .format (wordInfo (.vquantScale h t d a c)))
    else .next (s.retire h (some 4) { writes := [writeS d (BitVec.ofNat 64 x.1)], flags := x.2 })
/-- One lane of `vquant` (R190). -/
def vquantLane (t : Fin 8) (m : RMode) (sat : Bool) (y e : Nat) (x : Lane) : Lane × FFlags :=
  let v := decF32 x
  if e = 255 then (BitVec.ofNat 32 (zeroCode t), fIf v.isNan fNANLOST)
  else let r := convTag t m sat y (v.scaleBy (127 - e)); (BitVec.ofNat 32 r.1, r.2)
def execVquant (h : Hdr) (rm : Rnd) (sat : Bool) (t : Fin 8) (d a : VReg) (b : SReg) (s : State) : Outcome :=
  s.convOp (.vquant h rm sat t d a b) h (.tag t) [(.v a, h.pda), (.s b, h.pdb)] d rm 1 fun r m k =>
    vquantLane t m sat (draw m r k 1) ((r.srcS b h.pdb).toNat % 256) (lane (r.srcV a h.pda) k)
/-- One lane of `vdequant` (R191). -/
def vdequantLane (t : Fin 8) (m : RMode) (y e : Nat) (x : Lane) : Lane × FFlags :=
  if e = 255 then (canonNaN, 0) else widenTag t m y (x.toNat % 2 ^ tagWidth t) (e - 127)
def execVdequant (h : Hdr) (rm : Rnd) (t : Fin 8) (d a : VReg) (b : SReg) (s : State) : Outcome :=
  s.convOp (.vdequant h rm t d a b) h (.tag t) [(.v a, h.pda), (.s b, h.pdb)] d rm 1 fun r m k =>
    vdequantLane t m (draw m r k 1) ((r.srcS b h.pdb).toNat % 256) (lane (r.srcV a h.pda) k)
/-- The lanes of a part (R192): the first, and how many. -/
def partLanes (t part : Fin 8) : Nat × Nat := (2 * tagWidth t * part.val, 2 * tagWidth t)
/-- `vpack` writes the active lanes of the part (R192). -/
def execVpack (h : Hdr) (t part : Fin 8) (d a : VReg) (s : State) : Outcome :=
  s.issue (.vpack h t part d a) h { srcs := [(.v a, h.pda)], dsts := [.v d], lat := some 4, lanewise := true } fun s =>
    let r := s.me.live.front
    let x := r.srcV a h.pda
    let w := tagWidth t
    let p := partLanes t part
    let out := ofLanes fun i => if p.1 ≤ i ∧ i < p.1 + p.2 then
        (packLane w fun j => ((lane x ((i - p.1) * (32 / w) + j)).toNat % 2 ^ w, 0)).1
      else 0
    let m := r.predicate h &&& BitVec.ofNat 64 ((2 ^ p.2 - 1) * 2 ^ p.1)
    if t = 7 ∧ r.predicate h ≠ 0 then .next (s.trapHere .format (wordInfo (.vpack h t part d a)))
    else .next (s.retire h (some 4) { writes := [writeV d out m] })
def execVunpack (h : Hdr) (t part : Fin 8) (d a : VReg) (s : State) : Outcome :=
  s.convOp (.vunpack h t part d a) h (.tag t) [(.v a, h.pda)] d .rne 0 fun r _ k =>
    let w := tagWidth t
    (BitVec.ofNat 32 (elem w (k % (32 / w)) (lane (r.srcV a h.pda) ((partLanes t part).1 + k / (32 / w)))), 0)
/-- One lane of `vrnd` (R193). -/
def vrndLane (m : RMode) (y : Nat) (x : Lane) : Lane × FFlags :=
  match decF32 x with
  | .nan => (canonNaN, 0)
  | .inf _ => (x, 0)
  | .fin neg mm e =>
    if mm = 0 then (x, 0)
    else
      let r := roundQuant m y mm e 0
      let v := arithF32 .rne 0 (.fin neg r.1 0)
      (v.1, fIf r.2.1 fNX)
def execVrnd (h : Hdr) (rm : Rnd) (d a : VReg) (s : State) : Outcome :=
  s.laneOp (.vrnd h rm d a) h 4 [(.v a, h.pda)] [] d rm 1 fun r m k => vrndLane m (draw m r k 1) (lane (r.srcV a h.pda) k)

/-- A predicate instruction: latency 1, whole (R194). -/
def State.predOp (s : State) (i : Instr) (h : Hdr) (srcs : List (Reg × Fin 4)) (d : Reg) (f : Front → Word) : Outcome :=
  s.issue i h { srcs := srcs, dsts := [d], lat := some 1 } fun s =>
    .next (s.retire h (some 1) { writes := [(d, wordOf (f s.me.live.front), wordOf (BitVec.allOnes 64))] })
def execPand (h : Hdr) (d a b : PReg) (s : State) : Outcome :=
  s.predOp (.pand h d a b) h [(.p a, h.pda), (.p b, h.pdb)] (.p d) fun r => r.srcP a h.pda &&& r.srcP b h.pdb
def execPor (h : Hdr) (d a b : PReg) (s : State) : Outcome :=
  s.predOp (.por h d a b) h [(.p a, h.pda), (.p b, h.pdb)] (.p d) fun r => r.srcP a h.pda ||| r.srcP b h.pdb
def execPxor (h : Hdr) (d a b : PReg) (s : State) : Outcome :=
  s.predOp (.pxor h d a b) h [(.p a, h.pda), (.p b, h.pdb)] (.p d) fun r => r.srcP a h.pda ^^^ r.srcP b h.pdb
def execPnot (h : Hdr) (d a : PReg) (s : State) : Outcome :=
  s.predOp (.pnot h d a) h [(.p a, h.pda)] (.p d) fun r => ~~~r.srcP a h.pda
def execPcnt (h : Hdr) (bits : Bool) (d : SReg) (a : PReg) (s : State) : Outcome :=
  s.predOp (.pcnt h bits d a) h [(.p a, h.pda)] (.s d) fun r =>
    let x := r.srcP a h.pda
    if bits then x else onesCount x
def execPfirst (h : Hdr) (d : SReg) (a : PReg) (s : State) : Outcome :=
  s.predOp (.pfirst h d a) h [(.p a, h.pda)] (.s d) fun r => trailingZeros (r.srcP a h.pda)
/-- A predicate with its low n bits set, all ones from 64 on (R194). -/
def lowPred (n : Nat) : Word := BitVec.ofNat 64 (2 ^ min n 64 - 1)
def execPset (h : Hdr) (d : PReg) (f : PSetForm) (s : State) : Outcome :=
  match f with
  | .imm n => s.predOp (.pset h d f) h [] (.p d) fun _ => lowPred n.val
  | .count a => s.predOp (.pset h d f) h [(.s a, h.pda)] (.p d) fun r => lowPred (r.srcS a h.pda).toNat
  | .bits a => s.predOp (.pset h d f) h [(.s a, h.pda)] (.p d) fun r => r.srcS a h.pda

end Sys2Proof.Machine
end

