-- ==== Sys2Proof/Machine/PoolCompute.lean ====
section
/-! DEFINITION. What the pool computes: planes, weight registers, products, the sum tree, and the drain's
conversions (R56 to R64, R222 to R228, R232, R234, R244). -/

namespace Sys2Proof.Machine

/-- n bits of a word from bit lo. -/
def bits (w : Word) (lo n : Nat) : Nat := w.toNat / 2 ^ lo % 2 ^ n
/-- a ÷ b rounded up. -/
def ceilDiv (a b : Nat) : Nat := (a + b - 1) / b

-- planes (R221 to R228)

/-- A group of a plane, its map entry, and a weight register. -/
def Plane.group (p : Plane) (g : Nat) : Option Group := SMap.get none p.groups g
def Plane.mapOf (p : Plane) (g : Nat) : Nat × Nat := SMap.get (0, 0) p.map g
def WReg.zero : WReg := ⟨0, 0, false⟩
def Plane.reg (p : Plane) (cell slot : Nat) : WReg := SMap.get .zero p.regs (8 * cell + slot)
/-- Elements of a group along the reduction dimension (R222). -/
def Group.elems (g : Group) : Nat := g.len * g.pack
/-- The present groups in ascending identifier. -/
def Plane.present (p : Plane) : List (Nat × Group) := p.groups.filterMap fun e => e.2.map fun g => (e.1, g)
/-- Elements per cell of a carve word, by its PACK (R222). -/
def packOf (w : Word) : Nat := match bits w 50 2 with
  | 0 => 1
  | 1 => 2
  | _ => 4
/-- NG and LEN of a carve word. -/
def carveNg (w : Word) : Nat := bits w 26 10 + 1
def carveLen (w : Word) : Nat := bits w 13 13 + 1
/-- The checks of a carve word (R223). -/
def carveOk (w : Word) : Bool :=
  bits w 52 12 == 0 && bits w 50 2 != 3 && decide (bits w 0 13 + carveNg w * carveLen w ≤ 8192) &&
  decide (bits w 36 10 + carveNg w ≤ 1024)
/-- Two groups share a cell. -/
def Group.shares (a b : Group) : Bool := decide (a.cell0 < b.cell0 + b.len) && decide (b.cell0 < a.cell0 + a.len)
/-- `carve` on a plane (R223). -/
def Plane.carve (p : Plane) (w : Word) (clr : Bool) (members : List CoreId) : Plane :=
  let p := if clr then { p with groups := [] } else p
  (List.range (carveNg w)).foldl (fun p j =>
    let g : Group :=
      { cell0 := bits w 0 13 + j * carveLen w, len := carveLen w, pack := packOf w, ext := bits w 49 1 == 1
        int := bits w 48 1 == 1, lane := Fin.ofNat 4 (bits w 46 2), members := members, fresh := true
        fmts := .replicate 8 0, scales := .replicate 8 false }
    { p with groups := SMap.insert (p.groups.filter fun e => match e.2 with
        | some x => !g.shares x
        | none => true) (bits w 36 10 + j) (some g) }) p
/-- The checks of `mmap` (R228): the operand word that fails. -/
def mmapBad (a b : Word) : Option Word :=
  let ng := bits a 48 10 + 1
  if bits a 58 6 ≠ 0 then some a
  else if bits b 38 26 ≠ 0 then some b
  else if 1024 < bits a 0 10 + ng ∨ 2 ^ 20 ≤ bits a 10 20 + (ng - 1) * bits b 0 20 ∨
    2 ^ 18 ≤ bits a 30 18 + (ng - 1) * bits b 20 18 then some a
  else none
/-- `mmap` on a plane (R228). -/
def Plane.mmap (p : Plane) (a b : Word) : Plane :=
  (List.range (bits a 48 10 + 1)).foldl (fun p j =>
    { p with map := SMap.set (0, 0) p.map (bits a 0 10 + j) (bits a 10 20 + j * bits b 0 20, bits a 30 18 + j * bits b 20 18) }) p

-- weight loads (R226, R227)

/-- Groups of a wload word; none where one is absent. -/
def Plane.run (p : Plane) (grp0 ng : Nat) : Option (List Group) := (List.range ng).mapM fun j => p.group (grp0 + j)
/-- Bytes of a group's stream: elements, and scales (R227). -/
def Group.streamLen (g : Group) (t : Fin 8) (scl : Bool) : Nat :=
  ceilDiv (g.elems * tagWidth t) 8 + (if scl then ceilDiv g.elems 64 else 0)
/-- The format and scales of a weight slot recorded for a run of groups (R227). -/
def Plane.setFormats (p : Plane) (grp0 ng : Nat) (slot t : Fin 8) (scl : Bool) : Plane :=
  (List.range ng).foldl (fun p j =>
    match p.group (grp0 + j) with
    | none => p
    | some g =>
      { p with groups := SMap.insert p.groups (grp0 + j) (some { g with fmts := g.fmts.set slot t, scales := g.scales.set slot scl }) }) p
/-- Bits joined to a weight register; the first bits of a cell replace what it held (R226, R288). -/
def Plane.join (p : Plane) (cell slot bit x : Nat) (poison : Bool) : Plane :=
  let r := if bit = 0 then .zero else p.reg cell slot
  { p with regs := SMap.set .zero p.regs (8 * cell + slot) { r with bits := r.bits ||| BitVec.ofNat 32 (x * 2 ^ bit), poison := r.poison || poison } }
/-- Element k of a group in a weight slot (R226). -/
def Plane.putElem (p : Plane) (g : Group) (slot w k x : Nat) (poison : Bool) : Plane :=
  p.join (g.cell0 + k / g.pack) slot (w * (k % g.pack)) x poison
/-- The scale byte of a block of a group, in every cell of the block (R226). -/
def Plane.putScale (p : Plane) (g : Group) (slot b : Nat) (x : Byte) (poison : Bool) : Plane :=
  (List.range g.len).foldl (fun p i =>
    if g.pack * i / 64 = b then
      let r := p.reg (g.cell0 + i) slot
      { p with regs := SMap.set .zero p.regs (8 * (g.cell0 + i) + slot) { r with scale := x, poison := r.poison || poison } }
    else p) p
/-- Byte o of a group's stream, by nibbles, or as a scale (R227). -/
def Plane.putByte (p : Plane) (g : Group) (slot : Nat) (t : Fin 8) (o : Nat) (x : Byte) (poison : Bool) : Plane :=
  let w := tagWidth t
  let n := ceilDiv (g.elems * w) 8
  if n ≤ o then p.putScale g slot (o - n) x poison
  else [0, 1].foldl (fun p i =>
    let v := 2 * o + i
    let k := v / (w / 4)
    if k < g.elems then
      p.join (g.cell0 + k / g.pack) slot (w * (k % g.pack) + 4 * (v % (w / 4))) (x.toNat / 16 ^ i % 16) poison
    else p) p
/-- Bytes of a stream from a position, over a run of groups (R227). -/
def Plane.putStream (t : Fin 8) (scl : Bool) (slot : Nat) (poison : Bool) : List Group → Nat → List Byte → Plane → Plane
  | [], _, _, p => p
  | g :: gs, pos, bs, p =>
    let n := g.streamLen t scl
    if n ≤ pos then putStream t scl slot poison gs (pos - n) bs p
    else
      let here := bs.take (n - pos)
      let p := (List.range here.length).foldl (fun p i => p.putByte g slot t (pos + i) (here.getD i 0) poison) p
      putStream t scl slot poison gs 0 (bs.drop (n - pos)) p

-- operations (R56 to R62, R232, R234)

/-- Class of a format for R56: 0 BF16, 1 eight bits, 2 four bits, 3 PS2. -/
def fmtClass (t : Fin 8) : Nat := if t = 0 then 0 else if t = 3 ∨ t = 5 then 2 else if t = 6 then 3 else 1
/-- Products a cell forms per cycle (R56). -/
def pairRate (a b : Fin 8) : Nat :=
  let x := fmtClass a
  let y := fmtClass b
  if x = 3 ∨ y = 3 then (if min x y ≤ 1 then 2 else 4)
  else if x = 0 ∨ y = 0 then 1 else if x = 1 ∨ y = 1 then 2 else 4

/-- A tile as an operation receives it: its format, whether scales come with it, and its codes and scale bytes. -/
structure Tile where
  fmt : Fin 8
  scaled : Bool
  codes : List Nat
  scales : List Nat
  deriving DecidableEq, Repr
/-- Codes of n elements packed in bytes (R55). -/
def unpackCodes (w n : Nat) (bs : List Byte) : List Nat :=
  (List.range n).map fun k => ofBytes ((bs.drop (w * k / 8)).take (ceilDiv w 8)) / 2 ^ (w * k % 8) % 2 ^ w
/-- Codes packed in bytes (R55). -/
def packCodes (w : Nat) (cs : List Nat) : List Byte :=
  toBytes (ceilDiv (w * cs.length) 8) ((cs.foldr (fun c n => c % 2 ^ w + 2 ^ w * n) 0))

/-- One product in FP32 mode (R57, R59): a NaN scale wins over a skipped zero. -/
def floatProduct (wt xt : Fin 8) (wc xc ws xs : Nat) : Lane :=
  if ws = 255 ∨ xs = 255 then 0x7FC00000
  else if zeroElem wt wc || zeroElem xt xc then 0
  else (arithF32 .rne 0 (Num.mul ((decTag wt wc).scaled ws) ((decTag xt xc).scaled xs)).1).1
/-- One product in INT32 mode (R57). -/
def intProduct (wt xt : Fin 8) (wc xc : Nat) : Int := toSigned (tagWidth wt) wc * toSigned (tagWidth xt) xc
/-- The leaf of m products (R61). -/
def leafOf4 {α : Type} (f : α → α → α) (d : α) : List α → α
  | [a] => a
  | [a, b] => f a b
  | [a, b, c, e] => f (f a b) (f c e)
  | _ => d
/-- Code and scale of element j of a cell's weight, and of the tile element it multiplies. -/
def Plane.pair (p : Plane) (g : Group) (slot : Fin 8) (off : Nat) (t : Tile) (cell j : Nat) : Nat × Nat × Nat × Nat :=
  let r := p.reg cell slot.val
  let w := tagWidth g.fmts[slot]
  let e := off + g.pack * (cell - g.cell0) + j
  (r.bits.toNat / 2 ^ (w * j) % 2 ^ w, t.codes.getD e 0, if g.scales[slot] then r.scale.toNat else 127,
   if t.scaled then t.scales.getD (e / 64) 127 else 127)
/-- A group's leaf at a cell; none outside its cells. -/
def Plane.leaf {α : Type} (p : Plane) (g : Group) (slot : Fin 8) (off : Nat) (t : Tile) (prod : Nat × Nat × Nat × Nat → α)
    (f : α → α → α) (d : α) (cell : Nat) : Option α :=
  if g.cell0 ≤ cell ∧ cell < g.cell0 + g.len then
    some (leafOf4 f d ((List.range g.pack).map fun j => prod (p.pair g slot off t cell j)))
  else none
/-- A group's part of an operation on its core (R62): FP32 bits, or an exact integer. -/
def Plane.part (p : Plane) (g : Group) (slot : Fin 8) (off : Nat) (t : Tile) : BitVec 48 :=
  let wt := g.fmts[slot]
  if g.int then
    BitVec.ofInt 48 ((laneNode (· + ·) (p.leaf g slot off t (fun x => intProduct wt t.fmt x.1 x.2.1) (· + ·) 0) 13 0).getD 0)
  else
    ((laneNode addNode (p.leaf g slot off t (fun x => floatProduct wt t.fmt x.1 x.2.1 x.2.2.1 x.2.2.2) addNode 0) 13 0).getD 0).setWidth 48
/-- Products with both elements nonzero that one cell forms, at most over a group (R234). -/
def Plane.busiest (p : Plane) (g : Group) (slot : Fin 8) (off : Nat) (t : Tile) : Nat :=
  (List.range g.len).foldl (fun n i => max n ((List.range g.pack).countP fun j =>
    let x := p.pair g slot off t (g.cell0 + i) j
    !zeroElem g.fmts[slot] x.1 && !zeroElem t.fmt x.2.1)) 1
/-- A weight register that a group uses is poisoned. -/
def Plane.badWeights (p : Plane) (g : Group) (slot : Fin 8) : Bool :=
  (List.range g.len).any fun i => (p.reg (g.cell0 + i) slot.val).poison
/-- The groups of a lane, and the extent of its tile (R232). -/
def Plane.laneGroups (p : Plane) (l : LaneId) : List (Nat × Group) := p.present.filter fun e => e.2.lane == l
def Plane.extent (p : Plane) (l : LaneId) : Nat := (p.laneGroups l).foldl (fun n e => max n ((p.mapOf e.1).1 + e.2.elems)) 0
/-- max(Fc, Cc) of an operation (R234). -/
def Plane.span (p : Plane) (l : LaneId) (slot : Fin 8) (t : Tile) : Nat :=
  let blocks := (List.range (ceilDiv t.codes.length 64)).countP fun b =>
    ((t.codes.drop (64 * b)).take 64).any fun c => !zeroElem t.fmt c
  (p.laneGroups l).foldl (fun n e =>
    max n (ceilDiv (p.busiest e.2 slot (p.mapOf e.1).1 t) (pairRate e.2.fmts[slot] t.fmt))) (max 1 (ceilDiv blocks 4))

/-- The sum of an entry and a pass (R64), with ISAT. -/
def accumulate (int : Bool) (old : Lane) (pass : BitVec 48) : Lane × Bool :=
  if int then sat32 (toSigned 32 old.toNat + toSigned 48 pass.toNat) else (addNode old (pass.setWidth 32), false)
/-- Two parts of an extended group (R63). -/
def joinParts (int : Bool) (a b : BitVec 48) : BitVec 48 :=
  if int then a + b else (addNode (a.setWidth 32) (b.setWidth 32)).setWidth 48

-- drains (R244)

/-- The exact value of an Accumulator Buffer entry. -/
def entryNum (int : Bool) (v : Lane) : Num := if int then .ofInt (toSigned 32 v.toNat) else decF32 v
/-- Bias and RELU (R244), with ISAT. -/
def drainValue (int bias relu : Bool) (v b : Lane) : Lane × FFlags :=
  let x : Lane × FFlags :=
    if !bias then (v, 0)
    else if int then let y := sat32 (toSigned 32 v.toNat + toSigned 32 b.toNat); (y.1, fIf y.2 fISAT)
    else (addNode v b, 0)
  let neg := if int then decide (toSigned 32 x.1.toNat < 0) else !(decF32 x.1).isNan && x.1.getLsbD 31
  (if relu && neg then 0 else x.1, x.2)
/-- A value converted to the format of OFMT, or of a copy's format field (R244, R251): 0 to 6, FP32, INT32. -/
def convField (o : Nat) (rm : RMode) (sat : Bool) (y : Nat) (x : Num) : Nat × FFlags :=
  if o = 8 then let r := convF32 rm sat y x; (r.1.toNat, r.2)
  else if o = 9 then let r := convI32 rm y x; (r.1.toNat, r.2)
  else convTag (Fin.ofNat 8 o) rm sat y x
/-- Width of a format field (R243, R249); 15 is raw bytes. -/
def fieldWidth (o : Nat) : Nat := if o = 8 ∨ o = 9 then 32 else if o = 15 then 8 else tagWidth (Fin.ofNat 8 o)
/-- What a conversion has made so far: codes, scale bytes, flags, and the stochastic register. -/
structure Conv where
  codes : List Nat
  scales : List Nat
  flags : FFlags
  rsr : BitVec 16
  deriving DecidableEq, Repr
/-- One element under a scale byte (R190, R244, R251): a block of scale 255 writes the zero code. -/
def Conv.element (k : Conv) (o : Nat) (rm : RMode) (sat : Bool) (e : Nat) (x : Num) : Conv :=
  let r := if rm = .rsr then lfsrStep k.rsr else k.rsr
  let c : Nat × FFlags :=
    if e = 255 then (if o = 6 then 0x77 else 0, fIf x.isNan fNANLOST) else convField o rm sat r.toNat (x.scaleBy (127 - (e : Int)))
  { k with codes := k.codes ++ [c.1], flags := k.flags ||| c.2, rsr := r }
/-- A block of at most 64 drain outputs. -/
def Conv.block (k : Conv) (o : Nat) (int qnt : Bool) (rm : RMode) (sat : Bool) (scale : Nat) (vs : List Lane) : Conv :=
  if o = (if int then 9 else 8) then { k with codes := k.codes ++ vs.map (·.toNat) }
  else
    let xs := vs.map (entryNum int)
    let q := if qnt then blockScale (Fin.ofNat 8 o) xs else (scale, 0)
    let k := xs.foldl (fun k x => k.element o rm sat q.1 x) { k with flags := k.flags ||| q.2 }
    if qnt then { k with scales := k.scales ++ [q.1] } else k
/-- A list cut into runs of 64. -/
def runs64 {α : Type} : Nat → List α → List (List α)
  | 0, _ => []
  | n + 1, l => if l.isEmpty then [] else l.take 64 :: runs64 n (l.drop 64)

end Sys2Proof.Machine
end

