-- ==== Sys2Proof/Machine/ZeroSkip.lean ====
section
/-! DEFINITION. Zero-skipped blocks (R76, R92), and tiles cut into the flits of a circuit (R265). -/

namespace Sys2Proof.Machine

/-- A value of a format field of R249: a format tag, 8 FP32, 9 INT32, or raw bytes. -/
def decField (o c : Nat) : Num :=
  if o = 8 then decF32 (BitVec.ofNat 32 c) else if o = 9 then .ofInt (toSigned 32 c)
  else if o = 15 then .ofInt c else decTag (Fin.ofNat 8 o) c
/-- The zero of a format field at an omitted position (R76). -/
def zeroField (o : Nat) : Nat := if o = 6 then 0x77 else 0
/-- A −0.0 of a format field (R76). -/
def negZeroField (o c : Nat) : Bool :=
  if o = 8 then c == 2 ^ 31 else if o = 9 ∨ o = 15 then false else negZeroElem (Fin.ofNat 8 o) c
/-- An element is among the values of its block (R76). -/
def presentElem (o : Nat) (ksz : Bool) (c : Nat) : Bool := !(decField o c).isZero || (ksz && negZeroField o c)
/-- What expansion restores of a compressed run of elements (R76). -/
def restored (o : Nat) (ksz : Bool) (cs : List Nat) : List Nat := cs.map fun c => if presentElem o ksz c then c else zeroField o
/-- n bytes with zeros behind them up to a multiple of 8. -/
def pad8 (bs : List Byte) : List Byte := bs ++ List.replicate ((8 - bs.length % 8) % 8) 0
/-- A zero-skipped block (R92). DESIGN CHOICE (log 53): a format that has no tag stands as tag 0 in its header, as it does in a
slot's tag (R244, R251). -/
def zsBlock (o : Nat) (ksz : Bool) (route : Nat) (cs : List Nat) : List Byte :=
  let w := fieldWidth o
  let vs := cs.filter (presentElem o ksz)
  let bm := (List.range cs.length).foldl (fun n i => if presentElem o ksz (cs.getD i 0) then n + 2 ^ i else n) 0
  let hdr := vs.length * 2 ^ 28 + route * 2 ^ 12 + residue (packCodes w (restored o ksz cs)) * 16 + (if ksz then 8 else 0) + (if o ≤ 6 then o else 0)
  toBytes 8 hdr ++ toBytes 8 bm ++ pad8 (packCodes w vs)
/-- Bytes of the values of a block with a header (R92). -/
def zsValueBytes (o hdr : Nat) : Nat := ceilDiv (hdr / 2 ^ 28 % 128 * fieldWidth o) 64 * 8
/-- A zero-skipped block expanded to n elements (R92), and whether it is poisoned. DESIGN CHOICE (log 53): the zeros and the
widths are those of the format that the descriptor names, also where the header's FMT or KSZ says another. -/
def zsExpand (o hdr bm n : Nat) (bs : List Byte) : List Nat × Bool :=
  let w := fieldWidth o
  let nnz := hdr / 2 ^ 28 % 128
  let vs := unpackCodes w nnz bs
  let cs := ((List.range n).foldl (fun (st : List Nat × List Nat) i =>
    if bm / 2 ^ i % 2 = 1 then (st.1 ++ [st.2.headD 0], st.2.drop 1) else (st.1 ++ [zeroField o], st.2)) ([], vs)).1
  let count := (List.range 64).countP fun i => bm / 2 ^ i % 2 == 1
  (cs, hdr / 2 ^ 35 != 0 || nnz != count || residue (packCodes w cs) != hdr / 16 % 256)

/-- Bytes of the blocks of a tile, summed up to each block. -/
def blockEnds (o : Nat) (ksz : Bool) (bs : List (List Nat)) : List Nat :=
  (bs.foldl (fun (st : List Nat × Nat) b =>
    let n := st.2 + 16 + ceilDiv ((b.countP (presentElem o ksz)) * fieldWidth o) 64 * 8
    (st.1 ++ [n], n)) ([], 0)).1
/-- A list cut into runs of given lengths. -/
def cutRuns {α : Type} : List Nat → List α → List (List α)
  | [], _ => []
  | n :: ns, l => l.take n :: cutRuns ns (l.drop n)
/-- Lengths of the copy blocks of a row of n elements (R248). -/
def rowRuns (n : Nat) : List Nat := List.replicate (n / 64) 64 ++ if n % 64 = 0 then [] else [n % 64]
/-- A tile cut into flits (R265): its blocks have the lengths of a list, and a flit carries the slot bytes of the blocks
whose last byte it holds. -/
def Circuit.cutTile (x : Circuit) (o : Nat) (ksz : Bool) (runs : List Nat) (cs : List Nat) (coord : BitVec 32) (fmt : Fin 8)
    (poison : Bool) (slot : Option Nat) (entry : Option EntryNo) : Circuit :=
  let w := fieldWidth o
  let blocks := cutRuns runs cs
  let ends := blockEnds o ksz blocks
  let n := ceilDiv (ends.getLastD 0) 64
  let rs := restored o ksz cs
  let bytes := packCodes w rs
  let res := residue bytes
  let fs := (List.range n).map fun f =>
    let mine := (List.range blocks.length).filter fun b => (ends.getD b 0 - 1) / 64 == f
    ({ seq := x.seq + f, tile := x.tile, first := f == 0, last := f + 1 == n
       bytes := mine.flatMap fun b =>
         let at_ := (runs.take b).foldl (· + ·) 0
         (List.range' (w * at_ / 8) (ceilDiv (w * (at_ + runs.getD b 0)) 8 - w * at_ / 8)).map fun i => (i, bytes.getD i 0)
       coord := coord, fmt := fmt, res := BitVec.ofNat 8 res, poison := poison, slot := slot, entry := entry
       left := 0 } : Flit)
  { x with cut := x.cut ++ fs, seq := x.seq + n, tile := x.tile + 1 }

end Sys2Proof.Machine
end

