-- ==== Sys2Proof/Machine/CopyDesc.lean ====
section
/-! DEFINITION. Copy descriptors: their fields, and the checks of R253 (R249 to R253). -/

namespace Sys2Proof.Machine

/-- A copy descriptor: its 32 words in order. -/
abbrev Desc := List Word

/-- Word k of a descriptor. -/
def Desc.w (d : Desc) (k : Nat) : Word := d.getD k 0
def Desc.dport (d : Desc) : Nat := bits (Desc.w d 0) 22 6
def Desc.sring (d : Desc) : RingId := Fin.ofNat 16 (bits (Desc.w d 0) 18 4)
def Desc.skind (d : Desc) : Nat := bits (Desc.w d 0) 16 2
def Desc.dkind (d : Desc) : Nat := bits (Desc.w d 0) 14 2
/-- A space code (R79). -/
def spaceOf (n : Nat) : Space := match n with
  | 0 => .g
  | 1 => .wb
  | 2 => .ab
  | _ => .cb
def Desc.sspace (d : Desc) : Space := spaceOf (bits (Desc.w d 0) 12 2)
def Desc.dspace (d : Desc) : Space := spaceOf (bits (Desc.w d 0) 10 2)
def Desc.dzs (d : Desc) : Bool := (Desc.w d 0).getLsbD 9
def Desc.szs (d : Desc) : Bool := (Desc.w d 0).getLsbD 8
def Desc.deo (d : Desc) : Nat := bits (Desc.w d 0) 7 1
def Desc.seo (d : Desc) : Nat := bits (Desc.w d 0) 6 1
def Desc.tdim (d : Desc) : Nat := bits (Desc.w d 0) 3 3 + 1
def Desc.ndim (d : Desc) : Nat := bits (Desc.w d 0) 0 3 + 1
def Desc.cmpl (d : Desc) : Nat := bits (Desc.w d 1) 26 3
def Desc.red (d : Desc) : Nat := bits (Desc.w d 1) 23 3
def Desc.scale (d : Desc) : Nat := bits (Desc.w d 1) 15 8
def Desc.sce (d : Desc) : Nat := bits (Desc.w d 1) 13 2
def Desc.ksz (d : Desc) : Bool := (Desc.w d 1).getLsbD 12
def Desc.sat (d : Desc) : Bool := (Desc.w d 1).getLsbD 11
def Desc.rm (d : Desc) : Nat := bits (Desc.w d 1) 8 3
def Desc.dfmt (d : Desc) : Nat := bits (Desc.w d 1) 4 4
def Desc.sfmt (d : Desc) : Nat := bits (Desc.w d 1) 0 4
def Desc.scaddr (d : Desc) : Word := Desc.w d 4
/-- The scale ring of a ring endpoint (R249). -/
def Desc.scring (d : Desc) : RingId := Fin.ofNat 16 (bits (Desc.w d 4) 0 4)
def Desc.caddr (d : Desc) : Word := Desc.w d 5
def Desc.coord (d : Desc) (tile : Nat) : BitVec 32 :=
  BitVec.ofNat 32 (bits (Desc.w d 6) 0 32) + BitVec.ofNat 32 tile * BitVec.ofNat 32 (bits (Desc.w d 6) 32 32)
def Desc.extent (d : Desc) (k : Nat) : Nat := bits (Desc.w d (8 + k / 2)) (32 * (k % 2)) 32
def Desc.sstride (d : Desc) (k : Nat) : Word := Desc.w d (12 + k)
def Desc.dstride (d : Desc) (k : Nat) : Word := Desc.w d (20 + k)
/-- The destination ring, where the destination is a ring. -/
def Desc.dring (d : Desc) : RingId := Fin.ofNat 16 (Desc.dport d)
/-- The destination circuit. -/
def Desc.circ (d : Desc) : CircNo := Fin.ofNat 64 (Desc.dport d)
/-- Elements of the first n dimensions. -/
def Desc.product (d : Desc) (n : Nat) : Nat := (List.range n).foldl (fun p k => p * Desc.extent d k) 1
/-- Elements of the copy, of a row, and of a tile. -/
def Desc.total (d : Desc) : Nat := Desc.product d (Desc.ndim d)
def Desc.tileElems (d : Desc) : Nat := Desc.product d (Desc.tdim d)
/-- Lengths of the copy blocks of a tile (R248). -/
def Desc.tileRuns (d : Desc) : List Nat :=
  (List.replicate (Desc.tileElems d / Desc.extent d 0) (rowRuns (Desc.extent d 0))).flatten
/-- Bytes of a tile at a width. -/
def Desc.tileBytes (d : Desc) (w : Nat) : Nat := ceilDiv (Desc.tileElems d * w) 8
/-- Scale bytes of a tile: one for each block of each of its rows (R54, R229). -/
def Desc.tileScales (d : Desc) : Nat :=
  ceilDiv (Desc.extent d 0) 64 * (if Desc.extent d 0 = 0 then 0 else Desc.tileElems d / Desc.extent d 0)
/-- The scale ring of the copy: source scales come with a source ring, destination scales go with a destination
ring. -/
def Desc.scaleRing (d : Desc) : Option RingId :=
  if (Desc.sce d = 1 ∧ Desc.skind d = 1) ∨ (Desc.sce d = 2 ∧ Desc.dkind d = 1) then some (Desc.scring d) else none
/-- The descriptor names a ring. -/
def Desc.names (d : Desc) (q : RingId) : Bool :=
  (Desc.skind d == 1 && Desc.sring d == q) || (Desc.dkind d == 1 && Desc.dring d == q) || Desc.scaleRing d == some q

/-- A format field that R249 lists. -/
def fmtListed (f : Nat) : Bool := decide (f ≤ 6) || f == 8 || f == 9 || f == 15
/-- A four-bit format. -/
def fourBit (f : Nat) : Bool := f == 3 || f == 5

/-- The checks of R253 that read the descriptor alone, each with the offset of the word it names. -/
def Desc.plain (d : Desc) : List (Bool × Nat) :=
  let ring := Desc.skind d == 1 || Desc.dkind d == 1 || Desc.dkind d == 2
  let odd := fun (f : Nat) (x : Word) => fourBit f && x.getLsbD 0
  ([ (decide (bits (Desc.w d 0) 28 36 ≠ 0 ∨ 1 < Desc.skind d ∨ 2 < Desc.dkind d), 0x00),
    (decide (ring ∧ Desc.ndim d < Desc.tdim d), 0x00),
    (decide ((Desc.skind d = 1 ∧ Desc.sspace d ≠ .g) ∨ (Desc.dkind d = 1 ∧ Desc.dspace d ≠ .g)), 0x00),
    (decide ((Desc.szs d ∧ (Desc.skind d ≠ 0 ∨ Desc.sfmt d = 8 ∨ Desc.sfmt d = 9)) ∨
      (Desc.dzs d ∧ (Desc.dkind d ≠ 0 ∨ Desc.dfmt d = 8 ∨ Desc.dfmt d = 9))), 0x00),
    (decide ((Desc.seo d = 1 ∧ !fourBit (Desc.sfmt d)) ∨ (Desc.deo d = 1 ∧ !fourBit (Desc.dfmt d))), 0x00),
    (decide (Desc.skind d = 1 ∧ Desc.dkind d = 1 ∧ Desc.dport d = (Desc.sring d).val), 0x00),
    (decide (bits (Desc.w d 1) 29 35 ≠ 0 ∨ 3 < Desc.cmpl d ∨ 4 < Desc.red d ∨ 3 < Desc.rm d), 0x08),
    (decide (!fmtListed (Desc.sfmt d) ∨ !fmtListed (Desc.dfmt d) ∨ ((Desc.sfmt d = 15) ≠ (Desc.dfmt d = 15))), 0x08),
    (decide (Desc.sce d ≠ 0 ∧ Desc.sfmt d = Desc.dfmt d), 0x08),
    (decide (Desc.sce d = 2 ∧ 6 < Desc.dfmt d), 0x08),
    (decide (Desc.red d ≠ 0 ∧ (Desc.dkind d ≠ 0 ∨ Desc.dspace d ≠ .g ∨
      Desc.dfmt d ≠ (if Desc.red d = 1 ∨ Desc.red d = 3 then 9 else 8))), 0x08),
    (decide (Desc.cmpl d = 1 ∧ (Desc.dkind d ≠ 0 ∨ Desc.dspace d ≠ .g)), 0x08),
    (decide (Desc.skind d = 1 ∧ Desc.w d 2 ≠ 0), 0x10),
    (decide (Desc.dkind d = 1 ∧ Desc.w d 3 ≠ 0), 0x18),
    (decide ((Desc.scaleRing d).isSome ∧ bits (Desc.w d 4) 4 60 ≠ 0), 0x20),
    (decide (Desc.cmpl d = 1 ∧ (Desc.caddr d).toNat % 32 ≠ 0), 0x28),
    (decide (Desc.w d 7 ≠ 0), 0x38),
    (decide (2 ^ 48 ≤ Desc.total d), 0x40) ] : List (Bool × Nat)) ++
  ((List.range 8).map fun k => (decide (Desc.ndim d ≤ k) && Desc.extent d k != 0, 0x40 + 4 * k)) ++
  ((List.range 8).map fun k => ((k == 0 || decide (Desc.ndim d ≤ k)) && Desc.sstride d k != 0 || odd (Desc.sfmt d) (Desc.sstride d k), 0x60 + 8 * k)) ++
  ((List.range 8).map fun k => ((k == 0 || decide (Desc.ndim d ≤ k)) && Desc.dstride d k != 0 || odd (Desc.dfmt d) (Desc.dstride d k), 0xA0 + 8 * k)) ++
  (List.range 4).map fun k => (Desc.w d (28 + k) != 0, 0xE0 + 8 * k)

/-- Bytes that a circuit's TSLOT stands for; none where no copy may feed the circuit (R253, R264). -/
def Circuit.room (x : Circuit) : Option Nat := if x.state = .open_ ∧ x.src.isNone then some (512 * x.tslot) else none
/-- The checks that concern the core's rings and circuits, and the offset operands (R253). -/
def Desc.placed (d : Desc) (k : Core) (srcOff dstOff : Word) : List (Bool × Nat) :=
  let small : RingId → Nat → Bool := fun q n => match k.ring q with
    | none => true
    | some r => decide (r.size < n)
  let scaleBad : Bool := match Desc.scaleRing d with
    | some q => small q (Desc.tileScales d)
    | none => false
  let circBad : Bool := match k.live.circuits[Desc.circ d].room with
    | some n => decide (n < Desc.tileBytes d (fieldWidth (Desc.dfmt d)))
    | none => true
  [ (decide (Desc.skind d = 1 ∧ small (Desc.sring d) (Desc.tileBytes d (fieldWidth (Desc.sfmt d)))), 0x00),
    (decide (Desc.dkind d = 1 ∧ (16 ≤ Desc.dport d ∨ small (Desc.dring d) (Desc.tileBytes d (fieldWidth (Desc.dfmt d))))), 0x00),
    (Desc.dkind d == 2 && circBad, 0x00),
    (decide (Desc.skind d = 1 ∧ srcOff ≠ 0), 0x10),
    (decide (Desc.dkind d = 1 ∧ dstOff ≠ 0), 0x18),
    (scaleBad, 0x20) ]
/-- The byte offset that COPY_DESC names: the first offending word (R253). -/
def Desc.bad (d : Desc) (k : Core) (srcOff dstOff : Word) : Option Nat :=
  ((Desc.plain d ++ Desc.placed d k srcOff dstOff).filter (·.1)).foldl (fun n x => match n with
    | none => some x.2
    | some m => some (Nat.min m x.2)) none

/-- An entry that moves data. -/
def CopyEntry.active (e : CopyEntry) : Bool := e.state == .run || e.state == .demand
/-- The descriptor of an entry. -/
def CopyEntry.d (e : CopyEntry) : Desc := e.desc.getD []

end Sys2Proof.Machine
end

