-- ==== Sys2Proof/Machine/Control.lean ====
section
/-! DEFINITION. Control transfers, loops, traps, pauses, control registers, and the return from a trap (R158 to
R169, R316, R320 to R322). -/

namespace Sys2Proof.Machine

/-- A taken transfer to an address (R158): one that is not a multiple of 10 traps, and nothing changes. -/
def State.transfer (s : State) (h : Hdr) (lat : Option Nat) (t : Word) (d : Done) : Outcome :=
  if t.toNat % 10 ≠ 0 then .next (s.trapHere .alignFault t)
  else .next (s.retire h lat { d with target := some t })
/-- The word's own address. -/
def State.pc (s : State) : Word := s.me.live.front.at_.pc
/-- Loop registers replaced, before the loop check of the word (R167). -/
def State.setLoops (s : State) (f : Loops → Loops) : State :=
  s.modFront s.cur fun x => x.modRegs fun r => { r with loops := f r.loops }

def execBr (h : Hdr) (off : BitVec 32) (s : State) : Outcome :=
  s.issue (.br h off) h {} fun s => s.transfer h none (wordTarget s.pc off) {}

/-- The sources of a branch condition (R159). -/
def condSrcs (h : Hdr) : BCond → List (Reg × Fin 4)
  | .cmp _ a b => [(.s a, h.pda), (.s b, h.pdb)]
  | .pt a | .pf a | .pany a | .pall a | .pnone a => [(.p a, h.pda)]
/-- A branch condition holds (R159). -/
def condHolds (h : Hdr) (f : Front) : BCond → Bool
  | .cmp k a b => icond k (f.srcS a h.pda) (f.srcS b h.pdb)
  | .pt a => (f.srcP a h.pda).getLsbD 0
  | .pf a => !(f.srcP a h.pda).getLsbD 0
  | .pany a => f.srcP a h.pda != 0
  | .pall a => f.srcP a h.pda == BitVec.allOnes 64
  | .pnone a => f.srcP a h.pda == 0
def execBc (h : Hdr) (k : BCond) (off : BitVec 32) (s : State) : Outcome :=
  s.issue (.bc h k off) h { srcs := condSrcs h k } fun s =>
    if condHolds h s.me.live.front k then s.transfer h none (wordTarget s.pc off) {}
    else .next (s.retire h none {})
def execCall (h : Hdr) (off : BitVec 32) (s : State) : Outcome :=
  s.issue (.call h off) h { dsts := [.s 63], lat := some 1 } fun s =>
    s.transfer h (some 1) (wordTarget s.pc off) { writes := [writeS 63 (s.pc + 10)], keeps := true }
def execRet (h : Hdr) (a : SReg) (s : State) : Outcome :=
  s.issue (.ret h a) h { srcs := [(.s a, h.pda)] } fun s => s.transfer h none (s.me.live.front.srcS a h.pda) {}
def execJmpr (h : Hdr) (link : Bool) (a : SReg) (s : State) : Outcome :=
  let lat := if link then some 1 else none
  s.issue (.jmpr h link a) h { srcs := [(.s a, h.pda)], dsts := if link then [.s 63] else [], lat := lat } fun s =>
    s.transfer h lat (s.me.live.front.srcS a h.pda)
      { writes := if link then [writeS 63 (s.pc + 10)] else [], keeps := link }

/-- Loading a loop set (R160): a count of zero skips the body. -/
def State.startLoop (s : State) (h : Hdr) (set1 : Bool) (count : Word) (off : BitVec 32) : Outcome :=
  let pc := s.pc
  let le := wordTarget pc off
  let t := if count = 0 then le + 10 else pc + 10
  if t.toNat % 10 ≠ 0 then .next (s.trapHere .alignFault t)
  else
    (s.setLoops fun l => if set1 then { l with ls1 := pc + 10, le1 := le, lc1 := count }
                         else { l with ls0 := pc + 10, le0 := le, lc0 := count }).transfer h none t { own := some set1 }
def execLoop (h : Hdr) (set1 : Bool) (a : SReg) (off : BitVec 32) (s : State) : Outcome :=
  s.issue (.loop h set1 a off) h { srcs := [(.s a, h.pda)] } fun s =>
    s.startLoop h set1 (s.me.live.front.srcS a h.pda) off
def execLoopi (h : Hdr) (set1 : Bool) (count : BitVec 12) (off : BitVec 32) (s : State) : Outcome :=
  s.issue (.loopi h set1 count off) h {} fun s => s.startLoop h set1 (count.setWidth 64) off

/-- Ends the iteration at once; no loop check follows. In a handler it discards the handler's frame (R163,
R316). -/
def execEndit (h : Hdr) (s : State) : Outcome :=
  s.issue (.endit h) h {} fun s =>
    let lv := s.me.live.front.level
    let s := s.modFront s.cur fun f =>
      let f := f.allocate h none {} s.cycle
      if lv = .u then f else f.setFrame lv (f.frame lv).clear
    .next (s.endIteration s.cur)

/-- A trap raised after the word's own loop check (R164, R321). -/
def State.userTrap (s : State) (h : Hdr) (info : Word) : Outcome :=
  let t := s.wordTrap .userTrap info
  let s := s.retire h none {}
  .next (s.takeTrap s.cur t s.pc)
def execTrap (h : Hdr) (imm : BitVec 32) (s : State) : Outcome :=
  s.issue (.trap h imm) h {} fun s => s.userTrap h (imm.setWidth 64)
def execSysc (h : Hdr) (n : BitVec 34) (s : State) : Outcome :=
  s.issue (.sysc h n) h {} fun s => s.userTrap h (2 ^ 63 + n.setWidth 64)
/-- Changes nothing and counts as a word (R166). -/
def execNop (h : Hdr) (s : State) : Outcome := s.issue (.nop h) h {} fun s => .next (s.retire h none {})

/-- The front end waits from this word on, or its wait is over. -/
def State.setWait (s : State) (c : CoreId) (w : FWait) : State :=
  s.modFront c fun f => f.modAt fun a =>
    { a with wait := w, waitSince := s.cycle, nextAt := if w = .none then max a.nextAt s.cycle else a.nextAt }
def execPause (h : Hdr) (imm : BitVec 32) (s : State) : Outcome :=
  s.issue (.pause h imm) h {} fun s =>
    .next (if imm = 0 then s.retire h none {} else s.setWait s.cur (.pause (s.cycle + imm.toNat)))
/-- The front end leaves its `pause`: the next word issues from a cycle on. -/
def State.pauseOver (s : State) (c : CoreId) (t : Nat) : State :=
  (s.setWait c .none).modFront c fun f => f.retire Hdr.zero none {} (t - 1)
/-- A `pause` ends once its cycles have passed (R165). -/
def execPauseEnd (c : CoreId) (s : State) : Outcome :=
  match (s.front c).at_.wait with
  | .pause t => .next (if t ≤ s.cycle then s.pauseOver c t else s)
  | _ => .next s

/-- The condition of a `wfi` holds (R320). FIFO 3 is D→F, FIFO 4 is K→F (R47). -/
def State.wakes (s : State) (c : CoreId) (wake : Fin 8) (limit : Nat) : Bool :=
  let q := (s.core c).live.queues.fifo
  (wake.val % 2 == 1 && q[3] != 0) || (wake.val / 2 % 2 == 1 && q[4] != 0) || (4 ≤ wake.val && decide (limit ≤ s.cycle))
def execWfi (h : Hdr) (wake : Fin 8) (a : SReg) (s : State) : Outcome :=
  let src := if 4 ≤ wake.val then [(Reg.s a, h.pda)] else []
  s.issue (.wfi h wake a) h { srcs := src } fun s =>
    let limit := (s.me.live.front.srcS a h.pda).toNat
    let t := s.retire h none {}
    .next (if s.wakes s.cur wake limit then t else t.setWait s.cur (.wfi wake limit))
/-- A `wfi` returns once its condition holds (R320). -/
def execWfiWake (c : CoreId) (s : State) : Outcome :=
  match (s.front c).at_.wait with
  | .wfi wake limit => .next (if s.wakes c wake limit then s.setWait c .none else s)
  | _ => .next s

/-- The selected circuit's window counts (R168). -/
def Core.windowCounts (k : Core) (sel : Fin 128) : Word :=
  let x := k.live.circuits[sel.val % 64]?.getD .reset
  if x.state = .open_ ∨ x.state = .closing then
    let half := sel.val / 64
    let win := (List.range 8).foldl (fun n j =>
      n + (match x.branches[8 * half + j]? with | some b => b.elastic.length | none => 0) * 2 ^ (5 * j)) 0
    BitVec.ofNat 64 (2 ^ 48 + x.branches.length * 2 ^ 40 + win)
  else 0
/-- What `getc` reads (R168). DESIGN CHOICE (log 57): `ctl.tags` shows the tags before the word's own allocation; the
specification does not say. -/
def State.readCtl (s : State) (r : CtlReg) (sel : Fin 128) : Word :=
  let k := s.me
  let f := k.live.front
  match r with
  | .cycle => BitVec.ofNat 64 s.cycle
  | .ptime => BitVec.ofNat 64 s.ptime
  | .core => BitVec.ofNat 64 s.cur.val
  | .fflags => f.regs.fflags
  | .round => f.regs.round
  | .seed => f.regs.seed
  | .wcnt => k.windowCounts sel
  | .tags => BitVec.ofNat 64 ((List.finRange 8).foldl (fun n t => if f.tagPending s.cycle t then n + 2 ^ t.val else n) 0)
  | .priv => BitVec.ofNat 64 f.level.code
  | .ls0 => f.regs.loops.ls0
  | .le0 => f.regs.loops.le0
  | .lc0 => f.regs.loops.lc0
  | .ls1 => f.regs.loops.ls1
  | .le1 => f.regs.loops.le1
  | .lc1 => f.regs.loops.lc1
def execGetc (h : Hdr) (r : CtlReg) (d : SReg) (sel : Fin 128) (s : State) : Outcome :=
  s.issue (.getc h r d sel) h { dsts := [.s d], lat := some 2, flags := r == .fflags } fun s =>
    .next (s.retire h (some 2) { writes := [writeS d (s.readCtl r sel)] })

/-- What a write of a control register stores; read-only registers ignore it (R167, R168). -/
def Regs.writeCtl (g : Regs) (r : CtlReg) (x : Word) : Regs :=
  match r with
  | .cycle | .ptime | .core | .wcnt | .tags | .priv => g
  | .fflags => { g with fflags := x &&& 0xFF }
  | .round => { g with round := roundStored x }
  | .seed => g.seedWith x
  | .ls0 => { g with loops := { g.loops with ls0 := x } }
  | .le0 => { g with loops := { g.loops with le0 := x } }
  | .lc0 => { g with loops := { g.loops with lc0 := x } }
  | .ls1 => { g with loops := { g.loops with ls1 := x } }
  | .le1 => { g with loops := { g.loops with le1 := x } }
  | .lc1 => { g with loops := { g.loops with lc1 := x } }
/-- A register that holds an address of a word. -/
def CtlReg.isAddr : CtlReg → Bool
  | .ls0 | .le0 | .ls1 | .le1 => true
  | _ => false
def execSetc (h : Hdr) (r : CtlReg) (a : SReg) (s : State) : Outcome :=
  s.issue (.setc h r a) h { srcs := [(.s a, h.pda)], flags := r == .fflags } fun s =>
    let x := s.me.live.front.srcS a h.pda
    if CtlReg.isAddr r && x.toNat % 10 != 0 then .next (s.trapHere .alignFault x)
    else .next ((s.modFront s.cur fun f => f.modRegs fun g => g.writeCtl r x).retire h none {})

/-- Returns from the frame of the current level (R316); the engines stopped by the fault try again once the
front end is back at U. -/
def execRett (h : Hdr) (s : State) : Outcome :=
  s.issue (.rett h) h { level := .s } fun s =>
    let f := s.me.live.front
    let x := f.frame f.level
    if !x.valid then .next (s.trapHere .undef (wordInfo (.rett h)))
    else if x.pc.toNat % 10 ≠ 0 then .next (s.trapHere .alignFault x.pc)
    else
      let s := s.modFront s.cur fun f => (f.allocate h none {} s.cycle).leave s.cycle
      .next (if (s.front s.cur).level = .u then s.modCore s.cur fun k => k.modLive Live.resumeParties else s)

/-- Stops the front end for good (R322), once every tag and fence has completed. -/
def execHalt (h : Hdr) (s : State) : Outcome :=
  s.issue (.halt h) h { level := .m } fun s =>
    if s.me.live.front.allClear s.cycle && s.me.flow.fencesDone then
      let s := s.endIteration s.cur
      .next (s.modCore s.cur fun k =>
        let k := { k with run := { k.run with halted := true } }
        k.setFront { k.live.front with sFrame := k.live.front.sFrame.clear, mFrame := k.live.front.mFrame.clear })
    else .next s

end Sys2Proof.Machine
end

