-- ==== Sys2Proof/Machine/MemIssue.lean ====
section
/-! DEFINITION. The memory and synchronisation instructions as they issue (R195 to R216). -/

namespace Sys2Proof.Machine

/-- Bytes of a width (R126). -/
def MWidth.size : MWidth → Nat
  | .b => 1
  | .h => 2
  | .w => 4
  | .d => 8
/-- EA of a contiguous form (R196). -/
def effAddr (base : Word) (off : BitVec 24) : Word := base + off.signExtend 64
/-- Minimum latency of a load in a space (R134, R217). -/
def loadLat (sp : Space) : Nat := if sp = .g then 300 else 12
/-- The access width of a 32- or 64-bit atomic. -/
def atomSize (dbl : Bool) : Nat := if dbl then 8 else 4

/-- Units of stores from their bytes and pieces. -/
def storeUnits : List (List Byte × List Piece) → List WUnit
  | [] => []
  | (_, []) :: xs => storeUnits xs
  | (bs, [p]) :: xs => ⟨p.addr, p.va, bs.take p.n, p.cmp⟩ :: storeUnits xs
  | (bs, p :: q :: _) :: xs =>
    ⟨p.addr, p.va, bs.take p.n, p.cmp⟩ :: ⟨q.addr, q.va, (bs.drop p.n).take q.n, q.cmp⟩ :: storeUnits xs
/-- The store-stream entry of units in a space. -/
def storeAct (sp : Space) (us : List WUnit) (comb : Comb) : StoreAct :=
  match spaceBuf sp with
  | some b => .buf b us comb
  | none => .req (.store us)

/-- A scalar load (R199). -/
def State.scalarLoad (s : State) (i : Instr) (h : Hdr) (d base : SReg) (sp : Space) (w : MWidth) (sx : Bool)
    (off : BitVec 24) (align : Nat) (acq : Option Scope) : Outcome :=
  s.issue i h { srcs := [(.s base, h.pda)], dsts := [.s d], engine := true } fun s =>
    let n := MWidth.size w
    s.withMem sp .load align [(effAddr (s.me.live.front.srcS base h.pda) off, n)] fun s ps need =>
      s.loadWord h (.s d) (wordOf (BitVec.allOnes 64)) (.scalar n sx) sp (loadUnits (ps.map fun p => (0, p))) acq (loadLat sp) need
def execLd (h : Hdr) (d base : SReg) (sp : Space) (w : MWidth) (sx : Bool) (off : BitVec 24) (s : State) : Outcome :=
  s.scalarLoad (.ld h d base sp w sx off) h d base sp w sx off 1 none
def execLdacq (h : Hdr) (d base : SReg) (sp : Space) (w : MWidth) (scope : Scope) (sx : Bool) (off : BitVec 24) (s : State) :
    Outcome :=
  s.scalarLoad (.ldacq h d base sp w scope sx off) h d base sp w sx off (MWidth.size w) (some scope)

/-- A scalar store (R199). -/
def State.scalarStore (s : State) (i : Instr) (h : Hdr) (data base : SReg) (sp : Space) (w : MWidth) (off : BitVec 24)
    (align : Nat) (rel : Option Scope) : Outcome :=
  s.issue i h { srcs := [(.s base, h.pda), (.s data, h.pdb)], engine := true } fun s =>
    let n := MWidth.size w
    let f := s.me.live.front
    s.withMem sp .store align [(effAddr (f.srcS base h.pda) off, n)] fun s ps need =>
      s.storeWord h (storeAct sp (storeUnits (ps.map fun p => (toBytes n (f.srcS data h.pdb).toNat, p))) .none) rel need
def execSt (h : Hdr) (data base : SReg) (sp : Space) (w : MWidth) (off : BitVec 24) (s : State) : Outcome :=
  s.scalarStore (.st h data base sp w off) h data base sp w off 1 none
def execStrel (h : Hdr) (data base : SReg) (sp : Space) (w : MWidth) (scope : Scope) (off : BitVec 24) (s : State) : Outcome :=
  s.scalarStore (.strel h data base sp w scope off) h data base sp w off (MWidth.size w) (some scope)

/-- Address of a lane in the contiguous and strided forms (R196, R200). -/
def laneAddr (str : Bool) (base : Word) (off : BitVec 24) (i : Nat) : Word :=
  if str then base + BitVec.ofNat 64 i * off.signExtend 64 else effAddr base off + BitVec.ofNat 64 (4 * i)
/-- Address of a lane of `vgather` and `vscatter` (R196). -/
def indexAddr (base : Word) (off : BitVec 24) (x : VecWord) (i : Nat) : Word :=
  effAddr base off + 4 * (lane x i).setWidth 64
/-- Largest number of distinct bank words that one bank receives (R202). -/
def bankLoad (b : Buf) (as : List Word) : Nat :=
  let words := (as.map fun a => a.toNat / 64).dedup
  let banks := if b = .ab then 8 else 16
  (List.range banks).foldl (fun n k => max n (words.countP fun w => w % banks == k)) 0

/-- A vector load: its active lanes at their addresses (R200, R201). -/
def State.vectorLoad (s : State) (i : Instr) (h : Hdr) (d : VReg) (base : SReg) (locks : List Reg) (sp : Space)
    (addr : Front → Nat → Word) (gather : Bool) : Outcome :=
  s.issue i h { srcs := [(.s base, h.pda)], locks := locks, dsts := [.v d], lanewise := true, engine := true } fun s =>
    let f := s.me.live.front
    let p := f.predicate h
    let ls := activeLanes p
    let as := ls.map (addr f)
    let lat := match spaceBuf sp with
      | none => 300
      | some b => if gather then max 12 (11 + bankLoad b as) else 12
    s.withMem sp .load 4 (as.map fun a => (a, 4)) fun s ps need =>
      s.loadWord h (.v d) (laneMask p) .vec sp (loadUnits ((ls.map (32 * ·)).zip ps)) none lat need
def execVld (h : Hdr) (d : VReg) (base : SReg) (sp : Space) (str : Bool) (off : BitVec 24) (s : State) : Outcome :=
  s.vectorLoad (.vld h d base sp str off) h d base [] sp (fun f => laneAddr str (f.srcS base h.pda) off) false
def execVgather (h : Hdr) (d : VReg) (base : SReg) (sp : Space) (x : VReg) (off : BitVec 24) (s : State) : Outcome :=
  s.vectorLoad (.vgather h d base sp x off) h d base [.v x] sp
    (fun f => indexAddr (f.srcS base h.pda) off (f.regs.getV x)) true

/-- A vector store of its active lanes (R200, R201). -/
def State.vectorStore (s : State) (i : Instr) (h : Hdr) (data : VReg) (base : SReg) (locks : List Reg) (sp : Space)
    (comb : Comb) (addr : Front → Nat → Word) : Outcome :=
  s.issue i h { srcs := [(.s base, h.pda), (.v data, h.pdb)], locks := locks, lanewise := true, engine := true } fun s =>
    let f := s.me.live.front
    let ls := activeLanes (f.predicate h)
    let x := f.srcV data h.pdb
    s.withMem sp .store 4 (ls.map fun k => (addr f k, 4)) fun s ps need =>
      if ls.isEmpty then .next (s.retire h none {})
      else s.storeWord h (storeAct sp (storeUnits ((ls.map fun k => toBytes 4 (lane x k).toNat).zip ps)) comb) none need
def execVst (h : Hdr) (data : VReg) (base : SReg) (sp : Space) (str : Bool) (off : BitVec 24) (s : State) : Outcome :=
  s.vectorStore (.vst h data base sp str off) h data base [] sp .none fun f => laneAddr str (f.srcS base h.pda) off
def execVscatter (h : Hdr) (data : VReg) (base : SReg) (sp : Space) (comb : Comb) (x : VReg) (off : BitVec 24) (s : State) :
    Outcome :=
  s.vectorStore (.vscatter h data base sp comb x off) h data base [.v x] sp comb
    fun f => indexAddr (f.srcS base h.pda) off (f.regs.getV x)

/-- Places its marker (R99, R203): later loads take the core's own stores before it. -/
def execAlign (h : Hdr) (s : State) : Outcome :=
  s.issue (.align h) h { engine := true } fun s =>
    let po := s.me.live.front.at_.po
    .next ((s.retire h none {}).modFront s.cur fun f => f.modAt fun a => { a with mark := po })
/-- An acquire joins the load stream (R106). -/
def Core.pushAcquire (k : Core) (c : CoreId) (now : Nat) (atomic : Option Nat) (scope : Scope) : Core :=
  let a := k.live.front.at_
  (k.modFlow fun f => { f with loads := f.loads ++ [⟨.acquire atomic, .g, [], none, a.po, a.mark, some scope, now, none, a.pc⟩] }).settle
    c now
/-- A release, an acquire, or both (R204). -/
def execFence (h : Hdr) (ord : Ord) (scope : Scope) (s : State) : Outcome :=
  s.issue (.fence h ord scope) h { engine := true } fun s =>
    let po := s.me.live.front.at_.po
    let s := if ord = .rel ∨ ord = .ar then s.modCore s.cur fun k => k.pushGate s.cur s.cycle .release scope h.tag else s
    let held := s.me.flow.storeQ.any fun o => o.po == po
    let s := if ord = .acq ∨ ord = .ar then s.modCore s.cur fun k => k.pushAcquire s.cur s.cycle none scope else s
    .next (s.retire h none { holdTag := held })

/-- The release scope of an annotation (R105). -/
def Ord.release (o : Ord) (x : Scope) : Option Scope := if o = .rel ∨ o = .ar then some x else none
/-- The acquire of an annotation (R105). -/
def Ord.acquires (o : Ord) : Bool := o == .acq || o == .ar

/-- An `amo` or `cas` issues (R205 to R207): it releases, joins the store stream, and acquires when its result
arrives. -/
def State.atomicWord (s : State) (h : Hdr) (d : SReg) (t : TagId) (scope : Scope) (ord : Ord) (r : Req) (addr : Nat)
    (need : Option Need) : Outcome :=
  let k := s.me
  let f := k.live.front
  let queued := k.flow.storeQ.foldl (fun n o => n + (match o.act with | .req r => r.size | _ => 0)) 0
  if !k.logRoom || !k.holdRoom (queued + r.size) then .next s
  else
    let known := match k.logged with
      | some x => x
      | none => none
    let p := f.pendOf (.s d) (wordOf (BitVec.allOnes 64)) (s.cycle + 460 + if need.isSome then 0 else 2 * s.homeDelay s.cur addr) known
    let s := s.modCore s.cur fun k => k.pushStore s.cur s.cycle (.req r) (Ord.release ord scope) none 0 need
    let s := if Ord.acquires ord && known.isNone then s.modCore s.cur fun k => k.pushAcquire s.cur s.cycle (some f.at_.po) scope else s
    .next (s.retire { h with tag := some t } none { pend := some p })
/-- The tag that a word of variable latency must have (R133). -/
def Hdr.theTag (h : Hdr) : TagId := h.tag.getD 0
def execAmo (h : Hdr) (d base : SReg) (dbl : Bool) (scope : Scope) (ord : Ord) (op : AmoOp) (u : Bool) (off : BitVec 24)
    (s : State) : Outcome :=
  s.issue (.amo h d base dbl scope ord op u off) h
    { srcs := [(.s base, h.pda), (.s d, h.pdb)], dsts := [.s d], engine := true } fun s =>
    let f := s.me.live.front
    let a := effAddr (f.srcS base h.pda) off
    s.withMem .g .rmw (atomSize dbl) [(a, atomSize dbl)] (deny := op == .fadd && (s.pairedSide s.cur).isSome) fun s ps need =>
      let pa := ((ps.headD []).head?.map (·.addr)).getD 0
      s.atomicWord h d (Hdr.theTag h) scope ord (.amo pa a dbl op u (f.srcS d h.pdb) (Hdr.theTag h) f.at_.po) pa need
def execCas (h : Hdr) (d base : SReg) (dbl : Bool) (scope : Scope) (ord : Ord) (off : BitVec 24) (s : State) : Outcome :=
  s.issue (.cas h d base dbl scope ord off) h
    { srcs := [(.s base, h.pda), (.s d, h.pdb)], locks := [.s (d + 1)], dsts := [.s d], engine := true } fun s =>
    let f := s.me.live.front
    let a := effAddr (f.srcS base h.pda) off
    s.withMem .g .rmw (atomSize dbl) [(a, atomSize dbl)] fun s ps need =>
      let pa := ((ps.headD []).head?.map (·.addr)).getD 0
      s.atomicWord h d (Hdr.theTag h) scope ord
        (.cas pa a dbl (f.srcS d h.pdb) (f.regs.getS (d + 1)) (Hdr.theTag h) f.at_.po) pa need

/-- A word whose request goes to one record (R208 to R215). -/
def State.recordWord (s : State) (i : Instr) (h : Hdr) (srcs : List (Reg × Fin 4)) (base : SReg) (off : BitVec 24) (align : Nat)
    (deny : State → Bool) (k : State → Nat → Word → Option Need → Outcome) (blocks : Bool := false) : Outcome :=
  s.issue i h { srcs := (.s base, h.pda) :: srcs, engine := true } fun s =>
    let a := effAddr (s.me.live.front.srcS base h.pda) off
    s.withMem .g .rmw align [(a, align)] (deny := deny s) (blocks := blocks) fun s ps need =>
      k s (((ps.headD []).head?.map (·.addr)).getD 0) a need
/-- R209: the sequence number counts contributions in store-stream order. -/
def execCred (h : Hdr) (data base : SReg) (dbl : Bool) (scope : Scope) (ord : Ord) (op : AmoOp) (u : Bool) (cm1 : Fin 16)
    (off : BitVec 24) (s : State) : Outcome :=
  s.recordWord (.cred h data base dbl scope ord op u cm1 off) h [(.s data, h.pdb)] base off 16
    (fun s => op == .fadd && (s.pairedSide s.cur).isSome) fun s pa va need =>
    let k := s.me
    let x := k.live.front.srcS data h.pdb
    let t := k.live.prod.cred
    match s.storeWord h (.req (.cred pa va dbl op u (cm1.val + 1) x t)) (Ord.release ord scope) need with
    | .next s1 =>
      if s1.me.live.front.at_.po = k.live.front.at_.po then .next s1
      else .next (s1.modCore s.cur fun k => k.modLive fun l => { l with prod := { l.prod with cred := t + 1 } })
    | o => o
def execBarInit (h : Hdr) (data base : SReg) (scope : Scope) (off : BitVec 24) (s : State) : Outcome :=
  s.recordWord (.barInit h data base scope off) h [(.s data, h.pdb)] base off 32 (fun _ => false) fun s pa va need =>
    s.storeWord h (.req (.barInit pa va scope (s.me.live.front.srcS data h.pdb))) none need
def execBarArrive (h : Hdr) (base : SReg) (rel : Bool) (scope : Scope) (off : BitVec 24) (s : State) : Outcome :=
  s.recordWord (.barArrive h base rel scope off) h [] base off 32 (fun _ => false) fun s pa va need =>
    s.storeWord h (.req (.barArrive pa va)) (if rel then some scope else none) need
/-- R213: the front end waits at this word; a logged completion of it is taken at once (R360). -/
def execBarWait (h : Hdr) (base : SReg) (scope : Scope) (ph : PhSrc) (off : BitVec 24) (s : State) : Outcome :=
  let srcs := match ph with
    | .imm _ => []
    | .reg b => [(Reg.s b, h.pdb)]
  s.recordWord (.barWait h base scope ph off) h srcs base off 32 (fun _ => false) (blocks := true) fun s pa va _ =>
    let v := match ph with
      | .imm p => p
      | .reg b => (s.me.live.front.srcS b h.pdb).getLsbD 0
    if s.me.logged.isSome then .next (s.retire h none {})
    else if !s.me.logRoom then .next s
    else .next (s.setWait s.cur (.barWait pa va v scope none))
def execGjoin (h : Hdr) (base : SReg) (off : BitVec 24) (s : State) : Outcome :=
  s.recordWord (.gjoin h base off) h [] base off 64 (fun _ => false) fun s pa va need =>
    s.storeWord h (.req (.group pa va true none)) none need
/-- R215: it waits for the reply to an outstanding arrival of its own core, and carries the phase. -/
def execGleave (h : Hdr) (base : SReg) (off : BitVec 24) (s : State) : Outcome :=
  s.recordWord (.gleave h base off) h [] base off 64 (fun _ => false) (blocks := true) fun s pa va _ =>
    match s.me.live.front.gbar.find? fun g => g.addr == pa with
    | some ⟨_, _, none⟩ => .next s
    | some ⟨_, _, some p⟩ => s.storeWord h (.req (.group pa va false (some p))) none
    | none => s.storeWord h (.req (.group pa va false none)) none
/-- R215: a release, then the arrival, then the wait; progress already recorded resumes in the wait part. -/
def execGbar (h : Hdr) (base : SReg) (scope : Scope) (off : BitVec 24) (s : State) : Outcome :=
  s.recordWord (.gbar h base scope off) h [] base off 64 (fun _ => false) (blocks := true) fun s pa va _ =>
    if s.me.logged.isSome then .next (s.retire h none {})
    else if !s.me.logRoom then .next s
    else
      let sent := s.me.live.front.gbar.any fun g => g.addr == pa
      let s := if sent then s else s.modCore s.cur fun k => k.pushGate s.cur s.cycle .release scope none
      .next (s.setWait s.cur (.gbar pa va scope sent))

/-- A FIFO's count changed (R21). -/
def Live.setFifo (l : Live) (j : Fin 8) (n : Fin 17) : Live :=
  { l with queues := { l.queues with fifo := l.queues.fifo.set j n } }
/-- A token is there. -/
def Live.hasToken (l : Live) (j : Fin 8) : Bool := l.queues.fifo[j] != 0
/-- What the tokens of a FIFO cover, changed. -/
def Live.setMarks (l : Live) (j : Fin 8) (ns : List Nat) : Live :=
  { l with queues := { l.queues with marks := l.queues.marks.set j ns } }
/-- A token popped under a condition. -/
def Live.popIf (l : Live) (b : Bool) (j : Fin 8) : Live :=
  if b then (l.setFifo j (l.queues.fifo[j] - 1)).setMarks j (l.queues.marks[j].drop 1) else l
/-- What the token that a pop would take covers: the core's stores before a program-order number (R108, R109). -/
def Live.covered (l : Live) (b : Bool) (j : Fin 8) : Nat := if b then l.queues.marks[j].headD 0 else 0
/-- A token pushed under a condition by a party that observes the core's stores before a program-order number: what the
party that pops it has acquired (R109, R216). -/
def Live.pushIf (l : Live) (b : Bool) (j : Fin 8) (mark : Nat) : Live :=
  if b then (l.setFifo j (l.queues.fifo[j] + 1)).setMarks j (l.queues.marks[j] ++ [mark]) else l
/-- The tokens that `tokw` names are present: D→F is FIFO 3, K→F is FIFO 4 (R47, R216). -/
def Live.tokwReady (l : Live) (wp wn : Bool) : Bool := (!wp || l.hasToken 3) && (!wn || l.hasToken 4)
/-- `tokw` pops both in one cycle. -/
def Live.tokwTake (l : Live) (wp wn : Bool) : Live := (l.popIf wp 3).popIf wn 4
def execTokw (h : Hdr) (wp wn : Bool) (s : State) : Outcome :=
  s.issue (.tokw h wp wn) h {} fun s =>
    if s.me.live.tokwReady wp wn then
      .next ((s.modCore s.cur fun k => k.modLive fun l => l.tokwTake wp wn).retire h none {})
    else .next (s.setWait s.cur (.tokw wp wn))
/-- A FIFO that a push would overfill: the one of SP first (R128, R216). -/
def Live.tokenOver (l : Live) (sp sn : Bool) (jp jn : Fin 8) : Option (Fin 8) :=
  if sp && l.queues.fifo[jp] == 16 then some jp else if sn && l.queues.fifo[jn] == 16 then some jn else none
def execToks (h : Hdr) (sp sn : Bool) (s : State) : Outcome :=
  s.issue (.toks h sp sn) h {} fun s =>
    match s.me.live.tokenOver sp sn 7 0 with
    | some j => .next (s.trapHere .tokenOver (BitVec.ofNat 64 j.val))
    | none => .next ((s.modCore s.cur fun k => k.modLive fun l =>
        (l.pushIf sp 7 l.front.at_.po).pushIf sn 0 l.front.at_.po).retire h none {})

end Sys2Proof.Machine
end

