-- ==== Sys2Proof/Machine/Combine.lean ====
section
/-! DEFINITION. What the homes do: combining, barriers, groups, signatures, and requests on their way (R111 to
R114, R201, R205 to R215, R372). -/

namespace Sys2Proof.Machine

/-- A combining word (R201, R252). -/
def combineWord (c : Comb) (word x : Lane) : Lane :=
  match c with
  | .none => x
  | .addI32 => word + x
  | .addF32 => addNode word x
  | .maxI32 => if word.slt x then x else word
  | .maxF32 => BitVec.ofNat 32 (minMaxCode descF32 true word.toNat x.toNat)
/-- The form of RED (R249). -/
def redComb (r : Fin 5) : Comb :=
  match r.val with
  | 1 => .addI32
  | 2 => .addF32
  | 3 => .maxI32
  | 4 => .maxF32
  | _ => .none
/-- The new value of an `amo` or a contribution of w bits (R205). -/
def amoResult {w : Nat} (op : AmoOp) (u : Bool) (old x : BitVec w) : BitVec w :=
  match op with
  | .add => old + x
  | .fadd => (addNode (old.setWidth 32) (x.setWidth 32)).setWidth w
  | .min => if (if u then x.ult old else x.slt old) then x else old
  | .max => if (if u then old.ult x else old.slt x) then x else old
  | .and => old &&& x
  | .or => old ||| x
  | .xor => old ^^^ x
  | .swap => x
/-- The same on the low w bits of words. -/
def amoWord (dbl : Bool) (op : AmoOp) (u : Bool) (old x : Nat) : Nat :=
  if dbl then (amoResult op u (BitVec.ofNat 64 old) (BitVec.ofNat 64 x)).toNat
  else (amoResult op u (BitVec.ofNat 32 old) (BitVec.ofNat 32 x)).toNat

-- signatures (R372)

/-- The summand h of R372. -/
def sigTerm (a : Word) (d : Word) (m : Nat) : Word :=
  (((a >>> 3) * 0x9E3779B97F4A7C15).rotateLeft 29) ^^^ (d * 0xC2B2AE3D27D4EB4F) ^^^ BitVec.ofNat 64 m
/-- Consecutive units that one unaligned store wrote in one 8-byte word belong together. -/
def mergeUnits : List WUnit → List WUnit
  | u :: v :: us =>
    if u.addr + u.bytes.length = v.addr ∧ u.bytes.length + v.bytes.length ≤ 4 ∧ u.addr / 8 = v.addr / 8
    then { u with bytes := u.bytes ++ v.bytes } :: mergeUnits us
    else u :: mergeUnits (v :: us)
  | us => us
/-- The units of a copy block joined into the runs that it writes. -/
def joinUnits : List WUnit → List WUnit
  | [] => []
  | u :: us =>
    match joinUnits us with
    | v :: vs => if u.addr + u.bytes.length = v.addr ∧ u.va + BitVec.ofNat 64 u.bytes.length = v.va then
        { u with bytes := u.bytes ++ v.bytes } :: vs else u :: v :: vs
    | [] => [u]
/-- The writes that a signature counts (R372): a copy block is one write, a combining word is one, and so is a lane. -/
def Req.signed (r : Req) (us : List WUnit) : List WUnit :=
  match r with
  | .copyWrite _ _ red _ => if red = 0 then joinUnits us else us
  | _ => mergeUnits us
/-- The summands of a write: one for each 8-byte word it touches. -/
def unitSig (u : WUnit) : Word :=
  (List.range (u.bytes.length / 8 + 2)).foldl (fun n k =>
    let w := u.va.toNat / 8 + k
    let cells := (List.range u.bytes.length).filter fun i => (u.va.toNat + i) / 8 == w
    if cells.isEmpty then n
    else
      let d := cells.foldl (fun d i => d + (u.bytes.getD i 0).toNat * 2 ^ (8 * ((u.va.toNat + i) % 8))) 0
      let m := cells.foldl (fun m i => m + 2 ^ ((u.va.toNat + i) % 8)) 0
      n + sigTerm (BitVec.ofNat 64 (8 * w)) (BitVec.ofNat 64 d) m) 0
/-- A summand added to the signature of the core's side. -/
def State.sign (s : State) (c : CoreId) (h : Word) : State :=
  match s.pairedSide c, (s.core c).run.job with
  | some b, some j => s.modLaunch j.part j.launch fun l => if b then { l with sigB := l.sigB + h } else { l with sigA := l.sigA + h }
  | _, _ => s
/-- The signature of a combiner operation with its opcode. -/
def State.signOp (s : State) (m : Msg) (va d : Word) (op : Nat) : State :=
  if m.hold.phys then s else s.sign m.src (sigTerm va d (0x100 + op))

-- barriers (R113, R210)

/-- A barrier record. -/
structure BarRec where
  arrived : Nat
  expect : Nat
  pend : Nat
  scope : Nat
  over_ : Bool
  phase : Bool
  init : Nat
  deriving DecidableEq, Repr

/-- The record at an address (R210). -/
def State.readBar (s : State) (a : Nat) : BarRec :=
  let w0 := (s.peek a 8).1
  let w2 := (s.peek (a + 16) 8).1
  { arrived := w0 / 2 ^ 32, expect := w0 % 2 ^ 32, pend := (s.peek (a + 8) 8).1 % 2 ^ 48, scope := w2 / 2 ^ 50 % 4,
    over_ := w2 / 2 ^ 49 % 2 == 1, phase := w2 / 2 ^ 48 % 2 == 1, init := w2 % 2 ^ 48 }
/-- The record written back. -/
def State.writeBar (s : State) (a : Nat) (b : BarRec) (poison : Bool) : State :=
  let w0 := b.arrived % 2 ^ 32 * 2 ^ 32 + b.expect
  let w2 := b.scope * 2 ^ 50 + (if b.over_ then 2 ^ 49 else 0) + (if b.phase then 2 ^ 48 else 0) + b.init
  s.poke a (toBytes 8 w0 ++ toBytes 8 b.pend ++ toBytes 8 w2 ++ toBytes 8 0) false poison
/-- A phase completes (R113). -/
def BarRec.complete (b : BarRec) : BarRec := { b with phase := !b.phase, arrived := 0, pend := b.init }
/-- One arrival, or a bound write of n bytes, and the check that follows it (R113). -/
def BarRec.operate (b : BarRec) (arrivals n : Nat) : BarRec :=
  let a := b.arrived + arrivals
  if b.pend < n ∨ b.expect < a then { b with over_ := true }.complete
  else if a = b.expect ∧ b.pend - n = 0 then b.complete
  else { b with arrived := a, pend := b.pend - n }
/-- The operation at the home. -/
def State.barrier (s : State) (a arrivals n : Nat) (poison : Bool := false) : State :=
  s.writeBar a ((s.readBar a).operate arrivals n) poison

-- groups (R44, R45)

/-- A group record. -/
structure GroupRec where
  members : Nat
  phase : Bool
  arrived : Nat
  nmemb : Nat
  deriving DecidableEq, Repr

/-- The record at an address (R44). -/
def State.readGroup (s : State) (a : Nat) : GroupRec :=
  let w := (s.peek (a + 32) 8).1
  { members := (s.peek a 32).1, phase := w / 2 ^ 18 % 2 == 1, arrived := w / 2 ^ 9 % 2 ^ 9, nmemb := w % 2 ^ 9 }
/-- The record written back. -/
def State.writeGroup (s : State) (a : Nat) (g : GroupRec) (poison : Bool) : State :=
  s.poke a (toBytes 32 g.members ++ toBytes 8 ((if g.phase then 2 ^ 18 else 0) + g.arrived % 512 * 512 + g.nmemb % 512)) false poison
/-- A core is a member. -/
def GroupRec.has (g : GroupRec) (c : CoreId) : Bool := g.members / 2 ^ c.val % 2 == 1
/-- The phase completes once every member has arrived (R45). -/
def GroupRec.settle (g : GroupRec) : GroupRec :=
  if g.nmemb ≠ 0 ∧ g.arrived = g.nmemb then { g with phase := !g.phase, arrived := 0 } else g
/-- A core joins (R45). -/
def GroupRec.join (g : GroupRec) (c : CoreId) : GroupRec :=
  (if g.has c then g else { g with members := g.members + 2 ^ c.val, nmemb := g.nmemb + 1 }).settle
/-- A core leaves, withdrawing an arrival of the open phase (R45). -/
def GroupRec.leave (g : GroupRec) (c : CoreId) (arrived : Option Bool) : GroupRec :=
  (if g.has c then
    { g with
      members := g.members - 2 ^ c.val, nmemb := g.nmemb - 1
      arrived := if arrived == some g.phase then g.arrived - 1 else g.arrived }
   else g).settle
/-- A member arrives (R45, R215). -/
def GroupRec.arrive (g : GroupRec) (c : CoreId) : GroupRec :=
  (if g.has c then { g with arrived := g.arrived + 1 } else g).settle
/-- The members in ascending identifier. -/
def GroupRec.list (g : GroupRec) : List CoreId := (List.finRange 256).filter g.has

-- requests on their way

/-- A message by its number. -/
def State.msg (s : State) (id : Nat) : Option Msg := s.net.find? fun (m : Msg) => m.id == id
/-- A message gone. -/
def State.dropMsg (s : State) (id : Nat) : State := { s with net := s.net.filter fun (m : Msg) => m.id != id }
/-- The circuit number that the flits of a request name in UDESC (R397). -/
def Req.circ : Req → Nat
  | .opening n .. => n.val
  | .far _ _ _ n _ => n.val
  | _ => 0
/-- A message put on its way; one for another chip takes the port of the chip table (R400). A notice to a circuit of another
chip is all in its flit. -/
def State.send (s : State) (c : CoreId) (e : Hold) : State :=
  let q := s.reqPort e.req
  let id := s.nextMsg
  let gone := match e.req with
    | .far .. => true
    | _ => false
  let s := if gone then s else { s with
    net := s.net ++ [{ id := id, src := c, hold := e, part := s.pmapOf c, departed := s.cycle, applied := [], sends := 0
                       dropped := none, port := q }]
    nextMsg := id + 1 }
  match q with
  | some q => match e.req.dest.1 with
    | .chip n d _ => s.transmitAll q (s.pmapOf c) e.req.flitType n (udescOf d e.req.circ 0) e.size
    | _ => s
  | none => s
/-- A store-stream effect may be performed: every earlier one has been, but for atomics of other homes and relaxed
barrier arrivals; such an arrival waits for none (R98, R111, R114). -/
def Flow.turnOf (f : Flow) (num : Nat) (atomic : Bool) (h : Home) : Bool :=
  (f.sent.any fun e => e.num == num && e.loose) ||
  f.sent.all fun e => decide (num ≤ e.num) || e.left == 0 || e.loose || (e.atomic && atomic && e.home != h)
/-- An effect of the store stream has been performed in one unit. -/
def Flow.performed (f : Flow) (num now : Nat) : Flow :=
  { f with sent := (f.sent.map fun e => if e.num == num then
              { e with left := e.left - 1, done := if e.left ≤ 1 then some now else e.done } else e).filter
            fun e => !(e.homes == [.buffer] && e.left == 0) }
/-- A core's store stream after a unit was performed. -/
def State.performed (s : State) (c : CoreId) (num : Nat) : State :=
  s.modCore c fun k => (k.modFlow fun f => f.performed num s.cycle).settle c s.cycle
/-- A request may be applied at its home: it has crossed the way, no guard drops it, and it is its turn. -/
def State.mayApply (s : State) (m : Msg) (a : Nat) : Bool :=
  m.dropped.isNone && s.portReady m && decide (m.departed + s.homeDelay m.src a ≤ s.cycle) &&
  (s.guard m.part m.src (destOf a)).isNone &&
  (m.hold.stream != .store || (s.core m.src).flow.turnOf m.hold.num m.hold.req.atomic (homeOf a))
/-- Route identifier of a request (R378). -/
def Msg.route (m : Msg) : Nat := 4096 * m.part.val + endpoint m.src m.hold.party
/-- An operation on a combiner of a local home may be applied: its turn, and that of its route identifier (R111). -/
def State.mayCombine (s : State) (m : Msg) (a : Nat) : Bool :=
  s.mayApply m a && (!localHbm a || s.tieFree (homeDie a).val m.route)
/-- The combiner of an address has applied an operation (R111). -/
def State.combined (s : State) (m : Msg) (a : Nat) : State := if localHbm a then s.tie (homeDie a).val m.route else s
/-- A request applied whole: removed from the way, counted as performed. -/
def State.applied (s : State) (m : Msg) : State :=
  let s := (s.dropMsg m.id).touch m.part
  if m.hold.stream = .store then s.performed m.src m.hold.num else s
/-- A result for a word of a core: into its pending tag, and into the replay log (R133, R360). -/
def State.answer (s : State) (c : CoreId) (t : TagId) (po : Nat) (v : VecWord) (trap : Option Trap) : State :=
  s.modCore c fun k =>
    let k := if trap.isNone then k.logInput po (some v) else k
    match k.live.front.tags[t] with
    | some p => if p.po = po ∧ !p.fixed then
        k.setFront { k.live.front with tags := k.live.front.tags.set t (some { p with value := some v, trap := trap }) }
      else k
    | none => k
/-- A word's value in the scope of a whole scalar register. -/
def scalarVec (n : Nat) : VecWord := BitVec.ofNat 2048 (n % 2 ^ 64)

/-- The front end of a core returns from a wait with its word retired (R213, R215, R216, R257, R283). -/
def State.endWait (s : State) (c : CoreId) : State :=
  let s := s.setWait c .none
  s.modFront c fun f => f.retire Hdr.zero none {} s.cycle

end Sys2Proof.Machine
end

