-- ==== Sys2Proof/Machine/Records.lean ====
section
/-! DEFINITION. Launch records and launch queues: their fields, the parts of the checks of R32, and the entries of a
queue (R31, R32, R34, R326 to R329). -/

namespace Sys2Proof.Machine

/-- A byte as a party reads it: a remote one is free. -/
def State.peekFar (s : State) (a n : Nat) (cmp : Bool) : Nat × Bool × State :=
  if (remoteChip a).isSome then
    let t := s.takeNat
    (t.1 % 256 ^ n, false, t.2)
  else
    let r := s.peek a n cmp
    (r.1, r.2, s)
-- launch records (R31, R32)

/-- Iterations of a launch: the product of its extents (R34). -/
def LaunchRec.iters (r : LaunchRec) : Nat := r.dims.foldl (fun n e => n * e.1) 1
/-- The record, from its words. -/
def launchRec (w : List Word) : LaunchRec :=
  let g := fun (i : Nat) => w.getD i 0
  { cmax := bits (g 0) 41 9, cmin := bits (g 0) 32 9, gang := (g 0).getLsbD 16, waiten := (g 0).getLsbD 15
    paired := (g 0).getLsbD 14, prio := Fin.ofNat 4 (bits (g 0) 8 2), code := g 1, waitph := (g 2).getLsbD 8
    vahi := (g 2).setWidth 8, param := g 3, wbKib := bits (g 5) 0 16, abKib := bits (g 5) 16 16, cbKib := bits (g 5) 32 16
    dims := (List.range (bits (g 0) 10 4)).map fun k => (bits (g (8 + k)) 0 32, bits (g (8 + k)) 32 3)
    rings := (List.range (min 16 (bits (g 0) 24 8))).map fun j => g (16 + j) }
/-- The definition of a ring in a record (R31). -/
def ringOf (w : Word) : RingDef :=
  { buf := if bits w 4 2 = 1 then .wb else if bits w 4 2 = 2 then .ab else .cb, base := bits w 6 13, nslot := bits w 29 7
    slotsz := bits w 19 10, coord0 := 0, cstep := 1, chk := false }

/-- A core's mirror (R370). -/
def mirror (c : CoreId) : CoreId := coreAt (if c.die.val % 2 = 0 then c.die.val + 1 else c.die.val - 1) c.y (7 - c.x)
/-- Mirrored pairs of a partition (R370). -/
def State.pairsOf (s : State) (p : PartId) : Nat := ((s.coresOf p).countP fun c => s.partOf (mirror c) == some p) / 2

/-- A reserved field, an unused entry or an unused ring definition is not zero (R32). -/
def recReserved (w : List Word) : Bool :=
  let g := fun (i : Nat) => w.getD i 0
  bits (g 0) 50 14 != 0 || bits (g 0) 17 7 != 0 || bits (g 2) 9 55 != 0 || bits (g 5) 48 16 != 0 ||
  ((List.range 8).any fun k => bits (g (8 + k)) 35 29 != 0 || (decide (bits (g 0) 10 4 ≤ k) && g (8 + k) != 0)) ||
  (List.range 16).any fun j => bits (g (16 + j)) 36 28 != 0 || (decide (bits (g 0) 24 8 ≤ j) && g (16 + j) != 0)
/-- NDIM, the nesting positions and the count of iterations (R32). -/
def LaunchRec.shapeOk (r : LaunchRec) : Bool :=
  let n := r.dims.length
  decide (1 ≤ n) && decide (n ≤ 8) && ((List.range n).all fun i => r.dims.any fun e => e.2 == i) && decide (r.iters < 2 ^ 48)
/-- The core set (R32, R370). -/
def State.coresetOk (s : State) (p : PartId) (r : LaunchRec) : Bool :=
  let n := if r.paired then s.pairsOf p else (s.coresOf p).length
  decide (1 ≤ r.cmin) && decide (r.cmin ≤ r.cmax) && decide (r.cmax ≤ n) && (!r.gang || r.cmin == r.cmax)
/-- The reservation in a buffer, in bytes. -/
def LaunchRec.reserve (r : LaunchRec) (b : Buf) : Nat := 1024 * (match b with | .wb => r.wbKib | .ab => r.abKib | .cb => r.cbKib)
/-- The buffers and rings (R32). -/
def LaunchRec.buffersOk (r : LaunchRec) (nring : Nat) : Bool :=
  decide (r.wbKib ≤ 4096) && decide (r.abKib ≤ 3072) && decide (r.cbKib ≤ 1024) && decide (nring ≤ 16) &&
  decide ((r.rings.map fun w => bits w 0 4).Nodup) &&
  r.rings.all fun w =>
    let d := ringOf w
    bits w 4 2 != 0 && decide (1 ≤ d.nslot) && decide (d.nslot ≤ 64) && decide (1 ≤ d.slotsz) && decide (d.slotsz ≤ 512) &&
    decide (512 * (d.base + d.nslot * d.slotsz) ≤ r.reserve d.buf)
/-- A barrier of a record, translated at enqueue in a context (R32): its physical address. -/
def State.recBarrier (s : State) (asid vahi : Byte) (a : Word) : Option Nat :=
  if a.toNat % 32 ≠ 0 then none
  else
    let va := vahi.toNat * 2 ^ 64 + a.toNat
    match s.walk asid va with
    | some l => if l.permits .rmw .u && !l.cmp then some (l.pa + va % (if l.blk then 2 ^ 30 else 2 ^ 16)) else none
    | none => none

/-- The bytes of a span of a context as the device reads them at level U; none where a page does not translate or
permit the access. -/
def State.readContext (s : State) (asid : Byte) (acc : Access) : List (Nat × Nat) → Option (List Byte) × State
  | [] => (some [], s)
  | (va, n) :: xs =>
    match s.walk asid va with
    | none => (none, s)
    | some l =>
      if !l.permits acc .u then (none, s)
      else
        let y := s.readFar (l.pa + va % (if l.blk then 2 ^ 30 else 2 ^ 16)) n l.cmp
        let r := y.2.readContext asid acc xs
        (r.1.map fun bs => y.1 ++ bs, r.2)
/-- The first code line of a record (R327); none where it does not translate (R350). -/
def State.codeLine (s : State) (asid vahi : Byte) (a : Word) : Option (List Byte) × State :=
  s.readContext asid .fetch ((pagePieces a 80).map fun x => (vahi.toNat * 2 ^ 64 + x.1.toNat, x.2))
/-- The 32 words of a record at a physical address; those of another chip are free. -/
def State.recWords (s : State) (a : Nat) (cmp : Bool) : List Word × State :=
  (List.range 32).foldl (fun (x : List Word × State) i =>
    let r := x.2.peekFar (a + 8 * i) 8 cmp
    (x.1 ++ [BitVec.ofNat 64 r.1], r.2.2)) ([], s)
/-- A write of the device into a record. -/
def State.pokeRec (s : State) (a : Nat) (bs : List Byte) (cmp : Bool) : State :=
  if (remoteChip a).isSome then s else s.poke a bs cmp false

/-- The launch that a record makes, once its fields and translations are fixed (R32, R327). DESIGN CHOICE (log 56): it runs
with the words as they are read here, where the specification lets a word changed before the launch ends be taken old or new
(R33). -/
def State.makeLaunch (s : State) (p : PartId) (q : QueueNo) (addr : Nat) (va : Word) (cmp : Bool) (asid : Byte) (w : List Word) : Launch :=
  let r := launchRec w
  { id := s.nextLaunch, part := p, queue := q, addr := addr, va := va, asid := asid, cmp := cmp
    line := (s.codeLine asid r.vahi r.code).1, lrec := r
    waitBar := if r.waiten then s.recBarrier asid r.vahi (w.getD 7 0) else none
    doneBar := if w.getD 4 0 = 0 then none else s.recBarrier asid r.vahi (w.getD 4 0)
    next := 0, ended := 0, cores := [], order := 0, running := false, sigA := 0, sigB := 0 }

-- queues (R326, R327)

/-- Entries of a queue. -/
def LQueue.room (x : LQueue) : Nat := 2 ^ (bits x.cfg 8 4 + 4)
/-- TAIL − HEAD. -/
def LQueue.length (x : LQueue) : Nat := (bits x.ptr 32 32 + 2 ^ 32 - bits x.ptr 0 32) % 2 ^ 32
/-- HEAD and TAIL advanced. -/
def LQueue.setPtr (x : LQueue) (tail head : Nat) : LQueue := { x with ptr := BitVec.ofNat 64 (tail % 2 ^ 32 * 2 ^ 32 + head % 2 ^ 32) }
/-- A partition with a queue changed. -/
def State.modQueue (s : State) (p : PartId) (q : QueueNo) (f : LQueue → LQueue) : State :=
  s.modPart p fun x => { x with queues := x.queues.set q (f x.queues[q]) }
/-- A queue. -/
def State.lqueue (s : State) (p : PartId) (q : QueueNo) : LQueue := (s.part p).queues[q]
/-- The head is eligible (R328). -/
def Part.eligible (x : Part) (q : QueueNo) : Bool :=
  let y := x.queues[q]
  match y.entries with
  | [] => false
  | l :: _ => !x.switch.paused.contains l.asid && (!l.lrec.waiten || y.seen == some l.lrec.waitph)
/-- The head of a queue is starving (R329): it has waited 65,536 cycles, eligible. -/
def LQueue.starves (x : LQueue) (now : Nat) : Bool := x.starving || x.since.any fun t => decide (t + 65536 ≤ now)
/-- The cycle since which the head has been eligible is kept; a starving head starves until it begins dispatch (R329). -/
def State.noteHead (s : State) (p : PartId) (q : QueueNo) : State :=
  if (s.part p).eligible q then s.modQueue p q fun y => if y.since.isSome then y else { y with since := some s.cycle }
  else s.modQueue p q fun y => { y with since := none }
/-- The same for every queue of a partition. -/
def State.noteHeads (s : State) (p : PartId) : State := (List.finRange 64).foldl (fun s q => s.noteHead p q) s

/-- The HBM range that the aperture maps for a partition (R326, R394). -/
def State.sliceOf (s : State) (p : PartId) : Option (Nat × Nat) :=
  if s.host.apbase.getLsbD 0 then
    let b := s.host.apbase.toNat / 2 ^ 28 % 2 ^ 28 * 2 ^ 28 + p.val * 2 ^ 24
    some (b, b + 2 ^ 24)
  else none
/-- A value that LQ_CFG takes (R326): SIZE 0 to 8, and an array inside the partition's slice where the host may enqueue. -/
def State.lqCfgOk (s : State) (p : PartId) (v : Word) : Bool :=
  let size := bits v 8 4
  let inside := match s.sliceOf p with
    | some (lo, hi) => decide (lo ≤ logBase v) && decide (logBase v + 8 * 2 ^ (size + 4) ≤ hi)
    | none => false
  decide (size < 9) && (!v.getLsbD 6 || inside)
/-- The entry of a queue's array with a number, as a launch: none where its record does not translate. -/
def State.readEntry (s : State) (p : PartId) (q : QueueNo) (n : Nat) : Option Launch × State :=
  let y := s.lqueue p q
  let a := (s.peek (logBase y.cfg + 8 * (n % y.room)) 8).1
  let asid : Byte := y.ctx.setWidth 8
  let va := bits y.ctx 8 8 * 2 ^ 64 + a
  match s.walk asid va with
  | none => (none, s)
  | some l =>
    let pa := l.pa + va % (if l.blk then 2 ^ 30 else 2 ^ 16)
    let r := s.recWords pa l.cmp
    (some (r.2.makeLaunch p q pa (BitVec.ofNat 64 a) l.cmp asid r.1), { r.2 with nextLaunch := s.nextLaunch + 1 })
/-- The entries between HEAD and TAIL taken up again, once software has set both (R326, R336). -/
def State.rebuild (s : State) (p : PartId) (q : QueueNo) : State :=
  let y := s.lqueue p q
  let r := (List.range (min y.length y.room)).foldl (fun (x : List Launch × State) i =>
    let e := x.2.readEntry p q (bits y.ptr 0 32 + i)
    (match e.1 with | some l => x.1 ++ [l] | none => x.1, e.2)) ([], s)
  (r.2.modQueue p q fun y => { y with entries := r.1, seen := none, starving := false }).noteHead p q
/-- The registers of a queue written from an image (R336), whose LQ_CFG is one that a write would store (R326). -/
def State.loadQueue (s : State) (p : PartId) (q : QueueNo) (cfg ptr ctx : Word) : State :=
  (s.modQueue p q fun y =>
    { y with cfg := BitVec.ofNat 64 (bits cfg 6 50 * 64), ptr := ptr, ctx := ctx &&& 0xFFFF, entries := [] }).rebuild p q

end Sys2Proof.Machine
end

