-- ==== Sys2Proof/Machine/MemEvents.lean ====
section
/-! DEFINITION. Events of memory and ordering: results, releases, departures, performances and acknowledgements
(R84, R95, R97 to R114, R133, R197 to R216, R352, R364). -/

namespace Sys2Proof.Machine

/-- A wait of a word whose tag is pending: the entry to a trap waits for it (R26, R135). -/
def FWait.tagged : FWait → Bool
  | .wdrive .. => true
  | .qpop .. => true
  | _ => false
/-- A trap at the next instruction boundary, or after one that waits for its entry, or after the wait of a word whose tag is
pending. -/
def State.trapLate (s : State) (c : CoreId) (x : Trap) : State :=
  let f := s.front c
  if f.at_.trapping.isSome || f.at_.wait.tagged then (s.modFront c fun f => f.modAt fun a => { a with late := a.late ++ [x] }).tryEnter c
  else s.takeTrap c x f.at_.pc
/-- The acquire of an atomic takes effect with its result (R207). -/
def Flow.acquired (f : Flow) (po : Nat) : Flow :=
  { f with loads := f.loads.filter fun l => match l.kind with
      | .acquire (some n) => n != po
      | _ => true }
/-- A result is written into its register, and its tag clears (R133). Results for one register land in issue
order (R172). Poisoned data traps instead, at the next boundary (R197). -/
def execRegisterResultArrive (c : CoreId) (t : TagId) (s : State) : Outcome :=
  let k := s.core c
  let f := k.live.front
  match f.tags[t] with
  | none => .next s
  | some p =>
    let first := (List.finRange 8).all fun u => match f.tags[u] with
      | some q => u == t || q.fixed || q.dst != p.dst || decide (p.po ≤ q.po)
      | none => true
    if p.fixed || p.dst.isNone || decide (s.cycle < p.minAt) || !first then .next s
    else
      match p.trap, p.value with
      | some x, _ =>
        let x := { x with word := p.word }
        .next ((s.modCore c fun k =>
          ((k.setFront { k.live.front with tags := k.live.front.tags.set t none }).modFlow fun fl => fl.acquired p.po).settle c s.cycle).trapLate c x)
      | none, some v =>
        .next ((s.modCore c fun k =>
          ((k.setFront (k.live.front.arrive t p v)).modFlow fun fl => fl.acquired p.po).settle c s.cycle).tryEnter c)
      | none, none => .next s

/-- A load whose translation has come, at the addresses of its pieces (R348). -/
def Load.placed (l : Load) (ps : List Piece) : Load :=
  { l with need := none, units := (l.units.zip ps).map fun x => { x.1 with addr := x.2.addr + (x.1.va - x.2.va).toNat, cmp := x.2.cmp } }
/-- The same of a request. -/
def Req.placed (r : Req) (ps : List Piece) : Req :=
  let a := (ps.head?.map (·.addr)).getD 0
  match r with
  | .store us => .store ((us.zip ps).map fun x => { x.1 with addr := x.2.addr, cmp := x.2.cmp })
  | .amo _ va dbl op u x t po => .amo a va dbl op u x t po
  | .cas _ va dbl e n t po => .cas a va dbl e n t po
  | .cred _ va dbl op u cnt x n => .cred a va dbl op u cnt x n
  | .barInit _ va scope x => .barInit a va scope x
  | .barArrive _ va => .barArrive a va
  | .group _ va join p => .group a va join p
  | .launch _ va _ q t po asid hi => .launch a va (ps.any (·.cmp)) q t po asid hi
  | r => r
/-- A pending tag stays so for some cycles more. -/
def Front.later (f : Front) (po n : Nat) : Front :=
  { f with tags := f.tags.map fun x => x.map fun p => if p.po = po ∧ !p.fixed then { p with minAt := p.minAt + n } else p }
/-- The tag of a word that performs nothing is released, with its destination unchanged (R197). -/
def Front.release (f : Front) (po : Nat) : Front := { f with tags := f.tags.map fun x => x.filter fun p => p.po != po }
/-- The trap of an access whose walk has failed after the word went into its stream (R197). -/
def State.trapAccess (s : State) (c : CoreId) (n : Need) (cause : Cause) (a word : Word) : State :=
  (s.modCore c fun k => if cause = .compressAtomic then k else k.dropLeaf n.vahi a).trapLate c { cause := cause, info := a, word := word }
/-- The oldest load takes its translation, or asks for it (R348). DESIGN CHOICE (log 61): where the tables have changed so that
the access now traps, the trap is taken at the next boundary, and nothing is performed. -/
def State.placeLoad (s : State) (c : CoreId) : State :=
  match (s.core c).flow.loads with
  | [] => s
  | l :: ls =>
    match l.need with
    | none => s
    | some n =>
      match (s.asParty c 0).memCheck c n.level n.vahi .g n.acc 1 false n.xs with
      | .miss a => s.askWalk c n.vahi a 0
      | .ok ps =>
        let l := l.placed ps.flatten
        let far := l.units.foldl (fun m u => max m (2 * s.homeDelay c u.addr)) 0
        s.modCore c fun k => (k.modFlow fun f => { f with loads := l :: ls }).setFront (k.live.front.later l.po far)
      | .trap cause a =>
        (s.modCore c fun k => (k.modFlow fun f => { f with loads := ls }).setFront (k.live.front.release l.po)).trapAccess c n cause a l.word
/-- The number of a store-stream effect that is not made is free again, in the casts as well. -/
def Core.unmake (k : Core) (o : StoreOp) : Core :=
  let cred := match o.act with
    | .req (.cred ..) => 1
    | _ => 0
  let less := fun (p : Produced) => if o.num < p.store then { p with store := p.store - 1, cred := p.cred - cred } else p
  { k.modLive fun l => { l with prod := less l.prod } with
    casts := k.casts.map fun x => { x with live := { x.live with prod := less x.live.prod } } }
/-- The store-stream entry that waits for its translation takes it, or asks for it (R348). -/
def State.placeStore (s : State) (c : CoreId) : State :=
  match (s.core c).flow.storeQ.find? fun o => o.need.isSome with
  | none => s
  | some o =>
    match o.need, o.act with
    | some n, .req r =>
      match (s.asParty c 1).memCheck c n.level n.vahi .g n.acc 1 false n.xs with
      | .miss a => s.askWalk c n.vahi a 1
      | .ok ps =>
        let r := r.placed ps.flatten
        let far := r.homes.foldl (fun m h => max m (2 * s.wayTo c h)) 0
        s.modCore c fun k =>
          (k.modFlow fun f => { f with storeQ := f.storeQ.map fun x => if x.need.isSome then { x with need := none, act := .req r } else x }).setFront
            (k.live.front.later o.po far)
      | .trap cause a =>
        (s.modCore c fun k =>
          (((k.modFlow fun f => { f.acquired o.po with storeQ := f.storeQ.filter fun x => x.need.isNone }).setFront
            (k.live.front.release o.po)).unmake o)).trapAccess c n cause a o.word
    | _, _ => s

/-- The leaf's physical range. -/
def Leaf.range (l : Leaf) : Nat × Nat := (l.pa, l.pa + (if l.blk then 2 ^ 30 else 2 ^ 16))
/-- A TLB entry is named by a `tlbi` (R352). -/
def TlbKind.names (k : TlbKind) (va : Word) (e : TlbEntry) : Bool :=
  match k with
  | .all => true
  | .asid n => e.asid == n && !e.leaf.g
  | .va _ hi n => (e.leaf.g || e.asid == n) && e.page == (hi.toNat * 2 ^ 64 + va.toNat) / 2 ^ (if e.leaf.blk then 30 else 16)
/-- The cores a `tlbi` targets (R351). -/
def State.tlbTargets (s : State) (c : CoreId) (x : TlbScope) : List CoreId :=
  match x with
  | .core => [c]
  | .part => (List.finRange 256).filter fun d => s.pmapOf d == s.pmapOf c
  | .pkg => List.finRange 256
/-- The entries of one core removed, and its walks in progress cancelled (R352); failed walks are forgotten (R347). -/
def Core.invalidate (k : Core) (kind : TlbKind) (va : Word) : Core :=
  { k.forget with
    tlb := k.tlb.filter fun e => !TlbKind.names kind va e
    misses := k.forget.misses.map fun m => { m with cancelled := m.cancelled || m.walking } }
/-- A walk-cache entry goes with a `tlbi` (R352). -/
def TlbKind.onPath (k : TlbKind) (va : Word) (e : WalkEntry) : Bool :=
  match k with
  | .all => true
  | .asid n => e.asid == n
  | .va _ hi n => e.asid == n && e.pre == (hi.toNat * 2 ^ 64 + va.toNat) / 2 ^ (72 - 14 * e.level)
/-- The walk caches of the dies of some cores lose what a `tlbi` names. -/
def State.trimWalkCaches (s : State) (ts : List CoreId) (kind : TlbKind) (va : Word) : State :=
  let trim := fun (d : DieId) (es : List WalkEntry) =>
    if (ts.any fun c => c.die == d) = true then es.filter fun e => !TlbKind.onPath kind va e else es
  { s with mem := { s.mem with walkCache := Vector.ofFn fun d => trim d s.mem.walkCache[d] } }
/-- The removal of a `tlbi` at the head of the store stream, once its release has ended (R352). -/
def State.tlbStart (s : State) (c : CoreId) : State :=
  let k := s.core c
  match k.flow.storeQ with
  | ⟨.tlbi x kind va, po, num, rel, tag, party, need, word, phys⟩ :: ops =>
    if k.gateOpen c ⟨.tlbi x kind va, po, num, rel, tag, party, need, word, phys⟩ then
      let ts := s.tlbTargets c x
      let w : TlbiWait := { po := po, kind := kind, va := va, bounds := ts.map fun d => (d, (s.front d).at_.po)
                            since := s.cycle, tag := tag }
      let s := (ts.foldl (fun s d => s.modCore d fun k => k.invalidate kind va) s).trimWalkCaches ts kind va
      s.modCore c fun k => k.modFlow fun f => { f with storeQ := ops, tlbi := some w }
    else s
  | _ => s
/-- A `tlbi` may have removed the entry that an access at an address of a core used (R352): by address it names a whole block,
for the page or block of an access is not known any more. -/
def TlbiWait.reaches (w : TlbiWait) (asid : Byte) (a : Word) : Bool :=
  match w.kind with
  | .all => true
  | .asid n => asid == n
  | .va .. => a.toNat / 2 ^ 30 == w.va.toNat / 2 ^ 30
/-- Bits [63:0] of the virtual addresses that a request was translated from. -/
def Req.vas (r : Req) : List Word :=
  match r with
  | .store us => us.map (·.va)
  | .copyWrite _ us _ _ => us.map (·.va)
  | .amo _ va .. => [va]
  | .cas _ va .. => [va]
  | .cred _ va .. => [va]
  | .barInit _ va .. => [va]
  | .barArrive _ va => [va]
  | .group _ va .. => [va]
  | .gbar _ va _ => [va]
  | .launch _ va .. => [va]
  | _ => []
/-- An entry of the hold-back buffer, or a message, was translated before the removal of a `tlbi`: in the store stream by its
number, for it may have waited since its issue. -/
def State.wasBefore (s : State) (w : TlbiWait) (c : CoreId) (bound : Nat) (e : Hold) : Bool :=
  match e.stream with
  | .store => decide ((s.core c).flow.poOf e.num < bound)
  | _ => decide (e.entered ≤ w.since)
/-- Every access of a core that used a removed entry, or whose walk was in progress then, has been performed (R352). -/
def State.tlbQuiet (s : State) (w : TlbiWait) (c : CoreId) (bound : Nat) : Bool :=
  let f := (s.core c).flow
  let named := fun (a : Word) => w.reaches (s.core c).regs.asid a
  let left := fun (e : Hold) => s.wasBefore w c bound e && e.req.vas.any named
  f.loads.all (fun l => decide (bound ≤ l.po) || l.space != .g || !l.units.any fun u => u.value.isNone && named u.va) &&
  f.storeQ.all (fun o => decide (bound ≤ o.po) || match o.act with | .req r => !r.vas.any named | _ => true) &&
  f.hold.all (fun e => !left e) && s.net.all (fun m => m.src != c || m.dropped.isSome || !left m.hold)
/-- A `tlbi` completes, and is then an acquire at package scope (R352). -/
def State.tlbEnd (s : State) (c : CoreId) : State :=
  match (s.core c).flow.tlbi with
  | none => s
  | some w =>
    if w.bounds.all fun b => s.tlbQuiet w b.1 b.2 then
      s.modCore c fun k =>
        let k := (k.setFront (k.live.front.clearTag w.tag)).modFlow fun f => { f with tlbi := none }
        k.pushAcquire c s.cycle none .pkg
    else s
/-- A `gbar` sends its arrival once its release has ended and its core's earlier membership operations on the
record are performed (R215). -/
def State.gbarSend (s : State) (c : CoreId) : State :=
  let k := s.core c
  match k.live.front.at_.wait with
  | .gbar a va scope false =>
    let member := fun (r : Req) => match r with | .group b .. => b == a | _ => false
    let busy := k.flow.storeQ.any (fun o => decide (o.po ≤ k.live.front.at_.po)) || k.flow.hold.any (fun e => member e.req) ||
      s.net.any fun m => m.src == c && member m.hold.req
    if busy || !k.holdRoom 64 then s
    else
      s.modCore c fun k =>
        let num := s.cycle * 256 + c.val
        let k := k.modFlow fun f =>
          { f with hold := f.hold ++ [⟨.gbar a va num, .other, 0, 0, s.cycle, 64, false, k.live.front.level == .m⟩] }
        k.setFront { k.live.front with
          gbar := k.live.front.gbar ++ [⟨a, num, none⟩]
          at_ := { k.live.front.at_ with wait := .gbar a va scope true } }
  | _ => s
/-- The waits of a release end (R106), and that of a store for its translation (R348): what they held back enters, a `tlbi`
removes its entries or completes, and a `gbar` sends its arrival. -/
def execReleaseWaitEnd (c : CoreId) (s : State) : Outcome :=
  let s := (s.placeStore c).modCore c fun k => k.settle c s.cycle
  let s := ((s.tlbStart c).tlbEnd c).gbarSend c
  .next (s.tryEnter c)

/-- The awaited tokens are there, and `tokw` pops them (R216). -/
def execTokwPop (c : CoreId) (s : State) : Outcome :=
  match (s.front c).at_.wait with
  | .tokw wp wn =>
    if (s.core c).live.tokwReady wp wn then
      .next ((s.modCore c fun k => k.modLive fun l => l.tokwTake wp wn).endWait c)
    else .next s
  | _ => .next s

/-- The circuit whose source a reply or a free notice goes to. -/
def Req.upstream : Req → Option (CoreId × CircNo × Nat)
  | .reply d n b .. => some (d, n, b)
  | .notice d n b _ => some (d, n, b)
  | _ => none
/-- An older entry that leaves first (R27): one of the same stream or, upstream, of the same circuit; the arrival of a
`gbar` and the record of a freeze follow the store stream. -/
def Hold.before (x e : Hold) : Bool :=
  (x.stream == e.stream && e.stream != .other) || (e.req.upstream.isSome && x.req.upstream == e.req.upstream) ||
  (match e.req with
   | .gbar .. => x.stream == .store
   | .store _ => x.stream == .store
   | _ => false)
/-- An entry of the hold-back buffer may leave (R27, R359): it has aged tQ, no older one leaves first, and
a store-stream effect follows every earlier departure. A `launch` waits until every earlier write is
acknowledged (R42). -/
def Core.mayDepart (k : Core) (now n : Nat) (e : Hold) : Bool :=
  decide (e.entered + Config.tQ ≤ now) && (k.flow.hold.take n).all (fun x => !x.before e) &&
  (match e.stream with
   | .store => decide (e.num = k.flow.dep.store)
   | .copy n => k.store.aging.all fun a => match a.party with
     | .copy m seq => m != n || decide (e.num ≤ seq)
     | _ => true
   | _ => true) &&
  (match e.req with
   | .flit .. => false
   | .launch .. => k.flow.sent.all fun x => decide (e.num ≤ x.num)
   | _ => true)
/-- The departed count of an entry's stream (R359). -/
def Flow.departed (f : Flow) (e : Hold) : Flow :=
  match e.stream with
  | .store => { f with dep := { f.dep with store := e.num + 1 } }
  | .copy n => { f with depCopy := f.depCopy.set n (e.num + 1) }
  | .lane _ => match e.req with
    | .part _ p => { f with depParts := SMap.set 0 f.depParts p.group (p.part + 1) }
    | _ => f
  | _ => f
/-- A home has room for a part of a group: it keeps 64 (R241). -/
def State.partRoom (s : State) (r : Req) : Bool :=
  match r with
  | .part home p =>
    decide ((s.core home).store.held.countP (fun (h : HeldPart) => h.group == p.group) + s.net.countP (fun (m : Msg) => match m.hold.req with
      | .part d x => d == home && x.group == p.group
      | _ => false) < 64)
  | _ => true
/-- The messages that an entry goes on as: one for each branch of an opening. -/
def Hold.messages (e : Hold) : List Hold :=
  match e.req with
  | .opening n ds remote ring size op => ds.map fun d => { e with req := .opening n [d] remote ring size op }
  | _ => [e]
/-- An entry leaves the hold-back buffer (R27). -/
def execHoldbackDepart (c : CoreId) (n : Nat) (s : State) : Outcome :=
  let k := s.core c
  match k.flow.hold[n]? with
  | none => .next s
  | some e =>
    let p := s.pmapOf c
    if !k.mayDepart s.cycle n e || !s.served p || !s.partRoom e.req then .next s
    else match (s.spineGrant p c e.req.dests (e.size / 64)).bind fun t => t.linkGrant p c e.req with
      | none => .next s
      | some s =>
        let s := s.modCore c fun k =>
          (k.modFlow fun f => { ({ f with hold := f.hold.eraseIdx n }).departed e with leftAt := some s.cycle }).settle c s.cycle
        .next ((e.messages.foldl (fun s m => s.send c m) s).touch p)

/-- An order of a list chosen by a number. -/
def permuted {α : Type} : Nat → Nat → List α → List α
  | 0, _, l => l
  | _ + 1, _, [] => []
  | fuel + 1, n, l =>
    match l[n % l.length]? with
    | some x => x :: permuted fuel (n / l.length) (l.eraseIdx (n % l.length))
    | none => l
/-- Cells in groups of one combining word. -/
def wordGroups : List (Nat × Byte) → List (Nat × Lane)
  | (a, b0) :: (_, b1) :: (_, b2) :: (_, b3) :: cs => (a, BitVec.ofNat 32 (ofBytes [b0, b1, b2, b3])) :: wordGroups cs
  | _ => []
/-- A bank write is performed (R83, R84, R201): plain bytes, or lanes combined one at a time in an order. -/
def Store.commit (t : Store) (e : Age) (order : Nat) : Store :=
  if e.comb = .none then t.performCells e.buf e.bytes e.poison
  else
    let g := wordGroups e.bytes
    (permuted g.length order g).foldl (fun t x =>
      let old := BitVec.ofNat 32 ((t.buf e.buf).read x.1 4)
      t.perform e.buf x.1 (toBytes 4 (combineWord e.comb old x.2).toNat) (e.poison || t.badAt e.buf x.1 4)) t
/-- Two ageing writes touch a common byte. -/
def Age.overlaps (a b : Age) : Bool := a.buf == b.buf && a.bytes.any fun x => b.bytes.any fun y => x.1 == y.1
/-- Ageing writes of one party: the writes of a copy entry are (R250). -/
def AgeParty.same : AgeParty → AgeParty → Bool
  | .copy e _, .copy f _ => e == f
  | a, b => a == b
/-- An ageing write may be performed: it has aged tQ, a write of the store stream has its turn, the writes of a copy depart in
the order of their numbers (R359), and no older write of its own party names the same bytes. -/
def Core.mayCommit (k : Core) (now i : Nat) (e : Age) : Bool :=
  decide (e.entered + Config.tQ ≤ now) &&
  match e.party with
  | .front num _ => decide (num ≤ k.flow.dep.store) && k.flow.turnOf num false .buffer
  | .pass .. => false
  | .copy n seq =>
    (k.flow.hold.all fun x => x.stream != .copy n || decide (seq ≤ x.num)) && (k.store.aging.all fun x => match x.party with
      | .copy m j => m != n || decide (seq ≤ j)
      | _ => true) && (k.store.aging.take i).all fun x => !x.party.same (.copy n seq) || !x.overlaps e
  | p => (k.store.aging.take i).all fun x => !x.party.same p || !x.overlaps e
/-- Departed counts after a buffer write (R359). -/
def Flow.committed (f : Flow) (e : Age) (now drains : Nat) : Flow :=
  let f := { f with leftAt := some now }
  match e.party with
  | .front num _ => ({ f with dep := { f.dep with store := max f.dep.store (num + 1) } }).performed num now
  | .copy n seq => { f with depCopy := f.depCopy.set n (max f.depCopy[n] (seq + 1)) }
  | .drain => { f with dep := { f.dep with drain := max f.dep.drain (drains + 1) } }
  | .aclr => { f with dep := { f.dep with drain := max f.dep.drain (drains + 1) } }
  | .pass .. => f
/-- The oldest write of the maquette plane that has not been performed, once it has aged tQ (R359). -/
def Core.planeDue (k : Core) (now : Nat) : Option PlaneWrite :=
  (k.flow.planeLog.find? fun w => decide (k.flow.dep.maq ≤ w.num)).filter fun w => decide (w.entered + Config.tQ ≤ now)
/-- A buffer write that has aged tQ is performed (R84), or the oldest write of the maquette plane (R359). `order` names
the write among those of the buffer and that one, and the order of combining lanes. A copy's slot becomes FULL with the
last of its writes. -/
def execWriteAgePerform (c : CoreId) (b : Buf) (order : Nat) (s : State) : Outcome :=
  let k := s.core c
  let idx := (List.range k.store.aging.length).filter fun i => k.store.aging[i]?.any fun e => e.buf == b
  match idx[order % (idx.length + 1)]? with
  | none => match k.planeDue s.cycle with
    | none => .next s
    | some w => .next (s.modCore c fun k => k.modFlow fun f => { f with dep := { f.dep with maq := w.num + 1 }, leftAt := some s.cycle })
  | some i =>
    match k.store.aging[i]? with
    | none => .next s
    | some e =>
      if !k.mayCommit s.cycle i e then .next s
      else
        .next (s.modCore c fun k =>
          ((k.modStore fun t => { t.commit e (order / (idx.length + 1)) with aging := t.aging.eraseIdx i }).modFlow fun f =>
            f.committed e s.cycle k.live.prod.drain).endTiles.settle c s.cycle)

/-- The value of a load whose units are all performed (R199, R200). -/
def Load.result (l : Load) : VecWord :=
  match l.kind with
  | .scalar n sx =>
    let v := l.units.foldl (fun x u => x + u.value.getD 0 * 2 ^ u.bit) 0
    wordOf (if sx then BitVec.ofInt 64 (toSigned (8 * n) v) else BitVec.ofNat 64 v)
  | _ => BitVec.ofNat 2048 (l.units.foldl (fun x u => x + u.value.getD 0 * 2 ^ u.bit) 0)
/-- A load with none of its units performed. -/
def Load.fresh (l : Load) : Load := { l with units := l.units.map fun u => { u with value := none, bad := false, asked := none } }
/-- A load all of whose units are performed leaves the stream with its result; an acquire stays to take effect
(R106). -/
def State.finishLoad (s : State) (c : CoreId) (l : Load) : State :=
  let s := s.modCore c fun k => (k.modFlow fun f =>
    { f with
      loads := (match l.acq with
        | some _ => [{ l with kind := .acquire none, units := [], tag := none }]
        | none => []) ++ f.loads.drop 1
      past := if l.tag.isSome then l.fresh :: f.past else f.past }).settle c s.cycle
  let trap := (l.units.find? fun u => u.bad).map fun u => ({ cause := .poison, info := u.va } : Trap)
  match l.kind, l.tag with
  | .qload q, _ => match trap with
    | some x => s.trapLate c x
    | none =>
      let w := fun (i : Nat) => BitVec.ofNat 64 (((l.units[i]?).bind (·.value)).getD 0)
      if s.lqCfgOk (s.pmapOf c) (w 0) then (s.modCore c fun k => k.logInput l.po none).loadQueue (s.pmapOf c) q (w 0) (w 1) (w 2)
      else s.trapLate c { cause := .bounds, info := ((l.units.head?).map (·.va)).getD 0 }
  | _, some t => s.answer c t l.po l.result trap
  | _, none => s
/-- A `lwait` is performed by an event of its own (R43). -/
def Load.waits (l : Load) : Bool :=
  match l.kind with
  | .lwait _ => true
  | _ => false
/-- A load's request dropped by a guard: the load never completes and its front end freezes (R380). -/
def State.loadDropped (s : State) (c : CoreId) (x : Drop) (d : Dest) : State :=
  let s := (s.guardRecord c 0 (s.pmapOf c) x d 3).modCore c fun k => k.modFlow fun f => { f with loads := f.loads.drop 1 }
  s.dropFreeze c 0
/-- One unit of the oldest load is performed: at its home, in its buffer, or from the core's own writes (R98 to
R102). In a buffer all units in one bank word are performed together (R83). -/
def execLoadPerform (c : CoreId) (n unit : Nat) (s : State) : Outcome :=
  let k := s.core c
  match n, k.flow.loads with
  | 0, l :: _ =>
    match l.units[unit]? with
    | none => .next s
    | some u =>
      let far := l.space == .g && u.asked.isNone && (remoteChip u.addr).isSome
      if l.need.isSome then .next (s.placeLoad c)
      else if u.value.isSome || decide (s.cycle ≤ l.issued) || l.waits then .next s
      else
        let b := spaceBuf l.space
        match (if b.isSome || u.asked.isSome then .ok s else s.readGrant c u.addr u.n u.cmp) with
        | .drop x => .next (s.loadDropped c x (destOf u.addr))
        | .wait => .next s
        | .ok s =>
          if far then .next (s.modCore c fun k => k.modFlow fun f => { f with loads :=
            { l with units := l.units.modify unit fun u => { u with asked := (remoteChip u.addr).bind s.chipPort } } :: f.loads.drop 1 })
          else
            let now := fun (i : Nat) (v : LoadUnit) => v.value.isNone && (i == unit || (b.isSome && v.addr / 64 == u.addr / 64))
            let step := (List.range l.units.length).foldl (fun (st : Option (List LoadUnit × State)) i =>
              match st, l.units[i]? with
              | some (us, s), some v =>
                if now i v then
                  match s.readOwn c b l.mark v.addr v.n v.cmp with
                  | some (bs, bad, s) => some (us ++ [{ v with value := some (ofBytes bs), bad := v.bad || bad }], s)
                  | none => none
                else some (us ++ [v], s)
              | _, _ => none) (some ([], s))
            match step with
            | none => .next s
            | some (us, s) =>
              let l := { l with units := us }
              let s := s.touch (s.pmapOf c)
              if us.all fun v => v.value.isSome then .next ((s.finishLoad c l).tryEnter c)
              else .next (s.modCore c fun k => k.modFlow fun f => { f with loads := l :: f.loads.drop 1 })
  | _, _ => .next s

/-- An effect already applied from its source is dropped (R112, R268). -/
def seenBefore (highest : Option Nat) (n : Nat) : Bool :=
  match highest with
  | none => false
  | some h => decide ((h + 2 ^ 32 - n % 2 ^ 32) % 2 ^ 32 < 4096)
/-- One unit written at its home. -/
def State.pokeUnit (s : State) (u : WUnit) (red : Fin 5) (poison : Bool) (own : PartId) : State :=
  if (remoteChip u.addr).isSome then s
  else if red = 0 then s.poke u.addr u.bytes u.cmp poison own
  else
    let old := s.peek u.addr 4
    s.poke u.addr (toBytes 4 (combineWord (redComb red) (BitVec.ofNat 32 old.1) (BitVec.ofNat 32 (ofBytes u.bytes))).toNat) false
      (poison || old.2)
/-- Two units write a common byte. -/
def WUnit.meets (u v : WUnit) : Bool := decide (u.addr < v.addr + v.bytes.length) && decide (v.addr < u.addr + u.bytes.length)
/-- A unit of a lower number that writes a byte of this one is still to be performed: the value of the higher-numbered
lane remains (R200). -/
def lowerLeft (us : List WUnit) (applied : List Nat) (unit : Nat) : Bool :=
  (List.range unit).any fun i => !applied.contains i && match us[i]?, us[unit]? with
    | some v, some u => u.meets v
    | _, _ => false
/-- An earlier block of the same copy that writes a byte of this unit is still to be performed (R250). -/
def State.copyBehind (s : State) (m : Msg) (u : WUnit) : Bool :=
  match m.hold.req with
  | .copyWrite .. => s.net.any fun (x : Msg) => x.src == m.src && x.hold.stream == m.hold.stream && decide (x.hold.num < m.hold.num) &&
      x.dropped.isNone && match x.hold.req with
        | .copyWrite _ us _ _ => (List.range us.length).any fun i => !x.applied.contains i && us[i]?.any u.meets
        | _ => false
  | _ => false
/-- The source endpoint of a copy entry at a home die. -/
def copyKey (d : DieId) (c : CoreId) (e : EntryNo) : Nat := (d.val * 2 ^ 16 + c.val) * 16 + e.val
/-- A block of a copy that its home has applied already is dropped (R268). -/
def State.copySeen (s : State) (m : Msg) (a : Nat) : Bool :=
  match m.hold.req with
  | .copyWrite e _ _ _ => seenBefore (SMap.get none s.mem.copied (copyKey (homeDie a) m.src e)) m.hold.num
  | _ => false
/-- The highest number applied from a copy entry at each home of a message (R268): every block below it has been applied
there, since a copy's writes are performed in no promised order (R110). -/
def State.copyCount (s : State) (m : Msg) (us : List WUnit) : State :=
  match m.hold.req with
  | .copyWrite e _ _ _ =>
    ((us.filter fun u => localHbm u.addr).map fun u => homeDie u.addr).dedup.foldl (fun s d =>
      let waits := s.net.filterMap fun (x : Msg) => match x.hold.req with
        | .copyWrite f vs _ _ => if x.src = m.src ∧ f = e ∧ (vs.any fun v => localHbm v.addr && homeDie v.addr == d) then some x.hold.num else none
        | _ => none
      match waits.foldl min (s.core m.src).flow.depCopy[e] with
      | 0 => s
      | n + 1 => { s with mem := { s.mem with copied := SMap.set none s.mem.copied (copyKey d m.src e) (some (n % 2 ^ 32)) } }) s
  | _ => s
/-- The marks of what a write of correct data has covered whole (R366): half-lines of a compressed page, 64-byte units else. -/
def State.clearWhole (s : State) (us : List WUnit) : State :=
  let cells := fun (cmp : Bool) => (us.filter fun u => u.cmp == cmp && localHbm u.addr).flatMap fun u => List.range' u.addr u.bytes.length
  (s.clearMarks (cells false) false).clearMarks (cells true) true
/-- One unit of a store or a copy write is applied at its home (R101). A bound write also counts at its barrier
(R113). -/
def State.applyUnit (s : State) (m : Msg) (us : List WUnit) (red : Fin 5) (bar : Option Nat) (unit : Nat) : Outcome :=
  match us[unit]? with
  | none => .next s
  | some u =>
    if m.applied.contains unit || !(if red = 0 then s.mayApply m u.addr else s.mayCombine m u.addr) || lowerLeft us m.applied unit ||
      s.copyBehind m u || bar.any (fun b => localHbm b && !s.tieFree (homeDie b).val m.route) then .next s
    else
      match (if localHbm u.addr then s.homeGrant m.part u.addr u.bytes.length u.cmp else some s) with
      | none => .next s
      | some s =>
        let s := if s.copySeen m u.addr then s else
          let s := if red = 0 then s.pokeUnit u red m.hold.poison m.part else (s.pokeUnit u red m.hold.poison m.part).combined m u.addr
          match bar with
            | some b => if localHbm b then (s.barrier b 0 u.bytes.length).combined m b else s
            | none => s
        let done := unit :: m.applied
        if us.length ≤ done.length then
          let new := us.filter fun u => !s.copySeen m u.addr
          let s := if m.hold.phys then s else (m.hold.req.signed new).foldl (fun s u => s.sign m.src (unitSig u)) s
          let s := if red = 0 ∧ !m.hold.poison then s.clearWhole new else s
          let s := if m.hold.stream = .store then
              s.modCore m.src fun k => k.modFlow fun f => { f with sent := f.sent.map fun e =>
                if e.num == m.hold.num then { e with left := 1 } else e }
            else s
          .next ((s.applied m).copyCount m us)
        else
          .next ({ s with net := s.net.map fun (x : Msg) => if x.id == m.id then { x with applied := done } else x }.touch m.part)
/-- A store, or a copy write that is bound to no barrier, reaches its home (R101). -/
def execHomeStoreApply (msg unit : Nat) (s : State) : Outcome :=
  match s.msg msg with
  | none => .next s
  | some m =>
    match m.hold.req with
    | .store us => s.applyUnit m us 0 none unit
    | .copyWrite _ us red none => s.applyUnit m us red none unit
    | _ => .next s
/-- A unit of a bound copy write is performed at its home and counted (R113, R252): which unit is open. -/
def execBoundCopyWriteApply (msg : Nat) (s : State) : Outcome :=
  match s.msg msg with
  | none => .next s
  | some m =>
    match m.hold.req with
    | .copyWrite _ us red (some b) =>
      let left := (List.range us.length).filter fun i => !m.applied.contains i
      let t := s.takeNat
      match left[t.1 % left.length]? with
      | some unit => t.2.applyUnit m us red (some b) unit
      | none => .next s
    | _ => .next s

/-- A combiner operation on n bytes at an address, when it is its turn; a remote home performs it elsewhere. -/
def State.combineAt (s : State) (m : Msg) (a n : Nat) (f : State → State) : Outcome :=
  if !s.mayCombine m a then .next s
  else if localHbm a then
    match s.homeGrant m.part a n with
    | none => .next s
    | some s => .next (((f s).combined m a).applied m)
  else .next (s.applied m)
/-- The old value of an atomic, or a free one from a remote home, to the word that waits (R205, R207). -/
def State.atomicReply (s : State) (m : Msg) (t : TagId) (po : Nat) (va : Word) (dbl : Bool) (old : Nat × Bool) : State :=
  let v := if dbl then old.1 else old.1 % 2 ^ 32
  s.answer m.src t po (scalarVec v)
    (if old.2 then some { cause := .poison, info := va } else none)
/-- The combiner applies an `amo` (R111, R205). -/
def execAmoApply (msg : Nat) (s : State) : Outcome :=
  match s.msg msg with
  | none => .next s
  | some m =>
    match m.hold.req with
    | .amo a va dbl op u x t po =>
      if !s.mayCombine m a then .next s
      else if localHbm a then
        match s.homeGrant m.part a (atomSize dbl) with
        | none => .next s
        | some s =>
          let old := s.peek a (atomSize dbl)
          let s := s.poke a (toBytes (atomSize dbl) (amoWord dbl op u old.1 x.toNat)) false (old.2 || m.hold.poison)
          .next ((((s.atomicReply m t po va dbl old).signOp m va x 0xAA).combined m a).applied m)
      else
        let w := s.takeWord
        .next ((w.2.atomicReply m t po va dbl (w.1.toNat, false)).applied m)
    | _ => .next s
/-- The combiner compares and swaps (R111, R206). -/
def execCasApply (msg : Nat) (s : State) : Outcome :=
  match s.msg msg with
  | none => .next s
  | some m =>
    match m.hold.req with
    | .cas a va dbl expect new t po =>
      if !s.mayCombine m a then .next s
      else if localHbm a then
        match s.homeGrant m.part a (atomSize dbl) with
        | none => .next s
        | some s =>
          let n := atomSize dbl
          let old := s.peek a n
          let s := if old.1 = expect.toNat % 2 ^ (8 * n) then s.poke a (toBytes n new.toNat) false (old.2 || m.hold.poison) else s
          .next ((((s.atomicReply m t po va dbl old).signOp m va (expect ^^^ new.rotateLeft 32) 0xAB).combined m a).applied m)
      else
        let w := s.takeWord
        .next ((w.2.atomicReply m t po va dbl (w.1.toNat, false)).applied m)
    | _ => .next s

/-- A counted-reduction contribution at its record (R208, R209). -/
def State.contribute (s : State) (a : Nat) (dbl : Bool) (op : AmoOp) (u : Bool) (cnt : Nat) (x : Word) (poison : Bool) : State :=
  let w := s.peek (a + 8) 8
  let count := w.1 % 2 ^ 32
  if count = 0 ∨ count < cnt then s.poke (a + 8) (toBytes 8 (w.1 ||| 2 ^ 34)) false w.2
  else
    let n := atomSize dbl
    let old := s.peek a n
    let s := s.poke a (toBytes n (amoWord dbl op u old.1 x.toNat)) false (old.2 || poison)
    s.poke (a + 8) (toBytes 8 (w.1 - cnt)) false w.2
/-- The combiner applies a contribution once (R112, R209). DESIGN CHOICE (log 52): a contribution that finds the count too
small is dropped, and its number counts as applied all the same; the specification does not say. -/
def execCredApply (msg : Nat) (s : State) : Outcome :=
  match s.msg msg with
  | none => .next s
  | some m =>
    match m.hold.req with
    | .cred a va dbl op u cnt x seq =>
      s.combineAt m a 16 fun s =>
        let key := (homeDie a).val * 2 ^ 16 + m.src.val
        let s := s.signOp m va x 0xAC
        if seenBefore (SMap.get none s.mem.applied key) seq then s
        else
          let s := s.contribute a dbl op u cnt x m.hold.poison
          { s with mem := { s.mem with applied := SMap.set none s.mem.applied key (some (seq % 2 ^ 32)) } }
    | _ => .next s
/-- The combiner initialises a barrier; PHASE keeps its value, and no completion check follows (R211). -/
def execBarInitApply (msg : Nat) (s : State) : Outcome :=
  match s.msg msg with
  | none => .next s
  | some m =>
    match m.hold.req with
    | .barInit a va scope x =>
      s.combineAt m a 32 fun s =>
        let b := s.readBar a
        (s.signOp m va x 0xB0).writeBar a
          { b with expect := x.toNat % 2 ^ 32, init := x.toNat / 2 ^ 32, arrived := 0, pend := x.toNat / 2 ^ 32,
                   over_ := false, scope := scopeRank scope } m.hold.poison
    | _ => .next s
/-- The combiner counts one arrival (R113, R212). -/
def execBarrierArrivalApply (msg : Nat) (s : State) : Outcome :=
  match s.msg msg with
  | none => .next s
  | some m =>
    match m.hold.req with
    | .barArrive a va => s.combineAt m a 32 fun s => (s.signOp m va 0 0xB1).barrier a 1 0 m.hold.poison
    | _ => .next s
/-- `gjoin` or `gleave` at the group record (R45, R214). -/
def execGroupOpApply (msg : Nat) (s : State) : Outcome :=
  match s.msg msg with
  | none => .next s
  | some m =>
    match m.hold.req with
    | .group a va join arrived =>
      s.combineAt m a 64 fun s =>
        let g := s.readGroup a
        (s.signOp m va 0 (if join then 0xB3 else 0xB4)).writeGroup a
          (if join then g.join m.src else g.leave m.src arrived) m.hold.poison
    | _ => .next s
/-- A reply comes back to the front end that waits for it, or to its image in a save area (R215). -/
def State.gbarReply (s : State) (num : Nat) (p : Bool) : State :=
  let note := fun (k : Core) => k.setFront { k.live.front with
    gbar := k.live.front.gbar.map fun g => if g.num = num then { g with reply := some p } else g }
  { s with cores := s.cores.map note, images := s.images.map fun i => (i.1, note i.2) }
/-- The arrival of a `gbar`, and its reply with the phase before it (R215). -/
def execGbarArrivalApply (msg : Nat) (s : State) : Outcome :=
  match s.msg msg with
  | none => .next s
  | some m =>
    match m.hold.req with
    | .gbar a va num =>
      let reply := fun (s : State) (p : Bool) => s.gbarReply num p
      if (remoteChip a).isSome && s.mayApply m a then
        let t := s.takeNat
        .next ((reply t.2 (t.1 % 2 == 1)).applied m)
      else
        s.combineAt m a 64 fun s =>
          let g := s.readGroup a
          reply ((s.signOp m va 0 0xB5).writeGroup a (g.arrive m.src) m.hold.poison) g.phase
    | _ => .next s
/-- A `gbar` returns once the phase differs from the reply (R215): an acquire at its scope. -/
def execGbarReturn (c : CoreId) (s : State) : Outcome :=
  let k := s.core c
  let f := k.live.front
  match f.at_.wait with
  | .gbar a _ scope true =>
    match f.gbar.find? fun g => g.addr == a with
    | some ⟨_, num, some r⟩ =>
      if !k.flow.loads.isEmpty ∨ s.cycle < f.at_.waitSince + 460 + 2 * s.homeDelay c a then .next s
      else match s.readGrant c a 8 false with
      | .drop x => .next ((s.guardRecord c 0 (s.pmapOf c) x (destOf a) 4).dropFreeze c 0)
      | .wait => .next s
      | .ok s =>
      let far := (remoteChip a).isSome
      let t := s.takeNat
      let phase := if far then t.1 % 2 == 1 else (s.readGroup a).phase
      let s := if far then t.2 else s
      if phase = r then .next s
      else
        let s := s.modCore c fun k => (k.logInput f.at_.po none).pushAcquire c s.cycle none scope
        .next ((s.endWait c).modFront c fun f => { f with gbar := f.gbar.filter fun g => g.num != num })
    | _ => .next s
  | _ => .next s

/-- A `bar.wait` looks at its barrier (R213): an earlier load comes first (R98). -/
def execBarWaitCheck (c : CoreId) (s : State) : Outcome :=
  let k := s.core c
  match k.live.front.at_.wait with
  | .barWait a va ph scope none =>
    if !k.flow.loads.isEmpty then .next s
    else match s.readGrant c a 32 false with
      | .drop x => .next ((s.guardRecord c 0 (s.pmapOf c) x (destOf a) 4).dropFreeze c 0)
      | .wait => .next s
      | .ok s =>
        let far := (remoteChip a).isSome
        let t := s.takeNat
        let b := s.readBar a
        let isOver := if far then t.1 % 2 == 1 else b.over_
        let phase := if far then t.1 / 2 % 2 == 1 else b.phase
        let s := if far then t.2 else s
        let verdict := if isOver then some true else if phase ≠ ph then some false else none
        .next (s.modFront c fun f => f.modAt fun p => { p with wait := .barWait a va ph scope verdict })
  | _ => .next s
/-- A `bar.wait` returns, or raises BAR_OVER (R213). -/
def execBarWaitReturn (c : CoreId) (s : State) : Outcome :=
  let f := s.front c
  match f.at_.wait with
  | .barWait a va _ scope (some isOver) =>
    if s.cycle < f.at_.waitSince + 300 + 2 * s.homeDelay c a then .next s
    else if isOver then .next (s.takeTrap c { cause := .barOver, info := va, word := f.at_.pc } f.at_.pc)
    else .next ((s.modCore c fun k => (k.logInput f.at_.po none).pushAcquire c s.cycle none scope).endWait c)
  | _ => .next s

/-- The receiver's acknowledgement of a performed store-stream effect (R364), no sooner than 460 cycles after it
entered (R103). -/
def execRequestAck (c : CoreId) (n : Nat) (s : State) : Outcome :=
  match (s.core c).flow.sent[n]? with
  | none => .next s
  | some e =>
    let far := e.homes.foldl (fun n h => max n (2 * s.wayTo c h)) 0
    if e.left = 0 ∧ e.entered + 460 + far ≤ s.cycle then
      .next ((s.modCore c fun k => (k.modFlow fun f => { f with sent := f.sent.eraseIdx n }).settle c s.cycle).tryEnter c)
    else .next s

/-- A partition whose launches hold a translation to an address (R369). -/
def State.holdsPage (s : State) (p : PartId) (a : Nat) : Bool :=
  (List.finRange 256).any fun c =>
    let k := s.core c
    (match k.run.job with
     | some j => j.part == p
     | none => false) && k.tlb.any fun e => decide (e.leaf.range.1 ≤ a) && decide (a < e.leaf.range.2)
/-- The records of an uncorrectable error at an address (R368, R369), by the block that found it. -/
def State.errorRecords (s : State) (unit die a : Nat) : State :=
  (List.finRange 16).foldl (fun s p => if s.holdsPage p a then s.rlog p (rlogHdr 0 unit 0 die 5) (BitVec.ofNat 64 a) 0 0 else s) s
/-- An uncorrectable error is found in HBM at a 64-byte unit, which is marked (R366, R369). -/
def State.hbmError (s : State) (unit : Nat) : State :=
  let a := 64 * unit
  let i := stackOf a
  State.errorRecords { s with mem := { s.mem with bad := markWrite s.mem.bad a 64 true, found := s.mem.found.set i (s.mem.found[i] + 1) } }
    4 (i.val / 2) a
/-- An uncorrectable error in the memory-side cache marks a half-line (R366, R368). -/
def State.cacheError (s : State) (d : DieId) (unit : Nat) : State :=
  let a := 64 * unit
  let m : Mem := match SMap.get none s.mem.blocks (a / 4096) with
    | some b => { s.mem with blocks := SMap.insert s.mem.blocks (a / 4096) (some { b with bad := markWrite b.bad (a % 4096) 64 true }) }
    | none => { s.mem with bad := markWrite s.mem.bad a 64 true }
  State.errorRecords { s with mem := m } 3 d.val a
/-- A read that misses the memory-side cache brings a compressed block in, expanded and checked (R94): into the ways of some
partition, which the regulator grants its stored length (R383, R385). Or it meets an error of the stack, or of the cache, that
cannot be corrected (R368, R369); whether, and where in its block, is left to chance. -/
def execCacheMissRead (d : DieId) (block : Nat) (s : State) : Outcome :=
  let t := s.takeNat
  let p : PartId := Fin.ofNat 16 t.1
  let here := decide (homeDie (block * 4096) = d) && localHbm (block * 4096)
  if t.1 / 16 % 4 = 1 then .next (if here then t.2.hbmError (64 * block + t.1 / 64 % 64) else s)
  else if t.1 / 16 % 4 = 2 then .next (if here then t.2.cacheError d (64 * block + t.1 / 64 % 64) else s)
  else if homeDie (block * 4096) ≠ d ∨ !localHbm (block * 4096) ∨ (SMap.get none s.mem.blocks block).isSome ∨ !s.mem.sliceRoom d ∨
    (s.mem.victim (s.wayUse p) block).isSome ∨ (s.wayUse p).limit = some 0 ∨ !s.served p then .next s
  else match t.2.grant p d 0 (s.hbmUnits (block * 4096) 4096 true) with
    | none => .next s
    | some s =>
      .next { s with mem := { s.mem with blocks := SMap.insert s.mem.blocks block (some { s.mem.expand s.pkg.mdbase block with owner := p }) } }
/-- Dirty lines of a compressed block are merged, compressed and written back with the block's metadata (R94, R95), at the
cost of the partition whose ways hold it (R383). -/
def execCompressedWriteback (d : DieId) (block : Nat) (s : State) : Outcome :=
  if homeDie (block * 4096) ≠ d then .next s
  else match s.mem.storedUnits s.pkg.mdbase block with
    | none => .next { s with mem := s.mem.writeback s.pkg.mdbase block }
    | some (p, n) =>
      if !s.served p then .next s
      else match s.grant p d 0 n with
        | none => .next s
        | some s => .next { s with mem := s.mem.writeback s.pkg.mdbase block }

end Sys2Proof.Machine
end

