-- ==== Sys2Proof/Machine/Circuits.lean ====
section
/-! DEFINITION. Circuits (R264 to R266): opening, flits, credits, and closing. -/

namespace Sys2Proof.Machine

/-- A circuit of a core. -/
def Core.circ (k : Core) (n : CircNo) : Circuit := k.live.circuits[n]

/-- A circuit's fault (R89, R315): of its copy engine, at the level of its `circ`. -/
def Circuit.fault (x : Circuit) (cause : Cause) (info : Word) : Circuit :=
  { x with trap := some { cause := cause, info := info, src := .ce, word := x.word, level := some x.level } }
/-- The checks of a circuit word that no other state concerns (R264, R374). -/
def circBad (w : Word) (q : RingId) (paired : Bool) : Bool :=
  let srcq := w.getLsbD 31
  let mc := w.getLsbD 12
  let remote := w.getLsbD 13
  bits w 42 22 != 0 || (!srcq && q != 0) || (mc && remote) || (mc && bits w 0 8 != 0) || (remote && paired) ||
  (if srcq then bits w 32 10 != 0 else bits w 32 10 == 0 || decide (512 < bits w 32 10))
/-- A request of a core for a circuit has not done its work yet. -/
def State.closePending (s : State) (c : CoreId) (n : CircNo) : Bool :=
  let mine := fun (r : Req) => match r with
    | .close m => m == n
    | _ => false
  let k := s.core c
  k.flow.storeQ.any (fun o => match o.act with
    | .req r => mine r
    | _ => false) ||
  k.flow.hold.any (fun h => mine h.req) || s.net.any fun m => m.src == c && mine m.hold.req
/-- A circuit OPENING with its branches (R264). -/
def Circuit.open (x : Circuit) (w : Word) (q : RingId) (ds : List CoreId) (f : Front) (port : Option PortId) : Circuit :=
  { x with
    port := port
    word := f.at_.pc, level := f.level, po := f.at_.po, state := .opening, src := if w.getLsbD 31 then some q else none, ksz := w.getLsbD 30, tslot := bits w 32 10
    remote := if w.getLsbD 13 then some (BitVec.ofNat 16 (bits w 14 16)) else none
    dring := Fin.ofNat 16 (bits w 8 4)
    branches := ds.map fun d => { dst := d, reply := none, credit := 0, elastic := [], filling := none }
    cut := [], due := none, early := false, openings := x.openings + 1, trap := none }
/-- The destinations of a circuit word: DCORE, or the members of a group without this core (R45, R264). -/
def circDests (w : Word) (members : Nat) (c : CoreId) : List CoreId :=
  if w.getLsbD 12 then (List.finRange 256).filter fun (d : CoreId) => members / 2 ^ d.val % 2 == 1 && d != c
  else [Fin.ofNat 256 (bits w 0 8)]
/-- What a `circ` has found, for its re-execution (R264, R359). -/
def State.logCirc (s : State) (info : Option Word) : State :=
  s.modCore s.cur fun k => k.modFlow fun f => { f with circLog := (k.live.front.at_.po, info) :: f.circLog }
/-- The BOUNDS of a `circ` (R264). -/
def State.circBounds (s : State) (w : Word) : State := (s.logCirc (some w)).trapHere .bounds w
/-- The opening is made (R264): its branches are counted, and its request joins the store stream. -/
def State.openCircuit (s : State) (h : Hdr) (n : CircNo) (q : RingId) (w : Word) (size members : Nat) : Outcome :=
  let k := s.me
  let ds := circDests w members s.cur
  let used := k.live.circuits.foldl (fun m (x : Circuit) => if x.state = .closed then m else m + x.branches.length) 0
  if ds.isEmpty || decide (16 < ds.length) || decide (64 < used + ds.length) then .next (s.circBounds w)
  else
    let chip := bits w 14 16
    let port := if w.getLsbD 13 then s.chipPort chip else none
    let r := Req.opening n ((List.range ds.length).zip ds) (if w.getLsbD 13 then some (chip, port) else none)
      (Fin.ofNat 16 (bits w 8 4)) size ((k.circ n).openings + 1)
    let s1 := (s.logCirc none).modCore s.cur fun k => k.modCirc n fun x => x.open w q ds k.live.front port
    match s1.storeWord h (.req r) none with
    | .next t => if t.me.live.front.at_.po = k.live.front.at_.po then .next s else .next t
    | o => o
/-- R264. One that departed before a rollback is only counted, and one that found its word wrong finds so again (R359). -/
def execCirc (h : Hdr) (n : CircNo) (q : RingId) (a b : SReg) (s : State) : Outcome :=
  s.issue (.circ h n q a b) h { srcs := [(.s a, h.pda), (.s b, h.pdb)], engine := true } fun s =>
    let k := s.me
    let f := k.live.front
    let w := f.srcS a h.pda
    let g := f.srcS b h.pdb
    let x := k.circ n
    let found := k.flow.circLog.find? fun e => k.replaying && e.1 == f.at_.po
    if found.any (·.2.isNone) then s.storeWord h (.req (.close n)) none
    else if found.isSome then .next (s.trapHere .bounds ((found.bind (·.2)).getD w))
    else if circBad w q (s.pairedSide s.cur).isSome then .next (s.circBounds w)
    else if x.state = .closing ∨ s.closePending s.cur n then .next s
    else if x.state ≠ .closed then .next (s.circBounds w)
    else
      let size := if w.getLsbD 31 then (k.ring q).map (·.size) else some (512 * bits w 32 10)
      match size with
      | none => .next (s.trapHere .ringState (slotInfo q 0))
      | some size =>
        if !w.getLsbD 12 then s.openCircuit h n q w size 0
        else if g.toNat % 64 ≠ 0 then .next (s.trapHere .alignFault g)
        else match s.engineRead s.cur 0 f.level f.at_.vahi .load f.at_.po .g g 32 with
          | .wait s => .next s
          | .trap cause y s => .next (s.trapHere cause y)
          | .ok _ (some y) s => .next (s.trapHere .poison y)
          | .ok bs none s => s.openCircuit h n q w size (ofBytes bs)

/-- The number of the take behind the last FULL slot of a circuit's source ring (R266): slots are taken in ring order (R88), so
one that is FILLING ahead of a FULL one is delivered with it. -/
def Core.fullSlots (k : Core) (x : Circuit) : Nat :=
  match x.src.bind k.ring with
  | some r => (List.range' r.tookMade (r.filled - r.tookMade)).foldl (fun m n => if (r.slot (n % r.def_.nslot)).state = .full then n + 1 else m)
      r.tookMade
  | none => 0
/-- What `ccls` makes of a circuit at once (R266). -/
def Circuit.shut (x : Circuit) (due : Nat) : Circuit :=
  match x.state with
  | .open_ => { x with state := .closing, due := some due }
  | .opening => { x with state := .closing, due := some due, early := true }
  | .refused => { x with state := .closed }
  | _ => x
/-- R266. The closing request is an effect of the store stream; one that departed before a rollback is only
counted. -/
def execCcls (h : Hdr) (n : CircNo) (s : State) : Outcome :=
  s.issue (.ccls h n) h { engine := true } fun s =>
    let k := s.me
    match s.storeWord h (.req (.close n)) none with
    | .next t =>
      if t.me.live.front.at_.po = k.live.front.at_.po ∨ k.replaying then .next t
      else .next (t.modCore s.cur fun k => k.modCirc n fun x => x.shut (k.fullSlots x))
    | o => o

-- openings and replies

/-- What a destination answers to an opening (R264, R374): 0 refuses, n + 1 accepts with a credit of n. -/
def State.openingAnswer (s : State) (src dst : CoreId) (ring : RingId) (size : Nat) : Nat :=
  let k := s.core dst
  match k.ring ring with
  | none => 0
  | some r =>
    if k.run.job.isNone || k.regs.asid != (s.core src).regs.asid || r.fedBy.isSome || r.fedFar.isSome || decide (r.size < size) ||
      s.pairedSide src != s.pairedSide dst then 0
    else r.empties + 1
/-- A branch's answer reaches its circuit: it is OPENING until every destination has replied (R264), and a CLOSING one is
CLOSED by the first refusal (R266). -/
def Circuit.answer (x : Circuit) (b code op : Nat) : Circuit :=
  if x.openings ≠ op then x
  else
    let bs := x.branches.modify b fun y => { y with reply := some code, credit := y.credit + (code - 1) }
    let x := { x with branches := bs }
    let all := bs.all fun y => match y.reply with
      | some n => n != 0
      | none => false
    match x.state with
    | .opening =>
      if bs.any fun y => y.reply.isNone then x
      else if all then { x with state := .open_ } else { x with state := .refused }
    | .closing => if code = 0 then { x with state := .closed } else if all then { x with early := false } else x
    | _ => x
/-- The opening of a branch reaches its destination, which replies through its hold-back buffer (R27, R264), and is fed by
it unless the circuit has been CLOSED since (R266). What another chip answers is open. -/
def execCircuitOpeningArrive (msg : Nat) (s : State) : Outcome :=
  match s.msg msg with
  | none => .next s
  | some m =>
    match m.hold.req with
    | .opening n ((b, dst) :: _) remote ring size op =>
      let far := remote.isSome
      if m.dropped.isSome || !s.portReady m || (s.guard m.part m.src m.hold.req.dest.1).isSome ||
        decide (s.cycle < m.departed + (if far then 960 else 24 * edges m.src.die dst.die)) then .next s
      else if far then
        let t := s.takeNat
        let code := if t.1 % 2 = 0 then 0 else t.1 / 2 % 65 + 1
        .next (((t.2.modCore m.src fun k => k.modCirc n fun x => x.answer b code op).dropMsg msg).touch m.part)
      else if !(s.core dst).holdRoom 64 then .next s
      else
        let code := s.openingAnswer m.src dst ring size
        let x := (s.core m.src).circ n
        let live := x.openings == op && x.state != .closed
        .next (((s.modCore dst fun k =>
          let k := if code = 0 || !live then k else k.modRing ring fun r => { r with fedBy := some ⟨m.src, n, b, op, none, false⟩ }
          k.modFlow fun f => { f with hold := f.hold ++ [⟨.reply m.src n b code op, .other, 0, 1, s.cycle, 64, false, false⟩] }).dropMsg
          msg).touch m.part)
    | _ => .next s
/-- A reply reaches the source of its circuit (R264). -/
def execCircuitReplyArrive (msg : Nat) (s : State) : Outcome :=
  match s.msg msg with
  | none => .next s
  | some m =>
    match m.hold.req with
    | .reply dst n b code op =>
      if m.dropped.isSome || !s.portReady m || (s.guard m.part m.src (.core dst)).isSome ||
        decide (s.cycle < m.departed + 24 * edges m.src.die dst.die) then .next s
      else .next (((s.modCore dst fun k => k.modCirc n fun x => x.answer b code op).dropMsg msg).touch m.part)
    | _ => .next s
/-- A free notice returns one credit to its branch (R265). -/
def execFreeNoticeArrive (msg : Nat) (s : State) : Outcome :=
  match s.msg msg with
  | none => .next s
  | some m =>
    match m.hold.req with
    | .notice dst n b op =>
      if m.dropped.isSome || !s.portReady m || (s.guard m.part m.src (.core dst)).isSome ||
        decide (s.cycle < m.departed + 24 * edges m.src.die dst.die) then .next s
      else .next (((s.modCore dst fun k => k.modCirc n fun x => if x.openings ≠ op then x else
        { x with branches := x.branches.modify b fun y => { y with credit := y.credit + 1 } }).dropMsg msg).touch m.part)
    | _ => .next s

-- flits

/-- Where the flits of a branch go (R264, R400): a core of this chip, or one of another through the circuit's port. -/
def Circuit.dest (x : Circuit) (b : Branch) : Dest :=
  match x.remote with
  | some chip => .chip chip.toNat b.dst.val x.port
  | none => .core b.dst
/-- The source slot of a tile whose last flit has gone is released (R265). -/
def Core.flitGone (k : Core) (n : CircNo) (f : Flit) (now : Nat) : Core :=
  match (k.circ n).src, f.slot with
  | some q, some i => if f.last then k.release q i now else k
  | _, _ => k
/-- The oldest flit in the hold-back buffer leaves into every elastic buffer, once it has aged and each has a free
entry (R265). -/
def State.flitLeave (s : State) (c : CoreId) (n : CircNo) : Option State :=
  let k := s.core c
  let x := k.circ n
  match (List.range k.flow.hold.length).find? fun i => match k.flow.hold[i]? with
      | some h => h.stream == .circuit n
      | none => false with
  | none => none
  | some i =>
    match k.flow.hold[i]? with
    | some ⟨.flit _ f, _, num, _, entered, _, bad, _⟩ =>
      if s.cycle < entered + Config.tQ || !s.served (s.pmapOf c) || x.branches.any fun b => decide (16 ≤ b.elastic.length) then none
      else match s.spineGrant (s.pmapOf c) c (x.branches.map x.dest) 1 with
        | none => none
        | some s =>
          let f := { f with left := s.cycle, poison := f.poison || bad }
          some ((s.modCore c fun k =>
            let k := k.modFlow fun w => { w with hold := w.hold.eraseIdx i, depCirc := w.depCirc.set n (num + 1), leftAt := some s.cycle }
            (k.modCirc n fun x =>
              { x with branches := x.branches.map fun (b : Branch) => { b with elastic := b.elastic ++ [f] }
                       sent := if f.last then x.sent + 1 else x.sent }).flitGone n f s.cycle).touch (s.pmapOf c))
    | _ => none
/-- The next cut flit enters the hold-back buffer; one that left before a rollback only counts (R359). -/
def State.flitEnter (s : State) (c : CoreId) (n : CircNo) : Option State :=
  let k := s.core c
  match (k.circ n).cut with
  | [] => none
  | f :: fs =>
    let k1 := k.modCirc n fun x => { x with cut := fs }
    if f.seq < k.flow.depCirc[n] then some (s.setCore c (k1.flitGone n f s.cycle))
    else if !k.holdRoom 64 then none
    else some (s.setCore c (k1.modFlow fun w =>
      { w with hold := w.hold ++ [⟨.flit n f, .circuit n, f.seq, 1, s.cycle, 64, f.poison, false⟩] }))
/-- A ring-fed circuit takes its next FULL slot and cuts the whole of it (R265); it waits for a store of its core that cannot
be forwarded (R108). A tile whose release departed before a rollback is only counted (R359). -/
def Core.cutSlot (k : Core) (n : CircNo) (q : RingId) (t : Taken) (now : Nat) : Core :=
  if t.gone then
    let flits := ((k.flow.cuts.find? fun e => e.1 == n && e.2.1 == (k.circ n).tile).map (·.2.2)).getD 0
    ((k.take q (.circuit n)).modCirc n fun x => { x with seq := x.seq + flits, tile := x.tile + 1 }).release q t.slot now
  else match (k.ring q).bind fun r => (k.slotData r (k.circ n).po t.slot 0 r.size).map fun b => (r, b) with
  | none => k
  | some (r, bytes, bad) =>
    let o := t.tag.fmt.val
    let w := tagWidth t.tag.fmt
    let cs := unpackCodes w (8 * r.size / w) bytes
    let x := k.circ n
    let y := x.cutTile o x.ksz (rowRuns cs.length) cs t.tag.coord t.tag.fmt bad (some t.slot) none
    ((k.take q (.circuit n)).modCirc n fun _ => y).modFlow fun f => { f with cuts := (n, x.tile, y.seq - x.seq) :: f.cuts }
/-- A closing circuit has taken every slot that it still delivers (R266). -/
def Core.delivered (k : Core) (x : Circuit) : Bool :=
  match x.src.bind k.ring, x.due with
  | some r, some n => decide (n ≤ r.tookMade)
  | _, _ => true
def State.takeSlot (s : State) (c : CoreId) (n : CircNo) : State :=
  let k := s.core c
  let x := k.circ n
  let mayTake := x.state == .open_ || (x.state == .closing && !x.early && !k.delivered x)
  match x.src with
  | none => s
  | some q =>
    if !mayTake || x.trap.isSome then s
    else match k.head q with
      | none => s
      | some t =>
        if t.tag.tagerr then
          s.modCore c fun k => k.modCirc n fun x => x.fault .ringState (slotInfo q t.slot)
        else if t.tag.fmt = 7 then s.modCore c fun k => k.modCirc n fun x => x.fault .format (slotInfo q t.slot)
        else s.setCore c (k.cutSlot n q t s.cycle)
/-- A circuit moves on (R265): a flit leaves, or one enters the hold-back buffer, or a slot is taken. -/
def execCircuitFlitLeave (c : CoreId) (n : CircNo) (s : State) : Outcome :=
  let k := s.core c
  if !k.enginesRun || k.regs.freeze.ce then .next s
  else match s.flitLeave c n with
    | some t => .next t
    | none => match s.flitEnter c n with
      | some t => .next t
      | none => .next (s.takeSlot c n)

/-- A circuit with a branch changed. -/
def Core.modBranch (k : Core) (n : CircNo) (b : Nat) (f : Branch → Branch) : Core :=
  k.modCirc n fun x => { x with branches := x.branches.modify b f }
/-- The slot number of a fill that writes nothing. -/
def nowhere : Nat := 64
/-- A branch begins its tile's fill at the destination, spending one credit (R265), once the tile's first flit passes the
guards on its way there (R379). A ring that the circuit no longer feeds takes nothing (R416); a slot that is not EMPTY makes
the destination trap (R89). -/
def execBranchFillBegin (c : CoreId) (n : CircNo) (branch : Fin 16) (s : State) : Outcome :=
  let x := (s.core c).circ n
  match x.branches[branch.val]? with
  | none => .next s
  | some b =>
    match b.elastic with
    | [] => .next s
    | f :: _ =>
      if !f.first || b.filling.isSome || b.credit = 0 then .next s
      else
        let go := fun (s : State) (slot : Nat) =>
          s.modCore c fun k => k.modBranch n branch.val fun b => { b with credit := b.credit - 1, filling := some (f.tile, slot) }
        if x.remote.isSome || (s.guard (s.pmapOf c) c (x.dest b)).isSome then .next (go s nowhere)
        else
          let kd := s.core b.dst
          match kd.ring x.dring with
          | none => .next (go s nowhere)
          | some r =>
            if !(r.fedBy.any fun f => f.is c n branch.val) then .next (go s nowhere)
            else match kd.beginRemote x.dring s.cycle with
              | some (slot, kd) => .next (go (s.setCore b.dst kd) slot)
              | none =>
                let t : Trap := { cause := .ringDoubleFill, info := s.fillInfo c 1 x.dring r.prod, src := .ce, word := x.word }
                .next (go (s.modCore b.dst fun k => (k.doubleFill x.dring s.cycle).modLive fun l =>
                  { l with queues := { l.queues with fillTraps := l.queues.fillTraps ++ [t] } }) nowhere)
/-- A branch of a circuit may write a slot of a ring (R85, R416): it feeds the ring, the slot is FILLING for it, and the flit
has not landed before (R268). -/
def Core.flitLands (k : Core) (q : RingId) (slot : Nat) (c : CoreId) (n : CircNo) (b : Nat) (f : Flit) : Bool :=
  (k.ring q).any fun r =>
    decide (slot < r.def_.nslot) && (r.slot slot).state == .filling && (r.slot slot).by_ == .remote &&
    r.fedBy.any fun x => x.is c n b && !seenBefore x.landed f.seq
/-- Slot bytes of a flit written at the destination, on arrival (R84, R91); bytes outside the slot are written nowhere (R85). -/
def Core.landBytes (k : Core) (q : RingId) (slot : Nat) (bytes : List (Nat × Byte)) (poison : Bool) : Core :=
  match k.ring q with
  | none => k
  | some r => k.modStore fun t =>
    t.performCells r.def_.buf ((bytes.filter fun x => decide (x.1 < r.size)).map fun x => (r.offset slot + x.1, x.2)) poison
/-- The whole of a flit has landed (R265, R268). -/
def Core.flitLanded (k : Core) (q : RingId) (slot : Nat) (f : Flit) : Core :=
  let bad := f.poison || ((k.ring q).bind (·.fedBy)).any (·.poison)
  let k := k.modRing q fun r => { r with fedBy := r.fedBy.map fun (x : Feed) =>
    { x with landed := some (f.seq % 2 ^ 32), poison := bad && !f.last } }
  if f.last then k.endFill q slot .remote f.coord f.fmt f.res.toNat bad else k
/-- The bytes of a flit that lie in one 64-byte bank word of its slot. -/
def Flit.inWord (f : Flit) (w : Nat) : List (Nat × Byte) := f.bytes.filter fun x => x.1 / 64 == w
/-- The oldest flit of a branch reaches its destination (R265, R401), one bank word of it at a time, in no promised order
(R83): the last one of a tile makes the slot FULL. A guard may drop it (R380). -/
def execCircuitFlitArrive (c : CoreId) (n : CircNo) (branch : Fin 16) (s : State) : Outcome :=
  let x := (s.core c).circ n
  match x.branches[branch.val]? with
  | none => .next s
  | some b =>
    match b.elastic, b.filling with
    | f :: fs, some (tile, slot) =>
      let p := s.pmapOf c
      let dest := x.dest b
      if tile ≠ f.tile ∨ (x.remote.isNone ∧ s.cycle < f.left + 24 * edges c.die b.dst.die) then .next s
      else
        let next := fun (s : State) => s.modCore c fun k => k.modBranch n branch.val fun b =>
          { b with elastic := fs, filling := if f.last then none else b.filling }
        match s.guard p c dest with
        | some d => .next (((next s).guardRecord c 1 p d dest 1).dropFreeze c 1)
        | none =>
          match dest with
          | .chip chip e via => match (via <|> s.chipPort chip).bind fun q => (s.portGrant p c q 1).map fun t => (q, t) with
            | none => .next s
            | some (q, t) =>
              let t := (next (t.transmit q p 0 chip [udescOf e n.val f.seq])).takeNat
              .next ((t.2.touch p).modCore c fun k => k.modBranch n branch.val fun b => { b with credit := b.credit + t.1 % 2 })
          | _ =>
            if (s.core b.dst).flitLands x.dring slot c n branch.val f then
              let words := (f.bytes.map fun y => y.1 / 64).dedup
              let t := s.takeNat
              match words[t.1 % words.length]? with
              | some w =>
                let s := t.2.modCore b.dst fun k => k.landBytes x.dring slot (f.inWord w) f.poison
                if words.length = 1 then .next (((next s).touch p).modCore b.dst fun k => k.flitLanded x.dring slot f)
                else .next (s.modCore c fun k => k.modBranch n branch.val fun b =>
                  { b with elastic := { f with bytes := f.bytes.filter fun y => y.1 / 64 != w } :: fs })
              | none => .next (((next s).touch p).modCore b.dst fun k => k.flitLanded x.dring slot f)
            else .next ((next s).touch p)
    | _, _ => .next s

/-- A copy gathers a tile for a circuit: the circuit has taken it (R265, R266). -/
def Core.gathers (k : Core) (n : CircNo) : Bool :=
  k.live.copies.any fun y => (y.active || y.state == .fault) && Desc.dkind y.d == 2 && Desc.circ y.d == n &&
    y.opening == (k.circ n).openings && y.pos % Desc.tileElems y.d != 0
/-- Nothing of a circuit is on its way. -/
def Core.circQuiet (k : Core) (n : CircNo) : Bool :=
  let x := k.circ n
  !k.gathers n && x.cut.isEmpty && k.flow.hold.all (fun h => h.stream != .circuit n) &&
  x.branches.all fun b => b.elastic.isEmpty && b.filling.isNone
/-- A circuit CLOSED: its destinations' rings are free for another one. -/
def State.closeCircuit (s : State) (c : CoreId) (n : CircNo) : State :=
  let x := (s.core c).circ n
  let s := x.branches.foldl (fun s (b : Branch) => s.modCore b.dst fun k =>
    k.modRing x.dring fun r => { r with fedBy := r.fedBy.filter fun f => !(f.src == c && f.circ == n) }) s
  s.modCore c fun k => k.modCirc n fun x =>
    { x with state := .closed, branches := [], due := none, early := false, src := none, remote := none, port := none, trap := none }
/-- The closing request has left the core and nothing is left to deliver (R266): the circuit is CLOSED. -/
def execCircuitClosed (c : CoreId) (n : CircNo) (s : State) : Outcome :=
  let k := s.core c
  let x := k.circ n
  match s.net.find? fun m => m.src == c && m.hold.req == .close n with
  | none => .next s
  | some m =>
    let ready := match x.state with
      | .closed => true
      | .closing => !x.early && k.delivered x && k.circQuiet n
      | _ => false
    if ready then .next ((s.closeCircuit c n).dropMsg m.id) else .next s

end Sys2Proof.Machine
end

