-- ==== Sys2Proof/Machine/Launch.lean ====
section
/-! DEFINITION. Launches: the words that enqueue and await them, the checks of a launch record, and enqueueing
(R31 to R33, R41 to R43, R326, R327, R350). -/

namespace Sys2Proof.Machine

/-- R42: the request joins the store stream with the physical address found at issue. -/
def execLaunch (h : Hdr) (d a : SReg) (q : QueueNo) (s : State) : Outcome :=
  s.issue (.launch h d a q) h { srcs := [(.s a, h.pda)], dsts := [.s d], feature := 4, engine := true } fun s =>
    let f := s.me.live.front
    let x := f.srcS a h.pda
    s.withMem .g .load 64 [(x, 64)] (deny := (s.pairedSide s.cur).isSome) (stream := .store) fun s ps need =>
      let k := s.me
      let queued := k.flow.storeQ.foldl (fun n o => n + (match o.act with | .req r => r.size | _ => 0)) 0
      match (ps.headD []).head? with
      | none => .next s
      | some p =>
        if !k.logRoom || !k.holdRoom (queued + 64) then .next s
        else
          let t := Hdr.theTag h
          let known := match k.logged with
            | some x => x
            | none => none
          let pend := f.pendOf (.s d) (wordOf (BitVec.allOnes 64)) (s.cycle + 460) known
          let r : Req := .launch p.addr x p.cmp q t f.at_.po k.regs.asid f.at_.vahi
          let s := s.modCore s.cur fun k => k.pushStore s.cur s.cycle (.req r) none none 0 need
          .next (s.retire { h with tag := some t } none { pend := some pend })

/-- A `lwait` joins the load stream; it reads the one byte of STATE (R43). -/
def State.lwaitWord (s : State) (i : Instr) (h : Hdr) (d a : SReg) (test : Bool) : Outcome :=
  s.issue i h { srcs := [(.s a, h.pda)], dsts := [.s d], feature := 4, engine := true } fun s =>
    let x := s.me.live.front.srcS a h.pda
    if s.me.suspended .store then .next s else
    s.withMem .g .load 64 [(x, 64)] fun s ps need =>
      match (ps.headD []).head? with
      | none => .next s
      | some p =>
        s.loadWord h (.s d) (wordOf (BitVec.allOnes 64)) (.lwait test) .g
          [⟨p.addr + 0x30, x + 0x30, 1, 0, p.cmp, none, none, false⟩] none 300 need
def execLwait (h : Hdr) (d a : SReg) (s : State) : Outcome := s.lwaitWord (.lwait h d a) h d a false
def execLwaitT (h : Hdr) (d a : SReg) (s : State) : Outcome := s.lwaitWord (.lwaitT h d a) h d a true

/-- Every earlier effect of the store stream of a core has been performed. -/
def State.storesDone (s : State) (c : CoreId) (po : Nat) : Bool :=
  let k := s.core c
  k.flow.storeQ.all (fun o => decide (po ≤ o.po)) && k.flow.hold.all (fun e => e.stream != .store) &&
  k.flow.sent.all (fun e => e.left == 0) &&
  k.store.aging.all (fun a => match a.party with
    | .front .. => false
    | _ => true) &&
  s.net.all fun m => m.src != c || m.hold.stream != .store
/-- The oldest load is a `lwait` whose turn has come in both streams; it returns STATE, once that is final, or at
once under TEST (R43). -/
def execLwaitReturn (c : CoreId) (s : State) : Outcome :=
  match (s.core c).flow.loads with
  | [] => .next s
  | l :: _ =>
    match l.kind, l.units with
    | .lwait test, u :: _ =>
      if l.need.isSome then .next (s.placeLoad c)
      else if s.cycle ≤ l.issued ∨ !(s.core c).enginesRun ∨ !s.storesDone c l.po ∨ !s.chipReady (remoteChip u.addr) then .next s
      else match s.readGrant c u.addr 1 u.cmp with
        | .drop x => .next (s.loadDropped c x (destOf u.addr))
        | .wait => .next s
        | .ok s1 =>
          let r := s1.peekFar u.addr 1 u.cmp
          if test || [0, 3, 4, 5].contains r.1 then
            .next (((r.2.2.touch (s.pmapOf c)).finishLoad c
              { l with units := [{ u with value := some r.1, bad := r.2.1 }] }).tryEnter c)
          else .next s
    | _, _ => .next s

-- enqueueing (R32, R327)

/-- A record that would be enqueued: where it lies, its context, and whether its enqueuer is allowed. -/
structure Enq where
  addr : Nat
  va : Word
  cmp : Bool
  asid : Byte
  allowed : Bool
  deriving DecidableEq, Repr
/-- The checks of R32 on a record, lowest code first. -/
def State.recCode (s : State) (p : PartId) (q : QueueNo) (e : Enq) (w : List Word) : Nat :=
  let r := launchRec w
  let g := fun (i : Nat) => w.getD i 0
  if (s.lqueue p q).room ≤ (s.lqueue p q).length then 1
  else if bits (g 6) 0 8 ≠ 0 then 2
  else if bits (g 0) 0 8 ≠ 0xA5 then 3
  else if recReserved w then 4
  else if !r.shapeOk then 5
  else if !s.coresetOk p r then 6
  else if !r.buffersOk (bits (g 0) 24 8) then 7
  else if !e.allowed then 8
  else if r.code.toNat % 80 ≠ 0 then 10
  else if (r.waiten && (s.recBarrier e.asid r.vahi (g 7)).isNone) || (g 4 != 0 && (s.recBarrier e.asid r.vahi (g 4)).isNone) then 11
  else 0
/-- An accepted record joins its queue (R327): the entry, TAIL, STATE := 1, and the launch buffer. -/
def State.accept (s : State) (p : PartId) (q : QueueNo) (e : Enq) (w : List Word) : State :=
  let y := s.lqueue p q
  let tail := bits y.ptr 32 32
  let l := s.makeLaunch p q e.addr e.va e.cmp e.asid w
  let s := (s.codeLine e.asid l.lrec.vahi l.lrec.code).2
  let s := s.pokeWord (logBase y.cfg + 8 * (tail % y.room)) e.va
  let s := s.pokeRec (e.addr + 0x30) [1] e.cmp
  let s := s.modQueue p q fun y =>
    { y.setPtr (tail + 1) (bits y.ptr 0 32) with
      entries := y.entries ++ [l], seen := if y.entries.isEmpty then none else y.seen }
  ({ s with nextLaunch := s.nextLaunch + 1 }.noteHead p q).touch p
/-- An enqueue (R32, R327): its code, and a rejected record's STATE and REASON. -/
def State.enqueue (s : State) (p : PartId) (q : QueueNo) (e : Enq) : Nat × State :=
  let r := s.recWords e.addr e.cmp
  let code := r.2.recCode p q e r.1
  (code,
    if code = 0 then r.2.accept p q e r.1
    else if 3 ≤ code then r.2.pokeRec (e.addr + 0x30) [5, BitVec.ofNat 8 code] e.cmp
    else r.2)
/-- A `launch` reaches its queue (R42, R327). -/
def execLaunchRequestArrive (msg : Nat) (s : State) : Outcome :=
  match s.msg msg with
  | none => .next s
  | some m =>
    match m.hold.req with
    | .launch addr va cmp q tag po asid _ =>
      if m.dropped.isSome || !s.served m.part || !s.tieFree (tieQueue m.part q) m.route || (s.guard m.part m.src m.hold.req.dest.1).isSome then .next s
      else
        let y := s.lqueue m.part q
        let e : Enq := ⟨addr, va, cmp, asid, y.cfg.getLsbD 7 && y.ctx.setWidth 8 == asid⟩
        let r := s.enqueue m.part q e
        .next (((r.2.answer m.src tag po (scalarVec r.1) none).tie (tieQueue m.part q) m.route).applied m)
    | _ => .next s

/-- A doorbell value (R327, R350): the record translates in LQ_CTX's context or is not applied, and LQ_DSTAT
reports the code. `dev` is the core of the device's own doorbell; none tells the host's. -/
def State.doorbell (s : State) (p : PartId) (dev : Option CoreId) (v : Word) : State :=
  let q : QueueNo := Fin.ofNat 64 v.toNat
  let y := s.lqueue p q
  let asid : Byte := y.ctx.setWidth 8
  let a := BitVec.ofNat 64 (v.toNat / 64 * 64)
  let va := bits y.ctx 8 8 * 2 ^ 64 + a.toNat
  let leaf := (s.walk asid va).bind fun l => if l.permits .load .u then some l else none
  let r : Nat × State := match leaf with
    | none => (9, s)
    | some l => s.enqueue p q ⟨l.pa + va % (if l.blk then 2 ^ 30 else 2 ^ 16), a, l.cmp, asid, y.cfg.getLsbD (if dev.isSome then 7 else 6)⟩
  (r.2.modPart p fun x => { x with dstat := BitVec.ofNat 64 (2 ^ 14 + q.val * 2 ^ 8 + r.1) }).tie (tieQueue p q)
    (4096 * p.val + match dev with
      | some c => c.val
      | none => 0x900)

end Sys2Proof.Machine
end

