-- ==== Sys2Proof/Machine/Copy.lean ====
section
/-! DEFINITION. The copy engine (R248 to R258, R267, R268). One occurrence of the block event reads, converts and
writes one copy block, or begins what its tile needs. -/

namespace Sys2Proof.Machine

/-- A copy entry of a core. -/
def Core.copy (k : Core) (e : EntryNo) : CopyEntry := k.live.copies[e]

-- the instructions

/-- COPY_DESC's information (R253). -/
def copyInfo (e : EntryNo) (off : Nat) : Word := BitVec.ofNat 64 (256 * e.val + off)
/-- A word that names an entry waits for the entry's descriptor, and raises the fault of a failed read, which is
then tried again (R255). -/
def State.withEntry (s : State) (e : EntryNo) (k : State → CopyEntry → Outcome) : Outcome :=
  let x := s.me.copy e
  match x.reading, x.readTrap with
  | some _, some t => .next ((s.modCore s.cur fun k => k.modCopy e fun x => { x with readTrap := none }).trapHere t.cause t.info)
  | some _, none => .next s
  | none, _ => k s x
/-- R255. DESIGN CHOICE (log 66): an entry that was DONE is IDLE from the `cdef` on, with its POS and FLAGS kept. -/
def execCdef (h : Hdr) (e : EntryNo) (sp : Space) (a : SReg) (s : State) : Outcome :=
  s.issue (.cdef h e sp a) h { srcs := [(.s a, h.pda)], engine := true } fun s =>
    let f := s.me.live.front
    let x := f.srcS a h.pda
    if x.toNat % 64 ≠ 0 then .next (s.trapHere .alignFault x)
    else if (s.me.copy e).active then .next (s.trapHere .copyDesc (copyInfo e 0xFF))
    else .next ((s.modCore s.cur fun k => k.modCopy e fun y =>
      { y with reading := some (sp, x.toNat), readTrap := none, state := .idle, trap := none, ends := [], level := f.level
               vahi := f.at_.vahi, word := f.at_.pc, po := f.at_.po }).retire h none {})
/-- A translation of the copy engine that raises PERM or WEIGHT_EXEC also freezes it (R386). -/
def State.permFreeze (s : State) (c : CoreId) (cause : Cause) (ce : Bool) (t : Trap) : State :=
  if cause = .perm ∨ cause = .weightExec then s.freezeCore c false ce (!ce) 3 (some t) else s
/-- The read of a descriptor completes (R255). -/
def execCdefReadComplete (c : CoreId) (e : EntryNo) (s : State) : Outcome :=
  let k := s.core c
  let x := k.copy e
  match x.reading, x.readTrap with
  | some (sp, a), none =>
    if !k.enginesRun || k.regs.freeze.ce then .next s
    else match s.engineRead c (16 + e.val) x.level x.vahi .load x.po sp (BitVec.ofNat 64 a) 256 with
      | .wait s => .next s
      | .trap cause w s =>
        let t : Trap := { cause := cause, info := w, src := .ce, word := x.word, level := some x.level }
        .next ((s.modCore c fun k => k.modCopy e fun x => { x with readTrap := some t }).permFreeze c cause true t)
      | .ok _ (some w) s => .next (s.modCore c fun k => k.modCopy e fun x => { x with readTrap := some { cause := .poison, info := w } })
      | .ok bs none s => .next (s.modCore c fun k => k.modCopy e fun x =>
          { x with desc := some ((List.range 32).map fun i => BitVec.ofNat 64 (ofBytes ((bs.drop (8 * i)).take 8))), reading := none })
  | _, _ => .next s

/-- The entry starts from element 0 (R256); a faulted copy is abandoned. DESIGN CHOICE (log 66): a source slot that it has
left HELD stays so until a `qreset`, as a slot left FILLING does. -/
def CopyEntry.start (x : CopyEntry) (demand : Bool) (src dst : Word) (f : Front) (bar : Option Nat) (opening : Nat) : CopyEntry :=
  { x with state := .run, demand := demand, srcOff := src, dstOff := dst, level := f.level, vahi := f.at_.vahi, word := f.at_.pc
           po := f.at_.po, pos := 0, flags := 0, rsr := 1, dslot := none, dcslot := none, sslot := none, cslot := none, acc := []
           sacc := [], tilePoison := false, ends := [], zsSrc := 0, zsDst := 0, bar := bar, opening := opening, trap := none }
/-- `cgo` and `cdem` (R253, R256). -/
def State.startCopy (s : State) (i : Instr) (h : Hdr) (e : EntryNo) (a b : SReg) (demand : Bool) : Outcome :=
  s.issue i h { srcs := [(.s a, h.pda), (.s b, h.pdb)], engine := true } fun s =>
    s.withEntry e fun s x =>
      let f := s.me.live.front
      let src := f.srcS a h.pda
      let dst := f.srcS b h.pdb
      if x.active then .next (s.trapHere .copyDesc (copyInfo e 0xFF))
      else match x.desc with
        | none => .next (s.trapHere .copyDesc (copyInfo e 0xFE))
        | some d =>
          match Desc.bad d s.me src dst with
          | some off => .next (s.trapHere .copyDesc (copyInfo e off))
          | none =>
            let go := fun (s : State) (bar : Option Nat) =>
              .next ((s.modCore s.cur fun k => k.modCopy e fun x =>
                x.start demand src dst f bar (k.live.circuits[Desc.circ d]).openings).retire h none {})
            if Desc.cmpl d = 1 then
              s.withMem .g .rmw 32 [(Desc.caddr d, 32)] (blocks := true) fun s ps _ => go s (((ps.headD []).head?).map (·.addr))
            else go s none
def execCgo (h : Hdr) (e : EntryNo) (a b : SReg) (s : State) : Outcome := s.startCopy (.cgo h e a b) h e a b false
def execCdem (h : Hdr) (e : EntryNo) (a b : SReg) (s : State) : Outcome := s.startCopy (.cdem h e a b) h e a b true
/-- R257. -/
def execCwait (h : Hdr) (e : EntryNo) (s : State) : Outcome :=
  s.issue (.cwait h e) h { engine := true } fun s =>
    if (s.me.copy e).active then .next (s.setWait s.cur (.cwait e)) else .next (s.retire h none {})
/-- A `cwait` returns once its entry is DONE, IDLE or FAULT (R257). -/
def execCwaitReturn (c : CoreId) (s : State) : Outcome :=
  match (s.front c).at_.wait with
  | .cwait e => if ((s.core c).copy e).active then .next s else .next (s.endWait c)
  | _ => .next s

/-- STATE and CSTATE codes (R258). -/
def CopyState.code : CopyState → Nat
  | .idle => 0
  | .run => 1
  | .demand => 2
  | .fault => 3
  | .done => 4
def CircState.code : CircState → Nat
  | .closed => 0
  | .opening => 1
  | .open_ => 2
  | .closing => 3
  | .refused => 4
/-- The status word of an entry (R258). -/
def CopyEntry.status (x : CopyEntry) : Word :=
  let fl := fun (m : FFlags) (b : Nat) => if x.flags &&& m = 0 then 0 else 2 ^ b
  BitVec.ofNat 64 (x.pos * 2 ^ 16 + fl fNANLOST 11 + fl fISAT 10 + fl fFSAT 9 + fl fNX 8 + x.state.code)
/-- The status word of a circuit (R258). -/
def Circuit.status (x : Circuit) : Word :=
  let full := (List.range x.branches.length).foldl (fun n b => match x.branches[b]? with
    | some y => if 16 ≤ y.elastic.length then n + 2 ^ b else n
    | none => n) 0
  let nbr := if x.state = .closed then 0 else x.branches.length
  BitVec.ofNat 64 (x.sent % 2 ^ 32 * 2 ^ 32 + x.state.code * 2 ^ 24 + nbr % 32 * 2 ^ 16 + full % 2 ^ 16)
/-- R258. -/
def execCstat (h : Hdr) (d : SReg) (circuit : Bool) (n : Fin 64) (s : State) : Outcome :=
  s.issue (.cstat h d circuit n) h { dsts := [.s d], engine := true } fun s =>
    if !s.me.logRoom then .next s
    else if circuit then .next (s.deliver h d 6 (s.me.live.circuits[n]).status)
    else s.withEntry (Fin.ofNat 16 n.val) fun s x => .next (s.deliver h d 6 x.status)

-- blocks

/-- Where a block of a copy stands: its first element, row, block of the row, length, tile, and offset in the
tile (R250). -/
structure Blk where
  i0 : Nat
  row : Nat
  b : Nat
  len : Nat
  tile : Nat
  toff : Nat
  lastOfRow : Bool
  lastOfTile : Bool
  deriving DecidableEq, Repr
/-- The block at a linear position. -/
def Desc.blk (d : Desc) (pos : Nat) : Blk :=
  let e0 := Desc.extent d 0
  let te := Desc.tileElems d
  let i0 := pos % e0
  let len := min 64 (e0 - i0)
  { i0 := i0, row := pos / e0, b := i0 / 64, len := len, tile := pos / te, toff := pos % te, lastOfRow := i0 + len == e0
    lastOfTile := pos % te + len == te }
/-- The offset of a row in elements: the sum of its indices times their strides (R250). -/
def Desc.rowAt (d : Desc) (stride : Nat → Word) (row : Nat) : Int :=
  ((List.range' 1 (Desc.ndim d - 1)).foldl (fun (st : Int × Nat) k =>
    (st.1 + (st.2 % Desc.extent d k : Nat) * (stride k).toInt, st.2 / Desc.extent d k)) (0, row)).1
/-- Byte address and nibble of an element offset from a base (R250). -/
def elemPlace (base : Word) (w : Nat) (m : Int) : Word × Nat :=
  if w = 4 then (base + BitVec.ofInt 64 (m / 2), (m % 2).toNat) else (base + BitVec.ofInt 64 (m * ((w / 8 : Nat) : Int)), 0)
/-- Place of a scale byte at a memory endpoint (R251). -/
def Desc.scalePlace (d : Desc) (x : Blk) : Word :=
  Desc.scaddr d + BitVec.ofNat 64 (ceilDiv (Desc.extent d 0) 64 * x.row + x.b)
/-- Number of a block's scale byte in its tile (R229). -/
def Desc.scaleIndex (d : Desc) (x : Blk) : Nat :=
  x.toff / Desc.extent d 0 * ceilDiv (Desc.extent d 0) 64 + x.b
/-- The rounding mode of a code (R65). -/
def rndOf (n : Nat) : Rnd := match n with
  | 0 => .rne
  | 1 => .rtz
  | 2 => .rsr
  | _ => .dyn

/-- A fault of a copy stops its entry (R267), with what the fault record says of it (R315). -/
def CopyEntry.fault (x : CopyEntry) (e : EntryNo) (cause : Cause) (info : Word) : CopyEntry :=
  let d := x.d
  let tile := if Desc.tileElems d = 0 then 0 else x.pos / Desc.tileElems d
  let t : Trap :=
    { cause := cause, info := info, src := .ce, word := x.word, d0 := BitVec.ofNat 64 (x.pos * 2 ^ 16 + e.val)
      d1 := BitVec.ofNat 64 ((Desc.coord d tile).toNat * 2 ^ 32 + tile % 2 ^ 32)
      d2 := BitVec.ofNat 64 (x.zsSrc % 2 ^ 24 * 2 ^ 32 + x.seq % 2 ^ 32), level := some x.level }
  { x with state := .fault, trap := some t }
def State.copyFault (s : State) (c : CoreId) (e : EntryNo) (cause : Cause) (info : Word) : State :=
  let t := (((s.core c).copy e).fault e cause info).trap.getD { cause := cause, info := info }
  (s.modCore c fun k => k.modCopy e fun x => x.fault e cause info).permFreeze c cause true t

/-- What a read of the source gives. -/
inductive SrcRead
  | wait (s : State)
  | fault (cause : Cause) (info : Word) (s : State)
  /-- Codes, the place of marked data, bytes used of a zero-skipped row. -/
  | ok (codes : List Nat) (bad : Option Word) (used : Nat) (s : State)
/-- An engine read, as a source read. -/
def EngRead.source (r : EngRead) (k : List Byte → Option Word → State → SrcRead) : SrcRead :=
  match r with
  | .wait s => .wait s
  | .trap cause w s => .fault cause w s
  | .ok bs bad s => k bs bad s
/-- n elements of w bits from an element offset of their first byte. -/
def unpackAt (w nib n : Nat) (bs : List Byte) : List Nat :=
  if w = 4 then (unpackCodes w (nib + n) bs).drop nib else unpackCodes w n bs
/-- Where a block lies at a memory source (R250, R251): its first byte, the element offset there, and its bytes; of a
zero-skipped block the header and bitmap. -/
def CopyEntry.srcSpan (x : CopyEntry) (y : Blk) : Word × Nat × Nat :=
  let d := x.d
  let w := fieldWidth (Desc.sfmt d)
  let base := Desc.w d 2 + x.srcOff
  let row := (Desc.seo d : Int) + Desc.rowAt d (Desc.sstride d) y.row
  if Desc.szs d then ((elemPlace base w row).1 + BitVec.ofNat 64 x.zsSrc, 0, 16)
  else
    let p := elemPlace base w (row + (y.i0 : Int))
    (p.1, p.2, ceilDiv (4 * p.2 + w * y.len) 8)
/-- The source elements of a block (R250, R251). A slot that carries format tag 0b111, or a zero-skipped block whose header
does, raises FORMAT (R50, R267). -/
def State.copySource (s : State) (c : CoreId) (e : EntryNo) (x : CopyEntry) (y : Blk) : SrcRead :=
  let d := x.d
  let w := fieldWidth (Desc.sfmt d)
  if Desc.skind d = 1 then
    let k := s.core c
    match k.ring (Desc.sring d), x.sslot with
    | some r, some i =>
      let nib := if w = 4 then y.toff % 2 else 0
      match k.slotData r x.po i (w * y.toff / 8) (ceilDiv (w * (nib + y.len)) 8) with
      | none => .wait s
      | some (bs, bad) =>
        let place := slotInfo (Desc.sring d) i
        if (r.slot i).fmt = 7 then .fault .format place s
        else .ok (unpackAt w nib y.len bs) (if bad then some place else none) 0 s
    | _, _ => .wait s
  else
    let p := x.srcSpan y
    let read := fun (s : State) (a : Word) (n : Nat) =>
      s.engineReadAll c (16 + e.val) x.level x.vahi .load x.po (Desc.sspace d) (chunks64 n a n)
    (read s p.1 p.2.2).source fun bs bad s =>
      if Desc.szs d then
        let hdr := ofBytes (bs.take 8)
        if hdr % 8 = 7 then .fault .format p.1 s
        else
          let n := zsValueBytes (Desc.sfmt d) hdr
          (read s (p.1 + 16) n).source fun vs bad2 s =>
            let r := zsExpand (Desc.sfmt d) hdr (ofBytes (bs.drop 8)) y.len vs
            .ok r.1 (if r.2 then some p.1 else if bad.isSome then bad else bad2) (16 + n) s
      else .ok (unpackAt w p.2.1 y.len bs) bad 0 s
/-- The source scale byte of a block (R251): 127 where there is none. -/
def State.copyScale (s : State) (c : CoreId) (e : EntryNo) (x : CopyEntry) (y : Blk) : SrcRead :=
  let d := x.d
  if Desc.sce d ≠ 1 then .ok [127] none 0 s
  else if Desc.skind d = 1 then
    let k := s.core c
    match k.ring (Desc.scring d), x.cslot with
    | some r, some i => match k.slotData r x.po i (Desc.scaleIndex d y) 1 with
      | some (bs, bad) => .ok (bs.map (·.toNat)) (if bad then some (slotInfo (Desc.scring d) i) else none) 0 s
      | none => .wait s
    | _, _ => .wait s
  else
    (s.engineRead c (16 + e.val) x.level x.vahi .load x.po (Desc.sspace d) (Desc.scalePlace d y) 1).source fun bs bad s =>
      .ok (bs.map (·.toNat)) bad 0 s
/-- A NaN of BF16 keeps its bits in FP32 (R70), unless a NaN scale makes it one (R54). -/
def keepsNan (sfmt dfmt sc code : Nat) : Bool := sfmt == 0 && dfmt == 8 && sc != 255 && (decTag 0 code).isNan
/-- The elements of a block converted (R251), with their scale byte. -/
def CopyEntry.convert (x : CopyEntry) (rm : RMode) (codes : List Nat) (sc : Nat) : Conv :=
  let d := x.d
  let k : Conv := { codes := [], scales := [], flags := 0, rsr := x.rsr }
  if Desc.sfmt d = Desc.dfmt d then { k with codes := codes }
  else
    let xs := codes.map fun c => let v := decField (Desc.sfmt d) c; if Desc.sce d = 1 then v.scaled sc else v
    let q : Nat × FFlags := if Desc.sce d = 2 then blockScale (Fin.ofNat 8 (Desc.dfmt d)) xs
      else if Desc.sce d = 3 then (Desc.scale d, 0) else (127, 0)
    let k := (codes.zip xs).foldl (fun (k : Conv) v =>
      if keepsNan (Desc.sfmt d) (Desc.dfmt d) sc v.1 then
        { k with codes := k.codes ++ [v.1 % 2 ^ 16 * 2 ^ 16], rsr := if rm = .rsr then lfsrStep k.rsr else k.rsr }
      else k.element (Desc.dfmt d) rm (Desc.sat d) q.1 v.2) { k with flags := q.2 }
    if Desc.sce d = 2 then { k with scales := [q.1] } else k

-- writes

/-- A byte as the copy's own writes will leave it, for the half of a byte that another block owns (R55). -/
def State.copyByte (s : State) (c : CoreId) (e : EntryNo) (b : Option Buf) (a : Nat) (cmp : Bool) : Byte :=
  let k := s.core c
  let base : Byte := match b with
    | some b => (k.store.buf b).readByte a
    | none => ((s.mem.read s.pkg.mdbase a 1 cmp).1).headD 0
  let cells : List (Nat × Byte) := match b with
    | some b => k.store.aging.flatMap fun (x : Age) => if x.buf == b then x.bytes else []
    | none =>
      let mine := fun (x : Hold) => match x.req with
        | .copyWrite f us _ _ => if f = e then us.flatMap WUnit.cells else []
        | _ => []
      (s.net.flatMap fun (m : Msg) => if m.src = c then mine m.hold else []) ++ k.flow.hold.flatMap mine
  match cells.reverse.find? fun x => x.1 == a with
  | some x => x.2
  | none => base
/-- A store of the front end that precedes the copy and writes a byte is still to be performed: a read for the half of a byte
waits for it (R108). -/
def State.storeAt (s : State) (c : CoreId) (b : Option Buf) (mark a : Nat) : Bool :=
  (s.ownWrites c b mark).any fun w => w.cells.any fun x => x.1 == a
/-- Elements packed from an offset of half bytes, with the other halves of the first and last byte. -/
def packAt (w nib : Nat) (first last : Byte) (cs : List Nat) : List Byte :=
  let cs := if nib = 1 then (first.toNat % 16) :: cs else cs
  packCodes w (if w = 4 ∧ cs.length % 2 = 1 then cs ++ [last.toNat / 16] else cs)

/-- The accesses of a block at a memory destination: addresses and lengths, and their bytes once the addresses
have been translated. -/
structure DstWrite where
  at_ : Word
  nib : Nat
  len : Nat
  bytes : Byte → Byte → List Byte
/-- The destination write of a block (R250, R251). -/
def CopyEntry.target (x : CopyEntry) (y : Blk) (k : Conv) : DstWrite :=
  let d := x.d
  let w := fieldWidth (Desc.dfmt d)
  let base := Desc.w d 3 + x.dstOff
  let row := (Desc.deo d : Int) + Desc.rowAt d (Desc.dstride d) y.row
  if Desc.dzs d then
    let bs := zsBlock (Desc.dfmt d) (Desc.ksz d) 0 k.codes
    ⟨(elemPlace base w row).1 + BitVec.ofNat 64 x.zsDst, 0, bs.length, fun _ _ => bs⟩
  else
    let p := elemPlace base w (row + (y.i0 : Int))
    ⟨p.1, p.2, ceilDiv (4 * p.2 + w * y.len) 8, fun a b => packAt w p.2 a b k.codes⟩
/-- Bytes of the units in which a copy writes memory: one element, for its writes are performed in no promised order (R110);
eight bytes of a zero-skipped block. -/
def Desc.grain (d : Desc) : Nat := if Desc.dzs d then 8 else max 1 (fieldWidth (Desc.dfmt d) / 8)
/-- n bytes in units of m. -/
def grains : Nat → Nat → Word → Nat → List (Word × Nat)
  | 0, _, _, _ => []
  | fuel + 1, m, a, n => if n = 0 then [] else (a, min m n) :: grains fuel m (a + BitVec.ofNat 64 m) (n - m)
/-- A unit for each piece, with its bytes. -/
def unitsAt : List Piece → List Byte → List WUnit
  | [], _ => []
  | p :: ps, bs => ⟨p.addr, p.va, bs.take p.n, p.cmp⟩ :: unitsAt ps (bs.drop p.n)
/-- One unit for each element of a reducing write. -/
def redUnits (ps : List (List Piece)) (bs : List Byte) : List WUnit :=
  (List.range ps.length).flatMap fun i => match (ps.getD i []).head? with
    | some p => [⟨p.addr, p.va, (bs.drop (4 * i)).take 4, p.cmp⟩]
    | none => []

/-- The entry after a block (R258): position, flags, register, sequence number, and the tile it belongs to. -/
def CopyEntry.advance (x : CopyEntry) (y : Blk) (k : Conv) (used wrote : Nat) (poison : Bool) : CopyEntry :=
  let d := x.d
  let keep := Desc.dkind d != 0
  { x with
    state := .run, pos := x.pos + y.len, flags := x.flags ||| (k.flags &&& (fNX ||| fFSAT ||| fISAT ||| fNANLOST)), rsr := k.rsr
    seq := x.seq + 1, zsSrc := if y.lastOfRow then 0 else x.zsSrc + used, zsDst := if y.lastOfRow then 0 else x.zsDst + wrote
    acc := if keep then x.acc ++ k.codes else [], sacc := if keep then x.sacc ++ k.scales else []
    tilePoison := x.tilePoison || poison }
/-- The end of a tile: its source slots are released, its slot is left to become FULL, or its flits are cut
(R251, R252, R265). -/
def Core.closeTile (k : Core) (e : EntryNo) (y : Blk) (now : Nat) : Core :=
  let x := k.copy e
  let d := x.d
  let release := fun (k : Core) (q : RingId) (i : Option Nat) => match i with
    | some i => k.release q i now
    | none => k
  let k := release (release k (Desc.sring d) x.sslot) (Desc.scring d) x.cslot
  let fmt : Fin 8 := if Desc.dfmt d ≤ 6 then Fin.ofNat 8 (Desc.dfmt d) else 0
  let coord := Desc.coord d y.tile
  let ends := match x.dslot with
    | some (some i) => if Desc.dkind d = 1 then
        x.ends ++ [{ ring := Desc.dring d, slot := i
                     scale := match x.dcslot with
                       | some (some j) => some (Desc.scring d, j)
                       | _ => none
                     coord := coord, fmt := fmt, res := residue (packCodes (fieldWidth (Desc.dfmt d)) x.acc)
                     sres := residue (x.sacc.map (BitVec.ofNat 8 ·)), poison := x.tilePoison, seq := x.seq }]
      else x.ends
    | _ => x.ends
  let k := if Desc.dkind d = 2 then
      k.modCirc (Desc.circ d) fun z => z.cutTile (Desc.dfmt d) (Desc.ksz d) (Desc.tileRuns d) x.acc coord fmt x.tilePoison none (some e)
    else k
  k.modCopy e fun x =>
    { x with ends := ends, dslot := none, dcslot := none, sslot := none, cslot := none, acc := [], sacc := [], tilePoison := false }
/-- A block is done: counted, and its tile closed when it ends. -/
def Core.finishBlock (k : Core) (e : EntryNo) (y : Blk) (v : Conv) (used wrote : Nat) (poison : Bool) (now : Nat) : Core :=
  let k := k.modCopy e fun x => x.advance y v used wrote poison
  if y.lastOfTile then k.closeTile e y now else k
/-- Bytes of a copy aged beside a buffer (R84). -/
def Core.ageCopy (k : Core) (e : EntryNo) (seq : Nat) (b : Buf) (us : List WUnit) (poison : Bool) (now : Nat) : Core :=
  k.modStore fun t => { t with aging := t.aging ++ (ageUnits b (.copy e seq) .none now us).map fun (x : Age) => { x with poison := poison } }

/-- The write of a block to memory (R252, R267): every page is checked before any byte is written. -/
def State.copyMemory (s : State) (c : CoreId) (e : EntryNo) (y : Blk) (v : Conv) (used : Nat) (poison : Bool) : State :=
  let k := s.core c
  let x := k.copy e
  let d := x.d
  let t := x.target y v
  let sp := Desc.dspace d
  let red := Desc.red d
  let acc : Access := if red = 0 then .store else .rmw
  let xs := if red ≠ 0 then grains y.len 4 t.at_ (4 * y.len)
    else if sp = .g then grains t.len (Desc.grain d) t.at_ t.len else chunks64 t.len t.at_ t.len
  let scales := v.scales.map fun _ => (Desc.scalePlace d y, 1)
  match (s.asParty c (16 + e.val)).memCheck c x.level x.vahi sp acc 1 false xs, (s.asParty c (16 + e.val)).memCheck c x.level x.vahi sp .store 1 false scales with
  | .miss a, _ => s.askWalk c x.vahi a (16 + e.val)
  | .trap cause a, _ => (s.modCore c fun k => k.dropLeaf x.vahi a).copyFault c e cause a
  | .ok _, .miss a => s.askWalk c x.vahi a (16 + e.val)
  | .ok _, .trap cause a => (s.modCore c fun k => k.dropLeaf x.vahi a).copyFault c e cause a
  | .ok ps, .ok qs =>
    let cells := ps.flatten
    let own := fun (p : Option Piece) (last : Bool) =>
      p.any fun p => s.storeAt c (spaceBuf sp) x.po (if last then p.addr + p.n - 1 else p.addr)
    if fieldWidth (Desc.dfmt d) = 4 ∧ !Desc.dzs d ∧
      ((t.nib = 1 ∧ own cells.head? false) ∨ ((t.nib + y.len) % 2 = 1 ∧ own cells.getLast? true)) then s
    else
    let old := fun (p : Option Piece) (last : Bool) => match p with
      | some p => s.copyByte c e (spaceBuf sp) (if last then p.addr + p.n - 1 else p.addr) p.cmp
      | none => 0
    let bs := t.bytes (old cells.head? false) (old cells.getLast? true)
    let us := (if red = 0 then unitsAt cells bs else redUnits ps bs) ++ unitsAt qs.flatten (v.scales.map (BitVec.ofNat 8 ·))
    match spaceBuf sp with
    | some b => s.modCore c fun k =>
        (if x.seq < k.flow.depCopy[e] then k else k.ageCopy e x.seq b us poison s.cycle).finishBlock e y v used t.len poison s.cycle
    | none =>
      let r := Req.copyWrite e us (Fin.ofNat 5 red) x.bar
      if x.seq < k.flow.depCopy[e] then s.modCore c fun k => k.finishBlock e y v used t.len poison s.cycle
      else if !k.holdRoom r.size then s
      else s.modCore c fun k =>
        (k.modFlow fun f => { f with hold := f.hold ++ [⟨r, .copy e, x.seq, 1, s.cycle, r.size, poison, x.level == .m⟩] }).finishBlock e y v used t.len
          poison s.cycle
/-- The fill of a slot for a tile, where it has not begun (R256). -/
inductive Begun | ok (i : Option Nat) (k : Core) | busy (q : RingId) (slot : Nat)
def Core.beginTile (k : Core) (q : RingId) (e : EntryNo) (slot : Option (Option Nat)) (now : Nat) : Begun :=
  match slot with
  | some i => .ok i k
  | none => match k.beginFill q (.copy e) now with
    | .ok i k => .ok (some i) k
    | .kept k => .ok none k
    | .busy i => .busy q i
/-- The fills of a tile's slot and of the slot of its scales begin together. -/
def Core.beginSlots (k : Core) (e : EntryNo) (now : Nat) : Begun :=
  let x := k.copy e
  let d := x.d
  match k.beginTile (Desc.dring d) e x.dslot now with
  | .busy q i => .busy q i
  | .ok i k =>
    if Desc.sce d ≠ 2 then .ok i (k.modCopy e fun x => { x with dslot := some i })
    else match k.beginTile (Desc.scring d) e x.dcslot now with
      | .busy q i => .busy q i
      | .ok j k => .ok i (k.modCopy e fun x => { x with dslot := some i, dcslot := some j })
/-- The write of a block into the slot of its tile (R91, R252). -/
def State.copySlot (s : State) (c : CoreId) (e : EntryNo) (y : Blk) (v : Conv) (used : Nat) (poison : Bool) : State :=
  let half := fun (k : Core) =>
    let x := k.copy e
    match k.ring (Desc.dring x.d), x.dslot with
    | some r, some (some i) => fieldWidth (Desc.dfmt x.d) = 4 && y.toff % 2 == 1 &&
        s.storeAt c (some r.def_.buf) x.po (r.offset i + 4 * y.toff / 8)
    | _, _ => false
  match (s.core c).beginSlots e s.cycle with
  | .busy q i => (s.modCore c fun k => k.doubleFill q s.cycle).copyFault c e .ringDoubleFill (s.fillInfo c 1 q i)
  | .ok _ k =>
    if half k then s.setCore c k
    else
    let x := k.copy e
    let d := x.d
    let w := fieldWidth (Desc.dfmt d)
    let put := fun (k : Core) (q : RingId) (slot : Option (Option Nat)) (off : Nat) (f : Ring → Nat → List Byte) =>
      match k.ring q, slot with
      | some r, some (some i) =>
        let a := r.offset i + off
        k.ageCopy e x.seq r.def_.buf [⟨a, BitVec.ofNat 64 a, f r a, false⟩] poison s.cycle
      | _, _ => k
    let k := if x.seq < k.flow.depCopy[e] then k
      else
        let k := put k (Desc.dring d) x.dslot (w * y.toff / 8) fun r a =>
          packAt w (if w = 4 then y.toff % 2 else 0) (s.copyByte c e (some r.def_.buf) a false) 0 v.codes
        if v.scales.isEmpty then k
        else put k (Desc.scring d) x.dcslot (Desc.scaleIndex d y) fun _ _ => v.scales.map (BitVec.ofNat 8 ·)
    s.setCore c (k.finishBlock e y v used 0 poison s.cycle)
/-- A block joins its tile on a circuit (R265), which has taken the tile and still is in that opening; scales go to memory at
SCADDR. -/
def State.copyCircuit (s : State) (c : CoreId) (e : EntryNo) (y : Blk) (v : Conv) (used : Nat) (poison : Bool) : State :=
  let x := (s.core c).copy e
  let d := x.d
  let z := (s.core c).live.circuits[Desc.circ d]
  if z.openings ≠ x.opening ∨ (z.state ≠ .open_ ∧ z.state ≠ .closing) then s.copyFault c e .copyDesc (copyInfo e 0)
  else if v.scales.isEmpty then s.modCore c fun k => k.finishBlock e y v used 0 poison s.cycle
  else match (s.asParty c (16 + e.val)).memCheck c x.level x.vahi .g .store 1 false [(Desc.scalePlace d y, 1)] with
    | .miss a => s.askWalk c x.vahi a (16 + e.val)
    | .trap cause a => (s.modCore c fun k => k.dropLeaf x.vahi a).copyFault c e cause a
    | .ok ps =>
      let r := Req.copyWrite e (unitsAt ps.flatten (v.scales.map (BitVec.ofNat 8 ·))) 0 none
      if x.seq < (s.core c).flow.depCopy[e] then s.modCore c fun k => k.finishBlock e y v used 0 poison s.cycle
      else if !(s.core c).holdRoom r.size then s
      else s.modCore c fun k =>
        (k.modFlow fun f => { f with hold := f.hold ++ [⟨r, .copy e, x.seq, 1, s.cycle, r.size, poison, x.level == .m⟩] }).finishBlock e y v used 0
          poison s.cycle

/-- What a block touches in memory, at its source and at its destination (R290), where it takes n bytes of a zero-skipped
source row and m of a zero-skipped destination row. -/
def CopyEntry.touches (x : CopyEntry) (y : Blk) (n m : Nat) : List (Space × Access × List (Word × Nat)) :=
  let d := x.d
  let p := x.srcSpan y
  let t := x.target y { codes := [], scales := [], flags := 0, rsr := x.rsr }
  let n := if Desc.szs d then n else p.2.2
  let m := if Desc.dzs d then m else t.len
  let acc : Access := if Desc.red d = 0 then .store else .rmw
  (if Desc.skind d = 0 then [(Desc.sspace d, .load, chunks64 n p.1 n)] else []) ++
  (if Desc.skind d = 0 ∧ Desc.sce d = 1 then [(Desc.sspace d, .load, [(Desc.scalePlace d y, 1)])] else []) ++
  (if Desc.dkind d = 0 then [(Desc.dspace d, acc, if Desc.red d = 0 then chunks64 m t.at_ m else grains y.len 4 t.at_ (4 * y.len))] else []) ++
  (if Desc.dkind d ≠ 1 ∧ Desc.sce d = 2 then [(if Desc.dkind d = 0 then Desc.dspace d else .g, .store, [(Desc.scalePlace d y, 1)])] else [])
/-- The first miss or trap of accesses of a copy, taken in order. -/
def State.copyChecks (s : State) (c : CoreId) (e : EntryNo) (x : CopyEntry) : List (Space × Access × List (Word × Nat)) → MemCheck
  | [] => .ok []
  | (sp, acc, xs) :: us =>
    match (s.asParty c (16 + e.val)).memCheck c x.level x.vahi sp acc 1 false xs with
    | .ok _ => s.copyChecks c e x us
    | r => r
/-- Accesses of a copy are checked before it goes on (R267, R290). -/
def State.copyChecked (s : State) (c : CoreId) (e : EntryNo) (xs : List (Space × Access × List (Word × Nat))) (k : State) : State :=
  let x := (s.core c).copy e
  match s.copyChecks c e x xs with
  | .miss a => s.askWalk c x.vahi a (16 + e.val)
  | .trap cause a => (s.modCore c fun k => k.dropLeaf x.vahi a).copyFault c e cause a
  | .ok _ => k
/-- A block is read, converted and written (R248, R367), once every page that it touches has been checked (R290): of a
zero-skipped block, those of its header and bitmap first, which say where it ends. DESIGN CHOICE (log 54): RM = 3 takes the mode
that `ctl.round` holds when the block is converted; the specification does not say when. -/
def State.copyMove (s : State) (c : CoreId) (e : EntryNo) (y : Blk) : State :=
  let x := (s.core c).copy e
  s.copyChecked c e (x.touches y 16 16) <|
  match s.copyScale c e x y with
  | .wait t => t
  | .fault cause w t => t.copyFault c e cause w
  | .ok sc sbad _ t =>
    match t.copySource c e x y with
    | .wait t => t
    | .fault cause w t => t.copyFault c e cause w
    | .ok codes bad used t =>
      let v := x.convert (roundMode (rndOf (Desc.rm x.d)) (s.front c).regs.round) codes (sc.headD 127)
      s.copyChecked c e (x.touches y used (x.target y v).len) <|
      match (if bad.isSome then bad else sbad), (s.core c).regs.poisonCont with
      | some w, false => t.copyFault c e .poison w
      | m, _ =>
        let t := match m with
          | some w => t.poisonSeen c w
          | none => t
        match Desc.dkind x.d with
        | 0 => t.copyMemory c e y v used m.isSome
        | 1 => t.copySlot c e y v used m.isSome
        | _ => t.copyCircuit c e y v used m.isSome
/-- The source slots of a tile are taken (R88, R251). -/
inductive Taking | wait | fault (info : Word) | ok (k : Core)
def Core.takeTile (k : Core) (e : EntryNo) : Taking :=
  let x := k.copy e
  let d := x.d
  if Desc.skind d ≠ 1 ∨ x.sslot.isSome then .ok k
  else match k.head (Desc.sring d) with
    | none => .wait
    | some t =>
      if t.tag.tagerr then .fault (slotInfo (Desc.sring d) t.slot)
      else if Desc.sce d ≠ 1 then .ok ((k.take (Desc.sring d) (.copy e)).modCopy e fun x => { x with sslot := some t.slot })
      else match k.head (Desc.scring d) with
        | none => .wait
        | some u =>
          if u.tag.tagerr || u.tag.coord != t.tag.coord then .fault (slotInfo (Desc.scring d) u.slot)
          else .ok (((k.take (Desc.sring d) (.copy e)).take (Desc.scring d) (.copy e)).modCopy e fun x =>
            { x with sslot := some t.slot, cslot := some u.slot })
/-- What a demand-bound tile waits for (R256, R265); a circuit that is no longer in its opening faults. -/
inductive Demand | go (k : Core) | wait | gone
def Core.demand (k : Core) (e : EntryNo) (y : Blk) (now : Nat) : Demand :=
  let x := k.copy e
  let d := x.d
  if Desc.dkind d = 2 ∧ y.toff = 0 then
    let z := k.live.circuits[Desc.circ d]
    if z.state ≠ .open_ ∨ z.openings ≠ x.opening then .gone
    else if z.branches.all fun b => decide (0 < b.credit) then .go k else .wait
  else if Desc.dkind d = 1 ∧ x.demand then match k.beginSlots e now with
    | .ok _ k => .go k
    | .busy .. => .wait
  else .go k
/-- An entry goes on with its next block, or waits (R248, R256). -/
def State.copyStep (s : State) (c : CoreId) (e : EntryNo) : State :=
  let k := s.core c
  let x := k.copy e
  if !x.active || decide (Desc.total x.d ≤ x.pos) then s
  else
    let y := Desc.blk x.d x.pos
    match k.demand e y s.cycle with
    | .gone => s.copyFault c e .copyDesc (copyInfo e 0)
    | .wait => s.modCore c fun k => k.modCopy e fun x => { x with state := .demand }
    | .go k =>
      let k := k.modCopy e fun x => { x with state := .run }
      match k.takeTile e with
      | .wait => s.setCore c k
      | .fault w => (s.setCore c k).copyFault c e .ringState w
      | .ok k => State.copyMove (s.setCore c k) c e y
/-- The step serves the entry: more than its state changes, or it faults. -/
def State.copyServes (s : State) (c : CoreId) (e : EntryNo) : Bool :=
  let x := (s.core c).copy e
  let y := ((s.copyStep c e).core c).copy e
  { y with state := x.state } != x || (y.state == .fault && x.state != .fault)
/-- The entries whose turn comes before that of e, after the one served last (R248). -/
def Core.turnsBefore (k : Core) (e : EntryNo) : List EntryNo :=
  ((List.range 15).map fun i => k.live.served + 1 + Fin.ofNat 16 i).takeWhile (· != e)
/-- R248, R256: the entries are served round-robin, one block at a time; one that waits is passed over. DESIGN CHOICE (log
55): an entry reads its blocks in ascending order and each of them at one moment, where no order is promised (R110). -/
def execCopyBlock (c : CoreId) (e : EntryNo) (s : State) : Outcome :=
  let k := s.core c
  if !k.enginesRun || k.regs.freeze.ce || (k.turnsBefore e).any (s.copyServes c) then .next s
  else
    let t := s.copyStep c e
    .next (if s.copyServes c e then t.modCore c fun k => k.modLive fun l => { l with served := e } else t)

-- completion

/-- Every write of a copy has been performed (R252). -/
def State.copyPerformed (s : State) (c : CoreId) (e : EntryNo) : Bool :=
  let k := s.core c
  let x := k.copy e
  let flits := fun (fs : List Flit) => fs.any fun f => f.entry == some e
  decide (Desc.total x.d ≤ x.pos) && x.ends.isEmpty &&
  k.store.aging.all (fun a => match a.party with
    | .copy f _ => f != e
    | _ => true) &&
  k.flow.hold.all (fun h => h.stream != .copy e && match h.req with
    | .flit _ f => f.entry != some e
    | _ => true) &&
  s.net.all (fun m => m.src != c || m.hold.stream != .copy e) &&
  k.live.circuits.all fun z => !flits z.cut && z.branches.all fun b => !flits b.elastic
/-- The token of a completion, where there is room for it (R252): F→K is FIFO 0, F→D is FIFO 7. -/
def Core.completionToken (k : Core) (e : EntryNo) : Option Core :=
  let j : Fin 8 := if Desc.cmpl (k.copy e).d = 2 then 0 else 7
  if k.live.queues.fifo[j] = 16 then none
  else some ((k.modLive fun l => l.pushIf true j (l.copies[e]).po).modCopy e fun x => { x with state := .done })
/-- The entry reaches DONE (R252), unless its completion is a token still to be pushed. -/
def execCopyDone (c : CoreId) (e : EntryNo) (s : State) : Outcome :=
  let x := (s.core c).copy e
  if !(s.core c).enginesRun || (s.core c).regs.freeze.ce || !x.active || 2 ≤ Desc.cmpl x.d || !s.copyPerformed c e then .next s
  else .next (s.modCore c fun k => k.modCopy e fun x => { x with state := .done })
/-- A completion token is pushed, and the entry is DONE (R252); at a full FIFO it waits. -/
def execCopyCompletionTokenPush (c : CoreId) (e : EntryNo) (s : State) : Outcome :=
  let x := (s.core c).copy e
  if !(s.core c).enginesRun || (s.core c).regs.freeze.ce || !x.active || Desc.cmpl x.d < 2 || !s.copyPerformed c e then .next s
  else .next (match (s.core c).completionToken e with
    | some k => s.setCore c k
    | none => s)

end Sys2Proof.Machine
end

