-- ==== Sys2Proof/Machine/PoolIssue.lean ====
section
/-! DEFINITION. Dispatch of the pool's queue instructions, and `pstat` (R218, R230, R246). -/

namespace Sys2Proof.Machine

/-- The entries of a queue (R18). -/
def Queues.queue (q : Queues) : PoolQ → List QEntry
  | .k => q.k
  | .o => q.o
  | .d => q.d
/-- Queues with the entries of one replaced. -/
def Queues.setQueue (q : Queues) (x : PoolQ) (es : List QEntry) : Queues :=
  match x with
  | .k => { q with k := es }
  | .o => { q with o := es }
  | .d => { q with d := es }
/-- A core with its queues changed. -/
def Core.modQueues (k : Core) (f : Queues → Queues) : Core := k.modLive fun l => { l with queues := f l.queues }
/-- The queue has room for one more entry (R20). -/
def Core.queueRoom (k : Core) (x : PoolQ) : Bool := decide ((k.live.queues.queue x).length < 32)

/-- A new queue entry (R218). -/
def QEntry.of (op : QOp) (tok : Tok) (word : Word) (level : Level) (vahi : Byte) (gen po : Nat) : QEntry :=
  { op := op, tok := tok, word := word, level := level, vahi := vahi, gen := gen, po := po, began := none, popped := false
    doneAt := none, step := 0, pos := 0, fmt := none, oslot := none, bslot := none, flags := 0, poison := false, trap := none }
/-- An entry placed in a queue; a `plane` advances the dispatch generation (R224). -/
def Core.place (k : Core) (x : PoolQ) (op : QOp) (tok : Tok) (word : Word) (level : Level) (vahi : Byte) (po : Nat) : Core :=
  k.modQueues fun q =>
    let q := match op with
      | .plane _ => { q with genD := q.genD + 1 }
      | _ => q
    q.setQueue x (q.queue x ++ [QEntry.of op tok word level vahi q.genD po])

/-- Dispatch (R218): scalar registers are read, a full queue stalls (R20), and the tag clears on acceptance
(R133). -/
def State.dispatch (s : State) (i : Instr) (h : Hdr) (srcs : List (Reg × Fin 4)) (locks : List Reg) (x : PoolQ) (t : Tok)
    (op : Front → QOp) : Outcome :=
  s.issue i h { srcs := srcs, locks := locks, engine := true } fun s =>
    if !s.me.queueRoom x then .next s
    else
      let f := s.me.live.front
      .next ((s.modCore s.cur fun k => k.place x (op f) t f.at_.pc f.level f.at_.vahi f.at_.po).retire h none {})

def execCarve (h : Hdr) (t : Tok) (a b : SReg) (clr : Bool) (s : State) : Outcome :=
  s.dispatch (.carve h t a b clr) h [(.s a, h.pda), (.s b, h.pdb)] [] .k t fun f =>
    .carve (f.srcS a h.pda) (f.srcS b h.pdb) clr
def execWload (h : Hdr) (t : Tok) (q : RingId) (a : SReg) (s : State) : Outcome :=
  s.dispatch (.wload h t q a) h [(.s a, h.pda)] [] .k t fun f => .wload q (f.srcS a h.pda)
def execMmap (h : Hdr) (t : Tok) (a b : SReg) (s : State) : Outcome :=
  s.dispatch (.mmap h t a b) h [(.s a, h.pda), (.s b, h.pdb)] [] .k t fun f => .mmap (f.srcS a h.pda) (f.srcS b h.pdb)
def execPlane (h : Hdr) (t : Tok) (copy : Bool) (s : State) : Outcome :=
  s.dispatch (.plane h t copy) h [] [] .k t fun _ => .plane copy
def execSbind (h : Hdr) (t : Tok) (q : RingId) (lane : LaneId) (en : Bool) (s : State) : Outcome :=
  s.dispatch (.sbind h t q lane en) h [] [] .k t fun _ => .sbind q lane en
def execFeed (h : Hdr) (t : Tok) (q : RingId) (a b c : SReg) (lane : LaneId) (slot : Fin 8) (tpsm1 : Fin 256) (s : State) :
    Outcome :=
  s.dispatch (.feed h t q a b c lane slot tpsm1) h [(.s a, h.pda), (.s b, h.pdb)] [.s c] .o t fun f =>
    .feed q (f.srcS a h.pda) (f.srcS b h.pdb) (f.regs.getS c) lane slot (tpsm1.val + 1)
def execFeedx (h : Hdr) (t : Tok) (a b c : SReg) (lane : LaneId) (slot : Fin 8) (fmt : Fin 8) (s : State) : Outcome :=
  s.dispatch (.feedx h t a b c lane slot fmt) h [(.s a, h.pda), (.s b, h.pdb)] [.s c] .o t fun f =>
    .feedx (f.srcS a h.pda) (f.srcS b h.pdb) (f.regs.getS c) lane slot fmt
def execDrain (h : Hdr) (t : Tok) (q : RingId) (a b : SReg) (lane : LaneId) (bias : RingId) (s : State) : Outcome :=
  s.dispatch (.drain h t q a b lane bias) h [(.s a, h.pda), (.s b, h.pdb)] [] .d t fun f =>
    .drain q (f.srcS a h.pda) (f.srcS b h.pdb) lane bias
def execAclr (h : Hdr) (t : Tok) (b : SReg) (s : State) : Outcome :=
  s.dispatch (.aclr h t b) h [(.s b, h.pdb)] [] .d t fun f => .aclr (f.srcS b h.pdb)

/-- Operations of a lane not yet fired, and not yet retired. -/
def LaneState.remain (l : LaneState) : Nat := l.streams.foldl (fun n (x : Stream) => n + (x.count - x.fired)) 0
def LaneState.unretired (l : LaneState) : Nat := l.streams.foldl (fun n (x : Stream) => n + (x.count - x.retired)) 0
/-- The status words of `pstat` (R246). -/
def Core.poolStatus (k : Core) (sel : Fin 16) : Word :=
  let q := k.live.queues
  if sel.val = 0 then
    let armed := (List.finRange 4).foldl (fun n l => if q.lanes[l].unretired = 0 then n else n + 2 ^ l.val) 0
    BitVec.ofNat 64 (q.genL % 256 * 2 ^ 32 + armed * 2 ^ 25 + k.store.liveSel.val * 2 ^ 24 + q.d.length % 64 * 2 ^ 16
      + q.o.length % 64 * 2 ^ 8 + q.k.length % 64)
  else if sel.val = 1 then
    BitVec.ofNat 64 ((List.finRange 8).foldl (fun n j => n + q.fifo[j].val * 2 ^ (5 * j.val)) 0)
  else
    let l := q.lanes[sel.val % 4]?.getD ⟨[], 0, 0, 0⟩
    BitVec.ofNat 64 (l.undrained * 2 ^ 32 + l.remain % 2 ^ 32)
def execPstat (h : Hdr) (d : SReg) (sel : Fin 16) (s : State) : Outcome :=
  s.issue (.pstat h d sel) h { dsts := [.s d] } fun s =>
    if !s.me.logRoom then .next s else .next (s.deliver h d 6 (s.me.poolStatus sel))

end Sys2Proof.Machine
end

