-- ==== Sys2Proof/Machine/PoolQueue.lean ====
section
/-! DEFINITION. The queues K, O and D: tokens, configuration, weight loads, swaps, and the arming of streams
(R128, R219 to R231, R278, R279). An entry that takes time finishes in a later occurrence of the same event. -/

namespace Sys2Proof.Machine

/-- FIFOs that a queue waits on, previous and next, and those it signals (R47, R128). -/
def PoolQ.waits : PoolQ → Fin 8 × Fin 8
  | .k => (0, 5)
  | .o => (1, 6)
  | .d => (2, 7)
def PoolQ.signals : PoolQ → Fin 8 × Fin 8
  | .k => (4, 1)
  | .o => (5, 2)
  | .d => (6, 3)
/-- The place of a queue among the three. -/
def PoolQ.idx : PoolQ → Fin 3
  | .k => 0
  | .o => 1
  | .d => 2
/-- The party of a queue (R310). -/
def PoolQ.src : PoolQ → Src
  | .k => .k
  | .o => .o
  | .d => .d

/-- A core with the head of a queue changed, or gone. -/
def Core.modHead (k : Core) (x : PoolQ) (f : QEntry → QEntry) : Core :=
  k.modQueues fun q => match q.queue x with
    | e :: es => q.setQueue x (f e :: es)
    | [] => q
/-- The head leaves; the next one may begin in the next cycle (R219). -/
def Core.dropHead (k : Core) (x : PoolQ) (now : Nat) : Core :=
  k.modQueues fun q => { q.setQueue x ((q.queue x).drop 1) with readyAt := q.readyAt.set (PoolQ.idx x) (now + 1) }
/-- A trap of a queue entry (R220): the queue stops at it. -/
def QEntry.fault (e : QEntry) (x : PoolQ) (cause : Cause) (info : Word) (n : Nat) (lane : LaneId) : QEntry :=
  { e with trap := some { cause := cause, info := info, src := PoolQ.src x, word := e.word, level := some e.level
                          d0 := BitVec.ofNat 64 (lane.val * 2 ^ 32 + n % 2 ^ 32) } }
def State.stopHead (s : State) (c : CoreId) (x : PoolQ) (cause : Cause) (info : Word) (n : Nat := 0) (lane : LaneId := 0) : State :=
  s.modCore c fun k => k.modHead x fun e => e.fault x cause info n lane

/-- A stream has faulted: O stops there (R220). -/
def Queues.streamTrap (q : Queues) : Bool := q.lanes.any fun l => l.streams.any fun (x : Stream) => x.trap.isSome
/-- The head of a queue once its tokens have been popped (R128, R219); none while it must wait. What its tokens cover, it
observes (R109, R216). -/
def Core.openHead (k : Core) (x : PoolQ) (now : Nat) : Option (QEntry × Core) :=
  match k.live.queues.queue x with
  | [] => none
  | e :: _ =>
    if !k.enginesRun || e.trap.isSome || (x == .o && k.live.queues.streamTrap) then none
    else if e.popped then some (e, k)
    else if now < k.live.queues.readyAt[PoolQ.idx x] then none
    else
      let w := PoolQ.waits x
      if (e.tok.wp && !k.live.hasToken w.1) || (e.tok.wn && !k.live.hasToken w.2) then none
      else
        let seen := max (k.live.covered e.tok.wp w.1) (k.live.covered e.tok.wn w.2)
        let e1 := { e with popped := true, began := some now, po := max e.po seen }
        some (e1, (k.modLive fun l => (l.popIf e.tok.wp w.1).popIf e.tok.wn w.2).modHead x fun _ => e1)
/-- An entry finishes (R128): its signals are pushed and it leaves; a full FIFO stops the queue. -/
def Core.finishHead (k : Core) (x : PoolQ) (e : QEntry) (now : Nat) : Core :=
  let w := PoolQ.signals x
  match k.live.tokenOver e.tok.sp e.tok.sn w.1 w.2 with
  | some j => k.modHead x fun e => e.fault x .tokenOver (BitVec.ofNat 64 j.val) e.step 0
  | none => (k.modLive fun l => (l.pushIf e.tok.sp w.1 e.po).pushIf e.tok.sn w.2 e.po).dropHead x now
def State.finishHead (s : State) (c : CoreId) (x : PoolQ) (e : QEntry) : State := s.modCore c fun k => k.finishHead x e s.cycle
/-- The head of a queue, for an event of its kind. -/
def State.withHead (s : State) (c : CoreId) (x : PoolQ) (f : QEntry → State → State) : Outcome :=
  match (s.core c).openHead x s.cycle with
  | none => .next s
  | some (e, k) => .next (f e (s.setCore c k))
/-- An entry acts once; afterwards it finishes when its cycles have passed. -/
def State.actOrFinish (s : State) (c : CoreId) (x : PoolQ) (e : QEntry) (act : State → State) : State :=
  match e.doneAt with
  | none => act s
  | some t => if t ≤ s.cycle then s.finishHead c x e else s
/-- The entry finishes n cycles after it began. -/
def State.finishAfter (s : State) (c : CoreId) (x : PoolQ) (n : Nat) : State :=
  s.modCore c fun k => k.modHead x fun e => { e with doneAt := some (e.began.getD s.cycle + n) }

-- the maquette plane (R221, R359)

/-- The maquette plane. -/
def Store.maquette (t : Store) : Plane := t.planes[(t.liveSel + 1 : Fin 2)]
def Store.livePlane (t : Store) : Plane := t.planes[t.liveSel]
/-- An effect of K on the planes (R359): counted, and entered into the write-age stage. One that had departed before a
rollback leaves the planes as it left them then. -/
def Core.planeEffect (k : Core) (now : Nat) (f : Store → Store) : Core :=
  let n := k.live.prod.maq
  let k := k.modLive fun l => { l with prod := { l.prod with maq := n + 1 } }
  match (if n < k.flow.dep.maq then k.flow.planeLog.find? fun w => w.num == n else none) with
  | some w => k.modStore fun t => t.setPlanes w.after
  | none =>
    let t := f k.store
    (k.modStore fun _ => t).modFlow fun g => { g with planeLog := g.planeLog ++ [⟨n, now, k.store.bothPlanes, t.bothPlanes⟩] }
/-- A write of the maquette plane. -/
def Core.modMaquette (k : Core) (now : Nat) (f : Plane → Plane) : Core :=
  k.planeEffect now fun t => { t with planes := t.planes.set (t.liveSel + 1 : Fin 2) (f t.maquette) }

/-- A ring that a queue entry names: defined (R416) and in a buffer its party may use (R81). -/
def Core.ringOk (k : Core) (q : RingId) (bs : List Buf) : Bool :=
  match k.ring q with
  | some r => bs.contains r.def_.buf
  | none => false

/-- `carve` at the head of K (R223). -/
def execCarveBegin (c : CoreId) (s : State) : Outcome :=
  s.withHead c .k fun e s =>
    match e.op with
    | .carve a b clr =>
      s.actOrFinish c .k e fun s =>
        if e.step ≠ 0 then s
        else if !carveOk a then s.stopHead c .k .bounds a
        else if bits a 49 1 = 0 then
          (s.modCore c fun k => k.modMaquette s.cycle fun p => p.carve a clr []).finishAfter c .k (if clr then 9 else 2)
        else if bits b 0 6 ≠ 0 then s.stopHead c .k .alignFault b
        else s.modCore c fun k => k.modHead .k fun e => { e with step := 1 }
    | _ => s
/-- The group record of an extended `carve` is read (R223, R45). DESIGN CHOICE (log 64): TRAP_INFO of a BOUNDS found here is the
carve word. -/
def execCarveRecordRead (c : CoreId) (s : State) : Outcome :=
  s.withHead c .k fun e s =>
    match e.op with
    | .carve a b clr =>
      if e.step ≠ 1 then s
      else match s.engineRead c 4 e.level e.vahi .load e.po .g b 32 with
        | .wait s => s
        | .trap cause x s => s.stopHead c .k cause x
        | .ok _ (some x) s => s.stopHead c .k .poison x
        | .ok bs none s =>
          let ms := (List.finRange 256).filter fun (d : CoreId) => ofBytes bs / 2 ^ d.val % 2 == 1
          if !ms.contains c || 16 < ms.length then s.stopHead c .k .bounds a
          else (s.modCore c fun k => (k.modMaquette s.cycle fun p => p.carve a clr ms).modHead .k fun e =>
            { e with step := 2, doneAt := some s.cycle }).finishHead c .k e
    | _ => s

/-- `mmap` at the head of K (R228). -/
def execMmapBegin (c : CoreId) (s : State) : Outcome :=
  s.withHead c .k fun e s =>
    match e.op with
    | .mmap a b =>
      s.actOrFinish c .k e fun s =>
        match mmapBad a b with
        | some x => s.stopHead c .k .bounds x
        | none => (s.modCore c fun k => k.modMaquette s.cycle fun p => p.mmap a b).finishAfter c .k (1 + ceilDiv (bits a 48 10 + 1) 16)
    | _ => s
/-- `sbind` at the head of K (R229). -/
def execSbindBegin (c : CoreId) (s : State) : Outcome :=
  s.withHead c .k fun e s =>
    match e.op with
    | .sbind q lane en =>
      s.actOrFinish c .k e fun s =>
        if en && !(s.core c).ringOk q [.wb, .ab] then s.stopHead c .k .ringState (slotInfo q 0)
        else (s.modCore c fun k => k.modMaquette s.cycle fun p =>
          { p with lanes := p.lanes.set lane (if en then some q else none) }).finishAfter c .k 1
    | _ => s

/-- Every operation of every stream dispatched before a `plane` has retired (R219): those streams carry an earlier
dispatch generation (R224). A stream of count 0 has no operation. -/
def Queues.drainedBefore (q : Queues) (gen : Nat) : Bool :=
  q.lanes.all (fun l => l.streams.all fun (x : Stream) => decide (gen ≤ x.gen) || decide (x.count ≤ x.retired)) &&
  q.o.all fun (e : QEntry) => decide (gen ≤ e.gen) || match e.op with
    | .feed _ a .. => bits a 0 32 == 0
    | .feedx a .. => bits a 0 32 == 0
    | _ => true
/-- The new live plane's groups are no longer fresh (R241). -/
def Plane.settle (p : Plane) : Plane :=
  { p with groups := p.groups.map fun e => (e.1, e.2.map fun g => { g with fresh := false }) }
/-- The swap (R224, R225), performed as it is made. Parts of a group carved since count from 0 (R241). -/
def Core.swap (k : Core) (copy : Bool) (now : Nat) : Core :=
  let fresh := (k.store.maquette.groups.filter fun e => match e.2 with
    | some g => g.fresh
    | none => false).map (·.1)
  let dep := k.live.prod.maq < k.flow.dep.maq
  ((k.modFlow fun f => if dep then f else { f with depParts := f.depParts.filter fun e => !fresh.contains e.1 }).planeEffect now fun t =>
    let p := t.maquette.settle
    { t with
      liveSel := t.liveSel + 1
      planes := if copy then .replicate 2 p else t.planes.set (t.liveSel + 1 : Fin 2) p }).planesPerformed.modLive fun l => { l with queues :=
    { l.queues with genL := l.queues.genL + 1, swapAt := some now, parts := l.queues.parts.filter fun e => !fresh.contains e.1 } }
/-- `plane` at the head of K (R225): its conditions hold, tQ passes, and the planes swap once every earlier write of the
maquette plane has been performed (R359). -/
def execPlaneSwap (c : CoreId) (s : State) : Outcome :=
  s.withHead c .k fun e s =>
    match e.op with
    | .plane copy =>
      match e.step, e.doneAt with
      | 0, none =>
        if (s.core c).live.queues.drainedBefore e.gen then
          s.modCore c fun k => k.modHead .k fun e => { e with doneAt := some (s.cycle + Config.tQ) }
        else s
      | 0, some t =>
        if s.cycle < t || !(s.core c).planesDone then s
        else
          let s := s.modCore c fun k => k.swap copy s.cycle
          let s := s.modCore c fun k => k.modHead .k fun e => { e with step := 1, doneAt := some (s.cycle + if copy then 64 else 0) }
          if copy then s else s.finishHead c .k e
      | _, some t => if t ≤ s.cycle then s.finishHead c .k e else s
      | _, none => s
    | _ => s

/-- The checks of a `wload` that do not concern its ring (R227). -/
def State.wloadGroups (s : State) (c : CoreId) (a : Word) : Option (List Group) :=
  let ng := bits a 10 10 + 1
  if bits a 24 40 ≠ 0 ∨ 1024 < bits a 0 10 + ng then none else (s.core c).store.maquette.run (bits a 0 10) ng
/-- A format that a run of groups cannot take (R227). -/
def badWeightFmt (t : Fin 8) (scl : Bool) (gs : List Group) : Bool :=
  t == 7 || gs.any (fun g => decide (32 < g.pack * tagWidth t)) || (t == 3 && !scl)
/-- A slot of a `wload` is used (R227): its bytes from offset 0 go into the registers. -/
def State.wloadSlot (s : State) (c : CoreId) (q : RingId) (a : Word) (e : QEntry) (r : Ring) (x : Taken) (gs : List Group) : State :=
  let t := e.fmt.getD x.tag.fmt
  let scl := bits a 23 1 == 1
  if x.tag.tagerr || x.tag.fmt != t then s.stopHead c .k .ringState (slotInfo q x.slot) e.step
  else if badWeightFmt t scl gs then s.stopHead c .k .format (slotInfo q x.slot) e.step
  else
    let total := gs.foldl (fun n g => n + g.streamLen t scl) 0
    let len := min r.size (total - e.pos)
    let last := decide (total ≤ e.pos + r.size)
    let wslot := Fin.ofNat 8 (bits a 20 3)
    match (s.core c).slotData r e.po x.slot 0 len with
    | none => s
    | some (bs, bad) => s.modCore c fun k =>
      let k := (k.take q .wload).modMaquette s.cycle fun p =>
        let p := Plane.putStream t scl wslot.val bad gs e.pos bs p
        if last then p.setFormats (bits a 0 10) gs.length wslot t scl else p
      let k := if last then k else k.release q x.slot s.cycle
      k.modHead .k fun e =>
        { e with
          step := e.step + 1, pos := e.pos + len, fmt := some t
          oslot := if last then some x.slot else none
          doneAt := if last then some (max s.cycle (e.began.getD 0 + 4 + ceilDiv total 1024)) else none }
/-- `wload` takes its next slot, or finishes (R219, R227). -/
def execWloadSlotStep (c : CoreId) (s : State) : Outcome :=
  s.withHead c .k fun e s =>
    match e.op with
    | .wload q a =>
      match e.doneAt, e.oslot with
      | some t, some i =>
        if t ≤ s.cycle then (s.modCore c fun k => (k.release q i s.cycle).modHead .k fun e => { e with oslot := none }).finishHead c .k e
        else s
      | some t, none => if t ≤ s.cycle then s.finishHead c .k e else s
      | none, _ =>
        match (s.core c).ring q with
        | none => s.stopHead c .k .ringState (slotInfo q 0)
        | some r =>
          if r.def_.buf ≠ .wb then s.stopHead c .k .ringState (slotInfo q 0)
          else match s.wloadGroups c a with
            | none => s.stopHead c .k .bounds a
            | some gs =>
              match (s.core c).head q with
              | none => s
              | some x => s.wloadSlot c q a e r x gs
    | _ => s

/-- A TOKEN felt's entry (R279): it finishes in the cycle it begins. -/
def execTokenEntryBegin (c : CoreId) (q : PoolQ) (s : State) : Outcome :=
  s.withHead c q fun e s =>
    match e.op with
    | .token => s.finishHead c q e
    | _ => s

-- arming (R219, R231)

/-- The first operand word of a stream with a failing field (R231). -/
def feedBad (a b c : Word) (x : Bool) : Option Word :=
  if bits a 32 32 ≠ 0 then some a
  else if bits b 36 28 ≠ 0 ∨ bits b 18 18 = 0 then some b
  else if x then (if bits c 50 14 ≠ 0 ∨ bits c 48 2 = 0 ∨ bits c 48 2 = 3 then some c else none)
  else if bits c 24 40 ≠ 0 then some c else none
/-- The stream of a queue entry. -/
def QEntry.stream (e : QEntry) (ring : Option RingId) (a b c : Word) (slot fmt : Fin 8) (tps : Nat) : Stream :=
  { ring := ring, count := bits a 0 32, nrow := bits b 18 18, rstride := bits b 0 18, pitch := if ring.isSome then bits c 0 24 else bits c 24 24
    base := bits c 0 24, space := if bits c 48 2 = 1 then .wb else .ab, fmt := fmt, slot := slot, tps := tps, gen := e.gen
    fired := 0, retired := 0, tok := e.tok, word := e.word, level := e.level, po := e.po, oslot := none, sslot := none, again := []
    sagain := [], trap := none }
/-- A core with a lane changed. -/
def Core.modLane (k : Core) (l : LaneId) (f : LaneState → LaneState) : Core :=
  k.modQueues fun q => { q with lanes := q.lanes.set l (f q.lanes[l]) }
/-- A checked stream is armed, or finishes at once when its count is 0. The queue's next instruction may begin in the next
cycle (R219). DESIGN CHOICE (log 58): an armed stream no longer takes one of the 32 entries of O (R20) and is not counted in
OCNT (R246); the specification does not say when its entry frees. -/
def State.arm (s : State) (c : CoreId) (e : QEntry) (lane : LaneId) (x : Stream) : State :=
  if x.count = 0 then s.finishHead c .o e
  else s.modCore c fun k => (k.dropHead .o s.cycle).modLane lane fun l => { l with streams := l.streams ++ [x] }
/-- `feed` or `feedx` at the head of O (R219, R231): the lane must have fired all it has. -/
def execFeedArm (c : CoreId) (s : State) : Outcome :=
  s.withHead c .o fun e s =>
    match e.op with
    | .feed q a b w lane slot tps =>
      if (s.core c).live.queues.lanes[lane].remain ≠ 0 then s
      else if !(s.core c).ringOk q [.wb, .ab] then s.stopHead c .o .ringState (slotInfo q 0) 0 lane
      else match feedBad a b w false with
        | some x => s.stopHead c .o .bounds x 0 lane
        | none => s.arm c e lane (e.stream (some q) a b w slot 0 tps)
    | .feedx a b w lane slot fmt =>
      if (s.core c).live.queues.lanes[lane].remain ≠ 0 then s
      else match feedBad a b w true with
        | some x => s.stopHead c .o .bounds x 0 lane
        | none =>
          if fmt = 7 then s.stopHead c .o .format 0xF 0 lane
          else s.arm c e lane (e.stream none a b w slot fmt 1)
    | _ => s

end Sys2Proof.Machine
end

