-- ==== Sys2Proof/Machine/Felts.lean ====
section
/-! DEFINITION. Felts: headers with their checks, configure records, and the blocks of a LOADW payload (R270 to
R278). -/

namespace Sys2Proof.Machine

/-- A felt header: its eight words. -/
abbrev Felt := List Word

def Felt.w (h : Felt) (k : Nat) : Word := h.getD k 0
def Felt.bop (h : Felt) : Nat := bits (Felt.w h 0) 8 8
def Felt.fmt (h : Felt) : Fin 8 := Fin.ofNat 8 (bits (Felt.w h 0) 16 3)
def Felt.cmp (h : Felt) : Nat := bits (Felt.w h 0) 19 4
def Felt.scl (h : Felt) : Bool := (Felt.w h 0).getLsbD 23
def Felt.res (h : Felt) : Nat := bits (Felt.w h 0) 24 8
def Felt.plen (h : Felt) : Nat := bits (Felt.w h 0) 32 24
def Felt.fcell (h : Felt) : Nat := bits (Felt.w h 1) 0 13
def Felt.ncell (h : Felt) : Nat := let n := bits (Felt.w h 1) 13 13; if n = 0 then 8192 else n
def Felt.fgrp (h : Felt) : Nat := bits (Felt.w h 1) 26 10
def Felt.ngrp (h : Felt) : Nat := let n := bits (Felt.w h 1) 36 10; if n = 0 then 1024 else n
def Felt.wslot (h : Felt) : Fin 8 := Fin.ofNat 8 (bits (Felt.w h 1) 46 3)
def Felt.plane (h : Felt) : Bool := (Felt.w h 1).getLsbD 49
def Felt.aring (h : Felt) : RingId := Fin.ofNat 16 (bits (Felt.w h 1) 50 4)
def Felt.oring (h : Felt) : RingId := Fin.ofNat 16 (bits (Felt.w h 1) 54 4)
def Felt.succ (h : Felt) : Nat := bits (Felt.w h 2) 0 3
def Felt.ctr (h : Felt) : Bool := (Felt.w h 2).getLsbD 3
/-- 64 × OFFS, modulo 2^64 (R281). -/
def Felt.offs (h : Felt) : Word := (Felt.w h 2 >>> 4) <<< 6
def Felt.count (h : Felt) : Nat := bits (Felt.w h 3) 0 32
def Felt.dparam (h : Felt) : Nat := bits (Felt.w h 3) 32 16
def Felt.nscale (h : Felt) : Nat := bits (Felt.w h 3) 48 16
/-- QUEUE and BAR of a TOKEN felt (R273). -/
def Felt.queue (h : Felt) : Nat := bits (Felt.w h 4) 4 2
def Felt.bar (h : Felt) : Bool := (Felt.w h 4).getLsbD 6
def Felt.tok (h : Felt) : Tok := ⟨(Felt.w h 4).getLsbD 3, (Felt.w h 4).getLsbD 2, (Felt.w h 4).getLsbD 1, (Felt.w h 4).getLsbD 0⟩

/-- H1 fields that a block opcode does not name (R272): position and width. -/
def Felt.unusedH1 (h : Felt) : List (Nat × Nat) :=
  let ar := Felt.succ h == 6
  let f : List (Bool × Nat × Nat) :=
    [ (Felt.bop h == 2, 0, 13), (Felt.bop h == 2, 13, 13), (Felt.bop h == 2, 26, 10), (Felt.bop h == 2, 36, 10),
      (Felt.bop h == 2 || Felt.bop h == 4, 46, 3), (Felt.bop h == 1 || Felt.bop h == 3, 49, 1),
      (Felt.bop h == 4 || ar, 50, 4), (Felt.bop h == 5, 54, 4), (false, 58, 6) ]
  (f.filter fun x => !x.1).map fun x => x.2
/-- The breaches of R274 beyond its first two checks, each with the number of its header word. -/
def Felt.breaches (h : Felt) : List (Bool × Nat) :=
  let b := Felt.bop h
  let w := Felt.w h
  let succ := Felt.succ h
  [ (bits (w 0) 56 8 != 0 || decide (2 < Felt.cmp h) || (b != 2 && (Felt.fmt h != 0 || Felt.cmp h != 0 || Felt.scl h)), 0),
    ((b == 1 && Felt.plen h % 32 != 0) || ((b == 3 || b == 4 || b == 5 || b == 6) && Felt.plen h != 0), 0),
    ((Felt.unusedH1 h).any fun f => bits (w 1) f.1 f.2 != 0, 1),
    (succ == 7 || ((succ == 0 || succ == 4 || succ == 5) && bits (w 2) 4 60 != 0) || (Felt.ctr h && succ != 2) ||
      (succ == 2 && (b == 1 || b == 4 || b == 5)), 2),
    ((b != 1 && b != 4 && b != 5 && succ != 2 && Felt.count h != 0) || (b == 1 && decide (3 < Felt.count h)) ||
      (b != 5 && Felt.dparam h != 0) || (b != 2 && Felt.nscale h != 0) || (Felt.nscale h != 0 && !Felt.scl h) ||
      (b == 5 && (Felt.dparam h / 2 ^ 6 != 0 || (!(w 4).getLsbD 41 && Felt.dparam h / 4 % 16 != 0))), 3),
    (match b with
      | 1 => if Felt.count h = 0 then w 4 != 0 else (w 4).getLsbD 49
      | 4 => false
      | 5 => false
      | 6 => bits (w 4) 10 54 != 0 || (Felt.bar h && Felt.queue h != 0) || (!Felt.bar h && bits (w 4) 0 4 == 0)
      | _ => w 4 != 0, 4),
    (match b with
      | 1 => if Felt.count h < 2 then w 5 != 0 else (w 5).getLsbD 49
      | 4 => bits (w 5) 34 30 != 0
      | 5 => bits (w 5) 32 32 != 0
      | 6 => if Felt.bar h then bits (w 5) 0 5 != 0 else w 5 != 0
      | _ => w 5 != 0, 5),
    (if b = 1 then (if Felt.count h < 3 then w 6 != 0 else (w 6).getLsbD 49) else w 6 != 0, 6),
    (succ != 6 && w 7 != 0, 7) ]
/-- The check of a header at an address (R274). -/
def Felt.check (h : Felt) (f : Word) : Option (Cause × Word) :=
  if bits (Felt.w h 0) 0 8 ≠ 0xF7 ∨ Felt.bop h = 0 ∨ 7 < Felt.bop h then some (.wblock, f)
  else if Felt.fmt h = 7 then some (.format, f)
  else ((Felt.breaches h).find? (·.1)).map fun x => (.wblock, f + BitVec.ofNat 64 (8 * x.2))

/-- The entry of a configure record (R277), or the number of its failing word. -/
def configEntry (w0 a b w3 : Word) : Except Nat QOp :=
  let kind := bits w0 0 2
  if bits w0 10 54 ≠ 0 ∨ kind = 3 ∨ (kind ≠ 2 ∧ bits w0 3 7 ≠ 0) ∨ (kind ≠ 0 ∧ w0.getLsbD 2) then .error 0
  else if kind = 2 ∧ a ≠ 0 then .error 1
  else if (kind = 2 ∧ b ≠ 0) ∨ (kind = 0 ∧ !a.getLsbD 49 ∧ b ≠ 0) then .error 2
  else if w3 ≠ 0 then .error 3
  else match kind with
    | 0 => .ok (.carve a b (w0.getLsbD 2))
    | 1 => .ok (.mmap a b)
    | _ => .ok (.sbind (Fin.ofNat 16 (bits w0 6 4)) (Fin.ofNat 4 (bits w0 3 2)) (w0.getLsbD 5))

-- blocks (R275)

/-- Blocks of a group, and of a run of groups. -/
def Group.blocks (g : Group) : Nat := ceilDiv g.elems 64
def blockCount (gs : List Group) : Nat := gs.foldl (fun n g => n + g.blocks) 0
/-- Block n of a run of groups: its group, its number in the group, and its length. -/
def blockAt : List Group → Nat → Option (Group × Nat × Nat)
  | [], _ => none
  | g :: gs, n => if n < g.blocks then some (g, n, min 64 (g.elems - 64 * n)) else blockAt gs (n - g.blocks)
/-- A bitmap has a bit at or beyond the length of its block. -/
def bitmapOver (bm len : Nat) : Bool := decide (2 ^ len ≤ bm)
/-- The present elements of a bitmap. -/
def bitmapCount (bm : Nat) : Nat := (List.range 64).countP fun i => bm / 2 ^ i % 2 == 1
/-- Items of a block from its bitmap and those of its present elements; absent elements take a given item. -/
def spread {α : Type} (bm len : Nat) (absent : α) (vs : List α) : List α :=
  ((List.range len).foldl (fun (st : List α × List α) i =>
    if bm / 2 ^ i % 2 = 1 then (st.1 ++ [st.2.headD absent], st.2.drop 1) else (st.1 ++ [absent], st.2)) ([], vs)).1
/-- Elements of a block from its bitmap and present codes: absent ones take the zero code (R275). -/
def blockCodes (t : Fin 8) (bm len : Nat) (vs : List Nat) : List Nat := spread bm len (zeroCode t) vs
/-- A block written into the weight registers (R226): its elements, each with its mark, and its scale byte with its own
(R276). -/
def Plane.putBlock (p : Plane) (g : Group) (slot : Fin 8) (t : Fin 8) (b : Nat) (codes : List Nat) (marks : List Bool)
    (scale : Option (Byte × Bool)) : Plane :=
  let p := (List.range codes.length).foldl (fun p i =>
    p.putElem g slot.val (tagWidth t) (64 * b + i) (codes.getD i 0) (marks.getD i false)) p
  match scale with
  | some x => p.putScale g slot.val b x.1 x.2
  | none => p
/-- Every weight register and scale byte of a felt marked (R276). -/
def Plane.poisonSlot (p : Plane) (gs : List Group) (slot : Fin 8) : Plane :=
  gs.foldl (fun p g => (List.range g.len).foldl (fun p i =>
    let r := p.reg (g.cell0 + i) slot.val
    { p with regs := SMap.set .zero p.regs (8 * (g.cell0 + i) + slot.val) { r with poison := true } }) p) p

end Sys2Proof.Machine
end

