-- ==== Sys2Proof/Machine/PoolRun.lean ====
section
/-! DEFINITION. Operations of the pool, the result stage, extended groups, and drains (R231 to R245). -/

namespace Sys2Proof.Machine

-- firing (R233, R236)

/-- Why an operation does not fire. -/
inductive NoFire | wait | trap (c : Cause) (info : Word)
/-- What an operation reads: its tile, and marked data with its ring and slot. -/
structure Operand where
  tile : Tile
  bad : Option Word

/-- The slot that a stream reads from a ring: the one it holds, one still HELD for it from before a stop, or the
next one. -/
def Core.streamSlot (k : Core) (held : Option Nat) (again : List Nat) (q : RingId) : Option Taken :=
  match held, again with
  | some i, _ => (k.ring q).map fun r => ⟨i, r.slot i, false⟩
  | none, i :: _ => (k.ring q).map fun r => ⟨i, r.slot i, false⟩
  | none, [] => k.head q
/-- The trap of an operation whose ring lies in a buffer that the feed tree may not read, or is undefined (R236, R416). -/
def Core.feedRing (k : Core) (q : RingId) : Option NoFire :=
  if k.ringOk q [.wb, .ab] then none
  else some (.trap .ringState (slotInfo q (((k.ring q).map (·.cons)).getD 0)))
/-- The lane's scale slot (R233). -/
def Core.scaleSlot (k : Core) (x : Stream) (q : Option RingId) : Except NoFire (Option (RingId × Taken)) :=
  match q with
  | none => .ok none
  | some q => match k.feedRing q, k.streamSlot (x.sslot.map (·.2)) x.sagain q with
    | some w, _ => .error w
    | none, some t => .ok (some (q, t))
    | none, none => .error .wait
/-- The scale bytes of tile t in a slot (R229) with their mark, or why there are none: the first byte beyond the slot. -/
def Core.scaleBytes (k : Core) (q : RingId) (mark slot t blocks : Nat) : Except NoFire (List Nat × Bool) :=
  match k.ring q with
  | none => .error .wait
  | some r =>
    if r.size < (t + 1) * blocks then .error (.trap .bounds (BitVec.ofNat 64 (r.offset slot + max r.size (t * blocks))))
    else match k.slotData r mark slot (t * blocks) blocks with
      | none => .error .wait
      | some (bs, bad) => .ok (bs.map (·.toNat), bad)
/-- The first tile byte at or beyond the end of a slot (R236). DESIGN CHOICE (log 65): where TPS × TPITCH is larger than the slot
and every tile byte lies inside it, the end of the slot. -/
def tileBeyond (size tps pitch n t : Nat) : Option Nat :=
  if size < tps * pitch ∨ size < t * pitch + n then
    some (match (List.range tps).find? fun i => decide (size < i * pitch + n) with
      | some i => max size (i * pitch)
      | none => size)
  else none

/-- The checks of a fired operation that its groups bring (R58, R236): formats and destination rows. -/
def Core.groupFault (k : Core) (c : CoreId) (x : Stream) (lane : LaneId) (t : Fin 8) (scaled : Bool) (info : Word) :
    Option (Cause × Word) :=
  let p := k.store.livePlane
  (p.laneGroups lane).findSome? fun e =>
    let wt := e.2.fmts[x.slot]
    let int4 := fun (t : Fin 8) => t == 4 || t == 5
    let row := (p.mapOf e.1).2 + x.fired % x.nrow * x.rstride
    let limit := k.bufLimit x.level .cb
    if e.2.int && (!int4 t || scaled || !int4 wt || e.2.scales[x.slot]) then some (.format, info)
    else if (!e.2.ext || e.2.members.head? == some c) && decide (limit < 4 * row + 4) then
      some (.bounds, BitVec.ofNat 64 (max limit (4 * row)))
    else none

/-- The tile that an operation reads: format, TRAP_INFO of its slot, coordinate, bytes and mark. -/
structure TileRead where
  fmt : Fin 8
  info : Word
  coord : Option (BitVec 32)
  bytes : List Byte
  bad : Bool
/-- The tile of an operation of a `feed` in its slot (R231, R236). A lane without groups reads nothing of it (R232). -/
def Core.slotTile (k : Core) (x : Stream) (q : RingId) (extent t : Nat) (scaled : Bool) : Except NoFire TileRead :=
  match k.feedRing q, k.ring q, k.streamSlot x.oslot x.again q with
  | some w, _, _ => .error w
  | none, some r, some tk =>
    let info := slotInfo q tk.slot
    let n := ceilDiv (extent * tagWidth tk.tag.fmt) 8
    if tk.tag.tagerr then .error (.trap .ringState info)
    else if tk.tag.fmt = 7 ∨ (tk.tag.fmt = 3 ∧ scaled = false) then .error (.trap .format info)
    else match (if extent = 0 then none else tileBeyond r.size x.tps x.pitch n t) with
      | some o => .error (.trap .bounds (BitVec.ofNat 64 (r.offset tk.slot + o)))
      | none => match k.slotData r x.po tk.slot (t * x.pitch) n with
        | none => .error .wait
        | some (bs, bad) => .ok ⟨tk.tag.fmt, info, some tk.tag.coord, bs, bad⟩
  | none, _, _ => .error .wait
/-- The tile of an operation of a `feedx` in its buffer (R231, R236). -/
def Core.bufferTile (k : Core) (x : Stream) (extent : Nat) (scaled : Bool) : Except NoFire TileRead :=
  let n := ceilDiv (extent * tagWidth x.fmt) 8
  let a := x.base + x.fired * x.pitch
  if x.fmt = 3 ∧ scaled = false then .error (.trap .format 0xF)
  else if extent ≠ 0 ∧ k.bufLimit x.level x.space < a + n then
    .error (.trap .bounds (BitVec.ofNat 64 (max a (k.bufLimit x.level x.space))))
  else match k.readBuf x.space x.po a n with
    | none => .error .wait
    | some (bs, bad) => .ok ⟨x.fmt, 0xF, none, bs, bad⟩
/-- The scale bytes of an operation and the TRAP_INFO of their slot where they are marked (R229, R236). -/
def Core.tileScales (k : Core) (x : Stream) (sc : Option (RingId × Taken)) (coord : Option (BitVec 32)) (extent t : Nat) :
    Except NoFire (List Nat × Option Word) :=
  match sc with
  | none => .ok ([], none)
  | some (q, tk) =>
    let si := slotInfo q tk.slot
    if tk.tag.tagerr || (match coord with | some w => w != tk.tag.coord | none => false) then .error (.trap .ringState si)
    else match k.scaleBytes q x.po tk.slot t (ceilDiv extent 64) with
      | .error w => .error w
      | .ok (ys, bad) => .ok (ys, if bad then some si else none)
/-- The operand of the next operation of a stream, after every check of R236 but poison. -/
def Core.operand (k : Core) (c : CoreId) (lane : LaneId) (x : Stream) : Except NoFire Operand :=
  let p := k.store.livePlane
  let e := p.extent lane
  let t := if x.ring.isSome then x.fired % x.tps else 0
  let scaled := p.lanes[lane].isSome
  let main := match x.ring with
    | some q => k.slotTile x q e t scaled
    | none => k.bufferTile x e scaled
  match main, k.scaleSlot x p.lanes[lane] with
  | .error w, _ => .error w
  | .ok _, .error w => .error w
  | .ok m, .ok sc =>
    match k.tileScales x sc m.coord e t with
    | .error w => .error w
    | .ok (ys, sbad) =>
      match k.groupFault c x lane m.fmt scaled m.info with
      | some (cause, w) => .error (.trap cause w)
      | none =>
        let wbad := (p.laneGroups lane).any fun g => p.badWeights g.2 x.slot
        .ok ⟨⟨m.fmt, scaled, unpackCodes (tagWidth m.fmt) e m.bytes, ys⟩, if m.bad || wbad then some m.info else sbad⟩

/-- Passes and parts in the result stage (R238). -/
def Store.resultUse (t : Store) : Nat :=
  (List.finRange 4).foldl (fun n l => n + (t.ops[l]).foldl (fun n (o : PoolOp) => n + o.passes.length) 0) 0 +
  t.aging.countP fun a => match a.party with
    | .pass .. => true
    | _ => false
/-- The passes and parts of an operation (R232, R241); parts are numbered by group. -/
def Plane.passes (p : Plane) (lane : LaneId) (x : Stream) (t : Tile) (poison : Bool) (parts : SMap Nat) : List Pass :=
  (p.laneGroups lane).map fun e =>
    { group := e.1, entry := (p.mapOf e.1).2 + x.fired % x.nrow * x.rstride
      value := p.part e.2 x.slot (p.mapOf e.1).1 t, int := e.2.int, poison := poison
      members := e.2.members, part := SMap.get 0 parts e.1 }
/-- The counts of parts after an operation. -/
def Plane.countParts (p : Plane) (lane : LaneId) (parts : SMap Nat) : SMap Nat :=
  (p.laneGroups lane).foldl (fun m e => if e.2.ext then SMap.set 0 m e.1 (SMap.get 0 m e.1 + 1) else m) parts
/-- A slot that a stream reads is taken by its first operation, and held (R233). -/
def Core.holdSlots (k : Core) (lane : LaneId) (x : Stream) : Core × Stream :=
  let main := match x.ring, x.oslot, x.again with
    | some _, none, i :: _ => (k, some i)
    | some q, none, [] => match k.head q with
      | some t => (k.take q (.lane lane), some t.slot)
      | none => (k, none)
    | _, o, _ => (k, o)
  let sc := match k.store.livePlane.lanes[lane], x.sslot, x.sagain with
    | some q, none, i :: _ => (main.1, some (q, i))
    | some q, none, [] => match main.1.head q with
      | some t => (main.1.take q (.lane lane), some (q, t.slot))
      | none => (main.1, none)
    | _, o, _ => (main.1, o)
  (sc.1, { x with oslot := main.2, sslot := sc.2, again := if x.oslot.isNone then x.again.drop 1 else x.again
                  sagain := if x.sslot.isNone then x.sagain.drop 1 else x.sagain })
/-- The operation is the last to read its slots (R231, R239). -/
def Stream.lastOfSlot (x : Stream) : Bool :=
  x.ring.isNone || decide ((x.fired + 1) % x.tps = 0) || decide (x.fired + 1 = x.count)
/-- The stream of a lane that fires next: the oldest that has operations left. -/
def Stream.unfired (x : Stream) : Bool := decide (x.fired < x.count)
def LaneState.firing (l : LaneState) : Option Stream := l.streams.find? Stream.unfired
/-- A core with the firing stream of a lane replaced. -/
def Core.setStream (k : Core) (lane : LaneId) (x : Stream) : Core :=
  k.modLane lane fun l => { l with streams := l.streams.modify (l.streams.findIdx Stream.unfired) fun _ => x }
/-- A trap of a stream at an operation (R220, R315). -/
def Stream.fault (x : Stream) (lane : LaneId) (cause : Cause) (info : Word) (n : Nat) : Stream :=
  { x with trap := some { cause := cause, info := info, src := .o, word := x.word, level := some x.level
                          d0 := BitVec.ofNat 64 (lane.val * 2 ^ 32 + n % 2 ^ 32) } }
/-- Finished streams push their signals and leave, in order, or stop O at a full FIFO (R128, R219). -/
def Core.finishFrom (lane : LaneId) : List Stream → Core → Core
  | [], k => k
  | x :: xs, k =>
    if x.retired < x.count ∨ x.trap.isSome then k
    else match k.live.tokenOver x.tok.sp x.tok.sn 5 2 with
      | some j => k.modLane lane fun l => { l with streams := x.fault lane .tokenOver (BitVec.ofNat 64 j.val) x.retired :: xs }
      | none => finishFrom lane xs
          ((k.modLive fun l => (l.pushIf x.tok.sp 5 x.po).pushIf x.tok.sn 2 x.po).modLane lane fun l => { l with streams := xs })
def Core.finishStream (k : Core) (lane : LaneId) : Core := Core.finishFrom lane k.live.queues.lanes[lane].streams k
/-- The oldest stream of a lane has only its signals left. -/
def LaneState.finished (l : LaneState) : Bool :=
  match l.streams with
  | x :: _ => decide (x.count ≤ x.retired) && x.trap.isNone
  | [] => false
/-- An operation of the oldest stream that has one has retired: the counts of R239. -/
def Core.countRetired (k : Core) (lane : LaneId) : Core :=
  let n := k.live.prod.lanes[lane]
  let k := k.modLane lane fun l => { l with
    undrained := min (2 ^ 32 - 1) (l.undrained + 1)
    streams := l.streams.modify (l.streams.findIdx fun x => decide (x.retired < x.count)) fun x => { x with retired := x.retired + 1 } }
  let k := k.modLive fun l => { l with prod := { l.prod with lanes := l.prod.lanes.set lane (n + 1) } }
  (k.modFlow fun f => { f with dep := { f.dep with lanes := f.dep.lanes.set lane (max f.dep.lanes[lane] (n + 1)) } }).finishStream lane
/-- Slots released by a retirement (R239). -/
def Core.releaseAll (k : Core) (xs : List (Option (RingId × Nat))) (now : Nat) : Core :=
  xs.foldl (fun k x => match x with
    | some (q, i) => k.releaseAged q i now
    | none => k) k
/-- Free notices that such releases send (R27). -/
def Core.noticesOf (k : Core) (xs : List (Option (RingId × Nat))) : Nat :=
  xs.countP fun x => match x with
    | some (q, _) => (k.ring q).any fun r => r.fedBy.isSome || r.fedFar.isSome
    | none => false
/-- An operation whose retirement departed before a rollback is only counted (R247, R359); what it clamped stays clamped, and
ISAT tells so again (R68). -/
def Core.skipOperation (k : Core) (lane : LaneId) (x : Stream) (now : Nat) : Core :=
  let (k, x) := k.holdSlots lane x
  let last := x.lastOfSlot
  let k := k.setStream lane { x with fired := x.fired + 1, oslot := if last then none else x.oslot, sslot := if last then none else x.sslot }
  let k := k.modQueues fun q => { q with parts := k.store.livePlane.countParts lane q.parts }
  let k := if last then k.releaseAll [x.ring.bind fun q => x.oslot.map fun i => (q, i), x.sslot] now else k
  let sat := k.flow.sats.contains (lane, k.live.prod.lanes[lane])
  (k.setFront (k.live.front.modRegs fun r => r.orFlags (fIf sat fISAT))).countRetired lane
/-- The operation fires (R233, R234). -/
def State.fire (s : State) (c : CoreId) (lane : LaneId) (x : Stream) (o : Operand) : State :=
  s.modCore c fun k =>
    let p := k.store.livePlane
    let span := p.span lane x.slot o.tile
    let ps := p.passes lane x o.tile o.bad.isSome k.live.queues.parts
    let (k, x) := k.holdSlots lane x
    let last := x.lastOfSlot
    let op : PoolOp :=
      { num := k.live.prod.lanes[lane] + (k.store.ops[lane]).length, n := x.fired, fired := s.cycle, span := span, entered := none
        passes := ps, joined := [], oslot := if last then x.ring.bind fun q => x.oslot.map fun i => (q, i) else none
        sslot := if last then x.sslot else none }
    let k := k.setStream lane { x with fired := x.fired + 1, oslot := if last then none else x.oslot, sslot := if last then none else x.sslot }
    let k := k.modLane lane fun l => { l with lastFire := s.cycle, lastSpan := span }
    let k := k.modQueues fun q => { q with parts := p.countParts lane q.parts }
    let k := k.modStore fun t => { t with ops := t.ops.set lane (t.ops[lane] ++ [op]) }
    { k with regs := { k.regs with feedUsed := k.regs.feedUsed + 1 } }
/-- A fault at firing stops the stream (R236). -/
def State.stopStream (s : State) (c : CoreId) (lane : LaneId) (x : Stream) (cause : Cause) (info : Word) : State :=
  s.modCore c fun k => k.setStream lane (x.fault lane cause info x.fired)
/-- The conditions of R233 that need no operand. DESIGN CHOICE (log 65): while O stands stopped at a stream's fault, the streams
that are armed on other lanes go on firing. -/
def Core.laneReady (k : Core) (lane : LaneId) (x : Stream) (now : Nat) : Bool :=
  let q := k.live.queues
  k.enginesRun && x.trap.isNone && x.gen == q.genL && q.swapAt != some now &&
  decide (q.lanes[lane].lastFire + q.lanes[lane].lastSpan ≤ now)
/-- An armed operation fires once its conditions hold (R233, R237). DESIGN CHOICE (log 65): FORMAT, RING_STATE and BOUNDS of its
operand are raised also while the result stage or the feed budget would keep it from firing. -/
def execPoolOperationFire (c : CoreId) (lane : LaneId) (s : State) : Outcome :=
  let k := s.core c
  match k.live.queues.lanes[lane].firing with
  | none => .next s
  | some x =>
    if !k.laneReady lane x s.cycle then .next s
    else if k.live.prod.lanes[lane] + (k.store.ops[lane]).length < k.flow.dep.lanes[lane] then
      .next (s.modCore c fun k => k.skipOperation lane x s.cycle)
    else
      match k.operand c lane x with
      | .error .wait => .next s
      | .error (.trap cause info) => .next (s.stopStream c lane x cause info)
      | .ok o =>
        let groups := (k.store.livePlane.laneGroups lane).length
        if 49152 < k.store.resultUse + groups ∨ k.regs.feedNow ≤ k.regs.feedUsed then .next s
        else match o.bad, k.regs.poisonCont with
          | some info, false => .next (s.stopStream c lane x .poison info)
          | _, _ =>
            match s.grant (s.pmapOf c) c.die 3 1 with
            | none => .next s
            | some s =>
              let s := match o.bad with
                | some info => s.poisonSeen c info
                | none => s
              .next (s.fire c lane x o)

-- the result stage (R234, R238 to R242)

/-- A write that ages in the result stage (R238). -/
def Age.isPass (a : Age) : Bool :=
  match a.party with
  | .pass .. => true
  | _ => false
/-- Ageing writes in the order in which they entered. -/
def insertAge (a : Age) : List Age → List Age
  | [] => [a]
  | b :: bs => if a.entered < b.entered then a :: b :: bs else b :: insertAge a bs
/-- An Accumulator Buffer entry as it stands once every write of it that has entered by a cycle is performed (R238), and
whether it is marked. -/
def Store.settledEntry (t : Store) (e now : Nat) : Lane × Bool :=
  let near := t.aging.filter fun a => a.buf == .cb && decide (a.entered ≤ now) &&
    a.bytes.any fun x => decide (4 * e ≤ x.1) && decide (x.1 < 4 * e + 4)
  let t := (near.foldl (fun l a => insertAge a l) []).foldl (fun t a =>
    if a.comb = .none then a.bytes.foldl (fun t x => t.perform .cb x.1 [x.2] a.poison) t
    else
      let old := BitVec.ofNat 32 (t.cb.read (4 * e) 4)
      let new := (a.bytes.filter fun x => decide (4 * e ≤ x.1) && decide (x.1 < 4 * e + 4)).map (·.2)
      t.perform .cb (4 * e) (toBytes 4 (combineWord a.comb old (BitVec.ofNat 32 (ofBytes (new.take 4)))).toNat)
        (a.poison || t.badAt .cb (4 * e) 4)) t
  (BitVec.ofNat 32 (t.cb.read (4 * e) 4), t.badAt .cb (4 * e) 4)
/-- A pass enters the result stage in a cycle with the value its entry will hold (R238): writes of other parties in that
cycle count as earlier. -/
def Store.enterPass (t : Store) (lane : LaneId) (num entry : Nat) (int : Bool) (v : BitVec 48) (poison : Bool) (now : Nat) : Store :=
  let old := t.settledEntry entry now
  let new := accumulate int old.1 v
  let bs := toBytes 4 new.1.toNat
  { t with aging := t.aging ++ [{ buf := .cb, party := .pass lane num, bytes := (List.range 4).map fun i => (4 * entry + i, bs.getD i 0)
                                  comb := .none, entered := now, poison := poison || old.2, isat := new.2 }] }
/-- A part leaves for its home through the hold-back buffer (R241); one that departed before a rollback does
not. -/
def Core.sendPart (k : Core) (c : CoreId) (lane : LaneId) (num : Nat) (p : Pass) (now : Nat) : Core :=
  if p.part < SMap.get 0 k.flow.depParts p.group then k
  else k.modFlow fun f => { f with hold := f.hold ++ [⟨.part (p.members.headD c) ⟨p.group, p.part, c, p.value, p.int, p.poison⟩,
                                                       .lane lane, num, 0, now, 64, p.poison, false⟩] }
/-- An operation's passes enter: its own ones, and its parts for other homes; those of groups whose home this
is wait for the other parts. -/
def Core.enterOp (k : Core) (c : CoreId) (lane : LaneId) (o : PoolOp) (now : Nat) : Core :=
  o.passes.foldl (fun k p =>
    if p.members.isEmpty then k.modStore fun t => t.enterPass lane o.num p.entry p.int p.value p.poison now
    else if p.members.head? = some c then k
    else k.sendPart c lane o.num p now) k
/-- A core with one operation of a lane replaced. -/
def Core.setOp (k : Core) (lane : LaneId) (o : PoolOp) : Core :=
  k.modStore fun t => { t with ops := t.ops.set lane ((t.ops[lane]).map fun (y : PoolOp) => if y.num == o.num then o else y) }
/-- The parts of a pass of an extended group, in ascending core identifier; none while one is missing (R63). -/
def Store.allParts (t : Store) (c : CoreId) (p : Pass) : Option (List HeldPart) :=
  p.members.mapM fun d =>
    if d = c then some ⟨p.group, p.part, c, p.value, p.int, p.poison⟩
    else t.held.find? fun (h : HeldPart) => h.group == p.group && h.part == p.part && h.src == d
/-- The stream of a lane that an operation belongs to, by the operations before it that have not retired: its place. -/
def streamOf : List Stream → Nat → Nat
  | [], _ => 0
  | x :: xs, n => if n < x.count - x.retired then 0 else streamOf xs (n - (x.count - x.retired)) + 1
/-- A home combines the parts of one pass (R63, R241). -/
def State.combine (s : State) (c : CoreId) (lane : LaneId) (o : PoolOp) (p : Pass) (hs : List HeldPart) : State :=
  match hs.find? fun (h : HeldPart) => h.int != p.int with
  | some _ =>
    s.modCore c fun k => k.modLane lane fun l => { l with
      streams := l.streams.modify (streamOf l.streams (o.num - k.live.prod.lanes[lane])) fun x =>
        x.fault lane .format (BitVec.ofNat 64 p.group) o.n }
  | none =>
    let v := match hs with
      | h :: hs => hs.foldl (fun (v : BitVec 48) (h : HeldPart) => joinParts p.int v h.value) h.value
      | [] => p.value
    s.modCore c fun k =>
      (k.modStore fun t => t.enterPass lane o.num p.entry p.int v (hs.any fun (h : HeldPart) => h.poison) (s.cycle - 1)).setOp lane
        { o with entered := some (s.cycle - 1), passes := o.passes.filter (fun (y : Pass) => y.group != p.group)
                 joined := o.joined ++ [(p.group, p.part)] }
/-- A pass that its home can combine: its parts are there, and no earlier operation still owes the group a pass (R64), be it
one whose stream stands stopped at it. -/
def joinable (t : Store) (c : CoreId) (stuck : PoolOp → Bool) : List PoolOp → List Nat → Option (PoolOp × Pass × List HeldPart)
  | [], _ => none
  | o :: os, owed =>
    if o.entered.isNone then none
    else
      let here := if stuck o then [] else o.passes.filter fun p => !owed.contains p.group
      match here.findSome? fun p => (t.allParts c p).map fun hs => (o, p, hs) with
      | some x => some x
      | none => joinable t c stuck os (owed ++ o.passes.map (·.group))
/-- The stream of an operation. -/
def Core.streamFor (k : Core) (lane : LaneId) (o : PoolOp) : Option Stream :=
  let xs := k.live.queues.lanes[lane].streams
  xs[streamOf xs (o.num - k.live.prod.lanes[lane])]?
/-- The stream of an operation has stopped at it, for parts of another accumulation (R63, R236). -/
def Core.stuckOp (k : Core) (lane : LaneId) (o : PoolOp) : Bool :=
  (k.streamFor lane o).any fun x => x.trap.any fun t => t.cause == .format && t.d0 == BitVec.ofNat 64 (lane.val * 2 ^ 32 + o.n % 2 ^ 32)
/-- A store of the front end that precedes an operation's instruction and names an entry of its passes has not entered a
write-age stage yet: the entry is not read before (R108). -/
def Core.entryBehind (k : Core) (lane : LaneId) (o : PoolOp) : Bool :=
  (k.streamFor lane o).any fun x => k.flow.storeQ.any fun w => decide (w.po < x.po) && match w.act with
    | .buf .cb us _ => us.any fun u => o.passes.any fun p => decide (u.addr < 4 * p.entry + 4) && decide (4 * p.entry < u.addr + u.bytes.length)
    | _ => false
/-- The next operation's passes enter the result stage; or a home combines a pass whose parts have all arrived
(R234, R238, R241). The event stands at the end of the cycle in which they enter, after every other write of that cycle
(R238). -/
def execPassEnterResultStage (c : CoreId) (lane : LaneId) (s : State) : Outcome :=
  let k := s.core c
  let ops := k.store.ops[lane]
  match (if k.enginesRun then joinable k.store c (k.stuckOp lane) ops [] else none) with
  | some (o, p, hs) => .next (s.combine c lane o p hs)
  | none =>
    match ops.find? fun (o : PoolOp) => o.entered.isNone with
    | none => .next s
    | some o =>
      let away := o.passes.countP fun p => !p.members.isEmpty && p.members.head? != some c
      if !k.enginesRun || decide (s.cycle ≤ o.fired + 25 + o.span) || !k.holdRoom (64 * away) || k.entryBehind lane o then .next s
      else .next (s.modCore c fun k =>
        (k.enterOp c lane o (s.cycle - 1)).setOp lane
          { o with entered := some (s.cycle - 1), passes := o.passes.filter fun (p : Pass) => p.members.head? == some c })
/-- A pass is performed in its entry (R239): a mark stays with the entry (R366). Its sum holds every earlier write of the
entry (R238), so what of those has not been performed leaves the entry as it now stands. -/
def Store.commitPass (t : Store) (a : Age) : Store :=
  match a.bytes with
  | [] => { t with aging := t.aging.erase a }
  | x :: _ =>
    let e := x.1 / 4
    let ahead := t.aging.takeWhile (· != a)
    let earlier := fun (b : Age) => b.buf == .cb &&
      (decide (b.entered < a.entered) || (b.entered == a.entered && (!b.isPass || ahead.contains b)))
    let t := t.perform .cb (4 * e) (a.bytes.map (·.2)) false
    let t := if a.poison then { t with cbMarks := e :: t.cbMarks.filter (· != e) } else t
    { t with aging := (t.aging.erase a).map fun b =>
        if earlier b then { b with bytes := b.bytes.filter fun y => y.1 / 4 != e } else b }
/-- Passes of an operation are performed in their entries (R239). -/
def Store.commitPasses (t : Store) (lane : LaneId) (num : Nat) : Store :=
  (t.aging.filter fun a => a.party == .pass lane num).foldl Store.commitPass t
/-- The lane's oldest operation retires (R239, R242); or its oldest stream, finished but for a full FIFO, tries its
signals again. -/
def execOperationRetire (c : CoreId) (lane : LaneId) (s : State) : Outcome :=
  let k := s.core c
  if k.live.queues.lanes[lane].finished then .next (if k.enginesRun then s.modCore c fun k => k.finishStream lane else s)
  else match k.store.ops[lane] with
  | [] => .next s
  | o :: os =>
    match o.entered with
    | none => .next s
    | some t =>
      let parts := k.flow.hold.any fun (e : Hold) => e.stream == .lane lane && e.num == o.num
      let slots := [o.oslot, o.sslot]
      let clash := slots.any fun x => x.any fun y => k.clashes y.1 y.2 s.cycle
      if !k.enginesRun || !o.passes.isEmpty || parts || decide (s.cycle < t + Config.tQ) || !k.holdRoom (64 * k.noticesOf slots) || clash then
        .next s
      else
        let sat := k.store.aging.any fun (a : Age) => a.party == .pass lane o.num && a.isat
        .next (s.modCore c fun k =>
          let k := k.modStore fun t => { t.commitPasses lane o.num with
            ops := t.ops.set lane os
            held := t.held.filter fun (h : HeldPart) => !o.joined.contains (h.group, h.part) }
          let k := k.setFront (k.live.front.modRegs fun r => r.orFlags (fIf sat fISAT))
          let k := k.modFlow fun f => { f with sats := if sat then (lane, o.num) :: f.sats else f.sats, leftAt := some s.cycle }
          (k.releaseAll slots s.cycle).countRetired lane)
/-- A part reaches its home, and is held there (R241). -/
def execExtendedPartArrive (msg : Nat) (s : State) : Outcome :=
  match s.msg msg with
  | none => .next s
  | some m =>
    match m.hold.req with
    | .part home p =>
      if m.dropped.isSome || !s.portReady m || (s.guard m.part m.src (.core home)).isSome ||
        decide (s.cycle < m.departed + 24 * edges m.src.die home.die) then .next s
      else .next (((s.modCore home fun k => k.modStore fun t => { t with held := t.held ++ [p] }).dropMsg msg).touch m.part)
    | _ => .next s

-- drains (R243 to R245)

/-- A drain's fields, from its operand words. -/
structure DrainOp where
  q : RingId
  a : Word
  b : Word
  lane : LaneId
  bias : RingId
  deriving DecidableEq, Repr
def DrainOp.nent (d : DrainOp) : Nat := bits d.b 18 18 + 1
def DrainOp.first (d : DrainOp) : Nat := bits d.b 0 18
def DrainOp.ofmt (d : DrainOp) : Nat := bits d.b 36 4
def DrainOp.flag (d : DrainOp) (i : Nat) : Bool := d.b.getLsbD i
/-- Bytes of the output tile with its scale bytes. -/
def DrainOp.outLen (d : DrainOp) : Nat :=
  ceilDiv (d.nent * fieldWidth d.ofmt) 8 + (if d.flag 42 then ceilDiv d.nent 64 else 0)
/-- The checks of a drain when it begins (R243, R416). -/
def DrainOp.fault (d : DrainOp) (k : Core) (lv : Level) : Option (Cause × Word) :=
  match k.ring d.q with
  | none => some (.ringState, slotInfo d.q 0)
  | some r =>
    if d.flag 41 && (k.ring d.bias).isNone then some (.ringState, slotInfo d.bias 0)
    else if d.ofmt = 7 then some (.format, d.b)
    else if bits d.b 57 7 ≠ 0 ∨ 3 < bits d.b 52 3 ∨ 9 < d.ofmt ∨ (d.flag 42 ∧ 7 < d.ofmt) ∨
      k.bufLimit lv .cb < 4 * (d.first + d.nent) ∨ r.size < d.outLen then some (.bounds, d.b)
    else none
/-- The entry as a drain. -/
def QEntry.drain (e : QEntry) : Option DrainOp :=
  match e.op with
  | .drain q a b lane bias => some ⟨q, a, b, lane, bias⟩
  | _ => none
/-- What a drain writes: the bytes of its output slot, with flags and its register afterwards (R244). -/
def DrainOp.outputs (d : DrainOp) (rm : RMode) (rsr : BitVec 16) (entries bias : List Lane) : List Byte × Conv :=
  let int := d.flag 56
  let vs := (List.range d.nent).map fun i => drainValue int (d.flag 41) (d.flag 40) (entries.getD i 0) (bias.getD i 0)
  let k : Conv := { codes := [], scales := [], flags := vs.foldl (fun f x => f ||| x.2) 0, rsr := rsr }
  let k := (runs64 d.nent (vs.map (·.1))).foldl (fun k b =>
    k.block d.ofmt int (d.flag 42) rm (d.flag 55) (bits d.b 44 8) b) k
  (packCodes (fieldWidth d.ofmt) k.codes ++ k.scales.map (BitVec.ofNat 8 ·), k)
/-- Bytes aged beside a buffer, one entry for each bank word. -/
def Core.age (k : Core) (b : Buf) (p : AgeParty) (a : Nat) (bs : List Byte) (entered : Nat) (poison : Bool) : Core :=
  k.modStore fun t => { t with aging := t.aging ++
    (ageUnits b p .none entered [⟨a, BitVec.ofNat 64 a, bs, false⟩]).map fun (x : Age) => { x with poison := poison } }

/-- The drain's output slot begins to fill (R244). -/
def State.drainSlot (s : State) (c : CoreId) (d : DrainOp) : State :=
  let k := s.core c
  match k.beginFill d.q .drain s.cycle with
  | .busy _ => s
  | .ok i k => s.setCore c (k.modHead .d fun e => { e with step := 2, oslot := some i })
  | .kept k => s.setCore c (k.modHead .d fun e => { e with step := 2 })
/-- Its bias slot is taken (R244). -/
def State.drainBias (s : State) (c : CoreId) (d : DrainOp) : State :=
  if !d.flag 41 then s.modCore c fun k => k.modHead .d fun e => { e with step := 3 }
  else match (s.core c).head d.bias with
    | none => s
    | some x =>
      if x.tag.tagerr then s.stopHead c .d .ringState (slotInfo d.bias x.slot) 0 d.lane
      else s.modCore c fun k => (k.take d.bias .drain).modHead .d fun e => { e with step := 3, bslot := some x.slot }
/-- The first marked item a drain would read: its bias slot, or an entry by its buffer offset (R366, R367). -/
def DrainOp.marked (d : DrainOp) (k : Core) (e : QEntry) : Option Word :=
  match e.bslot, k.ring d.bias with
  | some i, some r => if k.slotBad r i 0 (4 * d.nent) then some (slotInfo d.bias i)
    else ((List.range d.nent).find? fun j => k.store.badAt .cb (4 * (d.first + j)) 4).map fun j => BitVec.ofNat 64 (4 * (d.first + j))
  | _, _ => ((List.range d.nent).find? fun j => k.store.badAt .cb (4 * (d.first + j)) 4).map fun j => BitVec.ofNat 64 (4 * (d.first + j))
/-- The entries that a drain reads and its bias values, as R108 lets it observe them; none while it must wait for a store of
the front end that cannot be forwarded. DESIGN CHOICE (log 59): a bias slot smaller than the entries need gives the bytes
that follow it in the buffer; R244 has no check and no value for it. -/
def DrainOp.inputs (d : DrainOp) (k : Core) (e : QEntry) : Option (List Lane × List Lane) :=
  let lanes := fun (bs : List Byte) => (List.range d.nent).map fun i => BitVec.ofNat 32 (ofBytes ((bs.drop (4 * i)).take 4))
  match k.readBuf .cb e.po (4 * d.first) (4 * d.nent), e.bslot, k.ring d.bias with
  | none, _, _ => none
  | some x, some i, some r => (k.slotData r e.po i 0 (4 * d.nent)).map fun y => (lanes x.1, lanes y.1)
  | some x, _, _ => some (lanes x.1, [])
/-- The entries are read, converted and sent to the write-age stage, and cleared where CLR is set (R244). DESIGN CHOICE
(log 54): RM = 3 takes `ctl.round` as it stands at this read; the specification does not say when. A drain whose writes departed before a rollback takes what it had converted (R359). -/
def State.drainRead (s : State) (c : CoreId) (d : DrainOp) (e : QEntry) : State :=
  let k := s.core c
  let n := k.live.prod.drain
  match (if n < k.flow.dep.drain then k.flow.drained.find? fun (x : DrainLog) => x.num == n else none) with
  | some x => s.modCore c fun k => (k.modQueues fun q => { q with rsr := x.rsr }).modHead .d fun e =>
      { e with step := 4, doneAt := some s.cycle, flags := x.flags, pos := x.res, poison := x.poison }
  | none =>
    match d.inputs k e, d.marked k e, k.regs.poisonCont with
    | none, _, _ => s
    | some _, some w, false => s.stopHead c .d .poison w 0 d.lane
    | some (entries, bias), m, _ =>
      let s := match m with
        | some w => s.poisonSeen c w
        | none => s
      s.modCore c fun k =>
        let rm := roundMode (match bits d.b 52 3 with | 0 => .rne | 1 => .rtz | 2 => .rsr | _ => .dyn) k.live.front.regs.round
        let o := d.outputs rm k.live.queues.rsr entries bias
        let flags := o.2.flags &&& (fISAT ||| fFSAT ||| fNANLOST)
        let log : DrainLog := { num := n, flags := flags, res := residue o.1, poison := m.isSome, rsr := o.2.rsr }
        let at_ := s.cycle + ceilDiv d.nent 256 + 2
        let k := if d.flag 43 then k.age .cb .drain (4 * d.first) (List.replicate (4 * d.nent) 0) s.cycle false else k
        let k := match e.oslot, k.ring d.q with
          | some i, some r => k.age r.def_.buf .drain (r.offset i) o.1 at_ m.isSome
          | _, _ => k
        ((k.modQueues fun q => { q with rsr := o.2.rsr }).modFlow fun f => { f with drained := f.drained ++ [log] }).modHead .d fun e =>
          { e with step := 4, doneAt := some (at_ + Config.tQ), flags := flags, pos := log.res, poison := log.poison }
/-- A drain goes as far as it can (R244): its checks, its count, its output slot, its bias slot, its read. -/
def State.drainStep (s : State) (c : CoreId) (d : DrainOp) (e : QEntry) : State :=
  let k := s.core c
  let n := bits d.a 0 32
  match e.step with
  | 0 =>
    match d.fault k e.level with
    | some (cause, w) => s.stopHead c .d cause w 0 d.lane
    | none =>
      if k.live.queues.lanes[d.lane].undrained < n then s
      else s.modCore c fun k => (k.modLane d.lane fun l => { l with undrained := l.undrained - n }).modHead .d fun e => { e with step := 1 }
  | 1 => s.drainSlot c d
  | 2 => s.drainBias c d
  | 3 => s.drainRead c d e
  | _ => s
/-- `drain` at the head of D: each occurrence does its next step (R244). -/
def execDrainBegin (c : CoreId) (s : State) : Outcome :=
  s.withHead c .d fun e s => match e.drain with
    | some d => s.drainStep c d e
    | none => s
/-- tQ after its outputs aged, and once they and its zeros are performed, the slot becomes FULL and the drain
finishes with its flags (R68, R244). -/
def execDrainSlotFull (c : CoreId) (s : State) : Outcome :=
  s.withHead c .d fun e s =>
    match e.drain, e.doneAt with
    | some d, some t =>
      let aging := (s.core c).store.aging.any fun (a : Age) => a.party == .drain
      if e.step = 5 then s.finishHead c .d e
      else if e.step < 4 || decide (s.cycle < t) || aging || (e.bslot.any fun i => !(s.core c).noticeRoom d.bias || (s.core c).clashes d.bias i s.cycle) then s
      else
        (s.modCore c fun k =>
          let k := match e.oslot with
            | some i => k.endFill d.q i .drain (BitVec.ofNat 32 (bits d.a 32 32)) (if d.ofmt ≤ 6 then Fin.ofNat 8 d.ofmt else 0) e.pos e.poison
            | none => k
          let k := match e.bslot with
            | some i => k.releaseAged d.bias i s.cycle
            | none => k
          let k := k.setFront (k.live.front.modRegs fun r => r.orFlags e.flags)
          (k.modLive fun l => { l with prod := { l.prod with drain := l.prod.drain + 1 } }).modHead .d fun e => { e with step := 5 }).finishHead
          c .d e
    | _, _ => s
/-- `aclr` at the head of D: zeros through the write-age stage (R243). -/
def execAclrBegin (c : CoreId) (s : State) : Outcome :=
  s.withHead c .d fun e s =>
    match e.op with
    | .aclr b =>
      let n := bits b 18 18 + 1
      match e.doneAt with
      | none =>
        let k := s.core c
        if bits b 36 28 ≠ 0 ∨ k.bufLimit e.level .cb < 4 * (bits b 0 18 + n) then s.stopHead c .d .bounds b
        else if k.live.prod.drain < k.flow.dep.drain then s.modCore c fun k => k.modHead .d fun e => { e with doneAt := some s.cycle }
        else s.modCore c fun k =>
          (k.age .cb .aclr (4 * bits b 0 18) (List.replicate (4 * n) 0) (s.cycle + ceilDiv n 256) false).modHead .d fun e =>
            { e with doneAt := some (s.cycle + ceilDiv n 256 + Config.tQ) }
      | some t =>
        let aging := (s.core c).store.aging.any fun (a : Age) => a.party == .aclr
        if e.step = 1 then s.finishHead c .d e
        else if s.cycle < t ∨ aging then s
        else (s.modCore c fun k => (k.modLive fun l => { l with prod := { l.prod with drain := l.prod.drain + 1 } }).modHead .d fun e =>
          { e with step := 1 }).finishHead c .d e
    | _ => s

end Sys2Proof.Machine
end

