-- ==== Sys2Proof/Machine/RingWords.lean ====
section
/-! DEFINITION. The ring instructions and their events (R259 to R263, R416). -/

namespace Sys2Proof.Machine

/-- The buffer field of a ring definition word (R31). -/
def ringBuf (n : Nat) : Option Buf := match n with
  | 1 => some .wb
  | 2 => some .ab
  | 3 => some .cb
  | _ => none
/-- A ring definition word (R31); none for a field out of its range (R32). -/
def ringDefOf (w : Word) (coord0 cstep : BitVec 32) (chk : Bool) : Option RingDef :=
  match ringBuf (bits w 4 2) with
  | none => none
  | some b =>
    if bits w 29 7 = 0 ∨ 64 < bits w 29 7 ∨ bits w 19 10 = 0 ∨ 512 < bits w 19 10 then none
    else some { buf := b, base := bits w 6 13, nslot := bits w 29 7, slotsz := bits w 19 10, coord0 := coord0, cstep := cstep, chk := chk }
/-- Bytes from the start of the reservation to the end of a ring (R32). -/
def RingDef.endByte (d : RingDef) : Nat := 512 * d.base + d.nslot * d.slotsz * 512

/-- An active copy entry, an open circuit, as its source or as a destination, or an armed stream names a ring (R259). -/
def Core.ringNamed (k : Core) (q : RingId) : Bool :=
  (k.live.copies.any fun e => e.active && Desc.names e.d q) ||
  (k.live.circuits.any fun x => (x.state == .opening || x.state == .open_ || x.state == .closing) && x.src == some q) ||
  (k.ring q).any (fun r => r.fedBy.isSome || r.fedFar.isSome) ||
  k.live.queues.lanes.any fun l => l.streams.any fun (x : Stream) => x.ring == some q
/-- A ring has a slot that is not EMPTY. -/
def Core.ringUsed (k : Core) (q : RingId) : Bool :=
  match k.ring q with
  | none => false
  | some r => r.slots.any fun x => x.state != .empty
/-- Re-execution has reached the definition of a number: no slot of it is taken or begun yet. -/
def Ring.reach (r : Ring) (n : Nat) : Ring := { r with viewNo := n, tookMade := 0, ownMade := 0, ghosts := [], frontHeld := [] }
/-- A change of a ring is made, and takes effect tQ after issue; one that has taken effect before a rollback is
only counted (R359). -/
def Core.changeRing (k : Core) (q : RingId) (d : Option RingDef) (now : Nat) : Core :=
  let n := k.live.prod.defs[q]
  let k1 := k.modLive fun l => { l with prod := { l.prod with defs := l.prod.defs.set q (n + 1) } }
  if n < k.flow.dep.defs[q] then k1.modRing q fun r => r.reach (n + 1) else k1.modFlow fun f => { f with changes := f.changes ++ [⟨q, d, now, n⟩] }
/-- The change stands already, from before a rollback. -/
def Core.changeDeparted (k : Core) (q : RingId) : Bool := decide (k.live.prod.defs[q] < k.flow.dep.defs[q])

/-- R259. -/
def execQdef (h : Hdr) (q : RingId) (a b : SReg) (s : State) : Outcome :=
  s.issue (.qdef h q a b) h { srcs := [(.s a, h.pda), (.s b, h.pdb)], engine := true } fun s =>
    let k := s.me
    let x := k.live.front.srcS a h.pda
    let y := k.live.front.srcS b h.pdb
    match ringDefOf x (y.setWidth 32) ((y >>> 32).setWidth 32) (x.getLsbD 36) with
    | none => .next (s.trapHere .bounds x)
    | some d =>
      if bits x 0 4 ≠ 0 ∨ bits x 37 27 ≠ 0 ∨ k.reserved d.buf < d.endByte then .next (s.trapHere .bounds x)
      else if !k.changeDeparted q && (k.ringUsed q || k.ringNamed q) then .next (s.trapHere .ringState (slotInfo q 0))
      else .next ((s.modCore s.cur fun k => k.changeRing q (some d) s.cycle).retire h none {})
/-- R260. -/
def execQreset (h : Hdr) (q : RingId) (s : State) : Outcome :=
  s.issue (.qreset h q) h { engine := true } fun s =>
    let k := s.me
    if !k.changeDeparted q && ((k.ring q).isNone || k.ringNamed q) then .next (s.trapHere .ringState (slotInfo q 0))
    else .next ((s.modCore s.cur fun k => k.changeRing q none s.cycle).retire h none {})
/-- The oldest change of a ring, when it is of a kind and tQ has passed. -/
def Core.dueChange (k : Core) (q : RingId) (def_ : Bool) (now : Nat) : Option RingChange :=
  match k.flow.changes.find? fun x => x.ring == q with
  | some x => if x.def_.isSome = def_ ∧ x.issued + Config.tQ ≤ now then some x else none
  | none => none
/-- A change takes effect: every tag at its reset value, both pointers 0 (R259, R260). -/
def Core.applyChange (k : Core) (x : RingChange) (d : RingDef) : Core :=
  let fed := (k.ring x.ring).bind (·.fedBy)
  let far := (k.ring x.ring).bind (·.fedFar)
  (k.modLive fun l => { l with rings := l.rings.set x.ring (some { Ring.fresh d with defNo := x.num + 1, viewNo := x.num + 1, fedBy := fed, fedFar := far }) }).modFlow fun f =>
    { f with
      changes := f.changes.filter fun y => !(y.ring == x.ring && y.num == x.num)
      dep := { f.dep with defs := f.dep.defs.set x.ring (x.num + 1) } }
/-- The ring takes its definition (R259). -/
def execQdefTakeEffect (c : CoreId) (q : RingId) (s : State) : Outcome :=
  match (s.core c).dueChange q true s.cycle with
  | some x => .next (match x.def_ with
    | some d => s.modCore c fun k => k.applyChange x d
    | none => s)
  | none => .next s
/-- Every slot becomes EMPTY (R260). -/
def execQresetTakeEffect (c : CoreId) (q : RingId) (s : State) : Outcome :=
  match (s.core c).dueChange q false s.cycle with
  | some x => .next (match (s.core c).ring q with
    | some r => s.modCore c fun k => k.applyChange x r.def_
    | none => s)
  | none => .next s

/-- R261. -/
def execQfill (h : Hdr) (q : RingId) (a : SReg) (s : State) : Outcome :=
  s.issue (.qfill h q a) h { srcs := [(.s a, h.pda)], engine := true } fun s =>
    let k := s.me
    let x := k.live.front.srcS a h.pda
    if bits x 35 29 ≠ 0 then .next (s.trapHere .bounds x)
    else if bits x 32 3 = 7 then
      let w := s.takeWord
      .next (w.2.trapHere .format w.1)
    else if (k.ring q).isNone then .next (s.trapHere .ringState (slotInfo q 0))
    else match k.beginFill q .front s.cycle with
      | .busy i => .next ((s.modCore s.cur fun k => k.doubleFill q s.cycle).trapHere .ringDoubleFill (s.fillInfo s.cur 0 q i))
      | .kept k => .next ((s.setCore s.cur k).retire h none {})
      | .ok i k =>
        let e : OwnFill := { slot := i, coord := x.setWidth 32, fmt := Fin.ofNat 8 (bits x 32 3), po := k.live.front.at_.po }
        .next ((s.setCore s.cur (k.modRing q fun r => { r with fills := r.fills ++ [e] })).retire h none {})
/-- Every store of the front end to a buffer before a program-order number has been performed. -/
def Core.storesDone (k : Core) (b : Buf) (po : Nat) : Bool :=
  k.flow.storeQ.all (fun o => decide (po ≤ o.po) || match o.act with
    | .buf d .. => d != b
    | _ => true) &&
  k.store.aging.all fun e => match e.party with
    | .front _ p => decide (po ≤ p) || e.buf != b
    | _ => true
/-- A slot that the front end fills becomes FULL (R261). -/
def execQfillSlotFull (c : CoreId) (q : RingId) (s : State) : Outcome :=
  let k := s.core c
  match k.ring q with
  | none => .next s
  | some r =>
    match r.fills with
    | [] => .next s
    | e :: es =>
      if s.cycle < (r.slot e.slot).since + Config.tQ ∨ !k.storesDone r.def_.buf e.po then .next s
      else .next (s.modCore c fun k =>
        (k.endFill q e.slot .front e.coord e.fmt (residue (k.slotBytes r e.slot 0 r.size)) (k.store.badAt r.def_.buf (r.offset e.slot) r.size)).modRing q
          fun r => { r with fills := es })

/-- A slot taken by the front end, and its tag delivered with STATE = 3 (R262). -/
def State.popSlot (s : State) (h : Hdr) (d : SReg) (q : RingId) (x : Taken) : State :=
  (s.modCore s.cur fun k => (k.take q .front).modRing q fun r => { r with frontHeld := r.frontHeld ++ [x.slot] }).deliver
    h d 12 { x.tag with state := .held }.tag
/-- R262. -/
def execQpop (h : Hdr) (d : SReg) (q : RingId) (s : State) : Outcome :=
  s.issue (.qpop h d q) h { dsts := [.s d], engine := true } fun s =>
    if (s.me.ring q).isNone then .next (s.trapHere .ringState (slotInfo q 0))
    else if !s.me.logRoom then .next s
    else match s.me.head q with
      | none => .next (s.setWait s.cur (.qpop q d (Hdr.theTag h)))
      | some x =>
        if x.tag.tagerr then .next (s.trapHere .ringState (slotInfo q x.slot)) else .next (s.popSlot h d q x)
/-- A waiting `qpop` finds its slot FULL (R262). -/
def execQpopTake (c : CoreId) (s : State) : Outcome :=
  match (s.front c).at_.wait with
  | .qpop q d t =>
    match (s.core c).head q with
    | none => .next s
    | some x =>
      if x.tag.tagerr then
        let f := s.front c
        .next (s.takeTrap c { cause := .ringState, info := slotInfo q x.slot, word := f.at_.pc } f.at_.pc)
      else .next (State.popSlot { s.setWait c .none with cur := c } { Hdr.zero with tag := some t } d q x)
  | _ => .next s
/-- R262: the oldest slot the front end holds is released. -/
def execQpopFree (h : Hdr) (d : SReg) (q : RingId) (s : State) : Outcome :=
  s.issue (.qpopFree h d q) h { dsts := [.s d], engine := true } fun s =>
    match s.me.ring q with
    | none => .next (s.trapHere .ringState (slotInfo q 0))
    | some r =>
      match r.frontHeld with
      | [] => .next (s.trapHere .ringState (slotInfo q 0))
      | i :: is =>
        if !s.me.logRoom then .next s
        else .next ((s.modCore s.cur fun k => (k.release q i s.cycle).modRing q fun r => { r with frontHeld := is }).deliver
          h d 12 (r.slot i).tag)
/-- The pointer word of a ring (R263). -/
def Ring.ptrWord (r : Ring) : Word :=
  BitVec.ofNat 64 (r.nextc.toNat * 2 ^ 32 + (if r.def_.chk then 2 ^ 14 else 0) + r.cons % 64 * 2 ^ 8 + r.prod % 64)
/-- R263. -/
def execQtag (h : Hdr) (d : SReg) (q : RingId) (slot : Fin 64) (ptr : Bool) (s : State) : Outcome :=
  s.issue (.qtag h d q slot ptr) h { dsts := [.s d], engine := true } fun s =>
    match s.me.ring q with
    | none => .next (s.trapHere .ringState (slotInfo q 0))
    | some r =>
      if !s.me.logRoom then .next s
      else if ptr then .next (s.deliver h d 6 r.ptrWord)
      else if r.def_.nslot ≤ slot.val then
        let w := s.takeWord
        .next (w.2.trapHere .bounds w.1)
      else .next (s.deliver h d 6 (r.slot slot.val).tag)

end Sys2Proof.Machine
end

