-- ==== Sys2Proof/Machine/WalkerRun.lean ====
section
/-! DEFINITION. The block walker: `wdrive`, `wstat`, and the steps of a walk (R270 to R288). -/

namespace Sys2Proof.Machine

/-- A core with its walker changed. -/
def Core.modWalker (k : Core) (f : Walker → Walker) : Core := k.modLive fun l => { l with walker := f l.walker }
def Core.modWctx (k : Core) (f : WalkerCtx → WalkerCtx) : Core := k.modLive fun l => { l with wctx := f l.wctx }

/-- STATE of the walker (R285). -/
def WState.code : WState → Nat
  | .idle => 0
  | .run => 1
  | .wait => 2
  | .susp => 3
/-- The walker's state words (R285). -/
def Walker.word (w : Walker) (sel : Nat) : Word :=
  BitVec.ofNat 64 (match sel with
    | 0 => w.nfelt % 2 ^ 24 * 2 ^ 40 + w.cause.toNat * 2 ^ 32 + w.bop.toNat * 2 ^ 24 + (if w.reserr then 2 ^ 19 else 0)
        + w.end_.val * 2 ^ 17 + w.state.code * 2 ^ 14 + w.stack.length % 8 * 2 ^ 11 + w.phase.val * 2 ^ 9
    | 1 => w.felt.toNat
    | 2 => w.boff % 2 ^ 24 * 2 ^ 24 + w.voff % 2 ^ 24
    | 3 => w.blk % 2 ^ 32 * 2 ^ 32 + w.run % 2 ^ 32
    | 4 => w.racc % 255 * 2 ^ 56 + (if w.scan then 2 ^ 32 else 0) + w.elem % 2 ^ 32
    | 5 => w.b1.toNat * 2 ^ 32 + w.b0.toNat
    | n => (w.stack.getD (n - 6) 0).toNat)

/-- The walker begins a felt (R283, R288). -/
def Walker.atFelt (w : Walker) (a : Word) : Walker :=
  { w with felt := a, phase := 0, bop := 0, boff := 0, voff := 0, blk := 0, run := 0, racc := 0, scan := false, elem := 0 }
def WalkerCtx.atFelt (x : WalkerCtx) (now : Nat) : WalkerCtx :=
  { x with hdr := [], asked := now, placed := 0, runBad := false, popped := false, wait := .none, trap := none }
/-- A walk starts (R283). -/
def Core.startWalk (k : Core) (a : Word) (now : Nat) : Core :=
  let f := k.live.front
  let x := { WalkerCtx.reset with level := f.level, vahi := f.at_.vahi, word := f.at_.pc, po := f.at_.po }
  (k.modWalker fun _ => { Walker.reset.atFelt a with state := .run }).modWctx fun _ => x.atFelt now
/-- A suspended walk goes on where it stood (R283, R288). -/
def Core.resumeWalk (k : Core) (now : Nat) : Core :=
  let f := k.live.front
  (k.modWalker fun w => { w with state := .run }).modWctx fun x =>
    { x with trap := none, wait := .none, asked := now, word := f.at_.pc, po := f.at_.po, level := f.level, vahi := f.at_.vahi }
/-- The front end stands at its `wdrive` until the walk ends. -/
def State.walkFor (s : State) (h : Hdr) (d : SReg) : Outcome := .next (s.setWait s.cur (.wdrive d (Hdr.theTag h)))
/-- R283: a plain `wdrive` resumes a suspended walk, and starts a new one where the walker is not SUSP. -/
def execWdrive (h : Hdr) (d a : SReg) (s : State) : Outcome :=
  s.issue (.wdrive h d a) h { srcs := [(.s a, h.pda)], dsts := [.s d], feature := 3, engine := true } fun s =>
    let x := s.me.live.front.srcS a h.pda
    if !s.me.logRoom then .next s
    else if s.me.live.walker.state = .susp then (s.modCore s.cur fun k => k.resumeWalk s.cycle).walkFor h d
    else if x.toNat % 64 ≠ 0 then .next (s.trapHere .alignFault x)
    else (s.modCore s.cur fun k => k.startWalk x s.cycle).walkFor h d
/-- R283: a new walk in any case. -/
def execWdriveNew (h : Hdr) (d a : SReg) (s : State) : Outcome :=
  s.issue (.wdriveNew h d a) h { srcs := [(.s a, h.pda)], dsts := [.s d], feature := 3, engine := true } fun s =>
    let x := s.me.live.front.srcS a h.pda
    if !s.me.logRoom then .next s
    else if x.toNat % 64 ≠ 0 then .next (s.trapHere .alignFault x)
    else (s.modCore s.cur fun k => k.startWalk x s.cycle).walkFor h d
/-- A suspended walk is given up (R283). -/
def Walker.abort (w : Walker) : Walker := if w.state = .susp then { w with state := .idle, end_ := 2 } else w
def execWdriveAbort (h : Hdr) (d : SReg) (s : State) : Outcome :=
  s.issue (.wdriveAbort h d) h { dsts := [.s d], feature := 3, engine := true } fun s =>
    if !s.me.logRoom then .next s
    else
      let s := s.modCore s.cur fun k => k.modWalker Walker.abort
      .next (s.deliver h d 40 (s.me.live.walker.word 0))
/-- R285. -/
def execWstat (h : Hdr) (d : SReg) (sel : Fin 16) (s : State) : Outcome :=
  s.issue (.wstat h d sel) h { dsts := [.s d], feature := 3, engine := true } fun s =>
    if !s.me.logRoom then .next s else .next (s.deliver h d 6 (s.me.live.walker.word sel.val))

-- steps

/-- A fault of the walker (R286, R288): it stands SUSP, and the front end takes the trap. -/
def State.walkFault (s : State) (c : CoreId) (cause : Cause) (info : Word) : State :=
  let w := (s.core c).live.walker
  let t : Trap := { cause := cause, info := info, src := .bw, word := (s.core c).live.wctx.word, level := some (s.core c).live.wctx.level
                    d0 := w.word 1, d1 := w.word 2, d2 := w.word 3, d3 := w.word 4 }
  (s.modCore c fun k => (k.modWalker fun w => { w with state := .susp, cause := BitVec.ofNat 8 cause.code }).modWctx fun x =>
    { x with trap := some t, wait := .none }).permFreeze c cause false t
/-- The walker waits (R286). -/
def State.walkWait (s : State) (c : CoreId) (w : WWait) : State :=
  s.modCore c fun k => (k.modWalker fun x => { x with state := .wait }).modWctx fun x => { x with wait := w }
/-- The walker goes on. -/
def Core.walkOn (k : Core) : Core := (k.modWalker fun x => { x with state := .run }).modWctx fun x => { x with wait := .none }
/-- The walker may act, in a phase. -/
def Core.walking (k : Core) (phase : Fin 4) : Bool :=
  let w := k.live.walker
  k.enginesRun && !k.regs.freeze.bw && (w.state == .run || w.state == .wait) && w.phase == phase && k.live.wctx.trap.isNone
/-- The current header, and the address of the payload. -/
def Core.felt (k : Core) : Felt := k.live.wctx.hdr
def Core.payload (k : Core) (off : Nat) : Word := k.live.walker.felt + 64 + BitVec.ofNat 64 off
/-- A read of the walker (R287). -/
def State.feltRead (s : State) (c : CoreId) (a : Word) (n : Nat) : EngRead :=
  let x := (s.core c).live.wctx
  s.engineReadAll c 2 x.level x.vahi .felt x.po .g (chunks64 n a n)

/-- The walker uses payload that carries an uncorrectable error: it never faults, and under POISON_CONT = 1 the first such
use of an iteration is recorded (R276, R367). -/
def State.payloadMark (s : State) (c : CoreId) (bad : Option Word) : State :=
  match bad, (s.core c).regs.poisonCont with
  | some a, true => s.poisonSeen c a
  | _, _ => s
/-- The pieces of a read of the walker in order, with a mark for each byte (R276). -/
def State.feltPieces (s : State) (c : CoreId) : List (Word × Nat) → EngRead × List Bool
  | [] => (.ok [] none s, [])
  | (a, n) :: ps =>
    match s.feltRead c a n with
    | .ok bs bad s1 =>
      match s1.feltPieces c ps with
      | (.ok rest bad2 s2, ms) => (.ok (bs ++ rest) (bad <|> bad2) s2, List.replicate bs.length bad.isSome ++ ms)
      | r => r
    | r => (r, [])

/-- A header is read, no sooner than 300 cycles after it was asked for, and checked (R274, R284, R287). DESIGN CHOICE (log
55): its eight words are read at one moment, and so are the bytes of a block, in ascending order of blocks; the specification
lets each 8-byte word be old or new in no promised order. -/
def execFeltHeaderRead (c : CoreId) (s : State) : Outcome :=
  let k := s.core c
  if !k.walking 0 || decide (s.cycle < k.live.wctx.asked + 300) then .next s
  else
    let f := k.live.walker.felt
    match s.feltRead c f 64 with
    | .wait s => .next s
    | .trap cause a s => .next (s.walkFault c cause a)
    | .ok _ (some a) s => .next (s.walkFault c .poison a)
    | .ok bs none s =>
      let h : Felt := (List.range 8).map fun i => BitVec.ofNat 64 (ofBytes ((bs.drop (8 * i)).take 8))
      match Felt.check h f with
      | some (cause, a) => .next (s.walkFault c cause a)
      | none => .next (s.modCore c fun k => (k.walkOn.modWalker fun w =>
          { w with bop := BitVec.ofNat 8 (Felt.bop h), phase := 1 }).modWctx fun x => { x with hdr := h, placed := 0, popped := false })

/-- The comparisons of R276 for a felt whose action is placed; the successor follows. -/
def State.feltPlaced (s : State) (c : CoreId) : State :=
  let k := s.core c
  let h := k.felt
  let s := s.modCore c fun k => k.walkOn.modWalker fun w => { w with phase := 2 }
  if Felt.bop h = 7 ∨ k.live.walker.racc % 255 = Felt.res h then s
  else (s.modCore c fun k => k.modWalker fun w => { w with reserr := true }).walkFault c .wblock k.live.walker.felt
/-- An entry placed by the walker (R278). -/
def Core.placeFelt (k : Core) (q : PoolQ) (op : QOp) (tok : Tok) : Core :=
  let x := k.live.wctx
  (k.walkOn.place q op tok x.word x.level x.vahi x.po).modWctx fun x => { x with placed := x.placed + 1, entry := x.po }
/-- The one entry of a felt that places one (R278, R279). -/
def Felt.entry (h : Felt) (f : Word) : Option (PoolQ × QOp × Tok) :=
  let none4 : Tok := ⟨false, false, false, false⟩
  let w := Felt.w h
  match Felt.bop h with
  | 2 =>
    let a := BitVec.ofNat 64 ((if Felt.scl h then 2 ^ 23 else 0) + (Felt.wslot h).val * 2 ^ 20 + (Felt.ngrp h - 1) * 2 ^ 10 + Felt.fgrp h)
    some (.k, .wfelt f a (Felt.fmt h) (Felt.fcell h) (Felt.ncell h), none4)
  | 3 => some (.k, .plane (Felt.plane h), none4)
  | 4 => some (.o, .feed (Felt.aring h) (BitVec.ofNat 64 (Felt.count h)) (w 4) (BitVec.ofNat 64 (bits (w 5) 0 24))
      (Fin.ofNat 4 (bits (w 5) 32 2)) (Felt.wslot h) (bits (w 5) 24 8 + 1), none4)
  | 5 => some (.d, .drain (Felt.oring h) (BitVec.ofNat 64 (bits (w 5) 0 32 * 2 ^ 32 + Felt.count h)) (w 4)
      (Fin.ofNat 4 (Felt.dparam h)) (Fin.ofNat 16 (Felt.dparam h / 4)), none4)
  | 6 => match Felt.queue h with
    | 1 => some (.k, .token, Felt.tok h)
    | 2 => some (.o, .token, Felt.tok h)
    | 3 => some (.d, .token, Felt.tok h)
    | _ => none
  | _ => none
/-- A CARVE felt places its next entry (R277, R278). -/
def State.carveFelt (s : State) (c : CoreId) : State :=
  let k := s.core c
  let h := k.felt
  let w := k.live.walker
  let n := k.live.wctx.placed
  let none4 : Tok := ⟨false, false, false, false⟩
  if n < Felt.count h then
    if !k.queueRoom .k then s.walkWait c (.queue .k)
    else s.modCore c fun k => k.placeFelt .k (.carve (Felt.w h (4 + n)) 0 (n == 0 && Felt.plane h)) none4
  else if Felt.plen h ≤ w.voff then s.feltPlaced c
  else
    let a := k.payload w.voff
    match s.feltRead c a 32 with
    | .wait s => s.walkWait c (.read s.cycle)
    | .trap cause x s => s.walkFault c cause x
    | .ok bs bad s =>
      let s := s.payloadMark c bad
      let r := fun (i : Nat) => BitVec.ofNat 64 (ofBytes ((bs.drop (8 * i)).take 8))
      match configEntry (r 0) (r 1) (r 2) (r 3) with
      | .error i => s.walkFault c .wblock (a + BitVec.ofNat 64 (8 * i))
      | .ok op =>
        if !k.queueRoom .k then s.walkWait c (.queue .k)
        else s.modCore c fun k => (k.placeFelt .k op none4).modWalker fun w => { w with voff := w.voff + 32, racc := (w.racc + residue bs) % 255 }
/-- A checked felt takes effect (R278): its entries are placed. -/
def execFeltActionPlace (c : CoreId) (s : State) : Outcome :=
  let k := s.core c
  let h := k.felt
  if !k.walking 1 then .next s
  else if Felt.bop h = 1 then .next (s.carveFelt c)
  else if Felt.bop h = 7 then .next (s.feltPlaced c)
  else match Felt.entry h k.live.walker.felt with
    | none => .next s
    | some (q, op, tok) =>
      if k.live.wctx.placed ≠ 0 then .next s
      else if !k.queueRoom q then .next (s.walkWait c (.queue q))
      else
        let s := s.modCore c fun k => k.placeFelt q op tok
        .next (if Felt.bop h = 2 then s else s.feltPlaced c)

-- LOADW (R275 to R278)

/-- The checks of a LOADW entry when it begins (R227, R278): a fault of the entry. -/
def Felt.loadFault (h : Felt) (f : Word) (gs : Option (List Group)) : Option (Cause × Option Word) :=
  match gs with
  | none => some (.bounds, some f)
  | some gs =>
    if badWeightFmt (Felt.fmt h) (Felt.scl h) gs then some (.format, none)
    else if (gs.head?.map (·.cell0)) ≠ some (Felt.fcell h) ∨ gs.foldl (fun n g => n + g.len) 0 ≠ Felt.ncell h then some (.bounds, some f)
    else none
/-- The entry begins with its checks (R227, R275). -/
def State.loadBegin (s : State) (c : CoreId) (h : Felt) (gs : Option (List Group)) : State :=
  let f := (s.core c).live.walker.felt
  match Felt.loadFault h f gs with
  | some (cause, some w) => s.stopHead c .k cause w
  | some (cause, none) => let w := s.takeWord; w.2.stopHead c .k cause w.1
  | none =>
    let gs := gs.getD []
    if Felt.scl h && Felt.nscale h != blockCount gs then s.walkFault c .wblock (f + 24)
    else s.modCore c fun k => k.modHead .k fun e => { e with step := 1 }
/-- Bytes of the scale section with its padding. -/
def Felt.scaleBytes (h : Felt) : Nat := (Felt.nscale h + 7) / 8 * 8
/-- The scale section is read and summed (R275); the bitmap section is scanned next under CMP = 2. -/
def State.loadScales (s : State) (c : CoreId) (h : Felt) (gs : List Group) : State :=
  let n := Felt.scaleBytes h
  match s.feltRead c ((s.core c).payload 0) n with
  | .wait s => s.walkWait c (.read s.cycle)
  | .trap cause a s => s.walkFault c cause a
  | .ok bs bad s => (s.payloadMark c bad).modCore c fun k => (k.walkOn.modWalker fun w =>
      { w with
        racc := residue (bs.take (Felt.nscale h)), boff := if Felt.cmp h = 0 then 0 else n
        voff := if Felt.cmp h = 2 then 0 else if Felt.cmp h = 1 then n + 8 * blockCount gs else n
        scan := Felt.cmp h == 2 }).modHead .k fun e => { e with step := if Felt.cmp h = 2 then 2 else 3, pos := 0 }
/-- A bitmap word and what follows it (R275): the fault it makes, or the all-zero blocks of a marker. -/
inductive Bitmap | fault (off : Nat) | block (bm : Nat) | zeros (n : Nat)
def readBitmap (cmp2 : Bool) (bs : List Byte) (len left : Nat) : Bitmap :=
  let bm := ofBytes (bs.take 8)
  if cmp2 && bm == 0 then
    let r := ofBytes (bs.drop 8)
    if r = 0 ∨ 2 ^ 32 ≤ r ∨ left < r then .fault 8 else .zeros r
  else if bitmapOver bm len then .fault 0 else .block bm
/-- A bitmap word with the word behind it, which only a run marker uses (R275). -/
def State.bitmapRead (s : State) (c : CoreId) (cmp2 : Bool) (off : Nat) : EngRead :=
  match s.feltRead c ((s.core c).payload off) 8 with
  | .ok bs bad s =>
    if cmp2 && ofBytes bs == 0 then
      match s.feltRead c ((s.core c).payload (off + 8)) 8 with
      | .ok r bad2 s => .ok (bs ++ r) (if bad.isSome then bad else bad2) s
      | x => x
    else .ok bs bad s
  | x => x
/-- The scan of the bitmap section, a word at a time (R275); the entry counts the blocks. -/
def State.loadScan (s : State) (c : CoreId) (h : Felt) (gs : List Group) (e : QEntry) : State :=
  let nb := blockCount gs
  let w := (s.core c).live.walker
  if nb ≤ e.pos then
    s.modCore c fun k => (k.modWalker fun w => { w with scan := false, voff := w.boff, boff := Felt.scaleBytes h }).modHead .k
      fun e => { e with step := 3, pos := 0 }
  else match s.bitmapRead c true w.boff with
    | .wait s => s.walkWait c (.read s.cycle)
    | .trap cause a s => s.walkFault c cause a
    | .ok bs bad s =>
      let s := s.payloadMark c bad
      let len := match blockAt gs e.pos with
        | some x => x.2.2
        | none => 0
      match readBitmap true bs len (nb - e.pos) with
      | .fault o => s.walkFault c .wblock ((s.core c).payload (w.boff + o))
      | .block _ => s.modCore c fun k => (k.walkOn.modWalker fun w => { w with boff := w.boff + 8 }).modHead .k fun e => { e with pos := e.pos + 1 }
      | .zeros n => s.modCore c fun k => (k.walkOn.modWalker fun w => { w with boff := w.boff + 16 }).modHead .k fun e => { e with pos := e.pos + n }
/-- The payload is consumed: its format is recorded (R227), its comparisons are made (R276), and the entry finishes as a
`wload` does (R219, R278). -/
def State.loadEnd (s : State) (c : CoreId) (h : Felt) (gs : List Group) (e : QEntry) : State :=
  let w := (s.core c).live.walker
  let used := if Felt.cmp h = 0 then w.voff else (w.voff + e.pos + 7) / 8 * 8
  let bad := decide (w.racc % 255 ≠ Felt.res h)
  let short := decide (used ≠ Felt.plen h)
  let s := s.modCore c fun k =>
    let k := k.modMaquette s.cycle fun p =>
      let p := p.setFormats (Felt.fgrp h) gs.length (Felt.wslot h) (Felt.fmt h) (Felt.scl h)
      if bad || short then p.poisonSlot gs (Felt.wslot h) else p
    let k := if bad || short then k.modWalker fun w => { w with reserr := true } else k
    (k.walkOn.modWalker fun w => { w with phase := 2 }).modHead .k fun e =>
      { e with
        step := 4
        doneAt := some (max s.cycle (e.began.getD 0 + 4 +
          ceilDiv (gs.foldl (fun n g => n + g.streamLen (Felt.fmt h) (Felt.scl h)) 0) 1024)) }
  if short then s.walkFault c .wblock w.felt else s
/-- What a block needs from memory: its bitmap, then its values with the parity of half bytes, then its scale. -/
structure BlockData where
  codes : List Nat
  /-- The mark of each element (R276). -/
  marks : List Bool
  /-- Value bytes passed, and whether half of the next one is used. -/
  voff : Nat
  half : Nat
/-- The present values of n elements from their bytes, each with the mark of its bytes (R275, R276). -/
def valueCodes (w half n : Nat) (bs : List Byte) (ms : List Bool) : List (Nat × Bool) :=
  let vs := if w = 4 then (unpackCodes w (half + n) bs).drop half else unpackCodes w n bs
  (List.range n).map fun i =>
    (vs.getD i 0, ((ms.drop ((4 * half + w * i) / 8)).take (ceilDiv w 8)).any id)
/-- The values of a block (R275). -/
def State.loadValues (s : State) (c : CoreId) (h : Felt) (voff half n : Nat)
    (mk : List (Nat × Bool) → List (Nat × Bool)) : EngRead × (List Byte → BlockData) :=
  let w := tagWidth (Felt.fmt h)
  let len := ceilDiv (4 * half + w * n) 8
  let passed := 4 * half + w * n
  let r := s.feltPieces c (chunks64 len ((s.core c).payload voff) len)
  (r.1, fun bs =>
    let xs := mk (valueCodes w half n bs r.2)
    { codes := xs.map (·.1), marks := xs.map (·.2), voff := voff + passed / 8
      half := if Felt.cmp h = 0 then 0 else passed % 8 / 4 })
/-- A block is written (R226, R275): its residue is added, and the walker moves past it. -/
def State.putBlock (s : State) (c : CoreId) (h : Felt) (g : Group) (b : Nat) (d : BlockData) (boff run : Nat) : State :=
  let scale := if Felt.scl h then some (s.feltRead c ((s.core c).payload (s.core c).live.walker.blk) 1) else none
  let go := fun (s : State) (x : Option (Byte × Bool)) => s.modCore c fun k =>
    let w := tagWidth (Felt.fmt h)
    let pad := if Felt.cmp h = 0 ∧ w = 4 ∧ d.codes.length % 2 = 1 then 1 else 0
    (((k.walkOn.modMaquette s.cycle fun p => p.putBlock g (Felt.wslot h) (Felt.fmt h) b d.codes d.marks x).modWalker fun y =>
      { y with
        blk := y.blk + 1, boff := boff, voff := d.voff + pad, run := run, elem := y.elem + d.codes.length
        racc := (y.racc + residue (packCodes w d.codes)) % 255 }).modHead .k fun e => { e with pos := d.half })
  match scale with
  | none => go s none
  | some (.wait s) => s.walkWait c (.read s.cycle)
  | some (.trap cause a s) => s.walkFault c cause a
  | some (.ok bs bad s) => go (s.payloadMark c bad) (bs.head?.map fun x => (x, bad.isSome))
/-- The next block of the payload (R275, R288). -/
def State.loadBlock (s : State) (c : CoreId) (h : Felt) (gs : List Group) (e : QEntry) : State :=
  let w := (s.core c).live.walker
  match blockAt gs w.blk with
  | none => s.loadEnd c h gs e
  | some (g, b, len) =>
    let zero := fun (bad : Bool) =>
      ({ codes := List.replicate len (zeroCode (Felt.fmt h)), marks := List.replicate len bad, voff := w.voff, half := e.pos } : BlockData)
    let values := fun (s : State) (n : Nat) (mk : List (Nat × Bool) → List (Nat × Bool)) (boff : Nat) =>
      let r := s.loadValues c h w.voff e.pos n mk
      match r.1 with
      | .wait s => s.walkWait c (.read s.cycle)
      | .trap cause a s => s.walkFault c cause a
      | .ok bs bad s => (s.payloadMark c bad).putBlock c h g b (r.2 bs) boff 0
    if Felt.cmp h = 0 then values s len id 0
    else if w.run ≠ 0 then s.putBlock c h g b (zero (s.core c).live.wctx.runBad) w.boff (w.run - 1)
    else match s.bitmapRead c (Felt.cmp h == 2) w.boff with
      | .wait s => s.walkWait c (.read s.cycle)
      | .trap cause a s => s.walkFault c cause a
      | .ok bs bad s =>
        let s := s.payloadMark c bad
        match readBitmap (Felt.cmp h == 2) bs len (blockCount gs - w.blk) with
        | .fault o => s.walkFault c .wblock ((s.core c).payload (w.boff + o))
        | .block bm => values s (bitmapCount bm) (fun vs =>
            (spread bm len (zeroCode (Felt.fmt h), false) vs).map fun x => (x.1, x.2 || bad.isSome)) (w.boff + 8)
        | .zeros n => State.putBlock (s.modCore c fun k => k.modWctx fun x => { x with runBad := bad.isSome }) c h g b (zero bad.isSome)
            (w.boff + 16) (n - 1)
/-- A LOADW entry takes its payload from the walk that placed it, a step at a time (R275, R278), and finishes. -/
def execLoadwBlock (c : CoreId) (s : State) : Outcome :=
  s.withHead c .k fun e s =>
    match e.op with
    | .wfelt f a _ _ _ =>
      let k := s.core c
      let h := k.felt
      if e.step = 4 then s.actOrFinish c .k e id
      else if !k.walking 1 || k.live.wctx.placed = 0 || Felt.bop h != 2 || f != k.live.walker.felt || e.po != k.live.wctx.entry then s
      else
        let gs := s.wloadGroups c a
        match e.step with
        | 0 => s.loadBegin c h gs
        | 1 => s.loadScales c h (gs.getD [])
        | 2 => s.loadScan c h (gs.getD []) e
        | _ => s.loadBlock c h (gs.getD []) e
    | _ => s

-- TOKEN at the walker, and successors (R279 to R281)

/-- The arrival of a TOKEN felt (R279). -/
def State.walkArrive (s : State) (c : CoreId) (h : Felt) : State :=
  let k := s.core c
  let x := k.live.wctx
  let a := Felt.w h 5
  let scope : Scope := match bits (Felt.w h 4) 7 2 with
    | 0 => .core
    | 1 => .die
    | 2 => .pkg
    | _ => .sys
  match (s.asParty c 2).memCheck c x.level x.vahi .g .rmw 32 false [(a, 32)] with
  | .miss y => s.askWalk c x.vahi y 2
  | .trap cause y => (s.modCore c fun k => k.dropLeaf x.vahi y).walkFault c cause y
  | .ok ps =>
    if !k.holdRoom 64 then s
    else
      let pa := (((ps.headD []).head?).map (·.addr)).getD 0
      (s.modCore c fun k => (k.pushStore c s.cycle (.req (.barArrive pa a)) (if (Felt.w h 4).getLsbD 9 then some scope else none) none 2).modWctx
        fun x => { x with placed := 2 }).feltPlaced c
/-- A TOKEN felt with QUEUE = 0: pops, then pushes, then its arrival (R279). -/
def execWalkerToken (c : CoreId) (s : State) : Outcome :=
  let k := s.core c
  let h := k.felt
  let t := Felt.tok h
  if Felt.bop h ≠ 6 ∨ Felt.queue h ≠ 0 then .next s
  else if k.walking 1 then
    if k.live.tokwReady t.wp t.wn then
      .next (s.modCore c fun k => ((k.walkOn.modLive fun l => l.tokwTake t.wp t.wn).modWalker fun w => { w with phase := 2 }).modWctx
        fun x => { x with popped := true, placed := 0 })
    else .next (s.walkWait c .token)
  else if k.walking 2 then
    match k.live.wctx.placed with
    | 0 =>
      match k.live.tokenOver t.sp t.sn 7 0 with
      | some j => .next (s.walkFault c .tokenOver (BitVec.ofNat 64 j.val))
      | none =>
        let s := s.modCore c fun k => (k.modLive fun l => (l.pushIf t.sp 7 l.wctx.po).pushIf t.sn 0 l.wctx.po).modWctx fun x => { x with placed := if Felt.bar h then 1 else 2 }
        .next (if Felt.bar h then s else s.feltPlaced c)
    | 1 => .next (s.walkArrive c h)
    | _ => .next s
  else .next s

/-- The next felt, or the end of the walk (R281). -/
inductive Successor | to (a : Word) (w : Walker) | exit | fault
def Walker.successor (w : Walker) (h : Felt) : Successor :=
  let seq := w.felt + 64 + BitVec.ofNat 64 (64 * ceilDiv (Felt.plen h) 64)
  let tgt := w.felt + Felt.offs h
  match Felt.succ h with
  | 0 => .to seq w
  | 1 => .to tgt w
  | 2 =>
    let b := if Felt.ctr h then w.b1 else w.b0
    let b := if b = 0 then BitVec.ofNat 32 (Felt.count h) else b
    let b := if b = 0 then b else b - 1
    .to (if b = 0 then seq else tgt) (if Felt.ctr h then { w with b1 := b } else { w with b0 := b })
  | 3 => if 4 ≤ w.stack.length then .fault else .to tgt { w with stack := w.stack ++ [seq] }
  | 4 => match w.stack.getLast? with
    | none => .fault
    | some a => .to a { w with stack := w.stack.dropLast }
  | _ => .exit
/-- The walker stands at its next felt. -/
def State.walkTo (s : State) (c : CoreId) (a : Word) (w : Walker) : State :=
  s.modCore c fun k => (k.modWalker fun _ => { { w with nfelt := (w.nfelt + 1) % 2 ^ 24, state := .run }.atFelt a with bop := 0 }).modWctx fun x => x.atFelt s.cycle
/-- The walk ends (R283): `wdrive` writes its status word and retires. -/
def State.walkEnd (s : State) (c : CoreId) : State :=
  let s := s.modCore c fun k => k.modWalker fun w => { w with nfelt := (w.nfelt + 1) % 2 ^ 24, state := .idle, end_ := 1 }
  let f := s.front c
  match f.at_.wait with
  | .wdrive d t => State.deliver { s.setWait c .none with cur := c } { Hdr.zero with tag := some t } d (f.at_.waitSince + 40 - s.cycle)
      ((s.core c).live.walker.word 0)
  | _ => s
/-- The front end stands at its `wdrive`. -/
def Core.driving (k : Core) : Bool :=
  match k.live.front.at_.wait with
  | .wdrive .. => true
  | _ => false
/-- A TOKEN felt of the walker has done all it does. -/
def Core.tokenDone (k : Core) : Bool := Felt.bop k.felt != 6 || Felt.queue k.felt != 0 || k.live.wctx.placed == 2
/-- The walker stands where it may stop (R48, R289): outside a walk, before it reads a felt's header, between the blocks of a
payload, with none of a felt's entries placed or all of them, or with its action done. -/
def Core.walkRests (k : Core) : Bool :=
  let w := k.live.walker
  let n := k.live.wctx.placed
  w.state == .idle || w.state == .susp || (match w.phase.val with
    | 0 => true
    | 1 => Felt.bop k.felt == 2 || n == 0 || (Felt.bop k.felt == 1 && decide (Felt.count k.felt ≤ n))
    | _ => k.tokenDone)
/-- The successor of a felt is taken (R280, R281), other than TAGBR's; an EXIT while the front end stands at its `wdrive`. -/
def execFeltSuccessor (c : CoreId) (s : State) : Outcome :=
  let k := s.core c
  if !k.walking 2 || !k.tokenDone || Felt.succ k.felt = 6 then .next s
  else match k.live.walker.successor k.felt with
    | .to a w => .next (s.walkTo c a w)
    | .exit => .next (if k.driving then s.walkEnd c else s)
    | .fault => .next (s.walkFault c .wblock (k.live.walker.felt + 16))

/-- Slots that a count of operations takes, tps to a slot. -/
def slotsFor (n tps : Nat) : Nat := ceilDiv n tps
/-- Slots of a ring that streams already placed have still to take (R281). -/
def Queues.slotsDue (q : Queues) (r : RingId) : Nat :=
  q.lanes.foldl (fun n l => l.streams.foldl (fun n (x : Stream) =>
    if x.ring == some r && x.unfired then
      n + (slotsFor x.count x.tps - (x.fired / x.tps + (if x.oslot.isSome then 1 else 0) + x.again.length))
    else n) n) 0 +
  q.o.foldl (fun n (e : QEntry) => match e.op with
    | .feed p a _ _ _ _ tps => if p = r then n + slotsFor (bits a 0 32) tps else n
    | _ => n) 0
/-- TAGBR looks at the slot its ring's next stream would read (R281). -/
def execTagbrResolve (c : CoreId) (s : State) : Outcome :=
  let k := s.core c
  let h := k.felt
  if !k.walking 2 || !k.tokenDone || Felt.succ h ≠ 6 then .next s
  else
    let q := Felt.aring h
    match k.ring q with
    | none => .next (s.walkFault c .ringState (slotInfo q 0))
    | some r =>
      let due := k.live.queues.slotsDue q
      match k.takeOf q (r.tookMade + due) with
      | none => .next (s.walkWait c (.slot q ((r.tookMade + due) % r.def_.nslot)))
      | some ⟨i, x, _⟩ =>
      if x.tagerr then .next (s.walkFault c .ringState (slotInfo q i))
      else
        let w := k.live.walker
        let seq := w.felt + 64 + BitVec.ofNat 64 (64 * ceilDiv (Felt.plen h) 64)
        let w7 := Felt.w h 7
        let hit := (x.coord &&& (w7 >>> 32).setWidth 32) == w7.setWidth 32
        .next (s.walkTo c (if hit then w.felt + Felt.offs h else seq) w)

end Sys2Proof.Machine
end

