-- ==== Sys2Proof/Machine/Sched.lean ====
section
/-! DEFINITION. The scheduler of a partition and the walker of iterations: grants, dispatch, release, completion,
and the quiescence detector (R33 to R40, R46, R47, R326 to R331, R370 to R373). -/

namespace Sys2Proof.Machine

-- heads (R328, R329)

/-- The scheduler reads the phase of a head's WAITBAR (R328). One at another chip reads as a free value. -/
def execWaitbarRead (p : PartId) (q : QueueNo) (s : State) : Outcome :=
  match (s.lqueue p q).entries with
  | [] => .next s
  | l :: _ =>
    match l.waitBar with
    | none => .next s
    | some a =>
      if !s.served p then .next s
      else
        let far := (remoteChip a).isSome
        let t := s.takeNat
        let phase := if far then t.1 % 2 == 1 else (s.readBar a).phase
        let s := if far then t.2 else s
        .next ((s.modQueue p q fun y => { y with seen := some phase }).noteHead p q)
/-- An eligible head that has waited 65,536 cycles is marked as starving (R329), as it has been since that cycle. -/
def execHeadStarving (p : PartId) (q : QueueNo) (s : State) : Outcome :=
  if (s.lqueue p q).starves s.cycle then .next (s.modQueue p q fun y => { y with starving := true }) else .next s

-- grants (R329, R330, R37, R370)

/-- A core that a grant may give (R330, R409). -/
def State.freeCore (s : State) (p : PartId) (c : CoreId) : Bool :=
  let k := s.core c
  s.partOf c == some p && !k.run.inHold && k.run.halted && k.run.job.isNone && k.run.stop == .none &&
  !(k.regs.freeze.fe || k.regs.freeze.ce || k.regs.freeze.bw)
/-- The free cores of a partition in the order of R330 for a context. -/
def State.freeFor (s : State) (p : PartId) (asid : Byte) : List CoreId :=
  let fs := (List.finRange 256).filter (s.freeCore p)
  (fs.filter fun c => (s.core c).run.lastAsid == some asid) ++ fs.filter fun c => (s.core c).run.lastAsid != some asid
/-- Iterations not yet dispatched. -/
def Launch.left (l : Launch) : Nat := l.lrec.iters - l.next
/-- Cores, or pairs, that a launch holds. -/
def Launch.held (l : Launch) : Nat := if l.lrec.paired then l.cores.length / 2 else l.cores.length
/-- The cores of side A that a paired launch can take (R370): all on one die, each with a free mirror. -/
def State.freePairs (s : State) (l : Launch) (n : Nat) : List CoreId :=
  let fs := (s.freeFor l.part l.asid).filter fun c => s.freeCore l.part (mirror c)
  let on := fun (d : DieId) => fs.filter fun c => c.die == d
  match l.cores with
  | c :: _ => on c.die
  | [] => match (List.finRange 4).find? fun d => decide (n ≤ (on d).length) with
    | some d => on d
    | none => []
/-- What a grant gives a candidate: some cores, or none where it cannot be satisfied. Only a RESIDENT context may own
cores (R323). A head needs CMIN cores;
under GANG it takes exactly CMIN, and otherwise all it can up to CMAX and its iterations. -/
def State.grantOf (s : State) (l : Launch) (head : Bool) : Option (List CoreId) :=
  let r := l.lrec
  if !s.resident l.asid l.part then none
  else
    let fs := if r.paired then s.freePairs l (if head then r.cmin else 1) else s.freeFor l.part l.asid
    let want := if r.gang then r.cmin else min (r.cmax - l.held) l.left
    if (head && decide (fs.length < r.cmin)) || fs.isEmpty || want == 0 then none else some (fs.take want)
/-- A running launch that may take further cores. -/
def Part.takesMore (x : Part) (l : Launch) : Bool :=
  !l.lrec.gang && decide (l.held < l.lrec.cmax) && decide (0 < l.left) && !x.switch.paused.contains l.asid
/-- Running launches of a priority, oldest dispatch first. -/
def Part.olderFirst (x : Part) (pr : Fin 4) : List Launch :=
  let ls := x.running.filter fun l => l.lrec.prio == pr && x.takesMore l
  ls.mergeSort fun a b => decide (a.order < b.order ∨ (a.order = b.order ∧ a.id ≤ b.id))
/-- The queues of a partition with eligible heads of a priority, from the one after the last that dispatched. -/
def Part.headsOf (x : Part) (pr : Fin 4) : List QueueNo :=
  let start := (x.lastQ[pr]).val + 1
  ((List.range 64).map fun i => (Fin.ofNat 64 (start + i) : QueueNo)).filter fun q =>
    x.eligible q && (match x.queues[q].entries with
      | l :: _ => l.lrec.prio == pr
      | [] => false)
/-- A candidate: a launch, and its queue where it is a head. -/
structure Candidate where
  launch : Launch
  head : Option QueueNo
  deriving DecidableEq, Repr
/-- The candidates of a partition in the order of R329. -/
def Part.candidates (x : Part) : List Candidate :=
  ([3, 2, 1, 0] : List (Fin 4)).flatMap fun pr =>
    ((x.olderFirst pr).map fun l => ⟨l, none⟩) ++
    (x.headsOf pr).filterMap fun q => match x.queues[q].entries with
      | l :: _ => some ⟨l, some q⟩
      | [] => none
/-- A starving head keeps the cores from a candidate of no higher priority (R329); among starving heads of one priority
neither keeps them from the other. -/
def Part.starved (x : Part) (now : Nat) (y : Candidate) : Bool :=
  let mine := match y.head with
    | some q => x.queues[q].starves now
    | none => false
  (List.finRange 64).any fun q => match x.queues[q].entries with
    | l :: _ => x.queues[q].starves now && decide (y.head ≠ some q) &&
        (decide (y.launch.lrec.prio < l.lrec.prio) || (!mine && decide (y.launch.lrec.prio = l.lrec.prio)))
    | [] => false
/-- The candidate that the next grant serves, with its cores. -/
def State.nextGrant (s : State) (p : PartId) : Option (Candidate × List CoreId) :=
  let x := s.part p
  x.candidates.findSome? fun y =>
    match s.grantOf y.launch y.head.isSome with
    | some cs => if x.starved s.cycle y then none else some (y, cs)
    | none => none

/-- The casts of a core stand for its state at a boundary at which nothing of an earlier launch is left, so that
a rollback reaches back to that boundary and no further. -/
def Core.renewCasts (k : Core) : Core := { k with casts := k.casts.map fun c => { c with live := k.live } }
/-- The rings of a launch, every slot EMPTY (R37). -/
def LaunchRec.ringsOf (r : LaunchRec) : Vector (Option Ring) 16 :=
  r.rings.foldl (fun v w => v.set (Fin.ofNat 16 (bits w 0 4) : RingId) (some (Ring.fresh (ringOf w)))) (.replicate 16 none)
/-- A core is assigned to a launch (R37): its context, its rings, its reservation; its instruction cache is emptied
(R139), and generations start at 0 (R224). A core of another address space is cleared first, and its rings are defined then.
DESIGN CHOICE (log 67): for a further launch of the same address space the token FIFOs and undrained counts stand as the
earlier launch left them; the specification does not say. -/
def Core.assign (k : Core) (l : Launch) (sideB : Bool) (now : Nat) : Core :=
  let r := l.lrec
  let j : Job :=
    { part := l.part, launch := l.id, sideB := sideB, iter := none, since := now, clearing := k.run.lastAsid != some l.asid
      fresh := true, poisoned := false, hist := [], endsDone := 0, redo := [], wbKib := r.wbKib, abKib := r.abKib, cbKib := r.cbKib }
  let k := { k with run := { k.run with job := some j, lastAsid := some l.asid }, regs := { k.regs with asid := l.asid }, icache := [] }
  let rings := if k.run.job.any (·.clearing) then .replicate 16 none else r.ringsOf
  let k := k.modLive fun v => { v with rings := rings, queues := { v.queues with genD := 0, genL := 0, swapAt := none } }
  (k.modFlow fun f => { f with changes := [], gone := [], dep := { f.dep with defs := k.live.prod.defs } }).renewCasts
/-- The cores of a grant are assigned, and the mirrors of a paired launch with them. -/
def State.assignAll (s : State) (l : Launch) (cs : List CoreId) : State :=
  cs.foldl (fun s c =>
    let s := s.modCore c fun k => k.assign l false s.cycle
    if l.lrec.paired then s.modCore (mirror c) fun k => k.assign l true s.cycle else s) s
/-- The cores that a grant adds to a launch's set. -/
def Launch.setOf (l : Launch) (cs : List CoreId) : List CoreId := if l.lrec.paired then cs.flatMap fun c => [c, mirror c] else cs
/-- A head begins dispatch (R328): HEAD advances, and the launch runs. -/
def State.beginHead (s : State) (p : PartId) (q : QueueNo) (l : Launch) (cs : List CoreId) : State :=
  let s := s.modQueue p q fun y =>
    { y.setPtr (bits y.ptr 32 32) (bits y.ptr 0 32 + 1) with entries := y.entries.drop 1, seen := none, since := none, starving := false }
  let s := s.modPart p fun x =>
    { x with running := x.running ++ [{ l with cores := l.setOf cs, order := s.cycle }], lastQ := x.lastQ.set l.lrec.prio q }
  s.noteHead p q
/-- A queue whose head has no iterations (R40). -/
def Part.emptyHead (x : Part) : Option (QueueNo × Launch) :=
  (List.finRange 64).findSome? fun q => match x.queues[q].entries with
    | l :: _ => if l.lrec.iters = 0 then some (q, l) else none
    | [] => none
/-- In a cycle, one grant to one candidate (R329). A head without iterations takes no core and no grant: it leaves its
queue at once, and completes (R40). -/
def execSchedulerGrant (p : PartId) (s : State) : Outcome :=
  match (s.part p).emptyHead with
  | some (q, l) => .next ((s.beginHead p q l []).touch p)
  | none =>
  if !s.served p || (s.part p).grantAt == some s.cycle then .next s
  else match s.nextGrant p with
    | none => .next s
    | some (y, cs) =>
      let l := y.launch
      let s := match y.head with
        | some q => s.beginHead p q l cs
        | none => s.modLaunch p l.id fun l => { l with cores := l.cores ++ l.setOf cs }
      let s := s.assignAll l cs
      .next ((s.modPart p fun x => { x with grantAt := some s.cycle }).touch p)

/-- Clearing writes zero into the buffers and both planes, empties the TLB and the instruction cache, and leaves
no copy descriptor (R37, R221, R255, R331). The rings of the launch are defined, and the core waits for an iteration from this
cycle on. -/
def Core.clear (k : Core) (r : LaunchRec) (now : Nat) : Core :=
  let k := k.modStore fun t =>
    { t with
      wb := [], ab := [], cb := [], wbBad := [], abBad := [], cbBad := [], cbMarks := []
      planes := .replicate 2 .reset }
  let k := k.modFlow fun f => { f with planeLog := [] }
  let k := k.modLive fun l => { l with rings := r.ringsOf, copies := l.copies.map fun e => { CopyEntry.reset with seq := e.seq } }
  { k with
    tlb := [], misses := [], icache := []
    run := { k.run with job := k.run.job.map fun (j : Job) => { j with clearing := false, since := now } } }.renewCasts
/-- Clearing a core for another address space completes (R331). -/
def execCoreClearComplete (c : CoreId) (s : State) : Outcome :=
  match (s.core c).run.job, s.launchOf c with
  | some j, some l => if j.clearing then .next (s.modCore c fun k => k.clear l.lrec s.cycle) else .next s
  | _, _ => .next s

-- iterations (R34 to R36)

/-- Index of a dimension in an iteration (R34). -/
def LaunchRec.index (r : LaunchRec) (n k : Nat) : Nat :=
  match r.dims[k]? with
  | none => 0
  | some (ext, ord) =>
    let w := (r.dims.filter fun e => decide (ord < e.2)).foldl (fun m e => m * e.1) 1
    n / w % ext
/-- `s48` to `s57` of an iteration (R35). -/
def LaunchRec.preset (r : LaunchRec) (n : Nat) : List (SReg × Word) :=
  ((List.range 8).map fun k => (Fin.ofNat 64 (48 + k), BitVec.ofNat 64 (r.index n k))) ++ [(56, BitVec.ofNat 64 n), (57, r.param)]
/-- A core waits for an iteration. -/
def Core.wantsIter (k : Core) (now : Nat) : Bool :=
  match k.run.job with
  | some j => j.iter.isNone && !j.clearing && k.run.stop == .none && !k.regs.freeze.fe && k.live.front.at_.idle && decide (j.since < now)
  | none => false
/-- A core waits for a further iteration: a rollback has left none to be started again. -/
def Core.wantsNext (k : Core) (now : Nat) : Bool := k.wantsIter now && k.run.job.all fun j => j.redo.isEmpty
/-- Both cores of a pair wait; of an unpaired launch, the core. -/
def State.sideReady (s : State) (l : Launch) (c : CoreId) : Bool :=
  (s.core c).wantsNext s.cycle && (!l.lrec.paired || (s.core (mirror c)).wantsNext s.cycle)
/-- The core that comes first for the next iteration (R34): free the longest, then of the lowest identifier. -/
def State.firstWaiting (s : State) (l : Launch) : Option CoreId :=
  let cs := l.cores.filter fun c => s.sideReady l c && (match (s.core c).run.job with
    | some j => !j.sideB
    | none => false)
  let since := fun (c : CoreId) => ((s.core c).run.job.map (·.since)).getD 0
  cs.foldl (fun best c => match best with
    | some b => if since c < since b ∨ (since c = since b ∧ c < b) then some c else best
    | none => some c) none
/-- A register that the walker writes at dispatch: `s48` to `s57` (R35). -/
def presetReg (g : Reg) : Bool :=
  match g with
  | .s n => decide (48 ≤ n.val) && decide (n.val ≤ 57)
  | _ => false
/-- A front end starts an iteration at level U (R35): the first of a launch on the core with every other register
zero. What the walker writes stands above the writes of the issue window. `gbar` progress is no register: an arrival
that has been sent stays recorded until its `gbar` returns (R45). DESIGN CHOICE (log 63): a load result that is still pending
for one of these registers lands later over what the walker wrote; the specification does not say which value stays. -/
def Front.startIter (f : Front) (r : LaunchRec) (n : Nat) (fresh : Bool) (now : Nat) : Front :=
  let f := if fresh then
      { f with regs := .zero, tags := .replicate 8 none, win := [], busy := [], flagsAt := 0 }
    else f
  { f with
    win := f.win.map fun w => { w with writes := w.writes.filter fun y => !presetReg y.reg }
    regs := (r.preset n).foldl (fun g x => g.set (.s x.1) (wordOf x.2)) f.regs
    level := .u
    at_ := { f.at_ with pc := r.code, pcHi := r.vahi, vahi := r.vahi, wait := .none, idle := false, nextAt := now, trapping := none } }
/-- The code line of the launch buffer enters the instruction cache (R331). -/
def Core.preload (k : Core) (l : Launch) : Core :=
  match l.line with
  | none => k
  | some bs =>
    let va := l.lrec.vahi.toNat * 2 ^ 64 + l.lrec.code.toNat
    { k with icache := [⟨va, l.asid, .u, bs⟩] }
/-- An iteration starts on a core; the parties that a fault stopped try again (R220). -/
def Core.startIter (k : Core) (l : Launch) (n : Nat) (now : Nat) : Core :=
  match k.run.job with
  | none => k
  | some j =>
    let k := if j.fresh then (k.preload l).modLive fun v => { v with queues := { v.queues with rsr := 1 } } else k
    let po := k.live.front.at_.po
    let k := k.modLive fun v => ({ v with front := v.front.startIter l.lrec n j.fresh now }).resumeParties
    { k with run := { k.run with job := some { j with iter := some n, fresh := false, poisoned := false, redo := j.redo.drop 1
                                                      hist := j.hist ++ [(po, some n)] } } }
/-- STATE := 2 with the first iteration of a launch (R33). -/
def State.markRunning (s : State) (l : Launch) : State :=
  if l.running then s else (s.pokeRec (l.addr + 0x30) [2] l.cmp).modLaunch l.part l.id fun l => { l with running := true }
/-- The walker hands an iteration to a core (R34, R35), and the same one to its mirror (R370). A core that a
rollback has set back behind an iteration's start gets that iteration again. -/
def execIterationDispatch (c : CoreId) (s : State) : Outcome :=
  match (s.core c).run.job, s.launchOf c with
  | some j, some l =>
    match j.redo with
    | n :: _ => if (s.core c).wantsIter s.cycle then .next (s.modCore c fun k => k.startIter l n s.cycle) else .next s
    | [] =>
      if s.firstWaiting l ≠ some c ∨ l.left = 0 ∨ (s.part l.part).switch.paused.contains l.asid then .next s
      else
        let s := s.modCore c fun k => k.startIter l l.next s.cycle
        let s := if l.lrec.paired then s.modCore (mirror c) fun k => k.startIter l l.next s.cycle else s
        .next (((s.modLaunch l.part l.id fun l => { l with next := l.next + 1 }).markRunning l).touch l.part)
  | _, _ => .next s

-- release and completion (R38, R40, R373)

/-- Nothing is left on a core for its launch (R38). -/
def State.quietCore (s : State) (c : CoreId) : Bool :=
  let k := s.core c
  let q := k.live.queues
  q.k.isEmpty && q.o.isEmpty && q.d.isEmpty && q.lanes.all (fun l => l.streams.isEmpty) && k.store.ops.all (fun l => l.isEmpty) &&
  k.live.copies.all (fun e => e.state != .run && e.state != .demand && e.state != .fault && e.reading.isNone && e.ends.isEmpty) &&
  k.live.circuits.all (fun x => x.state == .closed || x.state == .refused) &&
  k.live.walker.state == .idle && k.flow.hold.isEmpty && k.flow.storeQ.isEmpty && k.store.aging.isEmpty && k.planesDone &&
  k.live.rings.all (fun r => r.all fun r => r.rels.isEmpty) &&
  k.flow.sent.all (fun e => e.left == 0) &&
  s.net.all fun m => m.src != c || (match m.hold.stream with
    | .store => false
    | .copy _ => false
    | _ => true)
/-- Iterations that end in a launch: each once on each side. -/
def Launch.due (l : Launch) : Nat := if l.lrec.paired then 2 * l.lrec.iters else l.lrec.iters
/-- A core is released from its launch (R38). -/
def execCoreRelease (c : CoreId) (s : State) : Outcome :=
  match (s.core c).run.job, s.launchOf c with
  | some j, some l =>
    let over_ := if l.lrec.gang then decide (l.ended = l.due) else decide (l.left = 0)
    if j.iter.isNone && j.redo.isEmpty && over_ && (s.core c).run.stop == .none && s.quietCore c then
      .next (((s.modCore c fun k => { k with run := { k.run with job := none } }.renewCasts).modLaunch l.part l.id fun l =>
        { l with cores := l.cores.filter (· != c) }).touch l.part)
    else .next s
  | _, _ => .next s
/-- ITDONE of a record in STATE 2 catches up with the iterations that have ended (R39). -/
def State.bringItdone (s : State) (l : Launch) : State :=
  let n := (if l.lrec.paired then l.ended / 2 else l.ended) % 2 ^ 48
  if l.running && (s.peek (l.addr + 0x32) 6 l.cmp).1 != n then s.pokeRec (l.addr + 0x32) (toBytes 6 n) l.cmp else s
/-- The route identifier of an arrival that the scheduler makes for a partition (R378): that of its unit on the die of the
barrier. DESIGN CHOICE (log 60): which die's unit arrives is not stated. -/
def doneRoute (p : PartId) (a : Nat) : Nat := 4096 * p.val + sharedEndpoint (homeDie a) 3
/-- A launch completes (R40): STATE := 3 with ITDONE = N, then the arrival at DONEBAR. A paired one compares its
signatures first (R373). While it cannot complete, the device may write its ITDONE (R39). -/
def execLaunchComplete (p : PartId) (n : Nat) (s : State) : Outcome :=
  match (s.part p).running.find? fun l => l.id == n with
  | none => .next s
  | some l =>
    if l.ended ≠ l.due ∨ l.left ≠ 0 ∨ !l.cores.isEmpty ∨ l.doneBar.any (fun a => localHbm a && !s.tieFree (homeDie a).val (doneRoute p a)) then
      .next (s.bringItdone l)
    else
      let same := l.sigA == l.sigB
      let bytes := (if l.lrec.paired then (if same then [3, 0x40] else [4, 0x41]) else [3])
      let s := if l.lrec.paired then s.rlog p (rlogHdr 0 5 0 0 3) l.sigA l.sigB l.va else s
      let s := (s.pokeRec (l.addr + 0x32) (toBytes 6 l.lrec.iters) l.cmp).pokeRec (l.addr + 0x30) bytes l.cmp
      let s := match l.doneBar with
        | some a => if localHbm a then (s.barrier a 1 0).tie (homeDie a).val (doneRoute p a) else s
        | none => s
      .next ((s.modPart p fun x => { x with running := x.running.filter fun l => l.id != n }).touch p)

-- quiescence (R46, R47)

/-- FREEZE_STAT (R317). -/
def Freeze.stat (z : Freeze) : Nat := z.viol.val * 16 + (if z.bw then 4 else 0) + (if z.ce then 2 else 0) + (if z.fe then 1 else 0)
/-- An entry of a deadlock record: KIND, DETAIL and OBJECT (R47). -/
structure WaitEntry where
  kind : Nat
  detail : Nat
  object : Word
  deriving DecidableEq, Repr
/-- A wait of `tokw`: the first FIFO it lacks. -/
def Core.tokenEntry (k : Core) (wp : Bool) : WaitEntry := ⟨1, if wp && !k.live.hasToken 3 then 3 else 4, 0⟩
/-- An outstanding miss of a party. -/
def Core.missEntry (k : Core) (parties : List Nat) : Option WaitEntry :=
  (k.misses.find? fun m => parties.contains m.party && !m.failed).map fun m => ⟨8, 0, BitVec.ofNat 64 m.va⟩
/-- The wait of the block walker while the front end stands at its `wdrive`. -/
def Core.walkEntry (k : Core) : Option WaitEntry :=
  if k.regs.freeze.bw then some ⟨7, k.regs.freeze.stat, 0⟩
  else match k.live.wctx.wait with
    | .token => some (k.tokenEntry (Felt.tok k.felt).wp)
    | .slot q n => some ⟨4, q.val + 16 * n, 0⟩
    | .queue .k => some ⟨8, 1, 0⟩
    | .queue .o => some ⟨8, 2, 0⟩
    | .queue .d => some ⟨8, 3, 0⟩
    | .read _ => k.missEntry [2]
    | .none => k.missEntry [2]
/-- A `lwait` for a final STATE at the head of the load stream. -/
def Core.lwaitEntry (k : Core) : Option WaitEntry :=
  match k.flow.loads with
  | ⟨.lwait false, _, u :: _, _, _, _, _, _, none, _⟩ :: _ => some ⟨5, 0, u.va - 0x30⟩
  | _ => none
/-- The word at the program counter, where the instruction cache holds it. -/
def Core.heldWord (k : Core) : Option Instr :=
  let a := k.live.front.at_
  match k.icache.find? fun l => l.serves k (a.pcHi.toNat * 2 ^ 64 + (lineOf a.pc).toNat) with
  | some l => (decode (bytesNat ((l.bytes.drop (a.pc.toNat % 80)).take 10))).toOption
  | none => none
/-- The queue that a word enters (R218), as KIND 8 numbers it (R47). -/
def Instr.queueOf : Instr → Option (PoolQ × Nat)
  | .carve .. => some (.k, 1)
  | .wload .. => some (.k, 1)
  | .mmap .. => some (.k, 1)
  | .plane .. => some (.k, 1)
  | .sbind .. => some (.k, 1)
  | .feed .. => some (.o, 2)
  | .feedx .. => some (.o, 2)
  | .drain .. => some (.d, 3)
  | .aclr .. => some (.d, 3)
  | _ => none
/-- The wait of a front end that stalls before a word (R46): a `lwait` that holds back a tag the word or a trap's entry
waits for, a full queue that the word enters, a translation, or a `lwait` whose register the word reads or writes (R132), by
which it has stood for the cycles of condition 4. -/
def Core.stallEntry (k : Core) (now : Nat) : Option WaitEntry :=
  let f := k.live.front
  let long := if f.at_.nextAt + 4096 ≤ now then k.lwaitEntry else none
  if f.at_.trapping.isSome then k.lwaitEntry <|> k.missEntry [0, 1]
  else match k.heldWord with
    | none => k.missEntry [3]
    | some i =>
      let h := (i.enc.map (·.h)).getD Hdr.zero
      let held := !f.tagsClear now h.wait || (match h.tag with | some t => f.tagPending now t | none => false)
      if held then k.lwaitEntry <|> k.missEntry [0, 1]
      else match Instr.queueOf i with
        | some (q, n) => if k.queueRoom q then long else some ⟨8, n, 0⟩
        | none => k.missEntry [0, 1] <|> long
/-- A drain at the head of D whose count its lane does not reach, having fired nothing for the cycles of condition 4, waits on
the lane's operand ring (R245); where the lane has no ring, which one that is stays open. -/
def Core.drainEntry (k : Core) (now free : Nat) : Option WaitEntry :=
  match k.live.queues.d with
  | e :: _ =>
    match e.drain with
    | some d =>
      let l := k.live.queues.lanes[d.lane]
      if !e.popped || e.step != 0 || e.trap.isSome || decide (bits d.a 0 32 ≤ l.undrained) ||
        decide (now < l.lastFire + l.lastSpan + 4096) then none
      else match (l.firing <|> l.streams.getLast?).bind fun x => x.ring.map fun q => (x, q) with
        | some (x, q) => some ⟨4, q.val + 16 * x.oslot.getD (((k.ring q).map (·.cons)).getD 0), 0⟩
        | none => some ⟨4, free % 1024, 0⟩
    | none => none
  | [] => none
/-- A demand-bound copy that keeps its core from release (R38). -/
def Core.demandEntry (k : Core) : Option WaitEntry :=
  ((List.finRange 16).find? fun (e : EntryNo) => k.live.copies[e].state == .demand).map fun e =>
    ⟨6, e.val + 16 * (k.live.copies[e]).state.code, 0⟩
/-- The entry of a waiting core (R46, R47); none for one that does not wait. A core whose front end has no iteration waits
where an engine's wait keeps it from release (R38, R245). -/
def Core.waitEntry (k : Core) (now : Nat) (free : Nat := 0) : Option WaitEntry :=
  let a := k.live.front.at_
  if k.run.inHold || k.run.stop != .none then none
  else if a.idle then k.drainEntry now free <|> k.demandEntry
  else if k.regs.freeze.fe then some ⟨7, k.regs.freeze.stat, 0⟩
  else match a.wait with
    | .tokw wp _ => some (k.tokenEntry wp)
    | .wfi wake _ => if 4 ≤ wake.val then none else some ⟨1, if wake.val % 2 = 1 then 3 else 4, 0⟩
    | .barWait _ va _ _ none => some ⟨2, 0, va⟩
    | .gbar _ va _ true => some ⟨3, 0, va⟩
    | .qpop q _ _ => some ⟨4, q.val + 16 * ((k.ring q).map (·.cons)).getD 0, 0⟩
    | .cwait e => some ⟨6, e.val + 16 * (k.live.copies[e]).state.code, 0⟩
    | .wdrive .. => k.walkEntry
    | .none => k.stallEntry now
    | _ => none
/-- A core is idle with no iteration, and is not being cleared for one (R46). DESIGN CHOICE (log 16): one that is asked to
stop, or STOPPED, while it holds an iteration is neither idle nor waiting, so that it keeps its partition from quiescence; the
specification does not say. -/
def Core.restful (k : Core) : Bool := (k.live.front.at_.idle || k.run.inHold) && !k.run.job.any (·.clearing)
/-- The four conditions of R46. -/
def State.quiescent (s : State) (p : PartId) : Bool :=
  let cs := s.coresOf p
  cs.all (fun c => (s.core c).restful || ((s.core c).waitEntry s.cycle).isSome) &&
  cs.any (fun c => ((s.core c).waitEntry s.cycle).isSome) &&
  (s.part p).candidates.all (fun y => y.head.isNone || (s.grantOf y.launch true).isNone || (s.part p).starved s.cycle y) &&
  decide ((s.part p).moved + 4096 ≤ s.cycle)
/-- The words of a deadlock record (R47). -/
def State.deadlockWords (s : State) (p : PartId) (free : Nat) : List Word :=
  let es := (s.coresOf p).filterMap fun c => ((s.core c).waitEntry s.cycle free).map fun e => (c, e)
  [BitVec.ofNat 64 (p.val * 2 ^ 16 + es.length), BitVec.ofNat 64 s.ptime] ++
    es.flatMap fun x => [BitVec.ofNat 64 (x.2.detail % 2 ^ 16 * 2 ^ 16 + x.2.kind * 2 ^ 8 + x.1.val), x.2.object]
/-- The quiescence detector writes one record for a quiet stretch, and reports DEADLOCK (R46, R388). -/
def execDeadlockDetect (p : PartId) (s : State) : Outcome :=
  if !s.quiescent p then .next (s.modPart p fun x => { x with reported := false })
  else if (s.part p).reported then .next s
  else
    let base := (s.part p).logs.dlkBase
    let t := s.takeNat
    let s := if base.getLsbD 0 then t.2.pokeWords (bits base 13 43 * 2 ^ 13) (t.2.deadlockWords p t.1) else t.2
    .next ((s.modPart p fun x => { x with reported := true }).signal p 1)

end Sys2Proof.Machine
end

