-- ==== Sys2Proof/Machine/Contexts.lean ====
section
/-! DEFINITION. Pre-emption: stopping, saving and loading a core, queue images, and gang switching (R48, R247, R269,
R289, R332 to R340, R402). -/

namespace Sys2Proof.Machine

-- words (R335, R336)

/-- A core in the set of a gang switch in progress (R335). -/
def Part.switching (x : Part) (c : CoreId) : Bool := x.switch.busy && x.switch.set_.contains c
/-- The target of `ctxsave` or `ctxload`. -/
def targetOf (x : Word) : CoreId := Fin.ofNat 256 x.toNat
/-- The BOUNDS checks that both words make on a target (R335). -/
def State.badTarget (s : State) (c : CoreId) : Bool :=
  s.pmapOf c != s.pmapOf s.cur || c == s.cur || (s.part (s.pmapOf c)).switching c
/-- A partition's CTXBUSY and CTXERR bits of a core. -/
def setBit (w : BitVec 256) (c : CoreId) (b : Bool) : BitVec 256 :=
  if b then w ||| BitVec.ofNat 256 (2 ^ c.val) else w &&& ~~~BitVec.ofNat 256 (2 ^ c.val)
def State.ctxBusy (s : State) (c : CoreId) (b : Bool) : State := s.modPart (s.pmapOf c) fun x => { x with ctxBusy := setBit x.ctxBusy c b }
def State.ctxError (s : State) (c : CoreId) : State := s.modPart (s.pmapOf c) fun x => { x with ctxErr := setBit x.ctxErr c true }
/-- A core with its stop changed. -/
def Core.setStop (k : Core) (x : Stop) : Core := { k with run := { k.run with stop := x } }

/-- The target is asked to stop (R332, R335); one that is STOPPED, or stops already, is left as it is. A request is
not applied in the cycle of one of a higher route identifier. -/
def execCtxsave (h : Hdr) (a : SReg) (s : State) : Outcome :=
  s.issue (.ctxsave h a) h { srcs := [(.s a, h.pda)], level := .s } fun s =>
    let x := s.me.live.front.srcS a h.pda
    let c := targetOf x
    if x.toNat / 2 ^ 8 ≠ 0 ∨ s.badTarget c then .next (s.trapHere .bounds x)
    else if !s.tieFree (tieContext c) (s.frontRoute s.cur) then .next s
    else
      let s := (s.retire h none {}).tie (tieContext c) (s.frontRoute s.cur)
      if (s.core c).run.stop = .none then .next ((s.modCore c fun k => k.setStop (.asked false s.cycle)).ctxBusy c true)
      else .next s
/-- A STOPPED target is loaded with a context (R335). -/
def execCtxload (h : Hdr) (a : SReg) (s : State) : Outcome :=
  s.issue (.ctxload h a) h { srcs := [(.s a, h.pda)], level := .s } fun s =>
    let x := s.me.live.front.srcS a h.pda
    let c := targetOf x
    let asid : Byte := (x >>> 8).setWidth 8
    if x.toNat / 2 ^ 16 ≠ 0 ∨ s.badTarget c ∨ (s.core c).run.stop ≠ .stopped ∨ !s.resident asid (s.pmapOf c) then
      .next (s.trapHere .bounds x)
    else if !s.tieFree (tieContext c) (s.frontRoute s.cur) then .next s
    else .next ((((s.retire h none {}).modCore c fun k => k.setStop (.loading asid false s.cycle)).ctxBusy c true).tie
      (tieContext c) (s.frontRoute s.cur))

/-- The image of a queue (R336). -/
def LQueue.image (y : LQueue) (now : Nat) : List Word :=
  let age := match y.since with
    | some t => min (2 ^ 17 - 1) ((now - t) / 2 ^ 16)
    | none => 0
  [y.cfg, y.ptr, y.ctx, BitVec.ofNat 64 (age + if y.starves now then 2 ^ 32 else 0), 0, 0, 0, 0]
/-- The LQ_CFG and the age word that a `qsave` stores: as they stand, or as they stood when the same `qsave` first
executed (R336, R359). -/
def LQueue.found (y : LQueue) (c : CoreId) (n now : Nat) : Word × Word :=
  match y.saved with
  | some (d, m, cfg, age) => if d = c ∧ m = n then (cfg, age) else (y.cfg, (y.image now).getD 3 0)
  | none => (y.cfg, (y.image now).getD 3 0)
/-- SRC := 0, and the dispatch of the queue ends (R336). -/
def LQueue.shut (y : LQueue) (c : CoreId) (n now : Nat) : LQueue :=
  let f := y.found c n now
  { y with cfg := y.cfg &&& ~~~0xC0, entries := [], seen := none, since := none, starving := false, saved := some (c, n, f.1, f.2) }
/-- R336. -/
def execQsave (h : Hdr) (q : QueueNo) (a : SReg) (s : State) : Outcome :=
  s.issue (.qsave h q a) h { srcs := [(.s a, h.pda)], level := .s, feature := 5, engine := true } fun s =>
    let x := s.me.live.front.srcS a h.pda
    if x.toNat % 64 ≠ 0 then .next (s.trapHere .alignFault x)
    else
      s.withMem .g .store 1 ((List.range 8).map fun i => (x + BitVec.ofNat 64 (8 * i), 8)) fun s ps need =>
        let p := s.pmapOf s.cur
        let y := s.lqueue p q
        let n := s.me.live.prod.store
        let f := y.found s.cur n s.cycle
        let ws := [f.1, y.ptr, y.ctx, f.2, 0, 0, 0, 0]
        match s.storeWord h (storeAct .g (storeUnits ((ws.map fun w => toBytes 8 w.toNat).zip ps)) .none) none need with
        | .next t =>
          if t.me.live.front.at_.po = s.me.live.front.at_.po then .next t
          else .next (t.modQueue p q fun y => y.shut s.cur n s.cycle)
        | o => o
/-- R336. A logged completion is taken at once (R360). -/
def execQload (h : Hdr) (q : QueueNo) (a : SReg) (s : State) : Outcome :=
  s.issue (.qload h q a) h { srcs := [(.s a, h.pda)], level := .s, feature := 5, engine := true } fun s =>
    let f := s.me.live.front
    let x := f.srcS a h.pda
    let y := s.lqueue (s.pmapOf s.cur) q
    if s.me.logged.isSome then .next (s.retire h none {})
    else if x.toNat % 64 ≠ 0 then .next (s.trapHere .alignFault x)
    else if bits y.cfg 6 2 ≠ 0 ∨ y.length ≠ 0 then .next (s.trapHere .bounds x)
    else
      s.withMem .g .load 1 ((List.range 3).map fun i => (x + BitVec.ofNat 64 (8 * i), 8)) fun s ps need =>
        if !s.me.logRoom then .next s
        else
          let s := s.retire h none {}
          .next (s.modCore s.cur fun k => k.modFlow fun fl =>
            { fl with loads := fl.loads ++ [⟨.qload q, .g, loadUnits (ps.map fun p => (0, p)), none, f.at_.po, f.at_.mark, none, s.cycle, need, f.at_.pc⟩] })

-- stopping (R48, R247, R332)

/-- Slots of a ring that a lane holds, oldest take first. -/
def Ring.heldBy (r : Ring) (l : LaneId) : List Nat :=
  let is := (List.range r.slots.length).filter fun i => (r.slot i).state == .held && (r.slot i).by_ == .lane l
  is.mergeSort fun i j => decide (r.numberOf r.taken i ≤ r.numberOf r.taken j)
/-- Slots that a stream's operations from its first unretired one on had taken. -/
def Stream.heldSlots (x : Stream) (fired : Nat) : Nat := ceilDiv fired x.tps - x.retired / x.tps
/-- The streams of a lane set back to their first unretired operations, with the slots that they still hold. -/
def rewindStreams (main : RingId → List Nat) (sc : List Nat) : List Stream → List Stream
  | [] => []
  | x :: xs =>
    let n := if x.ring.isSome then x.heldSlots x.fired else 0
    let m := if x.ring.isSome then n else 0
    let own := match x.ring with
      | some q => main q
      | none => []
    let y := { x with fired := x.retired, oslot := none, sslot := none, again := own.take n, sagain := sc.take (if x.ring.isSome then m else x.fired - x.retired) }
    y :: rewindStreams (fun q => if x.ring = some q then (main q).drop n else main q)
      (sc.drop (if x.ring.isSome then m else x.fired - x.retired)) xs
/-- A lane set back to its first unretired operation (R247). -/
def LaneState.rewind (l : LaneState) (lane : LaneId) (rings : Vector (Option Ring) 16) (scale : Option RingId) : LaneState :=
  let held := fun (q : RingId) => match rings[q] with
    | some r => r.heldBy lane
    | none => []
  { l with streams := rewindStreams held (match scale with | some q => held q | none => []) l.streams }
/-- Unretired operations are abandoned, with their passes and parts (R247). -/
def Core.abandonOps (k : Core) : Core :=
  let p := k.store.livePlane
  let parts := (List.finRange 4).foldl (fun (m : SMap Nat) (l : LaneId) =>
    (p.laneGroups l).foldl (fun m g =>
      if g.2.ext then SMap.set 0 m g.1 (SMap.get 0 m g.1 - (k.store.ops[l]).length) else m) m) k.live.queues.parts
  let lanes := Vector.ofFn fun (i : Fin 4) => (k.live.queues.lanes[i]).rewind i k.live.rings p.lanes[i]
  let k := k.modLive fun l => { l with queues := { l.queues with parts := parts, lanes := lanes } }
  let k := k.modStore fun t =>
    { t with
      ops := .replicate 4 []
      aging := t.aging.filter fun a => match a.party with
        | .pass .. => false
        | _ => true }
  k.modFlow fun f => { f with hold := f.hold.filter fun e => match e.stream with
    | .lane _ => false
    | _ => true }

/-- Something bars a hold-back entry from leaving (R332): a flit finds no elastic room or a frozen copy engine; a request
finds a port that does not take it, or a budget of its partition exhausted. -/
def State.barred (s : State) (c : CoreId) (e : Hold) : Bool :=
  let k := s.core c
  let p := s.pmapOf c
  match e.req, e.stream with
  | .flit .., .circuit n =>
    let x := k.circ n
    k.regs.freeze.ce || (x.branches.any fun b => decide (16 ≤ b.elastic.length)) || (s.spineGrant p c (x.branches.map x.dest) 1).isNone
  | r, _ => ((s.spineGrant p c r.dests (e.size / 64)).bind fun t => t.linkGrant p c r).isNone
/-- The hold-back entry n cannot leave, and so stays behind in an image (R332): it has aged, and it is barred, or an older
one that is barred leaves first. -/
def State.maystay (s : State) (c : CoreId) (n : Nat) (e : Hold) : Bool :=
  decide (e.entered + Config.tQ ≤ s.cycle) &&
  (s.barred c e || ((s.core c).flow.hold.take n).any fun x => x.before e && s.barred c x)
/-- A message of a core's store stream waits at a port that takes nothing. -/
def State.farWaits (s : State) (c : CoreId) (m : Msg) : Bool := m.src == c && m.hold.stream == .store && !s.portReady m
/-- A launch of a context by the physical address of its record: queued, or running (R338). -/
def State.childOf (s : State) (p : PartId) (asid : Byte) (a : Nat) : Bool :=
  let is := fun (l : Launch) => l.asid == asid && l.addr == a
  (s.part p).running.any is || (s.part p).queues.any fun y => y.entries.any is
/-- The program-order number of a `lwait` at the head of the load stream on a launch of the context that a gang switch
stops: it is saved with its core, and what stands behind it in the two streams with it (R338). -/
def State.stuckAt (s : State) (c : CoreId) : Option Nat :=
  let k := s.core c
  match k.run.stop, k.flow.loads with
  | .asked true _, l :: _ =>
    if l.waits && l.need.isNone && l.units.any fun u => s.childOf (s.pmapOf c) k.regs.asid (u.addr - 0x30) then some l.po else none
  | _, _ => none
/-- A core stands at its boundaries, and its streams have drained (R332): the front end's, up to a `lwait` that is saved with
its core; the walker's (R289); and every write has been performed, but for those in entries that cannot leave, and those
that have left for a port which takes nothing. -/
def State.atBoundary (s : State) (c : CoreId) : Bool :=
  let k := s.core c
  let f := k.live.front
  let rests := fun (po : Nat) => match s.stuckAt c with
    | some n => decide (n ≤ po)
    | none => false
  k.walkRests &&
  f.at_.trapping.isNone && f.at_.late.isEmpty && k.flow.tlbi.isNone &&
  ((List.finRange 8).all fun t => !f.tagPending s.cycle t || match f.tags[t] with
    | some p => rests p.po
    | none => true) &&
  k.flow.loads.all (fun l => rests l.po) && k.flow.storeQ.all (fun o => rests o.po) &&
  (k.flow.sent.all fun e => (k.flow.hold.any fun h => h.stream == .store && h.num == e.num) ||
    s.net.any fun m => s.farWaits c m && m.hold.num == e.num) && k.flow.changes.isEmpty && k.planesDone &&
  k.store.aging.all (fun a => match a.party with
    | .pass .. => true
    | _ => false) &&
  (k.flow.hold.zipIdx).all fun e => match e.1.stream with
    | .lane _ => true
    | _ => s.maystay c e.2 e.1
/-- Waits that a stop abandons: `wfi` counts as complete (R320), the others execute again (R332). -/
def Pos.abandon (a : Pos) : Pos :=
  match a.wait with
  | .wfi .. => { a with wait := .none }
  | .barWait .. => { a with wait := .none }
  | .gbar .. => { a with wait := .none }
  | .tokw .. => { a with wait := .none }
  | _ => a
/-- A cast of the state of a core (R358). -/
def Core.castOf (k : Core) (now ns : Nat) : Cast := { live := k.live, cyc := now, ns := ns, usable := true }
/-- A stop ends the front end's wait: a `pause` counts as complete (R165). -/
def State.abandonWait (s : State) (c : CoreId) : State :=
  match (s.front c).at_.wait with
  | .pause _ => s.pauseOver c (s.cycle + 1)
  | _ => s.modFront c fun f => f.modAt Pos.abandon
/-- Requests of a core that have left for a port which takes nothing wait until its context is loaded again (R332, R339). -/
def State.park (s : State) (c : CoreId) : State :=
  let a := s.slotAddr (s.core c).regs.asid c
  { s with net := s.net.filter fun m => !s.farWaits c m
           parked := s.parked ++ (s.net.filter (s.farWaits c)).map fun m => (a, m) }
/-- A core that has been asked to stop does so (R332): its waits end at once, and once it has drained, the stop
cast is taken and the save begins. Walks under way are abandoned (R348). -/
def execCoreStop (c : CoreId) (s : State) : Outcome :=
  match (s.core c).run.stop with
  | .asked gang since =>
    let s := s.abandonWait c
    if !s.atBoundary c then .next (s.tryEnter c)
    else .next ((s.park c).modCore c fun k =>
      let k := k.abandonOps
      { k with misses := [], casts := (k.castOf s.cycle s.ptime :: k.casts).take Config.casts }.setStop (.saving gang (max since s.cycle)))
  | _ => .next s

-- images (R333, R334)

/-- Words whose layout the specification leaves open, written free. -/
def State.pokeFree : Nat → Nat → State → State
  | 0, _, s => s
  | n + 1, a, s => State.pokeFree n (a + 8) (s.takeWord.2.pokeWord a s.takeWord.1)
/-- The header of a core slot (R334). -/
def Core.slotHeader (k : Core) (c : CoreId) : Word :=
  BitVec.ofNat 64 (0xC5 + c.val * 2 ^ 8 + k.regs.asid.toNat * 2 ^ 16 + 2 ^ 24 + k.regs.freeze.stat % 8 * 2 ^ 25)
/-- Words of a list of vectors of 32-bit lanes. -/
def vecWords (v : VecWord) : List Word := (List.range 32).map fun i => v.extractLsb' (64 * i) 64
/-- The registers that open the front end's region of a core slot (R334), in the order in which R19 and R168 list them:
`s`, `v` and `p`, the loop registers, the RW `ctl` registers, and the lane states. -/
def Regs.slotWords (r : Regs) : List Word :=
  r.s.toList ++ r.v.toList.flatMap vecWords ++ r.p.toList ++
  [r.loops.ls0, r.loops.le0, r.loops.lc0, r.loops.ls1, r.loops.le1, r.loops.lc1, r.fflags, r.round, r.seed] ++
  (List.range 16).map fun i => BitVec.ofNat 64 ((List.range 4).foldl (fun n j => n + (r.lfsr[4 * i + j]?.getD 0).toNat * 2 ^ (16 * j)) 0)
/-- Registers from the words of a slot: reserved fields read zero (R7, R67, R68). -/
def Regs.ofSlot (w : Nat → Word) : Regs :=
  { s := .ofFn fun i => w i.val
    v := .ofFn fun i => BitVec.ofNat 2048 ((List.range 32).foldr (fun j n => (w (64 + 32 * i.val + j)).toNat + 2 ^ 64 * n) 0)
    p := .ofFn fun i => w (1088 + i.val)
    loops := ⟨w 1096, w 1097, w 1098, w 1099, w 1100, w 1101⟩
    fflags := w 1102 &&& 0xFF, round := if bits (w 1103) 0 2 = 3 then 0 else w 1103 &&& 3, seed := w 1104 &&& 0xFFFF
    lfsr := .ofFn fun i => (w (1105 + i.val / 4)).extractLsb' (16 * (i.val % 4)) 16 }
/-- A walker from its ten words (R285); PHASE 3 and END 3 have no meaning and read as they are. -/
def Walker.ofSlot (w : Nat → Word) : Walker :=
  let f := fun (i lo n : Nat) => (w i).toNat / 2 ^ lo % 2 ^ n
  { nfelt := f 0 40 24, cause := BitVec.ofNat 8 (f 0 32 8), bop := BitVec.ofNat 8 (f 0 24 8), reserr := f 0 19 1 = 1
    end_ := Fin.ofNat 4 (f 0 17 2)
    state := match f 0 14 3 with
      | 1 => .run
      | 2 => .wait
      | 3 => .susp
      | _ => .idle
    phase := Fin.ofNat 4 (f 0 9 2), felt := w 1, boff := f 2 24 24, voff := f 2 0 24, blk := f 3 32 32, run := f 3 0 32
    racc := f 4 56 8, scan := f 4 32 1 = 1, elem := f 4 0 32, b1 := BitVec.ofNat 32 (f 5 32 32), b0 := BitVec.ofNat 32 (f 5 0 32)
    stack := (List.range (min 4 (f 0 11 3))).map fun j => w (6 + j) }
/-- What an image holds beside its buffers. -/
def Core.image (k : Core) : Core := { k with store := { k.store with wb := [], ab := [], cb := [] } }
/-- A core slot written whole (R334): the header, the registers, the walker's ten words and the buffers as laid out; what
has no stated layout is free words, and is kept beside the slot. -/
def State.writeSlot (s : State) (c : CoreId) : State :=
  let k := s.core c
  let a := s.slotAddr k.regs.asid c
  if !localHbm (a + 0x8EFFFF) then s
  else
    let s := (s.pokeWord a (k.slotHeader c)).pokeWord (a + 8) (BitVec.ofNat 64 s.ptime)
    let s := State.pokeFree ((0xF0000 - 16) / 8) (a + 16) s
    let s := s.pokeWords (a + 0x1000) k.live.front.regs.slotWords
    let s := s.pokeWords (a + 0x2C000) ((List.range 10).map k.live.walker.word)
    let s := ((s.poke (a + 0x0F0000) (k.store.wb.bytes 0 (bufSize .wb))).poke (a + 0x4F0000) (k.store.ab.bytes 0 (bufSize .ab))).poke
      (a + 0x7F0000) (k.store.cb.bytes 0 (bufSize .cb))
    { s with images := (a, k.image) :: s.images.filter fun x => x.1 != a }
/-- Cycles that one core's save or load takes (R334). -/
def saveCycles : Nat := 36608
/-- A core's image is complete (R335): the core is STOPPED, and CTXBUSY clears, or the gang switch goes on. -/
def execSaveComplete (c : CoreId) (s : State) : Outcome :=
  match (s.core c).run.stop with
  | .saving gang since =>
    if s.cycle < since + saveCycles then .next s
    else
      let s := (s.writeSlot c).modCore c fun k => k.setStop .stopped
      if gang then .next (s.modPart (s.pmapOf c) fun x => { x with switch := { x.switch with saves := x.switch.saves.filter (· != c) } })
      else .next (s.ctxBusy c false)
  | _ => .next s

/-- A slot is usable by a core (R335): MAGIC, VALID and CORE. -/
def State.slotOk (s : State) (a : Nat) (c : CoreId) : Bool :=
  let w := (s.peek a 8).1
  w % 256 == 0xC5 && w / 2 ^ 8 % 256 == c.val && w / 2 ^ 24 % 2 == 1
/-- The bytes of a buffer as a slot holds them. -/
def State.slotBuf (s : State) (a n : Nat) : Memory := Memory.put [] 0 (s.mem.read s.pkg.mdbase a n false).1
/-- A `cred` takes a number. -/
def Req.numbered (r : Req) (n : Nat) : Req × Nat :=
  match r with
  | .cred a va dbl op u cnt x _ => (.cred a va dbl op u cnt x n, n + 1)
  | r => (r, n)
/-- The contributions that a core still keeps are numbered from a number on, in their order (R112), and the next number. -/
def numberHold (es : List Hold) (n : Nat) : List Hold × Nat :=
  es.foldl (fun st e => let r := e.req.numbered st.2; (st.1 ++ [{ e with req := r.1 }], r.2)) ([], n)
def numberOps (es : List StoreOp) (n : Nat) : List StoreOp × Nat :=
  es.foldl (fun st o => match o.act with
    | .req r => let x := r.numbered st.2; (st.1 ++ [{ o with act := .req x.1 }], x.2)
    | _ => (st.1 ++ [o], st.2)) ([], n)
/-- A loaded core's sequence numbers go on from those that the core has used as a source, so that no receiver takes its
effects for earlier ones (R112, R268). -/
def Live.renumber (l now : Live) (cred : Nat) : Live :=
  { l with
    prod := { l.prod with cred := cred }
    copies := Vector.ofFn fun (e : EntryNo) =>
      let x := l.copies[e]
      { x with seq := (now.copies[e]).seq, ends := x.ends.map fun t => { t with seq := 0 } } }
/-- A core loaded from its slot (R334, R335, R340, R362): the registers, the walker's words and the buffers as the slot holds
them, the rest as it was kept. Every cast is the stop cast. A master that the header or a freeze since names stays
frozen (R317). -/
def State.readSlot (s : State) (c : CoreId) (asid : Byte) (img : Core) (a : Nat) : State :=
  let m := (s.peek a 8).1 / 2 ^ 25
  let wb := s.slotBuf (a + 0x0F0000) (bufSize .wb)
  let ab := s.slotBuf (a + 0x4F0000) (bufSize .ab)
  let cb := s.slotBuf (a + 0x7F0000) (bufSize .cb)
  let word := fun (o i : Nat) => BitVec.ofNat 64 (s.peek (a + o + 8 * i) 8).1
  let live := { img.live with
    front := { img.live.front with regs := Regs.ofSlot (word 0x1000) }
    walker := Walker.ofSlot (word 0x2C000) }
  let here := (s.parked.filter fun x => x.1 == a && x.2.src == c).map (·.2)
  let s := { s with net := s.net ++ here, parked := s.parked.filter fun x => x.1 != a || x.2.src != c }
  s.modCore c fun k =>
    let z := k.regs.freeze
    let hold := numberHold img.flow.hold k.live.prod.cred
    let ops := numberOps img.flow.storeQ hold.2
    let fz : Freeze := ⟨m % 2 == 1 || z.fe, m / 2 % 2 == 1 || z.ce, m / 4 % 2 == 1 || z.bw,
      if z.fe || z.ce || z.bw then z.viol else img.regs.freeze.viol⟩
    let cast : Cast := match img.casts with
      | x :: _ => { x with live := live.renumber k.live ops.2, cyc := 0 }
      | [] => { img.castOf 0 s.ptime with live := live.renumber k.live ops.2 }
    let k := { k with
      live := live.renumber k.live ops.2
      store := { img.store with wb := wb, ab := ab, cb := cb }
      flow := { img.flow with hold := hold.1, storeQ := ops.1, depCopy := k.live.copies.map fun (x : CopyEntry) => x.seq }
      regs := { k.regs with asid := asid, freeze := fz }
      run := { k.run with job := img.run.job, lastAsid := some asid, stop := .none }
      misses := []
      casts := List.replicate Config.casts cast }
    k.setFront (k.live.front.modAt fun p => { p with nextAt := s.cycle + 1 })
/-- A core's load completes (R335): its slot is read, or found unusable, which leaves it STOPPED. Of a slot that no save of
this device wrote, the program counter is a free word: the layout of what holds it is not stated (R334). -/
def execLoadComplete (c : CoreId) (s : State) : Outcome :=
  match (s.core c).run.stop with
  | .loading asid gang since =>
    let a := s.slotAddr asid c
    let fin := fun (s : State) =>
      if gang then s.modPart (s.pmapOf c) fun x => { x with switch := { x.switch with loads := x.switch.loads.filter (· != c) } }
      else s.ctxBusy c false
    if s.slotOk a c then
      if s.cycle < since + saveCycles then .next s
      else match s.images.find? fun x => x.1 == a with
        | some x => .next (fin (s.readSlot c asid x.2 a))
        | none =>
          let t := s.takeWord
          .next (fin (t.2.readSlot c asid (Core.reset.setFront (Core.reset.live.front.modAt fun p => { p with pc := t.1 })).image a))
    else .next (fin ((s.modCore c fun k => k.setStop .stopped).ctxError c))
  | _ => .next s

-- gang switching (R337 to R339, R402)

/-- FROM, TO and LOAD of SWITCH_CTL (R337). -/
def Part.from_ (x : Part) : Byte := x.switchCtl.setWidth 8
def Part.to_ (x : Part) : Byte := (x.switchCtl >>> 8).setWidth 8
def Part.load (x : Part) : Bool := x.switchCtl.getLsbD 16
/-- Ports that a partition owns (R389). -/
def State.portsOf (s : State) (p : PartId) : List PortId :=
  (List.finRange 8).filter fun q => s.enabled p && (s.pkg.rtabx[p]).getLsbD q.val
/-- The cores that a context's save area names (R333): its scheduler block is valid, and so is the core's slot. -/
def State.savedCores (s : State) (p : PartId) (a : Byte) : List CoreId :=
  let w := (s.peek (s.saveBase a) 8).1
  if w % 256 = 0x5C ∧ w / 2 ^ 8 % 256 = a.toNat ∧ w / 2 ^ 32 % 2 = 1 then
    (List.finRange 256).filter fun c => s.pmapOf c == p && s.slotOk (s.slotAddr a c) c
  else []
/-- A port stops carrying a context: it sends a marker of the partition (R339, R402), where its replay buffer takes one. Which
chip the marker names is open. -/
def State.pausePort (s : State) (p : PartId) (a : Byte) (q : PortId) : State :=
  let t := s.takeNat
  let s := if (s.ports[q]).ctl.getLsbD 0 && decide (s.ports[q].keep.length < 512) then t.2.transmit q p 2 t.1 [] else s
  s.modPort q fun y => { y with paused := a :: y.paused.filter (· != a) }
/-- At T the switch begins (R338): the context's queues are paused, its cores but the free ones are asked to stop, and the
partition's ports stop carrying it (R339). -/
def State.switchStart (s : State) (p : PartId) : State :=
  let x := s.part p
  let saves := (List.finRange 256).filter fun c => s.pmapOf c == p && (s.core c).regs.asid == x.from_ && (s.core c).run.stop == .none &&
    !(s.core c).run.inHold && !s.freeCore p c
  let s := saves.foldl (fun s c => s.modCore c fun k => k.setStop (.asked true s.cycle)) s
  let s := s.modPart p fun x => { x with switch :=
    { busy := true, done := false, saves := saves, loads := [], set_ := saves ++ (if x.load then s.savedCores p x.to_ else []), written := false
      paused := x.from_ :: x.switch.paused.filter (· != x.from_) } }
  (s.portsOf p).foldl (fun s q => s.pausePort p x.from_ q) (s.noteHeads p)
/-- The cores of TO that may start to load: STOPPED ones, and free ones; any other sets CTXERR. -/
def State.switchLoad (s : State) (p : PartId) : State :=
  let x := s.part p
  x.switch.loads.foldl (fun s c =>
    let r := (s.core c).run
    if x.switch.saves.contains c then s
    else match r.stop with
      | .stopped => s.modCore c fun k => k.setStop (.loading x.to_ true s.cycle)
      | .none =>
        if r.job.isNone && !r.inHold then s.modCore c fun k => k.setStop (.loading x.to_ true s.cycle)
        else (s.ctxError c).modPart p fun y => { y with switch := { y.switch with loads := y.switch.loads.filter (· != c) } }
      | _ => s) s
/-- 512 flits of 256 bytes from a physical address, those beyond a list zero. -/
def State.pokeFlits (s : State) (a : Nat) (xs : List VecWord) : State :=
  s.poke a ((List.range 512).flatMap fun i => toBytes 256 (xs.getD i 0).toNat)
/-- The flits among the 512 at a physical address. -/
def State.peekFlits (s : State) (a : Nat) : List VecWord :=
  ((List.range 512).map fun i => BitVec.ofNat 2048 (s.peek (a + 256 * i) 256).1).filter fun x => x != 0
/-- XBASE of a port's image (R402). -/
def State.xbase (s : State) (a : Nat) : Nat := (s.peek (a + 8) 8).1 / 4096 * 4096
/-- A port's flits for the context that is saved (R402): those held for it and those not acknowledged go to the extension
area, or, for want of one, stay in the port, which then carries no other context. -/
def State.stowPort (s : State) (asid : Byte) (a : Nat) (q : PortId) : State :=
  let y := s.ports[q]
  let mine := (y.heldIn.filter fun e => e.1 == asid).map (·.2)
  if y.kept.isSome then s
  else if s.xbase a = 0 then
    if mine.isEmpty && y.keep.isEmpty then s else s.modPort q fun y => { y with kept := some asid }
  else ((s.pokeFlits (s.xbase a) mine).pokeFlits (s.xbase a + 0x20000) (y.keep.map (·.flit))).modPort q fun y =>
    { y with heldIn := y.heldIn.filter (fun e => e.1 != asid), keep := [], txOld := y.tx }
/-- The image of a port in a scheduler block (R402). Which circuits its 64 entries number is not stated: they are free. -/
def State.writePort (s : State) (a : Nat) (q : PortId) : State :=
  let y := s.ports[q]
  let s := s.pokeWord a (BitVec.ofNat 64 (0x1E + q.val * 2 ^ 8 + 2 ^ 11))
  let s := s.pokeWords (a + 0x10) [BitVec.ofNat 64 y.tx, BitVec.ofNat 64 y.rx, BitVec.ofNat 64 y.rx]
  State.pokeFree 128 (a + 0x40) s
/-- A set of cores as a map of 256 bits in four words, in the style of MEMBERS (R44, R333). -/
def coreMap (cs : List CoreId) : List Word :=
  (List.range 4).map fun i => BitVec.ofNat 64 ((List.range 64).foldl (fun n b => if cs.contains (Fin.ofNat 256 (64 * i + b)) then n + 2 ^ b else n) 0)
/-- An entry of a running launch in a scheduler block (R333): its record address; VAHI and PRIO; the next iteration; and the
map of its cores. -/
def State.writeRunning (s : State) (a : Nat) (l : Launch) : State :=
  s.pokeWords a ([l.va, BitVec.ofNat 64 (l.lrec.vahi.toNat + l.lrec.prio.val * 2 ^ 8), BitVec.ofNat 64 l.next, 0] ++ coreMap l.cores)
/-- A running launch takes up what its entry in a scheduler block says (R338). -/
def State.readRunning (s : State) (p : PartId) (asid : Byte) (a : Nat) : State :=
  let w := fun (i : Nat) => (s.peek (a + 8 * i) 8).1
  s.modPart p fun x => { x with running := x.running.map fun (l : Launch) =>
    if l.asid = asid ∧ l.va.toNat = w 0 then
      { l with next := w 2, cores := (List.finRange 256).filter fun c => (w (4 + c.val / 64)).testBit (c.val % 64) }
    else l }
/-- The scheduler block of a context (R333). -/
def State.writeBlock (s : State) (p : PartId) (asid : Byte) : State :=
  let base := s.saveBase asid
  if !localHbm (base + 0xFFFF) then s
  else
    let ls := (s.part p).running.filter fun l => l.asid == asid
    let s := s.pokeWords base [BitVec.ofNat 64 (0x5C + asid.toNat * 2 ^ 8 + ls.length % 512 * 2 ^ 16 + 2 ^ 32), BitVec.ofNat 64 s.ptime]
    let s := ((List.range ls.length).zip ls).foldl (fun s x => s.writeRunning (base + 0x40 + 64 * x.1) x.2) s
    let s := (List.finRange 64).foldl (fun s q =>
      let y := s.lqueue p q
      if y.ctx.setWidth 8 = asid then s.pokeWords (base + 0x4400 + 64 * q.val) (y.image s.cycle) else s) s
    (s.portsOf p).foldl (fun s q =>
      (s.writePort (base + 0x6000 + 4096 * q.val) q).stowPort asid (base + 0x6000 + 4096 * q.val) q) s
/-- What a port takes up from its image (R402): its sequence numbers, and the flits of the extension area: those held, and
those to be sent again. -/
def State.unstowPort (s : State) (to_ : Byte) (a : Nat) (q : PortId) : State :=
  let w := fun (o : Nat) => (s.peek (a + o) 8).1 % 2 ^ 32
  let x := s.xbase a
  let held := if x = 0 then [] else s.peekFlits x
  let sent := if x = 0 then [] else s.peekFlits (x + 0x20000)
  s.modPort q fun y =>
    { y with
      tx := w 0x10, rx := w 0x18, ahead := [], keep := sent.map fun f => ⟨kltSeq f, f, 1⟩
      txOld := match sent.head? with
        | some f => kltSeq f
        | none => w 0x10
      heldIn := y.heldIn ++ held.map fun f => (to_, f) }
/-- A port runs again for the context that has been loaded, with what its image holds, unless the port keeps it in its own
buffers; a port that keeps those of another context goes on without (R402). -/
def State.resumePort (s : State) (to_ : Byte) (q : PortId) : State :=
  let a := s.saveBase to_ + 0x6000 + 4096 * q.val
  let h := (s.peek a 8).1
  let s := match s.ports[q].kept with
    | some b => if b = to_ then s.modPort q fun y => { y with kept := none } else s
    | none => if h % 2 ^ 8 = 0x1E ∧ h / 2 ^ 8 % 8 = q.val ∧ h / 2 ^ 11 % 2 = 1 then s.unstowPort to_ a q else s
  s.modPort q fun y => { y with paused := y.paused.filter (· != to_) }
/-- The switch ends (R338). -/
def State.switchEnd (s : State) (p : PartId) : State :=
  let x := s.part p
  let load := x.load && s.resident x.to_ p
  let s := s.modPart p fun x => { x with switch :=
    { x.switch with busy := false, done := true, set_ := [], paused := if load then x.switch.paused.filter (· != x.to_) else x.switch.paused } }
  let s := if load then (s.portsOf p).foldl (fun s q => s.resumePort x.to_ q) s else s
  s.noteHeads p
/-- Once every core of FROM has stopped, its scheduler block is written, and TO's block names the cores to load (R338). With
a TO that is not RESIDENT the switch saves only, and those cores have their CTXERR bits set (R337). -/
def State.switchTurn (s : State) (p : PartId) : State :=
  let x := s.part p
  let stopped := x.switch.saves.all fun c => match (s.core c).run.stop with
    | .asked .. => false
    | _ => true
  if x.switch.written || !stopped then s
  else
    let s := s.writeBlock p x.from_
    let loads := if x.load then s.savedCores p x.to_ else []
    let ok := s.resident x.to_ p
    let s := if !ok then loads.foldl State.ctxError s
      else if x.load then
        (List.range ((s.peek (s.saveBase x.to_) 8).1 / 2 ^ 16 % 2 ^ 9)).foldl (fun s j => s.readRunning p x.to_ (s.saveBase x.to_ + 0x40 + 64 * j)) s
      else s
    s.modPart p fun y => { y with switch := { y.switch with written := true, loads := if ok then loads else [], set_ := y.switch.set_ ++ loads } }
/-- A gang switch begins at its package time, lets cores load, or ends once no core is left to save or load (R337,
R338). -/
def execGangSwitch (p : PartId) (s : State) : Outcome :=
  let x := s.part p
  if x.switch.busy then
    let s := (s.switchTurn p).switchLoad p
    let y := (s.part p).switch
    .next (if y.written && y.saves.isEmpty && y.loads.isEmpty then s.switchEnd p else s)
  else if x.switchAt ≠ 0 ∧ !x.switch.done ∧ x.switchAt.toNat ≤ s.ptime then .next (s.switchStart p)
  else .next s

end Sys2Proof.Machine
end

