-- ==== Sys2Proof/Machine/Registers.lean ====
section
/-! DEFINITION. The system registers: their levels, what a read gives and what a write does (R309, R310, R315, R323
to R326, R337, R354, R363, R375, R376, R382 to R390). -/

namespace Sys2Proof.Machine

/-- Level that an access to a register needs (R309, R326, R354, R375, R389, R390). -/
def regLevel (n : Nat) (write : Bool) : Level :=
  if 0x100 ≤ n ∧ n ≤ 0x10B then .m
  else if n = 0x200 ∨ (0x304 ≤ n ∧ n ≤ 0x307) ∨ n = 0x400 ∨ n = 0x600 ∨ (0x780 ≤ n ∧ n ≤ 0x783) ∨ n = 0x787 ∨ n = 0x788 ∨ n = 0x7C0
  then (if write then .m else .s)
  else if 0x300 ≤ n ∧ n ≤ 0x303 then .u
  else if n = 0x205 ∨ (0x401 ≤ n ∧ n ≤ 0x408) ∨ (0x608 ≤ n ∧ n ≤ 0x61F) ∨ (0x700 ≤ n ∧ n ≤ 0x76F) then .m
  else .s

/-- Register i of a trap frame (R309). -/
def Frame.read (x : Frame) (i : Nat) : Word :=
  match i with
  | 0 => x.pc
  | 1 => x.cause
  | 2 => x.info
  | 3 => x.stat
  | 4 => x.loops.ls0
  | 5 => x.loops.le0
  | 6 => x.loops.lc0
  | 7 => x.loops.ls1
  | 8 => x.loops.le1
  | 9 => x.loops.lc1
  | 10 => x.vec
  | _ => x.scratch
/-- TRAP_STAT as it is stored (R310). -/
def statStored (v : Word) : Word := if v.toNat % 4 = 3 then v &&& 0x1FFC else v &&& 0x1FFF
/-- A write of register i of a trap frame. -/
def Frame.write (x : Frame) (i : Nat) (v : Word) : Frame :=
  match i with
  | 0 => { x with pc := v }
  | 1 => { x with cause := v &&& 0xFF }
  | 2 => { x with info := v }
  | 3 => { x with stat := statStored v }
  | 4 => { x with loops := { x.loops with ls0 := v } }
  | 5 => { x with loops := { x.loops with le0 := v } }
  | 6 => { x with loops := { x.loops with lc0 := v } }
  | 7 => { x with loops := { x.loops with ls1 := v } }
  | 8 => { x with loops := { x.loops with le1 := v } }
  | 9 => { x with loops := { x.loops with lc1 := v } }
  | 10 => { x with vec := v }
  | _ => { x with scratch := v }

/-- FEATURE0 to FEATURE3 of the Wienalu (R324). -/
def featureWord (i : Nat) : Word := if i = 0 then 0x3F else if i = 1 then 7 else 0
/-- Any master of a core is frozen (R386). -/
def Core.anyFrozen (k : Core) : Bool := k.regs.freeze.fe || k.regs.freeze.ce || k.regs.freeze.bw
/-- FRZ(d) of a partition (R386): its frozen cores on a die. -/
def State.frz (s : State) (p : PartId) (d : DieId) : Word :=
  BitVec.ofNat 64 ((List.range 64).foldl (fun n i =>
    let c : CoreId := Fin.ofNat 256 (64 * d.val + i)
    if s.pmapOf c == p && (s.core c).anyFrozen then n + 2 ^ i else n) 0)
/-- FRZP of a partition (R386): its frozen ports. -/
def State.frzp (s : State) (p : PartId) : Word :=
  BitVec.ofNat 64 ((List.finRange 8).foldl (fun n q =>
    if (s.pkg.rtabx[p]).getLsbD q.val && s.ports[q].frozen then n + 2 ^ q.val else n) 0)
/-- BUD_USED on a die (R389). -/
def Budgets.usedWord (b : Budgets) (d : DieId) : Word :=
  let u := fun (m : Fin 4) => min 0xFFFF (b.used[d][m])
  BitVec.ofNat 64 (u 0 + u 1 * 2 ^ 16 + u 2 * 2 ^ 32 + u 3 * 2 ^ 48)
/-- TLB_STAT (R354). -/
def Core.tlbStat (k : Core) : Word := BitVec.ofNat 64 (k.tlb.length % 512 * 128 + (k.misses.countP fun m => !m.failed) % 128)

/-- A register of a partition (R326, R363, R375, R389). -/
def State.readPart (s : State) (p : PartId) (d : DieId) (n : Nat) : Word :=
  let x := s.part p
  if n < 0x540 then x.queues[(Fin.ofNat 64 n : QueueNo)].cfg
  else if n < 0x580 then x.queues[(Fin.ofNat 64 n : QueueNo)].ptr
  else if n < 0x5C0 then x.queues[(Fin.ofNat 64 n : QueueNo)].ctx
  else if n = 0x5C1 then x.dstat
  else if n = 0x5C2 then x.switchAt
  else if n = 0x5C3 then x.switchCtl
  else if n = 0x5C4 then BitVec.ofNat 64 ((if x.switch.done then 2 else 0) + if x.switch.busy then 1 else 0)
  else if n < 0x5C9 then (x.ctxBusy >>> (64 * (n - 0x5C5))).setWidth 64
  else if n < 0x5CD then (x.ctxErr >>> (64 * (n - 0x5C9))).setWidth 64
  else if n = 0x600 then x.logs.rlogBase
  else if n = 0x601 then BitVec.ofNat 64 x.logs.rlogHead.val
  else if n = 0x602 then BitVec.ofNat 64 (x.logs.reports.toNat + x.logs.rollbacks.toNat * 2 ^ 32)
  else if n < 0x784 then x.budgets.regs[(Fin.ofNat 4 n : Fin 4)]
  else if n = 0x784 then x.budgets.usedWord d
  else if n = 0x785 then x.logs.pevent.setWidth 64
  else if n = 0x786 then x.logs.evaddr
  else if n = 0x787 then x.logs.dlkBase
  else if n = 0x788 then x.logs.glogBase
  else if n = 0x789 then BitVec.ofNat 64 x.logs.glogHead.val
  else if n < 0x78E then s.frz p (Fin.ofNat 4 (n - 0x78A))
  else s.frzp p
/-- A register of a core (R309, R354, R375, R390). -/
def State.readCore (s : State) (c : CoreId) (n : Nat) : Word :=
  let k := s.core c
  if n < 0x100 then k.live.front.sFrame.read n
  else if n < 0x200 then k.live.front.mFrame.read (n - 0x100)
  else if n = 0x200 then BitVec.ofNat 64 ((s.pmapOf c).val * 256 + k.regs.asid.toNat)
  else if n = 0x201 then BitVec.ofNat 64 k.regs.freeze.stat
  else if n = 0x202 then k.regs.faultBase
  else if n = 0x203 then BitVec.ofNat 64 k.regs.faultHead.val
  else if n = 0x204 then (if k.regs.poisonCont then 1 else 0)
  else if n = 0x409 then k.tlbStat
  else if n = 0x620 then k.regs.sramCe.setWidth 64
  else BitVec.ofNat 64 (k.regs.feedUsed % 2 ^ 13 * 2 ^ 32 + k.regs.feed)
/-- A register of the package (R309, R324, R325, R354, R375, R389). -/
def PkgRegs.read (g : PkgRegs) (n : Nat) : Word :=
  if n = 0x205 then g.ctxdir
  else if n < 0x304 then featureWord (n - 0x300)
  else if n = 0x304 then g.accept
  else if n < 0x308 then 0
  else if n = 0x400 then g.chipid.setWidth 64
  else if n < 0x409 then g.mdbase[(Fin.ofNat 8 (n - 0x401) : StackId)]
  else if n < 0x60C then (g.mscCe[(Fin.ofNat 4 (n - 0x608) : DieId)]).setWidth 64
  else if n < 0x618 then g.hbmErr[(Fin.ofNat 8 (n - 0x610) : StackId)]
  else if n < 0x620 then (g.hbmScrub[(Fin.ofNat 8 (n - 0x618) : StackId)]).setWidth 64
  else if n < 0x710 then g.pmap[(Fin.ofNat 16 (n - 0x700) : Fin 16)]
  else if n = 0x710 then g.pctl
  else if n < 0x715 then g.cal[(Fin.ofNat 4 (n - 0x711) : Fin 4)]
  else if n < 0x760 then g.rtab[(Fin.ofNat 64 (n - 0x720) : Fin 64)]
  else g.rtabx[(Fin.ofNat 16 (n - 0x760) : Fin 16)]
/-- Which block a register belongs to. -/
inductive RegHome | core | part | pkg
  deriving DecidableEq, Repr
def regHome (n : Nat) : RegHome :=
  if n < 0x205 ∨ n = 0x409 ∨ n = 0x620 ∨ n = 0x7C0 then .core
  else if (0x500 ≤ n ∧ n < 0x608) ∨ (0x780 ≤ n ∧ n < 0x7C0) then .part
  else .pkg
/-- A read of a register through a core; a write-only one reads zero (R7). -/
def State.readReg (s : State) (c : CoreId) (r : BitVec 12) : Word × State :=
  let n := r.toNat
  if n = 0x5C0 then (0, s)
  else if n = 0x409 ∧ 512 ≤ (s.core c).tlb.length then
    -- 512 entries have no code in the nine bits of VALID (R354)
    let t := s.takeNat
    (BitVec.ofNat 64 (t.1 % 512 * 128 + (s.readCore c n).toNat % 128), t.2)
  else match regHome n with
    | .core => (s.readCore c n, s)
    | .part => (s.readPart (s.pmapOf c) c.die n, s)
    | .pkg => (s.pkg.read n, s)

-- writes: none where the write raises BOUNDS and writes nothing

/-- A core with its registers changed. -/
def Core.modRegs (k : Core) (f : CoreRegs → CoreRegs) : Core := { k with regs := f k.regs }
/-- A partition's queue register written at a time at which software must not write it takes the old value or the
new one (R326). -/
def State.queueWrite (s : State) (p : PartId) (q : QueueNo) (f : LQueue → LQueue) : State :=
  let y := s.lqueue p q
  if bits y.cfg 6 2 = 0 ∧ y.length = 0 then (s.modQueue p q f).rebuild p q
  else
    let t := s.takeNat
    if t.1 % 2 = 1 then (t.2.modQueue p q f).rebuild p q else t.2
/-- LQ_CFG (R326). -/
def State.writeLqCfg (s : State) (p : PartId) (q : QueueNo) (v : Word) : Option State :=
  if !s.lqCfgOk p v then none
  else some (s.queueWrite p q fun y => { y with cfg := BitVec.ofNat 64 (bits v 6 50 * 64) })
/-- A log register: base bits from `lo` to 55 and EN, in local HBM (R363, R390). -/
def baseWord (lo : Nat) (v : Word) : Option Word :=
  let a := bits v lo (56 - lo) * 2 ^ lo
  if localHbm a then some (BitVec.ofNat 64 (a + v.toNat % 2)) else none
/-- A partition with its logs changed. -/
def State.modLogs (s : State) (p : PartId) (f : PartLogs → PartLogs) : State := s.modPart p fun x => { x with logs := f x.logs }
/-- SWITCH_AT (R337). -/
def State.writeSwitchAt (s : State) (p : PartId) (v : Word) : Option State :=
  if (s.part p).switch.busy then none
  else some (s.modPart p fun x => { x with switchAt := v, switch := { x.switch with done := false } })
/-- A budget register (R389): in force from the next window. -/
def State.writeBudget (s : State) (p : PartId) (m : Fin 4) (v : Word) : State :=
  s.modPart p fun x => { x with budgets := { x.budgets with
    regs := x.budgets.regs.set m (v &&& (if m = 2 then 0xFFFF00FFFFFF else 0xFFFFFF)) } }
/-- A register of a partition written. -/
def State.writePart (s : State) (c : CoreId) (p : PartId) (n : Nat) (v : Word) : Option State :=
  let q : QueueNo := Fin.ofNat 64 n
  if n < 0x540 then s.writeLqCfg p q v
  else if n < 0x580 then some (s.queueWrite p q fun y => { y with ptr := v })
  else if n < 0x5C0 then some (s.queueWrite p q fun y => { y with ctx := v &&& 0xFFFF })
  else if n = 0x5C0 then some (s.doorbell p (some c) v)
  else if n = 0x5C2 then s.writeSwitchAt p v
  else if n = 0x5C3 then
    if (s.part p).switch.busy then none else some (s.modPart p fun x => { x with switchCtl := v &&& 0x1FFFF })
  else if 0x5C9 ≤ n ∧ n < 0x5CD then
    some (s.modPart p fun x => { x with ctxErr := x.ctxErr &&& ~~~((v.setWidth 256) <<< (64 * (n - 0x5C9))) })
  else if n = 0x600 then (baseWord 12 v).map fun w => s.modLogs p fun g => { g with rlogBase := w }
  else if n = 0x601 then some (s.modLogs p fun g => { g with rlogHead := Fin.ofNat 64 v.toNat })
  else if 0x780 ≤ n ∧ n < 0x784 then some (s.writeBudget p (Fin.ofNat 4 n) v)
  else if n = 0x785 then some (s.modLogs p fun g => { g with pevent := g.pevent &&& ~~~(v.setWidth 4) })
  else if n = 0x786 then some (s.modLogs p fun g => { g with evaddr := BitVec.ofNat 64 (bits v 3 53 * 8 + v.toNat % 2) })
  else if n = 0x787 then (baseWord 13 v).map fun w => s.modLogs p fun g => { g with dlkBase := w }
  else if n = 0x788 then (baseWord 12 v).map fun w => s.modLogs p fun g => { g with glogBase := w }
  else if n = 0x789 then some (s.modLogs p fun g => { g with glogHead := Fin.ofNat 64 v.toNat })
  else some s
/-- CORE_CTL (R323). -/
def State.writeCoreCtl (s : State) (c : CoreId) (v : Word) : Option State :=
  let a : Byte := v.setWidth 8
  if s.resident a (s.pmapOf c) then some (s.modCore c fun k => k.modRegs fun r => { r with asid := a }) else none
/-- FEED_BUD (R390): in force from the next window. -/
def State.writeFeed (s : State) (c : CoreId) (v : Word) : State :=
  s.modCore c fun k => k.modRegs fun r => { r with feed := min 4096 (v.toNat % 2 ^ 13) }
/-- A register of a core written. -/
def State.writeCore (s : State) (c : CoreId) (n : Nat) (v : Word) : Option State :=
  if n < 0x100 then some (s.modFront c fun f => { f with sFrame := f.sFrame.write n v })
  else if n < 0x200 then some (s.modFront c fun f => { f with mFrame := f.mFrame.write (n - 0x100) v })
  else if n = 0x200 then s.writeCoreCtl c v
  else if n = 0x202 then
    some (s.modCore c fun k => k.modRegs fun r => { r with faultBase := BitVec.ofNat 64 (faultPage v + v.toNat % 2) })
  else if n = 0x203 then some (s.modCore c fun k => k.modRegs fun r => { r with faultHead := Fin.ofNat 64 v.toNat })
  else if n = 0x204 then some (s.modCore c fun k => k.modRegs fun r => { r with poisonCont := v.getLsbD 0 })
  else if n = 0x7C0 then some (s.writeFeed c v)
  else some s
/-- A core may change its partition, or have it disabled (R376). -/
def State.mayMove (s : State) (c : CoreId) : Bool :=
  let k := s.core c
  k.run.job.isNone && k.run.stop != .stopped && !k.anyFrozen && !s.resident k.regs.asid (s.pmapOf c)
/-- PMAP(i) (R376, R389). -/
def State.writePmap (s : State) (i : Fin 16) (v : Word) : Option State :=
  let moved := (List.range 16).filter fun j => bits v (4 * j) 4 != bits (s.pkg.pmap[i]) (4 * j) 4
  if moved.all fun j => s.mayMove (Fin.ofNat 256 (16 * i.val + j)) then
    some { s with pkg := { s.pkg with pmap := s.pkg.pmap.set i v } }
  else none
/-- PCTL (R376, R389); STRICT is in force from the next window. -/
def State.writePctl (s : State) (v : Word) : Option State :=
  let off := (List.finRange 256).filter fun c => s.pkg.pctl.getLsbD (s.pmapOf c).val && !v.getLsbD (s.pmapOf c).val
  if off.all s.mayMove then some { s with pkg := { s.pkg with pctl := v &&& 0x1FFFF } } else none
/-- RTABX(p) (R389). -/
def State.writeRtabx (s : State) (p : PartId) (v : Word) : Option State :=
  let t := s.pkg.rtabx.set p (v &&& 0xFFFFFFFFF)
  let walks := (List.finRange 16).foldl (fun n i => if s.enabled i then n + bits t[i] 28 8 else n) 0
  let clash := (List.range 8).any fun q => decide (2 ≤ (List.finRange 16).countP fun i => (t[i]).getLsbD q)
  if 256 < walks ∨ clash then none else some { s with pkg := { s.pkg with rtabx := t } }
/-- MDBASE(s) (R354). -/
def State.writeMdbase (s : State) (i : StackId) (v : Word) : Option State :=
  let a := bits v 25 31 * 2 ^ 25
  if localHbm a then some { s with pkg := { s.pkg with mdbase := s.pkg.mdbase.set i (BitVec.ofNat 64 a) } } else none
/-- ACCEPT0 to ACCEPT2 (R325): bits 64 and above always read 0. -/
def PkgRegs.writeAccept (g : PkgRegs) (i : Nat) (v : Word) : PkgRegs :=
  if g.locked ∨ i ≠ 0 then g else { g with accept := (v &&& featureWord 0) ||| 1 }
/-- A write of ACCEPT3 locks the set (R325). -/
def PkgRegs.lockAccept (g : PkgRegs) : PkgRegs := { g with locked := true }
/-- A register of the package written. -/
def State.writePkg (s : State) (n : Nat) (v : Word) : Option State :=
  let g := s.pkg
  if n = 0x205 then some { s with pkg := { g with ctxdir := BitVec.ofNat 64 (v.toNat / 2 ^ 12 * 2 ^ 12) } }
  else if 0x304 ≤ n ∧ n < 0x307 then some { s with pkg := g.writeAccept (n - 0x304) v }
  else if n = 0x307 then some { s with pkg := g.lockAccept }
  else if n = 0x400 then some { s with pkg := { g with chipid := v.setWidth 16 } }
  else if 0x401 ≤ n ∧ n < 0x409 then s.writeMdbase (Fin.ofNat 8 (n - 0x401)) v
  else if 0x700 ≤ n ∧ n < 0x710 then s.writePmap (Fin.ofNat 16 (n - 0x700)) v
  else if n = 0x710 then s.writePctl v
  else if 0x711 ≤ n ∧ n < 0x715 then some { s with pkg := { g with cal := g.cal.set (Fin.ofNat 4 (n - 0x711)) v } }
  else if 0x720 ≤ n ∧ n < 0x760 then some { s with pkg := { g with rtab := g.rtab.set (Fin.ofNat 64 (n - 0x720)) v } }
  else if 0x760 ≤ n ∧ n < 0x770 then s.writeRtabx (Fin.ofNat 16 (n - 0x760)) v
  else some s
/-- A write of a register through a core; an RO register ignores it (R311). -/
def State.writeReg (s : State) (c : CoreId) (r : BitVec 12) (v : Word) : Option State :=
  let n := r.toNat
  match regHome n with
  | .core => s.writeCore c n v
  | .part => s.writePart c (s.pmapOf c) n v
  | .pkg => s.writePkg n v

end Sys2Proof.Machine
end

