-- ==== Sys2Proof/Machine/System.lean ====
section
/-! DEFINITION. The words and events of the system family: registers, `tlbi`, `cast`, `freeze` and `thaw`, and the
faults of engines (R220, R311, R314, R317 to R319, R351, R352). -/

namespace Sys2Proof.Machine

/-- The level that `prd` or `pwr` of a register needs: S at least, as the instruction itself does (R137, R309). -/
def accessLevel (n : Nat) (write : Bool) : Level := if regLevel n write = .u then .s else regLevel n write
/-- R311: the register as it stands at issue. -/
def execPrd (h : Hdr) (r : BitVec 12) (d : SReg) (s : State) : Outcome :=
  s.issue (.prd h r d) h { dsts := [.s d], level := accessLevel r.toNat false } fun s =>
    if !s.me.logRoom then .next s
    else
      let x := s.readReg s.cur r
      .next (x.2.deliver h d 6 x.1)

/-- R311: a write that a register refuses raises BOUNDS and writes nothing. TRAP_INFO of that trap is not stated. A doorbell
is not applied in the cycle of one of a higher route identifier (R327). -/
def execPwr (h : Hdr) (r : BitVec 12) (a : SReg) (s : State) : Outcome :=
  s.issue (.pwr h r a) h { srcs := [(.s a, h.pda)], level := accessLevel r.toNat true } fun s =>
    let v := s.me.live.front.srcS a h.pda
    if r = 0x5C0 ∧ !s.tieFree (tieQueue (s.pmapOf s.cur) (Fin.ofNat 64 v.toNat)) (s.frontRoute s.cur) then .next s
    else match s.writeReg s.cur r v with
    | some s => .next (s.retire h none {})
    | none =>
      let t := s.takeWord
      .next (t.2.trapHere .bounds t.1)

/-- A context's directory entry names another partition (R351). -/
def State.ctxElsewhere (s : State) (a : Byte) (p : PartId) : Bool :=
  s.ctxPart a != p
/-- IMM34 of a `tlbi` (R351). -/
def tlbiImm (x : TlbScope) (k : TlbKind) : Word :=
  let sc := match x with
    | .core => 0
    | .part => 1
    | .pkg => 2
  let kind := match k with
    | .all => 0
    | .asid n => 2 ^ 16 + n.toNat
    | .va _ hi n => 2 * 2 ^ 16 + hi.toNat * 2 ^ 8 + n.toNat
  BitVec.ofNat 64 (sc * 2 ^ 18 + kind)
/-- What a `tlbi` may not name at level S (R351). -/
def State.tlbiDenied (s : State) (x : TlbScope) (k : TlbKind) : Bool :=
  s.me.live.front.level == .s &&
  (x == .pkg || match k with
    | .all => false
    | .asid n => s.ctxElsewhere n (s.pmapOf s.cur)
    | .va _ _ n => s.ctxElsewhere n (s.pmapOf s.cur))
/-- R352: the word joins the store stream as a release at package scope, and removes its entries there. -/
def execTlbi (h : Hdr) (x : TlbScope) (k : TlbKind) (s : State) : Outcome :=
  let srcs := match k with
    | .va a _ _ => [(Reg.s a, h.pda)]
    | _ => []
  s.issue (.tlbi h x k) h { srcs := srcs, level := .s, engine := true } fun s =>
    if s.tlbiDenied x k then .next (s.trapHere .bounds (tlbiImm x k))
    else
      let va := match k with
        | .va a _ _ => s.me.live.front.srcS a h.pda
        | _ => 0
      let s := s.modCore s.cur fun c => c.pushGate s.cur s.cycle (.tlbi x k va) .pkg h.tag
      .next (s.retire h none { holdTag := true })

/-- A field of a cast (R319). -/
def Core.castField (k : Core) (f : CastField) (j : Fin 4) : Word :=
  match k.casts[j.val]?, f with
  | none, .stat => 0
  | none, _ => BitVec.allOnes 64
  | some c, .cyc => BitVec.ofNat 64 c.cyc
  | some c, .ns => BitVec.ofNat 64 c.ns
  | some c, .stat => if c.usable then 3 else 1
/-- R319: the cast store as it stands, never from the replay log. -/
def execCast (h : Hdr) (d : SReg) (f : CastField) (j : Fin 4) (s : State) : Outcome :=
  s.issue (.cast h d f j) h { dsts := [.s d], level := .s } fun s =>
    let p := s.me.live.front.pendOf (.s d) (wordOf (BitVec.allOnes 64)) (s.cycle + 6) (some (wordOf (s.me.castField f j)))
    .next (s.retire h none { pend := some p })

/-- The request of a `freeze` or `thaw`, or none where its target is refused (R318). -/
def State.freezeReq (s : State) (f : FreezeSel) (x : Word) (thaw : Bool) : Option Req :=
  let p := s.pmapOf s.cur
  match f with
  | .core mask =>
    let t := targetOf x
    if x.toNat / 2 ^ 8 ≠ 0 ∨ (s.me.live.front.level = .s ∧ s.pmapOf t ≠ p) then none else some (.freeze t.val false mask thaw)
  | .port lk =>
    let q := x.toNat % 8
    if x.toNat / 2 ^ 3 ≠ 0 ∨ !(s.pkg.rtabx[p]).getLsbD q then none else some (.freeze q true (if lk then 1 else 0) thaw)
/-- A `freeze` or `thaw` joins the store stream (R318, R359). -/
def State.freezeWord (s : State) (i : Instr) (h : Hdr) (f : FreezeSel) (a : SReg) (thaw : Bool) : Outcome :=
  s.issue i h { srcs := [(.s a, h.pda)], level := .s } fun s =>
    let x := s.me.live.front.srcS a h.pda
    match s.freezeReq f x thaw with
    | none => .next (s.trapHere .bounds x)
    | some r => s.storeWord h (.req r) none
def execFreeze (h : Hdr) (f : FreezeSel) (a : SReg) (s : State) : Outcome := s.freezeWord (.freeze h f a) h f a false
def execThaw (h : Hdr) (f : FreezeSel) (a : SReg) (s : State) : Outcome := s.freezeWord (.thaw h f a) h f a true

/-- The partition that owns a port (R389). -/
def State.ownerOf (s : State) (q : PortId) : Option PartId := (List.finRange 16).find? fun p => (s.pkg.rtabx[p]).getLsbD q.val
/-- A link endpoint freezes (R317): its owner's FROZEN event follows. -/
def State.freezePort (s : State) (q : PortId) (viol : Fin 16) : State :=
  let s := s.modPort q fun x => { x with frozen := true, viol := viol }
  match s.ownerOf q with
  | some p => s.signal p 0
  | none => s
/-- Named masters of a core are released (R317, R318). -/
def Core.thaw (k : Core) (mask : Fin 8) : Core :=
  let k := { k with run := { k.run with drops := k.run.drops.filter fun e => !mask.val.testBit (e.2.1 / 256 % 4) } }
  k.modRegs fun r => { r with freeze := { r.freeze with
    fe := r.freeze.fe && !(mask.val.testBit 0), ce := r.freeze.ce && !(mask.val.testBit 1), bw := r.freeze.bw && !(mask.val.testBit 2) } }
/-- A `freeze` or `thaw` that has reached its target, applied (R317, R318). -/
def State.applyFreeze (s : State) (target : Nat) (port : Bool) (mask : Fin 8) (thaw : Bool) : State :=
  if port then
    let q : PortId := Fin.ofNat 8 target
    if mask = 0 then s else if thaw then s.modPort q fun x => { x with frozen := false } else s.freezePort q 4
  else
    let c : CoreId := Fin.ofNat 256 target
    if mask = 0 then s
    else if thaw then (s.modCore c fun k => k.thaw mask).tryEnter c
    else s.freezeCore c (mask.val.testBit 0) (mask.val.testBit 1) (mask.val.testBit 2) 4 none
/-- The operation reaches its target (R318): those of one core arrive in their order, those of one cycle lowest route
identifier first. -/
def execFreezeApply (msg : Nat) (s : State) : Outcome :=
  match s.msg msg with
  | none => .next s
  | some m =>
    match m.hold.req with
    | .freeze target port mask thaw =>
      let older := s.net.any fun (x : Msg) => x.src == m.src && decide (x.hold.num < m.hold.num) && match x.hold.req with
        | .freeze .. => true
        | _ => false
      let key := if port then tiePort (Fin.ofNat 8 target) else tieCore (Fin.ofNat 256 target)
      if older || m.dropped.isSome || !s.served m.part || !s.tieFree key m.route || (s.guard m.part m.src m.hold.req.dest.1).isSome then .next s
      else .next ((((s.applyFreeze target port mask thaw).tie key m.route).dropMsg msg).touch m.part)
    | _ => .next s

-- faults of engines (R220, R314)

/-- A trap that the front end has not taken. -/
def untaken (t : Option Trap) : Option Trap := t.filter fun x => !x.taken
/-- The same trap, taken. -/
def markTaken (x : Trap) (t : Option Trap) : Option Trap := if t == some x then some { x with taken := true } else t
/-- The first untaken trap of a list of queue entries. -/
def entryTrap (es : List QEntry) : Option Trap := es.findSome? fun e => untaken e.trap
/-- The fault that a boundary takes, in the order of R314. -/
def Live.pendingFault (l : Live) : Option Trap :=
  let q := l.queues
  entryTrap q.k <|> entryTrap q.o <|>
  (q.lanes.toList.findSome? fun x => x.streams.findSome? fun (y : Stream) => untaken y.trap) <|>
  entryTrap q.d <|> (l.copies.toList.findSome? fun (e : CopyEntry) => untaken e.trap) <|>
  (l.circuits.toList.findSome? fun (x : Circuit) => untaken x.trap) <|> q.fillTraps.head? <|> untaken l.wctx.trap
/-- The state in which a fault has been taken. -/
def Live.takeFault (l : Live) (t : Trap) : Live :=
  let fix := fun (es : List QEntry) => es.map fun e => { e with trap := markTaken t e.trap }
  { l with
    queues := { l.queues with
      k := fix l.queues.k, o := fix l.queues.o, d := fix l.queues.d, fillTraps := l.queues.fillTraps.erase t
      lanes := l.queues.lanes.map fun x => { x with streams := x.streams.map fun (y : Stream) => { y with trap := markTaken t y.trap } } }
    copies := l.copies.map fun e => { e with trap := markTaken t e.trap }
    circuits := l.circuits.map fun (x : Circuit) => { x with trap := markTaken t x.trap }
    wctx := { l.wctx with trap := markTaken t l.wctx.trap } }
/-- A front end at level U stands at an instruction boundary. -/
def Core.atUserBoundary (k : Core) : Bool :=
  let f := k.live.front
  f.level == .u && !f.at_.idle && f.at_.trapping.isNone && f.at_.late.isEmpty && !k.run.inHold && !k.regs.freeze.fe && k.run.stop == .none
/-- A pending fault of a queue, the copy engine or the walker is taken (R220, R314). -/
def execEngineFaultTaken (c : CoreId) (s : State) : Outcome :=
  let k := s.core c
  match (if k.atUserBoundary then k.live.pendingFault else none) with
  | none => .next s
  | some t => .next ((s.modCore c fun k => k.modLive fun l => l.takeFault t).takeTrap c t k.live.front.at_.pc)

end Sys2Proof.Machine
end

