-- ==== Sys2Proof/Machine/Translation.lean ====
section
/-! DEFINITION. Walks of the page tables (R344, R347, R348, R352, R385). -/

namespace Sys2Proof.Machine

/-- A walk and what it cost: its leaf, the fewest cycles of its reads, the non-leaf entries that it used, and the addresses
that it read. -/
structure WalkRun where
  leaf : Option Leaf
  cost : Nat
  path : List WalkEntry
  reads : List Nat
  deriving DecidableEq, Repr

/-- The walk of R344 for a core, through the walk cache of its die where `choice` has the level's bit set (R348). -/
def State.walkCached (s : State) (c : CoreId) (asid : Byte) (va choice : Nat) : Nat → Nat → Nat → WalkRun
  | 0, _, _ => ⟨none, 0, [], []⟩
  | fuel + 1, level, t =>
    let pre := va / 2 ^ (72 - 14 * level)
    let hit := if choice.testBit level then
        (s.mem.walkCache[c.die]).find? fun e => e.asid == asid && e.level == level && e.pre == pre
      else none
    match hit with
    | some e =>
      let r := s.walkCached c asid va choice fuel (level + 1) e.table
      { r with path := e :: r.path }
    | none =>
      let cost := 60 + 48 * edges c.die (homeDie t)
      let a := t + 8 * vaIndex level va
      match s.walkStep level (s.mem.hbm.read a 8) with
      | none => ⟨none, cost, [], [a]⟩
      | some (.inl l) => ⟨some l, cost, [], [a]⟩
      | some (.inr pa) =>
        let r := s.walkCached c asid va choice fuel (level + 1) pa
        { r with cost := r.cost + cost, path := ⟨asid, level, pre, pa⟩ :: r.path, reads := a :: r.reads }
/-- The walk for a miss. -/
def State.missWalk (s : State) (c : CoreId) (m : Miss) (choice : Nat) : WalkRun :=
  if !s.mayWalk m.asid then ⟨none, 0, [], []⟩ else s.walkCached c m.asid m.va choice 4 1 (s.ctxWord m.asid 1 / 2 ^ 16 % 2 ^ 40 * 2 ^ 16)
/-- The walk cache of a die with the entries of a walk; some entry leaves when it is full. -/
def State.cacheWalk (s : State) (d : DieId) (es : List WalkEntry) : State :=
  es.foldl (fun s e =>
    let old := (s.mem.walkCache[d]).filter fun x => !(x.asid == e.asid && x.level == e.level && x.pre == e.pre)
    let t := s.takeNat
    let kept := if 1024 ≤ old.length then old.eraseIdx (t.1 % 1024) else old
    { t.2 with mem := { t.2.mem with walkCache := t.2.mem.walkCache.set d (e :: kept) } }) s

/-- Walks in progress on a die, of the cores that a test picks. -/
def State.walking (s : State) (d : DieId) (f : CoreId → Bool) : Nat :=
  (List.finRange 256).foldl (fun n c => if c.die == d && f c then n + ((s.core c).misses.countP fun m => m.walking) else n) 0
/-- A miss waits for a slot. -/
def Miss.waits (m : Miss) : Bool := !m.walking && !m.failed
/-- The next core after a given one, among those with waiting misses that a test picks (R348). -/
def State.nextWalker (s : State) (d : DieId) (last : CoreId) (f : CoreId → Bool) : Option CoreId :=
  ((List.range 64).map fun i => (Fin.ofNat 256 (64 * d.val + (last.val + 1 + i) % 64) : CoreId)).find? fun c =>
    f c && (s.core c).misses.any Miss.waits
/-- The oldest waiting miss of a core starts its walk. -/
def State.startMiss (s : State) (c : CoreId) : State :=
  match (s.core c).misses.find? Miss.waits with
  | none => s
  | some _ =>
    (s.modCore c fun k =>
      { k with misses := k.misses.modify (k.misses.findIdx Miss.waits) fun m => { m with walking := true, since := s.cycle } }).touch (s.pmapOf c)
/-- The reads of a walk of a core are served and granted at their homes (R383, R385). -/
def State.walkGrant (s : State) (c : CoreId) : List Nat → Option State
  | [] => some s
  | a :: as =>
    let p := s.pmapOf c
    (((s.spineGrant p c [destOf a] 1).bind fun t => t.homeGrant p a 8).bind fun t => t.replyGrant p c a 8).bind fun t => t.walkGrant c as
/-- A free walk slot of a die, of its 256 (R30), is granted round-robin; under STRICT among the cores of one partition, which
holds no more than its WALKS (R348, R385). -/
def execWalkSlotGrant (d : DieId) (s : State) : Outcome :=
  if 256 ≤ s.walking d fun _ => true then .next s
  else if s.pkg.strictNow then
    let t := s.takeNat
    let p : PartId := Fin.ofNat 16 t.1
    let mine := fun (c : CoreId) => s.pmapOf c == p
    if bits (s.pkg.rtabx[p]) 28 8 ≤ s.walking d mine then .next s
    else match s.nextWalker d (s.mem.walkPart[d][p]) mine with
      | none => .next s
      | some c =>
        let s := t.2.startMiss c
        .next { s with mem := { s.mem with walkPart := s.mem.walkPart.set d (s.mem.walkPart[d].set p c) } }
  else match s.nextWalker d (s.mem.walkLast[d]) fun _ => true with
    | none => .next s
    | some c =>
      let s := s.startMiss c
      .next { s with mem := { s.mem with walkLast := s.mem.walkLast.set d c } }

/-- A leaf enters the TLB; some entry leaves when it is full (R347). -/
def Core.install (k : Core) (asid : Byte) (va : Nat) (l : Leaf) (victim : Nat) : Core :=
  let e : TlbEntry := ⟨asid, va / 2 ^ (if l.blk then 30 else 16), l⟩
  let old := k.tlb.filter fun x => !(x.serves asid va)
  { k with tlb := e :: (if 512 ≤ old.length then old.eraseIdx (victim % 512) else old) }
/-- A walk ends (R344, R348): it installs its leaf, with the non-leaf entries that it used, or fails for the access that
asked and installs nothing; one that a `tlbi` overtook installs nothing. -/
def execPageWalkComplete (c : CoreId) (n : Nat) (s : State) : Outcome :=
  match (s.core c).misses[n]? with
  | none => .next s
  | some m =>
    if !m.walking then .next s
    else
      let t := s.takeNat
      let r := s.missWalk c m (t.1 % 16)
      if s.cycle < m.since + r.cost then .next s
      else
        let gone := fun (k : Core) => { k with misses := k.misses.eraseIdx n }
        if m.cancelled then .next (s.modCore c gone)
        else match t.2.walkGrant c r.reads with
        | none => .next s
        | some s =>
          let s := s.touch (s.pmapOf c)
          match r.leaf with
          | some l =>
            let v := (s.cacheWalk c.die r.path).takeNat
            .next (v.2.modCore c fun k => (gone k).install m.asid m.va l v.1)
          | none => .next (s.modCore c fun k =>
            { k with misses := k.misses.modify n fun m => { m with walking := false, failed := true } })
/-- An entry leaves a TLB at a moment of the device's choosing (R347). -/
def execTlbEntryLeave (c : CoreId) (n : Nat) (s : State) : Outcome :=
  .next (s.modCore c fun k => { k with tlb := k.tlb.eraseIdx n })

end Sys2Proof.Machine
end

