-- ==== Sys2Proof/Machine/Rollback.lean ====
section
/-! DEFINITION. Rolling a core back to a cast (R116, R247, R356 to R362). -/

namespace Sys2Proof.Machine

-- streams

/-- The first flit of a circuit that has not entered the hold-back buffer. -/
def Circuit.uncut (x : Circuit) : Nat :=
  match x.cut with
  | f :: _ => f.seq
  | [] => x.seq
/-- A hold-back entry had been made when the cast was taken; any other has not departed and is discarded (R359). -/
def Live.madeHold (l : Live) (e : Hold) : Bool :=
  match e.stream with
  | .store => decide (e.num < l.prod.store)
  | .copy n => decide (e.num < (l.copies[n]).seq)
  | .circuit n => decide (e.num < (l.circuits[n]).uncut)
  | .ring _ => true
  | .lane _ => false
  | .other => match e.req with
    | .gbar _ _ num => l.front.gbar.any fun g => g.num == num
    | _ => true
/-- An ageing write had been made when the cast was taken, or belongs to an effect that has begun to depart, whose other bank
words re-execution will not write again (R78, R268, R269). -/
def Core.madeAge (k : Core) (l : Live) (a : Age) : Bool :=
  let began := (match l.queues.d with
    | e :: _ => e.doneAt.isSome
    | [] => false) && k.live.prod.drain == l.prod.drain
  match a.party with
  | .front num _ => decide (num < l.prod.store) || decide (num < k.flow.dep.store)
  | .copy e seq => decide (seq < (l.copies[e]).seq) || decide (seq < k.flow.depCopy[e])
  | .drain => began || decide (k.live.prod.drain < k.flow.dep.drain)
  | .aclr => began || decide (k.live.prod.drain < k.flow.dep.drain)
  | .pass .. => false
/-- A waiting store-stream entry had been made when the cast was taken. -/
def Live.madeOp (l : Live) (o : StoreOp) : Bool :=
  match o.act with
  | .req _ => decide (o.num < l.prod.store)
  | .buf .. => decide (o.num < l.prod.store)
  | .release => decide (o.po < l.front.at_.po)
  | .tlbi .. => decide (o.po < l.front.at_.po)
  | .record _ => true
/-- A load of the cast whose result has come since, with no value left in the replay log: it is performed again (R360). -/
def Core.lostLoads (k : Core) (l : Live) : List Load :=
  k.flow.past.filter fun x => (List.finRange 8).any fun t => match l.front.tags[t] with
    | some p => p.po == x.po && !p.fixed && p.value.isNone && p.trap.isNone && k.flow.replay.all (fun e => e.1 != p.po || e.2.isNone) &&
        (match k.live.front.tags[t] with
         | some q => q.po != p.po || q.fixed
         | none => true)
    | none => false
/-- The streams of a core after a rollback, with the loads that are performed again. -/
def Flow.rollback (f : Flow) (l : Live) (lost : List Load) : Flow :=
  let loads := f.loads.filter fun x => decide (x.po < l.front.at_.po)
  { f with
    hold := f.hold.filter l.madeHold
    sent := f.sent.filter fun e => decide (e.num < l.prod.store) || decide (e.num < f.dep.store)
    storeQ := f.storeQ.filter l.madeOp
    loads := if lost.isEmpty then loads else (lost ++ loads).mergeSort fun a b => decide (a.po ≤ b.po)
    past := f.past.filter fun x => !lost.contains x
    changes := f.changes.filter fun x => decide (x.num < l.prod.defs[x.ring])
    tlbi := f.tlbi.filter fun w => decide (w.po < l.front.at_.po) }

-- rings (R361)

/-- A slot is being filled by the core's own party since a count of such fills. -/
def Slot.undone (x : Slot) (n : Nat) : Bool := x.state == .filling && x.by_ != .remote && decide (n ≤ x.own)
/-- Own fills that a core has begun since the cast and that are not FULL, the newest ones of the ring, as slots. -/
def Ring.undone (r : Ring) (n : Nat) : List Nat :=
  ((List.range (min r.filled r.def_.nslot)).map fun i => (r.filled - 1 - i) % r.def_.nslot).takeWhile fun i => (r.slot i).undone n
/-- The release of a take has departed. -/
def Flow.released (f : Flow) (q : RingId) (defNo n : Nat) : Bool := f.gone.any fun e => e.ring == q && e.defNo == defNo && e.num == n
/-- Slots that a core held at a cast and whose release has departed since. -/
def Ring.releasedSince (old : Ring) (q : RingId) (f : Flow) : List Nat :=
  (List.range old.def_.nslot).filter fun i => (old.slot i).state == .held && f.released q old.defNo (old.numberOf old.taken i)
/-- A ring after a rollback that keeps its definition. Own fills since the cast end: behind the last one that stands, the
producer pointer steps back, and before it the slot waits for the fill to begin again. Slots taken since the cast and still
held are FULL again. Releases that have not departed are those made before the cast, and those of slots in a set. -/
def Ring.rollback (r old : Ring) (q : RingId) (f : Flow) (po : Nat) (keep : Nat → Bool) : Ring :=
  let back := r.undone old.ownMade
  let r1 := back.foldl (fun (r : Ring) i => r.modSlot i fun _ => .empty) r
  let r2 := { r1 with slots := r1.slots.map fun x => if x.undone old.ownMade then { x with state := .empty, by_ := .again } else x }
  let past := f.gone.foldl (fun n e => if e.ring = q ∧ e.defNo = r.defNo then max n (e.num + 1) else n) 0
  let r3 := (List.range' old.tookMade (r.taken - old.tookMade)).foldl (fun (r : Ring) n =>
    if f.released q r.defNo n then r
    else r.modSlot (n % r.def_.nslot) fun x => if x.state = .held then { x with state := .full, by_ := .none } else x) r2
  { r3 with
    filled := r.filled - back.length
    taken := max old.taken past
    tookMade := old.tookMade
    ownMade := old.ownMade
    ownKept := r.ownKept - back.length
    ghosts := old.ghosts ++ old.releasedSince q f
    rels := r.rels.filter fun x => old.rels.contains x || keep x.slot
    fills := r.fills.filter fun x => decide (x.po < po)
    frontHeld := old.frontHeld
    viewNo := old.viewNo }
/-- A slot that a circuit held at a cast, with nothing of its tile left to be sent by then. -/
def Live.sentBefore (l : Live) (old : Ring) (i : Nat) : Bool :=
  match (old.slot i).by_ with
  | .circuit n => (old.slot i).state == .held && (l.circuits[n]).cut.all fun x => x.slot != some i
  | _ => false
/-- The rings of a core after a rollback. One that has been redefined since the cast keeps its definition, and re-execution
reaches it with the word that made it, unless that word was issued before the cast. -/
def Core.ringsBack (k : Core) (l : Live) : Vector (Option Ring) 16 :=
  let po := l.front.at_.po
  Vector.ofFn fun (q : RingId) =>
    match k.live.rings[q], l.rings[q] with
    | some r, some old =>
      if r.defNo = old.defNo then some (r.rollback old q k.flow po (l.sentBefore old))
      else
        let x := r.rollback { Ring.fresh r.def_ with defNo := r.defNo, viewNo := r.defNo } q k.flow po fun _ => false
        if l.prod.defs[q] < k.flow.dep.defs[q] then
          some { x with viewNo := old.viewNo, tookMade := old.tookMade, ownMade := old.ownMade, frontHeld := old.frontHeld
                        ghosts := old.ghosts ++ old.releasedSince q k.flow }
        else some x
    | some r, none => some (r.rollback { Ring.fresh r.def_ with defNo := r.defNo, viewNo := r.defNo } q k.flow po fun _ => false)
    | none, o => o

-- engines

/-- A fill that a copy had begun stands FULL since (R361). -/
def slotBack (rings : Vector (Option Ring) 16) (q : RingId) (e : EntryNo) (d : Option (Option Nat)) : Option (Option Nat) :=
  match d with
  | some (some i) => match rings[q] with
    | some r => if (r.slot i).state = .filling ∧ (r.slot i).by_ = .copy e then d else some none
    | none => some none
  | _ => d
/-- The ring that a copy entry fills, and the one it fills with scales: the rings its FILLING slots lie on. -/
def CopyEntry.back (x : CopyEntry) (rings : Vector (Option Ring) 16) (e : EntryNo) (q qc : RingId) : CopyEntry :=
  { x with dslot := slotBack rings q e x.dslot, dcslot := slotBack rings qc e x.dcslot }
/-- The opening of a circuit that was made after the cast has departed, or its closing request has. -/
def Flow.stillHolds (f : Flow) (p : Req → Bool) : Bool :=
  f.hold.any (fun h => p h.req) || f.storeQ.any fun o => match o.act with
    | .req r => p r
    | _ => false
/-- A circuit after a rollback: what has come from outside and what has departed stand, the count of tiles sent with it;
sequence numbers, cut flits and the requests not departed return to the cast (R358, R359). A number that was opened again since
the cast had been CLOSED before. -/
def Circuit.back (x old : Circuit) (f : Flow) (n : CircNo) : Circuit :=
  let opening := fun (r : Req) => match r with
    | .opening m _ _ _ _ op => m == n && op == x.openings
    | _ => false
  let close := fun (r : Req) => r == .close n
  let kept := { x with cut := old.cut, seq := old.seq, tile := old.tile, trap := old.trap }
  if x.openings ≠ old.openings then
    if f.stillHolds opening then
      { old with openings := x.openings - 1, sent := x.sent, state := .closed, branches := [], due := none, early := false, src := none
                 remote := none, port := none }
    else kept
  else if f.stillHolds close && (x.state == .closing || x.state == .closed) then
    let all := x.branches.all fun y => match y.reply with
      | some m => m != 0
      | none => false
    { kept with state := (if old.state = .opening ∧ all then .open_ else old.state), due := old.due, early := old.early, branches :=
        if x.state = .closed then old.branches else x.branches }
  else kept
/-- Operations of a lane that were in flight when the cast was taken. -/
def LaneState.flying (x : LaneState) : Nat := x.streams.foldl (fun n (y : Stream) => n + (y.fired - y.retired)) 0
/-- The pool's queues after a rollback (R247). -/
def Core.queuesBack (k : Core) (l : Live) (rings : Vector (Option Ring) 16) : Queues :=
  let p := k.store.livePlane
  let parts := (List.finRange 4).foldl (fun (m : SMap Nat) (i : LaneId) =>
    (p.laneGroups i).foldl (fun m g => if g.2.ext then SMap.set 0 m g.1 (SMap.get 0 m g.1 - (l.queues.lanes[i]).flying) else m) m)
    l.queues.parts
  let lanes := Vector.ofFn fun (i : Fin 4) => (l.queues.lanes[i]).rewind i rings p.lanes[i]
  let traps := k.live.queues.fillTraps
  { l.queues with parts := parts, lanes := lanes, fillTraps := traps ++ l.queues.fillTraps.filter fun t => !traps.contains t }

-- the front end (R358, R360)

/-- A pending tag of a cast: a result that has come since is taken from the replay log; one whose load is performed again waits
for it, and one that trapped traps again. -/
def Core.tagBack (k : Core) (f : Flow) (t : TagId) (info : Word) (p : Pend) : Option Pend :=
  if p.fixed || p.value.isSome || p.trap.isSome then some p
  else if p.dst.isNone then
    if f.storeQ.any (fun o => o.po == p.po) || f.tlbi.any fun w => w.po == p.po then some p else none
  else
    let now := match k.live.front.tags[t] with
      | some q => if q.po = p.po ∧ !q.fixed then some q else none
      | none => none
    match now, f.replay.find? fun e => e.1 == p.po with
    | some q, _ => some { p with value := q.value, trap := q.trap }
    | none, some (_, some v) => some { p with value := some v }
    | none, _ => if f.loads.any fun x => x.po == p.po then some p else some { p with trap := some { cause := .poison, info := info, word := p.word } }
/-- `gbar` progress: an arrival that has departed stands, with its reply (R215). -/
def gbarBack (old now : List GbarProg) (f : Flow) : List GbarProg :=
  let held := fun (num : Nat) => f.hold.any fun h => match h.req with
    | .gbar _ _ n => n == num
    | _ => false
  (old.map fun g => (now.find? fun x => x.num == g.num).getD g) ++
    now.filter fun g => !(old.any fun x => x.num == g.num) && !held g.num
/-- The front end of the cast; it issues again from a given cycle. -/
def Core.frontBack (k : Core) (l : Live) (f : Flow) (nextAt : Nat) (info : Word) : Front :=
  { l.front with
    tags := Vector.ofFn fun (t : TagId) => (l.front.tags[t]).bind (k.tagBack f t info)
    gbar := gbarBack l.front.gbar k.live.front.gbar k.flow
    at_ := { l.front.at_ with nextAt := max nextAt l.front.at_.nextAt } }

-- iterations

/-- A job after a rollback: iterations that ended or started since the cast will do so again; behind the first start of all,
the launch is new to the core (R35, R66, R67). -/
def Job.back (j : Job) (po : Nat) (idle : Bool) : Job :=
  let after := fun (x : Nat × Option Nat) => if x.2.isSome then decide (po < x.1) || (decide (po = x.1) && idle) else decide (po ≤ x.1)
  let rest := j.hist.filter fun x => !after x
  let undone := j.hist.filter after
  { j with
    hist := rest
    fresh := j.fresh || rest.isEmpty
    endsDone := j.endsDone + undone.countP fun x => x.2.isNone
    redo := (undone.filterMap (·.2)) ++ j.redo
    iter := rest.getLast?.bind (·.2) }

-- the whole

/-- The ring that a descriptor's word names as destination and for scales. -/
def CopyEntry.fillRings (x : CopyEntry) (rings : Vector (Option Ring) 16) (e : EntryNo) : RingId × RingId :=
  let find := fun (d : Option (Option Nat)) => match d with
    | some (some i) => ((List.finRange 16).find? fun (q : RingId) => match rings[q] with
      | some r => (r.slot i).state == .filling && (r.slot i).by_ == .copy e
      | none => false).getD 0
    | _ => 0
  (find x.dslot, find x.dcslot)
/-- A core rolled back to the state of a cast (R356, R359 to R362): effects that have not departed are discarded, the
state of the cast returns, and what came from outside stands. -/
def Core.rollback (k : Core) (l : Live) (older : List Cast) (nextAt : Nat) (info : Word) : Core :=
  let k := k.planesBack l.prod.maq
  let f := k.flow.rollback l (k.lostLoads l)
  let rings := k.ringsBack l
  let live : Live :=
    { l with
      front := k.frontBack l f nextAt info
      queues := k.queuesBack l rings
      rings := rings
      copies := Vector.ofFn fun (e : EntryNo) =>
        let x := l.copies[e]
        let q := x.fillRings rings e
        x.back rings e q.1 q.2
      circuits := Vector.ofFn fun (n : CircNo) => (k.live.circuits[n]).back (l.circuits[n]) k.flow n }
  { k with
    live := live
    store := { k.store with ops := .replicate 4 [], aging := k.store.aging.filter (k.madeAge l) }
    flow := f
    misses := []
    run := { k.run with job := k.run.job.map fun (j : Job) => j.back l.front.at_.po l.front.at_.idle }
    casts := older }
/-- Effects that re-execution will suppress: of each outbound stream, those departed beyond the cast's count (R359, R363). -/
def Core.suppressed (k : Core) (l : Live) : Nat :=
  let d := k.flow.dep
  let p := l.prod
  (List.finRange 16).foldl (fun n q => n + match l.rings[q] with
    | some r => k.flow.gone.countP fun e => e.ring == q && (decide (r.defNo < e.defNo) || (e.defNo == r.defNo && decide (r.tookMade ≤ e.num)))
    | none => k.flow.gone.countP fun e => e.ring == q) 0 +
  k.flow.depParts.foldl (fun n e => n + (e.2 - SMap.get 0 l.queues.parts e.1)) 0 +
  (d.store - p.store) + (d.drain - p.drain) + (d.maq - p.maq) +
  (List.finRange 16).foldl (fun n q => n + (d.defs[q] - p.defs[q])) 0 + (List.finRange 4).foldl (fun n i => n + (d.lanes[i] - p.lanes[i])) 0 +
  (List.finRange 16).foldl (fun n e => n + (k.flow.depCopy[e] - (l.copies[e]).seq)) 0 +
  (List.finRange 64).foldl (fun n c => n + (k.flow.depCirc[c] - (l.circuits[c]).uncut)) 0
/-- A core whose effects that have not departed are discarded without a rollback (R357): releases of slots, and the flits
that circuits have cut, among them. -/
def Core.discard (k : Core) : Core :=
  let k := (k.abandonOps.planesBack k.flow.dep.maq).planesPerformed
  let k := k.modStore fun t => { t with aging := t.aging.filter fun a => match a.party with
    | .drain => decide (k.live.prod.drain < k.flow.dep.drain)
    | .aclr => decide (k.live.prod.drain < k.flow.dep.drain)
    | _ => false }
  let k := k.modLive fun l => { l with
    rings := l.rings.map fun r => r.map fun (r : Ring) => { r with rels := [] }
    circuits := l.circuits.map fun (x : Circuit) => { x with cut := [] } }
  k.modFlow fun f =>
    { f with
      hold := f.hold.filter fun e => match e.stream with
        | .ring _ => true
        | _ => false
      storeQ := []
      changes := []
      sent := f.sent.filter fun e => decide (e.num < f.dep.store)
      tlbi := none
      dep := { f.dep with store := max f.dep.store k.live.prod.store } }

end Sys2Proof.Machine
end

