-- ==== Sys2Proof/Machine/Reliability.lean ====
section
/-! DEFINITION. Casts, strike reports, resending, scrubbing and error counts (R28, R355 to R369). -/

namespace Sys2Proof.Machine

/-- Saturating counts. -/
def satAdd {w : Nat} (x : BitVec w) (n : Nat) : BitVec w := BitVec.ofNat w (min (2 ^ w - 1) (x.toNat + n))

-- casts (R28, R358, R368)

/-- Oldest program-order number that a retained cast may still need from the replay log (R360). -/
def Cast.oldest (c : Cast) : Nat :=
  (List.finRange 8).foldl (fun n t => match c.live.front.tags[t] with
    | some p => min n p.po
    | none => n) c.live.front.at_.po
/-- Entries of the history of a job that a rollback to the oldest cast may need. -/
def Job.trim (j : Job) (po : Nat) : Job :=
  let old := j.hist.filter fun x => decide (x.1 < po)
  { j with hist := old.drop (old.length - 1) ++ j.hist.filter fun x => decide (po ≤ x.1) }
/-- What lies before the oldest retained cast expires (R360). -/
def Core.trimLogs (k : Core) : Core :=
  match k.casts.getLast? with
  | none => k
  | some c =>
    let l := c.live
    let k := { k with run := { k.run with job := k.run.job.map fun (j : Job) => j.trim l.front.at_.po } }
    k.modFlow fun f =>
      { f with
        replay := f.replay.filter fun e => decide (c.oldest ≤ e.1)
        drained := f.drained.filter fun d => decide (l.prod.drain ≤ d.num)
        planeLog := f.planeLog.filter fun w => decide (l.prod.maq ≤ w.num ∨ f.dep.maq ≤ w.num)
        past := f.past.filter fun x => decide (c.oldest ≤ x.po)
        circLog := f.circLog.filter fun e => decide (c.oldest ≤ e.1)
        cuts := f.cuts.filter fun e => decide ((l.circuits[e.1]).tile ≤ e.2.1)
        sats := f.sats.filter fun e => decide (l.prod.lanes[e.1] ≤ e.2)
        gone := f.gone.filter fun e => match l.rings[e.ring] with
          | some r => decide (r.defNo < e.defNo) ||
              (e.defNo == r.defNo && (decide (r.tookMade ≤ e.num) || (r.slot e.slot).state == .held))
          | none => true }
/-- An uncorrectable error in a buffer's SRAM marks a bank word (R368); a KIND 5 record follows. -/
def State.bufferError (s : State) (c : CoreId) (n : Nat) : State :=
  let b : Buf := if n % 3 = 0 then .wb else if n % 3 = 1 then .ab else .cb
  let w := n / 3 % (bufSize b / 64)
  (s.modCore c fun k => k.modStore fun t => t.setBad b (markWrite (t.badOf b) (64 * w) 64 true)).rlogCore c 0 5 (BitVec.ofNat 64 (64 * w)) 0 0
/-- An uncorrectable error in the result stage marks a pass (R368). -/
def State.passError (s : State) (c : CoreId) (n : Nat) : State :=
  let lane : LaneId := Fin.ofNat 4 n
  match (s.core c).store.ops[lane] with
  | [] => s
  | o :: os =>
    match o.passes with
    | [] => s
    | p :: ps => (s.modCore c fun k => k.modStore fun t =>
        { t with ops := t.ops.set lane ({ o with passes := { p with poison := true } :: ps } :: os) }).rlogCore c 0 5 (BitVec.ofNat 64 (4 * p.entry)) 0 0
/-- An uncorrectable error in the hold-back buffer for which no usable cast is old enough: the entry departs marked
(R368). -/
def State.holdError (s : State) (c : CoreId) (n : Nat) : State :=
  let k := s.core c
  match k.flow.hold[n % k.flow.hold.length]? with
  | none => s
  | some e =>
    if k.casts.any fun x => x.usable && decide (x.cyc + 32 ≤ e.entered) then s
    else
      let t := s.takeWord
      (t.2.modCore c fun k => k.modFlow fun f =>
        { f with hold := f.hold.modify (n % f.hold.length) fun h => { h with poison := true } }).rlogCore c 0 5 t.1 0 0
/-- An uncorrectable error in an entry of the replay log (R360, R368): of a load, the value is lost, and the load is performed
again; of any other word, which cannot be performed again, the value is a free one (log 20). -/
def State.logError (s : State) (c : CoreId) (n : Nat) : State :=
  let f := (s.core c).flow
  match f.replay[n]? with
  | some (po, some _) =>
    if f.past.any fun x => x.po == po then s.modCore c fun k => k.modFlow fun f => { f with replay := f.replay.eraseIdx n }
    else
      let w := s.takeWord
      w.2.modCore c fun k => k.modFlow fun f => { f with replay := f.replay.set n (po, some (wordOf w.1)) }
  | _ => s
/-- What the check bits of a core's SRAMs have found, which the specification leaves to chance (R368): corrected errors,
or one uncorrectable error at a place. -/
def State.sramErrors (s : State) (c : CoreId) : State :=
  let t := s.takeNat
  let n := t.1 / 4
  let s := t.2.modCore c fun k => k.modRegs fun r => { r with sramCe := satAdd r.sramCe (t.1 % 4) }
  match n % 8 with
  | 1 =>
    let w := s.takeWord
    (w.2.modCore c fun k => { k with casts := k.casts.modify (n / 8) fun x => { x with usable := false } }).rlogCore c 0 5 w.1 0 0
  | 2 => s.bufferError c (n / 8)
  | 3 => s.passError c (n / 8)
  | 4 => s.holdError c (n / 8)
  | 5 => s.logError c (n / 8)
  | _ => s
/-- Every 128 cycles a core takes a cast, and keeps the four newest (R28). -/
def execCastTake (c : CoreId) (s : State) : Outcome :=
  let k := s.core c
  let running := match k.run.stop with
    | .none => true
    | .asked .. => true
    | _ => false
  let again := match k.casts.head? with
    | some x => x.cyc == s.cycle
    | none => false
  if k.run.inHold || !running || again || s.cycle % 128 != 0 then .next s
  else .next ((s.modCore c fun k => { k with casts := (k.castOf s.cycle s.ptime :: k.casts).take Config.casts }.trimLogs).sramErrors c)

-- strikes (R355 to R357, R362)

/-- Package time at a cycle near the present one (R17). -/
def State.timeAt (s : State) (cyc : Nat) : Word :=
  let t := s.ptime * 6 + s.sixths
  BitVec.ofNat 64 ((if cyc ≤ s.cycle then t - 5 * (s.cycle - cyc) else t + 5 * (cyc - s.cycle)) / 6)
/-- STRIKE_CNT (R375). -/
def State.countStrike (s : State) (c : CoreId) (rollback : Bool) : State :=
  s.modLogs (s.pmapOf c) fun g =>
    { g with reports := satAdd g.reports 1, rollbacks := if rollback then satAdd g.rollbacks 1 else g.rollbacks }
/-- A wait of the cast whose completion is logged ends (R215, R360). -/
def State.loggedWait (s : State) (c : CoreId) : State :=
  let k := s.core c
  let known := k.flow.replay.any fun e => e.1 == k.live.front.at_.po
  match k.live.front.at_.wait with
  | .gbar a _ _ true =>
    if known then (s.endWait c).modFront c fun f => { f with gbar := f.gbar.eraseP fun g => g.addr == a } else s
  | .barWait .. => if known && k.replaying then s.endWait c else s
  | _ => s
/-- The rank of the cast that a report restores: the newest usable one taken no later than 32 cycles before the
estimate (R357). -/
def Core.castFor (k : Core) (estimate : Nat) : Option Nat := k.casts.findIdx? fun x => x.usable && decide (x.cyc + 32 ≤ estimate)
/-- A rollback (R356): the cast, the discard, and the record of KIND 1. It ends in the cycle in which the front end may issue
again. -/
def State.rollBack (s : State) (c : CoreId) (j estimate : Nat) : State :=
  let k := s.core c
  match k.casts[j]? with
  | none => s
  | some x =>
    let d := s.takeNat
    let w := d.2.takeWord
    let k1 := k.rollback x.live (k.casts.drop j) (s.cycle + 1 + d.1 % 8) w.1
    let n := k.flow.hold.length - k1.flow.hold.length
    let k2 := { k1 with run := { k1.run with rollEnd := s.cycle + 1 + d.1 % 8 } }
    let s := ((w.2.setCore c k2).loggedWait c).countStrike c true
    s.rlogCore c n 1 (s.timeAt estimate) (BitVec.ofNat 64 x.ns) (BitVec.ofNat 64 (k.suppressed x.live % 2 ^ 32 * 2 ^ 32 + j % 4))
/-- No usable cast is old enough (R357). -/
def State.noCast (s : State) (c : CoreId) (estimate : Nat) : State :=
  let s := ((s.modCore c Core.discard).freezeCore c true true true 6 none).countStrike c false
  s.rlogCore c 0 7 (s.timeAt estimate) 0 0
/-- An uncorrectable error in the hold-back buffer counts as a report with the entry's entry time as its estimate, where a
usable cast is old enough (R368). -/
def Core.holdStrike (k : Core) (estimate : Nat) : Bool :=
  (k.flow.hold.any fun e => e.entered == estimate) && (k.castFor estimate).isSome
/-- A report is applied: a core that has taken its stop cast saves again from that cast, and one that loads reads its slot
again (R340). -/
def State.applyStrike (s : State) (c : CoreId) (estimate : Nat) : Outcome :=
  let k := s.core c
  match k.run.stop with
    | .stopped => .next (s.countStrike c false)
    | .loading asid gang _ => .next ((s.modCore c fun k => k.setStop (.loading asid gang s.cycle)).countStrike c false)
    | .saving gang _ =>
      let s := (s.modCore c fun k => k.setStop (.saving gang s.cycle)).countStrike c true
      let ns := match k.casts.head? with
        | some x => x.ns
        | none => s.ptime
      .next (s.rlogCore c 0 1 (s.timeAt estimate) (BitVec.ofNat 64 ns) 0)
    | _ =>
      match k.castFor estimate with
      | some j => .next (s.rollBack c j estimate)
      | none => .next (s.noCast c estimate)
/-- A strike at cycle `time` is reported to a core region, with an estimate within 16 cycles of it, no later than tDET
after it (R355); it comes before what leaves the core in that cycle (R356). A report for a core that is rolling back waits, and
is applied when that rollback ends (R362). -/
def execStrikeReport (c : CoreId) (time estimate : Nat) (s : State) : Outcome :=
  let k := s.core c
  let waits := k.run.strikes.contains estimate
  if k.flow.leftAt = some s.cycle ∨ ((s.cycle < time ∨ time + Config.tDET < s.cycle ∨ estimate + 16 < time ∨ time + 16 < estimate) ∧
    !k.holdStrike estimate ∧ !waits) then .next s
  else if s.cycle < k.run.rollEnd then
    .next (if waits then s else s.modCore c fun k => { k with run := { k.run with strikes := k.run.strikes ++ [estimate] } })
  else State.applyStrike (s.modCore c fun k => { k with run := { k.run with strikes := k.run.strikes.erase estimate } }) c estimate

-- shared blocks (R364, R365)

/-- UNIT, CORE and DIE of a block in a record (R363). -/
def blockCode (b : SharedBlock) : Nat × Nat × Nat :=
  match b with
  | .router c => (1, c.val % 64, c.die.val)
  | .edge d _ => (2, 0, d.val)
  | .cache d => (3, 0, d.val)
  | .hbm i => (4, 0, i.val / 2)
  | .sched d => (5, 0, d.val)
  | .link q => (6, 0, portDie q.val)
/-- The address that a request writes at. -/
def Req.addr (r : Req) : Option Nat :=
  match r with
  | .store us => us.head?.map (·.addr)
  | .copyWrite _ us _ _ => us.head?.map (·.addr)
  | .amo a .. => some a
  | .cas a .. => some a
  | .cred a .. => some a
  | .barInit a .. => some a
  | .barArrive a _ => some a
  | .group a .. => some a
  | .gbar a .. => some a
  | _ => none
/-- The dies that a UCIe edge joins, as R389 numbers it. -/
def edgeDies (e : Fin 4) : List DieId :=
  match e with
  | 0 => [0, 1]
  | 1 => [2, 3]
  | 2 => [0, 2]
  | 3 => [1, 3]
/-- The path of a core's request to a destination, through a port for another chip, and to an address there, goes through a
block. -/
def pathThrough (c : CoreId) (d : Dest) (port : Option PortId) (a : Option Nat) (b : SharedBlock) : Bool :=
  let hops := routeOf c d ((port.map (·.val)).getD 0)
  match b with
  | .router r => hops.any fun h => match h with
    | .router x _ => x == r
    | _ => false
  | .edge x e => (edgeDies e).contains x && hops.any fun h => match h with
    | .edge f => f == e.val
    | _ => false
  | .cache x => match d with
    | .home y => y == x
    | _ => false
  | .hbm i => a.any fun a => localHbm a && stackOf a == i
  | .link q => port == some q
  | .sched x => match d with
    | .sched y => y == x
    | _ => false
/-- The path of a message goes through a block. -/
def Msg.through (m : Msg) (b : SharedBlock) : Bool := pathThrough m.src m.hold.req.dest.1 m.port m.hold.req.addr b
/-- What a core still keeps that has departed through a block, beside its messages (R364): writes performed and not
acknowledged, loads not answered, and flits in elastic buffers. -/
def State.keptThrough (s : State) (c : CoreId) (b : SharedBlock) : Nat :=
  let k := s.core c
  (k.flow.sent.countP fun e => e.left == 0 && e.homes.any fun h => match h with
    | .die d => pathThrough c (.home d) none none b
    | .chip n => pathThrough c (.chip n 0 none) (s.chipPort n) none b
    | .buffer => false) +
  k.flow.loads.foldl (fun n l => n + l.units.countP fun u => l.space == .g && u.value.isNone && pathThrough c (destOf u.addr) u.asked (some u.addr) b) 0 +
  k.live.circuits.foldl (fun n (x : Circuit) => n + x.branches.foldl (fun n y =>
    if pathThrough c (x.dest y) x.port none b then n + y.elastic.length else n) 0) 0
/-- Requests of one partition resent after a report for a block: the way begins again, and a receiver drops what it has
applied. One KIND 2 record. -/
def State.resendFor (s : State) (b : SharedBlock) (p : PartId) (estimate : Word) : State :=
  let mine := fun (m : Msg) => m.part == p && m.dropped.isNone && m.through b
  let n := s.net.countP mine + ((List.finRange 256).filter fun c => s.pmapOf c == p).foldl (fun n c => n + s.keptThrough c b) 0
  if n = 0 then s
  else
    let s := { s with net := s.net.map fun (m : Msg) => if mine m then { m with departed := s.cycle } else m }
    let u := blockCode b
    s.rlog p (rlogHdr n u.1 u.2.1 u.2.2 2) estimate 0 0
/-- A block discards every request it holds unacknowledged, and the originators resend (R364). -/
def State.blockResend (s : State) (b : SharedBlock) (estimate : Word) : State :=
  (List.finRange 16).foldl (fun s p => s.resendFor b p estimate) s
/-- A strike report in a shared block (R364); its estimate is the detectors'. -/
def execSharedBlockStrike (b : SharedBlock) (s : State) : Outcome :=
  let t := s.takeNat
  .next (t.2.blockResend b (s.timeAt (s.cycle - t.1 % 161)))
/-- Duplicated control disagrees: a report with the estimate equal to the mismatch cycle (R364). -/
def execLockstepMismatch (b : SharedBlock) (s : State) : Outcome := .next (s.blockResend b (s.timeAt s.cycle))
/-- A flit of a core's load, or of one of its circuits, is rejected (R364, R365), which of them a number tells: it is sent again,
or, its fourth send having failed, its data is marked. How often it had failed before is left to chance. -/
def State.rejectFlit (s : State) (n : Nat) : State :=
  let c : CoreId := Fin.ofNat 256 n
  let k := s.core c
  let t := s.takeNat
  let last := t.1 % 2 == 1
  let found : Option (Word × Core) :=
    if n / 256 % 2 = 0 then match k.flow.loads[n / 512]? with
      | some l => if l.space = .g ∧ l.need.isNone then (l.units.find? fun u => u.value.isNone).map fun u =>
            (u.va, k.modFlow fun f => { f with loads := f.loads.modify (n / 512) fun l =>
              { l with units := l.units.map fun x => if x = u then { x with bad := x.bad || last } else x } })
          else none
      | none => none
    else
      let i : CircNo := Fin.ofNat 64 (n / 512)
      let j := n / 512 / 64
      match (k.circ i).branches[j]? with
      | some y => if y.elastic.isEmpty then none else some (0, k.modCirc i fun x => { x with branches := x.branches.modify j fun y =>
          { y with elastic := y.elastic.modify 0 fun f => { f with poison := f.poison || last } } })
      | none => none
  match found with
  | none => s
  | some (a, k) =>
    let s := t.2.setCore c k
    if last then s.rlogCore c 0 6 a 0 0 else s.rlog (s.pmapOf c) (rlogHdr 1 1 (c.val % 64) c.die.val 2) (s.timeAt s.cycle) 0 0
/-- A port rejects a flit with a bad residue (R364): its path is resent from the oldest request on. After four failing
sends the data is delivered poisoned, with a KIND 6 record (R365). Numbers that no message has had name loads and circuits. -/
def execResidueReject (msg : Nat) (s : State) : Outcome :=
  match s.msg msg with
  | none => .next (if msg < s.nextMsg then s else s.rejectFlit (msg - s.nextMsg))
  | some m =>
    if m.dropped.isSome then .next s
    else
      let sends := m.sends + 1
      let set := fun (s : State) (f : Msg → Msg) => { s with net := s.net.map fun (x : Msg) => if x.id == m.id then f x else x }
      let addr := BitVec.ofNat 64 (m.hold.req.addr.getD 0)
      if sends = 4 then
        .next ((set s fun x => { x with sends := 4, hold := { x.hold with poison := true } }).rlog m.part
          (rlogHdr 0 0 m.src.val m.src.die.val 6) addr 0 0)
      else if 4 < sends then .next s
      else
        let path := fun (x : Msg) => x.src == m.src && x.hold.req.dest == m.hold.req.dest && x.dropped.isNone
        let s1 := set s fun x => { x with sends := sends }
        let s2 := { s1 with net := s1.net.map fun (x : Msg) => if path x then { x with departed := s.cycle } else x }
        .next (s2.rlog m.part (rlogHdr (s.net.countP path) 1 (m.src.val % 64) m.src.die.val 2) (s.timeAt s.cycle) 0 0)

-- HBM (R369)

/-- The scrub finds a unit of 64 bytes that cannot be corrected, and stores the poison code there (R366, R369). -/
def execHbmScrubPass (i : StackId) (unit : Nat) (s : State) : Outcome :=
  let a := 64 * unit
  .next (if !localHbm a || stackOf a != i then s else s.hbmError unit)
/-- Once per second of package time the counts of a stack are read, and a completed pass is counted (R369): the uncorrectable
errors are those found since; how many were corrected is open. The corrected errors of the die's memory-side cache are counted
too (R368). -/
def execHbmErrSample (i : StackId) (s : State) : Outcome :=
  if s.ptime % 1000000000 ≠ 0 ∨ !s.timeRuns then .next s
  else
    let t := s.takeNat
    let u := t.2.takeNat
    let g := u.2.pkg
    let old := g.hbmErr[i]
    let ce : BitVec 32 := satAdd (old.setWidth 32) t.1
    let ue : BitVec 16 := satAdd ((old >>> 32).setWidth 16) s.mem.found[i]
    let d : DieId := Fin.ofNat 4 (i.val / 2)
    .next { u.2 with mem := { u.2.mem with found := u.2.mem.found.set i 0 }, pkg := { g with
      hbmErr := g.hbmErr.set i (BitVec.ofNat 64 (ue.toNat * 2 ^ 32 + ce.toNat))
      hbmScrub := g.hbmScrub.set i (g.hbmScrub[i] + BitVec.ofNat 32 (u.1 % 2))
      mscCe := g.mscCe.set d (satAdd g.mscCe[d] (u.1 / 2 % 4)) } }

end Sys2Proof.Machine
end

