-- ==== Sys2Proof/Machine/Partition.lean ====
section
/-! DEFINITION. What the boundary guards do to a message, and the windows of the budget regulators (R379, R380, R383,
R385, R390, R413). -/

namespace Sys2Proof.Machine

/-- The unit of a message that a guard drops next, with what it finds (R379): the flits of units go their own ways. -/
def State.dropOf (s : State) (m : Msg) : Option (Nat × Dest × Drop) :=
  let ds := m.hold.req.dests
  (List.range ds.length).findSome? fun i =>
    if m.applied.contains i then none
    else match ds[i]? with
      | some d => (s.guard m.part m.src d).map fun x => (i, d, x)
      | none => none
/-- A unit of a request, as a request of its own. -/
def Req.only (r : Req) (i : Nat) : Req :=
  match r with
  | .store us => .store ((us.drop i).take 1)
  | .copyWrite e us red bar => .copyWrite e ((us.drop i).take 1) red bar
  | r => r
/-- A router port drops a flit that fails the checks: a record for its partition (R379, R380). The other units of its request
go on. -/
def execGuardDrop (msg : Nat) (s : State) : Outcome :=
  match s.msg msg with
  | none => .next s
  | some m =>
    if m.dropped.isSome then .next s
    else match s.dropOf m with
      | none => .next s
      | some (i, d, x) =>
        let s := s.guardRecord m.src m.hold.party m.part x d m.hold.req.dest.2
        if m.hold.req.dests.length ≤ 1 then
          .next { s with net := s.net.map fun (y : Msg) => if y.id == m.id then { y with dropped := some (Fin.ofNat 5 x.kind) } else y }
        else
          let part : Msg := { m with id := s.nextMsg, hold := { m.hold with req := m.hold.req.only i }, applied := []
                                     dropped := some (Fin.ofNat 5 x.kind) }
          let net := (s.net.map fun (y : Msg) => if y.id == m.id then { y with applied := i :: y.applied } else y) ++ [part]
          .next { s with
            nextMsg := s.nextMsg + 1
            net := if m.hold.req.dests.length ≤ m.applied.length + 1 then net.filter fun (y : Msg) => y.id != m.id else net }
/-- The originator deletes a dropped request, or the unit of one; a dropped opening makes its circuit REFUSED (R380). -/
def State.forget (s : State) (m : Msg) : State :=
  let s := s.dropMsg m.id
  match m.hold.req with
  | .opening n ds _ _ _ op => s.modCore m.src fun k => ds.foldl (fun k d => k.modCirc n fun x => x.answer d.1 0 op) k
  | _ =>
    let left := m.hold.req.dests.length - m.applied.length
    if m.hold.stream = .store then
      s.modCore m.src fun k => (k.modFlow fun f => { f with sent := (f.sent.map fun e =>
        if e.num == m.hold.num then { e with left := e.left - left } else e).filter fun e => e.num != m.hold.num || e.left != 0 }).settle
          m.src s.cycle
    else s
/-- A drop notice reaches its source: the request is deleted, and the master freezes with VIOL 1 (R380). -/
def execDropNoticeArrive (msg : Nat) (s : State) : Outcome :=
  match s.msg msg with
  | none => .next s
  | some m => if m.dropped.isNone then .next s else .next ((s.forget m).dropFreeze m.src m.hold.party)

/-- A budget's registers come into force, and its use begins again (R383). -/
def Budgets.window (b : Budgets) : Budgets := { b with now := b.regs, used := .replicate 4 (.replicate 4 0) }
/-- A new window: budgets, STRICT, the calendar and the firing limits come into force (R383, R385, R390, R413). -/
def execBudgetWindow (s : State) : Outcome :=
  if s.cycle % 1024 ≠ 0 ∨ s.pkg.windowAt = some s.cycle then .next s
  else .next { s with
    parts := s.parts.map fun x => { x with budgets := x.budgets.window }
    pkg := { s.pkg with strictNow := s.pkg.pctl.getLsbD 16, calNow := s.pkg.cal, windowAt := some s.cycle }
    cores := s.cores.map fun k => k.modRegs fun r => { r with feedUsed := 0, feedNow := min r.feed s.mgmt.glim } }

end Sys2Proof.Machine
end

