-- ==== Sys2Proof/Machine/Links.lean ====
section
/-! DEFINITION. Link ports: receiving, resending, training, and the time exchange (R396 to R404). -/

namespace Sys2Proof.Machine

/-- Distance from one SEQ to another, modulo 2^32 (R398). -/
def seqDist (a b : Nat) : Nat := (b + 2 ^ 32 - a % 2 ^ 32) % 2 ^ 32
/-- An ACK frees what it covers (R398); one outside the replay buffer changes nothing. -/
def Port.acked (x : Port) (ack : Nat) : Port :=
  if seqDist x.txOld ack ≤ seqDist x.txOld x.tx ∧ ack ≠ x.txOld then
    { x with keep := x.keep.filter (fun e => decide (seqDist x.txOld ack ≤ seqDist x.txOld e.seq)), txOld := ack }
  else x
/-- EN of LPCTL, and the source of package time (R403, R404). -/
def Port.en (x : Port) : Bool := x.ctl.getLsbD 0
def HostRegs.timeSrc (h : HostRegs) : PortId := Fin.ofNat 8 (bits h.timectl 1 3)
/-- A port goes DOWN (R398, R403): where it is the source of time, TLOCK clears. -/
def State.portDown (s : State) (q : PortId) : State :=
  let s := s.modPort q fun x => { x with state := 0, down := s.cycle }
  if s.host.timeSrc = q ∧ !s.host.timectl.getLsbD 0 then
    { s with host := { s.host with timectl := s.host.timectl &&& ~~~0x10, lockRun := 0 } }
  else s

-- receiving (R383, R397, R398, R400)

/-- The guards' answer for a flit of a partition that enters on a die through a port or from the host (R379). The place of these
in the mesh is not stated, so that of the routers on the way only that of a target core is known (log 60). -/
def State.entryKind (s : State) (from_ : Nat) (p : PartId) (d : Dest) : Option Nat :=
  let crossed := fun (to_ : Nat) => ((from_ :: dieHops from_ to_).zip (dieHops from_ to_)).all fun e => s.pkg.rtabx[p].getLsbD (8 + edgeOf e.1 e.2)
  let to_ := match d with
    | .core c => c.die.val
    | .home h => h.val
    | _ => from_
  if !s.enabled p then some 4
  else if !crossed to_ then some 3
  else match d with
    | .core c =>
      if !(s.pkg.rtab[4 * p.val + c.die.val]?.getD 0).getLsbD (c.val % 64) then some 1
      else if s.partOf c ≠ some p then some 2
      else none
    | _ => none
/-- The guards' answer for an inbound flit, which carries the partition of the port's owner (R379, R400). -/
def State.inboundKind (s : State) (q : PortId) (p : PartId) (d : Dest) : Option Nat := s.entryKind (portDie q.val) p d
/-- A guard drops an inbound flit: the record, and the endpoint freezes with VIOL 1 (R379, R380). A frozen endpoint takes no
further flit, so that no record counts a second drop. -/
def State.inboundDrop (s : State) (q : PortId) (p : PartId) (kind : Nat) (d : Dest) (type : Nat) : State :=
  let at_ : CoreId := match d with
    | .core c => c
    | _ => coreAt (portDie q.val) 0 0
  (s.newGuard p (4096 * p.val + 0x800 + q.val) ⟨kind, at_, 7⟩ d type).freezePort q 1
/-- A unit lands in the slot of a fill over a link: which byte of the slot comes next is counted; RES and POISON are those of
all bytes of the fill (R85, R87, R88). -/
def Core.landFar (k : Core) (r : RingId) (bs : List Byte) (last poison : Bool) (coord : BitVec 32) (fmt : Fin 8) : Core :=
  match k.ring r, (k.ring r).bind (·.fedFar) with
  | some x, some f =>
    let slot := (x.filled + x.def_.nslot - 1) % x.def_.nslot
    let bs := bs.take (x.size - f.done)
    let end_ := f.done + bs.length
    let sum := (f.sum + bs.foldl (fun n b => n + b.toNat) 0) % 255
    let bad := f.poison || poison
    let over_ := last || decide (x.size ≤ end_)
    let k := k.modStore fun y => y.perform x.def_.buf (x.offset slot + f.done) bs poison
    let k := k.modRing r fun x => { x with fedFar := some (if over_ then { f with done := 0, sum := 0, poison := false }
                                                            else { f with done := end_, sum := sum, poison := bad }) }
    if over_ then k.endFill r slot .remote coord fmt sum bad else k
  | _, _ => k
/-- A unit of a circuit of another chip reaches its core (R265, R400): it begins or goes on with the fill of a slot; a slot
that is not EMPTY makes the destination trap (R89); a flit that has landed already is dropped (R268). What a unit carries
beside its 64 bytes is open: whether it ends the tile, COORD, FMT and poison. -/
def State.farUnit (s : State) (q : PortId) (p : PartId) (c : CoreId) (n : CircNo) (seq : Nat) (bs : List Byte) : State :=
  match s.inboundKind q p (.core c) with
  | some kind => s.inboundDrop q p kind (.core c) 1
  | none =>
    let k := s.core c
    match (List.finRange 16).find? fun (r : RingId) => match k.ring r with
        | some x => x.fedFar.any fun f => f.port == q && f.circ == n && !seenBefore f.landed seq
        | none => false with
    | none => s
    | some r =>
      let filling : Bool := match k.ring r with
        | some x =>
          let y := x.slot ((x.filled + x.def_.nslot - 1) % x.def_.nslot)
          y.state == .filling && y.by_ == .remote
        | none => false
      let t := s.takeNat
      let land := fun (k : Core) =>
        (k.modRing r fun x => { x with fedFar := x.fedFar.map fun (f : FarFeed) => { f with landed := some (seq % 2 ^ 32) } }).landFar
          r bs (t.1 % 2 = 1) (t.1 / 2 % 4 == 3) (BitVec.ofNat 32 (t.1 / 2 ^ 16)) (Fin.ofNat 8 (t.1 / 2 ^ 48 % 7))
      if filling then t.2.modCore c land
      else match k.beginRemote r s.cycle with
        | some (_, k) => t.2.setCore c (land k)
        | none =>
          let slot := match k.ring r with
            | some x => x.prod
            | none => 0
          let x : Trap := { cause := .ringDoubleFill, src := .ce
                            info := BitVec.ofNat 64 (r.val + 16 * slot + 2 ^ 16 * (4096 * p.val + 0x800 + q.val)) }
          t.2.modCore c fun k => k.modLive fun l => { l with queues := { l.queues with fillTraps := l.queues.fillTraps ++ [x] } }
/-- What a destination answers to an opening from another chip (R264, R374, R400): 0 refuses, n + 1 accepts with a credit
of n. -/
def State.farAnswer (s : State) (p : PartId) (c : CoreId) (r : RingId) (job size : Nat) : Nat :=
  match (s.core c).ring r with
  | none => 0
  | some x =>
    if job ≠ (s.host.ljob[p]).toNat ∨ (s.core c).run.job.isNone ∨ x.fedBy.isSome ∨ x.fedFar.isSome ∨ x.size < size ∨
      (s.pairedSide c).isSome then 0
    else x.empties + 1
/-- An opening from another chip (R264, R400): answered through the hold-back buffer (R27); where it is accepted, the ring is
fed through the port. -/
def State.farOpening (s : State) (q : PortId) (p : PartId) (chip source : Nat) (c : CoreId) (n : CircNo) (r : RingId) (job size : Nat) : State :=
  match s.inboundKind q p (.core c) with
  | some kind => s.inboundDrop q p kind (.core c) 0
  | none =>
    let code := s.farAnswer p c r job size
    s.modCore c fun k =>
      let k := if code = 0 then k else k.modRing r fun x => { x with fedFar := some ⟨q, chip, source, n, 0, 0, false, none⟩ }
      k.modFlow fun f => { f with hold := f.hold ++ [⟨.far q chip source n (some code), .other, 0, 1, s.cycle, 64, false, false⟩] }
/-- A memory or combiner request of another chip at a local home, dropped where its number has been applied from its source
route and chip (R112, R400): what it writes there is open, word by word. Its answer goes back through the port (R397). -/
def State.farWrite (s : State) (q : PortId) (p : PartId) (chip : Nat) : State :=
  let t := s.takeNat
  let a := 8 * (t.1 / 2 % 2 ^ 36)
  match t.2.inboundKind q p (.home (homeDie a)) with
  | some kind => t.2.inboundDrop q p kind (.home (homeDie a)) 3
  | none =>
    let key := chip * 2 ^ 16 + t.1 / 2 ^ 40 % 2 ^ 16
    let seq := t.1 / 2 ^ 56 % 2 ^ 32
    let s := t.2
    let s := if seenBefore (SMap.get none s.mem.farSeen key) seq || t.1 % 2 == 0 then s
      else
        let w := s.takeWord
        { w.2.pokeWord a w.1 with mem := { (w.2.pokeWord a w.1).mem with farSeen := SMap.set none s.mem.farSeen key (some seq) } }
    if (s.ports[q]).keep.length < 512 then s.transmit q p 6 chip [udescOf (t.1 / 2 ^ 88) 0 0] else s
/-- A flit is delivered, in SEQ order (R397, R400): to the endpoint that its units name. What units carry is open. -/
def State.deliverFlit (s : State) (q : PortId) (p : PartId) (x : VecWord) : State :=
  let s := s.touch p
  let chip := kltField x 1 16 16
  (List.range (min 3 (kltUnits x))).foldl (fun s i =>
    if !s.ports[q].up then s
    else
      let c : CoreId := Fin.ofNat 256 (kltField x (3 + i) 0 12)
      let n : CircNo := Fin.ofNat 64 (kltField x (3 + i) 12 6)
      match kltType x with
      | 0 => s.farUnit q p c n (kltField x (3 + i) 18 32) (kltUnit x i)
      | 4 =>
        let t := s.takeNat
        if t.1 % 2 = 0 then t.2.farOpening q p chip (t.1 / 2 % 2 ^ 12) c n (Fin.ofNat 16 (t.1 / 2 ^ 17)) (kltField x 1 0 16) (t.1 / 2 ^ 37 % 2 ^ 18)
        else t.2
      | 5 => s.farWrite q p chip
      | _ => s) s
/-- A core feeds one of its rings from a circuit of a port. -/
def Core.fedThrough (k : Core) (q : PortId) (n : CircNo) : Bool :=
  k.live.rings.any fun r => r.any fun x => x.fedFar.any fun f => f.port == q && f.circ == n
/-- The stopped context that a unit for a core is for (R402): that of the core, or, of a circuit, one whose saved core the
circuit feeds. A port that keeps the flits of a saved context carries no other. -/
def State.pausedFor (s : State) (q : PortId) (c : CoreId) (n : Option CircNo) : Option Byte :=
  let y := s.ports[q]
  y.kept <|> y.paused.find? fun a => (s.core c).regs.asid == a || (match n with
    | some n => s.images.any fun x => x.1 == s.slotAddr a c && x.2.fedThrough q n
    | none => false)
/-- The stopped context that a flit is held for: that of its first unit which has one. -/
def State.heldBack (s : State) (q : PortId) (x : VecWord) : Option Byte :=
  if kltType x = 0 ∨ kltType x = 4 then
    (List.range (min 3 (kltUnits x))).findSome? fun i => s.pausedFor q (Fin.ofNat 256 (kltField x (3 + i) 0 12))
      (if kltType x = 0 then some (Fin.ofNat 64 (kltField x (3 + i) 12 6)) else none)
  else s.ports[q].kept
/-- The cores that a flit's openings name have room for their replies (R27). -/
def State.flitFits (s : State) (x : VecWord) : Bool :=
  kltType x != 4 || (List.range 3).all fun i => (s.core (Fin.ofNat 256 (kltField x (3 + i) 0 12))).holdRoom 192
/-- The next expected flit is taken (R398, R402): delivered, or held for a stopped context; none where it is not taken: for a
stopped context that holds 512 already, its NAK has PAUSE set. -/
def State.takeNext (s : State) (q : PortId) (p : PartId) (x : VecWord) : Option State :=
  let step := fun (s : State) => s.modPort q fun y => { y with rx := (y.rx + 1) % 2 ^ 32 }
  match s.heldBack q x with
  | some a => if s.ports[q].heldIn.length < 512 then some (step (s.modPort q fun y => { y with heldIn := y.heldIn ++ [(a, x)] })) else none
  | none => if !s.flitFits x then none else some ((step s).deliverFlit q p x)
/-- Flits that stood ahead of a gap follow the one that filled it. -/
def State.deliverAhead (q : PortId) (p : PartId) : Nat → State → State
  | 0, s => s
  | n + 1, s =>
    let y := s.ports[q]
    match y.ahead.find? fun e => e.1 == y.rx with
    | none => s
    | some e => if !y.up then s else match s.takeNext q p e.2 with
      | none => s
      | some t => State.deliverAhead q p n (t.modPort q fun y => { y with ahead := y.ahead.filter fun z => z.1 != e.1 })
/-- A received flit by its sequence number (R398, R402): taken, kept ahead of a gap, or discarded; the first missing one is
asked for. -/
def State.takeSeq (s : State) (q : PortId) (p : PartId) (x : VecWord) : State :=
  let y := s.ports[q]
  let seq := kltSeq x
  if seq = y.rx then
    match s.takeNext q p x with
    | some t => State.deliverAhead q p 256 t
    | none => s.sendNak q (seq, (s.heldBack q x).isSome)
  else if seqDist y.rx seq < 2 ^ 31 then
    (if y.ahead.length < 256 ∧ !(y.ahead.any fun e => e.1 == seq) then s.modPort q fun y => { y with ahead := y.ahead ++ [(seq, x)] }
     else s).sendNak q (y.rx, false)
  else s
/-- Inbound flits are charged on arrival; beyond budget and allowance the endpoint freezes (R383). -/
def State.chargeInbound (s : State) (q : PortId) (p : PartId) : State × Bool :=
  let d : DieId := Fin.ofNat 4 (portDie q.val)
  let b := (s.part p).budgets
  let used := b.used[d][2] + 1
  let w := b.now[2]
  let s := s.modPart p fun x => { x with budgets := { x.budgets with used := x.budgets.used.set d (x.budgets.used[d].set 2 used) } }
  if bits w 0 24 ≠ 0xFFFFFF ∧ bits w 0 24 + bits w 32 16 < used then (s.freezePort q 2, false) else (s, true)
/-- A port receives a flit (R397 to R402), whose 256 bytes are open: one with a bad CRC or a nonzero reserved field is
discarded and asked for again; the others bring an ACK, perhaps a NAK, and a sequence number. A flit held for a context that
runs again is delivered first. -/
def execLinkFlitReceive (q : PortId) (s : State) : Outcome :=
  let y := s.ports[q]
  match s.ownerOf q with
  | none => .next s
  | some p =>
    if !y.up then .next s
    else match y.heldIn.find? fun e => y.carries e.1 with
    | some e => if !s.flitFits e.2 then .next s else .next ((s.modPort q fun y => { y with heldIn := y.heldIn.erase e }).deliverFlit q p e.2)
    | none =>
      let b := State.takeBytes 32 s
      let x : VecWord := BitVec.ofNat 2048 (ofBytes b.1)
      let r := b.2.chargeInbound q p
      if !r.2 then .next r.1
      else if !kltGood x then .next (r.1.sendNak q (y.rx, false))
      else
        let s := r.1.modPort q fun y =>
          let y := y.acked (kltField x 0 32 32)
          match kltNak x with
          | some n => if y.keep.any fun e => e.seq == n.1 then { y with nak := some n } else y
          | none => y
        .next (if kltType x = 1 ∨ kltType x = 3 then s else s.takeSeq q p x)

-- resending (R398)

/-- The flit of a SEQ goes out again, with the ACK of that moment; one that has been sent 16 times in a row without an ACK
takes the port DOWN, except for NAKs with PAUSE. -/
def State.resend (s : State) (q : PortId) (seq : Nat) (pause : Bool) : State :=
  let y := s.ports[q]
  match y.keep.find? fun e => e.seq == seq with
  | none => s.modPort q fun y => { y with nak := none }
  | some e =>
    if !pause && decide (16 ≤ e.sends) then s.portDown q
    else s.modPort q fun y =>
      { y.emit e.flit y.gap with
        resends := satAdd y.resends 1, nak := none, sentAt := s.cycle
        keep := y.keep.map fun k => if k.seq == seq && !pause then { k with sends := k.sends + 1 } else k }
/-- A NAK makes the sender send the named flit again at once; one for a stopped context, after the resumption (R402). -/
def execLinkNakResend (q : PortId) (s : State) : Outcome :=
  let y := s.ports[q]
  match y.nak with
  | none => .next s
  | some (seq, pause) => if !y.up then .next s else .next (s.resend q seq pause)
/-- LPRTO passes without an ACK: the oldest flit goes out again. -/
def execLinkResendTimeout (q : PortId) (s : State) : Outcome :=
  let y := s.ports[q]
  if !y.up || y.keep.isEmpty || decide ((s.cycle - y.sentAt) * 5 < y.rto * 6) then .next s else .next (s.resend q y.txOld false)

-- training (R399)

/-- 1 ms after it went DOWN, and again every 1 ms, an enabled port trains. -/
def execPortRetrain (q : PortId) (s : State) : Outcome :=
  let x := s.ports[q]
  if x.state ≠ 0 ∨ !x.en ∨ x.seqerr ∨ s.cycle < x.down + 1200000 then .next s else .next (s.modPort q fun x => { x with state := 1 })
/-- An attempt to train ends (R399): it fails, or the sides exchange SEQ and ACK. A peer's ACK within the replay buffer
makes the sender resend from there; any other sets SEQERR. -/
def execPortTrained (q : PortId) (s : State) : Outcome :=
  let x := s.ports[q]
  if x.state ≠ 1 then .next s
  else
    let t := s.takeNat
    let ack := t.1 / 2 % 2 ^ 32
    if t.1 % 2 = 0 then .next (t.2.portDown q)
    else if seqDist x.txOld x.tx < seqDist x.txOld ack then .next ((t.2.modPort q fun x => { x with seqerr := true }).portDown q)
    else .next (t.2.modPort q fun x =>
      let x := x.acked ack
      let x : Port := { x with state := 2, sentAt := s.cycle, resends := satAdd x.resends x.keep.length, nak := none
                               keep := x.keep.map fun e => { e with sends := 1 } }
      match x.keep.getLast? with
      | some e => x.emit e.flit x.gap
      | none => x.emit (kltMake x.tx 1 0 0 s.pkg.chipid.toNat 0 [] 0 []) none)
/-- A remote request that waited on a discarded flit is completed at its originator (R399): one with a result returns
poisoned data, any other is abandoned. -/
def State.abandonFar (s : State) (m : Msg) : State :=
  let bad := fun (va : Word) (t : TagId) (po : Nat) => (s.answer m.src t po 0 (some { cause := .poison, info := va })).forget m
  match m.hold.req with
  | .amo _ va _ _ _ _ t po => bad va t po
  | .cas _ va _ _ _ t po => bad va t po
  | .gbar a va num =>
    match (s.front m.src).at_.wait with
    | .gbar b _ _ true => if a = b then
          ((s.forget m).modFront m.src fun f => { f with gbar := f.gbar.filter fun g => g.num != num }).trapLate m.src { cause := .poison, info := va }
        else s.forget m
    | _ => s.forget m
  | _ => s.forget m
/-- A load that waited on a discarded flit of a port is poisoned (R399). -/
def LoadUnit.abandon (u : LoadUnit) (q : PortId) : LoadUnit :=
  if u.asked = some q ∧ u.value.isNone then { u with value := some 0, bad := true } else u
def Core.abandonLoads (k : Core) (q : PortId) : Core :=
  k.modFlow fun f => { f with loads := f.loads.map fun (l : Load) => { l with units := l.units.map (·.abandon q) } }
/-- EN := 1 while SEQERR = 1 discards everything and trains (R399). One reliability record follows for each partition whose
requests, loads or circuits went through the port. -/
def State.restartPort (s : State) (q : PortId) : State :=
  let ms := s.net.filter fun (m : Msg) => m.port == some q
  let mine := fun (c : CoreId) => ((s.core c).live.circuits.any fun x => x.state != .closed && x.port == some q) ||
    (s.core c).flow.loads.any fun l => l.units.any fun u => u.asked == some q && u.value.isNone
  let parts := ((ms.map fun (m : Msg) => m.part) ++ ((List.finRange 256).filter mine).map s.pmapOf).dedup
  let s := s.modPort q fun x =>
    { x with keep := [], ahead := [], heldIn := [], tx := 0, txOld := 0, rx := 0, nak := none, seqerr := false, state := 1 }
  let s := ms.foldl (fun s m => s.abandonFar m) s
  let s := parts.foldl (fun s p =>
    let a := ((ms.find? fun (m : Msg) => m.part == p).bind fun m => m.hold.req.addr).getD 0
    s.rlog p (rlogHdr 0 6 0 (portDie q.val) 6) (BitVec.ofNat 64 a) 0 0) s
  (List.finRange 256).foldl (fun s c => s.modCore c fun k => (k.abandonLoads q).modLive fun l =>
    { l with circuits := l.circuits.map fun (x : Circuit) =>
      if x.state ≠ .closed ∧ x.port = some q then { x with state := .refused } else x }) s
/-- LPCTL (R396, R399, R404). -/
def State.writeLpctl (s : State) (q : PortId) (v : Word) : State :=
  let s := s.modPort q fun x => { x with ctl := v &&& 3 }
  if v.getLsbD 0 then (if s.ports[q].seqerr then s.restartPort q else s)
  else s.modPort q fun x => if x.state = 1 then { x with state := 0, down := s.cycle } else x

-- time (R403)

/-- The offset of the reference that an exchange shows, in ps (R403): t1 to t4 in ns are the two transmission stamps and the
two arrival stamps, and LPASYM is in ps. -/
def timeOffset (t1 t2 t3 t4 : Int) (asym : BitVec 32) : Int := 1000 * ((t2 - t1) - (t4 - t3)) / 2 - asym.toInt
/-- Every microsecond a port exchanges time flits with its peer, and a follower slews package time towards its source by at
most 100 ppm (R403): here one sixth of a nanosecond, every other microsecond, and never back over a nanosecond. What the peer
stamps, and when its flit arrives, is open. -/
def execTimeExchange (q : PortId) (s : State) : Outcome :=
  let h := s.host
  if s.ptime % 1000 ≠ 0 ∨ !s.timeRuns ∨ !s.ports[q].up then .next s
  else
    let s := s.modPort q fun x => x.emit (kltMake x.tx 3 0 0 s.pkg.chipid.toNat 0 [] s.ptime []) x.gap
    if h.timectl.getLsbD 0 ∨ h.timeSrc ≠ q then .next s
    else
      let a := s.takeNat
      let b := a.2.takeNat
      let c := b.2.takeNat
      let off := timeOffset s.ptime a.1 b.1 (s.ptime + c.1) (s.ports[q]).asym
      let run := if off.natAbs ≤ 10000 then h.lockRun + 1 else 0
      let s : State := { c.2 with host := { h with lockRun := run, timectl := if 8 ≤ run then h.timectl ||| 0x10 else h.timectl } }
      .next (if s.ptime / 1000 % 2 = 1 then s
        else if 0 < off ∧ s.sixths < 5 then { s with sixths := s.sixths + 1 }
        else if off < 0 then { s with sixths := s.sixths - 1 }
        else s)

end Sys2Proof.Machine
end

