-- ==== Sys2Proof/Machine/RegEvents.lean ====
section
/-! DEFINITION. Registers written from outside the front end: through a function's register window, the package block,
and over I3C (R309, R325, R326, R337, R354, R376, R385, R389, R390, R393, R399, R404, R411, R412). -/

namespace Sys2Proof.Machine

/-- A function is there (R392): the physical one, and a virtual one while its partition is enabled under SR-IOV. -/
def State.functionOn (s : State) (b : Agent) : Bool :=
  s.mgmt.pcie && match b with
  | .pf => true
  | .vf p => s.host.vfEnable && s.enabled p
  | .i3c => false
/-- A bit of HOSTERR set by a refused access at an offset (R393, R404): APR 3, PMAP 2, LEVEL 1, WIN 0. -/
def State.hostErr (s : State) (b : Agent) (bit off : Nat) : State :=
  let e := BitVec.ofNat 4 (2 ^ bit)
  let h := { s.host with errOffs := BitVec.ofNat 32 off }
  { s with host := match b with
    | .vf p => { h with errBy := h.errBy.set p (h.errBy[p] ||| e) }
    | _ => { h with errBits := h.errBits ||| e } }
/-- The offset of a register in BAR0 (R309). -/
def regOffset (c : CoreId) (r : BitVec 12) : Nat := c.val * 2 ^ 15 + 8 * r.toNat
/-- A refused access to a register window: its HOSTERR bit (R393). -/
def State.windowRefusal (s : State) (b : Agent) (c : CoreId) (r : BitVec 12) (write : Bool) : Option Nat :=
  match b with
  | .pf => none
  | .i3c => none
  | .vf p =>
    if s.pmapOf c ≠ p then some 0
    else if regLevel r.toNat write = .m then some 1
    else none
/-- A host write of a register (R309, R393): with M access for the physical function and S access for a virtual one. A
write that its register refuses is discarded, and reported where it breaks the PMAP rule. -/
def State.hostReg (s : State) (b : Agent) (c : CoreId) (r : BitVec 12) (v : Word) : State :=
  if !s.functionOn b then s
  else match s.windowRefusal b c r true with
    | some bit => s.hostErr b bit (regOffset c r)
    | none =>
      if !sysRegKnown r then s
      else if r = 0x5C0 then s.doorbell (s.pmapOf c) none v
      else match s.writeReg c r v with
        | some s => s
        | none => if 0x700 ≤ r.toNat ∧ r.toNat ≤ 0x710 then s.hostErr b 2 (regOffset c r) else s

/-- A doorbell of the host (R327). -/
def execLqDoorWrite (b : Agent) (c : CoreId) (v : Word) (s : State) : Outcome := .next (s.hostReg b c 0x5C0 v)
/-- R325. -/
def execAcceptWrite (b : Agent) (n : Fin 3) (v : Word) (s : State) : Outcome := .next (s.hostReg b 0 (0x304 + BitVec.ofNat 12 n.val) v)
/-- R325. -/
def execAccept3Write (b : Agent) (v : Word) (s : State) : Outcome := .next (s.hostReg b 0 0x307 v)
/-- R323. -/
def execCoreCtlWrite (b : Agent) (c : CoreId) (v : Word) (s : State) : Outcome := .next (s.hostReg b c 0x200 v)
/-- R326. -/
def execLqCfgWrite (b : Agent) (c : CoreId) (q : QueueNo) (v : Word) (s : State) : Outcome :=
  .next (s.hostReg b c (0x500 + BitVec.ofNat 12 q.val) v)
/-- R337. -/
def execSwitchAtWrite (b : Agent) (c : CoreId) (v : Word) (s : State) : Outcome := .next (s.hostReg b c 0x5C2 v)
/-- R376. -/
def execPmapWrite (b : Agent) (n : Fin 16) (v : Word) (s : State) : Outcome := .next (s.hostReg b 0 (0x700 + BitVec.ofNat 12 n.val) v)
/-- R376, R389. -/
def execPctlWrite (b : Agent) (v : Word) (s : State) : Outcome := .next (s.hostReg b 0 0x710 v)
/-- R385. -/
def execCalWrite (b : Agent) (n : Fin 4) (v : Word) (s : State) : Outcome := .next (s.hostReg b 0 (0x711 + BitVec.ofNat 12 n.val) v)
/-- R389. -/
def execRtabxWrite (b : Agent) (p : PartId) (v : Word) (s : State) : Outcome := .next (s.hostReg b 0 (0x760 + BitVec.ofNat 12 p.val) v)
/-- R383. -/
def execBudgetWrite (b : Agent) (c : CoreId) (n : Fin 4) (v : Word) (s : State) : Outcome :=
  .next (s.hostReg b c (0x780 + BitVec.ofNat 12 n.val) v)
/-- R390. -/
def execFeedBudWrite (b : Agent) (c : CoreId) (v : Word) (s : State) : Outcome := .next (s.hostReg b c 0x7C0 v)
/-- R354. -/
def execMdbaseWrite (b : Agent) (i : StackId) (v : Word) (s : State) : Outcome :=
  .next (s.hostReg b 0 (0x401 + BitVec.ofNat 12 i.val) v)
/-- A register that has no behaviour of its own (R311). -/
def execRegisterWrite (b : Agent) (c : CoreId) (r : BitVec 12) (v : Word) (s : State) : Outcome := .next (s.hostReg b c r v)

-- the package block (R404)

/-- A virtual function never reaches the package block (R393). -/
def State.blockOpen (s : State) (b : Agent) : Bool := s.functionOn b && b == .pf
/-- APBASE (R404). -/
def State.writeApbase (s : State) (v : Word) : State :=
  let a := bits v 28 28 * 2 ^ 28
  if localHbm a then { s with host := { s.host with apbase := BitVec.ofNat 64 (a + v.toNat % 2) } }
  else s.hostErr .pf 3 0x01000000
/-- CTAB (R404). -/
def State.writeCtab (s : State) (v : Word) : State :=
  let a := bits v 16 40 * 2 ^ 16
  if localHbm a then { s with host := { s.host with ctab := BitVec.ofNat 64 (a + v.toNat % 2) } }
  else s.hostErr .pf 3 0x01000010
/-- R404. -/
def execApbaseWrite (b : Agent) (v : Word) (s : State) : Outcome := if s.blockOpen b then .next (s.writeApbase v) else .next s
/-- R399. -/
def execLpctlWrite (b : Agent) (q : PortId) (v : Word) (s : State) : Outcome := if s.blockOpen b then .next (s.writeLpctl q v) else .next s

-- management (R411, R412)

/-- PCAP (R412). -/
def State.writePcap (s : State) (v : Word) : State :=
  { s with mgmt := { s.mgmt with pcap := BitVec.ofNat 16 (max 600 (min 2200 (v.toNat % 2 ^ 16))) } }
/-- TLIMIT (R412): a signed temperature in sixteenths, clamped to 60 to 100 °C. -/
def State.writeTlimit (s : State) (v : Word) : State :=
  let t := (v.setWidth 16 : BitVec 16).toInt
  { s with mgmt := { s.mgmt with tlimit := BitVec.ofInt 16 (max (60 * 16) (min (100 * 16) t)) } }
/-- ATT_CTL.GO (R411): ignored while a report is being formed. -/
def State.attGo (s : State) : State :=
  if s.mgmt.attBusy then s
  else { s with mgmt := { s.mgmt with attBusy := true, attReady := false, nonceUsed := s.mgmt.nonce } }
/-- A write of GO = 1 (R411, R412): GO reads as it was written. -/
def State.writeGo (s : State) : State := ({ s with mgmt := { s.mgmt with attGo := true } }).attGo
/-- R412. -/
def execPcapWrite (v : Word) (s : State) : Outcome := .next (s.writePcap v)
/-- R412. -/
def execTlimitWrite (v : Word) (s : State) : Outcome := .next (s.writeTlimit v)
/-- R411. -/
def execAttCtlGo (s : State) : Outcome := .next s.writeGo

end Sys2Proof.Machine
end

