-- ==== Sys2Proof/Machine/HostPort.lean ====
section
/-! DEFINITION. Accesses of the host through the register windows, the package block and the aperture, and the resets of
functions (R392 to R395, R404, R411, R412, R414). -/

namespace Sys2Proof.Machine

/-- Where a host access goes. An address names BAR0 in its lowest 4 GiB, BAR2 in the next, in the third the SR-IOV control
register of function 0, in the fourth a request that uses what the port does not support, and in the fifth the MSI-X table of
the function. -/
inductive HostAim
  | reg (c : CoreId) (r : BitVec 12)
  | block (off : Nat)
  | aperture (off : Nat)
  | sriov
  | unsupported
  | table (vector : Nat)
  | nothing
  deriving DecidableEq, Repr
/-- The aim of an address of a function (R392). -/
def hostAim (b : Agent) (addr : Nat) : HostAim :=
  let off := addr % 2 ^ 32
  match addr / 2 ^ 32 with
  | 0 =>
    if off < 2 ^ 23 then .reg (Fin.ofNat 256 (off / 2 ^ 15)) (BitVec.ofNat 12 (off % 2 ^ 15 / 8))
    else if b = .pf ∧ 2 ^ 24 ≤ off ∧ off < 2 ^ 26 then .block (off - 2 ^ 24)
    else .nothing
  | 1 => .aperture off
  | 2 => if b = .pf then .sriov else .nothing
  | 3 => .unsupported
  | 4 => if off % 16 = 0 ∧ off / 16 < (if b = .pf then 2 else 1) then .table (off / 16) else .nothing
  | _ => .nothing
/-- The number of a function (R392). -/
def hostFunction : Agent → Nat
  | .vf p => p.val + 1
  | _ => 0
/-- The physical address of an aperture offset, for n bytes inside the slice (R394). -/
def State.apertureAddr (s : State) (b : Agent) (off n : Nat) : Option Nat :=
  let base := bits s.host.apbase 28 28 * 2 ^ 28
  let r := match b with
    | .vf p => (base + p.val * 2 ^ 24, 2 ^ 24)
    | _ => (base, 2 ^ 28)
  if s.host.apbase.getLsbD 0 && decide (off + n ≤ r.2) then some (r.1 + off) else none

/-- The partition of a host access of the aperture (R394). DESIGN CHOICE (log 60): the partition of the home that the physical
function's access has is that whose slice holds the address. -/
def hostPart (b : Agent) (off : Nat) : PartId :=
  match b with
  | .vf p => p
  | _ => Fin.ofNat 16 (off / 2 ^ 24)
/-- The route identifier of the host (R378). -/
def hostRoute (p : PartId) : Nat := 4096 * p.val + 0x900
/-- What becomes of a host access of n bytes at a home: a guard drops it, and the access is reported (R379, R380, R393); it
waits; or the arbiters serve it and the budgets grant it (R383, R385). -/
inductive HostGrant | refused (s : State) | wait | ok (s : State)
def State.hostGrant (s : State) (b : Agent) (off a n : Nat) (reply : Bool) : HostGrant :=
  let p := hostPart b off
  let d := homeDie a
  match s.entryKind 0 p (.home d) with
  | some kind => .refused ((s.newGuard p (hostRoute p) ⟨kind, coreAt 0 0 0, 7⟩ (.home d) 3).hostErr b 3 off)
  | none =>
    let back := if reply then d :: diesBetween d 0 else []
    match ((s.spineOn p (0 :: diesBetween 0 d) ((n + 63) / 64)).bind fun t => t.homeGrant p a n).bind fun t => t.spineOn p back ((n + 63) / 64) with
    | some t => .ok t
    | none => .wait

/-- HOSTERR (R404). -/
def HostRegs.errWord (h : HostRegs) : Word :=
  let e := h.errBy.foldl (fun x y => x ||| y) h.errBits
  BitVec.ofNat 64 (h.errOffs.toNat * 2 ^ 32 + e.toNat)
/-- LPSTAT (R404). -/
def Port.stat (x : Port) : Word :=
  BitVec.ofNat 64 (x.resends.toNat * 2 ^ 16 + (if x.seqerr then 8 else 0) + (if x.paused.isEmpty then 0 else 4) + x.state.val)
/-- The bytes of the management registers from an index (R412). -/
def Mgmt.byte (g : Mgmt) (i : Nat) : Byte :=
  let of := fun (base v : Nat) => BitVec.ofNat 8 (v / 256 ^ (i - base))
  if i = 0 then BitVec.ofNat 8 g.stage.val
  else if i = 1 then g.err
  else if 0x10 ≤ i ∧ i < 0x14 then (g.temps[(Fin.ofNat 4 i : Fin 4)]).setWidth 8
  else if 0x20 ≤ i ∧ i < 0x22 then of 0x20 g.power.toNat
  else if 0x28 ≤ i ∧ i < 0x2A then of 0x28 g.pcap.toNat
  else if 0x2A ≤ i ∧ i < 0x2C then of 0x2A g.glim
  else if 0x30 ≤ i ∧ i < 0x32 then of 0x30 g.tlimit.toNat
  else if i = 0x60 then (if g.attReady then 2 else 0) + (if g.attGo then 1 else 0)
  else if 0x100 ≤ i ∧ i < 0x500 then g.report.getD (i - 0x100) 0
  else if 0x500 ≤ i ∧ i < 0x900 then Config.certificate (i - 0x500)
  else 0
/-- A 16-bit read of a management register of n bytes. DIE_TEMP(d) is read whole at its index. -/
def Mgmt.bytes (g : Mgmt) (i n : Nat) : List Byte :=
  if 0x10 ≤ i ∧ i < 0x14 ∧ n = 2 then toBytes 2 (g.temps[(Fin.ofNat 4 i : Fin 4)]).toNat else (List.range n).map fun k => g.byte (i + k)
/-- A register of the package block (R404): every other offset reads zero. -/
def State.blockWord (s : State) (off : Nat) : Word :=
  let h := s.host
  if off = 0 then h.apbase
  else if off = 8 then h.errWord
  else if off = 0x10 then h.ctab
  else if off = 0x18 then h.timectl
  else if 0x20 ≤ off ∧ off < 0xA0 ∧ off % 8 = 0 then (h.ljob[(Fin.ofNat 16 ((off - 0x20) / 8) : Fin 16)]).setWidth 64
  else if 0x1000 ≤ off ∧ off < 0x9000 then
    let x := s.ports[(Fin.ofNat 8 (off / 0x1000 - 1) : PortId)]
    match off % 0x1000 with
    | 0x00 => x.ctl
    | 0x08 => x.stat
    | 0x10 => x.mac
    | 0x18 => x.peer
    | 0x20 => x.asym.setWidth 64
    | 0x28 => BitVec.ofNat 64 x.rto
    | _ => 0
  else 0
/-- TIMECTL: TLOCK is read only (R404). -/
def HostRegs.writeTime (h : HostRegs) (v : Word) : HostRegs := { h with timectl := (v &&& 0xF) ||| (h.timectl &&& 0x10) }
/-- A write of the package block (R404). -/
def State.writeBlock8 (s : State) (off : Nat) (v : Word) : State :=
  let h := s.host
  if off = 0 then s.writeApbase v
  else if off = 8 then
    let m := ~~~(v.setWidth 4)
    { s with host := { h with errBits := h.errBits &&& m, errBy := h.errBy.map fun e => e &&& m } }
  else if off = 0x10 then s.writeCtab v
  else if off = 0x18 then { s with host := h.writeTime v }
  else if 0x20 ≤ off ∧ off < 0xA0 then { s with host := { h with ljob := h.ljob.set (Fin.ofNat 16 ((off - 0x20) / 8) : Fin 16) (v.setWidth 16) } }
  else if 0x1000 ≤ off ∧ off < 0x9000 then
    let q : PortId := Fin.ofNat 8 (off / 0x1000 - 1)
    match off % 0x1000 with
    | 0x00 => s.writeLpctl q v
    | 0x10 => s.modPort q fun x => { x with mac := v &&& 0xFFFFFFFFFFFF }
    | 0x18 => s.modPort q fun x => { x with peer := v &&& 0xFFFFFFFFFFFF }
    | 0x20 => s.modPort q fun x => { x with asym := v.setWidth 32 }
    | 0x28 => s.modPort q fun x => { x with rto := v.toNat % 2 ^ 24 }
    | _ => s
  else s
/-- A write of n bytes into the management registers at an index (R411, R412): of each register that it covers, in ascending
order; ATT_NONCE takes any of its bytes. -/
def State.writeMgmt (s : State) (i n : Nat) (v : Nat) : State :=
  let covers := fun (a m : Nat) => decide (i ≤ a) && decide (a + m ≤ i + n)
  let at_ := fun (a : Nat) => v / 2 ^ (8 * (a - i))
  let s := if covers 0x28 2 then s.writePcap (BitVec.ofNat 64 (at_ 0x28)) else s
  let s := if covers 0x30 2 then s.writeTlimit (BitVec.ofNat 64 (at_ 0x30)) else s
  let lo := max i 0x40
  let hi := min (i + n) 0x60
  let s := if lo < hi then
      let o := 8 * (lo - 0x40)
      let m := (2 ^ (8 * (hi - lo)) - 1) * 2 ^ o
      let x := s.mgmt.nonce &&& ~~~(BitVec.ofNat 256 m) ||| BitVec.ofNat 256 (at_ lo % 2 ^ (8 * (hi - lo)) * 2 ^ o)
      { s with mgmt := { s.mgmt with nonce := x } }
    else s
  if covers 0x60 1 then
    if at_ 0x60 % 2 = 1 then s.writeGo else { s with mgmt := { s.mgmt with attGo := false } }
  else s
/-- The aligned 8-byte registers that a span of n bytes from an offset touches. -/
def touchedWords (off n : Nat) : List Nat :=
  if n = 0 then [] else (List.range ((off + n - 1) / 8 + 1 - off / 8)).map fun k => 8 * (off / 8 + k)
/-- A span covers an aligned 8-byte register whole. -/
def coversWord (off n a : Nat) : Bool := decide (off ≤ a) && decide (a + 8 ≤ off + n)
/-- A request has been completed, or has completed as Unsupported Request (R392). -/
def State.completed (s : State) (ur : Bool) : State := { s with host := { s.host with unsupported := ur } }
/-- A write of a register window at an offset of BAR0 (R393): a register that is covered only in part keeps its value (log 30),
and reports a refusal all the same. -/
def State.windowWrite (s : State) (b : Agent) (a : Nat) (whole : Bool) (v : Word) : State :=
  match hostAim b a with
  | .reg c r =>
    if 2 ^ 12 ≤ a % 2 ^ 15 / 8 then s
    else if whole then s.hostReg b c r v
    else match s.windowRefusal b c r true with
      | some bit => s.hostErr b bit (regOffset c r)
      | none => s
  | _ => s
/-- A host write (R393, R394): performed at its home, in the order in which the host's writes arrive; over I3C, of a management
register (R412). -/
def execHostWrite (b : Agent) (addr : Nat) (n : Fin 257) (v : BitVec 2048) (s : State) : Outcome :=
  if b = .i3c then .next (s.writeMgmt (addr % 2 ^ 16) n.val v.toNat)
  else if !s.functionOn b then .next s
  else
    let o := addr % 2 ^ 32
    let word := fun (a : Nat) => BitVec.ofNat 64 (v.toNat / 2 ^ (8 * (a - o)))
    match hostAim b addr with
    | .unsupported => .next (s.completed true)
    | .nothing => .next (s.completed false)
    | .sriov => .next (State.completed { s with host := { s.host with vfEnable := v.getLsbD 0 } } false)
    | .table i =>
      .next (State.completed (if n.val = 16 then
        { s with host := { s.host with msixTable := SMap.set 0 s.host.msixTable (2 * hostFunction b + i) (v.setWidth 128) } } else s) false)
    | .aperture off =>
      match s.apertureAddr b off n.val with
      | some a => match s.hostGrant b off a n.val false with
        | .refused s => .next (s.completed false)
        | .wait => .next s
        | .ok s => .next ((s.poke a (toBytes n.val v.toNat)).completed false)
      | none => .next ((s.hostErr b 3 off).completed false)
    | .block off =>
      .next ((if 0x10000 ≤ off ∧ off < 0x11000 then s.writeMgmt (off - 0x10000) n.val v.toNat
        else ((touchedWords off n.val).filter (coversWord off n.val)).foldl (fun s a => s.writeBlock8 a (word (a + 2 ^ 24))) s).completed false)
    | .reg .. =>
      .next (((touchedWords o n.val).foldl (fun s a => s.windowWrite b a (coversWord o n.val a) (word a)) s).completed false)
/-- A register read through a window: its value, or zero with HOSTERR set (R393). -/
def State.hostRegRead (s : State) (b : Agent) (c : CoreId) (r : BitVec 12) : Word × State :=
  match s.windowRefusal b c r false with
  | some bit => (0, s.hostErr b bit (regOffset c r))
  | none => if sysRegKnown r then s.readReg c r else (0, s)
/-- The bytes of registers of windows at offsets of BAR0, one after another. -/
def State.windowBytes (s : State) (b : Agent) : List Nat → List Byte × State
  | [] => ([], s)
  | a :: as =>
    let x : Word × State := match hostAim b a with
      | .reg c r => if a % 2 ^ 15 / 8 < 2 ^ 12 then s.hostRegRead b c r else (0, s)
      | _ => (0, s)
    let y := x.2.windowBytes b as
    (toBytes 8 x.1.toNat ++ y.1, y.2)
/-- What a host read returns. -/
def State.answerHost (s : State) (v : Nat) : State := { s with host := { s.host with readData := BitVec.ofNat 4096 v, unsupported := false } }
/-- A host read (R393, R394): the value its home holds, or zero where it is refused; all ones after THERMTRIP_N (R414); over
I3C, of management registers (R412). -/
def execHostRead (b : Agent) (addr : Nat) (n : Fin 513) (s : State) : Outcome :=
  if b = .i3c then .next (if s.held then s else s.answerHost (ofBytes (s.mgmt.bytes (addr % 2 ^ 16) n.val)))
  else if s.mgmt.tripped then .next (s.answerHost (2 ^ 4096 - 1))
  else if !s.functionOn b || s.held then .next s
  else
    let o := addr % 2 ^ 32
    match hostAim b addr with
    | .unsupported => .next (s.completed true)
    | .nothing => .next (s.answerHost 0)
    | .sriov => .next (s.answerHost (if s.host.vfEnable then 1 else 0))
    | .table i => .next (s.answerHost (SMap.get 0 s.host.msixTable (2 * hostFunction b + i)).toNat)
    | .aperture off =>
      match s.apertureAddr b off n.val with
      | some a => match s.hostGrant b off a n.val true with
        | .refused s => .next (s.answerHost 0)
        | .wait => .next s
        | .ok s => .next (s.answerHost (s.peek a n.val).1)
      | none => .next ((s.hostErr b 3 off).answerHost 0)
    | .block off =>
      if 0x10000 ≤ off ∧ off < 0x11000 then .next (s.answerHost (ofBytes (s.mgmt.bytes (off - 0x10000) n.val)))
      else
        let bs := (touchedWords off n.val).flatMap fun a => toBytes 8 (s.blockWord a).toNat
        .next (s.answerHost (ofBytes ((bs.drop (off % 8)).take n.val)))
    | .reg .. =>
      let x := s.windowBytes b (touchedWords o n.val)
      .next (x.2.answerHost (ofBytes ((x.1.drop (o % 8)).take n.val)))

/-- A function-level reset of a virtual function (R395): its MSI-X table and its part of HOSTERR. -/
def execVfFunctionReset (p : PartId) (s : State) : Outcome :=
  .next { s with host := { s.host with
    errBy := s.host.errBy.set p 0, msix := s.host.msix.filter fun m => m.1 != p.val + 1
    msixTable := SMap.erase s.host.msixTable (2 * (p.val + 1)) } }
/-- A function-level reset of the physical function (R395): the virtual functions disappear, and their tables with them. -/
def execPfFunctionReset (s : State) : Outcome :=
  .next { s with host := { s.host with
    errBits := 0, errOffs := 0, errBy := .replicate 16 0, msix := [], msixTable := [], vfEnable := false } }

end Sys2Proof.Machine
end

