-- ==== Sys2Proof/Machine/Bringup.lean ====
section
/-! DEFINITION. Power, reset, boot, the governor, and attestation (R406 to R414). -/

namespace Sys2Proof.Machine

/-- The device at its reset values (R407): what is the model's own, and the count of resets, goes on. -/
def State.fresh (s : State) : State :=
  let r := State.reset
  { r with cur := s.cur, turns := s.turns, steps := s.steps, free := s.free, mgmt := { r.mgmt with resets := s.mgmt.resets } }
/-- A low level on RST_N resets the whole device; HBM is not kept (R407). -/
def execRstNAssert (s : State) : Outcome :=
  if s.mgmt.rstLow then .next s
  else
    let r := s.fresh
    .next { r with mgmt := { r.mgmt with rstLow := true, powered := s.mgmt.powered, resets := s.mgmt.resets + 1 } }
/-- At the release of RST_N the service processor begins the boot (R408), and `ctl.cycle` counts from 0 (R168). -/
def execRstNRelease (s : State) : Outcome :=
  if s.mgmt.rstLow && s.mgmt.powered then .next { s with cycle := 0, mgmt := { s.mgmt with rstLow := false, stage := 1, err := 0 } } else .next s
/-- The rails ramp, with RST_N low; in a wrong order the device stays in reset with ERR 1 (R406). -/
def execPowerRamp (ok : Bool) (s : State) : Outcome :=
  if s.mgmt.powered then .next s
  else .next { s with mgmt := { s.mgmt with powered := ok, rstLow := true, err := if ok then 0 else 1 } }
/-- The board removes power: no state is kept (R414). -/
def execPowerRemoval (s : State) : Outcome :=
  let r := s.fresh
  .next { r with mgmt := { r.mgmt with powered := false, rstLow := true } }

/-- Flelas prepares a core's M frame (R409): M_VEC is the monitor's entry, and what the rest works with is open. -/
def State.prepareCore (s : State) (c : CoreId) (entry : Nat) : State :=
  let a := s.takeWord
  let b := a.2.takeWords 11
  b.2.modCore c fun k =>
    let k := k.modRegs fun r => { r with faultBase := a.1 &&& ~~~0xFFE }
    let x := ((List.range 11).zip b.1).foldl (fun (x : Frame) y => x.write (if y.1 = 10 then 11 else y.1) y.2) k.live.front.mFrame
    k.setFront { k.live.front with mFrame := { x with vec := BitVec.ofNat 64 entry } }
/-- Stage 4 (R408, R409): MDBASE and CTXDIR take the monitor's values, the monitor's code goes into local HBM, and the cores
are prepared. -/
def State.prepare (s : State) : State :=
  let entry := 80 * (Config.monitorLine % 2 ^ 32)
  let s := s.poke entry Config.monitorCode
  let s := (List.finRange 8).foldl (fun s (i : StackId) =>
    let t := s.takeNat
    { t.2 with pkg := { t.2.pkg with mdbase := t.2.pkg.mdbase.set i (BitVec.ofNat 64 (t.1 % 2 ^ 14 * 2 ^ 25)) } }) s
  let t := s.takeNat
  let s := { t.2 with pkg := { t.2.pkg with ctxdir := BitVec.ofNat 64 (t.1 % 2 ^ 27 * 2 ^ 12) } }
  (List.finRange 256).foldl (fun s c => s.prepareCore c entry) s
/-- A core leaves its hold (R409). -/
def Core.leaveHold (k : Core) (now : Nat) : Core :=
  let f := k.live.front
  let k := { k with run := { k.run with inHold := false } }
  k.setFront { Front.reset with
    sFrame := f.sFrame, mFrame := f.mFrame
    at_ := { Front.reset.at_ with pc := f.mFrame.vec, nextAt := now + 1 } }
/-- Stage 5 (R408, R409): the cores start at level M, package time at 0, and the ports named in flash train. -/
def State.release (s : State) : State :=
  { s with
    cores := s.cores.map fun k => k.leaveHold s.cycle
    ports := Vector.ofFn fun (q : PortId) =>
      let x := s.ports[q]
      if Config.flashPorts.getLsbD q.val then { x with ctl := x.ctl ||| 1, state := 1 } else x
    ptime := 0, sixths := 0, timeRuns := true }
/-- A boot stage runs (R408): the next stage follows, or the first failure stops the boot with its ERR. -/
def execBootStage (ok : Bool) (s : State) : Outcome :=
  let g := s.mgmt
  let goTo := fun (s : State) (n : Fin 7) => { s with mgmt := { s.mgmt with stage := n } }
  let t := s.takeNat
  let fail := fun (s : State) (e : Byte) => { s with mgmt := { s.mgmt with err := e } }
  if s.held || g.err != 0 || g.pcie then .next s
  else match g.stage.val with
    | 1 => .next (if ok then goTo s 2 else fail s 1)
    | 2 => .next (if ok then goTo s 3 else fail t.2 (if t.1 % 2 = 0 then 2 else 3))
    | 3 => .next (if ok then goTo s 4 else fail s 4)
    | 4 => .next (if ok then goTo s.prepare 5 else fail t.2 (if t.1 % 2 = 0 then 5 else 6))
    | 5 => .next (goTo s.release 6)
    | _ => .next (if ok then { s with mgmt := { g with pcie := true } } else fail s 7)
/-- A strike report for the service processor (R410): Flelas restarts and posts a message, or the boot goes back. -/
def execServiceProcessorStrike (s : State) : Outcome :=
  let g := s.mgmt
  if s.held || g.err != 0 then .next s
  else if g.stage = 6 then .next { s with host := { s.host with msix := s.host.msix ++ [(0, 0)] } }
  else if g.stage.val ≤ 3 then .next { s with mgmt := { g with stage := 2 } }
  else .next s

/-- The limit after a sample (R413). -/
def Mgmt.govern (g : Mgmt) : Nat :=
  let cap := if g.pcap = 0 then 2200 else g.pcap.toNat
  let over_ := decide (cap < g.power.toNat) || g.temps.any fun t => decide (g.tlimit.toInt < t.toInt)
  let under := decide (100 * g.power.toNat < 95 * cap) && g.temps.all fun t => decide (t.toInt < g.tlimit.toInt - 32)
  if over_ then max 64 (g.glim - 64) else if under then min 4096 (g.glim + 64) else g.glim
/-- Every 10 µs the governor samples power and temperatures, which are open, and moves GLIM (R413); a die that has reached
105 °C makes the device assert THERMTRIP_N (R414). -/
def execGovernorSample (s : State) : Outcome :=
  if s.cycle % 12000 ≠ 0 ∨ s.mgmt.sampledAt = some s.cycle then .next s
  else
    let t := s.takeNat
    let g : Mgmt := { t.2.mgmt with
      power := BitVec.ofNat 16 t.1
      temps := Vector.ofFn fun (d : DieId) => BitVec.ofNat 16 (t.1 / 2 ^ (16 * (d.val + 1)))
      sampledAt := some s.cycle }
    .next { t.2 with mgmt := { g with glim := g.govern, tripped := g.tripped || g.temps.any fun t => decide (105 * 16 ≤ t.toInt) } }
/-- A die reaches 105 °C (R414): THERMTRIP_N is asserted, and everything is held where it stands. -/
def execThermtrip (d : DieId) (s : State) : Outcome :=
  .next { s with mgmt := { s.mgmt with tripped := true, temps := s.mgmt.temps.set d (BitVec.ofNat 16 (105 * 16)) } }

/-- The report before its signature (R411). -/
def State.reportBody (s : State) : List Byte :=
  toBytes 32 s.mgmt.nonceUsed.toNat ++ ((List.range 32).map Config.imageDigest) ++ toBytes 8 Config.imageVersion.toNat ++
  ((List.range 4).flatMap fun i => toBytes 8 (featureWord i).toNat) ++ toBytes 8 s.pkg.accept.toNat ++ toBytes 24 0 ++
  (s.pkg.pmap.toList.flatMap fun w => toBytes 8 w.toNat) ++ toBytes 8 s.pkg.pctl.toNat ++ toBytes 8 s.mgmt.resets
/-- Flelas finishes the report (R411). -/
def execAttReportReady (s : State) : Outcome :=
  if !s.mgmt.attBusy then .next s
  else
    let b := s.reportBody
    .next { s with mgmt := { s.mgmt with
      report := b ++ (List.range 64).map (Config.reportSignature b), attBusy := false, attReady := true } }

end Sys2Proof.Machine
end

