-- ==== Sys2Proof/Machine/Dispatch.lean ====
section
/-! DEFINITION. One arm per instruction. -/

namespace Sys2Proof.Machine

def exec (i : Instr) (s : State) : Host.Outcome State Fault Refusal :=
  match i with
  | .add h w d a b => Sys2Proof.Machine.execAdd h w d a b s
  | .sub h w d a b => Sys2Proof.Machine.execSub h w d a b s
  | .addi h d a imm => Sys2Proof.Machine.execAddi h d a imm s
  | .mul h w d a b => Sys2Proof.Machine.execMul h w d a b s
  | .mulh h w d a b => Sys2Proof.Machine.execMulh h w d a b s
  | .mulhu h w d a b => Sys2Proof.Machine.execMulhu h w d a b s
  | .div h w d a b => Sys2Proof.Machine.execDiv h w d a b s
  | .divu h w d a b => Sys2Proof.Machine.execDivu h w d a b s
  | .rem h w d a b => Sys2Proof.Machine.execRem h w d a b s
  | .remu h w d a b => Sys2Proof.Machine.execRemu h w d a b s
  | .and h d a b => Sys2Proof.Machine.execAnd h d a b s
  | .or h d a b => Sys2Proof.Machine.execOr h d a b s
  | .xor h d a b => Sys2Proof.Machine.execXor h d a b s
  | .andn h d a b => Sys2Proof.Machine.execAndn h d a b s
  | .shl h w d a n => Sys2Proof.Machine.execShl h w d a n s
  | .shr h w d a n => Sys2Proof.Machine.execShr h w d a n s
  | .sra h w d a n => Sys2Proof.Machine.execSra h w d a n s
  | .rot h d a n => Sys2Proof.Machine.execRot h d a n s
  | .clz h w d a => Sys2Proof.Machine.execClz h w d a s
  | .ctz h w d a => Sys2Proof.Machine.execCtz h w d a s
  | .popc h w d a => Sys2Proof.Machine.execPopc h w d a s
  | .min h w d a b => Sys2Proof.Machine.execMin h w d a b s
  | .max h w d a b => Sys2Proof.Machine.execMax h w d a b s
  | .minu h w d a b => Sys2Proof.Machine.execMinu h w d a b s
  | .maxu h w d a b => Sys2Proof.Machine.execMaxu h w d a b s
  | .sext h x d a => Sys2Proof.Machine.execSext h x d a s
  | .zext h x d a => Sys2Proof.Machine.execZext h x d a s
  | .bfx h signed d a wm1 lsb => Sys2Proof.Machine.execBfx h signed d a wm1 lsb s
  | .bfi h d a wm1 lsb => Sys2Proof.Machine.execBfi h d a wm1 lsb s
  | .mov h d a => Sys2Proof.Machine.execMov h d a s
  | .movi h d imm => Sys2Proof.Machine.execMovi h d imm s
  | .movhi h d imm => Sys2Proof.Machine.execMovhi h d imm s
  | .sel h d a b c => Sys2Proof.Machine.execSel h d a b c s
  | .cmp h w k d a b => Sys2Proof.Machine.execCmp h w k d a b s
  | .lea h d a b sh => Sys2Proof.Machine.execLea h d a b sh s
  | .fadd h rm d a b => Sys2Proof.Machine.execFadd h rm d a b s
  | .fsub h rm d a b => Sys2Proof.Machine.execFsub h rm d a b s
  | .fmul h rm d a b => Sys2Proof.Machine.execFmul h rm d a b s
  | .ffma h rm d a b c => Sys2Proof.Machine.execFfma h rm d a b c s
  | .fmin h d a b => Sys2Proof.Machine.execFmin h d a b s
  | .fmax h d a b => Sys2Proof.Machine.execFmax h d a b s
  | .fcmp h k d a b => Sys2Proof.Machine.execFcmp h k d a b s
  | .fcvt h k rm sat d a => Sys2Proof.Machine.execFcvt h k rm sat d a s
  | .br h off => Sys2Proof.Machine.execBr h off s
  | .bc h k off => Sys2Proof.Machine.execBc h k off s
  | .call h off => Sys2Proof.Machine.execCall h off s
  | .ret h a => Sys2Proof.Machine.execRet h a s
  | .jmpr h link a => Sys2Proof.Machine.execJmpr h link a s
  | .loop h set1 a off => Sys2Proof.Machine.execLoop h set1 a off s
  | .loopi h set1 count off => Sys2Proof.Machine.execLoopi h set1 count off s
  | .endit h => Sys2Proof.Machine.execEndit h s
  | .trap h imm => Sys2Proof.Machine.execTrap h imm s
  | .nop h => Sys2Proof.Machine.execNop h s
  | .pause h imm => Sys2Proof.Machine.execPause h imm s
  | .getc h r d sel => Sys2Proof.Machine.execGetc h r d sel s
  | .setc h r a => Sys2Proof.Machine.execSetc h r a s
  | .vadd h t rm d a b => Sys2Proof.Machine.execVadd h t rm d a b s
  | .vsub h t rm d a b => Sys2Proof.Machine.execVsub h t rm d a b s
  | .vmul h t rm d a b => Sys2Proof.Machine.execVmul h t rm d a b s
  | .vfma h t rm d a b c => Sys2Proof.Machine.execVfma h t rm d a b c s
  | .vfms h t rm d a b c => Sys2Proof.Machine.execVfms h t rm d a b c s
  | .vnfma h t rm d a b c => Sys2Proof.Machine.execVnfma h t rm d a b c s
  | .vmin h t u d a b => Sys2Proof.Machine.execVmin h t u d a b s
  | .vmax h t u d a b => Sys2Proof.Machine.execVmax h t u d a b s
  | .vabs h t d a => Sys2Proof.Machine.execVabs h t d a s
  | .vneg h t d a => Sys2Proof.Machine.execVneg h t d a s
  | .vcmp h k d a b => Sys2Proof.Machine.execVcmp h k d a b s
  | .vsel h d a b c => Sys2Proof.Machine.execVsel h d a b c s
  | .vand h d a b => Sys2Proof.Machine.execVand h d a b s
  | .vor h d a b => Sys2Proof.Machine.execVor h d a b s
  | .vxor h d a b => Sys2Proof.Machine.execVxor h d a b s
  | .vnot h d a => Sys2Proof.Machine.execVnot h d a s
  | .vshl h t d a n => Sys2Proof.Machine.execVshl h t d a n s
  | .vshr h t d a n => Sys2Proof.Machine.execVshr h t d a n s
  | .vsra h t d a n => Sys2Proof.Machine.execVsra h t d a n s
  | .vadds h t u subtract d a b => Sys2Proof.Machine.execVadds h t u subtract d a b s
  | .vmulh h t u d a b => Sys2Proof.Machine.execVmulh h t u d a b s
  | .vdot2 h flt rm d a b c => Sys2Proof.Machine.execVdot2 h flt rm d a b c s
  | .vexp2 h d a => Sys2Proof.Machine.execVexp2 h d a s
  | .vlog2 h d a => Sys2Proof.Machine.execVlog2 h d a s
  | .vrcp h d a => Sys2Proof.Machine.execVrcp h d a s
  | .vrsqrt h d a => Sys2Proof.Machine.execVrsqrt h d a s
  | .vsqrt h rm d a => Sys2Proof.Machine.execVsqrt h rm d a s
  | .vtanh h d a => Sys2Proof.Machine.execVtanh h d a s
  | .vsigm h d a => Sys2Proof.Machine.execVsigm h d a s
  | .vbcast h d a => Sys2Proof.Machine.execVbcast h d a s
  | .vmov h f => Sys2Proof.Machine.execVmov h f s
  | .vperm h d a b => Sys2Proof.Machine.execVperm h d a b s
  | .vrot h d a n => Sys2Proof.Machine.execVrot h d a n s
  | .vslide h up d a c n => Sys2Proof.Machine.execVslide h up d a c n s
  | .vcompact h d a c => Sys2Proof.Machine.execVcompact h d a c s
  | .vexpand h d a c => Sys2Proof.Machine.execVexpand h d a c s
  | .vredsum h t d a c => Sys2Proof.Machine.execVredsum h t d a c s
  | .vredmax h t d a c => Sys2Proof.Machine.execVredmax h t d a c s
  | .vredmin h t d a c => Sys2Proof.Machine.execVredmin h t d a c s
  | .vscan h flt d a c => Sys2Proof.Machine.execVscan h flt d a c s
  | .vtopk h flt mag idx k d a c => Sys2Proof.Machine.execVtopk h flt mag idx k d a c s
  | .vbmand h d f => Sys2Proof.Machine.execVbmand h d f s
  | .vpopc h d a => Sys2Proof.Machine.execVpopc h d a s
  | .vpfx h d a => Sys2Proof.Machine.execVpfx h d a s
  | .vcvt h up rm sat t d a => Sys2Proof.Machine.execVcvt h up rm sat t d a s
  | .vquantScale h t d a c => Sys2Proof.Machine.execVquantScale h t d a c s
  | .vquant h rm sat t d a b => Sys2Proof.Machine.execVquant h rm sat t d a b s
  | .vdequant h rm t d a b => Sys2Proof.Machine.execVdequant h rm t d a b s
  | .vpack h t part d a => Sys2Proof.Machine.execVpack h t part d a s
  | .vunpack h t part d a => Sys2Proof.Machine.execVunpack h t part d a s
  | .vrnd h rm d a => Sys2Proof.Machine.execVrnd h rm d a s
  | .pand h d a b => Sys2Proof.Machine.execPand h d a b s
  | .por h d a b => Sys2Proof.Machine.execPor h d a b s
  | .pxor h d a b => Sys2Proof.Machine.execPxor h d a b s
  | .pnot h d a => Sys2Proof.Machine.execPnot h d a s
  | .pcnt h bits d a => Sys2Proof.Machine.execPcnt h bits d a s
  | .pfirst h d a => Sys2Proof.Machine.execPfirst h d a s
  | .pset h d f => Sys2Proof.Machine.execPset h d f s
  | .ld h d base sp w sx off => Sys2Proof.Machine.execLd h d base sp w sx off s
  | .st h data base sp w off => Sys2Proof.Machine.execSt h data base sp w off s
  | .ldacq h d base sp w scope sx off => Sys2Proof.Machine.execLdacq h d base sp w scope sx off s
  | .strel h data base sp w scope off => Sys2Proof.Machine.execStrel h data base sp w scope off s
  | .vld h d base sp str off => Sys2Proof.Machine.execVld h d base sp str off s
  | .vst h data base sp str off => Sys2Proof.Machine.execVst h data base sp str off s
  | .vgather h d base sp x off => Sys2Proof.Machine.execVgather h d base sp x off s
  | .vscatter h data base sp comb x off => Sys2Proof.Machine.execVscatter h data base sp comb x off s
  | .align h => Sys2Proof.Machine.execAlign h s
  | .fence h ord scope => Sys2Proof.Machine.execFence h ord scope s
  | .amo h d base dbl scope ord op u off => Sys2Proof.Machine.execAmo h d base dbl scope ord op u off s
  | .cas h d base dbl scope ord off => Sys2Proof.Machine.execCas h d base dbl scope ord off s
  | .cred h data base dbl scope ord op u cm1 off => Sys2Proof.Machine.execCred h data base dbl scope ord op u cm1 off s
  | .barInit h data base scope off => Sys2Proof.Machine.execBarInit h data base scope off s
  | .barArrive h base rel scope off => Sys2Proof.Machine.execBarArrive h base rel scope off s
  | .barWait h base scope ph off => Sys2Proof.Machine.execBarWait h base scope ph off s
  | .gjoin h base off => Sys2Proof.Machine.execGjoin h base off s
  | .gleave h base off => Sys2Proof.Machine.execGleave h base off s
  | .gbar h base scope off => Sys2Proof.Machine.execGbar h base scope off s
  | .tokw h wp wn => Sys2Proof.Machine.execTokw h wp wn s
  | .toks h sp sn => Sys2Proof.Machine.execToks h sp sn s
  | .carve h t a b clr => Sys2Proof.Machine.execCarve h t a b clr s
  | .wload h t q a => Sys2Proof.Machine.execWload h t q a s
  | .mmap h t a b => Sys2Proof.Machine.execMmap h t a b s
  | .plane h t copy => Sys2Proof.Machine.execPlane h t copy s
  | .sbind h t q lane en => Sys2Proof.Machine.execSbind h t q lane en s
  | .feed h t q a b c lane slot tpsm1 => Sys2Proof.Machine.execFeed h t q a b c lane slot tpsm1 s
  | .feedx h t a b c lane slot fmt => Sys2Proof.Machine.execFeedx h t a b c lane slot fmt s
  | .drain h t q a b lane bias => Sys2Proof.Machine.execDrain h t q a b lane bias s
  | .aclr h t b => Sys2Proof.Machine.execAclr h t b s
  | .pstat h d sel => Sys2Proof.Machine.execPstat h d sel s
  | .qdef h q a b => Sys2Proof.Machine.execQdef h q a b s
  | .qreset h q => Sys2Proof.Machine.execQreset h q s
  | .qfill h q a => Sys2Proof.Machine.execQfill h q a s
  | .qpop h d q => Sys2Proof.Machine.execQpop h d q s
  | .qpopFree h d q => Sys2Proof.Machine.execQpopFree h d q s
  | .qtag h d q slot ptr => Sys2Proof.Machine.execQtag h d q slot ptr s
  | .cdef h e sp a => Sys2Proof.Machine.execCdef h e sp a s
  | .cgo h e a b => Sys2Proof.Machine.execCgo h e a b s
  | .cdem h e a b => Sys2Proof.Machine.execCdem h e a b s
  | .cwait h e => Sys2Proof.Machine.execCwait h e s
  | .circ h n q a b => Sys2Proof.Machine.execCirc h n q a b s
  | .ccls h n => Sys2Proof.Machine.execCcls h n s
  | .cstat h d circuit n => Sys2Proof.Machine.execCstat h d circuit n s
  | .wdrive h d a => Sys2Proof.Machine.execWdrive h d a s
  | .wdriveNew h d a => Sys2Proof.Machine.execWdriveNew h d a s
  | .wdriveAbort h d => Sys2Proof.Machine.execWdriveAbort h d s
  | .wstat h d sel => Sys2Proof.Machine.execWstat h d sel s
  | .launch h d a q => Sys2Proof.Machine.execLaunch h d a q s
  | .lwait h d a => Sys2Proof.Machine.execLwait h d a s
  | .lwaitT h d a => Sys2Proof.Machine.execLwaitT h d a s
  | .rett h => Sys2Proof.Machine.execRett h s
  | .prd h r d => Sys2Proof.Machine.execPrd h r d s
  | .pwr h r a => Sys2Proof.Machine.execPwr h r a s
  | .tlbi h scope kind => Sys2Proof.Machine.execTlbi h scope kind s
  | .cast h d f j => Sys2Proof.Machine.execCast h d f j s
  | .freeze h f a => Sys2Proof.Machine.execFreeze h f a s
  | .thaw h f a => Sys2Proof.Machine.execThaw h f a s
  | .wfi h wake a => Sys2Proof.Machine.execWfi h wake a s
  | .ctxsave h a => Sys2Proof.Machine.execCtxsave h a s
  | .ctxload h a => Sys2Proof.Machine.execCtxload h a s
  | .qsave h q a => Sys2Proof.Machine.execQsave h q a s
  | .qload h q a => Sys2Proof.Machine.execQload h q a s
  | .sysc h n => Sys2Proof.Machine.execSysc h n s
  | .halt h => Sys2Proof.Machine.execHalt h s
  | .pauseEnd c => Sys2Proof.Machine.execPauseEnd c s
  | .releaseWaitEnd c => Sys2Proof.Machine.execReleaseWaitEnd c s
  | .tokwPop c => Sys2Proof.Machine.execTokwPop c s
  | .carveBegin c => Sys2Proof.Machine.execCarveBegin c s
  | .carveRecordRead c => Sys2Proof.Machine.execCarveRecordRead c s
  | .wloadSlotStep c => Sys2Proof.Machine.execWloadSlotStep c s
  | .mmapBegin c => Sys2Proof.Machine.execMmapBegin c s
  | .sbindBegin c => Sys2Proof.Machine.execSbindBegin c s
  | .planeSwap c => Sys2Proof.Machine.execPlaneSwap c s
  | .feedArm c => Sys2Proof.Machine.execFeedArm c s
  | .tokenEntryBegin c q => Sys2Proof.Machine.execTokenEntryBegin c q s
  | .poolOperationFire c lane => Sys2Proof.Machine.execPoolOperationFire c lane s
  | .passEnterResultStage c lane => Sys2Proof.Machine.execPassEnterResultStage c lane s
  | .operationRetire c lane => Sys2Proof.Machine.execOperationRetire c lane s
  | .extendedPartArrive msg => Sys2Proof.Machine.execExtendedPartArrive msg s
  | .drainBegin c => Sys2Proof.Machine.execDrainBegin c s
  | .drainSlotFull c => Sys2Proof.Machine.execDrainSlotFull c s
  | .aclrBegin c => Sys2Proof.Machine.execAclrBegin c s
  | .qdefTakeEffect c q => Sys2Proof.Machine.execQdefTakeEffect c q s
  | .qresetTakeEffect c q => Sys2Proof.Machine.execQresetTakeEffect c q s
  | .qfillSlotFull c q => Sys2Proof.Machine.execQfillSlotFull c q s
  | .qpopTake c => Sys2Proof.Machine.execQpopTake c s
  | .cdefReadComplete c e => Sys2Proof.Machine.execCdefReadComplete c e s
  | .cwaitReturn c => Sys2Proof.Machine.execCwaitReturn c s
  | .copyBlock c e => Sys2Proof.Machine.execCopyBlock c e s
  | .copyDone c e => Sys2Proof.Machine.execCopyDone c e s
  | .copyCompletionTokenPush c e => Sys2Proof.Machine.execCopyCompletionTokenPush c e s
  | .circuitOpeningArrive msg => Sys2Proof.Machine.execCircuitOpeningArrive msg s
  | .circuitReplyArrive msg => Sys2Proof.Machine.execCircuitReplyArrive msg s
  | .circuitFlitLeave c n => Sys2Proof.Machine.execCircuitFlitLeave c n s
  | .branchFillBegin c n branch => Sys2Proof.Machine.execBranchFillBegin c n branch s
  | .circuitFlitArrive c n branch => Sys2Proof.Machine.execCircuitFlitArrive c n branch s
  | .circuitClosed c n => Sys2Proof.Machine.execCircuitClosed c n s
  | .feltHeaderRead c => Sys2Proof.Machine.execFeltHeaderRead c s
  | .feltActionPlace c => Sys2Proof.Machine.execFeltActionPlace c s
  | .loadwBlock c => Sys2Proof.Machine.execLoadwBlock c s
  | .walkerToken c => Sys2Proof.Machine.execWalkerToken c s
  | .feltSuccessor c => Sys2Proof.Machine.execFeltSuccessor c s
  | .tagbrResolve c => Sys2Proof.Machine.execTagbrResolve c s
  | .launchRequestArrive msg => Sys2Proof.Machine.execLaunchRequestArrive msg s
  | .lwaitReturn c => Sys2Proof.Machine.execLwaitReturn c s
  | .freezeApply msg => Sys2Proof.Machine.execFreezeApply msg s
  | .wfiWake c => Sys2Proof.Machine.execWfiWake c s
  | .engineFaultTaken c => Sys2Proof.Machine.execEngineFaultTaken c s
  | .registerResultArrive c t => Sys2Proof.Machine.execRegisterResultArrive c t s
  | .holdbackDepart c n => Sys2Proof.Machine.execHoldbackDepart c n s
  | .writeAgePerform c b order => Sys2Proof.Machine.execWriteAgePerform c b order s
  | .loadPerform c n unit => Sys2Proof.Machine.execLoadPerform c n unit s
  | .homeStoreApply msg unit => Sys2Proof.Machine.execHomeStoreApply msg unit s
  | .amoApply msg => Sys2Proof.Machine.execAmoApply msg s
  | .casApply msg => Sys2Proof.Machine.execCasApply msg s
  | .credApply msg => Sys2Proof.Machine.execCredApply msg s
  | .barInitApply msg => Sys2Proof.Machine.execBarInitApply msg s
  | .barrierArrivalApply msg => Sys2Proof.Machine.execBarrierArrivalApply msg s
  | .boundCopyWriteApply msg => Sys2Proof.Machine.execBoundCopyWriteApply msg s
  | .barWaitCheck c => Sys2Proof.Machine.execBarWaitCheck c s
  | .barWaitReturn c => Sys2Proof.Machine.execBarWaitReturn c s
  | .groupOpApply msg => Sys2Proof.Machine.execGroupOpApply msg s
  | .gbarArrivalApply msg => Sys2Proof.Machine.execGbarArrivalApply msg s
  | .gbarReturn c => Sys2Proof.Machine.execGbarReturn c s
  | .requestAck c n => Sys2Proof.Machine.execRequestAck c n s
  | .freeNoticeArrive msg => Sys2Proof.Machine.execFreeNoticeArrive msg s
  | .slotReleaseDepart c q => Sys2Proof.Machine.execSlotReleaseDepart c q s
  | .cacheMissRead d block => Sys2Proof.Machine.execCacheMissRead d block s
  | .compressedWriteback d block => Sys2Proof.Machine.execCompressedWriteback d block s
  | .walkSlotGrant d => Sys2Proof.Machine.execWalkSlotGrant d s
  | .pageWalkComplete c n => Sys2Proof.Machine.execPageWalkComplete c n s
  | .lqDoorWrite by_ c v => Sys2Proof.Machine.execLqDoorWrite by_ c v s
  | .waitbarRead p q => Sys2Proof.Machine.execWaitbarRead p q s
  | .schedulerGrant p => Sys2Proof.Machine.execSchedulerGrant p s
  | .headStarving p q => Sys2Proof.Machine.execHeadStarving p q s
  | .coreClearComplete c => Sys2Proof.Machine.execCoreClearComplete c s
  | .iterationDispatch c => Sys2Proof.Machine.execIterationDispatch c s
  | .coreRelease c => Sys2Proof.Machine.execCoreRelease c s
  | .launchComplete p n => Sys2Proof.Machine.execLaunchComplete p n s
  | .deadlockDetect p => Sys2Proof.Machine.execDeadlockDetect p s
  | .castTake c => Sys2Proof.Machine.execCastTake c s
  | .strikeReport c time estimate => Sys2Proof.Machine.execStrikeReport c time estimate s
  | .sharedBlockStrike b => Sys2Proof.Machine.execSharedBlockStrike b s
  | .lockstepMismatch b => Sys2Proof.Machine.execLockstepMismatch b s
  | .residueReject msg => Sys2Proof.Machine.execResidueReject msg s
  | .hbmScrubPass x unit => Sys2Proof.Machine.execHbmScrubPass x unit s
  | .hbmErrSample x => Sys2Proof.Machine.execHbmErrSample x s
  | .guardDrop msg => Sys2Proof.Machine.execGuardDrop msg s
  | .dropNoticeArrive msg => Sys2Proof.Machine.execDropNoticeArrive msg s
  | .budgetWindow => Sys2Proof.Machine.execBudgetWindow s
  | .gangSwitch p => Sys2Proof.Machine.execGangSwitch p s
  | .coreStop c => Sys2Proof.Machine.execCoreStop c s
  | .saveComplete c => Sys2Proof.Machine.execSaveComplete c s
  | .loadComplete c => Sys2Proof.Machine.execLoadComplete c s
  | .acceptWrite by_ n v => Sys2Proof.Machine.execAcceptWrite by_ n v s
  | .accept3Write by_ v => Sys2Proof.Machine.execAccept3Write by_ v s
  | .coreCtlWrite by_ c v => Sys2Proof.Machine.execCoreCtlWrite by_ c v s
  | .lqCfgWrite by_ c q v => Sys2Proof.Machine.execLqCfgWrite by_ c q v s
  | .switchAtWrite by_ c v => Sys2Proof.Machine.execSwitchAtWrite by_ c v s
  | .pmapWrite by_ n v => Sys2Proof.Machine.execPmapWrite by_ n v s
  | .pctlWrite by_ v => Sys2Proof.Machine.execPctlWrite by_ v s
  | .calWrite by_ n v => Sys2Proof.Machine.execCalWrite by_ n v s
  | .rtabxWrite by_ p v => Sys2Proof.Machine.execRtabxWrite by_ p v s
  | .budgetWrite by_ c n v => Sys2Proof.Machine.execBudgetWrite by_ c n v s
  | .feedBudWrite by_ c v => Sys2Proof.Machine.execFeedBudWrite by_ c v s
  | .mdbaseWrite by_ x v => Sys2Proof.Machine.execMdbaseWrite by_ x v s
  | .apbaseWrite by_ v => Sys2Proof.Machine.execApbaseWrite by_ v s
  | .lpctlWrite by_ p v => Sys2Proof.Machine.execLpctlWrite by_ p v s
  | .pcapWrite v => Sys2Proof.Machine.execPcapWrite v s
  | .tlimitWrite v => Sys2Proof.Machine.execTlimitWrite v s
  | .attCtlGo => Sys2Proof.Machine.execAttCtlGo s
  | .registerWrite by_ c r v => Sys2Proof.Machine.execRegisterWrite by_ c r v s
  | .hostWrite by_ addr n v => Sys2Proof.Machine.execHostWrite by_ addr n v s
  | .hostRead by_ addr n => Sys2Proof.Machine.execHostRead by_ addr n s
  | .vfFunctionReset p => Sys2Proof.Machine.execVfFunctionReset p s
  | .pfFunctionReset => Sys2Proof.Machine.execPfFunctionReset s
  | .linkFlitReceive p => Sys2Proof.Machine.execLinkFlitReceive p s
  | .linkNakResend p => Sys2Proof.Machine.execLinkNakResend p s
  | .linkResendTimeout p => Sys2Proof.Machine.execLinkResendTimeout p s
  | .portRetrain p => Sys2Proof.Machine.execPortRetrain p s
  | .portTrained p => Sys2Proof.Machine.execPortTrained p s
  | .timeExchange p => Sys2Proof.Machine.execTimeExchange p s
  | .powerRamp ok => Sys2Proof.Machine.execPowerRamp ok s
  | .rstNAssert => Sys2Proof.Machine.execRstNAssert s
  | .rstNRelease => Sys2Proof.Machine.execRstNRelease s
  | .bootStage ok => Sys2Proof.Machine.execBootStage ok s
  | .serviceProcessorStrike => Sys2Proof.Machine.execServiceProcessorStrike s
  | .governorSample => Sys2Proof.Machine.execGovernorSample s
  | .thermtrip d => Sys2Proof.Machine.execThermtrip d s
  | .attReportReady => Sys2Proof.Machine.execAttReportReady s
  | .powerRemoval => Sys2Proof.Machine.execPowerRemoval s
  | .tlbEntryLeave c n => Sys2Proof.Machine.execTlbEntryLeave c n s

end Sys2Proof.Machine
end

