-- ==== Sys2Proof/Machine/Turns.lean ====
section
/-! DEFINITION. The turns of the machine: what a turn does, and which turn comes next. The specification leaves most cycles
open (R103); what it ties to a cycle does not let that cycle pass (R28, R130, R233, R314, R383). -/

namespace Sys2Proof.Machine

/-- A word fetched by the front end of the current core is decoded and executed; one that is not an
instruction raises UNDEF (R138). -/
def stepWord (w : Nat) (s : State) : Outcome :=
  match decode w with
  | .ok i => exec i s
  | .error _ => .next (s.trapHere .undef (BitVec.ofNat 64 w))
/-- A front end fetches its next word and executes it. -/
def stepFront (c : CoreId) (refetch : Bool) (s : State) : Outcome :=
  match State.fetch { s with cur := c } c refetch with
  | .stall s => .next s
  | .trap t s => .next (s.takeTrap c t (s.front c).at_.pc)
  | .word w s => stepWord w s

/-- A front end stands at an instruction boundary of level U at which a fault of a queue or an engine is pending (R314). -/
def Core.faultWaits (k : Core) (now : Nat) : Bool :=
  k.atUserBoundary && k.live.pendingFault.isSome && (k.live.front.at_.wait != .none || decide (k.live.front.at_.nextAt ≤ now))
/-- The front end of a core has trapped since a state: entry is pending, or has left level U, or has frozen the front end. -/
def State.trappedSince (s t : State) (c : CoreId) : Bool :=
  (t.front c).at_.trapping.isSome || (t.front c).level != .u || ((t.core c).regs.freeze.fe && !(s.core c).regs.freeze.fe)
/-- What an instruction boundary of a core does (R314): the word that issues, or a pending fault of a queue or an engine,
unless that word traps itself. -/
def stepBoundary (c : CoreId) (refetch : Bool) (s : State) : Outcome :=
  let o := stepFront c refetch s
  if (s.core c).faultWaits s.cycle then
    match o with
    | .next t => if s.trappedSince t c then o else execEngineFaultTaken c s
    | o => o
  else o

/-- A lane fires, or stops with a fault, when it is asked to. -/
def State.laneMoves (s : State) (c : CoreId) (lane : LaneId) : Bool :=
  match execPoolOperationFire c lane s with
  | .next t => (t.core c).live.queues.lanes[lane] != (s.core c).live.queues.lanes[lane]
  | _ => false
/-- The lane that fires first among those up to a lane: they fire in ascending order (R233). -/
def State.firstLane (s : State) (c : CoreId) (lane : LaneId) : LaneId :=
  ((List.finRange 4).find? fun l => decide (l < lane) && s.laneMoves c l).getD lane

/-- The report that waited for a rollback of a core to end, in the cycle in which it is applied (R362). -/
def State.strikeDue (s : State) (c : CoreId) : Option Nat :=
  let k := s.core c
  if s.cycle < k.run.rollEnd ∨ k.flow.leftAt = some s.cycle then none else k.run.strikes.head?
/-- A core applies the report that waited. -/
def stepStrike (c : CoreId) (s : State) : Outcome :=
  match s.strikeDue c with
  | some e => execStrikeReport c 0 e s
  | none => .next s

/-- What a turn does, once its cycles have passed. -/
def stepAct (a : Act) (s : State) : Outcome :=
  match a with
  | .front c refetch => stepBoundary c refetch s
  | .event (.engineFaultTaken c) =>
    if !(s.core c).faultWaits s.cycle then .next s
    else if (s.core c).mayIssue s.cycle then stepBoundary c false s
    else execEngineFaultTaken c s
  | .event (.poolOperationFire c lane) => execPoolOperationFire c (s.firstLane c lane) s
  | .event i => if isEvent i then exec i s else .next s
  | .cast c => execCastTake c s
  | .strike c => stepStrike c s

-- what a cycle does not pass over

/-- The line of a core's next word is in its instruction cache. -/
def Core.lineThere (k : Core) : Bool :=
  k.icache.any fun l => l.serves k (k.live.front.at_.pcHi.toNat * 2 ^ 64 + (lineOf k.live.front.at_.pc).toNat)
/-- The next word of a core is there and every wait of it has ended: it issues in this cycle (R130, R133). -/
def State.frontMoves (s : State) (c : CoreId) : Bool :=
  let k := s.core c
  k.mayIssue s.cycle && k.lineThere && match stepFront c false s with
    | .next t => t.front c != s.front c
    | _ => false
/-- A cast of a core is due in this cycle (R28). -/
def State.castMoves (s : State) (c : CoreId) : Bool :=
  s.cycle % 128 == 0 && match execCastTake c s with
    | .next t => (t.core c).casts != (s.core c).casts
    | _ => false
/-- What one core does in this cycle and in no later one. -/
def State.dueOf (s : State) (c : CoreId) : Option Act :=
  if (s.strikeDue c).isSome then some (.strike c)
  else if (s.core c).faultWaits s.cycle then some (if (s.core c).mayIssue s.cycle then .front c false else .event (.engineFaultTaken c))
  else if s.frontMoves c then some (.front c false)
  else if s.castMoves c then some (.cast c)
  else ((List.finRange 4).find? (s.laneMoves c)).map fun l => .event (.poolOperationFire c l)
/-- An act that the present cycle does not pass over: the window of the regulators (R383), the governor's sample (R413), or an
act of a core. -/
def State.due (s : State) : Option Act :=
  if s.held then none
  else if s.cycle % 1024 = 0 ∧ s.pkg.windowAt ≠ some s.cycle then some (.event .budgetWindow)
  else if s.cycle % 12000 = 0 ∧ s.mgmt.sampledAt ≠ some s.cycle then some (.event .governorSample)
  else (List.finRange 256).findSome? s.dueOf
/-- The next turn: a settled one, or one that the specification leaves open. A cycle passes once nothing is due in it. -/
def State.nextTurn (s : State) : Turn × State :=
  match s.turns with
  | t :: ts => (t, { s with turns := ts })
  | [] =>
    let t := Config.turn s.steps
    let s := { s with steps := s.steps + 1 }
    if t.wait = 0 then (t, s)
    else match s.due with
      | some a => (⟨0, a⟩, s)
      | none => (⟨1, t.act⟩, s)

end Sys2Proof.Machine
end

