-- ==== Sys2Proof/Machine/Step.lean ====
section
/-! DEFINITION. One step of the device. -/

namespace Sys2Proof.Machine

/-- One step: the next turn's cycles pass, and its front end issues or its event happens. -/
def step (s : State) : Host.Outcome State Fault Refusal :=
  let t := s.nextTurn
  let s := t.2.pass t.1.wait
  if s.held && !Act.outside t.1.act then .next s else stepAct t.1.act s

/-- The state with a word placed where the next step fetches: core 0 has left its hold at level M, its program
counter stands at physical address 0, the word lies there with zeros behind it, and the next turn issues it. -/
def State.withFetchWord (s : State) (nbits w : Nat) : State :=
  let s := s.modCore 0 fun k =>
    { k with
      run := { k.run with inHold := false, stop := .none }
      regs := { k.regs with freeze := ⟨false, false, false, 0⟩ }
      icache := []
      live := { k.live with front := { k.live.front with
        level := .m
        at_ := { k.live.front.at_ with pc := 0, pcHi := 0, wait := .none, idle := false, nextAt := 0, trapping := none } } } }
  { s with
    mem := { s.mem with hbm := s.mem.hbm.put 0 (wordBytes (w % 2 ^ nbits)) }
    mgmt := { s.mgmt with powered := true, rstLow := false, tripped := false }
    turns := ⟨1, .front 0 true⟩ :: s.turns }

end Sys2Proof.Machine
end

