-- ==== Sys2Proof/Safety.lean ====
section
/-! DEFINITION. What counts as a safe run: the machine goes on, its memory keeps its canonical form, and its
package registers keep the values the specification allows. -/

namespace Sys2Proof

/-- A step answers a next state: it neither faults nor refuses. -/
def Advances (s : Machine.State) : Prop := ∃ t, Machine.step s = .next t

/-- HBM and the buffers of every core are in canonical form. -/
def MemoryCanonical (s : Machine.State) : Prop :=
  s.mem.hbm.wf = true ∧
    ∀ c : CoreId, (s.core c).store.wb.wf = true ∧ (s.core c).store.ab.wf = true ∧ (s.core c).store.cb.wf = true

/-- ACCEPT holds features the device has, and CORE always (R325). -/
def AcceptLegal (s : Machine.State) : Prop := s.pkg.accept &&& 0x3F = s.pkg.accept ∧ s.pkg.accept.getLsbD 0 = true

end Sys2Proof

namespace Sys2Proof.Claims

open Sys2Proof.Machine

/-- The front end that issues. -/
def fe (s : State) : Front := s.me.live.front
/-- A register of the front end that issues, in the low bits of a vector word. -/
def reg (s : State) (g : Reg) : VecWord := (fe s).regs.get g

/-- The conditions on a state and an instruction's operands under which a word has its own effect (R138): its
front end may issue, the driver has accepted the feature of the opcode, the level suffices, every wait of R119 and
R130 to R133 is over, and the predicate of a whole instruction holds (R120). -/
structure Issues (s : State) (h : Hdr) (u : Use) : Prop where
  may : s.me.mayIssue s.cycle = true
  feature : s.accepted u.feature = true
  level : u.level.code ≤ (fe s).level.code
  ready : s.me.ready s.cycle h u = true
  on : u.lanewise = true ∨ ((fe s).predicate h).getLsbD 0 = true

/-- Every byte of memory reads as before: HBM, and the three buffers of every core. -/
def SameBytes (s t : State) : Prop :=
  (∀ a, t.mem.hbm.readByte a = s.mem.hbm.readByte a) ∧
    ∀ (c : CoreId) (b : Buf) (a : Nat), ((t.core c).store.buf b).readByte a = ((s.core c).store.buf b).readByte a

/-- What a word of the front end leaves alone there unless it says otherwise: level, trap frames, ctl.round and
ctl.seed, the high address bits, group progress, and the wait and trap fields. -/
structure FrontFrame (f g : Front) : Prop where
  level : g.level = f.level
  sFrame : g.sFrame = f.sFrame
  mFrame : g.mFrame = f.mFrame
  round : g.regs.round = f.regs.round
  seed : g.regs.seed = f.regs.seed
  pcHi : g.at_.pcHi = f.at_.pcHi
  vahi : g.at_.vahi = f.at_.vahi
  gbar : g.gbar = f.gbar
  wait : g.at_.wait = f.at_.wait
  idle : g.at_.idle = f.at_.idle
  trapping : g.at_.trapping = f.at_.trapping

/-- A word has retired: t is m, which holds the word's other effects, with only the issuing front end changed; every
byte of memory is as in s, the flags gained are `fl`, and the program counter and the loop registers are those of
the loop check of R161. -/
structure Retired (s m t : State) (fl : FFlags) (target : Option Word) (own : Option Bool) (keeps : Bool) : Prop where
  only : t = m.modFront s.cur fun _ => fe t
  bytes : SameBytes s t
  flags : (fe t).regs.fflags = (fe m).regs.fflags ||| fl.setWidth 64
  frame : FrontFrame (fe m) (fe t)
  pc : (fe t).at_.pc = (loopCheck (fe m).regs.loops (fe s).at_.pc target own keeps).2
  loops : (fe t).regs.loops = (loopCheck (fe m).regs.loops (fe s).at_.pc target own keeps).1
  po : (fe t).at_.po = (fe s).at_.po + 1

/-- One register is written whole, unless it discards writes; every other register is unchanged. -/
def WritesReg (s t : State) (d : Reg) (x : VecWord) : Prop :=
  ∀ g, reg t g = if g = d ∧ d.wired = false then x else reg s g
/-- The active lanes of one vector register are written; its other lanes and every other register are unchanged. -/
def WritesLanes (s t : State) (d : VReg) (p : Word) (f : Nat → Lane) : Prop :=
  (∀ k < 64, lane (reg t (.v d)) k = if p.getLsbD k then f k else lane (reg s (.v d)) k) ∧
    ∀ g, g ≠ .v d → reg t g = reg s g
/-- No register is written. -/
def WritesNone (s t : State) : Prop := ∀ g, reg t g = reg s g

/-- The instruction, where it issues, completes by writing one register, ORing flags, and leaving the stochastic
registers at `lf`; nothing else changes. -/
def Computes (s : State) (i : Instr) (h : Hdr) (u : Use) (d : Reg) (x : VecWord) (fl : FFlags := 0)
    (lf : Vector (BitVec 16) 64 := (fe s).regs.lfsr) : Prop :=
  Issues s h u → ∃ t, exec i s = .next t ∧ Retired s s t fl none none false ∧ WritesReg s t d x ∧ (fe t).regs.lfsr = lf
/-- The lane-wise instruction, where it issues, completes by writing its active lanes (R171). -/
def ComputesLanes (s : State) (i : Instr) (h : Hdr) (u : Use) (d : VReg) (f : Nat → Lane) (fl : FFlags := 0)
    (lf : Vector (BitVec 16) 64 := (fe s).regs.lfsr) : Prop :=
  Issues s h u → ∃ t, exec i s = .next t ∧ Retired s s t fl none none false ∧
    WritesLanes s t d ((fe s).predicate h) f ∧ (fe t).regs.lfsr = lf

/-- The result of a word of variable latency waits at its tag (R133): for the bits of `mask` of register d, no
earlier than a cycle, with the flags it will set. No register is written yet. -/
def Awaits (s t : State) (tag : TagId) (d : Reg) (mask : VecWord) (minAt : Nat) (v : Option VecWord) (fl : FFlags) : Prop :=
  WritesNone s t ∧ ∃ p, (fe t).tags[tag] = some p ∧ p.fixed = false ∧ p.dst = some d ∧ p.mask = mask ∧ minAt ≤ p.minAt ∧
    p.value = v ∧ p.flags = fl ∧ p.trap = none ∧ p.po = (fe s).at_.po
/-- The word, where it issues, completes with a value that the device has at issue and that its tag awaits; the
value is logged for re-execution (R360). -/
def Delivers (s : State) (i : Instr) (h : Hdr) (u : Use) (tag : TagId) (d : SReg) (v : Word) : Prop :=
  Issues s h u → h.tag = some tag → s.me.logRoom = true → s.me.logged = none →
    ∃ t, exec i s = .next t ∧
      Retired s (s.modCore s.cur fun k => k.logInput (fe s).at_.po (some (wordOf v))) t 0 none none false ∧
      Awaits s t tag (.s d) (wordOf (BitVec.allOnes 64)) s.cycle (some (wordOf v)) 0

/-- The word traps where it stands (R314): t has taken a trap of that cause and TRAP_INFO from m, resuming at the word. -/
def Traps (s m : State) (i : Instr) (cause : Cause) (info : Word) : Prop :=
  exec i s = .next (m.takeTrap s.cur { cause := cause, info := info, word := (fe s).at_.pc } (fe s).at_.pc)

/-- Uses of the common shapes: sources with their producer distances, destination, fixed latency. -/
def useS (srcs : List (Reg × Fin 4)) (d : Reg) (lat : Nat) (locks : List Reg := []) : Use :=
  { srcs := srcs, locks := locks, dsts := [d], lat := some lat }
/-- The use of a lane-wise instruction. -/
def useV (srcs : List (Reg × Fin 4)) (d : Reg) (lat : Nat) (locks : List Reg := []) (feature : Nat := 0) : Use :=
  { srcs := srcs, locks := locks, dsts := [d], lat := some lat, lanewise := true, feature := feature }

end Sys2Proof.Claims
end

