-- ==== Sys2Proof/Certificates/Slice0/Obligations.lean ====
section
/-! DEFINITION. The statements for the provers: what the rules of the specification say of the machine. -/

namespace Sys2Proof.Claims

open Sys2Proof.Machine

/-- A scalar instruction of one source. -/
def One (s : State) (i : Instr) (h : Hdr) (d a : SReg) (r : Word) : Prop :=
  Computes s i h (useS [(.s a, h.pda)] (.s d) 1) (.s d) (wordOf r)
/-- A scalar instruction of two sources and a fixed latency. -/
def Two (s : State) (i : Instr) (h : Hdr) (d a b : SReg) (lat : Nat) (r : Word) : Prop :=
  Computes s i h (useS [(.s a, h.pda), (.s b, h.pdb)] (.s d) lat) (.s d) (wordOf r)
/-- The sources A and B of a scalar word, and their low 32 bits. -/
def srcA (s : State) (h : Hdr) (a : SReg) : Word := (fe s).srcS a h.pda
def srcB (s : State) (h : Hdr) (b : SReg) : Word := (fe s).srcS b h.pdb
def low32 (x : Word) : BitVec 32 := x.setWidth 32
/-- A 32-bit result as `.i32` writes it (R148). -/
def ext32 (x : BitVec 32) : Word := x.signExtend 64
/-- The shift amount of R149, and the use of a shift. -/
def amount (s : State) (h : Hdr) (m : Nat) : ShAmt → Nat
  | .reg b => (srcB s h b).toNat % m
  | .imm n => n.val
def useShift (h : Hdr) (d a : SReg) : ShAmt → Use
  | .reg b => useS [(.s a, h.pda), (.s b, h.pdb)] (.s d) 1
  | .imm _ => useS [(.s a, h.pda)] (.s d) 1
/-- n counts the leading zero bits, or the trailing ones. -/
def Leading {w : Nat} (x : BitVec w) (n : Nat) : Prop :=
  n ≤ w ∧ (∀ i < n, x.getLsbD (w - 1 - i) = false) ∧ (n < w → x.getLsbD (w - 1 - n) = true)
def Trailing {w : Nat} (x : BitVec w) (n : Nat) : Prop :=
  n ≤ w ∧ (∀ i < n, x.getLsbD i = false) ∧ (n < w → x.getLsbD n = true)
/-- Number of 1 bits. -/
def ones {w : Nat} (x : BitVec w) : Nat := (List.range w).countP fun i => x.getLsbD i

end Sys2Proof.Claims

open Sys2Proof Sys2Proof.Machine Sys2Proof.Claims



/-- R149, R151: products, and divisions that truncate towards zero and never trap. R149, R150: sums, moves of registers and
immediates, in 64 bits and under `.i32`; bitwise operations, shifts and the rotation. -/
def Obligations.ScalarIntegers : Prop :=
  (∀ (h : Hdr) (d a b : SReg) (s : State),
      let x := srcA s h a
      let y := srcB s h b
      let v := low32 x
      let w := low32 y
      Two s (.mul h .x64 d a b) h d a b 3 (BitVec.ofInt 64 (x.toInt * y.toInt)) ∧
      Two s (.mul h .i32 d a b) h d a b 3 (ext32 (BitVec.ofInt 32 (v.toInt * w.toInt))) ∧
      Two s (.mulh h .x64 d a b) h d a b 3 (BitVec.ofInt 64 (x.toInt * y.toInt / 2 ^ 64)) ∧
      Two s (.mulh h .i32 d a b) h d a b 3 (ext32 (BitVec.ofInt 32 (v.toInt * w.toInt / 2 ^ 32))) ∧
      Two s (.mulhu h .x64 d a b) h d a b 3 (BitVec.ofNat 64 (x.toNat * y.toNat / 2 ^ 64)) ∧
      Two s (.mulhu h .i32 d a b) h d a b 3 (ext32 (BitVec.ofNat 32 (v.toNat * w.toNat / 2 ^ 32))) ∧
      Two s (.div h .x64 d a b) h d a b 20 (if y = 0 then BitVec.allOnes 64 else BitVec.ofInt 64 (x.toInt.tdiv y.toInt)) ∧
      Two s (.div h .i32 d a b) h d a b 20
        (if w = 0 then BitVec.allOnes 64 else ext32 (BitVec.ofInt 32 (v.toInt.tdiv w.toInt))) ∧
      Two s (.divu h .x64 d a b) h d a b 20 (if y = 0 then BitVec.allOnes 64 else BitVec.ofNat 64 (x.toNat / y.toNat)) ∧
      Two s (.divu h .i32 d a b) h d a b 20
        (if w = 0 then BitVec.allOnes 64 else ext32 (BitVec.ofNat 32 (v.toNat / w.toNat))) ∧
      Two s (.rem h .x64 d a b) h d a b 20 (if y = 0 then x else BitVec.ofInt 64 (x.toInt.tmod y.toInt)) ∧
      Two s (.rem h .i32 d a b) h d a b 20 (if w = 0 then ext32 v else ext32 (BitVec.ofInt 32 (v.toInt.tmod w.toInt))) ∧
      Two s (.remu h .x64 d a b) h d a b 20 (if y = 0 then x else BitVec.ofNat 64 (x.toNat % y.toNat)) ∧
      Two s (.remu h .i32 d a b) h d a b 20 (if w = 0 then ext32 v else ext32 (BitVec.ofNat 32 (v.toNat % w.toNat)))) ∧
  (∀ (h : Hdr) (d a b : SReg) (sh : Fin 8) (imm : BitVec 32) (s : State),
      let x := srcA s h a
      let y := srcB s h b
      Two s (.add h .x64 d a b) h d a b 1 (x + y) ∧
      Two s (.add h .i32 d a b) h d a b 1 (ext32 (low32 x + low32 y)) ∧
      Two s (.sub h .x64 d a b) h d a b 1 (x - y) ∧
      Two s (.sub h .i32 d a b) h d a b 1 (ext32 (low32 x - low32 y)) ∧
      One s (.addi h d a imm) h d a (x + imm.signExtend 64) ∧
      Two s (.lea h d a b sh) h d a b 1 (x + BitVec.ofNat 64 (y.toNat * 2 ^ sh.val)) ∧
      One s (.mov h d a) h d a x ∧
      Computes s (.movi h d imm) h (useS [] (.s d) 1) (.s d) (wordOf (imm.signExtend 64)) ∧
      Computes s (.movhi h d imm) h (useS [] (.s d) 1 [.s d]) (.s d) (wordOf (imm ++ low32 ((fe s).regs.getS d)))) ∧
  (∀ (h : Hdr) (d a b : SReg) (n : ShAmt) (s : State),
      let x := srcA s h a
      let y := srcB s h b
      let v := low32 x
      let k := amount s h 64 n
      let m := amount s h 32 n
      let shift := fun (i : Instr) (r : Word) => Computes s i h (useShift h d a n) (.s d) (wordOf r)
      Two s (.and h d a b) h d a b 1 (x &&& y) ∧ Two s (.or h d a b) h d a b 1 (x ||| y) ∧
      Two s (.xor h d a b) h d a b 1 (x ^^^ y) ∧ Two s (.andn h d a b) h d a b 1 (x &&& ~~~y) ∧
      shift (.shl h .x64 d a n) (BitVec.ofNat 64 (x.toNat * 2 ^ k)) ∧
      shift (.shr h .x64 d a n) (BitVec.ofNat 64 (x.toNat / 2 ^ k)) ∧
      shift (.sra h .x64 d a n) (BitVec.ofInt 64 (x.toInt / 2 ^ k)) ∧
      shift (.rot h d a n) (BitVec.ofNat 64 (x.toNat / 2 ^ k + x.toNat * 2 ^ (64 - k))) ∧
      shift (.shl h .i32 d a n) (ext32 (BitVec.ofNat 32 (v.toNat * 2 ^ m))) ∧
      shift (.shr h .i32 d a n) (ext32 (BitVec.ofNat 32 (v.toNat / 2 ^ m))) ∧
      shift (.sra h .i32 d a n) (ext32 (BitVec.ofInt 32 (v.toInt / 2 ^ m))))

namespace Sys2Proof.Claims

open Sys2Proof.Machine

/-- The number that a finite exact value stands for. -/
def ratOf (n : Bool) (m : Nat) (e : Int) : ℚ := (if n then -1 else 1) * m * 2 ^ e
/-- An exact value is finite and stands for a number. -/
def Stands (x : Machine.Num) (q : ℚ) : Prop := ∃ n m e, x = .fin n m e ∧ ratOf n m e = q
/-- The value of a magnitude code with `man` bits of mantissa below its exponent (R51). -/
def magOf (man bias c : Nat) : ℚ :=
  if c / 2 ^ man = 0 then (c % 2 ^ man : Nat) / 2 ^ man * 2 ^ (1 - bias : Int)
  else (1 + (c % 2 ^ man : Nat) / 2 ^ man) * 2 ^ ((c / 2 ^ man : Nat) - bias : Int)
/-- A code of R51 without its sign and what it is: mantissa bits, bias, largest finite magnitude, place of the sign. -/
structure Format where
  man : Nat
  bias : Nat
  maxc : Nat
  sign : Nat
def Format.val (f : Format) (c : Nat) : ℚ := magOf f.man f.bias c
/-- The formats of R51 and binary32, with the model's descriptions of them. -/
def formats : List (Format × FDesc) :=
  [(⟨23, 127, 0x7F7FFFFF, 31⟩, descF32), (⟨7, 127, 0x7F7F, 15⟩, descBf16), (⟨3, 7, 0x7E, 7⟩, descE4m3), (⟨2, 15, 0x7B, 7⟩, descE5m2),
   (⟨1, 1, 0x7, 3⟩, descE2m1)]
/-- Rounding of a number that is not negative along a rising sequence of values, to its n-th one (R65, R66): `lo` and the one
behind it enclose the number. -/
def Picks (rm : RMode) (y : Nat) (val : Nat → ℚ) (x : ℚ) (lo n : Nat) : Prop :=
  val lo ≤ x ∧ x < val (lo + 1) ∧ (n = lo ∨ n = lo + 1) ∧ (n = lo + 1 ↔ x ≠ val lo ∧ match rm with
    | .rne => val lo + val (lo + 1) < 2 * x ∨ val lo + val (lo + 1) = 2 * x ∧ lo % 2 = 1
    | .rtz => False
    | .rsr => (y : ℤ) ≤ ⌊(x - val lo) / (val (lo + 1) - val lo) * 65536⌋)
/-- A number is tiny after rounding (R69): with the exponent one lower in reach, it rounds to less than the least normal one. -/
def Tiny (f : Format) (rm : RMode) (y : Nat) (x : ℚ) : Prop :=
  ∃ lo n, Picks rm y (magOf f.man (f.bias + 1)) x lo n ∧ magOf f.man (f.bias + 1) n < 2 ^ (1 - f.bias : Int)
/-- A result whose number lies in reach: its code, NX, and UF where the format has it (R69, R71, R72). -/
def Format.Reaches (f : Format) (rm : RMode) (y : Nat) (neg uf : Bool) (x : ℚ) (lo n : Nat) (r : Nat × FFlags) : Prop :=
  r.1 = (if neg then 2 ^ f.sign else 0) + n ∧ (r.2.getLsbD 4 = true ↔ x ≠ f.val lo) ∧
  (r.2.getLsbD 3 = true ↔ uf = true ∧ x ≠ f.val lo ∧ Tiny f rm y x) ∧ ∀ b, b ≠ 3 → b ≠ 4 → r.2.getLsbD b = false
/-- A number that is not zero, rounded to a format; beyond its largest finite value the result is given (R66, R69, R71, R72). -/
def Format.Rounds (f : Format) (rm : RMode) (y : Nat) (neg uf : Bool) (x : ℚ) (over_ : Bool → Nat × FFlags) (r : Nat × FFlags) : Prop :=
  ∃ lo n, Picks rm y f.val x lo n ∧
    (f.maxc < n ∨ rm = .rsr ∧ x ≠ f.val lo ∧ lo = f.maxc → r = over_ (decide (f.maxc < n))) ∧
    (¬ (f.maxc < n ∨ rm = .rsr ∧ x ≠ f.val lo ∧ lo = f.maxc) → f.Reaches rm y neg uf x lo n r)
/-- The overflow of arithmetic (R69), and of a conversion (R71). -/
def Format.arithOver (f : Format) (rm : RMode) (neg hi : Bool) : Nat × FFlags :=
  ((if neg then 2 ^ f.sign else 0) + (if rm = .rne ∨ rm = .rsr ∧ hi = true then f.maxc + 1 else f.maxc), fOF ||| fNX)
def Format.convOver (f : Format) (sat neg : Bool) : Nat × FFlags :=
  ((if neg then 2 ^ f.sign else 0) + (if sat then f.maxc else f.maxc + 1), if sat then fFSAT ||| fNX else fOF ||| fNX)
/-- The order of codes by R156: -0 below +0; and with the zeros equal. -/
def Format.key (f : Format) (c : Nat) : Int := if c < 2 ^ f.sign then (c : Int) else -((c % 2 ^ f.sign : Nat) : Int) - 1
def Format.size (f : Format) (c : Nat) : Int := if c < 2 ^ f.sign then (c : Int) else -((c % 2 ^ f.sign : Nat) : Int)
def Format.IsNan (f : Format) (c : Nat) : Prop := f.maxc + 1 < c % 2 ^ f.sign
/-- A PS2 term and the value of a PS2 code (R53). -/
def ps2Part (s e : Nat) : ℚ := if e = 7 then 0 else (if s = 1 then -1 else 1) / 2 ^ e
def ps2Q (c : Nat) : ℚ := ps2Part (c / 128 % 2) (c / 16 % 8) + ps2Part (c / 8 % 2) (c % 8)
/-- The canonical code of a PS2 value (R74). -/
def Ps2Canonical (c : Nat) : Prop :=
  let v := ps2Q c
  let s := if v < 0 then 1 else 0
  c < 256 ∧ (v = 0 → c = 0x77) ∧ (v ≠ 0 → c / 128 = s ∧ ((∃ e < 7, |v| = 1 / 2 ^ e) → c % 16 = 7) ∧
    ((∀ e < 7, |v| ≠ 1 / 2 ^ e) → c / 16 % 8 < 7 ∧ ∀ e < c / 16 % 8, ∀ t < 2, ∀ j < 8, v - ps2Part s e ≠ ps2Part t j))
/-- One level of a tree: neighbours combine, and an absent one passes the other on (R62, R183). -/
def pairUp {α : Type} (c : α → α → α) : List (Option α) → List (Option α)
  | x :: y :: l => (match x, y with
    | none, y => y
    | x, none => x
    | some x, some y => some (c x y)) :: pairUp c l
  | l => l

end Sys2Proof.Claims

/-- R51 to R53, R60, R65, R66, R69 to R75, R156, R175: the values of codes, and what rounding, arithmetic, the conversions,
comparison and selection of numbers give: results, overflow, NaNs, infinities, zeros and flags. That a conversion to FP4 under RSR
saturates wherever the next value lies beyond 6 is the model's reading (log 15). -/
def Obligations.NumbersAndRounding : Prop :=
  ∀ (rm : RMode) (y m : Nat) (e : Int) (n sat : Bool) (c k : Nat),
    let x : ℚ := m * 2 ^ e
    let v := Machine.Num.fin n m e
    let flagged := fun (neg : Bool) (f : Format) => if neg then 2 ^ f.sign else 0
    -- codes
    (∀ f ∈ formats, c < 2 ^ (f.1.sign + 1) → let neg := decide (2 ^ f.1.sign ≤ c)
      (c % 2 ^ f.1.sign ≤ f.1.maxc → ∃ p q, f.2.decode c = .fin neg p q ∧ (p : ℚ) * 2 ^ q = f.1.val (c % 2 ^ f.1.sign)) ∧
      (f.1.bias ≠ 7 → c % 2 ^ f.1.sign = f.1.maxc + 1 → f.2.decode c = .inf neg) ∧ (f.1.IsNan c → f.2.decode c = .nan)) ∧
    (c < 256 → decTag 1 c = (if c % 128 = 127 then .nan else descE4m3.decode c) ∧ decTag 2 c = descE5m2.decode c ∧
      Stands (decTag 4 c) (if c < 128 then c else c - 256) ∧ Stands (decTag 6 c) (ps2Q c)) ∧
    (c < 2 ^ 16 → decTag 0 c = descBf16.decode c) ∧ (c < 16 → decTag 3 c = descE2m1.decode c ∧ Stands (decTag 5 c) (if c < 8 then c else c - 16)) ∧
    -- arithmetic (R69)
    (∀ f ∈ formats.take 2,
      f.2.arith rm y .nan = (f.1.maxc + 1 + 2 ^ (f.1.man - 1), 0) ∧ f.2.arith rm y (.inf n) = (flagged n f.1 + f.1.maxc + 1, 0) ∧
      f.2.arith rm y (.fin n 0 e) = (flagged n f.1, 0) ∧
      (0 < m → f.1.Rounds rm y n true x (f.1.arithOver rm n) (f.2.arith rm y v))) ∧
    (∀ (a b : Machine.Num) (p q : ℚ), Stands a p → Stands b q →
      (Stands (a.add b).1 (p + q) ∧ (a.add b).2 = false) ∧ (Stands (a.mul b).1 (p * q) ∧ (a.mul b).2 = false) ∧
      (∀ c r, Stands c r → Stands (fmaExact a b c).1 (p * q + r) ∧ (fmaExact a b c).2 = false) ∧
      ((a.add b).1.isZero = true → (a.add b).1.negative = (a.negative && b.negative)) ∧ (a.mul b).1.negative = (a.negative != b.negative) ∧
      (Machine.Num.inf n).add a = (.inf n, false) ∧ a.add (.inf n) = (.inf n, false) ∧
      (Machine.Num.inf n).mul a = (if p = 0 then (.nan, true) else (.inf (n != a.negative), false)) ∧
      a.mul (.inf n) = (if p = 0 then (.nan, true) else (.inf (n != a.negative), false)) ∧
      (p = 0 → ∀ c, fmaExact (.inf n) a c = (.nan, true)) ∧ (p ≠ 0 → fmaExact (.inf n) a (.inf (n == a.negative)) = (.nan, true))) ∧
    ((Machine.Num.inf n).add (.inf n) = (.inf n, false) ∧ (Machine.Num.inf n).add (.inf (!n)) = (.nan, true) ∧
      ∀ sat, (Machine.Num.inf n).mul (.inf sat) = (.inf (n != sat), false)) ∧
    (∀ a : Machine.Num, Machine.Num.nan.add a = (.nan, false) ∧ a.add .nan = (.nan, false) ∧ Machine.Num.nan.mul a = (.nan, false) ∧
      a.mul .nan = (.nan, false)) ∧
    -- conversions (R71, R75)
    (∀ f ∈ formats.take 4, let hasInf := f.1.bias != 7
      f.2.conv hasInf rm sat y .nan = (if hasInf then f.1.maxc + 1 + 2 ^ (f.1.man - 1) else 0x7F, 0) ∧
      f.2.conv hasInf rm sat y (.inf n) = (if hasInf && !sat then (flagged n f.1 + f.1.maxc + 1, 0) else f.1.convOver sat n) ∧
      f.2.conv hasInf rm sat y (.fin n 0 e) = (flagged n f.1, 0) ∧
      (0 < m → f.1.Rounds rm y n true x (fun _ => f.1.convOver sat n) (f.2.conv hasInf rm sat y v))) ∧
    -- FP4 (R72)
    (let f : Format := ⟨1, 1, 0x7, 3⟩
     convFp4 rm y .nan = (0, fNANLOST) ∧ convFp4 rm y (.inf n) = f.convOver true n ∧ convFp4 rm y (.fin n 0 e) = (flagged n f, 0) ∧
     (0 < m → f.Rounds rm y n false x (fun _ => f.convOver true n) (convFp4 rm y v))) ∧
    -- integers (R73)
    (∀ lo hi : Int, lo ≤ 0 → 0 ≤ hi → convInt lo hi rm y .nan = (0, fNANLOST) ∧ convInt lo hi rm y (.inf n) = (if n then lo else hi, fISAT) ∧
      ∃ l p, Picks rm y (fun (i : Nat) => (i : ℚ)) x l p ∧ let i : Int := if n then -(p : Int) else p
        convInt lo hi rm y v = if i < lo then (lo, fISAT) else if hi < i then (hi, fISAT) else (i, if x = l then 0 else fNX)) ∧
    -- PS2 (R74)
    (convPs2 rm y .nan = (0x77, fNANLOST) ∧ convPs2 rm y (.inf n) = (if n then 0x88 else 0, fFSAT ||| fNX) ∧
     (2 < x → convPs2 rm y v = (if n then 0x88 else 0, fFSAT ||| fNX)) ∧
     (x ≤ 2 → ∃ lo hi, lo < 256 ∧ hi < 256 ∧ 0 ≤ ps2Q lo ∧ ps2Q lo ≤ x ∧ (∀ i < 256, ps2Q i ≤ x → ps2Q i ≤ ps2Q lo) ∧
       (x ≠ ps2Q lo → x < ps2Q hi ∧ ∀ i < 256, x < ps2Q i → ps2Q hi ≤ ps2Q i) ∧
       let up := x ≠ ps2Q lo ∧ match rm with
         | .rne => ps2Q lo + ps2Q hi < 2 * x
         | .rtz => False
         | .rsr => (y : ℤ) ≤ ⌊(x - ps2Q lo) / (ps2Q hi - ps2Q lo) * 65536⌋
       let r := convPs2 rm y v
       Ps2Canonical r.1 ∧ (up → ps2Q r.1 = if n then -ps2Q hi else ps2Q hi) ∧ (¬ up → ps2Q r.1 = if n then -ps2Q lo else ps2Q lo) ∧
         r.2 = if x = ps2Q lo then 0 else fNX)) ∧
    -- order (R156)
    (∀ f ∈ formats.take 2, c < 2 ^ (f.1.sign + 1) → k < 2 ^ (f.1.sign + 1) →
      (¬ f.1.IsNan c → ¬ f.1.IsNan k → minMaxCode f.2 n c k = if (decide (f.1.key c < f.1.key k)) = n then k else c) ∧
      (f.1.IsNan c → ¬ f.1.IsNan k → minMaxCode f.2 n c k = k ∧ minMaxCode f.2 n k c = k) ∧
      (f.1.IsNan c → f.1.IsNan k → minMaxCode f.2 n c k = f.1.maxc + 1 + 2 ^ (f.1.man - 1))) ∧
    (let f : Format := ⟨23, 127, 0x7F7FFFFF, 31⟩
     ∀ a b : BitVec 32, let un := f.IsNan a.toNat ∨ f.IsNan b.toNat
      ((fcmpCode .eq a b).1 = true ↔ ¬ un ∧ f.size a.toNat = f.size b.toNat) ∧ ((fcmpCode .lt a b).1 = true ↔ ¬ un ∧ f.size a.toNat < f.size b.toNat) ∧
      ((fcmpCode .le a b).1 = true ↔ ¬ un ∧ f.size a.toNat ≤ f.size b.toNat) ∧ ((fcmpCode .un a b).1 = true ↔ un) ∧
      (fcmpCode .eq a b).2 = 0 ∧ (fcmpCode .un a b).2 = 0 ∧ (∀ j, j = FCond.lt ∨ j = .le → (un → (fcmpCode j a b).2 = fNV) ∧ (¬ un → (fcmpCode j a b).2 = 0)))

/-- R149, R152: counts of bits, extensions, and bit fields that lie in the register. R149, R153, R154: minimum and maximum, selection by a predicate, and comparison into all bits of a predicate. -/
def Obligations.ScalarBitsFieldsAndComparisons : Prop :=
  (∀ (h : Hdr) (d a : SReg) (wm1 lsb : Fin 64) (n : Nat) (s : State),
      let x := srcA s h a
      let v := low32 x
      let len := wm1.val + 1
      (Leading x n → One s (.clz h .x64 d a) h d a (BitVec.ofNat 64 n)) ∧
      (Leading v n → One s (.clz h .i32 d a) h d a (BitVec.ofNat 64 n)) ∧
      (Trailing x n → One s (.ctz h .x64 d a) h d a (BitVec.ofNat 64 n)) ∧
      (Trailing v n → One s (.ctz h .i32 d a) h d a (BitVec.ofNat 64 n)) ∧
      One s (.popc h .x64 d a) h d a (BitVec.ofNat 64 (ones x)) ∧
      One s (.popc h .i32 d a) h d a (BitVec.ofNat 64 (ones v)) ∧
      One s (.sext h .x8 d a) h d a (BitVec.ofInt 64 (x.setWidth 8).toInt) ∧
      One s (.sext h .x16 d a) h d a (BitVec.ofInt 64 (x.setWidth 16).toInt) ∧
      One s (.sext h .x32 d a) h d a (BitVec.ofInt 64 v.toInt) ∧
      One s (.zext h .x8 d a) h d a (BitVec.ofNat 64 (x.toNat % 2 ^ 8)) ∧
      One s (.zext h .x16 d a) h d a (BitVec.ofNat 64 (x.toNat % 2 ^ 16)) ∧
      One s (.zext h .x32 d a) h d a (BitVec.ofNat 64 (x.toNat % 2 ^ 32)) ∧
      (lsb.val + len ≤ 64 →
        One s (.bfx h false d a wm1 lsb) h d a (BitVec.ofNat 64 (x.toNat / 2 ^ lsb.val % 2 ^ len)) ∧
        One s (.bfx h true d a wm1 lsb) h d a (BitVec.ofInt 64 (x.extractLsb' lsb.val len).toInt) ∧
        ∀ r : Word, (∀ i < 64, r.getLsbD i =
            if lsb.val ≤ i ∧ i < lsb.val + len then x.getLsbD (i - lsb.val) else ((fe s).regs.getS d).getLsbD i) →
          Computes s (.bfi h d a wm1 lsb) h (useS [(.s a, h.pda)] (.s d) 1 [.s d]) (.s d) (wordOf r))) ∧
  (∀ (h : Hdr) (d a b : SReg) (c p : PReg) (imm : BitVec 12) (s : State),
      let x := srcA s h a
      let y := srcB s h b
      let v := low32 x
      let w := low32 y
      let z : Word := imm.signExtend 64
      let truth := fun (k : ICond) (i : Int) (j : Int) (m n : Nat) => match k with
        | .eq => decide (m = n)
        | .ne => decide (m ≠ n)
        | .lt => decide (i < j)
        | .ge => decide (j ≤ i)
        | .ltu => decide (m < n)
        | .geu => decide (n ≤ m)
      let all := fun (t : Bool) => wordOf (if t then BitVec.allOnes 64 else 0)
      Two s (.min h .x64 d a b) h d a b 1 (BitVec.ofInt 64 (min x.toInt y.toInt)) ∧
      Two s (.max h .x64 d a b) h d a b 1 (BitVec.ofInt 64 (max x.toInt y.toInt)) ∧
      Two s (.minu h .x64 d a b) h d a b 1 (BitVec.ofNat 64 (min x.toNat y.toNat)) ∧
      Two s (.maxu h .x64 d a b) h d a b 1 (BitVec.ofNat 64 (max x.toNat y.toNat)) ∧
      Two s (.min h .i32 d a b) h d a b 1 (BitVec.ofInt 64 (min v.toInt w.toInt)) ∧
      Two s (.max h .i32 d a b) h d a b 1 (BitVec.ofInt 64 (max v.toInt w.toInt)) ∧
      Two s (.minu h .i32 d a b) h d a b 1 (ext32 (BitVec.ofNat 32 (min v.toNat w.toNat))) ∧
      Two s (.maxu h .i32 d a b) h d a b 1 (ext32 (BitVec.ofNat 32 (max v.toNat w.toNat))) ∧
      Computes s (.sel h d a b c) h (useS [(.s a, h.pda), (.s b, h.pdb)] (.s d) 1 [.p c]) (.s d)
        (wordOf (if ((fe s).regs.getP c).getLsbD 0 then x else y)) ∧
      ∀ k : ICond,
        Computes s (.cmp h .x64 k p a (.reg b)) h (useS [(.s a, h.pda), (.s b, h.pdb)] (.p p) 1) (.p p)
          (all (truth k x.toInt y.toInt x.toNat y.toNat)) ∧
        Computes s (.cmp h .i32 k p a (.reg b)) h (useS [(.s a, h.pda), (.s b, h.pdb)] (.p p) 1) (.p p)
          (all (truth k v.toInt w.toInt v.toNat w.toNat)) ∧
        Computes s (.cmp h .x64 k p a (.imm imm)) h (useS [(.s a, h.pda)] (.p p) 1) (.p p)
          (all (truth k x.toInt z.toInt x.toNat z.toNat)) ∧
        Computes s (.cmp h .i32 k p a (.imm imm)) h (useS [(.s a, h.pda)] (.p p) 1) (.p p)
          (all (truth k v.toInt imm.toInt v.toNat (low32 z).toNat)))

/-- R155, R156, R157: the scalar FP32 instructions: one rounding of the exact value in the word's mode with lane
0's stochastic register stepped once under RSR, the flags of that rounding, and comparisons as predicates. -/
def Obligations.ScalarFloat : Prop :=
  ∀ (h : Hdr) (rm : Rnd) (d a b c : SReg) (p : PReg) (k : FConv) (sat : Bool) (fc : FCond) (s : State),
    let f := fe s
    let m := roundMode rm f.regs.round
    let y := draw m f 0 1
    let x := f32Of (srcA s h a)
    let z := f32Of (srcB s h b)
    let w := f32Of (f.regs.getS c)
    let lf := stepLanes m 1 1 f.regs.lfsr
    let two := [(Reg.s a, h.pda), (.s b, h.pdb)]
    let rounds := fun (i : Instr) (locks : List Reg) (r : Word × FFlags) =>
      Computes s i h (useS two (.s d) 4 locks) (.s d) (wordOf r.1) r.2 lf
    rounds (.fadd h rm d a b) [] (f32Round m y (x.add z)) ∧
    rounds (.fsub h rm d a b) [] (f32Round m y (x.add z.negate)) ∧
    rounds (.fmul h rm d a b) [] (f32Round m y (x.mul z)) ∧
    rounds (.ffma h rm d a b c) [.s c] (f32Round m y (fmaExact x z w)) ∧
    (Computes s (.fcvt h k rm sat d a) h (useS [(.s a, h.pda)] (.s d) 4) (.s d)
      (wordOf (fconv k m sat y (srcA s h a)).1) (fconv k m sat y (srcA s h a)).2 lf) ∧
    Two s (.fmin h d a b) h d a b 4
      (BitVec.ofNat 64 (minMaxCode descF32 false (low32 (srcA s h a)).toNat (low32 (srcB s h b)).toNat)) ∧
    Two s (.fmax h d a b) h d a b 4
      (BitVec.ofNat 64 (minMaxCode descF32 true (low32 (srcA s h a)).toNat (low32 (srcB s h b)).toNat)) ∧
    Computes s (.fcmp h fc p a b) h (useS two (.p p) 4) (.p p)
      (wordOf (if (fcmpCode fc (low32 (srcA s h a)) (low32 (srcB s h b))).1 then BitVec.allOnes 64 else 0))
      (fcmpCode fc (low32 (srcA s h a)) (low32 (srcB s h b))).2

namespace Sys2Proof.Claims

open Sys2Proof.Machine

/-- The address of the word that issues. -/
def pcOf (s : State) : Word := (fe s).at_.pc
/-- A taken transfer (R158): to an address of a word it retires, the target issues 3 cycles on at the earliest, and
`wr` says what it writes; to any other address it traps where it stands, and nothing changes. `l` replaces the loop
registers first. -/
def TransfersTo (s : State) (i : Instr) (target : Word) (wr : State → Prop) (l : Loops := (fe s).regs.loops)
    (own : Option Bool := none) (keeps : Bool := false) : Prop :=
  let m := s.modFront s.cur fun f => f.modRegs fun r => { r with loops := l }
  (target.toNat % 10 = 0 → ∃ t, exec i s = .next t ∧ Retired s m t 0 (some target) own keeps ∧ wr t ∧
      (fe t).at_.nextAt = s.cycle + 3) ∧
    (target.toNat % 10 ≠ 0 → Traps s s i .alignFault target)
/-- The instruction retires with nothing written. -/
def JustRetires (s m : State) (i : Instr) : Prop :=
  ∃ t, exec i s = .next t ∧ Retired s m t 0 none none false ∧ WritesNone s t
/-- The state with the issuing front end waiting. -/
def waiting (s : State) (w : FWait) : State := s.modFront s.cur fun f => f.modAt fun a => { a with wait := w }
/-- Truth of a branch condition (R159), from the values of its sources. -/
def BranchTaken (s : State) (h : Hdr) : BCond → Prop
  | .cmp .eq a b => srcA s h a = srcB s h b
  | .cmp .ne a b => srcA s h a ≠ srcB s h b
  | .cmp .lt a b => (srcA s h a).toInt < (srcB s h b).toInt
  | .cmp .ge a b => (srcB s h b).toInt ≤ (srcA s h a).toInt
  | .cmp .ltu a b => (srcA s h a).toNat < (srcB s h b).toNat
  | .cmp .geu a b => (srcB s h b).toNat ≤ (srcA s h a).toNat
  | .pt a => ((fe s).srcP a h.pda).getLsbD 0 = true
  | .pf a => ((fe s).srcP a h.pda).getLsbD 0 = false
  | .pany a => ∃ k < 64, ((fe s).srcP a h.pda).getLsbD k = true
  | .pall a => ∀ k < 64, ((fe s).srcP a h.pda).getLsbD k = true
  | .pnone a => ∀ k < 64, ((fe s).srcP a h.pda).getLsbD k = false
/-- A control register as `getc` reads it (R67, R68, R168). -/
def ctlValue (s : State) (sel : Fin 128) : CtlReg → Word
  | .cycle => BitVec.ofNat 64 s.cycle
  | .ptime => BitVec.ofNat 64 s.ptime
  | .core => BitVec.ofNat 64 s.cur.val
  | .fflags => (fe s).regs.fflags
  | .round => (fe s).regs.round
  | .seed => (fe s).regs.seed
  | .wcnt => s.me.windowCounts sel
  | .tags => s.readCtl .tags 0
  | .priv => match (fe s).level with | .u => 0 | .s => 1 | .m => 2
  | .ls0 => (fe s).regs.loops.ls0
  | .le0 => (fe s).regs.loops.le0
  | .lc0 => (fe s).regs.loops.lc0
  | .ls1 => (fe s).regs.loops.ls1
  | .le1 => (fe s).regs.loops.le1
  | .lc1 => (fe s).regs.loops.lc1
/-- What a write leaves in the control registers (R67, R68, R167, R168): read-only ones keep their values, reserved
bits stay 0, a rounding mode of 3 is stored as 0, and a seed reseeds every lane. -/
def ctlAfter (g : Regs) (x : Word) : CtlReg → Regs
  | .fflags => { g with fflags := BitVec.ofNat 64 (x.toNat % 256) }
  | .round => { g with round := if x.toNat % 4 = 3 then 0 else BitVec.ofNat 64 (x.toNat % 4) }
  | .seed =>
    { g with
      seed := BitVec.ofNat 64 (x.toNat % 2 ^ 16)
      lfsr := .ofFn fun i =>
        let v : BitVec 16 := x.setWidth 16 ^^^ BitVec.ofNat 16 (i.val * 0x0B05)
        if v = 0 then 1 else v }
  | .ls0 => { g with loops := { g.loops with ls0 := x } }
  | .le0 => { g with loops := { g.loops with le0 := x } }
  | .lc0 => { g with loops := { g.loops with lc0 := x } }
  | .ls1 => { g with loops := { g.loops with ls1 := x } }
  | .le1 => { g with loops := { g.loops with le1 := x } }
  | .lc1 => { g with loops := { g.loops with lc1 := x } }
  | .cycle => g
  | .ptime => g
  | .core => g
  | .wcnt => g
  | .tags => g
  | .priv => g
/-- A word that is no lane-wise vector instruction (R120, R171): opcodes 0x40 to 0x75 and 0xA4 to 0xA7 are vector
instructions, and those whose destination is a scalar register, or a predicate register but for `vcmp`, execute whole. -/
def isWhole (i : Instr) : Bool :=
  let op := encode i / 2 ^ 72
  match i with
  | .vmov _ (.extract ..) => true
  | .vredsum .. => true
  | .vredmax .. => true
  | .vredmin .. => true
  | .vbmand .. => true
  | .vquantScale .. => true
  | _ => !(decide (0x40 ≤ op ∧ op ≤ 0x75) || decide (0xA4 ≤ op ∧ op ≤ 0xA7))
/-- The registers that hold the address of a word (R167). -/
def holdsAddress (r : CtlReg) : Prop := r = .ls0 ∨ r = .le0 ∨ r = .ls1 ∨ r = .le1

end Sys2Proof.Claims

/-- R158, R159: relative and register transfers, taken or not; `call` and `jmpr.l` write the link register. -/
def Obligations.TransfersAndLinks : Prop :=
  ∀ (h : Hdr) (off : BitVec 32) (a : SReg) (k : BCond) (s : State),
    let target := pcOf s + BitVec.ofInt 64 (10 * off.toInt)
    let x := srcA s h a
    let link := fun t => WritesReg s t (.s 63) (wordOf (pcOf s + 10))
    (Issues s h {} → TransfersTo s (.br h off) target (WritesNone s)) ∧
    (Issues s h { srcs := condSrcs h k } →
      (BranchTaken s h k → TransfersTo s (.bc h k off) target (WritesNone s)) ∧ (¬ BranchTaken s h k → JustRetires s s (.bc h k off))) ∧
    (Issues s h { dsts := [.s 63], lat := some 1 } → TransfersTo s (.call h off) target link (keeps := true)) ∧
    (Issues s h { srcs := [(.s a, h.pda)] } → TransfersTo s (.ret h a) x (WritesNone s)) ∧
    (Issues s h { srcs := [(.s a, h.pda)] } → TransfersTo s (.jmpr h false a) x (WritesNone s)) ∧
    (Issues s h { srcs := [(.s a, h.pda)], dsts := [.s 63], lat := some 1 } →
      TransfersTo s (.jmpr h true a) x link (keeps := true))



/-- R160: `loop` and `loopi` load a loop set; a count of zero skips the body. R161: the loop check. -/
def Obligations.HardwareLoops : Prop :=
  (∀ (h : Hdr) (set1 : Bool) (a : SReg) (count : BitVec 12) (off : BitVec 32) (s : State),
      let le := pcOf s + BitVec.ofInt 64 (10 * off.toInt)
      let l := (fe s).regs.loops
      let loads := fun (i : Instr) (n : Word) =>
        TransfersTo s i (if n = 0 then le + 10 else pcOf s + 10) (WritesNone s)
          (if set1 then { l with ls1 := pcOf s + 10, le1 := le, lc1 := n } else { l with ls0 := pcOf s + 10, le0 := le, lc0 := n })
          (some set1)
      (Issues s h { srcs := [(.s a, h.pda)] } → loads (.loop h set1 a off) (srcA s h a)) ∧
      (Issues s h {} → loads (.loopi h set1 count off) (BitVec.ofNat 64 count.toNat))) ∧
  (∀ (l : Loops) (pc : Word) (target : Word) (own : Option Bool) (keeps : Bool),
      let inside := fun (ls le : Word) (x : Word) => ls.toNat ≤ x.toNat ∧ x.toNat ≤ le.toNat
      (let r := loopCheck l pc (some target) own keeps
       r.2 = target ∧
       r.1.ls0 = l.ls0 ∧ r.1.le0 = l.le0 ∧ r.1.ls1 = l.ls1 ∧ r.1.le1 = l.le1 ∧
       r.1.lc0 = (if own ≠ some false ∧ inside l.ls0 l.le0 pc ∧ ¬ inside l.ls0 l.le0 target ∧ keeps = false then 0 else l.lc0) ∧
       r.1.lc1 = (if own ≠ some true ∧ inside l.ls1 l.le1 pc ∧ ¬ inside l.ls1 l.le1 target ∧ keeps = false then 0 else l.lc1)) ∧
      (let r := loopCheck l pc none own keeps
       let ends1 := l.lc1 ≠ 0 ∧ pc = l.le1
       let back1 := ends1 ∧ l.lc1 ≠ 1
       let ends0 := ¬ back1 ∧ l.lc0 ≠ 0 ∧ pc = l.le0
       let back0 := ends0 ∧ l.lc0 ≠ 1
       r.1.ls0 = l.ls0 ∧ r.1.le0 = l.le0 ∧ r.1.ls1 = l.ls1 ∧ r.1.le1 = l.le1 ∧
       (ends1 → r.1.lc1 = l.lc1 - 1) ∧ (¬ ends1 → r.1.lc1 = l.lc1) ∧
       (ends0 → r.1.lc0 = l.lc0 - 1) ∧ (¬ ends0 → r.1.lc0 = l.lc0) ∧
       (back1 → r.2 = l.ls1) ∧ (back0 → r.2 = l.ls0) ∧ (¬ back1 → ¬ back0 → r.2 = pc + 10)))

/-- R165, R166, R167, R168, R320: `nop`, `pause`, `getc`, `setc` and `wfi`. The model's own choices in it: when a wait retires
(log 44), and whether `ctl.tags` shows the tag of its own `getc` (log 57). -/
def Obligations.FrontEndWords : Prop :=
  ∀ (h : Hdr) (imm : BitVec 32) (r : CtlReg) (d a : SReg) (sel : Fin 128) (wake : Fin 8) (s : State),
    let x := srcA s h a
    let limit := x.toNat
    let met := (wake.val % 2 = 1 ∧ (s.core s.cur).live.queues.fifo[3] ≠ 0) ∨
      (wake.val / 2 % 2 = 1 ∧ (s.core s.cur).live.queues.fifo[4] ≠ 0) ∨ (4 ≤ wake.val ∧ limit ≤ s.cycle)
    (Issues s h {} → JustRetires s s (.nop h)) ∧
    (Issues s h {} →
      (imm = 0 → JustRetires s s (.pause h imm)) ∧
      (imm ≠ 0 → exec (.pause h imm) s = .next (s.modFront s.cur fun f => f.modAt fun a =>
        { a with wait := .pause (s.cycle + imm.toNat), waitSince := s.cycle }))) ∧
    Computes s (.getc h r d sel) h { dsts := [.s d], lat := some 2, flags := r == .fflags } (.s d) (wordOf (ctlValue s sel r)) ∧
    (Issues s h { srcs := [(.s a, h.pda)], flags := r == .fflags } →
      (holdsAddress r → x.toNat % 10 ≠ 0 → Traps s s (.setc h r a) .alignFault x) ∧
      (¬ (holdsAddress r ∧ x.toNat % 10 ≠ 0) →
        JustRetires s (s.modFront s.cur fun f => f.modRegs fun g => ctlAfter g x r) (.setc h r a))) ∧
    (Issues s h { srcs := if 4 ≤ wake.val then [(.s a, h.pda)] else [] } →
      (met → JustRetires s s (.wfi h wake a)) ∧ (¬ met → JustRetires s (waiting s (.wfi wake limit)) (.wfi h wake a)))



/-- R312: a trap whose waits are over enters the first level above whose frame is free: the frame holds the word to
resume at, the cause, TRAP_INFO, the status with VALID, SRC and PREV, and the loop registers; the loops are off,
the window is empty, and the program counter is at VEC. No register changes. R312, R317: a trap taken at M enters no handler: the front end freezes with VIOL 5, at the word to resume at. A `pause` that such a trap ends counts as complete (R165), and the trap resumes behind it;
that the fault of a queue leaves it to be executed again (R220) is the model's choice (log 44). -/
def Obligations.TrapEntry : Prop :=
  (∀ (s : State) (c : CoreId) (t : Trap) (resume : Word) (l : Level),
      (s.front c).allClear s.cycle = true → (s.core c).flow.fencesDone = true → (s.front c).at_.late = [] →
      (s.core c).regs.freeze.fe = false → ((∃ n, (s.front c).at_.wait = .pause n) → t.src.queue = true) →
      (l = .s ∧ (s.front c).level = .u ∨
        l = .m ∧ ((s.front c).level = .s ∨ (s.front c).level = .u ∧ (s.front c).sFrame.valid = true)) →
      ((s.front c).frame l).valid = false → ((s.front c).frame l).vec.toNat % 10 = 0 →
      let f := s.front c
      let g := (s.takeTrap c t resume).front c
      let x := g.frame l
      g.level = l ∧ g.at_.pc = (f.frame l).vec ∧ g.at_.pcHi = (if l = .m then 0 else f.at_.vahi) ∧ g.win = [] ∧
      g.at_.trapping = none ∧ g.at_.wait = .none ∧
      x.pc = resume ∧ x.cause = BitVec.ofNat 64 t.cause.code ∧ x.info = t.info ∧ x.loops = f.regs.loops ∧
      x.win = f.win ∧ x.pcHi = f.at_.pcHi ∧ x.vec = (f.frame l).vec ∧ x.scratch = (f.frame l).scratch ∧
      x.valid = true ∧ x.stat.toNat % 4 = f.level.code ∧ x.stat.toNat / 8 % 8 = t.src.code ∧
      (∀ l', l' ≠ .u → l' ≠ l → g.frame l' = f.frame l') ∧
      g.regs = { f.regs with loops := { f.regs.loops with lc0 := 0, lc1 := 0 } }) ∧
  (∀ (s : State) (c : CoreId) (t : Trap) (resume : Word),
      (s.front c).allClear s.cycle = true → (s.core c).flow.fencesDone = true → (s.front c).at_.late = [] →
      (s.core c).regs.freeze.fe = false → (s.front c).level = .m → (∀ n, (s.front c).at_.wait ≠ .pause n) →
      let u := s.takeTrap c t resume
      (u.core c).regs.freeze.fe = true ∧ (u.core c).regs.freeze.viol = 5 ∧ (u.front c).at_.pc = resume ∧
      (u.front c).level = .m ∧ (u.front c).regs = (s.front c).regs ∧ (u.front c).mFrame = (s.front c).mFrame ∧
      (u.front c).sFrame = (s.front c).sFrame) ∧
  (∀ (s : State) (c : CoreId) (t : Trap) (resume : Word) (n : Nat), (s.front c).at_.wait = .pause n → t.src.queue = false →
      let m := s.modFront c fun f =>
        { f.retire Hdr.zero none {} s.cycle with at_ := { (f.retire Hdr.zero none {} s.cycle).at_ with wait := .none } }
      s.takeTrap c t resume = m.takeTrap c t (m.front c).at_.pc)

/-- R164, R321: `trap` and `sysc` retire, then raise USER_TRAP with their code, to resume at the word that the loop
check chose. R316: `rett` with a valid frame restores the loop registers, the window, the level and the program counter from
it and clears VALID; without one it raises UNDEF, and to a misaligned TRAP_PC it raises ALIGN_FAULT. -/
def Obligations.TrapWords : Prop :=
  (∀ (h : Hdr) (imm : BitVec 32) (n : BitVec 34) (s : State), Issues s h {} →
      let raises := fun (i : Instr) (info : Word) => ∃ u, Retired s s u 0 none none false ∧ WritesNone s u ∧
        exec i s = .next (u.takeTrap s.cur { cause := .userTrap, info := info, word := pcOf s } (fe u).at_.pc)
      raises (.trap h imm) (BitVec.ofNat 64 imm.toNat) ∧ raises (.sysc h n) (BitVec.ofNat 64 (2 ^ 63 + n.toNat))) ∧
  (∀ (h : Hdr) (s : State), Issues s h { level := .s } →
      let f := fe s
      let x := f.frame f.level
      (x.valid = false → Traps s s (.rett h) .undef (BitVec.ofNat 64 (encode (.rett h)))) ∧
      (x.valid = true → x.pc.toNat % 10 ≠ 0 → Traps s s (.rett h) .alignFault x.pc) ∧
      (x.valid = true → x.pc.toNat % 10 = 0 → ∃ t, exec (.rett h) s = .next t ∧ SameBytes s t ∧
        (fe t).at_.pc = x.pc ∧ (fe t).at_.pcHi = x.pcHi ∧ (fe t).win = x.win ∧
        (fe t).level = (if x.stat.toNat % 4 = 1 then .s else if x.stat.toNat % 4 = 2 then .m else .u) ∧
        (fe t).regs = { f.regs with loops := x.loops } ∧
        (fe t).frame f.level = { x with stat := x.stat &&& ~~~4 } ∧
        (∀ l, l ≠ .u → l ≠ f.level → (fe t).frame l = f.frame l) ∧
        ((fe t).level ≠ .u → t = s.modFront s.cur fun _ => fe t)))

/-- R163, R36: `endit` ends the iteration: the front end has no instruction, the loops are off, a suspended walk
goes idle with END = 2 while a running one goes on, and a handler's frame is discarded. R322: `halt` stops the front end for good once every tag and fence has completed; until then it waits. -/
def Obligations.EndsOfTheFrontEnd : Prop :=
  (∀ (h : Hdr) (s : State), Issues s h {} →
      ∃ t, exec (.endit h) s = .next t ∧ SameBytes s t ∧ WritesNone s t ∧ (fe t).at_.idle = true ∧
        (fe t).regs.loops = { (fe s).regs.loops with lc0 := 0, lc1 := 0 } ∧
        (fe t).regs.fflags = (fe s).regs.fflags ∧ (fe t).regs.round = (fe s).regs.round ∧ (fe t).regs.seed = (fe s).regs.seed ∧
        (fe t).level = (fe s).level ∧
        (fe t).sFrame = (if (fe s).level = .s then (fe s).sFrame.clear else (fe s).sFrame) ∧
        (fe t).mFrame = (if (fe s).level = .m then (fe s).mFrame.clear else (fe s).mFrame) ∧
        t.me.live.walker = (if s.me.live.walker.state = .susp then { s.me.live.walker with state := .idle, end_ := 2 } else s.me.live.walker) ∧
        t.me.live.queues = s.me.live.queues ∧ t.me.live.rings = s.me.live.rings ∧ t.me.live.copies = s.me.live.copies ∧
        (∀ j ∈ t.me.run.job, j.iter = none)) ∧
  (∀ (h : Hdr) (s : State), Issues s h { level := .m } →
      (¬ ((fe s).allClear s.cycle = true ∧ s.me.flow.fencesDone = true) → exec (.halt h) s = .next s) ∧
      ((fe s).allClear s.cycle = true → s.me.flow.fencesDone = true →
        ∃ t, exec (.halt h) s = .next t ∧ SameBytes s t ∧ WritesNone s t ∧ t.me.run.halted = true ∧
          (fe t).at_.idle = true ∧ (fe t).level = (fe s).level ∧ (fe t).sFrame = (fe s).sFrame.clear ∧
          (fe t).mFrame = (fe s).mFrame.clear ∧
          (fe t).regs.loops = { (fe s).regs.loops with lc0 := 0, lc1 := 0 } ∧
          (fe t).regs.fflags = (fe s).regs.fflags ∧ (fe t).regs.round = (fe s).regs.round ∧
          (fe t).regs.seed = (fe s).regs.seed ∧ (∀ j ∈ t.me.run.job, j.iter = none)))

/-- R120, R137, R138: the checks before a word of any opcode has its effect. A front end that may not issue leaves the word
where it stands; an opcode of a feature not accepted raises UNDEF; a level too low raises PRIV. A word that is not a vector
instruction (R171) and whose predicate is false changes nothing, raises no trap of its own, and leaves its tag as it was:
every such word, where nothing is left that any word could wait for, and some of them under exactly their own waits. -/
def Obligations.ChecksBeforeAWordIssues : Prop :=
  (∀ (i : Instr) (s : State), isEvent i = false →
      let op := encode i / 2 ^ 72
      let feature := if 0x6C ≤ op ∧ op ≤ 0x6E then 1 else if op = 0x6B then 2 else if op = 0xD6 ∨ op = 0xD7 then 3
        else if op = 0xDE ∨ op = 0xDF then 4 else if op = 0xEA ∨ op = 0xEB then 5 else 0
      let lowest : Level := match i with
        | .prd _ r _ => if regLevel r.toNat false = .m then .m else .s
        | .pwr _ r _ => if regLevel r.toNat true = .m then .m else .s
        | _ => if op = 0xED then .m else if 0xE0 ≤ op ∧ op ≤ 0xEB ∧ op ≠ 0xE7 then .s else .u
      let info := BitVec.ofNat 64 (encode i)
      (s.me.mayIssue s.cycle = false → exec i s = .next (s.tryEnter s.cur)) ∧
      (s.me.mayIssue s.cycle = true → s.pkg.accept.getLsbD feature = false → Traps s s i .undef info) ∧
      (s.me.mayIssue s.cycle = true → s.pkg.accept.getLsbD feature = true → (fe s).level.code < lowest.code →
        Traps s s i .priv info)) ∧
  (∀ (h : Hdr) (w : IWidth) (d a b : SReg) (n imm : BitVec 32) (e : EntryNo) (q : RingId) (o : Ord) (x : Scope) (k : QueueNo)
      (wp wn : Bool) (s : State),
    let off := fun (i : Instr) (u : Use) =>
      s.me.mayIssue s.cycle = true → s.accepted u.feature = true → u.level.code ≤ (fe s).level.code →
      s.me.ready s.cycle h u = true → ((fe s).predicate h).getLsbD 0 = false →
        ∃ t, exec i s = .next t ∧ Retired s s t 0 none none false ∧ WritesNone s t ∧ (fe t).regs.lfsr = (fe s).regs.lfsr ∧
          (fe t).tags = (fe s).tags
    (h.pneg = true → h.pred = 0 → ((fe s).predicate h).getLsbD 0 = false) ∧
    off (.add h w d a b) (useS [(.s a, h.pda), (.s b, h.pdb)] (.s d) 1) ∧ off (.movi h d imm) (useS [] (.s d) 1) ∧
    off (.br h n) {} ∧ off (.endit h) {} ∧ off (.trap h imm) {} ∧ off (.nop h) {} ∧ off (.rett h) { level := .s } ∧
    off (.halt h) { level := .m } ∧ off (.fence h o x) { engine := true } ∧ off (.tokw h wp wn) {} ∧
    off (.cwait h e) { engine := true } ∧
    off (.qdef h q a b) { srcs := [(.s a, h.pda), (.s b, h.pdb)], engine := true } ∧
    off (.launch h d a k) { srcs := [(.s a, h.pda)], dsts := [.s d], feature := 4, engine := true }) ∧
  (∀ (i : Instr) (e : Enc) (s : State), i.enc = some e → isWhole i = true →
    s.me.mayIssue s.cycle = true → (∀ n < 6, s.pkg.accept.getLsbD n = true) → (fe s).level = .m →
    (∀ u : Use, s.me.ready s.cycle e.h u = true) → ((fe s).predicate e.h).getLsbD 0 = false →
      ∃ t, exec i s = .next t ∧ Retired s s t 0 none none false ∧ WritesNone s t ∧ (fe t).regs.lfsr = (fe s).regs.lfsr ∧
        (fe t).tags = (fe s).tags)

namespace Sys2Proof.Claims

open Sys2Proof.Machine

/-- Lane k of the vector sources A and B, and of a vector register read interlocked. -/
def laneA (s : State) (h : Hdr) (a : VReg) (k : Nat) : Lane := lane ((fe s).srcV a h.pda) k
def laneB (s : State) (h : Hdr) (b : VReg) (k : Nat) : Lane := lane ((fe s).srcV b h.pdb) k
def laneC (s : State) (c : VReg) (k : Nat) : Lane := lane ((fe s).regs.getV c) k
/-- The header predicate, and a predicate register read interlocked. -/
def activeP (s : State) (h : Hdr) : Word := (fe s).predicate h
def selP (s : State) (c : PReg) : Word := (fe s).regs.getP c
/-- Lanes of a predicate, ascending. -/
def lanesOf (p : Word) : List Nat := (List.range 64).filter fun k => p.getLsbD k
/-- The flags of a lane-wise instruction are those of its active lanes, ORed (R173). -/
def FlagsOf (p : Word) (fl : FFlags) (g : Nat → FFlags) : Prop :=
  ∀ b < 8, fl.getLsbD b = true ↔ ∃ k < 64, p.getLsbD k = true ∧ (g k).getLsbD b = true
/-- A lane-wise instruction gives each active lane the value `(g k).1`, with the flags `(g k).2`. -/
def Lanewise (s : State) (i : Instr) (h : Hdr) (u : Use) (d : VReg) (g : Nat → Lane × FFlags)
    (lf : Vector (BitVec 16) 64 := (fe s).regs.lfsr) : Prop :=
  ∀ fl, FlagsOf (activeP s h) fl (fun k => (g k).2) → ComputesLanes s i h u d (fun k => (g k).1) fl lf
/-- The same, element by element: element j of an active lane k gets `(g k j).1`, with the flags `(g k j).2`. -/
def Elementwise (s : State) (i : Instr) (h : Hdr) (u : Use) (d : VReg) (w : Nat) (g : Nat → Nat → Nat × FFlags)
    (lf : Vector (BitVec 16) 64 := (fe s).regs.lfsr) : Prop :=
  ∀ (f : Nat → Lane) (fl : FFlags), (∀ k < 64, ∀ j < 32 / w, elem w j (f k) = (g k j).1 % 2 ^ w) →
    (∀ b < 8, fl.getLsbD b = true ↔
      ∃ k < 64, (activeP s h).getLsbD k = true ∧ ∃ j < 32 / w, (g k j).2.getLsbD b = true) →
    ComputesLanes s i h u d f fl lf
/-- The value of an element modulo 2^w, of an integer; and the integer an element stands for. -/
def wrap (w : Nat) (x : Int) : Nat := (x % 2 ^ w).toNat
def signedOf (w : Nat) (x : Nat) : Int := if x < 2 ^ (w - 1) then (x : Int) else (x : Int) - 2 ^ w
def valueOf (w : Nat) (u : Bool) (x : Nat) : Int := if u then (x : Int) else signedOf w x
/-- Source lists of the vector shapes. -/
def vA (h : Hdr) (a : VReg) : List (Reg × Fin 4) := [(.v a, h.pda)]
def vAB (h : Hdr) (a b : VReg) : List (Reg × Fin 4) := [(.v a, h.pda), (.v b, h.pdb)]
/-- The value of a special function waits at the word's tag (R133, R134, R179). -/
def SpecialResult (s : State) (i : Instr) (h : Hdr) (d a : VReg) (rm : Rnd) (g : RMode → Nat → Lane → Lane × FFlags) : Prop :=
  let m := roundMode rm (fe s).regs.round
  let r := fun k => g m (draw m (fe s) k 1) (laneA s h a k)
  ∀ (tag : TagId), h.tag = some tag → Issues s h { srcs := vA h a, dsts := [.v d], lanewise := true } →
    ∃ t v fl, exec i s = .next t ∧ Retired s s t 0 none none false ∧
      Awaits s t tag (.v d) (laneMask (activeP s h)) (s.cycle + 10) (some v) fl ∧
      (∀ k < 64, (activeP s h).getLsbD k = true → lane v k = (r k).1) ∧ FlagsOf (activeP s h) fl (fun k => (r k).2) ∧
      (fe t).regs.lfsr = stepLanes m (activeP s h) 1 (fe s).regs.lfsr

end Sys2Proof.Claims

/-- R174, R175, R176: `vadd`, `vsub`, `vmul`: exact values, wrapped for integer types and rounded once for float
types, where RSR steps the register of each active lane once for each element. -/
def Obligations.VectorArithmetic : Prop :=
  ∀ (h : Hdr) (t : VTy) (rm : Rnd) (d a b : VReg) (s : State),
    let w := VTy.width t
    let m := roundMode rm (fe s).regs.round
    let x := fun k j => elem w j (laneA s h a k)
    let y := fun k j => elem w j (laneB s h b k)
    let lf := stepLanes m (activeP s h) (32 / w) (fe s).regs.lfsr
    let op := fun (i : Instr) (ff : Machine.Num → Machine.Num → Machine.Num × Bool) (fi : Int → Int → Int) =>
      (∀ fd, VTy.float t = some fd → Elementwise s i h (useV (vAB h a b) (.v d) 4) d w
        (fun k j => floatElem fd m (draw m (fe s) k (j + 1)) (ff (fd.decode (x k j)) (fd.decode (y k j)))) lf) ∧
      (VTy.float t = none → Elementwise s i h (useV (vAB h a b) (.v d) 2) d w
        (fun k j => (wrap w (fi (signedOf w (x k j)) (signedOf w (y k j))), 0)) lf)
    op (.vadd h t rm d a b) Machine.Num.add (· + ·) ∧ op (.vsub h t rm d a b) (fun x y => x.add y.negate) (· - ·) ∧
    op (.vmul h t rm d a b) Machine.Num.mul (· * ·)

/-- R174, R175, R177: the fused forms and `vdot2` round once. -/
def Obligations.VectorFused : Prop :=
  ∀ (h : Hdr) (t : FTy) (rm : Rnd) (d a b c : VReg) (s : State),
    let w := FTy.width t
    let fd := FTy.desc t
    let m := roundMode rm (fe s).regs.round
    let lf := fun n => stepLanes m (activeP s h) n (fe s).regs.lfsr
    let u := useV (vAB h a b) (.v d) 4 [.v c]
    let fused := fun (i : Instr) (ff : Machine.Num → Machine.Num → Machine.Num → Machine.Num × Bool) => Elementwise s i h u d w
      (fun k j => floatElem fd m (draw m (fe s) k (j + 1)) (ff (fd.decode (elem w j (laneA s h a k)))
        (fd.decode (elem w j (laneB s h b k))) (fd.decode (elem w j (laneC s c k))))) (lf (32 / w))
    fused (.vfma h t rm d a b c) fmaExact ∧
    fused (.vfms h t rm d a b c) (fun x y z => fmaExact x y z.negate) ∧
    fused (.vnfma h t rm d a b c) (fun x y z => fmaExact x.negate y z) ∧
    Lanewise s (.vdot2 h true rm d a b c) h u d
      (fun k => dotBf16 m (draw m (fe s) k 1) (laneA s h a k) (laneB s h b k) (laneC s c k)) (lf 1) ∧
    Lanewise s (.vdot2 h false rm d a b c) h u d
      (fun k => (BitVec.ofInt 32 ((laneC s c k).toInt
        + signedOf 16 (elem 16 0 (laneA s h a k)) * signedOf 16 (elem 16 0 (laneB s h b k))
        + signedOf 16 (elem 16 1 (laneA s h a k)) * signedOf 16 (elem 16 1 (laneB s h b k))), 0)) (lf 1)

/-- R174, R175, R176: minimum, maximum, absolute value and negation. -/
def Obligations.VectorExtremesAndSigns : Prop :=
  ∀ (h : Hdr) (t : VTy) (un : Bool) (d a b : VReg) (s : State),
    let w := VTy.width t
    let x := fun k j => elem w j (laneA s h a k)
    let y := fun k j => elem w j (laneB s h b k)
    let i2 := fun (i : Instr) (g : Int → Int → Int) => Elementwise s i h (useV (vAB h a b) (.v d) 2) d w
      (fun k j => (wrap w (g (valueOf w un (x k j)) (valueOf w un (y k j))), 0))
    let f2 := fun (i : Instr) (larger : Bool) (fd : FDesc) => Elementwise s i h (useV (vAB h a b) (.v d) 4) d w
      (fun k j => (minMaxCode fd larger (x k j) (y k j), 0))
    let e1 := fun (i : Instr) (g : Nat → Nat) => Elementwise s i h (useV (vA h a) (.v d) 2) d w (fun k j => (g (x k j), 0))
    (VTy.float t = none →
      i2 (.vmin h t un d a b) min ∧ i2 (.vmax h t un d a b) max ∧
      e1 (.vabs h t d a) (fun x => wrap w |signedOf w x|) ∧ e1 (.vneg h t d a) (fun x => wrap w (-signedOf w x))) ∧
    (∀ fd, VTy.float t = some fd →
      f2 (.vmin h t un d a b) false fd ∧ f2 (.vmax h t un d a b) true fd ∧
      e1 (.vabs h t d a) (fun x => x % 2 ^ (w - 1)) ∧
      e1 (.vneg h t d a) (fun x => if x < 2 ^ (w - 1) then x + 2 ^ (w - 1) else x - 2 ^ (w - 1)))

/-- R174, R176, R178: bitwise operations, comparison into the bits of active lanes, selection, shifts, saturating sums
and high products. -/
def Obligations.VectorLogicAndIntegers : Prop :=
  ∀ (h : Hdr) (t : ITy) (un sub : Bool) (d a b : VReg) (c p : PReg) (n : VShAmt) (k : VCond) (s : State),
    let w := ITy.width t
    let x := fun k j => elem w j (laneA s h a k)
    let y := fun k j => elem w j (laneB s h b k)
    let bits := fun (i : Instr) (g : Lane → Lane → Lane) => Lanewise s i h (useV (vAB h a b) (.v d) 2) d
      (fun k => (g (laneA s h a k) (laneB s h b k), 0))
    let by_ := fun k j => match n with
      | .reg v => elem w j (laneB s h v k) % w
      | .imm m => m.val
    let shift := fun (i : Instr) (g : Nat → Nat → Nat) => Elementwise s i h
      (useV (match n with | .reg v => vAB h a v | .imm _ => vA h a) (.v d) 2) d w (fun k j => (g (x k j) (by_ k j), 0))
    let lo : Int := if un then 0 else -2 ^ (w - 1)
    let hi : Int := if un then 2 ^ w - 1 else 2 ^ (w - 1) - 1
    let sum := fun k j =>
      if sub then valueOf w un (x k j) - valueOf w un (y k j) else valueOf w un (x k j) + valueOf w un (y k j)
    bits (.vand h d a b) (· &&& ·) ∧ bits (.vor h d a b) (· ||| ·) ∧ bits (.vxor h d a b) (· ^^^ ·) ∧
    Lanewise s (.vnot h d a) h (useV (vA h a) (.v d) 2) d (fun k => (~~~laneA s h a k, 0)) ∧
    Lanewise s (.vsel h d a b c) h (useV (vAB h a b) (.v d) 2 [.p c]) d
      (fun k => (if (selP s c).getLsbD k then laneA s h a k else laneB s h b k, 0)) ∧
    shift (.vshl h t d a n) (fun x k => x * 2 ^ k % 2 ^ w) ∧ shift (.vshr h t d a n) (fun x k => x / 2 ^ k) ∧
    shift (.vsra h t d a n) (fun x k => wrap w (signedOf w x / 2 ^ k)) ∧
    Elementwise s (.vadds h t un sub d a b) h (useV (vAB h a b) (.v d) 2) d w
      (fun k j => (wrap w (max lo (min hi (sum k j))), if sum k j < lo ∨ hi < sum k j then fISAT else 0)) ∧
    Elementwise s (.vmulh h t un d a b) h (useV (vAB h a b) (.v d) 2) d w
      (fun k j => (wrap w (valueOf w un (x k j) * valueOf w un (y k j) / 2 ^ w), 0)) ∧
    (∀ fl, FlagsOf (activeP s h) fl (fun i => (vcond k (laneA s h a i) (laneB s h b i)).2) →
      Issues s h (useV (vAB h a b) (.p p) (match k with | .f _ => 4 | .i _ => 2)) →
      ∃ t, exec (.vcmp h k p a b) s = .next t ∧ Retired s s t fl none none false ∧
        (fe t).regs.lfsr = (fe s).regs.lfsr ∧ (∀ g, g ≠ .p p → reg t g = reg s g) ∧
        (p ≠ 0 → ∀ i < 64, (reg t (.p p)).getLsbD i =
          if (activeP s h).getLsbD i then (vcond k (laneA s h a i) (laneB s h b i)).1 else (reg s (.p p)).getLsbD i) ∧
        (p = 0 → reg t (.p p) = reg s (.p p)))

/-- R133, R134, R179: the special functions: their results wait at their tags for at least 10 cycles. -/
def Obligations.SpecialFunctions : Prop :=
  ∀ (h : Hdr) (rm : Rnd) (d a : VReg) (s : State),
    SpecialResult s (.vexp2 h d a) h d a .rne (fun _ _ x => spExp2 x) ∧
    SpecialResult s (.vlog2 h d a) h d a .rne (fun _ _ x => spLog2 x) ∧
    SpecialResult s (.vrcp h d a) h d a .rne (fun _ _ x => spRcp x) ∧
    SpecialResult s (.vrsqrt h d a) h d a .rne (fun _ _ x => spRsqrt x) ∧
    SpecialResult s (.vsqrt h rm d a) h d a rm spSqrt ∧
    SpecialResult s (.vtanh h d a) h d a .rne (fun _ _ x => spTanh x) ∧
    SpecialResult s (.vsigm h d a) h d a .rne (fun _ _ x => spSigm x)

/-- R181, R182: instructions that move lanes. -/
def Obligations.VectorMoves : Prop :=
  ∀ (h : Hdr) (up : Bool) (d a b c : VReg) (sa sd : SReg) (p : PReg) (n : RotAmt) (ln : Fin 64) (s : State),
    let x := laneA s h a
    let rot := match n with
      | .reg v => (srcB s h v).toNat % 64
      | .imm m => m.val
    let srcs := fun l => match n with
      | .reg v => l ++ [(Reg.s v, h.pdb)]
      | .imm _ => l
    let moves := fun (i : Instr) (u : Use) (f : Nat → Lane) => Lanewise s i h u d (fun k => (f k, 0))
    let below := fun k => ((List.range k).filter fun j => (selP s p).getLsbD j).length
    moves (.vbcast h d (.scalar sa)) (useV [(.s sa, h.pda)] (.v d) 3) (fun _ => (srcA s h sa).setWidth 32) ∧
    moves (.vbcast h d (.lane a ln)) (useV (vA h a) (.v d) 3) (fun _ => x ln.val) ∧
    moves (.vmov h (.mov d a)) (useV (vA h a) (.v d) 3) x ∧
    Computes s (.vmov h (.extract sd a ln)) h (useS (vA h a) (.s sd) 3) (.s sd) (wordOf ((x ln.val).setWidth 64)) ∧
    (Issues s h (useV [(.s sa, h.pda)] (.v d) 3) →
      ∃ t, exec (.vmov h (.insert d sa ln)) s = .next t ∧ Retired s s t 0 none none false ∧
        (fe t).regs.lfsr = (fe s).regs.lfsr ∧ (∀ g, g ≠ .v d → reg t g = reg s g) ∧
        ∀ k < 64, lane (reg t (.v d)) k =
          if k = ln.val ∧ (activeP s h).getLsbD k = true then (srcA s h sa).setWidth 32 else lane (reg s (.v d)) k) ∧
    moves (.vperm h d a b) (useV (vAB h a b) (.v d) 3) (fun k => x ((laneB s h b k).toNat % 64)) ∧
    moves (.vrot h d a n) (useV (srcs (vA h a)) (.v d) 3) (fun k => x ((k + rot) % 64)) ∧
    moves (.vslide h up d a c n) (useV (srcs (vA h a)) (.v d) 3 [.v c]) (fun k =>
      if up then (if rot ≤ k then x (k - rot) else laneC s c (k + 64 - rot))
      else (if k + rot < 64 then x (k + rot) else laneC s c (k + rot - 64))) ∧
    moves (.vcompact h d a p) (useV (vA h a) (.v d) 3 [.p p]) (fun k => (((lanesOf (selP s p))[k]?).map x).getD 0) ∧
    moves (.vexpand h d a p) (useV (vA h a) (.v d) 3 [.p p]) (fun k => if (selP s p).getLsbD k then x (below k) else 0)



/-- R183, R184, R185: reductions and scans over the lanes that `pC` selects. R186: `vtopk` writes the best k lanes in their ranking into the active lanes among the first k; the ranking is a
stable sorting of the selected lanes. -/
def Obligations.ReductionsScansAndTopK : Prop :=
  (∀ (h : Hdr) (t : RedTy) (e : ExtTy) (sd : SReg) (d a : VReg) (p : PReg) (s : State),
      let v := (fe s).srcV a h.pda
      let x := laneA s h a
      let sel := lanesOf (selP s p)
      let u := useS (vA h a) (.s sd) 8 [.p p]
      let uv := useV (vA h a) (.v d) 8 [.p p]
      let sum := fun (l : List Nat) => (l.map fun k => (x k).toInt).sum
      Computes s (.vredsum h t sd a p) h u (.s sd) (wordOf (redSum t v (selP s p)).1) (redSum t v (selP s p)).2 ∧
      (redSum .i32 v (selP s p) = (BitVec.ofInt 64 (sum sel), 0)) ∧
      Computes s (.vredmax h e sd a p) h u (.s sd) (wordOf (redExt e true v (selP s p)).1) ∧
      Computes s (.vredmin h e sd a p) h u (.s sd) (wordOf (redExt e false v (selP s p)).1) ∧
      (∀ k ∈ sel, (x k).toInt ≤ (redExt .i32 true v (selP s p)).1.toInt ∧
        (redExt .i32 false v (selP s p)).1.toInt ≤ (x k).toInt ∧
        (x k).toNat ≤ (redExt .u32 true v (selP s p)).1.toNat ∧ (redExt .u32 false v (selP s p)).1.toNat ≤ (x k).toNat) ∧
      (sel ≠ [] → ∃ k ∈ sel, ∃ j ∈ sel, (redExt .i32 true v (selP s p)).1.toInt = (x k).toInt ∧
        (redExt .i32 false v (selP s p)).1.toInt = (x j).toInt) ∧
      Lanewise s (.vscan h true d a p) h uv d (fun k => (scanGo combineF (leafF32 v (selP s p)) k 6 0 none).getD (0, 0)) ∧
      Lanewise s (.vscan h false d a p) h uv d (fun k => (BitVec.ofInt 32 (sum (sel.filter fun j => decide (j ≤ k))), 0))) ∧
  (∀ (h : Hdr) (flt mag idx : Bool) (k : Fin 65) (d a : VReg) (c : PReg) (s : State),
      let order := ranking flt mag ((fe s).srcV a h.pda) (selP s c)
      let before := fun i j => ranksBefore flt mag (laneA s h a i) (laneA s h a j)
      order.Perm (lanesOf (selP s c)) ∧
      order.Pairwise (fun i j => before j i = false ∧ (before i j = true ∨ i < j)) ∧
      (Issues s h (useV (vA h a) (.v d) 12 [.p c] 2) →
        ∃ t, exec (.vtopk h flt mag idx k d a c) s = .next t ∧ Retired s s t 0 none none false ∧
          (fe t).regs.lfsr = (fe s).regs.lfsr ∧ (∀ g, g ≠ .v d → reg t g = reg s g) ∧
          ∀ n < 64, lane (reg t (.v d)) n =
            if n < k.val ∧ (activeP s h).getLsbD n = true then
              match order[n]? with
              | some j => if idx then BitVec.ofNat 32 j else laneA s h a j
              | none => if idx then 0xFFFFFFFF else if flt then 0xFF800000 else 0x80000000
            else lane (reg s (.v d)) n))

/-- R187: the sparse instructions. -/
def Obligations.SparseWords : Prop :=
  ∀ (h : Hdr) (p : PReg) (f : BmForm) (d a : VReg) (src : PfxSrc) (s : State),
    let pair := match f with
      | .scalars x y => ([(Reg.s x, h.pda), (.s y, h.pdb)], srcA s h x &&& srcB s h y)
      | .preds x y => ([(Reg.p x, h.pda), (.p y, h.pdb)], (fe s).srcP x h.pda &&& (fe s).srcP y h.pdb)
    let one := match src with
      | .scalar x => (Reg.s x, srcA s h x)
      | .pred x => (Reg.p x, (fe s).srcP x h.pda)
    Computes s (.vbmand h p f) h { srcs := pair.1, dsts := [.p p], lat := some 3, feature := 1 } (.p p) (wordOf pair.2) ∧
    Lanewise s (.vpopc h d a) h (useV (vA h a) (.v d) 3 [] 1) d (fun k => (BitVec.ofNat 32 (ones (laneA s h a k)), 0)) ∧
    Lanewise s (.vpfx h d src) h (useV [(one.1, h.pda)] (.v d) 3 [] 1) d
      (fun k => (BitVec.ofNat 32 ((List.range k).countP fun j => one.2.getLsbD j), 0))

/-- R188 to R193, R138: the conversions; a type of 0xF raises FORMAT once a lane is active, which, like the targets that accept
SAT, is the model's reading (log 12). -/
def Obligations.Conversions : Prop :=
  ∀ (h : Hdr) (up sat : Bool) (rm : Rnd) (ct : CvtTy) (t part : Fin 8) (d a : VReg) (b sd : SReg) (c : PReg) (s : State),
    let m := roundMode rm (fe s).regs.round
    let y := fun k => draw m (fe s) k 1
    let x := laneA s h a
    let e := (srcB s h b).toNat % 256
    let lf := stepLanes m (activeP s h) 1 (fe s).regs.lfsr
    let conv := fun (i : Instr) (ty : CvtTy) (u : Use) (g : Nat → Lane × FFlags) (lf : Vector (BitVec 16) 64) =>
      (ty ≠ .tag 7 ∨ activeP s h = 0 → Lanewise s i h u d g lf) ∧
      (ty = .tag 7 → activeP s h ≠ 0 → Issues s h u → Traps s s i .format (BitVec.ofNat 64 (encode i)))
    let one := useV (vA h a) (.v d) 4
    let two := useV [(.v a, h.pda), (.s b, h.pdb)] (.v d) 4
    let w := tagWidth t
    conv (.vcvt h up rm sat ct d a) ct one (fun k => vcvtLane up ct m sat (y k) (x k)) lf ∧
    conv (.vquant h rm sat t d a b) (.tag t) two (fun k => vquantLane t m sat (y k) e (x k)) lf ∧
    conv (.vdequant h rm t d a b) (.tag t) two (fun k => vdequantLane t m (y k) e (x k)) lf ∧
    conv (.vunpack h t part d a) (.tag t) one
      (fun k => (BitVec.ofNat 32 (elem w (k % (32 / w)) (x (2 * w * part.val + k / (32 / w)))), 0)) (fe s).regs.lfsr ∧
    Lanewise s (.vrnd h rm d a) h one d (fun k => vrndLane m (y k) (x k)) lf ∧
    (let u := useS (vA h a) (.s sd) 4 [.p c]
     let r := blockScale t ((lanesOf (selP s c)).map fun k => decF32 (x k))
     (t ≠ 7 → Computes s (.vquantScale h t sd a c) h u (.s sd) (wordOf (BitVec.ofNat 64 r.1)) r.2) ∧
     (t = 7 → Issues s h u →
       Traps s s (.vquantScale h t sd a c) .format (BitVec.ofNat 64 (encode (.vquantScale h t sd a c))))) ∧
    (Issues s h one →
      (t = 7 → activeP s h ≠ 0 → Traps s s (.vpack h t part d a) .format (BitVec.ofNat 64 (encode (.vpack h t part d a)))) ∧
      (t ≠ 7 ∨ activeP s h = 0 → ∃ u, exec (.vpack h t part d a) s = .next u ∧ Retired s s u 0 none none false ∧
        (fe u).regs.lfsr = (fe s).regs.lfsr ∧ (∀ g, g ≠ .v d → reg u g = reg s g) ∧
        ∀ i < 64,
          (2 * w * part.val ≤ i ∧ i < 2 * w * (part.val + 1) ∧ (activeP s h).getLsbD i = true →
            ∀ j < 32 / w, elem w j (lane (reg u (.v d)) i) =
              (x ((i - 2 * w * part.val) * (32 / w) + j)).toNat % 2 ^ w) ∧
          (¬ (2 * w * part.val ≤ i ∧ i < 2 * w * (part.val + 1) ∧ (activeP s h).getLsbD i = true) →
            lane (reg u (.v d)) i = lane (reg s (.v d)) i)))

/-- R194: the predicate instructions. -/
def Obligations.PredicateWords : Prop :=
  ∀ (h : Hdr) (d a b : PReg) (sd sa : SReg) (n : Nat) (s : State),
    let x := (fe s).srcP a h.pda
    let y := (fe s).srcP b h.pdb
    let two := fun (i : Instr) (r : Word) => Computes s i h (useS [(.p a, h.pda), (.p b, h.pdb)] (.p d) 1) (.p d) (wordOf r)
    let low := fun (n : Nat) (r : Word) => ∀ k < 64, r.getLsbD k = decide (k < n)
    two (.pand h d a b) (x &&& y) ∧ two (.por h d a b) (x ||| y) ∧ two (.pxor h d a b) (x ^^^ y) ∧
    Computes s (.pnot h d a) h (useS [(.p a, h.pda)] (.p d) 1) (.p d) (wordOf (~~~x)) ∧
    Computes s (.pcnt h true sd a) h (useS [(.p a, h.pda)] (.s sd) 1) (.s sd) (wordOf x) ∧
    Computes s (.pcnt h false sd a) h (useS [(.p a, h.pda)] (.s sd) 1) (.s sd) (wordOf (BitVec.ofNat 64 (ones x))) ∧
    (Trailing x n → Computes s (.pfirst h sd a) h (useS [(.p a, h.pda)] (.s sd) 1) (.s sd) (wordOf (BitVec.ofNat 64 n))) ∧
    (∀ k r, low (Fin.val k) r → Computes s (.pset h d (.imm k)) h (useS [] (.p d) 1) (.p d) (wordOf r)) ∧
    (∀ r, low (srcA s h sa).toNat r →
      Computes s (.pset h d (.count sa)) h (useS [(.s sa, h.pda)] (.p d) 1) (.p d) (wordOf r)) ∧
    Computes s (.pset h d (.bits sa)) h (useS [(.s sa, h.pda)] (.p d) 1) (.p d) (wordOf (srcA s h sa))

namespace Sys2Proof.Claims

open Sys2Proof.Machine

/-- The checks of an access that the issuing front end makes (R197), for a word of the stream that `acc` belongs to. -/
def checked (s : State) (sp : Space) (acc : Access) (align : Nat) (xs : List (Word × Nat)) (deny : Bool := false)
    (stream : Access := acc) : MemCheck :=
  (s.asParty s.cur stream.stream).memCheck s.cur (fe s).level (fe s).at_.vahi sp acc align deny xs
/-- The same checks with the leaves that its walks would now bring (R344). -/
def foreseen (s : State) (sp : Space) (acc : Access) (align : Nat) (xs : List (Word × Nat)) (deny : Bool := false)
    (stream : Access := acc) : MemCheck :=
  ((s.asParty s.cur stream.stream).foresee s.cur (fe s).at_.vahi xs).memCheck s.cur (fe s).level (fe s).at_.vahi sp acc align deny xs
/-- An access whose checks trap traps where it stands, with the address (R197). One of translation or permission also
drops the address's entry from the TLB. -/
def AccessTraps (s : State) (i : Instr) (sp : Space) (r : MemCheck) : Prop :=
  ∀ cause a, r = .trap cause a →
    Traps s (if sp = .g ∧ (cause = .perm ∨ cause = .transl) then s.modCore s.cur fun k => k.dropLeaf (fe s).at_.vahi a else s)
      i cause a
/-- What becomes of a word that makes accesses (R197, R348). It waits while its stream is suspended. One whose checks trap traps;
one that passes them goes on as `go` says, with its pieces. One that misses asks for a walk; it goes on too, with its pieces
still at their virtual addresses, where the walk will let it pass (log 61) and later words may issue (`blocks` is false); else
it is tried again. -/
def Accesses (s : State) (i : Instr) (sp : Space) (acc : Access) (align : Nat) (xs : List (Word × Nat)) (deny blocks : Bool)
    (go : State → List (List Piece) → Option Need → Prop) (stream : Access := acc) : Prop :=
  let r := checked s sp acc align xs deny stream
  let passes := ∃ ps, foreseen s sp acc align xs deny stream = .ok ps
  (sp = .g → s.me.suspended stream = true → exec i s = .next s) ∧
  (¬ (sp = .g ∧ s.me.suspended stream = true) →
    AccessTraps s i sp r ∧ (∀ ps, r = .ok ps → go s ps none) ∧
    ∀ a, r = .miss a →
      let m := s.askWalk s.cur (fe s).at_.vahi a stream.stream
      (passes → blocks = false → go m (untranslated xs) (some ⟨xs, (fe s).level, (fe s).at_.vahi, acc⟩)) ∧
      (¬ (passes ∧ blocks = false) → exec i s = .next m))
/-- A load that issues: it traps, waits, or joins the load stream with its pieces; its result waits at its tag, no
earlier than the minimum of R134, and no byte and no register has changed. -/
def Loads (s : State) (i : Instr) (h : Hdr) (u : Use) (tag : TagId) (d : Reg) (mask : VecWord) (kind : LoadKind) (sp : Space)
    (align : Nat) (xs : List (Word × Nat)) (bit : List Nat) (acq : Option Scope) (lat : Nat) : Prop :=
  Issues s h u → h.tag = some tag → Accesses s i sp .load align xs false false fun m ps need =>
    s.me.logRoom = true → s.me.logged = none →
      let us := loadUnits (bit.zip ps)
      (us = [] → ∃ t, exec i s = .next t ∧ Retired s m t 0 none none false ∧ Awaits s t tag d mask (s.cycle + lat) (some 0) 0) ∧
      (us ≠ [] → ∃ t, exec i s = .next t ∧
        Retired s (m.modCore s.cur fun k => k.modFlow fun f =>
          { f with loads := f.loads ++
            [⟨kind, sp, us, some tag, (fe s).at_.po, (fe s).at_.mark, acq, s.cycle, need, pcOf s⟩] }) t 0 none none false ∧
        Awaits s t tag d mask (s.cycle + lat) none 0)
/-- Bytes that the store stream's waiting requests take in the hold-back buffer (R27). -/
def queuedBytes (k : Core) : Nat := k.flow.storeQ.foldl (fun n o => n + match o.act with | .req r => r.size | _ => 0) 0
def actBytes : StoreAct → Nat
  | .req r => r.size
  | .buf .. => 0
  | .release => 0
  | .tlbi .. => 0
  | .record _ => 0
/-- A word joins the store stream from m (R98, R106, R359): it retires, writes no register, and no byte changes yet. -/
def JoinsStores (s : State) (i : Instr) (h : Hdr) (act : StoreAct) (rel : Option Scope) (m : State := s)
    (need : Option Need := none) : Prop :=
  s.me.holdRoom (queuedBytes s.me + actBytes act) = true →
    ∃ t, exec i s = .next t ∧
      Retired s (m.modCore s.cur fun k => k.pushStore s.cur s.cycle act rel h.tag 0 need) t 0 none none false ∧ WritesNone s t
/-- A store that issues: it traps, waits, or joins the store stream with its pieces and data; one of no access retires. -/
def Stores (s : State) (i : Instr) (h : Hdr) (u : Use) (sp : Space) (align : Nat) (xs : List (Word × Nat))
    (data : List (List Byte)) (comb : Comb) (rel : Option Scope) : Prop :=
  Issues s h u → Accesses s i sp .store align xs false false fun m ps need =>
    if xs = [] then JustRetires s m i else JoinsStores s i h (storeAct sp (storeUnits (data.zip ps)) comb) rel m need
/-- The effective address of R196: the base and the sign-extended offset. -/
def ea (s : State) (h : Hdr) (base : SReg) (off : BitVec 24) : Word := srcA s h base + BitVec.ofInt 64 off.toInt
/-- The address of an active lane: contiguous, strided, or indexed (R196, R200, R201). -/
def laneEA (s : State) (h : Hdr) (base : SReg) (str : Bool) (off : BitVec 24) (k : Nat) : Word :=
  if str then srcA s h base + BitVec.ofInt 64 (k * off.toInt) else ea s h base off + BitVec.ofNat 64 (4 * k)
def indexEA (s : State) (h : Hdr) (base : SReg) (off : BitVec 24) (x : VReg) (k : Nat) : Word :=
  ea s h base off + BitVec.ofNat 64 (4 * (laneC s x k).toNat)
/-- The physical address of the one piece of an access. -/
def firstAddr (ps : List (List Piece)) : Nat := ((ps.headD []).head?.map (·.addr)).getD 0
/-- Release scope and acquire of an annotation (R105). -/
def relOf (o : Ord) (x : Scope) : Option Scope := match o with
  | .none => none
  | .rel => some x
  | .acq => none
  | .ar => some x
def acqOf (o : Ord) : Bool := match o with
  | .none => false
  | .rel => false
  | .acq => true
  | .ar => true

/-- A request to one record: it traps, waits, or goes on with the record's address. -/
def RecordAccess (s : State) (i : Instr) (align n : Nat) (a : Word) (deny blocks : Bool) (go : State → Nat → Option Need → Prop) : Prop :=
  Accesses s i .g .rmw align [(a, n)] deny blocks fun m ps need => go m (firstAddr ps) need
/-- An atomic joins the store stream, releases and acquires as it says, and its result waits at its tag (R205). -/
def JoinsAtomic (s m : State) (i : Instr) (tag : TagId) (d : SReg) (scope : Scope) (ord : Ord) (r : Req) (need : Option Need) : Prop :=
  s.me.holdRoom (queuedBytes s.me + r.size) = true → s.me.logRoom = true → s.me.logged = none →
    let m1 := m.modCore s.cur fun k => k.pushStore s.cur s.cycle (.req r) (relOf ord scope) none 0 need
    ∃ t, exec i s = .next t ∧
      Retired s (if acqOf ord then m1.modCore s.cur fun k => k.pushAcquire s.cur s.cycle (some (fe s).at_.po) scope else m1) t 0
        none none false ∧
      Awaits s t tag (.s d) (wordOf (BitVec.allOnes 64)) (s.cycle + 460) none 0

end Sys2Proof.Claims

/-- R134, R195 to R202: the loads. -/
def Obligations.LoadsJoinTheLoadStream : Prop :=
  ∀ (h : Hdr) (d base : SReg) (vd x : VReg) (sp : Space) (w : MWidth) (scope : Scope) (sx str : Bool) (off : BitVec 24)
    (tag : TagId) (s : State),
    let n := MWidth.size w
    let lat := if sp = .g then 300 else 12
    let us : Use := { srcs := [(.s base, h.pda)], dsts := [.s d], engine := true }
    let uv := fun (locks : List Reg) =>
      ({ srcs := [(.s base, h.pda)], locks := locks, dsts := [.v vd], lanewise := true, engine := true } : Use)
    let ls := lanesOf (activeP s h)
    let vec := fun (i : Instr) (locks : List Reg) (a : Nat → Word) => Loads s i h (uv locks) tag (.v vd) (laneMask (activeP s h))
      .vec sp 4 (ls.map fun k => (a k, 4)) (ls.map (32 * ·)) none lat
    Loads s (.ld h d base sp w sx off) h us tag (.s d) (wordOf (BitVec.allOnes 64)) (.scalar n sx) sp 1 [(ea s h base off, n)]
      [0] none lat ∧
    Loads s (.ldacq h d base sp w scope sx off) h us tag (.s d) (wordOf (BitVec.allOnes 64)) (.scalar n sx) sp n
      [(ea s h base off, n)] [0] (some scope) lat ∧
    vec (.vld h vd base sp str off) [] (laneEA s h base str off) ∧
    vec (.vgather h vd base sp x off) [.v x] (indexEA s h base off x)

/-- R195 to R201: the stores. A vector store with no active lane retires with no effect. -/
def Obligations.StoresJoinTheStoreStream : Prop :=
  ∀ (h : Hdr) (data base : SReg) (vd x : VReg) (sp : Space) (w : MWidth) (scope : Scope) (str : Bool) (comb : Comb)
    (off : BitVec 24) (s : State),
    let n := MWidth.size w
    let us : Use := { srcs := [(.s base, h.pda), (.s data, h.pdb)], engine := true }
    let uv := fun (locks : List Reg) =>
      ({ srcs := [(.s base, h.pda), (.v vd, h.pdb)], locks := locks, lanewise := true, engine := true } : Use)
    let ls := lanesOf (activeP s h)
    let vec := fun (i : Instr) (locks : List Reg) (comb : Comb) (a : Nat → Word) =>
      Stores s i h (uv locks) sp 4 (ls.map fun k => (a k, 4)) (ls.map fun k => toBytes 4 (laneB s h vd k).toNat) comb none
    Stores s (.st h data base sp w off) h us sp 1 [(ea s h base off, n)] [toBytes n (srcB s h data).toNat] .none none ∧
    Stores s (.strel h data base sp w scope off) h us sp n [(ea s h base off, n)] [toBytes n (srcB s h data).toNat] .none
      (some scope) ∧
    vec (.vst h vd base sp str off) [] .none (laneEA s h base str off) ∧
    vec (.vscatter h vd base sp comb x off) [.v x] comb (indexEA s h base off x)

/-- R98, R104 to R106, R205 to R215: atomics, contributions, and the record operations join the store stream with their
request. -/
def Obligations.RecordWordsJoinTheStoreStream : Prop :=
  ∀ (h : Hdr) (d base data : SReg) (dbl : Bool) (scope : Scope) (ord : Ord) (op : AmoOp) (u rel : Bool) (cm1 : Fin 16)
    (off : BitVec 24) (tag : TagId) (s : State),
    let a := ea s h base off
    let n := if dbl then 8 else 4
    let po := (fe s).at_.po
    let paired := (s.pairedSide s.cur).isSome
    let two : Use := { srcs := [(.s base, h.pda), (.s data, h.pdb)], engine := true }
    let one : Use := { srcs := [(.s base, h.pda)], engine := true }
    (Issues s h { srcs := [(.s base, h.pda), (.s d, h.pdb)], dsts := [.s d], engine := true } → h.tag = some tag →
      RecordAccess s (.amo h d base dbl scope ord op u off) n n a (op == .fadd && paired) false fun m pa need =>
        JoinsAtomic s m (.amo h d base dbl scope ord op u off) tag d scope ord
          (.amo pa a dbl op u (srcB s h d) tag po) need) ∧
    (Issues s h { srcs := [(.s base, h.pda), (.s d, h.pdb)], locks := [.s (d + 1)], dsts := [.s d], engine := true } →
      h.tag = some tag →
      RecordAccess s (.cas h d base dbl scope ord off) n n a false false fun m pa need =>
        JoinsAtomic s m (.cas h d base dbl scope ord off) tag d scope ord
          (.cas pa a dbl (srcB s h d) ((fe s).regs.getS (d + 1)) tag po) need) ∧
    (Issues s h two →
      RecordAccess s (.cred h data base dbl scope ord op u cm1 off) 16 16 a (op == .fadd && paired) false fun m pa need =>
        s.me.holdRoom (queuedBytes s.me + 64) = true →
        ∃ t, exec (.cred h data base dbl scope ord op u cm1 off) s = .next t ∧ WritesNone s t ∧ SameBytes s t ∧
          (fe t).at_.po = po + 1 ∧ t.me.live.prod.cred = s.me.live.prod.cred + 1 ∧
          t.me.flow = ((m.me.pushStore s.cur s.cycle
            (.req (.cred pa a dbl op u (cm1.val + 1) (srcB s h data) s.me.live.prod.cred)) (relOf ord scope) h.tag 0 need).flow)) ∧
    (Issues s h two → RecordAccess s (.barInit h data base scope off) 32 32 a false false fun m pa need =>
      JoinsStores s (.barInit h data base scope off) h (.req (.barInit pa a scope (srcB s h data))) none m need) ∧
    (Issues s h one → RecordAccess s (.barArrive h base rel scope off) 32 32 a false false fun m pa need =>
      JoinsStores s (.barArrive h base rel scope off) h (.req (.barArrive pa a)) (if rel then some scope else none) m need) ∧
    (Issues s h one → RecordAccess s (.gjoin h base off) 64 64 a false false fun m pa need =>
      JoinsStores s (.gjoin h base off) h (.req (.group pa a true none)) none m need) ∧
    (Issues s h one → RecordAccess s (.gleave h base off) 64 64 a false true fun _ pa _ =>
      match (fe s).gbar.find? fun g => g.addr == pa with
      | some ⟨_, _, none⟩ => exec (.gleave h base off) s = .next s
      | some ⟨_, _, some p⟩ => JoinsStores s (.gleave h base off) h (.req (.group pa a false (some p))) none
      | none => JoinsStores s (.gleave h base off) h (.req (.group pa a false none)) none)



/-- R213, R215: `bar.wait` and `gbar` stand at their words until their events end the wait; `gbar` releases first. R99, R203, R204, R216: `align` places its marker, `fence` joins the streams as a release, an acquire or both, and
the token words pop and push FIFO tokens or wait or trap. FIFO 3 is D→F, 4 is K→F, 7 is F→D and 0 is F→K (R47). -/
def Obligations.WaitsMarkersFencesAndTokens : Prop :=
  (∀ (h : Hdr) (base : SReg) (scope : Scope) (ph : PhSrc) (off : BitVec 24) (s : State),
      let a := ea s h base off
      let phase := match ph with
        | .imm p => p
        | .reg b => (srcB s h b).getLsbD 0
      let srcs := match ph with
        | .imm _ => []
        | .reg b => [(Reg.s b, h.pdb)]
      (Issues s h { srcs := (.s base, h.pda) :: srcs, engine := true } →
        RecordAccess s (.barWait h base scope ph off) 32 32 a false true fun _ pa _ =>
          s.me.logRoom = true → s.me.logged = none →
          ∃ t, exec (.barWait h base scope ph off) s = .next t ∧ t = s.modFront s.cur (fun _ => fe t) ∧ SameBytes s t ∧
            WritesNone s t ∧ (fe t).at_.wait = .barWait pa a phase scope none ∧ (fe t).at_.pc = pcOf s) ∧
      (Issues s h { srcs := [(.s base, h.pda)], engine := true } →
        RecordAccess s (.gbar h base scope off) 64 64 a false true fun _ pa _ =>
          s.me.logRoom = true → s.me.logged = none →
          let sent := (fe s).gbar.any fun g => g.addr == pa
          let m := if sent then s else s.modCore s.cur fun k => k.pushGate s.cur s.cycle .release scope none
          ∃ t, exec (.gbar h base scope off) s = .next t ∧ t = m.modFront s.cur (fun _ => fe t) ∧ SameBytes s t ∧
            WritesNone s t ∧ (fe t).at_.wait = .gbar pa a scope sent ∧ (fe t).at_.pc = pcOf s)) ∧
  (∀ (h : Hdr) (ord : Ord) (scope : Scope) (x y : Bool) (s : State),
      let q := s.me.live.queues.fifo
      let fifo := fun (t : State) (j : Fin 8) => (t.me.live.queues.fifo[j]).val
      (Issues s h { engine := true } → ∃ t, exec (.align h) s = .next t ∧ Retired s s t 0 none none false ∧ WritesNone s t ∧
        (fe t).at_.mark = (fe s).at_.po) ∧
      (Issues s h { engine := true } →
        let m1 := if ord = .rel ∨ ord = .ar then s.modCore s.cur fun k => k.pushGate s.cur s.cycle .release scope h.tag else s
        let m2 := if ord = .acq ∨ ord = .ar then m1.modCore s.cur fun k => k.pushAcquire s.cur s.cycle none scope else m1
        JustRetires s m2 (.fence h ord scope)) ∧
      (Issues s h {} →
        ((x = true → q[3] ≠ 0) ∧ (y = true → q[4] ≠ 0) →
          ∃ t, exec (.tokw h x y) s = .next t ∧ WritesNone s t ∧ SameBytes s t ∧ (fe t).at_.po = (fe s).at_.po + 1 ∧
            ∀ j, fifo t j = fifo s j - (if x = true ∧ j = 3 ∨ y = true ∧ j = 4 then 1 else 0)) ∧
        (¬ ((x = true → q[3] ≠ 0) ∧ (y = true → q[4] ≠ 0)) →
          ∃ t, exec (.tokw h x y) s = .next t ∧ t = s.modFront s.cur (fun _ => fe t) ∧ WritesNone s t ∧
            (fe t).at_.wait = .tokw x y ∧ (fe t).at_.pc = pcOf s)) ∧
      (Issues s h {} →
        (x = true → fifo s 7 = 16 → Traps s s (.toks h x y) .tokenOver 7) ∧
        (¬ (x = true ∧ fifo s 7 = 16) → y = true → fifo s 0 = 16 → Traps s s (.toks h x y) .tokenOver 0) ∧
        ((x = true → fifo s 7 < 16) → (y = true → fifo s 0 < 16) →
          ∃ t, exec (.toks h x y) s = .next t ∧ WritesNone s t ∧ SameBytes s t ∧ (fe t).at_.po = (fe s).at_.po + 1 ∧
            ∀ j, fifo t j = fifo s j + (if x = true ∧ j = 7 ∨ y = true ∧ j = 0 then 1 else 0))))

namespace Sys2Proof.Claims

open Sys2Proof.Machine

/-- An instruction that issues is dispatched (R218, R20): a full queue stalls it; otherwise it retires, and its queue
holds one more entry, with the values of the registers as they are read now. -/
def Dispatches (s : State) (i : Instr) (h : Hdr) (srcs : List (Reg × Fin 4)) (locks : List Reg) (x : PoolQ) (t : Tok)
    (op : QOp) (gen : Nat) : Prop :=
  Issues s h { srcs := srcs, locks := locks, engine := true } →
    let es := s.me.live.queues.queue x
    let f := fe s
    (32 ≤ es.length → exec i s = .next s) ∧
    (es.length < 32 →
      JustRetires s (s.modCore s.cur fun k => k.modQueues fun q => { q with genD := gen }.setQueue x
        (es ++ [QEntry.of op t f.at_.pc f.level f.at_.vahi gen f.at_.po])) i)
/-- A word completes from m with a value that its tag awaits and that the replay log takes (R133, R360). -/
def Yields (s m : State) (i : Instr) (tag : TagId) (d : SReg) (v : Word) : Prop :=
  ∃ t, exec i s = .next t ∧
    Retired s (m.modCore s.cur fun k => k.logInput (fe s).at_.po (some (wordOf v))) t 0 none none false ∧
    Awaits s t tag (.s d) (wordOf (BitVec.allOnes 64)) s.cycle (some (wordOf v)) 0
/-- No rollback is being replayed, the replay log has room, and the word has a tag (R360). -/
def Fresh (s : State) (h : Hdr) (tag : TagId) : Prop := h.tag = some tag ∧ s.me.logRoom = true ∧ s.me.logged = none
/-- A word that stands at its place and waits: only the front end's wait changes. -/
def StandsIn (s m : State) (i : Instr) (w : FWait) : Prop :=
  ∃ t, exec i s = .next t ∧ t = m.modFront s.cur (fun _ => fe t) ∧ SameBytes s t ∧ WritesNone s t ∧ (fe t).at_.wait = w ∧
    (fe t).at_.pc = pcOf s ∧ (fe t).at_.po = (fe s).at_.po
/-- The status words of the pool (R246). -/
def poolWord (k : Core) (sel : Fin 16) : Word :=
  let q := k.live.queues
  let armed := fun (l : LaneId) => BitVec.ofBool (q.lanes[l].streams.any fun (x : Stream) => decide (x.retired < x.count))
  let tokens := fun (j : Fin 8) => BitVec.ofNat 5 q.fifo[j].val
  if sel = 0 then
    0#24 ++ BitVec.ofNat 8 q.genL ++ 0#3 ++ armed 3 ++ armed 2 ++ armed 1 ++ armed 0 ++ BitVec.ofNat 1 k.store.liveSel.val
      ++ 0#2 ++ BitVec.ofNat 6 q.d.length ++ 0#2 ++ BitVec.ofNat 6 q.o.length ++ 0#2 ++ BitVec.ofNat 6 q.k.length
  else if sel = 1 then
    0#24 ++ tokens 7 ++ tokens 6 ++ tokens 5 ++ tokens 4 ++ tokens 3 ++ tokens 2 ++ tokens 1 ++ tokens 0
  else
    let l := q.lanes[(Fin.ofNat 4 sel.val : LaneId)]
    BitVec.ofNat 32 l.undrained ++ BitVec.ofNat 32 (l.streams.map fun (x : Stream) => x.count - x.fired).sum
/-- A slot tag (R87), and the pointer word of a ring (R263). -/
def tagWord (x : Slot) : Word :=
  0#16 ++ x.coord ++ x.res ++ 0#1 ++ BitVec.ofBool x.tagerr ++ BitVec.ofBool x.poison ++ BitVec.ofNat 3 x.fmt.val ++
    (match x.state with | .empty => 0#2 | .filling => 1#2 | .full => 2#2 | .held => 3#2)
def pointerWord (r : Ring) : Word :=
  (r.def_.coord0 + BitVec.ofNat 32 r.filled * r.def_.cstep) ++ 0#17 ++ BitVec.ofBool r.def_.chk ++
    BitVec.ofNat 6 (r.taken % r.def_.nslot) ++ 0#2 ++ BitVec.ofNat 6 (r.filled % r.def_.nslot)
/-- The status words of R258. -/
def entryWord (x : CopyEntry) : Word :=
  let flag := fun (m : FFlags) => BitVec.ofBool (decide (x.flags &&& m ≠ 0))
  BitVec.ofNat 48 x.pos ++ 0#4 ++ flag fNANLOST ++ flag fISAT ++ flag fFSAT ++ flag fNX ++ 0#5 ++
    (match x.state with | .idle => 0#3 | .run => 1#3 | .demand => 2#3 | .fault => 3#3 | .done => 4#3)
def circuitWord (x : Circuit) (full : BitVec 16) : Word :=
  BitVec.ofNat 32 x.sent ++ 0#5 ++
    (match x.state with | .closed => 0#3 | .opening => 1#3 | .open_ => 2#3 | .closing => 3#3 | .refused => 4#3) ++ 0#3 ++
    (if x.state = .closed then 0#5 else BitVec.ofNat 5 x.branches.length) ++ full
/-- The walker's state words (R285). -/
def stateWord (w : Walker) (sel : Nat) : Word :=
  match sel with
  | 0 => BitVec.ofNat 24 w.nfelt ++ w.cause ++ w.bop ++ 0#4 ++ BitVec.ofBool w.reserr ++ BitVec.ofNat 2 w.end_.val ++
      (match w.state with | .idle => 0#3 | .run => 1#3 | .wait => 2#3 | .susp => 3#3) ++ BitVec.ofNat 3 w.stack.length ++
      BitVec.ofNat 2 w.phase.val ++ 0#9
  | 1 => w.felt
  | 2 => 0#16 ++ BitVec.ofNat 24 w.boff ++ BitVec.ofNat 24 w.voff
  | 3 => BitVec.ofNat 32 w.blk ++ BitVec.ofNat 32 w.run
  | 4 => BitVec.ofNat 8 (w.racc % 255) ++ 0#23 ++ BitVec.ofBool w.scan ++ BitVec.ofNat 32 w.elem
  | 5 => w.b1 ++ w.b0
  | n => w.stack.getD (n - 6) 0

end Sys2Proof.Claims

/-- R218, R20, R224, R230: the nine queue instructions, each to its queue, with the values of their registers. When an armed feed
frees its entry of O is the model's choice (log 58). -/
def Obligations.PoolDispatch : Prop :=
  ∀ (h : Hdr) (t : Tok) (a b c : SReg) (q bias : RingId) (lane : LaneId) (slot fmt : Fin 8) (tpsm1 : Fin 256) (y : Bool) (s : State),
    let g := s.me.live.queues.genD
    let x := srcA s h a
    let z := srcB s h b
    let w := (fe s).regs.getS c
    let one := [(Reg.s a, h.pda)]
    let two := [(Reg.s a, h.pda), (Reg.s b, h.pdb)]
    Dispatches s (.carve h t a b y) h two [] .k t (.carve x z y) g ∧
    Dispatches s (.wload h t q a) h one [] .k t (.wload q x) g ∧
    Dispatches s (.mmap h t a b) h two [] .k t (.mmap x z) g ∧
    Dispatches s (.plane h t y) h [] [] .k t (.plane y) (g + 1) ∧
    Dispatches s (.sbind h t q lane y) h [] [] .k t (.sbind q lane y) g ∧
    Dispatches s (.feed h t q a b c lane slot tpsm1) h two [.s c] .o t (.feed q x z w lane slot (tpsm1.val + 1)) g ∧
    Dispatches s (.feedx h t a b c lane slot fmt) h two [.s c] .o t (.feedx x z w lane slot fmt) g ∧
    Dispatches s (.drain h t q a b lane bias) h two [] .d t (.drain q x z lane bias) g ∧
    Dispatches s (.aclr h t b) h [(.s b, h.pdb)] [] .d t (.aclr z) g

/-- R246, R258, R285, R319: the words that read the status of the pool, of a copy entry or circuit, of the walker, and
the cast store. The model's own choices in it: SENT and NBR of a CLOSED circuit (log 40), and what OCNT counts (log 58). -/
def Obligations.StatusWords : Prop :=
  ∀ (h : Hdr) (d : SReg) (sel : Fin 16) (n : Fin 64) (e : EntryNo) (full : BitVec 16) (j : Fin 4) (tag : TagId) (s : State),
    let k := s.me
    let x := k.live.copies[e]
    let cu := k.live.circuits[n]
    Fresh s h tag →
    (Issues s h { dsts := [.s d] } → sel = 0 ∨ sel = 1 ∨ 4 ≤ sel.val ∧ sel.val < 8 →
      Yields s s (.pstat h d sel) tag d (poolWord k sel)) ∧
    (Issues s h { dsts := [.s d], engine := true } → n.val = e.val →
      (x.reading = none → Yields s s (.cstat h d false n) tag d (entryWord x)) ∧
      (x.reading ≠ none → x.readTrap = none → exec (.cstat h d false n) s = .next s)) ∧
    (Issues s h { dsts := [.s d], engine := true } →
      (∀ b < 16, full.getLsbD b = true ↔ ∃ y, cu.branches[b]? = some y ∧ 16 ≤ y.elastic.length) →
      Yields s s (.cstat h d true n) tag d (circuitWord cu full)) ∧
    (Issues s h { dsts := [.s d], feature := 3, engine := true } →
      Yields s s (.wstat h d sel) tag d (stateWord k.live.walker sel.val)) ∧
    (Issues s h { dsts := [.s d], level := .s } →
      let gives := fun (f : CastField) (v : Word) => ∃ t, exec (.cast h d f j) s = .next t ∧ Retired s s t 0 none none false ∧
        Awaits s t tag (.s d) (wordOf (BitVec.allOnes 64)) (s.cycle + 6) (some (wordOf v)) 0
      (k.casts[j.val]? = none →
        gives .cyc (BitVec.allOnes 64) ∧ gives .ns (BitVec.allOnes 64) ∧ gives .stat 0) ∧
      (∀ c, k.casts[j.val]? = some c →
        gives .cyc (BitVec.ofNat 64 c.cyc) ∧ gives .ns (BitVec.ofNat 64 c.ns) ∧ gives .stat (if c.usable then 3 else 1)))

/-- R259, R260, R416: `qdef` and `qreset`: their checks, and the change that takes effect later. That a word executed again
after its change has departed passes the checks of the ring's state is the model's reading of a rollback (log 20). -/
def Obligations.RingDefinitions : Prop :=
  ∀ (h : Hdr) (q : RingId) (a b : SReg) (buf : Buf) (s : State),
    let k := s.me
    let x := srcA s h a
    let y := srcB s h b
    let d : RingDef :=
      { buf := buf, base := bits x 6 13, nslot := bits x 29 7, slotsz := bits x 19 10, coord0 := y.setWidth 32
        cstep := y.extractLsb' 32 32, chk := x.getLsbD 36 }
    let legal := (1 ≤ d.nslot ∧ d.nslot ≤ 64) ∧ (1 ≤ d.slotsz ∧ d.slotsz ≤ 512) ∧ bits x 0 4 = 0 ∧ bits x 37 27 = 0 ∧
      512 * (d.base + d.nslot * d.slotsz) ≤ k.reserved buf
    let fresh := k.changeDeparted q = false
    let changes := fun (i : Instr) (z : Option RingDef) => JustRetires s (s.modCore s.cur fun k => k.changeRing q z s.cycle) i
    (Issues s h { srcs := [(.s a, h.pda), (.s b, h.pdb)], engine := true } →
      (bits x 4 2 = 0 → Traps s s (.qdef h q a b) .bounds x) ∧
      ((bits x 4 2 = 1 ∧ buf = .wb ∨ bits x 4 2 = 2 ∧ buf = .ab ∨ bits x 4 2 = 3 ∧ buf = .cb) →
        (¬ legal → Traps s s (.qdef h q a b) .bounds x) ∧
        (legal → fresh → k.ringUsed q = true ∨ k.ringNamed q = true →
          Traps s s (.qdef h q a b) .ringState (BitVec.ofNat 64 q.val)) ∧
        (legal → ¬ (fresh ∧ (k.ringUsed q = true ∨ k.ringNamed q = true)) → changes (.qdef h q a b) (some d)))) ∧
    (Issues s h { engine := true } →
      (fresh → k.ring q = none ∨ k.ringNamed q = true → Traps s s (.qreset h q) .ringState (BitVec.ofNat 64 q.val)) ∧
      (¬ (fresh ∧ (k.ring q = none ∨ k.ringNamed q = true)) → changes (.qreset h q) none))

/-- R261, R88, R89: `qfill` makes the EMPTY slot at the producer pointer FILLING, with its COORD and FMT kept for the time it
becomes FULL; a slot whose release departs in that cycle becomes EMPTY first. A core that has made every fill that stands is
meant, on a ring whose definition re-execution has reached. -/
def Obligations.FillsOfTheFrontEnd : Prop :=
  ∀ (h : Hdr) (q : RingId) (a : SReg) (r : Ring) (s : State),
    let k := s.me
    let x := srcA s h a
    let i := r.filled % r.def_.nslot
    Issues s h { srcs := [(.s a, h.pda)], engine := true } →
    (bits x 35 29 ≠ 0 → Traps s s (.qfill h q a) .bounds x) ∧
    (bits x 35 29 = 0 → bits x 32 3 = 7 → ∃ w, Traps s { s with free := s.free + 1 } (.qfill h q a) .format w) ∧
    (bits x 35 29 = 0 → bits x 32 3 ≠ 7 →
      (k.ring q = none → Traps s s (.qfill h q a) .ringState (BitVec.ofNat 64 q.val)) ∧
      (k.ring q = some r → r.viewNo = r.defNo → r.ownKept ≤ r.ownMade →
        ((r.slot i).state ≠ .empty → ((r.slot i).state = .held → ∀ e ∈ r.rels.head?, s.cycle < e.entered + Config.tQ) →
          Traps s (s.modCore s.cur fun k => k.doubleFill q s.cycle) (.qfill h q a) .ringDoubleFill (s.fillInfo s.cur 0 q i)) ∧
        (∀ n, (r.slot i).state = .held → r.rels = [⟨i, n⟩] → n + Config.tQ ≤ s.cycle → r.fedBy = none → r.fedFar = none →
          ∃ t z, exec (.qfill h q a) s = .next t ∧ WritesNone s t ∧ SameBytes s t ∧ (fe t).at_.po = (fe s).at_.po + 1 ∧
            t.me.ring q = some z ∧ (z.slot i).state = .filling ∧ z.rels = [] ∧ z.filled = r.filled + 1) ∧
        ((r.slot i).state = .empty → (r.slot i).by_ ≠ .again →
          JustRetires s (s.modCore s.cur fun k => k.modRing q fun r =>
            { r with
              slots := r.slots.set i { r.slot i with state := .filling, by_ := .front, since := s.cycle, own := r.ownMade }
              filled := r.filled + 1, ownMade := r.ownMade + 1, ownKept := r.ownMade + 1
              fills := r.fills ++ [⟨i, x.setWidth 32, Fin.ofNat 8 (bits x 32 3), (fe s).at_.po⟩] }) (.qfill h q a))))

/-- R262, R263: `qpop` takes the FULL slot at the consumer pointer, or stands until there is one; `qpop.free` releases
the oldest slot that the front end holds; `qtag` reads. A `qpop` executed again whose slot's release has departed finds the tag
that it had (R361). -/
def Obligations.RingWordsOfTheFrontEnd : Prop :=
  ∀ (h : Hdr) (d : SReg) (q : RingId) (slot : Fin 64) (n : Nat) (ns : List Nat) (tag : TagId) (r : Ring) (s : State),
    let k := s.me
    let here := BitVec.ofNat 64 q.val
    let i := r.tookMade % r.def_.nslot
    let gone := k.flow.gone.find? fun e => e.ring == q && e.defNo == r.viewNo && e.num == r.tookMade
    let there := r.viewNo = r.defNo ∧ r.tookMade < r.filled ∧ (r.slot i).state = .full
    Fresh s h tag → Issues s h { dsts := [.s d], engine := true } →
    (k.ring q = none → Traps s s (.qpop h d q) .ringState here ∧ Traps s s (.qpopFree h d q) .ringState here ∧
      ∀ b, Traps s s (.qtag h d q slot b) .ringState here) ∧
    (k.ring q = some r →
      (∀ e, gone = some e →
        (e.tag.tagerr = true → Traps s s (.qpop h d q) .ringState (BitVec.ofNat 64 (q.val + 16 * e.slot))) ∧
        (e.tag.tagerr = false →
          Yields s (s.modCore s.cur fun k => k.modRing q fun r =>
            { r with tookMade := r.tookMade + 1, ghosts := r.ghosts ++ [e.slot], frontHeld := r.frontHeld ++ [e.slot] })
            (.qpop h d q) tag d (tagWord { e.tag with state := .held }))) ∧
      (gone = none →
        (¬ there → StandsIn s s (.qpop h d q) (.qpop q d tag)) ∧
        (there → (r.slot i).tagerr = true → Traps s s (.qpop h d q) .ringState (BitVec.ofNat 64 (q.val + 16 * i))) ∧
        (there → (r.slot i).tagerr = false →
          Yields s (s.modCore s.cur fun k => k.modRing q fun r =>
            { r with
              slots := r.slots.set i { r.slot i with state := .held, by_ := .front }, taken := max r.taken (r.tookMade + 1)
              tookMade := r.tookMade + 1, frontHeld := r.frontHeld ++ [i] })
            (.qpop h d q) tag d (tagWord { r.slot i with state := .held }))) ∧
      (r.frontHeld = [] → Traps s s (.qpopFree h d q) .ringState here) ∧
      (r.frontHeld = n :: ns →
        Yields s (s.modCore s.cur fun k => (k.release q n s.cycle).modRing q fun r => { r with frontHeld := ns })
          (.qpopFree h d q) tag d (tagWord (r.slot n))) ∧
      (slot.val < r.def_.nslot → Yields s s (.qtag h d q slot false) tag d (tagWord (r.slot slot.val))) ∧
      (r.def_.nslot ≤ slot.val → ∃ w, Traps s { s with free := s.free + 1 } (.qtag h d q slot false) .bounds w) ∧
      Yields s s (.qtag h d q slot true) tag d (pointerWord r))

/-- R253, R255, R256, R257: `cdef` asks for a descriptor, `cgo` and `cdem` start the entry from element 0, and `cwait`
stands while the entry moves data. -/
def Obligations.CopyWords : Prop :=
  ∀ (h : Hdr) (e : EntryNo) (sp : Space) (a b : SReg) (desc : Desc) (s : State),
    let k := s.me
    let x := srcA s h a
    let y := srcB s h b
    let en := k.live.copies[e]
    let f := fe s
    let active := en.state = .run ∨ en.state = .demand
    let word := fun (off : Nat) => BitVec.ofNat 64 (256 * e.val + off)
    let starts := fun (dem : Bool) (bar : Option Nat) => s.modCore s.cur fun k => k.modCopy e fun z =>
      { z with
        state := .run, demand := dem, srcOff := x, dstOff := y, level := f.level, vahi := f.at_.vahi, word := pcOf s
        po := f.at_.po, pos := 0, flags := 0, rsr := 1, dslot := none, dcslot := none, sslot := none, cslot := none, acc := []
        sacc := [], tilePoison := false, ends := [], zsSrc := 0, zsDst := 0, bar := bar
        opening := (k.live.circuits[Desc.circ desc]).openings, trap := none }
    (Issues s h { srcs := [(.s a, h.pda)], engine := true } →
      (x.toNat % 64 ≠ 0 → Traps s s (.cdef h e sp a) .alignFault x) ∧
      (x.toNat % 64 = 0 → active → Traps s s (.cdef h e sp a) .copyDesc (word 0xFF)) ∧
      (x.toNat % 64 = 0 → ¬ active →
        JustRetires s (s.modCore s.cur fun k => k.modCopy e fun z =>
          { z with
            reading := some (sp, x.toNat), readTrap := none, state := .idle, trap := none, ends := [], level := f.level
            vahi := f.at_.vahi, word := pcOf s, po := f.at_.po }) (.cdef h e sp a))) ∧
    (Issues s h { srcs := [(.s a, h.pda), (.s b, h.pdb)], engine := true } →
      ∀ (i : Instr) (dem : Bool), (i = .cgo h e a b ∧ dem = false ∨ i = .cdem h e a b ∧ dem = true) →
        (en.reading ≠ none → en.readTrap = none → exec i s = .next s) ∧
        (en.reading = none →
          (active → Traps s s i .copyDesc (word 0xFF)) ∧
          (¬ active → en.desc = none → Traps s s i .copyDesc (word 0xFE)) ∧
          (¬ active → en.desc = some desc →
            (∀ off, Desc.bad desc k x y = some off → Traps s s i .copyDesc (word off)) ∧
            (Desc.bad desc k x y = none → Desc.cmpl desc ≠ 1 → JustRetires s (starts dem none) i) ∧
            (Desc.bad desc k x y = none → Desc.cmpl desc = 1 →
              Accesses s i .g .rmw 32 [(Desc.caddr desc, 32)] false true fun _ ps _ =>
                ∀ p, (ps.headD []).head? = some p → JustRetires s (starts dem (some p.addr)) i)))) ∧
    (Issues s h { engine := true } →
      (active → StandsIn s s (.cwait h e) (.cwait e)) ∧ (¬ active → JustRetires s s (.cwait h e)))

/-- R264, R266: `circ` checks its circuit word and opens the circuit to its destinations; `ccls` closes. Both requests
join the store stream. That DCORE of a circuit with MC = 1 is 0 is the model's reading (log 40). -/
def Obligations.CircuitWords : Prop :=
  ∀ (h : Hdr) (n : CircNo) (q : RingId) (a b : SReg) (size : Nat) (s : State),
    let k := s.me
    let w := srcA s h a
    let g := srcB s h b
    let x := k.live.circuits[n]
    let f := fe s
    let noted := fun (m : State) (y : Option Word) => m.modCore m.cur fun k => k.modFlow fun z =>
      { z with circLog := (k.live.front.at_.po, y) :: z.circLog }
    let opens := fun (m : State) (ds : List CoreId) =>
      let used := (m.me.live.circuits.toList.map fun (y : Circuit) => if y.state = .closed then 0 else y.branches.length).sum
      let port := if w.getLsbD 13 then m.chipPort (bits w 14 16) else none
      (¬ (1 ≤ ds.length ∧ ds.length ≤ 16 ∧ used + ds.length ≤ 64) → Traps s (noted m (some w)) (.circ h n q a b) .bounds w) ∧
      (1 ≤ ds.length ∧ ds.length ≤ 16 ∧ used + ds.length ≤ 64 → m.me.holdRoom (queuedBytes m.me + 64) = true →
        let m1 := (noted m none).modCore m.cur fun k => k.modCirc n fun y => y.open w q ds (fe m) port
        let m2 := m1.modCore m.cur fun k => k.pushStore m.cur m.cycle
          (.req (.opening n ((List.range ds.length).zip ds) (if w.getLsbD 13 then some (bits w 14 16, port) else none)
            (Fin.ofNat 16 (bits w 8 4)) size ((m.me.live.circuits[n]).openings + 1))) none h.tag
        ∃ t, exec (.circ h n q a b) s = .next t ∧ t = m2.modFront s.cur (fun _ => fe t) ∧ WritesNone s t ∧
          (fe t).at_.po = f.at_.po + 1 ∧ (t.me.live.circuits[n]).state = .opening)
    (Issues s h { srcs := [(.s a, h.pda), (.s b, h.pdb)], engine := true } → k.replaying = false →
      let ok := circBad w q (s.pairedSide s.cur).isSome = false
      (¬ ok → Traps s (noted s (some w)) (.circ h n q a b) .bounds w) ∧
      (ok → x.state = .closing ∨ s.closePending s.cur n = true → exec (.circ h n q a b) s = .next s) ∧
      (ok → x.state ≠ .closing → s.closePending s.cur n = false → x.state ≠ .closed → Traps s (noted s (some w)) (.circ h n q a b) .bounds w) ∧
      (ok → s.closePending s.cur n = false → x.state = .closed →
        (w.getLsbD 31 = true → k.ring q = none → Traps s s (.circ h n q a b) .ringState (BitVec.ofNat 64 q.val)) ∧
        ((w.getLsbD 31 = true ∧ (∃ r, k.ring q = some r ∧ size = r.size) ∨ w.getLsbD 31 = false ∧ size = 512 * bits w 32 10) →
          (w.getLsbD 12 = false → opens s [Fin.ofNat 256 (bits w 0 8)]) ∧
          (w.getLsbD 12 = true → g.toNat % 64 ≠ 0 → Traps s s (.circ h n q a b) .alignFault g) ∧
          (w.getLsbD 12 = true → g.toNat % 64 = 0 →
            match s.engineRead s.cur 0 f.level f.at_.vahi .load f.at_.po .g g 32 with
            | .wait m => exec (.circ h n q a b) s = .next m
            | .trap cause y m => Traps s m (.circ h n q a b) cause y
            | .ok _ (some y) m => Traps s m (.circ h n q a b) .poison y
            | .ok bs none m =>
              opens m ((List.finRange 256).filter fun (c : CoreId) => (ofBytes bs).testBit c.val && c != s.cur))))) ∧
    (Issues s h { engine := true } → k.replaying = false → k.holdRoom (queuedBytes k + 64) = true →
      let m := s.modCore s.cur fun k => k.pushStore s.cur s.cycle (.req (.close n)) none h.tag
      ∃ t, exec (.ccls h n) s = .next t ∧ WritesNone s t ∧ SameBytes s t ∧ (fe t).at_.po = f.at_.po + 1 ∧
        t.me.flow = m.me.flow ∧
        (t.me.live.circuits[n]).state = (if x.state = .open_ ∨ x.state = .opening then .closing
          else if x.state = .refused then .closed else x.state) ∧
        (x.state = .open_ ∨ x.state = .opening → (t.me.live.circuits[n]).due = some (k.fullSlots x)) ∧
        ∀ j, j ≠ n → t.me.live.circuits[j] = k.live.circuits[j])

/-- R283: `wdrive` resumes a suspended walk or starts a new one, and stands until the walk ends; `wdrive.abort` gives a
suspended walk up and reads its status. -/
def Obligations.WalkWords : Prop :=
  ∀ (h : Hdr) (d a : SReg) (tag : TagId) (s : State), Fresh s h tag →
    let x := srcA s h a
    let w := s.me.live.walker
    let fresh : Walker :=
      { nfelt := 0, cause := 0, bop := 0, reserr := false, end_ := 0, state := .run, phase := 0, felt := x, boff := 0
        voff := 0, blk := 0, run := 0, racc := 0, scan := false, elem := 0, b0 := 0, b1 := 0, stack := [] }
    let stands := fun (i : Instr) (v : Walker) => ∃ t, exec i s = .next t ∧ WritesNone s t ∧ SameBytes s t ∧
      (fe t).at_.wait = .wdrive d tag ∧ (fe t).at_.pc = pcOf s ∧ (fe t).at_.po = (fe s).at_.po ∧ t.me.live.walker = v ∧
      t.me.live.wctx.trap = none ∧ t.me.live.wctx.level = (fe s).level ∧ t.me.live.wctx.vahi = (fe s).at_.vahi
    (Issues s h { srcs := [(.s a, h.pda)], dsts := [.s d], feature := 3, engine := true } →
      (w.state = .susp → stands (.wdrive h d a) { w with state := .run }) ∧
      (w.state ≠ .susp → x.toNat % 64 ≠ 0 → Traps s s (.wdrive h d a) .alignFault x) ∧
      (w.state ≠ .susp → x.toNat % 64 = 0 → stands (.wdrive h d a) fresh) ∧
      (x.toNat % 64 ≠ 0 → Traps s s (.wdriveNew h d a) .alignFault x) ∧
      (x.toNat % 64 = 0 → stands (.wdriveNew h d a) fresh)) ∧
    (Issues s h { dsts := [.s d], feature := 3, engine := true } →
      let v := if w.state = .susp then { w with state := .idle, end_ := 2 } else w
      Yields s (s.modCore s.cur fun k => k.modLive fun l => { l with walker := v }) (.wdriveAbort h d) tag d (stateWord v 0))

/-- R42, R43: `launch` sends its record's address to its queue through the store stream; `lwait` and `lwait.test` join
the load stream to read the byte STATE of a record. -/
def Obligations.LaunchWords : Prop :=
  ∀ (h : Hdr) (d a : SReg) (q : QueueNo) (tag : TagId) (s : State), Fresh s h tag →
    let x := srcA s h a
    let f := fe s
    Issues s h { srcs := [(.s a, h.pda)], dsts := [.s d], feature := 4, engine := true } →
    (Accesses s (.launch h d a q) .g .load 64 [(x, 64)] (s.pairedSide s.cur).isSome false (fun m ps need =>
      ∀ p, (ps.headD []).head? = some p →
        JoinsAtomic s m (.launch h d a q) tag d .core .none
          (.launch p.addr x p.cmp q tag f.at_.po s.me.regs.asid f.at_.vahi) need) .store) ∧
    ∀ (i : Instr) (test : Bool), (i = .lwait h d a ∧ test = false ∨ i = .lwaitT h d a ∧ test = true) →
      (s.me.suspended .store = true → exec i s = .next s) ∧
      (s.me.suspended .store = false → Accesses s i .g .load 64 [(x, 64)] false false fun m ps need =>
        ∀ p, (ps.headD []).head? = some p →
        ∃ t, exec i s = .next t ∧
          Retired s (m.modCore s.cur fun k => k.modFlow fun fl =>
            { fl with loads := fl.loads ++
              [⟨.lwait test, .g, [⟨p.addr + 0x30, x + 0x30, 1, 0, p.cmp, none, none, false⟩], some tag, f.at_.po, f.at_.mark, none,
                s.cycle, need, pcOf s⟩] })
            t 0 none none false ∧
          Awaits s t tag (.s d) (wordOf (BitVec.allOnes 64)) (s.cycle + 300) none 0)

/-- R335, R336: `ctxsave` asks its target to stop, `ctxload` has a STOPPED target load a context, `qsave` ends the
dispatch of a queue and stores its image, and `qload` reads one. Two requests for one target in one cycle are applied lowest
route identifier first: a word that comes too late stalls a cycle (log entry 26). What a `qsave` executed again after a rollback
stores, and that a `qload` is not predicated on one, are the model's reading of R359 (log entry 51). -/
def Obligations.ContextWords : Prop :=
  ∀ (h : Hdr) (a : SReg) (q : QueueNo) (s : State),
    let x := srcA s h a
    let p := s.pmapOf s.cur
    let c : CoreId := Fin.ofNat 256 x.toNat
    let asid : Byte := x.extractLsb' 8 8
    let barred := s.pmapOf c ≠ p ∨ c = s.cur ∨ (s.part (s.pmapOf c)).switching c = true
    let busy := fun (m : State) => m.modPart p fun y => { y with ctxBusy := y.ctxBusy ||| BitVec.ofNat 256 (2 ^ c.val) }
    let y := s.lqueue p q
    let age := BitVec.ofNat 64 ((match y.since with | some t => min (2 ^ 17 - 1) ((s.cycle - t) / 2 ^ 16) | none => 0) +
      (if y.starves s.cycle then 2 ^ 32 else 0))
    let found := match y.saved with
      | some (d, n, cfg, old) => if d = s.cur ∧ n = s.me.live.prod.store then (cfg, old) else (y.cfg, age)
      | none => (y.cfg, age)
    let img := [found.1, y.ptr, y.ctx, found.2, 0, 0, 0, 0]
    let route := s.frontRoute s.cur
    let turn := s.tieFree (tieContext c) route = true
    (Issues s h { srcs := [(.s a, h.pda)], level := .s } →
      (x.toNat / 2 ^ 8 ≠ 0 ∨ barred → Traps s s (.ctxsave h a) .bounds x) ∧
      (x.toNat / 2 ^ 8 = 0 → ¬ barred → ¬ turn → exec (.ctxsave h a) s = .next s) ∧
      (x.toNat / 2 ^ 8 = 0 → ¬ barred → turn →
        ((s.core c).run.stop ≠ .none → JustRetires s (s.tie (tieContext c) route) (.ctxsave h a)) ∧
        ((s.core c).run.stop = .none →
          JustRetires s ((busy (s.modCore c fun k => { k with run := { k.run with stop := .asked false s.cycle } })).tie
            (tieContext c) route) (.ctxsave h a))) ∧
      (x.toNat / 2 ^ 16 ≠ 0 ∨ barred ∨ (s.core c).run.stop ≠ .stopped ∨ s.resident asid p = false →
        Traps s s (.ctxload h a) .bounds x) ∧
      (x.toNat / 2 ^ 16 = 0 → ¬ barred → (s.core c).run.stop = .stopped → s.resident asid p = true →
        (¬ turn → exec (.ctxload h a) s = .next s) ∧
        (turn → JustRetires s ((busy (s.modCore c fun k => { k with run := { k.run with stop := .loading asid false s.cycle } })).tie
          (tieContext c) route) (.ctxload h a)))) ∧
    (Issues s h { srcs := [(.s a, h.pda)], level := .s, feature := 5, engine := true } →
      (x.toNat % 64 ≠ 0 → Traps s s (.qsave h q a) .alignFault x) ∧
      (x.toNat % 64 = 0 →
        Accesses s (.qsave h q a) .g .store 1 ((List.range 8).map fun j => (x + BitVec.ofNat 64 (8 * j), 8)) false false
          fun m ps need =>
          let act := storeAct .g (storeUnits ((img.map fun w => toBytes 8 w.toNat).zip ps)) .none
          s.me.holdRoom (queuedBytes s.me + actBytes act) = true →
          ∃ t, exec (.qsave h q a) s = .next t ∧ WritesNone s t ∧ SameBytes s t ∧ (fe t).at_.po = (fe s).at_.po + 1 ∧
            t.me.flow = (m.me.pushStore s.cur s.cycle act none h.tag 0 need).flow ∧
            (t.lqueue p q).ptr = y.ptr ∧ (t.lqueue p q).ctx = y.ctx ∧ (t.lqueue p q).entries = [] ∧
            bits (t.lqueue p q).cfg 6 2 = 0) ∧
      (s.me.logged = none →
        (x.toNat % 64 ≠ 0 → Traps s s (.qload h q a) .alignFault x) ∧
        (x.toNat % 64 = 0 → bits y.cfg 6 2 ≠ 0 ∨ y.length ≠ 0 → Traps s s (.qload h q a) .bounds x) ∧
        (x.toNat % 64 = 0 → bits y.cfg 6 2 = 0 → y.length = 0 →
          Accesses s (.qload h q a) .g .load 1 ((List.range 3).map fun j => (x + BitVec.ofNat 64 (8 * j), 8)) false false
            fun m ps need => s.me.logRoom = true →
            JustRetires s (m.modCore s.cur fun k => k.modFlow fun fl =>
              { fl with loads := fl.loads ++
                [⟨.qload q, .g, loadUnits (ps.map fun p => (0, p)), none, (fe s).at_.po, (fe s).at_.mark, none, s.cycle, need,
                  pcOf s⟩] })
              (.qload h q a))))

/-- R311, R318, R351, R352: `prd` and `pwr` reach every register; `tlbi` joins the store stream as a release at package
scope; `freeze` and `thaw` send their request there. The model's own choices in it: a port's bit without its endpoint (log 10), an
ASID of another partition (log 25), and what `thaw` leaves (log 26). -/
def Obligations.SystemWords : Prop :=
  ∀ (h : Hdr) (d a : SReg) (r : BitVec 12) (sc : TlbScope) (kd : TlbKind) (mask : Fin 8) (lk : Bool) (tag : TagId) (s : State),
    let x := srcA s h a
    let lv := fun (write : Bool) => if regLevel r.toNat write = .m then Level.m else Level.s
    let p := s.pmapOf s.cur
    let s? := (fe s).level = .s
    (Fresh s h tag → Issues s h { dsts := [.s d], level := lv false } →
      Yields s (s.readReg s.cur r).2 (.prd h r d) tag d (s.readReg s.cur r).1) ∧
    (Issues s h { srcs := [(.s a, h.pda)], level := lv true } →
      let turn := r = 0x5C0 → s.tieFree (tieQueue p (Fin.ofNat 64 x.toNat)) (s.frontRoute s.cur) = true
      (¬ turn → exec (.pwr h r a) s = .next s) ∧
      (turn → ∀ m, s.writeReg s.cur r x = some m → exec (.pwr h r a) s = .next (m.retire h none {})) ∧
      (turn → s.writeReg s.cur r x = none → ∃ w, Traps s { s with free := s.free + 1 } (.pwr h r a) .bounds w)) ∧
    (let names := match kd with
       | .va g _ _ => [(Reg.s g, h.pda)]
       | _ => []
     let va := match kd with
       | .va g _ _ => srcA s h g
       | _ => 0
     let elsewhere := match kd with
       | .all => false
       | .asid n => s.ctxElsewhere n p
       | .va _ _ n => s.ctxElsewhere n p
     Issues s h { srcs := names, level := .s, engine := true } →
       (s? ∧ (sc = .pkg ∨ elsewhere = true) → Traps s s (.tlbi h sc kd) .bounds (tlbiImm sc kd)) ∧
       (¬ (s? ∧ (sc = .pkg ∨ elsewhere = true)) →
         JustRetires s (s.modCore s.cur fun k => k.pushGate s.cur s.cycle (.tlbi sc kd va) .pkg h.tag) (.tlbi h sc kd))) ∧
    ∀ (i : FreezeSel → Instr) (thaw : Bool), ((i = fun f => .freeze h f a) ∧ thaw = false ∨ (i = fun f => .thaw h f a) ∧ thaw = true) →
      Issues s h { srcs := [(.s a, h.pda)], level := .s } →
      let t : CoreId := Fin.ofNat 256 x.toNat
      let badCore := 2 ^ 8 ≤ x.toNat ∨ s? ∧ s.pmapOf t ≠ p
      let badPort := 8 ≤ x.toNat ∨ (s.pkg.rtabx[p]).getLsbD (x.toNat % 8) = false
      (badCore → Traps s s (i (.core mask)) .bounds x) ∧
      (¬ badCore → JoinsStores s (i (.core mask)) h (.req (.freeze t.val false mask thaw)) none) ∧
      (badPort → Traps s s (i (.port lk)) .bounds x) ∧
      (¬ badPort → JoinsStores s (i (.port lk)) h (.req (.freeze (x.toNat % 8) true (if lk then 1 else 0) thaw)) none)

namespace Sys2Proof.Claims

open Sys2Proof.Machine

/-- Only the front end of a core changes: its wait is over, and it goes on at its program counter. -/
def GoesOn (s t : State) (c : CoreId) : Prop :=
  t = s.modFront c (fun _ => t.front c) ∧ (t.front c).at_.wait = .none ∧ (t.front c).at_.pc = (s.front c).at_.pc ∧
    (t.front c).at_.po = (s.front c).at_.po ∧ (t.front c).regs = (s.front c).regs ∧ (t.front c).level = (s.front c).level
/-- From m, only the front end of a core changes: the word at which it stood completes, with no register written. -/
def Completes (m t : State) (c : CoreId) : Prop :=
  let f := m.front c
  let g := t.front c
  t = m.modFront c (fun _ => g) ∧ g.at_.wait = .none ∧ g.at_.pc = (loopCheck f.regs.loops f.at_.pc none none false).2 ∧
    g.regs.loops = (loopCheck f.regs.loops f.at_.pc none none false).1 ∧ g.at_.po = f.at_.po + 1 ∧ g.level = f.level ∧
    ∀ r, g.regs.get r = f.regs.get r
/-- A trap is taken at the front end's program counter from m. -/
def TrapsAt (s m : State) (i : Instr) (c : CoreId) (t : Trap) : Prop :=
  exec i s = .next (m.takeTrap c { t with word := (s.front c).at_.pc } (s.front c).at_.pc)
/-- An event that occurs from s, and what holds of the state it leaves. -/
def Occurs (s : State) (i : Instr) (P : State → Prop) : Prop := ∃ t, exec i s = .next t ∧ P t
/-- An event for which it is not yet time changes nothing. -/
def Idles (s : State) (i : Instr) : Prop := exec i s = .next s
/-- The next state is written out. -/
def Becomes (s : State) (i : Instr) (t : State) : Prop := exec i s = .next t
/-- Two counts of FIFO tokens with some taken away, the oldest tokens first. -/
def lessTokens (q : Queues) (take : Fin 8 → Bool) : Queues :=
  { q with
    fifo := .ofFn fun j => if take j then q.fifo[j] - 1 else q.fifo[j]
    marks := .ofFn fun j => if take j then q.marks[j].drop 1 else q.marks[j] }
/-- An address of this chip's HBM. -/
def here (a : Nat) : Prop := remoteChip a = none
/-- The other loads of a core are done, and its store stream has nothing waiting. -/
def Quiet (k : Core) : Prop := k.flow.loads = [] ∧ k.flow.storeQ = []

end Sys2Proof.Claims

/-- R165, R213, R215, R216, R257, R262, R320: the ends of the front end's waits. -/
def Obligations.WaitsOfTheFrontEnd : Prop :=
  ∀ (c : CoreId) (n a limit : Nat) (wake : Fin 8) (x y ph isOver r : Bool) (scope : Scope) (va : Word) (e : EntryNo) (q : RingId)
    (d : SReg) (tag : TagId) (ring : Ring) (s : State),
    let k := s.core c
    let f := s.front c
    let fifo := k.live.queues.fifo
    let en := k.live.copies[e]
    let i := ring.tookMade % ring.def_.nslot
    let there := ring.viewNo = ring.defNo ∧ ring.tookMade < ring.filled ∧ (ring.slot i).state = .full
    let logged := fun (m : State) => m.modCore c fun k => (k.logInput f.at_.po none).pushAcquire c s.cycle none scope
    (f.at_.wait = .pause n → (n ≤ s.cycle → Occurs s (.pauseEnd c) fun t => Completes s t c) ∧ (s.cycle < n → Idles s (.pauseEnd c))) ∧
    (f.at_.wait = .wfi wake limit →
      let met := (wake.val % 2 = 1 ∧ fifo[3] ≠ 0) ∨ (wake.val / 2 % 2 = 1 ∧ fifo[4] ≠ 0) ∨ (4 ≤ wake.val ∧ limit ≤ s.cycle)
      (met → Occurs s (.wfiWake c) fun t => GoesOn s t c) ∧ (¬ met → Idles s (.wfiWake c))) ∧
    (f.at_.wait = .tokw x y →
      let met := (x = true → fifo[3] ≠ 0) ∧ (y = true → fifo[4] ≠ 0)
      (met → Occurs s (.tokwPop c) fun t => Completes (s.modCore c fun k => k.modLive fun l =>
        { l with queues := lessTokens l.queues fun j => (x && j == 3) || (y && j == 4) }) t c) ∧
      (¬ met → Idles s (.tokwPop c))) ∧
    (f.at_.wait = .cwait e →
      (en.state ≠ .run → en.state ≠ .demand → Occurs s (.cwaitReturn c) fun t => Completes s t c) ∧
      (en.state = .run ∨ en.state = .demand → Idles s (.cwaitReturn c))) ∧
    (f.at_.wait = .qpop q d tag → k.ring q = some ring →
      (k.flow.gone.find? fun e => e.ring == q && e.defNo == ring.viewNo && e.num == ring.tookMade) = none →
      (¬ there → Idles s (.qpopTake c)) ∧
      (there → (ring.slot i).tagerr = true →
        TrapsAt s s (.qpopTake c) c { cause := .ringState, info := BitVec.ofNat 64 (q.val + 16 * i) }) ∧
      (there → (ring.slot i).tagerr = false → k.logged = none →
        Occurs s (.qpopTake c) fun t =>
          let v := wordOf (tagWord { ring.slot i with state := .held })
          Completes ({ s with cur := c }.modCore c fun k => (k.modRing q fun r =>
            { r with
              slots := r.slots.set i { r.slot i with state := .held, by_ := .front }, taken := max r.taken (r.tookMade + 1)
              tookMade := r.tookMade + 1, frontHeld := r.frontHeld ++ [i] }).logInput f.at_.po (some v)) t c ∧
          ∃ p, (t.front c).tags[tag] = some p ∧ p.fixed = false ∧ p.dst = some (.s d) ∧ p.value = some v ∧ p.trap = none)) ∧
    (f.at_.wait = .barWait a va ph scope none → k.flow.loads = [] → here a → ∀ s1, s.readGrant c a 32 false = .ok s1 →
      let w := (s1.peek (a + 16) 8).1
      Becomes s (.barWaitCheck c) (s1.modFront c fun f => f.modAt fun p =>
        { p with wait := .barWait a va ph scope (if w.testBit 49 then some true else if w.testBit 48 = ph then none else some false) })) ∧
    (f.at_.wait = .barWait a va ph scope (some isOver) →
      let due := f.at_.waitSince + 300 + 2 * s.homeDelay c a
      (s.cycle < due → Idles s (.barWaitReturn c)) ∧
      (due ≤ s.cycle → isOver = true → TrapsAt s s (.barWaitReturn c) c { cause := .barOver, info := va }) ∧
      (due ≤ s.cycle → isOver = false → Occurs s (.barWaitReturn c) fun t => Completes (logged s) t c)) ∧
    (f.at_.wait = .gbar a va scope true → (f.gbar.find? fun g => g.addr == a) = some ⟨a, n, some r⟩ → here a →
      let now := k.flow.loads = [] ∧ f.at_.waitSince + 460 + 2 * s.homeDelay c a ≤ s.cycle
      (¬ now → Idles s (.gbarReturn c)) ∧
      (now → ∀ s1, s.readGrant c a 8 false = .ok s1 →
        ((s1.peek (a + 32) 8).1.testBit 18 = r → Becomes s (.gbarReturn c) s1) ∧
        ((s1.peek (a + 32) 8).1.testBit 18 ≠ r → Occurs s (.gbarReturn c) fun t => Completes (logged s1) t c ∧
          (t.front c).gbar = f.gbar.filter fun g => g.num != n)))

/-- R43, R83, R98 to R106, R108, R133, R172, R197, R199, R200, R215, R220, R314, R352: results land in their registers, loads
are performed and bring the value that their kind says, faults of the engines are taken, and the waits of releases end. A trap
of marked data that comes while a word with a pending tag waits is kept for later. -/
def Obligations.ResultsAndReleases : Prop :=
  ∀ (c : CoreId) (tag : TagId) (p : Pend) (g : Reg) (v : VecWord) (x : Trap) (l : Load) (u : LoadUnit) (ls : List Load) (n : Nat)
    (test : Bool) (s1 : State) (a : Nat) (va word : Word) (scope : Scope) (sc : TlbScope) (kd : TlbKind) (po num : Nat)
    (o : Option TagId) (party : Fin 4) (phys : Bool) (bytes : Nat → List Byte) (bad : Nat → Bool) (s : State),
    let k := s.core c
    let f := s.front c
    let first := ∀ (w : TagId) (y : Pend), f.tags[w] = some y → w ≠ tag → y.fixed = false → y.dst = p.dst → p.po ≤ y.po
    let cleared := s.modCore c fun k =>
      ((k.setFront { k.live.front with tags := k.live.front.tags.set tag none }).modFlow fun fl => fl.acquired p.po).settle c s.cycle
    (f.tags[tag] = some p → p.fixed = false → p.dst = some g → p.minAt ≤ s.cycle → first → f.at_.trapping = none → f.at_.late = [] →
      (p.trap = none → p.value = some v →
        Occurs s (.registerResultArrive c tag) fun t =>
          (∀ r, (t.front c).regs.get r =
            (if g.wired then f.regs else f.regs.set g (mergeBits (f.regs.get g) v (p.mask &&& ~~~p.over_))).get r) ∧
          (t.front c).tags[tag] = none ∧ (t.front c).regs.fflags = f.regs.fflags ||| p.flags.setWidth 64 ∧
          (t.front c).at_.pc = f.at_.pc ∧ (t.front c).level = f.level ∧ SameBytes s t) ∧
      (p.trap = some x →
        ((∀ d w, f.at_.wait ≠ .wdrive d w) → (∀ q d w, f.at_.wait ≠ .qpop q d w) →
          Becomes s (.registerResultArrive c tag) (cleared.takeTrap c { x with word := p.word } f.at_.pc)) ∧
        ((∃ d w, f.at_.wait = .wdrive d w) ∨ (∃ q d w, f.at_.wait = .qpop q d w) →
          Becomes s (.registerResultArrive c tag) (cleared.modFront c fun f => f.modAt fun y =>
            { y with late := [{ x with word := p.word }] })))) ∧
    (k.atUserBoundary = true → k.live.pendingFault = some x →
      Becomes s (.engineFaultTaken c) ((s.modCore c fun k => k.modLive fun l => l.takeFault x).takeTrap c x f.at_.pc)) ∧
    (k.live.pendingFault = none ∨ k.atUserBoundary = false → Idles s (.engineFaultTaken c)) ∧
    (k.flow.loads = l :: ls → l.need = none → l.issued < s.cycle → k.flow.storeQ = [] → f.at_.trapping = none → f.at_.late = [] →
      l.tag = some tag → f.tags[tag] = some p → p.po = l.po → p.fixed = false → l.acq = none →
      let result := fun (i : Instr) (v : VecWord) (trap : Option Trap) => Occurs s i fun t =>
        (∃ y, (t.front c).tags[tag] = some y ∧ y.value = some v ∧ y.dst = p.dst ∧ y.trap = trap) ∧
        (∀ r, (t.front c).regs.get r = f.regs.get r) ∧ (∀ l' ∈ (t.core c).flow.loads, l' ∈ ls)
      (l.kind = .lwait test → l.units = [u] → here u.addr → k.enginesRun = true → s.storesDone c l.po = true →
        s.readGrant c u.addr 1 u.cmp = .ok s1 →
        let w := s1.peek u.addr 1 u.cmp
        let final := w.1 = 0 ∨ w.1 = 3 ∨ w.1 = 4 ∨ w.1 = 5
        (w.2 = false → test = true ∨ final → u.bit = 0 → result (.lwaitReturn c) (wordOf (BitVec.ofNat 64 w.1)) none) ∧
        (test = false → ¬ final → Idles s (.lwaitReturn c))) ∧
      (l.waits = false → l.units[n]? = some u → u.value = none → here u.addr →
        (l.space = .g ∧ (u.asked = none ∧ s.readGrant c u.addr u.n u.cmp = .ok s1 ∨ u.asked ≠ none ∧ s1 = s) ∨ l.space ≠ .g ∧ s1 = s) →
        let b := spaceBuf l.space
        let taken := fun (i : Nat) (y : LoadUnit) => y.value = none ∧ (i = n ∨ b ≠ none ∧ y.addr / 64 = u.addr / 64)
        (∀ i y, l.units[i]? = some y → taken i y → s1.readOwn c b l.mark y.addr y.n y.cmp = some (bytes i, bad i, s1)) →
        ∀ us : List LoadUnit, us.length = l.units.length →
        (∀ i y, l.units[i]? = some y → (taken i y → us[i]? = some { y with value := some (ofBytes (bytes i)), bad := y.bad || bad i }) ∧
          (¬ taken i y → us[i]? = some y)) →
        let sum := (us.map fun y => y.value.getD 0 * 2 ^ y.bit).sum
        let trap := (us.find? fun y => y.bad).map fun y => ({ cause := .poison, info := y.va } : Trap)
        ((∃ y ∈ us, y.value = none) → Occurs s (.loadPerform c 0 n) fun t => (t.core c).flow.loads = { l with units := us } :: ls ∧
          t.front c = f) ∧
        ((∀ y ∈ us, y.value ≠ none) →
          (∀ m, l.kind = .scalar m false → result (.loadPerform c 0 n) (wordOf (BitVec.ofNat 64 sum)) trap) ∧
          (∀ m, l.kind = .scalar m true → result (.loadPerform c 0 n) (wordOf (BitVec.ofInt 64 (signedOf (8 * m) sum))) trap) ∧
          (l.kind = .vec → result (.loadPerform c 0 n) (BitVec.ofNat 2048 sum) trap)))) ∧
    (∀ (b : Option Buf) (mark m : Nat) (cmp : Bool), (b = none → here a) →
      let ws := s.ownWrites c b mark
      let base := match b with
        | some e => (k.store.buf e).bytes a m
        | none => (s.mem.read s.pkg.mdbase a m cmp).1
      (ws.any (fun w => w.blocked && w.cells.any fun y => decide (a ≤ y.1) && decide (y.1 < a + m)) = true →
        s.readOwn c b mark a m cmp = none) ∧
      (ws.any (fun w => w.blocked && w.cells.any fun y => decide (a ≤ y.1) && decide (y.1 < a + m)) = false →
        ∃ bs z, s.readOwn c b mark a m cmp = some (bs, z, s) ∧ bs.length = base.length ∧ ∀ i < base.length,
          (∀ w ∈ ws, ∀ y ∈ w.cells, y.1 ≠ a + i) → bs[i]? = base[i]?) ∧
      (∀ w y, ws = [w] → w.blocked = false → w.cells = [y] → y.1 = a → m = 1 → base.length = 1 →
        ∃ z, s.readOwn c b mark a m cmp = some ([y.2], z, s))) ∧
    (f.at_.trapping = none → f.at_.late = [] → Quiet k → k.flow.tlbi = none → f.at_.wait = .gbar a va scope false → k.holdRoom 64 = true →
      (∀ h ∈ k.flow.hold, ∀ b w j d, h.req ≠ .group b w j d) → (∀ m ∈ s.net, m.src = c → ∀ b w j d, m.hold.req ≠ .group b w j d) →
      Occurs s (.releaseWaitEnd c) fun t => ∃ z,
        (t.front c).at_.wait = .gbar a va scope true ∧ (t.front c).gbar = f.gbar ++ [⟨a, z, none⟩] ∧
        (t.core c).flow.hold = k.flow.hold ++ [⟨.gbar a va z, .other, 0, 0, s.cycle, 64, false, f.level == .m⟩] ∧ SameBytes s t) ∧
    (f.at_.trapping = none → f.at_.late = [] → k.flow.storeQ = [⟨.tlbi sc kd va, po, num, some .pkg, o, party, none, word, phys⟩] →
      k.flow.loads = [] → k.flow.sent = [] → Occurs s (.releaseWaitEnd c) fun t =>
        (∀ d, (d = c ∨ sc = .part ∧ s.pmapOf d = s.pmapOf c ∨ sc = .pkg) →
          (t.core d).tlb = (s.core d).tlb.filter fun e => !TlbKind.names kd va e) ∧
        (∀ d, d ≠ c → ¬ (sc = .part ∧ s.pmapOf d = s.pmapOf c ∨ sc = .pkg) → (t.core d).tlb = (s.core d).tlb) ∧ SameBytes s t)

namespace Sys2Proof.Claims

open Sys2Proof.Machine

/-- A message that has arrived at its home in HBM of this chip, at address a for n bytes: nothing holds it back, and the
meters grant it from s to s1 (R98, R111, R379, R383, R385). -/
structure AtHome (s : State) (m : Msg) (a n : Nat) (s1 : State) (cmp : Bool := false) : Prop where
  found : s.msg m.id = some m
  may : s.mayApply m a = true
  local_ : localHbm a = true
  grant : s.homeGrant m.part a n cmp = some s1
/-- No operation of a higher route identifier has been applied at the address's combiner in this cycle (R111). -/
def Turn (s : State) (m : Msg) (a : Nat) : Prop := s.tieFree (homeDie a).val m.route = true
/-- The message's core: no entry waits in its store stream, and no trap. -/
def Idle (s : State) (c : CoreId) : Prop :=
  (s.core c).flow.storeQ = [] ∧ (s.front c).at_.trapping = none ∧ (s.front c).at_.late = []
/-- A result, or a trap for marked data, waits at a tag (R133, R197). -/
def Answered (t : State) (c : CoreId) (tag : TagId) (v : Word) (bad : Option Word) : Prop :=
  ∃ p, (t.front c).tags[tag] = some p ∧ p.value = some (wordOf v) ∧
    p.trap = bad.map fun a => { cause := .poison, info := a }
/-- The tag that a message answers. -/
def Asks (s : State) (c : CoreId) (tag : TagId) (po : Nat) : Prop :=
  ∃ p, (s.front c).tags[tag] = some p ∧ p.po = po ∧ p.fixed = false
/-- The new value of w bits that an `amo` or a contribution leaves (R205). -/
def amoNew (w : Nat) (op : AmoOp) (u : Bool) (old x : Nat) : Nat :=
  let y := x % 2 ^ w
  let less := fun (a b : Nat) => if u then decide (a < b) else decide (signedOf w a < signedOf w b)
  match op with
  | .add => (old + y) % 2 ^ w
  | .fadd => (addNode (BitVec.ofNat 32 old) (BitVec.ofNat 32 y)).toNat
  | .min => if less y old then y else old
  | .max => if less old y then y else old
  | .and => old &&& y
  | .or => old ||| y
  | .xor => old ^^^ y
  | .swap => y
/-- The 32 bytes of a barrier record (R210), and the 40 written bytes of a group record (R44). -/
def barBytes (arrived expect pend scope : Nat) (isOver phase : Bool) (init : Nat) : List Byte :=
  toBytes 8 (arrived % 2 ^ 32 * 2 ^ 32 + expect) ++ toBytes 8 pend ++
    toBytes 8 (scope * 2 ^ 50 + (if isOver then 2 ^ 49 else 0) + (if phase then 2 ^ 48 else 0) + init) ++ toBytes 8 0
def groupBytes (members : Nat) (phase : Bool) (arrived nmemb : Nat) : List Byte :=
  toBytes 32 members ++ toBytes 8 ((if phase then 2 ^ 18 else 0) + arrived % 512 * 512 + nmemb % 512)
/-- A group whose members have all arrived completes its phase (R45). -/
def groupAfter (members : Nat) (phase : Bool) (arrived nmemb : Nat) : List Byte :=
  if nmemb ≠ 0 ∧ arrived = nmemb then groupBytes members (!phase) 0 nmemb else groupBytes members phase arrived nmemb

end Sys2Proof.Claims



/-- R27, R84, R93 to R101, R106, R113, R252, R359, R364: entries leave the hold-back buffer after tQ, buffer writes are
performed after tQ, stores and copy writes are applied at their homes, and effects are acknowledged. R45, R111 to R113, R205 to
R215, R318, R327: operations applied one at a time at the homes. The model's own choices in it: the order of the requests of
one die in one cycle (log 26), the POISON of an atomic (log 39), the number that a home keeps of a copy and the reserved words of
a record (log 40), and a contribution below the count (log 52). -/
def Obligations.RequestsAtTheirHomes : Prop :=
  (∀ (c : CoreId) (n order : Nat) (e : Hold) (ag : Age) (m : Msg) (u : WUnit) (red : Fin 5) (bar : Nat) (en : EntryNo) (sn : Sent)
      (d : DieId) (blk : Nat) (cb : CBlock) (s0 s1 s2 s : State),
      let k := s.core c
      let p := s.pmapOf c
      (k.flow.hold[n]? = some e →
        (s.cycle < e.entered + Config.tQ → Idles s (.holdbackDepart c n)) ∧
        (k.mayDepart s.cycle n e = true → s.served p = true → s.partRoom e.req = true → k.flow.storeQ = [] →
          s.spineGrant p c e.req.dests (e.size / 64) = some s0 → s0.linkGrant p c e.req = some s1 →
          Occurs s (.holdbackDepart c n) fun t =>
            (t.core c).flow.hold = k.flow.hold.eraseIdx n ∧ SameBytes s t ∧
            (e.stream = .store → (t.core c).flow.dep.store = e.num + 1) ∧
            t.net.map (·.hold) = s.net.map (·.hold) ++ (match e.req with
              | .opening i ds remote ring size op => ds.map fun d => { e with req := .opening i [d] remote ring size op }
              | .far .. => []
              | _ => [e]))) ∧
      (k.store.aging = [ag] → order % 2 = 0 → (s.cycle < ag.entered + Config.tQ → Idles s (.writeAgePerform c ag.buf order)) ∧
        (k.mayCommit s.cycle 0 ag = true → k.flow.storeQ = [] →
          Occurs s (.writeAgePerform c ag.buf order) fun t =>
            let now := fun a => ((t.core c).store.buf ag.buf).readByte a
            (t.core c).store.aging = [] ∧
            let before := fun a => (k.store.buf ag.buf).readByte a
            (∀ b, b ≠ ag.buf → (t.core c).store.buf b = k.store.buf b) ∧
            (ag.comb = .none → ∀ a, ((∀ x, (a, x) ∉ ag.bytes) → now a = before a) ∧
              ∀ x, (∀ y, (a, y) ∈ ag.bytes ↔ y = x) → now a = x) ∧
            (ag.comb ≠ .none → ∀ a b0 b1 b2 b3, ag.bytes = [(a, b0), (a + 1, b1), (a + 2, b2), (a + 3, b3)] →
              let new := combineWord ag.comb (BitVec.ofNat 32 ((k.store.buf ag.buf).read a 4)) (BitVec.ofNat 32 (ofBytes [b0, b1, b2, b3]))
              (∀ j < 4, now (a + j) = (toBytes 4 new.toNat).getD j 0) ∧ ∀ b, b < a ∨ a + 4 ≤ b → now b = before b))) ∧
      let whole := fun (z : State) => (if red = 0 ∧ m.hold.poison = false then z.clearWhole [u] else z).mem
      (m.applied = [] → AtHome s m u.addr u.bytes.length s1 u.cmp → Idle s m.src →
        let old := s.peek u.addr 4
        let sum := combineWord (redComb red) (BitVec.ofNat 32 old.1) (BitVec.ofNat 32 (ofBytes u.bytes))
        let put := if red = 0 then s.mem.write s.pkg.mdbase u.addr u.bytes u.cmp m.hold.poison (s.wayUse m.part)
          else s.mem.write s.pkg.mdbase u.addr (toBytes 4 sum.toNat) false (m.hold.poison || old.2)
        let written := whole { s with mem := put }
        (m.hold.req = .store [u] → red = 0 → Occurs s (.homeStoreApply m.id 0) fun t => t.mem = written ∧ t.msg m.id = none) ∧
        (m.hold.req = .copyWrite en [u] red none → (red ≠ 0 → Turn s m u.addr) → s.copyBehind m u = false →
          Occurs s (.homeStoreApply m.id 0) fun t => t.msg m.id = none ∧
            (s.copySeen m u.addr = false → t.mem = { written with copied := t.mem.copied }) ∧
            (s.copySeen m u.addr = true → t.mem = { s.mem with copied := t.mem.copied })) ∧
        (m.hold.req = .copyWrite en [u] red none → s.copyBehind m u = true ∨ red ≠ 0 ∧ ¬ Turn s m u.addr →
          Idles s (.homeStoreApply m.id 0))) ∧
      (m.applied = [] → AtHome { s with free := s.free + 1 } m u.addr u.bytes.length s1 u.cmp → Idle s m.src → localHbm bar = true →
        m.hold.req = .copyWrite en [u] 0 (some bar) → s.copyBehind m u = false →
        let put := s.mem.write s.pkg.mdbase u.addr u.bytes u.cmp m.hold.poison (s.wayUse m.part)
        let counted := State.barrier { s with mem := put } bar 0 u.bytes.length
        (Turn s m bar → s.copySeen m u.addr = false → red = 0 → Occurs s (.boundCopyWriteApply m.id) fun t => t.msg m.id = none ∧
          t.mem = { whole counted with copied := t.mem.copied }) ∧
        (¬ Turn s m bar → Becomes s (.boundCopyWriteApply m.id) { s with free := s.free + 1 })) ∧
      (s.msg m.id = some m → s.mayApply m u.addr = false →
        (m.hold.req = .store [u] ∨ m.hold.req = .copyWrite en [u] red none → Idles s (.homeStoreApply m.id n)) ∧
        (m.hold.req = .copyWrite en [u] red (some bar) →
          Occurs s (.boundCopyWriteApply m.id) fun t => t = s ∨ t = { s with free := s.free + 1 })) ∧
      (k.flow.sent[n]? = some sn → Idle s c →
        let far := (sn.homes.map fun h => match h with
          | .die d => 48 * edges c.die d
          | .chip n => 960 + match s.chipPort n with
            | some q => 48 * edges c.die (Fin.ofNat 4 (portDie q.val))
            | none => 0
          | .buffer => 0).foldl max 0
        let due := sn.left = 0 ∧ sn.entered + 460 + far ≤ s.cycle
        (due → Occurs s (.requestAck c n) fun t => (t.core c).flow.sent = k.flow.sent.eraseIdx n ∧ SameBytes s t ∧
          (t.core c).live = k.live) ∧
        (¬ due → Idles s (.requestAck c n))) ∧
      (homeDie (blk * 4096) = d →
        (localHbm (blk * 4096) = true → SMap.get none s.mem.blocks blk = none →
          let kept := s.mem.blocks.filter fun x => x.2.isSome && homeDie (x.1 * 4096) == d
          let z := s.takeNat
          let owner : PartId := Fin.ofNat 16 z.1
          let found := z.1 / 16 % 4 = 1 ∨ z.1 / 16 % 4 = 2
          let use := s.wayUse owner
          (¬ found → kept.length < 96 * 2 ^ 20 / 4096 → use.limit ≠ some 0 → s.mem.victim use blk = none → s.served owner = true →
            z.2.grant owner d 0 (s.hbmUnits (blk * 4096) 4096 true) = some s2 →
            Occurs s (.cacheMissRead d blk) fun t =>
              SMap.get none t.mem.blocks blk = some { s.mem.expand s.pkg.mdbase blk with owner := owner } ∧ SameBytes s t) ∧
          (¬ found → 96 * 2 ^ 20 / 4096 ≤ kept.length → Idles s (.cacheMissRead d blk)) ∧
          -- an error that cannot be corrected marks a unit (R366, R368, R369)
          (found → (∀ p, s.holdsPage p (64 * (64 * blk + z.1 / 64 % 64)) = false) → Occurs s (.cacheMissRead d blk) fun t =>
            64 * blk + z.1 / 64 % 64 ∈ t.mem.bad ∧ SameBytes s t)) ∧
        (SMap.get none s.mem.blocks blk = some cb →
          let bytes := if 32 ≤ cb.dirty.length then cb.bytes else (List.range 32).flatMap fun l =>
            ((if l ∈ cb.dirty then cb.bytes else (s.mem.expand s.pkg.mdbase blk).bytes).drop (128 * l)).take 128
          let packed := compressChunks 64 bytes
          let raw := 4032 < packed.length
          let len := if raw then 64 else (packed.length + 63) / 64
          let stored := if raw then bytes else packed ++ List.replicate (64 * len - packed.length) 0
          (cb.dirty = [] → Occurs s (.compressedWriteback d blk) fun t =>
            SMap.get none t.mem.blocks blk = none ∧ SameBytes s t) ∧
          (cb.dirty ≠ [] → s.served cb.owner = true → s.grant cb.owner d 0 len = some s2 → Occurs s (.compressedWriteback d blk) fun t =>
            SMap.get none t.mem.blocks blk = none ∧
            t.mem.hbm = (s.mem.hbm.put (blk * 4096) stored).put (metaAddr s.pkg.mdbase (blk * 4096))
              (toBytes 2 (residue bytes * 256 + (if raw then 128 else 0) + len)))))) ∧
  (∀ (m : Msg) (a : Nat) (va x y : Word) (dbl u join : Bool) (op : AmoOp) (tag : TagId) (po cnt seq num : Nat) (scope : Scope)
      (arrived : Option Bool) (target : CoreId) (mask : Fin 8) (thaw cmp : Bool) (q : QueueNo) (asid vahi : Byte) (s1 s : State),
      let n := if dbl then 8 else 4
      let w := 8 * n
      let old := s.peek a n
      let hbm := s.mem.hbm
      let bad := m.hold.poison
      let c := m.src
      Idle s c → (AtHome s m a n s1 → Turn s m a →
        (m.hold.req = .amo a va dbl op u x tag po → (op = .fadd → dbl = false) → Asks s c tag po →
          Occurs s (.amoApply m.id) fun t =>
            t.mem = s.mem.write s.pkg.mdbase a (toBytes n (amoNew w op u old.1 x.toNat)) false (old.2 || bad) ∧
            Answered t c tag (BitVec.ofNat 64 old.1) (if old.2 then some va else none) ∧ t.msg m.id = none) ∧
        (m.hold.req = .cas a va dbl x y tag po → Asks s c tag po →
          Occurs s (.casApply m.id) fun t =>
            (old.1 = x.toNat % 2 ^ w → t.mem = s.mem.write s.pkg.mdbase a (toBytes n y.toNat) false (old.2 || bad)) ∧
            (old.1 ≠ x.toNat % 2 ^ w → t.mem = s.mem) ∧
            Answered t c tag (BitVec.ofNat 64 old.1) (if old.2 then some va else none) ∧ t.msg m.id = none)) ∧
      (AtHome s m a 16 s1 → Turn s m a → m.hold.req = .cred a va dbl op u cnt x seq → (op = .fadd → dbl = false) →
        let key := (homeDie a).val * 2 ^ 16 + c.val
        let seen := seenBefore (SMap.get none s.mem.applied key) seq
        let rec_ := (s.peek (a + 8) 8).1
        let count := rec_ % 2 ^ 32
        Occurs s (.credApply m.id) fun t => t.msg m.id = none ∧
          (seen = true → t.mem = s.mem) ∧
          (seen = false → SMap.get none t.mem.applied key = some (seq % 2 ^ 32) ∧
            (count = 0 ∨ count < cnt → t.mem.hbm = hbm.put (a + 8) (toBytes 8 (rec_ ||| 2 ^ 34))) ∧
            (count ≠ 0 → cnt ≤ count →
              t.mem.hbm = (hbm.put a (toBytes n (amoNew w op u old.1 x.toNat))).put (a + 8) (toBytes 8 (rec_ - cnt))))) ∧
      (AtHome s m a 32 s1 → Turn s m a →
        let w0 := (s.peek a 8).1
        let w2 := (s.peek (a + 16) 8).1
        let ar := w0 / 2 ^ 32
        let ex := w0 % 2 ^ 32
        let pend := (s.peek (a + 8) 8).1 % 2 ^ 48
        let sc := w2 / 2 ^ 50 % 4
        let ov := w2.testBit 49
        let ph := w2.testBit 48
        let init := w2 % 2 ^ 48
        (m.hold.req = .barInit a va scope x → Occurs s (.barInitApply m.id) fun t => t.msg m.id = none ∧
          t.mem.hbm = hbm.put a (barBytes 0 (x.toNat % 2 ^ 32) (x.toNat / 2 ^ 32) (scopeRank scope) false ph (x.toNat / 2 ^ 32))) ∧
        (m.hold.req = .barArrive a va → Occurs s (.barrierArrivalApply m.id) fun t => t.msg m.id = none ∧
          t.mem.hbm = hbm.put a (if ex < ar + 1 then barBytes 0 ex init sc true (!ph) init
            else if ar + 1 = ex ∧ pend = 0 then barBytes 0 ex init sc ov (!ph) init else barBytes (ar + 1) ex pend sc ov ph init))) ∧
      (AtHome s m a 64 s1 → Turn s m a →
        let members := (s.peek a 32).1
        let wd := (s.peek (a + 32) 8).1
        let ph := wd.testBit 18
        let ar := wd / 2 ^ 9 % 2 ^ 9
        let nm := wd % 2 ^ 9
        let is := members.testBit c.val
        (m.hold.req = .group a va join arrived → Occurs s (.groupOpApply m.id) fun t => t.msg m.id = none ∧
          t.mem.hbm = hbm.put a (
            if join then (if is then groupAfter members ph ar nm else groupAfter (members + 2 ^ c.val) ph ar (nm + 1))
            else if is then groupAfter (members - 2 ^ c.val) ph (if arrived = some ph then ar - 1 else ar) (nm - 1)
            else groupAfter members ph ar nm)) ∧
        (m.hold.req = .gbar a va num → Occurs s (.gbarArrivalApply m.id) fun t => t.msg m.id = none ∧
          t.mem.hbm = hbm.put a (groupAfter members ph (if is then ar + 1 else ar) nm) ∧
          (t.front c).gbar = (s.front c).gbar.map fun g => if g.num = num then { g with reply := some ph } else g)) ∧
      (s.msg m.id = some m → s.served m.part = true → m.dropped = none → s.guard m.part m.src m.hold.req.dest.1 = none →
        (m.hold.req = .freeze target.val false mask thaw → mask ≠ 0 →
          (∀ b ∈ s.net, b.src = c → b.hold.num < m.hold.num → ∀ g p k h, b.hold.req ≠ .freeze g p k h) →
          s.tieFree (tieCore target) m.route = true → (s.front target).at_.trapping = none →
          (s.front target).at_.late = [] →
          Occurs s (.freezeApply m.id) fun t =>
            let z := (s.core target).regs.freeze
            let z' := (t.core target).regs.freeze
            let bit := fun (j : Nat) => mask.val.testBit j
            t.msg m.id = none ∧
            (thaw = false → z'.fe = (z.fe || bit 0) ∧ z'.ce = (z.ce || bit 1) ∧ z'.bw = (z.bw || bit 2) ∧ z'.viol = 4) ∧
            (thaw = true → z'.fe = (z.fe && !bit 0) ∧ z'.ce = (z.ce && !bit 1) ∧ z'.bw = (z.bw && !bit 2) ∧ z'.viol = z.viol)) ∧
        (m.hold.req = .launch a va cmp q tag po asid vahi →
          let y := s.lqueue m.part q
          let r := s.enqueue m.part q ⟨a, va, cmp, asid, y.cfg.getLsbD 7 && y.ctx.setWidth 8 == asid⟩
          Asks r.2 c tag po → s.tieFree (tieQueue m.part q) m.route = true →
          Occurs s (.launchRequestArrive m.id) fun t => t.msg m.id = none ∧ Answered t c tag (BitVec.ofNat 64 r.1) none ∧
            t.lqueue m.part q = r.2.lqueue m.part q ∧ t.mem = r.2.mem)) ∧
      -- the operations of one combiner in one cycle, lowest route identifier first (R111)
      (s.msg m.id = some m → localHbm a = true → ¬ Turn s m a →
        (m.hold.req = .amo a va dbl op u x tag po → Idles s (.amoApply m.id)) ∧
        (m.hold.req = .cas a va dbl x y tag po → Idles s (.casApply m.id)) ∧
        (m.hold.req = .cred a va dbl op u cnt x seq → Idles s (.credApply m.id)) ∧
        (m.hold.req = .barInit a va scope x → Idles s (.barInitApply m.id)) ∧
        (m.hold.req = .barArrive a va → Idles s (.barrierArrivalApply m.id)) ∧
        (m.hold.req = .group a va join arrived → Idles s (.groupOpApply m.id)) ∧
        (m.hold.req = .gbar a va num → Idles s (.gbarArrivalApply m.id))))

namespace Sys2Proof.Claims

open Sys2Proof.Machine

/-- The pool state of a core. -/
def pool (s : State) (c : CoreId) : Queues := (s.core c).live.queues
/-- The entry at the head of a queue may act: the engines run, its tokens have been popped, and it has not faulted
(R128, R219, R220). -/
structure AtHead (s : State) (c : CoreId) (x : PoolQ) (e : QEntry) (es : List QEntry) : Prop where
  queue : (pool s c).queue x = e :: es
  runs : (s.core c).enginesRun = true
  clean : e.trap = none
  popped : e.popped = true
  lanes : x = .o → (pool s c).streamTrap = false
/-- An event of the pool or an engine that leaves the front end and every byte of memory alone. -/
def EngineStep (s : State) (i : Instr) (c : CoreId) (P : State → Prop) : Prop :=
  Occurs s i fun t => (t.core c).live.front = (s.core c).live.front ∧ SameBytes s t ∧ P t
/-- A queue stops at its head with a fault (R220). -/
def Stops (s : State) (i : Instr) (c : CoreId) (x : PoolQ) (e : QEntry) (es : List QEntry) (cause : Cause) (info : Word) : Prop :=
  EngineStep s i c fun t => ∃ y, (pool t c).queue x = { e with trap := some y } :: es ∧ y.cause = cause ∧ y.info = info ∧
    y.src = PoolQ.src x ∧ y.word = e.word ∧ y.taken = false
/-- The head of a queue stays, changed. -/
def Heads (t : State) (c : CoreId) (x : PoolQ) (e : QEntry) (es : List QEntry) : Prop := (pool t c).queue x = e :: es
/-- The FIFOs of a token field's signals have room (R128). -/
def signalRoom (s : State) (c : CoreId) (x : PoolQ) (k : Tok) : Prop :=
  (k.sp = true → ((pool s c).fifo[(PoolQ.signals x).1]).val < 16) ∧ (k.sn = true → ((pool s c).fifo[(PoolQ.signals x).2]).val < 16)
/-- FIFO counts of t: those of s, with an entry's tokens pushed, and popped where `pop` is set. -/
def tokensAfter (s t : State) (c : CoreId) (x : PoolQ) (k : Tok) (pop : Bool := false) : Prop :=
  ∀ j : Fin 8, ((pool t c).fifo[j]).val =
    ((pool s c).fifo[j]).val
      - (if pop ∧ (k.wp = true ∧ j = (PoolQ.waits x).1 ∨ k.wn = true ∧ j = (PoolQ.waits x).2) then 1 else 0)
      + (if k.sp = true ∧ j = (PoolQ.signals x).1 ∨ k.sn = true ∧ j = (PoolQ.signals x).2 then 1 else 0)
/-- The head leaves its queue, and its signals are pushed. -/
def Finished (s t : State) (c : CoreId) (x : PoolQ) (e : QEntry) (es : List QEntry) : Prop :=
  (pool t c).queue x = es ∧ tokensAfter s t c x e.tok
/-- K's effects on the planes are made for the first time (R359). -/
def newPlanes (s : State) (c : CoreId) : Prop := (s.core c).flow.dep.maq ≤ (s.core c).live.prod.maq
/-- The maquette plane of t, with the live plane as it was. -/
def Maquette (s t : State) (c : CoreId) (p : Plane) : Prop :=
  (t.core c).store.maquette = p ∧ (t.core c).store.livePlane = (s.core c).store.livePlane ∧
    (t.core c).store.liveSel = (s.core c).store.liveSel

end Sys2Proof.Claims

/-- R218 to R231, R278, R279, R359: the entries of K and O: tokens, carves, maps, bindings, weight loads, swaps, and the
arming of streams; K's writes of the maquette plane are performed after tQ. The model's own choices in it: POISON of a carve (log
39), the order of the checks, the planes that K sees and when a swap is performed (log 41), when a feed leaves O (log 58), and
TRAP_INFO of the later BOUNDS of `carve` (log 64). -/
def Obligations.PoolConfigurationEvents : Prop :=
  ∀ (c : CoreId) (x : PoolQ) (e : QEntry) (es : List QEntry) (a b w : Word) (y : Bool) (q : RingId) (lane : LaneId) (r : Ring)
    (tk : Taken) (gs : List Group) (slot fmt : Fin 8) (tps n : Nat) (i : Instr) (bf : Buf) (pw : Option PlaneWrite) (s : State),
    let k := s.core c
    let m := k.store.maquette
    let p := pool s c
    (-- writes of the maquette plane
      (∀ a ∈ k.store.aging, a.buf ≠ bf) → (k.flow.planeLog.find? fun w => decide (k.flow.dep.maq ≤ w.num)) = pw →
      (pw = none → Idles s (.writeAgePerform c bf n)) ∧
      ∀ z, pw = some z → (s.cycle < z.entered + Config.tQ → Idles s (.writeAgePerform c bf n)) ∧
        (z.entered + Config.tQ ≤ s.cycle → EngineStep s (.writeAgePerform c bf n) c fun t =>
          (t.core c).flow.dep.maq = z.num + 1 ∧ (t.core c).store = k.store ∧ (t.core c).live = k.live)) ∧
    (-- tokens
     p.queue x = e :: es → k.enginesRun = true → e.trap = none → (x = .o → p.streamTrap = false) → e.op = .token →
       let waits := (e.tok.wp = true → p.fifo[(PoolQ.waits x).1] ≠ 0) ∧ (e.tok.wn = true → p.fifo[(PoolQ.waits x).2] ≠ 0)
       let ready := p.readyAt[PoolQ.idx x] ≤ s.cycle
       (e.popped = false → ¬ (waits ∧ ready) → Idles s (.tokenEntryBegin c x)) ∧
       (e.popped = false → waits → ready → signalRoom s c x e.tok → EngineStep s (.tokenEntryBegin c x) c fun t =>
         (pool t c).queue x = es ∧ tokensAfter s t c x e.tok true) ∧
       (e.popped = true → e.tok.sp = true → p.fifo[(PoolQ.signals x).1] = 16 →
         Stops s (.tokenEntryBegin c x) c x e es .tokenOver (BitVec.ofNat 64 (PoolQ.signals x).1.val))) ∧
    (AtHead s c .k e es →
      (-- finishing
       (i = .carveBegin c ∧ (∃ a b z, e.op = .carve a b z) ∨ i = .mmapBegin c ∧ (∃ a b, e.op = .mmap a b) ∨
          i = .sbindBegin c ∧ (∃ q l z, e.op = .sbind q l z)) → e.doneAt = some n →
        (s.cycle < n → Idles s i) ∧
        (n ≤ s.cycle → signalRoom s c .k e.tok → EngineStep s i c fun t => Finished s t c .k e es)) ∧
      (e.op = .carve a b y → e.step = 0 → e.doneAt = none →
        (carveOk a = false → Stops s (.carveBegin c) c .k e es .bounds a) ∧
        (carveOk a = true → a.getLsbD 49 = false → newPlanes s c → EngineStep s (.carveBegin c) c fun t =>
          Maquette s t c (m.carve a y []) ∧
          Heads t c .k { e with doneAt := some (e.began.getD s.cycle + if y then 9 else 2) } es) ∧
        (carveOk a = true → a.getLsbD 49 = true → bits b 0 6 ≠ 0 → Stops s (.carveBegin c) c .k e es .alignFault b) ∧
        (carveOk a = true → a.getLsbD 49 = true → bits b 0 6 = 0 →
          EngineStep s (.carveBegin c) c fun t => Heads t c .k { e with step := 1 } es)) ∧
      (e.op = .carve a b y → e.step = 1 → newPlanes s c →
        match s.engineRead c 4 e.level e.vahi .load e.po .g b 32 with
        | .wait u => Becomes s (.carveRecordRead c) u
        | .trap cause info _ => Stops s (.carveRecordRead c) c .k e es cause info
        | .ok _ (some info) _ => Stops s (.carveRecordRead c) c .k e es .poison info
        | .ok bs none _ =>
          let ms := (List.finRange 256).filter fun (d : CoreId) => (ofBytes bs).testBit d.val
          (c ∉ ms ∨ 16 < ms.length → Stops s (.carveRecordRead c) c .k e es .bounds a) ∧
          (c ∈ ms → ms.length ≤ 16 → signalRoom s c .k e.tok → EngineStep s (.carveRecordRead c) c fun t =>
            Maquette s t c (m.carve a y ms) ∧ Finished s t c .k e es)) ∧
      (e.op = .mmap a b → e.doneAt = none →
        (∀ v, mmapBad a b = some v → Stops s (.mmapBegin c) c .k e es .bounds v) ∧
        (mmapBad a b = none → newPlanes s c → EngineStep s (.mmapBegin c) c fun t =>
          Maquette s t c (m.mmap a b) ∧
          Heads t c .k { e with doneAt := some (e.began.getD s.cycle + (1 + (bits a 48 10 + 1 + 15) / 16)) } es)) ∧
      (e.op = .sbind q lane y → e.doneAt = none →
        let ok := y = false ∨ ∃ r, k.ring q = some r ∧ r.def_.buf ≠ .cb
        (¬ ok → Stops s (.sbindBegin c) c .k e es .ringState (BitVec.ofNat 64 q.val)) ∧
        (ok → newPlanes s c → EngineStep s (.sbindBegin c) c fun t =>
          Maquette s t c { m with lanes := m.lanes.set lane (if y then some q else none) } ∧
          Heads t c .k { e with doneAt := some (e.began.getD s.cycle + 1) } es)) ∧
      (e.op = .plane y →
        (e.step = 0 → e.doneAt = none →
          (p.drainedBefore e.gen = true → EngineStep s (.planeSwap c) c fun t =>
            Heads t c .k { e with doneAt := some (s.cycle + Config.tQ) } es) ∧
          (p.drainedBefore e.gen = false → Idles s (.planeSwap c))) ∧
        (e.step = 0 → e.doneAt = some n → s.cycle < n → Idles s (.planeSwap c)) ∧
        (e.step = 0 → e.doneAt = some n → k.flow.dep.maq < k.live.prod.maq → Idles s (.planeSwap c)) ∧
        (e.step = 0 → e.doneAt = some n → n ≤ s.cycle → k.flow.dep.maq = k.live.prod.maq → signalRoom s c .k e.tok →
          EngineStep s (.planeSwap c) c fun t => (t.core c).flow.dep.maq = k.flow.dep.maq + 1 ∧
            (t.core c).store.liveSel = k.store.liveSel + 1 ∧ (pool t c).genL = p.genL + 1 ∧
            (t.core c).store.livePlane = m.settle ∧
            (y = false → (t.core c).store.maquette = k.store.livePlane ∧ Finished s t c .k e es) ∧
            (y = true → (t.core c).store.maquette = m.settle ∧
              Heads t c .k { e with step := 1, doneAt := some (s.cycle + 64) } es)) ∧
        (e.step ≠ 0 → e.doneAt = some n → n ≤ s.cycle → signalRoom s c .k e.tok →
          EngineStep s (.planeSwap c) c fun t => Finished s t c .k e es)) ∧
      (e.op = .wload q a →
        (e.doneAt = some n → s.cycle < n → Idles s (.wloadSlotStep c)) ∧
        (e.doneAt = some n → n ≤ s.cycle → signalRoom s c .k e.tok →
          EngineStep s (.wloadSlotStep c) c fun t => Finished s t c .k e es) ∧
        (e.doneAt = none → (k.ring q = none ∨ ∃ z, k.ring q = some z ∧ z.def_.buf ≠ .wb) →
          Stops s (.wloadSlotStep c) c .k e es .ringState (BitVec.ofNat 64 q.val)) ∧
        (e.doneAt = none → k.ring q = some r → r.def_.buf = .wb →
          (s.wloadGroups c a = none → Stops s (.wloadSlotStep c) c .k e es .bounds a) ∧
          (s.wloadGroups c a = some gs → k.head q = none → Idles s (.wloadSlotStep c)) ∧
          (s.wloadGroups c a = some gs → k.head q = some tk →
            let t0 := e.fmt.getD tk.tag.fmt
            let scl := a.getLsbD 23
            let info := BitVec.ofNat 64 (q.val + 16 * tk.slot)
            let total := (gs.map fun g => g.streamLen t0 scl).sum
            let len := min r.size (total - e.pos)
            let ws : Fin 8 := Fin.ofNat 8 (bits a 20 3)
            let fits := badWeightFmt t0 scl gs = false
            (tk.tag.tagerr = true ∨ tk.tag.fmt ≠ t0 → Stops s (.wloadSlotStep c) c .k e es .ringState info) ∧
            (tk.tag.tagerr = false → tk.tag.fmt = t0 → ¬ fits → Stops s (.wloadSlotStep c) c .k e es .format info) ∧
            (tk.tag.tagerr = false → tk.tag.fmt = t0 → fits → k.slotData r e.po tk.slot 0 len = none → Idles s (.wloadSlotStep c)) ∧
            (tk.tag.tagerr = false → tk.tag.fmt = t0 → fits → newPlanes s c → ∀ bs bad, k.slotData r e.po tk.slot 0 len = some (bs, bad) →
              EngineStep s (.wloadSlotStep c) c fun t =>
                (let m1 := Plane.putStream t0 scl ws.val bad gs e.pos bs m
                 Maquette s t c (if total ≤ e.pos + r.size then m1.setFormats (bits a 0 10) gs.length ws t0 scl else m1)) ∧
                ∃ z, Heads t c .k z es ∧ z.pos = e.pos + len ∧ z.step = e.step + 1 ∧ z.fmt = some t0 ∧
                  (z.doneAt = none ↔ e.pos + r.size < total)))))) ∧
    (AtHead s c .o e es →
      let arms := fun (st : Stream) => EngineStep s (.feedArm c) c fun t => (pool t c).queue .o = es ∧
        (pool t c).lanes[lane].streams = p.lanes[lane].streams ++ [st]
      let live := fun (st : Stream) => st.count = bits a 0 32 ∧ st.nrow = bits b 18 18 ∧ st.rstride = bits b 0 18 ∧ st.slot = slot ∧
        st.gen = e.gen ∧ st.fired = 0 ∧ st.retired = 0 ∧ st.tok = e.tok ∧ st.level = e.level ∧ st.po = e.po ∧ st.trap = none
      let busy := ∃ st ∈ p.lanes[lane].streams, st.fired < st.count
      (e.op = .feed q a b w lane slot tps →
        (busy → Idles s (.feedArm c)) ∧
        (¬ busy → (k.ring q = none ∨ ∃ z, k.ring q = some z ∧ z.def_.buf = .cb) →
          Stops s (.feedArm c) c .o e es .ringState (BitVec.ofNat 64 q.val)) ∧
        (¬ busy → k.ring q = some r → r.def_.buf ≠ .cb →
          (∀ v, feedBad a b w false = some v → Stops s (.feedArm c) c .o e es .bounds v) ∧
          (feedBad a b w false = none → bits a 0 32 ≠ 0 →
            ∃ st, arms st ∧ live st ∧ st.ring = some q ∧ st.tps = tps ∧ st.pitch = bits w 0 24) ∧
          (feedBad a b w false = none → bits a 0 32 = 0 → signalRoom s c .o e.tok →
            EngineStep s (.feedArm c) c fun t => Finished s t c .o e es))) ∧
      (e.op = .feedx a b w lane slot fmt →
        (busy → Idles s (.feedArm c)) ∧
        (¬ busy → ∀ v, feedBad a b w true = some v → Stops s (.feedArm c) c .o e es .bounds v) ∧
        (¬ busy → feedBad a b w true = none → fmt = 7 → Stops s (.feedArm c) c .o e es .format 0xF) ∧
        (¬ busy → feedBad a b w true = none → fmt ≠ 7 → bits a 0 32 ≠ 0 →
          ∃ st, arms st ∧ live st ∧ st.ring = none ∧ st.fmt = fmt ∧ st.base = bits w 0 24 ∧ st.pitch = bits w 24 24 ∧
            st.space = (if bits w 48 2 = 1 then .wb else .ab)) ∧
        (¬ busy → feedBad a b w true = none → fmt ≠ 7 → bits a 0 32 = 0 → signalRoom s c .o e.tok →
          EngineStep s (.feedArm c) c fun t => Finished s t c .o e es)))

/-- R231 to R245: operations fire, enter the result stage and retire; parts of extended groups arrive; drains and `aclr`
take their steps. The model's own choices in it: the order of the checks and of the passes of one cycle (log 41), when RM = 3
takes `ctl.round` (log 54), that an operand is read at one moment (log 55), and when its faults are raised (log 65). -/
def Obligations.PoolComputationEvents : Prop :=
  ∀ (c : CoreId) (lane : LaneId) (x : Stream) (o : Operand) (op : PoolOp) (ops : List PoolOp) (cause : Cause) (info : Word) (n : Nat)
    (m : Msg) (hp : HeldPart) (e : QEntry) (es : List QEntry) (d : DrainOp) (r : Ring) (b : Word) (tk : Taken) (s' s : State),
    let k := s.core c
    let p := pool s c
    let plane := k.store.livePlane
    let l := p.lanes[lane]
    let first := k.flow.dep.lanes[lane] ≤ k.live.prod.lanes[lane] + (k.store.ops[lane]).length
    (l.firing = none → Idles s (.poolOperationFire c lane)) ∧
    (l.firing = some x →
      (x.gen ≠ p.genL ∨ x.trap ≠ none ∨ p.swapAt = some s.cycle ∨ s.cycle < l.lastFire + l.lastSpan ∨ k.enginesRun = false →
        Idles s (.poolOperationFire c lane)) ∧
      (k.laneReady lane x s.cycle = true → first →
        (k.operand c lane x = .error (.trap cause info) → EngineStep s (.poolOperationFire c lane) c fun t =>
          ∃ y ∈ (pool t c).lanes[lane].streams, ∃ z, y = { x with trap := some z } ∧ z.cause = cause ∧ z.info = info ∧ z.src = .o ∧
            z.word = x.word) ∧
        (k.operand c lane x = .error .wait → Idles s (.poolOperationFire c lane)) ∧
        (k.operand c lane x = .ok o → o.bad = none → k.store.resultUse + (plane.laneGroups lane).length ≤ 49152 →
          k.regs.feedUsed < k.regs.feedNow → s.grant (s.pmapOf c) c.die 3 1 = some s' →
          EngineStep s (.poolOperationFire c lane) c fun t =>
            (∃ z, (t.core c).store.ops[lane] = k.store.ops[lane] ++ [z] ∧ z.n = x.fired ∧ z.fired = s.cycle ∧ z.entered = none ∧
              z.span = plane.span lane x.slot o.tile ∧ z.passes = plane.passes lane x o.tile false p.parts) ∧
            (∃ y ∈ (pool t c).lanes[lane].streams, y.fired = x.fired + 1 ∧ y.count = x.count ∧ y.word = x.word) ∧
            (pool t c).lanes[lane].lastFire = s.cycle ∧ (t.core c).regs.feedUsed = k.regs.feedUsed + 1))) ∧
    -- the result stage
    ((k.store.ops[lane]).find? (fun (y : PoolOp) => y.entered.isNone) = some op → (∀ y ∈ k.store.ops[lane], y.entered ≠ none → y.passes = []) →
      (s.cycle ≤ op.fired + 25 + op.span ∨ k.enginesRun = false ∨ k.entryBehind lane op = true → Idles s (.passEnterResultStage c lane)) ∧
      (k.enginesRun = true → op.fired + 25 + op.span < s.cycle → (∀ y ∈ op.passes, y.members = []) → k.holdRoom 0 = true →
        k.entryBehind lane op = false →
        EngineStep s (.passEnterResultStage c lane) c fun t =>
          ({ op with entered := some (s.cycle - 1), passes := [] } : PoolOp) ∈ (t.core c).store.ops[lane] ∧
          (t.core c).store.aging.length = k.store.aging.length + op.passes.length ∧
          (∀ y, op.passes = [y] →
            let old := k.store.settledEntry y.entry (s.cycle - 1)
            let new := accumulate y.int old.1 y.value
            ∃ g, (t.core c).store.aging = k.store.aging ++ [g] ∧ g.buf = .cb ∧ g.party = .pass lane op.num ∧ g.entered = s.cycle - 1 ∧
              g.bytes = (List.range 4).map (fun i => (4 * y.entry + i, (toBytes 4 new.1.toNat).getD i 0)) ∧ g.isat = new.2))) ∧
    (l.finished = true → k.enginesRun = false → Idles s (.operationRetire c lane)) ∧
    (l.finished = false → k.store.ops[lane] = op :: ops →
      (op.entered = none → Idles s (.operationRetire c lane)) ∧
      (op.entered = some n → s.cycle < n + Config.tQ ∨ op.passes ≠ [] ∨ k.enginesRun = false → Idles s (.operationRetire c lane)) ∧
      (op.entered = some n → n + Config.tQ ≤ s.cycle → op.passes = [] → k.enginesRun = true →
        (∀ h ∈ k.flow.hold, h.stream ≠ .lane lane) → k.holdRoom (64 * k.noticesOf [op.oslot, op.sslot]) = true →
        (∀ q i, op.oslot = some (q, i) ∨ op.sslot = some (q, i) → k.clashes q i s.cycle = false) →
        Occurs s (.operationRetire c lane) fun t =>
          (t.core c).store.ops[lane] = ops ∧
          (pool t c).lanes[lane].undrained = min (2 ^ 32 - 1) (l.undrained + 1) ∧
          (∀ g, (t.front c).regs.get g = (s.front c).regs.get g) ∧ (t.front c).at_ = (s.front c).at_ ∧
          (t.front c).regs.fflags = (s.front c).regs.fflags |||
            (if ∃ g ∈ k.store.aging, g.party = .pass lane op.num ∧ g.isat = true then fISAT.setWidth 64 else 0) ∧
          -- its operand slot is EMPTY at once (R239)
          (∀ q i z, op.oslot = some (q, i) → op.sslot = none → k.ring q = some z → z.rels = [] → i ∉ z.ghosts →
            i < z.slots.length → ∃ z', (t.core c).ring q = some z' ∧ (z'.slot i).state = .empty) ∧
          let others := k.store.aging.filter fun g => g.party != .pass lane op.num
          (others = k.store.aging → (t.core c).store.aging = others) ∧
          (∀ g, k.store.aging.filter (fun g => g.party == .pass lane op.num) = [g] → ∀ y v,
            g.bytes = (List.range 4).map (fun i => (4 * y + i, (toBytes 4 v).getD i 0)) →
            (t.core c).store.aging.map (·.party) = others.map (·.party) ∧
            ((∀ b ∈ others, ∀ x ∈ b.bytes, x.1 / 4 ≠ y) → (t.core c).store.aging = others) ∧
            (∀ i < 4, (t.core c).store.cb.readByte (4 * y + i) = (toBytes 4 v).getD i 0) ∧
            ∀ a, a < 4 * y ∨ 4 * y + 4 ≤ a → (t.core c).store.cb.readByte a = k.store.cb.readByte a))) ∧
    (s.msg m.id = some m → m.hold.req = .part c hp →
      let due := m.dropped = none ∧ s.portReady m = true ∧ s.guard m.part m.src (.core c) = none ∧
        m.departed + 24 * edges m.src.die c.die ≤ s.cycle
      (¬ due → Idles s (.extendedPartArrive m.id)) ∧
      (due → EngineStep s (.extendedPartArrive m.id) c fun t =>
        (t.core c).store.held = k.store.held ++ [hp] ∧ t.msg m.id = none)) ∧
    -- drains
    (AtHead s c .d e es → e.op = .drain d.q d.a d.b d.lane d.bias → d.lane = lane →
      let step := fun (P : State → Prop) => EngineStep s (.drainBegin c) c P
      let count := bits d.a 0 32
      (e.step = 0 →
        (d.fault k e.level = some (cause, info) → Stops s (.drainBegin c) c .d e es cause info) ∧
        (d.fault k e.level = none → l.undrained < count → Idles s (.drainBegin c)) ∧
        (d.fault k e.level = none → count ≤ l.undrained → step fun t =>
          Heads t c .d { e with step := 1 } es ∧ (pool t c).lanes[lane].undrained = l.undrained - count)) ∧
      (e.step = 1 → k.ring d.q = some r → r.viewNo = r.defNo → r.ownKept ≤ r.ownMade →
        let i := r.filled % r.def_.nslot
        ((r.slot i).state ≠ .empty → ((r.slot i).state = .held → ∀ z ∈ r.rels.head?, s.cycle < z.entered + Config.tQ) →
          Idles s (.drainBegin c)) ∧
        ((r.slot i).state = .empty → (r.slot i).by_ ≠ .again → step fun t => Heads t c .d { e with step := 2, oslot := some i } es ∧
          (t.core c).ring d.q = some { r with
            slots := r.slots.set i { r.slot i with state := .filling, by_ := .drain, since := s.cycle, own := r.ownMade }
            filled := r.filled + 1, ownMade := r.ownMade + 1, ownKept := r.ownMade + 1 })) ∧
      (e.step = 2 →
        (d.b.getLsbD 41 = false → step fun t => Heads t c .d { e with step := 3 } es) ∧
        (d.b.getLsbD 41 = true → k.head d.bias = none → Idles s (.drainBegin c)) ∧
        (d.b.getLsbD 41 = true → k.head d.bias = some tk → tk.tag.tagerr = true →
          Stops s (.drainBegin c) c .d e es .ringState (BitVec.ofNat 64 (d.bias.val + 16 * tk.slot))) ∧
        (d.b.getLsbD 41 = true → k.head d.bias = some tk → tk.tag.tagerr = false → step fun t =>
          Heads t c .d { e with step := 3, bslot := some tk.slot } es)) ∧
      (e.step = 3 → k.flow.dep.drain ≤ k.live.prod.drain → d.inputs k e = none → Idles s (.drainBegin c)) ∧
      (e.step = 3 → d.marked k e = none → k.flow.dep.drain ≤ k.live.prod.drain → ∀ entries bias, d.inputs k e = some (entries, bias) →
        let rm := roundMode (match bits d.b 52 3 with | 0 => .rne | 1 => .rtz | 2 => .rsr | _ => .dyn) (s.front c).regs.round
        let out := d.outputs rm p.rsr entries bias
        step fun t => (pool t c).rsr = out.2.rsr ∧ ∃ y, Heads t c .d y es ∧ y.step = 4 ∧ y.pos = residue out.1 ∧ y.poison = false ∧
          y.doneAt = some (s.cycle + (d.nent + 255) / 256 + 2 + Config.tQ)) ∧
      (e.step = 4 → e.doneAt = some n →
        (s.cycle < n ∨ (∃ g ∈ k.store.aging, g.party = .drain) → Idles s (.drainSlotFull c)) ∧
        (n ≤ s.cycle → (∀ g ∈ k.store.aging, g.party ≠ .drain) → ∀ i, e.oslot = some i → e.bslot = none → k.ring d.q = some r →
          (r.slot i).state = .filling → (r.slot i).by_ = .drain → i < r.slots.length → signalRoom s c .d e.tok →
          Occurs s (.drainSlotFull c) fun t => SameBytes s t ∧ Finished s t c .d e es ∧
            (∀ g, (t.front c).regs.get g = (s.front c).regs.get g) ∧
            (t.front c).regs.fflags = (s.front c).regs.fflags ||| e.flags.setWidth 64 ∧
            ∃ r', (t.core c).ring d.q = some r' ∧ (r'.slot i).state = .full ∧ (r'.slot i).coord = d.a.extractLsb' 32 32 ∧
              (r'.slot i).res = BitVec.ofNat 8 e.pos ∧ (r'.slot i).poison = e.poison ∧
              (r'.slot i).fmt = (if d.ofmt ≤ 6 then Fin.ofNat 8 d.ofmt else 0)) ∧
        -- its bias slot is EMPTY at once (R244)
        (n ≤ s.cycle → (∀ g ∈ k.store.aging, g.party ≠ .drain) → ∀ j, e.bslot = some j → d.bias ≠ d.q → k.ring d.bias = some r →
          r.rels = [] → j ∉ r.ghosts → r.fedBy = none → r.fedFar = none → r.clash ≠ some (s.cycle, j) → j < r.slots.length →
          signalRoom s c .d e.tok →
          Occurs s (.drainSlotFull c) fun t => SameBytes s t ∧ Finished s t c .d e es ∧
            ∃ r', (t.core c).ring d.bias = some r' ∧ (r'.slot j).state = .empty))) ∧
    (AtHead s c .d e es → e.op = .aclr b →
      let nent := bits b 18 18 + 1
      (e.doneAt = none →
        let ok := bits b 36 28 = 0 ∧ 4 * (bits b 0 18 + nent) ≤ k.bufLimit e.level .cb
        (¬ ok → Stops s (.aclrBegin c) c .d e es .bounds b) ∧
        (ok → k.flow.dep.drain ≤ k.live.prod.drain → EngineStep s (.aclrBegin c) c fun t =>
          Heads t c .d { e with doneAt := some (s.cycle + (nent + 255) / 256 + Config.tQ) } es ∧
          ∀ a, 4 * bits b 0 18 ≤ a → a < 4 * (bits b 0 18 + nent) →
            ∃ g ∈ (t.core c).store.aging, g.buf = .cb ∧ g.party = .aclr ∧ (a, 0) ∈ g.bytes)) ∧
      (e.doneAt = some n → e.step = 0 →
        (s.cycle < n ∨ (∃ g ∈ k.store.aging, g.party = .aclr) → Idles s (.aclrBegin c)) ∧
        (n ≤ s.cycle → (∀ g ∈ k.store.aging, g.party ≠ .aclr) → signalRoom s c .d e.tok →
          EngineStep s (.aclrBegin c) c fun t => Finished s t c .d e es)))

namespace Sys2Proof.Claims

open Sys2Proof.Machine

/-- A message for a core of this chip that has come to it (R27, R379): not dropped, its port carries traffic, no guard
stops it, and its way is behind it. -/
def Arrived (s : State) (m : Msg) (d : CoreId) : Prop :=
  m.dropped = none ∧ s.portReady m = true ∧ s.guard m.part m.src (.core d) = none ∧ m.departed + 24 * edges m.src.die d.die ≤ s.cycle
/-- A circuit of a core, and a branch of it. -/
def circuit (s : State) (c : CoreId) (n : CircNo) : Circuit := (s.core c).live.circuits[n]
def branch (s : State) (c : CoreId) (n : CircNo) (b : Nat) : Option Branch := (circuit s c n).branches[b]?

end Sys2Proof.Claims

/-- R37, R86 to R89, R259 to R261, R361: a ring takes its definition or is reset tQ after the word; a slot that the front
end fills becomes FULL; a release makes its slot EMPTY and sends a free notice. -/
def Obligations.RingEvents : Prop :=
  ∀ (c : CoreId) (q : RingId) (x : RingChange) (d : RingDef) (r : Ring) (e : OwnFill) (es : List OwnFill) (rel : Release)
    (rs : List Release) (n : Nat) (s : State),
    let k := s.core c
    let changed := fun (t : State) (d : RingDef) => ∃ r', (t.core c).ring q = some r' ∧ r'.def_ = d ∧ r'.filled = 0 ∧ r'.taken = 0 ∧
      r'.slots.length = d.nslot ∧ ∀ i, r'.slot i = ⟨0, 0, false, false, 0, .empty, .none, 0, 0⟩
    (k.flow.changes.find? (fun y => y.ring == q) = some x →
      (s.cycle < x.issued + Config.tQ → Idles s (.qdefTakeEffect c q) ∧ Idles s (.qresetTakeEffect c q)) ∧
      (x.issued + Config.tQ ≤ s.cycle →
        (x.def_ = some d → EngineStep s (.qdefTakeEffect c q) c (fun t => changed t d) ∧ Idles s (.qresetTakeEffect c q)) ∧
        (x.def_ = none → k.ring q = some r →
          EngineStep s (.qresetTakeEffect c q) c (fun t => changed t r.def_) ∧ Idles s (.qdefTakeEffect c q)))) ∧
    (k.flow.changes.find? (fun y => y.ring == q) = none → Idles s (.qdefTakeEffect c q) ∧ Idles s (.qresetTakeEffect c q)) ∧
    (k.ring q = some r → r.fills = e :: es → e.slot < r.slots.length →
      let due := (r.slot e.slot).since + Config.tQ ≤ s.cycle ∧ k.storesDone r.def_.buf e.po = true
      (¬ due → Idles s (.qfillSlotFull c q)) ∧
      (due → (r.slot e.slot).state = .filling → (r.slot e.slot).by_ = .front →
        EngineStep s (.qfillSlotFull c q) c fun t => ∃ r', (t.core c).ring q = some r' ∧ r'.fills = es ∧
          (r'.slot e.slot).state = .full ∧ (r'.slot e.slot).coord = e.coord ∧ (r'.slot e.slot).fmt = e.fmt ∧
          (r'.slot e.slot).res = BitVec.ofNat 8 (residue (k.slotBytes r e.slot 0 r.size)) ∧
          (r.filled = n + 1 → e.slot = n % r.def_.nslot →
            ((r'.slot e.slot).tagerr = true ↔ r.def_.chk = true ∧ e.coord ≠ r.def_.coord0 + BitVec.ofNat 32 n * r.def_.cstep)))) ∧
    (k.ring q = some r → r.rels = rel :: rs → rel.slot < r.slots.length →
      -- a slot that a fill of this cycle has found not EMPTY becomes EMPTY in a later one (R89)
      (s.cycle < rel.entered + Config.tQ ∨ r.clash = some (s.cycle, rel.slot) → Idles s (.slotReleaseDepart c q)) ∧
      (rel.entered + Config.tQ ≤ s.cycle → r.clash ≠ some (s.cycle, rel.slot) →
        let emptied := fun (t : State) => ∃ r', (t.core c).ring q = some r' ∧ r'.rels = rs ∧ r'.relDep = r.relDep + 1 ∧
          (r'.slot rel.slot).state = .empty ∧ ∀ i, i ≠ rel.slot → r'.slot i = r.slot i
        (r.fedBy = none → r.fedFar = none →
          EngineStep s (.slotReleaseDepart c q) c fun t => emptied t ∧ (t.core c).flow.hold = k.flow.hold) ∧
        (∀ y, r.fedBy = none → r.fedFar = some y → k.holdRoom 64 = true → EngineStep s (.slotReleaseDepart c q) c fun t => emptied t ∧
          (t.core c).flow.hold =
            k.flow.hold ++ [⟨.far y.port y.chip y.source y.circ none, .ring q, r.relDep, 0, s.cycle, 64, false, false⟩]) ∧
        (∀ y, r.fedBy = some y →
          (k.holdRoom 64 = false → Idles s (.slotReleaseDepart c q)) ∧
          (k.holdRoom 64 = true → EngineStep s (.slotReleaseDepart c q) c fun t => emptied t ∧
            (t.core c).flow.hold =
              k.flow.hold ++ [⟨.notice y.src y.circ y.branch y.opening, .ring q, r.relDep, 0, s.cycle, 64, false, false⟩]))))

/-- R264 to R266, R416: circuits open, take slots, move flits under credits, and close. The model's own choices in it: how a
slot is cut and which formats fault (log 40), and that a slot is read at one moment (log 55). -/
def Obligations.CircuitEvents : Prop :=
  ∀ (c d : CoreId) (n : CircNo) (b : Nat) (q : RingId) (size code op : Nat) (m : Msg) (r : Ring) (z : Branch) (h : Hold) (hs : List Hold)
    (f : Flit) (fs : List Flit) (tk : Taken) (br : Fin 16) (slot at_ : Nat) (y : Feed) (s1 s : State),
    let k := s.core c
    let x := circuit s c n
    let runs := k.enginesRun = true ∧ k.regs.freeze.ce = false
    (s.msg m.id = some m → m.hold.req = .opening n [(b, d)] none q size op →
      (¬ Arrived s m d → Idles s (.circuitOpeningArrive m.id)) ∧
      (Arrived s m d → (s.core d).holdRoom 64 = true → EngineStep s (.circuitOpeningArrive m.id) d fun t =>
        let replies := fun (v : Nat) => t.msg m.id = none ∧
          (t.core d).flow.hold = (s.core d).flow.hold ++ [⟨.reply m.src n b v op, .other, 0, 1, s.cycle, 64, false, false⟩]
        let lives := (circuit s m.src n).openings = op ∧ (circuit s m.src n).state ≠ .closed
        let takes := fun (r : Ring) => (s.core d).run.job ≠ none ∧ (s.core d).regs.asid = (s.core m.src).regs.asid ∧ r.fedBy = none ∧
          r.fedFar = none ∧ size ≤ r.size ∧ s.pairedSide m.src = s.pairedSide d
        ((s.core d).ring q = none → replies 0) ∧
        ((s.core d).ring q = some r → ¬ takes r → replies 0) ∧
        ((s.core d).ring q = some r → takes r → replies (r.empties + 1) ∧
          (lives → (t.core d).ring q = some { r with fedBy := some ⟨m.src, n, b, op, none, false⟩ }) ∧
          (¬ lives → (t.core d).ring q = some r)))) ∧
    (s.msg m.id = some m → m.hold.req = .reply c n b code op →
      (¬ Arrived s m c → Idles s (.circuitReplyArrive m.id)) ∧
      (Arrived s m c → EngineStep s (.circuitReplyArrive m.id) c fun t =>
        let y := circuit t c n
        t.msg m.id = none ∧ (x.openings ≠ op → y = x) ∧
        (x.openings = op →
          (branch s c n b = some z → branch t c n b = some { z with reply := some code, credit := z.credit + (code - 1) }) ∧
          (x.state = .opening → (∃ w ∈ y.branches, w.reply = none) → y.state = .opening) ∧
          (x.state = .opening → (∀ w ∈ y.branches, w.reply ≠ none) →
            ((∀ w ∈ y.branches, w.reply ≠ some 0) → y.state = .open_) ∧ ((∃ w ∈ y.branches, w.reply = some 0) → y.state = .refused)) ∧
          (x.state = .closing → code = 0 → y.state = .closed) ∧ (x.state = .closing → code ≠ 0 → y.state = .closing)))) ∧
    (s.msg m.id = some m → m.hold.req = .notice c n b op →
      (¬ Arrived s m c → Idles s (.freeNoticeArrive m.id)) ∧
      (Arrived s m c → branch s c n b = some z → EngineStep s (.freeNoticeArrive m.id) c fun t =>
        t.msg m.id = none ∧ (x.openings = op → branch t c n b = some { z with credit := z.credit + 1 }) ∧
          (x.openings ≠ op → branch t c n b = some z))) ∧
    (¬ runs → Idles s (.circuitFlitLeave c n)) ∧
    (runs → k.flow.hold = h :: hs → h.stream = .circuit n → h.req = .flit n f → h.entered + Config.tQ ≤ s.cycle →
      s.served (s.pmapOf c) = true → (∀ w ∈ x.branches, w.elastic.length < 16) → s.spineGrant (s.pmapOf c) c (x.branches.map x.dest) 1 = some s1 →
      EngineStep s (.circuitFlitLeave c n) c fun t =>
        (t.core c).flow.hold = hs ∧ (t.core c).flow.depCirc[n] = h.num + 1 ∧
        (circuit t c n).branches = x.branches.map (fun w => { w with elastic := w.elastic ++ [{ f with left := s.cycle, poison := f.poison || h.poison }] }) ∧
        (circuit t c n).sent = (if f.last then x.sent + 1 else x.sent) ∧
        (f.last = true → x.src = some q → f.slot = some slot → k.ring q = some r → slot ∉ r.ghosts →
          ∃ r', (t.core c).ring q = some r' ∧ r'.rels = r.rels ++ [⟨slot, s.cycle⟩])) ∧
    (runs → (∀ y ∈ k.flow.hold, y.stream ≠ .circuit n) →
      (x.cut = f :: fs → k.flow.depCirc[n] ≤ f.seq → k.holdRoom 64 = true → EngineStep s (.circuitFlitLeave c n) c fun t =>
        (circuit t c n).cut = fs ∧ (t.core c).flow.hold = k.flow.hold ++ [⟨.flit n f, .circuit n, f.seq, 1, s.cycle, 64, f.poison, false⟩]) ∧
      (x.cut = [] → x.src = some q → k.ring q = some r →
        x.state = .open_ ∨ (x.state = .closing ∧ x.early = false ∧ ∃ j, x.due = some j ∧ r.tookMade < j) → x.trap = none →
        (k.head q = none → Idles s (.circuitFlitLeave c n)) ∧
        (k.head q = some tk → tk.tag.tagerr = true → EngineStep s (.circuitFlitLeave c n) c fun t =>
          ∃ y, (circuit t c n).trap = some y ∧ y.cause = .ringState ∧ y.info = BitVec.ofNat 64 (q.val + 16 * tk.slot) ∧ y.src = .ce) ∧
        (k.head q = some tk → tk.tag.tagerr = false → tk.tag.fmt = 7 → EngineStep s (.circuitFlitLeave c n) c fun t =>
          ∃ y, (circuit t c n).trap = some y ∧ y.cause = .format ∧ y.info = BitVec.ofNat 64 (q.val + 16 * tk.slot) ∧ y.src = .ce) ∧
        (k.head q = some tk → tk.gone = false → tk.tag.tagerr = false → tk.tag.fmt ≠ 7 →
          (k.slotData r x.po tk.slot 0 r.size = none → Idles s (.circuitFlitLeave c n)) ∧
          (∀ bs bad, k.slotData r x.po tk.slot 0 r.size = some (bs, bad) → EngineStep s (.circuitFlitLeave c n) c fun t =>
            let w := tagWidth tk.tag.fmt
            let cs := unpackCodes w (8 * r.size / w) bs
            (circuit t c n).cut =
              (x.cutTile tk.tag.fmt.val x.ksz (rowRuns cs.length) cs tk.tag.coord tk.tag.fmt bad (some tk.slot) none).cut ∧
            (circuit t c n).tile = x.tile + 1 ∧ (circuit t c n).due = x.due ∧
            ∃ r', (t.core c).ring q = some r' ∧ r'.tookMade = r.tookMade + 1)))) ∧
    (branch s c n br.val = some z → z.elastic = f :: fs →
      let may := f.first = true ∧ z.filling = none ∧ z.credit ≠ 0
      let goes := fun (t : State) (i : Nat) => branch t c n br.val = some { z with credit := z.credit - 1, filling := some (f.tile, i) }
      (¬ may → Idles s (.branchFillBegin c n br)) ∧
      (may → x.remote = none → (s.core z.dst).ring x.dring = some r →
        let begins := EngineStep s (.branchFillBegin c n br) c fun t => goes t r.prod ∧
          ∃ r', (t.core z.dst).ring x.dring = some r' ∧ r'.filled = r.filled + 1 ∧ (r'.slot r.prod).state = .filling
        ((∀ y, r.fedBy = some y → y.is c n br.val = false) → EngineStep s (.branchFillBegin c n br) c fun t => goes t 64) ∧
        -- a guard on the way of its first flit drops the tile, and no fill begins (R379)
        (s.guard (s.pmapOf c) c (.core z.dst) ≠ none → EngineStep s (.branchFillBegin c n br) c fun t => goes t 64) ∧
        (s.guard (s.pmapOf c) c (.core z.dst) = none → r.fedBy = some y → y.is c n br.val = true → r.prod < r.slots.length →
          ((r.slot r.prod).state = .empty → (r.slot r.prod).by_ ≠ .again → begins) ∧
          ((r.slot r.prod).state = .held → r.rels = [⟨r.prod, at_⟩] → at_ + Config.tQ ≤ s.cycle → (s.core z.dst).holdRoom 64 = true → begins) ∧
          ((r.slot r.prod).state ≠ .empty → ((r.slot r.prod).state = .held → r.rels = []) →
            EngineStep s (.branchFillBegin c n br) c fun t => goes t 64 ∧
              ∃ y, (t.core z.dst).live.queues.fillTraps = (s.core z.dst).live.queues.fillTraps ++ [y] ∧ y.cause = .ringDoubleFill)))) ∧
    (branch s c n br.val = some z → z.elastic = f :: fs → z.filling = some (f.tile, slot) → x.remote = none →
      let due := f.left + 24 * edges c.die z.dst.die ≤ s.cycle
      (¬ due → Idles s (.circuitFlitArrive c n br)) ∧
      (due → s.guard (s.pmapOf c) c (.core z.dst) = none → (s.core z.dst).ring x.dring = some r →
        let gone := fun (t : State) => branch t c n br.val = some { z with elastic := fs, filling := if f.last then none else z.filling }
        ((slot < r.def_.nslot → (r.slot slot).state = .filling → (r.slot slot).by_ = .remote →
            ∀ y, r.fedBy = some y → y.is c n br.val = true → seenBefore y.landed f.seq = true) →
          EngineStep s (.circuitFlitArrive c n br) c fun t => gone t ∧ (t.core z.dst).ring x.dring = some r) ∧
        (slot < r.def_.nslot → (r.slot slot).state = .filling → (r.slot slot).by_ = .remote → r.fedBy = some y → y.is c n br.val = true →
          seenBefore y.landed f.seq = false → f.bytes ≠ [] →
          Occurs s (.circuitFlitArrive c n br) fun t => ∃ word, (∃ i v, (i, v) ∈ f.bytes ∧ i / 64 = word) ∧
            let before := (s.core z.dst).store.buf r.def_.buf
            let after := (t.core z.dst).store.buf r.def_.buf
            t.mem = s.mem ∧ (t.core c).live.front = k.live.front ∧
            (∀ i v, (i, v) ∈ f.bytes → i / 64 = word → i < r.size → (∀ u, (i, u) ∈ f.bytes → u = v) → after.readByte (r.offset slot + i) = v) ∧
            (∀ a, (∀ i v, (i, v) ∈ f.bytes → i / 64 = word → i < r.size → a ≠ r.offset slot + i) → after.readByte a = before.readByte a) ∧
            ((∃ i v, (i, v) ∈ f.bytes ∧ i / 64 ≠ word) → (t.core z.dst).ring x.dring = some r ∧ branch t c n br.val =
              some { z with elastic := { f with bytes := f.bytes.filter fun u => u.1 / 64 != word } :: fs }) ∧
            ((∀ i v, (i, v) ∈ f.bytes → i / 64 = word) → gone t ∧ ∃ r', (t.core z.dst).ring x.dring = some r' ∧
              r'.fedBy = some { y with landed := some (f.seq % 2 ^ 32), poison := (f.poison || y.poison) && !f.last } ∧
              (f.last = true → slot < r.slots.length → (r'.slot slot).state = .full ∧ (r'.slot slot).coord = f.coord ∧
                (r'.slot slot).fmt = f.fmt ∧ (r'.slot slot).res = f.res ∧ (r'.slot slot).poison = (f.poison || y.poison)))))) ∧
    (s.net.find? (fun y => y.src == c && y.hold.req == .close n) = some m →
      let ready := x.state = .closed ∨ x.state = .closing ∧ x.early = false ∧ k.circQuiet n = true ∧
        ∀ q r j, x.src = some q → k.ring q = some r → x.due = some j → j ≤ r.tookMade
      (¬ ready → Idles s (.circuitClosed c n)) ∧
      (ready → EngineStep s (.circuitClosed c n) c fun t =>
        t.msg m.id = none ∧ (circuit t c n).state = .closed ∧ (circuit t c n).branches = [] ∧
          ∀ w ∈ x.branches, ∀ r', (t.core w.dst).ring x.dring = some r' → ∀ y, r'.fedBy = some y → ¬ (y.src = c ∧ y.circ = n)))

/-- R248 to R258, R366, R367: descriptors are read; a block of a copy is read, converted and written to memory, to a slot of a
ring or into its tile on a circuit, or its tile waits; the entry is DONE once every write has been performed, and its token
pushed. R92, R250 to R252: what the source gives, and the bytes that are written. The model's own choices in it: when RM = 3 takes
`ctl.round` (log 54), that a block is read at one moment and blocks in order (log 55), the order of the checks (log 17), and a
zero-skipped block whose header disagrees (log 53). -/
def Obligations.CopyEvents : Prop :=
  ∀ (c : CoreId) (e : EntryNo) (sp : Space) (a : Nat) (bs vs : List Byte) (w : Word) (bad bad2 : Option Word) (isBad : Bool)
    (ps qs : List (List Piece)) (r : Ring) (j used : Nat) (codes sc : List Nat) (tk : Taken) (s1 s2 s : State),
    let k := s.core c
    let x := k.live.copies[e]
    let d := x.d
    let y := Desc.blk d x.pos
    let who := 16 + e.val
    let runs := k.enginesRun = true ∧ k.regs.freeze.ce = false
    let turn := ∀ f ∈ k.turnsBefore e, s.copyServes c f = false
    let moves := runs ∧ turn ∧ x.active = true ∧ x.pos < Desc.total d
    let entry := fun (t : State) => (t.core c).live.copies[e]
    (x.reading = some (sp, a) → x.readTrap = none →
      let reads := s.engineRead c who x.level x.vahi .load x.po sp (BitVec.ofNat 64 a) 256
      (¬ runs → Idles s (.cdefReadComplete c e)) ∧
      (runs → reads = .ok bs none s1 → EngineStep s (.cdefReadComplete c e) c fun t => (entry t).reading = none ∧
        ∃ ws, (entry t).desc = some ws ∧ ws.length = 32 ∧
          ∀ i < 32, ws.getD i 0 = BitVec.ofNat 64 (ofBytes ((bs.drop (8 * i)).take 8))) ∧
      (runs → reads = .ok bs (some w) s1 → EngineStep s (.cdefReadComplete c e) c fun t => (entry t).reading = some (sp, a) ∧
        (entry t).readTrap = some { cause := .poison, info := w })) ∧
    (¬ moves → Idles s (.copyBlock c e)) ∧
    -- a tile takes its source slot, or waits for it (R251)
    (moves → x.state = .run → Desc.skind d = 1 → x.sslot = none → Desc.dkind d = 0 →
      (k.head (Desc.sring d) = none → Idles s (.copyBlock c e)) ∧
      (k.head (Desc.sring d) = some tk → tk.tag.tagerr = true → EngineStep s (.copyBlock c e) c fun t =>
        (entry t).state = .fault ∧ ∃ z, (entry t).trap = some z ∧ z.cause = .ringState ∧
          z.info = BitVec.ofNat 64 ((Desc.sring d).val + 16 * tk.slot))) ∧
    -- what the source gives: memory, a slot, and a zero-skipped row (R92, R250, R251)
    (let wd := fieldWidth (Desc.sfmt d)
     let base := Desc.w d 2 + x.srcOff
     let row := (Desc.seo d : Int) + Desc.rowAt d (Desc.sstride d) y.row
     let at_ := fun (m : Int) => base + BitVec.ofInt 64 (if wd = 4 then m / 2 else m * ((wd / 8 : Nat) : Int))
     let read := fun (z : State) (a : Word) (n : Nat) => z.engineReadAll c who x.level x.vahi .load x.po (Desc.sspace d) (chunks64 n a n)
     let element := fun (nib : Nat) (bs : List Byte) (i : Nat) =>
       if wd = 4 then (bs.getD ((nib + i) / 2) 0).toNat / 16 ^ ((nib + i) % 2) % 16 else ofBytes ((bs.drop (wd / 8 * i)).take (wd / 8))
     let gives := fun (nib : Nat) (bs : List Byte) (bad : Option Word) (z : State) =>
       s.copySource c e x y = .ok ((List.range y.len).map (element nib bs)) bad 0 z
     (Desc.skind d = 0 → Desc.szs d = false →
       let nib := if wd = 4 then ((row + y.i0) % 2).toNat else 0
       read s (at_ (row + y.i0)) ((4 * nib + wd * y.len + 7) / 8) = .ok bs bad s1 → gives nib bs bad s1) ∧
     (Desc.skind d = 1 → k.ring (Desc.sring d) = some r → x.sslot = some j → (r.slot j).fmt ≠ 7 →
       let nib := if wd = 4 then y.toff % 2 else 0
       k.slotData r x.po j (wd * y.toff / 8) ((wd * (nib + y.len) + 7) / 8) = some (bs, isBad) →
       gives nib bs (if isBad then some (BitVec.ofNat 64 ((Desc.sring d).val + 16 * j)) else none) s) ∧
     (Desc.skind d = 0 → Desc.szs d = true → read s (at_ row + BitVec.ofNat 64 x.zsSrc) 16 = .ok bs bad s1 →
       let hdr := ofBytes (bs.take 8)
       let bm := ofBytes (bs.drop 8)
       let nnz := hdr / 2 ^ 28 % 128
       let n := (nnz * wd + 63) / 64 * 8
       let present := fun (i : Nat) => bm.testBit i
       let count := fun (i : Nat) => (List.range i).countP present
       (hdr % 8 = 7 → s.copySource c e x y = .fault .format (at_ row + BitVec.ofNat 64 x.zsSrc) s1) ∧
       (hdr % 8 ≠ 7 → read s1 (at_ row + BitVec.ofNat 64 x.zsSrc + 16) n = .ok vs bad2 s2 → count 64 = nnz → y.len = 64 → hdr / 2 ^ 35 = 0 →
         let out := (List.range 64).map fun i => if present i then element 0 vs (count i) else zeroField (Desc.sfmt d)
         residue (packCodes wd out) = hdr / 16 % 256 →
         s.copySource c e x y = .ok out (if bad.isSome then bad else bad2) (16 + n) s2) ∧
       (hdr % 8 ≠ 7 → read s1 (at_ row + BitVec.ofNat 64 x.zsSrc + 16) n = .ok vs bad2 s2 → count 64 ≠ nnz →
         ∃ out, s.copySource c e x y = .ok out (some (at_ row + BitVec.ofNat 64 x.zsSrc)) (16 + n) s2))) ∧
    -- the scale byte of a block (R251)
    ((Desc.sce d ≠ 1 → s.copyScale c e x y = .ok [127] none 0 s) ∧
     (Desc.sce d = 1 → Desc.skind d = 0 →
       s.engineRead c who x.level x.vahi .load x.po (Desc.sspace d)
         (Desc.scaddr d + BitVec.ofNat 64 ((Desc.extent d 0 + 63) / 64 * y.row + y.b)) 1 = .ok bs bad s1 →
       s.copyScale c e x y = .ok (bs.map (·.toNat)) bad 0 s1) ∧
     (Desc.sce d = 1 → Desc.skind d = 1 → k.ring (Desc.scring d) = some r → x.cslot = some j →
       k.slotData r x.po j (y.toff / Desc.extent d 0 * ((Desc.extent d 0 + 63) / 64) + y.b) 1 = some (bs, isBad) →
       s.copyScale c e x y = .ok (bs.map (·.toNat)) (if isBad then some (BitVec.ofNat 64 ((Desc.scring d).val + 16 * j)) else none) 0 s)) ∧
    -- the conversion (R190, R251)
    (∀ (rm : RMode) (z : Nat),
      (Desc.sfmt d = Desc.dfmt d → (x.convert rm codes z).codes = codes ∧ (x.convert rm codes z).scales = [] ∧
        (x.convert rm codes z).flags = 0 ∧ (x.convert rm codes z).rsr = x.rsr) ∧
      (Desc.sfmt d ≠ Desc.dfmt d → rm ≠ .rsr →
        let vs := codes.map fun i => if Desc.sce d = 1 then (decField (Desc.sfmt d) i).scaled z else decField (Desc.sfmt d) i
        let q := if Desc.sce d = 2 then (blockScale (Fin.ofNat 8 (Desc.dfmt d)) vs).1 else if Desc.sce d = 3 then Desc.scale d else 127
        (x.convert rm codes z).scales = (if Desc.sce d = 2 then [q] else []) ∧ (x.convert rm codes z).codes.length = codes.length ∧
        ∀ i < codes.length, keepsNan (Desc.sfmt d) (Desc.dfmt d) z (codes.getD i 0) = false →
          let one : Conv := ⟨[], [], 0, x.rsr⟩
          (x.convert rm codes z).codes[i]? = (one.element (Desc.dfmt d) rm (Desc.sat d) q (vs.getD i .nan)).codes[0]?)) ∧
    -- a block is written
    (let s0 := s.modCore c fun k => k.modCopy e fun x => { x with state := .run }
     let x0 := { x with state := .run }
     let wd := fieldWidth (Desc.dfmt d)
     let v := x0.convert (roundMode (rndOf (Desc.rm d)) (s.front c).regs.round) codes (sc.headD 127)
     let out := packCodes wd v.codes
     moves → (Desc.skind d = 1 → x.sslot ≠ none) → (Desc.dkind d = 1 → x.demand = false ∧ x.dslot = some (some j)) →
     (Desc.dkind d = 2 → y.toff ≠ 0) → k.flow.depCopy[e] ≤ x.seq →
     s0.copyChecks c e x0 (x0.touches y 16 16) = .ok ps → s0.copyScale c e x0 y = .ok sc none 0 s1 →
     s1.copySource c e x0 y = .ok codes bad used s2 →
     s0.copyChecks c e x0 (x0.touches y used (x0.target y v).len) = .ok ps →
     let counted := fun (t : State) => (entry t).seq = x.seq + 1 ∧ (t.core c).live.served = e ∧ (entry t).pos = x.pos + y.len ∧
       (entry t).flags = x.flags ||| (v.flags &&& (fNX ||| fFSAT ||| fISAT ||| fNANLOST)) ∧ (entry t).rsr = v.rsr
     let writes := fun (P : State → Prop) => EngineStep s (.copyBlock c e) c fun t => counted t ∧ P t
     (bad = some w → k.regs.poisonCont = false → EngineStep s (.copyBlock c e) c fun t =>
        (entry t).state = .fault ∧ (entry t).pos = x.pos ∧ ∃ z, (entry t).trap = some z ∧ z.cause = .poison ∧ z.info = w ∧ z.src = .ce) ∧
     (bad = none → Desc.dkind d = 0 → v.scales = [] →
       let sp := Desc.dspace d
       let base := Desc.w d 3 + x.dstOff
       let row := (Desc.deo d : Int) + Desc.rowAt d (Desc.dstride d) y.row
       let place := fun (m : Int) => base + BitVec.ofInt 64 (if wd = 4 then m / 2 else m * ((wd / 8 : Nat) : Int))
       let plain := place (row + y.i0)
       let n := wd * y.len / 8
       let whole := wd = 4 → (row + y.i0) % 2 = 0 ∧ y.len % 2 = 0
       let check := fun (acc : Access) (xs : List (Word × Nat)) => (s2.asParty c who).memCheck c x.level x.vahi sp acc 1 false xs = .ok qs
       let sent := fun (us : List WUnit) => (Req.copyWrite e us (Fin.ofNat 5 (Desc.red d)) x.bar).size
       let joins := fun (us : List WUnit) => k.holdRoom (sent us) = true → writes fun t => (t.core c).flow.hold = k.flow.hold ++
         [⟨.copyWrite e us (Fin.ofNat 5 (Desc.red d)) x.bar, .copy e, x.seq, 1, s.cycle, sent us, false, x.level == .m⟩]
       -- into a buffer: each byte ages there, in its place
       (Desc.red d = 0 → Desc.dzs d = false → sp ≠ .g → whole → check .store (chunks64 n plain n) →
         writes fun t => ∀ z ∈ (qs.flatten.flatMap fun p => List.range' p.addr p.n).zip out,
           ∃ g ∈ (t.core c).store.aging, some g.buf = spaceBuf sp ∧ g.party = .copy e x.seq ∧ g.entered = s.cycle ∧ z ∈ g.bytes) ∧
       -- to memory: one unit for an element, with its bytes
       (Desc.red d = 0 → Desc.dzs d = false → sp = .g → whole → check .store (grains n (max 1 (wd / 8)) plain n) →
         joins (unitsAt qs.flatten out)) ∧
       -- zero-skipped: the header, the bitmap and the values present, 8 bytes each (R92)
       (Desc.red d = 0 → Desc.dzs d = true → sp = .g →
         let present := fun (i : Nat) => decide (i < v.codes.length) && presentElem (Desc.dfmt d) (Desc.ksz d) (v.codes.getD i 0)
         let kept := v.codes.filter (presentElem (Desc.dfmt d) (Desc.ksz d))
         let full := v.codes.map fun z => if presentElem (Desc.dfmt d) (Desc.ksz d) z then z else zeroField (Desc.dfmt d)
         let hdr := kept.length * 2 ^ 28 + residue (packCodes wd full) * 16 + (if Desc.ksz d then 8 else 0) +
           (if Desc.dfmt d ≤ 6 then Desc.dfmt d else 0)
         let map := ((List.range 64).map fun i => if present i then 2 ^ i else 0).sum
         let values := packCodes wd kept
         let block := toBytes 8 hdr ++ toBytes 8 map ++ values ++ List.replicate ((8 - values.length % 8) % 8) 0
         let at_ := place row + BitVec.ofNat 64 x.zsDst
         y.len ≤ 64 → v.codes.length = y.len → check .store (grains block.length 8 at_ block.length) →
         joins (unitsAt qs.flatten block)) ∧
       -- a reducing write: one unit of four bytes for each element
       (Desc.red d ≠ 0 → Desc.dzs d = false → wd = 32 → sp = .g → check .rmw (grains y.len 4 plain (4 * y.len)) → joins (redUnits qs out))) ∧
     (bad = none → Desc.dkind d = 1 → (wd = 4 → y.toff % 2 = 0 ∧ y.len % 2 = 0) → v.scales = [] → k.ring (Desc.dring d) = some r → Desc.sce d ≠ 2 →
       writes fun t => ∀ (i : Nat) (b : Byte), out[i]? = some b →
         ∃ g ∈ (t.core c).store.aging, g.buf = r.def_.buf ∧ g.party = .copy e x.seq ∧ g.entered = s.cycle ∧
           (r.offset j + wd * y.toff / 8 + i, b) ∈ g.bytes) ∧
     (bad = none → Desc.dkind d = 2 → v.scales = [] → (k.live.circuits[Desc.circ d]).openings = x.opening →
       (k.live.circuits[Desc.circ d]).state = .open_ ∨ (k.live.circuits[Desc.circ d]).state = .closing →
       (y.lastOfTile = false → writes fun t => (entry t).acc = x.acc ++ v.codes ∧ (t.core c).live.circuits = k.live.circuits) ∧
       (y.lastOfTile = true → Desc.skind d = 0 → writes fun t => (entry t).acc = [] ∧
         let z := k.live.circuits[Desc.circ d]
         let n := z.cutTile (Desc.dfmt d) (Desc.ksz d) (Desc.tileRuns d) (x.acc ++ v.codes) (Desc.coord d y.tile)
           (if Desc.dfmt d ≤ 6 then Fin.ofNat 8 (Desc.dfmt d) else 0) x.tilePoison none (some e)
         (circuit t c (Desc.circ d)).cut = n.cut ∧ (circuit t c (Desc.circ d)).seq = n.seq ∧ (circuit t c (Desc.circ d)).tile = z.tile + 1))) ∧
    (let ends := runs ∧ x.active = true ∧ s.copyPerformed c e = true
     let f : Fin 8 := if Desc.cmpl d = 2 then 0 else 7
     (¬ ends → Idles s (.copyDone c e) ∧ Idles s (.copyCompletionTokenPush c e)) ∧
     (ends → Desc.cmpl d < 2 → Idles s (.copyCompletionTokenPush c e) ∧
       EngineStep s (.copyDone c e) c fun t => (entry t).state = .done ∧ (pool t c).fifo = (pool s c).fifo) ∧
     (ends → 2 ≤ Desc.cmpl d → Idles s (.copyDone c e) ∧
       ((pool s c).fifo[f] = 16 → Idles s (.copyCompletionTokenPush c e)) ∧
       ((pool s c).fifo[f] ≠ 16 → EngineStep s (.copyCompletionTokenPush c e) c fun t => (entry t).state = .done ∧
         ∀ i : Fin 8, ((pool t c).fifo[i]).val = ((pool s c).fifo[i]).val + if i = f then 1 else 0)))

namespace Sys2Proof.Claims

open Sys2Proof.Machine

/-- The walker of a core, and what it holds beside its words. -/
def walker (s : State) (c : CoreId) : Walker := (s.core c).live.walker
def wctx (s : State) (c : CoreId) : WalkerCtx := (s.core c).live.wctx
/-- The walker reads n bytes of its felt from an offset (R287). -/
def feltRead (s : State) (c : CoreId) (off n : Nat) : EngRead :=
  let a := (walker s c).felt + BitVec.ofNat 64 off
  s.engineReadAll c 2 (wctx s c).level (wctx s c).vahi .felt (wctx s c).po .g (chunks64 n a n)
/-- The walker stops with a fault (R286, R288): it is suspended where it stands. -/
def Suspends (s : State) (i : Instr) (c : CoreId) (cause : Cause) (info : Word) (phase : Fin 4) : Prop :=
  EngineStep s i c fun t => (walker t c).state = .susp ∧ (walker t c).cause.toNat = cause.code ∧ (walker t c).phase = phase ∧
    (walker t c).felt = (walker s c).felt ∧ ∃ z, (wctx t c).trap = some z ∧ z.cause = cause ∧ z.info = info ∧ z.src = .bw ∧ z.word = (wctx s c).word
/-- The walker waits (R286). -/
def WalkerWaits (s : State) (i : Instr) (c : CoreId) (w : WWait) : Prop :=
  EngineStep s i c fun t => (walker t c).state = .wait ∧ (wctx t c).wait = w ∧ (walker t c).phase = (walker s c).phase
/-- The walker stands at the beginning of its next felt (R281). -/
def NextFelt (s t : State) (c : CoreId) (a : Word) (stack : List Word) (b0 b1 : BitVec 32) : Prop :=
  let w := walker t c
  w.felt = a ∧ w.state = .run ∧ w.phase = 0 ∧ w.stack = stack ∧ w.b0 = b0 ∧ w.b1 = b1 ∧ w.nfelt = ((walker s c).nfelt + 1) % 2 ^ 24 ∧
    w.boff = 0 ∧ w.voff = 0 ∧ w.blk = 0 ∧ w.run = 0 ∧ w.elem = 0 ∧ w.racc = 0 ∧ (wctx t c).asked = s.cycle ∧ (wctx t c).hdr = []
/-- A queue with one more entry. -/
def Placed (s t : State) (c : CoreId) (x : PoolQ) (op : QOp) (tok : Tok) : Prop :=
  ∃ e, (pool t c).queue x = (pool s c).queue x ++ [e] ∧ e.op = op ∧ e.tok = tok ∧ e.popped = false ∧ e.step = 0 ∧ e.trap = none ∧
    e.level = (wctx s c).level ∧ e.word = (wctx s c).word

end Sys2Proof.Claims

/-- R270 to R288: a felt's header is read and checked, its action placed, a LOADW payload consumed block by block, the
tokens of a TOKEN felt popped and pushed, and its successor taken. The model's own choices in it: what a walk does beside its
felts (log 18), and that a header, and a block, is read at one moment (log 55). -/
def Obligations.WalkerEvents : Prop :=
  ∀ (c : CoreId) (bs : List Byte) (info : Word) (cause : Cause) (q : PoolQ) (op : QOp) (tok : Tok) (f a : Word) (fmt : Fin 8)
    (fc nc : Nat) (e : QEntry) (es : List QEntry) (gs : List Group) (g : Group) (b len : Nat) (ws : List Word) (ret : Word)
    (d : SReg) (tag : TagId) (r : Ring) (bad : Option Word) (ms : List Bool) (n : Nat) (s1 s : State),
    let k := s.core c
    let w := walker s c
    let x := wctx s c
    let h : Felt := x.hdr
    let m := k.store.maquette
    let seq := w.felt + 64 + BitVec.ofNat 64 (64 * ((Felt.plen h + 63) / 64))
    let tgt := w.felt + BitVec.ofNat 64 (64 * ((Felt.w h 2).toNat / 16))
    let tokenDone := Felt.bop h ≠ 6 ∨ Felt.queue h ≠ 0 ∨ x.placed = 2
    let none4 : Tok := ⟨false, false, false, false⟩
    let idleAt := fun (i : Instr) (phase : Fin 4) => k.walking phase = false → Idles s i
    idleAt (.feltHeaderRead c) 0 ∧ idleAt (.feltActionPlace c) 1 ∧ idleAt (.feltSuccessor c) 2 ∧
    idleAt (.tagbrResolve c) 2 ∧
    (AtHead s c .k e es → e.op = .wfelt f a fmt fc nc →
      (e.step ≠ 4 → k.walking 1 = false ∨ x.placed = 0 ∨ Felt.bop h ≠ 2 ∨ f ≠ w.felt ∨ e.po ≠ x.entry → Idles s (.loadwBlock c)) ∧
      (e.step = 4 → e.doneAt = some n → (s.cycle < n → Idles s (.loadwBlock c)) ∧
        (n ≤ s.cycle → signalRoom s c .k e.tok → EngineStep s (.loadwBlock c) c fun t => Finished s t c .k e es))) ∧
    (k.walking 0 = true →
      let hw : Felt := (List.range 8).map fun i => BitVec.ofNat 64 (ofBytes ((bs.drop (8 * i)).take 8))
      (s.cycle < x.asked + 300 → Idles s (.feltHeaderRead c)) ∧
      (x.asked + 300 ≤ s.cycle →
        (feltRead s c 0 64 = .ok bs (some info) s1 → Suspends s (.feltHeaderRead c) c .poison info 0) ∧
        (feltRead s c 0 64 = .ok bs none s1 →
          (Felt.check hw w.felt = some (cause, info) → Suspends s (.feltHeaderRead c) c cause info 0) ∧
          (Felt.check hw w.felt = none → EngineStep s (.feltHeaderRead c) c fun t => (wctx t c).hdr = hw ∧ (wctx t c).placed = 0 ∧
            (walker t c).phase = 1 ∧ (walker t c).state = .run ∧ (walker t c).felt = w.felt ∧
            (walker t c).bop = BitVec.ofNat 8 (Felt.bop hw))))) ∧
    (k.walking 1 = true →
      let full := (pool s c).k.length = 32
      (Felt.bop h = 7 → EngineStep s (.feltActionPlace c) c fun t => (walker t c).phase = 2 ∧ (pool t c) = pool s c) ∧
      (Felt.bop h = 3 → x.placed = 0 → (full → WalkerWaits s (.feltActionPlace c) c (.queue .k)) ∧
        ((pool s c).k.length < 32 → w.racc % 255 = Felt.res h → EngineStep s (.feltActionPlace c) c fun t =>
          Placed s t c .k (.plane (Felt.plane h)) none4 ∧ (walker t c).phase = 2 ∧ (pool t c).genD = (pool s c).genD + 1)) ∧
      (Felt.entry h w.felt = some (q, op, tok) → Felt.bop h ≠ 1 → Felt.bop h ≠ 7 → x.placed = 0 → ((pool s c).queue q).length < 32 →
        EngineStep s (.feltActionPlace c) c fun t => Placed s t c q op tok ∧
          (Felt.bop h = 2 → (walker t c).phase = 1 ∧ (wctx t c).placed = 1) ∧
          (Felt.bop h ≠ 2 → w.racc % 255 = Felt.res h → (walker t c).phase = 2 ∧ (walker t c).state = .run) ∧
          (Felt.bop h ≠ 2 → w.racc % 255 ≠ Felt.res h → (walker t c).reserr = true ∧ (walker t c).state = .susp ∧
            ∃ z, (wctx t c).trap = some z ∧ z.cause = .wblock ∧ z.info = w.felt)) ∧
      (Felt.bop h = 1 → x.placed < Felt.count h →
        (full → WalkerWaits s (.feltActionPlace c) c (.queue .k)) ∧
        ((pool s c).k.length < 32 → EngineStep s (.feltActionPlace c) c fun t =>
          Placed s t c .k (.carve (Felt.w h (4 + x.placed)) 0 (x.placed == 0 && Felt.plane h)) none4 ∧
          (wctx t c).placed = x.placed + 1 ∧ (walker t c).phase = 1)) ∧
      (x.placed ≠ 0 → AtHead s c .k e es → e.op = .wfelt f a fmt fc nc → f = w.felt → e.po = x.entry → Felt.bop h = 2 →
        (e.step = 0 → s.wloadGroups c a = none → Stops s (.loadwBlock c) c .k e es .bounds f) ∧
        (s.wloadGroups c a = some gs → newPlanes s c →
          (e.step = 0 → Felt.scl h = false → badWeightFmt (Felt.fmt h) false gs = false →
            gs.head?.map (·.cell0) = some (Felt.fcell h) → (gs.map (·.len)).sum = Felt.ncell h → EngineStep s (.loadwBlock c) c fun t =>
              (t.core c).store = k.store ∧ Heads t c .k { e with step := 1 } es) ∧
          (e.step = 3 → Felt.cmp h = 0 → Felt.scl h = false → tagWidth (Felt.fmt h) = 8 → e.pos = 0 → blockAt gs w.blk = some (g, b, len) →
            (s.feltPieces c (chunks64 len (k.payload w.voff) len) = (.ok bs bad s1, ms) → bs.length = len → bad = none ∨ k.regs.poisonCont = false →
              EngineStep s (.loadwBlock c) c fun t =>
              Maquette s t c (m.putBlock g (Felt.wslot h) (Felt.fmt h) b (bs.map (·.toNat))
                ((List.range len).map fun i => ms.getD i false) none) ∧
              (walker t c).blk = w.blk + 1 ∧ (walker t c).voff = w.voff + len ∧ (walker t c).elem = w.elem + len ∧
              (walker t c).racc = (w.racc + residue bs) % 255 ∧ (walker t c).phase = 1)) ∧
          (e.step = 3 → Felt.cmp h = 0 → blockAt gs w.blk = none → w.racc % 255 = Felt.res h → w.voff = Felt.plen h →
            EngineStep s (.loadwBlock c) c fun t => (walker t c).phase = 2 ∧ (walker t c).state = .run ∧
              Heads t c .k { e with step := 4, doneAt := some (max s.cycle (e.began.getD 0 + 4 +
                ((gs.map fun g => g.streamLen (Felt.fmt h) (Felt.scl h)).sum + 1023) / 1024)) } es ∧
              Maquette s t c (m.setFormats (Felt.fgrp h) gs.length (Felt.wslot h) (Felt.fmt h) (Felt.scl h)))))) ∧
    (Felt.bop h ≠ 6 ∨ Felt.queue h ≠ 0 → Idles s (.walkerToken c)) ∧
    (Felt.bop h = 6 → Felt.queue h = 0 →
      let t0 := Felt.tok h
      let q0 := pool s c
      let there := (t0.wp = true → q0.fifo[3] ≠ 0) ∧ (t0.wn = true → q0.fifo[4] ≠ 0)
      (k.walking 1 = true →
        (¬ there → WalkerWaits s (.walkerToken c) c .token) ∧
        (there → EngineStep s (.walkerToken c) c fun t => (walker t c).phase = 2 ∧ (wctx t c).placed = 0 ∧
          ∀ j : Fin 8, ((pool t c).fifo[j]).val =
            (q0.fifo[j]).val - if (t0.wp = true ∧ j = 3) ∨ (t0.wn = true ∧ j = 4) then 1 else 0)) ∧
      (k.walking 2 = true → x.placed = 0 →
        (t0.sp = true → q0.fifo[7] = 16 → Suspends s (.walkerToken c) c .tokenOver 7 2) ∧
        ((t0.sp = true → q0.fifo[7] ≠ 16) → (t0.sn = true → q0.fifo[0] ≠ 16) → w.racc % 255 = Felt.res h →
          EngineStep s (.walkerToken c) c fun t => (walker t c).phase = 2 ∧ (wctx t c).placed = (if Felt.bar h then 1 else 2) ∧
            ∀ j : Fin 8, ((pool t c).fifo[j]).val =
              (q0.fifo[j]).val + if (t0.sp = true ∧ j = 7) ∨ (t0.sn = true ∧ j = 0) then 1 else 0))) ∧
    (k.walking 2 = true → tokenDone →
      let goes := fun (a : Word) (stack : List Word) (b0 b1 : BitVec 32) =>
        EngineStep s (.feltSuccessor c) c fun t => NextFelt s t c a stack b0 b1
      let cnt := if Felt.ctr h then w.b1 else w.b0
      let left := (if cnt = 0 then BitVec.ofNat 32 (Felt.count h) else cnt) - 1
      let n := if cnt = 0 ∧ Felt.count h = 0 then 0 else left
      (Felt.succ h = 0 → goes seq w.stack w.b0 w.b1) ∧ (Felt.succ h = 1 → goes tgt w.stack w.b0 w.b1) ∧
      (Felt.succ h = 2 → goes (if n = 0 then seq else tgt) w.stack (if Felt.ctr h then w.b0 else n) (if Felt.ctr h then n else w.b1)) ∧
      (Felt.succ h = 3 → w.stack.length < 4 → goes tgt (w.stack ++ [seq]) w.b0 w.b1) ∧
      (Felt.succ h = 3 → 4 ≤ w.stack.length → Suspends s (.feltSuccessor c) c .wblock (w.felt + 16) 2) ∧
      (Felt.succ h = 4 → w.stack = [] → Suspends s (.feltSuccessor c) c .wblock (w.felt + 16) 2) ∧
      (Felt.succ h = 4 → w.stack = ws ++ [ret] → goes ret ws w.b0 w.b1) ∧
      (Felt.succ h = 5 → k.live.front.at_.wait = .wdrive d tag → k.logged = none → Occurs s (.feltSuccessor c) fun t =>
        (walker t c).state = .idle ∧ (walker t c).end_ = 1 ∧ (walker t c).b0 = w.b0 ∧ (walker t c).b1 = w.b1 ∧ (walker t c).stack = w.stack ∧
        (t.front c).at_.wait = .none ∧ (t.front c).at_.po = (s.front c).at_.po + 1 ∧ SameBytes s t ∧
        ∃ p, (t.front c).tags[tag] = some p ∧ p.dst = some (.s d) ∧ p.fixed = false ∧ p.value = some (wordOf ((walker t c).word 0))) ∧
      (Felt.succ h = 6 → Idles s (.feltSuccessor c)) ∧ (Felt.succ h ≠ 6 → Idles s (.tagbrResolve c)) ∧
      (Felt.succ h = 6 → k.ring (Felt.aring h) = none →
        Suspends s (.tagbrResolve c) c .ringState (BitVec.ofNat 64 (Felt.aring h).val) 2) ∧
      (Felt.succ h = 6 → k.ring (Felt.aring h) = some r → (pool s c).slotsDue (Felt.aring h) = 0 → r.tookMade = r.taken → r.viewNo = r.defNo →
        (∀ g ∈ k.flow.gone, g.ring = Felt.aring h → g.defNo = r.defNo → g.num ≠ r.taken) →
        let z := r.slot r.cons
        (z.state ≠ .full → WalkerWaits s (.tagbrResolve c) c (.slot (Felt.aring h) r.cons)) ∧
        (z.state = .full → r.taken < r.filled → z.tagerr = true →
          Suspends s (.tagbrResolve c) c .ringState (BitVec.ofNat 64 ((Felt.aring h).val + 16 * r.cons)) 2) ∧
        (z.state = .full → r.taken < r.filled → z.tagerr = false → EngineStep s (.tagbrResolve c) c fun t =>
          NextFelt s t c (if z.coord &&& BitVec.ofNat 32 (bits (Felt.w h 7) 32 32) = BitVec.ofNat 32 (bits (Felt.w h 7) 0 32) then tgt else seq)
            w.stack w.b0 w.b1)))

namespace Sys2Proof.Claims

open Sys2Proof.Machine

/-- A miss of a core waits for a walk slot. -/
def waitsForWalk (s : State) (c : CoreId) : Prop := ∃ m ∈ (s.core c).misses, m.walking = false ∧ m.failed = false
/-- The core i places after another one on its die, round the die. -/
def around (last : CoreId) (d : DieId) (i : Nat) : CoreId := Fin.ofNat 256 (64 * d.val + (last.val + i) % 64)
/-- An event that occurs and changes no byte of memory. -/
def KeepsMemory (s : State) (i : Instr) (P : State → Prop) : Prop := Occurs s i fun t => SameBytes s t ∧ P t
/-- The job that a launch gives a core (R37). -/
def Assigned (s t : State) (l : Launch) (c : CoreId) : Prop :=
  ∃ j, (t.core c).run.job = some j ∧ j.part = l.part ∧ j.launch = l.id ∧ j.iter = none ∧ j.fresh = true ∧ j.wbKib = l.lrec.wbKib ∧
    j.abKib = l.lrec.abKib ∧ j.cbKib = l.lrec.cbKib ∧ (j.clearing = false ↔ (s.core c).run.lastAsid = some l.asid) ∧
    (t.core c).regs.asid = l.asid ∧
    (t.core c).live.rings = if (s.core c).run.lastAsid = some l.asid then l.lrec.ringsOf else .replicate 16 none

end Sys2Proof.Claims

/-- R341 to R349: walk slots are granted round-robin; a walk installs the leaf of its context's tables, or fails; entries
leave a TLB. The model's own choices in it: how a walk reads its entries, and when an entry leaves (log 24). -/
def Obligations.TranslationEvents : Prop :=
  ∀ (d : DieId) (c : CoreId) (n i : Nat) (m : Miss) (pre post : List Miss) (l : Leaf) (s1 s : State),
    let k := s.core c
    (s.pkg.strictNow = false → s.walking d (fun _ => true) < 256 → i < 64 → c = around (s.mem.walkLast[d]) d (i + 1) →
      (∀ j < i, ¬ waitsForWalk s (around (s.mem.walkLast[d]) d (j + 1))) → k.misses = pre ++ m :: post →
      (∀ y ∈ pre, y.walking = true ∨ y.failed = true) → m.walking = false → m.failed = false →
      KeepsMemory s (.walkSlotGrant d) fun t =>
        (t.core c).misses = pre ++ { m with walking := true, since := s.cycle } :: post ∧ t.mem.walkLast[d] = c ∧
        ∀ e, e ≠ c → t.core e = s.core e) ∧
    (256 ≤ s.walking d (fun _ => true) ∨ s.pkg.strictNow = false ∧ (∀ e : CoreId, e.die = d → ¬ waitsForWalk s e) →
      Idles s (.walkSlotGrant d)) ∧
    (k.misses[n]? = some m →
      (m.walking = false → Idles s (.pageWalkComplete c n)) ∧
      (m.walking = true → s.mem.walkCache[c.die] = [] →
        (s.mayWalk m.asid = true → s.cycle < m.since + 60 → Idles s (.pageWalkComplete c n)) ∧
        (m.since + 4 * (60 + 48 * 2) ≤ s.cycle →
          (m.cancelled = true → KeepsMemory s (.pageWalkComplete c n) fun t =>
            (t.core c).misses = k.misses.eraseIdx n ∧ (t.core c).tlb = k.tlb) ∧
          (m.cancelled = false → s.takeNat.2.walkGrant c (s.missWalk c m (s.takeNat.1 % 16)).reads = none →
            Idles s (.pageWalkComplete c n)) ∧
          (m.cancelled = false → s.takeNat.2.walkGrant c (s.missWalk c m (s.takeNat.1 % 16)).reads = some s1 →
           (s.walk m.asid m.va = some l → KeepsMemory s (.pageWalkComplete c n) fun t =>
            (t.core c).misses = k.misses.eraseIdx n ∧ (t.core c).lookup m.asid m.va = some l) ∧
           (s.walk m.asid m.va = none → KeepsMemory s (.pageWalkComplete c n) fun t =>
            (t.core c).misses[n]? = some { m with walking := false, failed := true } ∧ (t.core c).tlb = k.tlb ∧
            t.mem.walkCache = s.mem.walkCache))))) ∧
    (k.misses[n]? = none → Idles s (.pageWalkComplete c n)) ∧
    KeepsMemory s (.tlbEntryLeave c n) (fun t => t = s.modCore c fun k => { k with tlb := k.tlb.eraseIdx n })

/-- R33 to R40, R46, R47, R326 to R331: doorbells, heads, grants, iterations, releases, completions, and the quiescence
detector. The model's own choices in it: a launch without iterations, and which cores are idle or wait (log 16), and when ITDONE is
written (log 45). -/
def Obligations.SchedulerEvents : Prop :=
  ∀ (p : PartId) (q : QueueNo) (c : CoreId) (l : Launch) (ls : List Launch) (a n : Nat) (v : Word) (y : Candidate) (cs : List CoreId)
    (j : Job) (b : Agent) (s : State),
    let x := s.part p
    let queue := x.queues[q]
    let k := s.core c
    let full := ∀ (i : QueueNo) z zs, x.queues[i].entries = z :: zs → z.lrec.iters ≠ 0
    (s.functionOn .pf = true →
      let e := (s.part (s.pmapOf c)).queues[(Fin.ofNat 64 v.toNat : QueueNo)]
      let addr := bits e.ctx 8 8 * 2 ^ 64 + v.toNat / 64 * 64
      s.walk (e.ctx.setWidth 8) addr = none →
        KeepsMemory s (.lqDoorWrite .pf c v) fun t => (t.part (s.pmapOf c)).dstat = BitVec.ofNat 64 (2 ^ 14 + v.toNat % 64 * 2 ^ 8 + 9) ∧
          ∀ i : QueueNo, (t.part (s.pmapOf c)).queues[i] = (s.part (s.pmapOf c)).queues[i]) ∧
    (s.functionOn .pf = false → Idles s (.lqDoorWrite .pf c v)) ∧
    (s.functionOn b = true → b = .pf ∨ b = .vf (s.pmapOf c) →
      let own := s.pmapOf c
      let no : QueueNo := Fin.ofNat 64 v.toNat
      let e := (s.part own).queues[no]
      let addr := bits e.ctx 8 8 * 2 ^ 64 + v.toNat / 64 * 64
      ∀ lf, s.walk (e.ctx.setWidth 8) addr = some lf → lf.permits .load .u = true →
        let pa := lf.pa + addr % (if lf.blk then 2 ^ 30 else 2 ^ 16)
        let r := s.enqueue own no ⟨pa, BitVec.ofNat 64 (v.toNat / 64 * 64), lf.cmp, e.ctx.setWidth 8, e.cfg.getLsbD 6⟩
        Occurs s (.lqDoorWrite b c v) fun t => (t.part own).dstat = BitVec.ofNat 64 (2 ^ 14 + v.toNat % 64 * 2 ^ 8 + r.1) ∧
          t.mem = r.2.mem ∧ t.cores = r.2.cores ∧ (t.part own).queues = (r.2.part own).queues ∧
          (r.1 = 0 → pa + 0x100 ≤ 2 ^ 39 → lf.cmp = false → t.mem.hbm.readByte (pa + 0x30) = 1 ∧
            ((t.part own).queues[no]).entries.length = e.entries.length + 1 ∧
            ((t.part own).queues[no]).ptr = BitVec.ofNat 64 ((bits e.ptr 32 32 + 1) % 2 ^ 32 * 2 ^ 32 + bits e.ptr 0 32)) ∧
          (r.1 = 1 ∨ r.1 = 2 → t.mem = s.mem) ∧
          (3 ≤ r.1 → pa + 0x100 ≤ 2 ^ 39 → lf.cmp = false → t.mem.hbm.readByte (pa + 0x30) = 5 ∧
            t.mem.hbm.readByte (pa + 0x31) = BitVec.ofNat 8 r.1)) ∧
    (queue.entries = l :: ls →
      (l.waitBar = none → Idles s (.waitbarRead p q)) ∧
      (l.waitBar = some a → s.served p = true → localHbm a = true → KeepsMemory s (.waitbarRead p q) fun t =>
        ((t.part p).queues[q]).seen = some ((s.peek (a + 16) 8).1.testBit 48) ∧ ((t.part p).queues[q]).entries = l :: ls)) ∧
    (∀ since, queue.since = some since →
      (s.cycle < since + 65536 → Idles s (.headStarving p q)) ∧
      (since + 65536 ≤ s.cycle → KeepsMemory s (.headStarving p q) fun t => ((t.part p).queues[q]).starving = true)) ∧
    (queue.entries = l :: ls → l.lrec.iters = 0 → (∀ i < q, ∀ z zs, x.queues[i].entries = z :: zs → z.lrec.iters ≠ 0) →
      KeepsMemory s (.schedulerGrant p) fun t => t.cores = s.cores ∧ (t.part p).grantAt = x.grantAt ∧
        ((t.part p).queues[q]).ptr = BitVec.ofNat 64 (bits queue.ptr 32 32 * 2 ^ 32 + (bits queue.ptr 0 32 + 1) % 2 ^ 32) ∧
        ((t.part p).queues[q]).entries = ls ∧ ∃ z ∈ (t.part p).running, z.id = l.id ∧ z.cores = []) ∧
    (full → s.served p = false ∨ x.grantAt = some s.cycle ∨ s.nextGrant p = none → Idles s (.schedulerGrant p)) ∧
    (full → s.served p = true → x.grantAt ≠ some s.cycle → s.nextGrant p = some (y, cs) → y.launch.lrec.paired = false →
      KeepsMemory s (.schedulerGrant p) fun t =>
        (t.part p).grantAt = some s.cycle ∧ (∀ e ∈ cs, Assigned s t y.launch e) ∧ (∀ e, e ∉ cs → t.core e = s.core e) ∧
        (y.head = some q → ((t.part p).queues[q]).ptr = BitVec.ofNat 64 (bits queue.ptr 32 32 * 2 ^ 32 + (bits queue.ptr 0 32 + 1) % 2 ^ 32) ∧
          ((t.part p).queues[q]).entries = queue.entries.drop 1 ∧ ∃ z ∈ (t.part p).running, z.id = y.launch.id ∧ z.cores = cs)) ∧
    (k.run.job = some j →
      (j.clearing = false → Idles s (.coreClearComplete c)) ∧
      (j.clearing = true → s.launchOf c = some l → Occurs s (.coreClearComplete c) fun t =>
        (t.core c).live.rings = l.lrec.ringsOf ∧ (∃ j', (t.core c).run.job = some j' ∧ j'.clearing = false ∧ j'.since = s.cycle) ∧
        (∀ (b : Buf) (i : Nat), ((t.core c).store.buf b).readByte i = 0) ∧ (t.core c).tlb = [] ∧ (t.core c).icache = [] ∧
        (∀ i : Fin 2, (t.core c).store.planes[i] = ⟨[], [], .replicate 4 none, []⟩) ∧
        (∀ e : EntryNo, ((t.core c).live.copies[e]).desc = none) ∧ t.mem = s.mem)) ∧
    (k.run.job = none → Idles s (.coreClearComplete c) ∧ Idles s (.iterationDispatch c) ∧ Idles s (.coreRelease c)) ∧
    (k.run.job = some j → s.launchOf c = some l → j.redo = [] →
      let may := s.firstWaiting l = some c ∧ l.next < l.lrec.iters ∧ (s.part l.part).switch.paused.contains l.asid = false
      (¬ may → Idles s (.iterationDispatch c)) ∧
      (may → l.lrec.paired = false → l.running = true → KeepsMemory s (.iterationDispatch c) fun t =>
        let f := t.front c
        let index := fun (i : Nat) => match l.lrec.dims[i]? with
          | some (ext, ord) => l.next / ((l.lrec.dims.filter fun e => decide (ord < e.2)).map (·.1)).prod % ext
          | none => 0
        f.at_.pc = l.lrec.code ∧ f.at_.idle = false ∧ f.at_.vahi = l.lrec.vahi ∧ f.level = .u ∧
        (∀ i < 8, f.regs.getS (Fin.ofNat 64 (48 + i)) = BitVec.ofNat 64 (index i)) ∧ f.regs.getS 56 = BitVec.ofNat 64 l.next ∧
        f.regs.getS 57 = l.lrec.param ∧
        (∀ r : SReg, r.val < 48 ∨ 57 < r.val → f.regs.getS r = if j.fresh then 0 else (s.front c).regs.getS r) ∧
        (∃ j', (t.core c).run.job = some j' ∧ j'.iter = some l.next) ∧
        (t.part l.part).running = (s.part l.part).running.map fun z => if z.id = l.id then { z with next := z.next + 1 } else z)) ∧
    (k.run.job = some j → s.launchOf c = some l →
      let may := j.iter = none ∧ j.redo = [] ∧ (if l.lrec.gang then l.ended = l.due else l.lrec.iters ≤ l.next) ∧ k.run.stop = .none ∧
        s.quietCore c = true
      (¬ may → Idles s (.coreRelease c)) ∧
      (may → KeepsMemory s (.coreRelease c) fun t => (t.core c).run.job = none ∧
        (t.part l.part).running = (s.part l.part).running.map fun z => if z.id = l.id then { z with cores := z.cores.filter (· ≠ c) } else z)) ∧
    (x.running.find? (fun z => z.id == n) = none → Idles s (.launchComplete p n)) ∧
    (x.running.find? (fun z => z.id == n) = some l → l.ended = l.lrec.iters → l.lrec.iters ≤ l.next → l.cores = [] → l.lrec.paired = false →
      l.doneBar = none → l.cmp = false → l.addr + 256 ≤ 2 ^ 39 → Occurs s (.launchComplete p n) fun t =>
        t.mem.hbm.readByte (l.addr + 0x30) = 3 ∧ (t.peek (l.addr + 0x32) 6).1 = l.lrec.iters % 2 ^ 48 ∧
        (∀ b, b ≠ l.addr + 0x30 → b < l.addr + 0x32 ∨ l.addr + 0x38 ≤ b → t.mem.hbm.readByte b = s.mem.hbm.readByte b) ∧
        (t.part p).running = x.running.filter (fun z => z.id ≠ n) ∧ t.cores = s.cores) ∧
    (s.quiescent p = false → KeepsMemory s (.deadlockDetect p) fun t => (t.part p).reported = false) ∧
    (s.quiescent p = true → x.reported = true → Idles s (.deadlockDetect p)) ∧
    (s.quiescent p = true → x.reported = false → x.logs.dlkBase.getLsbD 0 = false → x.logs.evaddr.getLsbD 0 = false →
      KeepsMemory s (.deadlockDetect p) fun t => (t.part p).reported = true ∧ (t.part p).logs.pevent = x.logs.pevent ||| 2)

/-- R323, R332 to R340: a core stops at its boundary, its slot is written, and it is loaded from one; a gang switch begins
at its package time and ends. The model's own choices in it: what a slot has no stated layout for, the program counter that a
slot of another device's save loads among it, and the place of a switch's parts in time (log 36). -/
def Obligations.ContextEvents : Prop :=
  ∀ (c : CoreId) (gang : Bool) (since : Nat) (asid : Byte) (img : Nat × Core) (cast : Cast) (older : List Cast) (p : PartId) (s : State),
    let k := s.core c
    let x := s.part p
    let own := s.part (s.pmapOf c)
    let stopped := fun (t : State) => (t.core c).run.stop = .stopped
    let s0 := s.abandonWait c
    (k.run.stop = .none → Idles s (.coreStop c) ∧ Idles s (.saveComplete c) ∧ Idles s (.loadComplete c)) ∧
    (k.run.stop = .asked gang since → s0.atBoundary c = true → KeepsMemory s (.coreStop c) fun t =>
      (t.core c).run.stop = .saving gang (max since s.cycle) ∧ (∀ l : LaneId, (t.core c).store.ops[l] = []) ∧
      ∃ z, (t.core c).casts.head? = some z ∧ z.live = (t.core c).live ∧ z.cyc = s.cycle ∧ z.usable = true) ∧
    (k.run.stop = .saving gang since →
      let a := s.slotAddr k.regs.asid c
      (s.cycle < since + 36608 → Idles s (.saveComplete c)) ∧
      (since + 36608 ≤ s.cycle → a + 0x8F0000 ≤ 2 ^ 39 → Occurs s (.saveComplete c) fun t => stopped t ∧
        (t.peek a 1).1 = 0xC5 ∧ (t.peek (a + 1) 1).1 = c.val ∧ (t.peek (a + 2) 1).1 = k.regs.asid.toNat ∧
        (t.peek (a + 8) 8).1 = s.ptime % 2 ^ 64 ∧
        (∀ i : SReg, (t.peek (a + 0x1000 + 8 * i.val) 8).1 = ((s.front c).regs.s[i]).toNat) ∧
        (∀ i < 10, (t.peek (a + 0x2C000 + 8 * i) 8).1 = (k.live.walker.word i).toNat) ∧
        (∀ i < 2 ^ 22, t.mem.hbm.readByte (a + 0x0F0000 + i) = k.store.wb.readByte i) ∧
        (∀ i < 3 * 2 ^ 20, t.mem.hbm.readByte (a + 0x4F0000 + i) = k.store.ab.readByte i) ∧
        (∀ i < 2 ^ 20, t.mem.hbm.readByte (a + 0x7F0000 + i) = k.store.cb.readByte i) ∧
        (∀ b, b < a ∨ a + 0x8F0000 ≤ b → t.mem.hbm.readByte b = s.mem.hbm.readByte b) ∧
        (gang = false → (t.part (s.pmapOf c)).ctxBusy.getLsbD c.val = false) ∧
        (gang = true → (t.part (s.pmapOf c)).switch.saves = own.switch.saves.filter (· ≠ c)))) ∧
    (k.run.stop = .loading asid false since →
      let a := s.slotAddr asid c
      (s.slotOk a c = false → KeepsMemory s (.loadComplete c) fun t => stopped t ∧
        (t.part (s.pmapOf c)).ctxErr.getLsbD c.val = true ∧ (t.part (s.pmapOf c)).ctxBusy.getLsbD c.val = false) ∧
      (s.slotOk a c = true → s.cycle < since + 36608 → Idles s (.loadComplete c)) ∧
      (s.slotOk a c = true → s.images.find? (fun z => z.1 == a) = none → since + 36608 ≤ s.cycle → Occurs s (.loadComplete c) fun t =>
        (t.core c).run.stop = .none ∧ (t.core c).regs.asid = asid ∧ (t.front c).at_.pc = s.takeWord.1 ∧
        (∀ i : SReg, (t.front c).regs.s[i] = BitVec.ofNat 64 (s.peek (a + 0x1000 + 8 * i.val) 8).1) ∧
        (t.core c).casts.length = 4 ∧ (∀ z ∈ (t.core c).casts, z.usable = true ∧ z.live.front.regs = (t.front c).regs) ∧ t.mem = s.mem) ∧
      (s.slotOk a c = true → s.images.find? (fun z => z.1 == a) = some img → img.2.casts = cast :: older →
        (since + 36608 ≤ s.cycle → Occurs s (.loadComplete c) fun t =>
          let h := (s.peek a 8).1
          (t.core c).run.stop = .none ∧ (t.core c).regs.asid = asid ∧
          (∀ i : SReg, (t.front c).regs.s[i] = BitVec.ofNat 64 (s.peek (a + 0x1000 + 8 * i.val) 8).1) ∧
          (t.front c).regs.fflags.toNat = (s.peek (a + 0x1000 + 8 * 1102) 8).1 % 256 ∧
          (t.front c).regs.seed.toNat = (s.peek (a + 0x1000 + 8 * 1104) 8).1 % 65536 ∧
          (t.core c).live.walker.felt = BitVec.ofNat 64 (s.peek (a + 0x2C008) 8).1 ∧
          (t.front c).at_.pc = img.2.live.front.at_.pc ∧ (t.core c).live.rings = img.2.live.rings ∧
          (t.core c).regs.freeze.fe = (h.testBit 25 || k.regs.freeze.fe) ∧ (t.core c).regs.freeze.ce = (h.testBit 26 || k.regs.freeze.ce) ∧
          (t.core c).regs.freeze.bw = (h.testBit 27 || k.regs.freeze.bw) ∧
          (t.core c).casts.length = 4 ∧ (∀ z ∈ (t.core c).casts, z.cyc = 0 ∧ z.ns = cast.ns ∧ z.usable = cast.usable ∧
            z.live.front.regs = (t.front c).regs ∧ z.live.rings = img.2.live.rings) ∧ (t.core c).misses = [] ∧
          (∀ i < 2 ^ 22, (t.core c).store.wb.readByte i = s.mem.hbm.readByte (a + 0x0F0000 + i)) ∧
          (∀ i < 3 * 2 ^ 20, (t.core c).store.ab.readByte i = s.mem.hbm.readByte (a + 0x4F0000 + i)) ∧
          (∀ i < 2 ^ 20, (t.core c).store.cb.readByte i = s.mem.hbm.readByte (a + 0x7F0000 + i)) ∧
          t.mem = s.mem ∧ (t.part (s.pmapOf c)).ctxBusy.getLsbD c.val = false))) ∧
    (x.switch.busy = false →
      let due := x.switchAt ≠ 0 ∧ x.switch.done = false ∧ x.switchAt.toNat ≤ s.ptime
      (¬ due → Idles s (.gangSwitch p)) ∧
      (due → KeepsMemory s (.gangSwitch p) fun t => (t.part p).switch.busy = true ∧ (t.part p).switch.done = false ∧
        x.from_ ∈ (t.part p).switch.paused ∧ (∀ q ∈ s.portsOf p, x.from_ ∈ t.ports[q].paused) ∧
        (∀ d : CoreId, s.freeCore p d = true → t.core d = s.core d) ∧
        ∀ d : CoreId, s.pmapOf d = p → (s.core d).regs.asid = x.from_ → (s.core d).run.stop = .none → (s.core d).run.inHold = false →
          s.freeCore p d = false → (t.core d).run.stop = .asked true s.cycle ∧ d ∈ (t.part p).switch.saves)) ∧
    (x.switch.busy = true → x.switch.written = false → x.switch.loads = [] →
      (∃ d ∈ x.switch.saves, ∃ gang since, (s.core d).run.stop = .asked gang since) → Idles s (.gangSwitch p)) ∧
    (x.switch.busy = true → x.switch.written = true → x.switch.saves = [] → x.switch.loads = [] → Occurs s (.gangSwitch p) fun t =>
      (t.part p).switch.busy = false ∧ (t.part p).switch.done = true ∧ t.cores = s.cores)

/-- R28, R355 to R369, R379, R380, R383, R385, R390, R413: casts and strike reports, resending, HBM errors, guard drops,
and the windows of the regulators. The model's own choices in it: what of a core survives a rollback or a lost log entry (log 20),
which errors there are (log 27), how often a load's flit has failed, and the places a drop can name (log 28). -/
def Obligations.ReliabilityEvents : Prop :=
  ∀ (c : CoreId) (time estimate j unit : Nat) (x : Cast) (b : SharedBlock) (m : Msg) (i : StackId) (drop : Drop) (kind : Fin 5)
    (ld : Load) (u : LoadUnit) (d : Dest) (s : State),
    let k := s.core c
    let due := (k.run.stop = .none ∨ ∃ gang since, k.run.stop = .asked gang since) ∧ k.run.inHold = false ∧ s.cycle % 128 = 0 ∧
      ∀ z, k.casts.head? = some z → z.cyc ≠ s.cycle
    let inTime := time ≤ s.cycle ∧ s.cycle ≤ time + Config.tDET ∧ time ≤ estimate + 16 ∧ estimate ≤ time + 16 ∨
      (∃ e ∈ k.flow.hold, e.entered = estimate) ∧ (∃ y ∈ k.casts, y.usable = true ∧ y.cyc + 32 ≤ estimate) ∨ estimate ∈ k.run.strikes
    let reports := fun (t : State) => (t.part (s.pmapOf c)).logs.reports.toNat =
      min (2 ^ 32 - 1) ((s.part (s.pmapOf c)).logs.reports.toNat + 1)
    let resent := fun (t : State) (p : Msg → Prop) => t.cores = s.cores ∧ t.net.length = s.net.length ∧
      ∀ (n : Nat) (y : Msg), s.net[n]? = some y → ∃ z : Msg, t.net[n]? = some z ∧ (p y → z = { y with departed := s.cycle }) ∧ (¬ p y → z = y)
    let hit := fun (y : Msg) => y.dropped = none ∧ y.through b = true
    let g := s.pkg
    (¬ due → Idles s (.castTake c)) ∧
    (due → Occurs s (.castTake c) fun t => (t.core c).live = k.live ∧ (t.core c).casts.length = min 4 (k.casts.length + 1) ∧
      (∃ z, (t.core c).casts.head? = some z ∧ z.live = k.live ∧ z.cyc = s.cycle ∧ z.ns = s.ptime) ∧
      (t.core c).casts.tail.map (·.live) = (k.casts.take 3).map (·.live)) ∧
    (¬ inTime ∨ k.flow.leftAt = some s.cycle → Idles s (.strikeReport c time estimate)) ∧
    (inTime → k.flow.leftAt ≠ some s.cycle → s.cycle < k.run.rollEnd → KeepsMemory s (.strikeReport c time estimate) fun t =>
      estimate ∈ (t.core c).run.strikes ∧ (t.core c).live = k.live ∧ (t.core c).flow = k.flow ∧ (t.core c).store = k.store) ∧
    (inTime → k.flow.leftAt ≠ some s.cycle → k.run.rollEnd ≤ s.cycle → k.run.stop = .none →
      (k.casts[j]? = some x → x.usable = true → x.cyc + 32 ≤ estimate → x.live.front.at_.wait = .none →
        (∀ n y, n < j → k.casts[n]? = some y → y.usable = false ∨ estimate < y.cyc + 32) →
        Occurs s (.strikeReport c time estimate) fun t =>
          (t.front c).regs = x.live.front.regs ∧ (t.front c).at_.pc = x.live.front.at_.pc ∧ (t.front c).at_.po = x.live.front.at_.po ∧
          (t.front c).level = x.live.front.level ∧ (t.core c).live.prod = x.live.prod ∧ (t.core c).live.walker = x.live.walker ∧
          s.cycle < (t.front c).at_.nextAt ∧ (t.core c).run.rollEnd ≤ s.cycle + 8 ∧ (∀ l : LaneId, (t.core c).store.ops[l] = []) ∧ (t.core c).casts = k.casts.drop j ∧
          (∀ bf a, ((t.core c).store.buf bf).readByte a = (k.store.buf bf).readByte a) ∧
          (∀ e ∈ (t.core c).flow.hold, e ∈ k.flow.hold ∧ (e.stream = .store → e.num < x.live.prod.store)) ∧ reports t) ∧
      ((∀ y ∈ k.casts, y.usable = false ∨ estimate < y.cyc + 32) → Occurs s (.strikeReport c time estimate) fun t =>
        (t.core c).regs.freeze = ⟨true, true, true, 6⟩ ∧ (t.front c).regs = (s.front c).regs ∧ reports t)) ∧
    Occurs s (.sharedBlockStrike b) (fun t => resent t hit) ∧ Occurs s (.lockstepMismatch b) (fun t => resent t hit) ∧
    (s.msg unit = none → unit < s.nextMsg → Idles s (.residueReject unit)) ∧
    (let n := s.nextMsg + 512 * j + c.val
     s.msg n = none → k.flow.loads[j]? = some ld → ld.space = .g → ld.need = none → ld.units.find? (·.value.isNone) = some u →
      Occurs s (.residueReject n) fun t => (∀ e, e ≠ c → t.core e = s.core e) ∧ (t.core c).live = k.live ∧
        (t.core c).flow.loads[j]? = some { ld with units := ld.units.map fun y =>
          if y = u then { y with bad := y.bad || s.takeNat.1 % 2 == 1 } else y }) ∧
    (s.msg m.id = some m →
      (m.dropped ≠ none ∨ 4 ≤ m.sends → Idles s (.residueReject m.id)) ∧
      (m.dropped = none → m.sends < 3 → Occurs s (.residueReject m.id) fun t => t.cores = s.cores ∧ t.net.length = s.net.length ∧
        ∀ (n : Nat) (y : Msg), s.net[n]? = some y → ∃ z : Msg, t.net[n]? = some z ∧ z.hold = y.hold ∧ z.sends = (if y.id = m.id then m.sends + 1 else y.sends) ∧
          z.departed = (if y.src = m.src ∧ y.hold.req.dest = m.hold.req.dest ∧ y.dropped = none then s.cycle else y.departed)) ∧
      (m.dropped = none → m.sends = 3 → Occurs s (.residueReject m.id) fun t =>
        ∃ z, t.msg m.id = some z ∧ z.sends = 4 ∧ z.hold.poison = true ∧ z.hold.req = m.hold.req)) ∧
    (¬ (unit < 2 ^ 33 ∧ stackOf (64 * unit) = i) → Idles s (.hbmScrubPass i unit)) ∧
    (unit < 2 ^ 33 → stackOf (64 * unit) = i → Occurs s (.hbmScrubPass i unit) fun t =>
      unit ∈ t.mem.bad ∧ t.mem.found[i] = s.mem.found[i] + 1 ∧ (∀ u ∈ s.mem.bad, u ∈ t.mem.bad) ∧ t.cores = s.cores) ∧
    (s.ptime % 1000000000 ≠ 0 ∨ s.timeRuns = false → Idles s (.hbmErrSample i)) ∧
    (s.ptime % 1000000000 = 0 → s.timeRuns = true → KeepsMemory s (.hbmErrSample i) fun t => t.cores = s.cores ∧
      bits g.hbmErr[i] 0 32 ≤ bits t.pkg.hbmErr[i] 0 32 ∧ t.mem.found[i] = 0 ∧
      bits t.pkg.hbmErr[i] 32 16 = min 65535 (bits g.hbmErr[i] 32 16 + s.mem.found[i]) ∧
      (t.pkg.hbmScrub[i] = g.hbmScrub[i] ∨ t.pkg.hbmScrub[i] = g.hbmScrub[i] + 1)) ∧
    (s.msg m.id = some m →
      (m.dropped ≠ none ∨ (∀ (n : Nat) e, n ∉ m.applied → m.hold.req.dests[n]? = some e → s.guard m.part m.src e = none) →
        Idles s (.guardDrop m.id)) ∧
      (m.dropped = none → j ∉ m.applied → m.hold.req.dests[j]? = some d → s.guard m.part m.src d = some drop →
        (∀ (n : Nat) e, n < j → n ∉ m.applied → m.hold.req.dests[n]? = some e → s.guard m.part m.src e = none) → m.id < s.nextMsg →
        Occurs s (.guardDrop m.id) fun t =>
        (∃ z ∈ t.net, z.dropped = some (Fin.ofNat 5 drop.kind) ∧ z.src = m.src ∧ z.part = m.part ∧
          z.hold.req = if m.hold.req.dests.length ≤ 1 then m.hold.req else m.hold.req.only j) ∧
        (t.part m.part).logs.pevent.getLsbD 2 = true ∧ ∀ d, (t.core d).live = (s.core d).live) ∧
      (m.dropped = none → Idles s (.dropNoticeArrive m.id)) ∧
      (m.dropped = some kind → Occurs s (.dropNoticeArrive m.id) fun t =>
        let z := (s.core m.src).regs.freeze
        let z' := (t.core m.src).regs.freeze
        t.msg m.id = none ∧ z'.fe = (z.fe || m.hold.party == 0) ∧ z'.ce = (z.ce || m.hold.party == 1) ∧
          z'.bw = (z.bw || m.hold.party == 2) ∧ z'.viol = 1)) ∧
    (s.cycle % 1024 ≠ 0 ∨ g.windowAt = some s.cycle → Idles s .budgetWindow) ∧
    (s.cycle % 1024 = 0 → g.windowAt ≠ some s.cycle → KeepsMemory s .budgetWindow fun t => t.pkg.windowAt = some s.cycle ∧
      (∀ p : PartId, (t.part p).budgets.now = (s.part p).budgets.regs ∧ (t.part p).budgets.regs = (s.part p).budgets.regs ∧
        ∀ (d : DieId) (n : Fin 4), (t.part p).budgets.used[d][n] = 0) ∧
      t.pkg.strictNow = g.pctl.getLsbD 16 ∧ t.pkg.calNow = g.cal ∧
      ∀ d, (t.core d).regs.feedUsed = 0 ∧ (t.core d).regs.feedNow = min (s.core d).regs.feed s.mgmt.glim ∧ (t.core d).live = (s.core d).live)

namespace Sys2Proof.Claims

open Sys2Proof.Machine

/-- The state with a bit of HOSTERR set by the physical function (R393, R404). -/
def ErrSet (s t : State) (bit : Nat) : Prop :=
  t.host.errBits = s.host.errBits ||| BitVec.ofNat 4 (2 ^ bit) ∧ t.pkg = s.pkg ∧ t.cores = s.cores ∧ t.host.apbase = s.host.apbase

end Sys2Proof.Claims

/-- R309 to R311, R323 to R326, R337, R354, R376, R385, R389, R390, R393, R399, R404, R411, R412: writes of registers from
outside the front end. The model's own choices in it: what a write of part of a register does (log 30), the parts of SEQERR's
clearing that no rule orders (log 29), and the widths of registers given by their fields alone (log 23). -/
def Obligations.RegisterWrites : Prop :=
  ∀ (c : CoreId) (v : Word) (n : Fin 3) (q : QueueNo) (i : Fin 16) (j : Fin 4) (p : PartId) (st : StackId) (port : PortId)
    (r : BitVec 12) (s : State),
    let g := s.pkg
    let k := s.core c
    let own := s.part (s.pmapOf c)
    let y := own.queues[q]
    let moved := fun (e : Nat) => bits v (4 * (e % 16)) 4 ≠ bits (g.pmap[i]) (4 * (e % 16)) 4
    let stays := fun (e : CoreId) => s.mayMove e = false
    let table := g.rtabx.set p (v &&& 0xFFFFFFFFF)
    let walks := ((List.finRange 16).map fun (e : Fin 16) => if g.pctl.getLsbD e.val then bits table[e] 28 8 else 0).sum
    let shared := ∃ (b : Fin 8) (d e : Fin 16), d ≠ e ∧ table[d].getLsbD b.val = true ∧ table[e].getLsbD b.val = true
    s.functionOn .pf = true →
    (-- ACCEPT (R325)
     (g.locked = true ∨ n ≠ 0 → Idles s (.acceptWrite .pf n v)) ∧
     (g.locked = false → KeepsMemory s (.acceptWrite .pf 0 v) fun t => t.pkg.accept = (v &&& 0x3F) ||| 1 ∧ t.pkg.locked = false) ∧
     KeepsMemory s (.accept3Write .pf v) (fun t => t.pkg.locked = true ∧ t.pkg.accept = g.accept)) ∧
    ((s.resident (v.setWidth 8) (s.pmapOf c) = true → KeepsMemory s (.coreCtlWrite .pf c v) fun t =>
        (t.core c).regs.asid = v.setWidth 8 ∧ (t.core c).live = k.live) ∧
     (s.resident (v.setWidth 8) (s.pmapOf c) = false → Idles s (.coreCtlWrite .pf c v))) ∧
    ((9 ≤ bits v 8 4 → Idles s (.lqCfgWrite .pf c q v)) ∧
     (bits v 8 4 < 9 → v.getLsbD 6 = false → bits y.cfg 6 2 = 0 → bits y.ptr 32 32 = bits y.ptr 0 32 →
       KeepsMemory s (.lqCfgWrite .pf c q v) fun t =>
         ((t.part (s.pmapOf c)).queues[q]).cfg = BitVec.ofNat 64 (bits v 6 50 * 64) ∧ ((t.part (s.pmapOf c)).queues[q]).ptr = y.ptr)) ∧
    ((own.switch.busy = true → Idles s (.switchAtWrite .pf c v)) ∧
     (own.switch.busy = false → KeepsMemory s (.switchAtWrite .pf c v) fun t =>
       (t.part (s.pmapOf c)).switchAt = v ∧ (t.part (s.pmapOf c)).switch.done = false)) ∧
    (-- PMAP and PCTL (R376)
     ((∀ e : CoreId, e.val / 16 = i.val → moved e.val → ¬ stays e) → KeepsMemory s (.pmapWrite .pf i v) fun t =>
       t.pkg.pmap = g.pmap.set i v ∧ t.cores = s.cores) ∧
     ((∃ e : CoreId, e.val / 16 = i.val ∧ moved e.val ∧ stays e) → KeepsMemory s (.pmapWrite .pf i v) fun t => ErrSet s t 2) ∧
     (let disabled := fun (e : CoreId) => g.pctl.getLsbD (s.pmapOf e).val = true ∧ v.getLsbD (s.pmapOf e).val = false
      ((∀ e, disabled e → ¬ stays e) → KeepsMemory s (.pctlWrite .pf v) fun t => t.pkg.pctl = BitVec.ofNat 64 (v.toNat % 2 ^ 17)) ∧
      ((∃ e, disabled e ∧ stays e) → KeepsMemory s (.pctlWrite .pf v) fun t => ErrSet s t 2))) ∧
    KeepsMemory s (.calWrite .pf j v) (fun t => t.pkg.cal = g.cal.set j v ∧ t.pkg.calNow = g.calNow) ∧
    ((256 < walks ∨ shared → Idles s (.rtabxWrite .pf p v)) ∧
     (walks ≤ 256 → ¬ shared → KeepsMemory s (.rtabxWrite .pf p v) fun t => t.pkg.rtabx = table)) ∧
    KeepsMemory s (.budgetWrite .pf c j v) (fun t =>
      (t.part (s.pmapOf c)).budgets.regs[j].toNat = v.toNat % 2 ^ 24 + (if j = 2 then bits v 32 16 * 2 ^ 32 else 0) ∧
      (t.part (s.pmapOf c)).budgets.now = own.budgets.now) ∧
    KeepsMemory s (.feedBudWrite .pf c v) (fun t => (t.core c).regs.feed = min 4096 (v.toNat % 2 ^ 13) ∧
      (t.core c).regs.feedNow = k.regs.feedNow) ∧
    (let a := bits v 25 31 * 2 ^ 25
     (a < 2 ^ 39 → KeepsMemory s (.mdbaseWrite .pf st v) fun t => t.pkg.mdbase = g.mdbase.set st (BitVec.ofNat 64 a)) ∧
     (2 ^ 39 ≤ a → Idles s (.mdbaseWrite .pf st v))) ∧
    (-- registers without a behaviour of their own (R309, R310, R311)
     (sysRegKnown r = false → Idles s (.registerWrite .pf c r v)) ∧
     ((r = 0x201 ∨ r = 0x300 ∨ r = 0x409 ∨ r = 0x602 ∨ r = 0x5C1 ∨ r = 0x784) → Idles s (.registerWrite .pf c r v)) ∧
     (let sets := fun (r : BitVec 12) (P : Front → Prop) => KeepsMemory s (.registerWrite .pf c r v) fun t =>
        P (t.front c) ∧ (t.front c).regs = (s.front c).regs ∧ (t.front c).at_ = (s.front c).at_
      let f := s.front c
      sets 0x000 (fun x => x.sFrame = { f.sFrame with pc := v } ∧ x.mFrame = f.mFrame) ∧
      sets 0x001 (fun x => x.sFrame = { f.sFrame with cause := BitVec.ofNat 64 (v.toNat % 256) }) ∧
      sets 0x00A (fun x => x.sFrame = { f.sFrame with vec := v }) ∧ sets 0x00B (fun x => x.sFrame = { f.sFrame with scratch := v }) ∧
      sets 0x10A (fun x => x.mFrame = { f.mFrame with vec := v } ∧ x.sFrame = f.sFrame) ∧
      sets 0x103 (fun x => x.mFrame.stat = BitVec.ofNat 64 (if v.toNat % 4 = 3 then v.toNat / 4 % 2 ^ 11 * 4 else v.toNat % 2 ^ 13))) ∧
     KeepsMemory s (.registerWrite .pf c 0x202 v) (fun t => (t.core c).regs.faultBase = BitVec.ofNat 64 (v.toNat / 2 ^ 12 * 2 ^ 12 + v.toNat % 2)) ∧
     KeepsMemory s (.registerWrite .pf c 0x203 v) (fun t => (t.core c).regs.faultHead.val = v.toNat % 64) ∧
     KeepsMemory s (.registerWrite .pf c 0x204 v) (fun t => (t.core c).regs.poisonCont = v.getLsbD 0) ∧
     KeepsMemory s (.registerWrite .pf c 0x205 v) (fun t => t.pkg.ctxdir = BitVec.ofNat 64 (v.toNat / 2 ^ 12 * 2 ^ 12)) ∧
     KeepsMemory s (.registerWrite .pf c 0x785 v) (fun t =>
       (t.part (s.pmapOf c)).logs.pevent = own.logs.pevent &&& ~~~(v.setWidth 4))) ∧
    (-- the package block and management (R404, R411, R412)
     (let a := bits v 28 28 * 2 ^ 28
      (a < 2 ^ 39 → KeepsMemory s (.apbaseWrite .pf v) fun t => t.host.apbase = BitVec.ofNat 64 (a + v.toNat % 2)) ∧
      (2 ^ 39 ≤ a → KeepsMemory s (.apbaseWrite .pf v) fun t => ErrSet s t 3)) ∧
     (let x := s.ports[port]
      (v.getLsbD 0 = true → x.seqerr = false → KeepsMemory s (.lpctlWrite .pf port v) fun t =>
        t.ports[port] = { x with ctl := v &&& 3 }) ∧
      (v.getLsbD 0 = true → x.seqerr = true → (∀ m ∈ s.net, m.port ≠ some port) → Occurs s (.lpctlWrite .pf port v) fun t =>
        t.ports[port] = { x with ctl := v &&& 3, keep := [], ahead := [], heldIn := [], tx := 0, txOld := 0, rx := 0, nak := none,
                                 seqerr := false, state := 1 } ∧
        ∀ n : CircNo, (t.core c).circ n = if (k.circ n).state ≠ .closed ∧ (k.circ n).port = some port then
          { k.circ n with state := .refused } else k.circ n) ∧
      (v.getLsbD 0 = false → KeepsMemory s (.lpctlWrite .pf port v) fun t =>
        t.ports[port].ctl = v &&& 3 ∧ t.ports[port].state = (if x.state = 1 then 0 else x.state))) ∧
     KeepsMemory s (.pcapWrite v) (fun t => t.mgmt.pcap.toNat = max 600 (min 2200 (v.toNat % 2 ^ 16))) ∧
     KeepsMemory s (.tlimitWrite v) (fun t => t.mgmt.tlimit.toInt = max 960 (min 1600 (v.setWidth 16).toInt)) ∧
     (s.mgmt.attBusy = true → Becomes s .attCtlGo { s with mgmt := { s.mgmt with attGo := true } }) ∧
     (s.mgmt.attBusy = false → KeepsMemory s .attCtlGo fun t => t.mgmt.attBusy = true ∧ t.mgmt.attReady = false ∧
       t.mgmt.nonceUsed = s.mgmt.nonce ∧ t.mgmt.attGo = true) ∧
     -- virtual functions (R393)
     Idles s (.apbaseWrite (.vf p) v) ∧ Idles s (.lpctlWrite (.vf p) port v) ∧ Idles s (.registerWrite .i3c c r v) ∧
     (s.functionOn (.vf p) = true → s.pmapOf c ≠ p → KeepsMemory s (.registerWrite (.vf p) c r v) fun t =>
       t.host.errBy[p] = s.host.errBy[p] ||| 1 ∧ t.pkg = s.pkg ∧ t.cores = s.cores) ∧
     (s.functionOn (.vf p) = true → s.pmapOf c = p → KeepsMemory s (.coreCtlWrite (.vf p) c v) fun t =>
       t.host.errBy[p] = s.host.errBy[p] ||| 2 ∧ t.pkg = s.pkg ∧ t.cores = s.cores))

/-- R392 to R404: accesses of the host and function resets, and the link ports. The model's own choices in it: what a flit
that arrives carries, and the parts of a time exchange that no rule fixes (log 29), where an access through the host port goes
(log 47, log 23), and what of the host's traffic the guards see (log 60). -/
def Obligations.HostAndLinkEvents : Prop :=
  ∀ (b : Agent) (addr off i : Nat) (n : Fin 257) (m : Fin 513) (v : BitVec 2048) (p : PartId) (q : PortId) (nak : Nat × Bool)
    (e : KeptFlit) (s s1 : State),
    let a := bits s.host.apbase 28 28 * 2 ^ 28
    let mapped := s.host.apbase.getLsbD 0 = true
    let x := s.ports[q]
    let up := x.state = 2 ∧ x.frozen = false
    let now := Config.freeNat s.free
    let limited := fun (t : State) => t.ports[q].state = 0 ∧ t.ports[q].down = s.cycle
    let again := fun (t : State) (e : KeptFlit) (pause : Bool) => t.ports[q].nak = none ∧ t.ports[q].sentAt = s.cycle ∧
      t.ports[q].resends.toNat = min (2 ^ 16 - 1) (x.resends.toNat + 1) ∧ t.ports[q].state = x.state ∧
      t.ports[q].wire = x.frame [kltSeal e.flit x.rx x.gap] ∧
      t.ports[q].keep = x.keep.map fun y => if y.seq = e.seq ∧ pause = false then { y with sends := y.sends + 1 } else y
    let refusal := fun (t : State) => match b with
      | .vf j => t.host.errBy[j] = s.host.errBy[j] ||| 8
      | _ => t.host.errBits = s.host.errBits ||| 8
    let reads := s.mgmt.tripped = false ∧ s.held = false
    let ofThem := b ≠ .i3c
    (-- the host (R378 to R380, R392 to R395, R411, R412, R414)
     (s.functionOn b = false → ofThem → Idles s (.hostWrite b addr n v)) ∧
     (s.functionOn b = true → addr = 2 ^ 32 + off → off < 2 ^ 32 →
       let base := match b with
         | .vf j => a + j.val * 2 ^ 24
         | _ => a
       let size := match b with
         | .vf _ => 2 ^ 24
         | _ => 2 ^ 28
       let part := match b with
         | .vf j => j
         | _ => Fin.ofNat 16 (off / 2 ^ 24)
       (mapped → off + n.val ≤ size →
         (s.hostGrant b off (base + off) n.val false = .ok s1 → Occurs s (.hostWrite b addr n v) (fun t =>
           (∀ i < n.val, t.mem.hbm.readByte (base + off + i) = (v.toNat / 256 ^ i : Nat)) ∧
           (∀ e, e < base + off ∨ base + off + n.val ≤ e → t.mem.hbm.readByte e = s.mem.hbm.readByte e) ∧ t.cores = s.cores)) ∧
         (s.hostGrant b off (base + off) n.val false = .wait → Idles s (.hostWrite b addr n v)) ∧
         (s.enabled part = false → Occurs s (.hostWrite b addr n v) fun t =>
           refusal t ∧ (t.part part).logs.pevent.getLsbD 2 = true ∧ t.cores = s.cores)) ∧
       (mapped → off + m.val ≤ size → reads → s.hostGrant b off (base + off) m.val true = .ok s1 → KeepsMemory s (.hostRead b addr m) fun t =>
         t.host.readData = BitVec.ofNat 4096 (s.peek (base + off) m.val).1 ∧ t.cores = s.cores) ∧
       (¬ (mapped ∧ off + n.val ≤ size) → KeepsMemory s (.hostWrite b addr n v) refusal) ∧
       (¬ (mapped ∧ off + m.val ≤ size) → reads → KeepsMemory s (.hostRead b addr m) fun t => refusal t ∧ t.host.readData = 0)) ∧
     (s.functionOn b = true → addr / 2 ^ 32 = 3 → KeepsMemory s (.hostWrite b addr n v) (fun t => t.host.unsupported = true ∧ t.cores = s.cores) ∧
       (reads → KeepsMemory s (.hostRead b addr m) fun t => t.host.unsupported = true)) ∧
     (s.functionOn b = true → i < (if b = .pf then 2 else 1) → KeepsMemory s (.hostWrite b (2 ^ 34 + 16 * i) 16 v) fun t =>
       t.host.msixTable = SMap.set 0 s.host.msixTable (2 * hostFunction b + i) (v.setWidth 128)) ∧
     (s.functionOn .pf = true → reads → off < 2 ^ 16 → off % 8 = 0 → KeepsMemory s (.hostRead .pf (2 ^ 24 + off) 8) fun t =>
       t.host.readData = (s.blockWord off).setWidth 4096) ∧
     (s.mgmt.tripped = true → ofThem → KeepsMemory s (.hostRead b addr m) fun t => t.host.readData = BitVec.allOnes 4096) ∧
     KeepsMemory s (.hostWrite .i3c 0x40 32 v) (fun t => t.mgmt = { s.mgmt with nonce := v.setWidth 256 } ∧ t.cores = s.cores) ∧
     (s.held = false → KeepsMemory s (.hostRead .i3c 0 1) fun t => t.host.readData = BitVec.ofNat 4096 s.mgmt.stage.val) ∧
     KeepsMemory s (.vfFunctionReset p) (fun t => t.host.errBy[p] = 0 ∧ t.host.msixTable = SMap.erase s.host.msixTable (2 * (p.val + 1)) ∧ (∀ m ∈ t.host.msix, m.1 ≠ p.val + 1) ∧ t.cores = s.cores ∧
       t.parts = s.parts ∧ ∀ i : PartId, i ≠ p → t.host.errBy[i] = s.host.errBy[i]) ∧
     KeepsMemory s .pfFunctionReset (fun t => t.host.errBits = 0 ∧ (∀ i : PartId, t.host.errBy[i] = 0) ∧ t.host.msix = [] ∧
       t.host.msixTable = [] ∧ t.host.vfEnable = false ∧ t.cores = s.cores ∧ t.parts = s.parts ∧ t.pkg = s.pkg)) ∧
    (-- receiving (R383, R397, R398)
     (s.ownerOf q = none ∨ ¬ up → Idles s (.linkFlitReceive q)) ∧
     (s.ownerOf q = some p → up → (∀ h ∈ x.heldIn, x.carries h.1 = false) →
       let d : DieId := Fin.ofNat 4 (portDie q.val)
       let budget := (s.part p).budgets
       let flit : VecWord := BitVec.ofNat 2048 (ofBytes (State.takeBytes 32 s).1)
       let beyond := bits budget.now[2] 0 24 ≠ 0xFFFFFF ∧ bits budget.now[2] 0 24 + bits budget.now[2] 32 16 ≤ budget.used[d][2]
       let charged := fun (t : State) => (t.part p).budgets.used[d][2] = budget.used[d][2] + 1
       (beyond → Occurs s (.linkFlitReceive q) fun t => charged t ∧ t.ports[q].frozen = true ∧ t.ports[q].viol = 2 ∧ t.cores = s.cores) ∧
       (¬ beyond → kltGood flit = false → KeepsMemory s (.linkFlitReceive q) fun t => charged t ∧ t.cores = s.cores ∧
         t.ports[q] = { x with wire := x.frame [kltSeal (kltMake x.tx 1 0 0 s.pkg.chipid.toNat 0 [] 0 []) x.rx (some (x.rx, false))] }) ∧
       (¬ beyond → kltGood flit = true → kltType flit = 1 ∨ kltType flit = 3 → KeepsMemory s (.linkFlitReceive q) fun t =>
         charged t ∧ t.cores = s.cores ∧ t.ports[q].rx = x.rx ∧ t.ports[q].wire = x.wire ∧
         (kltNak flit = some nak → (∃ y ∈ t.ports[q].keep, y.seq = nak.1) → t.ports[q].nak = some nak) ∧
         (kltNak flit = none → t.ports[q].nak = x.nak)))) ∧
    (-- resending (R398)
     (x.nak = none ∨ ¬ up → Idles s (.linkNakResend q)) ∧
     (x.nak = some nak → up → x.keep.find? (fun y => y.seq == nak.1) = some e →
       (nak.2 = true ∨ e.sends < 16 → KeepsMemory s (.linkNakResend q) fun t => again t e nak.2) ∧
       (nak.2 = false → 16 ≤ e.sends → KeepsMemory s (.linkNakResend q) limited)) ∧
     (x.nak = some nak → up → x.keep.find? (fun y => y.seq == nak.1) = none → KeepsMemory s (.linkNakResend q) fun t =>
       t.ports[q] = { x with nak := none }) ∧
     (let late := up ∧ x.keep ≠ [] ∧ x.rto * 6 ≤ (s.cycle - x.sentAt) * 5
      (¬ late → Idles s (.linkResendTimeout q)) ∧
      (late → x.keep.find? (fun y => y.seq == x.txOld) = some e →
        (e.sends < 16 → KeepsMemory s (.linkResendTimeout q) fun t => again t e false) ∧
        (16 ≤ e.sends → KeepsMemory s (.linkResendTimeout q) limited)))) ∧
    (-- training (R399)
     (let may := x.state = 0 ∧ x.ctl.getLsbD 0 = true ∧ x.seqerr = false ∧ x.down + 1200000 ≤ s.cycle
      (¬ may → Idles s (.portRetrain q)) ∧
      (may → KeepsMemory s (.portRetrain q) fun t => t.ports[q] = { x with state := 1 })) ∧
     (x.state ≠ 1 → Idles s (.portTrained q)) ∧
     (x.state = 1 → KeepsMemory s (.portTrained q) fun t =>
       let ack := now / 2 % 2 ^ 32
       let far := (ack + 2 ^ 32 - x.txOld % 2 ^ 32) % 2 ^ 32
       let kept := (x.tx + 2 ^ 32 - x.txOld % 2 ^ 32) % 2 ^ 32
       (now % 2 = 0 → limited t ∧ t.ports[q].seqerr = x.seqerr) ∧
       (now % 2 = 1 → kept < far → limited t ∧ t.ports[q].seqerr = true) ∧
       (now % 2 = 1 → far ≤ kept → t.ports[q].state = 2 ∧ (∀ y ∈ t.ports[q].keep, y.sends = 1) ∧ t.ports[q].nak = none ∧
         (ack ≠ x.txOld → t.ports[q].txOld = ack)))) ∧
    (-- time (R403)
     (let may := s.ptime % 1000 = 0 ∧ s.timeRuns = true ∧ up
      let follows := s.host.timectl.getLsbD 0 = false ∧ s.host.timeSrc = q
      let sent := fun (t : State) => t.cores = s.cores ∧ t.ptime = s.ptime ∧
        t.ports[q] = { x with wire := x.frame [kltSeal (kltMake x.tx 3 0 0 s.pkg.chipid.toNat 0 [] s.ptime []) x.rx x.gap] }
      -- the peer's stamp of its arrival, the peer's stamp of its own flit, and the arrival of that
      let t2 : Int := now
      let t3 : Int := Config.freeNat (s.free + 1)
      let t4 : Int := s.ptime + Config.freeNat (s.free + 2)
      let offset := 1000 * ((t2 - s.ptime) - (t4 - t3)) / 2 - x.asym.toInt
      (¬ may → Idles s (.timeExchange q)) ∧
      (may → ¬ follows → KeepsMemory s (.timeExchange q) fun t => sent t ∧ t.sixths = s.sixths ∧ t.host = s.host) ∧
      (may → follows → KeepsMemory s (.timeExchange q) fun t => sent t ∧
        (s.ptime / 1000 % 2 = 1 ∨ offset = 0 → t.sixths = s.sixths) ∧
        (s.ptime / 1000 % 2 = 0 → 0 < offset → t.sixths = if s.sixths < 5 then s.sixths + 1 else s.sixths) ∧
        (s.ptime / 1000 % 2 = 0 → offset < 0 → t.sixths = s.sixths - 1) ∧
        t.host.lockRun = (if offset.natAbs ≤ 10000 then s.host.lockRun + 1 else 0) ∧
        (t.host.timectl.getLsbD 4 = true ↔ s.host.timectl.getLsbD 4 = true ∨ offset.natAbs ≤ 10000 ∧ 7 ≤ s.host.lockRun))))

/-- R406 to R414: power, RST_N, the boot stages, the service processor's strikes, the governor, THERMTRIP_N, and
attestation. The model's own choices in it: what memory and registers hold after reset (log 1, log 2), what the monitor and the
flash contain (log 32), how a boot fails and when (log 33), and what the governor measures (log 34). -/
def Obligations.BringUpEvents : Prop :=
  ∀ (ok : Bool) (d : DieId) (c : CoreId) (a : Nat) (s : State),
    let g := s.mgmt
    let held := s.held = true
    let now := Config.freeNat s.free
    let fresh := fun (t : State) => t.cores = State.reset.cores ∧ t.parts = State.reset.parts ∧ t.pkg = State.reset.pkg ∧
      t.host = State.reset.host ∧ t.ports = State.reset.ports ∧ t.mem = State.reset.mem ∧ t.net = [] ∧ t.images = [] ∧ t.parked = []
    let stage := fun (n : Nat) (t : State) => t.mgmt.stage.val = n ∧ t.mgmt.err = 0 ∧ t.mgmt.pcie = false
    let boots := s.held = false ∧ g.err = 0 ∧ g.pcie = false
    (g.powered = true → Idles s (.powerRamp ok)) ∧
    (g.powered = false → KeepsMemory s (.powerRamp ok) fun t => t.mgmt.powered = ok ∧ t.mgmt.rstLow = true ∧
      t.mgmt.err = (if ok then 0 else 1)) ∧
    (g.rstLow = true → Idles s .rstNAssert) ∧
    (g.rstLow = false → Occurs s .rstNAssert fun t => fresh t ∧ t.mgmt =
      { State.reset.mgmt with rstLow := true, powered := g.powered, resets := g.resets + 1 }) ∧
    (g.rstLow = true → g.powered = true → KeepsMemory s .rstNRelease fun t => t.mgmt.rstLow = false ∧ t.mgmt.stage = 1 ∧ t.mgmt.err = 0 ∧
      t.cycle = 0) ∧
    (g.rstLow = false ∨ g.powered = false → Idles s .rstNRelease) ∧
    Occurs s .powerRemoval (fun t => fresh t ∧ t.mgmt =
      { State.reset.mgmt with rstLow := true, powered := false, resets := g.resets }) ∧
    (¬ boots → Idles s (.bootStage ok)) ∧
    (boots →
      (g.stage = 1 ∨ g.stage = 2 ∨ g.stage = 3 → KeepsMemory s (.bootStage true) (stage (g.stage.val + 1))) ∧
      (g.stage = 4 → Occurs s (.bootStage true) fun t => stage 5 t ∧
        (t.front c).mFrame.vec = BitVec.ofNat 64 (80 * (Config.monitorLine % 2 ^ 32)) ∧ t.pkg.ctxdir.toNat % 2 ^ 12 = 0) ∧
      (g.stage = 5 → KeepsMemory s (.bootStage ok) fun t => stage 6 t ∧ t.ptime = 0 ∧ t.timeRuns = true ∧
        (t.core c).run.inHold = false ∧ (t.front c).level = .m ∧ (t.front c).at_.pc = (s.front c).mFrame.vec ∧
        (∀ r : Reg, r ≠ .p 0 → (t.front c).regs.get r = 0) ∧ (t.front c).mFrame = (s.front c).mFrame) ∧
      (g.stage = 6 → KeepsMemory s (.bootStage true) fun t => t.mgmt = { g with pcie := true }) ∧
      (let fails := fun (e : Byte) => KeepsMemory s (.bootStage false) fun t => t.mgmt = { g with err := e } ∧ t.cores = s.cores
       (g.stage = 1 → fails 1) ∧ (g.stage = 2 → fails (if now % 2 = 0 then 2 else 3)) ∧ (g.stage = 3 → fails 4) ∧
       (g.stage = 4 → fails (if now % 2 = 0 then 5 else 6)) ∧ (g.stage = 6 → fails 7))) ∧
    (held ∨ g.err ≠ 0 → Idles s .serviceProcessorStrike) ∧
    (¬ held → g.err = 0 →
      (g.stage = 6 → Becomes s .serviceProcessorStrike { s with host := { s.host with msix := s.host.msix ++ [(0, 0)] } }) ∧
      (g.pcie = false → g.stage.val ≤ 3 → KeepsMemory s .serviceProcessorStrike (stage 2)) ∧
      (g.stage = 4 ∨ g.stage = 5 → Idles s .serviceProcessorStrike)) ∧
    (s.cycle % 12000 ≠ 0 ∨ g.sampledAt = some s.cycle → Idles s .governorSample) ∧
    (s.cycle % 12000 = 0 → g.sampledAt ≠ some s.cycle → KeepsMemory s .governorSample fun t =>
      let m := t.mgmt
      let cap := if g.pcap = 0 then 2200 else g.pcap.toNat
      let over_ := cap < m.power.toNat ∨ ∃ e : DieId, g.tlimit.toInt < m.temps[e].toInt
      let under := 100 * m.power.toNat < 95 * cap ∧ ∀ e : DieId, m.temps[e].toInt < g.tlimit.toInt - 32
      t.cores = s.cores ∧ m.sampledAt = some s.cycle ∧ (m.tripped = true ↔ g.tripped = true ∨ ∃ e : DieId, 1680 ≤ m.temps[e].toInt) ∧
      (over_ → m.glim = max 64 (g.glim - 64)) ∧ (¬ over_ → under → m.glim = min 4096 (g.glim + 64)) ∧
      (¬ over_ → ¬ under → m.glim = g.glim)) ∧
    KeepsMemory s (.thermtrip d) (fun t => t.mgmt.tripped = true ∧ t.held = true ∧ t.mgmt.temps[d] = 1680 ∧ t.cores = s.cores) ∧
    (g.attBusy = false → Idles s .attReportReady) ∧
    (g.attBusy = true → KeepsMemory s .attReportReady fun t => t.mgmt.attReady = true ∧ t.mgmt.attBusy = false ∧
      t.mgmt.report.take 32 = toBytes 32 g.nonceUsed.toNat ∧ t.mgmt.report.length = 344 ∧ t.cores = s.cores)

/-- R21, R118, R138, R139, R233, R314, R406, R407, R414: what one step adds around an instruction. The turn is a settled one,
or one that the specification leaves open, where no cycle passes with an act due in it. The cycles of the turn pass; while the
device is held, nothing follows but what the board does. In a turn of a front end the word at its program counter is fetched,
which changes nothing but the instruction cache, the count of free values, and, below level M, what the regulators and the ports
count: the step is then the execution of the instruction
it decodes to, and a word that is no instruction raises UNDEF with bits [63:0] of the word. At level M, and read anew, the word
is the ten bytes of memory at the program counter. Where a fault of a queue or an engine waits for that boundary, the trap is
taken instead, unless the word traps itself. In a turn of an event the step is that event; the lanes fire in ascending
order, and a report that waited for a rollback to end is applied. That the steps choose the turn where several may come, and what
ties an act to a cycle, is the model's choice (log 3), and so is the word that a fault at its boundary waits for (log 37). -/
def Obligations.StepRunsTheDecodedWord : Prop :=
  ∀ (c : CoreId) (refetch : Bool) (w : Nat) (i : Instr) (e : DecodeError) (l : LaneId) (s m t : State),
    let n := s.nextTurn
    let p := n.2.pass n.1.wait
    let at_ := { p with cur := c }
    let f := p.front c
    let z := { s with steps := s.steps + 1 }
    let waits := (p.core c).faultWaits p.cycle = true
    (∀ t ts, s.turns = t :: ts → n = (t, { s with turns := ts })) ∧
    (s.turns = [] → n.2 = z ∧ ((Config.turn s.steps).wait = 0 → n.1 = Config.turn s.steps) ∧
      ((Config.turn s.steps).wait ≠ 0 → (∀ a, z.due = some a → n.1 = ⟨0, a⟩) ∧ (z.due = none → n.1 = ⟨1, (Config.turn s.steps).act⟩))) ∧
    (p.cores = s.cores ∧ p.mem = s.mem ∧ p.cycle = s.cycle + n.1.wait) ∧
    (p.held = true → Act.outside n.1.act = false → step s = .next p) ∧
    (p.held = false → n.1.act = .event i → isEvent i = true → (∀ d, i ≠ .engineFaultTaken d) → (∀ d l, i ≠ .poolOperationFire d l) →
      step s = exec i p) ∧
    (p.held = false → n.1.act = .event (.poolOperationFire c l) → step s = exec (.poolOperationFire c (p.firstLane c l)) p) ∧
    (p.held = false → n.1.act = .event (.engineFaultTaken c) →
      (¬ waits → step s = .next p) ∧ (waits → (p.core c).mayIssue p.cycle = false → step s = exec (.engineFaultTaken c) p)) ∧
    (p.held = false → n.1.act = .cast c → step s = exec (.castTake c) p) ∧
    (p.held = false → n.1.act = .strike c →
      (∀ a, p.strikeDue c = some a → step s = exec (.strikeReport c 0 a) p) ∧ (p.strikeDue c = none → step s = .next p)) ∧
    (p.held = false → n.1.act = .front c refetch ∨ n.1.act = .event (.engineFaultTaken c) ∧ waits ∧ (p.core c).mayIssue p.cycle = true ∧ refetch = false →
      ((p.core c).mayIssue p.cycle = false → ¬ waits → step s = .next (at_.tryEnter c)) ∧
      (at_.fetch c refetch = .word w m →
        m = { (at_.modCore c fun k => { k with icache := (m.core c).icache }) with free := m.free, parts := m.parts, ports := m.ports } ∧
        (∀ o, m.part o = { p.part o with budgets := (m.part o).budgets }) ∧ (f.level = .m → m.parts = p.parts ∧ m.ports = p.ports) ∧
        (decode w = .ok i → ¬ waits → step s = exec i m) ∧
        (decode w = .ok i → waits → exec i m = .next t →
          (p.trappedSince t c = true → step s = exec i m) ∧ (p.trappedSince t c = false → step s = exec (.engineFaultTaken c) p)) ∧
        (decode w = .error e → ¬ waits → step s = .next (m.trapHere .undef (BitVec.ofNat 64 w)))) ∧
      ((p.core c).mayIssue p.cycle = true → refetch = true → f.level = .m → f.at_.pcHi = 0 → f.at_.pc.toNat % 10 = 0 →
        f.at_.pc.toNat + 160 ≤ 2 ^ 39 →
        ∃ m', at_.fetch c refetch = .word (((List.range 10).map fun j => (p.mem.hbm.readByte (f.at_.pc.toNat + j)).toNat * 256 ^ j).sum) m'))

/-- R118, R119, R122, R136, R138, R160: words written out from the encodings decode to what they stand for. OP is bits [79:72];
in format A the destination is bits [51:46], source A [45:40], source B [39:34]. -/
def Obligations.SampleWordsDecode : Prop :=
  -- add s3, s1, s2: OP 0x01, d = 3, a = 1, b = 2
  decode (0x01 * 2 ^ 72 + 3 * 2 ^ 46 + 1 * 2 ^ 40 + 2 * 2 ^ 34) = .ok (.add Hdr.zero .x64 3 1 2) ∧
  -- the same with tags 0 and 2 waited for, predicate (!p5), producer distances 1 and 3
  decode (0x01 * 2 ^ 72 + 5 * 2 ^ 60 + 1 * 2 ^ 58 + 3 * 2 ^ 56 + 2 ^ 55 + 5 * 2 ^ 52 + 3 * 2 ^ 46 + 1 * 2 ^ 40 + 2 * 2 ^ 34) =
    .ok (.add ⟨none, 5, 1, 3, true, 5⟩ .x64 3 1 2) ∧
  -- addi s1, s2, -1: format I ; loop lc1, s9, three words on: format B
  decode (0x03 * 2 ^ 72 + 1 * 2 ^ 46 + 2 * 2 ^ 40 + 0xFFFFFFFF * 2 ^ 8) = .ok (.addi Hdr.zero 1 2 (BitVec.allOnes 32)) ∧
  decode 0x35000000240000000031 = .ok (.loop Hdr.zero true 9 3) ∧
  -- format S: halt ; nop, a word with an unused field set, and a word with an unassigned opcode
  decode (0xED * 2 ^ 72) = .ok (.halt Hdr.zero) ∧ decode (0x39 * 2 ^ 72) = .ok (.nop Hdr.zero) ∧
  decode (0x39 * 2 ^ 72 + 1) = .error (.illFormedWord (0x39 * 2 ^ 72 + 1)) ∧ decode 0 = .error (.unassignedOpcode 0)

/-- The state after reset (R325, R376, R383, R389, R390, R404, R407, R409, R412): the cores are held, no word issues, ACCEPT holds
CORE alone and is not locked, budgets are unmetered, every port is DOWN with LPRTO 20,000, and the management
registers stand at boot stage 1. Both invariants hold. That memory reads as zero is the model's choice (log entry 1). -/
def Obligations.ResetState : Prop :=
  let s := State.reset
  (∀ c : CoreId, (s.core c).run.inHold = true ∧ (s.core c).mayIssue s.cycle = false ∧ (s.core c).run.job = none ∧
    (s.core c).regs.feed = 4096) ∧
  s.pkg.accept = 1 ∧ s.pkg.locked = false ∧ s.pkg.pctl = 0 ∧
  (∀ (p : PartId) (n : Fin 4), ((s.part p).budgets.now[n]).toNat = 0xFFFFFF) ∧
  (∀ q : PortId, s.ports[q].state = 0 ∧ s.ports[q].rto = 20000 ∧ s.ports[q].frozen = false) ∧
  s.mgmt.stage = 1 ∧ s.mgmt.err = 0 ∧ s.mgmt.glim = 4096 ∧ s.mgmt.tlimit.toInt = 95 * 16 ∧ s.net = [] ∧
  AcceptLegal s ∧ MemoryCanonical s

/-- Decoding and encoding agree (R119 to R138): every well-formed instruction of a front end is read back from its word, and
from its ten bytes whatever follows; every word that decodes is the word of its instruction. -/
def Obligations.WordsRoundTrip : Prop :=
  (∀ (i : Instr) (rest : List Byte), isEvent i = false → i.wf = true →
    encode i < 2 ^ 80 ∧ decode (encode i) = .ok i ∧ decodeBytes (wordBytes (encode i) ++ rest) = some (i, rest)) ∧
  ∀ (w : Nat) (i : Instr), decode w = .ok i → encode i = w ∧ i.wf = true ∧ isEvent i = false

/-- No instruction and no event is refused or faults (R21, R138): the device goes on from every state, and so does every step. That
every fault of the specification leaves the machine a next state is the model's reading (log 48). -/
def Obligations.EveryInstructionAdvances : Prop := (∀ (i : Instr) (s : State), ∃ t, exec i s = .next t) ∧ ∀ s, Advances s

/-- Every step keeps ACCEPT legal (R325): only features the device has, and CORE always. -/
def Obligations.StepKeepsAcceptLegal : Prop := ∀ s t, AcceptLegal s → step s = .next t → AcceptLegal t

/-- Every step keeps HBM and every buffer in canonical form, so that memories that read the same are the same
(R5, R79; the form, and what an unwritten byte reads as, are the model's: log entry 1). -/
def Obligations.StepKeepsMemoryCanonical : Prop := ∀ s t, MemoryCanonical s → step s = .next t → MemoryCanonical t

/-- R68, R70, R77, R177, R179, R180, R183, R188 to R191, R193: the values of the lanes that dot products, the tree, the
conversions and the special functions give, on numbers that R51 to R53 decode. -/
def Obligations.ValuesOfVectorWords : Prop :=
  ∀ (m : RMode) (y e : Nat) (sat : Bool) (t : Fin 8) (a b c x : Lane) (q : ℚ),
    let f : Format := ⟨23, 127, 0x7F7FFFFF, 31⟩
    let tagged := fun (r : Nat × FFlags) => ((BitVec.ofNat 32 r.1 : Lane), r.2)
    -- `vdot2.bf16` (R177)
    (∀ a0 b0 a1 b1 z, Stands (descBf16.decode (elem 16 0 a)) a0 → Stands (descBf16.decode (elem 16 0 b)) b0 →
      Stands (descBf16.decode (elem 16 1 a)) a1 → Stands (descBf16.decode (elem 16 1 b)) b1 → Stands (decF32 c) z →
      ∃ v, Stands v (a0 * b0 + a1 * b1 + z) ∧ dotBf16 m y a b c = tagged (descF32.arith m y v)) ∧
    (descBf16.decode (elem 16 0 a) = .nan ∨ descBf16.decode (elem 16 1 b) = .nan ∨ decF32 c = .nan → (dotBf16 m y a b c).1 = 0x7FC00000) ∧
    -- the lane tree (R183)
    (∀ (α : Type) (op : α → α → α) (leaf : Nat → Option α) (n : Nat),
      (pairUp op)^[n] ((List.range (2 ^ n)).map leaf) = [laneNode op leaf n 0]) ∧
    (∀ z w, Stands (decF32 a) z → Stands (decF32 b) w → ∀ fl fm, ∃ v, Stands v (z + w) ∧
      combineF (a, fl) (b, fm) = ((tagged (descF32.arith .rne 0 v)).1, fl ||| fm ||| (descF32.arith .rne 0 v).2)) ∧
    -- conversions (R188, R190, R191)
    (vcvtLane false (.tag 0) m sat y x = tagged (descBf16.conv true m sat y (decF32 x)) ∧
     vcvtLane false (.tag 1) m sat y x = tagged (descE4m3.conv false m sat y (decF32 x)) ∧
     vcvtLane false (.tag 2) m sat y x = tagged (descE5m2.conv true m sat y (decF32 x)) ∧
     vcvtLane false (.tag 3) m sat y x = tagged (convFp4 m y (decF32 x)) ∧
     (let r := convInt (-128) 127 m y (decF32 x); vcvtLane false (.tag 4) m sat y x = tagged (wrap 8 r.1, r.2)) ∧
     (let r := convInt (-8) 7 m y (decF32 x); vcvtLane false (.tag 5) m sat y x = tagged (wrap 4 r.1, r.2)) ∧
     vcvtLane false (.tag 6) m sat y x = tagged (convPs2 m y (decF32 x)) ∧
     (let r := convInt (-2 ^ 31) (2 ^ 31 - 1) m y (decF32 x); vcvtLane false .i32 m sat y x = (BitVec.ofInt 32 r.1, r.2)) ∧
     (x ≠ 0 → f.Rounds m y (decide (x.toInt < 0)) true |(x.toInt : ℚ)| (fun _ => f.convOver sat (decide (x.toInt < 0)))
        ((vcvtLane true .i32 m sat y x).1.toNat, (vcvtLane true .i32 m sat y x).2))) ∧
    (let code := x.toNat % 2 ^ tagWidth t
     (t ≠ 7 → Stands (decTag t code) q → Stands (decF32 (vcvtLane true (.tag t) m sat y x).1) q ∧ (vcvtLane true (.tag t) m sat y x).2 = 0) ∧
     (t ≠ 7 → decTag t code = .nan → vcvtLane true (.tag t) m sat y x = (if t = 0 then BitVec.ofNat 32 (code * 2 ^ 16) else 0x7FC00000, 0)) ∧
     (e < 255 → t ≠ 7 → Stands (decTag t code) q → ∃ v, Stands v (q * 2 ^ (e - 127 : Int)) ∧
       vdequantLane t m y e x = tagged (descF32.conv true m false y v)) ∧
     vdequantLane t m y 255 x = (0x7FC00000, 0)) ∧
    (e < 255 → Stands (decF32 x) q → ∃ v, Stands v (q * 2 ^ (127 - e : Int)) ∧ vquantLane t m sat y e x = tagged (convTag t m sat y v)) ∧
    vquantLane t m sat y 255 x = (if t = 6 then 0x77 else 0, if decF32 x = .nan then fNANLOST else 0) ∧
    -- `vquant.scale` (R189)
    (∀ xs : List Machine.Num,
      (.nan ∈ xs → blockScale t xs = (255, fNANLOST)) ∧
      (.nan ∉ xs → (∃ n, .inf n ∈ xs) → blockScale t xs = (254, 0)) ∧
      ((∀ z ∈ xs, Stands z 0) → blockScale t xs = (127, 0)) ∧
      (t ≠ 7 → 0 < q → (∀ z ∈ xs, ∃ r, Stands z r ∧ |r| ≤ q) → (∃ z ∈ xs, ∃ r, Stands z r ∧ |r| = q) →
        let most : ℚ := match t.val with
          | 0 => magOf 7 127 0x7F7F
          | 1 => 448
          | 2 => 57344
          | 3 => 6
          | 4 => 127
          | 5 => 7
          | _ => 2
        ∃ k : Int, q ≤ most * 2 ^ k ∧ most * 2 ^ (k - 1) < q ∧ blockScale t xs = ((min 254 (max 0 (127 + k))).toNat, 0))) ∧
    -- `vrnd` (R193)
    (decF32 x = .nan → vrndLane m y x = (0x7FC00000, 0)) ∧
    (∀ n, decF32 x = .inf n ∨ decF32 x = .fin n 0 (-149) → vrndLane m y x = (x, 0)) ∧
    (∀ n p i, decF32 x = .fin n p i → ∃ lo k, Picks m y (fun (j : Nat) => (j : ℚ)) (p * 2 ^ i) lo k ∧
      Stands (decF32 (vrndLane m y x).1) (if n then -(k : ℚ) else k) ∧ ((vrndLane m y x).1.getLsbD 31 = n) ∧
      (vrndLane m y x).2 = if (p : ℚ) * 2 ^ i = lo then 0 else fNX) ∧
    -- the special functions (R179, R180): NaNs, infinities, zeros and negative inputs
    (let nan : Lane × FFlags := (0x7FC00000, 0)
     let bad : Lane × FFlags := (0x7FC00000, fNV)
     let pinf : Lane := 0x7F800000
     let ninf : Lane := 0xFF800000
     (decF32 x = .nan → spExp2 x = nan ∧ spLog2 x = nan ∧ spRcp x = nan ∧ spRsqrt x = nan ∧ spSqrt m y x = nan ∧ spTanh x = nan ∧ spSigm x = nan) ∧
     (spExp2 ninf = (0, 0) ∧ spExp2 pinf = (pinf, 0) ∧ spLog2 pinf = (pinf, 0) ∧ spLog2 0 = (ninf, fDZ) ∧ spLog2 0x80000000 = (ninf, fDZ) ∧
      spLog2 0x3F800000 = (0, 0) ∧ spRcp 0 = (pinf, fDZ) ∧ spRcp 0x80000000 = (ninf, fDZ) ∧ spRcp pinf = (0, 0) ∧ spRcp ninf = (0x80000000, 0) ∧
      spRsqrt 0 = (pinf, fDZ) ∧ spRsqrt 0x80000000 = (ninf, fDZ) ∧ spRsqrt pinf = (0, 0) ∧ spSqrt m y 0 = (0, 0) ∧
      spSqrt m y 0x80000000 = (0x80000000, 0) ∧ spSqrt m y pinf = (pinf, 0) ∧ spTanh 0 = (0, 0) ∧ spTanh 0x80000000 = (0x80000000, 0) ∧
      spTanh pinf = (0x3F800000, 0) ∧ spTanh ninf = (0xBF800000, 0) ∧ spSigm ninf = (0, 0) ∧ spSigm pinf = (0x3F800000, 0) ∧
      spSigm 0 = (0x3F000000, 0) ∧ spSigm 0x80000000 = (0x3F000000, 0)) ∧
     ((Stands (decF32 x) q ∧ q < 0) ∨ x = ninf → spLog2 x = bad ∧ spRsqrt x = bad ∧ spSqrt m y x = bad) ∧
     -- the reciprocal and the roots, rounded once
     (Stands (decF32 x) q → q ≠ 0 → f.Rounds .rne 0 (decide (q < 0)) true (1 / |q|) (f.arithOver .rne (decide (q < 0))) ((spRcp x).1.toNat, (spRcp x).2)) ∧
     (Stands (decF32 x) q → 0 < q → ∃ lo n, f.val lo ^ 2 ≤ q ∧ q < f.val (lo + 1) ^ 2 ∧ (n = lo ∨ n = lo + 1) ∧
       (n = lo + 1 ↔ q ≠ f.val lo ^ 2 ∧ match m with
         | .rne => (f.val lo + f.val (lo + 1)) ^ 2 < 4 * q
         | .rtz => False
         | .rsr => (f.val lo + (f.val (lo + 1) - f.val lo) * y / 65536) ^ 2 ≤ q) ∧
       spSqrt m y x = (BitVec.ofNat 32 n, if q = f.val lo ^ 2 then 0 else fNX)) ∧
     (Stands (decF32 x) q → 0 < q → ∃ lo n, q * f.val lo ^ 2 ≤ 1 ∧ 1 < q * f.val (lo + 1) ^ 2 ∧ (n = lo ∨ n = lo + 1) ∧
       (n = lo + 1 ↔ 4 > q * (f.val lo + f.val (lo + 1)) ^ 2) ∧
       spRsqrt x = (BitVec.ofNat 32 n, if q * f.val lo ^ 2 = 1 then 0 else fNX)) ∧
     -- the examples of R180
     spExp2 0x43000000 = (pinf, fOF ||| fNX) ∧ spExp2 0xC3150000 = (1, 0) ∧ spRcp 0x40400000 = (0x3EAAAAAB, fNX) ∧
     spSigm 0xC2D00000 = (0, fUF ||| fNX))
end

