-- ==== Sys2Proof/Laws/Registers.lean ====
section
/-! SUPPORT. Laws of the register file: the hard-wired registers, reading after writing, lanes and masks. -/

namespace Sys2Proof.Machine

variable (r : Regs)

@[simp] theorem Regs.getS_zero : r.getS 0 = 0 := by simp [Regs.getS]
@[simp] theorem Regs.getP_zero : r.getP 0 = BitVec.allOnes 64 := by simp [Regs.getP]
@[simp] theorem Regs.setS_zero (x : Word) : r.setS 0 x = r := by simp [Regs.setS]
@[simp] theorem Regs.setP_zero (x : Word) : r.setP 0 x = r := by simp [Regs.setP]

/-- Reading a scalar register after writing one. -/
theorem Regs.getS_setS (n m : SReg) (x : Word) : (r.setS n x).getS m = if m = n ∧ n ≠ 0 then x else r.getS m := by
  by_cases hn : n = 0
  · simp [hn]
  · by_cases hm : m = n
    · subst hm; simp [Regs.getS, Regs.setS, hn]
    · have : n.val ≠ m.val := fun h => hm (Fin.ext h.symm)
      simp [Regs.getS, Regs.setS, hn, hm, this]
/-- Reading a predicate register after writing one. -/
theorem Regs.getP_setP (n m : PReg) (x : Word) : (r.setP n x).getP m = if m = n ∧ n ≠ 0 then x else r.getP m := by
  by_cases hn : n = 0
  · simp [hn]
  · by_cases hm : m = n
    · subst hm; simp [Regs.getP, Regs.setP, hn]
    · have : n.val ≠ m.val := fun h => hm (Fin.ext h.symm)
      simp [Regs.getP, Regs.setP, hn, hm, this]
/-- Reading a vector register after writing one. -/
theorem Regs.getV_setV (n m : VReg) (x : VecWord) : (r.setV n x).getV m = if m = n then x else r.getV m := by
  by_cases hm : m = n
  · subst hm; simp [Regs.getV, Regs.setV]
  · have : n.val ≠ m.val := fun h => hm (Fin.ext h.symm)
    simp [Regs.getV, Regs.setV, hm, this]

@[simp] theorem Regs.getS_setV (n : VReg) (m : SReg) (x : VecWord) : (r.setV n x).getS m = r.getS m := rfl
@[simp] theorem Regs.getP_setV (n : VReg) (m : PReg) (x : VecWord) : (r.setV n x).getP m = r.getP m := rfl
@[simp] theorem Regs.getV_setS (n : SReg) (m : VReg) (x : Word) : (r.setS n x).getV m = r.getV m := by
  unfold Regs.setS; split <;> rfl
@[simp] theorem Regs.getP_setS (n : SReg) (m : PReg) (x : Word) : (r.setS n x).getP m = r.getP m := by
  unfold Regs.setS; split <;> rfl
@[simp] theorem Regs.getV_setP (n : PReg) (m : VReg) (x : Word) : (r.setP n x).getV m = r.getV m := by
  unfold Regs.setP; split <;> rfl
@[simp] theorem Regs.getS_setP (n : PReg) (m : SReg) (x : Word) : (r.setP n x).getS m = r.getS m := by
  unfold Regs.setP; split <;> rfl

/-- What a register holds after a value is written to it: registers of 64 bits keep their low 64 bits. -/
def Reg.fit : Reg → VecWord → VecWord
  | .v _, x => x
  | .s _, x => (x.setWidth 64).setWidth 2048
  | .p _, x => (x.setWidth 64).setWidth 2048

/-- Reading any register after writing any register: a hard-wired one keeps its value. -/
theorem Regs.get_set (g k : Reg) (x : VecWord) :
    (r.set g x).get k = if k = g ∧ g.wired = false then g.fit x else r.get k := by
  cases g <;> cases k <;> simp [Regs.get, Regs.set, Reg.wired, Reg.fit, Regs.getS_setS, Regs.getP_setP, Regs.getV_setV]
  all_goals
    rename_i n m
    by_cases h : m = n
    · subst h; by_cases h0 : m = 0 <;> simp [h0]
    · simp [h]

@[simp] theorem Regs.loops_set (g : Reg) (x : VecWord) : (r.set g x).loops = r.loops := by
  cases g <;> simp only [Regs.set, Regs.setS, Regs.setV, Regs.setP] <;> (try split) <;> rfl
@[simp] theorem Regs.fflags_set (g : Reg) (x : VecWord) : (r.set g x).fflags = r.fflags := by
  cases g <;> simp only [Regs.set, Regs.setS, Regs.setV, Regs.setP] <;> (try split) <;> rfl
@[simp] theorem Regs.round_set (g : Reg) (x : VecWord) : (r.set g x).round = r.round := by
  cases g <;> simp only [Regs.set, Regs.setS, Regs.setV, Regs.setP] <;> (try split) <;> rfl
@[simp] theorem Regs.seed_set (g : Reg) (x : VecWord) : (r.set g x).seed = r.seed := by
  cases g <;> simp only [Regs.set, Regs.setS, Regs.setV, Regs.setP] <;> (try split) <;> rfl
@[simp] theorem Regs.lfsr_set (g : Reg) (x : VecWord) : (r.set g x).lfsr = r.lfsr := by
  cases g <;> simp only [Regs.set, Regs.setS, Regs.setV, Regs.setP] <;> (try split) <;> rfl

/-- A bit of a merge is a bit of the new value under the mask and of the old one elsewhere. -/
theorem getLsbD_mergeBits (old new mask : VecWord) (i : Nat) :
    (mergeBits old new mask).getLsbD i = if mask.getLsbD i then new.getLsbD i else old.getLsbD i := by
  by_cases hi : i < 2048
  · simp only [mergeBits, BitVec.getLsbD_or, BitVec.getLsbD_and, BitVec.getLsbD_not, hi, decide_true, Bool.true_and]
    cases mask.getLsbD i <;> simp
  · simp [mergeBits, BitVec.getLsbD_of_ge _ _ (Nat.le_of_not_lt hi)]

/-- Numbers of 64 lanes: digit i of the number that `ofLanes` builds. -/
theorem foldr_lanes_lt (f : Nat → Lane) (l : List Nat) :
    l.foldr (fun i n => (f i).toNat + 2 ^ 32 * n) 0 < 2 ^ (32 * l.length) := by
  induction l with
  | nil => simp
  | cons a l ih =>
    simp only [List.foldr_cons, List.length_cons, Nat.mul_add, Nat.pow_add]
    have := (f a).isLt
    omega
theorem foldr_lanes_digit (f : Nat → Lane) (l : List Nat) (k : Nat) :
    l.foldr (fun i n => (f i).toNat + 2 ^ 32 * n) 0 / 2 ^ (32 * k) % 2 ^ 32 = ((l[k]?.map f).getD 0).toNat := by
  induction l generalizing k with
  | nil => simp
  | cons a l ih =>
    have := (f a).isLt
    cases k with
    | zero =>
      simp only [List.foldr_cons, List.getElem?_cons_zero, Option.map_some, Option.getD_some]
      omega
    | succ k =>
      simp only [List.foldr_cons, List.getElem?_cons_succ]
      rw [← ih k, Nat.mul_add, Nat.add_comm (32 * k), Nat.pow_add, ← Nat.div_div_eq_div_mul]
      congr 2
      omega
/-- A lane of a vector built from its lanes. -/
theorem lane_ofLanes (f : Nat → Lane) (k : Nat) (h : k < 64) : lane (ofLanes f) k = f k := by
  have hlt : _ < 2 ^ 2048 := foldr_lanes_lt f (List.range 64)
  have hd := foldr_lanes_digit f (List.range 64) k
  have hn : (ofLanes f).toNat = (List.range 64).foldr (fun i n => (f i).toNat + 2 ^ 32 * n) 0 :=
    (BitVec.toNat_ofNat _ _).trans (Nat.mod_eq_of_lt hlt)
  have hk : (List.range 64)[k]? = some k := by rw [List.getElem?_range h]
  rw [hk, Option.map_some, Option.getD_some] at hd
  apply BitVec.eq_of_toNat_eq
  rw [lane, BitVec.extractLsb'_toNat, hn, Nat.shiftRight_eq_div_pow, hd]

/-- A lane of a merge under a lane mask: the new lane where the mask has its bit, the old one elsewhere. -/
theorem lane_mergeBits (old new : VecWord) (m : Word) (k : Nat) (h : k < 64) :
    lane (mergeBits old new (laneMask m)) k = if m.getLsbD k then lane new k else lane old k := by
  apply BitVec.eq_of_getLsbD_eq
  intro j hj
  have hm : (laneMask m).getLsbD (32 * k + j) = m.getLsbD k := by
    have := congrArg (fun x => x.getLsbD j) (lane_ofLanes (fun i => if m.getLsbD i then BitVec.allOnes 32 else 0) k h)
    simp only [lane, BitVec.getLsbD_extractLsb', hj, decide_true, Bool.true_and] at this
    rw [laneMask, this]
    cases hk : m.getLsbD k
    · simp
    · simp only [if_true, BitVec.getLsbD_allOnes, hj, decide_true]
  simp only [lane, BitVec.getLsbD_extractLsb', hj, decide_true, Bool.true_and, getLsbD_mergeBits, hm]
  split <;> simp [hj]

/-- The lanes computed for a mask: an active lane is what the function gives. -/
theorem computeLanes_eq (m : Word) (f : Nat → Lane × FFlags) :
    (computeLanes m f).1 = ofLanes fun i => if m.getLsbD i then (f i).1 else 0 := by
  have : ∀ l : List Nat, (l.foldr (fun i (n : Nat × FFlags) =>
      if m.getLsbD i then ((f i).1.toNat + 2 ^ 32 * n.1, (f i).2 ||| n.2) else (2 ^ 32 * n.1, n.2)) (0, 0)).1 =
      l.foldr (fun i n => (if m.getLsbD i then (f i).1 else (0 : Lane)).toNat + 2 ^ 32 * n) 0 := by
    intro l
    induction l with
    | nil => rfl
    | cons a l ih => simp only [List.foldr_cons]; split <;> simp_all
  simp only [computeLanes, ofLanes]
  rw [← this]
/-- An active lane of what is computed for a mask. -/
theorem lane_computeLanes (m : Word) (f : Nat → Lane × FFlags) (k : Nat) (h : k < 64) (hk : m.getLsbD k = true) :
    lane (computeLanes m f).1 k = (f k).1 := by
  rw [computeLanes_eq, lane_ofLanes _ _ h]; simp [hk]
/-- The flags computed for a mask: the OR over its active lanes. -/
theorem computeLanes_flags (m : Word) (f : Nat → Lane × FFlags) :
    (computeLanes m f).2 = (activeLanes m).foldr (fun i n => (f i).2 ||| n) 0 := by
  have : ∀ l : List Nat, (l.foldr (fun i (n : Nat × FFlags) =>
      if m.getLsbD i then ((f i).1.toNat + 2 ^ 32 * n.1, (f i).2 ||| n.2) else (2 ^ 32 * n.1, n.2)) (0, 0)).2 =
      (l.filter fun i => m.getLsbD i).foldr (fun i n => (f i).2 ||| n) 0 := by
    intro l
    induction l with
    | nil => rfl
    | cons a l ih => simp only [List.foldr_cons, List.filter_cons]; split <;> simp_all
  simpa [computeLanes, activeLanes] using this (List.range 64)

end Sys2Proof.Machine
end

