-- ==== Sys2Proof/Laws/State.lean ====
section
/-! SUPPORT. One lemma for each field and each update of the state, true by unfolding, and the laws of the
accessors of cores, front ends, partitions and ports. -/

namespace Sys2Proof.Machine

variable (s : State) (c d : CoreId) (p q : PartId)

@[simp] theorem State.setCore_parts (x : Core) : (s.setCore c x).parts = s.parts := rfl
@[simp] theorem State.setCore_mem (x : Core) : (s.setCore c x).mem = s.mem := rfl
@[simp] theorem State.setCore_pkg (x : Core) : (s.setCore c x).pkg = s.pkg := rfl
@[simp] theorem State.setCore_host (x : Core) : (s.setCore c x).host = s.host := rfl
@[simp] theorem State.setCore_ports (x : Core) : (s.setCore c x).ports = s.ports := rfl
@[simp] theorem State.setCore_mgmt (x : Core) : (s.setCore c x).mgmt = s.mgmt := rfl
@[simp] theorem State.setCore_net (x : Core) : (s.setCore c x).net = s.net := rfl
@[simp] theorem State.setCore_images (x : Core) : (s.setCore c x).images = s.images := rfl
@[simp] theorem State.setCore_parked (x : Core) : (s.setCore c x).parked = s.parked := rfl
@[simp] theorem State.setCore_ties (x : Core) : (s.setCore c x).ties = s.ties := rfl
@[simp] theorem State.setCore_nextMsg (x : Core) : (s.setCore c x).nextMsg = s.nextMsg := rfl
@[simp] theorem State.setCore_nextLaunch (x : Core) : (s.setCore c x).nextLaunch = s.nextLaunch := rfl
@[simp] theorem State.setCore_cycle (x : Core) : (s.setCore c x).cycle = s.cycle := rfl
@[simp] theorem State.setCore_ptime (x : Core) : (s.setCore c x).ptime = s.ptime := rfl
@[simp] theorem State.setCore_sixths (x : Core) : (s.setCore c x).sixths = s.sixths := rfl
@[simp] theorem State.setCore_timeRuns (x : Core) : (s.setCore c x).timeRuns = s.timeRuns := rfl
@[simp] theorem State.setCore_cur (x : Core) : (s.setCore c x).cur = s.cur := rfl
@[simp] theorem State.setCore_turns (x : Core) : (s.setCore c x).turns = s.turns := rfl
@[simp] theorem State.setCore_steps (x : Core) : (s.setCore c x).steps = s.steps := rfl
@[simp] theorem State.setCore_free (x : Core) : (s.setCore c x).free = s.free := rfl

@[simp] theorem State.modCore_parts (g : Core → Core) : (s.modCore c g).parts = s.parts := rfl
@[simp] theorem State.modCore_mem (g : Core → Core) : (s.modCore c g).mem = s.mem := rfl
@[simp] theorem State.modCore_pkg (g : Core → Core) : (s.modCore c g).pkg = s.pkg := rfl
@[simp] theorem State.modCore_host (g : Core → Core) : (s.modCore c g).host = s.host := rfl
@[simp] theorem State.modCore_ports (g : Core → Core) : (s.modCore c g).ports = s.ports := rfl
@[simp] theorem State.modCore_mgmt (g : Core → Core) : (s.modCore c g).mgmt = s.mgmt := rfl
@[simp] theorem State.modCore_net (g : Core → Core) : (s.modCore c g).net = s.net := rfl
@[simp] theorem State.modCore_images (g : Core → Core) : (s.modCore c g).images = s.images := rfl
@[simp] theorem State.modCore_parked (g : Core → Core) : (s.modCore c g).parked = s.parked := rfl
@[simp] theorem State.modCore_ties (g : Core → Core) : (s.modCore c g).ties = s.ties := rfl
@[simp] theorem State.modCore_nextMsg (g : Core → Core) : (s.modCore c g).nextMsg = s.nextMsg := rfl
@[simp] theorem State.modCore_nextLaunch (g : Core → Core) : (s.modCore c g).nextLaunch = s.nextLaunch := rfl
@[simp] theorem State.modCore_cycle (g : Core → Core) : (s.modCore c g).cycle = s.cycle := rfl
@[simp] theorem State.modCore_ptime (g : Core → Core) : (s.modCore c g).ptime = s.ptime := rfl
@[simp] theorem State.modCore_sixths (g : Core → Core) : (s.modCore c g).sixths = s.sixths := rfl
@[simp] theorem State.modCore_timeRuns (g : Core → Core) : (s.modCore c g).timeRuns = s.timeRuns := rfl
@[simp] theorem State.modCore_cur (g : Core → Core) : (s.modCore c g).cur = s.cur := rfl
@[simp] theorem State.modCore_turns (g : Core → Core) : (s.modCore c g).turns = s.turns := rfl
@[simp] theorem State.modCore_steps (g : Core → Core) : (s.modCore c g).steps = s.steps := rfl
@[simp] theorem State.modCore_free (g : Core → Core) : (s.modCore c g).free = s.free := rfl

@[simp] theorem State.modFront_parts (g : Front → Front) : (s.modFront c g).parts = s.parts := rfl
@[simp] theorem State.modFront_mem (g : Front → Front) : (s.modFront c g).mem = s.mem := rfl
@[simp] theorem State.modFront_pkg (g : Front → Front) : (s.modFront c g).pkg = s.pkg := rfl
@[simp] theorem State.modFront_host (g : Front → Front) : (s.modFront c g).host = s.host := rfl
@[simp] theorem State.modFront_ports (g : Front → Front) : (s.modFront c g).ports = s.ports := rfl
@[simp] theorem State.modFront_mgmt (g : Front → Front) : (s.modFront c g).mgmt = s.mgmt := rfl
@[simp] theorem State.modFront_net (g : Front → Front) : (s.modFront c g).net = s.net := rfl
@[simp] theorem State.modFront_images (g : Front → Front) : (s.modFront c g).images = s.images := rfl
@[simp] theorem State.modFront_parked (g : Front → Front) : (s.modFront c g).parked = s.parked := rfl
@[simp] theorem State.modFront_ties (g : Front → Front) : (s.modFront c g).ties = s.ties := rfl
@[simp] theorem State.modFront_nextMsg (g : Front → Front) : (s.modFront c g).nextMsg = s.nextMsg := rfl
@[simp] theorem State.modFront_nextLaunch (g : Front → Front) : (s.modFront c g).nextLaunch = s.nextLaunch := rfl
@[simp] theorem State.modFront_cycle (g : Front → Front) : (s.modFront c g).cycle = s.cycle := rfl
@[simp] theorem State.modFront_ptime (g : Front → Front) : (s.modFront c g).ptime = s.ptime := rfl
@[simp] theorem State.modFront_sixths (g : Front → Front) : (s.modFront c g).sixths = s.sixths := rfl
@[simp] theorem State.modFront_timeRuns (g : Front → Front) : (s.modFront c g).timeRuns = s.timeRuns := rfl
@[simp] theorem State.modFront_cur (g : Front → Front) : (s.modFront c g).cur = s.cur := rfl
@[simp] theorem State.modFront_turns (g : Front → Front) : (s.modFront c g).turns = s.turns := rfl
@[simp] theorem State.modFront_steps (g : Front → Front) : (s.modFront c g).steps = s.steps := rfl
@[simp] theorem State.modFront_free (g : Front → Front) : (s.modFront c g).free = s.free := rfl

@[simp] theorem State.modPart_cores (g : Part → Part) : (s.modPart p g).cores = s.cores := rfl
@[simp] theorem State.modPart_mem (g : Part → Part) : (s.modPart p g).mem = s.mem := rfl
@[simp] theorem State.modPart_pkg (g : Part → Part) : (s.modPart p g).pkg = s.pkg := rfl
@[simp] theorem State.modPart_host (g : Part → Part) : (s.modPart p g).host = s.host := rfl
@[simp] theorem State.modPart_ports (g : Part → Part) : (s.modPart p g).ports = s.ports := rfl
@[simp] theorem State.modPart_mgmt (g : Part → Part) : (s.modPart p g).mgmt = s.mgmt := rfl
@[simp] theorem State.modPart_net (g : Part → Part) : (s.modPart p g).net = s.net := rfl
@[simp] theorem State.modPart_images (g : Part → Part) : (s.modPart p g).images = s.images := rfl
@[simp] theorem State.modPart_parked (g : Part → Part) : (s.modPart p g).parked = s.parked := rfl
@[simp] theorem State.modPart_ties (g : Part → Part) : (s.modPart p g).ties = s.ties := rfl
@[simp] theorem State.modPart_nextMsg (g : Part → Part) : (s.modPart p g).nextMsg = s.nextMsg := rfl
@[simp] theorem State.modPart_nextLaunch (g : Part → Part) : (s.modPart p g).nextLaunch = s.nextLaunch := rfl
@[simp] theorem State.modPart_cycle (g : Part → Part) : (s.modPart p g).cycle = s.cycle := rfl
@[simp] theorem State.modPart_ptime (g : Part → Part) : (s.modPart p g).ptime = s.ptime := rfl
@[simp] theorem State.modPart_sixths (g : Part → Part) : (s.modPart p g).sixths = s.sixths := rfl
@[simp] theorem State.modPart_timeRuns (g : Part → Part) : (s.modPart p g).timeRuns = s.timeRuns := rfl
@[simp] theorem State.modPart_cur (g : Part → Part) : (s.modPart p g).cur = s.cur := rfl
@[simp] theorem State.modPart_turns (g : Part → Part) : (s.modPart p g).turns = s.turns := rfl
@[simp] theorem State.modPart_steps (g : Part → Part) : (s.modPart p g).steps = s.steps := rfl
@[simp] theorem State.modPart_free (g : Part → Part) : (s.modPart p g).free = s.free := rfl

@[simp] theorem State.modLaunch_cores (n : Nat) (g : Launch → Launch) : (s.modLaunch p n g).cores = s.cores := rfl
@[simp] theorem State.modLaunch_mem (n : Nat) (g : Launch → Launch) : (s.modLaunch p n g).mem = s.mem := rfl
@[simp] theorem State.modLaunch_pkg (n : Nat) (g : Launch → Launch) : (s.modLaunch p n g).pkg = s.pkg := rfl
@[simp] theorem State.modLaunch_host (n : Nat) (g : Launch → Launch) : (s.modLaunch p n g).host = s.host := rfl
@[simp] theorem State.modLaunch_ports (n : Nat) (g : Launch → Launch) : (s.modLaunch p n g).ports = s.ports := rfl
@[simp] theorem State.modLaunch_mgmt (n : Nat) (g : Launch → Launch) : (s.modLaunch p n g).mgmt = s.mgmt := rfl
@[simp] theorem State.modLaunch_net (n : Nat) (g : Launch → Launch) : (s.modLaunch p n g).net = s.net := rfl
@[simp] theorem State.modLaunch_images (n : Nat) (g : Launch → Launch) : (s.modLaunch p n g).images = s.images := rfl
@[simp] theorem State.modLaunch_parked (n : Nat) (g : Launch → Launch) : (s.modLaunch p n g).parked = s.parked := rfl
@[simp] theorem State.modLaunch_ties (n : Nat) (g : Launch → Launch) : (s.modLaunch p n g).ties = s.ties := rfl
@[simp] theorem State.modLaunch_nextMsg (n : Nat) (g : Launch → Launch) : (s.modLaunch p n g).nextMsg = s.nextMsg := rfl
@[simp] theorem State.modLaunch_nextLaunch (n : Nat) (g : Launch → Launch) : (s.modLaunch p n g).nextLaunch = s.nextLaunch := rfl
@[simp] theorem State.modLaunch_cycle (n : Nat) (g : Launch → Launch) : (s.modLaunch p n g).cycle = s.cycle := rfl
@[simp] theorem State.modLaunch_ptime (n : Nat) (g : Launch → Launch) : (s.modLaunch p n g).ptime = s.ptime := rfl
@[simp] theorem State.modLaunch_sixths (n : Nat) (g : Launch → Launch) : (s.modLaunch p n g).sixths = s.sixths := rfl
@[simp] theorem State.modLaunch_timeRuns (n : Nat) (g : Launch → Launch) : (s.modLaunch p n g).timeRuns = s.timeRuns := rfl
@[simp] theorem State.modLaunch_cur (n : Nat) (g : Launch → Launch) : (s.modLaunch p n g).cur = s.cur := rfl
@[simp] theorem State.modLaunch_turns (n : Nat) (g : Launch → Launch) : (s.modLaunch p n g).turns = s.turns := rfl
@[simp] theorem State.modLaunch_steps (n : Nat) (g : Launch → Launch) : (s.modLaunch p n g).steps = s.steps := rfl
@[simp] theorem State.modLaunch_free (n : Nat) (g : Launch → Launch) : (s.modLaunch p n g).free = s.free := rfl

@[simp] theorem State.touch_cores : (s.touch p).cores = s.cores := rfl
@[simp] theorem State.touch_mem : (s.touch p).mem = s.mem := rfl
@[simp] theorem State.touch_pkg : (s.touch p).pkg = s.pkg := rfl
@[simp] theorem State.touch_host : (s.touch p).host = s.host := rfl
@[simp] theorem State.touch_ports : (s.touch p).ports = s.ports := rfl
@[simp] theorem State.touch_mgmt : (s.touch p).mgmt = s.mgmt := rfl
@[simp] theorem State.touch_net : (s.touch p).net = s.net := rfl
@[simp] theorem State.touch_images : (s.touch p).images = s.images := rfl
@[simp] theorem State.touch_parked : (s.touch p).parked = s.parked := rfl
@[simp] theorem State.touch_ties : (s.touch p).ties = s.ties := rfl
@[simp] theorem State.touch_nextMsg : (s.touch p).nextMsg = s.nextMsg := rfl
@[simp] theorem State.touch_nextLaunch : (s.touch p).nextLaunch = s.nextLaunch := rfl
@[simp] theorem State.touch_cycle : (s.touch p).cycle = s.cycle := rfl
@[simp] theorem State.touch_ptime : (s.touch p).ptime = s.ptime := rfl
@[simp] theorem State.touch_sixths : (s.touch p).sixths = s.sixths := rfl
@[simp] theorem State.touch_timeRuns : (s.touch p).timeRuns = s.timeRuns := rfl
@[simp] theorem State.touch_cur : (s.touch p).cur = s.cur := rfl
@[simp] theorem State.touch_turns : (s.touch p).turns = s.turns := rfl
@[simp] theorem State.touch_steps : (s.touch p).steps = s.steps := rfl
@[simp] theorem State.touch_free : (s.touch p).free = s.free := rfl

@[simp] theorem State.modPort_cores (r : PortId) (g : Port → Port) : (s.modPort r g).cores = s.cores := rfl
@[simp] theorem State.modPort_parts (r : PortId) (g : Port → Port) : (s.modPort r g).parts = s.parts := rfl
@[simp] theorem State.modPort_mem (r : PortId) (g : Port → Port) : (s.modPort r g).mem = s.mem := rfl
@[simp] theorem State.modPort_pkg (r : PortId) (g : Port → Port) : (s.modPort r g).pkg = s.pkg := rfl
@[simp] theorem State.modPort_host (r : PortId) (g : Port → Port) : (s.modPort r g).host = s.host := rfl
@[simp] theorem State.modPort_mgmt (r : PortId) (g : Port → Port) : (s.modPort r g).mgmt = s.mgmt := rfl
@[simp] theorem State.modPort_net (r : PortId) (g : Port → Port) : (s.modPort r g).net = s.net := rfl
@[simp] theorem State.modPort_images (r : PortId) (g : Port → Port) : (s.modPort r g).images = s.images := rfl
@[simp] theorem State.modPort_parked (r : PortId) (g : Port → Port) : (s.modPort r g).parked = s.parked := rfl
@[simp] theorem State.modPort_ties (r : PortId) (g : Port → Port) : (s.modPort r g).ties = s.ties := rfl
@[simp] theorem State.modPort_nextMsg (r : PortId) (g : Port → Port) : (s.modPort r g).nextMsg = s.nextMsg := rfl
@[simp] theorem State.modPort_nextLaunch (r : PortId) (g : Port → Port) : (s.modPort r g).nextLaunch = s.nextLaunch := rfl
@[simp] theorem State.modPort_cycle (r : PortId) (g : Port → Port) : (s.modPort r g).cycle = s.cycle := rfl
@[simp] theorem State.modPort_ptime (r : PortId) (g : Port → Port) : (s.modPort r g).ptime = s.ptime := rfl
@[simp] theorem State.modPort_sixths (r : PortId) (g : Port → Port) : (s.modPort r g).sixths = s.sixths := rfl
@[simp] theorem State.modPort_timeRuns (r : PortId) (g : Port → Port) : (s.modPort r g).timeRuns = s.timeRuns := rfl
@[simp] theorem State.modPort_cur (r : PortId) (g : Port → Port) : (s.modPort r g).cur = s.cur := rfl
@[simp] theorem State.modPort_turns (r : PortId) (g : Port → Port) : (s.modPort r g).turns = s.turns := rfl
@[simp] theorem State.modPort_steps (r : PortId) (g : Port → Port) : (s.modPort r g).steps = s.steps := rfl
@[simp] theorem State.modPort_free (r : PortId) (g : Port → Port) : (s.modPort r g).free = s.free := rfl

@[simp] theorem State.takeWord_cores : (s.takeWord.2).cores = s.cores := rfl
@[simp] theorem State.takeWord_parts : (s.takeWord.2).parts = s.parts := rfl
@[simp] theorem State.takeWord_mem : (s.takeWord.2).mem = s.mem := rfl
@[simp] theorem State.takeWord_pkg : (s.takeWord.2).pkg = s.pkg := rfl
@[simp] theorem State.takeWord_host : (s.takeWord.2).host = s.host := rfl
@[simp] theorem State.takeWord_ports : (s.takeWord.2).ports = s.ports := rfl
@[simp] theorem State.takeWord_mgmt : (s.takeWord.2).mgmt = s.mgmt := rfl
@[simp] theorem State.takeWord_net : (s.takeWord.2).net = s.net := rfl
@[simp] theorem State.takeWord_images : (s.takeWord.2).images = s.images := rfl
@[simp] theorem State.takeWord_parked : (s.takeWord.2).parked = s.parked := rfl
@[simp] theorem State.takeWord_ties : (s.takeWord.2).ties = s.ties := rfl
@[simp] theorem State.takeWord_nextMsg : (s.takeWord.2).nextMsg = s.nextMsg := rfl
@[simp] theorem State.takeWord_nextLaunch : (s.takeWord.2).nextLaunch = s.nextLaunch := rfl
@[simp] theorem State.takeWord_cycle : (s.takeWord.2).cycle = s.cycle := rfl
@[simp] theorem State.takeWord_ptime : (s.takeWord.2).ptime = s.ptime := rfl
@[simp] theorem State.takeWord_sixths : (s.takeWord.2).sixths = s.sixths := rfl
@[simp] theorem State.takeWord_timeRuns : (s.takeWord.2).timeRuns = s.timeRuns := rfl
@[simp] theorem State.takeWord_cur : (s.takeWord.2).cur = s.cur := rfl
@[simp] theorem State.takeWord_turns : (s.takeWord.2).turns = s.turns := rfl
@[simp] theorem State.takeWord_steps : (s.takeWord.2).steps = s.steps := rfl

@[simp] theorem State.takeNat_cores : (s.takeNat.2).cores = s.cores := rfl
@[simp] theorem State.takeNat_parts : (s.takeNat.2).parts = s.parts := rfl
@[simp] theorem State.takeNat_mem : (s.takeNat.2).mem = s.mem := rfl
@[simp] theorem State.takeNat_pkg : (s.takeNat.2).pkg = s.pkg := rfl
@[simp] theorem State.takeNat_host : (s.takeNat.2).host = s.host := rfl
@[simp] theorem State.takeNat_ports : (s.takeNat.2).ports = s.ports := rfl
@[simp] theorem State.takeNat_mgmt : (s.takeNat.2).mgmt = s.mgmt := rfl
@[simp] theorem State.takeNat_net : (s.takeNat.2).net = s.net := rfl
@[simp] theorem State.takeNat_images : (s.takeNat.2).images = s.images := rfl
@[simp] theorem State.takeNat_parked : (s.takeNat.2).parked = s.parked := rfl
@[simp] theorem State.takeNat_ties : (s.takeNat.2).ties = s.ties := rfl
@[simp] theorem State.takeNat_nextMsg : (s.takeNat.2).nextMsg = s.nextMsg := rfl
@[simp] theorem State.takeNat_nextLaunch : (s.takeNat.2).nextLaunch = s.nextLaunch := rfl
@[simp] theorem State.takeNat_cycle : (s.takeNat.2).cycle = s.cycle := rfl
@[simp] theorem State.takeNat_ptime : (s.takeNat.2).ptime = s.ptime := rfl
@[simp] theorem State.takeNat_sixths : (s.takeNat.2).sixths = s.sixths := rfl
@[simp] theorem State.takeNat_timeRuns : (s.takeNat.2).timeRuns = s.timeRuns := rfl
@[simp] theorem State.takeNat_cur : (s.takeNat.2).cur = s.cur := rfl
@[simp] theorem State.takeNat_turns : (s.takeNat.2).turns = s.turns := rfl
@[simp] theorem State.takeNat_steps : (s.takeNat.2).steps = s.steps := rfl

@[simp] theorem State.poke_cores (a : Nat) (bs : List Byte) (cmp bad : Bool) (own : PartId) : (s.poke a bs cmp bad own).cores = s.cores := by
  simp only [State.poke]; split <;> rfl
@[simp] theorem State.poke_parts (a : Nat) (bs : List Byte) (bad : Bool) (own : PartId) : (s.poke a bs false bad own).parts = s.parts := rfl
@[simp] theorem State.poke_pkg (a : Nat) (bs : List Byte) (cmp bad : Bool) (own : PartId) : (s.poke a bs cmp bad own).pkg = s.pkg := by
  simp only [State.poke]; split <;> rfl
@[simp] theorem State.poke_host (a : Nat) (bs : List Byte) (cmp bad : Bool) (own : PartId) : (s.poke a bs cmp bad own).host = s.host := by
  simp only [State.poke]; split <;> rfl
@[simp] theorem State.poke_ports (a : Nat) (bs : List Byte) (cmp bad : Bool) (own : PartId) : (s.poke a bs cmp bad own).ports = s.ports := by
  simp only [State.poke]; split <;> rfl
@[simp] theorem State.poke_mgmt (a : Nat) (bs : List Byte) (cmp bad : Bool) (own : PartId) : (s.poke a bs cmp bad own).mgmt = s.mgmt := by
  simp only [State.poke]; split <;> rfl
@[simp] theorem State.poke_net (a : Nat) (bs : List Byte) (cmp bad : Bool) (own : PartId) : (s.poke a bs cmp bad own).net = s.net := by
  simp only [State.poke]; split <;> rfl
@[simp] theorem State.poke_images (a : Nat) (bs : List Byte) (cmp bad : Bool) (own : PartId) : (s.poke a bs cmp bad own).images = s.images := by
  simp only [State.poke]; split <;> rfl
@[simp] theorem State.poke_parked (a : Nat) (bs : List Byte) (cmp bad : Bool) (own : PartId) : (s.poke a bs cmp bad own).parked = s.parked := by
  simp only [State.poke]; split <;> rfl
@[simp] theorem State.poke_ties (a : Nat) (bs : List Byte) (cmp bad : Bool) (own : PartId) : (s.poke a bs cmp bad own).ties = s.ties := by
  simp only [State.poke]; split <;> rfl
@[simp] theorem State.poke_nextMsg (a : Nat) (bs : List Byte) (cmp bad : Bool) (own : PartId) : (s.poke a bs cmp bad own).nextMsg = s.nextMsg := by
  simp only [State.poke]; split <;> rfl
@[simp] theorem State.poke_nextLaunch (a : Nat) (bs : List Byte) (cmp bad : Bool) (own : PartId) : (s.poke a bs cmp bad own).nextLaunch = s.nextLaunch := by
  simp only [State.poke]; split <;> rfl
@[simp] theorem State.poke_cycle (a : Nat) (bs : List Byte) (cmp bad : Bool) (own : PartId) : (s.poke a bs cmp bad own).cycle = s.cycle := by
  simp only [State.poke]; split <;> rfl
@[simp] theorem State.poke_ptime (a : Nat) (bs : List Byte) (cmp bad : Bool) (own : PartId) : (s.poke a bs cmp bad own).ptime = s.ptime := by
  simp only [State.poke]; split <;> rfl
@[simp] theorem State.poke_sixths (a : Nat) (bs : List Byte) (cmp bad : Bool) (own : PartId) : (s.poke a bs cmp bad own).sixths = s.sixths := by
  simp only [State.poke]; split <;> rfl
@[simp] theorem State.poke_timeRuns (a : Nat) (bs : List Byte) (cmp bad : Bool) (own : PartId) : (s.poke a bs cmp bad own).timeRuns = s.timeRuns := by
  simp only [State.poke]; split <;> rfl
@[simp] theorem State.poke_cur (a : Nat) (bs : List Byte) (cmp bad : Bool) (own : PartId) : (s.poke a bs cmp bad own).cur = s.cur := by
  simp only [State.poke]; split <;> rfl
@[simp] theorem State.poke_turns (a : Nat) (bs : List Byte) (cmp bad : Bool) (own : PartId) : (s.poke a bs cmp bad own).turns = s.turns := by
  simp only [State.poke]; split <;> rfl
@[simp] theorem State.poke_steps (a : Nat) (bs : List Byte) (cmp bad : Bool) (own : PartId) : (s.poke a bs cmp bad own).steps = s.steps := by
  simp only [State.poke]; split <;> rfl
@[simp] theorem State.poke_free (a : Nat) (bs : List Byte) (cmp bad : Bool) (own : PartId) : (s.poke a bs cmp bad own).free = s.free := by
  simp only [State.poke]; split <;> rfl

@[simp] theorem State.pass_cores (n : Nat) : (s.pass n).cores = s.cores := rfl
@[simp] theorem State.pass_parts (n : Nat) : (s.pass n).parts = s.parts := rfl
@[simp] theorem State.pass_mem (n : Nat) : (s.pass n).mem = s.mem := rfl
@[simp] theorem State.pass_pkg (n : Nat) : (s.pass n).pkg = s.pkg := rfl
@[simp] theorem State.pass_host (n : Nat) : (s.pass n).host = s.host := rfl
@[simp] theorem State.pass_ports (n : Nat) : (s.pass n).ports = s.ports := rfl
@[simp] theorem State.pass_mgmt (n : Nat) : (s.pass n).mgmt = s.mgmt := rfl
@[simp] theorem State.pass_net (n : Nat) : (s.pass n).net = s.net := rfl
@[simp] theorem State.pass_images (n : Nat) : (s.pass n).images = s.images := rfl
@[simp] theorem State.pass_parked (n : Nat) : (s.pass n).parked = s.parked := rfl
@[simp] theorem State.pass_ties (n : Nat) : (s.pass n).ties = s.ties := rfl
@[simp] theorem State.pass_nextMsg (n : Nat) : (s.pass n).nextMsg = s.nextMsg := rfl
@[simp] theorem State.pass_nextLaunch (n : Nat) : (s.pass n).nextLaunch = s.nextLaunch := rfl
@[simp] theorem State.pass_timeRuns (n : Nat) : (s.pass n).timeRuns = s.timeRuns := rfl
@[simp] theorem State.pass_cur (n : Nat) : (s.pass n).cur = s.cur := rfl
@[simp] theorem State.pass_turns (n : Nat) : (s.pass n).turns = s.turns := rfl
@[simp] theorem State.pass_steps (n : Nat) : (s.pass n).steps = s.steps := rfl
@[simp] theorem State.pass_free (n : Nat) : (s.pass n).free = s.free := rfl

@[simp] theorem State.retire_parts (h : Hdr) (lat : Option Nat) (x : Done) : (s.retire h lat x).parts = s.parts := rfl
@[simp] theorem State.retire_mem (h : Hdr) (lat : Option Nat) (x : Done) : (s.retire h lat x).mem = s.mem := rfl
@[simp] theorem State.retire_pkg (h : Hdr) (lat : Option Nat) (x : Done) : (s.retire h lat x).pkg = s.pkg := rfl
@[simp] theorem State.retire_host (h : Hdr) (lat : Option Nat) (x : Done) : (s.retire h lat x).host = s.host := rfl
@[simp] theorem State.retire_ports (h : Hdr) (lat : Option Nat) (x : Done) : (s.retire h lat x).ports = s.ports := rfl
@[simp] theorem State.retire_mgmt (h : Hdr) (lat : Option Nat) (x : Done) : (s.retire h lat x).mgmt = s.mgmt := rfl
@[simp] theorem State.retire_net (h : Hdr) (lat : Option Nat) (x : Done) : (s.retire h lat x).net = s.net := rfl
@[simp] theorem State.retire_images (h : Hdr) (lat : Option Nat) (x : Done) : (s.retire h lat x).images = s.images := rfl
@[simp] theorem State.retire_parked (h : Hdr) (lat : Option Nat) (x : Done) : (s.retire h lat x).parked = s.parked := rfl
@[simp] theorem State.retire_ties (h : Hdr) (lat : Option Nat) (x : Done) : (s.retire h lat x).ties = s.ties := rfl
@[simp] theorem State.retire_nextMsg (h : Hdr) (lat : Option Nat) (x : Done) : (s.retire h lat x).nextMsg = s.nextMsg := rfl
@[simp] theorem State.retire_nextLaunch (h : Hdr) (lat : Option Nat) (x : Done) : (s.retire h lat x).nextLaunch = s.nextLaunch := rfl
@[simp] theorem State.retire_cycle (h : Hdr) (lat : Option Nat) (x : Done) : (s.retire h lat x).cycle = s.cycle := rfl
@[simp] theorem State.retire_ptime (h : Hdr) (lat : Option Nat) (x : Done) : (s.retire h lat x).ptime = s.ptime := rfl
@[simp] theorem State.retire_sixths (h : Hdr) (lat : Option Nat) (x : Done) : (s.retire h lat x).sixths = s.sixths := rfl
@[simp] theorem State.retire_timeRuns (h : Hdr) (lat : Option Nat) (x : Done) : (s.retire h lat x).timeRuns = s.timeRuns := rfl
@[simp] theorem State.retire_cur (h : Hdr) (lat : Option Nat) (x : Done) : (s.retire h lat x).cur = s.cur := rfl
@[simp] theorem State.retire_turns (h : Hdr) (lat : Option Nat) (x : Done) : (s.retire h lat x).turns = s.turns := rfl
@[simp] theorem State.retire_steps (h : Hdr) (lat : Option Nat) (x : Done) : (s.retire h lat x).steps = s.steps := rfl
@[simp] theorem State.retire_free (h : Hdr) (lat : Option Nat) (x : Done) : (s.retire h lat x).free = s.free := rfl

@[simp] theorem State.tie_cores (key route : Nat) : (s.tie key route).cores = s.cores := rfl
@[simp] theorem State.tie_parts (key route : Nat) : (s.tie key route).parts = s.parts := rfl
@[simp] theorem State.tie_mem (key route : Nat) : (s.tie key route).mem = s.mem := rfl
@[simp] theorem State.tie_pkg (key route : Nat) : (s.tie key route).pkg = s.pkg := rfl
@[simp] theorem State.tie_host (key route : Nat) : (s.tie key route).host = s.host := rfl
@[simp] theorem State.tie_ports (key route : Nat) : (s.tie key route).ports = s.ports := rfl
@[simp] theorem State.tie_mgmt (key route : Nat) : (s.tie key route).mgmt = s.mgmt := rfl
@[simp] theorem State.tie_net (key route : Nat) : (s.tie key route).net = s.net := rfl
@[simp] theorem State.tie_images (key route : Nat) : (s.tie key route).images = s.images := rfl
@[simp] theorem State.tie_parked (key route : Nat) : (s.tie key route).parked = s.parked := rfl
@[simp] theorem State.tie_nextMsg (key route : Nat) : (s.tie key route).nextMsg = s.nextMsg := rfl
@[simp] theorem State.tie_nextLaunch (key route : Nat) : (s.tie key route).nextLaunch = s.nextLaunch := rfl
@[simp] theorem State.tie_cycle (key route : Nat) : (s.tie key route).cycle = s.cycle := rfl
@[simp] theorem State.tie_ptime (key route : Nat) : (s.tie key route).ptime = s.ptime := rfl
@[simp] theorem State.tie_sixths (key route : Nat) : (s.tie key route).sixths = s.sixths := rfl
@[simp] theorem State.tie_timeRuns (key route : Nat) : (s.tie key route).timeRuns = s.timeRuns := rfl
@[simp] theorem State.tie_cur (key route : Nat) : (s.tie key route).cur = s.cur := rfl
@[simp] theorem State.tie_turns (key route : Nat) : (s.tie key route).turns = s.turns := rfl
@[simp] theorem State.tie_steps (key route : Nat) : (s.tie key route).steps = s.steps := rfl
@[simp] theorem State.tie_free (key route : Nat) : (s.tie key route).free = s.free := rfl
@[simp] theorem State.core_tie (key route : Nat) : (s.tie key route).core c = s.core c := rfl
@[simp] theorem State.part_tie (key route : Nat) : (s.tie key route).part p = s.part p := rfl

@[simp] theorem State.pass_cycle (n : Nat) : (s.pass n).cycle = s.cycle + n := rfl

@[simp] theorem State.core_setCore (x : Core) : (s.setCore c x).core c = x := by
  simp [State.core, State.setCore]
theorem State.core_setCore_ne (x : Core) (h : d ≠ c) : (s.setCore c x).core d = s.core d := by
  simp [State.core, State.setCore, Fin.val_ne_of_ne h.symm]
@[simp] theorem State.core_modCore (g : Core → Core) : (s.modCore c g).core c = g (s.core c) := by
  simp [State.modCore]
theorem State.core_modCore_ne (g : Core → Core) (h : d ≠ c) : (s.modCore c g).core d = s.core d :=
  s.core_setCore_ne c d _ h
@[simp] theorem State.core_modFront (g : Front → Front) : (s.modFront c g).core c = (s.core c).setFront (g (s.front c)) := by
  simp [State.modFront, State.front]
theorem State.core_modFront_ne (g : Front → Front) (h : d ≠ c) : (s.modFront c g).core d = s.core d :=
  s.core_modCore_ne c d _ h
@[simp] theorem State.front_modFront (g : Front → Front) : (s.modFront c g).front c = g (s.front c) := by
  simp [State.front, Core.setFront]
theorem State.front_modFront_ne (g : Front → Front) (h : d ≠ c) : (s.modFront c g).front d = s.front d := by
  simp [State.front, s.core_modFront_ne c d g h]
@[simp] theorem State.core_modPart (g : Part → Part) : (s.modPart p g).core c = s.core c := rfl
@[simp] theorem State.core_touch : (s.touch p).core c = s.core c := rfl
@[simp] theorem State.part_modPart (g : Part → Part) : (s.modPart p g).part p = g (s.part p) := by
  simp [State.part, State.modPart]
theorem State.part_modPart_ne (g : Part → Part) (h : q ≠ p) : (s.modPart p g).part q = s.part q := by
  simp [State.part, State.modPart, Fin.val_ne_of_ne h.symm]
@[simp] theorem State.part_modCore (g : Core → Core) : (s.modCore c g).part p = s.part p := rfl
@[simp] theorem State.pmapOf_modCore (g : Core → Core) : (s.modCore c g).pmapOf d = s.pmapOf d := rfl
@[simp] theorem State.front_retire (h : Hdr) (lat : Option Nat) (x : Done) :
    (s.retire h lat x).front s.cur = (s.front s.cur).retire h lat x s.cycle := by
  simp [State.retire]
@[simp] theorem State.setCore_self : s.setCore c (s.core c) = s := by
  simp [State.setCore, State.core]
@[simp] theorem State.setCore_setCore (x y : Core) : (s.setCore c x).setCore c y = s.setCore c y := by
  simp [State.setCore]
@[simp] theorem State.modCore_modCore (g k : Core → Core) : (s.modCore c g).modCore c k = s.modCore c (k ∘ g) := by
  simp [State.modCore]
/-- A front end changed twice is changed once. -/
theorem State.modFront_modFront (g k : Front → Front) : (s.modFront c g).modFront c k = s.modFront c (k ∘ g) := by
  simp [State.modFront, Function.comp_def, Core.setFront]
/-- A state whose front end is what it was is the same state. -/
theorem State.modFront_front : s.modFront c (fun _ => s.front c) = s := by
  simp only [State.modFront, State.modCore, State.front, Core.setFront]
  exact s.setCore_self c

@[simp] theorem Core.setFront_live (k : Core) (f : Front) : (k.setFront f).live.front = f := rfl
@[simp] theorem Core.setFront_store (k : Core) (f : Front) : (k.setFront f).store = k.store := rfl
@[simp] theorem Core.setFront_flow (k : Core) (f : Front) : (k.setFront f).flow = k.flow := rfl
@[simp] theorem Core.setFront_regs (k : Core) (f : Front) : (k.setFront f).regs = k.regs := rfl
@[simp] theorem Core.setFront_run (k : Core) (f : Front) : (k.setFront f).run = k.run := rfl
@[simp] theorem Core.setFront_tlb (k : Core) (f : Front) : (k.setFront f).tlb = k.tlb := rfl
@[simp] theorem Core.setFront_casts (k : Core) (f : Front) : (k.setFront f).casts = k.casts := rfl
@[simp] theorem Core.modLive_live (k : Core) (g : Live → Live) : (k.modLive g).live = g k.live := rfl
@[simp] theorem Core.modLive_store (k : Core) (g : Live → Live) : (k.modLive g).store = k.store := rfl
@[simp] theorem Core.modLive_flow (k : Core) (g : Live → Live) : (k.modLive g).flow = k.flow := rfl
@[simp] theorem Core.modLive_regs (k : Core) (g : Live → Live) : (k.modLive g).regs = k.regs := rfl
@[simp] theorem Core.modLive_run (k : Core) (g : Live → Live) : (k.modLive g).run = k.run := rfl
@[simp] theorem Core.modFlow_flow (k : Core) (g : Flow → Flow) : (k.modFlow g).flow = g k.flow := rfl
@[simp] theorem Core.modFlow_live (k : Core) (g : Flow → Flow) : (k.modFlow g).live = k.live := rfl
@[simp] theorem Core.modFlow_store (k : Core) (g : Flow → Flow) : (k.modFlow g).store = k.store := rfl
@[simp] theorem Core.modFlow_regs (k : Core) (g : Flow → Flow) : (k.modFlow g).regs = k.regs := rfl
@[simp] theorem Core.modFlow_run (k : Core) (g : Flow → Flow) : (k.modFlow g).run = k.run := rfl
@[simp] theorem Core.modStore_store (k : Core) (g : Store → Store) : (k.modStore g).store = g k.store := rfl
@[simp] theorem Core.modStore_live (k : Core) (g : Store → Store) : (k.modStore g).live = k.live := rfl
@[simp] theorem Core.modStore_flow (k : Core) (g : Store → Store) : (k.modStore g).flow = k.flow := rfl
@[simp] theorem Core.modStore_regs (k : Core) (g : Store → Store) : (k.modStore g).regs = k.regs := rfl
@[simp] theorem Core.modStore_run (k : Core) (g : Store → Store) : (k.modStore g).run = k.run := rfl

end Sys2Proof.Machine
end

