-- ==== Sys2Proof/Laws/Issue.lean ====
section
/-! SUPPORT. Laws of issue and retirement: what a word that issues does, what its retirement writes and what it
leaves alone. -/

namespace Sys2Proof.Machine

/-- The conditions under which a word that issues has its own effect (R138). -/
theorem State.gate_go (s : State) (i : Instr) (h : Hdr) (u : Use) (hm : s.me.mayIssue s.cycle = true)
    (ha : s.accepted u.feature = true) (hl : u.level.code ≤ s.me.live.front.level.code)
    (hr : s.me.ready s.cycle h u = true) (hp : u.lanewise = true ∨ (s.me.live.front.predicate h).getLsbD 0 = true) :
    s.gate i h u = .go := by
  unfold State.gate
  rcases hp with hp | hp <;> simp [hm, ha, hr, hp, Nat.not_lt.mpr hl]
theorem State.issue_go (s : State) (i : Instr) (h : Hdr) (u : Use) (eff : State → Outcome) (hg : s.gate i h u = .go) :
    s.issue i h u eff = eff s := by
  simp [State.issue, hg]
theorem State.issue_off (s : State) (i : Instr) (h : Hdr) (u : Use) (eff : State → Outcome) (hg : s.gate i h u = .off) :
    s.issue i h u eff = .next (s.retire { h with tag := none } u.lat {}) := by
  simp [State.issue, hg]
theorem State.issue_trap (s : State) (i : Instr) (h : Hdr) (u : Use) (eff : State → Outcome) (t : Trap)
    (hg : s.gate i h u = .trap t) :
    s.issue i h u eff = .next (s.takeTrap s.cur t s.me.live.front.at_.pc) := by
  simp [State.issue, hg]
/-- A word that issues answers a next state if its effect does. -/
theorem State.issue_next (s : State) (i : Instr) (h : Hdr) (u : Use) (eff : State → Outcome)
    (he : ∃ t, eff s = .next t) : ∃ t, s.issue i h u eff = .next t := by
  unfold State.issue
  split
  · exact ⟨_, rfl⟩
  · exact ⟨_, rfl⟩
  · exact ⟨_, rfl⟩
  · exact he

@[simp] theorem applyWrites_nil (r : Regs) : applyWrites [] r = (r, []) := rfl
/-- One write: nothing to a hard-wired register, else the bits of the mask. -/
theorem applyWrites_one (g : Reg) (x m : VecWord) (r : Regs) :
    applyWrites [(g, x, m)] r =
      if g.wired then (r, []) else (r.set g (mergeBits (r.get g) x m), [⟨g, r.get g, m, []⟩]) := by
  simp [applyWrites]
/-- What a register reads as after one write. -/
theorem applyWrites_one_get (g k : Reg) (x m : VecWord) (r : Regs) :
    (applyWrites [(g, x, m)] r).1.get k =
      if k = g ∧ g.wired = false then g.fit (mergeBits (r.get g) x m) else r.get k := by
  rw [applyWrites_one]
  cases hg : g.wired
  · simp [Regs.get_set, hg]
  · simp
@[simp] theorem applyWrites_loops (ws : List (Reg × VecWord × VecWord)) (r : Regs) : (applyWrites ws r).1.loops = r.loops := by
  induction ws generalizing r with
  | nil => rfl
  | cons w ws ih => obtain ⟨g, x, m⟩ := w; simp only [applyWrites]; split <;> simp [ih]
@[simp] theorem applyWrites_fflags (ws : List (Reg × VecWord × VecWord)) (r : Regs) : (applyWrites ws r).1.fflags = r.fflags := by
  induction ws generalizing r with
  | nil => rfl
  | cons w ws ih => obtain ⟨g, x, m⟩ := w; simp only [applyWrites]; split <;> simp [ih]
@[simp] theorem applyWrites_round (ws : List (Reg × VecWord × VecWord)) (r : Regs) : (applyWrites ws r).1.round = r.round := by
  induction ws generalizing r with
  | nil => rfl
  | cons w ws ih => obtain ⟨g, x, m⟩ := w; simp only [applyWrites]; split <;> simp [ih]
@[simp] theorem applyWrites_seed (ws : List (Reg × VecWord × VecWord)) (r : Regs) : (applyWrites ws r).1.seed = r.seed := by
  induction ws generalizing r with
  | nil => rfl
  | cons w ws ih => obtain ⟨g, x, m⟩ := w; simp only [applyWrites]; split <;> simp [ih]
@[simp] theorem applyWrites_lfsr (ws : List (Reg × VecWord × VecWord)) (r : Regs) : (applyWrites ws r).1.lfsr = r.lfsr := by
  induction ws generalizing r with
  | nil => rfl
  | cons w ws ih => obtain ⟨g, x, m⟩ := w; simp only [applyWrites]; split <;> simp [ih]

/-- A scalar write, whole, leaves the word in the register. -/
theorem fit_writeS (d : SReg) (old : VecWord) (x : Word) :
    Reg.fit (.s d) (mergeBits old (wordOf x) (wordOf (BitVec.allOnes 64))) = wordOf x := by
  apply BitVec.eq_of_getLsbD_eq
  intro i hi
  simp only [Reg.fit, wordOf, BitVec.getLsbD_setWidth, getLsbD_mergeBits, hi, decide_true, Bool.true_and,
    BitVec.getLsbD_allOnes]
  by_cases h : i < 64
  · simp [h]
  · simp [h, BitVec.getLsbD_of_ge x i (Nat.le_of_not_lt h)]
/-- A predicate write, whole, leaves the word in the register. -/
theorem fit_writeP (d : PReg) (old : VecWord) (x : Word) :
    Reg.fit (.p d) (mergeBits old (wordOf x) (wordOf (BitVec.allOnes 64))) = wordOf x :=
  fit_writeS 0 old x

section allocate
variable (f : Front) (h : Hdr) (lat : Option Nat) (d : Done) (now : Nat)
theorem Front.allocate_eq : ∃ ts, f.allocate h lat d now = { f with tags := ts } := by
  unfold Front.allocate
  split
  · exact ⟨f.tags, rfl⟩
  · split
    · exact ⟨_, rfl⟩
    · split
      · exact ⟨_, rfl⟩
      · split <;> exact ⟨_, rfl⟩
@[simp] theorem Front.allocate_regs : (f.allocate h lat d now).regs = f.regs := by
  obtain ⟨ts, e⟩ := f.allocate_eq h lat d now; rw [e]
@[simp] theorem Front.allocate_at : (f.allocate h lat d now).at_ = f.at_ := by
  obtain ⟨ts, e⟩ := f.allocate_eq h lat d now; rw [e]
@[simp] theorem Front.allocate_level : (f.allocate h lat d now).level = f.level := by
  obtain ⟨ts, e⟩ := f.allocate_eq h lat d now; rw [e]
@[simp] theorem Front.allocate_sFrame : (f.allocate h lat d now).sFrame = f.sFrame := by
  obtain ⟨ts, e⟩ := f.allocate_eq h lat d now; rw [e]
@[simp] theorem Front.allocate_mFrame : (f.allocate h lat d now).mFrame = f.mFrame := by
  obtain ⟨ts, e⟩ := f.allocate_eq h lat d now; rw [e]
@[simp] theorem Front.allocate_gbar : (f.allocate h lat d now).gbar = f.gbar := by
  obtain ⟨ts, e⟩ := f.allocate_eq h lat d now; rw [e]
@[simp] theorem Front.allocate_win : (f.allocate h lat d now).win = f.win := by
  obtain ⟨ts, e⟩ := f.allocate_eq h lat d now; rw [e]

/-- Retirement writes what the word writes and no other register. -/
@[simp] theorem Front.retire_get (k : Reg) : (f.retire h lat d now).regs.get k = (applyWrites d.writes f.regs).1.get k := by
  cases k <;> simp [Front.retire, Regs.get, Regs.getS, Regs.getV, Regs.getP, Regs.orFlags]
@[simp] theorem Front.retire_fflags : (f.retire h lat d now).regs.fflags = f.regs.fflags ||| d.flags.setWidth 64 := by
  simp [Front.retire, Regs.orFlags]
@[simp] theorem Front.retire_round : (f.retire h lat d now).regs.round = f.regs.round := by
  simp [Front.retire, Regs.orFlags]
@[simp] theorem Front.retire_seed : (f.retire h lat d now).regs.seed = f.regs.seed := by
  simp [Front.retire, Regs.orFlags]
@[simp] theorem Front.retire_lfsr : (f.retire h lat d now).regs.lfsr = d.lfsr.getD f.regs.lfsr := by
  simp [Front.retire]
@[simp] theorem Front.retire_loops :
    (f.retire h lat d now).regs.loops = (loopCheck f.regs.loops f.at_.pc d.target d.own d.keeps).1 := by
  simp [Front.retire]
@[simp] theorem Front.retire_pc :
    (f.retire h lat d now).at_.pc = (loopCheck f.regs.loops f.at_.pc d.target d.own d.keeps).2 := by
  simp [Front.retire]
@[simp] theorem Front.retire_po : (f.retire h lat d now).at_.po = f.at_.po + 1 := by simp [Front.retire]
@[simp] theorem Front.retire_nextAt :
    (f.retire h lat d now).at_.nextAt = now + (if d.target.isSome then 3 else 1) := by simp [Front.retire]
@[simp] theorem Front.retire_pcHi : (f.retire h lat d now).at_.pcHi = f.at_.pcHi := by simp [Front.retire]
@[simp] theorem Front.retire_vahi : (f.retire h lat d now).at_.vahi = f.at_.vahi := by simp [Front.retire]
@[simp] theorem Front.retire_wait : (f.retire h lat d now).at_.wait = f.at_.wait := by simp [Front.retire]
@[simp] theorem Front.retire_idle : (f.retire h lat d now).at_.idle = f.at_.idle := by simp [Front.retire]
@[simp] theorem Front.retire_trapping : (f.retire h lat d now).at_.trapping = f.at_.trapping := by simp [Front.retire]
@[simp] theorem Front.retire_level : (f.retire h lat d now).level = f.level := by simp [Front.retire]
@[simp] theorem Front.retire_sFrame : (f.retire h lat d now).sFrame = f.sFrame := by simp [Front.retire]
@[simp] theorem Front.retire_mFrame : (f.retire h lat d now).mFrame = f.mFrame := by simp [Front.retire]
@[simp] theorem Front.retire_gbar : (f.retire h lat d now).gbar = f.gbar := by simp [Front.retire]
end allocate

end Sys2Proof.Machine
end

