-- ==== Sys2Proof/Laws/Memory.lean ====
section
/-! SUPPORT. Laws of memory: what reads as what after a write, and that every operation keeps the canonical form. -/

namespace Sys2Proof.Machine

variable {α : Type}

/-- The canonical form, in terms of the list: rising keys, no value equal to the default. -/
theorem SMap.wf_iff [DecidableEq α] (d : α) (m : SMap α) : SMap.wf d m = true ↔ m.Pairwise (fun x y => x.1 < y.1) ∧ ∀ e ∈ m, e.2 ≠ d := by
  induction m with
  | nil => simp [SMap.wf]
  | cons e m ih =>
    obtain ⟨k, v⟩ := e
    cases m with
    | nil => simp [SMap.wf]
    | cons e' m =>
      obtain ⟨l, w⟩ := e'
      simp only [SMap.wf, Bool.and_eq_true, decide_eq_true_eq, bne_iff_ne, ne_eq, ih, List.pairwise_cons,
        List.forall_mem_cons]
      constructor
      · rintro ⟨⟨h, hv⟩, ⟨hp, hm⟩, hw⟩
        exact ⟨⟨⟨h, fun e he => Nat.lt_trans h (hp e he)⟩, hp, hm⟩, hv, hw⟩
      · rintro ⟨⟨⟨h, _⟩, hp, hm⟩, hv, hw⟩
        exact ⟨⟨h, hv⟩, ⟨hp, hm⟩, hw⟩

theorem SMap.mem_erase {m : SMap α} {a : Nat} {e : Nat × α} (h : e ∈ m.erase a) : e ∈ m := by
  induction m with
  | nil => simp [SMap.erase] at h
  | cons x m ih =>
    obtain ⟨k, v⟩ := x
    simp only [SMap.erase] at h
    split at h
    · exact .tail _ (ih h)
    · rcases List.mem_cons.1 h with h | h
      · exact h ▸ List.mem_cons_self ..
      · exact .tail _ (ih h)

theorem SMap.mem_insert {m : SMap α} {a : Nat} {x : α} {e : Nat × α} (h : e ∈ m.insert a x) : e ∈ m ∨ e = (a, x) := by
  induction m with
  | nil => simpa [SMap.insert] using h
  | cons y m ih =>
    obtain ⟨k, v⟩ := y
    simp only [SMap.insert] at h
    split at h
    · rcases List.mem_cons.1 h with h | h
      · exact .inr h
      · exact .inl h
    · split at h
      · rename_i hk
        rcases List.mem_cons.1 h with h | h
        · exact .inr (by rw [h, hk])
        · exact .inl (.tail _ h)
      · rcases List.mem_cons.1 h with h | h
        · exact .inl (h ▸ List.mem_cons_self ..)
        · exact (ih h).imp (.tail _) id

theorem SMap.wf_erase [DecidableEq α] (d : α) {m : SMap α} (a : Nat) (h : SMap.wf d m = true) : SMap.wf d (m.erase a) = true := by
  rw [wf_iff] at h ⊢
  refine ⟨?_, fun e he => h.2 e (mem_erase he)⟩
  obtain ⟨h, -⟩ := h
  induction m with
  | nil => exact .nil
  | cons x m ih =>
    obtain ⟨k, v⟩ := x
    rw [List.pairwise_cons] at h
    simp only [SMap.erase]
    split
    · exact ih h.2
    · exact List.pairwise_cons.2 ⟨fun e he => h.1 e (mem_erase he), ih h.2⟩

theorem SMap.wf_insert [DecidableEq α] (d : α) {m : SMap α} (a : Nat) {x : α} (hx : x ≠ d) (h : SMap.wf d m = true) :
    SMap.wf d (m.insert a x) = true := by
  rw [wf_iff] at h ⊢
  refine ⟨?_, fun e he => (mem_insert he).elim (h.2 e) fun e => e ▸ hx⟩
  obtain ⟨h, -⟩ := h
  induction m with
  | nil => simp [SMap.insert]
  | cons y m ih =>
    obtain ⟨k, v⟩ := y
    have hc := List.pairwise_cons.1 h
    simp only [SMap.insert]
    split
    · rename_i hk
      refine List.pairwise_cons.2 ⟨fun e he => ?_, h⟩
      rcases List.mem_cons.1 he with he | he
      · exact he ▸ hk
      · exact Nat.lt_trans hk (hc.1 e he)
    · split
      · exact List.pairwise_cons.2 hc
      · rename_i h1 h2
        refine List.pairwise_cons.2 ⟨fun e he => ?_, ih hc.2⟩
        rcases mem_insert he with he | he
        · exact hc.1 e he
        · subst he; show k < a; omega

/-- A write keeps the canonical form. -/
theorem SMap.wf_set [DecidableEq α] (d : α) {m : SMap α} (a : Nat) (x : α) (h : SMap.wf d m = true) : SMap.wf d (m.set d a x) = true := by
  unfold SMap.set
  split
  · exact wf_erase d a h
  · rename_i hx; exact wf_insert d a hx h

theorem SMap.get_erase (d : α) (m : SMap α) (a b : Nat) : (m.erase a).get d b = if b = a then d else m.get d b := by
  induction m with
  | nil => simp [SMap.erase, SMap.get]
  | cons y m ih =>
    obtain ⟨k, v⟩ := y
    by_cases hk : a = k
    · subst hk; simp only [SMap.erase, if_true, ih, SMap.get]; split <;> rfl
    · simp only [SMap.erase, hk, if_false, SMap.get, ih]
      by_cases hb : b = k
      · subst hb; simp [Ne.symm hk]
      · simp [hb]

theorem SMap.get_insert (d : α) {m : SMap α} (a b : Nat) (x : α) :
    (m.insert a x).get d b = if b = a then x else m.get d b := by
  induction m with
  | nil => simp [SMap.insert, SMap.get]
  | cons y m ih =>
    obtain ⟨k, v⟩ := y
    simp only [SMap.insert]
    split
    · simp only [SMap.get]
    · split
      · rename_i hk; subst hk; simp only [SMap.get]; split <;> rfl
      · rename_i h1 h2
        simp only [SMap.get, ih]
        by_cases hb : b = k
        · subst hb; simp [Ne.symm h2]
        · simp [hb]

/-- Reading after a write: the value written at its key, and what was there at every other. -/
theorem SMap.get_set [DecidableEq α] (d : α) (m : SMap α) (a b : Nat) (x : α) : (m.set d a x).get d b = if b = a then x else m.get d b := by
  unfold SMap.set
  split
  · rename_i hx; rw [get_erase, hx]
  · exact get_insert ..

/-- Two canonical maps that read the same everywhere are the same. -/
theorem SMap.ext_wf [DecidableEq α] (d : α) {m n : SMap α} (hm : SMap.wf d m = true) (hn : SMap.wf d n = true)
    (h : ∀ a, m.get d a = n.get d a) : m = n := by
  rw [wf_iff] at hm hn
  have absent : ∀ (l : SMap α) (a : Nat), (∀ e ∈ l, a < e.1) → l.get d a = d := by
    intro l a hl
    induction l with
    | nil => rfl
    | cons y l ih =>
      obtain ⟨k, v⟩ := y
      have := hl (k, v) (List.mem_cons_self ..)
      simp only [SMap.get]
      rw [if_neg (by omega), ih fun e he => hl e (.tail _ he)]
  induction m generalizing n with
  | nil =>
    cases n with
    | nil => rfl
    | cons y n =>
      obtain ⟨k, v⟩ := y
      exact absurd (by simpa [SMap.get] using (h k).symm) (hn.2 (k, v) (List.mem_cons_self ..))
  | cons x m ih =>
    obtain ⟨k, v⟩ := x
    cases n with
    | nil => exact absurd (by simpa [SMap.get] using h k) (hm.2 (k, v) (List.mem_cons_self ..))
    | cons y n =>
      obtain ⟨l, w⟩ := y
      have cm := List.pairwise_cons.1 hm.1
      have cn := List.pairwise_cons.1 hn.1
      have vm := hm.2 (k, v) (List.mem_cons_self ..)
      have vn := hn.2 (l, w) (List.mem_cons_self ..)
      have hkl : k = l := by
        rcases Nat.lt_trichotomy k l with hlt | he | hlt
        · have e := h k
          rw [absent ((l, w) :: n) k fun e he => by
            rcases List.mem_cons.1 he with he | he
            · exact he ▸ hlt
            · exact Nat.lt_trans hlt (cn.1 e he)] at e
          simp [SMap.get] at e; exact absurd e vm
        · exact he
        · have e := h l
          rw [absent ((k, v) :: m) l fun e he => by
            rcases List.mem_cons.1 he with he | he
            · exact he ▸ hlt
            · exact Nat.lt_trans hlt (cm.1 e he)] at e
          simp [SMap.get] at e; exact absurd e.symm vn
      subst hkl
      have hvw : v = w := by simpa [SMap.get] using h k
      subst hvw
      congr 1
      refine ih (n := n) ⟨cm.2, fun e he => hm.2 e (.tail _ he)⟩ ⟨cn.2, fun e he => hn.2 e (.tail _ he)⟩ fun a => ?_
      have e := h a
      simp only [SMap.get] at e
      by_cases ha : a = k
      · subst ha
        rw [absent m a fun e he => cm.1 e he, absent n a fun e he => cn.1 e he]
      · simpa [ha] using e

-- bytes

/-- A byte read after a byte written (R5). -/
@[simp] theorem Memory.readByte_writeByte (m : Memory) (a b : Nat) (x : Byte) :
    (m.writeByte a x).readByte b = if b = a then x else m.readByte b := SMap.get_set ..
theorem Memory.wf_writeByte {m : Memory} (a : Nat) (x : Byte) (h : m.wf = true) : (m.writeByte a x).wf = true := SMap.wf_set _ a x h
theorem Memory.wf_put {m : Memory} (a : Nat) (bs : List Byte) (h : m.wf = true) : (m.put a bs).wf = true := by
  induction bs generalizing m a with
  | nil => exact h
  | cons b bs ih => exact ih (a + 1) (wf_writeByte a b h)
theorem Memory.wf_write {m : Memory} (a n v : Nat) (h : m.wf = true) : (Memory.write m a n v).wf = true := by
  induction n generalizing m a v with
  | zero => exact h
  | succ n ih => exact ih (a + 1) (v / 256) (wf_writeByte a _ h)
theorem Memory.wf_clear {m : Memory} (a n : Nat) (h : m.wf = true) : (m.clear a n).wf = true := by
  unfold Memory.wf at h ⊢
  rw [SMap.wf_iff] at h ⊢
  exact ⟨h.1.filter _, fun e he => h.2 e (List.mem_filter.1 he).1⟩

/-- What a byte reads as after bytes are put at an address: the byte put there, else what was there. -/
theorem Memory.readByte_put (m : Memory) (a : Nat) (bs : List Byte) (b : Nat) :
    (m.put a bs).readByte b = if a ≤ b ∧ b < a + bs.length then bs.getD (b - a) 0 else m.readByte b := by
  induction bs generalizing m a with
  | nil => simp only [Memory.put, List.length_nil]; rw [if_neg (by omega)]
  | cons x bs ih =>
    simp only [Memory.put, ih, List.length_cons, readByte_writeByte]
    by_cases h1 : b = a
    · subst h1; simp
    · by_cases h2 : a + 1 ≤ b ∧ b < a + 1 + bs.length
      · rw [if_pos h2, if_pos (by omega)]
        have : b - a = b - (a + 1) + 1 := by omega
        rw [this, List.getD_cons_succ]
      · rw [if_neg h2, if_neg h1, if_neg (by omega)]
theorem Memory.readByte_put_outside (m : Memory) (a : Nat) (bs : List Byte) (b : Nat) (h : b < a ∨ a + bs.length ≤ b) :
    (m.put a bs).readByte b = m.readByte b := by
  rw [readByte_put, if_neg (by omega)]
@[simp] theorem Memory.bytes_length (m : Memory) (a n : Nat) : (m.bytes a n).length = n := by simp [Memory.bytes]
/-- Bytes put at an address are read back. -/
theorem Memory.bytes_put (m : Memory) (a : Nat) (bs : List Byte) : (m.put a bs).bytes a bs.length = bs := by
  apply List.ext_getElem
  · simp
  · intro i h1 h2
    simp only [Memory.bytes, List.getElem_map, List.getElem_range]
    rw [readByte_put, if_pos (by omega)]
    simp [List.getD_eq_getElem?_getD, List.getElem?_eq_getElem h2]

-- homes and buffers

/-- A write-back keeps HBM in canonical form. -/
theorem Mem.wf_writeback (m : Mem) (mdbase : Vector Word 8) (b : Nat) (h : m.hbm.wf = true) : (m.writeback mdbase b).hbm.wf = true := by
  unfold Mem.writeback
  split
  · exact h
  · split
    · exact h
    · exact Memory.wf_put _ _ (Memory.wf_put _ _ h)
/-- So does making room in a slice. -/
theorem Mem.wf_makeRoom (m : Mem) (mdbase : Vector Word 8) (w : WayUse) (b : Nat) (h : m.hbm.wf = true) :
    (m.makeRoom mdbase w b).hbm.wf = true := by
  unfold Mem.makeRoom
  split
  · exact Mem.wf_writeback _ _ _ h
  · exact h
/-- A write at a home keeps HBM canonical. -/
theorem Mem.wf_write (m : Mem) (mdbase : Vector Word 8) (a : Nat) (bs : List Byte) (cmp poison : Bool) (w : WayUse)
    (h : m.hbm.wf = true) : (m.write mdbase a bs cmp poison w).hbm.wf = true := by
  unfold Mem.write
  split
  · dsimp only
    split
    · exact Mem.wf_writeback _ _ _ (Mem.wf_makeRoom _ _ _ _ h)
    · exact Mem.wf_makeRoom _ _ _ _ h
  · exact Memory.wf_put a bs h
/-- A plain write changes only its own bytes of HBM. -/
theorem Mem.readByte_write (m : Mem) (mdbase : Vector Word 8) (a : Nat) (bs : List Byte) (poison : Bool) (w : WayUse) (b : Nat)
    (h : b < a ∨ a + bs.length ≤ b) : (m.write mdbase a bs false poison w).hbm.readByte b = m.hbm.readByte b :=
  Memory.readByte_put_outside _ _ _ _ h
/-- A write into a buffer keeps the three buffers canonical. -/
theorem Store.wf_perform (t : Store) (b : Buf) (a : Nat) (bs : List Byte) (poison : Bool)
    (h : t.wb.wf = true ∧ t.ab.wf = true ∧ t.cb.wf = true) :
    (t.perform b a bs poison).wb.wf = true ∧ (t.perform b a bs poison).ab.wf = true ∧ (t.perform b a bs poison).cb.wf = true := by
  obtain ⟨h1, h2, h3⟩ := h
  cases b <;> simp [Store.perform, Store.setBuf, Store.setBad, Store.buf, h1, h2, h3, Memory.wf_put]
/-- Reset memory is canonical. -/
theorem State.reset_wf : State.reset.mem.hbm.wf = true := rfl

end Sys2Proof.Machine
end

