-- ==== Sys2Proof/Laws/PerInstr.lean ====
section
/-! SUPPORT. Laws of the instructions as syntax, one lemma per constructor: every field of an encoding is within its
width. -/

namespace Sys2Proof.Laws

theorem b2n_lt (b : Bool) : b2n b < 2 := by cases b <;> decide
theorem fltCode_lt (b : Bool) : fltCode b < 16 := by cases b <;> decide
theorem IWidth.code_lt (x : IWidth) : x.code < 16 := by cases x <;> decide
theorem Rnd.code_lt (x : Rnd) : x.code < 8 := by cases x <;> decide
theorem ExtW.code_lt (x : ExtW) : x.code < 4 := by cases x <;> decide
theorem ICond.code_lt (x : ICond) : x.code < 8 := by cases x <;> decide
theorem FCond.code_lt (x : FCond) : x.code < 8 := by cases x <;> decide
theorem FConv.code_lt (x : FConv) : x.code < 8 := by cases x <;> decide
theorem CtlReg.code_lt (x : CtlReg) : x.code < 4096 := by cases x <;> decide
theorem VTy.code_lt (x : VTy) : x.code < 16 := by cases x <;> decide
theorem FTy.code_lt (x : FTy) : x.code < 16 := by cases x <;> decide
theorem ITy.code_lt (x : ITy) : x.code < 16 := by cases x <;> decide
theorem RedTy.code_lt (x : RedTy) : x.code < 16 := by cases x <;> decide
theorem CvtTy.code_lt (x : CvtTy) : x.code < 16 := by cases x with
  | i32 => decide
  | tag t => have := t.isLt; show 8 + t.val < 16; omega
theorem Space.code_lt (x : Space) : x.code < 4 := by cases x <;> decide
theorem MWidth.code_lt (x : MWidth) : x.code < 4 := by cases x <;> decide
theorem Scope.code_lt (x : Scope) : x.code < 4 := by cases x <;> decide
theorem Ord.code_lt (x : Ord) : x.code < 4 := by cases x <;> decide
theorem Comb.code_lt (x : Comb) : x.code < 8 := by cases x <;> decide
theorem AmoOp.code_lt (x : AmoOp) : x.code < 8 := by cases x <;> decide
theorem Tok.code_lt (x : Tok) : x.code < 16 := by
  have := b2n_lt x.wp; have := b2n_lt x.wn; have := b2n_lt x.sp; have := b2n_lt x.sn
  unfold Tok.code; omega
theorem TlbScope.code_lt (x : TlbScope) : x.code < 4 := by cases x <;> decide
theorem CastField.code_lt (x : CastField) : x.code < 4 := by cases x <;> decide
theorem ExtTy.code_lt (x : ExtTy) : x.code.1 < 16 ∧ x.code.2 < 2 := by cases x <;> decide
theorem VCond.code_lt (x : VCond) : x.code.1 < 16 ∧ x.code.2 < 8 := by cases x with
  | f k => cases k <;> decide
  | i k => cases k <;> decide

/-- The fields of a payload are within their widths (R122 to R129). -/
def Fits : Pay → Prop
  | .a p => p.d < 64 ∧ p.a < 64 ∧ p.b < 64 ∧ p.c < 64 ∧ p.ty < 16 ∧ p.fn < 256 ∧ p.rm < 8 ∧ p.sat < 2 ∧ p.aux < 4096
  | .i p => p.d < 64 ∧ p.a < 64 ∧ p.imm < 2 ^ 32 ∧ p.fn < 256
  | .b p => p.cond < 16 ∧ p.a < 64 ∧ p.b < 64 ∧ p.off < 2 ^ 32 ∧ p.fn < 16
  | .m p => p.data < 64 ∧ p.base < 64 ∧ p.space < 4 ∧ p.width < 4 ∧ p.scope < 4 ∧ p.order < 4 ∧ p.off < 2 ^ 24 ∧ p.fn < 256
  | .e p => p.tok < 16 ∧ p.a < 64 ∧ p.b < 64 ∧ p.c < 64 ∧ p.ring < 16 ∧ p.spec < 2 ^ 16
  | .s p => p.sysreg < 4096 ∧ p.a < 64 ∧ p.imm < 2 ^ 34

/-- Every field of the instruction's encoding is within its width. -/
def FieldsFit.Statement (i : Instr) : Prop := ∀ e, i.enc = some e → e.op < 256 ∧ Fits e.pay

theorem FieldsFit.add (h : Hdr) (w : IWidth) (d : SReg) (a : SReg) (b : SReg) : FieldsFit.Statement (.add h w d a b) := by
  have := IWidth.code_lt w
  rintro e ⟨⟩; simp only [encA, Fits]; omega
theorem FieldsFit.sub (h : Hdr) (w : IWidth) (d : SReg) (a : SReg) (b : SReg) : FieldsFit.Statement (.sub h w d a b) := by
  have := IWidth.code_lt w
  rintro e ⟨⟩; simp only [encA, Fits]; omega
theorem FieldsFit.addi (h : Hdr) (d : SReg) (a : SReg) (imm : BitVec 32) : FieldsFit.Statement (.addi h d a imm) := by
  rintro e ⟨⟩; simp only [encI, Fits]; omega
theorem FieldsFit.mul (h : Hdr) (w : IWidth) (d : SReg) (a : SReg) (b : SReg) : FieldsFit.Statement (.mul h w d a b) := by
  have := IWidth.code_lt w
  rintro e ⟨⟩; simp only [encA, Fits]; omega
theorem FieldsFit.mulh (h : Hdr) (w : IWidth) (d : SReg) (a : SReg) (b : SReg) : FieldsFit.Statement (.mulh h w d a b) := by
  have := IWidth.code_lt w
  rintro e ⟨⟩; simp only [encA, Fits]; omega
theorem FieldsFit.mulhu (h : Hdr) (w : IWidth) (d : SReg) (a : SReg) (b : SReg) : FieldsFit.Statement (.mulhu h w d a b) := by
  have := IWidth.code_lt w
  rintro e ⟨⟩; simp only [encA, Fits]; omega
theorem FieldsFit.div (h : Hdr) (w : IWidth) (d : SReg) (a : SReg) (b : SReg) : FieldsFit.Statement (.div h w d a b) := by
  have := IWidth.code_lt w
  rintro e ⟨⟩; simp only [encA, Fits]; omega
theorem FieldsFit.divu (h : Hdr) (w : IWidth) (d : SReg) (a : SReg) (b : SReg) : FieldsFit.Statement (.divu h w d a b) := by
  have := IWidth.code_lt w
  rintro e ⟨⟩; simp only [encA, Fits]; omega
theorem FieldsFit.rem (h : Hdr) (w : IWidth) (d : SReg) (a : SReg) (b : SReg) : FieldsFit.Statement (.rem h w d a b) := by
  have := IWidth.code_lt w
  rintro e ⟨⟩; simp only [encA, Fits]; omega
theorem FieldsFit.remu (h : Hdr) (w : IWidth) (d : SReg) (a : SReg) (b : SReg) : FieldsFit.Statement (.remu h w d a b) := by
  have := IWidth.code_lt w
  rintro e ⟨⟩; simp only [encA, Fits]; omega
theorem FieldsFit.and (h : Hdr) (d : SReg) (a : SReg) (b : SReg) : FieldsFit.Statement (.and h d a b) := by
  rintro e ⟨⟩; simp only [encA, Fits]; omega
theorem FieldsFit.or (h : Hdr) (d : SReg) (a : SReg) (b : SReg) : FieldsFit.Statement (.or h d a b) := by
  rintro e ⟨⟩; simp only [encA, Fits]; omega
theorem FieldsFit.xor (h : Hdr) (d : SReg) (a : SReg) (b : SReg) : FieldsFit.Statement (.xor h d a b) := by
  rintro e ⟨⟩; simp only [encA, Fits]; omega
theorem FieldsFit.andn (h : Hdr) (d : SReg) (a : SReg) (b : SReg) : FieldsFit.Statement (.andn h d a b) := by
  rintro e ⟨⟩; simp only [encA, Fits]; omega
theorem FieldsFit.shl (h : Hdr) (w : IWidth) (d : SReg) (a : SReg) (n : ShAmt) : FieldsFit.Statement (.shl h w d a n) := by
  have := IWidth.code_lt w
  cases n <;> (rintro e ⟨⟩; simp only [encShift, encA, Fits]; omega)
theorem FieldsFit.shr (h : Hdr) (w : IWidth) (d : SReg) (a : SReg) (n : ShAmt) : FieldsFit.Statement (.shr h w d a n) := by
  have := IWidth.code_lt w
  cases n <;> (rintro e ⟨⟩; simp only [encShift, encA, Fits]; omega)
theorem FieldsFit.sra (h : Hdr) (w : IWidth) (d : SReg) (a : SReg) (n : ShAmt) : FieldsFit.Statement (.sra h w d a n) := by
  have := IWidth.code_lt w
  cases n <;> (rintro e ⟨⟩; simp only [encShift, encA, Fits]; omega)
theorem FieldsFit.rot (h : Hdr) (d : SReg) (a : SReg) (n : ShAmt) : FieldsFit.Statement (.rot h d a n) := by
  cases n <;> (rintro e ⟨⟩; simp only [encShift, encA, Fits]; omega)
theorem FieldsFit.clz (h : Hdr) (w : IWidth) (d : SReg) (a : SReg) : FieldsFit.Statement (.clz h w d a) := by
  have := IWidth.code_lt w
  rintro e ⟨⟩; simp only [encA, Fits]; omega
theorem FieldsFit.ctz (h : Hdr) (w : IWidth) (d : SReg) (a : SReg) : FieldsFit.Statement (.ctz h w d a) := by
  have := IWidth.code_lt w
  rintro e ⟨⟩; simp only [encA, Fits]; omega
theorem FieldsFit.popc (h : Hdr) (w : IWidth) (d : SReg) (a : SReg) : FieldsFit.Statement (.popc h w d a) := by
  have := IWidth.code_lt w
  rintro e ⟨⟩; simp only [encA, Fits]; omega
theorem FieldsFit.min (h : Hdr) (w : IWidth) (d : SReg) (a : SReg) (b : SReg) : FieldsFit.Statement (.min h w d a b) := by
  have := IWidth.code_lt w
  rintro e ⟨⟩; simp only [encA, Fits]; omega
theorem FieldsFit.max (h : Hdr) (w : IWidth) (d : SReg) (a : SReg) (b : SReg) : FieldsFit.Statement (.max h w d a b) := by
  have := IWidth.code_lt w
  rintro e ⟨⟩; simp only [encA, Fits]; omega
theorem FieldsFit.minu (h : Hdr) (w : IWidth) (d : SReg) (a : SReg) (b : SReg) : FieldsFit.Statement (.minu h w d a b) := by
  have := IWidth.code_lt w
  rintro e ⟨⟩; simp only [encA, Fits]; omega
theorem FieldsFit.maxu (h : Hdr) (w : IWidth) (d : SReg) (a : SReg) (b : SReg) : FieldsFit.Statement (.maxu h w d a b) := by
  have := IWidth.code_lt w
  rintro e ⟨⟩; simp only [encA, Fits]; omega
theorem FieldsFit.sext (h : Hdr) (x : ExtW) (d : SReg) (a : SReg) : FieldsFit.Statement (.sext h x d a) := by
  have := ExtW.code_lt x
  rintro e ⟨⟩; simp only [encA, Fits]; omega
theorem FieldsFit.zext (h : Hdr) (x : ExtW) (d : SReg) (a : SReg) : FieldsFit.Statement (.zext h x d a) := by
  have := ExtW.code_lt x
  rintro e ⟨⟩; simp only [encA, Fits]; omega
theorem FieldsFit.bfx (h : Hdr) (signed : Bool) (d : SReg) (a : SReg) (wm1 : Fin 64) (lsb : Fin 64) : FieldsFit.Statement (.bfx h signed d a wm1 lsb) := by
  have := b2n_lt signed
  rintro e ⟨⟩; simp only [encA, Fits]; omega
theorem FieldsFit.bfi (h : Hdr) (d : SReg) (a : SReg) (wm1 : Fin 64) (lsb : Fin 64) : FieldsFit.Statement (.bfi h d a wm1 lsb) := by
  rintro e ⟨⟩; simp only [encA, Fits]; omega
theorem FieldsFit.mov (h : Hdr) (d : SReg) (a : SReg) : FieldsFit.Statement (.mov h d a) := by
  rintro e ⟨⟩; simp only [encA, Fits]; omega
theorem FieldsFit.movi (h : Hdr) (d : SReg) (imm : BitVec 32) : FieldsFit.Statement (.movi h d imm) := by
  rintro e ⟨⟩; simp only [encI, Fits]; omega
theorem FieldsFit.movhi (h : Hdr) (d : SReg) (imm : BitVec 32) : FieldsFit.Statement (.movhi h d imm) := by
  rintro e ⟨⟩; simp only [encI, Fits]; omega
theorem FieldsFit.sel (h : Hdr) (d : SReg) (a : SReg) (b : SReg) (c : PReg) : FieldsFit.Statement (.sel h d a b c) := by
  rintro e ⟨⟩; simp only [encA, Fits]; omega
theorem FieldsFit.cmp (h : Hdr) (w : IWidth) (k : ICond) (d : PReg) (a : SReg) (b : CmpSrc) : FieldsFit.Statement (.cmp h w k d a b) := by
  have := IWidth.code_lt w; have := ICond.code_lt k
  cases b <;> (rintro e ⟨⟩; simp only [encA, Fits]; omega)
theorem FieldsFit.lea (h : Hdr) (d : SReg) (a : SReg) (b : SReg) (sh : Fin 8) : FieldsFit.Statement (.lea h d a b sh) := by
  rintro e ⟨⟩; simp only [encA, Fits]; omega
theorem FieldsFit.fadd (h : Hdr) (rm : Rnd) (d : SReg) (a : SReg) (b : SReg) : FieldsFit.Statement (.fadd h rm d a b) := by
  have := Rnd.code_lt rm
  rintro e ⟨⟩; simp only [encA, Fits]; omega
theorem FieldsFit.fsub (h : Hdr) (rm : Rnd) (d : SReg) (a : SReg) (b : SReg) : FieldsFit.Statement (.fsub h rm d a b) := by
  have := Rnd.code_lt rm
  rintro e ⟨⟩; simp only [encA, Fits]; omega
theorem FieldsFit.fmul (h : Hdr) (rm : Rnd) (d : SReg) (a : SReg) (b : SReg) : FieldsFit.Statement (.fmul h rm d a b) := by
  have := Rnd.code_lt rm
  rintro e ⟨⟩; simp only [encA, Fits]; omega
theorem FieldsFit.ffma (h : Hdr) (rm : Rnd) (d : SReg) (a : SReg) (b : SReg) (c : SReg) : FieldsFit.Statement (.ffma h rm d a b c) := by
  have := Rnd.code_lt rm
  rintro e ⟨⟩; simp only [encA, Fits]; omega
theorem FieldsFit.fmin (h : Hdr) (d : SReg) (a : SReg) (b : SReg) : FieldsFit.Statement (.fmin h d a b) := by
  rintro e ⟨⟩; simp only [encA, Fits]; omega
theorem FieldsFit.fmax (h : Hdr) (d : SReg) (a : SReg) (b : SReg) : FieldsFit.Statement (.fmax h d a b) := by
  rintro e ⟨⟩; simp only [encA, Fits]; omega
theorem FieldsFit.fcmp (h : Hdr) (k : FCond) (d : PReg) (a : SReg) (b : SReg) : FieldsFit.Statement (.fcmp h k d a b) := by
  have := FCond.code_lt k
  rintro e ⟨⟩; simp only [encA, Fits]; omega
theorem FieldsFit.fcvt (h : Hdr) (k : FConv) (rm : Rnd) (sat : Bool) (d : SReg) (a : SReg) : FieldsFit.Statement (.fcvt h k rm sat d a) := by
  have := FConv.code_lt k; have := Rnd.code_lt rm; have := b2n_lt sat
  rintro e ⟨⟩; simp only [encA, Fits]; omega
theorem FieldsFit.br (h : Hdr) (off : BitVec 32) : FieldsFit.Statement (.br h off) := by
  rintro e ⟨⟩; simp only [encB, Fits]; omega
theorem FieldsFit.bc (h : Hdr) (k : BCond) (off : BitVec 32) : FieldsFit.Statement (.bc h k off) := by
  cases k <;> (rintro e ⟨⟩; simp only [encB, Fits]; first | omega | (rename_i k _ _; have := ICond.code_lt k; omega))
theorem FieldsFit.call (h : Hdr) (off : BitVec 32) : FieldsFit.Statement (.call h off) := by
  rintro e ⟨⟩; simp only [encB, Fits]; omega
theorem FieldsFit.ret (h : Hdr) (a : SReg) : FieldsFit.Statement (.ret h a) := by
  rintro e ⟨⟩; simp only [encB, Fits]; omega
theorem FieldsFit.jmpr (h : Hdr) (link : Bool) (a : SReg) : FieldsFit.Statement (.jmpr h link a) := by
  have := b2n_lt link
  rintro e ⟨⟩; simp only [encB, Fits]; omega
theorem FieldsFit.loop (h : Hdr) (set1 : Bool) (a : SReg) (off : BitVec 32) : FieldsFit.Statement (.loop h set1 a off) := by
  have := b2n_lt set1
  rintro e ⟨⟩; simp only [encB, Fits]; omega
theorem FieldsFit.loopi (h : Hdr) (set1 : Bool) (count : BitVec 12) (off : BitVec 32) : FieldsFit.Statement (.loopi h set1 count off) := by
  have := b2n_lt set1
  rintro e ⟨⟩; simp only [encB, Fits]; omega
theorem FieldsFit.endit (h : Hdr) : FieldsFit.Statement (.endit h) := by
  rintro e ⟨⟩; simp only [encB, Fits]; omega
theorem FieldsFit.trap (h : Hdr) (imm : BitVec 32) : FieldsFit.Statement (.trap h imm) := by
  rintro e ⟨⟩; simp only [encI, Fits]; omega
theorem FieldsFit.nop (h : Hdr) : FieldsFit.Statement (.nop h) := by
  rintro e ⟨⟩; simp only [encA, Fits]; omega
theorem FieldsFit.pause (h : Hdr) (imm : BitVec 32) : FieldsFit.Statement (.pause h imm) := by
  rintro e ⟨⟩; simp only [encI, Fits]; omega
theorem FieldsFit.getc (h : Hdr) (r : CtlReg) (d : SReg) (sel : Fin 128) : FieldsFit.Statement (.getc h r d sel) := by
  have := CtlReg.code_lt r
  rintro e ⟨⟩; simp only [encS, Fits]; omega
theorem FieldsFit.setc (h : Hdr) (r : CtlReg) (a : SReg) : FieldsFit.Statement (.setc h r a) := by
  have := CtlReg.code_lt r
  rintro e ⟨⟩; simp only [encS, Fits]; omega
theorem FieldsFit.vadd (h : Hdr) (t : VTy) (rm : Rnd) (d : VReg) (a : VReg) (b : VReg) : FieldsFit.Statement (.vadd h t rm d a b) := by
  have := VTy.code_lt t; have := Rnd.code_lt rm
  rintro e ⟨⟩; simp only [encA, Fits]; omega
theorem FieldsFit.vsub (h : Hdr) (t : VTy) (rm : Rnd) (d : VReg) (a : VReg) (b : VReg) : FieldsFit.Statement (.vsub h t rm d a b) := by
  have := VTy.code_lt t; have := Rnd.code_lt rm
  rintro e ⟨⟩; simp only [encA, Fits]; omega
theorem FieldsFit.vmul (h : Hdr) (t : VTy) (rm : Rnd) (d : VReg) (a : VReg) (b : VReg) : FieldsFit.Statement (.vmul h t rm d a b) := by
  have := VTy.code_lt t; have := Rnd.code_lt rm
  rintro e ⟨⟩; simp only [encA, Fits]; omega
theorem FieldsFit.vfma (h : Hdr) (t : FTy) (rm : Rnd) (d : VReg) (a : VReg) (b : VReg) (c : VReg) : FieldsFit.Statement (.vfma h t rm d a b c) := by
  have := FTy.code_lt t; have := Rnd.code_lt rm
  rintro e ⟨⟩; simp only [encA, Fits]; omega
theorem FieldsFit.vfms (h : Hdr) (t : FTy) (rm : Rnd) (d : VReg) (a : VReg) (b : VReg) (c : VReg) : FieldsFit.Statement (.vfms h t rm d a b c) := by
  have := FTy.code_lt t; have := Rnd.code_lt rm
  rintro e ⟨⟩; simp only [encA, Fits]; omega
theorem FieldsFit.vnfma (h : Hdr) (t : FTy) (rm : Rnd) (d : VReg) (a : VReg) (b : VReg) (c : VReg) : FieldsFit.Statement (.vnfma h t rm d a b c) := by
  have := FTy.code_lt t; have := Rnd.code_lt rm
  rintro e ⟨⟩; simp only [encA, Fits]; omega
theorem FieldsFit.vmin (h : Hdr) (t : VTy) (u : Bool) (d : VReg) (a : VReg) (b : VReg) : FieldsFit.Statement (.vmin h t u d a b) := by
  have := VTy.code_lt t; have := b2n_lt u
  rintro e ⟨⟩; simp only [encA, Fits]; omega
theorem FieldsFit.vmax (h : Hdr) (t : VTy) (u : Bool) (d : VReg) (a : VReg) (b : VReg) : FieldsFit.Statement (.vmax h t u d a b) := by
  have := VTy.code_lt t; have := b2n_lt u
  rintro e ⟨⟩; simp only [encA, Fits]; omega
theorem FieldsFit.vabs (h : Hdr) (t : VTy) (d : VReg) (a : VReg) : FieldsFit.Statement (.vabs h t d a) := by
  have := VTy.code_lt t
  rintro e ⟨⟩; simp only [encA, Fits]; omega
theorem FieldsFit.vneg (h : Hdr) (t : VTy) (d : VReg) (a : VReg) : FieldsFit.Statement (.vneg h t d a) := by
  have := VTy.code_lt t
  rintro e ⟨⟩; simp only [encA, Fits]; omega
theorem FieldsFit.vcmp (h : Hdr) (k : VCond) (d : PReg) (a : VReg) (b : VReg) : FieldsFit.Statement (.vcmp h k d a b) := by
  have := VCond.code_lt k
  rintro e ⟨⟩; simp only [encA, Fits]; omega
theorem FieldsFit.vsel (h : Hdr) (d : VReg) (a : VReg) (b : VReg) (c : PReg) : FieldsFit.Statement (.vsel h d a b c) := by
  rintro e ⟨⟩; simp only [encA, Fits]; omega
theorem FieldsFit.vand (h : Hdr) (d : VReg) (a : VReg) (b : VReg) : FieldsFit.Statement (.vand h d a b) := by
  rintro e ⟨⟩; simp only [encA, Fits]; omega
theorem FieldsFit.vor (h : Hdr) (d : VReg) (a : VReg) (b : VReg) : FieldsFit.Statement (.vor h d a b) := by
  rintro e ⟨⟩; simp only [encA, Fits]; omega
theorem FieldsFit.vxor (h : Hdr) (d : VReg) (a : VReg) (b : VReg) : FieldsFit.Statement (.vxor h d a b) := by
  rintro e ⟨⟩; simp only [encA, Fits]; omega
theorem FieldsFit.vnot (h : Hdr) (d : VReg) (a : VReg) : FieldsFit.Statement (.vnot h d a) := by
  rintro e ⟨⟩; simp only [encA, Fits]; omega
theorem FieldsFit.vshl (h : Hdr) (t : ITy) (d : VReg) (a : VReg) (n : VShAmt) : FieldsFit.Statement (.vshl h t d a n) := by
  have := ITy.code_lt t
  cases n <;> (rintro e ⟨⟩; simp only [encVShift, encA, Fits]; omega)
theorem FieldsFit.vshr (h : Hdr) (t : ITy) (d : VReg) (a : VReg) (n : VShAmt) : FieldsFit.Statement (.vshr h t d a n) := by
  have := ITy.code_lt t
  cases n <;> (rintro e ⟨⟩; simp only [encVShift, encA, Fits]; omega)
theorem FieldsFit.vsra (h : Hdr) (t : ITy) (d : VReg) (a : VReg) (n : VShAmt) : FieldsFit.Statement (.vsra h t d a n) := by
  have := ITy.code_lt t
  cases n <;> (rintro e ⟨⟩; simp only [encVShift, encA, Fits]; omega)
theorem FieldsFit.vadds (h : Hdr) (t : ITy) (u : Bool) (subtract : Bool) (d : VReg) (a : VReg) (b : VReg) : FieldsFit.Statement (.vadds h t u subtract d a b) := by
  have := ITy.code_lt t; have := b2n_lt u; have := b2n_lt subtract
  rintro e ⟨⟩; simp only [encA, Fits]; omega
theorem FieldsFit.vmulh (h : Hdr) (t : ITy) (u : Bool) (d : VReg) (a : VReg) (b : VReg) : FieldsFit.Statement (.vmulh h t u d a b) := by
  have := ITy.code_lt t; have := b2n_lt u
  rintro e ⟨⟩; simp only [encA, Fits]; omega
theorem FieldsFit.vdot2 (h : Hdr) (flt : Bool) (rm : Rnd) (d : VReg) (a : VReg) (b : VReg) (c : VReg) : FieldsFit.Statement (.vdot2 h flt rm d a b c) := by
  have := b2n_lt flt; have := Rnd.code_lt rm
  cases flt <;> (rintro e ⟨⟩; simp only [encA, Fits]; simp; omega)
theorem FieldsFit.vexp2 (h : Hdr) (d : VReg) (a : VReg) : FieldsFit.Statement (.vexp2 h d a) := by
  rintro e ⟨⟩; simp only [encA, Fits]; omega
theorem FieldsFit.vlog2 (h : Hdr) (d : VReg) (a : VReg) : FieldsFit.Statement (.vlog2 h d a) := by
  rintro e ⟨⟩; simp only [encA, Fits]; omega
theorem FieldsFit.vrcp (h : Hdr) (d : VReg) (a : VReg) : FieldsFit.Statement (.vrcp h d a) := by
  rintro e ⟨⟩; simp only [encA, Fits]; omega
theorem FieldsFit.vrsqrt (h : Hdr) (d : VReg) (a : VReg) : FieldsFit.Statement (.vrsqrt h d a) := by
  rintro e ⟨⟩; simp only [encA, Fits]; omega
theorem FieldsFit.vsqrt (h : Hdr) (rm : Rnd) (d : VReg) (a : VReg) : FieldsFit.Statement (.vsqrt h rm d a) := by
  have := Rnd.code_lt rm
  rintro e ⟨⟩; simp only [encA, Fits]; omega
theorem FieldsFit.vtanh (h : Hdr) (d : VReg) (a : VReg) : FieldsFit.Statement (.vtanh h d a) := by
  rintro e ⟨⟩; simp only [encA, Fits]; omega
theorem FieldsFit.vsigm (h : Hdr) (d : VReg) (a : VReg) : FieldsFit.Statement (.vsigm h d a) := by
  rintro e ⟨⟩; simp only [encA, Fits]; omega
theorem FieldsFit.vbcast (h : Hdr) (d : VReg) (a : VBcastSrc) : FieldsFit.Statement (.vbcast h d a) := by
  cases a <;> (rintro e ⟨⟩; simp only [encA, Fits]; omega)
theorem FieldsFit.vmov (h : Hdr) (f : VMovForm) : FieldsFit.Statement (.vmov h f) := by
  cases f <;> (rintro e ⟨⟩; simp only [encA, Fits]; omega)
theorem FieldsFit.vperm (h : Hdr) (d : VReg) (a : VReg) (b : VReg) : FieldsFit.Statement (.vperm h d a b) := by
  rintro e ⟨⟩; simp only [encA, Fits]; omega
theorem FieldsFit.vrot (h : Hdr) (d : VReg) (a : VReg) (n : RotAmt) : FieldsFit.Statement (.vrot h d a n) := by
  cases n <;> (rintro e ⟨⟩; simp only [encA, Fits]; omega)
theorem FieldsFit.vslide (h : Hdr) (up : Bool) (d : VReg) (a : VReg) (c : VReg) (n : RotAmt) : FieldsFit.Statement (.vslide h up d a c n) := by
  have := b2n_lt up
  cases n <;> (rintro e ⟨⟩; simp only [encA, Fits]; omega)
theorem FieldsFit.vcompact (h : Hdr) (d : VReg) (a : VReg) (c : PReg) : FieldsFit.Statement (.vcompact h d a c) := by
  rintro e ⟨⟩; simp only [encA, Fits]; omega
theorem FieldsFit.vexpand (h : Hdr) (d : VReg) (a : VReg) (c : PReg) : FieldsFit.Statement (.vexpand h d a c) := by
  rintro e ⟨⟩; simp only [encA, Fits]; omega
theorem FieldsFit.vredsum (h : Hdr) (t : RedTy) (d : SReg) (a : VReg) (c : PReg) : FieldsFit.Statement (.vredsum h t d a c) := by
  have := RedTy.code_lt t
  rintro e ⟨⟩; simp only [encA, Fits]; omega
theorem FieldsFit.vredmax (h : Hdr) (t : ExtTy) (d : SReg) (a : VReg) (c : PReg) : FieldsFit.Statement (.vredmax h t d a c) := by
  have := ExtTy.code_lt t
  rintro e ⟨⟩; simp only [encA, Fits]; omega
theorem FieldsFit.vredmin (h : Hdr) (t : ExtTy) (d : SReg) (a : VReg) (c : PReg) : FieldsFit.Statement (.vredmin h t d a c) := by
  have := ExtTy.code_lt t
  rintro e ⟨⟩; simp only [encA, Fits]; omega
theorem FieldsFit.vscan (h : Hdr) (flt : Bool) (d : VReg) (a : VReg) (c : PReg) : FieldsFit.Statement (.vscan h flt d a c) := by
  have := b2n_lt flt; have := fltCode_lt flt
  rintro e ⟨⟩; simp only [encA, Fits]; omega
theorem FieldsFit.vtopk (h : Hdr) (flt : Bool) (mag : Bool) (idx : Bool) (k : Fin 65) (d : VReg) (a : VReg) (c : PReg) : FieldsFit.Statement (.vtopk h flt mag idx k d a c) := by
  have := b2n_lt flt; have := fltCode_lt flt; have := b2n_lt mag; have := fltCode_lt mag; have := b2n_lt idx; have := fltCode_lt idx
  rintro e ⟨⟩; simp only [encA, Fits]; omega
theorem FieldsFit.vbmand (h : Hdr) (d : PReg) (f : BmForm) : FieldsFit.Statement (.vbmand h d f) := by
  cases f <;> (rintro e ⟨⟩; simp only [encA, Fits]; omega)
theorem FieldsFit.vpopc (h : Hdr) (d : VReg) (a : VReg) : FieldsFit.Statement (.vpopc h d a) := by
  rintro e ⟨⟩; simp only [encA, Fits]; omega
theorem FieldsFit.vpfx (h : Hdr) (d : VReg) (a : PfxSrc) : FieldsFit.Statement (.vpfx h d a) := by
  cases a <;> (rintro e ⟨⟩; simp only [encA, Fits]; omega)
theorem FieldsFit.vcvt (h : Hdr) (up : Bool) (rm : Rnd) (sat : Bool) (t : CvtTy) (d : VReg) (a : VReg) : FieldsFit.Statement (.vcvt h up rm sat t d a) := by
  have := b2n_lt up; have := Rnd.code_lt rm; have := b2n_lt sat; have := CvtTy.code_lt t
  rintro e ⟨⟩; simp only [encA, Fits]; omega
theorem FieldsFit.vquantScale (h : Hdr) (t : Fin 8) (d : SReg) (a : VReg) (c : PReg) : FieldsFit.Statement (.vquantScale h t d a c) := by
  rintro e ⟨⟩; simp only [encA, Fits]; omega
theorem FieldsFit.vquant (h : Hdr) (rm : Rnd) (sat : Bool) (t : Fin 8) (d : VReg) (a : VReg) (b : SReg) : FieldsFit.Statement (.vquant h rm sat t d a b) := by
  have := Rnd.code_lt rm; have := b2n_lt sat
  rintro e ⟨⟩; simp only [encA, Fits]; omega
theorem FieldsFit.vdequant (h : Hdr) (rm : Rnd) (t : Fin 8) (d : VReg) (a : VReg) (b : SReg) : FieldsFit.Statement (.vdequant h rm t d a b) := by
  have := Rnd.code_lt rm
  rintro e ⟨⟩; simp only [encA, Fits]; omega
theorem FieldsFit.vpack (h : Hdr) (t : Fin 8) (part : Fin 8) (d : VReg) (a : VReg) : FieldsFit.Statement (.vpack h t part d a) := by
  rintro e ⟨⟩; simp only [encA, Fits]; omega
theorem FieldsFit.vunpack (h : Hdr) (t : Fin 8) (part : Fin 8) (d : VReg) (a : VReg) : FieldsFit.Statement (.vunpack h t part d a) := by
  rintro e ⟨⟩; simp only [encA, Fits]; omega
theorem FieldsFit.vrnd (h : Hdr) (rm : Rnd) (d : VReg) (a : VReg) : FieldsFit.Statement (.vrnd h rm d a) := by
  have := Rnd.code_lt rm
  rintro e ⟨⟩; simp only [encA, Fits]; omega
theorem FieldsFit.pand (h : Hdr) (d : PReg) (a : PReg) (b : PReg) : FieldsFit.Statement (.pand h d a b) := by
  rintro e ⟨⟩; simp only [encA, Fits]; omega
theorem FieldsFit.por (h : Hdr) (d : PReg) (a : PReg) (b : PReg) : FieldsFit.Statement (.por h d a b) := by
  rintro e ⟨⟩; simp only [encA, Fits]; omega
theorem FieldsFit.pxor (h : Hdr) (d : PReg) (a : PReg) (b : PReg) : FieldsFit.Statement (.pxor h d a b) := by
  rintro e ⟨⟩; simp only [encA, Fits]; omega
theorem FieldsFit.pnot (h : Hdr) (d : PReg) (a : PReg) : FieldsFit.Statement (.pnot h d a) := by
  rintro e ⟨⟩; simp only [encA, Fits]; omega
theorem FieldsFit.pcnt (h : Hdr) (bits : Bool) (d : SReg) (a : PReg) : FieldsFit.Statement (.pcnt h bits d a) := by
  have := b2n_lt bits
  rintro e ⟨⟩; simp only [encA, Fits]; omega
theorem FieldsFit.pfirst (h : Hdr) (d : SReg) (a : PReg) : FieldsFit.Statement (.pfirst h d a) := by
  rintro e ⟨⟩; simp only [encA, Fits]; omega
theorem FieldsFit.pset (h : Hdr) (d : PReg) (f : PSetForm) : FieldsFit.Statement (.pset h d f) := by
  cases f <;> (rintro e ⟨⟩; simp only [encA, Fits]; omega)
theorem FieldsFit.ld (h : Hdr) (d : SReg) (base : SReg) (sp : Space) (width : MWidth) (sx : Bool) (off : BitVec 24) : FieldsFit.Statement (.ld h d base sp width sx off) := by
  have := Space.code_lt sp; have := MWidth.code_lt width; have := b2n_lt sx
  rintro e ⟨⟩; simp only [encM, Fits]; omega
theorem FieldsFit.st (h : Hdr) (data : SReg) (base : SReg) (sp : Space) (width : MWidth) (off : BitVec 24) : FieldsFit.Statement (.st h data base sp width off) := by
  have := Space.code_lt sp; have := MWidth.code_lt width
  rintro e ⟨⟩; simp only [encM, Fits]; omega
theorem FieldsFit.ldacq (h : Hdr) (d : SReg) (base : SReg) (sp : Space) (width : MWidth) (scope : Scope) (sx : Bool) (off : BitVec 24) : FieldsFit.Statement (.ldacq h d base sp width scope sx off) := by
  have := Space.code_lt sp; have := MWidth.code_lt width; have := Scope.code_lt scope; have := b2n_lt sx
  rintro e ⟨⟩; simp only [encM, Fits]; omega
theorem FieldsFit.strel (h : Hdr) (data : SReg) (base : SReg) (sp : Space) (width : MWidth) (scope : Scope) (off : BitVec 24) : FieldsFit.Statement (.strel h data base sp width scope off) := by
  have := Space.code_lt sp; have := MWidth.code_lt width; have := Scope.code_lt scope
  rintro e ⟨⟩; simp only [encM, Fits]; omega
theorem FieldsFit.vld (h : Hdr) (d : VReg) (base : SReg) (sp : Space) (str : Bool) (off : BitVec 24) : FieldsFit.Statement (.vld h d base sp str off) := by
  have := Space.code_lt sp; have := b2n_lt str
  rintro e ⟨⟩; simp only [encM, Fits]; omega
theorem FieldsFit.vst (h : Hdr) (data : VReg) (base : SReg) (sp : Space) (str : Bool) (off : BitVec 24) : FieldsFit.Statement (.vst h data base sp str off) := by
  have := Space.code_lt sp; have := b2n_lt str
  rintro e ⟨⟩; simp only [encM, Fits]; omega
theorem FieldsFit.vgather (h : Hdr) (d : VReg) (base : SReg) (sp : Space) (x : VReg) (off : BitVec 24) : FieldsFit.Statement (.vgather h d base sp x off) := by
  have := Space.code_lt sp
  rintro e ⟨⟩; simp only [encM, Fits]; omega
theorem FieldsFit.vscatter (h : Hdr) (data : VReg) (base : SReg) (sp : Space) (comb : Comb) (x : VReg) (off : BitVec 24) : FieldsFit.Statement (.vscatter h data base sp comb x off) := by
  have := Space.code_lt sp; have := Comb.code_lt comb
  rintro e ⟨⟩; simp only [encM, Fits]; omega
theorem FieldsFit.align (h : Hdr) : FieldsFit.Statement (.align h) := by
  rintro e ⟨⟩; simp only [encM, Fits]; omega
theorem FieldsFit.fence (h : Hdr) (ord : Ord) (scope : Scope) : FieldsFit.Statement (.fence h ord scope) := by
  have := Ord.code_lt ord; have := Scope.code_lt scope
  rintro e ⟨⟩; simp only [encM, Fits]; omega
theorem FieldsFit.amo (h : Hdr) (d : SReg) (base : SReg) (dbl : Bool) (scope : Scope) (ord : Ord) (op : AmoOp) (u : Bool) (off : BitVec 24) : FieldsFit.Statement (.amo h d base dbl scope ord op u off) := by
  have := b2n_lt dbl; have := Scope.code_lt scope; have := Ord.code_lt ord; have := AmoOp.code_lt op; have := b2n_lt u
  rintro e ⟨⟩; simp only [encM, Fits]; omega
theorem FieldsFit.cas (h : Hdr) (d : SReg) (base : SReg) (dbl : Bool) (scope : Scope) (ord : Ord) (off : BitVec 24) : FieldsFit.Statement (.cas h d base dbl scope ord off) := by
  have := b2n_lt dbl; have := Scope.code_lt scope; have := Ord.code_lt ord
  rintro e ⟨⟩; simp only [encM, Fits]; omega
theorem FieldsFit.cred (h : Hdr) (data : SReg) (base : SReg) (dbl : Bool) (scope : Scope) (ord : Ord) (op : AmoOp) (u : Bool) (cm1 : Fin 16) (off : BitVec 24) : FieldsFit.Statement (.cred h data base dbl scope ord op u cm1 off) := by
  have := b2n_lt dbl; have := Scope.code_lt scope; have := Ord.code_lt ord; have := AmoOp.code_lt op; have := b2n_lt u
  rintro e ⟨⟩; simp only [encM, Fits]; omega
theorem FieldsFit.barInit (h : Hdr) (data : SReg) (base : SReg) (scope : Scope) (off : BitVec 24) : FieldsFit.Statement (.barInit h data base scope off) := by
  have := Scope.code_lt scope
  rintro e ⟨⟩; simp only [encM, Fits]; omega
theorem FieldsFit.barArrive (h : Hdr) (base : SReg) (rel : Bool) (scope : Scope) (off : BitVec 24) : FieldsFit.Statement (.barArrive h base rel scope off) := by
  have := b2n_lt rel; have := Scope.code_lt scope
  rintro e ⟨⟩; simp only [encM, Fits]; omega
theorem FieldsFit.barWait (h : Hdr) (base : SReg) (scope : Scope) (ph : PhSrc) (off : BitVec 24) : FieldsFit.Statement (.barWait h base scope ph off) := by
  have := Scope.code_lt scope
  cases ph <;> (rintro e ⟨⟩; simp only [encM, Fits]; first | omega | (rename_i ph; have := b2n_lt ph; omega))
theorem FieldsFit.gjoin (h : Hdr) (base : SReg) (off : BitVec 24) : FieldsFit.Statement (.gjoin h base off) := by
  rintro e ⟨⟩; simp only [encM, Fits]; omega
theorem FieldsFit.gleave (h : Hdr) (base : SReg) (off : BitVec 24) : FieldsFit.Statement (.gleave h base off) := by
  rintro e ⟨⟩; simp only [encM, Fits]; omega
theorem FieldsFit.gbar (h : Hdr) (base : SReg) (scope : Scope) (off : BitVec 24) : FieldsFit.Statement (.gbar h base scope off) := by
  have := Scope.code_lt scope
  rintro e ⟨⟩; simp only [encM, Fits]; omega
theorem FieldsFit.tokw (h : Hdr) (wp : Bool) (wn : Bool) : FieldsFit.Statement (.tokw h wp wn) := by
  have := b2n_lt wp; have := b2n_lt wn
  rintro e ⟨⟩; simp only [encE, Fits]; omega
theorem FieldsFit.toks (h : Hdr) (sp : Bool) (sn : Bool) : FieldsFit.Statement (.toks h sp sn) := by
  have := b2n_lt sp; have := b2n_lt sn
  rintro e ⟨⟩; simp only [encE, Fits]; omega
theorem FieldsFit.carve (h : Hdr) (t : Tok) (a : SReg) (b : SReg) (clr : Bool) : FieldsFit.Statement (.carve h t a b clr) := by
  have := Tok.code_lt t; have := b2n_lt clr
  rintro e ⟨⟩; simp only [encE, Fits]; omega
theorem FieldsFit.wload (h : Hdr) (t : Tok) (q : RingId) (a : SReg) : FieldsFit.Statement (.wload h t q a) := by
  have := Tok.code_lt t
  rintro e ⟨⟩; simp only [encE, Fits]; omega
theorem FieldsFit.mmap (h : Hdr) (t : Tok) (a : SReg) (b : SReg) : FieldsFit.Statement (.mmap h t a b) := by
  have := Tok.code_lt t
  rintro e ⟨⟩; simp only [encE, Fits]; omega
theorem FieldsFit.plane (h : Hdr) (t : Tok) (copy : Bool) : FieldsFit.Statement (.plane h t copy) := by
  have := Tok.code_lt t; have := b2n_lt copy
  rintro e ⟨⟩; simp only [encE, Fits]; omega
theorem FieldsFit.sbind (h : Hdr) (t : Tok) (q : RingId) (lane : LaneId) (en : Bool) : FieldsFit.Statement (.sbind h t q lane en) := by
  have := Tok.code_lt t; have := b2n_lt en
  rintro e ⟨⟩; simp only [encE, Fits]; omega
theorem FieldsFit.feed (h : Hdr) (t : Tok) (q : RingId) (a : SReg) (b : SReg) (c : SReg) (lane : LaneId) (slot : Fin 8) (tpsm1 : Fin 256) : FieldsFit.Statement (.feed h t q a b c lane slot tpsm1) := by
  have := Tok.code_lt t
  rintro e ⟨⟩; simp only [encE, Fits]; omega
theorem FieldsFit.feedx (h : Hdr) (t : Tok) (a : SReg) (b : SReg) (c : SReg) (lane : LaneId) (slot : Fin 8) (fmt : Fin 8) : FieldsFit.Statement (.feedx h t a b c lane slot fmt) := by
  have := Tok.code_lt t
  rintro e ⟨⟩; simp only [encE, Fits]; omega
theorem FieldsFit.drain (h : Hdr) (t : Tok) (q : RingId) (a : SReg) (b : SReg) (lane : LaneId) (bias : RingId) : FieldsFit.Statement (.drain h t q a b lane bias) := by
  have := Tok.code_lt t
  rintro e ⟨⟩; simp only [encE, Fits]; omega
theorem FieldsFit.aclr (h : Hdr) (t : Tok) (b : SReg) : FieldsFit.Statement (.aclr h t b) := by
  have := Tok.code_lt t
  rintro e ⟨⟩; simp only [encE, Fits]; omega
theorem FieldsFit.pstat (h : Hdr) (d : SReg) (sel : Fin 16) : FieldsFit.Statement (.pstat h d sel) := by
  rintro e ⟨⟩; simp only [encE, Fits]; omega
theorem FieldsFit.qdef (h : Hdr) (q : RingId) (a : SReg) (b : SReg) : FieldsFit.Statement (.qdef h q a b) := by
  rintro e ⟨⟩; simp only [encE, Fits]; omega
theorem FieldsFit.qreset (h : Hdr) (q : RingId) : FieldsFit.Statement (.qreset h q) := by
  rintro e ⟨⟩; simp only [encE, Fits]; omega
theorem FieldsFit.qfill (h : Hdr) (q : RingId) (a : SReg) : FieldsFit.Statement (.qfill h q a) := by
  rintro e ⟨⟩; simp only [encE, Fits]; omega
theorem FieldsFit.qpop (h : Hdr) (d : SReg) (q : RingId) : FieldsFit.Statement (.qpop h d q) := by
  rintro e ⟨⟩; simp only [encE, Fits]; omega
theorem FieldsFit.qpopFree (h : Hdr) (d : SReg) (q : RingId) : FieldsFit.Statement (.qpopFree h d q) := by
  rintro e ⟨⟩; simp only [encE, Fits]; omega
theorem FieldsFit.qtag (h : Hdr) (d : SReg) (q : RingId) (slot : Fin 64) (ptr : Bool) : FieldsFit.Statement (.qtag h d q slot ptr) := by
  have := b2n_lt ptr
  rintro e ⟨⟩; simp only [encE, Fits]; omega
theorem FieldsFit.cdef (h : Hdr) (e : EntryNo) (sp : Space) (a : SReg) : FieldsFit.Statement (.cdef h e sp a) := by
  have := Space.code_lt sp
  rintro e ⟨⟩; simp only [encE, Fits]; omega
theorem FieldsFit.cgo (h : Hdr) (e : EntryNo) (a : SReg) (b : SReg) : FieldsFit.Statement (.cgo h e a b) := by
  rintro e ⟨⟩; simp only [encE, Fits]; omega
theorem FieldsFit.cdem (h : Hdr) (e : EntryNo) (a : SReg) (b : SReg) : FieldsFit.Statement (.cdem h e a b) := by
  rintro e ⟨⟩; simp only [encE, Fits]; omega
theorem FieldsFit.cwait (h : Hdr) (e : EntryNo) : FieldsFit.Statement (.cwait h e) := by
  rintro e ⟨⟩; simp only [encE, Fits]; omega
theorem FieldsFit.circ (h : Hdr) (n : CircNo) (q : RingId) (a : SReg) (b : SReg) : FieldsFit.Statement (.circ h n q a b) := by
  rintro e ⟨⟩; simp only [encE, Fits]; omega
theorem FieldsFit.ccls (h : Hdr) (n : CircNo) : FieldsFit.Statement (.ccls h n) := by
  rintro e ⟨⟩; simp only [encE, Fits]; omega
theorem FieldsFit.cstat (h : Hdr) (d : SReg) (circuit : Bool) (n : Fin 64) : FieldsFit.Statement (.cstat h d circuit n) := by
  have := b2n_lt circuit
  rintro e ⟨⟩; simp only [encE, Fits]; omega
theorem FieldsFit.wdrive (h : Hdr) (d : SReg) (a : SReg) : FieldsFit.Statement (.wdrive h d a) := by
  rintro e ⟨⟩; simp only [encE, Fits]; omega
theorem FieldsFit.wdriveNew (h : Hdr) (d : SReg) (a : SReg) : FieldsFit.Statement (.wdriveNew h d a) := by
  rintro e ⟨⟩; simp only [encE, Fits]; omega
theorem FieldsFit.wdriveAbort (h : Hdr) (d : SReg) : FieldsFit.Statement (.wdriveAbort h d) := by
  rintro e ⟨⟩; simp only [encE, Fits]; omega
theorem FieldsFit.wstat (h : Hdr) (d : SReg) (sel : Fin 16) : FieldsFit.Statement (.wstat h d sel) := by
  rintro e ⟨⟩; simp only [encE, Fits]; omega
theorem FieldsFit.launch (h : Hdr) (d : SReg) (a : SReg) (q : QueueNo) : FieldsFit.Statement (.launch h d a q) := by
  rintro e ⟨⟩; simp only [encI, Fits]; omega
theorem FieldsFit.lwait (h : Hdr) (d : SReg) (a : SReg) : FieldsFit.Statement (.lwait h d a) := by
  rintro e ⟨⟩; simp only [encI, Fits]; omega
theorem FieldsFit.lwaitT (h : Hdr) (d : SReg) (a : SReg) : FieldsFit.Statement (.lwaitT h d a) := by
  rintro e ⟨⟩; simp only [encI, Fits]; omega
theorem FieldsFit.rett (h : Hdr) : FieldsFit.Statement (.rett h) := by
  rintro e ⟨⟩; simp only [encS, Fits]; omega
theorem FieldsFit.prd (h : Hdr) (r : BitVec 12) (d : SReg) : FieldsFit.Statement (.prd h r d) := by
  rintro e ⟨⟩; simp only [encS, Fits]; omega
theorem FieldsFit.pwr (h : Hdr) (r : BitVec 12) (a : SReg) : FieldsFit.Statement (.pwr h r a) := by
  rintro e ⟨⟩; simp only [encS, Fits]; omega
theorem FieldsFit.tlbi (h : Hdr) (scope : TlbScope) (kind : TlbKind) : FieldsFit.Statement (.tlbi h scope kind) := by
  have := TlbScope.code_lt scope
  cases kind <;> (rintro e ⟨⟩; simp only [encS, Fits]; omega)
theorem FieldsFit.cast (h : Hdr) (d : SReg) (f : CastField) (j : Fin 4) : FieldsFit.Statement (.cast h d f j) := by
  have := CastField.code_lt f
  rintro e ⟨⟩; simp only [encS, Fits]; omega
theorem FieldsFit.freeze (h : Hdr) (f : FreezeSel) (a : SReg) : FieldsFit.Statement (.freeze h f a) := by
  cases f <;> (rintro e ⟨⟩; simp only [encS, Fits]; first | omega | (rename_i lk; have := b2n_lt lk; omega))
theorem FieldsFit.thaw (h : Hdr) (f : FreezeSel) (a : SReg) : FieldsFit.Statement (.thaw h f a) := by
  cases f <;> (rintro e ⟨⟩; simp only [encS, Fits]; first | omega | (rename_i lk; have := b2n_lt lk; omega))
theorem FieldsFit.wfi (h : Hdr) (wake : Fin 8) (a : SReg) : FieldsFit.Statement (.wfi h wake a) := by
  rintro e ⟨⟩; simp only [encS, Fits]; omega
theorem FieldsFit.ctxsave (h : Hdr) (a : SReg) : FieldsFit.Statement (.ctxsave h a) := by
  rintro e ⟨⟩; simp only [encS, Fits]; omega
theorem FieldsFit.ctxload (h : Hdr) (a : SReg) : FieldsFit.Statement (.ctxload h a) := by
  rintro e ⟨⟩; simp only [encS, Fits]; omega
theorem FieldsFit.qsave (h : Hdr) (q : QueueNo) (a : SReg) : FieldsFit.Statement (.qsave h q a) := by
  rintro e ⟨⟩; simp only [encS, Fits]; omega
theorem FieldsFit.qload (h : Hdr) (q : QueueNo) (a : SReg) : FieldsFit.Statement (.qload h q a) := by
  rintro e ⟨⟩; simp only [encS, Fits]; omega
theorem FieldsFit.sysc (h : Hdr) (n : BitVec 34) : FieldsFit.Statement (.sysc h n) := by
  rintro e ⟨⟩; simp only [encS, Fits]; omega
theorem FieldsFit.halt (h : Hdr) : FieldsFit.Statement (.halt h) := by
  rintro e ⟨⟩; simp only [encS, Fits]; omega
theorem FieldsFit.pauseEnd (c : CoreId) : FieldsFit.Statement (.pauseEnd c) := nofun
theorem FieldsFit.releaseWaitEnd (c : CoreId) : FieldsFit.Statement (.releaseWaitEnd c) := nofun
theorem FieldsFit.tokwPop (c : CoreId) : FieldsFit.Statement (.tokwPop c) := nofun
theorem FieldsFit.carveBegin (c : CoreId) : FieldsFit.Statement (.carveBegin c) := nofun
theorem FieldsFit.carveRecordRead (c : CoreId) : FieldsFit.Statement (.carveRecordRead c) := nofun
theorem FieldsFit.wloadSlotStep (c : CoreId) : FieldsFit.Statement (.wloadSlotStep c) := nofun
theorem FieldsFit.mmapBegin (c : CoreId) : FieldsFit.Statement (.mmapBegin c) := nofun
theorem FieldsFit.sbindBegin (c : CoreId) : FieldsFit.Statement (.sbindBegin c) := nofun
theorem FieldsFit.planeSwap (c : CoreId) : FieldsFit.Statement (.planeSwap c) := nofun
theorem FieldsFit.feedArm (c : CoreId) : FieldsFit.Statement (.feedArm c) := nofun
theorem FieldsFit.tokenEntryBegin (c : CoreId) (q : PoolQ) : FieldsFit.Statement (.tokenEntryBegin c q) := nofun
theorem FieldsFit.poolOperationFire (c : CoreId) (lane : LaneId) : FieldsFit.Statement (.poolOperationFire c lane) := nofun
theorem FieldsFit.passEnterResultStage (c : CoreId) (lane : LaneId) : FieldsFit.Statement (.passEnterResultStage c lane) := nofun
theorem FieldsFit.operationRetire (c : CoreId) (lane : LaneId) : FieldsFit.Statement (.operationRetire c lane) := nofun
theorem FieldsFit.extendedPartArrive (msg : Nat) : FieldsFit.Statement (.extendedPartArrive msg) := nofun
theorem FieldsFit.drainBegin (c : CoreId) : FieldsFit.Statement (.drainBegin c) := nofun
theorem FieldsFit.drainSlotFull (c : CoreId) : FieldsFit.Statement (.drainSlotFull c) := nofun
theorem FieldsFit.aclrBegin (c : CoreId) : FieldsFit.Statement (.aclrBegin c) := nofun
theorem FieldsFit.qdefTakeEffect (c : CoreId) (q : RingId) : FieldsFit.Statement (.qdefTakeEffect c q) := nofun
theorem FieldsFit.qresetTakeEffect (c : CoreId) (q : RingId) : FieldsFit.Statement (.qresetTakeEffect c q) := nofun
theorem FieldsFit.qfillSlotFull (c : CoreId) (q : RingId) : FieldsFit.Statement (.qfillSlotFull c q) := nofun
theorem FieldsFit.qpopTake (c : CoreId) : FieldsFit.Statement (.qpopTake c) := nofun
theorem FieldsFit.cdefReadComplete (c : CoreId) (e : EntryNo) : FieldsFit.Statement (.cdefReadComplete c e) := nofun
theorem FieldsFit.cwaitReturn (c : CoreId) : FieldsFit.Statement (.cwaitReturn c) := nofun
theorem FieldsFit.copyBlock (c : CoreId) (e : EntryNo) : FieldsFit.Statement (.copyBlock c e) := nofun
theorem FieldsFit.copyDone (c : CoreId) (e : EntryNo) : FieldsFit.Statement (.copyDone c e) := nofun
theorem FieldsFit.copyCompletionTokenPush (c : CoreId) (e : EntryNo) : FieldsFit.Statement (.copyCompletionTokenPush c e) := nofun
theorem FieldsFit.circuitOpeningArrive (msg : Nat) : FieldsFit.Statement (.circuitOpeningArrive msg) := nofun
theorem FieldsFit.circuitReplyArrive (msg : Nat) : FieldsFit.Statement (.circuitReplyArrive msg) := nofun
theorem FieldsFit.circuitFlitLeave (c : CoreId) (n : CircNo) : FieldsFit.Statement (.circuitFlitLeave c n) := nofun
theorem FieldsFit.branchFillBegin (c : CoreId) (n : CircNo) (branch : Fin 16) : FieldsFit.Statement (.branchFillBegin c n branch) := nofun
theorem FieldsFit.circuitFlitArrive (c : CoreId) (n : CircNo) (branch : Fin 16) : FieldsFit.Statement (.circuitFlitArrive c n branch) := nofun
theorem FieldsFit.circuitClosed (c : CoreId) (n : CircNo) : FieldsFit.Statement (.circuitClosed c n) := nofun
theorem FieldsFit.feltHeaderRead (c : CoreId) : FieldsFit.Statement (.feltHeaderRead c) := nofun
theorem FieldsFit.feltActionPlace (c : CoreId) : FieldsFit.Statement (.feltActionPlace c) := nofun
theorem FieldsFit.loadwBlock (c : CoreId) : FieldsFit.Statement (.loadwBlock c) := nofun
theorem FieldsFit.walkerToken (c : CoreId) : FieldsFit.Statement (.walkerToken c) := nofun
theorem FieldsFit.feltSuccessor (c : CoreId) : FieldsFit.Statement (.feltSuccessor c) := nofun
theorem FieldsFit.tagbrResolve (c : CoreId) : FieldsFit.Statement (.tagbrResolve c) := nofun
theorem FieldsFit.launchRequestArrive (msg : Nat) : FieldsFit.Statement (.launchRequestArrive msg) := nofun
theorem FieldsFit.lwaitReturn (c : CoreId) : FieldsFit.Statement (.lwaitReturn c) := nofun
theorem FieldsFit.freezeApply (msg : Nat) : FieldsFit.Statement (.freezeApply msg) := nofun
theorem FieldsFit.wfiWake (c : CoreId) : FieldsFit.Statement (.wfiWake c) := nofun
theorem FieldsFit.engineFaultTaken (c : CoreId) : FieldsFit.Statement (.engineFaultTaken c) := nofun
theorem FieldsFit.registerResultArrive (c : CoreId) (t : TagId) : FieldsFit.Statement (.registerResultArrive c t) := nofun
theorem FieldsFit.holdbackDepart (c : CoreId) (n : Nat) : FieldsFit.Statement (.holdbackDepart c n) := nofun
theorem FieldsFit.writeAgePerform (c : CoreId) (b : Buf) (order : Nat) : FieldsFit.Statement (.writeAgePerform c b order) := nofun
theorem FieldsFit.loadPerform (c : CoreId) (n : Nat) (unit : Nat) : FieldsFit.Statement (.loadPerform c n unit) := nofun
theorem FieldsFit.homeStoreApply (msg : Nat) (unit : Nat) : FieldsFit.Statement (.homeStoreApply msg unit) := nofun
theorem FieldsFit.amoApply (msg : Nat) : FieldsFit.Statement (.amoApply msg) := nofun
theorem FieldsFit.casApply (msg : Nat) : FieldsFit.Statement (.casApply msg) := nofun
theorem FieldsFit.credApply (msg : Nat) : FieldsFit.Statement (.credApply msg) := nofun
theorem FieldsFit.barInitApply (msg : Nat) : FieldsFit.Statement (.barInitApply msg) := nofun
theorem FieldsFit.barrierArrivalApply (msg : Nat) : FieldsFit.Statement (.barrierArrivalApply msg) := nofun
theorem FieldsFit.boundCopyWriteApply (msg : Nat) : FieldsFit.Statement (.boundCopyWriteApply msg) := nofun
theorem FieldsFit.barWaitCheck (c : CoreId) : FieldsFit.Statement (.barWaitCheck c) := nofun
theorem FieldsFit.barWaitReturn (c : CoreId) : FieldsFit.Statement (.barWaitReturn c) := nofun
theorem FieldsFit.groupOpApply (msg : Nat) : FieldsFit.Statement (.groupOpApply msg) := nofun
theorem FieldsFit.gbarArrivalApply (msg : Nat) : FieldsFit.Statement (.gbarArrivalApply msg) := nofun
theorem FieldsFit.gbarReturn (c : CoreId) : FieldsFit.Statement (.gbarReturn c) := nofun
theorem FieldsFit.requestAck (c : CoreId) (n : Nat) : FieldsFit.Statement (.requestAck c n) := nofun
theorem FieldsFit.freeNoticeArrive (msg : Nat) : FieldsFit.Statement (.freeNoticeArrive msg) := nofun
theorem FieldsFit.slotReleaseDepart (c : CoreId) (q : RingId) : FieldsFit.Statement (.slotReleaseDepart c q) := nofun
theorem FieldsFit.cacheMissRead (d : DieId) (block : Nat) : FieldsFit.Statement (.cacheMissRead d block) := nofun
theorem FieldsFit.compressedWriteback (d : DieId) (block : Nat) : FieldsFit.Statement (.compressedWriteback d block) := nofun
theorem FieldsFit.walkSlotGrant (d : DieId) : FieldsFit.Statement (.walkSlotGrant d) := nofun
theorem FieldsFit.pageWalkComplete (c : CoreId) (n : Nat) : FieldsFit.Statement (.pageWalkComplete c n) := nofun
theorem FieldsFit.lqDoorWrite (by_ : Agent) (c : CoreId) (v : Word) : FieldsFit.Statement (.lqDoorWrite by_ c v) := nofun
theorem FieldsFit.waitbarRead (p : PartId) (q : QueueNo) : FieldsFit.Statement (.waitbarRead p q) := nofun
theorem FieldsFit.schedulerGrant (p : PartId) : FieldsFit.Statement (.schedulerGrant p) := nofun
theorem FieldsFit.headStarving (p : PartId) (q : QueueNo) : FieldsFit.Statement (.headStarving p q) := nofun
theorem FieldsFit.coreClearComplete (c : CoreId) : FieldsFit.Statement (.coreClearComplete c) := nofun
theorem FieldsFit.iterationDispatch (c : CoreId) : FieldsFit.Statement (.iterationDispatch c) := nofun
theorem FieldsFit.coreRelease (c : CoreId) : FieldsFit.Statement (.coreRelease c) := nofun
theorem FieldsFit.launchComplete (p : PartId) (n : Nat) : FieldsFit.Statement (.launchComplete p n) := nofun
theorem FieldsFit.deadlockDetect (p : PartId) : FieldsFit.Statement (.deadlockDetect p) := nofun
theorem FieldsFit.castTake (c : CoreId) : FieldsFit.Statement (.castTake c) := nofun
theorem FieldsFit.strikeReport (c : CoreId) (time : Nat) (estimate : Nat) : FieldsFit.Statement (.strikeReport c time estimate) := nofun
theorem FieldsFit.sharedBlockStrike (b : SharedBlock) : FieldsFit.Statement (.sharedBlockStrike b) := nofun
theorem FieldsFit.lockstepMismatch (b : SharedBlock) : FieldsFit.Statement (.lockstepMismatch b) := nofun
theorem FieldsFit.residueReject (msg : Nat) : FieldsFit.Statement (.residueReject msg) := nofun
theorem FieldsFit.hbmScrubPass (s : StackId) (unit : Nat) : FieldsFit.Statement (.hbmScrubPass s unit) := nofun
theorem FieldsFit.hbmErrSample (s : StackId) : FieldsFit.Statement (.hbmErrSample s) := nofun
theorem FieldsFit.guardDrop (msg : Nat) : FieldsFit.Statement (.guardDrop msg) := nofun
theorem FieldsFit.dropNoticeArrive (msg : Nat) : FieldsFit.Statement (.dropNoticeArrive msg) := nofun
theorem FieldsFit.budgetWindow : FieldsFit.Statement (.budgetWindow) := nofun
theorem FieldsFit.gangSwitch (p : PartId) : FieldsFit.Statement (.gangSwitch p) := nofun
theorem FieldsFit.coreStop (c : CoreId) : FieldsFit.Statement (.coreStop c) := nofun
theorem FieldsFit.saveComplete (c : CoreId) : FieldsFit.Statement (.saveComplete c) := nofun
theorem FieldsFit.loadComplete (c : CoreId) : FieldsFit.Statement (.loadComplete c) := nofun
theorem FieldsFit.acceptWrite (by_ : Agent) (n : Fin 3) (v : Word) : FieldsFit.Statement (.acceptWrite by_ n v) := nofun
theorem FieldsFit.accept3Write (by_ : Agent) (v : Word) : FieldsFit.Statement (.accept3Write by_ v) := nofun
theorem FieldsFit.coreCtlWrite (by_ : Agent) (c : CoreId) (v : Word) : FieldsFit.Statement (.coreCtlWrite by_ c v) := nofun
theorem FieldsFit.lqCfgWrite (by_ : Agent) (c : CoreId) (q : QueueNo) (v : Word) : FieldsFit.Statement (.lqCfgWrite by_ c q v) := nofun
theorem FieldsFit.switchAtWrite (by_ : Agent) (c : CoreId) (v : Word) : FieldsFit.Statement (.switchAtWrite by_ c v) := nofun
theorem FieldsFit.pmapWrite (by_ : Agent) (n : Fin 16) (v : Word) : FieldsFit.Statement (.pmapWrite by_ n v) := nofun
theorem FieldsFit.pctlWrite (by_ : Agent) (v : Word) : FieldsFit.Statement (.pctlWrite by_ v) := nofun
theorem FieldsFit.calWrite (by_ : Agent) (n : Fin 4) (v : Word) : FieldsFit.Statement (.calWrite by_ n v) := nofun
theorem FieldsFit.rtabxWrite (by_ : Agent) (p : PartId) (v : Word) : FieldsFit.Statement (.rtabxWrite by_ p v) := nofun
theorem FieldsFit.budgetWrite (by_ : Agent) (c : CoreId) (n : Fin 4) (v : Word) : FieldsFit.Statement (.budgetWrite by_ c n v) := nofun
theorem FieldsFit.feedBudWrite (by_ : Agent) (c : CoreId) (v : Word) : FieldsFit.Statement (.feedBudWrite by_ c v) := nofun
theorem FieldsFit.mdbaseWrite (by_ : Agent) (s : StackId) (v : Word) : FieldsFit.Statement (.mdbaseWrite by_ s v) := nofun
theorem FieldsFit.apbaseWrite (by_ : Agent) (v : Word) : FieldsFit.Statement (.apbaseWrite by_ v) := nofun
theorem FieldsFit.lpctlWrite (by_ : Agent) (p : PortId) (v : Word) : FieldsFit.Statement (.lpctlWrite by_ p v) := nofun
theorem FieldsFit.pcapWrite (v : Word) : FieldsFit.Statement (.pcapWrite v) := nofun
theorem FieldsFit.tlimitWrite (v : Word) : FieldsFit.Statement (.tlimitWrite v) := nofun
theorem FieldsFit.attCtlGo : FieldsFit.Statement (.attCtlGo) := nofun
theorem FieldsFit.registerWrite (by_ : Agent) (c : CoreId) (r : BitVec 12) (v : Word) : FieldsFit.Statement (.registerWrite by_ c r v) := nofun
theorem FieldsFit.hostWrite (by_ : Agent) (addr : Nat) (n : Fin 257) (v : BitVec 2048) : FieldsFit.Statement (.hostWrite by_ addr n v) := nofun
theorem FieldsFit.hostRead (by_ : Agent) (addr : Nat) (n : Fin 513) : FieldsFit.Statement (.hostRead by_ addr n) := nofun
theorem FieldsFit.vfFunctionReset (p : PartId) : FieldsFit.Statement (.vfFunctionReset p) := nofun
theorem FieldsFit.pfFunctionReset : FieldsFit.Statement (.pfFunctionReset) := nofun
theorem FieldsFit.linkFlitReceive (p : PortId) : FieldsFit.Statement (.linkFlitReceive p) := nofun
theorem FieldsFit.linkNakResend (p : PortId) : FieldsFit.Statement (.linkNakResend p) := nofun
theorem FieldsFit.linkResendTimeout (p : PortId) : FieldsFit.Statement (.linkResendTimeout p) := nofun
theorem FieldsFit.portRetrain (p : PortId) : FieldsFit.Statement (.portRetrain p) := nofun
theorem FieldsFit.portTrained (p : PortId) : FieldsFit.Statement (.portTrained p) := nofun
theorem FieldsFit.timeExchange (p : PortId) : FieldsFit.Statement (.timeExchange p) := nofun
theorem FieldsFit.powerRamp (ok : Bool) : FieldsFit.Statement (.powerRamp ok) := nofun
theorem FieldsFit.rstNAssert : FieldsFit.Statement (.rstNAssert) := nofun
theorem FieldsFit.rstNRelease : FieldsFit.Statement (.rstNRelease) := nofun
theorem FieldsFit.bootStage (ok : Bool) : FieldsFit.Statement (.bootStage ok) := nofun
theorem FieldsFit.serviceProcessorStrike : FieldsFit.Statement (.serviceProcessorStrike) := nofun
theorem FieldsFit.governorSample : FieldsFit.Statement (.governorSample) := nofun
theorem FieldsFit.thermtrip (d : DieId) : FieldsFit.Statement (.thermtrip d) := nofun
theorem FieldsFit.attReportReady : FieldsFit.Statement (.attReportReady) := nofun
theorem FieldsFit.powerRemoval : FieldsFit.Statement (.powerRemoval) := nofun
theorem FieldsFit.tlbEntryLeave (c : CoreId) (n : Nat) : FieldsFit.Statement (.tlbEntryLeave c n) := nofun

end Sys2Proof.Laws
end

