-- ==== Sys2Proof/Laws/Words.lean ====
section
/-! SUPPORT. What the shared operations of the words do, in the terms of the statements: retirement, results of
fixed and of variable latency, lane-wise results, transfers and traps. -/

namespace Sys2Proof.Claims

open Sys2Proof.Machine

theorem Issues.gate {s : State} {i : Instr} {h : Hdr} {u : Use} (hi : Issues s h u) : s.gate i h u = .go :=
  s.gate_go i h u hi.may hi.feature hi.level hi.ready hi.on

/-- Cores after one core's front end has changed. -/
theorem core_modFront (s : State) (c d : CoreId) (f : Front → Front) :
    (s.modFront c f).core d = if c = d then (s.core c).setFront (f (s.core c).live.front) else s.core d := by
  simp only [State.modFront, State.modCore, State.setCore, State.core]
  by_cases h : c = d
  · subst h; simp
  · have : c.val ≠ d.val := fun e => h (Fin.ext e)
    simp [h, this]
/-- Cores after one core has changed. -/
theorem core_modCore (s : State) (c d : CoreId) (f : Core → Core) :
    (s.modCore c f).core d = if c = d then f (s.core c) else s.core d := by
  simp only [State.modCore, State.setCore, State.core]
  by_cases h : c = d
  · subst h; simp
  · have : c.val ≠ d.val := fun e => h (Fin.ext e)
    simp [h, this]

theorem SameBytes.refl (s : State) : SameBytes s s := ⟨fun _ => rfl, fun _ _ _ => rfl⟩
theorem SameBytes.trans {s t u : State} (h : SameBytes s t) (k : SameBytes t u) : SameBytes s u :=
  ⟨fun a => (k.1 a).trans (h.1 a), fun c b a => (k.2 c b a).trans (h.2 c b a)⟩
/-- A change of a core that keeps its buffers keeps every byte. -/
theorem SameBytes.modCore (s : State) (c : CoreId) (f : Core → Core) (h : ∀ k b, (f k).store.buf b = k.store.buf b) :
    SameBytes s (s.modCore c f) := by
  refine ⟨fun a => rfl, fun d b a => ?_⟩
  rw [core_modCore]; split
  · next e => subst e; rw [h]
  · rfl
theorem SameBytes.modFront (s : State) (c : CoreId) (f : Front → Front) : SameBytes s (s.modFront c f) :=
  SameBytes.modCore s c _ fun _ _ => rfl

@[simp] theorem fe_modFront (s : State) (f : Front → Front) : fe (s.modFront s.cur f) = f (fe s) := by
  simp only [fe, State.me]
  have : (s.modFront s.cur f).cur = s.cur := rfl
  rw [this, core_modFront, if_pos rfl]; rfl
theorem modFront_fe (s : State) (f : Front → Front) : s.modFront s.cur f = s.modFront s.cur fun _ => fe (s.modFront s.cur f) := by
  rw [fe_modFront]; rfl
/-- The front end after retirement. -/
theorem fe_retire (s : State) (h : Hdr) (lat : Option Nat) (d : Done) :
    fe (s.retire h lat d) = (fe s).retire h lat d s.cycle := fe_modFront ..

/-- A word that retires after its other effects m. -/
theorem retired_after (s m : State) (hc : m.cur = s.cur) (hp : (fe m).at_.pc = (fe s).at_.pc)
    (ho : (fe m).at_.po = (fe s).at_.po) (hb : SameBytes s m) (h : Hdr) (lat : Option Nat) (d : Done) :
    Retired s m (m.retire h lat d) d.flags d.target d.own d.keeps := by
  have e := fe_retire m h lat d
  constructor
  · rw [← hc]; exact modFront_fe ..
  · exact hb.trans (SameBytes.modFront ..)
  · rw [e]; simp
  · rw [e]; constructor <;> simp
  · rw [e]; simp [hp]
  · rw [e]; simp [hp]
  · rw [e]; simp [ho]
/-- A word that retires with no other effect. -/
theorem retired (s : State) (h : Hdr) (lat : Option Nat) (d : Done) :
    Retired s s (s.retire h lat d) d.flags d.target d.own d.keeps :=
  retired_after s s rfl rfl rfl (.refl s) h lat d

theorem writesReg_retire (s : State) (h : Hdr) (lat : Option Nat) (d : Reg) (x m : VecWord) (dn : Done)
    (e : dn.writes = [(d, x, m)]) : WritesReg s (s.retire h lat dn) d (d.fit (mergeBits (reg s d) x m)) := by
  intro g
  rw [reg, State.retire, fe_modFront, Front.retire_get, e, applyWrites_one_get]; rfl
theorem writesReg_writeS (s : State) (h : Hdr) (lat : Option Nat) (d : SReg) (x : Word) (dn : Done)
    (e : dn.writes = [writeS d x]) : WritesReg s (s.retire h lat dn) (.s d) (wordOf x) := by
  have := writesReg_retire s h lat (.s d) (wordOf x) (wordOf (BitVec.allOnes 64)) dn e
  rwa [fit_writeS] at this
theorem writesReg_writeP (s : State) (h : Hdr) (lat : Option Nat) (d : PReg) (x : Word) (dn : Done)
    (e : dn.writes = [writeP d x]) : WritesReg s (s.retire h lat dn) (.p d) (wordOf x) := by
  have := writesReg_retire s h lat (.p d) (wordOf x) (wordOf (BitVec.allOnes 64)) dn e
  rwa [fit_writeP] at this
theorem writesLanes_writeV (s : State) (h : Hdr) (lat : Option Nat) (d : VReg) (x : VecWord) (p : Word) (f : Nat → Lane)
    (hf : ∀ k < 64, p.getLsbD k = true → lane x k = f k) (dn : Done) (e : dn.writes = [writeV d x p]) :
    WritesLanes s (s.retire h lat dn) d p f := by
  have w := writesReg_retire s h lat (.v d) x (laneMask p) dn e
  constructor
  · intro k hk
    have : reg (s.retire h lat dn) (.v d) = mergeBits (reg s (.v d)) x (laneMask p) := by
      rw [w]; simp [Reg.wired, Reg.fit]
    rw [this, lane_mergeBits _ _ _ _ hk]
    split
    · next hp => exact hf k hk hp
    · rfl
  · intro g hg; rw [w]; simp [hg]
theorem writesNone_retire (s : State) (h : Hdr) (lat : Option Nat) (dn : Done) (e : dn.writes = []) :
    WritesNone s (s.retire h lat dn) := by
  intro g; rw [reg, State.retire, fe_modFront, Front.retire_get, e]; rfl
theorem lfsr_retire (s : State) (h : Hdr) (lat : Option Nat) (d : Done) :
    (fe (s.retire h lat d)).regs.lfsr = d.lfsr.getD (fe s).regs.lfsr := by
  rw [State.retire, fe_modFront, Front.retire_lfsr]

/-- Scalar instructions of fixed latency. -/
theorem computes_scalarOp (s : State) (i : Instr) (h : Hdr) (lat : Nat) (srcs : List (Reg × Fin 4)) (locks : List Reg)
    (d : SReg) (f : Front → Word) (x : Word) (he : exec i s = s.scalarOp i h lat srcs locks d f) (hx : f (fe s) = x) :
    Computes s i h (useS srcs (.s d) lat locks) (.s d) (wordOf x) := by
  subst hx
  intro hi
  have e : exec i s = .next (s.retire h (some lat) { writes := [writeS d (f (fe s))] }) := by
    rw [he]; exact s.issue_go i h (useS srcs (.s d) lat locks) _ hi.gate
  exact ⟨_, e, retired .., writesReg_writeS s h (some lat) d (f (fe s)) _ rfl, lfsr_retire ..⟩
/-- Scalar instructions that round. -/
theorem computes_fpOp (s : State) (i : Instr) (h : Hdr) (rm : Rnd) (srcs : List (Reg × Fin 4)) (locks : List Reg) (d : SReg)
    (f : Front → RMode → Nat → Word × FFlags) (he : exec i s = s.fpOp i h rm srcs locks d f) :
    let m := roundMode rm (fe s).regs.round
    let x := f (fe s) m (draw m (fe s) 0 1)
    Computes s i h (useS srcs (.s d) 4 locks) (.s d) (wordOf x.1) x.2 (stepLanes m 1 1 (fe s).regs.lfsr) := by
  intro m x hi
  have e : exec i s = .next (s.retire h (some 4)
      { writes := [writeS d x.1], flags := x.2, lfsr := some (stepLanes m 1 1 (fe s).regs.lfsr) }) := by
    rw [he]; exact s.issue_go i h (useS srcs (.s d) 4 locks) _ hi.gate
  exact ⟨_, e, retired .., writesReg_writeS s h (some 4) d x.1 _ rfl, lfsr_retire ..⟩
/-- Lane-wise instructions of fixed latency. -/
theorem computes_laneOp (s : State) (i : Instr) (h : Hdr) (lat : Nat) (srcs : List (Reg × Fin 4)) (locks : List Reg) (d : VReg)
    (rm : Rnd) (n : Nat) (f : Front → RMode → Nat → Lane × FFlags) (feature : Nat)
    (he : exec i s = s.laneOp i h lat srcs locks d rm n f feature) :
    let m := roundMode rm (fe s).regs.round
    let p := (fe s).predicate h
    ComputesLanes s i h (useV srcs (.v d) lat locks feature) d (fun k => (f (fe s) m k).1) (computeLanes p (f (fe s) m)).2
      (stepLanes m p n (fe s).regs.lfsr) := by
  intro m p hi
  have e : exec i s = .next (s.retire h (some lat)
      { writes := [writeV d (computeLanes p (f (fe s) m)).1 p], flags := (computeLanes p (f (fe s) m)).2
        lfsr := some (stepLanes m p n (fe s).regs.lfsr) }) := by
    rw [he]; exact s.issue_go i h (useV srcs (.v d) lat locks feature) _ hi.gate
  exact ⟨_, e, retired .., writesLanes_writeV s h (some lat) d _ p _ (fun k hk hp => lane_computeLanes p _ k hk hp) _ rfl,
    lfsr_retire ..⟩

end Sys2Proof.Claims
end

