-- ==== Sys2Proof/Tests/Slice0.lean ====
section
/-! SUPPORT. Tests: ill-formed terms, words written out from the encodings, worked examples of the specification, and for
every statement with hypotheses states that meet them. -/

namespace Sys2Proof.Tests

open Sys2Proof Sys2Proof.Machine Sys2Proof.Claims

-- The tests are evaluated one after the other, so that no stacks of waiting ones are held.
set_option Elab.async false

-- helpers

/-- A header that allocates a tag; one that waits for tags; one with producer distances. -/
def tag (t : TagId) : Hdr := { Hdr.zero with tag := some t }
def wait (w : BitVec 8) : Hdr := { Hdr.zero with wait := w }
def pd (a b : Fin 4) : Hdr := { Hdr.zero with pda := a, pdb := b }
def tokens (wp wn sp sn : Bool) : Tok := ⟨wp, wn, sp, sn⟩
/-- Words by format (R122, R124 to R127, R129), with a header below OP of the value `hd` shifted to bit 52. -/
def wordA (op d a b c type fn rm sat aux : Nat) : Nat :=
  op * 2 ^ 72 + d * 2 ^ 46 + a * 2 ^ 40 + b * 2 ^ 34 + c * 2 ^ 28 + type * 2 ^ 24 + fn * 2 ^ 16 + rm * 2 ^ 13 + sat * 2 ^ 12 + aux
def wordM (op sba data base space width scope order off fn : Nat) : Nat :=
  op * 2 ^ 72 + sba * 2 ^ 68 + data * 2 ^ 46 + base * 2 ^ 40 + space * 2 ^ 38 + width * 2 ^ 36 + scope * 2 ^ 34 + order * 2 ^ 32 +
    off * 2 ^ 8 + fn
def wordE (op sba tok a b c ring spec : Nat) : Nat :=
  op * 2 ^ 72 + sba * 2 ^ 68 + tok * 2 ^ 48 + a * 2 ^ 42 + b * 2 ^ 36 + c * 2 ^ 30 + ring * 2 ^ 26 + spec
def wordS (op sba sysreg a imm : Nat) : Nat := op * 2 ^ 72 + sba * 2 ^ 68 + sysreg * 2 ^ 40 + a * 2 ^ 34 + imm

-- ill-formed terms: one for each check, which the check refuses (R119, R120, R122 to R138, R150 to R195)

theorem test_wf_scalar : ∀ i ∈ [
    Instr.clz (pd 0 1) .x64 1 2, .shl Hdr.zero .i32 1 2 (.imm 32), .rot (pd 0 1) 1 2 (.imm 5), .bfx Hdr.zero false 1 2 63 1,
    .bfi Hdr.zero 1 2 31 33, .addi (pd 0 2) 1 2 0, .movi (pd 1 0) 1 0, .cmp (pd 0 1) .x64 .eq 1 2 (.imm 0),
    .fcvt Hdr.zero .f2i .rne true 1 2, .fcvt Hdr.zero .bf2f .rtz false 1 2],
    i.wf = false := by decide +kernel
theorem test_wf_control : ∀ i ∈ [
    Instr.br (pd 1 0) 0, .bc (pd 0 1) (.pany 1) 0, .ret (pd 0 1) 1, .loop Hdr.zero true 9 0, .loopi Hdr.zero false 3 (BitVec.allOnes 32),
    .endit (pd 1 0), .getc Hdr.zero .cycle 1 1, .setc (pd 0 1) .round 2, .wfi Hdr.zero 0 0, .wfi Hdr.zero 3 1],
    i.wf = false := by decide +kernel
theorem test_wf_vector : ∀ i ∈ [
    Instr.vadd Hdr.zero .i32 .rtz 1 2 3, .vmin Hdr.zero .f32 true 1 2 3, .vabs (pd 0 1) .f32 1 2, .vshl Hdr.zero .i8 1 2 (.imm 8),
    .vmulh Hdr.zero .i8 true 1 2 3, .vdot2 Hdr.zero false .rsr 1 2 3 4, .vexp2 Hdr.zero 1 2, .vsqrt (pd 0 1) .rne 1 2,
    .vrot (pd 0 1) 1 2 (.imm 1), .vtopk Hdr.zero true false false 0 1 2 3, .vcvt Hdr.zero true .rtz false (.tag 1) 1 2,
    .vpack Hdr.zero 1 4 1 2, .vunpack Hdr.zero 0 2 1 2, .pset (pd 1 0) 1 (.imm 3), .vpopc (pd 0 1) 1 2],
    i.wf = false := by decide +kernel
theorem test_wf_memory : ∀ i ∈ [
    Instr.ld Hdr.zero 1 2 .g .w false 0, .ld (tag 1) 1 2 .g .d true 0, .vscatter Hdr.zero 1 2 .g .addI32 3 0, .fence Hdr.zero .none .pkg,
    .amo (tag 1) 1 2 false .pkg .none .add false 0, .amo (tag 1) 1 2 false .core .none .xor true 0,
    .amo (tag 1) 1 2 true .core .none .fadd false 0, .cas (tag 1) 3 2 true .core .none 0,
    .cred Hdr.zero 1 2 false .core .none .swap false 0 0, .barArrive Hdr.zero 1 false .die 0, .barWait (pd 0 1) 1 .pkg (.imm true) 0,
    .tokw Hdr.zero false false, .toks Hdr.zero false false, .gjoin (pd 0 1) 1 0],
    i.wf = false := by decide +kernel
theorem test_wf_engines_and_system : ∀ i ∈ [
    Instr.wload (pd 0 1) (tokens false false false false) 1 2, .sbind Hdr.zero (tokens false false false false) 3 0 false,
    .aclr (pd 1 0) (tokens false false false false) 2, .pstat (tag 1) 1 2, .qpop Hdr.zero 1 2, .qtag (tag 1) 1 2 3 true,
    .cstat (tag 1) 1 false 16, .cwait (pd 1 0) 3, .qfill (pd 0 1) 1 2, .wdrive Hdr.zero 1 2, .wstat (tag 1) 1 10, .launch Hdr.zero 1 2 3,
    .prd (tag 1) 0x00C 1, .pwr Hdr.zero 0x206 1, .tlbi (pd 1 0) .pkg .all, .cast Hdr.zero 1 .cyc 0, .freeze (pd 0 1) (.core 1) 2,
    .ctxload (pd 0 1) 2, .rett (pd 1 0)],
    i.wf = false := by decide +kernel

-- words of the specification's examples, and words written out from the encodings

/-- The examples beside the formats, the nine words of the first kernel, and the loop words of the third. The two words of
`loopi` are written from R160 (log entry 15). -/
theorem test_decode_examples : ∀ x ∈ [
    (0x400004A1010801000000, Instr.vadd { pd 1 0 with pneg := true, pred := 2 } .f32 .rne 4 1 2),
    (0xA0900001C3A0FFFFC000, .ld (tag 1) 7 3 .ab .w false 0xFFFFC0),
    (0xB6000004000000000000, .tokw Hdr.zero false true), (0x39000000000000000000, .nop Hdr.zero),
    (0x31000002105000000060, .bc Hdr.zero (.cmp .lt 4 5) 6), (0x35000000240000000031, .loop Hdr.zero true 9 3),
    (0xA4A00000792000000000, .vld (tag 2) 1 57 .g false 0), (0x36004000003000000060, .loopi (wait 4) false 3 6),
    (0xA4800000B92000010000, .vld (tag 0) 2 57 .g false 0x100), (0xA4900000F92000040000, .vld (tag 1) 3 57 .g false 0x400),
    (0x42001001010801000000, .vmul (wait 1) .f32 .rne 4 1 2),
    (0x40002401440C01000000, .vadd { wait 2 with pda := 1 } .f32 .rne 5 4 3), (0xA5000101792000040000, .vst (pd 0 1) 5 57 .g false 0x400),
    (0x0300000E790000010000, .addi Hdr.zero 57 57 256), (0x37000000000000000000, .endit Hdr.zero),
    (0x360000000050000000B0, .loopi Hdr.zero false 5 11), (0x350010000C0000000071, .loop (wait 1) true 3 7),
    (0x31000008040000000050, .bc Hdr.zero (.pt 1) 5), (0x38000020000000000100, .trap { Hdr.zero with pred := 2 } 1)],
    decode x.1 = .ok x.2 := by decide +kernel
/-- The examples of the later chapters. -/
theorem test_decode_engine_examples : ∀ x ∈ [
    (0x6B000002440021020004, Instr.vtopk Hdr.zero true false true 4 9 4 2),
    (0xAAA00001432A00000800, .amo (tag 2) 5 3 false .pkg .rel .add false 8), (0xDEA00002940000000500, .launch (tag 2) 10 20 5),
    (0xC500000820928C000009, .feed Hdr.zero (tokens true false false false) 3 8 9 10 1 2 0),
    (0xC700000141200C000001, .drain Hdr.zero (tokens false false false true) 3 16 18 1 0),
    (0xCDC0000000030C000000, .qpop (tag 4) 12 3), (0xD30000000C2000000000, .circ Hdr.zero 0 0 3 2),
    (0xD30000000C0008000000, .circ Hdr.zero 0 2 3 0), (0xD6900000500100000000, .wdrive (tag 1) 4 20),
    (0xD6C01000500100000000, .wdrive { wait 1 with tag := some 4 } 4 20)],
    decode x.1 = .ok x.2 := by decide +kernel
/-- The examples of the system words. -/
theorem test_decode_system_examples : ∀ x ∈ [
    (0xE1900000021400000000, Instr.prd (tag 1) 0x002 5), (0xE0000000000000000000, .rett Hdr.zero),
    (0xE5000000002400000002, .freeze Hdr.zero (.core 2) 9), (0xE4A00000001400000001, .cast (tag 2) 5 .cyc 1),
    (0xE7000000002400000005, .wfi Hdr.zero 5 9), (0xEC000000000000000003, .sysc Hdr.zero 3), (0xED000000000000000000, .halt Hdr.zero),
    (0xE9000000003000000000, .ctxload Hdr.zero 12), (0xE3000000001800060005, .tlbi Hdr.zero .part (.va 6 0 5))],
    decode x.1 = .ok x.2 := by decide +kernel
/-- R149 to R157, R168: words of the scalar families, field by field. -/
theorem test_decode_scalar : ∀ x ∈ [
    (wordA 0x02 3 1 2 0 3 0 0 0 0, Instr.sub Hdr.zero .i32 3 1 2), (wordA 0x08 63 62 61 0 0 0 0 0 0, .divu Hdr.zero .x64 63 62 61),
    (wordA 0x21 5 1 2 7 0 0 0 0 0, .sel Hdr.zero 5 1 2 7), (wordA 0x27 1 2 3 4 1 0 1 0 0, .ffma Hdr.zero .rtz 1 2 3 4),
    (wordA 0x2B 1 2 0 0 1 2 1 1 0, .fcvt Hdr.zero .f2bf .rtz true 1 2), (wordS 0x3B 0 6 4 0x42, .getc Hdr.zero .wcnt 4 0x42)],
    decode x.1 = .ok x.2 := by decide +kernel
/-- R178 to R194: words of the vector families. -/
theorem test_decode_vector : ∀ x ∈ [
    (wordA 0x4A 3 1 2 0 3 5 0 0 0, Instr.vcmp Hdr.zero (.i .geu) 3 1 2), (wordA 0x61 1 2 0 0 0 2 0 0 63, .vmov Hdr.zero (.insert 1 2 63)),
    (wordA 0x64 1 2 0 3 0 3 0 0 17, .vslide Hdr.zero true 1 2 3 (.imm 17)), (wordA 0x68 5 2 0 3 3 1 0 0 0, .vredmax Hdr.zero .u32 5 2 3),
    (wordA 0x6C 1 10 11 0 0 0 0 0 0, .vbmand Hdr.zero 1 (.scalars 10 11)), (wordA 0x6E 2 3 0 0 0 1 0 0 0, .vpfx Hdr.zero 2 (.pred 3)),
    (wordA 0x70 1 2 0 0 9 0 0 1 0, .vcvt Hdr.zero false .rne true (.tag 1) 1 2),
    (wordA 0x70 1 2 0 0 14 1 0 0 0, .vcvt Hdr.zero true .rne false (.tag 6) 1 2),
    (wordA 0x7C 5 6 0 0 0 1 0 0 0, .pcnt Hdr.zero true 5 6), (wordA 0x7E 3 0 0 0 0 0 0 0 64, .pset Hdr.zero 3 (.imm 64))],
    decode x.1 = .ok x.2 := by decide +kernel
/-- R195, R201, R205 to R213: words of memory and synchronisation. -/
theorem test_decode_memory : ∀ x ∈ [
    (wordM 0xA9 0 0 0 0 0 2 2 0 0, Instr.fence Hdr.zero .rel .pkg), (wordM 0xAB 0xA 4 3 0 3 3 3 8 0, .cas (tag 2) 4 3 true .sys .ar 8),
    (wordM 0xAC 0 5 3 0 2 2 2 0 0xF0, .cred Hdr.zero 5 3 false .pkg .rel .add false 15 0),
    (wordM 0xB2 0 0 3 0 0 2 0 32 1, .barWait Hdr.zero 3 .pkg (.imm true) 32),
    (wordM 0xA7 0 5 3 2 2 0 0 0xFFFFFF 0xA6, .vscatter Hdr.zero 5 3 .ab .addF32 6 0xFFFFFF)],
    decode x.1 = .ok x.2 := by decide +kernel
/-- R230, R254, R309, R315: words of the pool, of rings, copies and circuits, and of the system registers. -/
theorem test_decode_engines : ∀ x ∈ [
    (wordE 0xC0 0 4 1 2 0 0 1, Instr.carve Hdr.zero (tokens false true false false) 1 2 true),
    (wordE 0xC6 0 0 1 2 3 0 (3 + 5 * 4 + 6 * 2 ^ 13), .feedx Hdr.zero (tokens false false false false) 1 2 3 3 5 6),
    (wordE 0xCA 0 0 1 2 0 5 0, .qdef Hdr.zero 5 1 2), (wordE 0xCE 0xB 0 0 0 7 2 64, .qtag (tag 3) 7 2 0 true),
    (wordE 0xCF 0 0 4 0 0 0 (9 + 2 * 16), .cdef Hdr.zero 9 .ab 4), (wordE 0xD5 8 0 0 0 1 0 (33 + 64), .cstat (tag 0) 1 true 33),
    (wordS 0xE2 0 0x202 3 0, .pwr Hdr.zero 0x202 3)],
    decode x.1 = .ok x.2 := by decide +kernel
/-- R131, R136, R138: unassigned opcodes, unused fields, a missing tag, and values that a field does not take. -/
theorem test_decode_refuses : ∀ w ∈ [
    0, 0x2C * 2 ^ 72, 0x80 * 2 ^ 72, 0xFF * 2 ^ 72, wordA 0x01 3 1 2 1 0 0 0 0 0, wordA 0x6B 9 4 0 2 1 0 0 0 65, wordA 0x21 5 1 2 8 0 0 0 0 0,
    wordA 0x40 32 1 2 0 1 0 0 0 0, wordM 0xA0 0 7 3 2 2 0 0 0 0, wordE 0xB6 0 0 0 0 0 0 0, wordE 0xD5 8 0 0 0 1 0 (1 + 128),
    wordS 0x3B 0 15 4 0, wordS 0xE1 9 0x00C 5 0, wordS 0xED 0 0 0 1],
    (decode w).toOption = none := by decide +kernel

-- states

/-- Core 0 has left its hold at level M, every feature is accepted, and the caches of time are past every delay. -/
def live : State :=
  let s := State.reset
  { (s.modCore 0 fun k => { k with run := { k.run with inHold := false } }).modFront 0 (fun f => { f with level := .m }) with
    pkg := { s.pkg with accept := 0x3F }
    cycle := 100000 }
/-- The state with core 0 changed, its live state, its streams, its front end, its place, its registers. -/
def onCore (f : Core → Core) (s : State := live) : State := s.modCore 0 f
def onLive (f : Live → Live) (s : State := live) : State := s.modCore 0 fun k => k.modLive f
def onFlow (f : Flow → Flow) (s : State := live) : State := s.modCore 0 fun k => k.modFlow f
def onStore (f : Store → Store) (s : State := live) : State := s.modCore 0 fun k => { k with store := f k.store }
def onFront (f : Front → Front) (s : State := live) : State := s.modFront 0 f
def onPos (f : Pos → Pos) (s : State := live) : State := s.modFront 0 fun x => x.modAt f
def onRegs (f : Regs → Regs) (s : State := live) : State := s.modFront 0 fun x => x.modRegs f
def withS (r : SReg) (v : Word) (s : State := live) : State := onRegs (fun g => g.set (.s r) (wordOf v)) s
def withV (r : VReg) (v : VecWord) (s : State := live) : State := onRegs (fun g => g.set (.v r) v) s
def withP (r : PReg) (v : Word) (s : State := live) : State := onRegs (fun g => g.set (.p r) (wordOf v)) s
def atLevel (l : Level) (s : State := live) : State := onFront (fun f => { f with level := l }) s
def onPart (f : Part → Part) (s : State := live) : State := s.modPart 0 f
/-- The conditions of `Issues`, computed. -/
def issues (s : State) (h : Hdr) (u : Use) : Bool :=
  s.me.mayIssue s.cycle && s.accepted u.feature && decide (u.level.code ≤ (fe s).level.code) && s.me.ready s.cycle h u &&
    (u.lanewise || ((fe s).predicate h).getLsbD 0)
theorem issues_of {s : State} {h : Hdr} {u : Use} (e : issues s h u = true) : Issues s h u := by
  simp only [issues, Bool.and_eq_true, Bool.or_eq_true, decide_eq_true_eq] at e
  exact ⟨e.1.1.1.1, e.1.1.1.2, e.1.1.2, e.1.2, e.2⟩
/-- Words of these uses issue from a state. -/
def allIssue (s : State) (us : List Use) (h : Hdr := Hdr.zero) : Bool := us.all fun u => issues s h u
/-- What the checks of an access found. -/
def passes (r : MemCheck) : Bool := match r with
  | .ok _ => true
  | .miss _ => false
  | .trap .. => false
def misses (r : MemCheck) : Bool := match r with
  | .ok _ => false
  | .miss _ => true
  | .trap .. => false
def traps (r : MemCheck) (c : Cause) : Bool := match r with
  | .ok _ => false
  | .miss _ => false
  | .trap d _ => d == c
/-- The state that an instruction leaves, where it does not stop. -/
def after (i : Instr) (s : State := live) : State := match exec i s with
  | .next t => t
  | .fault _ => s
  | .refused _ => s

-- hypotheses of the statements about words

/-- The sources of the scalar forms; the register that discards writes is a destination like the others. -/
theorem test_hyp_ScalarIntegers_products : allIssue live [useS [(.s 1, 0), (.s 2, 0)] (.s 3) 3, useS [(.s 1, 0), (.s 2, 0)] (.s 0) 3,
    useS [(.s 1, 0), (.s 2, 0)] (.s 3) 20] = true := by decide +kernel
theorem test_hyp_ScalarIntegers_sums : allIssue live [useS [(.s 1, 0), (.s 2, 0)] (.s 3) 1, useS [(.s 1, 0)] (.s 0) 1,
    useS [] (.s 3) 1, useS [] (.s 3) 1 [.s 3], useShift Hdr.zero 3 1 (.reg 2), useShift Hdr.zero 3 1 (.imm 63)] = true := by decide +kernel
/-- Numbers that codes stand for, one in reach of each format and one beyond PS2; NaNs, infinities, and codes of every kind. -/
theorem test_hyp_NumbersAndRounding :
    (Stands (.fin false 3 0) 3 ∧ Stands (.fin true 0 5) 0) ∧ (0 < 3 ∧ (3 : ℚ) * 2 ^ (-1 : ℤ) ≤ 2 ∧ 2 < (3 : ℚ) * 2 ^ (0 : ℤ)) ∧
    (∀ f ∈ formats, 0 % 2 ^ f.1.sign ≤ f.1.maxc ∧ (2 ^ f.1.sign - 1 : Nat) < 2 ^ (f.1.sign + 1)) ∧
    (∀ f ∈ formats.take 2, f.1.bias ≠ 7 ∧ (f.1.maxc + 1) % 2 ^ f.1.sign = f.1.maxc + 1 ∧ f.1.IsNan (f.1.maxc + 2) ∧ ¬ f.1.IsNan 0) := by
  refine ⟨⟨⟨false, 3, 0, rfl, by norm_num [ratOf]⟩, ⟨true, 0, 5, rfl, by norm_num [ratOf]⟩⟩, by norm_num, by decide +kernel, ?_⟩
  simp only [Format.IsNan]
  decide +kernel
/-- Lanes that stand for numbers, infinities and NaNs, and blocks of each kind. -/
theorem test_hyp_ValuesOfVectorWords :
    Stands (descBf16.decode (elem 16 0 0x3F803F80)) 1 ∧ Stands (descBf16.decode (elem 16 1 0x3F803F80)) 1 ∧
    Stands (decF32 0x40000000) 2 ∧ Stands (decF32 0xC0000000) (-2) ∧ descBf16.decode (elem 16 0 0x7FC0) = .nan ∧ decF32 0x7FC00000 = .nan ∧
    decF32 0xFF800000 = .inf true ∧ decF32 0x80000000 = .fin true 0 (-149) ∧
    Stands (decTag 1 0x38) 1 ∧ decTag 1 0x7F = .nan ∧ (127 : Nat) < 255 ∧ (.nan : Machine.Num) ∈ [Machine.Num.nan] ∧
    (.nan : Machine.Num) ∉ [Machine.Num.inf true] ∧ Stands (.fin false 0 0) 0 ∧ Stands (.fin false 3 0) 3 ∧ |(3 : ℚ)| = 3 := by
  have e : descBf16.decode (elem 16 0 0x3F803F80) = .fin false 128 (-7) ∧ descBf16.decode (elem 16 1 0x3F803F80) = .fin false 128 (-7) ∧
      decF32 0x40000000 = .fin false 0x800000 (-22) ∧ decF32 0xC0000000 = .fin true 0x800000 (-22) ∧ decTag 1 0x38 = .fin false 8 (-3) := by
    decide +kernel
  refine ⟨⟨_, _, _, e.1, by norm_num [ratOf]⟩, ⟨_, _, _, e.2.1, by norm_num [ratOf]⟩, ⟨_, _, _, e.2.2.1, by norm_num [ratOf]⟩,
    ⟨_, _, _, e.2.2.2.1, by norm_num [ratOf]⟩, by decide +kernel, by decide +kernel, by decide +kernel, by decide +kernel,
    ⟨_, _, _, e.2.2.2.2, by norm_num [ratOf]⟩, by decide +kernel, by decide, by simp, by simp, ⟨false, 0, 0, rfl, by norm_num [ratOf]⟩,
    ⟨false, 3, 0, rfl, by norm_num [ratOf]⟩, by norm_num⟩
theorem test_hyp_ScalarBitsFieldsAndComparisons :
    allIssue live [useS [(.s 1, 0)] (.s 3) 1, useS [(.s 1, 0)] (.s 3) 1 [.s 3], useS [(.s 1, 0), (.s 2, 0)] (.s 3) 1 [.p 1],
      useS [(.s 1, 0), (.s 2, 0)] (.p 3) 1, useS [(.s 1, 0)] (.p 0) 1] = true ∧
    Leading (0 : Word) 64 ∧ Leading (1 : Word) 63 ∧ Leading (BitVec.allOnes 64) 0 ∧ Leading (2 : BitVec 32) 30 ∧
    Trailing (0 : Word) 64 ∧ Trailing (8 : Word) 3 ∧ Trailing (1 : BitVec 32) 0 ∧
    (63 : Fin 64).val + ((0 : Fin 64).val + 1) ≤ 64 ∧ (0 : Fin 64).val + ((63 : Fin 64).val + 1) ≤ 64 ∧
    (∀ i < 64, (0xF0 : Word).getLsbD i =
      if 4 ≤ i ∧ i < 4 + 4 then (0xF : Word).getLsbD (i - 4) else ((fe live).regs.getS 3).getLsbD i) := by
  unfold Leading Trailing
  decide +kernel
theorem test_hyp_ScalarFloat : allIssue live [useS [(.s 1, 0), (.s 2, 0)] (.s 3) 4, useS [(.s 1, 0), (.s 2, 0)] (.s 3) 4 [.s 4],
    useS [(.s 1, 0)] (.s 3) 4, useS [(.s 1, 0), (.s 2, 0)] (.p 3) 4] = true := by decide +kernel
/-- A program counter that is a multiple of 10, one that is not, and registers that hold addresses of both kinds. -/
theorem test_hyp_TransfersAndLinks :
    allIssue live [{}, { srcs := condSrcs Hdr.zero (.cmp .eq 1 2) }, { srcs := condSrcs Hdr.zero (.pall 1) },
      { dsts := [.s 63], lat := some 1 }, { srcs := [(.s 1, 0)] }, { srcs := [(.s 1, 0)], dsts := [.s 63], lat := some 1 }] = true ∧
    BranchTaken live Hdr.zero (.cmp .eq 1 2) ∧ ¬ BranchTaken live Hdr.zero (.cmp .ne 1 2) ∧ ¬ BranchTaken live Hdr.zero (.pt 1) ∧
    BranchTaken live Hdr.zero (.pf 1) ∧ ¬ BranchTaken live Hdr.zero (.pall 1) ∧ BranchTaken live Hdr.zero (.pnone 1) ∧
    BranchTaken (withP 1 (BitVec.allOnes 64)) Hdr.zero (.pall 1) ∧
    (pcOf live + BitVec.ofInt 64 (10 * (3 : BitVec 32).toInt)).toNat % 10 = 0 ∧
    issues (onPos (fun x => { x with pc := 5 })) Hdr.zero {} = true ∧
    (pcOf (onPos (fun x => { x with pc := 5 })) + BitVec.ofInt 64 (10 * (3 : BitVec 32).toInt)).toNat % 10 ≠ 0 ∧
    (srcA (withS 1 20) Hdr.zero 1).toNat % 10 = 0 ∧ (srcA (withS 1 23) Hdr.zero 1).toNat % 10 ≠ 0 ∧
    issues (withS 1 23) Hdr.zero { srcs := [(.s 1, 0)] } = true := by
  simp only [BranchTaken]
  decide +kernel
/-- A count of zero and one above it; a set that ends its body for the last time, one that goes back, and both at one word. -/
theorem test_hyp_HardwareLoops :
    allIssue live [{}, { srcs := [(.s 1, 0)] }] = true ∧ srcA live Hdr.zero 1 = 0 ∧ srcA (withS 1 2) Hdr.zero 1 ≠ 0 ∧
    (let l : Loops := ⟨10, 50, 3, 20, 50, 1⟩
     (l.lc1 ≠ 0 ∧ (50 : Word) = l.le1) ∧ l.lc1 = 1 ∧ (l.lc0 ≠ 0 ∧ (50 : Word) = l.le0) ∧ l.lc0 ≠ 1) ∧
    (let l : Loops := ⟨10, 50, 3, 20, 50, 2⟩
     l.lc1 ≠ 0 ∧ (50 : Word) = l.le1 ∧ l.lc1 ≠ 1) ∧
    (pcOf live + BitVec.ofInt 64 (10 * (1 : BitVec 32).toInt)).toNat % 10 = 0 := by decide +kernel
theorem test_hyp_FrontEndWords :
    allIssue live [{}, { dsts := [.s 3], lat := some 2 }, { dsts := [.s 3], lat := some 2, flags := true },
      { srcs := [(.s 1, 0)], flags := true }, { srcs := [(.s 1, 0)], flags := false }, { srcs := [] }] = true ∧
    (srcA (withS 1 7) Hdr.zero 1).toNat % 10 ≠ 0 ∧ (srcA live Hdr.zero 1).toNat % 10 = 0 ∧ (5 : BitVec 32) ≠ 0 ∧
    -- WAKE = 4 with a limit reached and one ahead; WAKE = 1 with no token
    ((4 : Fin 8).val ≥ 4 ∧ (srcA live Hdr.zero 1).toNat ≤ live.cycle) ∧ live.cycle < (srcA (withS 1 100001) Hdr.zero 1).toNat ∧
    live.me.live.queues.fifo[3] = 0 := by decide +kernel
/-- U enters S; S enters M; U enters M where S is taken; M enters nothing. -/
theorem test_hyp_TrapEntry :
    ∀ s ∈ [atLevel .u, atLevel .s, atLevel .u (onFront (fun f => { f with sFrame := { f.sFrame with stat := 4 } })), live],
      (s.front 0).allClear s.cycle = true ∧ (s.core 0).flow.fencesDone = true ∧ (s.front 0).at_.late = [] ∧ (s.core 0).regs.freeze.fe = false ∧
      ((s.front 0).frame .m).valid = false ∧ ((s.front 0).frame .m).vec.toNat % 10 = 0 ∧
      (((s.front 0).frame .s).valid = false ∧ ((s.front 0).frame .s).vec.toNat % 10 = 0 ∨ (s.front 0).sFrame.valid = true) := by
  decide +kernel
/-- A frame that is free, one that is taken with an address of a word, and one with another address. -/
def framed (pc : Word) (s : State := live) : State := onFront (fun f => { f with mFrame := { f.mFrame with stat := 4, pc := pc } }) s
theorem test_hyp_TrapWords :
    allIssue live [{}, { level := .s }] = true ∧ allIssue (framed 20) [{ level := .s }] = true ∧ allIssue (framed 7) [{ level := .s }] = true ∧
    ((fe live).frame (fe live).level).valid = false ∧ ((fe (framed 20)).frame (fe (framed 20)).level).valid = true ∧
    ((fe (framed 20)).frame (fe (framed 20)).level).pc.toNat % 10 = 0 ∧
    ((fe (framed 7)).frame (fe (framed 7)).level).pc.toNat % 10 ≠ 0 := by decide +kernel
theorem test_hyp_EndsOfTheFrontEnd :
    allIssue live [{}, { level := .m }] = true ∧ (fe live).allClear live.cycle = true ∧ live.me.flow.fencesDone = true ∧
    (let s := onFront fun f => { f with tags := f.tags.set 1 (some ⟨false, 0, some (.s 3), 0, none, none, 0, 0, 0, 0⟩) }
     allIssue s [{ level := .m }] = true ∧ (fe s).allClear s.cycle = false) := by decide +kernel
/-- A front end in its hold; one at level U without a feature; the negated predicate p0. -/
theorem test_hyp_ChecksBeforeAWordIssues :
    State.reset.me.mayIssue State.reset.cycle = false ∧
    (let s : State := { atLevel .u with pkg := { live.pkg with accept := 1 } }
     s.me.mayIssue s.cycle = true ∧ s.pkg.accept.getLsbD 1 = false ∧ s.pkg.accept.getLsbD 0 = true ∧
       (fe s).level.code < Level.s.code) ∧
    (let h := { Hdr.zero with pneg := true }
     live.me.mayIssue live.cycle = true ∧ ((fe live).predicate h).getLsbD 0 = false ∧
       ∀ u ∈ [useS [(.s 1, 0), (.s 2, 0)] (.s 3) 1, useS [] (.s 3) 1, {}, { level := .s }, { level := .m }, { engine := true },
         { srcs := [(.s 1, 0), (.s 2, 0)], engine := true }, { srcs := [(.s 1, 0)], dsts := [.s 3], feature := 4, engine := true }],
       live.accepted u.feature = true ∧ u.level.code ≤ (fe live).level.code ∧ live.me.ready live.cycle h u = true) := by decide +kernel
/-- Nothing is left that a word could wait for: no tag, no busy register, no pending flag, no `tlbi`. -/
theorem test_hyp_ChecksBeforeAWordIssues_ready :
    let h := { Hdr.zero with pneg := true }
    (Instr.ld { h with tag := some 1 } 2 3 .g .d false 0).enc.isSome = true ∧ isWhole (.amo { h with tag := some 1 } 2 3 true .pkg .none .add false 0) = true ∧
    live.me.mayIssue live.cycle = true ∧ (∀ n < 6, live.pkg.accept.getLsbD n = true) ∧ (fe live).level = .m ∧
    ((fe live).predicate h).getLsbD 0 = false ∧ ∀ u : Use, live.me.ready live.cycle h u = true := by
  refine ⟨by decide +kernel, by decide +kernel, by decide +kernel, by decide +kernel, by decide +kernel, by decide +kernel, fun u => ?_⟩
  have t : ∀ w : TagId, live.me.live.front.tags[w] = none := by decide +kernel
  have b : live.me.live.front.busy = [] := by decide +kernel
  have p : ∀ g, live.me.live.front.pendingDst live.cycle g = false := fun g => by
    simp only [Front.pendingDst, List.any_eq_false]; intro w _; rw [t w]; simp
  have q : ∀ x : Fin 4, live.me.live.front.pdReady live.cycle x = true := by decide +kernel
  have c : live.me.live.front.tagsClear live.cycle 0 = true ∧ live.me.live.front.flagsDone live.cycle = true ∧ live.me.flow.tlbiFree = true := by
    decide +kernel
  have z : ∀ g, live.me.live.front.settled live.cycle g = true := fun g => by simp [Front.settled, p g, b]
  have c1 : live.me.live.front.tagsClear live.cycle 0#8 = true := c.1
  simp [Core.ready, Hdr.zero, c1, c.2.1, c.2.2, q, z, p]
/-- The shapes of the lane-wise words, of the reductions, and of the conversions. -/
theorem test_hyp_VectorArithmetic : allIssue live [useV (vAB Hdr.zero 1 2) (.v 3) 4, useV (vAB Hdr.zero 1 2) (.v 3) 2] = true ∧
    VTy.float .bf16 = some descBf16 ∧ VTy.float .f32 = some descF32 ∧ VTy.float .i8 = none ∧
    FlagsOf (activeP live Hdr.zero) 0 (fun _ => 0) := by
  unfold FlagsOf
  decide +kernel
theorem test_hyp_VectorFused : allIssue live [useV (vAB Hdr.zero 1 2) (.v 3) 4 [.v 4]] = true ∧
    FlagsOf (activeP live Hdr.zero) 0 (fun _ => 0) := by
  unfold FlagsOf
  decide +kernel
theorem test_hyp_VectorExtremesAndSigns :
    allIssue live [useV (vAB Hdr.zero 1 2) (.v 3) 2, useV (vAB Hdr.zero 1 2) (.v 3) 4, useV (vA Hdr.zero 1) (.v 3) 2] = true ∧
    VTy.float .i16 = none ∧ VTy.float .f32 = some descF32 := by decide +kernel
theorem test_hyp_VectorLogicAndIntegers :
    allIssue live [useV (vAB Hdr.zero 1 2) (.v 3) 2, useV (vA Hdr.zero 1) (.v 3) 2, useV (vAB Hdr.zero 1 2) (.v 3) 2 [.p 1],
      useV (vAB Hdr.zero 1 2) (.p 3) 4, useV (vAB Hdr.zero 1 2) (.p 0) 2] = true ∧
    FlagsOf (activeP live Hdr.zero) 0 (fun i => (vcond (.f .lt) (laneA live Hdr.zero 1 i) (laneB live Hdr.zero 2 i)).2) := by
  unfold FlagsOf
  decide +kernel
theorem test_hyp_SpecialFunctions :
    issues live (tag 3) { srcs := vA (tag 3) 1, dsts := [.v 2], lanewise := true } = true ∧ (tag 3).tag = some 3 := by decide +kernel
theorem test_hyp_VectorMoves : allIssue live [useV [(.s 1, 0)] (.v 3) 3, useV (vA Hdr.zero 1) (.v 3) 3, useS (vA Hdr.zero 1) (.s 3) 3,
    useV (vA Hdr.zero 1 ++ [(.s 2, 0)]) (.v 3) 3 [.v 4], useV (vA Hdr.zero 1) (.v 3) 3 [.p 2]] = true := by decide +kernel
theorem test_hyp_ReductionsScansAndTopK :
    allIssue live [useS (vA Hdr.zero 1) (.s 3) 8 [.p 2], useV (vA Hdr.zero 1) (.v 3) 8 [.p 2], useV (vA Hdr.zero 1) (.v 3) 12 [.p 2] 2] = true ∧
    lanesOf (selP (withP 2 0x3F) 2) ≠ [] ∧ 5 ∈ lanesOf (selP (withP 2 0x3F) 2) := by decide +kernel
theorem test_hyp_SparseWords : allIssue live [{ srcs := [(.s 1, 0), (.s 2, 0)], dsts := [.p 3], lat := some 3, feature := 1 },
    { srcs := [(.p 1, 0), (.p 2, 0)], dsts := [.p 3], lat := some 3, feature := 1 },
    useV (vA Hdr.zero 1) (.v 3) 3 [] 1, useV [(.s 1, 0)] (.v 3) 3 [] 1] = true := by decide +kernel
/-- A format, the tag that is none, and a word with no active lane. -/
theorem test_hyp_Conversions :
    allIssue live [useV (vA Hdr.zero 1) (.v 3) 4, useV [(.v 1, 0), (.s 2, 0)] (.v 3) 4, useS (vA Hdr.zero 1) (.s 3) 4 [.p 2]] = true ∧
    activeP live Hdr.zero ≠ 0 ∧ issues live { Hdr.zero with pneg := true } (useV (vA Hdr.zero 1) (.v 3) 4) = true ∧
    activeP live { Hdr.zero with pneg := true } = 0 := by decide +kernel
theorem test_hyp_PredicateWords :
    allIssue live [useS [(.p 1, 0), (.p 2, 0)] (.p 3) 1, useS [(.p 1, 0)] (.s 3) 1, useS [] (.p 3) 1, useS [(.s 1, 0)] (.p 3) 1] = true ∧
    Trailing ((fe live).srcP 1 0) 64 ∧ (∀ k < 64, (BitVec.allOnes 64).getLsbD k = decide (k < 64)) ∧
    (∀ k < 64, (7 : Word).getLsbD k = decide (k < 3)) := by
  unfold Trailing
  decide +kernel
-- hypotheses of the statements about memory, rings, copies, circuits, and the system words

/-- Pieces of an access at level M, whose addresses are physical. -/
def pieces (r : MemCheck) : List (List Piece) := match r with
  | .ok ps => ps
  | .miss _ => []
  | .trap .. => []
theorem test_hyp_LoadsJoinTheLoadStream :
    let us : Use := { srcs := [(.s 1, 0)], dsts := [.s 2], engine := true }
    let uv : Use := { srcs := [(.s 1, 0)], locks := [.v 5], dsts := [.v 2], lanewise := true, engine := true }
    let ls := lanesOf (activeP live (tag 1))
    allIssue live [us, uv] (tag 1) = true ∧ allIssue (atLevel .s) [us, uv] (tag 1) = true ∧
    passes (checked live .g .load 1 [(ea live (tag 1) 1 5, 8)]) = true ∧ traps (checked live .g .load 8 [(ea live (tag 1) 1 5, 8)]) .alignFault = true ∧
    misses (checked (atLevel .s) .g .load 4 [(ea live (tag 1) 1 8, 4)]) = true ∧
    traps (checked (atLevel .u) .ab .load 1 [(ea live (tag 1) 1 8, 4)]) .bounds = true ∧
    passes (checked live .wb .load 4 (ls.map fun k => (laneEA live (tag 1) 1 true 64 k, 4))) = true ∧
    passes (checked live .g .load 4 (ls.map fun k => (indexEA live (tag 1) 1 0 5 k, 4))) = true ∧
    live.me.logRoom = true ∧ live.me.logged = none ∧
    -- no active lane: nothing to read
    (let h := { tag 1 with pneg := true }
     issues live h uv = true ∧ lanesOf (activeP live h) = [] ∧ pieces (checked live .g .load 4 []) = []) := by decide +kernel
theorem test_hyp_StoresJoinTheStoreStream :
    let us : Use := { srcs := [(.s 1, 0), (.s 2, 0)], engine := true }
    let uv : Use := { srcs := [(.s 1, 0), (.v 2, 0)], locks := [.v 5], lanewise := true, engine := true }
    allIssue live [us, uv] = true ∧ lanesOf (activeP live Hdr.zero) ≠ [] ∧
    passes (checked live .cb .store 1 [(ea live Hdr.zero 1 63, 2)]) = true ∧ traps (checked live .g .store 4 [(ea live Hdr.zero 1 2, 4)]) .alignFault = true ∧
    misses (checked (atLevel .s) .g .store 1 [(ea live Hdr.zero 1 2, 4)]) = true ∧
    (let h := { Hdr.zero with pneg := true }
     lanesOf (activeP live h) = [] ∧ issues live h uv = true) ∧
    live.me.holdRoom (queuedBytes live.me + 256) = true := by decide +kernel
theorem test_hyp_RecordWordsJoinTheStoreStream :
    allIssue live [{ srcs := [(.s 1, 0), (.s 4, 0)], dsts := [.s 4], engine := true },
      { srcs := [(.s 1, 0), (.s 4, 0)], locks := [.s 5], dsts := [.s 4], engine := true }, { srcs := [(.s 1, 0), (.s 2, 0)], engine := true },
      { srcs := [(.s 1, 0)], engine := true }] (tag 2) = true ∧ (tag 2).tag = some 2 ∧
    (∀ n ∈ [4, 8, 16, 32, 64], passes (checked live .g .rmw n [(ea live Hdr.zero 1 64, n)]) = true ∧
      traps (checked live .g .rmw n [(ea live Hdr.zero 1 2, n)]) .alignFault = true) ∧
    traps (checked live .g .rmw 4 [(ea live Hdr.zero 1 4, 4)] true) .perm = true ∧
    live.me.holdRoom (queuedBytes live.me + 64) = true ∧ live.me.logRoom = true ∧ live.me.logged = none ∧
    -- `gleave`: no arrival, one without an answer, one with
    (let waits (r : Option Bool) := onFront fun f => { f with gbar := [⟨64, 3, r⟩] }
     ((fe live).gbar.find? fun g => g.addr == 64) = none ∧ ((fe (waits none)).gbar.find? fun g => g.addr == 64) = some ⟨64, 3, none⟩ ∧
     ((fe (waits (some true))).gbar.find? fun g => g.addr == 64) = some ⟨64, 3, some true⟩) := by decide +kernel
/-- FIFO counts set to a list. -/
def fifos (l : List (Fin 17)) (s : State := live) : State :=
  onLive (fun x => { x with queues := { x.queues with fifo := .ofFn fun j => l.getD j.val 0 } }) s
theorem test_hyp_WaitsMarkersFencesAndTokens :
    allIssue live [{ srcs := [(.s 1, 0)], engine := true }, { srcs := [(.s 1, 0), (.s 2, 0)], engine := true }, { engine := true }, {}] = true ∧
    passes (checked live .g .rmw 32 [(0, 32)]) = true ∧ passes (checked live .g .rmw 64 [(0, 64)]) = true ∧
    live.me.logRoom = true ∧ live.me.logged = none ∧
    -- tokens there and missing; FIFO 7 full; FIFO 7 with room and FIFO 0 full; room in both
    live.me.live.queues.fifo[3] = 0 ∧ (fifos [0, 0, 0, 1, 1]).me.live.queues.fifo[3] ≠ 0 ∧ (fifos [0, 0, 0, 1, 1]).me.live.queues.fifo[4] ≠ 0 ∧
    issues (fifos [0, 0, 0, 1, 1]) Hdr.zero {} = true ∧
    ((fifos [16, 0, 0, 0, 0, 0, 0, 16]).me.live.queues.fifo[7]).val = 16 ∧
    issues (fifos [16, 0, 0, 0, 0, 0, 0, 15]) Hdr.zero {} = true ∧ ((fifos [16, 0, 0, 0, 0, 0, 0, 15]).me.live.queues.fifo[7]).val < 16 ∧
    ((fifos [16, 0, 0, 0, 0, 0, 0, 15]).me.live.queues.fifo[0]).val = 16 := by decide +kernel
/-- A queue with room, and one with 32 entries. -/
def anEntry : QEntry := QEntry.of (.plane false) (tokens false false false false) 0 .m 0 0 0
theorem test_hyp_PoolDispatch :
    allIssue live [{ srcs := [(.s 1, 0), (.s 2, 0)], engine := true }, { srcs := [(.s 1, 0)], engine := true }, { engine := true },
      { srcs := [(.s 1, 0), (.s 2, 0)], locks := [.s 3], engine := true }] = true ∧ (live.me.live.queues.queue .k).length < 32 ∧
    (let s := onLive fun x => { x with queues := x.queues.setQueue .o (.replicate 32 anEntry) }
     issues s Hdr.zero { srcs := [(.s 1, 0), (.s 2, 0)], locks := [.s 3], engine := true } = true ∧ 32 ≤ (s.me.live.queues.queue .o).length) := by
  decide +kernel
/-- Copy entry 3 of core 0, changed; ring 5; circuit 7; the walker. -/
def onCopy (f : CopyEntry → CopyEntry) (s : State := live) : State := s.modCore 0 fun k => k.modCopy 3 f
def onCirc (f : Circuit → Circuit) (s : State := live) : State := s.modCore 0 fun k => k.modCirc 7 f
def onWalker (f : Walker → Walker) (s : State := live) : State := onLive (fun l => { l with walker := f l.walker }) s
def onCtx (f : WalkerCtx → WalkerCtx) (s : State := live) : State := onLive (fun l => { l with wctx := f l.wctx }) s
def aSlot : Slot := ⟨0, 0, false, false, 0, .empty, .none, 0, 0⟩
/-- A ring of four slots of 512 bytes in the Activation Buffer. -/
def aRing : Ring :=
  { def_ := ⟨.ab, 0, 4, 1, 0x100, 1, true⟩, defNo := 0, viewNo := 0, filled := 0, taken := 0, tookMade := 0, ownMade := 0, ownKept := 0, relDep := 0, ghosts := [], clash := none
    slots := .replicate 4 aSlot, rels := [], fills := [], frontHeld := [], fedBy := none, fedFar := none }
def withRing (r : Ring) (s : State := live) : State := onLive (fun l => { l with rings := l.rings.set 5 (some r) }) s
/-- Its slot 0 in a state. -/
def slot0 (x : Slot) (r : Ring := aRing) : Ring := { r with slots := r.slots.set 0 x }
theorem test_hyp_StatusWords :
    allIssue live [{ dsts := [.s 2] }, { dsts := [.s 2], engine := true }, { dsts := [.s 2], feature := 3, engine := true },
      { dsts := [.s 2], level := .s }] (tag 1) = true ∧ (tag 1).tag = some 1 ∧ live.me.logRoom = true ∧ live.me.logged = none ∧
    (live.me.live.copies[3]).reading = none ∧ ((onCopy fun x => { x with reading := some (.g, 64) }).me.live.copies[3]).reading ≠ none ∧
    ((onCopy fun x => { x with reading := some (.g, 64) }).me.live.copies[3]).readTrap = none ∧
    (∀ b < 16, (0 : BitVec 16).getLsbD b = true → (live.me.live.circuits[7]).branches ≠ []) ∧
    live.me.casts[0]? = none ∧ ((onCore fun k => { k with casts := [⟨k.live, 5, 6, true⟩] }).me.casts[0]?).isSome = true := by decide +kernel
/-- SPACE 1, 2 and 3 with their buffers; a definition that is legal, and others that are not; a ring in use and one that is not. -/
theorem test_hyp_RingDefinitions :
    let word (space nslot slotsz : Nat) : Word := BitVec.ofNat 64 (space * 16 + slotsz * 2 ^ 19 + nslot * 2 ^ 29)
    allIssue live [{ srcs := [(.s 1, 0), (.s 2, 0)], engine := true }, { engine := true }] = true ∧
    (∀ p ∈ [(1, Buf.wb), (2, Buf.ab), (3, Buf.cb)], bits (srcA (withS 1 (word p.1 64 512)) Hdr.zero 1) 4 2 = p.1) ∧
    (let x := srcA (withS 1 (word 2 4 1)) Hdr.zero 1
     (1 ≤ bits x 29 7 ∧ bits x 29 7 ≤ 64) ∧ (1 ≤ bits x 19 10 ∧ bits x 19 10 ≤ 512) ∧ bits x 0 4 = 0 ∧ bits x 37 27 = 0) ∧
    bits (word 2 65 1) 29 7 = 65 ∧ bits (word 2 0 1) 29 7 = 0 ∧ bits (word 2 1 513) 19 10 = 513 ∧
    (let s := onCore fun k => { k with run := { k.run with job := some (⟨0, 0, false, some 0, 0, false, false, false, [], 0, [], 4096, 3072, 1024⟩ : Job) } }
     issues s Hdr.zero { srcs := [(.s 1, 0), (.s 2, 0)], engine := true } = true ∧ 512 * (0 + 4 * 1) ≤ s.me.reserved .ab) ∧
    live.me.changeDeparted 5 = false ∧ live.me.ringUsed 5 = false ∧ live.me.ringNamed 5 = false ∧ live.me.ring 5 = none ∧
    (withRing aRing).me.ring 5 ≠ none ∧ (withRing aRing).me.ringNamed 5 = false ∧
    (withRing (slot0 { aSlot with state := .full })).me.ringUsed 5 = true := by decide +kernel
theorem test_hyp_FillsOfTheFrontEnd :
    let u : Use := { srcs := [(.s 1, 0)], engine := true }
    issues live Hdr.zero u = true ∧ bits (srcA live Hdr.zero 1) 35 29 = 0 ∧ bits (srcA (withS 1 (BitVec.ofNat 64 (2 ^ 35))) Hdr.zero 1) 35 29 ≠ 0 ∧
    bits (srcA (withS 1 (BitVec.ofNat 64 (7 * 2 ^ 32))) Hdr.zero 1) 32 3 = 7 ∧ live.me.ring 5 = none ∧
    (withRing aRing).me.ring 5 = some aRing ∧ aRing.ownKept ≤ aRing.ownMade ∧ (aRing.slot (aRing.filled % aRing.def_.nslot)).state = .empty ∧
    issues (withRing aRing) Hdr.zero u = true ∧
    (let r := slot0 { aSlot with state := .held }
     (withRing r).me.ring 5 = some r ∧ (r.slot (r.filled % r.def_.nslot)).state ≠ .empty) := by decide +kernel
theorem test_hyp_RingWordsOfTheFrontEnd :
    let u : Use := { dsts := [.s 2], engine := true }
    issues live (tag 1) u = true ∧ (tag 1).tag = some 1 ∧ live.me.logRoom = true ∧ live.me.logged = none ∧ live.me.ring 5 = none ∧
    (∀ r ∈ [aRing, slot0 { aSlot with state := .full }, slot0 { aSlot with state := .full, tagerr := true }],
      (withRing r).me.ring 5 = some r ∧ issues (withRing r) (tag 1) u = true ∧ r.taken ≤ r.tookMade) ∧
    (aRing.slot 0).state ≠ .full ∧ aRing.frontHeld = [] ∧ (3 : Fin 64).val < aRing.def_.nslot ∧ aRing.def_.nslot ≤ (4 : Fin 64).val := by
  decide +kernel
/-- A descriptor of a copy of 64 raw bytes, with its first two words. -/
def aDesc (w0 w1 : Nat) : Desc := [BitVec.ofNat 64 w0, BitVec.ofNat 64 (w1 + 0xFF), 0, 0, 0, 0, 0, 0, 64] ++ .replicate 23 0
def withDesc (w0 w1 : Nat) : State := onCopy fun x => { x with desc := some (aDesc w0 w1) }
theorem test_hyp_CopyWords :
    allIssue live [{ srcs := [(.s 1, 0)], engine := true }, { srcs := [(.s 1, 0), (.s 2, 0)], engine := true }, { engine := true }] = true ∧
    (srcA (withS 1 63) Hdr.zero 1).toNat % 64 ≠ 0 ∧ (srcA (withS 1 64) Hdr.zero 1).toNat % 64 = 0 ∧
    (live.me.live.copies[3]).state = .idle ∧ (live.me.live.copies[3]).reading = none ∧ (live.me.live.copies[3]).desc = none ∧
    ((onCopy fun x => { x with state := .run }).me.live.copies[3]).state = .run ∧
    ((onCopy fun x => { x with reading := some (.g, 64) }).me.live.copies[3]).reading ≠ none ∧
    -- a descriptor that is bad, one with a token completion, one with a bound barrier
    (Desc.bad (aDesc (2 * 2 ^ 16) 0) (withDesc (2 * 2 ^ 16) 0).me 0 0).isSome = true ∧
    Desc.bad (aDesc 0 (2 * 2 ^ 26)) (withDesc 0 (2 * 2 ^ 26)).me 0 0 = none ∧ Desc.cmpl (aDesc 0 (2 * 2 ^ 26)) ≠ 1 ∧
    Desc.bad (aDesc 0 (2 ^ 26)) (withDesc 0 (2 ^ 26)).me 0 0 = none ∧ Desc.cmpl (aDesc 0 (2 ^ 26)) = 1 ∧
    ((pieces (checked (withDesc 0 (2 ^ 26)) .g .rmw 32 [(0, 32)])).headD []).head? = some ⟨0, 0, 32, false⟩ := by decide +kernel
/-- Bytes of HBM. -/
def withBytes (a : Nat) (l : List Byte) (s : State := live) : State := { s with mem := { s.mem with hbm := s.mem.hbm.put a l } }
theorem test_hyp_CircuitWords :
    let u : Use := { srcs := [(.s 1, 0), (.s 2, 0)], engine := true }
    let w (n : Nat) : Word := srcA (withS 1 (BitVec.ofNat 64 n)) Hdr.zero 1
    let fed := 2 ^ 32 + 0x1000    -- fed by a copy, multicast, TSLOT 1
    allIssue live [u, { engine := true }] = true ∧ live.me.replaying = false ∧ live.closePending 0 7 = false ∧
    live.me.holdRoom (queuedBytes live.me + 64) = true ∧ (live.me.live.circuits[7]).state = .closed ∧
    circBad (w 0) 0 false = true ∧ circBad (w (2 ^ 32)) 3 false = true ∧ circBad (w (2 ^ 32)) 0 false = false ∧ circBad (w fed) 0 false = false ∧
    circBad (w (2 ^ 31)) 5 false = false ∧ (w (2 ^ 31)).getLsbD 31 = true ∧ live.me.ring 5 = none ∧ (withRing aRing).me.ring 5 = some aRing ∧
    (w fed).getLsbD 12 = true ∧ (w fed).getLsbD 31 = false ∧ (srcB (withS 2 64) Hdr.zero 2).toNat % 64 = 0 ∧
    (srcB (withS 2 32) Hdr.zero 2).toNat % 64 ≠ 0 ∧
    (∀ x ∈ [CircState.opening, .open_, .closing, .refused],
      let s := onCirc fun y => { y with state := x }
      issues s Hdr.zero u = true ∧ (s.me.live.circuits[7]).state = x ∧ s.closePending 0 7 = false) := by decide +kernel
theorem test_hyp_WalkWords :
    let u : Use := { srcs := [(.s 1, 0)], dsts := [.s 2], feature := 3, engine := true }
    allIssue live [u, { dsts := [.s 2], feature := 3, engine := true }] (tag 1) = true ∧ (tag 1).tag = some 1 ∧ live.me.logRoom = true ∧
    live.me.logged = none ∧ live.me.live.walker.state ≠ .susp ∧ (srcA (withS 1 1) (tag 1) 1).toNat % 64 ≠ 0 ∧ (srcA live (tag 1) 1).toNat % 64 = 0 ∧
    ∀ x ∈ [WState.susp, .run, .wait],
      (onWalker fun w => { w with state := x }).me.live.walker.state = x ∧ issues (onWalker fun w => { w with state := x }) (tag 1) u = true := by
  decide +kernel
theorem test_hyp_LaunchWords :
    issues live (tag 1) { srcs := [(.s 1, 0)], dsts := [.s 2], feature := 4, engine := true } = true ∧ (tag 1).tag = some 1 ∧
    live.me.logRoom = true ∧ live.me.logged = none ∧ live.me.holdRoom (queuedBytes live.me + 64) = true ∧
    ((pieces (checked live .g .load 64 [(srcA live (tag 1) 1, 64)])).headD []).head? = some ⟨0, 0, 64, false⟩ ∧
    traps (checked live .g .load 64 [(srcA (withS 1 32) (tag 1) 1, 64)]) .alignFault = true ∧
    misses (checked (atLevel .s) .g .load 64 [(0, 64)]) = true ∧ traps (checked live .g .load 64 [(0, 64)] true) .perm = true := by decide +kernel
/-- Core 5 with a stop; the context 1 resident in partition 0. -/
def stopped (x : Stop) (s : State := live) : State := s.modCore 5 fun k => { k with run := { k.run with stop := x } }
def ctx1 : State := withBytes 64 [1, 2]
theorem test_hyp_ContextWords :
    allIssue live [{ srcs := [(.s 1, 0)], level := .s }, { srcs := [(.s 1, 0)], level := .s, feature := 5, engine := true }] = true ∧
    -- targets: one beyond the cores, the core itself, one that is running, one that has stopped
    (srcA (withS 1 256) Hdr.zero 1).toNat / 2 ^ 8 ≠ 0 ∧ (Fin.ofNat 256 (srcA live Hdr.zero 1).toNat : CoreId) = live.cur ∧
    (let s := withS 1 5
     (srcA s Hdr.zero 1).toNat / 2 ^ 8 = 0 ∧ s.pmapOf 5 = s.pmapOf 0 ∧ (5 : CoreId) ≠ s.cur ∧ (s.part 0).switching 5 = false ∧
       (s.core 5).run.stop = .none) ∧
    (let s := withS 1 0x105 (stopped .stopped ctx1)
     issues s Hdr.zero { srcs := [(.s 1, 0)], level := .s } = true ∧ (srcA s Hdr.zero 1).toNat / 2 ^ 16 = 0 ∧ (s.core 5).run.stop = .stopped ∧
       s.resident 1 0 = true ∧ s.resident 2 0 = false) ∧
    -- a queue whose SRC is 0 and empty, and one that is not
    (srcA (withS 1 8) Hdr.zero 1).toNat % 64 ≠ 0 ∧ bits (live.lqueue 0 3).cfg 6 2 = 0 ∧ (live.lqueue 0 3).length = 0 ∧
    bits ((onPart fun p => { p with queues := p.queues.set 3 { p.queues[3] with cfg := 0x40 } }).lqueue 0 3).cfg 6 2 ≠ 0 ∧
    passes (checked live .g .store 1 ((List.range 8).map fun j => (BitVec.ofNat 64 (8 * j), 8))) = true ∧
    passes (checked live .g .load 1 ((List.range 3).map fun j => (BitVec.ofNat 64 (8 * j), 8))) = true ∧
    live.me.holdRoom (queuedBytes live.me + 64) = true ∧ live.me.logged = none ∧ live.me.logRoom = true := by decide +kernel
theorem test_hyp_SystemWords :
    allIssue live [{ dsts := [.s 2], level := .s }, { dsts := [.s 2], level := .m }] (tag 1) = true ∧ live.me.logRoom = true ∧ live.me.logged = none ∧
    (tag 1).tag = some 1 ∧ allIssue live [{ srcs := [(.s 1, 0)], level := .s }, { srcs := [(.s 1, 0)], level := .m },
      { srcs := [(.s 6, 0)], level := .s, engine := true }, { srcs := [], level := .s, engine := true }] = true ∧
    (live.writeReg 0 0x00B 5).isSome = true ∧ (live.writeReg 0 0x000 5).isSome = true ∧ (live.writeReg 0 0x200 9).isNone = true ∧
    (fe live).level ≠ .s ∧ (fe (atLevel .s)).level = .s ∧ allIssue (atLevel .s) [{ srcs := [(.s 6, 0)], level := .s, engine := true }] = true ∧
    (withBytes 64 [1, 0x12]).ctxElsewhere 1 0 = true ∧ ctx1.ctxElsewhere 1 0 = false ∧
    2 ^ 8 ≤ (srcA (withS 1 256) Hdr.zero 1).toNat ∧ (srcA (withS 1 255) Hdr.zero 1).toNat < 2 ^ 8 ∧ 8 ≤ (srcA (withS 1 8) Hdr.zero 1).toNat ∧
    (live.pkg.rtabx[(0 : PartId)]).getLsbD 7 = false ∧ (({ live with pkg := { live.pkg with rtabx := .replicate 16 0x80 } } : State).pkg.rtabx[(0 : PartId)]).getLsbD 7 = true ∧
    live.me.holdRoom (queuedBytes live.me + 64) = true := by decide +kernel
-- hypotheses of the statements about events

/-- The front end of core 0 stands in a wait. -/
def waits (w : FWait) (s : State := live) : State := onPos (fun p => { p with wait := w }) s
/-- No meter of a partition is limited. -/
def unmetered (s : State) (p : PartId) : Bool := s.served p && decide (∀ m : Fin 4, (s.part p).budgets.now[m].toNat % 2 ^ 24 = 0xFFFFFF)
/-- Two states that differ in what has been counted for a partition and in the free values taken. -/
structure Like (s t : State) (p : PartId) : Prop where
  eq : t = { s with free := t.free, parts := t.parts }
  now : (t.part p).budgets.now = (s.part p).budgets.now
theorem Like.refl (s : State) (p : PartId) : Like s s p := ⟨rfl, rfl⟩
theorem Like.trans {s t u : State} {p : PartId} (a : Like s t p) (b : Like t u p) : Like s u p :=
  ⟨by rw [b.eq, a.eq], b.now.trans a.now⟩
theorem Like.unmetered {s t : State} {p : PartId} (a : Like s t p) (e : unmetered s p = true) : unmetered t p = true := by
  have : t.served p = s.served p := by rw [a.eq]; rfl
  simp only [Tests.unmetered, this, a.now] at e ⊢; exact e
theorem grant_free {s : State} {p : PartId} (e : unmetered s p = true) (d : DieId) (m : Fin 4) (n : Nat) :
    ∃ t, s.grant p d m n = some t ∧ Like s t p := by
  simp only [unmetered, Bool.and_eq_true, decide_eq_true_eq] at e
  unfold State.grant
  split
  · exact ⟨s, rfl, .refl s p⟩
  · rw [if_pos (Or.inl (e.2 m))]
    exact ⟨_, rfl, rfl, by simp [State.charge, State.modPart, State.part]⟩
theorem spineOn_free {p : PartId} (n : Nat) (ds : List DieId) : ∀ {s : State}, unmetered s p = true →
    ∃ t, s.spineOn p ds n = some t ∧ Like s t p := by
  induction ds with
  | nil => exact fun {s} _ => ⟨s, rfl, .refl s p⟩
  | cons d ds ih =>
    intro s e
    obtain ⟨t, h, l⟩ := grant_free e d 1 n
    obtain ⟨u, h', l'⟩ := ih (l.unmetered e)
    refine ⟨u, ?_, l.trans l'⟩
    unfold State.spineOn at h' ⊢
    rw [List.foldl_cons, Option.bind_some, h]; exact h'
theorem homeGrant_free {s : State} {p : PartId} (e : unmetered s p = true) (a n : Nat) (cmp : Bool) :
    ∃ t, s.homeGrant p a n cmp = some t ∧ Like s t p := by
  have e1 : s.served p = true := by simp only [unmetered, Bool.and_eq_true] at e; exact e.1
  have l : Like s s.takeNat.2 p := ⟨rfl, rfl⟩
  simp only [State.homeGrant, e1, Bool.not_true, Bool.false_eq_true, if_false]
  obtain ⟨t, h, l'⟩ := grant_free (l.unmetered e) (homeDie a) 0
    (if cmp then s.takeNat.1 % 2 * s.hbmUnits a n cmp else s.takeNat.1 % (s.hbmUnits a n cmp + 1))
  exact ⟨t, h, l.trans l'⟩
/-- A read in this chip's HBM that guards and meters let pass. -/
theorem readGrant_free {s : State} {c : CoreId} {a : Nat} (e : unmetered s (s.pmapOf c) = true)
    (g : s.guard (s.pmapOf c) c (destOf a) = none) (r : remoteChip a = none) (n : Nat) (cmp : Bool) :
    ∃ t, s.readGrant c a n cmp = .ok t ∧ Like s t (s.pmapOf c) := by
  obtain ⟨t, h, l⟩ := spineOn_free 1 (c.die :: ([destOf a].flatMap (s.viaDies c)).dedup) e
  obtain ⟨u, h', l'⟩ := homeGrant_free (l.unmetered e) a n cmp
  obtain ⟨v, h2, l2⟩ := spineOn_free ((n + 63) / 64) (homeDie a :: diesBetween (homeDie a) c.die) (l'.unmetered (l.unmetered e))
  refine ⟨v, ?_, (l.trans l').trans l2⟩
  simp only [State.readGrant, g, r, State.spineGrant, h, Option.bind_some, h', State.replyGrant, h2]
/-- A read of the core's own HBM or buffers does not depend on the meters. -/
theorem Like.readOwn {s t : State} {p : PartId} (l : Like s t p) (c : CoreId) (b : Option Buf) (mark a n : Nat) (cmp : Bool)
    (h : b.isSome = true ∨ remoteChip a = none) :
    t.readOwn c b mark a n cmp = (s.readOwn c b mark a n cmp).map fun x => (x.1, x.2.1, t) := by
  have hc : t.cores = s.cores := by rw [l.eq]
  have hn : t.net = s.net := by rw [l.eq]
  have hm : t.mem = s.mem := by rw [l.eq]
  have hp : t.pkg = s.pkg := by rw [l.eq]
  have o : t.ownWrites c b mark = s.ownWrites c b mark := by
    have z : ∀ f ps, ({ s with free := f, parts := ps } : State).ownWrites c b mark = s.ownWrites c b mark := fun _ _ => by cases b <;> rfl
    have y := z t.free t.parts
    rwa [← l.eq] at y
  unfold State.readOwn
  simp only [o]
  split
  · rfl
  · cases b with
    | some e => simp [State.core, hc]
    | none => simp [h.resolve_left (by simp), hm, hp]
/-- What a read of the core finds, computed: its bytes and whether they are marked. -/
def owns (s : State) (b : Option Buf) (mark a n : Nat) : Option (List Byte × Bool) := (s.readOwn 0 b mark a n false).map fun x => (x.1, x.2.1)
/-- A read in this chip's HBM that guards and meters let pass. -/
def grants (s : State) (a : Nat) : Bool := unmetered s (s.pmapOf 0) && s.guard (s.pmapOf 0) 0 (destOf a) == none && remoteChip a == none
theorem grants_ok {s : State} {a : Nat} (e : grants s a = true) (n : Nat) :
    ∃ t, s.readGrant 0 a n false = .ok t ∧ Like s t (s.pmapOf 0) := by
  simp only [grants, Bool.and_eq_true, beq_iff_eq] at e
  exact readGrant_free e.1.1 e.1.2 e.2 n false
/-- Partition 0 is enabled, and its routers and edges let it through. -/
def routed (s : State := live) : State :=
  { s with pkg := { s.pkg with pctl := 1, rtab := .replicate 64 (BitVec.allOnes 64), rtabx := .replicate 16 0xFFFFF00 } }
/-- Ring 5 with its first slot as given, filled. -/
def filled1 (x : Slot) (r : Ring := aRing) : Ring := { slot0 x r with filled := 1 }
theorem test_hyp_WaitsOfTheFrontEnd :
    (∀ n ∈ [100000, 100001], ((waits (.pause n)).front 0).at_.wait = .pause n) ∧
    ((waits (.wfi 4 100000)).front 0).at_.wait = .wfi 4 100000 ∧ live.cycle = 100000 ∧
    ((waits (.wfi 1 0) (fifos [0, 0, 0, 1])).core 0).live.queues.fifo[3] ≠ 0 ∧ ((waits (.wfi 1 0)).core 0).live.queues.fifo[3] = 0 ∧
    ((waits (.tokw true false)).front 0).at_.wait = .tokw true false ∧ ((waits (.tokw true false) (fifos [0, 0, 0, 1])).core 0).live.queues.fifo[3] ≠ 0 ∧
    (∀ x ∈ [CopyState.run, .demand, .fault, .done], (((waits (.cwait 3) (onCopy fun e => { e with state := x })).core 0).live.copies[3]).state = x) ∧
    (∀ r ∈ [aRing, filled1 { aSlot with state := .full }, filled1 { aSlot with state := .full, tagerr := true },
        { aRing with tookMade := 1, taken := 1, viewNo := 2 }],
      let s := waits (.qpop 5 2 1) (withRing r)
      (s.front 0).at_.wait = .qpop 5 2 1 ∧ (s.core 0).ring 5 = some r ∧ (s.core 0).flow.gone = [] ∧ (s.core 0).logged = none) ∧
    (let x := filled1 { aSlot with state := .full }
     x.viewNo = x.defNo ∧ x.tookMade < x.filled ∧ (x.slot (x.tookMade % x.def_.nslot)).state = .full) ∧
    (live.core 0).flow.loads = [] ∧ grants routed 64 = true ∧
    (∀ v ∈ [some true, some false, none], ((waits (.barWait 64 64 true .pkg v)).front 0).at_.wait = .barWait 64 64 true .pkg v) ∧
    -- before and after the reply may come back
    (live.front 0).at_.waitSince + 300 + 2 * live.homeDelay 0 64 ≤ live.cycle ∧ ({ live with cycle := 299 } : State).cycle < (live.front 0).at_.waitSince + 300 ∧
    (let s := waits (.gbar 64 64 .pkg true) (onFront (fun f => { f with gbar := [⟨64, 3, some true⟩] }) routed)
     (s.front 0).at_.wait = .gbar 64 64 .pkg true ∧ ((s.front 0).gbar.find? fun g => g.addr == 64) = some ⟨64, 3, some true⟩ ∧
       grants s 64 = true ∧ (s.peek (64 + 32) 8).1.testBit 18 ≠ true ∧ (s.front 0).at_.waitSince + 460 + 2 * s.homeDelay 0 64 ≤ s.cycle) := by
  decide +kernel
/-- A pending result; a load of one unit; and streams with a release at their end. -/
def pending (p : Pend) (s : State := live) : State := onFront (fun f => { f with tags := f.tags.set 1 (some p) }) s
def aPend : Pend := ⟨false, 0, some (.s 2), wordOf (BitVec.allOnes 64), some 5, none, 1, 0, 0, 0⟩
def aTrap : Trap := { cause := .poison, info := 8 }
def loading (k : LoadKind) (sp : Space) (u : LoadUnit) (s : State := live) : State :=
  onFlow (fun f => { f with loads := [⟨k, sp, [u], some 1, 1, 0, none, 5, none, 0⟩] }) s
def aUnit (n : Nat) : LoadUnit := ⟨64, 64, n, 0, false, none, none, false⟩
theorem test_hyp_ResultsAndReleases :
    (let s := pending aPend
     (s.front 0).tags[1] = some aPend ∧ aPend.minAt ≤ s.cycle ∧ (s.front 0).at_.trapping = none ∧ (s.front 0).at_.late = [] ∧
       ∀ w : TagId, w ≠ 1 → (s.front 0).tags[w] = none) ∧
    -- marked data, in a front end that waits for nothing and in one that waits with its own tag pending
    (∀ w ∈ [FWait.none, .qpop 5 2 3, .wdrive 2 3],
      let s := waits w (pending { aPend with trap := some aTrap })
      (s.front 0).tags[1] = some { aPend with trap := some aTrap } ∧ (s.front 0).at_.wait = w) ∧
    -- a fault of K, at level U and at level M
    (let s := onLive fun l => { l with queues := { l.queues with k := [{ anEntry with trap := some aTrap }] } }
     (s.core 0).live.pendingFault = some aTrap ∧ (s.core 0).atUserBoundary = false ∧
     ((atLevel .u s).core 0).live.pendingFault = some aTrap ∧ ((atLevel .u s).core 0).atUserBoundary = true) ∧
    (live.core 0).live.pendingFault = none := by decide +kernel
theorem test_hyp_ResultsAndReleases_loads :
    (∀ k ∈ [LoadKind.lwait true, .lwait false, .scalar 8 false, .scalar 8 true, .vec],
      let s := loading k .g (aUnit 8) (pending aPend routed)
      let l : Load := ⟨k, .g, [aUnit 8], some 1, 1, 0, none, 5, none, 0⟩
      (s.core 0).flow.loads = [l] ∧ l.issued < s.cycle ∧ remoteChip (aUnit 8).addr = none ∧ (s.core 0).flow.storeQ = [] ∧
        (s.core 0).enginesRun = true ∧
        (s.front 0).tags[1] = some aPend ∧ aPend.po = l.po ∧ s.storesDone 0 l.po = true ∧ grants s 64 = true ∧
        owns s none l.mark 64 8 = some (.replicate 8 0, false) ∧ s.peek 64 8 = (0, false) ∧ ((withBytes 64 [2] s).peek 64 1) = (2, false)) ∧
    -- a load of two units, of which one has been read; and one in a buffer
    (let us := [{ aUnit 4 with value := some 7, bad := true }, { aUnit 4 with addr := 68, va := 68, bit := 32 }]
     us.any (fun y => y.value.isSome) = true ∧ us.any (fun y => y.value.isNone) = true ∧
       owns (loading .vec .ab (aUnit 4) (onStore (fun x => { x with abBad := [1] }) routed)) (some .ab) 0 64 4 = some (.replicate 4 0, true)) ∧
    -- own writes before the load: one that is forwarded
    (let w : WUnit := ⟨64, 64, [9], false⟩
     let s := onFlow (fun f => { f with storeQ := [⟨.req (.store [w]), 0, 0, none, none, 0, none, 0, true⟩] }) routed
     (s.ownWrites 0 none 5).map (fun w => (w.cells, w.blocked)) = [([(64, 9)], false)] ∧ owns s none 5 64 1 = some ([9], false)) ∧
    -- one that cannot be
    (let s := onStore (fun x => { x with aging := [⟨.ab, .front 0 1, [(64, 1), (65, 2), (66, 3), (67, 4)], .addI32, 5, false, false⟩] }) routed
     (s.ownWrites 0 (some .ab) 5).any (fun w => w.blocked && w.cells.any fun y => decide (64 ≤ y.1) && decide (y.1 < 64 + 1)) = true) := by decide +kernel
theorem test_hyp_ResultsAndReleases_releases :
    -- a `gbar` whose arrival has not been sent
    (let s := waits (.gbar 64 64 .pkg false)
     (s.front 0).at_.trapping = none ∧ (s.front 0).at_.late = [] ∧ (s.core 0).flow.loads = [] ∧ (s.core 0).flow.storeQ = [] ∧
       (s.core 0).flow.tlbi = none ∧ (s.core 0).holdRoom 64 = true ∧ (s.core 0).flow.hold = [] ∧ s.net = []) ∧
    -- a `tlbi`, of the core and of the package
    (∀ sc ∈ [TlbScope.core, .part, .pkg],
      let s := onFlow fun f => { f with storeQ := [⟨.tlbi sc .all 0, 1, 0, some .pkg, none, 0, none, 0, true⟩] }
      (s.core 0).flow.storeQ = [⟨.tlbi sc .all 0, 1, 0, some .pkg, none, 0, none, 0, true⟩] ∧ (s.core 0).flow.loads = [] ∧ (s.core 0).flow.sent = []) := by
  decide +kernel
/-- The read of such a load is granted, and in the state after it the bytes are the same. -/
theorem test_hyp_ResultsAndReleases_read :
    let s := loading (.scalar 8 true) .g (aUnit 8) (pending aPend routed)
    ∃ t, s.readGrant 0 64 8 false = .ok t ∧ t.readOwn 0 none 0 64 8 false = some (.replicate 8 0, false, t) := by
  intro s
  obtain ⟨t, h, l⟩ := grants_ok (s := s) (a := 64) (by decide +kernel) 8
  have e : owns s none 0 64 8 = some (.replicate 8 0, false) := by decide +kernel
  refine ⟨t, h, ?_⟩
  rw [l.readOwn 0 none 0 64 8 false (Or.inr (by decide +kernel))]
  simp only [owns] at e
  cases x : s.readOwn 0 none 0 64 8 false with
  | none => simp [x] at e
  | some y => simp only [x, Option.map_some, Option.some.injEq, Prod.mk.injEq] at e ⊢; exact ⟨e.1, e.2, trivial⟩
/-- A request of core 0 on its way, and the state in which it is. -/
def aMsg (r : Req) : Msg := ⟨7, 0, ⟨r, .other, 0, 0, 0, 64, false, false⟩, 0, 0, [], 0, none, none⟩
def carried (m : Msg) (s : State := routed) : State := { s with net := [m] }
/-- Where a message is at its home, apart from the meters. -/
def home (s : State) (m : Msg) (a : Nat) : Bool :=
  s.msg m.id == some m && s.mayApply m a && localHbm a && unmetered s m.part
theorem atHome_of {s : State} {m : Msg} {a : Nat} (n : Nat) (e : home s m a = true) :
    ∃ t, AtHome s m a n t ∧ t.mem = s.mem ∧ t.pkg = s.pkg ∧ t.net = s.net ∧ t.cores = s.cores := by
  simp only [home, Bool.and_eq_true, beq_iff_eq, decide_eq_true_eq] at e
  obtain ⟨t, g, l⟩ := homeGrant_free e.2 a n false
  exact ⟨t, ⟨e.1.1.1, e.1.1.2, e.1.2, g⟩, by rw [l.eq], by rw [l.eq], by rw [l.eq], by rw [l.eq]⟩
/-- Nothing waits in the store stream of core 0, and no trap. -/
def idle0 (s : State) : Bool := (s.core 0).flow.storeQ == [] && (s.front 0).at_.trapping == none && (s.front 0).at_.late == []
theorem idle_of {s : State} (e : idle0 s = true) : Idle s 0 := by
  simpa only [Idle, idle0, Bool.and_eq_true, beq_iff_eq, and_assoc] using e
def aWrite (bs : List Byte) : WUnit := ⟨64, 64, bs, false⟩
/-- An entry of the hold-back buffer, and a write that ages. -/
def anOut : Hold := ⟨.store [aWrite [1, 2]], .store, 0, 0, 5, 64, false, false⟩
def anAge (comb : Comb) : Age := ⟨.ab, .front 0 1, [(64, 1), (65, 2), (66, 3), (67, 4)], comb, 5, false, false⟩
theorem test_hyp_RequestsAtTheirHomes_ages :
    (let s := onFlow fun f => { f with hold := [anOut] }
     let late : State := { s with cycle := 164 }
     (s.core 0).flow.hold[0]? = some anOut ∧ anOut.entered + Config.tQ ≤ s.cycle ∧ late.cycle < anOut.entered + Config.tQ ∧
       (s.core 0).mayDepart s.cycle 0 anOut = true ∧ s.served (s.pmapOf 0) = true ∧ s.partRoom anOut.req = true ∧ (s.core 0).flow.storeQ = [] ∧
       ((s.spineGrant (s.pmapOf 0) 0 anOut.req.dests (anOut.size / 64)).bind fun t => t.linkGrant (s.pmapOf 0) 0 anOut.req).isSome = true) ∧
    (∀ comb ∈ [Comb.none, .addI32, .maxF32],
      let s := onStore fun x => { x with aging := [anAge comb] }
      (s.core 0).store.aging = [anAge comb] ∧ (s.core 0).mayCommit s.cycle 0 (anAge comb) = true ∧ (s.core 0).flow.storeQ = [] ∧
        ({ s with cycle := 164 } : State).cycle < (anAge comb).entered + Config.tQ) ∧
    (let sn : Sent := ⟨0, 1, [.die 0], false, false, 0, 5, some 9⟩
     let s := onFlow fun f => { f with sent := [sn, { sn with left := 1 }] }
     (s.core 0).flow.sent[0]? = some sn ∧ sn.left = 0 ∧ sn.entered + 460 + 48 * edges (CoreId.die 0) 0 ≤ s.cycle ∧ s.chipPort 3 = none ∧ idle0 s = true ∧
       (s.core 0).flow.sent[1]? = some { sn with left := 1 }) ∧
    (homeDie (3 * 4096) = 0 ∧ localHbm (3 * 4096) = true ∧ SMap.get none live.mem.blocks 3 = none ∧
      ∀ d ∈ [[], [0]],
        let cb : CBlock := ⟨.replicate 64 0, d, [], 0⟩
        SMap.get none ({ live with mem := { live.mem with blocks := [(3, some cb)] } } : State).mem.blocks 3 = some cb) := by decide +kernel
/-- Writes, plain, reducing and bound to a barrier, at their home and before they come to it. -/
theorem test_hyp_RequestsAtTheirHomes_writes :
    (∀ r ∈ [Req.store [aWrite [1, 2]], .copyWrite 3 [aWrite [1, 2, 3, 4]] 0 none, .copyWrite 3 [aWrite [1, 2, 3, 4]] 4 none,
        .copyWrite 3 [aWrite [1, 2, 3, 4]] 0 (some 128)],
      let s := carried (aMsg r)
      home s (aMsg r) 64 = true ∧ home { s with free := s.free + 1 } (aMsg r) 64 = true ∧ (aMsg r).applied = [] ∧ idle0 s = true ∧
        localHbm 128 = true ∧ s.tieFree (homeDie 64).val (aMsg r).route = true ∧ s.copyBehind (aMsg r) (aWrite [1, 2, 3, 4]) = false ∧
        s.copySeen (aMsg r) 64 = false ∧ (s.tie (homeDie 64).val 9999999).tieFree (homeDie 64).val (aMsg r).route = false ∧
      (let m := { aMsg r with departed := 200000 }
       (carried m).msg m.id = some m ∧ (carried m).mayApply m 64 = false)) := by decide +kernel
/-- Operations on records of 4, 8, 16, 32 and 64 bytes; a tag that asks for the result; a freeze and a launch. -/
theorem test_hyp_RequestsAtTheirHomes_records :
    (∀ r ∈ [Req.amo 64 64 false .fadd false 1 1 1, .amo 64 64 true .add false 1 1 1, .cas 64 64 true 0 1 1 1, .cas 64 64 false 5 1 1 1,
        .cred 64 64 false .add false 3 1 0, .barInit 64 64 .pkg 5, .barArrive 64 64, .group 64 64 true none, .group 64 64 false (some true),
        .gbar 64 64 3],
      let s := carried (aMsg r) (pending aPend routed)
      home s (aMsg r) 64 = true ∧ s.tieFree (homeDie 64).val (aMsg r).route = true ∧ idle0 s = true ∧ (s.front 0).tags[1] = some aPend ∧ aPend.po = 1 ∧ aPend.fixed = false) ∧
    (∀ r ∈ [Req.freeze 0 false 7 false, .freeze 5 false 1 true, .launch 64 64 false 3 1 1 0 0],
      let s := carried (aMsg r) (pending aPend routed)
      s.msg (aMsg r).id = some (aMsg r) ∧ s.served (aMsg r).part = true ∧ idle0 s = true ∧ s.ties = [] ∧
        s.guard (aMsg r).part 0 (aMsg r).hold.req.dest.1 = none ∧
        ∀ b ∈ s.net, ¬ b.hold.num < (aMsg r).hold.num) ∧
    (let s := carried (aMsg (.launch 64 64 false 3 1 1 0 0)) (pending aPend routed)
     ((s.enqueue 0 3 ⟨64, 64, false, 0, false⟩).2.front 0).tags[1] = some aPend) ∧
    seenBefore (none : Option Nat) 0 = false ∧ seenBefore (some 0) 0 = true ∧
    -- counts below and at a contribution's count
    ((carried (aMsg (.cred 64 64 false .add false 3 1 0))).peek 72 8).1 % 2 ^ 32 = 0 ∧
    ((withBytes 72 [3]).peek 72 8).1 % 2 ^ 32 = 3 ∧ ((withBytes 72 [2]).peek 72 8).1 % 2 ^ 32 = 2 := by decide +kernel
/-- An entry at the head of a queue of core 0, and what `AtHead` asks, computed. -/
def heads (x : PoolQ) (e : QEntry) (s : State := live) : State := onLive (fun l => { l with queues := l.queues.setQueue x [e] }) s
def anOp (op : QOp) : QEntry := { anEntry with op := op, popped := true }
def atHead (s : State) (x : PoolQ) (e : QEntry) : Bool :=
  (pool s 0).queue x == [e] && (s.core 0).enginesRun && e.trap.isNone && e.popped && (x != .o || !(pool s 0).streamTrap)
theorem atHead_of {s : State} {x : PoolQ} {e : QEntry} (h : atHead s x e = true) : AtHead s 0 x e [] := by
  simp only [atHead, Bool.and_eq_true, beq_iff_eq, Option.isNone_iff_eq_none, Bool.or_eq_true, bne_iff_ne, Bool.not_eq_true'] at h
  exact ⟨h.1.1.1.1, h.1.1.1.2, h.1.1.2, h.1.2, fun hx => h.2.resolve_left (fun n => n hx)⟩
def onPlane (f : Plane → Plane) (s : State := live) : State := onStore (fun x => { x with planes := .replicate 2 (f .reset) }) s
/-- A group of 8 cells from cell 0, as group 0 of both planes. -/
def aGroup : Group := ⟨0, 8, 1, false, false, 0, [], false, .replicate 8 0, .replicate 8 false⟩
def carved : State := onPlane (s := routed) fun p => { p with groups := [(0, some aGroup)] }
theorem test_hyp_PoolConfigurationEvents_tokens :
    (let e := { anEntry with op := .token, tok := tokens true false true false }
     (pool (heads .k e) 0).queue .k = [e] ∧ ((heads .k e).core 0).enginesRun = true ∧ e.trap = none ∧ e.popped = false ∧
       (pool (heads .k e) 0).fifo[(PoolQ.waits .k).1] = 0 ∧
       (let s := heads .k { e with popped := true } (fifos (.replicate 8 16))
        (pool s 0).fifo[(PoolQ.signals .k).1] = 16 ∧ (pool s 0).queue .k = [{ e with popped := true }]) ∧
       (let s := heads .k e (fifos (.replicate 8 1))
        (pool s 0).fifo[(PoolQ.waits .k).1] ≠ 0 ∧ ((pool s 0).fifo[(PoolQ.signals .k).1]).val < 16 ∧
          ((pool s 0).fifo[(PoolQ.signals .k).2]).val < 16)) := by decide +kernel
theorem test_hyp_PoolConfigurationEvents_k :
    -- the end of an entry, before and at its cycle
    (∀ op ∈ [QOp.carve 0 0 false, .mmap 0 0, .sbind 5 1 true], ∀ n ∈ [100000, 100001],
      atHead (heads .k { anOp op with doneAt := some n }) .k { anOp op with doneAt := some n } = true) ∧
    (live.core 0).flow.dep.maq ≤ (live.core 0).live.prod.maq ∧
    -- carve: a word that is bad, one that is plain, and extended ones
    carveOk (BitVec.ofNat 64 (2 ^ 52)) = false ∧ carveOk 0 = true ∧ (0 : Word).getLsbD 49 = false ∧
    carveOk (BitVec.ofNat 64 (2 ^ 49)) = true ∧ (BitVec.ofNat 64 (2 ^ 49)).getLsbD 49 = true ∧ bits (32 : Word) 0 6 ≠ 0 ∧ bits (64 : Word) 0 6 = 0 ∧
    atHead (heads .k { anOp (.carve (BitVec.ofNat 64 (2 ^ 49)) 64 false) with step := 1 }) .k
      { anOp (.carve (BitVec.ofNat 64 (2 ^ 49)) 64 false) with step := 1 } = true ∧
    -- mmap and sbind
    mmapBad 0 0 = none ∧ mmapBad (BitVec.ofNat 64 (2 ^ 58)) 0 = some (BitVec.ofNat 64 (2 ^ 58)) ∧ (live.core 0).ring 5 = none ∧
    ((withRing aRing).core 0).ring 5 = some aRing ∧ aRing.def_.buf ≠ .cb ∧
    -- plane: a generation that has drained, one that has not; the swap; the copy
    (pool live 0).drainedBefore 1 = true ∧
    (pool (heads .o { anEntry with op := .feed 5 1 0 0 0 0 1 }) 0).drainedBefore 1 = false ∧
    (∀ e ∈ [anOp (.plane true), { anOp (.plane true) with doneAt := some 100000 }, { anOp (.plane true) with doneAt := some 100001 },
       { anOp (.plane true) with step := 1, doneAt := some 100000 }], atHead (heads .k e) .k e = true) := by decide +kernel
/-- A write of the maquette plane that K has made and that ages since a cycle. -/
def ageing (since : Nat) (s : State := live) : State :=
  onLive (fun l => { l with prod := { l.prod with maq := 1 } })
    (onFlow (fun f => { f with planeLog := [⟨0, since, (.replicate 2 .reset, 0), (.replicate 2 .reset, 0)⟩] }) s)
theorem test_hyp_PoolConfigurationEvents_planes :
    (live.core 0).store.aging = [] ∧ (live.core 0).flow.planeLog = [] ∧ (live.core 0).flow.dep.maq = (live.core 0).live.prod.maq ∧
    (∀ since ∈ [5, 100000],
      let s := ageing since (heads .k { anOp (.plane true) with doneAt := some 100000 })
      ((s.core 0).flow.planeLog.find? fun w => decide ((s.core 0).flow.dep.maq ≤ w.num)).isSome = true ∧
      (s.core 0).flow.dep.maq < (s.core 0).live.prod.maq ∧
      atHead s .k { anOp (.plane true) with doneAt := some 100000 } = true) ∧
    5 + Config.tQ ≤ live.cycle ∧ live.cycle < 100000 + Config.tQ := by decide +kernel
/-- R359: a rollback past a write that has departed, and one past a write that has not. -/
theorem test_planes_back :
    (let k := (ageing 5).core 0
     (k.planesBack 0).flow.planeLog = [] ∧ ((k.modFlow fun f => { f with dep := { f.dep with maq := 1 } }).planesBack 0).flow.planeLog.length = 1) := by
  decide +kernel
/-- R288's example: a block leaves the cells behind it as they were, and replaces what its own cells held. -/
theorem test_block_writes_its_cells :
    let g : Group := { aGroup with len := 128 }
    let p : Plane := { Plane.reset with regs := [(0, ⟨0xFFFF, 9, true⟩), (512, ⟨7, 9, true⟩)] }
    let q := p.putBlock g 0 1 0 (List.replicate 64 0x21) (List.replicate 64 false) none
    q.reg 0 0 = ⟨0x21, 0, false⟩ ∧ q.reg 63 0 = ⟨0x21, 0, false⟩ ∧ q.reg 64 0 = ⟨7, 9, true⟩ := by decide +kernel
theorem test_hyp_PoolConfigurationEvents_wload :
    let e := anOp (.wload 5 0)
    let r := filled1 { aSlot with state := .full } { aRing with def_ := { aRing.def_ with buf := .wb } }
    let s := heads .k e (withRing r carved)
    atHead s .k e = true ∧ (s.core 0).ring 5 = some r ∧ r.def_.buf = .wb ∧ s.wloadGroups 0 0 = some [aGroup] ∧
    (s.core 0).head 5 = some ⟨0, r.slot 0, false⟩ ∧ (r.slot 0).tagerr = false ∧ (r.slot 0).fmt = e.fmt.getD (r.slot 0).fmt ∧
    badWeightFmt (e.fmt.getD (r.slot 0).fmt) false [aGroup] = false ∧ badWeightFmt 3 false [aGroup] = true ∧
    live.wloadGroups 0 0 = none ∧ ((withRing aRing).core 0).head 5 = none ∧ aRing.def_.buf ≠ .wb ∧
    (let z := { e with fmt := some 1 }
     atHead (heads .k z (withRing r carved)) .k z = true ∧ (r.slot 0).fmt ≠ z.fmt.getD (r.slot 0).fmt) ∧
    atHead (heads .k { e with doneAt := some 5 } live) .k { e with doneAt := some 5 } = true := by decide +kernel
/-- A stream of `feedx` from the Activation Buffer on lane 0. -/
def aStream : Stream :=
  ⟨none, 2, 1, 0, 64, 0, .ab, 0, 0, 1, 0, 0, 0, tokens false false false false, 0, .m, 1, none, none, [], [], none⟩
def streaming (x : Stream) (s : State := live) : State :=
  onLive (fun l => { l with queues := { l.queues with lanes := l.queues.lanes.set 0 ⟨[x], 0, 0, 0⟩ } }) s
theorem test_hyp_PoolConfigurationEvents_o :
    let row : Word := BitVec.ofNat 64 (2 ^ 18)
    (∀ op ∈ [QOp.feed 5 1 row 0 0 0 1, .feed 5 0 row 0 0 0 1, .feedx 1 row (BitVec.ofNat 64 (2 ^ 49)) 0 0 0, .feedx 0 row (BitVec.ofNat 64 (2 ^ 49)) 0 0 7],
      atHead (heads .o (anOp op) (withRing aRing)) .o (anOp op) = true) ∧
    (pool live 0).lanes[(0 : LaneId)].streams = [] ∧ (∃ x ∈ (pool (streaming aStream) 0).lanes[(0 : LaneId)].streams, x.fired < x.count) ∧
    feedBad 1 row 0 false = none ∧ bits (1 : Word) 0 32 ≠ 0 ∧ bits (0 : Word) 0 32 = 0 ∧ feedBad 1 0 0 false = some 0 ∧
    feedBad 1 row (BitVec.ofNat 64 (2 ^ 49)) true = none ∧ feedBad 1 row 0 true = some 0 ∧ (7 : Fin 8) ≠ 0 := by decide +kernel
/-- Whether an operand could be read, unmarked; and whether it traps. -/
def reads (s : State) (x : Stream) : Bool := match (s.core 0).operand 0 0 x with
  | .ok o => o.bad.isNone && (s.grant (s.pmapOf 0) (CoreId.die 0) 3 1).isSome
  | .error _ => false
def faults (s : State) (x : Stream) (c : Cause) : Bool := match (s.core 0).operand 0 0 x with
  | .ok _ => false
  | .error .wait => false
  | .error (.trap d _) => d == c
def aPass : Pass := ⟨0, 3, 5, false, false, [], 0⟩
def aPoolOp : PoolOp := ⟨0, 0, 5, 1, none, [aPass], [], none, none⟩
def flying (o : PoolOp) (s : State := live) : State := onStore (fun x => { x with ops := x.ops.set 0 [o] }) s
theorem test_hyp_PoolComputationEvents_lanes :
    (pool live 0).lanes[(0 : LaneId)].firing = none ∧ (pool (streaming aStream) 0).lanes[(0 : LaneId)].firing = some aStream ∧
    ((streaming aStream).core 0).laneReady 0 aStream 100000 = true ∧ aStream.gen = (pool live 0).genL ∧
    (live.core 0).flow.dep.lanes[(0 : LaneId)] ≤ (live.core 0).live.prod.lanes[(0 : LaneId)] + ((live.core 0).store.ops[(0 : LaneId)]).length ∧
    reads (streaming aStream carved) aStream = true ∧ faults (streaming { aStream with level := .u } carved) { aStream with level := .u } .bounds = true ∧
    (carved.core 0).store.resultUse + ((carved.core 0).store.livePlane.laneGroups 0).length ≤ 49152 ∧
    (carved.core 0).regs.feedUsed < (carved.core 0).regs.feedNow ∧
    -- the result stage and retirement
    (let s := flying aPoolOp
     ((s.core 0).store.ops[(0 : LaneId)]).find? (fun y => y.entered.isNone) = some aPoolOp ∧ aPoolOp.fired + 25 + aPoolOp.span < s.cycle ∧
       (∀ y ∈ aPoolOp.passes, y.members = []) ∧ (s.core 0).holdRoom 0 = true ∧ (s.core 0).enginesRun = true) ∧
    (let o := { aPoolOp with entered := some 9, passes := [] }
     let g : Age := ⟨.cb, .pass 0 0, [(12, 5), (13, 0), (14, 0), (15, 0)], .none, 9, false, true⟩
     let s := onStore (fun x => { x with aging := [g] }) (flying o)
     (s.core 0).store.ops[(0 : LaneId)] = [o] ∧ 9 + Config.tQ ≤ s.cycle ∧ (s.core 0).flow.hold = [] ∧
       (pool s 0).lanes[(0 : LaneId)].finished = false ∧ (s.core 0).holdRoom (64 * (s.core 0).noticesOf [o.oslot, o.sslot]) = true ∧
       (s.core 0).store.aging.filter (fun g => g.party == .pass 0 o.num) = [g] ∧
       g.bytes = (List.range 4).map (fun i => (4 * 3 + i, (toBytes 4 5).getD i 0))) ∧
    -- a part of an extended group, arrived and on its way
    (let m := aMsg (.part 1 ⟨0, 0, 0, 5, false, false⟩)
     let s := carried m routed
     s.msg m.id = some m ∧ m.dropped = none ∧ s.portReady m = true ∧ s.guard m.part m.src (.core 1) = none ∧
       m.departed + 24 * edges (CoreId.die m.src) (CoreId.die 1) ≤ live.cycle) := by decide +kernel
/-- A drain of one BF16 entry into ring 5, without and with a bias ring; its steps. -/
def aDrain (b : Nat) : QEntry := anOp (.drain 5 0 (BitVec.ofNat 64 b) 0 5)
theorem test_hyp_PoolComputationEvents_drains :
    (let s := heads .d (aDrain 0) (withRing aRing)
     let d : DrainOp := ⟨5, 0, 0, 0, 5⟩
     atHead s .d (aDrain 0) = true ∧ d.fault (s.core 0) .m = none ∧ bits d.a 0 32 ≤ ((pool s 0).lanes[(0 : LaneId)]).undrained ∧
       (d.fault (live.core 0) .m).isSome = true ∧ ((pool s 0).lanes[(0 : LaneId)]).undrained < bits (1 : Word) 0 32 ∧
       d.marked (s.core 0) (aDrain 0) = none ∧ (s.core 0).flow.dep.drain ≤ (s.core 0).live.prod.drain) ∧
    (∀ k ∈ [1, 2, 3, 4], let e := { aDrain 0 with step := k, oslot := some 0, doneAt := if k = 4 then some 9 else none }
      atHead (heads .d e (withRing aRing)) .d e = true ∧ ((withRing aRing).core 0).ring 5 = some aRing ∧ aRing.ownKept ≤ aRing.ownMade) ∧
    (aRing.slot 0).state = .empty ∧ ((slot0 { aSlot with state := .held }).slot 0).state ≠ .empty ∧
    (BitVec.ofNat 64 (2 ^ 41) : Word).getLsbD 41 = true ∧ ((withRing aRing).core 0).head 5 = none ∧
    ((withRing (filled1 { aSlot with state := .full })).core 0).head 5 = some ⟨0, { aSlot with state := .full }, false⟩ ∧
    (let r := slot0 { aSlot with state := .filling, by_ := .drain }
     ((withRing r).core 0).ring 5 = some r ∧ (r.slot 0).state = .filling ∧ (r.slot 0).by_ = .drain ∧ 0 < r.slots.length ∧
       ((withRing r).core 0).store.aging = []) ∧
    -- aclr
    (let e := anOp (.aclr 0)
     atHead (heads .d e) .d e = true ∧ bits (0 : Word) 36 28 = 0 ∧ 4 * (bits (0 : Word) 0 18 + 1) ≤ (live.core 0).bufLimit .m .cb ∧
       bits (BitVec.ofNat 64 (2 ^ 36)) 36 28 ≠ 0 ∧ atHead (heads .d { e with doneAt := some 9 }) .d { e with doneAt := some 9 } = true) := by
  decide +kernel
theorem ok_of {r : MemCheck} (e : passes r = true) : r = .ok (pieces r) := by
  cases r <;> simp_all [passes, pieces]
/-- A read of an engine in HBM of this chip that is one piece: its bytes, and its address if they are marked. -/
def homePiece (s : State) (party : Nat) (lv : Level) (acc : Access) (mark : Nat) (a : Word) (p : Piece) (n : Nat) (bs : List Byte) (bad : Bool) : Bool :=
  let r := (s.asParty 0 party).memCheck 0 lv 0 .g acc 1 false [(a, n)]
  passes r && pieces r == [[p]] && grants s p.addr && !(s.core 0).partyFrozen (masterOf party) && !p.cmp && owns s none mark p.addr p.n == some (bs, bad)
theorem engineRead_home {s : State} {lv : Level} {acc : Access} {mark : Nat} {a : Word} {p : Piece} {n : Nat} {bs : List Byte} {bad : Bool}
    {party : Nat} (e : homePiece s party lv acc mark a p n bs bad = true) :
    ∃ t, s.engineReadAll 0 party lv 0 acc mark .g [(a, n)] = .ok bs (if bad then some p.va else none) t := by
  simp only [homePiece, Bool.and_eq_true, beq_iff_eq, Bool.not_eq_true'] at e
  obtain ⟨⟨⟨⟨⟨e0, e1⟩, e2⟩, e3⟩, e4⟩, e5⟩ := e
  obtain ⟨t, g, l⟩ := grants_ok e2 p.n
  have h : remoteChip p.addr = none := by simp only [grants, Bool.and_eq_true, beq_iff_eq] at e2; exact e2.2
  have r := l.readOwn 0 none mark p.addr p.n false (Or.inr h)
  have w : (s.readOwn 0 none mark p.addr p.n false).map (fun x => (x.1, x.2.1, t)) = some (bs, bad, t) := by
    simp only [owns] at e5
    cases x : s.readOwn 0 none mark p.addr p.n false with
    | none => simp [x] at e5
    | some y => simp only [x, Option.map_some, Option.some.injEq, Prod.mk.injEq] at e5 ⊢; exact ⟨e5.1, e5.2, trivial⟩
  have c : s.engineReadAll 0 party lv 0 acc mark .g [(a, n)] = s.readPieces 0 (masterOf party) none mark [p] [] none := by
    unfold State.engineReadAll; rw [ok_of e0, e1]; rfl
  refine ⟨t, ?_⟩
  rw [c, State.readPieces]
  simp only [e3, e4, g, r, w, Option.isSome_none, Option.isNone_none, Bool.false_eq_true, if_false, Bool.true_and, List.nil_append,
    State.readPieces]
theorem test_hyp_RingEvents :
    -- a definition and a reset, before and after tQ
    (∀ d ∈ [some aRing.def_, none],
      let x : RingChange := ⟨5, d, 99840, 0⟩
      let s := onFlow (fun f => { f with changes := [x] }) (withRing aRing)
      (s.core 0).flow.changes.find? (fun y => y.ring == 5) = some x ∧ x.issued + Config.tQ ≤ s.cycle ∧ (s.core 0).ring 5 = some aRing ∧
        ({ s with cycle := 99999 } : State).cycle < x.issued + Config.tQ) ∧
    (live.core 0).flow.changes.find? (fun y => y.ring == 5) = none ∧
    -- a fill of the front end
    (let r := slot0 { aSlot with state := .filling, by_ := .front } { aRing with filled := 1, fills := [⟨0, 0x100, 0, 1⟩] }
     let s := withRing r
     (s.core 0).ring 5 = some r ∧ r.fills = [⟨0, 0x100, 0, 1⟩] ∧ 0 < r.slots.length ∧ (r.slot 0).since + Config.tQ ≤ s.cycle ∧
       (s.core 0).storesDone r.def_.buf 1 = true ∧ (r.slot 0).state = .filling ∧ (r.slot 0).by_ = .front ∧ r.filled = 0 + 1 ∧
       0 = 0 % r.def_.nslot ∧ (({ s with cycle := 100 } : State).cycle < (r.slot 0).since + Config.tQ)) ∧
    -- a release, of a ring that a circuit feeds and of one that none does, with room and without
    (∀ fed ∈ [(none, none), (some ⟨1, 7, 0, 1, none, false⟩, none), (none, some ⟨3, 1, 0x401, 7, 0, 0, false, none⟩)],
      let r := { aRing with rels := [⟨0, 5⟩], fedBy := fed.1, fedFar := fed.2 }
      ((withRing r).core 0).ring 5 = some r ∧ r.clash ≠ some (live.cycle, 0) ∧ (5 : Nat) + Config.tQ ≤ live.cycle ∧ ((withRing r).core 0).holdRoom 64 = true ∧
        ((onFlow (fun f => { f with hold := [{ anOut with size := 65536 }] }) (withRing r)).core 0).holdRoom 64 = false) ∧
    -- a fill of this cycle has found the slot not EMPTY
    ({ aRing with rels := [⟨0, 5⟩], clash := some (live.cycle, 0) } : Ring).clash = some (live.cycle, 0) := by decide +kernel
def aFlit : Flit := ⟨0, 0, true, true, [(0, 1), (1, 2)], 0x100, 0, 9, false, none, none, 5⟩
def aBranch : Branch := ⟨1, some 5, 4, [], none⟩
/-- Circuit 7 of core 0 with its branch to core 1; a ring of core 1 that a job may use. -/
def opened (b : Branch) (s : State := routed) : State :=
  onCirc (fun x => { x with state := .open_, branches := [b], src := some 5, dring := 5, openings := 1 }) s
def aJob : Job := ⟨0, 0, false, some 0, 0, false, false, false, [], 0, [], 4096, 3072, 1024⟩
def ring1 (r : Ring) (s : State := routed) : State :=
  s.modCore 1 fun k => { (k.modLive fun l => { l with rings := l.rings.set 5 (some r) }) with run := { k.run with job := some aJob } }
def fed (r : Ring) : Ring := { r with fedBy := some ⟨0, 7, 0, 1, none, false⟩ }
theorem test_hyp_CircuitEvents_messages :
    (∀ s ∈ [routed, ring1 aRing, ring1 { aRing with slots := [] }],
      let m := aMsg (.opening 7 [(0, 1)] none 5 64 1)
      let s := carried m s
      s.msg m.id = some m ∧ Arrived s m 1 ∧ (s.core 1).holdRoom 64 = true) ∧
    ((carried (aMsg (.opening 7 [(0, 1)] none 5 64 1)) live).guard 0 0 (.core 1)).isSome = true ∧
    (((ring1 aRing).core 1).ring 5 = some aRing ∧ ((ring1 aRing).core 1).run.job ≠ none ∧ ((ring1 aRing).core 1).regs.asid = ((ring1 aRing).core 0).regs.asid ∧
      aRing.fedBy = none ∧ aRing.fedFar = none ∧ 64 ≤ aRing.size ∧ (ring1 aRing).pairedSide 0 = (ring1 aRing).pairedSide 1) ∧
    (∀ st ∈ [CircState.opening, .closing], ∀ code ∈ [0, 5],
      let m := { aMsg (.reply 0 7 0 code 1) with src := 1 }
      let s := carried m (onCirc (fun x => { x with state := st }) (opened { aBranch with reply := none }))
      s.msg m.id = some m ∧ Arrived s m 0 ∧ (circuit s 0 7).openings = 1 ∧ branch s 0 7 0 = some { aBranch with reply := none } ∧ (circuit s 0 7).state = st) ∧
    (let m := { aMsg (.notice 0 7 0 1) with src := 1 }
     let s := carried m (opened aBranch)
     s.msg m.id = some m ∧ Arrived s m 0 ∧ branch s 0 7 0 = some aBranch) ∧
    (let m := aMsg (.close 7)
     let s := carried m (onCirc (fun x => { x with state := .closing, due := some 3 }) routed)
     s.net.find? (fun y => y.src == 0 && y.hold.req == .close 7) = some m ∧ (circuit s 0 7).state = .closing ∧ (circuit s 0 7).early = false ∧
       (circuit s 0 7).due = some 3 ∧ (circuit s 0 7).src = none ∧ (s.core 0).circQuiet 7 = true ∧ (circuit (carried m) 0 7).state = .closed) ∧
    -- an opening whose circuit still awaits it, and one closed since
    ((circuit (onCirc fun x => { x with state := .opening, openings := 1 }) 0 7).openings = 1 ∧
      (circuit (onCirc fun x => { x with state := .opening, openings := 1 }) 0 7).state ≠ .closed ∧ (circuit live 0 7).state = .closed) := by
  unfold Arrived
  decide +kernel
theorem test_hyp_CircuitEvents_flits :
    -- a flit leaves, one is cut, one enters, a slot is taken
    (let h : Hold := ⟨.flit 7 { aFlit with slot := some 0 }, .circuit 7, 0, 1, 5, 64, false, false⟩
     let r := { aRing with taken := 1, tookMade := 1 }
     let s := onFlow (fun f => { f with hold := [h] }) (withRing r (opened aBranch))
     (s.core 0).enginesRun = true ∧ (s.core 0).regs.freeze.ce = false ∧ (s.core 0).flow.hold = [h] ∧ h.entered + Config.tQ ≤ s.cycle ∧
       s.served (s.pmapOf 0) = true ∧ (∀ w ∈ (circuit s 0 7).branches, w.elastic.length < 16) ∧
       (s.spineGrant (s.pmapOf 0) 0 ((circuit s 0 7).branches.map (circuit s 0 7).dest) 1).isSome = true ∧
       (s.core 0).ring 5 = some r ∧ r.ghosts = [] ∧ (circuit s 0 7).src = some 5) ∧
    (let s := onCirc (fun x => { x with cut := [aFlit] }) (opened aBranch)
     (s.core 0).flow.hold = [] ∧ (circuit s 0 7).cut = [aFlit] ∧ (s.core 0).flow.depCirc[(7 : CircNo)] ≤ aFlit.seq ∧ (s.core 0).holdRoom 64 = true) ∧
    (∀ x ∈ [aSlot, { aSlot with state := .full }, { aSlot with state := .full, tagerr := true }, { aSlot with state := .full, fmt := 7 }],
      let r := filled1 x
      let s := withRing r (opened aBranch)
      ((s.core 0).slotData r (circuit s 0 7).po 0 0 r.size).isSome = true ∧ (circuit s 0 7).cut = [] ∧ (circuit s 0 7).src = some 5 ∧
        (circuit s 0 7).state = .open_ ∧ (circuit s 0 7).trap = none ∧
        (s.core 0).ring 5 = some r ∧ ((s.core 0).head 5).isSome = (x.state == .full) ∧
        (let z := circuit (onCirc (fun y => { y with state := .closing, due := some 1 }) s) 0 7
         z.state = .closing ∧ z.early = false ∧ z.due = some 1 ∧ r.tookMade < 1)) ∧
    (live.guard (live.pmapOf 0) 0 (.core 1)).isSome = true := by decide +kernel
theorem test_hyp_CircuitEvents_fills :
    -- a fill begins: the ring is fed by another, its slot is EMPTY, its slot is not
    (∀ r ∈ [aRing, fed aRing, fed (slot0 { aSlot with state := .held }), fed (slot0 { aSlot with state := .held } { aRing with rels := [⟨0, 5⟩] })],
      let b := { aBranch with elastic := [aFlit] }
      let s := opened b (ring1 r)
      branch s 0 7 0 = some b ∧ aFlit.first = true ∧ b.filling = none ∧ b.credit ≠ 0 ∧ (circuit s 0 7).remote = none ∧
        (s.core b.dst).ring (circuit s 0 7).dring = some r ∧ r.prod = 0 ∧ 0 < r.slots.length ∧ 5 + Config.tQ ≤ s.cycle ∧
        (s.core b.dst).holdRoom 64 = true ∧ s.guard (s.pmapOf 0) 0 (.core b.dst) = none ∧ Feed.is ⟨0, 7, 0, 1, none, false⟩ 0 7 0 = true) ∧
    -- it arrives
    (let r := fed (slot0 { aSlot with state := .filling, by_ := .remote })
     let b := { aBranch with elastic := [aFlit], filling := some (0, 0) }
     let s := opened b (ring1 r)
     branch s 0 7 0 = some b ∧ b.filling = some (aFlit.tile, 0) ∧ aFlit.left + 24 * edges (CoreId.die 0) (CoreId.die b.dst) ≤ s.cycle ∧
       s.guard (s.pmapOf 0) 0 (.core b.dst) = none ∧ (s.core b.dst).ring (circuit s 0 7).dring = some r ∧ aFlit.last = true ∧ 0 < r.slots.length ∧
       (r.slot 0).state = .filling ∧ (r.slot 0).by_ = .remote ∧ 0 < r.def_.nslot ∧ seenBefore none aFlit.seq = false ∧
       aFlit.bytes ≠ [] ∧ (∀ u ∈ aFlit.bytes, u.1 / 64 = 0 ∧ u.1 < r.size) ∧ ({ aFlit with bytes := [(0, 1), (64, 2)] } : Flit).bytes.any (fun u => u.1 / 64 != 0) = true) := by
  decide +kernel
/-- What a read of an engine gave: its bytes and the marked address. -/
def readOf (r : EngRead) : Option (List Byte × Option Word) := match r with
  | .wait _ => none
  | .trap .. => none
  | .ok bs bad _ => some (bs, bad)
/-- A descriptor in motion: its first two words, its extent, and the entry's place. -/
def aDescN (w0 w1 n : Nat) : Desc := (aDesc w0 0).set 1 (BitVec.ofNat 64 w1) |>.set 8 (BitVec.ofNat 64 n)
def copying (w0 w1 n pos : Nat) (s : State := live) : State :=
  withRing (slot0 { aSlot with state := .filling })
    (onCopy (fun x => { x with desc := some (aDescN w0 w1 n), state := .run, pos := pos, level := .m, dslot := some (some 0) }) s)
/-- The stages of a block that pass: the codes read, the place of marked data, and what the conversion makes. -/
def block (s : State) : Option (List Nat × Option Word × Conv) :=
  let x0 := { (s.core 0).live.copies[3] with state := .run }
  let s0 := s.modCore 0 fun k => k.modCopy 3 fun x => { x with state := .run }
  let y := Desc.blk x0.d x0.pos
  if (s.core 0).enginesRun && !(s.core 0).regs.freeze.ce && !((s.core 0).turnsBefore 3).any (s.copyServes 0) && x0.active &&
      decide (x0.pos < Desc.total x0.d) && passes (s0.copyChecks 0 3 x0 (x0.touches y 16 16)) && decide ((s.core 0).flow.depCopy[(3 : EntryNo)] ≤ x0.seq) then
    match s0.copyScale 0 3 x0 y with
    | .ok sc none 0 s1 => match s1.copySource 0 3 x0 y with
      | .ok codes bad used _ =>
        let v := x0.convert (roundMode (rndOf (Desc.rm x0.d)) (s.front 0).regs.round) codes (sc.headD 127)
        if passes (s0.copyChecks 0 3 x0 (x0.touches y used (x0.target y v).len)) then some (codes, bad, v) else none
      | .wait _ => none
      | .fault .. => none
    | .ok _ (some _) _ _ => none
    | .ok _ none (_ + 1) _ => none
    | .wait _ => none
    | .fault .. => none
  else none
theorem test_hyp_CopyEvents_descriptor :
    (∀ s ∈ [live, onStore fun x => { x with abBad := [1] }],
      let s := onCopy (fun x => { x with reading := some (.ab, 64), level := .m }) s
      let x := (s.core 0).live.copies[3]
      x.reading = some (.ab, 64) ∧ x.readTrap = none ∧ (s.core 0).enginesRun = true ∧ (s.core 0).regs.freeze.ce = false ∧
        (readOf (s.engineRead 0 19 x.level x.vahi .load x.po .ab 64 256)).isSome = true) ∧
    -- a source ring whose next slot is not FULL, and one whose slot has an error
    (∀ r ∈ [aRing, filled1 { aSlot with state := .full, tagerr := true }],
      let s := withRing r (onCopy fun x => { x with desc := some (aDesc (2 ^ 16 + 5 * 2 ^ 18) 0), state := .run })
      let x := (s.core 0).live.copies[3]
      ((s.core 0).turnsBefore 3).any (s.copyServes 0) = false ∧ x.active = true ∧ x.pos < Desc.total x.d ∧ Desc.skind x.d = 1 ∧ x.sslot = none ∧
        Desc.dkind x.d = 0 ∧ ((s.core 0).head (Desc.sring x.d)).isSome = (r.filled == 1)) ∧
    -- the end: no completion, a token with room, and a full FIFO
    (∀ cmpl ∈ [0, 2, 3],
      let s := copying (2 * 2 ^ 12 + 2 ^ 14 + 5 * 2 ^ 22) (0xFF + cmpl * 2 ^ 26) 64 64
      let x := (s.core 0).live.copies[3]
      (s.core 0).enginesRun = true ∧ x.active = true ∧ s.copyPerformed 0 3 = true ∧ Desc.cmpl x.d = cmpl ∧
        (pool s 0).fifo[(0 : Fin 8)] ≠ 16 ∧ (pool (fifos (.replicate 8 16) s) 0).fifo[(0 : Fin 8)] = 16) := by decide +kernel
/-- What the source gives: raw bytes and nibbles of a buffer, a slot, and zero-skipped rows. -/
theorem test_hyp_CopyEvents_sources :
    (let reads (s : State) (a : Word) (n : Nat) :=
       let x := (s.core 0).live.copies[3]
       (readOf (s.engineReadAll 0 19 x.level x.vahi .load x.po (Desc.sspace x.d) (chunks64 n a n))).isSome
     let ab := 2 * 2 ^ 12
     reads (copying ab 0xFF 64 0) 0 64 = true ∧ fieldWidth 15 = 8 ∧ fieldWidth 3 = 4 ∧ reads (copying ab 0x33 64 0) 0 32 = true ∧
     (let s := onCopy (fun x => { x with sslot := some 0 }) (copying (2 ^ 16 + 5 * 2 ^ 18) 0xFF 64 0)
      let x := (s.core 0).live.copies[3]
      Desc.skind x.d = 1 ∧ (s.core 0).ring (Desc.sring x.d) = some (slot0 { aSlot with state := .filling }) ∧ x.sslot = some 0 ∧
        ((s.core 0).slotData (slot0 { aSlot with state := .filling }) x.po 0 0 64).isSome = true) ∧
     -- headers of a block of no value, of a reserved format, and one whose count disagrees with its bitmap
     (∀ h ∈ [[0], [7], [0, 0, 0, 0, 0, 0, 0, 0, 1]],
      let s := onStore (fun x => { x with ab := x.ab.put 0 h }) (copying (ab + 2 ^ 8) 0xFF 64 0)
      let x := (s.core 0).live.copies[3]
      Desc.szs x.d = true ∧ reads s 0 16 = true ∧ reads s 16 0 = true ∧ (Desc.blk x.d x.pos).len = 64) ∧
     residue (packCodes 8 (List.replicate 64 0)) = 0 / 16 % 256 ∧ (List.range 64).countP (fun i => (1 : Nat).testBit i) ≠ 0 ∧
     -- a scale byte in a buffer and in a slot
     (Desc.sce (aDescN ab (0x80 + 2 ^ 13) 64) = 1 ∧ reads (copying ab (0x80 + 2 ^ 13) 64 0) 0 1 = true ∧
      ((copying ab 0 64 0).core 0).ring 5 = some (slot0 { aSlot with state := .filling })) ∧
     -- codes that keep a NaN and codes that do not
     keepsNan 0 8 127 0x7FC0 = true ∧ keepsNan 0 8 127 0x3F80 = false) := by decide +kernel
/-- Blocks that are written: into a buffer, to memory, zero-skipped, reducing, into a ring, and into a circuit; and marked data. -/
theorem test_hyp_CopyEvents_blocks :
    let ab := 2 * 2 ^ 12
    let w (s : State) (sp : Space) (acc : Access) (xs : List (Word × Nat)) :=
      let x := (s.core 0).live.copies[3]
      passes ((s.asParty 0 19).memCheck 0 x.level x.vahi sp acc 1 false xs)
    let good (s : State) := ((block s).map fun x => (x.2.1.isNone, x.2.2.scales)) = some (true, [])
    (good (copying (ab + 2 * 2 ^ 10) 0xFF 64 0) ∧ w (copying (ab + 2 * 2 ^ 10) 0xFF 64 0) .ab .store (chunks64 64 0 64) = true) ∧
    (good (copying ab 0xFF 64 0) ∧ w (copying ab 0xFF 64 0) .g .store (grains 64 1 0 64) = true) ∧
    (good (copying ab 0x80 64 0) ∧ w (copying ab 0x80 64 0) .g .store (grains 256 4 0 256) = true) ∧
    (good (copying (ab + 2 ^ 9) 0xFF 64 0) ∧ w (copying (ab + 2 ^ 9) 0xFF 64 0) .g .store (grains 16 8 0 16) = true) ∧
    (good (copying ab (0x88 + 2 ^ 23) 64 0) ∧ Desc.red (aDescN ab (0x88 + 2 ^ 23) 64) = 1 ∧ fieldWidth 8 = 32 ∧
      w (copying ab (0x88 + 2 ^ 23) 64 0) .g .rmw (grains 64 4 0 256) = true) ∧
    (good (copying (ab + 2 ^ 14 + 5 * 2 ^ 22) 0xFF 64 0) ∧ Desc.dkind (aDescN (ab + 2 ^ 14 + 5 * 2 ^ 22) 0xFF 64) = 1) ∧
    (∀ pos ∈ [64, 128],
      let s := onCirc (fun z => { z with state := .open_, openings := 1 })
        (onCopy (fun x => { x with opening := 1 }) (copying (ab + 2 ^ 15 + 7 * 2 ^ 22) 0xFF 192 pos))
      let x := (s.core 0).live.copies[3]
      good s ∧ Desc.dkind x.d = 2 ∧ Desc.circ x.d = 7 ∧ (Desc.blk x.d x.pos).toff ≠ 0 ∧ (Desc.blk x.d x.pos).lastOfTile = (pos == 128) ∧
        (circuit s 0 7).openings = x.opening ∧ (circuit s 0 7).state = .open_) ∧
    (let s := copying (ab + 2 ^ 14 + 5 * 2 ^ 22) 0xFF 64 0 (onStore fun x => { x with abBad := [0] })
     (block s).map (·.2.1) = some (some 0) ∧ (s.core 0).regs.poisonCont = false) := by decide +kernel
/-- A felt with its block opcode and successor word, and core 0 walking it at 4096. -/
def aFelt (bop h2 : Nat) : Felt := [BitVec.ofNat 64 (0xF7 + bop * 256), 0, BitVec.ofNat 64 h2, 0, 0, 0, 0, 0]
def walk (phase : Fin 4) (h : Felt) (s : State := routed) : State :=
  onLive (fun l =>
    { l with
      walker := { l.walker with state := .run, phase := phase, felt := 4096 }
      wctx := { l.wctx with hdr := h, level := .m } }) s
def feltBytes (h : Felt) : List Byte := h.flatMap fun w => toBytes 8 w.toNat
/-- Headers that pass and one that fails; and the reads of headers, clean and marked. -/
theorem test_hyp_WalkerEvents_header :
    (live.core 0).walking 0 = false ∧ (live.core 0).walking 1 = false ∧ (live.core 0).walking 2 = false ∧
    (∀ h ∈ [aFelt 7 0, aFelt 7 7, aFelt 0 0, [0, 0, 0, 0, 0, 0, 0, 0]],
      let s := walk 0 [] (withBytes 4096 (feltBytes h) routed)
      (s.core 0).walking 0 = true ∧ (wctx s 0).asked + 300 ≤ s.cycle ∧ ({ s with cycle := 299 } : State).cycle < (wctx s 0).asked + 300 ∧
        homePiece s 2 .m .felt 0 4096 ⟨4096, 4096, 64, false⟩ 64 (feltBytes h) false = true ∧
        chunks64 64 ((walker s 0).felt + BitVec.ofNat 64 0) 64 = [(4096, 64)] ∧
        homePiece { s with mem := { s.mem with bad := [64] } } 2 .m .felt 0 4096 ⟨4096, 4096, 64, false⟩ 64 (feltBytes h) true = true) ∧
    Felt.check (aFelt 7 0) 4096 = none ∧ Felt.check (aFelt 7 7) 4096 = some (.wblock, 4112) ∧ Felt.check (aFelt 0 0) 4096 = some (.wblock, 4096) := by
  decide +kernel
/-- The reads above are reads of the walker. -/
theorem test_hyp_WalkerEvents_header_read :
    ∃ t, feltRead (walk 0 [] (withBytes 4096 (feltBytes (aFelt 7 0)) routed)) 0 0 64 = .ok (feltBytes (aFelt 7 0)) none t :=
  have e : homePiece (walk 0 [] (withBytes 4096 (feltBytes (aFelt 7 0)) routed)) 2 .m .felt 0 4096 ⟨4096, 4096, 64, false⟩ 64
      (feltBytes (aFelt 7 0)) false = true := by decide +kernel
  engineRead_home e
theorem test_hyp_WalkerEvents_actions :
    let full : List QEntry := .replicate 32 anEntry
    (∀ h ∈ [aFelt 7 0, aFelt 3 0, aFelt 1 0, aFelt 4 0, aFelt 5 0, aFelt 6 0],
      let s := walk 1 h
      (s.core 0).walking 1 = true ∧ (wctx s 0).placed = 0 ∧ ((pool s 0).k).length < 32 ∧ (walker s 0).racc % 255 = Felt.res h ∧
        ((pool (onLive (fun l => { l with queues := { l.queues with k := full } }) s) 0).k).length = 32) ∧
    (Felt.bop (aFelt 7 0) = 7 ∧ Felt.bop (aFelt 3 0) = 3 ∧ Felt.bop (aFelt 1 0) = 1 ∧ Felt.queue (aFelt 6 0) = 0) ∧
    (Felt.entry (aFelt 4 0) 4096).isSome = true ∧ (Felt.entry (aFelt 5 0) 4096).isSome = true ∧ (Felt.entry (aFelt 2 0) 4096).isSome = true ∧
    (let h : Felt := [BitVec.ofNat 64 (0x1F7), 0, 0, 2, 0, 0, 0, 0]
     0 < Felt.count h ∧ Felt.bop h = 1) ∧
    -- a residue that does not match
    (let h : Felt := [BitVec.ofNat 64 (0x4F7 + 5 * 2 ^ 24), 0, 0, 0, 0, 0, 0, 0]
     (walker (walk 1 h) 0).racc % 255 ≠ Felt.res h ∧ (Felt.entry h 4096).isSome = true ∧ Felt.bop h ≠ 2) ∧
    -- tokens of the front end: missing, there; a full FIFO, and room
    (let h : Felt := [BitVec.ofNat 64 (0x6F7), 0, 0, 0, 0xA, 0, 0, 0]
     Felt.bop h = 6 ∧ Felt.queue h = 0 ∧ (Felt.tok h).wp = true ∧ (Felt.tok h).sp = true ∧ (pool (walk 1 h) 0).fifo[(3 : Fin 8)] = 0 ∧
       (pool (walk 1 h (fifos (.replicate 8 1))) 0).fifo[(3 : Fin 8)] ≠ 0 ∧ ((walk 1 h (fifos (.replicate 8 1))).core 0).walking 1 = true ∧
       (pool (walk 2 h (fifos (.replicate 8 16))) 0).fifo[(7 : Fin 8)] = 16 ∧ ((walk 2 h (fifos (.replicate 8 16))).core 0).walking 2 = true ∧
       (pool (walk 2 h (fifos (.replicate 8 1))) 0).fifo[(7 : Fin 8)] ≠ 16) := by decide +kernel
/-- A LOADW felt of the group of 8 cells: its entry at the head of K, before it opens its slot, at its block, and at its end. -/
def loadw (fmt plen : Nat) : Felt := [BitVec.ofNat 64 (0x2F7 + fmt * 2 ^ 16 + plen * 2 ^ 32), BitVec.ofNat 64 (8 * 2 ^ 13 + 2 ^ 36), 0, 0, 0, 0, 0, 0]
theorem test_hyp_WalkerEvents_loadw :
    (∀ x ∈ [(0, 0, 0), (3, 0, 0), (3, 1, 8)],
      let h := loadw 1 8
      let e := { anOp (.wfelt 4096 0 1 0 8) with step := x.1 }
      let s := onWalker (fun w => { w with blk := x.2.1, voff := x.2.2 }) (onCtx (fun y => { y with placed := 1 }) (heads .k e (walk 1 h carved)))
      (s.core 0).walking 1 = true ∧ (wctx s 0).placed ≠ 0 ∧ atHead s .k e = true ∧ (walker s 0).felt = 4096 ∧ Felt.bop h = 2 ∧
        e.po = (wctx s 0).entry ∧ (s.core 0).flow.dep.maq ≤ (s.core 0).live.prod.maq ∧
        chunks64 8 ((s.core 0).payload 0) 8 = [(4160, 8)] ∧
        s.wloadGroups 0 0 = some [aGroup] ∧ Felt.scl h = false ∧ Felt.cmp h = 0 ∧ badWeightFmt (Felt.fmt h) false [aGroup] = false ∧
        ([aGroup].head?.map (·.cell0)) = some (Felt.fcell h) ∧ ([aGroup].map (·.len)).sum = Felt.ncell h ∧ tagWidth (Felt.fmt h) = 8 ∧ e.pos = 0 ∧
        blockAt [aGroup] 0 = some (aGroup, 0, 8) ∧ blockAt [aGroup] 1 = none ∧ (walker s 0).racc % 255 = Felt.res h ∧ Felt.plen h = 8 ∧
        homePiece s 2 .m .felt 0 (4096 + 64) ⟨4160, 4160, 8, false⟩ 8 (.replicate 8 0) false = true ∧
        homePiece { s with mem := { s.mem with bad := [65] } } 2 .m .felt 0 (4096 + 64) ⟨4160, 4160, 8, false⟩ 8 (.replicate 8 0) true = true) ∧
    (let e := anOp (.wfelt 4096 0 1 0 8)
     atHead (heads .k e (walk 1 (loadw 1 8))) .k e = true ∧ (heads .k e (walk 1 (loadw 1 8))).wloadGroups 0 0 = none) ∧
    -- the end, before and at its cycle
    (∀ n ∈ [100000, 100001], let e := { anOp (.wfelt 4096 0 1 0 8) with step := 4, doneAt := some n }
      atHead (heads .k e) .k e = true) := by decide +kernel
/-- The read of that payload. -/
theorem test_hyp_WalkerEvents_payload_read :
    ∃ t ms, (heads .k (anOp (.wfelt 4096 0 1 0 8)) (walk 1 (loadw 1 8))).feltPieces 0 [(4160, 8)] = (.ok (.replicate 8 0) none t, ms) := by
  have e : homePiece (heads .k (anOp (.wfelt 4096 0 1 0 8)) (walk 1 (loadw 1 8))) 2 .m .felt 0 4160 ⟨4160, 4160, 8, false⟩ 8
    (.replicate 8 0) false = true := by decide +kernel
  obtain ⟨t, r⟩ := engineRead_home e
  have f : (heads .k (anOp (.wfelt 4096 0 1 0 8)) (walk 1 (loadw 1 8))).feltRead 0 4160 8 = .ok (.replicate 8 0) none t := r
  refine ⟨t, ?_⟩
  rw [State.feltPieces, f]
  exact ⟨_, rfl⟩
theorem test_hyp_WalkerEvents_successor :
    (∀ n ∈ [0, 1, 2, 3, 4, 5, 6], ((walk 2 (aFelt 7 n)).core 0).walking 2 = true ∧ Felt.succ (aFelt 7 n) = n ∧ Felt.bop (aFelt 7 n) ≠ 6) ∧
    (walker (walk 2 (aFelt 7 3)) 0).stack.length < 4 ∧ (walker (onWalker (fun w => { w with stack := [0, 0, 0, 0] }) (walk 2 (aFelt 7 3))) 0).stack.length = 4 ∧
    (walker (walk 2 (aFelt 7 4)) 0).stack = [] ∧ (walker (onWalker (fun w => { w with stack := [64, 128] }) (walk 2 (aFelt 7 4))) 0).stack = [64] ++ [128] ∧
    (let s := waits (.wdrive 2 1) (walk 2 (aFelt 7 5))
     (s.core 0).live.front.at_.wait = .wdrive 2 1 ∧ (s.core 0).logged = none ∧ (s.core 0).walking 2 = true) ∧
    -- TAGBR: no ring, a slot that is not FULL, one that is, one with an error
    (let h : Felt := [BitVec.ofNat 64 (0x7F7), BitVec.ofNat 64 (5 * 2 ^ 50), 6, 0, 0, 0, 0, 0]
     Felt.aring h = 5 ∧ Felt.succ h = 6 ∧ ((walk 2 h).core 0).ring 5 = none ∧
     ∀ x ∈ [aSlot, { aSlot with state := .full }, { aSlot with state := .full, tagerr := true }],
       let r := filled1 x
       let s := walk 2 h (withRing r)
       (s.core 0).ring 5 = some r ∧ (pool s 0).slotsDue 5 = 0 ∧ r.tookMade = r.taken ∧ r.viewNo = r.defNo ∧ (s.core 0).flow.gone = [] ∧ r.taken < r.filled ∧
         (s.core 0).walking 2 = true) := by decide +kernel
def aMiss : Miss := ⟨1, 0, false, 0, false, false, 0⟩
/-- Core 0 with a miss. -/
def missing (m : Miss) (s : State := live) : State := onCore (fun k => { k with misses := [m] }) s
/-- A page of context 1 at the address 0: its tables at 1 MiB and above, and the leaf of the page at 2 MiB. -/
def tables : State :=
  withBytes 72 (toBytes 8 0x100000) (withBytes 0x100000 (toBytes 8 (0x120000 + 1)) (withBytes 0x120000 (toBytes 8 (0x140000 + 1))
    (withBytes 0x140000 (toBytes 8 (0x160000 + 1)) (withBytes 0x160000 (toBytes 8 (0x200000 + 64 + 4 + 1)) ctx1))))
theorem test_hyp_TranslationEvents :
    (let s := missing aMiss
     s.pkg.strictNow = false ∧ s.walking 0 (fun _ => true) < 256 ∧ (0 : CoreId) = around (s.mem.walkLast[(0 : DieId)]) 0 (0 + 1) ∧
       (s.core 0).misses = [] ++ aMiss :: [] ∧ aMiss.walking = false ∧ aMiss.failed = false) ∧
    (∀ e : CoreId, (live.core e).misses = []) ∧
    (∀ m ∈ [{ aMiss with walking := true }, { aMiss with walking := true, cancelled := true }],
      ((missing m).core 0).misses[0]? = some m ∧ m.since + 4 * (60 + 48 * 2) ≤ live.cycle ∧ live.mem.walkCache[CoreId.die 0] = []) ∧
    ((missing aMiss).core 0).misses[0]? = some aMiss ∧ (live.core 0).misses[0]? = none ∧
    (tables.walk 1 0).isSome = true ∧ live.walk 1 0 = none ∧ ctx1.mayWalk 1 = true ∧ aMiss.asid = 1 ∧
    ({ ctx1 with cycle := 59 } : State).cycle < aMiss.since + 60 := by decide +kernel
/-- The words of a record of one iteration on one core; and a host that may ring queue 0, of context 1, with HEAD and TAIL. -/
def aRecord : List Byte :=
  toBytes 8 (0xA5 + 2 ^ 10 + 2 ^ 32 + 2 ^ 41) ++ toBytes 8 640 ++ toBytes 16 0 ++ toBytes 8 0 ++ toBytes 8 (4096 + 3072 * 2 ^ 16 + 1024 * 2 ^ 32) ++
    toBytes 16 0 ++ toBytes 8 1
def rung (ptr : Nat) (s : State) : State :=
  let s := onPart (fun p => { p with queues := p.queues.set 0 { p.queues[0] with ctx := 1, ptr := BitVec.ofNat 64 ptr } }) s
  { s with mgmt := { s.mgmt with pcie := true } }
/-- A launch of one iteration on one core, in queue 3 of partition 0; core 0 free, or assigned to it. -/
def aRec : LaunchRec := ⟨1, 1, false, false, false, 0, 640, false, 0, 5, 4096, 3072, 1024, [(1, 0)], []⟩
def aLaunch : Launch := ⟨9, 0, 3, 4096, 4096, 0, false, none, aRec, none, none, 0, 0, [], 0, true, 0, 0⟩
def queued (l : Launch) (s : State := routed) : State :=
  onPart (fun p => { p with queues := p.queues.set 3 { p.queues[3] with entries := [l], since := some 5, cfg := 0x40 } }) s
def running (l : Launch) (s : State := routed) : State := onPart (fun p => { p with running := [l] }) s
def freed (s : State) : State := onCore (fun k => { k with run := { k.run with halted := true } }) s
def jobbed (j : Job) (s : State) : State :=
  onPos (fun p => { p with idle := true }) (onCore (fun k => { k with run := { k.run with halted := true, job := some j } }) s)
def myJob : Job := { aJob with launch := 9, iter := none, fresh := true }
theorem test_hyp_SchedulerEvents_queues :
    (({ live with mgmt := { live.mgmt with pcie := true } } : State).functionOn .pf = true ∧ live.functionOn .pf = false ∧
      ({ live with mgmt := { live.mgmt with pcie := true } } : State).walk 0 0 = none) ∧
    -- a doorbell whose record translates: a record that is taken, a full queue, a record that is not new, and no record
    (∀ x ∈ [(0, rung 0 (routed (withBytes 0x200000 aRecord tables))), (1, rung (16 * 2 ^ 32) tables), (2, rung 0 (withBytes 0x200030 [1] tables)),
        (3, rung 0 tables)],
      x.2.functionOn .pf = true ∧ x.2.pmapOf 0 = 0 ∧ (x.2.part 0).queues[(0 : QueueNo)].ctx = 1 ∧
      x.2.walk 1 0 = some (leafOf (0x200000 + 64 + 4 + 1) false) ∧ (leafOf (0x200000 + 64 + 4 + 1) false).permits .load .u = true ∧
      (x.2.enqueue 0 0 ⟨0x200000, 0, false, 1, true⟩).1 = x.1) ∧
    (∀ w ∈ [none, some 4096], let s := queued { aLaunch with waitBar := w }
      ((s.part 0).queues[3]).entries = [{ aLaunch with waitBar := w }] ∧ s.served 0 = true ∧ localHbm 4096 = true) ∧
    (((queued aLaunch).part 0).queues[3]).since = some 5 ∧ 5 + 65536 ≤ (queued aLaunch).cycle ∧
    ({ queued aLaunch with cycle := 9 } : State).cycle < 5 + 65536 := by decide +kernel
theorem test_hyp_SchedulerEvents_grants :
    (let s := freed (queued aLaunch (routed (withBytes 0 [0, 2])))
     (∀ i : QueueNo, ∀ z ∈ ((s.part 0).queues[i]).entries, z.lrec.iters ≠ 0) ∧ s.served 0 = true ∧ (s.part 0).grantAt ≠ some s.cycle ∧ s.nextGrant 0 = some (⟨aLaunch, some 3⟩, [0]) ∧ aLaunch.lrec.paired = false) ∧
    routed.nextGrant 0 = none ∧
    -- a head without iterations
    (let l := { aLaunch with lrec := { aRec with dims := [(0, 0)] } }
     ((queued l).part 0).queues[3].entries = [l] ∧ l.lrec.iters = 0 ∧ ∀ i : QueueNo, i < 3 → (((queued l).part 0).queues[i]).entries = []) := by
  decide +kernel
theorem test_hyp_SchedulerEvents_cores :
    (∀ b ∈ [true, false], let j := { myJob with clearing := b }
      ((jobbed j routed).core 0).run.job = some j) ∧ (routed.core 0).run.job = none ∧
    (let l := { aLaunch with cores := [0] }
     let s := jobbed myJob (running l)
     (s.core 0).run.job = some myJob ∧ s.launchOf 0 = some l ∧ myJob.redo = [] ∧ s.firstWaiting l = some 0 ∧ l.next < l.lrec.iters ∧
       (s.part l.part).switch.paused.contains l.asid = false ∧ l.lrec.paired = false ∧ l.running = true) ∧
    -- a launch all of whose iterations are given, or that is paused: nothing to dispatch; the core is released, or not
    (let l := { aLaunch with cores := [0], next := 1 }
     let s := jobbed myJob (running l)
     (s.core 0).run.job = some myJob ∧ s.launchOf 0 = some l ∧ ¬ l.next < l.lrec.iters ∧ myJob.iter = none ∧ l.lrec.gang = false ∧
       l.lrec.iters ≤ l.next ∧ (s.core 0).run.stop = .none ∧ s.quietCore 0 = true) ∧
    (let l := { aLaunch with cores := [0] }
     (jobbed myJob (running l)).launchOf 0 = some l ∧ ¬ l.lrec.iters ≤ l.next) := by decide +kernel
theorem test_hyp_SchedulerEvents_ends :
    (let l := { aLaunch with next := 1, ended := 1 }
     ((running l).part 0).running.find? (fun z => z.id == 9) = some l ∧ l.ended = l.lrec.iters ∧ l.lrec.iters ≤ l.next ∧ l.cores = [] ∧
       l.lrec.paired = false ∧ l.doneBar = none ∧ l.cmp = false ∧ l.addr + 256 ≤ 2 ^ 39) ∧
    (routed.part 0).running.find? (fun z => z.id == 9) = none ∧ routed.quiescent 0 = false ∧
    (∀ b ∈ [true, false], let s := onPart (fun p => { p with reported := b }) (waits (.tokw true false) routed)
      s.quiescent 0 = true ∧ (s.part 0).reported = b ∧ (s.part 0).logs.dlkBase.getLsbD 0 = false ∧ (s.part 0).logs.evaddr.getLsbD 0 = false) := by
  decide +kernel
/-- Core 0 with a stop, and with the slot of context 1 that a save of it would have left. -/
def stop0 (x : Stop) (s : State := live) : State := onCore (fun k => { k with run := { k.run with stop := x } }) s
def aCast : Cast := ⟨(live.core 0).live, 99000, 0, true⟩
def slotted : State :=
  { withBytes 0x10000 [0xC5, 0, 1, 1] ctx1 with images := [(0x10000, { ctx1.core 0 with casts := [aCast] })] }
theorem test_hyp_ContextEvents_stops :
    (live.core 0).run.stop = .none ∧
    (∀ g ∈ [true, false], ((stop0 (.asked g 5)).core 0).run.stop = .asked g 5 ∧
      ((stop0 (.asked g 5)).abandonWait 0).atBoundary 0 = true) ∧
    (∀ g ∈ [true, false], let s := stop0 (.saving g 5)
      (s.core 0).run.stop = .saving g 5 ∧ 5 + 36608 ≤ s.cycle ∧ ({ s with cycle := 9 } : State).cycle < 5 + 36608 ∧
        s.slotAddr (s.core 0).regs.asid 0 + 0x8F0000 ≤ 2 ^ 39) := by decide +kernel
theorem test_hyp_ContextEvents_loads :
    ((stop0 (.loading 1 false 5) ctx1).core 0).run.stop = .loading 1 false 5 ∧
    ctx1.slotOk (ctx1.slotAddr 1 0) 0 = false ∧
    (let s := stop0 (.loading 1 false 5) slotted
     s.slotOk (s.slotAddr 1 0) 0 = true ∧ s.images.find? (fun z => z.1 == s.slotAddr 1 0) = some (0x10000, { ctx1.core 0 with casts := [aCast] }) ∧
       5 + 36608 ≤ s.cycle ∧ ({ s with cycle := 9 } : State).cycle < 5 + 36608) ∧
    -- a slot of another device's save
    (let s : State := { stop0 (.loading 1 false 5) slotted with images := [] }
     s.slotOk (s.slotAddr 1 0) 0 = true ∧ s.images.find? (fun z => z.1 == s.slotAddr 1 0) = none) := by decide +kernel
theorem test_hyp_ContextEvents_switches :
    (live.part 0).switch.busy = false ∧ (live.part 0).switchAt = 0 ∧
    (let s := onPart (fun p => { p with switchAt := 7 }) { live with ptime := 9 }
     (s.part 0).switch.busy = false ∧ (s.part 0).switchAt ≠ 0 ∧ (s.part 0).switch.done = false ∧ (s.part 0).switchAt.toNat ≤ s.ptime ∧
       -- a core that has a launch, and one that is free
       (s.pmapOf 0 = 0 ∧ (s.core 0).regs.asid = (s.part 0).from_ ∧ (s.core 0).run.stop = .none ∧ (s.core 0).run.inHold = false ∧ s.freeCore 0 0 = false ∧
         (freed (onPart (fun p => { p with switchAt := 7 }) { routed with ptime := 9 })).freeCore 0 0 = true)) ∧
    (let s := onPart fun p => { p with switch := { p.switch with busy := true, written := true } }
     (s.part 0).switch.busy = true ∧ (s.part 0).switch.written = true ∧ (s.part 0).switch.saves = [] ∧ (s.part 0).switch.loads = []) ∧
    (let s := onPart (fun p => { p with switch := { p.switch with busy := true, saves := [0] } }) (stop0 (.asked true 5))
     (s.part 0).switch.busy = true ∧ (s.part 0).switch.written = false ∧ (s.part 0).switch.loads = [] ∧ 0 ∈ (s.part 0).switch.saves ∧
       (s.core 0).run.stop = .asked true 5) := by decide +kernel
/-- Core 0 with casts. -/
def cast (l : List Cast) (s : State := live) : State := onCore (fun k => { k with casts := l }) s
theorem test_hyp_ReliabilityEvents_casts :
    -- a cast is due, in a core that runs and in one asked to stop; not due
    (∀ x ∈ [Stop.none, .asked true 5], let s := { stop0 x with cycle := 128 }
      ((s.core 0).run.stop = .none ∨ (s.core 0).run.stop = .asked true 5) ∧ (s.core 0).run.inHold = false ∧ s.cycle % 128 = 0 ∧
        (s.core 0).casts.head? = none) ∧
    live.cycle % 128 ≠ 0 ∧
    -- a strike report: too late, in time; with a cast to go back to, an unusable one before it, and none
    ¬ live.cycle ≤ 5 + Config.tDET ∧ 99999 ≤ live.cycle ∧ live.cycle ≤ 99999 + Config.tDET ∧ 99999 ≤ 99990 + 16 ∧ 99990 ≤ 99999 + 16 ∧
    (let s := cast [{ aCast with usable := false }, aCast]
     (s.core 0).run.stop = .none ∧ (s.core 0).casts[1]? = some aCast ∧ aCast.usable = true ∧ aCast.cyc + 32 ≤ 99990 ∧
       aCast.live.front.at_.wait = .none ∧ ((s.core 0).casts[0]?.map (·.usable)) = some false) ∧
    (live.core 0).casts = [] ∧ (live.core 0).flow.leftAt = none ∧ (live.core 0).run.rollEnd ≤ live.cycle ∧
    -- a rollback in progress; a strike that has waited for its end
    (let s := onCore fun k => { k with run := { k.run with rollEnd := 100005, strikes := [99990] } }
     s.cycle < (s.core 0).run.rollEnd ∧ 99990 ∈ (s.core 0).run.strikes ∧
       ((onFlow fun f => { f with leftAt := some 100000 }).core 0).flow.leftAt = some live.cycle) ∧
    -- an entry of the hold-back buffer that entered long ago, with a cast old enough
    (let s := cast [{ aCast with cyc := 90000 }] (onFlow fun f => { f with hold := [{ anOut with entered := 90100 }] })
     ¬ s.cycle ≤ 90100 + Config.tDET ∧ ((s.core 0).flow.hold[0]?.map (·.entered)) = some 90100 ∧ ((s.core 0).casts[0]?.map (·.usable)) = some true ∧
       90000 + 32 ≤ 90100 ∧ (s.core 0).run.stop = .none) := by decide +kernel
theorem test_hyp_ReliabilityEvents_messages :
    -- residues
    (∀ n ∈ [0, 2, 3, 4], ∀ d ∈ [none, some 2],
      let m := { aMsg (.freeze 0 false 1 false) with sends := n, dropped := d }
      (carried m).msg m.id = some m) ∧
    -- a load of which a flit has been rejected
    (let s := loading .vec .g (aUnit 8) (pending aPend)
     s.msg (s.nextMsg + 512 * 0 + 0) = none ∧ ((s.core 0).flow.loads[0]?.map fun l => (l.space, l.need.isNone, l.units.find? (·.value.isNone))) =
       some (.g, true, some (aUnit 8))) ∧ live.msg 0 = none ∧ 0 < ({ live with nextMsg := 1 } : State).nextMsg ∧
    -- scrubbing, and samples of error counts
    (5 < 2 ^ 33 ∧ stackOf (64 * 5) = 0 ∧ stackOf (64 * 5) ≠ 1) ∧ live.ptime % 1000000000 = 0 ∧ live.timeRuns = false ∧
    ({ live with timeRuns := true } : State).timeRuns = true ∧
    -- guards: a request that passes, one that does not, and one dropped
    (let m := aMsg (.part 1 ⟨0, 0, 0, 5, false, false⟩)
     (carried m).msg m.id = some m ∧ m.dropped = none ∧ m.hold.req.dests = [.core 1] ∧ m.applied = [] ∧ (carried m).guard m.part m.src (.core 1) = none ∧
       ((carried m live).guard m.part m.src (.core 1)).isSome = true ∧ m.id < ({ carried m live with nextMsg := 9 } : State).nextMsg ∧
       (carried { m with dropped := some 2 }).msg m.id = some { m with dropped := some 2 }) ∧
    -- the windows
    live.cycle % 1024 ≠ 0 ∧ ({ live with cycle := 102400 } : State).cycle % 1024 = 0 ∧ live.pkg.windowAt ≠ some 102400 := by decide +kernel
/-- The port of the host is open, and the virtual function of partition 0 with it. -/
def hosted (s : State := routed) : State := { s with mgmt := { s.mgmt with pcie := true }, host := { s.host with vfEnable := true } }
/-- Port 0, which partition 0 owns. -/
def onPort (f : Port → Port) (s : State := routed) : State :=
  { s with ports := s.ports.set 0 (f s.ports[0]), pkg := { s.pkg with rtabx := s.pkg.rtabx.set 0 1 } }
theorem test_hyp_RegisterWrites_cores :
    hosted.functionOn .pf = true ∧ hosted.functionOn (.vf 0) = true ∧
    (∀ b ∈ [true, false], ({ hosted with pkg := { hosted.pkg with locked := b } } : State).pkg.locked = b) ∧
    (hosted ctx1).resident 1 0 = true ∧ hosted.resident 1 0 = false ∧
    (9 ≤ bits (0x900 : Word) 8 4) ∧ (bits (0x880 : Word) 8 4 < 9 ∧ (0x880 : Word).getLsbD 6 = false ∧
      bits ((hosted.part 0).queues[(3 : QueueNo)]).cfg 6 2 = 0 ∧ bits ((hosted.part 0).queues[(3 : QueueNo)]).ptr 32 32 =
        bits ((hosted.part 0).queues[(3 : QueueNo)]).ptr 0 32) ∧
    (hosted.part 0).switch.busy = false ∧
    ((onPart (fun p => { p with switch := { p.switch with busy := true } }) hosted).part 0).switch.busy = true ∧
    -- a core that may leave its partition, and one that may not, being STOPPED
    hosted.mayMove 0 = true ∧ (hosted (stop0 .stopped routed)).mayMove 0 = false ∧ hosted.pkg.pctl.getLsbD (hosted.pmapOf 0).val = true := by decide +kernel
theorem test_hyp_RegisterWrites_package :
    (let g := (hosted live).pkg
     let sum := fun (t : Vector Word 16) => ((List.finRange 16).map fun (e : Fin 16) => if g.pctl.getLsbD e.val then bits t[e] 28 8 else 0).sum
     sum (g.rtabx.set 0 0) ≤ 256 ∧ (¬ ∃ (b : Fin 8) (d e : Fin 16), d ≠ e ∧ (g.rtabx.set 0 0)[d].getLsbD b.val = true ∧ (g.rtabx.set 0 0)[e].getLsbD b.val = true)) ∧
    (let t := ((hosted.pkg.rtabx.set 0 1).set 1 1)
     ∃ (b : Fin 8) (d e : Fin 16), d ≠ e ∧ t[d].getLsbD b.val = true ∧ t[e].getLsbD b.val = true) ∧
    bits (BitVec.ofNat 64 (2 ^ 30) : Word) 25 31 * 2 ^ 25 < 2 ^ 39 ∧ 2 ^ 39 ≤ bits (BitVec.ofNat 64 (2 ^ 40) : Word) 25 31 * 2 ^ 25 ∧
    sysRegKnown 0x00B = true ∧ sysRegKnown 0xFFF = false ∧
    bits (BitVec.ofNat 64 (2 ^ 28 + 1) : Word) 28 28 * 2 ^ 28 < 2 ^ 39 ∧ 2 ^ 39 ≤ bits (BitVec.ofNat 64 (2 ^ 40) : Word) 28 28 * 2 ^ 28 ∧
    (1 : Word).getLsbD 0 = true ∧ (hosted.ports[(0 : PortId)]).seqerr = false ∧ ((onPort (fun x => { x with seqerr := true }) hosted).ports[(0 : PortId)]).seqerr = true ∧ hosted.net = [] ∧ (0 : Word).getLsbD 0 = false ∧ hosted.mgmt.attBusy = false ∧
    (({ hosted with mgmt := { hosted.mgmt with attBusy := true } } : State).mgmt.attBusy = true) ∧
    hosted.pmapOf 0 ≠ 1 ∧ hosted.pmapOf 0 = 0 := by decide +kernel
/-- The aperture is mapped at 256 MiB, and the host port is open. -/
def apertured : State := { hosted with host := { hosted.host with apbase := BitVec.ofNat 64 (2 ^ 28 + 1) } }
theorem test_hyp_HostAndLinkEvents_host :
    (apertured.functionOn .pf = true ∧ apertured.functionOn (.vf 0) = true ∧ apertured.host.apbase.getLsbD 0 = true ∧ 8 + 256 ≤ 2 ^ 24 ∧
      apertured.mgmt.tripped = false ∧ apertured.held = false ∧ apertured.enabled 0 = true ∧ apertured.enabled 1 = false ∧
      bits apertured.host.apbase 28 28 * 2 ^ 28 = 2 ^ 28) ∧
    routed.functionOn .pf = false ∧ hosted.host.apbase.getLsbD 0 = false ∧ (3 * 2 ^ 32 + 5) / 2 ^ 32 = 3 ∧
    ({ hosted with mgmt := { hosted.mgmt with tripped := true } } : State).mgmt.tripped = true ∧
    -- an access whose controller serves another partition
    (let s : State := { apertured with pkg := { apertured.pkg with strictNow := true, calNow := .replicate 4 (BitVec.ofNat 64 0x1111111111111111) } }
     s.served 0 = false) := by decide +kernel
/-- A guard and the meters let the host through. -/
theorem test_hyp_HostAndLinkEvents_grants : ∃ t, apertured.hostGrant .pf 8 (2 ^ 28 + 8) 256 false = .ok t := by
  have e : unmetered apertured (hostPart .pf 8) = true := by decide +kernel
  have g : apertured.entryKind 0 (hostPart .pf 8) (.home (homeDie (2 ^ 28 + 8))) = none := by decide +kernel
  obtain ⟨t, h, l⟩ := spineOn_free ((256 + 63) / 64) (0 :: diesBetween 0 (homeDie (2 ^ 28 + 8))) e
  obtain ⟨u, h', l'⟩ := homeGrant_free (l.unmetered e) (2 ^ 28 + 8) 256 false
  refine ⟨u, ?_⟩
  simp only [State.hostGrant, g, h, Option.bind_some, h', Bool.false_eq_true, if_false]; rfl
/-- The CRC of bytes, run by run: what it is after each. -/
def crcRuns : BitVec 32 → List (List Byte × BitVec 32) → Bool
  | _, [] => true
  | c, r :: rs => r.1.foldl crcByte c == r.2 && crcRuns r.2 rs
theorem crc_of_runs (l : List (List Byte × BitVec 32)) (c : BitVec 32) (h : crcRuns c l = true) :
    (l.flatMap (·.1)).foldl crcByte c = (l.getLast?.map (·.2)).getD c := by
  induction l generalizing c with
  | nil => rfl
  | cons r rs ih =>
    simp only [crcRuns, Bool.and_eq_true, beq_iff_eq] at h
    rw [List.flatMap_cons, List.foldl_append, h.1, ih r.2 h.2]
    cases rs <;> simp [List.getLast?_cons]
/-- A flit whose units and last header words are zero: its first 28 bytes, and the CRC after each 28 bytes of it. -/
def flitOf (first : List Byte) (crc : Nat) : VecWord := BitVec.ofNat 2048 (ofBytes first + crc * 2 ^ 448)
def runsOf (first : List Byte) (cs : List (BitVec 32)) : List (List Byte × BitVec 32) :=
  cs.zipIdx.map fun x => (if x.2 = 0 then first else List.replicate 28 0, x.1)
theorem good_of {first : List Byte} {cs : List (BitVec 32)} {crc : Nat} (h : crcRuns (BitVec.allOnes 32) (runsOf first cs) = true)
    (b : (toBytes 256 (flitOf first crc).toNat).take 56 ++ (toBytes 256 (flitOf first crc).toNat).drop 60 = (runsOf first cs).flatMap (·.1))
    (e : BitVec.ofNat 32 (kltField (flitOf first crc) 7 0 32) = ~~~(((runsOf first cs).getLast?.map (·.2)).getD (BitVec.allOnes 32)))
    (z : (kltField (flitOf first crc) 1 48 4 == 0 && kltField (flitOf first crc) 2 34 30 == 0 &&
      ((List.range 3).all fun i => kltField (flitOf first crc) (3 + i) 50 14 == 0) &&
      (kltType (flitOf first crc) == 3 || kltWord (flitOf first crc) 6 == 0) && kltField (flitOf first crc) 7 32 32 == 0) = true) :
    kltGood (flitOf first crc) = true := by
  have k : kltCrc (flitOf first crc) = ~~~(((runsOf first cs).getLast?.map (·.2)).getD (BitVec.allOnes 32)) := by
    unfold kltCrc crc32; simp only [b, crc_of_runs _ _ h]
  unfold kltGood
  rw [z, k, e]; simp
/-- A flit of TYPE 1 that asks for flit 4 again. -/
def nakFlit : VecWord := flitOf ([0, 0, 0, 0, 0, 0, 0, 0, 0, 0, 0, 0, 0, 0, 16, 0, 4, 0, 0, 0, 1] ++ List.replicate 7 0) 0x6FFF5D13
/-- A flit of TYPE 3. -/
def timeFlit : VecWord := flitOf ([0, 0, 0, 0, 0, 0, 0, 0, 0, 0, 0, 0, 0, 0, 48] ++ List.replicate 13 0) 0x3303A51A
/-- Flits that pass the checks, with a NAK and without, and one that does not. -/
theorem test_hyp_HostAndLinkEvents_flits : (kltGood nakFlit = true ∧ kltType nakFlit = 1 ∧ kltNak nakFlit = some (4, false)) ∧
    (kltGood timeFlit = true ∧ kltType timeFlit = 3 ∧ kltNak timeFlit = none) ∧
    kltGood (BitVec.ofNat 2048 (2 ^ 112)) = false := by
  refine ⟨⟨good_of (cs := [0xD6918F9B, 0x7AF0A492, 0xDDB5CBA2, 0x244F00CC, 0xBE5AE0C2, 0x18BE63B6, 0x36D545D8, 0x7E39EAE8, 0x9000A2EC])
      (by decide +kernel) (by decide +kernel) (by decide +kernel) (by decide +kernel), by decide +kernel, by decide +kernel⟩,
    ⟨good_of (cs := [0xD459CCA2, 0x196DE104, 0xEA1FAC51, 0xCB758C1D, 0xF52EEF8, 0xF0F06DEA, 0x1159A496, 0xA6A33C8A, 0xCCFC5AE5])
      (by decide +kernel) (by decide +kernel) (by decide +kernel) (by decide +kernel), by decide +kernel, by decide +kernel⟩, by decide +kernel⟩
theorem test_hyp_HostAndLinkEvents_ports :
    -- a port that is up, receiving; one whose owner is missing; and one that is down
    (let s := onPort fun x => { x with state := 2 }
     s.ownerOf 0 = some 0 ∧ s.ports[(0 : PortId)].state = 2 ∧ s.ports[(0 : PortId)].frozen = false ∧ s.ports[(0 : PortId)].heldIn = []) ∧
    live.ownerOf 0 = none ∧ routed.ports[(0 : PortId)].state ≠ 2 ∧
    -- a flit held for a context that is paused still
    ({ (routed.ports[(0 : PortId)]) with paused := [5] } : Port).carries 5 = false ∧
    -- resending: a NAK with and without PAUSE, a time-out; early and late sends; a flit no longer kept
    (∀ b ∈ [true, false], ∀ n ∈ [1, 15, 16],
      let e : KeptFlit := ⟨0, 0, n⟩
      let s := onPort fun x => { x with state := 2, nak := some (0, b), keep := [e] }
      let x := s.ports[(0 : PortId)]
      x.nak = some (0, b) ∧ x.state = 2 ∧ x.frozen = false ∧ x.keep.find? (fun y => y.seq == 0) = some e ∧ x.keep.find? (fun y => y.seq == 5) = none ∧
        x.keep ≠ [] ∧ x.rto * 6 ≤ (s.cycle - x.sentAt) * 5 ∧ x.keep.find? (fun y => y.seq == x.txOld) = some e) ∧
    -- training, and time
    (let s := { onPort (fun x => { x with ctl := 1 }) with cycle := 1200000 }
     let x := s.ports[(0 : PortId)]
     x.state = 0 ∧ x.ctl.getLsbD 0 = true ∧ x.seqerr = false ∧ x.down + 1200000 ≤ s.cycle) ∧
    (onPort fun x => { x with state := 1 }).ports[(0 : PortId)].state = 1 ∧
    (let s := { onPort (fun x => { x with state := 2 }) with timeRuns := true }
     s.ptime % 1000 = 0 ∧ s.timeRuns = true ∧ s.host.timectl.getLsbD 0 = false ∧ s.host.timeSrc = 0 ∧ s.ports[(0 : PortId)].state = 2 ∧
       s.ports[(0 : PortId)].frozen = false ∧ s.host.timeSrc ≠ 1) := by decide +kernel
theorem test_hyp_BringUpEvents :
    let on := fun (f : Mgmt → Mgmt) (s : State) => { s with mgmt := f s.mgmt }
    (∀ b ∈ [true, false], (on (fun g => { g with powered := b }) live).mgmt.powered = b ∧ (on (fun g => { g with rstLow := b }) live).mgmt.rstLow = b ∧
      (on (fun g => { g with attBusy := b }) live).mgmt.attBusy = b ∧ (on (fun g => { g with pcie := b }) live).mgmt.pcie = b) ∧
    (let s := on (fun g => { g with powered := true, rstLow := true }) live
     s.mgmt.rstLow = true ∧ s.mgmt.powered = true ∧ s.held = true) ∧
    (∀ n ∈ ([1, 2, 3, 4, 5, 6] : List (Fin 7)), let s := on (fun g => { g with stage := n }) live
      s.mgmt.stage = n ∧ s.held = false ∧ s.mgmt.err = 0 ∧ s.mgmt.pcie = false) ∧
    (on (fun g => { g with err := 4 }) live).mgmt.err ≠ 0 ∧
    live.cycle % 12000 ≠ 0 ∧ live.mgmt.sampledAt = none := by decide +kernel
/-- A sample is due; it has been taken. -/
theorem test_hyp_BringUpEvents_samples : State.reset.cycle % 12000 = 0 ∧ State.reset.mgmt.sampledAt ≠ some State.reset.cycle ∧
    ({ State.reset.mgmt with sampledAt := some 0 } : Mgmt).sampledAt = some State.reset.cycle := by decide +kernel
/-- A word at the address 0, which core 0 issues next. -/
def issuing (w : Nat) : State := State.reset.withFetchWord 80 w
theorem test_hyp_StepRunsTheDecodedWord :
    -- addi s1, s2, -1 at the program counter: fetched anew at level M
    (let s := issuing (wordA 0x03 1 2 0 0 0 0 0 0 0 + 0xFFFFFFFF * 2 ^ 8)
     let p := s.nextTurn.2.pass s.nextTurn.1.wait
     s.nextTurn.1.act = .front 0 true ∧ p.held = false ∧ (p.core 0).mayIssue p.cycle = true ∧ (p.core 0).faultWaits p.cycle = false ∧
       (p.front 0).level = .m ∧ (p.front 0).at_.pcHi = 0 ∧
       (p.front 0).at_.pc.toNat % 10 = 0 ∧ (p.front 0).at_.pc.toNat + 160 ≤ 2 ^ 39 ∧
       (decode (wordA 0x03 1 2 0 0 0 0 0 0 0 + 0xFFFFFFFF * 2 ^ 8)).toOption = some (.addi Hdr.zero 1 2 (BitVec.allOnes 32))) ∧
    (decode 0).toOption = none ∧
    -- a front end that may not issue, an event, and a device that is held
    (let s := { live with turns := [⟨1, .front 5 false⟩] }
     s.nextTurn.1.act = .front 5 false ∧ ((s.nextTurn.2.pass 1).core 5).mayIssue (s.nextTurn.2.pass 1).cycle = false) ∧
    (let s := { live with turns := [⟨1, .event .budgetWindow⟩] }
     s.nextTurn.1.act = .event .budgetWindow ∧ isEvent .budgetWindow = true ∧ (s.nextTurn.2.pass 1).held = false) ∧
    -- a fault of K that waits at a boundary, and none; the lanes; a cast, a strike that is due, and none
    (let s := atLevel .u (onLive (fun l => { l with queues := { l.queues with k := [{ anEntry with trap := some aTrap }] } })
       { live with turns := [⟨1, .event (.engineFaultTaken 0)⟩] })
     s.nextTurn.1.act = .event (.engineFaultTaken 0) ∧ ((s.nextTurn.2.pass 1).core 0).faultWaits (s.nextTurn.2.pass 1).cycle = true ∧
       ((s.nextTurn.2.pass 1).core 0).mayIssue (s.nextTurn.2.pass 1).cycle = true) ∧
    (live.core 0).faultWaits live.cycle = false ∧ isEvent (.poolOperationFire 0 0) = true ∧
    (let s := onCore (fun k => { k with run := { k.run with strikes := [99990] } }) { live with turns := [⟨1, .strike 0⟩] }
     s.nextTurn.1.act = .strike 0 ∧ (s.nextTurn.2.pass 1).strikeDue 0 = some 99990) ∧ live.strikeDue 0 = none ∧
    (let s := { live with turns := [⟨1, .event .budgetWindow⟩], mgmt := { live.mgmt with rstLow := true } }
     (s.nextTurn.2.pass 1).held = true ∧ Act.outside (.event .budgetWindow) = false) := by decide +kernel
theorem test_hyp_WordsRoundTrip :
    ∀ i ∈ [Instr.addi Hdr.zero 1 2 5, .loopi Hdr.zero true 4095 1, .halt Hdr.zero, .vrcp (tag 1) 3 4], isEvent i = false ∧ i.wf = true := by decide +kernel
/-- Both invariants hold at a state with a word in memory, from which a step goes on. -/
theorem test_hyp_StepKeepsAcceptLegal_StepKeepsMemoryCanonical :
    (let s := issuing (0x39 * 2 ^ 72)
     s.mem.hbm ≠ [] ∧ AcceptLegal s ∧ MemoryCanonical s ∧ (step s matches .next _) = true) := by
  unfold AcceptLegal MemoryCanonical
  decide +kernel

-- the worked examples of the rules, one instruction each

def vec (l : List Nat) : VecWord := BitVec.ofNat 2048 ((l.zipIdx.map fun x => x.1 * 2 ^ (32 * x.2)).sum)
def sreg (s : State) (r : SReg) : Word := (fe s).regs.getS r
def lanes (n : Nat) (s : State) (r : VReg) : List Nat := (List.range n).map fun k => (lane ((fe s).regs.getV r) k).toNat
/-- The results of the four divisions, as numbers. -/
def divs (a b : Nat) : List Nat :=
  let s := withS 1 (BitVec.ofNat 64 a) (withS 2 (BitVec.ofNat 64 b))
  [(sreg (after (.div Hdr.zero .x64 3 1 2) s) 3).toNat, (sreg (after (.rem Hdr.zero .x64 3 1 2) s) 3).toNat,
    (sreg (after (.divu Hdr.zero .x64 3 1 2) s) 3).toNat, (sreg (after (.remu Hdr.zero .x64 3 1 2) s) 3).toNat]
/-- The table of R151, with W = 64. -/
theorem test_effect_divisions :
    divs 7 0 = [2 ^ 64 - 1, 7, 2 ^ 64 - 1, 7] ∧ divs (2 ^ 64 - 7) 2 = [2 ^ 64 - 3, 2 ^ 64 - 1, 0x7FFFFFFFFFFFFFFC, 1] ∧
    divs (2 ^ 63) (2 ^ 64 - 1) = [2 ^ 63, 0, 0, 0x8000000000000000] := by decide +kernel
/-- `divu.i32` by zero writes 64 one bits (R151). -/
theorem test_effect_divu_i32 : sreg (after (.divu Hdr.zero .i32 3 1 2) (withS 1 5)) 3 = BitVec.allOnes 64 := by decide +kernel
/-- The loop check (R161): the word D of the example with lc1 = 3, then with lc1 = 1 and lc0 = 2. -/
theorem test_effect_loop_ends :
    let at_ := fun (l : Loops) => onPos (fun p => { p with pc := 30 }) (onRegs fun g => { g with loops := l })
    let d := fun (l : Loops) => after (.addi Hdr.zero 2 2 1) (at_ l)
    let a := d ⟨10, 30, 2, 20, 30, 3⟩
    let b := d ⟨10, 30, 2, 20, 30, 1⟩
    let c := d ⟨10, 30, 1, 20, 30, 1⟩
    ((pcOf a).toNat, (fe a).regs.loops) = (20, ⟨10, 30, 2, 20, 30, 2⟩) ∧ ((pcOf b).toNat, (fe b).regs.loops) = (10, ⟨10, 30, 1, 20, 30, 0⟩) ∧
    ((pcOf c).toNat, (fe c).regs.loops) = (40, ⟨10, 30, 0, 20, 30, 0⟩) := by decide +kernel
/-- The `trap #7` of R164: it is taken once the loop check has chosen its TRAP_PC. -/
theorem test_effect_trap :
    let s := atLevel .u (onPos (fun p => { p with pc := 0x1090 }) (onRegs fun g => { g with loops := ⟨0, 0, 0, 0x1000, 0x1090, 2⟩ }))
    let t := after (.trap Hdr.zero 7) s
    let f := (fe t).sFrame
    f.pc = 0x1000 ∧ f.info = 7 ∧ f.loops.lc1 = 1 ∧ (fe t).regs.loops.lc1 = 0 ∧ (fe t).level = .s := by decide +kernel
/-- The four rows of R186. -/
theorem test_effect_vtopk : ∀ x ∈ [(false, false, [0x7FC00001, 0xFFC00000, 0x40400000, 0x40400000]), (false, true, [1, 5, 2, 3]),
      (true, false, [0x7FC00001, 0xFFC00000, 0xC0A00000, 0x40400000]), (true, true, [1, 5, 4, 2])],
    let s := withP 2 0x3F (withV 4 (vec [0x40000000, 0x7FC00001, 0x40400000, 0x40400000, 0xC0A00000, 0xFFC00000]))
    lanes 5 (after (.vtopk Hdr.zero true x.1 x.2.1 4 9 4 2) s) 9 = x.2.2 ++ [0] := by decide +kernel
/-- Words of the example of R187. -/
theorem test_effect_sparse :
    let s := withS 10 0xB6 (withS 11 0x65)
    (fe (after (.vbmand Hdr.zero 1 (.scalars 10 11)) s)).regs.getP 1 = 0x24 ∧
    (lanes 6 (after (.vpfx Hdr.zero 1 (.scalar 10)) s) 1).drop 2 = [1, 2, 2, 3] ∧ (lanes 6 (after (.vpfx Hdr.zero 2 (.scalar 11)) s) 2).drop 2 = [1, 2, 2, 2] ∧
    lanes 3 (after (.vcompact Hdr.zero 3 1 1) (withP 1 0x24 (withV 1 (vec [0, 0, 1, 0, 0, 3])))) 3 = [1, 3, 0] := by decide +kernel
/-- The scan of R185: lanes 4 to 6 of six ones are 5, 6 and 6. -/
theorem test_effect_vscan :
    (lanes 8 (after (.vscan Hdr.zero true 2 1 1) (withP 1 0x3F (withV 1 (vec (.replicate 8 0x3F800000))))) 2).drop 4 =
      [0x40A00000, 0x40C00000, 0x40C00000, 0x40C00000] := by decide +kernel

end Sys2Proof.Tests
end

section

/-! ## O59: the buffers of a core

Every function of the model that changes a core either keeps its store, keeps the canonical form of its three buffers (the store
changes in its ages, marks or planes), or writes the buffers through `Store.perform` and `Store.performCells`. -/

namespace Sys2Proof.Machine

/-- The three buffers of a core are in canonical form. -/
def Store.Canonical (t : Store) : Prop := t.wb.wf = true ∧ t.ab.wf = true ∧ t.cb.wf = true

/-- The part of the canonical form that is a core's own. -/
theorem memoryCanonical_iff (s : State) :
    MemoryCanonical s ↔ s.mem.hbm.wf = true ∧ ∀ c, (s.core c).store.Canonical := Iff.rfl

@[simp] theorem Store.canonical_record (t : Store) (wbBad abBad cbBad cbMarks : List Nat) (planes : Vector Plane 2) (liveSel : Fin 2)
    (ops : Vector (List PoolOp) 4) (held : List HeldPart) (aging : List Age) :
    Store.Canonical ⟨t.wb, t.ab, t.cb, wbBad, abBad, cbBad, cbMarks, planes, liveSel, ops, held, aging⟩ ↔ t.Canonical := Iff.rfl

@[simp] theorem Store.canonical_ite (p : Prop) [Decidable p] (t u : Store) :
    (if p then t else u).Canonical ↔ if p then t.Canonical else u.Canonical := by split <;> rfl

@[simp] theorem Core.store_ite (p : Prop) [Decidable p] (k l : Core) :
    (if p then k else l).store = if p then k.store else l.store := apply_ite ..

theorem Core.foldl_store {α : Type} (l : List α) (k : Core) (g : Core → α → Core) (h : ∀ k x, (g k x).store = k.store) :
    (l.foldl g k).store = k.store := by
  induction l generalizing k with
  | nil => rfl
  | cons x l ih => rw [List.foldl_cons, ih, h]

theorem Core.foldl_canonical {α : Type} (l : List α) (k : Core) (g : Core → α → Core)
    (h : ∀ k x, (g k x).store.Canonical ↔ k.store.Canonical) : (l.foldl g k).store.Canonical ↔ k.store.Canonical := by
  induction l generalizing k with
  | nil => rfl
  | cons x l ih => rw [List.foldl_cons, ih, h]

@[simp] theorem Core.popAcquires_store (k : Core) : (k.popAcquires).store = k.store := rfl

@[simp] theorem Core.enterStore_canonical (k : Core) (now : ℕ) (op : StoreOp) :
    (k.enterStore now op).store.Canonical ↔ k.store.Canonical := by
  unfold Core.enterStore; split <;> simp

@[simp] theorem Core.settleFrom_canonical (c : CoreId) (now : ℕ) (ops : List StoreOp) (k : Core) :
    (Core.settleFrom c now ops k).store.Canonical ↔ k.store.Canonical := by
  induction ops generalizing k with
  | nil => simp [Core.settleFrom]
  | cons op ops ih =>
    simp only [Core.settleFrom]
    split <;> simp [ih]

@[simp] theorem Core.settle_canonical (k : Core) (c : CoreId) (now : ℕ) :
    (k.settle c now).store.Canonical ↔ k.store.Canonical := by simp [Core.settle]

@[simp] theorem Core.nextRecord_store (k : Core) : (k.nextRecord).store = k.store := rfl

@[simp] theorem Core.pushStore_canonical (k : Core) (c : CoreId) (now : ℕ) (act : StoreAct) (rel : Option Scope) (tag : Option TagId)
    (party : Fin 4) (need : Option Need) :
    (k.pushStore c now act rel tag party need).store.Canonical ↔ k.store.Canonical := by simp [Core.pushStore]

@[simp] theorem Core.dropLeaf_store (k : Core) (hi : Byte) (va : Word) : (k.dropLeaf hi va).store = k.store := rfl

@[simp] theorem Core.askWalk_store (k : Core) (now : ℕ) (hi : Byte) (va : Word) (party : ℕ) (blk : Bool) :
    (k.askWalk now hi va party blk).store = k.store := by simp [Core.askWalk]

@[simp] theorem Core.keepLine_store (k : Core) (va : ℕ) (line : Line) (victim : ℕ) : (k.keepLine va line victim).store = k.store := rfl

@[simp] theorem Core.forget_store (k : Core) : (k.forget).store = k.store := rfl

@[simp] theorem Core.pushGate_canonical (k : Core) (c : CoreId) (now : ℕ) (act : StoreAct) (rel : Scope) (tag : Option TagId) :
    (k.pushGate c now act rel tag).store.Canonical ↔ k.store.Canonical := by simp [Core.pushGate]

@[simp] theorem Core.pushAcquire_canonical (k : Core) (c : CoreId) (now : ℕ) (atomic : Option ℕ) (scope : Scope) :
    (k.pushAcquire c now atomic scope).store.Canonical ↔ k.store.Canonical := by simp [Core.pushAcquire]

@[simp] theorem Core.modQueues_store (k : Core) (f : Queues → Queues) : (k.modQueues f).store = k.store := rfl

@[simp] theorem Core.place_store (k : Core) (x : PoolQ) (op : QOp) (tok : Tok) (word : Word) (level : Level) (vahi : Byte) (po : ℕ) :
    (k.place x op tok word level vahi po).store = k.store := rfl

@[simp] theorem Core.logInput_store (k : Core) (n : ℕ) (v : Option VecWord) : (k.logInput n v).store = k.store := rfl

@[simp] theorem Core.modRing_store (k : Core) (q : RingId) (f : Ring → Ring) : (k.modRing q f).store = k.store := rfl

@[simp] theorem Core.changeRing_store (k : Core) (q : RingId) (d : Option RingDef) (now : ℕ) :
    (k.changeRing q d now).store = k.store := by simp [Core.changeRing]

@[simp] theorem Core.emptySlot_store (k : Core) (q : RingId) (slot now : ℕ) : (k.emptySlot q slot now).store = k.store := by
  unfold Core.emptySlot; (repeat' split) <;> simp

@[simp] theorem Core.departFrom_store (q : RingId) (now : ℕ) (rels : List Release) (k : Core) :
    (Core.departFrom q now rels k).store = k.store := by
  induction rels generalizing k with
  | nil => rfl
  | cons e rels ih =>
    simp only [Core.departFrom]
    split
    · rfl
    · simp [ih]

@[simp] theorem Core.freeFirst_store (k : Core) (q : RingId) (now : ℕ) : (k.freeFirst q now).store = k.store := by
  unfold Core.freeFirst; split <;> simp

@[simp] theorem Core.doubleFill_store (k : Core) (q : RingId) (now : ℕ) : (k.doubleFill q now).store = k.store := rfl

@[simp] theorem Core.take_store (k : Core) (q : RingId) (who : Holder) : (k.take q who).store = k.store := by
  unfold Core.take; split <;> simp

@[simp] theorem Core.release_store (k : Core) (q : RingId) (slot now : ℕ) : (k.release q slot now).store = k.store := rfl

@[simp] theorem Core.modCopy_store (k : Core) (e : EntryNo) (f : CopyEntry → CopyEntry) : (k.modCopy e f).store = k.store := rfl

@[simp] theorem Core.modCirc_store (k : Core) (n : CircNo) (f : Circuit → Circuit) : (k.modCirc n f).store = k.store := rfl

@[simp] theorem Core.modWctx_store (k : Core) (f : WalkerCtx → WalkerCtx) : (k.modWctx f).store = k.store := rfl

@[simp] theorem Core.modWalker_store (k : Core) (f : Walker → Walker) : (k.modWalker f).store = k.store := rfl

@[simp] theorem Core.resumeWalk_store (k : Core) (now : ℕ) : (k.resumeWalk now).store = k.store := rfl

@[simp] theorem Core.startWalk_store (k : Core) (a : Word) (now : ℕ) : (k.startWalk a now).store = k.store := rfl

@[simp] theorem Core.modRegs_store (k : Core) (f : CoreRegs → CoreRegs) : (k.modRegs f).store = k.store := rfl

@[simp] theorem Core.setStop_store (k : Core) (x : Stop) : (k.setStop x).store = k.store := rfl

@[simp] theorem Core.unmake_store (k : Core) (o : StoreOp) : (k.unmake o).store = k.store := rfl

@[simp] theorem Core.invalidate_store (k : Core) (kind : TlbKind) (va : Word) : (k.invalidate kind va).store = k.store := rfl

@[simp] theorem Core.modHead_store (k : Core) (x : PoolQ) (f : QEntry → QEntry) : (k.modHead x f).store = k.store := rfl

@[simp] theorem Core.dropHead_store (k : Core) (x : PoolQ) (now : ℕ) : (k.dropHead x now).store = k.store := rfl

@[simp] theorem Core.finishHead_store (k : Core) (x : PoolQ) (e : QEntry) (now : ℕ) : (k.finishHead x e now).store = k.store := by
  unfold Core.finishHead; dsimp only; (repeat' split) <;> simp

@[simp] theorem Store.setPlanes_canonical (t : Store) (p : Vector Plane 2 × Fin 2) :
    (t.setPlanes p).Canonical ↔ t.Canonical := by simp [Store.setPlanes]

/-- K's effects on the planes keep the buffers canonical where the effect itself does. -/
theorem Core.planeEffect_canonical (k : Core) (now : ℕ) (f : Store → Store) (h : (f k.store).Canonical ↔ k.store.Canonical) :
    (k.planeEffect now f).store.Canonical ↔ k.store.Canonical := by
  unfold Core.planeEffect
  dsimp only
  split
  · simp
  · simpa using h

@[simp] theorem Core.modMaquette_canonical (k : Core) (now : ℕ) (f : Plane → Plane) :
    (k.modMaquette now f).store.Canonical ↔ k.store.Canonical :=
  k.planeEffect_canonical now _ Iff.rfl

@[simp] theorem Core.planesPerformed_store (k : Core) : (k.planesPerformed).store = k.store := rfl

@[simp] theorem Core.swap_canonical (k : Core) (copy : Bool) (now : ℕ) :
    (k.swap copy now).store.Canonical ↔ k.store.Canonical := by
  unfold Core.swap
  simp only [modLive_store, planesPerformed_store]
  exact Core.planeEffect_canonical _ _ _ Iff.rfl

@[simp] theorem Core.modLane_store (k : Core) (l : LaneId) (f : LaneState → LaneState) : (k.modLane l f).store = k.store := rfl

@[simp] theorem Core.setStream_store (k : Core) (lane : LaneId) (x : Stream) : (k.setStream lane x).store = k.store := rfl

@[simp] theorem Core.releaseAged_store (k : Core) (q : RingId) (slot now : ℕ) : (k.releaseAged q slot now).store = k.store := by
  unfold Core.releaseAged; split <;> simp

@[simp] theorem Core.releaseAll_store (k : Core) (xs : List (Option (RingId × ℕ))) (now : ℕ) :
    (k.releaseAll xs now).store = k.store :=
  Core.foldl_store xs k _ fun k x => by split <;> simp

@[simp] theorem Core.finishFrom_store (lane : LaneId) (xs : List Stream) (k : Core) :
    (Core.finishFrom lane xs k).store = k.store := by
  induction xs generalizing k with
  | nil => rfl
  | cons x xs ih =>
    simp only [Core.finishFrom]
    split
    · rfl
    · split <;> simp [ih]

@[simp] theorem Core.finishStream_store (k : Core) (lane : LaneId) : (k.finishStream lane).store = k.store := by simp [Core.finishStream]

@[simp] theorem Core.countRetired_store (k : Core) (lane : LaneId) : (k.countRetired lane).store = k.store := by simp [Core.countRetired]

@[simp] theorem Core.holdSlots_store (k : Core) (lane : LaneId) (x : Stream) : (k.holdSlots lane x).1.store = k.store := by
  unfold Core.holdSlots
  dsimp only
  (repeat' split) <;> simp

@[simp] theorem Core.skipOperation_store (k : Core) (lane : LaneId) (x : Stream) (now : ℕ) :
    (k.skipOperation lane x now).store = k.store := by
  simp [Core.skipOperation]

@[simp] theorem Core.setOp_canonical (k : Core) (lane : LaneId) (o : PoolOp) :
    (k.setOp lane o).store.Canonical ↔ k.store.Canonical := by simp [Core.setOp]

@[simp] theorem Store.setBad_canonical (t : Store) (b : Buf) (l : List ℕ) : (t.setBad b l).Canonical ↔ t.Canonical := by
  unfold Store.setBad; split <;> simp

theorem Store.setBuf_canonical (t : Store) (b : Buf) (m : Memory) (ht : t.Canonical) (hm : m.wf = true) : (t.setBuf b m).Canonical := by
  obtain ⟨hw, ha, hc⟩ := ht
  cases b
  · exact ⟨hm, ha, hc⟩
  · exact ⟨hw, hm, hc⟩
  · exact ⟨hw, ha, hm⟩

theorem Store.wf_buf (t : Store) (b : Buf) (ht : t.Canonical) : (t.buf b).wf = true := by
  obtain ⟨hw, ha, hc⟩ := ht
  cases b <;> assumption

@[simp] theorem Store.perform_canonical (t : Store) (b : Buf) (a : ℕ) (bs : List Byte) (poison : Bool) (ht : t.Canonical) :
    (t.perform b a bs poison).Canonical := Store.wf_perform t b a bs poison ht

@[simp] theorem Store.enterPass_canonical (t : Store) (lane : LaneId) (num entry : ℕ) (int : Bool) (v : BitVec 48) (poison : Bool)
    (now : ℕ) :
    (t.enterPass lane num entry int v poison now).Canonical ↔ t.Canonical := by simp [Store.enterPass]

@[simp] theorem Core.sendPart_store (k : Core) (c : CoreId) (lane : LaneId) (num : ℕ) (p : Pass) (now : ℕ) :
    (k.sendPart c lane num p now).store = k.store := by simp [Core.sendPart]

@[simp] theorem Core.enterOp_canonical (k : Core) (c : CoreId) (lane : LaneId) (o : PoolOp) (now : ℕ) :
    (k.enterOp c lane o now).store.Canonical ↔ k.store.Canonical :=
  Core.foldl_canonical o.passes k _ fun k p => by simp

@[simp] theorem Store.commitPass_canonical (t : Store) (a : Age) (ht : t.Canonical) : (t.commitPass a).Canonical := by
  unfold Store.commitPass
  split <;> simp [ht]

@[simp] theorem Store.commitPasses_canonical (t : Store) (lane : LaneId) (num : ℕ) (ht : t.Canonical) :
    (t.commitPasses lane num).Canonical :=
  List.foldlRecOn _ _ ht fun t ht a _ => t.commitPass_canonical a ht

@[simp] theorem Core.age_canonical (k : Core) (b : Buf) (p : AgeParty) (a : ℕ) (bs : List Byte) (entered : ℕ) (poison : Bool) :
    (k.age b p a bs entered poison).store.Canonical ↔ k.store.Canonical := by simp [Core.age]

@[simp] theorem Core.endFill_store (k : Core) (q : RingId) (slot : ℕ) (who : Holder) (coord : BitVec 32) (fmt : Fin 8) (res : ℕ)
    (poison : Bool) :
    (k.endFill q slot who coord fmt res poison).store = k.store := rfl

@[simp] theorem Core.applyChange_store (k : Core) (x : RingChange) (d : RingDef) : (k.applyChange x d).store = k.store := rfl

@[simp] theorem Core.closeTile_store (k : Core) (e : EntryNo) (y : Blk) (now : ℕ) : (k.closeTile e y now).store = k.store := by
  unfold Core.closeTile; dsimp only; (repeat' split) <;> simp

@[simp] theorem Core.finishBlock_store (k : Core) (e : EntryNo) (y : Blk) (v : Conv) (used wrote : ℕ) (poison : Bool) (now : ℕ) :
    (k.finishBlock e y v used wrote poison now).store = k.store := by simp [Core.finishBlock]

@[simp] theorem Core.ageCopy_canonical (k : Core) (e : EntryNo) (seq : ℕ) (b : Buf) (us : List WUnit) (poison : Bool) (now : ℕ) :
    (k.ageCopy e seq b us poison now).store.Canonical ↔ k.store.Canonical := by simp [Core.ageCopy]

@[simp] theorem Core.flitGone_store (k : Core) (n : CircNo) (f : Flit) (now : ℕ) : (k.flitGone n f now).store = k.store := by
  unfold Core.flitGone; split <;> simp

@[simp] theorem Core.cutSlot_store (k : Core) (n : CircNo) (q : RingId) (t : Taken) (now : ℕ) : (k.cutSlot n q t now).store = k.store := by
  unfold Core.cutSlot; (repeat' split) <;> simp

@[simp] theorem Core.modBranch_store (k : Core) (n : CircNo) (b : ℕ) (f : Branch → Branch) : (k.modBranch n b f).store = k.store := rfl

/-- Bytes performed together keep the buffers canonical. -/
@[simp] theorem Store.performCells_canonical (t : Store) (b : Buf) (cells : List (ℕ × Byte)) (poison : Bool) (ht : t.Canonical) :
    (t.performCells b cells poison).Canonical := by
  have hm : (cells.foldl (fun m x => Memory.writeByte m x.1 x.2) (t.buf b)).wf = true :=
    List.foldlRecOn (motive := fun m => Memory.wf m = true) cells _ (t.wf_buf b ht) fun m hm x _ =>
      Memory.wf_writeByte x.1 x.2 hm
  have := t.setBuf_canonical b _ ht hm
  simp [Store.performCells, this]

@[simp] theorem Core.landBytes_canonical (k : Core) (q : RingId) (slot : ℕ) (bytes : List (ℕ × Byte)) (poison : Bool)
    (hk : k.store.Canonical) : (k.landBytes q slot bytes poison).store.Canonical := by
  unfold Core.landBytes
  split <;> simp [hk]

@[simp] theorem Core.flitLanded_store (k : Core) (q : RingId) (slot : ℕ) (f : Flit) :
    (k.flitLanded q slot f).store = k.store := by simp [Core.flitLanded]

@[simp] theorem Core.walkOn_store (k : Core) : (k.walkOn).store = k.store := rfl

@[simp] theorem Core.placeFelt_store (k : Core) (q : PoolQ) (op : QOp) (tok : Tok) : (k.placeFelt q op tok).store = k.store := rfl

@[simp] theorem Core.thaw_store (k : Core) (mask : Fin 8) : (k.thaw mask).store = k.store := rfl

@[simp] theorem Core.endTilesFrom_store (k : Core) (e : EntryNo) (ts : List TileEnd) : (k.endTilesFrom e ts).store = k.store := by
  induction ts generalizing k with
  | nil => rfl
  | cons t ts ih =>
    unfold Core.endTilesFrom
    split
    · rfl
    · simp only [ih]
      split <;> simp

@[simp] theorem Core.endTiles_store (k : Core) : k.endTiles.store = k.store :=
  Core.foldl_store _ k _ fun k e => by simp

/-- A bank write keeps the buffers canonical, its lanes combined in whatever order. -/
@[simp] theorem Store.commit_canonical (t : Store) (e : Age) (order : ℕ) (ht : t.Canonical) : (t.commit e order).Canonical := by
  unfold Store.commit
  split
  · exact t.performCells_canonical _ _ _ ht
  · exact List.foldlRecOn _ _ ht fun t ht x _ => t.perform_canonical _ _ _ _ ht

@[simp] theorem Core.install_store (k : Core) (asid : Byte) (va : ℕ) (l : Leaf) (victim : ℕ) :
    (k.install asid va l victim).store = k.store := rfl

@[simp] theorem Core.renewCasts_store (k : Core) : (k.renewCasts).store = k.store := rfl

@[simp] theorem Core.assign_store (k : Core) (l : Launch) (sideB : Bool) (now : ℕ) : (k.assign l sideB now).store = k.store := rfl

/-- A cleared core has empty buffers, which are canonical. -/
@[simp] theorem Core.clear_canonical (k : Core) (r : LaunchRec) (now : ℕ) : (k.clear r now).store.Canonical := ⟨rfl, rfl, rfl⟩

@[simp] theorem Core.preload_store (k : Core) (l : Launch) : (k.preload l).store = k.store := by
  unfold Core.preload; split <;> simp

@[simp] theorem Core.startIter_store (k : Core) (l : Launch) (n now : ℕ) : (k.startIter l n now).store = k.store := by
  unfold Core.startIter; split <;> simp

@[simp] theorem Core.trimLogs_store (k : Core) : (k.trimLogs).store = k.store := by
  unfold Core.trimLogs; split <;> simp

@[simp] theorem Core.planesBack_canonical (k : Core) (n : ℕ) : (k.planesBack n).store.Canonical ↔ k.store.Canonical := by
  unfold Core.planesBack; split <;> simp

@[simp] theorem Core.rollback_canonical (k : Core) (l : Live) (older : List Cast) (nextAt : ℕ) (info : Word) :
    (k.rollback l older nextAt info).store.Canonical ↔ k.store.Canonical := by simp [Core.rollback]

@[simp] theorem Core.abandonOps_canonical (k : Core) : (k.abandonOps).store.Canonical ↔ k.store.Canonical := by simp [Core.abandonOps]

@[simp] theorem Core.discard_canonical (k : Core) : (k.discard).store.Canonical ↔ k.store.Canonical := by simp [Core.discard]

@[simp] theorem Core.abandonLoads_store (k : Core) (q : PortId) : (k.abandonLoads q).store = k.store := rfl

@[simp] theorem Core.landFar_canonical (k : Core) (r : RingId) (bs : List Byte) (last poison : Bool) (coord : BitVec 32) (fmt : Fin 8)
    (hk : k.store.Canonical) : (k.landFar r bs last poison coord fmt).store.Canonical := by
  unfold Core.landFar
  split <;> simp [hk]

@[simp] theorem Core.leaveHold_store (k : Core) (now : ℕ) : (k.leaveHold now).store = k.store := rfl

theorem Core.openHead_store {k l : Core} {x : PoolQ} {now : ℕ} {e : QEntry} (h : k.openHead x now = some (e, l)) :
    l.store = k.store := by
  unfold Core.openHead at h
  split at h
  · cases h
  · dsimp only at h
    (repeat' split at h) <;> cases h <;> simp

theorem Core.beginRemote_store {k l : Core} {q : RingId} {now slot : ℕ} (h : k.beginRemote q now = some (slot, l)) :
    l.store = k.store := by
  unfold Core.beginRemote at h
  dsimp only at h
  (repeat' split at h) <;> cases h
  simp

theorem Core.completionToken_store {k l : Core} {e : EntryNo} (h : k.completionToken e = some l) : l.store = k.store := by
  simp only [Core.completionToken, Option.ite_none_left_eq_some, Option.some.injEq] at h
  obtain ⟨-, rfl⟩ := h
  simp

end Sys2Proof.Machine

end

section

/-! ## O59: the memory of the machine

The rules by which a change of the state keeps HBM and the buffers canonical: updates of other fields, of one core, of a partition, and
folds. `OutcomeCanonical` says it of what an instruction or an event answers. -/

namespace Sys2Proof.Machine

/-- An outcome whose next state, if it has one, has canonical memory. -/
def OutcomeCanonical (o : Outcome) : Prop := ∀ t, o = .next t → MemoryCanonical t

@[simp] theorem outcomeCanonical_next (s : State) : OutcomeCanonical (.next s) ↔ MemoryCanonical s :=
  ⟨fun h => h s rfl, fun h _ e => by cases e; exact h⟩

@[simp] theorem outcomeCanonical_ite (p : Prop) [Decidable p] (a b : Outcome) :
    OutcomeCanonical (if p then a else b) ↔ if p then OutcomeCanonical a else OutcomeCanonical b := by split <;> rfl

/-- A write that, where it is accepted, leaves canonical memory. -/
def OptionCanonical (o : Option State) : Prop := ∀ t, o = some t → MemoryCanonical t

@[simp] theorem optionCanonical_none : OptionCanonical none := fun _ h => (Option.some_ne_none _ h.symm).elim

@[simp] theorem optionCanonical_some (s : State) : OptionCanonical (some s) ↔ MemoryCanonical s :=
  ⟨fun h => h s rfl, fun h _ e => by cases e; exact h⟩

@[simp] theorem optionCanonical_map {α : Type} (o : Option α) (f : α → State) :
    OptionCanonical (o.map f) ↔ ∀ x, o = some x → MemoryCanonical (f x) := by cases o <;> simp

@[simp] theorem optionCanonical_ite (p : Prop) [Decidable p] (a b : Option State) :
    OptionCanonical (if p then a else b) ↔ if p then OptionCanonical a else OptionCanonical b := by split <;> rfl

@[simp] theorem memoryCanonical_ite (p : Prop) [Decidable p] (s t : State) :
    MemoryCanonical (if p then s else t) ↔ if p then MemoryCanonical s else MemoryCanonical t := by split <;> rfl

/-- An update of other fields keeps the canonical form. -/
@[simp] theorem memoryCanonical_record (s : State) (parts : Vector Part 16) (mem : Mem) (pkg : PkgRegs) (host : HostRegs)
    (ports : Vector Port 8) (mgmt : Mgmt) (net : List Msg) (images : List (ℕ × Core)) (parked : List (ℕ × Msg))
    (nextMsg nextLaunch cycle ptime sixths : ℕ) (timeRuns : Bool) (ties : SMap (Option (ℕ × ℕ))) (cur : CoreId) (turns : List Turn)
    (steps free : ℕ) (h : mem.hbm = s.mem.hbm) :
    MemoryCanonical ⟨s.cores, parts, mem, pkg, host, ports, mgmt, net, images, parked, nextMsg, nextLaunch, cycle, ptime, sixths,
      timeRuns, ties, cur, turns, steps, free⟩ ↔ MemoryCanonical s := by
  rw [memoryCanonical_iff, memoryCanonical_iff]
  exact and_congr (by rw [h]) Iff.rfl

theorem core_canonical {s : State} (hs : MemoryCanonical s) (c : CoreId) : (s.core c).store.Canonical := hs.2 c

theorem State.core_setCore_eq (s : State) (c d : CoreId) (x : Core) :
    (s.setCore c x).core d = if d = c then x else s.core d := by
  split
  case isTrue h => rw [h, State.core_setCore]
  case isFalse h => exact s.core_setCore_ne c d x h

/-- A core replaced by one with canonical buffers. -/
theorem State.setCore_canonical_of {s : State} {c : CoreId} {x : Core} (hs : MemoryCanonical s) (hx : x.store.Canonical) :
    MemoryCanonical (s.setCore c x) := by
  refine (memoryCanonical_iff _).2 ⟨hs.1, fun d => ?_⟩
  rw [State.core_setCore_eq]
  split
  · exact hx
  · exact core_canonical hs d

@[simp] theorem State.setCore_canonical (s : State) (c : CoreId) (x : Core)
    (h : x.store.Canonical ↔ (s.core c).store.Canonical) : MemoryCanonical (s.setCore c x) ↔ MemoryCanonical s := by
  refine ⟨fun hs => ?_, fun hs => setCore_canonical_of hs (h.2 (core_canonical hs c))⟩
  have hc : (s.core c).store.Canonical := h.1 (by simpa using core_canonical hs c)
  simpa using setCore_canonical_of (c := c) hs hc

theorem State.modCore_canonical_of {s : State} {c : CoreId} {f : Core → Core} (hs : MemoryCanonical s)
    (h : (s.core c).store.Canonical → (f (s.core c)).store.Canonical) : MemoryCanonical (s.modCore c f) :=
  setCore_canonical_of hs (h (core_canonical hs c))

@[simp] theorem State.modCore_canonical (s : State) (c : CoreId) (f : Core → Core)
    (h : (f (s.core c)).store.Canonical ↔ (s.core c).store.Canonical) : MemoryCanonical (s.modCore c f) ↔ MemoryCanonical s :=
  s.setCore_canonical c _ h

@[simp] theorem State.modFront_canonical (s : State) (c : CoreId) (f : Front → Front) :
    MemoryCanonical (s.modFront c f) ↔ MemoryCanonical s :=
  s.modCore_canonical c _ Iff.rfl

@[simp] theorem State.modPart_canonical (s : State) (p : PartId) (f : Part → Part) :
    MemoryCanonical (s.modPart p f) ↔ MemoryCanonical s := Iff.rfl

@[simp] theorem State.foldl_canonical {α : Type} (l : List α) (s : State) (g : State → α → State)
    (h : ∀ s x, MemoryCanonical (g s x) ↔ MemoryCanonical s) : MemoryCanonical (l.foldl g s) ↔ MemoryCanonical s := by
  induction l generalizing s with
  | nil => rfl
  | cons x l ih => rw [List.foldl_cons, ih, h]

@[simp] theorem State.foldl_snd_canonical {α β : Type} (l : List α) (x : β × State) (g : β × State → α → β × State)
    (h : ∀ x a, MemoryCanonical (g x a).2 ↔ MemoryCanonical x.2) : MemoryCanonical (l.foldl g x).2 ↔ MemoryCanonical x.2 := by
  induction l generalizing x with
  | nil => rfl
  | cons a l ih => rw [List.foldl_cons, ih, h]

theorem State.foldl_canonical_of {α : Type} (l : List α) {s : State} (g : State → α → State) (hs : MemoryCanonical s)
    (h : ∀ s x, MemoryCanonical s → MemoryCanonical (g s x)) : MemoryCanonical (l.foldl g s) :=
  List.foldlRecOn l g hs fun s hs x _ => h s x hs

/-- A fold that may stop early keeps the canonical form when each of its steps does. -/
theorem State.foldl_option_canonical {α β : Type} (l : List α) {x : Option (β × State)} {g : Option (β × State) → α → Option (β × State)}
    (hx : ∀ y, x = some y → MemoryCanonical y.2)
    (h : ∀ x a, (∀ y, x = some y → MemoryCanonical y.2) → ∀ y, g x a = some y → MemoryCanonical y.2) :
    ∀ y, l.foldl g x = some y → MemoryCanonical y.2 :=
  List.foldlRecOn l g hx fun x hx a _ => h x a hx

theorem outcomeCanonical_ite_of {p : Prop} [Decidable p] {a b : Outcome} (ha : OutcomeCanonical a) (hb : OutcomeCanonical b) :
    OutcomeCanonical (if p then a else b) := by split <;> assumption

theorem memoryCanonical_ite_of {p : Prop} [Decidable p] {s t : State} (hs : MemoryCanonical s) (ht : MemoryCanonical t) :
    MemoryCanonical (if p then s else t) := by split <;> assumption

end Sys2Proof.Machine

end

section

/-! ## O59: the operations that words and events share

Writes to HBM go through `State.poke`; the rest of the operations of the state touch neither HBM nor a buffer. -/

namespace Sys2Proof.Machine

-- `simp` discharges the side conditions of the conditional frame rules by `rfl` rules, which unify only above reducible transparency.
set_option backward.isDefEq.respectTransparency false

@[simp] theorem State.charge_canonical (s : State) (p : PartId) (d : DieId) (m : Fin 4) (n : ℕ) :
    MemoryCanonical (s.charge p d m n) ↔ MemoryCanonical s := Iff.rfl

/-- A write at a home keeps memory canonical. -/
@[simp] theorem State.poke_canonical (s : State) (a : ℕ) (bs : List Byte) (cmp poison : Bool) (own : PartId) (hs : MemoryCanonical s) :
    MemoryCanonical (s.poke a bs cmp poison own) := by
  have hw : MemoryCanonical { s with mem := s.mem.write s.pkg.mdbase a bs cmp poison (s.wayUse own) } :=
    ⟨Mem.wf_write _ _ _ _ _ _ _ hs.1, hs.2⟩
  unfold State.poke
  dsimp only
  split
  · exact hw
  · exact hw

@[simp] theorem State.pokeWord_canonical (s : State) (a : ℕ) (x : Word) (hs : MemoryCanonical s) :
    MemoryCanonical (s.pokeWord a x) := by simp [State.pokeWord, hs]

@[simp] theorem State.signal_canonical (s : State) (p : PartId) (bit : ℕ) (hs : MemoryCanonical s) :
    MemoryCanonical (s.signal p bit) := by simp [State.signal, hs]

@[simp] theorem State.freezeCore_canonical (s : State) (c : CoreId) (fe ce bw : Bool) (viol : Fin 16) (t : Option Trap)
    (hs : MemoryCanonical s) : MemoryCanonical (s.freezeCore c fe ce bw viol t) := by
  have hpokes (us : List WUnit) (cmp : Bool) : MemoryCanonical (us.foldl (fun s u => s.poke u.addr u.bytes cmp) s) :=
    State.foldl_canonical_of us _ hs fun s u hs => s.poke_canonical _ _ _ _ _ hs
  unfold State.freezeCore
  dsimp only
  refine State.signal_canonical _ _ _ ?_
  rw [State.modCore_canonical _ _ _ (by simp)]
  split
  · rw [State.modCore_canonical _ _ _ (by simp)]
    split
    · split
      · exact hpokes _ _
      · simpa using hs
    · exact hs
  · exact hs

@[simp] theorem State.faultRecord_canonical (s : State) (c : CoreId) (target : Level) (ws : List Word) :
    MemoryCanonical (s.faultRecord c target ws).1 ↔ MemoryCanonical s := by
  unfold State.faultRecord
  dsimp only
  (repeat' split) <;> simp

@[simp] theorem State.enterAt_canonical (s : State) (c : CoreId) (t : Trap) (resume : Word) (ls : List Level)
    (hs : MemoryCanonical s) : MemoryCanonical (s.enterAt c t resume ls) := by
  induction ls generalizing t with
  | nil => simp [State.enterAt, hs]
  | cons l ls ih =>
    unfold State.enterAt
    dsimp only
    split
    · exact ih t
    · split
      · exact ih _
      · simp [hs]

@[simp] theorem State.enterIf_canonical (s : State) (c : CoreId) (t : Trap) (resume : Word) (hs : MemoryCanonical s) :
    MemoryCanonical (s.enterIf c t resume) := by simp [State.enterIf, hs]

@[simp] theorem State.tryEnter_canonical (s : State) (c : CoreId) (hs : MemoryCanonical s) : MemoryCanonical (s.tryEnter c) := by
  unfold State.tryEnter
  dsimp only
  (repeat' split) <;> simp [hs]

@[simp] theorem State.asParty_canonical (s : State) (c : CoreId) (party : ℕ) :
    MemoryCanonical (s.asParty c party) ↔ MemoryCanonical s := by simp [State.asParty]

@[simp] theorem State.askWalk_canonical (s : State) (c : CoreId) (hi : Byte) (va : Word) (party : ℕ) :
    MemoryCanonical (s.askWalk c hi va party) ↔ MemoryCanonical s := by simp [State.askWalk]

theorem State.grant_canonical {s t : State} (p : PartId) (d : DieId) (m : Fin 4) (n : ℕ) (h : s.grant p d m n = some t) :
    MemoryCanonical t ↔ MemoryCanonical s := by
  unfold State.grant at h
  dsimp only at h
  (repeat' split at h) <;> cases h <;> simp

theorem State.spineOn_canonical {s t : State} (p : PartId) (ds : List DieId) (n : ℕ) (h : s.spineOn p ds n = some t) :
    MemoryCanonical t ↔ MemoryCanonical s := by
  unfold State.spineOn at h
  induction ds generalizing s with
  | nil => cases h; rfl
  | cons d ds ih =>
    rw [List.foldl_cons, Option.bind_some] at h
    cases hg : s.grant p d 1 n with
    | none =>
      have hnone (ds : List DieId) : ds.foldl (fun s d => s.bind fun s => State.grant s p d 1 n) (none : Option State) = none := by
        induction ds <;> simp_all
      rw [hg, hnone] at h
      cases h
    | some u => rw [hg] at h; rw [ih h, State.grant_canonical p d 1 n hg]

theorem State.spineGrant_canonical {s t : State} (p : PartId) (c : CoreId) (ds : List Dest) (n : ℕ)
    (h : s.spineGrant p c ds n = some t) : MemoryCanonical t ↔ MemoryCanonical s := State.spineOn_canonical p _ n h

@[simp] theorem State.takeNat_canonical (s : State) : MemoryCanonical (s.takeNat).2 ↔ MemoryCanonical s := Iff.rfl

theorem State.homeGrant_canonical {s t : State} (p : PartId) (a n : ℕ) (cmp : Bool) (h : s.homeGrant p a n cmp = some t) :
    MemoryCanonical t ↔ MemoryCanonical s := by
  simp only [State.homeGrant, Option.ite_none_left_eq_some] at h
  rw [State.grant_canonical _ _ _ _ h.2, State.takeNat_canonical]

theorem State.replyGrant_canonical {s t : State} (p : PartId) (c : CoreId) (a n : ℕ) (h : s.replyGrant p c a n = some t) :
    MemoryCanonical t ↔ MemoryCanonical s := State.spineOn_canonical p _ _ h

@[simp] theorem State.takeWord_canonical (s : State) : MemoryCanonical (s.takeWord).2 ↔ MemoryCanonical s := Iff.rfl

@[simp] theorem State.takeBytes_canonical (n : ℕ) (s : State) : MemoryCanonical (State.takeBytes n s).2 ↔ MemoryCanonical s := by
  induction n generalizing s with
  | zero => rfl
  | succ n ih => simp [State.takeBytes, ih]

@[simp] theorem State.modPort_canonical (s : State) (q : PortId) (f : Port → Port) :
    MemoryCanonical (s.modPort q f) ↔ MemoryCanonical s := Iff.rfl

@[simp] theorem State.transmit_canonical (s : State) (q : PortId) (p : PartId) (type_ dchip : ℕ) (udesc : List ℕ) :
    MemoryCanonical (s.transmit q p type_ dchip udesc) ↔ MemoryCanonical s := by simp [State.transmit]

theorem State.portGrant_canonical {s t : State} (p : PartId) (c : CoreId) (q : PortId) (n : ℕ)
    (h : s.portGrant p c q n = some t) : MemoryCanonical t ↔ MemoryCanonical s := by
  simp only [State.portGrant, Option.ite_none_left_eq_some] at h
  exact State.grant_canonical _ _ _ _ h.2

@[simp] theorem State.dropFreeze_canonical (s : State) (c : CoreId) (party : Fin 4) (hs : MemoryCanonical s) :
    MemoryCanonical (s.dropFreeze c party) := by simp [State.dropFreeze, hs]

@[simp] theorem State.pokeWords_canonical (s : State) (a : ℕ) (ws : List Word) (hs : MemoryCanonical s) :
    MemoryCanonical (s.pokeWords a ws) := by
  induction ws generalizing s a with
  | nil => exact hs
  | cons w ws ih => exact ih _ _ (s.pokeWord_canonical a w hs)

@[simp] theorem State.newGuard_canonical (s : State) (p : PartId) (route : ℕ) (x : Drop) (d : Dest) (type : ℕ) (hs : MemoryCanonical s) :
    MemoryCanonical (s.newGuard p route x d type) := by simp [State.newGuard, hs]

@[simp] theorem State.guardRecord_canonical (s : State) (c : CoreId) (party : Fin 4) (p : PartId) (x : Drop) (d : Dest) (type : ℕ)
    (hs : MemoryCanonical s) :
    MemoryCanonical (s.guardRecord c party p x d type) := by
  unfold State.guardRecord
  dsimp only
  (repeat' split) <;> simp [hs]

@[simp] theorem State.takeWords_canonical (s : State) (n : ℕ) : MemoryCanonical (s.takeWords n).2 ↔ MemoryCanonical s := by
  induction n generalizing s with
  | zero => rfl
  | succ n ih => simp [State.takeWords, ih]

@[simp] theorem State.readFar_canonical (s : State) (a n : ℕ) (cmp : Bool) : MemoryCanonical (s.readFar a n cmp).2 ↔ MemoryCanonical s := by
  unfold State.readFar
  split <;> simp

@[simp] theorem State.takeTrap_canonical (s : State) (c : CoreId) (t : Trap) (resume : Word) (hs : MemoryCanonical s) :
    MemoryCanonical (s.takeTrap c t resume) := by simp [State.takeTrap, hs]

@[simp] theorem State.retire_canonical (s : State) (h : Hdr) (lat : Option ℕ) (d : Done) :
    MemoryCanonical (s.retire h lat d) ↔ MemoryCanonical s := by simp [State.retire]

/-- A word keeps memory canonical where its own effect does (R138). -/
@[simp] theorem State.issue_canonical {s : State} {i : Instr} {h : Hdr} {u : Use} {eff : State → Outcome} (hs : MemoryCanonical s)
    (he : OutcomeCanonical (eff s)) : OutcomeCanonical (s.issue i h u eff) := by
  unfold State.issue
  split
  · simp [hs]
  · simp [hs]
  · simp [hs]
  · exact he

end Sys2Proof.Machine

end

section

/-! ## O59: fills that begin, and the reads of the engines and of the front end

A read may wait or trap; `EngRead.state`, `SrcRead.state` and `Fetched.state` name the state it goes on with. -/

namespace Sys2Proof.Machine

-- `simp` discharges the side conditions of the conditional frame rules by `rfl` rules, which unify only above reducible transparency.
set_option backward.isDefEq.respectTransparency false

/-- The core with which a fill that has begun, or is only counted, goes on. -/
def Fill.core : Fill → Option Core
  | .ok _ k => some k
  | .kept k => some k
  | .busy _ => none

theorem Core.beginFill_store {k l : Core} {q : RingId} {who : Holder} {now : ℕ} (h : (k.beginFill q who now).core = some l) :
    l.store = k.store := by
  unfold Core.beginFill at h
  dsimp only at h
  (repeat' split at h) <;> cases h <;> simp

theorem Core.beginFill_ok_store {k l : Core} {q : RingId} {who : Holder} {now i : ℕ} (h : k.beginFill q who now = .ok i l) :
    l.store = k.store := Core.beginFill_store (congrArg Fill.core h)

theorem Core.beginFill_kept_store {k l : Core} {q : RingId} {who : Holder} {now : ℕ} (h : k.beginFill q who now = .kept l) :
    l.store = k.store := Core.beginFill_store (congrArg Fill.core h)

theorem Core.beginTile_store {k l : Core} {q : RingId} {e : EntryNo} {slot : Option (Option ℕ)} {now : ℕ} {i : Option ℕ}
    (h : k.beginTile q e slot now = .ok i l) : l.store = k.store := by
  unfold Core.beginTile at h
  split at h
  · cases h; rfl
  · split at h <;> cases h
    case h_1 hf => exact Core.beginFill_ok_store hf
    case h_2 hf => exact Core.beginFill_kept_store hf

theorem Core.beginSlots_store {k l : Core} {e : EntryNo} {now : ℕ} {i : Option ℕ} (h : k.beginSlots e now = .ok i l) :
    l.store = k.store := by
  unfold Core.beginSlots at h
  dsimp only at h
  split at h
  · cases h
  case h_2 hd =>
    split at h
    · cases h
      simpa using Core.beginTile_store hd
    · split at h
      · cases h
      case h_2 hc =>
        cases h
        rw [Core.modCopy_store, Core.beginTile_store hc, Core.beginTile_store hd]

theorem Core.demand_store {k l : Core} {e : EntryNo} {y : Blk} {now : ℕ} (h : k.demand e y now = .go l) : l.store = k.store := by
  unfold Core.demand at h
  dsimp only at h
  (repeat' split at h) <;> cases h
  · rfl
  case h_1 hb => exact Core.beginSlots_store hb
  · rfl

theorem Core.takeTile_store {k l : Core} {e : EntryNo} (h : k.takeTile e = .ok l) : l.store = k.store := by
  unfold Core.takeTile at h
  dsimp only at h
  (repeat' split at h) <;> cases h <;> simp

theorem State.readGrant_canonical {s t : State} {c : CoreId} {a n : ℕ} {cmp : Bool} (h : s.readGrant c a n cmp = .ok t) :
    MemoryCanonical t ↔ MemoryCanonical s := by
  unfold State.readGrant at h
  dsimp only at h
  split at h
  · cases h
  · split at h
    case h_2 => cases h
    case h_1 hr =>
      cases h
      split at hr
      · simp only [Option.bind_eq_some_iff] at hr
        obtain ⟨u, ⟨v, hv, hu⟩, ht⟩ := hr
        rw [State.replyGrant_canonical _ _ _ _ ht, State.homeGrant_canonical _ _ _ _ hu, State.spineGrant_canonical _ _ _ _ hv]
      · split at hr
        · cases hr
        · simp only [Option.map_eq_some_iff, Option.bind_eq_some_iff] at hr
          obtain ⟨u, ⟨v, hv, hu⟩, rfl⟩ := hr
          rw [State.transmit_canonical, State.portGrant_canonical _ _ _ _ hu, State.spineGrant_canonical _ _ _ _ hv]

theorem State.readOwn_canonical {s t : State} {c : CoreId} {b : Option Buf} {mark a n : ℕ} {cmp bad : Bool} {bs : List Byte}
    (h : s.readOwn c b mark a n cmp = some (bs, bad, t)) : MemoryCanonical t ↔ MemoryCanonical s := by
  unfold State.readOwn at h
  dsimp only at h
  split at h
  · cases h
  · cases h
    (repeat' split) <;> simp

/-- The state after a read of an engine. -/
@[simp] def EngRead.state : EngRead → State
  | .wait s => s
  | .trap _ _ s => s
  | .ok _ _ s => s

/-- A read of an engine writes memory only in the records of a guard. -/
theorem State.readPieces_canonical {s : State} (c : CoreId) (party : Fin 4) (b : Option Buf) (mark : ℕ) (ps : List Piece)
    (bs : List Byte) (bad : Option Word) (hs : MemoryCanonical s) :
    MemoryCanonical (s.readPieces c party b mark ps bs bad).state := by
  induction ps generalizing s bs bad with
  | nil => exact hs
  | cons p ps ih =>
    unfold State.readPieces
    split
    · simp [hs]
    · exact hs
    case h_3 t ht =>
      have ht : MemoryCanonical t := by
        split at ht
        · cases ht; exact hs
        · split at ht
          · cases ht
          · exact (State.readGrant_canonical ht).2 hs
      split
      · exact ht
      case h_2 hu => exact ih _ _ ((State.readOwn_canonical hu).2 ht)

theorem State.engineReadAll_canonical {s : State} {c : CoreId} {party : ℕ} {lv : Level} {hi : Byte} {acc : Access} {mark : ℕ}
    {sp : Space} {xs : List (Word × ℕ)} {r : EngRead} (h : s.engineReadAll c party lv hi acc mark sp xs = r)
    (hs : MemoryCanonical s) : MemoryCanonical r.state := by
  subst h
  unfold State.engineReadAll
  split
  · simp [hs]
  · simp [hs]
  · exact State.readPieces_canonical _ _ _ _ _ _ _ hs

theorem State.engineRead_canonical {s : State} {c : CoreId} {party : ℕ} {lv : Level} {hi : Byte} {acc : Access} {mark : ℕ}
    {sp : Space} {a : Word} {n : ℕ} {r : EngRead} (h : s.engineRead c party lv hi acc mark sp a n = r)
    (hs : MemoryCanonical s) : MemoryCanonical r.state := State.engineReadAll_canonical h hs

theorem State.feltRead_canonical {s : State} {c : CoreId} {a : Word} {n : ℕ} {r : EngRead} (h : s.feltRead c a n = r)
    (hs : MemoryCanonical s) : MemoryCanonical r.state := State.engineReadAll_canonical h hs

theorem State.bitmapRead_canonical {s : State} {c : CoreId} {cmp2 : Bool} {off : ℕ} {r : EngRead} (h : s.bitmapRead c cmp2 off = r)
    (hs : MemoryCanonical s) : MemoryCanonical r.state := by
  subst h
  unfold State.bitmapRead
  split
  case h_1 hr =>
    have ht := State.feltRead_canonical hr hs
    dsimp only [EngRead.state] at ht
    split
    · split
      case h_1 hr =>
        have hu := State.feltRead_canonical hr ht
        exact hu
      case h_2 => exact State.feltRead_canonical rfl ht
    · exact ht
  case h_2 => exact State.feltRead_canonical rfl hs

theorem State.feltPieces_canonical {s : State} (c : CoreId) (ps : List (Word × ℕ)) (hs : MemoryCanonical s) :
    MemoryCanonical (s.feltPieces c ps).1.state := by
  induction ps generalizing s with
  | nil => exact hs
  | cons p ps ih =>
    unfold State.feltPieces
    split
    case h_1 hr =>
      have ht := ih (State.feltRead_canonical hr hs)
      dsimp only [EngRead.state] at ht
      split
      case h_1 hp => rw [hp] at ht; exact ht
      case h_2 => exact ht
    case h_2 => exact State.feltRead_canonical rfl hs

theorem State.loadValues_canonical {s : State} {c : CoreId} {h : Felt} {voff half n : ℕ}
    {mk : List (ℕ × Bool) → List (ℕ × Bool)} {r : EngRead} {f : List Byte → BlockData} (e : s.loadValues c h voff half n mk = (r, f))
    (hs : MemoryCanonical s) : MemoryCanonical r.state := by
  cases e
  exact State.feltPieces_canonical c _ hs

/-- The state after a copy's read of its source. -/
@[simp] def SrcRead.state : SrcRead → State
  | .wait s => s
  | .fault _ _ s => s
  | .ok _ _ _ s => s

theorem EngRead.source_canonical {r : EngRead} {k : List Byte → Option Word → State → SrcRead} (hr : MemoryCanonical r.state)
    (hk : ∀ bs bad t, MemoryCanonical t → MemoryCanonical (k bs bad t).state) : MemoryCanonical (r.source k).state := by
  cases r with
  | wait s => exact hr
  | trap c a s => exact hr
  | ok bs bad s => exact hk bs bad s hr

theorem State.copyScale_canonical {s : State} {c : CoreId} {e : EntryNo} {x : CopyEntry} {y : Blk} {r : SrcRead}
    (h : s.copyScale c e x y = r) (hs : MemoryCanonical s) : MemoryCanonical r.state := by
  subst h
  unfold State.copyScale
  dsimp only
  split
  · exact hs
  · split
    · split
      · split <;> exact hs
      · exact hs
    · exact EngRead.source_canonical (State.engineRead_canonical rfl hs) fun _ _ _ ht => ht

theorem State.copySource_canonical {s : State} {c : CoreId} {e : EntryNo} {x : CopyEntry} {y : Blk} {r : SrcRead}
    (h : s.copySource c e x y = r) (hs : MemoryCanonical s) : MemoryCanonical r.state := by
  subst h
  unfold State.copySource
  dsimp only
  split
  · split
    · split
      · exact hs
      · split <;> exact hs
    · exact hs
  · refine EngRead.source_canonical (State.engineReadAll_canonical rfl hs) fun bs bad t ht => ?_
    split
    · split
      · exact ht
      · exact EngRead.source_canonical (State.engineReadAll_canonical rfl ht) fun _ _ _ hu => hu
    · exact ht

theorem State.readLine_canonical {s : State} {c : CoreId} {ps : List (ℕ × ℕ × Bool)} {bs : List Byte} {r : State ⊕ List Byte × State}
    (h : s.readLine c ps bs = r) (hs : MemoryCanonical s) : MemoryCanonical (r.elim id Prod.snd) := by
  subst h
  induction ps generalizing s bs with
  | nil => exact hs
  | cons p ps ih =>
    unfold State.readLine
    split
    · simp [hs]
    · exact hs
    case h_3 t ht =>
      refine ih ((State.readFar_canonical ..).2 ?_)
      split at ht
      · cases ht; exact hs
      · exact (State.readGrant_canonical ht).2 hs

/-- The state after a fetch. -/
@[simp] def Fetched.state : Fetched → State
  | .stall s => s
  | .trap _ s => s
  | .word _ s => s

theorem State.fetchLine_canonical {s : State} {c : CoreId} {va : Word} {r : Fetched ⊕ List Byte × State} (h : s.fetchLine c va = r)
    (hs : MemoryCanonical s) : MemoryCanonical (r.elim Fetched.state Prod.snd) := by
  subst h
  unfold State.fetchLine
  dsimp only
  split
  · simp [hs]
  · simp [hs]
  · split
    case h_1 hr => exact State.readLine_canonical hr hs
    case h_2 hr => exact State.readLine_canonical hr hs

theorem State.fetch_canonical {s : State} {c : CoreId} {refetch : Bool} {r : Fetched} (h : s.fetch c refetch = r)
    (hs : MemoryCanonical s) : MemoryCanonical r.state := by
  subst h
  unfold State.fetch
  dsimp only
  split
  · simp [hs]
  · split
    · exact hs
    · split
      case h_1 hr => exact State.fetchLine_canonical hr hs
      case h_2 hr => simpa using State.fetchLine_canonical hr hs

end Sys2Proof.Machine

end

section

/-! ## O59: the words of a front end -/

namespace Sys2Proof.Machine

-- `simp` discharges the side conditions of the conditional frame rules by `rfl` rules, which unify only above reducible transparency.
set_option backward.isDefEq.respectTransparency false

@[simp] theorem State.scalarOp_canonical (s : State) (i : Instr) (h : Hdr) (lat : ℕ) (srcs : List (Reg × Fin 4)) (locks : List Reg)
    (d : SReg) (f : Front → Word) (hs : MemoryCanonical s) :
    OutcomeCanonical (s.scalarOp i h lat srcs locks d f) := by simp [State.scalarOp, hs]

@[simp] theorem State.scalar2_canonical (s : State) (i : Instr) (h : Hdr) (lat : ℕ) (d a b : SReg) (f : Word → Word → Word)
    (hs : MemoryCanonical s) :
    OutcomeCanonical (s.scalar2 i h lat d a b f) := by simp [State.scalar2, hs]

@[simp] theorem State.scalar1_canonical (s : State) (i : Instr) (h : Hdr) (lat : ℕ) (d a : SReg) (f : Word → Word)
    (hs : MemoryCanonical s) :
    OutcomeCanonical (s.scalar1 i h lat d a f) := by simp [State.scalar1, hs]

@[simp] theorem State.shiftOp_canonical (s : State) (i : Instr) (h : Hdr) (w : IWidth) (d a : SReg) (n : ShAmt)
    (f : {n : ℕ} → BitVec n → ℕ → BitVec n) (hs : MemoryCanonical s) :
    OutcomeCanonical (s.shiftOp i h w d a n f) := by
  unfold State.shiftOp
  split <;> simp [hs]

@[simp] theorem State.fpOp_canonical (s : State) (i : Instr) (h : Hdr) (rm : Rnd) (srcs : List (Reg × Fin 4)) (locks : List Reg)
    (d : SReg) (f : Front → RMode → ℕ → Word × FFlags) (hs : MemoryCanonical s) :
    OutcomeCanonical (s.fpOp i h rm srcs locks d f) := by simp [State.fpOp, hs]

@[simp] theorem State.trapHere_canonical (s : State) (cause : Cause) (info : Word) (hs : MemoryCanonical s) :
    MemoryCanonical (s.trapHere cause info) := by simp [State.trapHere, hs]

@[simp] theorem State.transfer_canonical (s : State) (h : Hdr) (lat : Option ℕ) (t : Word) (d : Done) (hs : MemoryCanonical s) :
    OutcomeCanonical (s.transfer h lat t d) := by simp [State.transfer, hs]

@[simp] theorem State.setLoops_canonical (s : State) (f : Loops → Loops) :
    MemoryCanonical (s.setLoops f) ↔ MemoryCanonical s := by simp [State.setLoops]

@[simp] theorem State.startLoop_canonical (s : State) (h : Hdr) (set1 : Bool) (count : Word) (off : BitVec 32) (hs : MemoryCanonical s) :
    OutcomeCanonical (s.startLoop h set1 count off) := by simp [State.startLoop, hs]

@[simp] theorem State.modLaunch_canonical (s : State) (p : PartId) (n : ℕ) (f : Launch → Launch) :
    MemoryCanonical (s.modLaunch p n f) ↔ MemoryCanonical s := Iff.rfl

@[simp] theorem State.endIteration_canonical (s : State) (c : CoreId) : MemoryCanonical (s.endIteration c) ↔ MemoryCanonical s := by
  unfold State.endIteration
  dsimp only
  (repeat' split) <;> simp

@[simp] theorem State.userTrap_canonical (s : State) (h : Hdr) (info : Word) (hs : MemoryCanonical s) :
    OutcomeCanonical (s.userTrap h info) := by simp [State.userTrap, hs]

@[simp] theorem State.setWait_canonical (s : State) (c : CoreId) (w : FWait) :
    MemoryCanonical (s.setWait c w) ↔ MemoryCanonical s := by simp [State.setWait]

@[simp] theorem State.laneOp_canonical (s : State) (i : Instr) (h : Hdr) (lat : ℕ) (srcs : List (Reg × Fin 4)) (locks : List Reg)
    (d : VReg) (rm : Rnd) (n : ℕ) (f : Front → RMode → ℕ → Lane × FFlags) (feature : ℕ) (hs : MemoryCanonical s) :
    OutcomeCanonical (s.laneOp i h lat srcs locks d rm n f feature) := by simp [State.laneOp, hs]

@[simp] theorem State.elem2_canonical (s : State) (i : Instr) (h : Hdr) (t : VTy) (rm : Rnd) (d a b : VReg) (ff : Num → Num → Num × Bool)
    (fi : ℤ → ℤ → ℤ) (hs : MemoryCanonical s) :
    OutcomeCanonical (s.elem2 i h t rm d a b ff fi) := by simp [State.elem2, hs]

@[simp] theorem State.elem3_canonical (s : State) (i : Instr) (h : Hdr) (t : FTy) (rm : Rnd) (d a b c : VReg)
    (ff : Num → Num → Num → Num × Bool) (hs : MemoryCanonical s) :
    OutcomeCanonical (s.elem3 i h t rm d a b c ff) := by simp [State.elem3, hs]

@[simp] theorem State.lane2_canonical (s : State) (i : Instr) (h : Hdr) (lat : ℕ) (d a b : VReg) (f : Lane → Lane → Lane × FFlags)
    (hs : MemoryCanonical s) :
    OutcomeCanonical (s.lane2 i h lat d a b f) := by simp [State.lane2, hs]

@[simp] theorem State.lane1_canonical (s : State) (i : Instr) (h : Hdr) (lat : ℕ) (d a : VReg) (f : Lane → Lane) (hs : MemoryCanonical s) :
    OutcomeCanonical (s.lane1 i h lat d a f) := by simp [State.lane1, hs]

@[simp] theorem State.vshift_canonical (s : State) (i : Instr) (h : Hdr) (t : ITy) (d a : VReg) (n : VShAmt) (f : ℕ → ℕ → ℕ → ℕ)
    (hs : MemoryCanonical s) :
    OutcomeCanonical (s.vshift i h t d a n f) := by
  unfold State.vshift
  split <;> simp [hs]

@[simp] theorem State.specialOp_canonical (s : State) (i : Instr) (h : Hdr) (rm : Rnd) (d a : VReg) (f : RMode → ℕ → Lane → Lane × FFlags)
    (hs : MemoryCanonical s) :
    OutcomeCanonical (s.specialOp i h rm d a f) := by simp [State.specialOp, hs]

@[simp] theorem execVbcast_canonical (h : Hdr) (d : VReg) (a : VBcastSrc) (s : State) (hs : MemoryCanonical s) :
    OutcomeCanonical (execVbcast h d a s) := by
  unfold execVbcast
  split <;> simp [hs]

@[simp] theorem execVmov_canonical (h : Hdr) (f : VMovForm) (s : State) (hs : MemoryCanonical s) : OutcomeCanonical (execVmov h f s) := by
  unfold execVmov
  split <;> simp [hs]

@[simp] theorem State.reduceOp_canonical (s : State) (i : Instr) (h : Hdr) (d : SReg) (a : VReg) (c : PReg)
    (f : VecWord → Word → Word × FFlags) (hs : MemoryCanonical s) :
    OutcomeCanonical (s.reduceOp i h d a c f) := by simp [State.reduceOp, hs]

@[simp] theorem State.convOp_canonical (s : State) (i : Instr) (h : Hdr) (t : CvtTy) (srcs : List (Reg × Fin 4)) (d : VReg) (rm : Rnd)
    (n : ℕ) (f : Front → RMode → ℕ → Lane × FFlags) (hs : MemoryCanonical s) :
    OutcomeCanonical (s.convOp i h t srcs d rm n f) := by simp [State.convOp, hs]

@[simp] theorem State.predOp_canonical (s : State) (i : Instr) (h : Hdr) (srcs : List (Reg × Fin 4)) (d : Reg) (f : Front → Word)
    (hs : MemoryCanonical s) :
    OutcomeCanonical (s.predOp i h srcs d f) := by simp [State.predOp, hs]

@[simp] theorem execPset_canonical (h : Hdr) (d : PReg) (f : PSetForm) (s : State) (hs : MemoryCanonical s) :
    OutcomeCanonical (execPset h d f s) := by
  unfold execPset
  split <;> simp [hs]

@[simp] theorem State.foresee_canonical (s : State) (c : CoreId) (hi : Byte) (xs : List (Word × ℕ)) :
    MemoryCanonical (s.foresee c hi xs) ↔ MemoryCanonical s := by simp [State.foresee]

/-- A memory word keeps memory canonical where what it does with its pieces does. -/
theorem State.withMem_canonical {s : State} {sp : Space} {acc : Access} {align : ℕ} {xs : List (Word × ℕ)}
    {k : State → List (List Piece) → Option Need → Outcome} {deny blocks : Bool} {stream : Access} (hs : MemoryCanonical s)
    (hk : ∀ t ps need, MemoryCanonical t → OutcomeCanonical (k t ps need)) :
    OutcomeCanonical (s.withMem sp acc align xs k deny blocks stream) := by
  have hask (a : Word) : MemoryCanonical (s.askWalk s.cur s.me.live.front.at_.vahi a stream.stream) := by simp [hs]
  unfold State.withMem
  dsimp only
  split
  · exact (outcomeCanonical_next s).2 hs
  · split
    · exact hk _ _ _ hs
    · split
      · split
        · exact (outcomeCanonical_next _).2 (hask _)
        · exact hk _ _ _ (hask _)
      · exact (outcomeCanonical_next _).2 (hask _)
    · simp [hs]

@[simp] theorem State.loadWord_canonical (s : State) (h : Hdr) (dst : Reg) (mask : VecWord) (kind : LoadKind) (sp : Space)
    (us : List LoadUnit) (acq : Option Scope) (lat : ℕ) (need : Option Need) (hs : MemoryCanonical s) :
    OutcomeCanonical (s.loadWord h dst mask kind sp us acq lat need) := by simp [State.loadWord, hs]

@[simp] theorem State.scalarLoad_canonical (s : State) (i : Instr) (h : Hdr) (d base : SReg) (sp : Space) (wd : MWidth) (sx : Bool)
    (off : BitVec 24) (align : ℕ) (acq : Option Scope) (hs : MemoryCanonical s) :
    OutcomeCanonical (s.scalarLoad i h d base sp wd sx off align acq) :=
  State.issue_canonical hs (State.withMem_canonical hs fun _ _ _ ht => State.loadWord_canonical _ _ _ _ _ _ _ _ _ _ ht)

@[simp] theorem State.storeWord_canonical (s : State) (h : Hdr) (act : StoreAct) (rel : Option Scope) (need : Option Need)
    (hs : MemoryCanonical s) :
    OutcomeCanonical (s.storeWord h act rel need) := by simp [State.storeWord, hs]

@[simp] theorem State.scalarStore_canonical (s : State) (i : Instr) (h : Hdr) (data base : SReg) (sp : Space) (wd : MWidth)
    (off : BitVec 24) (align : ℕ) (rel : Option Scope) (hs : MemoryCanonical s) :
    OutcomeCanonical (s.scalarStore i h data base sp wd off align rel) :=
  State.issue_canonical hs (State.withMem_canonical hs fun _ _ _ ht => State.storeWord_canonical _ _ _ _ _ ht)

@[simp] theorem State.vectorLoad_canonical (s : State) (i : Instr) (h : Hdr) (d : VReg) (base : SReg) (locks : List Reg) (sp : Space)
    (addr : Front → ℕ → Word) (gather : Bool) (hs : MemoryCanonical s) :
    OutcomeCanonical (s.vectorLoad i h d base locks sp addr gather) :=
  State.issue_canonical hs (State.withMem_canonical hs fun _ _ _ ht => State.loadWord_canonical _ _ _ _ _ _ _ _ _ _ ht)

@[simp] theorem State.vectorStore_canonical (s : State) (i : Instr) (h : Hdr) (data : VReg) (base : SReg) (locks : List Reg)
    (sp : Space) (comb : Comb) (addr : Front → ℕ → Word) (hs : MemoryCanonical s) :
    OutcomeCanonical (s.vectorStore i h data base locks sp comb addr) := by
  refine State.issue_canonical hs (State.withMem_canonical hs fun t ps need ht => ?_)
  split <;> simp [ht]

@[simp] theorem State.atomicWord_canonical (s : State) (h : Hdr) (d : SReg) (t : TagId) (scope : Scope) (ord : Ord) (r : Req) (addr : ℕ)
    (need : Option Need) (hs : MemoryCanonical s) :
    OutcomeCanonical (s.atomicWord h d t scope ord r addr need) := by simp [State.atomicWord, hs]

@[simp] theorem execAmo_canonical (h : Hdr) (d base : SReg) (dbl : Bool) (scope : Scope) (ord : Ord) (op : AmoOp) (u : Bool)
    (off : BitVec 24) (s : State) (hs : MemoryCanonical s) : OutcomeCanonical (execAmo h d base dbl scope ord op u off s) :=
  State.issue_canonical hs (State.withMem_canonical hs fun _ _ _ ht => State.atomicWord_canonical _ _ _ _ _ _ _ _ _ ht)

@[simp] theorem execCas_canonical (h : Hdr) (d base : SReg) (dbl : Bool) (scope : Scope) (ord : Ord) (off : BitVec 24) (s : State)
    (hs : MemoryCanonical s) : OutcomeCanonical (execCas h d base dbl scope ord off s) :=
  State.issue_canonical hs (State.withMem_canonical hs fun _ _ _ ht => State.atomicWord_canonical _ _ _ _ _ _ _ _ _ ht)

theorem State.recordWord_canonical {s : State} {i : Instr} {h : Hdr} {srcs : List (Reg × Fin 4)} {base : SReg} {off : BitVec 24}
    {align : ℕ} {deny : State → Bool} {k : State → ℕ → Word → Option Need → Outcome} {blocks : Bool} (hs : MemoryCanonical s)
    (hk : ∀ t a va need, MemoryCanonical t → OutcomeCanonical (k t a va need)) :
    OutcomeCanonical (s.recordWord i h srcs base off align deny k blocks) :=
  State.issue_canonical hs (State.withMem_canonical hs fun t _ need ht => hk t _ _ need ht)

@[simp] theorem execCred_canonical (h : Hdr) (data base : SReg) (dbl : Bool) (scope : Scope) (ord : Ord) (op : AmoOp) (u : Bool)
    (cm1 : Fin 16) (off : BitVec 24) (s : State) (hs : MemoryCanonical s) :
    OutcomeCanonical (execCred h data base dbl scope ord op u cm1 off s) := by
  refine State.recordWord_canonical hs fun t a va need ht => ?_
  have hw (act : StoreAct) (rel : Option Scope) : OutcomeCanonical (t.storeWord h act rel need) :=
    State.storeWord_canonical _ _ _ _ _ ht
  dsimp only
  split
  case h_1 u hu =>
    have hu := hw _ _ u hu
    split <;> simp [hu]
  case h_2 => exact hw _ _

@[simp] theorem execBarInit_canonical (h : Hdr) (data base : SReg) (scope : Scope) (off : BitVec 24) (s : State) (hs : MemoryCanonical s) :
    OutcomeCanonical (execBarInit h data base scope off s) :=
  State.recordWord_canonical hs fun _ _ _ _ ht => State.storeWord_canonical _ _ _ _ _ ht

@[simp] theorem execBarArrive_canonical (h : Hdr) (base : SReg) (rel : Bool) (scope : Scope) (off : BitVec 24) (s : State)
    (hs : MemoryCanonical s) :
    OutcomeCanonical (execBarArrive h base rel scope off s) :=
  State.recordWord_canonical hs fun _ _ _ _ ht => State.storeWord_canonical _ _ _ _ _ ht

@[simp] theorem execBarWait_canonical (h : Hdr) (base : SReg) (scope : Scope) (ph : PhSrc) (off : BitVec 24) (s : State)
    (hs : MemoryCanonical s) :
    OutcomeCanonical (execBarWait h base scope ph off s) := by
  unfold execBarWait
  dsimp only
  refine State.recordWord_canonical hs fun t a va need ht => ?_
  (repeat' split) <;> simp [ht]

@[simp] theorem execGjoin_canonical (h : Hdr) (base : SReg) (off : BitVec 24) (s : State) (hs : MemoryCanonical s) :
    OutcomeCanonical (execGjoin h base off s) :=
  State.recordWord_canonical hs fun _ _ _ _ ht => State.storeWord_canonical _ _ _ _ _ ht

@[simp] theorem execGleave_canonical (h : Hdr) (base : SReg) (off : BitVec 24) (s : State) (hs : MemoryCanonical s) :
    OutcomeCanonical (execGleave h base off s) := by
  refine State.recordWord_canonical hs fun t a va need ht => ?_
  split <;> simp [ht]

@[simp] theorem execGbar_canonical (h : Hdr) (base : SReg) (scope : Scope) (off : BitVec 24) (s : State) (hs : MemoryCanonical s) :
    OutcomeCanonical (execGbar h base scope off s) := by
  refine State.recordWord_canonical hs fun t a va need ht => ?_
  dsimp only
  (repeat' split) <;> simp [ht]

@[simp] theorem execToks_canonical (h : Hdr) (sp sn : Bool) (s : State) (hs : MemoryCanonical s) :
    OutcomeCanonical (execToks h sp sn s) := by
  refine State.issue_canonical hs ?_
  split <;> simp [hs]

@[simp] theorem State.dispatch_canonical (s : State) (i : Instr) (h : Hdr) (srcs : List (Reg × Fin 4)) (locks : List Reg) (x : PoolQ)
    (t : Tok) (op : Front → QOp) (hs : MemoryCanonical s) :
    OutcomeCanonical (s.dispatch i h srcs locks x t op) := by simp [State.dispatch, hs]

@[simp] theorem State.deliver_canonical (s : State) (h : Hdr) (d : SReg) (lat : ℕ) (v : Word) :
    MemoryCanonical (s.deliver h d lat v) ↔ MemoryCanonical s := by simp [State.deliver]

@[simp] theorem execQdef_canonical (h : Hdr) (q : RingId) (a b : SReg) (s : State) (hs : MemoryCanonical s) :
    OutcomeCanonical (execQdef h q a b s) := by
  refine State.issue_canonical hs ?_
  dsimp only
  (repeat' split) <;> simp [hs]

@[simp] theorem execQfill_canonical (h : Hdr) (q : RingId) (a : SReg) (s : State) (hs : MemoryCanonical s) :
    OutcomeCanonical (execQfill h q a s) := by
  refine State.issue_canonical hs ?_
  dsimp only
  (repeat' split)
  · simp [hs]
  · simp [hs]
  · simp [hs]
  · simp [hs]
  case h_2 hf => simp [Core.beginFill_kept_store hf, State.me, hs]
  case h_3 hf => simp [Core.beginFill_ok_store hf, State.me, hs]

@[simp] theorem State.popSlot_canonical (s : State) (h : Hdr) (d : SReg) (q : RingId) (x : Taken) :
    MemoryCanonical (s.popSlot h d q x) ↔ MemoryCanonical s := by simp [State.popSlot]

@[simp] theorem execQpop_canonical (h : Hdr) (d : SReg) (q : RingId) (s : State) (hs : MemoryCanonical s) :
    OutcomeCanonical (execQpop h d q s) := by
  refine State.issue_canonical hs ?_
  (repeat' split) <;> simp [hs]

@[simp] theorem execQpopFree_canonical (h : Hdr) (d : SReg) (q : RingId) (s : State) (hs : MemoryCanonical s) :
    OutcomeCanonical (execQpopFree h d q s) := by
  refine State.issue_canonical hs ?_
  (repeat' split) <;> simp [hs]

@[simp] theorem execQtag_canonical (h : Hdr) (d : SReg) (q : RingId) (slot : Fin 64) (ptr : Bool) (s : State) (hs : MemoryCanonical s) :
    OutcomeCanonical (execQtag h d q slot ptr s) := by
  refine State.issue_canonical hs ?_
  dsimp only
  (repeat' split) <;> simp [hs]

theorem State.withEntry_canonical {s : State} {e : EntryNo} {k : State → CopyEntry → Outcome} (hs : MemoryCanonical s)
    (hk : ∀ x, OutcomeCanonical (k s x)) : OutcomeCanonical (s.withEntry e k) := by
  unfold State.withEntry
  dsimp only
  split
  · simp [hs]
  · simp [hs]
  · exact hk _

@[simp] theorem State.startCopy_canonical (s : State) (i : Instr) (h : Hdr) (e : EntryNo) (a b : SReg) (demand : Bool)
    (hs : MemoryCanonical s) : OutcomeCanonical (s.startCopy i h e a b demand) := by
  refine State.issue_canonical hs (State.withEntry_canonical hs fun x => ?_)
  dsimp only
  split
  · simp [hs]
  · split
    · simp [hs]
    · split
      · simp [hs]
      · split
        · exact State.withMem_canonical hs fun t ps need ht => by simp [ht]
        · simp [hs]

@[simp] theorem State.logCirc_canonical (s : State) (info : Option Word) :
    MemoryCanonical (s.logCirc info) ↔ MemoryCanonical s := by simp [State.logCirc]

@[simp] theorem State.circBounds_canonical (s : State) (w : Word) (hs : MemoryCanonical s) :
    MemoryCanonical (s.circBounds w) := by simp [State.circBounds, hs]

@[simp] theorem State.openCircuit_canonical (s : State) (h : Hdr) (n : CircNo) (q : RingId) (w : Word) (size members : ℕ)
    (hs : MemoryCanonical s) : OutcomeCanonical (s.openCircuit h n q w size members) := by
  unfold State.openCircuit
  dsimp only
  split
  · simp [hs]
  · split
    case h_1 t ht =>
      have hw := State.storeWord_canonical _ _ _ _ _ ((State.modCore_canonical _ _ _ Iff.rfl).2 ((s.logCirc_canonical none).2 hs)) t ht
      split <;> simp [hs, hw]
    case h_2 => simp [hs]

@[simp] theorem execCirc_canonical (h : Hdr) (n : CircNo) (q : RingId) (a b : SReg) (s : State) (hs : MemoryCanonical s) :
    OutcomeCanonical (execCirc h n q a b s) := by
  refine State.issue_canonical hs ?_
  dsimp only
  iterate 5
    split
    · simp [hs]
  split
  · simp [hs]
  split
  · simp [hs]
  split
  · simp [hs]
  split
  case h_1 hr => exact (outcomeCanonical_next _).2 (State.engineRead_canonical hr hs)
  case h_2 hr => exact (outcomeCanonical_next _).2 (State.trapHere_canonical _ _ _ (State.engineRead_canonical hr hs))
  case h_3 hr => exact (outcomeCanonical_next _).2 (State.trapHere_canonical _ _ _ (State.engineRead_canonical hr hs))
  case h_4 hr => exact State.openCircuit_canonical _ _ _ _ _ _ _ (State.engineRead_canonical hr hs)

@[simp] theorem execCcls_canonical (h : Hdr) (n : CircNo) (s : State) (hs : MemoryCanonical s) : OutcomeCanonical (execCcls h n s) := by
  refine State.issue_canonical hs ?_
  have hw (act : StoreAct) : OutcomeCanonical (s.storeWord h act none) := State.storeWord_canonical _ _ _ _ _ hs
  dsimp only
  split
  case h_1 t ht =>
    have ht := hw _ t ht
    split <;> simp [ht]
  case h_2 => exact hw _

@[simp] theorem execCstat_canonical (h : Hdr) (d : SReg) (circuit : Bool) (n : Fin 64) (s : State) (hs : MemoryCanonical s) :
    OutcomeCanonical (execCstat h d circuit n s) := by
  refine State.issue_canonical hs ?_
  split
  · simp [hs]
  · split
    · simp [hs]
    · exact State.withEntry_canonical hs fun x => by simp [hs]

@[simp] theorem State.walkFor_canonical (s : State) (h : Hdr) (d : SReg) (hs : MemoryCanonical s) :
    OutcomeCanonical (s.walkFor h d) := by simp [State.walkFor, hs]

@[simp] theorem execWdrive_canonical (h : Hdr) (d a : SReg) (s : State) (hs : MemoryCanonical s) :
    OutcomeCanonical (execWdrive h d a s) := by
  refine State.issue_canonical hs ?_
  dsimp only
  (repeat' split) <;> simp [hs]

@[simp] theorem execWdriveNew_canonical (h : Hdr) (d a : SReg) (s : State) (hs : MemoryCanonical s) :
    OutcomeCanonical (execWdriveNew h d a s) := by
  refine State.issue_canonical hs ?_
  dsimp only
  (repeat' split) <;> simp [hs]

@[simp] theorem execLaunch_canonical (h : Hdr) (d a : SReg) (q : QueueNo) (s : State) (hs : MemoryCanonical s) :
    OutcomeCanonical (execLaunch h d a q s) := by
  refine State.issue_canonical hs (State.withMem_canonical hs fun t ps need ht => ?_)
  dsimp only
  split
  · simp [ht]
  · split <;> simp [ht]

@[simp] theorem State.lwaitWord_canonical (s : State) (i : Instr) (h : Hdr) (d a : SReg) (test : Bool) (hs : MemoryCanonical s) :
    OutcomeCanonical (s.lwaitWord i h d a test) := by
  refine State.issue_canonical hs ?_
  dsimp only
  split
  · simp [hs]
  · refine State.withMem_canonical hs fun t ps need ht => ?_
    split <;> simp [ht]

@[simp] theorem State.readReg_canonical (s : State) (c : CoreId) (r : BitVec 12) :
    MemoryCanonical (s.readReg c r).2 ↔ MemoryCanonical s := by
  unfold State.readReg
  dsimp only
  (repeat' split) <;> simp

@[simp] theorem execPrd_canonical (h : Hdr) (r : BitVec 12) (d : SReg) (s : State) (hs : MemoryCanonical s) :
    OutcomeCanonical (execPrd h r d s) := by
  unfold execPrd
  simp [hs]

@[simp] theorem State.writeCoreCtl_canonical (s : State) (c : CoreId) (v : Word) (hs : MemoryCanonical s) :
    OptionCanonical (s.writeCoreCtl c v) := by
  simp [State.writeCoreCtl, hs]

@[simp] theorem State.writeFeed_canonical (s : State) (c : CoreId) (v : Word) :
    MemoryCanonical (s.writeFeed c v) ↔ MemoryCanonical s := by simp [State.writeFeed]

@[simp] theorem State.writeCore_canonical (s : State) (c : CoreId) (n : ℕ) (v : Word) (hs : MemoryCanonical s) :
    OptionCanonical (s.writeCore c n v) := by
  simp [State.writeCore, hs]

@[simp] theorem State.peekFar_canonical (s : State) (a n : ℕ) (cmp : Bool) :
    MemoryCanonical (s.peekFar a n cmp).2.2 ↔ MemoryCanonical s := by
  unfold State.peekFar
  split <;> simp

@[simp] theorem State.recWords_canonical (s : State) (a : ℕ) (cmp : Bool) :
    MemoryCanonical (s.recWords a cmp).2 ↔ MemoryCanonical s := by simp [State.recWords]

@[simp] theorem State.readContext_canonical (s : State) (asid : Byte) (acc : Access) (xs : List (ℕ × ℕ)) :
    MemoryCanonical (s.readContext asid acc xs).2 ↔ MemoryCanonical s := by
  induction xs generalizing s with
  | nil => rfl
  | cons x xs ih =>
    unfold State.readContext
    split
    · rfl
    · split
      · rfl
      · simp [ih]

@[simp] theorem State.codeLine_canonical (s : State) (asid vahi : Byte) (a : Word) :
    MemoryCanonical (s.codeLine asid vahi a).2 ↔ MemoryCanonical s := by simp [State.codeLine]

@[simp] theorem State.readEntry_canonical (s : State) (p : PartId) (q : QueueNo) (n : ℕ) :
    MemoryCanonical (s.readEntry p q n).2 ↔ MemoryCanonical s := by
  unfold State.readEntry
  dsimp only
  (repeat' split) <;> simp

@[simp] theorem State.modQueue_canonical (s : State) (p : PartId) (q : QueueNo) (f : LQueue → LQueue) :
    MemoryCanonical (s.modQueue p q f) ↔ MemoryCanonical s := Iff.rfl

@[simp] theorem State.noteHead_canonical (s : State) (p : PartId) (q : QueueNo) :
    MemoryCanonical (s.noteHead p q) ↔ MemoryCanonical s := by simp [State.noteHead]

@[simp] theorem State.rebuild_canonical (s : State) (p : PartId) (q : QueueNo) :
    MemoryCanonical (s.rebuild p q) ↔ MemoryCanonical s := by simp [State.rebuild]

@[simp] theorem State.queueWrite_canonical (s : State) (p : PartId) (q : QueueNo) (f : LQueue → LQueue) :
    MemoryCanonical (s.queueWrite p q f) ↔ MemoryCanonical s := by simp [State.queueWrite]

@[simp] theorem State.writeLqCfg_canonical (s : State) (p : PartId) (q : QueueNo) (v : Word) (hs : MemoryCanonical s) :
    OptionCanonical (s.writeLqCfg p q v) := by
  simp [State.writeLqCfg, hs]

@[simp] theorem State.pokeRec_canonical (s : State) (a : ℕ) (bs : List Byte) (cmp : Bool) (hs : MemoryCanonical s) :
    MemoryCanonical (s.pokeRec a bs cmp) := by simp [State.pokeRec, hs]

@[simp] theorem State.touch_canonical (s : State) (p : PartId) : MemoryCanonical (s.touch p) ↔ MemoryCanonical s := Iff.rfl

@[simp] theorem State.accept_canonical (s : State) (p : PartId) (q : QueueNo) (e : Enq) (w : List Word) (hs : MemoryCanonical s) :
    MemoryCanonical (s.accept p q e w) := by simp [State.accept, hs]

@[simp] theorem State.enqueue_canonical (s : State) (p : PartId) (q : QueueNo) (e : Enq) (hs : MemoryCanonical s) :
    MemoryCanonical (s.enqueue p q e).2 := by simp [State.enqueue, hs]

@[simp] theorem State.tie_canonical (s : State) (key route : ℕ) : MemoryCanonical (s.tie key route) ↔ MemoryCanonical s := Iff.rfl

@[simp] theorem State.doorbell_canonical (s : State) (p : PartId) (dev : Option CoreId) (v : Word) (hs : MemoryCanonical s) :
    MemoryCanonical (s.doorbell p dev v) := by
  unfold State.doorbell
  dsimp only
  (repeat' split) <;> simp [hs]

@[simp] theorem State.writeSwitchAt_canonical (s : State) (p : PartId) (v : Word) (hs : MemoryCanonical s) :
    OptionCanonical (s.writeSwitchAt p v) := by
  simp [State.writeSwitchAt, hs]

@[simp] theorem State.modLogs_canonical (s : State) (p : PartId) (f : PartLogs → PartLogs) :
    MemoryCanonical (s.modLogs p f) ↔ MemoryCanonical s := Iff.rfl

@[simp] theorem State.writeBudget_canonical (s : State) (p : PartId) (m : Fin 4) (v : Word) :
    MemoryCanonical (s.writeBudget p m v) ↔ MemoryCanonical s := Iff.rfl

@[simp] theorem State.writePart_canonical (s : State) (c : CoreId) (p : PartId) (n : ℕ) (v : Word) (hs : MemoryCanonical s) :
    OptionCanonical (s.writePart c p n v) := by
  simp [State.writePart, hs]

@[simp] theorem State.writeMdbase_canonical (s : State) (i : StackId) (v : Word) (hs : MemoryCanonical s) :
    OptionCanonical (s.writeMdbase i v) := by
  simp [State.writeMdbase, hs]

@[simp] theorem State.writePmap_canonical (s : State) (i : Fin 16) (v : Word) (hs : MemoryCanonical s) :
    OptionCanonical (s.writePmap i v) := by
  simp [State.writePmap, hs]

@[simp] theorem State.writePctl_canonical (s : State) (v : Word) (hs : MemoryCanonical s) :
    OptionCanonical (s.writePctl v) := by
  simp [State.writePctl, hs]

@[simp] theorem State.writeRtabx_canonical (s : State) (p : PartId) (v : Word) (hs : MemoryCanonical s) :
    OptionCanonical (s.writeRtabx p v) := by
  simp [State.writeRtabx, hs]

@[simp] theorem State.writePkg_canonical (s : State) (n : ℕ) (v : Word) (hs : MemoryCanonical s) :
    OptionCanonical (s.writePkg n v) := by
  simp only [State.writePkg, optionCanonical_ite, optionCanonical_some, memoryCanonical_record, writeMdbase_canonical, writePmap_canonical,
    writePctl_canonical, writeRtabx_canonical, hs, ite_self]

@[simp] theorem State.writeReg_canonical (s : State) (c : CoreId) (r : BitVec 12) (v : Word) (hs : MemoryCanonical s) :
    OptionCanonical (s.writeReg c r v) := by
  unfold State.writeReg
  dsimp only
  split <;> simp [hs]

@[simp] theorem execPwr_canonical (h : Hdr) (r : BitVec 12) (a : SReg) (s : State) (hs : MemoryCanonical s) :
    OutcomeCanonical (execPwr h r a s) := by
  refine State.issue_canonical hs ?_
  dsimp only
  split
  · simp [hs]
  · split
    case h_1 hw => simp [s.writeReg_canonical _ _ _ hs _ hw]
    case h_2 => simp [hs]

@[simp] theorem execTlbi_canonical (h : Hdr) (x : TlbScope) (k : TlbKind) (s : State) (hs : MemoryCanonical s) :
    OutcomeCanonical (execTlbi h x k s) := by
  unfold execTlbi
  (repeat' split) <;> simp [hs]

@[simp] theorem execCast_canonical (h : Hdr) (d : SReg) (f : CastField) (j : Fin 4) (s : State) (hs : MemoryCanonical s) :
    OutcomeCanonical (execCast h d f j s) := by
  unfold execCast
  simp [hs]

@[simp] theorem State.freezeWord_canonical (s : State) (i : Instr) (h : Hdr) (f : FreezeSel) (a : SReg) (thaw : Bool)
    (hs : MemoryCanonical s) :
    OutcomeCanonical (s.freezeWord i h f a thaw) := by
  refine State.issue_canonical hs ?_
  dsimp only
  split <;> simp [hs]

@[simp] theorem execWfi_canonical (h : Hdr) (wake : Fin 8) (a : SReg) (s : State) (hs : MemoryCanonical s) :
    OutcomeCanonical (execWfi h wake a s) := by
  unfold execWfi
  (repeat' split) <;> simp [hs]

@[simp] theorem State.ctxBusy_canonical (s : State) (c : CoreId) (b : Bool) : MemoryCanonical (s.ctxBusy c b) ↔ MemoryCanonical s := Iff.rfl

@[simp] theorem execCtxsave_canonical (h : Hdr) (a : SReg) (s : State) (hs : MemoryCanonical s) : OutcomeCanonical (execCtxsave h a s) := by
  unfold execCtxsave
  simp [hs]

@[simp] theorem execCtxload_canonical (h : Hdr) (a : SReg) (s : State) (hs : MemoryCanonical s) : OutcomeCanonical (execCtxload h a s) := by
  unfold execCtxload
  simp [hs]

@[simp] theorem execQsave_canonical (h : Hdr) (q : QueueNo) (a : SReg) (s : State) (hs : MemoryCanonical s) :
    OutcomeCanonical (execQsave h q a s) := by
  refine State.issue_canonical hs ?_
  dsimp only
  split
  · simp [hs]
  · refine State.withMem_canonical hs fun t ps need ht => ?_
    have hw (act : StoreAct) : OutcomeCanonical (t.storeWord h act none need) := State.storeWord_canonical _ _ _ _ _ ht
    split
    case h_1 u hu =>
      have hu := hw _ u hu
      split <;> simp [hu]
    case h_2 => exact hw _

@[simp] theorem execQload_canonical (h : Hdr) (q : QueueNo) (a : SReg) (s : State) (hs : MemoryCanonical s) :
    OutcomeCanonical (execQload h q a s) := by
  refine State.issue_canonical hs ?_
  dsimp only
  iterate 3
    split
    · simp [hs]
  exact State.withMem_canonical hs fun t ps need ht => by simp [ht]

@[simp] theorem execSysc_canonical (h : Hdr) (n : BitVec 34) (s : State) (hs : MemoryCanonical s) : OutcomeCanonical (execSysc h n s) := by
  unfold execSysc
  simp [hs]

@[simp] theorem execHalt_canonical (h : Hdr) (s : State) (hs : MemoryCanonical s) : OutcomeCanonical (execHalt h s) := by
  unfold execHalt
  simp [hs]

@[simp] theorem State.pauseOver_canonical (s : State) (c : CoreId) (t : ℕ) :
    MemoryCanonical (s.pauseOver c t) ↔ MemoryCanonical s := by simp [State.pauseOver]

@[simp] theorem execPauseEnd_canonical (c : CoreId) (s : State) (hs : MemoryCanonical s) : OutcomeCanonical (execPauseEnd c s) := by
  unfold execPauseEnd
  split <;> simp [hs]

@[simp] theorem State.trapLate_canonical (s : State) (c : CoreId) (x : Trap) (hs : MemoryCanonical s) :
    MemoryCanonical (s.trapLate c x) := by simp [State.trapLate, hs]

@[simp] theorem State.trapAccess_canonical (s : State) (c : CoreId) (n : Need) (cause : Cause) (a word : Word) (hs : MemoryCanonical s) :
    MemoryCanonical (s.trapAccess c n cause a word) := by simp [State.trapAccess, hs]

@[simp] theorem State.placeStore_canonical (s : State) (c : CoreId) (hs : MemoryCanonical s) : MemoryCanonical (s.placeStore c) := by
  unfold State.placeStore
  (repeat' split) <;> simp [hs]

@[simp] theorem State.gbarSend_canonical (s : State) (c : CoreId) : MemoryCanonical (s.gbarSend c) ↔ MemoryCanonical s := by
  unfold State.gbarSend
  dsimp only
  (repeat' split) <;> simp

end Sys2Proof.Machine

end

section

/-! ## O59: the events of the pools, rings, copies, circuits, walkers, messages and page walks -/

namespace Sys2Proof.Machine

-- `simp` discharges the side conditions of the conditional frame rules by `rfl` rules, which unify only above reducible transparency.
set_option backward.isDefEq.respectTransparency false

@[simp] theorem State.tlbEnd_canonical (s : State) (c : CoreId) : MemoryCanonical (s.tlbEnd c) ↔ MemoryCanonical s := by
  unfold State.tlbEnd
  split <;> simp

@[simp] theorem State.trimWalkCaches_canonical (s : State) (ts : List CoreId) (kind : TlbKind) (va : Word) :
    MemoryCanonical (s.trimWalkCaches ts kind va) ↔ MemoryCanonical s := Iff.rfl

@[simp] theorem State.tlbStart_canonical (s : State) (c : CoreId) : MemoryCanonical (s.tlbStart c) ↔ MemoryCanonical s := by
  unfold State.tlbStart
  dsimp only
  (repeat' split) <;> simp

@[simp] theorem State.endWait_canonical (s : State) (c : CoreId) :
    MemoryCanonical (s.endWait c) ↔ MemoryCanonical s := by simp [State.endWait]

@[simp] theorem execTokwPop_canonical (c : CoreId) (s : State) (hs : MemoryCanonical s) : OutcomeCanonical (execTokwPop c s) := by
  unfold execTokwPop
  split <;> simp [hs]

/-- A step of a queue's first entry keeps memory canonical where what it does with the entry does. -/
theorem State.withHead_canonical {s : State} {c : CoreId} {x : PoolQ} {f : QEntry → State → State} (hs : MemoryCanonical s)
    (hf : ∀ e t, MemoryCanonical t → MemoryCanonical (f e t)) : OutcomeCanonical (s.withHead c x f) := by
  unfold State.withHead
  split
  · simp [hs]
  case h_2 ho => exact (outcomeCanonical_next _).2 (hf _ _ ((s.setCore_canonical c _ (by rw [Core.openHead_store ho])).2 hs))

@[simp] theorem State.finishHead_canonical (s : State) (c : CoreId) (x : PoolQ) (e : QEntry) :
    MemoryCanonical (s.finishHead c x e) ↔ MemoryCanonical s := by simp [State.finishHead]

@[simp] theorem State.actOrFinish_canonical (s : State) (c : CoreId) (x : PoolQ) (e : QEntry) (act : State → State)
    (hs : MemoryCanonical s) (ha : MemoryCanonical (act s)) : MemoryCanonical (s.actOrFinish c x e act) := by
  unfold State.actOrFinish
  split
  · exact ha
  · split <;> simp [hs]

@[simp] theorem State.stopHead_canonical (s : State) (c : CoreId) (x : PoolQ) (cause : Cause) (info : Word) (n : ℕ) (lane : LaneId) :
    MemoryCanonical (s.stopHead c x cause info n lane) ↔ MemoryCanonical s := by simp [State.stopHead]

@[simp] theorem State.finishAfter_canonical (s : State) (c : CoreId) (x : PoolQ) (n : ℕ) :
    MemoryCanonical (s.finishAfter c x n) ↔ MemoryCanonical s := by simp [State.finishAfter]

@[simp] theorem execCarveBegin_canonical (c : CoreId) (s : State) (hs : MemoryCanonical s) : OutcomeCanonical (execCarveBegin c s) := by
  refine State.withHead_canonical hs fun e t ht => ?_
  split <;> simp [ht]

@[simp] theorem execCarveRecordRead_canonical (c : CoreId) (s : State) (hs : MemoryCanonical s) :
    OutcomeCanonical (execCarveRecordRead c s) := by
  refine State.withHead_canonical hs fun e t ht => ?_
  split
  · split
    · exact ht
    · split
      case h_1 hr => exact State.engineRead_canonical hr ht
      case h_2 hr => simpa using State.engineRead_canonical hr ht
      case h_3 hr => simpa using State.engineRead_canonical hr ht
      case h_4 hr =>
        have hu : MemoryCanonical _ := State.engineRead_canonical hr ht
        simp only [EngRead.state] at hu
        simp [hu]
  · exact ht

@[simp] theorem State.wloadSlot_canonical (s : State) (c : CoreId) (q : RingId) (a : Word) (e : QEntry) (r : Ring) (x : Taken)
    (gs : List Group) :
    MemoryCanonical (s.wloadSlot c q a e r x gs) ↔ MemoryCanonical s := by
  unfold State.wloadSlot
  dsimp only
  (repeat' split) <;> simp

@[simp] theorem execWloadSlotStep_canonical (c : CoreId) (s : State) (hs : MemoryCanonical s) :
    OutcomeCanonical (execWloadSlotStep c s) := by
  refine State.withHead_canonical hs fun e t ht => ?_
  (repeat' split) <;> simp [ht]

@[simp] theorem execMmapBegin_canonical (c : CoreId) (s : State) (hs : MemoryCanonical s) : OutcomeCanonical (execMmapBegin c s) := by
  refine State.withHead_canonical hs fun e t ht => ?_
  split
  · refine State.actOrFinish_canonical _ _ _ _ _ ht ?_
    split <;> simp [ht]
  · exact ht

@[simp] theorem execSbindBegin_canonical (c : CoreId) (s : State) (hs : MemoryCanonical s) : OutcomeCanonical (execSbindBegin c s) := by
  refine State.withHead_canonical hs fun e t ht => ?_
  split <;> simp [ht]

@[simp] theorem execPlaneSwap_canonical (c : CoreId) (s : State) (hs : MemoryCanonical s) : OutcomeCanonical (execPlaneSwap c s) := by
  refine State.withHead_canonical hs fun e t ht => ?_
  (repeat' split) <;> simp [ht]

@[simp] theorem State.arm_canonical (s : State) (c : CoreId) (e : QEntry) (lane : LaneId) (x : Stream) :
    MemoryCanonical (s.arm c e lane x) ↔ MemoryCanonical s := by simp [State.arm]

@[simp] theorem execFeedArm_canonical (c : CoreId) (s : State) (hs : MemoryCanonical s) : OutcomeCanonical (execFeedArm c s) := by
  refine State.withHead_canonical hs fun e t ht => ?_
  (repeat' split) <;> simp [ht]

@[simp] theorem execTokenEntryBegin_canonical (c : CoreId) (q : PoolQ) (s : State) (hs : MemoryCanonical s) :
    OutcomeCanonical (execTokenEntryBegin c q s) := by
  refine State.withHead_canonical hs fun e t ht => ?_
  split <;> simp [ht]

@[simp] theorem State.stopStream_canonical (s : State) (c : CoreId) (lane : LaneId) (x : Stream) (cause : Cause) (info : Word) :
    MemoryCanonical (s.stopStream c lane x cause info) ↔ MemoryCanonical s := by simp [State.stopStream]

@[simp] theorem State.rlog_canonical (s : State) (p : PartId) (hdr : ℕ) (p0 p1 p2 : Word) (hs : MemoryCanonical s) :
    MemoryCanonical (s.rlog p hdr p0 p1 p2) := by simp [State.rlog, hs]

@[simp] theorem State.rlogCore_canonical (s : State) (c : CoreId) (n kind : ℕ) (p0 p1 p2 : Word) (hs : MemoryCanonical s) :
    MemoryCanonical (s.rlogCore c n kind p0 p1 p2) := by simp [State.rlogCore, hs]

@[simp] theorem State.poisonSeen_canonical (s : State) (c : CoreId) (what : Word) (hs : MemoryCanonical s) :
    MemoryCanonical (s.poisonSeen c what) := by
  unfold State.poisonSeen
  split <;> simp [hs]

@[simp] theorem State.fire_canonical (s : State) (c : CoreId) (lane : LaneId) (x : Stream) (o : Operand) :
    MemoryCanonical (s.fire c lane x o) ↔ MemoryCanonical s := by simp [State.fire]

@[simp] theorem execPoolOperationFire_canonical (c : CoreId) (lane : LaneId) (s : State) (hs : MemoryCanonical s) :
    OutcomeCanonical (execPoolOperationFire c lane s) := by
  unfold execPoolOperationFire
  dsimp only
  split
  · simp [hs]
  split
  · simp [hs]
  split
  · simp [hs]
  split
  · simp [hs]
  · simp [hs]
  split
  · simp [hs]
  split
  · simp [hs]
  split
  · simp [hs]
  case h_2 hg =>
    have ht := (State.grant_canonical _ _ _ _ hg).2 hs
    split <;> simp [ht]

@[simp] theorem State.combine_canonical (s : State) (c : CoreId) (lane : LaneId) (o : PoolOp) (p : Pass) (hs : List HeldPart) :
    MemoryCanonical (s.combine c lane o p hs) ↔ MemoryCanonical s := by
  unfold State.combine
  split <;> simp

@[simp] theorem execPassEnterResultStage_canonical (c : CoreId) (lane : LaneId) (s : State) (hs : MemoryCanonical s) :
    OutcomeCanonical (execPassEnterResultStage c lane s) := by
  unfold execPassEnterResultStage
  dsimp only
  (repeat' split) <;> simp [hs]

@[simp] theorem execOperationRetire_canonical (c : CoreId) (lane : LaneId) (s : State) (hs : MemoryCanonical s) :
    OutcomeCanonical (execOperationRetire c lane s) := by
  unfold execOperationRetire
  dsimp only
  split
  · simp [hs]
  split
  · simp [hs]
  split
  · simp [hs]
  split
  · simp [hs]
  · refine (outcomeCanonical_next _).2 (State.modCore_canonical_of hs fun hk => ?_)
    simp [hk]

@[simp] theorem State.dropMsg_canonical (s : State) (id : ℕ) : MemoryCanonical (s.dropMsg id) ↔ MemoryCanonical s := Iff.rfl

@[simp] theorem execExtendedPartArrive_canonical (msg : ℕ) (s : State) (hs : MemoryCanonical s) :
    OutcomeCanonical (execExtendedPartArrive msg s) := by
  unfold execExtendedPartArrive
  (repeat' split) <;> simp [hs]

@[simp] theorem State.drainSlot_canonical (s : State) (c : CoreId) (d : DrainOp) :
    MemoryCanonical (s.drainSlot c d) ↔ MemoryCanonical s := by
  unfold State.drainSlot
  dsimp only
  split
  · rfl
  case h_2 hf => simp [Core.beginFill_ok_store hf]
  case h_3 hf => simp [Core.beginFill_kept_store hf]

@[simp] theorem State.drainBias_canonical (s : State) (c : CoreId) (d : DrainOp) :
    MemoryCanonical (s.drainBias c d) ↔ MemoryCanonical s := by
  unfold State.drainBias
  (repeat' split) <;> simp

@[simp] theorem State.drainRead_canonical (s : State) (c : CoreId) (d : DrainOp) (e : QEntry) (hs : MemoryCanonical s) :
    MemoryCanonical (s.drainRead c d e) := by
  unfold State.drainRead
  dsimp only
  split
  · simp [hs]
  split
  · exact hs
  · simp [hs]
  case h_3 =>
    have hm (w : Option Word) : MemoryCanonical (match w with | some w => s.poisonSeen c w | none => s) := by
      split <;> simp [hs]
    rw [State.modCore_canonical]
    · exact hm _
    · split <;> simp

@[simp] theorem State.drainStep_canonical (s : State) (c : CoreId) (d : DrainOp) (e : QEntry) (hs : MemoryCanonical s) :
    MemoryCanonical (s.drainStep c d e) := by
  unfold State.drainStep
  dsimp only
  (repeat' split) <;> simp [hs]

@[simp] theorem execDrainBegin_canonical (c : CoreId) (s : State) (hs : MemoryCanonical s) : OutcomeCanonical (execDrainBegin c s) := by
  refine State.withHead_canonical hs fun e t ht => ?_
  split <;> simp [ht]

@[simp] theorem execDrainSlotFull_canonical (c : CoreId) (s : State) (hs : MemoryCanonical s) :
    OutcomeCanonical (execDrainSlotFull c s) := by
  refine State.withHead_canonical hs fun e t ht => ?_
  dsimp only
  (repeat' split) <;> simp [ht]

@[simp] theorem execAclrBegin_canonical (c : CoreId) (s : State) (hs : MemoryCanonical s) : OutcomeCanonical (execAclrBegin c s) := by
  refine State.withHead_canonical hs fun e t ht => ?_
  dsimp only
  (repeat' split) <;> simp [ht]

@[simp] theorem execQdefTakeEffect_canonical (c : CoreId) (q : RingId) (s : State) (hs : MemoryCanonical s) :
    OutcomeCanonical (execQdefTakeEffect c q s) := by
  unfold execQdefTakeEffect
  (repeat' split) <;> simp [hs]

@[simp] theorem execQresetTakeEffect_canonical (c : CoreId) (q : RingId) (s : State) (hs : MemoryCanonical s) :
    OutcomeCanonical (execQresetTakeEffect c q s) := by
  unfold execQresetTakeEffect
  (repeat' split) <;> simp [hs]

@[simp] theorem execQfillSlotFull_canonical (c : CoreId) (q : RingId) (s : State) (hs : MemoryCanonical s) :
    OutcomeCanonical (execQfillSlotFull c q s) := by
  unfold execQfillSlotFull
  dsimp only
  (repeat' split) <;> simp [hs]

@[simp] theorem execQpopTake_canonical (c : CoreId) (s : State) (hs : MemoryCanonical s) : OutcomeCanonical (execQpopTake c s) := by
  unfold execQpopTake
  (repeat' split) <;> simp [hs]

@[simp] theorem State.permFreeze_canonical (s : State) (c : CoreId) (cause : Cause) (ce : Bool) (t : Trap) (hs : MemoryCanonical s) :
    MemoryCanonical (s.permFreeze c cause ce t) := by simp [State.permFreeze, hs]

@[simp] theorem execCdefReadComplete_canonical (c : CoreId) (e : EntryNo) (s : State) (hs : MemoryCanonical s) :
    OutcomeCanonical (execCdefReadComplete c e s) := by
  unfold execCdefReadComplete
  dsimp only
  split
  · split
    · simp [hs]
    · split
      case h_1 hr => simpa using State.engineRead_canonical hr hs
      case h_2 hr =>
        have ht := State.engineRead_canonical hr hs
        simp only [EngRead.state] at ht
        simp [ht]
      case h_3 hr => simpa using State.engineRead_canonical hr hs
      case h_4 hr => simpa using State.engineRead_canonical hr hs
  · simp [hs]

@[simp] theorem execCwaitReturn_canonical (c : CoreId) (s : State) (hs : MemoryCanonical s) : OutcomeCanonical (execCwaitReturn c s) := by
  unfold execCwaitReturn
  split <;> simp [hs]

@[simp] theorem State.copyFault_canonical (s : State) (c : CoreId) (e : EntryNo) (cause : Cause) (info : Word) (hs : MemoryCanonical s) :
    MemoryCanonical (s.copyFault c e cause info) := by simp [State.copyFault, hs]

@[simp] theorem State.copyChecked_canonical (s : State) (c : CoreId) (e : EntryNo) (xs : List (Space × Access × List (Word × ℕ)))
    (k : State) (hs : MemoryCanonical s) (hk : MemoryCanonical k) : MemoryCanonical (s.copyChecked c e xs k) := by
  unfold State.copyChecked
  dsimp only
  split
  · simp [hs]
  · simp [hs]
  · exact hk

@[simp] theorem State.copyMemory_canonical (s : State) (c : CoreId) (e : EntryNo) (y : Blk) (v : Conv) (used : ℕ) (poison : Bool)
    (hs : MemoryCanonical s) :
    MemoryCanonical (s.copyMemory c e y v used poison) := by
  unfold State.copyMemory
  extract_lets k x d t sp red acc xs scales
  split
  · simp [hs]
  · simp [hs]
  · simp [hs]
  · simp [hs]
  · extract_lets cells own
    split
    · exact hs
    · split
      · simp [hs]
      · split
        · simp [hs]
        · split <;> simp [hs]

@[simp] theorem State.copySlot_canonical (s : State) (c : CoreId) (e : EntryNo) (y : Blk) (v : Conv) (used : ℕ) (poison : Bool)
    (hs : MemoryCanonical s) :
    MemoryCanonical (s.copySlot c e y v used poison) := by
  unfold State.copySlot
  extract_lets half
  split
  · simp [hs]
  case h_2 hb =>
    have hb := Core.beginSlots_store hb
    split
    · simp [hb, hs]
    · extract_lets x d w put codes k
      have hput (k : Core) (q : RingId) (slot : Option (Option ℕ)) (off : ℕ) (f : Ring → ℕ → List Byte) :
          (put k q slot off f).store.Canonical ↔ k.store.Canonical := by
        simp only [put]
        split
        · simp
        · rfl
      have hk : k.store.Canonical ↔ (s.core c).store.Canonical := by
        rw [← hb]
        simp only [k]
        split
        · rfl
        · split <;> simp [codes, hput]
      simp [hk, hs]

@[simp] theorem State.copyCircuit_canonical (s : State) (c : CoreId) (e : EntryNo) (y : Blk) (v : Conv) (used : ℕ) (poison : Bool)
    (hs : MemoryCanonical s) :
    MemoryCanonical (s.copyCircuit c e y v used poison) := by
  unfold State.copyCircuit
  dsimp only
  (repeat' split) <;> simp [hs]

@[simp] theorem State.copyMove_canonical (s : State) (c : CoreId) (e : EntryNo) (y : Blk) (hs : MemoryCanonical s) :
    MemoryCanonical (s.copyMove c e y) := by
  unfold State.copyMove
  dsimp only
  refine State.copyChecked_canonical _ _ _ _ _ hs ?_
  split
  case h_1 hr => exact State.copyScale_canonical hr hs
  case h_2 hr => exact State.copyFault_canonical _ _ _ _ _ (State.copyScale_canonical hr hs)
  case h_3 hr =>
    have ht := State.copyScale_canonical hr hs
    split
    case h_1 hr => exact State.copySource_canonical hr ht
    case h_2 hr => exact State.copyFault_canonical _ _ _ _ _ (State.copySource_canonical hr ht)
    case h_3 hr =>
      have hu := State.copySource_canonical hr ht
      simp only [SrcRead.state] at hu
      refine State.copyChecked_canonical _ _ _ _ _ hs ?_
      split
      · exact State.copyFault_canonical _ _ _ _ _ hu
      · (repeat' split) <;> simp [hu]

@[simp] theorem State.copyStep_canonical (s : State) (c : CoreId) (e : EntryNo) (hs : MemoryCanonical s) :
    MemoryCanonical (s.copyStep c e) := by
  unfold State.copyStep
  dsimp only
  split
  · exact hs
  · split
    · simp [hs]
    · simp [hs]
    case h_3 hd =>
      have hd := Core.demand_store hd
      split
      · simp [hd, hs]
      · simp [hd, hs]
      case h_3 ht =>
        have ht := Core.takeTile_store ht
        exact State.copyMove_canonical _ _ _ _ ((State.setCore_canonical _ _ _ (by rw [ht, Core.modCopy_store, hd])).2 hs)

@[simp] theorem execCopyCompletionTokenPush_canonical (c : CoreId) (e : EntryNo) (s : State) (hs : MemoryCanonical s) :
    OutcomeCanonical (execCopyCompletionTokenPush c e s) := by
  unfold execCopyCompletionTokenPush
  dsimp only
  split
  · simp [hs]
  · split
    case h_1 hk => simp [Core.completionToken_store hk, hs]
    case h_2 => simp [hs]

@[simp] theorem execCircuitOpeningArrive_canonical (msg : ℕ) (s : State) (hs : MemoryCanonical s) :
    OutcomeCanonical (execCircuitOpeningArrive msg s) := by
  unfold execCircuitOpeningArrive
  (repeat' split) <;> simp [hs]

@[simp] theorem execCircuitReplyArrive_canonical (msg : ℕ) (s : State) (hs : MemoryCanonical s) :
    OutcomeCanonical (execCircuitReplyArrive msg s) := by
  unfold execCircuitReplyArrive
  (repeat' split) <;> simp [hs]

theorem State.flitLeave_canonical {s t : State} (c : CoreId) (n : CircNo) (h : s.flitLeave c n = some t) :
    MemoryCanonical t ↔ MemoryCanonical s := by
  unfold State.flitLeave at h
  dsimp only at h
  split at h
  · cases h
  · split at h
    · split at h
      · cases h
      · split at h
        · cases h
        case h_2 hg =>
          cases h
          simp [State.spineGrant_canonical _ _ _ _ hg]
    · cases h

theorem State.flitEnter_canonical {s t : State} (c : CoreId) (n : CircNo) (h : s.flitEnter c n = some t) :
    MemoryCanonical t ↔ MemoryCanonical s := by
  unfold State.flitEnter at h
  dsimp only at h
  (repeat' split at h) <;> cases h <;> simp

@[simp] theorem State.takeSlot_canonical (s : State) (c : CoreId) (n : CircNo) : MemoryCanonical (s.takeSlot c n) ↔ MemoryCanonical s := by
  unfold State.takeSlot
  dsimp only
  (repeat' split) <;> simp

@[simp] theorem execCircuitFlitLeave_canonical (c : CoreId) (n : CircNo) (s : State) (hs : MemoryCanonical s) :
    OutcomeCanonical (execCircuitFlitLeave c n s) := by
  unfold execCircuitFlitLeave
  dsimp only
  split
  · simp [hs]
  · split
    case h_1 hl => exact (outcomeCanonical_next _).2 ((State.flitLeave_canonical _ _ hl).2 hs)
    case h_2 =>
      split
      case h_1 hl => exact (outcomeCanonical_next _).2 ((State.flitEnter_canonical _ _ hl).2 hs)
      case h_2 => simp [hs]

@[simp] theorem execBranchFillBegin_canonical (c : CoreId) (n : CircNo) (branch : Fin 16) (s : State) (hs : MemoryCanonical s) :
    OutcomeCanonical (execBranchFillBegin c n branch s) := by
  unfold execBranchFillBegin
  dsimp only
  split
  · simp [hs]
  split
  · simp [hs]
  split
  · simp [hs]
  split
  · simp [hs]
  split
  · simp [hs]
  split
  · simp [hs]
  split
  case h_1 hb => simp [Core.beginRemote_store hb, hs]
  case h_2 => simp [hs]

@[simp] theorem execCircuitFlitArrive_canonical (c : CoreId) (n : CircNo) (branch : Fin 16) (s : State) (hs : MemoryCanonical s) :
    OutcomeCanonical (execCircuitFlitArrive c n branch s) := by
  unfold execCircuitFlitArrive
  dsimp only
  split
  · simp [hs]
  split
  case h_2 => simp [hs]
  split
  · simp [hs]
  split
  · exact (outcomeCanonical_next _).2 (State.dropFreeze_canonical _ _ _ (State.guardRecord_canonical _ _ _ _ _ _ _ (by simp [hs])))
  · split
    · split
      · simp [hs]
      case h_2 hp =>
        simp only [Option.bind_eq_some_iff, Option.map_eq_some_iff] at hp
        obtain ⟨q, -, t, ht, he⟩ := hp
        cases he
        simp [(State.portGrant_canonical _ _ _ _ ht).2 hs]
    · split
      · have hl (f : Core → Core) (hf : ∀ k, k.store.Canonical → (f k).store.Canonical) (d : CoreId) :
            MemoryCanonical (s.takeNat.2.modCore d f) := State.modCore_canonical_of (by simp [hs]) (hf _)
        split
        · split
          · simp [hl _ fun k hk => Core.landBytes_canonical k _ _ _ _ hk]
          · simp [hl _ fun k hk => Core.landBytes_canonical k _ _ _ _ hk]
        · simp [hs]
      · simp [hs]

@[simp] theorem State.closeCircuit_canonical (s : State) (c : CoreId) (n : CircNo) :
    MemoryCanonical (s.closeCircuit c n) ↔ MemoryCanonical s := by simp [State.closeCircuit]

@[simp] theorem execCircuitClosed_canonical (c : CoreId) (n : CircNo) (s : State) (hs : MemoryCanonical s) :
    OutcomeCanonical (execCircuitClosed c n s) := by
  unfold execCircuitClosed
  split <;> simp [hs]

@[simp] theorem State.walkFault_canonical (s : State) (c : CoreId) (cause : Cause) (info : Word) (hs : MemoryCanonical s) :
    MemoryCanonical (s.walkFault c cause info) := by simp [State.walkFault, hs]

@[simp] theorem execFeltHeaderRead_canonical (c : CoreId) (s : State) (hs : MemoryCanonical s) :
    OutcomeCanonical (execFeltHeaderRead c s) := by
  unfold execFeltHeaderRead
  dsimp only
  split
  · simp [hs]
  split
  case h_1 hr => simpa using State.feltRead_canonical hr hs
  case h_2 hr => exact (outcomeCanonical_next _).2 (State.walkFault_canonical _ _ _ _ (State.feltRead_canonical hr hs))
  case h_3 hr => exact (outcomeCanonical_next _).2 (State.walkFault_canonical _ _ _ _ (State.feltRead_canonical hr hs))
  case h_4 hr =>
    have ht := State.feltRead_canonical hr hs
    simp only [EngRead.state] at ht
    split <;> simp [ht]

@[simp] theorem State.walkWait_canonical (s : State) (c : CoreId) (w : WWait) :
    MemoryCanonical (s.walkWait c w) ↔ MemoryCanonical s := by simp [State.walkWait]

@[simp] theorem State.feltPlaced_canonical (s : State) (c : CoreId) (hs : MemoryCanonical s) :
    MemoryCanonical (s.feltPlaced c) := by simp [State.feltPlaced, hs]

@[simp] theorem State.payloadMark_canonical (s : State) (c : CoreId) (bad : Option Word) (hs : MemoryCanonical s) :
    MemoryCanonical (s.payloadMark c bad) := by
  unfold State.payloadMark
  split <;> simp [hs]

@[simp] theorem State.carveFelt_canonical (s : State) (c : CoreId) (hs : MemoryCanonical s) : MemoryCanonical (s.carveFelt c) := by
  unfold State.carveFelt
  dsimp only
  split
  · split <;> simp [hs]
  split
  · simp [hs]
  split
  case h_1 hr => simpa using State.feltRead_canonical hr hs
  case h_2 hr => exact State.walkFault_canonical _ _ _ _ (State.feltRead_canonical hr hs)
  case h_3 hr =>
    have ht := State.feltRead_canonical hr hs
    simp only [EngRead.state] at ht
    (repeat' split) <;> simp [ht]

@[simp] theorem execFeltActionPlace_canonical (c : CoreId) (s : State) (hs : MemoryCanonical s) :
    OutcomeCanonical (execFeltActionPlace c s) := by
  unfold execFeltActionPlace
  dsimp only
  (repeat' split) <;> simp [hs]

@[simp] theorem State.loadBegin_canonical (s : State) (c : CoreId) (h : Felt) (gs : Option (List Group)) (hs : MemoryCanonical s) :
    MemoryCanonical (s.loadBegin c h gs) := by
  unfold State.loadBegin
  dsimp only
  (repeat' split) <;> simp [hs]

@[simp] theorem State.loadScales_canonical (s : State) (c : CoreId) (h : Felt) (gs : List Group) (hs : MemoryCanonical s) :
    MemoryCanonical (s.loadScales c h gs) := by
  unfold State.loadScales
  dsimp only
  split
  case h_1 hr => simpa using State.feltRead_canonical hr hs
  case h_2 hr => exact State.walkFault_canonical _ _ _ _ (State.feltRead_canonical hr hs)
  case h_3 hr =>
    have ht := State.feltRead_canonical hr hs
    simp only [EngRead.state] at ht
    simp [ht]

@[simp] theorem State.loadScan_canonical (s : State) (c : CoreId) (h : Felt) (gs : List Group) (e : QEntry) (hs : MemoryCanonical s) :
    MemoryCanonical (s.loadScan c h gs e) := by
  unfold State.loadScan
  dsimp only
  split
  · simp [hs]
  split
  case h_1 hr => simpa using State.bitmapRead_canonical hr hs
  case h_2 hr => exact State.walkFault_canonical _ _ _ _ (State.bitmapRead_canonical hr hs)
  case h_3 hr =>
    have ht := State.bitmapRead_canonical hr hs
    simp only [EngRead.state] at ht
    split <;> simp [ht]

@[simp] theorem State.loadEnd_canonical (s : State) (c : CoreId) (h : Felt) (gs : List Group) (e : QEntry) (hs : MemoryCanonical s) :
    MemoryCanonical (s.loadEnd c h gs e) := by simp [State.loadEnd, hs]

@[simp] theorem State.putBlock_canonical (s : State) (c : CoreId) (h : Felt) (g : Group) (b : ℕ) (d : BlockData) (boff run : ℕ)
    (hs : MemoryCanonical s) :
    MemoryCanonical (s.putBlock c h g b d boff run) := by
  unfold State.putBlock
  dsimp only
  split
  · simp [hs]
  all_goals
    rename_i hr
    split at hr
    case isFalse => cases hr
  · simp only [Option.some.injEq] at hr
    simpa using State.feltRead_canonical hr hs
  · simp only [Option.some.injEq] at hr
    exact State.walkFault_canonical _ _ _ _ (State.feltRead_canonical hr hs)
  · simp only [Option.some.injEq] at hr
    have ht := State.feltRead_canonical hr hs
    simp only [EngRead.state] at ht
    simp [ht]

@[simp] theorem State.loadBlock_canonical (s : State) (c : CoreId) (h : Felt) (gs : List Group) (e : QEntry) (hs : MemoryCanonical s) :
    MemoryCanonical (s.loadBlock c h gs e) := by
  have hvalues {t : State} (voff half n : ℕ) (mk : List (ℕ × Bool) → List (ℕ × Bool)) (g : Group) (b boff : ℕ) (ht : MemoryCanonical t) :
      MemoryCanonical (match (t.loadValues c h voff half n mk).1 with
        | .wait s => s.walkWait c (.read s.cycle)
        | .trap cause a s => s.walkFault c cause a
        | .ok bs bad s => (s.payloadMark c bad).putBlock c h g b ((t.loadValues c h voff half n mk).2 bs) boff 0) := by
    have hv {r : EngRead} (hr : (t.loadValues c h voff half n mk).1 = r) : MemoryCanonical r.state :=
      State.loadValues_canonical (Prod.ext hr rfl) ht
    split
    case h_1 hr => simpa using hv hr
    case h_2 hr => exact State.walkFault_canonical _ _ _ _ (hv hr)
    case h_3 hr => exact State.putBlock_canonical _ _ _ _ _ _ _ _ (State.payloadMark_canonical _ _ _ (hv hr))
  unfold State.loadBlock
  dsimp only
  split
  · simp [hs]
  split
  · exact hvalues _ _ _ _ _ _ _ hs
  split
  · simp [hs]
  split
  case h_1 hr => simpa using State.bitmapRead_canonical hr hs
  case h_2 hr => exact State.walkFault_canonical _ _ _ _ (State.bitmapRead_canonical hr hs)
  case h_3 hr =>
    have ht := State.bitmapRead_canonical hr hs
    simp only [EngRead.state] at ht
    split
    · simp [ht]
    · exact hvalues _ _ _ _ _ _ _ (by simp [ht])
    · simp [ht]

@[simp] theorem execLoadwBlock_canonical (c : CoreId) (s : State) (hs : MemoryCanonical s) : OutcomeCanonical (execLoadwBlock c s) := by
  refine State.withHead_canonical hs fun e t ht => ?_
  dsimp only
  (repeat' split) <;> simp [ht]

@[simp] theorem State.walkArrive_canonical (s : State) (c : CoreId) (h : Felt) (hs : MemoryCanonical s) :
    MemoryCanonical (s.walkArrive c h) := by
  unfold State.walkArrive
  dsimp only
  (repeat' split) <;> simp [hs]

@[simp] theorem execWalkerToken_canonical (c : CoreId) (s : State) (hs : MemoryCanonical s) : OutcomeCanonical (execWalkerToken c s) := by
  unfold execWalkerToken
  dsimp only
  (repeat' split) <;> simp [hs]

@[simp] theorem State.walkTo_canonical (s : State) (c : CoreId) (a : Word) (w : Walker) :
    MemoryCanonical (s.walkTo c a w) ↔ MemoryCanonical s := by simp [State.walkTo]

@[simp] theorem State.walkEnd_canonical (s : State) (c : CoreId) : MemoryCanonical (s.walkEnd c) ↔ MemoryCanonical s := by
  unfold State.walkEnd
  dsimp only
  (repeat' split) <;> simp

@[simp] theorem execFeltSuccessor_canonical (c : CoreId) (s : State) (hs : MemoryCanonical s) :
    OutcomeCanonical (execFeltSuccessor c s) := by
  unfold execFeltSuccessor
  dsimp only
  (repeat' split) <;> simp [hs]

@[simp] theorem execTagbrResolve_canonical (c : CoreId) (s : State) (hs : MemoryCanonical s) : OutcomeCanonical (execTagbrResolve c s) := by
  unfold execTagbrResolve
  dsimp only
  (repeat' split) <;> simp [hs]

@[simp] theorem State.performed_canonical (s : State) (c : CoreId) (num : ℕ) :
    MemoryCanonical (s.performed c num) ↔ MemoryCanonical s := by simp [State.performed]

@[simp] theorem State.applied_canonical (s : State) (m : Msg) : MemoryCanonical (s.applied m) ↔ MemoryCanonical s := by simp [State.applied]

@[simp] theorem State.answer_canonical (s : State) (c : CoreId) (t : TagId) (po : ℕ) (v : VecWord) (trap : Option Trap) :
    MemoryCanonical (s.answer c t po v trap) ↔ MemoryCanonical s := by
  unfold State.answer
  dsimp only
  refine State.modCore_canonical _ _ _ ?_
  (repeat' split) <;> simp

@[simp] theorem execLaunchRequestArrive_canonical (msg : ℕ) (s : State) (hs : MemoryCanonical s) :
    OutcomeCanonical (execLaunchRequestArrive msg s) := by
  unfold execLaunchRequestArrive
  (repeat' split) <;> simp [hs]

@[simp] theorem State.placeLoad_canonical (s : State) (c : CoreId) (hs : MemoryCanonical s) : MemoryCanonical (s.placeLoad c) := by
  unfold State.placeLoad
  (repeat' split) <;> simp [hs]

@[simp] theorem State.loadDropped_canonical (s : State) (c : CoreId) (x : Drop) (d : Dest) (hs : MemoryCanonical s) :
    MemoryCanonical (s.loadDropped c x d) := by simp [State.loadDropped, hs]

@[simp] theorem State.loadQueue_canonical (s : State) (p : PartId) (q : QueueNo) (cfg ptr ctx : Word) :
    MemoryCanonical (s.loadQueue p q cfg ptr ctx) ↔ MemoryCanonical s := by simp [State.loadQueue]

@[simp] theorem State.finishLoad_canonical (s : State) (c : CoreId) (l : Load) (hs : MemoryCanonical s) :
    MemoryCanonical (s.finishLoad c l) := by
  unfold State.finishLoad
  dsimp only
  (repeat' split) <;> simp [hs]

@[simp] theorem execLwaitReturn_canonical (c : CoreId) (s : State) (hs : MemoryCanonical s) : OutcomeCanonical (execLwaitReturn c s) := by
  unfold execLwaitReturn
  split
  · simp [hs]
  split
  case h_2 => simp [hs]
  split
  · simp [hs]
  split
  · simp [hs]
  split
  · simp [hs]
  · simp [hs]
  case h_3 hr =>
    have ht := (State.readGrant_canonical hr).2 hs
    dsimp only
    split <;> simp [ht, hs]

@[simp] theorem State.freezePort_canonical (s : State) (q : PortId) (viol : Fin 16) (hs : MemoryCanonical s) :
    MemoryCanonical (s.freezePort q viol) := by
  unfold State.freezePort
  dsimp only
  (repeat' split) <;> simp [hs]

@[simp] theorem State.applyFreeze_canonical (s : State) (target : ℕ) (port : Bool) (mask : Fin 8) (thaw : Bool) (hs : MemoryCanonical s) :
    MemoryCanonical (s.applyFreeze target port mask thaw) := by simp [State.applyFreeze, hs]

@[simp] theorem execFreezeApply_canonical (msg : ℕ) (s : State) (hs : MemoryCanonical s) : OutcomeCanonical (execFreezeApply msg s) := by
  unfold execFreezeApply
  (repeat' split) <;> simp [hs]

@[simp] theorem execWfiWake_canonical (c : CoreId) (s : State) (hs : MemoryCanonical s) : OutcomeCanonical (execWfiWake c s) := by
  unfold execWfiWake
  split <;> simp [hs]

@[simp] theorem execEngineFaultTaken_canonical (c : CoreId) (s : State) (hs : MemoryCanonical s) :
    OutcomeCanonical (execEngineFaultTaken c s) := by
  unfold execEngineFaultTaken
  dsimp only
  (repeat' split) <;> simp [hs]

@[simp] theorem execRegisterResultArrive_canonical (c : CoreId) (t : TagId) (s : State) (hs : MemoryCanonical s) :
    OutcomeCanonical (execRegisterResultArrive c t s) := by
  unfold execRegisterResultArrive
  dsimp only
  (repeat' split) <;> simp [hs]

theorem State.linkGrant_canonical {s t : State} (p : PartId) (c : CoreId) (r : Req) (h : s.linkGrant p c r = some t) :
    MemoryCanonical t ↔ MemoryCanonical s := by
  unfold State.linkGrant at h
  split at h
  · cases h; rfl
  · exact State.portGrant_canonical _ _ _ _ h

@[simp] theorem State.transmitAll_canonical (s : State) (q : PortId) (p : PartId) (type_ dchip udesc n : ℕ) :
    MemoryCanonical (s.transmitAll q p type_ dchip udesc n) ↔ MemoryCanonical s := by simp [State.transmitAll]

@[simp] theorem State.send_canonical (s : State) (c : CoreId) (e : Hold) : MemoryCanonical (s.send c e) ↔ MemoryCanonical s := by
  unfold State.send
  dsimp only
  (repeat' split) <;> simp

@[simp] theorem execHoldbackDepart_canonical (c : CoreId) (n : ℕ) (s : State) (hs : MemoryCanonical s) :
    OutcomeCanonical (execHoldbackDepart c n s) := by
  unfold execHoldbackDepart
  dsimp only
  split
  · simp [hs]
  split
  · simp [hs]
  split
  · simp [hs]
  case h_2 hg =>
    simp only [Option.bind_eq_some_iff] at hg
    obtain ⟨u, hu, ht⟩ := hg
    have ht := (State.linkGrant_canonical _ _ _ ht).2 ((State.spineGrant_canonical _ _ _ _ hu).2 hs)
    simp [ht]

@[simp] theorem execWriteAgePerform_canonical (c : CoreId) (b : Buf) (order : ℕ) (s : State) (hs : MemoryCanonical s) :
    OutcomeCanonical (execWriteAgePerform c b order s) := by
  unfold execWriteAgePerform
  dsimp only
  split
  · split <;> simp [hs]
  split
  · simp [hs]
  split
  · simp [hs]
  · exact (outcomeCanonical_next _).2 (State.modCore_canonical_of hs fun h => by simp [h])

@[simp] theorem execLoadPerform_canonical (c : CoreId) (n unit : ℕ) (s : State) (hs : MemoryCanonical s) :
    OutcomeCanonical (execLoadPerform c n unit s) := by
  unfold execLoadPerform
  dsimp only
  split
  case h_2 => simp [hs]
  split
  · simp [hs]
  split
  · simp [hs]
  split
  · simp [hs]
  split
  · simp [hs]
  · simp [hs]
  case h_3 t hg =>
    have ht : MemoryCanonical t := by
      split at hg
      · cases hg; exact hs
      · exact (State.readGrant_canonical hg).2 hs
    split
    · simp [ht]
    split
    · simp [ht]
    case h_2 hf =>
      have hu := State.foldl_option_canonical _ (by simp [ht]) (fun x i hx y hy => ?_) _ hf
      · split <;> simp [hu]
      · split at hy
        case h_2 => cases hy
        split at hy
        · split at hy
          case h_2 => cases hy
          case h_1 hr => cases hy; exact (State.readOwn_canonical hr).2 (hx _ rfl)
        · cases hy; exact (hx _ rfl :)

@[simp] theorem State.pokeUnit_canonical (s : State) (u : WUnit) (red : Fin 5) (poison : Bool) (own : PartId) (hs : MemoryCanonical s) :
    MemoryCanonical (s.pokeUnit u red poison own) := by simp [State.pokeUnit, hs]

@[simp] theorem State.combined_canonical (s : State) (m : Msg) (a : ℕ) :
    MemoryCanonical (s.combined m a) ↔ MemoryCanonical s := by simp [State.combined]

@[simp] theorem State.writeBar_canonical (s : State) (a : ℕ) (b : BarRec) (poison : Bool) (hs : MemoryCanonical s) :
    MemoryCanonical (s.writeBar a b poison) := by simp [State.writeBar, hs]

@[simp] theorem State.barrier_canonical (s : State) (a arrivals n : ℕ) (poison : Bool) (hs : MemoryCanonical s) :
    MemoryCanonical (s.barrier a arrivals n poison) := by simp [State.barrier, hs]

@[simp] theorem State.sign_canonical (s : State) (c : CoreId) (h : Word) : MemoryCanonical (s.sign c h) ↔ MemoryCanonical s := by
  unfold State.sign
  split <;> simp

@[simp] theorem State.clearMarks_canonical (s : State) (cells : List ℕ) (cmp : Bool) :
    MemoryCanonical (s.clearMarks cells cmp) ↔ MemoryCanonical s := by simp [State.clearMarks]

@[simp] theorem State.clearWhole_canonical (s : State) (us : List WUnit) :
    MemoryCanonical (s.clearWhole us) ↔ MemoryCanonical s := by simp [State.clearWhole]

@[simp] theorem State.copyCount_canonical (s : State) (m : Msg) (us : List WUnit) (hs : MemoryCanonical s) :
    MemoryCanonical (s.copyCount m us) := by
  unfold State.copyCount
  split
  · refine State.foldl_canonical_of _ _ hs fun t d ht => ?_
    dsimp only
    split
    · exact ht
    · simpa using ht
  · exact hs

@[simp] theorem State.applyUnit_canonical (s : State) (m : Msg) (us : List WUnit) (red : Fin 5) (bar : Option ℕ) (unit : ℕ)
    (hs : MemoryCanonical s) : OutcomeCanonical (s.applyUnit m us red bar unit) := by
  unfold State.applyUnit
  split
  · simp [hs]
  refine outcomeCanonical_ite_of (by simp [hs]) ?_
  split
  · simp [hs]
  case h_2 t hg =>
    have ht : MemoryCanonical t := by
      split at hg
      · exact (State.homeGrant_canonical _ _ _ _ hg).2 hs
      · cases hg; exact hs
    extract_lets tp tw done new t2 t3 t4
    have hw : MemoryCanonical tw := by
      refine memoryCanonical_ite_of ht ?_
      have hp : MemoryCanonical tp := memoryCanonical_ite_of (by simp [ht]) (by simp [ht])
      split
      · exact memoryCanonical_ite_of (by simp [hp]) hp
      · exact hp
    have hf : MemoryCanonical t2 := memoryCanonical_ite_of hw (by simp [hw])
    have hc : MemoryCanonical t3 := memoryCanonical_ite_of (by simp [hf]) hf
    have hd : MemoryCanonical t4 := memoryCanonical_ite_of (by simp [hc]) hc
    exact outcomeCanonical_ite_of (by simp [hd]) (by simp [hw])

@[simp] theorem execHomeStoreApply_canonical (msg unit : ℕ) (s : State) (hs : MemoryCanonical s) :
    OutcomeCanonical (execHomeStoreApply msg unit s) := by
  unfold execHomeStoreApply
  (repeat' split) <;> simp [hs]

@[simp] theorem State.signOp_canonical (s : State) (m : Msg) (va d : Word) (op : ℕ) :
    MemoryCanonical (s.signOp m va d op) ↔ MemoryCanonical s := by simp [State.signOp]

@[simp] theorem State.atomicReply_canonical (s : State) (m : Msg) (t : TagId) (po : ℕ) (va : Word) (dbl : Bool) (old : ℕ × Bool)
    (hs : MemoryCanonical s) :
    MemoryCanonical (s.atomicReply m t po va dbl old) := by simp [State.atomicReply, hs]

@[simp] theorem execAmoApply_canonical (msg : ℕ) (s : State) (hs : MemoryCanonical s) : OutcomeCanonical (execAmoApply msg s) := by
  unfold execAmoApply
  dsimp only
  split
  · simp [hs]
  split
  case h_2 => simp [hs]
  split
  · simp [hs]
  split
  · split
    · simp [hs]
    case h_2 hg =>
      have ht := (State.homeGrant_canonical _ _ _ _ hg).2 hs
      simp [ht]
  · simp [hs]

@[simp] theorem execCasApply_canonical (msg : ℕ) (s : State) (hs : MemoryCanonical s) : OutcomeCanonical (execCasApply msg s) := by
  unfold execCasApply
  dsimp only
  split
  · simp [hs]
  split
  case h_2 => simp [hs]
  split
  · simp [hs]
  split
  · split
    · simp [hs]
    case h_2 hg =>
      have ht := (State.homeGrant_canonical _ _ _ _ hg).2 hs
      split <;> simp [ht]
  · simp [hs]

theorem State.combineAt_canonical {s : State} (m : Msg) (a n : ℕ) {f : State → State} (hs : MemoryCanonical s)
    (hf : ∀ t, MemoryCanonical t → MemoryCanonical (f t)) : OutcomeCanonical (s.combineAt m a n f) := by
  unfold State.combineAt
  split
  · simp [hs]
  split
  · split
    · simp [hs]
    case h_2 hg => simp [hf _ ((State.homeGrant_canonical _ _ _ _ hg).2 hs)]
  · simp [hs]

@[simp] theorem State.contribute_canonical (s : State) (a : ℕ) (dbl : Bool) (op : AmoOp) (u : Bool) (cnt : ℕ) (x : Word) (poison : Bool)
    (hs : MemoryCanonical s) :
    MemoryCanonical (s.contribute a dbl op u cnt x poison) := by simp [State.contribute, hs]

@[simp] theorem execCredApply_canonical (msg : ℕ) (s : State) (hs : MemoryCanonical s) : OutcomeCanonical (execCredApply msg s) := by
  unfold execCredApply
  split
  · simp [hs]
  split
  · refine State.combineAt_canonical _ _ _ hs fun t ht => ?_
    extract_lets key u v
    have hu : MemoryCanonical u := by simp [u, ht]
    have hv : MemoryCanonical v := by simp [v, hu]
    clear_value v
    exact memoryCanonical_ite_of hu hv
  · simp [hs]

@[simp] theorem execBarInitApply_canonical (msg : ℕ) (s : State) (hs : MemoryCanonical s) : OutcomeCanonical (execBarInitApply msg s) := by
  unfold execBarInitApply
  split
  · simp [hs]
  split
  · exact State.combineAt_canonical _ _ _ hs fun t ht => by simp [ht]
  · simp [hs]

@[simp] theorem execBarrierArrivalApply_canonical (msg : ℕ) (s : State) (hs : MemoryCanonical s) :
    OutcomeCanonical (execBarrierArrivalApply msg s) := by
  unfold execBarrierArrivalApply
  split
  · simp [hs]
  split
  · exact State.combineAt_canonical _ _ _ hs fun t ht => by simp [ht]
  · simp [hs]

@[simp] theorem execBoundCopyWriteApply_canonical (msg : ℕ) (s : State) (hs : MemoryCanonical s) :
    OutcomeCanonical (execBoundCopyWriteApply msg s) := by
  unfold execBoundCopyWriteApply
  dsimp only
  (repeat' split) <;> simp [hs]

@[simp] theorem execBarWaitCheck_canonical (c : CoreId) (s : State) (hs : MemoryCanonical s) : OutcomeCanonical (execBarWaitCheck c s) := by
  unfold execBarWaitCheck
  dsimp only
  split
  case h_2 => simp [hs]
  split
  · simp [hs]
  split
  · simp [hs]
  · simp [hs]
  case h_3 hr =>
    have ht := (State.readGrant_canonical hr).2 hs
    split <;> simp [ht]

@[simp] theorem execBarWaitReturn_canonical (c : CoreId) (s : State) (hs : MemoryCanonical s) :
    OutcomeCanonical (execBarWaitReturn c s) := by
  unfold execBarWaitReturn
  dsimp only
  (repeat' split) <;> simp [hs]

@[simp] theorem State.writeGroup_canonical (s : State) (a : ℕ) (g : GroupRec) (poison : Bool) (hs : MemoryCanonical s) :
    MemoryCanonical (s.writeGroup a g poison) := by simp [State.writeGroup, hs]

@[simp] theorem execGroupOpApply_canonical (msg : ℕ) (s : State) (hs : MemoryCanonical s) : OutcomeCanonical (execGroupOpApply msg s) := by
  unfold execGroupOpApply
  split
  · simp [hs]
  split
  · exact State.combineAt_canonical _ _ _ hs fun t ht => by simp [ht]
  · simp [hs]

@[simp] theorem State.gbarReply_canonical (s : State) (num : ℕ) (p : Bool) : MemoryCanonical (s.gbarReply num p) ↔ MemoryCanonical s := by
  simp [State.gbarReply, memoryCanonical_iff, State.core]

@[simp] theorem execGbarArrivalApply_canonical (msg : ℕ) (s : State) (hs : MemoryCanonical s) :
    OutcomeCanonical (execGbarArrivalApply msg s) := by
  unfold execGbarArrivalApply
  split
  · simp [hs]
  split
  · dsimp only
    split
    · simp [hs]
    · exact State.combineAt_canonical _ _ _ hs fun t ht => by simp [ht]
  · simp [hs]

@[simp] theorem execGbarReturn_canonical (c : CoreId) (s : State) (hs : MemoryCanonical s) : OutcomeCanonical (execGbarReturn c s) := by
  unfold execGbarReturn
  dsimp only
  split
  case h_2 => simp [hs]
  split
  case h_2 => simp [hs]
  split
  · simp [hs]
  split
  · simp [hs]
  · simp [hs]
  case h_3 hr =>
    have ht := (State.readGrant_canonical hr).2 hs
    split
    · split <;> simp [ht]
    · split <;> simp [ht]

@[simp] theorem execRequestAck_canonical (c : CoreId) (n : ℕ) (s : State) (hs : MemoryCanonical s) :
    OutcomeCanonical (execRequestAck c n s) := by
  unfold execRequestAck
  split <;> simp [hs]

@[simp] theorem execFreeNoticeArrive_canonical (msg : ℕ) (s : State) (hs : MemoryCanonical s) :
    OutcomeCanonical (execFreeNoticeArrive msg s) := by
  unfold execFreeNoticeArrive
  (repeat' split) <;> simp [hs]

@[simp] theorem execSlotReleaseDepart_canonical (c : CoreId) (q : RingId) (s : State) (hs : MemoryCanonical s) :
    OutcomeCanonical (execSlotReleaseDepart c q s) := by
  unfold execSlotReleaseDepart
  dsimp only
  (repeat' split) <;> simp [hs]

@[simp] theorem State.errorRecords_canonical (s : State) (unit die a : ℕ) (hs : MemoryCanonical s) :
    MemoryCanonical (s.errorRecords unit die a) := by
  refine State.foldl_canonical_of _ _ hs fun t p ht => ?_
  split <;> simp [ht]

@[simp] theorem State.hbmError_canonical (s : State) (unit : ℕ) (hs : MemoryCanonical s) :
    MemoryCanonical (s.hbmError unit) := by simp [State.hbmError, hs]

@[simp] theorem State.cacheError_canonical (s : State) (d : DieId) (unit : ℕ) (hs : MemoryCanonical s) :
    MemoryCanonical (s.cacheError d unit) := by
  unfold State.cacheError
  dsimp only
  (repeat' split) <;> simp [hs]

@[simp] theorem execCacheMissRead_canonical (d : DieId) (block : ℕ) (s : State) (hs : MemoryCanonical s) :
    OutcomeCanonical (execCacheMissRead d block s) := by
  unfold execCacheMissRead
  dsimp only
  split
  · split <;> simp [hs]
  split
  · split <;> simp [hs]
  split
  · simp [hs]
  split
  · simp [hs]
  case h_2 hg =>
    have ht := (State.grant_canonical _ _ _ _ hg).2 ((State.takeNat_canonical s).2 hs)
    simp [ht]

@[simp] theorem execCompressedWriteback_canonical (d : DieId) (block : ℕ) (s : State) (hs : MemoryCanonical s) :
    OutcomeCanonical (execCompressedWriteback d block s) := by
  unfold execCompressedWriteback
  have hw {t : State} (ht : MemoryCanonical t) : MemoryCanonical { t with mem := t.mem.writeback t.pkg.mdbase block } :=
    ⟨Mem.wf_writeback _ _ _ ht.1, ht.2⟩
  split
  · simp [hs]
  split
  · simp [hw hs]
  split
  · simp [hs]
  split
  · simp [hs]
  case h_2 hg => simp [hw ((State.grant_canonical _ _ _ _ hg).2 hs)]

@[simp] theorem State.startMiss_canonical (s : State) (c : CoreId) : MemoryCanonical (s.startMiss c) ↔ MemoryCanonical s := by
  unfold State.startMiss
  split <;> simp

@[simp] theorem execWalkSlotGrant_canonical (d : DieId) (s : State) (hs : MemoryCanonical s) :
    OutcomeCanonical (execWalkSlotGrant d s) := by
  unfold execWalkSlotGrant
  dsimp only
  (repeat' split) <;> simp [hs]

theorem State.walkGrant_canonical {s t : State} (c : CoreId) (as : List ℕ) (h : s.walkGrant c as = some t) :
    MemoryCanonical t ↔ MemoryCanonical s := by
  induction as generalizing s with
  | nil => cases h; rfl
  | cons a as ih =>
    simp only [State.walkGrant, Option.bind_eq_some_iff] at h
    obtain ⟨u, ⟨v, ⟨w, hw, hv⟩, hu⟩, ht⟩ := h
    rw [ih ht, State.replyGrant_canonical _ _ _ _ hu, State.homeGrant_canonical _ _ _ _ hv, State.spineGrant_canonical _ _ _ _ hw]

@[simp] theorem State.cacheWalk_canonical (s : State) (d : DieId) (es : List WalkEntry) :
    MemoryCanonical (s.cacheWalk d es) ↔ MemoryCanonical s := by simp [State.cacheWalk]

@[simp] theorem execPageWalkComplete_canonical (c : CoreId) (n : ℕ) (s : State) (hs : MemoryCanonical s) :
    OutcomeCanonical (execPageWalkComplete c n s) := by
  unfold execPageWalkComplete
  split
  · simp [hs]
  extract_lets t r gone
  split
  · simp [hs]
  split
  · simp [hs]
  split
  · simp [gone, hs]
  split
  · simp [hs]
  case h_2 hg =>
    have hu := (State.walkGrant_canonical _ _ hg).2 (by simpa [t] using hs)
    extract_lets u
    have hu : MemoryCanonical u := by simpa [u] using hu
    clear_value u
    split
    case h_1 v _ _ _ =>
      have hv : MemoryCanonical v.2 := by simpa [v] using hu
      clear_value v
      simp [gone, hv]
    case h_2 => simp [hu]

end Sys2Proof.Machine

end

section

/-! ## O59: the events of the scheduler, of faults, contexts, the host, the links and the boot -/

namespace Sys2Proof.Machine

-- `simp` discharges the side conditions of the conditional frame rules by `rfl` rules, which unify only above reducible transparency.
set_option backward.isDefEq.respectTransparency false

@[simp] theorem State.hostErr_canonical (s : State) (b : Agent) (bit off : ℕ) :
    MemoryCanonical (s.hostErr b bit off) ↔ MemoryCanonical s := Iff.rfl

@[simp] theorem State.hostReg_canonical (s : State) (b : Agent) (c : CoreId) (r : BitVec 12) (v : Word) (hs : MemoryCanonical s) :
    MemoryCanonical (s.hostReg b c r v) := by
  unfold State.hostReg
  split
  · exact hs
  split
  · simp [hs]
  split
  · exact hs
  split
  · simp [hs]
  split
  case h_1 hw => exact State.writeReg_canonical _ _ _ _ hs _ hw
  case h_2 => split <;> simp [hs]

@[simp] theorem execWaitbarRead_canonical (p : PartId) (q : QueueNo) (s : State) (hs : MemoryCanonical s) :
    OutcomeCanonical (execWaitbarRead p q s) := by
  unfold execWaitbarRead
  (repeat' split) <;> simp [hs]

@[simp] theorem State.beginHead_canonical (s : State) (p : PartId) (q : QueueNo) (l : Launch) (cs : List CoreId) :
    MemoryCanonical (s.beginHead p q l cs) ↔ MemoryCanonical s := by simp [State.beginHead]

@[simp] theorem State.assignAll_canonical (s : State) (l : Launch) (cs : List CoreId) :
    MemoryCanonical (s.assignAll l cs) ↔ MemoryCanonical s := by simp [State.assignAll]

@[simp] theorem execSchedulerGrant_canonical (p : PartId) (s : State) (hs : MemoryCanonical s) :
    OutcomeCanonical (execSchedulerGrant p s) := by
  unfold execSchedulerGrant
  (repeat' split) <;> simp [hs]

@[simp] theorem execCoreClearComplete_canonical (c : CoreId) (s : State) (hs : MemoryCanonical s) :
    OutcomeCanonical (execCoreClearComplete c s) := by
  unfold execCoreClearComplete
  split
  · split
    · exact (outcomeCanonical_next _).2 (State.modCore_canonical_of hs fun h => Core.clear_canonical _ _ _)
    · simp [hs]
  · simp [hs]

@[simp] theorem State.markRunning_canonical (s : State) (l : Launch) (hs : MemoryCanonical s) :
    MemoryCanonical (s.markRunning l) := by simp [State.markRunning, hs]

@[simp] theorem execIterationDispatch_canonical (c : CoreId) (s : State) (hs : MemoryCanonical s) :
    OutcomeCanonical (execIterationDispatch c s) := by
  unfold execIterationDispatch
  (repeat' split) <;> simp [hs]

@[simp] theorem execCoreRelease_canonical (c : CoreId) (s : State) (hs : MemoryCanonical s) : OutcomeCanonical (execCoreRelease c s) := by
  unfold execCoreRelease
  split <;> simp [hs]

@[simp] theorem State.bringItdone_canonical (s : State) (l : Launch) (hs : MemoryCanonical s) :
    MemoryCanonical (s.bringItdone l) := by simp [State.bringItdone, hs]

@[simp] theorem execLaunchComplete_canonical (p : PartId) (n : ℕ) (s : State) (hs : MemoryCanonical s) :
    OutcomeCanonical (execLaunchComplete p n s) := by
  unfold execLaunchComplete
  split
  · simp [hs]
  refine outcomeCanonical_ite_of (by simp [hs]) ?_
  extract_lets same bytes t u v
  have ht : MemoryCanonical t := memoryCanonical_ite_of (by simp [hs]) hs
  have hu : MemoryCanonical u := by simp [u, ht]
  clear_value u
  have hv : MemoryCanonical v := by
    simp only [v]
    split
    · exact memoryCanonical_ite_of (by simp [hu]) hu
    · exact hu
  simp [hv]

@[simp] theorem State.bufferError_canonical (s : State) (c : CoreId) (n : ℕ) (hs : MemoryCanonical s) :
    MemoryCanonical (s.bufferError c n) := by simp [State.bufferError, hs]

@[simp] theorem State.passError_canonical (s : State) (c : CoreId) (n : ℕ) (hs : MemoryCanonical s) :
    MemoryCanonical (s.passError c n) := by
  unfold State.passError
  dsimp only
  (repeat' split) <;> simp [hs]

@[simp] theorem State.holdError_canonical (s : State) (c : CoreId) (n : ℕ) (hs : MemoryCanonical s) :
    MemoryCanonical (s.holdError c n) := by
  unfold State.holdError
  dsimp only
  (repeat' split) <;> simp [hs]

@[simp] theorem State.logError_canonical (s : State) (c : CoreId) (n : ℕ) : MemoryCanonical (s.logError c n) ↔ MemoryCanonical s := by
  unfold State.logError
  dsimp only
  (repeat' split) <;> simp

@[simp] theorem State.sramErrors_canonical (s : State) (c : CoreId) (hs : MemoryCanonical s) : MemoryCanonical (s.sramErrors c) := by
  unfold State.sramErrors
  dsimp only
  (repeat' split) <;> simp [hs]

@[simp] theorem execCastTake_canonical (c : CoreId) (s : State) (hs : MemoryCanonical s) :
    OutcomeCanonical (execCastTake c s) := by simp [execCastTake, hs]

@[simp] theorem State.countStrike_canonical (s : State) (c : CoreId) (rollback : Bool) :
    MemoryCanonical (s.countStrike c rollback) ↔ MemoryCanonical s := Iff.rfl

@[simp] theorem State.loggedWait_canonical (s : State) (c : CoreId) : MemoryCanonical (s.loggedWait c) ↔ MemoryCanonical s := by
  unfold State.loggedWait
  dsimp only
  (repeat' split) <;> simp

@[simp] theorem State.rollBack_canonical (s : State) (c : CoreId) (j estimate : ℕ) (hs : MemoryCanonical s) :
    MemoryCanonical (s.rollBack c j estimate) := by
  unfold State.rollBack
  dsimp only
  split
  · exact hs
  · refine State.rlogCore_canonical _ _ _ _ _ _ _ ((State.countStrike_canonical _ _ _).2 ((State.loggedWait_canonical _ _).2 ?_))
    refine State.setCore_canonical_of (by simp [hs]) ?_
    simpa using core_canonical hs c

@[simp] theorem State.noCast_canonical (s : State) (c : CoreId) (estimate : ℕ) (hs : MemoryCanonical s) :
    MemoryCanonical (s.noCast c estimate) := by
  unfold State.noCast
  extract_lets t
  have ht : MemoryCanonical t := by simp [t, hs]
  simp [ht]

@[simp] theorem State.applyStrike_canonical (s : State) (c : CoreId) (estimate : ℕ) (hs : MemoryCanonical s) :
    OutcomeCanonical (s.applyStrike c estimate) := by
  unfold State.applyStrike
  dsimp only
  (repeat' split) <;> simp [hs]

@[simp] theorem execStrikeReport_canonical (c : CoreId) (time estimate : ℕ) (s : State) (hs : MemoryCanonical s) :
    OutcomeCanonical (execStrikeReport c time estimate s) := by simp [execStrikeReport, hs]

@[simp] theorem State.resendFor_canonical (s : State) (b : SharedBlock) (p : PartId) (estimate : Word) (hs : MemoryCanonical s) :
    MemoryCanonical (s.resendFor b p estimate) := by simp [State.resendFor, hs]

@[simp] theorem State.blockResend_canonical (s : State) (b : SharedBlock) (estimate : Word) (hs : MemoryCanonical s) :
    MemoryCanonical (s.blockResend b estimate) := by
  exact State.foldl_canonical_of _ _ hs fun t p ht => State.resendFor_canonical _ _ _ _ ht

@[simp] theorem State.rejectFlit_canonical (s : State) (n : ℕ) (hs : MemoryCanonical s) : MemoryCanonical (s.rejectFlit n) := by
  unfold State.rejectFlit
  dsimp only
  split
  · exact hs
  case h_2 a x hf =>
    have hx : x.store = (s.core (Fin.ofNat 256 n)).store := by
      split at hf
      · split at hf
        · split at hf
          · simp only [Option.map_eq_some_iff, Prod.mk.injEq] at hf
            obtain ⟨u, -, -, rfl⟩ := hf
            rfl
          · cases hf
        · cases hf
      · split at hf
        · split at hf
          · cases hf
          · cases hf; rfl
        · cases hf
    have ht : MemoryCanonical (s.takeNat.2.setCore (Fin.ofNat 256 n) x) :=
      State.setCore_canonical_of (by simp [hs]) (by rw [hx]; exact core_canonical hs _)
    split
    · exact State.rlogCore_canonical _ _ _ _ _ _ _ ht
    · exact State.rlog_canonical _ _ _ _ _ _ ht

@[simp] theorem execResidueReject_canonical (msg : ℕ) (s : State) (hs : MemoryCanonical s) :
    OutcomeCanonical (execResidueReject msg s) := by
  unfold execResidueReject
  split <;> simp [hs]

@[simp] theorem execGuardDrop_canonical (msg : ℕ) (s : State) (hs : MemoryCanonical s) : OutcomeCanonical (execGuardDrop msg s) := by
  unfold execGuardDrop
  (repeat' split) <;> simp [hs]

@[simp] theorem State.forget_canonical (s : State) (m : Msg) : MemoryCanonical (s.forget m) ↔ MemoryCanonical s := by
  unfold State.forget
  extract_lets t
  have ht : MemoryCanonical t ↔ MemoryCanonical s := by simp [t]
  split
  · rw [← ht]
    refine State.modCore_canonical _ _ _ ?_
    rw [Core.foldl_store]
    exact fun _ _ => rfl
  · split <;> simp [ht]

@[simp] theorem execDropNoticeArrive_canonical (msg : ℕ) (s : State) (hs : MemoryCanonical s) :
    OutcomeCanonical (execDropNoticeArrive msg s) := by
  unfold execDropNoticeArrive
  split <;> simp [hs]

@[simp] theorem execBudgetWindow_canonical (s : State) (hs : MemoryCanonical s) : OutcomeCanonical (execBudgetWindow s) := by
  unfold execBudgetWindow
  split
  · simp [hs]
  · simpa [memoryCanonical_iff, State.core] using hs

@[simp] theorem State.ctxError_canonical (s : State) (c : CoreId) : MemoryCanonical (s.ctxError c) ↔ MemoryCanonical s := Iff.rfl

@[simp] theorem State.switchLoad_canonical (s : State) (p : PartId) (hs : MemoryCanonical s) : MemoryCanonical (s.switchLoad p) := by
  unfold State.switchLoad
  refine State.foldl_canonical_of _ _ hs fun t c ht => ?_
  dsimp only
  (repeat' split) <;> simp [ht]

@[simp] theorem State.writeRunning_canonical (s : State) (a : ℕ) (l : Launch) (hs : MemoryCanonical s) :
    MemoryCanonical (s.writeRunning a l) := by simp [State.writeRunning, hs]

@[simp] theorem State.pokeFlits_canonical (s : State) (a : ℕ) (xs : List VecWord) (hs : MemoryCanonical s) :
    MemoryCanonical (s.pokeFlits a xs) := by simp [State.pokeFlits, hs]

@[simp] theorem State.stowPort_canonical (s : State) (asid : Byte) (a : ℕ) (q : PortId) (hs : MemoryCanonical s) :
    MemoryCanonical (s.stowPort asid a q) := by simp [State.stowPort, hs]

theorem State.pokeFree_canonical (n a : ℕ) (s : State) (hs : MemoryCanonical s) : MemoryCanonical (State.pokeFree n a s) := by
  induction n generalizing a s with
  | zero => exact hs
  | succ n ih => exact ih _ _ (by simp [hs])

@[simp] theorem State.writePort_canonical (s : State) (a : ℕ) (q : PortId) (hs : MemoryCanonical s) :
    MemoryCanonical (s.writePort a q) := by
  unfold State.writePort
  extract_lets y t u
  have hu : MemoryCanonical u := by simp [u, t, hs]
  exact State.pokeFree_canonical _ _ _ hu

@[simp] theorem State.writeBlock_canonical (s : State) (p : PartId) (asid : Byte) (hs : MemoryCanonical s) :
    MemoryCanonical (s.writeBlock p asid) := by
  unfold State.writeBlock
  extract_lets base ls t u v
  refine memoryCanonical_ite_of hs ?_
  have ht : MemoryCanonical t := by simp [t, hs]
  have hu : MemoryCanonical u := State.foldl_canonical_of _ _ ht fun x _ hx => by simp [hx]
  have hv : MemoryCanonical v := State.foldl_canonical_of _ _ hu fun x _ hx => by dsimp only; split <;> simp [hx]
  exact State.foldl_canonical_of _ _ hv fun x _ hx => by simp [hx]

@[simp] theorem State.readRunning_canonical (s : State) (p : PartId) (asid : Byte) (a : ℕ) :
    MemoryCanonical (s.readRunning p asid a) ↔ MemoryCanonical s := Iff.rfl

@[simp] theorem State.switchTurn_canonical (s : State) (p : PartId) (hs : MemoryCanonical s) :
    MemoryCanonical (s.switchTurn p) := by simp [State.switchTurn, hs]

@[simp] theorem State.unstowPort_canonical (s : State) (to_ : Byte) (a : ℕ) (q : PortId) :
    MemoryCanonical (s.unstowPort to_ a q) ↔ MemoryCanonical s := Iff.rfl

@[simp] theorem State.resumePort_canonical (s : State) (to_ : Byte) (q : PortId) :
    MemoryCanonical (s.resumePort to_ q) ↔ MemoryCanonical s := by
  unfold State.resumePort
  split <;> simp

@[simp] theorem State.noteHeads_canonical (s : State) (p : PartId) :
    MemoryCanonical (s.noteHeads p) ↔ MemoryCanonical s := by simp [State.noteHeads]

@[simp] theorem State.switchEnd_canonical (s : State) (p : PartId) :
    MemoryCanonical (s.switchEnd p) ↔ MemoryCanonical s := by simp [State.switchEnd]

@[simp] theorem State.pausePort_canonical (s : State) (p : PartId) (a : Byte) (q : PortId) :
    MemoryCanonical (s.pausePort p a q) ↔ MemoryCanonical s := by simp [State.pausePort]

@[simp] theorem State.switchStart_canonical (s : State) (p : PartId) :
    MemoryCanonical (s.switchStart p) ↔ MemoryCanonical s := by simp [State.switchStart]

@[simp] theorem State.abandonWait_canonical (s : State) (c : CoreId) : MemoryCanonical (s.abandonWait c) ↔ MemoryCanonical s := by
  unfold State.abandonWait
  split <;> simp

@[simp] theorem State.park_canonical (s : State) (c : CoreId) : MemoryCanonical (s.park c) ↔ MemoryCanonical s := Iff.rfl

@[simp] theorem execCoreStop_canonical (c : CoreId) (s : State) (hs : MemoryCanonical s) : OutcomeCanonical (execCoreStop c s) := by
  unfold execCoreStop
  split <;> simp [hs]

@[simp] theorem State.writeSlot_canonical (s : State) (c : CoreId) (hs : MemoryCanonical s) : MemoryCanonical (s.writeSlot c) := by
  unfold State.writeSlot
  extract_lets k a t u v w x
  refine memoryCanonical_ite_of hs ?_
  have ht : MemoryCanonical t := by simp [t, hs]
  have hu : MemoryCanonical u := State.pokeFree_canonical _ _ _ ht
  clear_value u
  have hw : MemoryCanonical w := by simp [w, v, hu]
  clear_value w
  have hx : MemoryCanonical x := State.poke_canonical _ _ _ _ _ _ (by simp [hw])
  simp [hx]

@[simp] theorem execSaveComplete_canonical (c : CoreId) (s : State) (hs : MemoryCanonical s) : OutcomeCanonical (execSaveComplete c s) := by
  have hend {t : State} (gang : Bool) (ht : MemoryCanonical t) : OutcomeCanonical
      (let u := t.modCore c fun k => k.setStop .stopped
      if gang then .next (u.modPart (u.pmapOf c) fun x => { x with switch := { x.switch with saves := x.switch.saves.filter (· != c) } })
      else .next (u.ctxBusy c false)) := by
    dsimp only
    split <;> simp [ht]
  unfold execSaveComplete
  split
  case h_2 => simp [hs]
  exact outcomeCanonical_ite_of (by simp [hs]) (hend _ (s.writeSlot_canonical c hs))

theorem State.slotBuf_wf (s : State) (a n : ℕ) : (s.slotBuf a n).wf = true := Memory.wf_put _ _ rfl

@[simp] theorem State.readSlot_canonical (s : State) (c : CoreId) (asid : Byte) (img : Core) (a : ℕ) (hs : MemoryCanonical s) :
    MemoryCanonical (s.readSlot c asid img a) := by
  unfold State.readSlot
  extract_lets m wb ab cb
  have hwb : wb.wf = true := s.slotBuf_wf _ _
  have hab : ab.wf = true := s.slotBuf_wf _ _
  have hcb : cb.wf = true := s.slotBuf_wf _ _
  clear_value wb ab cb
  exact State.modCore_canonical_of hs fun _ => ⟨hwb, hab, hcb⟩

@[simp] theorem execLoadComplete_canonical (c : CoreId) (s : State) (hs : MemoryCanonical s) : OutcomeCanonical (execLoadComplete c s) := by
  unfold execLoadComplete
  dsimp only
  (repeat' split) <;> simp [hs]

@[simp] theorem State.writeApbase_canonical (s : State) (v : Word) :
    MemoryCanonical (s.writeApbase v) ↔ MemoryCanonical s := by simp [State.writeApbase]

@[simp] theorem State.abandonFar_canonical (s : State) (m : Msg) (hs : MemoryCanonical s) : MemoryCanonical (s.abandonFar m) := by
  unfold State.abandonFar
  (repeat' split) <;> simp [hs]

@[simp] theorem State.restartPort_canonical (s : State) (q : PortId) (hs : MemoryCanonical s) : MemoryCanonical (s.restartPort q) := by
  unfold State.restartPort
  extract_lets ms mine parts t u v
  have ht : MemoryCanonical t := by simp [t, hs]
  have hu : MemoryCanonical u := State.foldl_canonical_of _ _ ht fun x _ hx => by simp [hx]
  have hv : MemoryCanonical v := State.foldl_canonical_of _ _ hu fun x _ hx => by simp [hx]
  exact State.foldl_canonical_of _ _ hv fun x _ hx => by simp [hx]

@[simp] theorem State.writeLpctl_canonical (s : State) (q : PortId) (v : Word) (hs : MemoryCanonical s) :
    MemoryCanonical (s.writeLpctl q v) := by simp [State.writeLpctl, hs]

@[simp] theorem State.writePcap_canonical (s : State) (v : Word) : MemoryCanonical (s.writePcap v) ↔ MemoryCanonical s := Iff.rfl

@[simp] theorem State.writeTlimit_canonical (s : State) (v : Word) : MemoryCanonical (s.writeTlimit v) ↔ MemoryCanonical s := Iff.rfl

@[simp] theorem State.attGo_canonical (s : State) : MemoryCanonical s.attGo ↔ MemoryCanonical s := by simp [State.attGo]

@[simp] theorem State.writeGo_canonical (s : State) : MemoryCanonical s.writeGo ↔ MemoryCanonical s := by simp [State.writeGo]

@[simp] theorem State.writeMgmt_canonical (s : State) (i n v : ℕ) :
    MemoryCanonical (s.writeMgmt i n v) ↔ MemoryCanonical s := by simp [State.writeMgmt]

@[simp] theorem State.completed_canonical (s : State) (ur : Bool) : MemoryCanonical (s.completed ur) ↔ MemoryCanonical s := Iff.rfl

@[simp] theorem State.writeCtab_canonical (s : State) (v : Word) :
    MemoryCanonical (s.writeCtab v) ↔ MemoryCanonical s := by simp [State.writeCtab]

@[simp] theorem State.writeBlock8_canonical (s : State) (off : ℕ) (v : Word) (hs : MemoryCanonical s) :
    MemoryCanonical (s.writeBlock8 off v) := by
  unfold State.writeBlock8
  (repeat' split) <;> simp [hs]

@[simp] theorem State.windowWrite_canonical (s : State) (b : Agent) (a : ℕ) (whole : Bool) (v : Word) (hs : MemoryCanonical s) :
    MemoryCanonical (s.windowWrite b a whole v) := by
  unfold State.windowWrite
  (repeat' split) <;> simp [hs]

/-- The state in a host access's grant. -/
def HostGrant.Canonical (g : HostGrant) : Prop := match g with
  | .refused s | .ok s => MemoryCanonical s
  | .wait => True

theorem State.hostGrant_canonical {s : State} {b : Agent} {off a n : ℕ} {reply : Bool} {g : HostGrant}
    (h : s.hostGrant b off a n reply = g) (hs : MemoryCanonical s) : g.Canonical := by
  subst h
  unfold State.hostGrant
  dsimp only
  split
  · simp [HostGrant.Canonical, hs]
  split
  case h_1 hg =>
    simp only [Option.bind_eq_some_iff] at hg
    obtain ⟨u, ⟨v, hv, hu⟩, ht⟩ := hg
    exact (State.spineOn_canonical _ _ _ ht).2 ((State.homeGrant_canonical _ _ _ _ hu).2 ((State.spineOn_canonical _ _ _ hv).2 hs))
  case h_2 => trivial

@[simp] theorem execHostWrite_canonical (b : Agent) (addr : ℕ) (n : Fin 257) (v : BitVec 2048) (s : State) (hs : MemoryCanonical s) :
    OutcomeCanonical (execHostWrite b addr n v s) := by
  unfold execHostWrite
  refine outcomeCanonical_ite_of (by simp [hs]) (outcomeCanonical_ite_of (by simp [hs]) ?_)
  extract_lets o word
  split
  · simp [hs]
  · simp [hs]
  · simp [hs]
  · simp [hs]
  · split
    · split
      case h_1 hg => simp [show MemoryCanonical _ from State.hostGrant_canonical hg hs]
      case h_2 => simp [hs]
      case h_3 hg => simp [show MemoryCanonical _ from State.hostGrant_canonical hg hs]
    · simp [hs]
  · simp only [outcomeCanonical_next, State.completed_canonical]
    exact memoryCanonical_ite_of (by simp [hs]) (State.foldl_canonical_of _ _ hs fun t a ht => by simp [ht])
  · simp only [outcomeCanonical_next, State.completed_canonical]
    exact State.foldl_canonical_of _ _ hs fun t a ht => by simp [ht]

@[simp] theorem State.answerHost_canonical (s : State) (v : ℕ) : MemoryCanonical (s.answerHost v) ↔ MemoryCanonical s := Iff.rfl

@[simp] theorem State.hostRegRead_canonical (s : State) (b : Agent) (c : CoreId) (r : BitVec 12) :
    MemoryCanonical (s.hostRegRead b c r).2 ↔ MemoryCanonical s := by
  unfold State.hostRegRead
  (repeat' split) <;> simp

theorem State.windowBytes_canonical (s : State) (b : Agent) (as : List ℕ) :
    MemoryCanonical (s.windowBytes b as).2 ↔ MemoryCanonical s := by
  induction as generalizing s with
  | nil => rfl
  | cons a as ih =>
    simp only [State.windowBytes, ih]
    split
    · split
      · exact State.hostRegRead_canonical _ _ _ _
      · rfl
    · rfl

@[simp] theorem execHostRead_canonical (b : Agent) (addr : ℕ) (n : Fin 513) (s : State) (hs : MemoryCanonical s) :
    OutcomeCanonical (execHostRead b addr n s) := by
  unfold execHostRead
  refine outcomeCanonical_ite_of (by split <;> simp [hs]) (outcomeCanonical_ite_of ?_ (outcomeCanonical_ite_of (by simp [hs]) ?_))
  · exact (outcomeCanonical_next _).2 ((State.answerHost_canonical _ _).2 hs)
  extract_lets o
  split
  · simp [hs]
  · simp [hs]
  · simp [hs]
  · simp [hs]
  · split
    · split
      case h_1 hg => simp [show MemoryCanonical _ from State.hostGrant_canonical hg hs]
      case h_2 => simp [hs]
      case h_3 hg => simp [show MemoryCanonical _ from State.hostGrant_canonical hg hs]
    · simp [hs]
  · exact outcomeCanonical_ite_of (by simp [hs]) (by simp [hs])
  · exact (outcomeCanonical_next _).2 ((State.windowBytes_canonical _ _ _).2 hs)

@[simp] theorem State.inboundDrop_canonical (s : State) (q : PortId) (p : PartId) (kind : ℕ) (d : Dest) (type : ℕ)
    (hs : MemoryCanonical s) :
    MemoryCanonical (s.inboundDrop q p kind d type) := by
  unfold State.inboundDrop
  split <;> simp [hs]

@[simp] theorem State.farUnit_canonical (s : State) (q : PortId) (p : PartId) (c : CoreId) (n : CircNo) (seq : ℕ) (bs : List Byte)
    (hs : MemoryCanonical s) :
    MemoryCanonical (s.farUnit q p c n seq bs) := by
  unfold State.farUnit
  split
  · simp [hs]
  extract_lets k t
  split
  · exact hs
  extract_lets filling land slot x
  have hland {l : Core} (hl : l.store = k.store) : (land l).store.Canonical :=
    Core.landFar_canonical _ _ _ _ _ _ _ (by simpa [hl] using core_canonical hs c)
  split
  · exact State.modCore_canonical_of hs fun _ => hland rfl
  split
  case h_1 hb => exact State.setCore_canonical_of hs (hland (Core.beginRemote_store hb))
  case h_2 => simp [t, hs]

@[simp] theorem State.farOpening_canonical (s : State) (q : PortId) (p : PartId) (chip source : ℕ) (c : CoreId) (n : CircNo) (r : RingId)
    (job size : ℕ) (hs : MemoryCanonical s) :
    MemoryCanonical (s.farOpening q p chip source c n r job size) := by
  unfold State.farOpening
  split <;> simp [hs]

@[simp] theorem State.farWrite_canonical (s : State) (q : PortId) (p : PartId) (chip : ℕ) (hs : MemoryCanonical s) :
    MemoryCanonical (s.farWrite q p chip) := by
  unfold State.farWrite
  dsimp only
  (repeat' split) <;> simp [hs]

@[simp] theorem State.deliverFlit_canonical (s : State) (q : PortId) (p : PartId) (x : VecWord) (hs : MemoryCanonical s) :
    MemoryCanonical (s.deliverFlit q p x) := by
  unfold State.deliverFlit
  refine State.foldl_canonical_of _ _ (by simp [hs]) fun t i ht => ?_
  dsimp only
  split
  · exact ht
  (repeat' split) <;> simp [ht]

@[simp] theorem State.chargeInbound_canonical (s : State) (q : PortId) (p : PartId) (hs : MemoryCanonical s) :
    MemoryCanonical (s.chargeInbound q p).1 := by
  unfold State.chargeInbound
  dsimp only
  (repeat' split) <;> simp [hs]

@[simp] theorem State.sendNak_canonical (s : State) (q : PortId) (nak : ℕ × Bool) :
    MemoryCanonical (s.sendNak q nak) ↔ MemoryCanonical s := Iff.rfl

theorem State.takeNext_canonical {s t : State} (q : PortId) (p : PartId) (x : VecWord) (h : s.takeNext q p x = some t)
    (hs : MemoryCanonical s) :
    MemoryCanonical t := by
  unfold State.takeNext at h
  (repeat' split at h) <;> cases h <;> simp [hs]

theorem State.deliverAhead_canonical (q : PortId) (p : PartId) (n : ℕ) (s : State) (hs : MemoryCanonical s) :
    MemoryCanonical (State.deliverAhead q p n s) := by
  induction n generalizing s with
  | zero => exact hs
  | succ n ih =>
    unfold State.deliverAhead
    dsimp only
    split
    · exact hs
    split
    · exact hs
    split
    · exact hs
    case h_2 ht => exact ih _ (by simp [State.takeNext_canonical _ _ _ ht hs])

@[simp] theorem State.takeSeq_canonical (s : State) (q : PortId) (p : PartId) (x : VecWord) (hs : MemoryCanonical s) :
    MemoryCanonical (s.takeSeq q p x) := by
  unfold State.takeSeq
  dsimp only
  refine memoryCanonical_ite_of ?_ (memoryCanonical_ite_of ?_ hs)
  · split
    case h_1 ht => exact State.deliverAhead_canonical _ _ _ _ (State.takeNext_canonical _ _ _ ht hs)
    case h_2 => simp [hs]
  · split <;> simp [hs]

@[simp] theorem execLinkFlitReceive_canonical (q : PortId) (s : State) (hs : MemoryCanonical s) :
    OutcomeCanonical (execLinkFlitReceive q s) := by
  unfold execLinkFlitReceive
  dsimp only
  (repeat' split) <;> simp [hs]

@[simp] theorem State.portDown_canonical (s : State) (q : PortId) :
    MemoryCanonical (s.portDown q) ↔ MemoryCanonical s := by simp [State.portDown]

@[simp] theorem State.resend_canonical (s : State) (q : PortId) (seq : ℕ) (pause : Bool) :
    MemoryCanonical (s.resend q seq pause) ↔ MemoryCanonical s := by
  unfold State.resend
  dsimp only
  (repeat' split) <;> simp

@[simp] theorem execLinkNakResend_canonical (q : PortId) (s : State) (hs : MemoryCanonical s) :
    OutcomeCanonical (execLinkNakResend q s) := by
  unfold execLinkNakResend
  dsimp only
  (repeat' split) <;> simp [hs]

@[simp] theorem execPortTrained_canonical (q : PortId) (s : State) (hs : MemoryCanonical s) : OutcomeCanonical (execPortTrained q s) := by
  unfold execPortTrained
  extract_lets x t ack
  have ht : MemoryCanonical t.2 := hs
  refine outcomeCanonical_ite_of ((outcomeCanonical_next _).2 hs) (outcomeCanonical_ite_of ?_ (outcomeCanonical_ite_of ?_ ?_))
  · exact (outcomeCanonical_next _).2 ((State.portDown_canonical _ _).2 ht)
  · exact (outcomeCanonical_next _).2 ((State.portDown_canonical _ _).2 ((State.modPort_canonical _ _ _).2 ht))
  · exact (outcomeCanonical_next _).2 ((State.modPort_canonical _ _ _).2 ht)

theorem memoryCanonical_reset : MemoryCanonical State.reset :=
  ⟨rfl, fun c => by
    have hc : State.reset.core c = .reset := by simp [State.reset, State.core]
    rw [hc]
    exact ⟨rfl, rfl, rfl⟩⟩

@[simp] theorem State.fresh_canonical (s : State) : MemoryCanonical s.fresh := memoryCanonical_reset

@[simp] theorem State.prepareCore_canonical (s : State) (c : CoreId) (entry : ℕ) :
    MemoryCanonical (s.prepareCore c entry) ↔ MemoryCanonical s := by
  unfold State.prepareCore
  extract_lets a b
  have hb : MemoryCanonical b.2 ↔ MemoryCanonical s := by simp [b, a]
  rw [← hb]
  refine State.modCore_canonical _ _ _ ?_
  simp only [Core.setFront_store, Core.modRegs_store]

@[simp] theorem State.prepare_canonical (s : State) (hs : MemoryCanonical s) : MemoryCanonical s.prepare := by
  have hdir {t : State} (ht : MemoryCanonical t) : MemoryCanonical
      { t.takeNat.2 with pkg := { t.takeNat.2.pkg with ctxdir := BitVec.ofNat 64 (t.takeNat.1 % 2 ^ 27 * 2 ^ 12) } } := ht
  have hcores {t : State} (entry : ℕ) (ht : MemoryCanonical t) :
      MemoryCanonical ((List.finRange 256).foldl (fun s c => s.prepareCore c entry) t) :=
    State.foldl_canonical_of _ _ ht fun x c hx => (x.prepareCore_canonical c entry).2 hx
  unfold State.prepare
  refine hcores _ (hdir (State.foldl_canonical_of _ _ ?_ fun _ _ hx => hx))
  exact State.poke_canonical _ _ _ _ _ _ hs

@[simp] theorem State.release_canonical (s : State) : MemoryCanonical s.release ↔ MemoryCanonical s := by
  simp [State.release, memoryCanonical_iff, State.core]

@[simp] theorem execBootStage_canonical (ok : Bool) (s : State) (hs : MemoryCanonical s) : OutcomeCanonical (execBootStage ok s) := by
  unfold execBootStage
  dsimp only
  (repeat' split) <;> simp [hs]

end Sys2Proof.Machine

end

section

/-! ## O59: instructions, and the step -/

namespace Sys2Proof.Machine

-- `simp` discharges the side conditions of the conditional frame rules by `rfl` rules, which unify only above reducible transparency.
set_option backward.isDefEq.respectTransparency false

/-- Every instruction and every event keeps memory canonical. The ones unfolded here are each one shared operation; the others have a
rule of their own above. -/
@[simp] theorem exec_canonical (i : Instr) (s : State) (hs : MemoryCanonical s) : OutcomeCanonical (exec i s) := by
  cases i <;> simp [exec,
    execAdd, execSub, execAddi, execMul, execMulh, execMulhu, execDiv, execDivu, execRem, execRemu, execAnd, execOr, execXor, execAndn,
    execShl, execShr, execSra, execRot, execClz, execCtz, execPopc, execMin, execMax, execMinu, execMaxu, execSext, execZext, execBfx,
    execBfi, execMov, execMovi, execMovhi, execSel, execCmp, execLea, execFadd, execFsub, execFmul, execFfma, execFmin, execFmax,
    execFcmp, execFcvt, execBr, execBc, execCall, execRet, execJmpr, execLoop, execLoopi, execEndit, execTrap, execNop, execPause,
    execGetc, execSetc, execVadd, execVsub, execVmul, execVfma, execVfms, execVnfma, execVmin, execVmax, execVabs, execVneg, execVcmp,
    execVsel, execVand, execVor, execVxor, execVnot, execVshl, execVshr, execVsra, execVadds, execVmulh, execVdot2, execVexp2,
    execVlog2, execVrcp, execVrsqrt, execVsqrt, execVtanh, execVsigm, execVperm, execVrot, execVslide, execVcompact, execVexpand,
    execVredsum, execVredmax, execVredmin, execVscan, execVtopk, execVbmand, execVpopc, execVpfx, execVcvt, execVquantScale, execVquant,
    execVdequant, execVpack, execVunpack, execVrnd, execPand, execPor, execPxor, execPnot, execPcnt, execPfirst, execLd, execSt,
    execLdacq, execStrel, execVld, execVst, execVgather, execVscatter, execAlign, execFence, execTokw, execCarve, execWload, execMmap,
    execPlane, execSbind, execFeed, execFeedx, execDrain, execAclr, execPstat, execQreset, execCdef, execCgo, execCdem, execCwait,
    execWdriveAbort, execWstat, execLwait, execLwaitT, execRett, execFreeze, execThaw, execReleaseWaitEnd, execCopyBlock, execCopyDone,
    execLqDoorWrite, execHeadStarving, execDeadlockDetect, execSharedBlockStrike, execLockstepMismatch, execHbmScrubPass,
    execHbmErrSample, execGangSwitch, execAcceptWrite, execAccept3Write, execCoreCtlWrite, execLqCfgWrite, execSwitchAtWrite,
    execPmapWrite, execPctlWrite, execCalWrite, execRtabxWrite, execBudgetWrite, execFeedBudWrite, execMdbaseWrite, execApbaseWrite,
    execLpctlWrite, execPcapWrite, execTlimitWrite, execAttCtlGo, execRegisterWrite, execVfFunctionReset, execPfFunctionReset,
    execLinkResendTimeout, execPortRetrain, execTimeExchange, execPowerRamp, execRstNAssert, execRstNRelease,
    execServiceProcessorStrike, execGovernorSample, execThermtrip, execAttReportReady, execPowerRemoval, execTlbEntryLeave, hs]

@[simp] theorem stepWord_canonical (w : ℕ) (s : State) (hs : MemoryCanonical s) : OutcomeCanonical (stepWord w s) := by
  unfold stepWord
  split <;> simp [hs]

@[simp] theorem stepFront_canonical (c : CoreId) (refetch : Bool) (s : State) (hs : MemoryCanonical s) :
    OutcomeCanonical (stepFront c refetch s) := by
  have ht {r : Fetched} (h : State.fetch { s with cur := c } c refetch = r) : MemoryCanonical r.state := State.fetch_canonical h hs
  unfold stepFront
  split
  case h_1 hf => exact (outcomeCanonical_next _).2 (ht hf)
  case h_2 t u hf => exact (outcomeCanonical_next _).2 (u.takeTrap_canonical _ _ _ (ht hf))
  case h_3 hf => exact stepWord_canonical _ _ (ht hf)

@[simp] theorem stepBoundary_canonical (c : CoreId) (refetch : Bool) (s : State) (hs : MemoryCanonical s) :
    OutcomeCanonical (stepBoundary c refetch s) := by
  have ho : OutcomeCanonical (stepFront c refetch s) := stepFront_canonical c refetch s hs
  unfold stepBoundary
  dsimp only
  split
  · split
    case h_1 h =>
      split
      · exact ho
      · exact execEngineFaultTaken_canonical c s hs
    case h_2 => exact ho
  · exact ho

@[simp] theorem stepStrike_canonical (c : CoreId) (s : State) (hs : MemoryCanonical s) : OutcomeCanonical (stepStrike c s) := by
  unfold stepStrike
  split <;> simp [hs]

@[simp] theorem stepAct_canonical (a : Act) (s : State) (hs : MemoryCanonical s) : OutcomeCanonical (stepAct a s) := by
  unfold stepAct
  split
  · simp [hs]
  · (repeat' split) <;> simp [hs]
  · simp [hs]
  · split <;> simp [hs]
  · simp [hs]
  · simp [hs]

theorem State.nextTurn_canonical (s : State) : MemoryCanonical s.nextTurn.2 ↔ MemoryCanonical s := by
  unfold State.nextTurn
  split
  · rfl
  · dsimp only
    split
    · rfl
    · split <;> rfl

theorem State.pass_canonical (s : State) (n : ℕ) : MemoryCanonical (s.pass n) ↔ MemoryCanonical s := Iff.rfl

/-- Settles O59: the turn and the clock touch no memory, and every instruction and event writes HBM and the buffers only through
operations that keep the canonical form. -/
theorem stepKeepsMemoryCanonical : Obligations.StepKeepsMemoryCanonical := by
  unfold Obligations.StepKeepsMemoryCanonical
  intro s t hs h
  have hp : MemoryCanonical (s.nextTurn.2.pass s.nextTurn.1.wait) := (State.pass_canonical _ _).2 ((State.nextTurn_canonical s).2 hs)
  have ho : OutcomeCanonical (step s) := outcomeCanonical_ite_of ((outcomeCanonical_next _).2 hp) (stepAct_canonical _ _ hp)
  exact ho t h

end Sys2Proof.Machine

end

section

/-! ## O57: the shared operations go on

An outcome advances if it is a next state. An operation that two or more instructions or events share has a rule here. -/

namespace Sys2Proof.Machine

/-- An outcome that is neither a fault nor a refusal. -/
def OutcomeAdvances (o : Outcome) : Prop := ∃ t, o = .next t

@[simp] theorem outcomeAdvances_next (s : State) : OutcomeAdvances (.next s) := ⟨s, rfl⟩

@[simp] theorem outcomeAdvances_ite (p : Prop) [Decidable p] (a b : Outcome) :
    OutcomeAdvances (if p then a else b) ↔ if p then OutcomeAdvances a else OutcomeAdvances b := by split <;> rfl

theorem outcomeAdvances_ite_of {p : Prop} [Decidable p] {a b : Outcome} (ha : OutcomeAdvances a) (hb : OutcomeAdvances b) :
    OutcomeAdvances (if p then a else b) := by split <;> assumption

/-- A word goes on where its own effect does: every check of R138 that fails has a next state of its own. -/
@[simp] theorem State.issue_advances {s : State} {i : Instr} {h : Hdr} {u : Use} {eff : State → Outcome} (he : OutcomeAdvances (eff s)) :
    OutcomeAdvances (s.issue i h u eff) := by
  unfold State.issue
  split
  · simp
  · simp
  · simp
  · exact he

/-- A word that completes, or waits, where it issues. -/
theorem State.issue_next_advances {s : State} {i : Instr} {h : Hdr} {u : Use} {g : State → State} :
    OutcomeAdvances (s.issue i h u fun t => .next (g t)) := State.issue_advances (outcomeAdvances_next _)

/-- A memory word goes on where what it does with its pieces does. -/
theorem State.withMem_advances {s : State} {sp : Space} {acc : Access} {align : ℕ} {xs : List (Word × ℕ)}
    {k : State → List (List Piece) → Option Need → Outcome} {deny blocks : Bool} {stream : Access}
    (hk : ∀ t ps need, OutcomeAdvances (k t ps need)) : OutcomeAdvances (s.withMem sp acc align xs k deny blocks stream) := by
  unfold State.withMem
  dsimp only
  (repeat' split) <;> simp [hk]

theorem State.recordWord_advances {s : State} {i : Instr} {h : Hdr} {srcs : List (Reg × Fin 4)} {base : SReg} {off : BitVec 24}
    {align : ℕ} {deny : State → Bool} {k : State → ℕ → Word → Option Need → Outcome} {blocks : Bool}
    (hk : ∀ t a va need, OutcomeAdvances (k t a va need)) : OutcomeAdvances (s.recordWord i h srcs base off align deny k blocks) :=
  State.issue_advances (State.withMem_advances fun _ _ _ => hk ..)

theorem State.withEntry_advances {s : State} {e : EntryNo} {k : State → CopyEntry → Outcome} (hk : ∀ x, OutcomeAdvances (k s x)) :
    OutcomeAdvances (s.withEntry e k) := by
  unfold State.withEntry
  dsimp only
  split
  · simp
  · simp
  · exact hk _

@[simp] theorem State.withHead_advances (s : State) (c : CoreId) (x : PoolQ) (f : QEntry → State → State) :
    OutcomeAdvances (s.withHead c x f) := by
  unfold State.withHead
  split <;> simp

@[simp] theorem State.loadWord_advances (s : State) (h : Hdr) (dst : Reg) (mask : VecWord) (kind : LoadKind) (sp : Space)
    (us : List LoadUnit) (acq : Option Scope) (lat : ℕ) (need : Option Need) :
    OutcomeAdvances (s.loadWord h dst mask kind sp us acq lat need) :=
  outcomeAdvances_ite_of (outcomeAdvances_next _) (outcomeAdvances_next _)

@[simp] theorem State.storeWord_advances (s : State) (h : Hdr) (act : StoreAct) (rel : Option Scope) (need : Option Need) :
    OutcomeAdvances (s.storeWord h act rel need) :=
  outcomeAdvances_ite_of (outcomeAdvances_next _) (outcomeAdvances_next _)

@[simp] theorem State.atomicWord_advances (s : State) (h : Hdr) (d : SReg) (t : TagId) (scope : Scope) (ord : Ord) (r : Req) (addr : ℕ)
    (need : Option Need) : OutcomeAdvances (s.atomicWord h d t scope ord r addr need) :=
  outcomeAdvances_ite_of (outcomeAdvances_next _) (outcomeAdvances_next _)

@[simp] theorem State.applyUnit_advances (s : State) (m : Msg) (us : List WUnit) (red : Fin 5) (bar : Option ℕ) (unit : ℕ) :
    OutcomeAdvances (s.applyUnit m us red bar unit) := by
  unfold State.applyUnit
  split
  · simp
  · refine outcomeAdvances_ite_of (outcomeAdvances_next s) ?_
    split
    · simp
    · exact outcomeAdvances_ite_of (outcomeAdvances_next _) (outcomeAdvances_next _)

@[simp] theorem State.combineAt_advances (s : State) (m : Msg) (a n : ℕ) (f : State → State) : OutcomeAdvances (s.combineAt m a n f) := by
  unfold State.combineAt
  (repeat' split) <;> simp

@[simp] theorem State.applyStrike_advances (s : State) (c : CoreId) (estimate : ℕ) : OutcomeAdvances (s.applyStrike c estimate) := by
  unfold State.applyStrike
  extract_lets
  split
  · simp
  · simp
  · simp
  · split <;> simp

end Sys2Proof.Machine

end

section

/-! ## O57: the words of a front end go on

A word of a shape of its own has a rule; words that test the state in their own effect are taken together, since splitting the
tests leaves a next state each time. -/

namespace Sys2Proof.Machine

@[simp] theorem State.scalarOp_advances (s : State) (i : Instr) (h : Hdr) (lat : ℕ) (srcs : List (Reg × Fin 4)) (locks : List Reg)
    (d : SReg) (f : Front → Word) : OutcomeAdvances (s.scalarOp i h lat srcs locks d f) := State.issue_next_advances

@[simp] theorem State.scalar2_advances (s : State) (i : Instr) (h : Hdr) (lat : ℕ) (d a b : SReg) (f : Word → Word → Word) :
    OutcomeAdvances (s.scalar2 i h lat d a b f) := State.scalarOp_advances ..

@[simp] theorem State.scalar1_advances (s : State) (i : Instr) (h : Hdr) (lat : ℕ) (d a : SReg) (f : Word → Word) :
    OutcomeAdvances (s.scalar1 i h lat d a f) := State.scalarOp_advances ..

@[simp] theorem State.shiftOp_advances (s : State) (i : Instr) (h : Hdr) (w : IWidth) (d a : SReg) (n : ShAmt)
    (f : {n : ℕ} → BitVec n → ℕ → BitVec n) : OutcomeAdvances (s.shiftOp i h w d a n f) := by
  unfold State.shiftOp
  split <;> simp

@[simp] theorem State.fpOp_advances (s : State) (i : Instr) (h : Hdr) (rm : Rnd) (srcs : List (Reg × Fin 4)) (locks : List Reg)
    (d : SReg) (f : Front → RMode → ℕ → Word × FFlags) : OutcomeAdvances (s.fpOp i h rm srcs locks d f) := State.issue_next_advances

@[simp] theorem State.laneOp_advances (s : State) (i : Instr) (h : Hdr) (lat : ℕ) (srcs : List (Reg × Fin 4)) (locks : List Reg)
    (d : VReg) (rm : Rnd) (n : ℕ) (f : Front → RMode → ℕ → Lane × FFlags) (feature : ℕ) :
    OutcomeAdvances (s.laneOp i h lat srcs locks d rm n f feature) := State.issue_next_advances

@[simp] theorem State.elem2_advances (s : State) (i : Instr) (h : Hdr) (t : VTy) (rm : Rnd) (d a b : VReg) (ff : Num → Num → Num × Bool)
    (fi : ℤ → ℤ → ℤ) : OutcomeAdvances (s.elem2 i h t rm d a b ff fi) := by simp [State.elem2]

@[simp] theorem State.elem3_advances (s : State) (i : Instr) (h : Hdr) (t : FTy) (rm : Rnd) (d a b c : VReg)
    (ff : Num → Num → Num → Num × Bool) : OutcomeAdvances (s.elem3 i h t rm d a b c ff) := by simp [State.elem3]

@[simp] theorem State.lane2_advances (s : State) (i : Instr) (h : Hdr) (lat : ℕ) (d a b : VReg) (f : Lane → Lane → Lane × FFlags) :
    OutcomeAdvances (s.lane2 i h lat d a b f) := State.laneOp_advances ..

@[simp] theorem State.lane1_advances (s : State) (i : Instr) (h : Hdr) (lat : ℕ) (d a : VReg) (f : Lane → Lane) :
    OutcomeAdvances (s.lane1 i h lat d a f) := State.laneOp_advances ..

@[simp] theorem State.vshift_advances (s : State) (i : Instr) (h : Hdr) (t : ITy) (d a : VReg) (n : VShAmt) (f : ℕ → ℕ → ℕ → ℕ) :
    OutcomeAdvances (s.vshift i h t d a n f) := by
  unfold State.vshift
  split <;> simp

@[simp] theorem State.specialOp_advances (s : State) (i : Instr) (h : Hdr) (rm : Rnd) (d a : VReg)
    (f : RMode → ℕ → Lane → Lane × FFlags) : OutcomeAdvances (s.specialOp i h rm d a f) := State.issue_next_advances

@[simp] theorem State.reduceOp_advances (s : State) (i : Instr) (h : Hdr) (d : SReg) (a : VReg) (c : PReg)
    (f : VecWord → Word → Word × FFlags) : OutcomeAdvances (s.reduceOp i h d a c f) := State.issue_next_advances

@[simp] theorem State.convOp_advances (s : State) (i : Instr) (h : Hdr) (t : CvtTy) (srcs : List (Reg × Fin 4)) (d : VReg) (rm : Rnd)
    (n : ℕ) (f : Front → RMode → ℕ → Lane × FFlags) : OutcomeAdvances (s.convOp i h t srcs d rm n f) :=
  State.issue_advances (outcomeAdvances_ite_of ⟨_, rfl⟩ ⟨_, rfl⟩)

@[simp] theorem State.predOp_advances (s : State) (i : Instr) (h : Hdr) (srcs : List (Reg × Fin 4)) (d : Reg) (f : Front → Word) :
    OutcomeAdvances (s.predOp i h srcs d f) := State.issue_next_advances

@[simp] theorem State.dispatch_advances (s : State) (i : Instr) (h : Hdr) (srcs : List (Reg × Fin 4)) (locks : List Reg) (x : PoolQ)
    (t : Tok) (op : Front → QOp) : OutcomeAdvances (s.dispatch i h srcs locks x t op) := by simp [State.dispatch]

@[simp] theorem State.transfer_advances (s : State) (h : Hdr) (lat : Option ℕ) (t : Word) (d : Done) :
    OutcomeAdvances (s.transfer h lat t d) := by simp [State.transfer]

@[simp] theorem State.startLoop_advances (s : State) (h : Hdr) (set1 : Bool) (count : Word) (off : BitVec 32) :
    OutcomeAdvances (s.startLoop h set1 count off) := by simp [State.startLoop]

@[simp] theorem State.userTrap_advances (s : State) (h : Hdr) (info : Word) : OutcomeAdvances (s.userTrap h info) := ⟨_, rfl⟩

@[simp] theorem State.walkFor_advances (s : State) (h : Hdr) (d : SReg) : OutcomeAdvances (s.walkFor h d) := ⟨_, rfl⟩

@[simp] theorem State.scalarLoad_advances (s : State) (i : Instr) (h : Hdr) (d base : SReg) (sp : Space) (wd : MWidth) (sx : Bool)
    (off : BitVec 24) (align : ℕ) (acq : Option Scope) : OutcomeAdvances (s.scalarLoad i h d base sp wd sx off align acq) :=
  State.issue_advances (State.withMem_advances fun _ _ _ => State.loadWord_advances ..)

@[simp] theorem State.scalarStore_advances (s : State) (i : Instr) (h : Hdr) (data base : SReg) (sp : Space) (wd : MWidth)
    (off : BitVec 24) (align : ℕ) (rel : Option Scope) : OutcomeAdvances (s.scalarStore i h data base sp wd off align rel) :=
  State.issue_advances (State.withMem_advances fun _ _ _ => State.storeWord_advances ..)

@[simp] theorem State.vectorLoad_advances (s : State) (i : Instr) (h : Hdr) (d : VReg) (base : SReg) (locks : List Reg) (sp : Space)
    (addr : Front → ℕ → Word) (gather : Bool) : OutcomeAdvances (s.vectorLoad i h d base locks sp addr gather) :=
  State.issue_advances (State.withMem_advances fun _ _ _ => State.loadWord_advances ..)

@[simp] theorem State.freezeWord_advances (s : State) (i : Instr) (h : Hdr) (f : FreezeSel) (a : SReg) (thaw : Bool) :
    OutcomeAdvances (s.freezeWord i h f a thaw) := by
  refine State.issue_advances ?_
  dsimp only
  split <;> simp

@[simp] theorem execAmo_advances (h : Hdr) (d base : SReg) (dbl : Bool) (scope : Scope) (ord : Ord) (op : AmoOp) (u : Bool)
    (off : BitVec 24) (s : State) : OutcomeAdvances (execAmo h d base dbl scope ord op u off s) :=
  State.issue_advances (State.withMem_advances fun _ _ _ => State.atomicWord_advances ..)

@[simp] theorem execCas_advances (h : Hdr) (d base : SReg) (dbl : Bool) (scope : Scope) (ord : Ord) (off : BitVec 24) (s : State) :
    OutcomeAdvances (execCas h d base dbl scope ord off s) :=
  State.issue_advances (State.withMem_advances fun _ _ _ => State.atomicWord_advances ..)

@[simp] theorem execBarInit_advances (h : Hdr) (data base : SReg) (scope : Scope) (off : BitVec 24) (s : State) :
    OutcomeAdvances (execBarInit h data base scope off s) := State.recordWord_advances fun _ _ _ _ => State.storeWord_advances ..

@[simp] theorem execBarArrive_advances (h : Hdr) (base : SReg) (rel : Bool) (scope : Scope) (off : BitVec 24) (s : State) :
    OutcomeAdvances (execBarArrive h base rel scope off s) := State.recordWord_advances fun _ _ _ _ => State.storeWord_advances ..

@[simp] theorem execGjoin_advances (h : Hdr) (base : SReg) (off : BitVec 24) (s : State) : OutcomeAdvances (execGjoin h base off s) :=
  State.recordWord_advances fun _ _ _ _ => State.storeWord_advances ..

@[simp] theorem State.vectorStore_advances (s : State) (i : Instr) (h : Hdr) (data : VReg) (base : SReg) (locks : List Reg) (sp : Space)
    (comb : Comb) (addr : Front → ℕ → Word) : OutcomeAdvances (s.vectorStore i h data base locks sp comb addr) :=
  State.issue_advances (State.withMem_advances fun _ _ _ => by split <;> simp)

@[simp] theorem State.lwaitWord_advances (s : State) (i : Instr) (h : Hdr) (d a : SReg) (test : Bool) :
    OutcomeAdvances (s.lwaitWord i h d a test) :=
  State.issue_advances (outcomeAdvances_ite_of (outcomeAdvances_next _) (State.withMem_advances fun _ _ _ => by split <;> simp))

@[simp] theorem State.startCopy_advances (s : State) (i : Instr) (h : Hdr) (e : EntryNo) (a b : SReg) (demand : Bool) :
    OutcomeAdvances (s.startCopy i h e a b demand) := by
  refine State.issue_advances (State.withEntry_advances fun x => outcomeAdvances_ite_of (outcomeAdvances_next _) ?_)
  split
  · simp
  · split
    · simp
    · exact outcomeAdvances_ite_of (State.withMem_advances fun _ _ _ => outcomeAdvances_next _) (outcomeAdvances_next _)

@[simp] theorem State.openCircuit_advances (s : State) (h : Hdr) (n : CircNo) (q : RingId) (w : Word) (size members : ℕ) :
    OutcomeAdvances (s.openCircuit h n q w size members) := by
  unfold State.openCircuit
  extract_lets k ds used chip port r s1
  obtain ⟨t, ht⟩ := s1.storeWord_advances h (.req r) none none
  rw [ht]
  simp

@[simp] theorem execCred_advances (h : Hdr) (data base : SReg) (dbl : Bool) (scope : Scope) (ord : Ord) (op : AmoOp) (u : Bool)
    (cm1 : Fin 16) (off : BitVec 24) (s : State) : OutcomeAdvances (execCred h data base dbl scope ord op u cm1 off s) := by
  refine State.recordWord_advances fun t a va need => ?_
  extract_lets k x n
  obtain ⟨v, hv⟩ := t.storeWord_advances h (.req (.cred a va dbl op u (cm1.val + 1) x n)) (Ord.release ord scope) need
  rw [hv]
  simp

@[simp] theorem execCcls_advances (h : Hdr) (n : CircNo) (s : State) : OutcomeAdvances (execCcls h n s) := by
  refine State.issue_advances ?_
  obtain ⟨t, ht⟩ := s.storeWord_advances h (.req (.close n)) none none
  simp [ht]

@[simp] theorem execQsave_advances (h : Hdr) (q : QueueNo) (a : SReg) (s : State) : OutcomeAdvances (execQsave h q a s) := by
  refine State.issue_advances (outcomeAdvances_ite_of (outcomeAdvances_next _) (State.withMem_advances fun t ps need => ?_))
  extract_lets p y n f ws
  obtain ⟨u, hu⟩ := t.storeWord_advances h (storeAct .g (storeUnits ((ws.map fun w => toBytes 8 w.toNat).zip ps)) .none) none need
  rw [hu]
  simp

@[simp] theorem execCirc_advances (h : Hdr) (n : CircNo) (q : RingId) (a b : SReg) (s : State) :
    OutcomeAdvances (execCirc h n q a b s) := by
  refine State.issue_advances ?_
  dsimp only
  (repeat' split) <;> simp

@[simp] theorem execLaunch_advances (h : Hdr) (d a : SReg) (q : QueueNo) (s : State) : OutcomeAdvances (execLaunch h d a q s) := by
  refine State.issue_advances (State.withMem_advances fun t ps need => ?_)
  split <;> simp

@[simp] theorem execBarWait_advances (h : Hdr) (base : SReg) (scope : Scope) (ph : PhSrc) (off : BitVec 24) (s : State) :
    OutcomeAdvances (execBarWait h base scope ph off s) := by
  unfold execBarWait
  exact State.recordWord_advances fun _ _ _ _ => by simp

@[simp] theorem execGleave_advances (h : Hdr) (base : SReg) (off : BitVec 24) (s : State) : OutcomeAdvances (execGleave h base off s) :=
  State.recordWord_advances fun _ _ _ _ => by split <;> simp

@[simp] theorem execGbar_advances (h : Hdr) (base : SReg) (scope : Scope) (off : BitVec 24) (s : State) :
    OutcomeAdvances (execGbar h base scope off s) := State.recordWord_advances fun _ _ _ _ => by simp

@[simp] theorem execCstat_advances (h : Hdr) (d : SReg) (circuit : Bool) (n : Fin 64) (s : State) :
    OutcomeAdvances (execCstat h d circuit n s) :=
  State.issue_advances (outcomeAdvances_ite_of (outcomeAdvances_next _) (outcomeAdvances_ite_of (outcomeAdvances_next _)
    (State.withEntry_advances fun _ => outcomeAdvances_next _)))

@[simp] theorem execTlbi_advances (h : Hdr) (x : TlbScope) (k : TlbKind) (s : State) : OutcomeAdvances (execTlbi h x k s) := by
  unfold execTlbi
  exact State.issue_advances (outcomeAdvances_ite_of (outcomeAdvances_next _) (outcomeAdvances_next _))

@[simp] theorem execQload_advances (h : Hdr) (q : QueueNo) (a : SReg) (s : State) : OutcomeAdvances (execQload h q a s) :=
  State.issue_advances (outcomeAdvances_ite_of (outcomeAdvances_next _) (outcomeAdvances_ite_of (outcomeAdvances_next _)
    (outcomeAdvances_ite_of (outcomeAdvances_next _) (State.withMem_advances fun _ _ _ =>
      outcomeAdvances_ite_of (outcomeAdvances_next _) (outcomeAdvances_next _)))))

/-- The words of which the form of an operand chooses the operation. -/
@[simp] theorem operandForms_advance (s : State) :
    (∀ (h : Hdr) (d : VReg) (a : VBcastSrc), OutcomeAdvances (execVbcast h d a s)) ∧
    (∀ (h : Hdr) (f : VMovForm), OutcomeAdvances (execVmov h f s)) ∧
    (∀ (h : Hdr) (d : PReg) (f : PSetForm), OutcomeAdvances (execPset h d f s)) := by
  and_intros
  all_goals
    intros
    simp only [execVbcast, execVmov, execPset]
    split <;> simp

/-- The words whose own effect tests a ring, the tokens, a register or a core before it acts. -/
@[simp] theorem testingWords_advance (s : State) :
    (∀ (h : Hdr) (sp sn : Bool), OutcomeAdvances (execToks h sp sn s)) ∧
    (∀ (h : Hdr) (q : RingId) (a b : SReg), OutcomeAdvances (execQdef h q a b s)) ∧
    (∀ (h : Hdr) (q : RingId) (a : SReg), OutcomeAdvances (execQfill h q a s)) ∧
    (∀ (h : Hdr) (d : SReg) (q : RingId), OutcomeAdvances (execQpop h d q s)) ∧
    (∀ (h : Hdr) (d : SReg) (q : RingId), OutcomeAdvances (execQpopFree h d q s)) ∧
    (∀ (h : Hdr) (d : SReg) (q : RingId) (slot : Fin 64) (ptr : Bool), OutcomeAdvances (execQtag h d q slot ptr s)) ∧
    (∀ (h : Hdr) (r : BitVec 12) (a : SReg), OutcomeAdvances (execPwr h r a s)) ∧
    (∀ (h : Hdr) (a : SReg), OutcomeAdvances (execCtxsave h a s)) := by
  and_intros
  all_goals
    intros
    refine State.issue_advances ?_
    dsimp -failIfUnchanged only
    (repeat' split) <;> simp

end Sys2Proof.Machine

end

section

/-! ## O57: the events of the device go on

An event is a tree of tests with a next state at every leaf. The events of one part of the device are taken together. -/

namespace Sys2Proof.Machine

@[simp] theorem execSaveComplete_advances (c : CoreId) (s : State) : OutcomeAdvances (execSaveComplete c s) := by
  unfold execSaveComplete
  split
  · exact outcomeAdvances_ite_of (outcomeAdvances_next _) (outcomeAdvances_ite_of (outcomeAdvances_next _) (outcomeAdvances_next _))
  · simp

@[simp] theorem execPortTrained_advances (q : PortId) (s : State) : OutcomeAdvances (execPortTrained q s) := by
  unfold execPortTrained
  extract_lets x t ack
  exact outcomeAdvances_ite_of (outcomeAdvances_next _) (outcomeAdvances_ite_of (outcomeAdvances_next _)
    (outcomeAdvances_ite_of (outcomeAdvances_next _) (outcomeAdvances_next _)))

/-- The ends of the waits of a front end, and the trap of a queue or an engine. -/
@[simp] theorem frontEndWaits_advance (s : State) :
    (∀ c : CoreId, OutcomeAdvances (execPauseEnd c s)) ∧ (∀ c : CoreId, OutcomeAdvances (execWfiWake c s)) ∧
    (∀ c : CoreId, OutcomeAdvances (execTokwPop c s)) ∧ (∀ c : CoreId, OutcomeAdvances (execQpopTake c s)) ∧
    (∀ c : CoreId, OutcomeAdvances (execCwaitReturn c s)) ∧ (∀ c : CoreId, OutcomeAdvances (execGbarReturn c s)) ∧
    (∀ c : CoreId, OutcomeAdvances (execBarWaitCheck c s)) ∧ (∀ c : CoreId, OutcomeAdvances (execBarWaitReturn c s)) ∧
    (∀ c : CoreId, OutcomeAdvances (execLwaitReturn c s)) ∧ (∀ c : CoreId, OutcomeAdvances (execEngineFaultTaken c s)) := by
  and_intros
  all_goals
    intros
    simp only [execPauseEnd, execWfiWake, execTokwPop, execQpopTake, execCwaitReturn, execGbarReturn, execBarWaitCheck,
      execBarWaitReturn, execLwaitReturn, execEngineFaultTaken]
    (repeat' split) <;> simp

/-- The events of the load stream, the store stream and the hold-back buffer. -/
@[simp] theorem streamEvents_advance (s : State) :
    (∀ (c : CoreId) (t : TagId), OutcomeAdvances (execRegisterResultArrive c t s)) ∧
    (∀ (c : CoreId) (n : ℕ), OutcomeAdvances (execHoldbackDepart c n s)) ∧
    (∀ (c : CoreId) (b : Buf) (order : ℕ), OutcomeAdvances (execWriteAgePerform c b order s)) ∧
    (∀ (c : CoreId) (n unit : ℕ), OutcomeAdvances (execLoadPerform c n unit s)) ∧
    (∀ (c : CoreId) (n : ℕ), OutcomeAdvances (execRequestAck c n s)) := by
  and_intros
  all_goals
    intros
    simp only [execRegisterResultArrive, execHoldbackDepart, execWriteAgePerform, execLoadPerform, execRequestAck]
    (repeat' split) <;> simp

/-- The requests that a home or a combiner applies. -/
@[simp] theorem homeEvents_advance (s : State) :
    (∀ msg unit : ℕ, OutcomeAdvances (execHomeStoreApply msg unit s)) ∧ (∀ msg : ℕ, OutcomeAdvances (execBoundCopyWriteApply msg s)) ∧
    (∀ msg : ℕ, OutcomeAdvances (execAmoApply msg s)) ∧ (∀ msg : ℕ, OutcomeAdvances (execCasApply msg s)) ∧
    (∀ msg : ℕ, OutcomeAdvances (execCredApply msg s)) ∧ (∀ msg : ℕ, OutcomeAdvances (execBarInitApply msg s)) ∧
    (∀ msg : ℕ, OutcomeAdvances (execBarrierArrivalApply msg s)) ∧ (∀ msg : ℕ, OutcomeAdvances (execGroupOpApply msg s)) ∧
    (∀ msg : ℕ, OutcomeAdvances (execGbarArrivalApply msg s)) := by
  and_intros
  all_goals
    intros
    simp only [execHomeStoreApply, execBoundCopyWriteApply, execAmoApply, execCasApply, execCredApply, execBarInitApply,
      execBarrierArrivalApply, execGroupOpApply, execGbarArrivalApply]
    (repeat' split) <;> simp

/-- The other events of a message on its way. -/
@[simp] theorem messageEvents_advance (s : State) :
    (∀ msg : ℕ, OutcomeAdvances (execCircuitOpeningArrive msg s)) ∧ (∀ msg : ℕ, OutcomeAdvances (execCircuitReplyArrive msg s)) ∧
    (∀ msg : ℕ, OutcomeAdvances (execFreeNoticeArrive msg s)) ∧ (∀ msg : ℕ, OutcomeAdvances (execExtendedPartArrive msg s)) ∧
    (∀ msg : ℕ, OutcomeAdvances (execLaunchRequestArrive msg s)) ∧ (∀ msg : ℕ, OutcomeAdvances (execFreezeApply msg s)) ∧
    (∀ msg : ℕ, OutcomeAdvances (execResidueReject msg s)) ∧ (∀ msg : ℕ, OutcomeAdvances (execGuardDrop msg s)) ∧
    (∀ msg : ℕ, OutcomeAdvances (execDropNoticeArrive msg s)) := by
  and_intros
  all_goals
    intros
    simp only [execCircuitOpeningArrive, execCircuitReplyArrive, execFreeNoticeArrive, execExtendedPartArrive,
      execLaunchRequestArrive, execFreezeApply, execResidueReject, execGuardDrop, execDropNoticeArrive]
    (repeat' split) <;> simp

/-- The events of an open circuit. -/
@[simp] theorem circuitEvents_advance (s : State) :
    (∀ (c : CoreId) (n : CircNo), OutcomeAdvances (execCircuitFlitLeave c n s)) ∧
    (∀ (c : CoreId) (n : CircNo) (branch : Fin 16), OutcomeAdvances (execBranchFillBegin c n branch s)) ∧
    (∀ (c : CoreId) (n : CircNo) (branch : Fin 16), OutcomeAdvances (execCircuitFlitArrive c n branch s)) ∧
    (∀ (c : CoreId) (n : CircNo), OutcomeAdvances (execCircuitClosed c n s)) := by
  and_intros
  all_goals
    intros
    simp only [execCircuitFlitLeave, execBranchFillBegin, execCircuitFlitArrive, execCircuitClosed]
    (repeat' split) <;> simp

/-- The events of a lane of the pool. -/
@[simp] theorem poolEvents_advance (s : State) :
    (∀ (c : CoreId) (lane : LaneId), OutcomeAdvances (execPoolOperationFire c lane s)) ∧
    (∀ (c : CoreId) (lane : LaneId), OutcomeAdvances (execPassEnterResultStage c lane s)) ∧
    (∀ (c : CoreId) (lane : LaneId), OutcomeAdvances (execOperationRetire c lane s)) := by
  and_intros
  all_goals
    intros
    simp only [execPoolOperationFire, execPassEnterResultStage, execOperationRetire]
    (repeat' split) <;> simp

/-- The events of a ring and the read of a copy descriptor. -/
@[simp] theorem ringEvents_advance (s : State) :
    (∀ (c : CoreId) (q : RingId), OutcomeAdvances (execSlotReleaseDepart c q s)) ∧
    (∀ (c : CoreId) (q : RingId), OutcomeAdvances (execQdefTakeEffect c q s)) ∧
    (∀ (c : CoreId) (q : RingId), OutcomeAdvances (execQresetTakeEffect c q s)) ∧
    (∀ (c : CoreId) (q : RingId), OutcomeAdvances (execQfillSlotFull c q s)) ∧
    (∀ (c : CoreId) (e : EntryNo), OutcomeAdvances (execCdefReadComplete c e s)) := by
  and_intros
  all_goals
    intros
    simp only [execSlotReleaseDepart, execQdefTakeEffect, execQresetTakeEffect, execQfillSlotFull, execCdefReadComplete]
    (repeat' split) <;> simp

/-- The events of the block walker. -/
@[simp] theorem walkerEvents_advance (s : State) :
    (∀ c : CoreId, OutcomeAdvances (execFeltHeaderRead c s)) ∧ (∀ c : CoreId, OutcomeAdvances (execFeltActionPlace c s)) ∧
    (∀ c : CoreId, OutcomeAdvances (execWalkerToken c s)) ∧ (∀ c : CoreId, OutcomeAdvances (execFeltSuccessor c s)) ∧
    (∀ c : CoreId, OutcomeAdvances (execTagbrResolve c s)) := by
  and_intros
  all_goals
    intros
    simp only [execFeltHeaderRead, execFeltActionPlace, execWalkerToken, execFeltSuccessor, execTagbrResolve]
    (repeat' split) <;> simp

/-- The events of the scheduler and of a core that stops or loads. -/
@[simp] theorem schedulerEvents_advance (s : State) :
    (∀ (p : PartId) (q : QueueNo), OutcomeAdvances (execWaitbarRead p q s)) ∧ (∀ p : PartId, OutcomeAdvances (execSchedulerGrant p s)) ∧
    (∀ c : CoreId, OutcomeAdvances (execCoreClearComplete c s)) ∧ (∀ c : CoreId, OutcomeAdvances (execIterationDispatch c s)) ∧
    (∀ c : CoreId, OutcomeAdvances (execCoreRelease c s)) ∧ (∀ (p : PartId) (n : ℕ), OutcomeAdvances (execLaunchComplete p n s)) ∧
    (∀ c : CoreId, OutcomeAdvances (execCoreStop c s)) ∧ (∀ c : CoreId, OutcomeAdvances (execLoadComplete c s)) := by
  and_intros
  all_goals
    intros
    simp only [execWaitbarRead, execSchedulerGrant, execCoreClearComplete, execIterationDispatch, execCoreRelease, execLaunchComplete,
      execCoreStop, execLoadComplete]
    (repeat' split) <;> simp

/-- The events of the memory-side cache and of the table walkers. -/
@[simp] theorem memoryEvents_advance (s : State) :
    (∀ (d : DieId) (block : ℕ), OutcomeAdvances (execCacheMissRead d block s)) ∧
    (∀ (d : DieId) (block : ℕ), OutcomeAdvances (execCompressedWriteback d block s)) ∧
    (∀ d : DieId, OutcomeAdvances (execWalkSlotGrant d s)) ∧ (∀ (c : CoreId) (n : ℕ), OutcomeAdvances (execPageWalkComplete c n s)) := by
  and_intros
  all_goals
    intros
    simp only [execCacheMissRead, execCompressedWriteback, execWalkSlotGrant, execPageWalkComplete]
    (repeat' split) <;> simp

/-- The events of a port, of the host, and of the boot. -/
@[simp] theorem outerEvents_advance (s : State) :
    (∀ q : PortId, OutcomeAdvances (execLinkFlitReceive q s)) ∧ (∀ q : PortId, OutcomeAdvances (execLinkNakResend q s)) ∧
    (∀ (b : Agent) (addr : ℕ) (n : Fin 257) (v : BitVec 2048), OutcomeAdvances (execHostWrite b addr n v s)) ∧
    (∀ (b : Agent) (addr : ℕ) (n : Fin 513), OutcomeAdvances (execHostRead b addr n s)) ∧
    (∀ ok : Bool, OutcomeAdvances (execBootStage ok s)) := by
  and_intros
  all_goals
    intros
    simp only [execLinkFlitReceive, execLinkNakResend, execHostWrite, execHostRead, execBootStage]
    (repeat' split) <;> simp

end Sys2Proof.Machine

end

section

/-! ## O57: every instruction, and every step -/

namespace Sys2Proof.Machine

/-- Every instruction and every event goes on. The ones unfolded here are each one shared operation, or tests that `simp` can decide;
the others have a rule above. -/
theorem exec_advances (i : Instr) (s : State) : OutcomeAdvances (exec i s) := by
  cases i <;> simp [exec,
    execAdd, execSub, execAddi, execMul, execMulh, execMulhu, execDiv, execDivu, execRem, execRemu, execAnd, execOr, execXor,
    execAndn, execShl, execShr, execSra, execRot, execClz, execCtz, execPopc, execMin, execMax, execMinu, execMaxu, execSext,
    execZext, execBfx, execBfi, execMov, execMovi, execMovhi, execSel, execCmp, execLea, execFadd, execFsub, execFmul, execFfma,
    execFmin, execFmax, execFcmp, execFcvt, execBr, execBc, execCall, execRet, execJmpr, execLoop, execLoopi, execEndit, execTrap,
    execNop, execPause, execGetc, execSetc, execVadd, execVsub, execVmul, execVfma, execVfms, execVnfma, execVmin, execVmax, execVabs,
    execVneg, execVcmp, execVsel, execVand, execVor, execVxor, execVnot, execVshl, execVshr, execVsra, execVadds, execVmulh,
    execVdot2, execVexp2, execVlog2, execVrcp, execVrsqrt, execVsqrt, execVtanh, execVsigm, execVperm, execVrot, execVslide,
    execVcompact, execVexpand, execVredsum, execVredmax, execVredmin, execVscan, execVtopk, execVbmand, execVpopc, execVpfx, execVcvt,
    execVquantScale, execVquant, execVdequant, execVpack, execVunpack, execVrnd, execPand, execPor, execPxor, execPnot, execPcnt,
    execPfirst, execLd, execSt, execLdacq, execStrel, execVld, execVst, execVgather, execVscatter, execAlign, execFence, execTokw,
    execCarve, execWload, execMmap, execPlane, execSbind, execFeed, execFeedx, execDrain, execAclr, execPstat, execQreset, execCdef,
    execCgo, execCdem, execCwait, execWdrive, execWdriveNew, execWdriveAbort, execWstat, execLwait, execLwaitT, execRett, execPrd,
    execCast, execFreeze, execThaw, execWfi, execCtxload, execSysc, execHalt, execReleaseWaitEnd, execCarveBegin, execCarveRecordRead,
    execWloadSlotStep, execMmapBegin, execSbindBegin, execPlaneSwap, execFeedArm, execTokenEntryBegin, execDrainBegin,
    execDrainSlotFull, execAclrBegin, execCopyBlock, execCopyDone, execCopyCompletionTokenPush, execLoadwBlock, execLqDoorWrite,
    execHeadStarving, execDeadlockDetect, execCastTake, execStrikeReport, execSharedBlockStrike, execLockstepMismatch,
    execHbmScrubPass, execHbmErrSample, execBudgetWindow, execGangSwitch, execAcceptWrite, execAccept3Write, execCoreCtlWrite,
    execLqCfgWrite, execSwitchAtWrite, execPmapWrite, execPctlWrite, execCalWrite, execRtabxWrite, execBudgetWrite, execFeedBudWrite,
    execMdbaseWrite, execApbaseWrite, execLpctlWrite, execPcapWrite, execTlimitWrite, execAttCtlGo, execRegisterWrite,
    execVfFunctionReset, execPfFunctionReset, execLinkResendTimeout, execPortRetrain, execTimeExchange, execPowerRamp, execRstNAssert,
    execRstNRelease, execServiceProcessorStrike, execGovernorSample, execThermtrip, execAttReportReady, execPowerRemoval,
    execTlbEntryLeave]

theorem stepWord_advances (w : ℕ) (s : State) : OutcomeAdvances (stepWord w s) := by
  unfold stepWord
  split <;> simp [exec_advances]

theorem stepFront_advances (c : CoreId) (refetch : Bool) (s : State) : OutcomeAdvances (stepFront c refetch s) := by
  unfold stepFront
  split <;> simp [stepWord_advances]

theorem stepBoundary_advances (c : CoreId) (refetch : Bool) (s : State) : OutcomeAdvances (stepBoundary c refetch s) := by
  obtain ⟨t, ht⟩ := stepFront_advances c refetch s
  simp [stepBoundary, ht]

theorem stepAct_advances (a : Act) (s : State) : OutcomeAdvances (stepAct a s) := by
  unfold stepAct stepStrike
  (repeat' split) <;> simp [stepBoundary_advances, exec_advances, execCastTake, execStrikeReport]

/-- Settles O57: an instruction and an event are tests with a next state behind each, and a step is one of them. -/
theorem everyInstructionAdvances : Obligations.EveryInstructionAdvances :=
  ⟨exec_advances, fun _ => outcomeAdvances_ite_of (outcomeAdvances_next _) (stepAct_advances _ _)⟩

end Sys2Proof.Machine

end

section

/-! ## O53: what a fetch changes

A fetch charges regulators, sends flits, takes free values, and keeps a line in the instruction cache; it changes nothing else. -/

namespace Sys2Proof.Machine

/-- t is s after regulators have charged, ports have sent flits, and free values were taken: nothing else has changed. -/
structure Metered (s t : State) : Prop where
  eq : t = { s with free := t.free, parts := t.parts, ports := t.ports }
  part : ∀ o, t.part o = { s.part o with budgets := (t.part o).budgets }

theorem Metered.refl (s : State) : Metered s s := ⟨rfl, fun _ => rfl⟩

theorem Metered.trans {s t u : State} (h : Metered s t) (k : Metered t u) : Metered s u :=
  ⟨by rw [k.eq, h.eq], fun o => by rw [k.part o, h.part o]⟩

/-- Free values and ports do not touch a partition. -/
theorem Metered.of_parts {s t : State} (h : t = { s with free := t.free, ports := t.ports }) : Metered s t :=
  ⟨by rw [h], fun o => by rw [h]; rfl⟩

theorem Metered.of_free {s t : State} (h : t = { s with free := t.free }) : Metered s t := .of_parts (by rw [h])

theorem State.charge_metered (s : State) (p : PartId) (d : DieId) (m : Fin 4) (n : ℕ) : Metered s (s.charge p d m n) := by
  refine ⟨rfl, fun o => ?_⟩
  by_cases ho : o = p
  · subst ho; simp [State.charge]
  · simp [State.charge, State.part_modPart_ne, ho]

theorem State.grant_metered {s t : State} {p : PartId} {d : DieId} {m : Fin 4} {n : ℕ} (h : s.grant p d m n = some t) :
    Metered s t := by
  unfold State.grant at h
  dsimp only at h
  (repeat' split at h) <;> cases h
  · exact .refl s
  · exact s.charge_metered p d m n

theorem State.spineOn_metered {s t : State} {p : PartId} {ds : List DieId} {n : ℕ} (h : s.spineOn p ds n = some t) : Metered s t := by
  have hall (ds : List DieId) (x : Option State) (hx : ∀ u, x = some u → Metered s u) {t : State}
      (h : ds.foldl (fun (x : Option State) d => x.bind fun u => u.grant p d 1 n) x = some t) : Metered s t := by
    induction ds generalizing x with
    | nil => exact hx t h
    | cons d ds ih =>
      refine ih _ (fun u hu => ?_) h
      obtain ⟨v, hv, hg⟩ := Option.bind_eq_some_iff.1 hu
      exact (hx v hv).trans (State.grant_metered hg)
  exact hall ds (some s) (fun u hu => Option.some.inj hu ▸ .refl s) h

theorem State.homeGrant_metered {s t : State} {p : PartId} {a n : ℕ} {cmp : Bool} (h : s.homeGrant p a n cmp = some t) :
    Metered s t := by
  unfold State.homeGrant at h
  split at h
  · cases h
  · exact (Metered.of_parts rfl).trans (State.grant_metered h)

theorem State.portGrant_metered {s t : State} {p : PartId} {c : CoreId} {q : PortId} {n : ℕ} (h : s.portGrant p c q n = some t) :
    Metered s t := by
  unfold State.portGrant at h
  dsimp only at h
  split at h
  · cases h
  · exact State.grant_metered h

theorem State.takeBytes_free (n : ℕ) (s : State) : (State.takeBytes n s).2 = { s with free := (State.takeBytes n s).2.free } := by
  induction n generalizing s with
  | zero => rfl
  | succ n ih => exact ih s.takeWord.2

theorem State.takeWords_free (n : ℕ) (s : State) : (s.takeWords n).2 = { s with free := (s.takeWords n).2.free } := by
  induction n generalizing s with
  | zero => rfl
  | succ n ih => exact ih s.takeWord.2

theorem State.transmit_metered (s : State) (q : PortId) (p : PartId) (ty dchip : ℕ) (udesc : List ℕ) :
    Metered s (s.transmit q p ty dchip udesc) :=
  (Metered.of_free (State.takeBytes_free (8 * udesc.length) s)).trans (.of_parts rfl)

theorem State.readGrant_metered {s t : State} {c : CoreId} {a n : ℕ} {cmp : Bool} (h : s.readGrant c a n cmp = .ok t) :
    Metered s t := by
  unfold State.readGrant at h
  dsimp only at h
  split at h
  · cases h
  · split at h
    case h_2 => cases h
    case h_1 hr =>
      cases h
      split at hr
      · simp only [Option.bind_eq_some_iff] at hr
        obtain ⟨u, ⟨v, hv, hu⟩, ht⟩ := hr
        exact ((State.spineOn_metered hv).trans (State.homeGrant_metered hu)).trans (State.spineOn_metered ht)
      · split at hr
        · cases hr
        · simp only [Option.map_eq_some_iff, Option.bind_eq_some_iff] at hr
          obtain ⟨u, ⟨v, hv, hu⟩, rfl⟩ := hr
          exact ((State.spineOn_metered hv).trans (State.portGrant_metered hu)).trans (State.transmit_metered ..)

theorem State.readFar_free (s : State) (a n : ℕ) (cmp : Bool) :
    (s.readFar a n cmp).2 = { s with free := (s.readFar a n cmp).2.free } := by
  unfold State.readFar
  split
  · exact s.takeWords_free _
  · rfl

/-- What a fetch adds to the counts of regulators and ports: nothing at level M. -/
def FetchMeters (c : CoreId) (s t : State) : Prop :=
  Metered s t ∧ ((s.front c).level = .m → t.parts = s.parts ∧ t.ports = s.ports)

theorem FetchMeters.refl (c : CoreId) (s : State) : FetchMeters c s s := ⟨.refl s, fun _ => ⟨rfl, rfl⟩⟩

theorem Metered.front {s t : State} (h : Metered s t) (c : CoreId) : t.front c = s.front c := by rw [h.eq]; rfl

theorem FetchMeters.trans {c : CoreId} {s t u : State} (h : FetchMeters c s t) (k : FetchMeters c t u) : FetchMeters c s u := by
  refine ⟨h.1.trans k.1, fun hm => ?_⟩
  obtain ⟨hp, hq⟩ := h.2 hm
  obtain ⟨kp, kq⟩ := k.2 (by rw [h.1.front]; exact hm)
  exact ⟨kp.trans hp, kq.trans hq⟩

theorem FetchMeters.of_free {c : CoreId} {s t : State} (h : t = { s with free := t.free }) : FetchMeters c s t :=
  ⟨.of_free h, fun _ => by rw [h]; exact ⟨rfl, rfl⟩⟩

theorem State.readLine_meters {s t : State} {c : CoreId} {ps : List (ℕ × ℕ × Bool)} {bs l : List Byte}
    (h : s.readLine c ps bs = .inr (l, t)) : FetchMeters c s t := by
  induction ps generalizing s bs with
  | nil => cases h; exact .refl c _
  | cons p ps ih =>
    unfold State.readLine at h
    split at h
    · cases h
    · cases h
    case h_3 u hu =>
      have hsu : FetchMeters c s u := by
        split at hu
        · cases hu; exact .refl c _
        case isFalse hm => exact ⟨State.readGrant_metered hu, fun hl => absurd hl hm⟩
      exact (hsu.trans (.of_free (u.readFar_free ..))).trans (ih h)

theorem State.fetchLine_meters {s t : State} {c : CoreId} {va : Word} {l : List Byte} (h : s.fetchLine c va = .inr (l, t)) :
    FetchMeters c s t := by
  unfold State.fetchLine at h
  dsimp only at h
  split at h
  · cases h
  · cases h
  · split at h
    · cases h
    case h_2 hr => cases h; exact State.readLine_meters hr

theorem State.fetchLine_ne_word (s : State) (c : CoreId) (va : Word) (w : ℕ) (m : State) : s.fetchLine c va ≠ .inl (.word w m) := by
  unfold State.fetchLine
  dsimp only
  (repeat' split) <;> simp

theorem State.modCore_icache_self (s : State) (c : CoreId) : (s.modCore c fun k => { k with icache := (s.core c).icache }) = s := by
  change { s with cores := s.cores.set c.val s.cores[c] } = s
  rw [Fin.getElem_fin, Vector.set_getElem_self]

/-- A fetch that finds a word changes the instruction cache of its core, and what `FetchMeters` says. -/
theorem State.fetch_word {s m : State} {c : CoreId} {refetch : Bool} {w : ℕ} (h : s.fetch c refetch = .word w m) :
    ∃ t, FetchMeters c s t ∧ m = t.modCore c fun k => { k with icache := (m.core c).icache } := by
  unfold State.fetch at h
  dsimp only at h
  split at h
  · cases h
  · split at h
    · cases h
      exact ⟨_, .refl c _, (State.modCore_icache_self ..).symm⟩
    · split at h
      case h_1 hr =>
        subst h
        exact (s.fetchLine_ne_word _ _ _ _ hr).elim
      case h_2 bs t ht =>
        cases h
        exact ⟨t.takeNat.2, (State.fetchLine_meters ht).trans (.of_free rfl), by simp [State.modCore, Core.keepLine]⟩

end Sys2Proof.Machine

end

section

/-! ## O53: a fetch at level M

At level M an address is physical (R139), so that a line read anew is the bytes of HBM at its address, whatever pages it lies in. -/

namespace Sys2Proof.Machine

theorem remoteChip_of_lt {a : ℕ} (h : a < 2 ^ 39) : remoteChip a = none := by
  have hd : a / 2 ^ 55 = 0 := Nat.div_eq_of_lt (by omega)
  simp only [remoteChip, hd]
  rfl

theorem State.physical_of_lt (s : State) {a : ℕ} (h : a < 2 ^ 39) : s.physical a = .ok a false := by
  simp only [State.physical, remoteChip_of_lt h, localHbm, h, decide_true, if_true]

theorem State.translateAll_m (s : State) (c : CoreId) (acc : Access) {ps : List (Word × ℕ)} (h : ∀ p ∈ ps, p.1.toNat < 2 ^ 39) :
    s.translateAll c .m 0 acc ps = ps.map fun p => (p.1, .ok p.1.toNat false) := by
  induction ps with
  | nil => rfl
  | cons p ps ih =>
    obtain ⟨hp, hps⟩ := List.forall_mem_cons.1 h
    simp only [State.translateAll, ih hps, List.map_cons, State.translate, if_true, s.physical_of_lt hp]

theorem State.readLine_m {s : State} {c : CoreId} (hm : (s.front c).level = .m) {ps : List (Word × ℕ)}
    (h : ∀ p ∈ ps, p.1.toNat < 2 ^ 39) (bs : List Byte) :
    s.readLine c (ps.map fun p => (p.1.toNat, p.2, false)) bs = .inr (bs ++ ps.flatMap fun p => s.mem.hbm.bytes p.1.toNat p.2, s) := by
  induction ps generalizing bs with
  | nil => simp [State.readLine]
  | cons p ps ih =>
    obtain ⟨hp, hps⟩ := List.forall_mem_cons.1 h
    simp [State.readLine, hm, State.readFar, remoteChip_of_lt hp, Mem.read, ih hps]

theorem Memory.bytes_add (m : Memory) (a n k : ℕ) : m.bytes a (n + k) = m.bytes a n ++ m.bytes (a + n) k := by
  simp [Memory.bytes, List.range_add, Nat.add_assoc]

theorem pagePieces_lt {a : Word} {n : ℕ} (h : a.toNat + n ≤ 2 ^ 39) (hn : 0 < n) : ∀ p ∈ pagePieces a n, p.1.toNat < 2 ^ 39 := by
  unfold pagePieces
  dsimp only
  split
  · simp only [List.mem_singleton, forall_eq]
    omega
  · simp only [List.mem_cons, List.not_mem_nil, or_false, forall_eq_or_imp, forall_eq, BitVec.toNat_add, BitVec.toNat_ofNat]
    omega

theorem pagePieces_bytes (m : Memory) {a : Word} {n : ℕ} (h : a.toNat + n ≤ 2 ^ 39) :
    (pagePieces a n).flatMap (fun p => m.bytes p.1.toNat p.2) = m.bytes a.toNat n := by
  unfold pagePieces
  extract_lets room
  split
  · simp
  · have hroom : (a + BitVec.ofNat 64 room).toNat = a.toNat + room := by
      rw [BitVec.toNat_add, BitVec.toNat_ofNat]
      omega
    have hn : n = room + (n - room) := by omega
    simp only [List.flatMap_cons, List.flatMap_nil, List.append_nil, hroom]
    rw [← Memory.bytes_add, ← hn]

theorem State.fetchLine_m {s : State} {c : CoreId} {va : Word} (hm : (s.front c).level = .m) (hi : (s.front c).at_.pcHi = 0)
    (hva : va.toNat + 80 ≤ 2 ^ 39) : s.fetchLine c va = .inr (s.mem.hbm.bytes va.toNat 80, s) := by
  have hlt := pagePieces_lt hva (by omega)
  have hline := State.readLine_m hm hlt []
  rw [pagePieces_bytes s.mem.hbm hva] at hline
  have hfind (g : Word × Xlate → Bool) (hg : ∀ a pa cmp, g (a, .ok pa cmp) = false) :
      ((pagePieces va 80).map fun p => (p.1, Xlate.ok p.1.toNat false)).find? g = none := by simp [hg]
  have hpieces (g : (Word × ℕ) × Word × Xlate → Option (ℕ × ℕ × Bool)) (hg : ∀ p a pa cmp, g (p, a, .ok pa cmp) = some (pa, p.2, cmp)) :
      ((pagePieces va 80).zip ((pagePieces va 80).map fun p => (p.1, Xlate.ok p.1.toNat false))).filterMap g =
        (pagePieces va 80).map fun p => (p.1.toNat, p.2, false) := by
    have hzip := List.zip_map' (f := id) (g := fun p : Word × ℕ => (p.1, Xlate.ok p.1.toNat false)) (l := pagePieces va 80)
    rw [List.map_id] at hzip
    simp [hzip, List.filterMap_map, hg]
  unfold State.fetchLine
  simp only [hm, hi, State.translateAll_m _ c .fetch hlt]
  rw [hfind _ fun _ _ _ => rfl, hpieces _ fun _ _ _ _ => rfl, hline]
  rfl

theorem Memory.bytes_slice (m : Memory) (a : ℕ) {k j n : ℕ} (h : k + j ≤ n) : ((m.bytes a n).drop k).take j = m.bytes (a + k) j := by
  obtain ⟨r, rfl⟩ := Nat.exists_eq_add_of_le h
  rw [Nat.add_assoc, Memory.bytes_add, List.drop_left' (Memory.bytes_length ..), Memory.bytes_add, List.take_left' (Memory.bytes_length ..)]

theorem bytesNat_map_range (f : ℕ → Byte) (n : ℕ) :
    bytesNat ((List.range n).map f) = ((List.range n).map fun j => (f j).toNat * 256 ^ j).sum := by
  induction n generalizing f with
  | zero => rfl
  | succ n ih =>
    simp only [List.range_succ_eq_map, List.map_cons, List.map_map, bytesNat, List.sum_cons]
    rw [ih (f ∘ Nat.succ)]
    simp [← List.sum_map_mul_left, pow_succ, Nat.mul_comm, Nat.mul_left_comm, Function.comp_def]

theorem State.fetch_m {s : State} {c : CoreId} (hi : (s.core c).mayIssue s.cycle = true) (hm : (s.front c).level = .m)
    (hp : (s.front c).at_.pcHi = 0) (ha : (s.front c).at_.pc.toNat % 10 = 0) (hb : (s.front c).at_.pc.toNat + 160 ≤ 2 ^ 39) :
    ∃ m, s.fetch c true = .word (((List.range 10).map fun j =>
      (s.mem.hbm.readByte ((s.front c).at_.pc.toNat + j)).toNat * 256 ^ j).sum) m := by
  have hline : (lineOf (s.front c).at_.pc).toNat = (s.front c).at_.pc.toNat / 80 * 80 := by
    simp only [lineOf, BitVec.toNat_ofNat]
    omega
  have hl := State.fetchLine_m hm hp (va := lineOf (s.front c).at_.pc) (by omega)
  have hw : bytesNat (((s.mem.hbm.bytes (lineOf (s.front c).at_.pc).toNat 80).drop ((s.front c).at_.pc.toNat % 80)).take 10) =
      ((List.range 10).map fun j => (s.mem.hbm.readByte ((s.front c).at_.pc.toNat + j)).toNat * 256 ^ j).sum := by
    rw [Memory.bytes_slice _ _ (by omega), hline, Nat.div_add_mod', Memory.bytes, bytesNat_map_range]
  simp only [State.front] at hl hw ⊢
  simp only [State.fetch, hi, hl, hw, Bool.not_true, Bool.false_eq_true, if_false, if_true]
  exact ⟨_, rfl⟩

end Sys2Proof.Machine

end

section

/-! ## O53: turns and instruction boundaries

Which turn comes next, what a step does in it, and what a front end does at an instruction boundary (R314). -/

namespace Sys2Proof.Machine

theorem State.nextTurn_settled {s : State} {t : Turn} {ts : List Turn} (h : s.turns = t :: ts) :
    s.nextTurn = (t, { s with turns := ts }) := by
  unfold State.nextTurn
  rw [h]

/-- The turn that the specification leaves open: no cycle passes with an act due in it. -/
theorem State.nextTurn_open {s : State} (h : s.turns = []) :
    let z := { s with steps := s.steps + 1 }
    s.nextTurn.2 = z ∧ ((Config.turn s.steps).wait = 0 → s.nextTurn.1 = Config.turn s.steps) ∧
      ((Config.turn s.steps).wait ≠ 0 → (∀ a, z.due = some a → s.nextTurn.1 = ⟨0, a⟩) ∧
        (z.due = none → s.nextTurn.1 = ⟨1, (Config.turn s.steps).act⟩)) := by
  intro z
  unfold State.nextTurn
  split
  case h_1 ht => simp [h] at ht
  case h_2 =>
    by_cases hw : (Config.turn s.steps).wait = 0
    · simp [hw, z]
    · cases hd : z.due <;> simp [hw, hd, z]

theorem State.nextTurn_state (s : State) :
    s.nextTurn.2.cores = s.cores ∧ s.nextTurn.2.mem = s.mem ∧ s.nextTurn.2.cycle = s.cycle := by
  cases h : s.turns with
  | nil => rw [(State.nextTurn_open h).1]; exact ⟨rfl, rfl, rfl⟩
  | cons t ts => rw [State.nextTurn_settled h]; exact ⟨rfl, rfl, rfl⟩

/-- The state after the cycles of the next turn. -/
def State.turned (s : State) : State := s.nextTurn.2.pass s.nextTurn.1.wait

theorem step_held {s : State} (h : s.turned.held = true) (ho : Act.outside s.nextTurn.1.act = false) : step s = .next s.turned := by
  change (if s.turned.held && !Act.outside s.nextTurn.1.act then _ else _) = _
  rw [h, ho]
  rfl

theorem step_eq_stepAct {s : State} (h : s.turned.held = false) : step s = stepAct s.nextTurn.1.act s.turned := by
  change (if s.turned.held && !Act.outside s.nextTurn.1.act then _ else _) = _
  rw [h]
  rfl

theorem stepAct_event {i : Instr} (s : State) (hi : isEvent i = true) (hf : ∀ d, i ≠ .engineFaultTaken d)
    (hl : ∀ d l, i ≠ .poolOperationFire d l) : stepAct (.event i) s = exec i s := by
  unfold stepAct
  split
  all_goals rename_i h
  · cases h
  · cases h; exact absurd rfl (hf _)
  · cases h; exact absurd rfl (hl _ _)
  · cases h; rw [if_pos hi]
  · cases h
  · cases h

theorem stepFront_stall {s : State} {c : CoreId} {refetch : Bool} (h : (s.core c).mayIssue s.cycle = false) :
    stepFront c refetch s = .next (State.tryEnter { s with cur := c } c) := by
  have hf : State.fetch { s with cur := c } c refetch = .stall (State.tryEnter { s with cur := c } c) := by
    unfold State.fetch
    dsimp only
    rw [if_pos (by simpa [State.core] using h)]
  simp only [stepFront, hf]

theorem stepFront_word {s m : State} {c : CoreId} {refetch : Bool} {w : ℕ} (h : State.fetch { s with cur := c } c refetch = .word w m) :
    stepFront c refetch s = stepWord w m := by simp only [stepFront, h]

theorem stepBoundary_of_no_fault {s : State} {c : CoreId} {refetch : Bool} (h : ¬ (s.core c).faultWaits s.cycle = true) :
    stepBoundary c refetch s = stepFront c refetch s := by
  unfold stepBoundary
  rw [if_neg h]

theorem stepBoundary_of_fault {s t : State} {c : CoreId} {refetch : Bool} (h : (s.core c).faultWaits s.cycle = true)
    (ht : stepFront c refetch s = .next t) :
    stepBoundary c refetch s = if s.trappedSince t c then .next t else execEngineFaultTaken c s := by
  simp only [stepBoundary, h, ht, if_true]

theorem stepWord_ok {w : ℕ} {i : Instr} (h : decode w = .ok i) (s : State) : stepWord w s = exec i s := by
  unfold stepWord
  split
  case h_1 hj => rw [Except.ok.inj (h.symm.trans hj)]
  case h_2 hj => cases h.symm.trans hj

theorem stepWord_error {w : ℕ} {e : DecodeError} (h : decode w = .error e) (s : State) :
    stepWord w s = .next (s.trapHere .undef (BitVec.ofNat 64 w)) := by
  unfold stepWord
  split
  case h_1 hj => cases h.symm.trans hj
  case h_2 => rfl

/-- What a turn of a front end does where its fetch finds a word (R138, R314). -/
theorem stepBoundary_word {p m : State} {c : CoreId} {refetch : Bool} {w : ℕ}
    (h : State.fetch { p with cur := c } c refetch = .word w m) :
    (∀ i, decode w = .ok i → ¬ (p.core c).faultWaits p.cycle = true → stepBoundary c refetch p = exec i m) ∧
    (∀ i t, decode w = .ok i → (p.core c).faultWaits p.cycle = true → exec i m = .next t →
      (p.trappedSince t c = true → stepBoundary c refetch p = exec i m) ∧
      (p.trappedSince t c = false → stepBoundary c refetch p = exec (.engineFaultTaken c) p)) ∧
    (∀ e, decode w = .error e → ¬ (p.core c).faultWaits p.cycle = true →
      stepBoundary c refetch p = .next (m.trapHere .undef (BitVec.ofNat 64 w))) := by
  refine ⟨fun i hi hn => ?_, fun i t hi hf ht => ?_, fun e he hn => ?_⟩
  · exact (stepBoundary_of_no_fault hn).trans ((stepFront_word h).trans (stepWord_ok hi m))
  · have hb := stepBoundary_of_fault hf ((stepFront_word h).trans ((stepWord_ok hi m).trans ht))
    exact ⟨fun hs => hb.trans ((if_pos hs).trans ht.symm), fun hs => hb.trans (if_neg (by simp [hs]))⟩
  · exact (stepBoundary_of_no_fault hn).trans ((stepFront_word h).trans (stepWord_error he m))

/-- A fetch for the current core changes its instruction cache and what meters count, and at level M no meter counts (R139). -/
theorem fetch_word_frame {p m : State} {c : CoreId} {refetch : Bool} {w : ℕ}
    (h : State.fetch { p with cur := c } c refetch = .word w m) :
    let at_ := { p with cur := c }
    m = { (at_.modCore c fun k => { k with icache := (m.core c).icache }) with free := m.free, parts := m.parts, ports := m.ports } ∧
      (∀ o, m.part o = { p.part o with budgets := (m.part o).budgets }) ∧
      ((p.front c).level = .m → m.parts = p.parts ∧ m.ports = p.ports) := by
  intro at_
  obtain ⟨t, ⟨ht, hl⟩, hm⟩ := State.fetch_word h
  have hparts : m.parts = t.parts := by rw [hm]; rfl
  have hports : m.ports = t.ports := by rw [hm]; rfl
  refine ⟨?_, fun o => ?_, fun hf => ?_⟩
  · have hfree : m.free = t.free := by rw [hm]; rfl
    rw [hfree, hparts, hports]
    conv_lhs => rw [hm, ht.eq]
    rfl
  · have ho : m.part o = t.part o := by rw [State.part, hparts]; rfl
    rw [ho]
    exact ht.part o
  · rw [hparts, hports]
    exact hl hf

theorem stepAct_no_fault {p : State} {c : CoreId} (h : ¬ (p.core c).faultWaits p.cycle = true) :
    stepAct (.event (.engineFaultTaken c)) p = .next p := by simp [stepAct, h]

theorem stepAct_fault_at_wait {p : State} {c : CoreId} (h : (p.core c).faultWaits p.cycle = true)
    (hi : (p.core c).mayIssue p.cycle = false) : stepAct (.event (.engineFaultTaken c)) p = exec (.engineFaultTaken c) p := by
  simp [stepAct, h, hi, exec]

theorem stepStrike_due {p : State} {c : CoreId} {a : ℕ} (h : p.strikeDue c = some a) : stepStrike c p = exec (.strikeReport c 0 a) p := by
  simp only [stepStrike, h, exec]

theorem stepStrike_none {p : State} {c : CoreId} (h : p.strikeDue c = none) : stepStrike c p = .next p := by simp only [stepStrike, h]

/-- A turn of a front end, or of a fault that waits where the front end may issue, is an instruction boundary. -/
theorem stepAct_boundary {p : State} {c : CoreId} {refetch : Bool} {a : Act}
    (ha : a = .front c refetch ∨ a = .event (.engineFaultTaken c) ∧ (p.core c).faultWaits p.cycle = true ∧
      (p.core c).mayIssue p.cycle = true ∧ refetch = false) : stepAct a p = stepBoundary c refetch p := by
  obtain rfl | ⟨rfl, hf, hi, rfl⟩ := ha
  · rfl
  · simp [stepAct, hf, hi]

/-- Settles O53: the turn comes from `nextTurn`, the held device from `step_held`, an event from `stepAct`, and the word of a front
end from `fetch_word_frame` and `stepBoundary_word`. -/
theorem stepRunsTheDecodedWord : Obligations.StepRunsTheDecodedWord := by
  unfold Obligations.StepRunsTheDecodedWord
  intro c refetch w i e l s m t n p at_ f z waits
  obtain ⟨hcores, hmem, hcycle⟩ := s.nextTurn_state
  have hact {a : Act} (h : p.held = false) (ha : n.1.act = a) : step s = stepAct a p := ha ▸ step_eq_stepAct h
  refine ⟨fun _ _ h => State.nextTurn_settled h, fun h => State.nextTurn_open h,
    ⟨hcores, hmem, congrArg (· + n.1.wait) hcycle⟩, fun h ho => step_held h ho, ?_, ?_, ?_, ?_, ?_, ?_⟩ <;> intro h ha
  · exact fun hi hf hl => (hact h ha).trans (stepAct_event p hi hf hl)
  · exact hact h ha
  · exact ⟨fun hn => (hact h ha).trans (stepAct_no_fault hn), fun hw hi => (hact h ha).trans (stepAct_fault_at_wait hw hi)⟩
  · exact hact h ha
  · exact ⟨fun a hd => (hact h ha).trans (stepStrike_due hd), fun hd => (hact h ha).trans (stepStrike_none hd)⟩
  · have hb : step s = stepBoundary c refetch p := (step_eq_stepAct h).trans (stepAct_boundary ha)
    refine ⟨fun hi hn => ?_, fun hw => ?_, fun hi hr hm hp h10 hlt => ?_⟩
    · exact hb.trans ((stepBoundary_of_no_fault hn).trans (stepFront_stall hi))
    · obtain ⟨hme, hpart, hlevel⟩ := fetch_word_frame hw
      rw [hb]
      obtain ⟨hok, hwait, herr⟩ := stepBoundary_word hw
      exact ⟨hme, hpart, hlevel, hok i, hwait i t, herr e⟩
    · subst hr
      exact State.fetch_m (s := at_) hi hm hp h10 hlt

end Sys2Proof.Machine

end

section

/-! ## O34: what joining the store stream changes

A word that joins the store stream settles it at once: waiting entries may leave for the hold-back buffer or the write-age stages
(R98, R106). Of the front end that changes the tags alone, and no byte of a buffer. -/

namespace Sys2Proof.Machine

/-- The core k' is k after entries of its streams have moved: its front end differs in its tags alone, and no byte of a buffer. -/
structure Core.StreamsMove (k k' : Core) : Prop where
  front : ∃ ts, k'.live.front = { k.live.front with tags := ts }
  buf : ∀ b, k'.store.buf b = k.store.buf b

theorem Core.StreamsMove.refl (k : Core) : k.StreamsMove k := ⟨⟨_, rfl⟩, fun _ => rfl⟩

theorem Core.StreamsMove.trans {k l m : Core} (h : k.StreamsMove l) (g : l.StreamsMove m) : k.StreamsMove m := by
  obtain ⟨_, hk⟩ := h.front
  obtain ⟨ts, hl⟩ := g.front
  exact ⟨⟨ts, by rw [hl, hk]⟩, fun b => (g.buf b).trans (h.buf b)⟩

theorem Core.StreamsMove.of_eq {k k' : Core} (hf : k'.live.front = k.live.front) (hs : k'.store = k.store) : k.StreamsMove k' :=
  ⟨⟨_, hf⟩, fun b => by rw [hs]⟩

theorem Core.StreamsMove.clearTag (k : Core) (t : Option TagId) : k.StreamsMove (k.setFront (k.live.front.clearTag t)) := by
  cases t with
  | none => exact .of_eq rfl rfl
  | some t => exact ⟨⟨_, rfl⟩, fun _ => rfl⟩

/-- Ages that enter the write-age stages change no byte yet. -/
theorem Core.StreamsMove.addAges (k : Core) (es : List Age) :
    k.StreamsMove (k.modStore fun t => { t with aging := t.aging ++ es }) :=
  ⟨⟨_, rfl⟩, fun b => by cases b <;> rfl⟩

theorem Core.enterStore_moves (k : Core) (now : Nat) (op : StoreOp) : k.StreamsMove (k.enterStore now op) := by
  refine (Core.StreamsMove.clearTag k op.tag).trans ?_
  unfold Core.enterStore
  cases op.act with
  | req r => exact .of_eq rfl rfl
  | buf b us comb => exact (Core.StreamsMove.addAges _ _).trans (.of_eq rfl rfl)
  | record us => exact .of_eq rfl rfl
  | release => exact .refl _
  | tlbi => exact .refl _

theorem Core.settleFrom_moves (c : CoreId) (now : Nat) (ops : List StoreOp) (k : Core) :
    k.StreamsMove (Core.settleFrom c now ops k) := by
  induction ops generalizing k with
  | nil => exact .of_eq rfl rfl
  | cons op ops ih =>
    unfold Core.settleFrom
    extract_lets wide stays
    split
    · exact (k.enterStore_moves now op).trans (ih _)
    · exact .of_eq rfl rfl

theorem Core.popAcquires_moves (k : Core) : k.StreamsMove k.popAcquires := .of_eq rfl rfl

theorem Core.settle_moves (k : Core) (c : CoreId) (now : Nat) : k.StreamsMove (k.settle c now) :=
  have once (k : Core) : k.StreamsMove (Core.settleFrom c now k.flow.storeQ k).popAcquires :=
    (Core.settleFrom_moves c now _ k).trans (Core.popAcquires_moves _)
  (once k).trans (once _)

theorem Core.pushStore_moves (k : Core) (c : CoreId) (now : Nat) (act : StoreAct) (rel : Option Scope) (tag : Option TagId)
    (party : Fin 4) (need : Option Need) : k.StreamsMove (k.pushStore c now act rel tag party need) := by
  unfold Core.pushStore
  extract_lets n level k1
  have hk : k.StreamsMove k1 := .of_eq rfl rfl
  split
  · exact hk
  · refine hk.trans (.trans ?_ (Core.settle_moves _ c now))
    exact .of_eq rfl rfl

/-! What a tag holds once a word of variable latency has retired (R133). -/

/-- Waiting for the fixed-latency writes under way ends no earlier. -/
theorem Front.le_landed (f : Front) (g : Option Reg) (n : Nat) : n ≤ f.landed g n := by
  unfold Front.landed
  generalize f.busy = l
  induction l generalizing n with
  | nil => exact le_rfl
  | cons b l ih =>
    rw [List.foldl_cons]
    split
    · exact (le_max_left _ _).trans (ih _)
    · exact ih n

theorem Front.retire_tag (f : Front) (h : Hdr) (tag : TagId) (p : Pend) (now : Nat) (ht : h.tag = some tag) :
    (f.retire h none { pend := some p } now).tags[tag] = some { p with minAt := f.landed p.dst p.minAt } := by
  simp [Front.retire, Front.allocate, ht, Pend.cover]

end Sys2Proof.Machine

end

section

/-! ## O34: words whose accesses pass, miss or trap -/

namespace Sys2Proof.Claims

open Sys2Proof.Machine

/-- A core replaced by one with its bytes keeps every byte. -/
theorem SameBytes.setCore {s : State} {c : CoreId} {k : Core} (h : ∀ b, k.store.buf b = (s.core c).store.buf b) :
    SameBytes s (s.setCore c k) := by
  refine ⟨fun a => rfl, fun d b a => ?_⟩
  by_cases e : d = c
  · subst e; rw [State.core_setCore, h]
  · rw [State.core_setCore_ne s c d k e]

/-- The state m from which a word's accesses go on: s, or s with one walk asked for (R348). -/
def AsksAtMost (s m : State) : Prop := m = s ∨ ∃ a party, m = s.askWalk s.cur (fe s).at_.vahi a party

/-- Asking for a walk changes the core's misses alone. -/
theorem core_askWalk_eq (k : Core) (now : Nat) (hi : Byte) (va : Word) (party : Nat) (blk : Bool) :
    ∃ ms, k.askWalk now hi va party blk = { k with misses := ms } := by
  unfold Core.askWalk
  extract_lets full size
  split
  · exact ⟨k.misses, rfl⟩
  · exact ⟨_, rfl⟩

theorem AsksAtMost.eq_setCore {s m : State} (h : AsksAtMost s m) : ∃ ms, m = s.setCore s.cur { s.me with misses := ms } := by
  obtain rfl | ⟨a, party, rfl⟩ := h
  · exact ⟨m.me.misses, (m.setCore_self m.cur).symm⟩
  · obtain ⟨ms, e⟩ := core_askWalk_eq s.me s.cycle (fe s).at_.vahi a party
      ((s.walk s.me.regs.asid ((fe s).at_.vahi.toNat * 2 ^ 64 + a.toNat)).any (·.blk))
    exact ⟨ms, congrArg (s.setCore s.cur) e⟩

theorem AsksAtMost.cur {s m : State} (h : AsksAtMost s m) : m.cur = s.cur := by
  obtain ⟨ms, rfl⟩ := h.eq_setCore; rfl
theorem AsksAtMost.cycle {s m : State} (h : AsksAtMost s m) : m.cycle = s.cycle := by
  obtain ⟨ms, rfl⟩ := h.eq_setCore; rfl
theorem AsksAtMost.me {s m : State} (h : AsksAtMost s m) : ∃ ms, m.me = { s.me with misses := ms } := by
  obtain ⟨ms, rfl⟩ := h.eq_setCore
  exact ⟨ms, State.core_setCore ..⟩
theorem AsksAtMost.fe {s m : State} (h : AsksAtMost s m) : fe m = fe s := by
  obtain ⟨ms, e⟩ := h.me; simp only [Claims.fe, e]
theorem AsksAtMost.bytes {s m : State} (h : AsksAtMost s m) : SameBytes s m := by
  obtain ⟨ms, rfl⟩ := h.eq_setCore
  exact .setCore fun _ => rfl

/-- A trap of the word that issues, taken from a state that has its front end. -/
theorem trapHere_eq {s m : State} (hc : m.cur = s.cur) (hf : fe m = fe s) (cause : Cause) (a : Word) :
    m.trapHere cause a = m.takeTrap s.cur { cause := cause, info := a, word := (fe s).at_.pc } (fe s).at_.pc := by
  rw [← hc, ← hf]; rfl
theorem fe_modCore (s : State) (f : Core → Core) : fe (s.modCore s.cur f) = (f s.me).live.front :=
  congrArg (·.live.front) (s.core_modCore s.cur f)

/-- A word that makes accesses, from what it does once they have passed or been asked for (R197, R348). -/
theorem accesses_of_withMem {s : State} {i : Instr} {sp : Space} {acc : Access} {align : Nat} {xs : List (Word × Nat)}
    {deny blocks : Bool} {stream : Access} {k : State → List (List Piece) → Option Need → Outcome}
    {go : State → List (List Piece) → Option Need → Prop}
    (he : exec i s = s.withMem sp acc align xs k deny blocks stream)
    (hk : ∀ m ps need, AsksAtMost s m → exec i s = k m ps need → go m ps need) :
    Accesses s i sp acc align xs deny blocks go stream := by
  refine ⟨fun hsp hsus => ?suspended, fun hgo => ⟨fun cause a hr => ?trap, fun ps hr => ?pass, fun a hr => ?miss⟩⟩
  case suspended => rw [he, State.withMem, if_pos ⟨hsp, hsus⟩]
  all_goals
    rw [State.withMem, if_neg hgo] at he
    simp only [checked, fe] at hr
    simp only [show s.me.live.front = fe s from rfl] at he hr
  case trap => 
    simp only [hr] at he
    refine he.trans (congrArg _ ?_)
    split
    · refine trapHere_eq (s := s) ?_ ?_ cause a
      · rfl
      · exact fe_modCore ..
    · exact trapHere_eq rfl rfl cause a
  case pass =>
    simp only [hr] at he
    exact hk s ps none (.inl rfl) he
  case miss =>
    simp only [hr] at he
    have hm : AsksAtMost s (s.askWalk s.cur (fe s).at_.vahi a stream.stream) := .inr ⟨_, _, rfl⟩
    change exec i s = match foreseen s sp acc align xs deny stream with | .ok _ => _ | _ => _ at he
    refine ⟨fun ⟨ps, hps⟩ hb => ?_, fun hn => ?_⟩
    · rw [hps, hb] at he
      exact hk _ _ _ hm he
    · cases hf : foreseen s sp acc align xs deny stream with
      | ok ps =>
        have hb : blocks = true := by simpa [hf] using hn
        rwa [hf, hb] at he
      | miss | trap => rwa [hf] at he

/-- A word of variable latency that retires without its value: no register is written, and its tag waits (R133). -/
theorem awaits_retire {s m : State} {h : Hdr} {tag : TagId} {d : Reg} {mask : VecWord} {minAt n : Nat} {v : Option VecWord}
    (hr : (fe m).regs = (fe s).regs) (ht : h.tag = some tag) (hn : minAt ≤ n) :
    Awaits s (m.retire h none { pend := some ((fe s).pendOf d mask n v) }) tag d mask minAt v 0 := by
  have htag := (fe m).retire_tag h tag ((fe s).pendOf d mask n v) m.cycle ht
  rw [← fe_retire] at htag
  refine ⟨fun g => ?_, _, htag, rfl, rfl, rfl, ?_, rfl, rfl, rfl, rfl⟩
  · exact (writesNone_retire m h none _ rfl g).trans (congrArg (·.get g) hr)
  · exact hn.trans (Front.le_landed ..)

/-- The core that issues with one more load in its load stream. -/
def joinLoads (s : State) (l : Load) : State :=
  s.modCore s.cur fun k => k.modFlow fun f => { f with loads := f.loads ++ [l] }

theorem fe_joinLoads (s : State) (l : Load) : fe (joinLoads s l) = fe s := fe_modCore ..
theorem sameBytes_joinLoads (s : State) (l : Load) : SameBytes s (joinLoads s l) := .modCore _ _ _ fun _ _ => rfl

/-- A load that has joined its stream once its word has retired may as well have joined it before. -/
theorem joinLoads_retire (s : State) (h : Hdr) (lat : Option Nat) (d : Done) (l : Load) :
    joinLoads (s.retire h lat d) l = (joinLoads s l).retire h lat d := by
  simp only [joinLoads, State.retire, State.modFront, State.modCore_cur, State.modCore_cycle, State.modCore_modCore]
  rfl

/-- A load word that waits for its data joins the load stream and retires (R98, R133). -/
theorem loadWord_eq {m : State} {h : Hdr} {dst : Reg} {mask : VecWord} {kind : LoadKind} {sp : Space} {us : List LoadUnit}
    {acq : Option Scope} {lat : Nat} {need : Option Need} (hroom : m.me.logRoom = true) (hlog : m.me.logged = none) (hus : us ≠ []) :
    ∃ far, m.loadWord h dst mask kind sp us acq lat need =
      .next ((joinLoads m ⟨kind, sp, us, h.tag, (fe m).at_.po, (fe m).at_.mark, acq, m.cycle, need, (fe m).at_.pc⟩).retire h none
        { pend := some ((fe m).pendOf dst mask (m.cycle + lat + far) none) }) := by
  refine ⟨us.foldl (fun n u => max n (if sp = .g ∧ need.isNone then 2 * m.homeDelay m.cur u.addr else 0)) 0, ?_⟩
  rw [← joinLoads_retire]
  simp only [State.loadWord, hroom, hlog, List.isEmpty_eq_false_iff.2 hus, Bool.not_true, Bool.false_eq_true, if_false,
    Option.isSome_none]
  rfl

/-- The same, in the terms of the statements. -/
theorem loadWord_joins {s m : State} {h : Hdr} {tag : TagId} {dst : Reg} {mask : VecWord} {kind : LoadKind} {sp : Space}
    {us : List LoadUnit} {acq : Option Scope} {lat : Nat} {need : Option Need} (hm : AsksAtMost s m) (hf : Fresh s h tag)
    (hus : us ≠ []) :
    ∃ t, m.loadWord h dst mask kind sp us acq lat need = .next t ∧
      Retired s (m.modCore s.cur fun k => k.modFlow fun f =>
        { f with loads := f.loads ++
          [⟨kind, sp, us, some tag, (fe s).at_.po, (fe s).at_.mark, acq, s.cycle, need, pcOf s⟩] }) t 0 none none false ∧
      Awaits s t tag dst mask (s.cycle + lat) none 0 := by
  obtain ⟨ht, hroom, hlog⟩ := hf
  obtain ⟨ms, hme⟩ := hm.me
  obtain ⟨far, he⟩ := loadWord_eq (m := m) (h := h) (dst := dst) (mask := mask) (kind := kind) (sp := sp) (acq := acq) (lat := lat)
    (need := need) (by rw [hme]; exact hroom) (by rw [hme]; exact hlog) hus
  rw [hm.fe, hm.cycle, ht] at he
  rw [← hm.cur]
  have hfe (l : Load) : fe (joinLoads m l) = fe s := (fe_joinLoads m l).trans hm.fe
  have hret (l : Load) (dn : Done) : Retired s (joinLoads m l) ((joinLoads m l).retire h none dn) dn.flags dn.target dn.own dn.keeps :=
    retired_after s (joinLoads m l) hm.cur (congrArg (·.at_.pc) (hfe l)) (congrArg (·.at_.po) (hfe l))
      (hm.bytes.trans (sameBytes_joinLoads m l)) h none dn
  exact ⟨_, he, hret _ _, awaits_retire (congrArg (·.regs) (hfe _)) ht (Nat.le_add_right ..)⟩

/-- The core that issues after an effect of the word has joined its store stream. -/
def joinStores (s : State) (act : StoreAct) (rel : Option Scope) (tag : Option TagId) (need : Option Need) : State :=
  s.modCore s.cur fun k => k.pushStore s.cur s.cycle act rel tag 0 need

theorem fe_joinStores (s : State) (act : StoreAct) (rel : Option Scope) (tag : Option TagId) (need : Option Need) :
    ∃ ts, fe (joinStores s act rel tag need) = { fe s with tags := ts } := by
  obtain ⟨ts, h⟩ := (s.me.pushStore_moves s.cur s.cycle act rel tag 0 need).front
  exact ⟨ts, (fe_modCore ..).trans h⟩
theorem sameBytes_joinStores (s : State) (act : StoreAct) (rel : Option Scope) (tag : Option TagId) (need : Option Need) :
    SameBytes s (joinStores s act rel tag need) :=
  .modCore _ _ _ fun k => (k.pushStore_moves s.cur s.cycle act rel tag 0 need).buf

/-- A word of variable latency without annotation whose request joins the store stream (R98, R133). -/
theorem joinsAtomic_of_next {s m : State} {i : Instr} {h : Hdr} {tag : TagId} {d : SReg} {r : Req} {need : Option Need}
    (hm : AsksAtMost s m) (ht : h.tag = some tag)
    (he : m.me.holdRoom (queuedBytes m.me + r.size) = true → m.me.logRoom = true → m.me.logged = none → exec i s =
      .next ((joinStores m (.req r) none none need).retire h none
        { pend := some ((fe s).pendOf (.s d) (wordOf (BitVec.allOnes 64)) (m.cycle + 460) none) })) :
    JoinsAtomic s m i tag d .core .none r need := by
  intro hold hroom hlog
  obtain ⟨ms, hme⟩ := hm.me
  rw [hme] at he
  have he := he hold hroom hlog
  rw [← hm.cur, ← hm.cycle]
  obtain ⟨ts, hfe⟩ := fe_joinStores m (.req r) none none need
  rw [hm.fe] at hfe
  have hret (dn : Done) := retired_after s (joinStores m (.req r) none none need) hm.cur (congrArg (·.at_.pc) hfe)
    (congrArg (·.at_.po) hfe) (hm.bytes.trans (sameBytes_joinStores ..)) h none dn
  exact ⟨_, he, hret _, awaits_retire (congrArg (·.regs) hfe) ht le_rfl⟩

end Sys2Proof.Claims

end

section

/-! ## O34: the launch words -/

namespace Sys2Proof.Claims

open Sys2Proof.Machine

theorem Fresh.theTag {s : State} {h : Hdr} {tag : TagId} (hf : Fresh s h tag) : Machine.Hdr.theTag h = tag := by
  simp [Machine.Hdr.theTag, hf.1]

/-- `launch`: the record is read at issue, and the request joins the store stream (R42). -/
theorem launch_accesses {h : Hdr} {d a : SReg} {q : QueueNo} {tag : TagId} {s : State} (hf : Fresh s h tag)
    (hi : Issues s h { srcs := [(.s a, h.pda)], dsts := [.s d], feature := 4, engine := true }) :
    let x := srcA s h a
    Accesses s (.launch h d a q) .g .load 64 [(x, 64)] (s.pairedSide s.cur).isSome false (fun m ps need =>
      ∀ p, (ps.headD []).head? = some p →
        JoinsAtomic s m (.launch h d a q) tag d .core .none
          (.launch p.addr x p.cmp q tag (fe s).at_.po s.me.regs.asid (fe s).at_.vahi) need) .store := by
  intro x
  have hexec : exec (.launch h d a q) s = execLaunch h d a q s := rfl
  rw [execLaunch, s.issue_go _ h _ _ hi.gate] at hexec
  refine accesses_of_withMem hexec fun m ps need hm he p hp => ?_
  obtain ⟨ms, hme⟩ := hm.me
  have hasid : m.me.regs.asid = s.me.regs.asid := by rw [hme]
  have htag : { h with tag := some tag } = h := by rw [← hf.1]
  refine joinsAtomic_of_next hm hf.1 fun hold hroom hlog => he.trans ?_
  change m.me.holdRoom (queuedBytes m.me + 64) = true at hold
  have hgo : ¬ (!m.me.logRoom || !m.me.holdRoom (queuedBytes m.me + 64)) = true := by simp [hroom, hold]
  simp only [hp, hf.theTag, hlog, htag, hasid]
  exact if_neg hgo

/-- `lwait` and `lwait.test`: they wait for the store stream, and then load the one byte STATE of the record (R43). -/
theorem lwait_accesses {h : Hdr} {d a : SReg} {tag : TagId} {s : State} {i : Instr} {test : Bool} (hf : Fresh s h tag)
    (hi : Issues s h { srcs := [(.s a, h.pda)], dsts := [.s d], feature := 4, engine := true })
    (he : exec i s = s.lwaitWord i h d a test) :
    let x := srcA s h a
    (s.me.suspended .store = true → exec i s = .next s) ∧
    (s.me.suspended .store = false → Accesses s i .g .load 64 [(x, 64)] false false fun m ps need =>
      ∀ p, (ps.headD []).head? = some p →
      ∃ t, exec i s = .next t ∧
        Retired s (m.modCore s.cur fun k => k.modFlow fun fl =>
          { fl with loads := fl.loads ++
            [⟨.lwait test, .g, [⟨p.addr + 0x30, x + 0x30, 1, 0, p.cmp, none, none, false⟩], some tag, (fe s).at_.po, (fe s).at_.mark,
              none, s.cycle, need, pcOf s⟩] })
          t 0 none none false ∧
        Awaits s t tag (.s d) (wordOf (BitVec.allOnes 64)) (s.cycle + 300) none 0) := by
  intro x
  rw [State.lwaitWord, s.issue_go i h _ _ hi.gate] at he
  refine ⟨fun hsus => ?_, fun hsus => ?_⟩
  · rw [he]; exact if_pos hsus
  · refine accesses_of_withMem (he.trans (if_neg (by simp [hsus]))) fun m ps need hm he p hp => ?_
    rw [he, hp]
    exact loadWord_joins hm hf (List.cons_ne_nil _ _)

/-- Settles O34: every access of the three words goes through `accesses_of_withMem`. -/
theorem launchWords : Obligations.LaunchWords := by
  unfold Obligations.LaunchWords
  intro h d a q tag s hf x f hi
  refine ⟨launch_accesses hf hi, fun i test hit => lwait_accesses hf hi ?_⟩
  obtain ⟨rfl, rfl⟩ | ⟨rfl, rfl⟩ := hit <;> rfl

end Sys2Proof.Claims

end

section

/-! ## O42: rings, their slots, and what changes them -/

namespace Sys2Proof.Machine

@[simp] theorem Core.ring_modRing (k : Core) (q : RingId) (f : Ring → Ring) : (k.modRing q f).ring q = (k.ring q).map f := by
  simp [Core.ring, Core.modRing]
@[simp] theorem Core.modRing_front (k : Core) (q : RingId) (f : Ring → Ring) : (k.modRing q f).live.front = k.live.front := rfl
@[simp] theorem Core.modRing_flow (k : Core) (q : RingId) (f : Ring → Ring) : (k.modRing q f).flow = k.flow := rfl
@[simp] theorem Core.ring_modFlow (k : Core) (q : RingId) (f : Flow → Flow) : (k.modFlow f).ring q = k.ring q := rfl

/-- A ring whose slots are another's with one set. -/
theorem Ring.slot_of_set_self {r r' : Ring} {i : Nat} {x : Slot} (h : r'.slots = r.slots.set i x) (hi : i < r.slots.length) :
    r'.slot i = x := by
  simp [Ring.slot, h, List.getD_eq_getElem?_getD, hi]
theorem Ring.slot_of_set_ne {r r' : Ring} {i j : Nat} {x : Slot} (h : r'.slots = r.slots.set i x) (hj : j ≠ i) :
    r'.slot j = r.slot j := by
  simp [Ring.slot, h, List.getD_eq_getElem?_getD, List.getElem?_set_ne hj.symm]

/-- Every slot of a ring that its definition has just made has its tag at reset (R37, R87). -/
theorem Ring.slot_fresh (d : RingDef) (i : Nat) : (Ring.fresh d).slot i = Slot.empty := by
  rw [Ring.slot, Ring.fresh, List.getD_eq_getElem?_getD, List.getElem?_replicate]
  split <;> rfl

/-- The newest fill is the one that fell on the slot before the producer pointer (R259). -/
theorem Ring.numberOf_newest (r : Ring) (n : Nat) : r.numberOf (n + 1) (n % r.def_.nslot) = n := by
  have hle : n % r.def_.nslot ≤ n := Nat.mod_le ..
  have hround : n + 1 + r.def_.nslot - 1 - n % r.def_.nslot = r.def_.nslot * (n / r.def_.nslot + 1) := by
    have := Nat.mod_add_div n r.def_.nslot
    rw [Nat.mul_add]
    omega
  rw [Ring.numberOf, hround, Nat.mul_mod_right]
  rfl

/-- A change takes effect: the ring is as its definition leaves it, but for the numbers that count the changes and the circuit that
feeds it (R259, R260). -/
theorem Core.ring_applyChange (k : Core) (x : RingChange) (d : RingDef) :
    ∃ n fed far, (k.applyChange x d).ring x.ring = some { Ring.fresh d with defNo := n, viewNo := n, fedBy := fed, fedFar := far } := by
  refine ⟨x.num + 1, (k.ring x.ring).bind (·.fedBy), (k.ring x.ring).bind (·.fedFar), ?_⟩
  simp [Core.applyChange, Core.ring]

/-- A fill completes in the slot that awaits it (R87, R88, R259). -/
theorem Core.ring_endFill {k : Core} {q : RingId} {r : Ring} {i : Nat} {who : Holder} (hr : k.ring q = some r)
    (hs : (r.slot i).state = .filling) (hb : (r.slot i).by_ = who) (coord : BitVec 32) (fmt : Fin 8) (res : Nat) (poison : Bool) :
    (k.endFill q i who coord fmt res poison).ring q = some (r.modSlot i fun x =>
      { x with
        coord := coord, res := BitVec.ofNat 8 res, poison := poison, fmt := fmt, state := .full, by_ := .none
        tagerr := r.def_.chk && coord != r.expected (r.numberOf r.filled i) }) := by
  simp [Core.endFill, hr, hs, hb]

/-- The notice of a slot set free that goes to the producer of its ring, where that is not on this core (R90, R265). -/
def Ring.freeNotice (r : Ring) : Option Req :=
  match r.fedBy, r.fedFar with
  | some x, _ => some (.notice x.src x.circ x.branch x.opening)
  | none, some x => some (.far x.port x.chip x.source x.circ none)
  | none, none => none

theorem Core.ring_emptySlot {k : Core} {q : RingId} {r : Ring} (hr : k.ring q = some r) (i now : Nat) :
    (k.emptySlot q i now).ring q =
      some { r.modSlot i fun x => { x with state := .empty, by_ := .none } with relDep := r.relDep + 1 } := by
  simp only [Core.emptySlot, hr]
  split <;> simp [hr]

theorem Core.hold_emptySlot {k : Core} {q : RingId} {r : Ring} (hr : k.ring q = some r) (i now : Nat) :
    (k.emptySlot q i now).flow.hold =
      k.flow.hold ++ (r.freeNotice.map fun x => ⟨x, .ring q, r.relDep, 0, now, 64, false, false⟩).toList := by
  simp only [Core.emptySlot, hr, Ring.freeNotice]
  cases r.fedBy <;> cases r.fedFar <;> simp

theorem Core.front_emptySlot (k : Core) (q : RingId) (i now : Nat) : (k.emptySlot q i now).live.front = k.live.front := by
  simp only [Core.emptySlot]
  split
  · rfl
  · split <;> rfl

theorem Core.noticeRoom_of_ring {k : Core} {q : RingId} {r : Ring} (hr : k.ring q = some r) :
    k.noticeRoom q = ((r.fedBy.isNone && r.fedFar.isNone) || k.holdRoom 64) := by
  simp [Core.noticeRoom, hr]

/-- The ring has been made anew by a definition: both pointers 0, every tag at its reset value (R37, R259, R260). -/
def Core.Remade (k : Core) (q : RingId) (d : RingDef) : Prop :=
  ∃ r, k.ring q = some r ∧ r.def_ = d ∧ r.filled = 0 ∧ r.taken = 0 ∧ r.slots.length = d.nslot ∧ ∀ i, r.slot i = Slot.empty

theorem Core.remade_applyChange (k : Core) (x : RingChange) (d : RingDef) : (k.applyChange x d).Remade x.ring d := by
  obtain ⟨n, fed, far, h⟩ := k.ring_applyChange x d
  exact ⟨_, h, rfl, rfl, rfl, List.length_replicate, Ring.slot_fresh d⟩

/-- The oldest change of a ring takes effect through the event of its kind, once tQ has passed. -/
theorem Core.dueChange_of_find {k : Core} {q : RingId} {x : RingChange} (h : k.flow.changes.find? (fun y => y.ring == q) = some x)
    (b : Bool) (now : Nat) :
    k.dueChange q b now = if x.def_.isSome = b ∧ x.issued + Config.tQ ≤ now then some x else none := by
  simp only [Core.dueChange, h]
theorem Core.dueChange_of_find_none {k : Core} {q : RingId} (h : k.flow.changes.find? (fun y => y.ring == q) = none) (b : Bool)
    (now : Nat) : k.dueChange q b now = none := by
  simp only [Core.dueChange, h]

end Sys2Proof.Machine

end

section

/-! ## O42: the events of rings

Each event has one lemma for when it waits and one for what it leaves, over the operations on slots above. -/

namespace Sys2Proof.Claims

open Sys2Proof.Machine

/-- An event that replaces one core, with its front end and its buffers as they were. -/
theorem engineStep_of_setCore {s : State} {i : Instr} {c : CoreId} {k : Core} {P : State → Prop} (he : exec i s = .next (s.setCore c k))
    (hf : k.live.front = (s.core c).live.front) (hs : k.store = (s.core c).store) (hp : P (s.setCore c k)) : EngineStep s i c P :=
  ⟨_, he, by rw [State.core_setCore, hf], .setCore fun _ => by rw [hs], hp⟩

section events
variable {s : State} {c : CoreId} {q : RingId}

theorem qdefTakeEffect_idles (h : (s.core c).dueChange q true s.cycle = none) : Idles s (.qdefTakeEffect c q) := by
  change execQdefTakeEffect c q s = _
  rw [execQdefTakeEffect, h]
theorem qresetTakeEffect_idles (h : (s.core c).dueChange q false s.cycle = none) : Idles s (.qresetTakeEffect c q) := by
  change execQresetTakeEffect c q s = _
  rw [execQresetTakeEffect, h]

/-- A ring takes its definition (R259). -/
theorem qdefTakeEffect_remakes {x : RingChange} {d : RingDef} (hx : (s.core c).dueChange q true s.cycle = some x) (hq : x.ring = q)
    (hd : x.def_ = some d) : EngineStep s (.qdefTakeEffect c q) c fun t => (t.core c).Remade q d := by
  subst hq
  refine engineStep_of_setCore (k := (s.core c).applyChange x d) ?_ rfl rfl ?_
  · change execQdefTakeEffect c x.ring s = _
    simp only [execQdefTakeEffect, hx, hd]
    rfl
  · rw [State.core_setCore]
    exact Core.remade_applyChange ..
/-- A ring is reset (R260). -/
theorem qresetTakeEffect_remakes {x : RingChange} {r : Ring} (hx : (s.core c).dueChange q false s.cycle = some x) (hq : x.ring = q)
    (hr : (s.core c).ring q = some r) : EngineStep s (.qresetTakeEffect c q) c fun t => (t.core c).Remade q r.def_ := by
  subst hq
  refine engineStep_of_setCore (k := (s.core c).applyChange x r.def_) ?_ rfl rfl ?_
  · change execQresetTakeEffect c x.ring s = _
    simp only [execQresetTakeEffect, hx, hr]
    rfl
  · rw [State.core_setCore]
    exact Core.remade_applyChange ..

section fill
variable {r : Ring} {e : OwnFill} {es : List OwnFill} (hr : (s.core c).ring q = some r) (hfills : r.fills = e :: es)
include hr hfills

theorem qfillSlotFull_eq : exec (.qfillSlotFull c q) s =
    if s.cycle < (r.slot e.slot).since + Config.tQ ∨ !(s.core c).storesDone r.def_.buf e.po then .next s
    else .next (s.setCore c (((s.core c).endFill q e.slot .front e.coord e.fmt (residue ((s.core c).slotBytes r e.slot 0 r.size))
      ((s.core c).store.badAt r.def_.buf (r.offset e.slot) r.size)).modRing q fun r => { r with fills := es })) := by
  change execQfillSlotFull c q s = _
  simp only [execQfillSlotFull, hr, hfills]
  rfl

theorem qfillSlotFull_idles (hdue : ¬ ((r.slot e.slot).since + Config.tQ ≤ s.cycle ∧ (s.core c).storesDone r.def_.buf e.po = true)) :
    Idles s (.qfillSlotFull c q) := by
  rw [Idles, qfillSlotFull_eq hr hfills, if_pos]
  exact (not_and_or.1 hdue).imp Nat.lt_of_not_le (by simp)

/-- A slot that the front end fills becomes FULL, its tag from the word and its bytes (R87, R259, R261). -/
theorem qfillSlotFull_fills (hlen : e.slot < r.slots.length) (ht : (r.slot e.slot).since + Config.tQ ≤ s.cycle)
    (hdone : (s.core c).storesDone r.def_.buf e.po = true) (hs : (r.slot e.slot).state = .filling) (hb : (r.slot e.slot).by_ = .front) :
    EngineStep s (.qfillSlotFull c q) c fun t => ∃ r', (t.core c).ring q = some r' ∧ r'.fills = es ∧
      r'.slot e.slot = { r.slot e.slot with
        coord := e.coord, res := BitVec.ofNat 8 (residue ((s.core c).slotBytes r e.slot 0 r.size))
        poison := (s.core c).store.badAt r.def_.buf (r.offset e.slot) r.size, fmt := e.fmt, state := .full, by_ := .none
        tagerr := r.def_.chk && e.coord != r.expected (r.numberOf r.filled e.slot) } := by
  refine engineStep_of_setCore ((qfillSlotFull_eq hr hfills).trans (if_neg ?_)) ?_ ?_ ?_
  · simp [ht, hdone]
  · rfl
  · simp
  · rw [State.core_setCore]
    exact ⟨_, (Core.ring_modRing ..).trans (congrArg _ (Core.ring_endFill hr hs hb ..)), rfl, Ring.slot_of_set_self rfl hlen⟩

end fill

section release
variable {r : Ring} {rel : Release} {rs : List Release} (hr : (s.core c).ring q = some r) (hrels : r.rels = rel :: rs)
include hr hrels

theorem slotReleaseDepart_eq : exec (.slotReleaseDepart c q) s =
    if s.cycle < rel.entered + Config.tQ || !(s.core c).noticeRoom q || r.clash == some (s.cycle, rel.slot) then .next s
    else .next (s.setCore c (((s.core c).modRing q fun r => { r with rels := rs }).emptySlot q rel.slot s.cycle)) := by
  change execSlotReleaseDepart c q s = _
  simp only [execSlotReleaseDepart, hr, hrels, Core.clashes, Option.any_some]
  rfl

theorem slotReleaseDepart_idles
    (h : s.cycle < rel.entered + Config.tQ ∨ (s.core c).noticeRoom q = false ∨ r.clash = some (s.cycle, rel.slot)) :
    Idles s (.slotReleaseDepart c q) := by
  rw [Idles, slotReleaseDepart_eq hr hrels, if_pos]
  simpa [or_assoc] using h

/-- The oldest release of a ring departs: its slot is EMPTY, and the notice of it enters the hold-back buffer (R88, R90, R361). -/
theorem slotReleaseDepart_empties (hlen : rel.slot < r.slots.length) (ht : rel.entered + Config.tQ ≤ s.cycle)
    (hclash : r.clash ≠ some (s.cycle, rel.slot)) (hroom : (s.core c).noticeRoom q = true) :
    EngineStep s (.slotReleaseDepart c q) c fun t =>
      (∃ r', (t.core c).ring q = some r' ∧ r'.rels = rs ∧ r'.relDep = r.relDep + 1 ∧ (r'.slot rel.slot).state = .empty ∧
        ∀ i, i ≠ rel.slot → r'.slot i = r.slot i) ∧
      (t.core c).flow.hold = (s.core c).flow.hold ++
        (r.freeNotice.map fun x => ⟨x, .ring q, r.relDep, 0, s.cycle, 64, false, false⟩).toList := by
  have hr' : ((s.core c).modRing q fun r => { r with rels := rs }).ring q = some { r with rels := rs } := by simp [hr]
  refine engineStep_of_setCore ((slotReleaseDepart_eq hr hrels).trans (if_neg ?_)) ?_ ?_ ?_
  · simp [ht, hroom, hclash]
  · rw [Core.front_emptySlot, Core.modRing_front]
  · simp
  · rw [State.core_setCore]
    refine ⟨⟨_, Core.ring_emptySlot hr' .., rfl, rfl, ?_, fun i hi => Ring.slot_of_set_ne (r := r) rfl hi⟩, Core.hold_emptySlot hr' ..⟩
    exact congrArg Slot.state
      (Ring.slot_of_set_self (r := r) (x := { r.slot rel.slot with state := .empty, by_ := .none }) (by rfl) hlen)

end release

end events

/-- Settles O42: what becomes due is read off `dueChange`, the heads of `fills` and `rels`, and the room for a notice. -/
theorem ringEvents : Obligations.RingEvents := by
  unfold Obligations.RingEvents
  intro c q x d r e es rel rs n s k changed
  refine ⟨fun hx => ?change, fun hx => ?noChange, fun hr hfills hlen => ?fill, fun hr hrels hlen => ?release⟩
  case change =>
    have hq : x.ring = q := by simpa using List.find?_some hx
    have hdue (b : Bool) : k.dueChange q b s.cycle = if x.def_.isSome = b ∧ x.issued + Config.tQ ≤ s.cycle then some x else none :=
      Core.dueChange_of_find hx b s.cycle
    refine ⟨fun ht => ⟨qdefTakeEffect_idles ?_, qresetTakeEffect_idles ?_⟩, fun ht => ⟨fun hd => ⟨?_, ?_⟩, fun hd hr => ⟨?_, ?_⟩⟩⟩
    · exact (hdue true).trans (if_neg fun h => absurd h.2 (Nat.not_le.2 ht))
    · exact (hdue false).trans (if_neg fun h => absurd h.2 (Nat.not_le.2 ht))
    · exact qdefTakeEffect_remakes ((hdue true).trans (if_pos ⟨by rw [hd]; rfl, ht⟩)) hq hd
    · exact qresetTakeEffect_idles ((hdue false).trans (if_neg (by simp [hd])))
    · exact qresetTakeEffect_remakes ((hdue false).trans (if_pos ⟨by rw [hd]; rfl, ht⟩)) hq hr
    · exact qdefTakeEffect_idles ((hdue true).trans (if_neg (by simp [hd])))
  case noChange =>
    exact ⟨qdefTakeEffect_idles (Core.dueChange_of_find_none hx ..), qresetTakeEffect_idles (Core.dueChange_of_find_none hx ..)⟩
  case fill =>
    refine ⟨qfillSlotFull_idles hr hfills, fun hdue hs hb => ?_⟩
    obtain ⟨t, he, hf, hsame, r', hr', hes, hslot⟩ := qfillSlotFull_fills hr hfills hlen hdue.1 hdue.2 hs hb
    refine ⟨t, he, hf, hsame, r', hr', hes, ?_⟩
    rw [hslot]
    refine ⟨rfl, rfl, rfl, rfl, fun hn hlast => ?_⟩
    rw [hn, hlast, Ring.numberOf_newest]
    simp [Ring.expected]
  case release =>
    refine ⟨fun h => slotReleaseDepart_idles hr hrels (h.imp_right .inr), fun ht hclash => ?_⟩
    have hroom := Core.noticeRoom_of_ring hr
    have hdeparts := slotReleaseDepart_empties hr hrels hlen ht hclash
    refine ⟨fun hby hfar => ?_, fun y hby hfar hhold => ?_, fun y hby => ⟨fun hhold => ?_, fun hhold => ?_⟩⟩
    · simpa [Ring.freeNotice, hby, hfar] using hdeparts (hroom.trans (by simp [hby, hfar]))
    · simpa [Ring.freeNotice, hby, hfar] using hdeparts (hroom.trans (by simp [hhold]))
    · exact slotReleaseDepart_idles hr hrels (.inr (.inl (hroom.trans (by simp [hby, hhold]))))
    · simpa [Ring.freeNotice, hby] using hdeparts (hroom.trans (by simp [hhold]))

end Sys2Proof.Claims

end

section

/-! ## O11: opcodes

The fields of an encoding lie below its opcode, so that the opcode can be read off the word again (R118). -/

namespace Sys2Proof.Laws

/-- Every field of a word is within its width; an event has no word. -/
theorem fieldsFit (i : Instr) : FieldsFit.Statement i := by
  cases i
  all_goals simp -failIfUnchanged only [
    FieldsFit.add, FieldsFit.sub, FieldsFit.addi, FieldsFit.mul, FieldsFit.mulh, FieldsFit.mulhu, FieldsFit.div, FieldsFit.divu,
    FieldsFit.rem, FieldsFit.remu, FieldsFit.and, FieldsFit.or, FieldsFit.xor, FieldsFit.andn, FieldsFit.shl, FieldsFit.shr,
    FieldsFit.sra, FieldsFit.rot, FieldsFit.clz, FieldsFit.ctz, FieldsFit.popc, FieldsFit.min, FieldsFit.max, FieldsFit.minu,
    FieldsFit.maxu, FieldsFit.sext, FieldsFit.zext, FieldsFit.bfx, FieldsFit.bfi, FieldsFit.mov, FieldsFit.movi, FieldsFit.movhi,
    FieldsFit.sel, FieldsFit.cmp, FieldsFit.lea, FieldsFit.fadd, FieldsFit.fsub, FieldsFit.fmul, FieldsFit.ffma, FieldsFit.fmin,
    FieldsFit.fmax, FieldsFit.fcmp, FieldsFit.fcvt, FieldsFit.br, FieldsFit.bc, FieldsFit.call, FieldsFit.ret, FieldsFit.jmpr,
    FieldsFit.loop, FieldsFit.loopi, FieldsFit.endit, FieldsFit.trap, FieldsFit.nop, FieldsFit.pause, FieldsFit.getc,
    FieldsFit.setc, FieldsFit.vadd, FieldsFit.vsub, FieldsFit.vmul, FieldsFit.vfma, FieldsFit.vfms, FieldsFit.vnfma,
    FieldsFit.vmin, FieldsFit.vmax, FieldsFit.vabs, FieldsFit.vneg, FieldsFit.vcmp, FieldsFit.vsel, FieldsFit.vand, FieldsFit.vor,
    FieldsFit.vxor, FieldsFit.vnot, FieldsFit.vshl, FieldsFit.vshr, FieldsFit.vsra, FieldsFit.vadds, FieldsFit.vmulh,
    FieldsFit.vdot2, FieldsFit.vexp2, FieldsFit.vlog2, FieldsFit.vrcp, FieldsFit.vrsqrt, FieldsFit.vsqrt, FieldsFit.vtanh,
    FieldsFit.vsigm, FieldsFit.vbcast, FieldsFit.vmov, FieldsFit.vperm, FieldsFit.vrot, FieldsFit.vslide, FieldsFit.vcompact,
    FieldsFit.vexpand, FieldsFit.vredsum, FieldsFit.vredmax, FieldsFit.vredmin, FieldsFit.vscan, FieldsFit.vtopk, FieldsFit.vbmand,
    FieldsFit.vpopc, FieldsFit.vpfx, FieldsFit.vcvt, FieldsFit.vquantScale, FieldsFit.vquant, FieldsFit.vdequant, FieldsFit.vpack,
    FieldsFit.vunpack, FieldsFit.vrnd, FieldsFit.pand, FieldsFit.por, FieldsFit.pxor, FieldsFit.pnot, FieldsFit.pcnt,
    FieldsFit.pfirst, FieldsFit.pset, FieldsFit.ld, FieldsFit.st, FieldsFit.ldacq, FieldsFit.strel, FieldsFit.vld, FieldsFit.vst,
    FieldsFit.vgather, FieldsFit.vscatter, FieldsFit.align, FieldsFit.fence, FieldsFit.amo, FieldsFit.cas, FieldsFit.cred,
    FieldsFit.barInit, FieldsFit.barArrive, FieldsFit.barWait, FieldsFit.gjoin, FieldsFit.gleave, FieldsFit.gbar, FieldsFit.tokw,
    FieldsFit.toks, FieldsFit.carve, FieldsFit.wload, FieldsFit.mmap, FieldsFit.plane, FieldsFit.sbind, FieldsFit.feed,
    FieldsFit.feedx, FieldsFit.drain, FieldsFit.aclr, FieldsFit.pstat, FieldsFit.qdef, FieldsFit.qreset, FieldsFit.qfill,
    FieldsFit.qpop, FieldsFit.qpopFree, FieldsFit.qtag, FieldsFit.cdef, FieldsFit.cgo, FieldsFit.cdem, FieldsFit.cwait,
    FieldsFit.circ, FieldsFit.ccls, FieldsFit.cstat, FieldsFit.wdrive, FieldsFit.wdriveNew, FieldsFit.wdriveAbort, FieldsFit.wstat,
    FieldsFit.launch, FieldsFit.lwait, FieldsFit.lwaitT, FieldsFit.rett, FieldsFit.prd, FieldsFit.pwr, FieldsFit.tlbi,
    FieldsFit.cast, FieldsFit.freeze, FieldsFit.thaw, FieldsFit.wfi, FieldsFit.ctxsave, FieldsFit.ctxload, FieldsFit.qsave,
    FieldsFit.qload, FieldsFit.sysc, FieldsFit.halt]
  all_goals rintro _ ⟨⟩

theorem Fits.pack_lt {p : Pay} (h : Fits p) : p.pack < 2 ^ 52 := by
  cases p
  all_goals
    simp only [Fits] at h
    simp only [Pay.pack, PayA.pack, PayI.pack, PayB.pack, PayM.pack, PayE.pack, PayS.pack]
    omega

theorem Hdr.pack_lt (h : Hdr) : h.pack < 2 ^ 20 := by
  have := b2n_lt h.pneg
  have := h.wait.isLt
  unfold Hdr.pack
  split <;> omega

/-- The opcode of a word is its bits [79:72] (R118). -/
theorem encode_op {i : Instr} {e : Enc} (he : i.enc = some e) : encode i / 2 ^ 72 = e.op := by
  have hp := Fits.pack_lt (fieldsFit i e he).2
  have hh := Hdr.pack_lt e.h
  simp only [encode, he, Enc.word]
  omega

end Sys2Proof.Laws

end

section

/-! ## O11: what every word asks for before it issues

Each word of a front end is one call of `State.issue` with its header, whatever its own effect is. What it asks for there agrees
with its opcode. -/

namespace Sys2Proof.Claims

open Sys2Proof.Machine

/-- The feature of an opcode (R324). -/
def opFeature (op : Nat) : Nat :=
  if 0x6C ≤ op ∧ op ≤ 0x6E then 1 else if op = 0x6B then 2 else if op = 0xD6 ∨ op = 0xD7 then 3
    else if op = 0xDE ∨ op = 0xDF then 4 else if op = 0xEA ∨ op = 0xEB then 5 else 0

/-- The lowest level that may issue a word of an opcode (R137); that of `prd` and `pwr` is their register's. -/
def lowestLevel (i : Instr) (op : Nat) : Level :=
  match i with
  | .prd _ r _ => if regLevel r.toNat false = .m then .m else .s
  | .pwr _ r _ => if regLevel r.toNat true = .m then .m else .s
  | _ => if op = 0xED then .m else if 0xE0 ≤ op ∧ op ≤ 0xEB ∧ op ≠ 0xE7 then .s else .u

/-- The word executes lane by lane (R171): the vector opcodes, but for the forms with a scalar or a predicate result. -/
def isLanewise (i : Instr) (op : Nat) : Bool :=
  match i with
  | .vmov _ (.extract ..) => false
  | .vredsum .. => false
  | .vredmax .. => false
  | .vredmin .. => false
  | .vbmand .. => false
  | .vquantScale .. => false
  | _ => decide (0x40 ≤ op ∧ op ≤ 0x75) || decide (0xA4 ≤ op ∧ op ≤ 0xA7)

/-- The word goes through the checks of R138 as `u` says, before its own effect `eff`; `u` agrees with its opcode. -/
structure IssuesWith (i : Instr) (e : Enc) (u : Use) (eff : State → Outcome) : Prop where
  exec_eq (s : State) : exec i s = s.issue i e.h u eff
  feature : u.feature = opFeature e.op
  level : u.level = lowestLevel i e.op
  lanewise : u.lanewise = isLanewise i e.op

/-- `prd` and `pwr` need S or M; no register makes them words of level U (R137). -/
theorem accessLevel_eq (n : Nat) (write : Bool) : accessLevel n write = if regLevel n write = .m then .m else .s := by
  unfold accessLevel
  cases regLevel n write <;> rfl

/-- Every word of a front end goes through the checks. The first block has the words whose level a register number chooses, the
second those of which an operand chooses the encoding. -/
theorem word_issues {i : Instr} {e : Enc} (he : i.enc = some e) : ∃ u eff, IssuesWith i e u eff := by
  cases i
  case prd | pwr =>
    cases he
    exact ⟨_, _, fun _ => rfl, by rfl, accessLevel_eq .., by rfl⟩
  case cmp _ _ _ _ _ x | bc _ x _ | vbcast _ _ x | vmov _ x | vrot _ _ _ x | vslide _ _ _ _ _ x | vbmand _ _ x | vpfx _ _ x | pset _ _ x
     | barWait _ _ _ x _ | tlbi _ _ x | freeze _ x _ | thaw _ x _ | shl _ _ _ _ x | shr _ _ _ _ x | sra _ _ _ _ x | rot _ _ _ x
     | vshl _ _ _ _ x | vshr _ _ _ _ x | vsra _ _ _ _ x =>
    cases x
    all_goals
      cases he
      exact ⟨_, _, fun _ => rfl, by rfl, by rfl, by rfl⟩
  all_goals cases he
  all_goals exact ⟨_, _, fun _ => rfl, by rfl, by rfl, by rfl⟩

/-- What the statement calls a whole word is one that does not execute lane by lane. -/
theorem isWhole_eq (i : Instr) : isWhole i = !isLanewise i (encode i / 2 ^ 72) := by
  unfold isWhole isLanewise
  cases i
  case vmov h f => cases f <;> rfl
  all_goals rfl

end Sys2Proof.Claims

end

section

/-! ## O11: the checks one by one, and words that are predicated off -/

namespace Sys2Proof.Machine

section gate
variable {s : State} {h : Hdr} {u : Use} (i : Instr) (eff : State → Outcome)

theorem State.issue_of_not_mayIssue (hm : s.me.mayIssue s.cycle = false) : s.issue i h u eff = .next (s.tryEnter s.cur) := by
  simp [State.issue, State.gate, hm]

theorem State.issue_of_not_accepted (hm : s.me.mayIssue s.cycle = true) (ha : s.accepted u.feature = false) :
    s.issue i h u eff = .next (s.trapHere .undef (wordInfo i)) :=
  s.issue_trap i h u eff _ (by simp [State.gate, hm, ha])

theorem State.issue_of_low_level (hm : s.me.mayIssue s.cycle = true) (ha : s.accepted u.feature = true)
    (hl : s.me.live.front.level.code < u.level.code) : s.issue i h u eff = .next (s.trapHere .priv (wordInfo i)) :=
  s.issue_trap i h u eff _ (by simp [State.gate, hm, ha, hl])

theorem State.gate_off (hm : s.me.mayIssue s.cycle = true) (ha : s.accepted u.feature = true)
    (hl : u.level.code ≤ s.me.live.front.level.code) (hr : s.me.ready s.cycle h u = true) (hw : u.lanewise = false)
    (hp : (s.me.live.front.predicate h).getLsbD 0 = false) : s.gate i h u = .off := by
  simpa [State.gate, hm, ha, hr, hw, Nat.not_lt.mpr hl] using hp

end gate

theorem Pend.cover_nil (p : Pend) : p.cover [] = p := rfl

theorem Front.retire_tags_of_no_tag (f : Front) (h : Hdr) (lat : Option Nat) (now : Nat) :
    (f.retire { h with tag := none } lat {} now).tags = f.tags := by
  simp [Front.retire, Front.allocate, Pend.cover_nil]

end Sys2Proof.Machine

namespace Sys2Proof.Claims

open Sys2Proof.Machine

/-- The word retires and does nothing else: no register, no stochastic register, and no tag changes (R120). -/
def PassesOver (s : State) (i : Instr) : Prop :=
  ∃ t, exec i s = .next t ∧ Retired s s t 0 none none false ∧ WritesNone s t ∧ (fe t).regs.lfsr = (fe s).regs.lfsr ∧
    (fe t).tags = (fe s).tags

theorem passesOver_of_issue {s : State} {i : Instr} {h : Hdr} {u : Use} {eff : State → Outcome}
    (he : ∀ s, exec i s = s.issue i h u eff) (hw : u.lanewise = false) (hm : s.me.mayIssue s.cycle = true)
    (ha : s.accepted u.feature = true) (hl : u.level.code ≤ (fe s).level.code) (hr : s.me.ready s.cycle h u = true)
    (hp : ((fe s).predicate h).getLsbD 0 = false) : PassesOver s i := by
  have hoff := (he s).trans (s.issue_off i h u eff (State.gate_off i hm ha hl hr hw hp))
  refine ⟨_, hoff, retired .., writesNone_retire _ _ _ _ rfl, lfsr_retire .., ?_⟩
  rw [fe_retire, Front.retire_tags_of_no_tag]

theorem predicate_of_negated_p0 (f : Front) {h : Hdr} (hn : h.pneg = true) (hp : h.pred = 0) :
    (f.predicate h).getLsbD 0 = false := by
  simp [Front.predicate, hn, hp]

theorem opFeature_lt (op : Nat) : opFeature op < 6 := by
  unfold opFeature
  (repeat' split) <;> omega

theorem Level.code_le_m (l : Level) : l.code ≤ Level.m.code := by cases l <;> decide

/-- The checks of R138 in their order, up to the level. -/
theorem word_checks {i : Instr} {e : Enc} (he : i.enc = some e) (s : State) :
    let info := BitVec.ofNat 64 (encode i)
    (s.me.mayIssue s.cycle = false → exec i s = .next (s.tryEnter s.cur)) ∧
    (s.me.mayIssue s.cycle = true → s.pkg.accept.getLsbD (opFeature e.op) = false → Traps s s i .undef info) ∧
    (s.me.mayIssue s.cycle = true → s.pkg.accept.getLsbD (opFeature e.op) = true →
      (fe s).level.code < (lowestLevel i e.op).code → Traps s s i .priv info) := by
  obtain ⟨u, eff, hw⟩ := word_issues he
  unfold Traps
  rw [← hw.feature, ← hw.level, hw.exec_eq]
  exact ⟨State.issue_of_not_mayIssue i eff, State.issue_of_not_accepted i eff, State.issue_of_low_level i eff⟩

/-- A word that is no vector instruction passes over where its predicate is false (R120, R171). -/
theorem whole_word_passesOver {i : Instr} {e : Enc} {s : State} (he : i.enc = some e) (hi : isWhole i = true)
    (hm : s.me.mayIssue s.cycle = true) (ha : ∀ n < 6, s.pkg.accept.getLsbD n = true) (hl : (fe s).level = .m)
    (hr : ∀ u : Use, s.me.ready s.cycle e.h u = true) (hp : ((fe s).predicate e.h).getLsbD 0 = false) : PassesOver s i := by
  obtain ⟨u, eff, hw⟩ := word_issues he
  have hwhole : u.lanewise = false := by
    rw [isWhole_eq, Laws.encode_op he] at hi
    rw [hw.lanewise]
    simpa using hi
  refine passesOver_of_issue hw.exec_eq hwhole hm (ha _ ?_) ?_ (hr u) hp
  · rw [hw.feature]
    exact opFeature_lt e.op
  · rw [hl]
    exact Level.code_le_m _

/-- Settles O11: every word is one call of `State.issue` by `word_issues`, whose checks are then taken one by one. -/
theorem checksBeforeAWordIssues : Obligations.ChecksBeforeAWordIssues := by
  unfold Obligations.ChecksBeforeAWordIssues
  refine ⟨fun i s hi => ?checks, fun h w d a b n imm e q o x k wp wn s => ?off, fun i e s he hi hm ha hl hr hp => ?whole⟩
  case checks =>
    obtain ⟨e, he⟩ := Option.isSome_iff_exists.1 (by simpa [isEvent] using hi)
    have hc := word_checks he s
    rw [← Laws.encode_op he] at hc
    exact hc
  case off =>
    intro off
    refine ⟨predicate_of_negated_p0 _, ?_⟩
    and_intros
    all_goals exact passesOver_of_issue (fun _ => rfl) rfl
  case whole => exact whole_word_passesOver he hi hm ha hl hr hp

end Sys2Proof.Claims

end

section

/-! ## O16: the special functions -/

namespace Sys2Proof.Claims

open Sys2Proof.Machine

/-- A word that issues has its own effect. -/
theorem exec_of_issues {s : State} {i : Instr} {h : Hdr} {u : Use} {eff : State → Outcome} (he : exec i s = s.issue i h u eff)
    (hi : Issues s h u) : exec i s = eff s := he.trans (s.issue_go i h u eff hi.gate)

/-- A bit of flags ORed over a list is set where one of them has it. -/
theorem getLsbD_foldr_or (l : List Nat) (g : Nat → FFlags) (b : Nat) :
    (l.foldr (fun k n => g k ||| n) 0).getLsbD b = true ↔ ∃ k ∈ l, (g k).getLsbD b = true := by
  induction l with
  | nil => simp
  | cons k l ih => rw [List.foldr_cons, BitVec.getLsbD_or, Bool.or_eq_true, ih, List.exists_mem_cons_iff]

theorem mem_activeLanes {p : Word} {k : Nat} : k ∈ activeLanes p ↔ k < 64 ∧ p.getLsbD k = true := by
  simp [activeLanes]

/-- The flags computed for a mask are those of its active lanes (R173). -/
theorem flagsOf_computeLanes (p : Word) (f : Nat → Lane × FFlags) : FlagsOf p (computeLanes p f).2 fun k => (f k).2 := by
  intro b _
  rw [computeLanes_flags, getLsbD_foldr_or]
  simp only [mem_activeLanes, and_assoc]

/-- The result of a special function waits at the word's tag with its flags, ten cycles on at the earliest (R134, R179). -/
theorem specialResult_of_specialOp {s : State} {i : Instr} {h : Hdr} {rm : Rnd} {d a : VReg} {f : RMode → Nat → Lane → Lane × FFlags}
    (he : exec i s = s.specialOp i h rm d a f) : SpecialResult s i h d a rm f := by
  intro tag ht hi
  have hexec := exec_of_issues he hi
  refine ⟨_, _, _, hexec, retired .., ⟨writesNone_retire _ _ _ _ rfl, ?awaits⟩,
    fun k hk hp => lane_computeLanes _ _ k hk hp, flagsOf_computeLanes _ _, lfsr_retire ..⟩
  case awaits =>
    rw [fe_retire]
    exact ⟨_, (fe s).retire_tag h tag _ s.cycle ht, rfl, rfl, rfl, Front.le_landed .., rfl, rfl, rfl, rfl⟩

/-- Settles O16: the seven words are `State.specialOp` with a function each. -/
theorem specialFunctions : Obligations.SpecialFunctions := by
  unfold Obligations.SpecialFunctions
  intro h rm d a s
  and_intros
  all_goals exact specialResult_of_specialOp rfl

end Sys2Proof.Claims

end

section

/-! ## O22: accesses and their pieces

An access that passes its checks has as many lists of pieces as parts; so the words may pair the two. -/

namespace Sys2Proof.Machine

theorem State.pieces_ne_ok_nil (s : State) (c : CoreId) (lv : Level) (hi : Byte) (acc : Access) (xs : List (Word × Nat)) :
    s.pieces c lv hi acc xs ≠ .ok [] := by
  induction xs with
  | nil => simp [State.pieces]
  | cons x xs ih =>
    unfold State.pieces
    split
    · simp
    · simp
    · split
      · simp
      · exact ih

theorem State.globalCheck_length {s : State} {c : CoreId} {lv : Level} {hi : Byte} {acc : Access} {xs : List (Word × Nat)}
    {ps : List (List Piece)} (h : s.globalCheck c lv hi acc xs = .ok ps) : ps.length = xs.length := by
  induction xs generalizing ps with
  | nil => cases h; rfl
  | cons x xs ih =>
    unfold State.globalCheck at h
    split at h
    · split at h
      case h_1 hrest => cases h; exact congrArg (· + 1) (ih hrest)
      case h_2 hne => exact absurd h (hne _)
    case h_2 hne =>
      cases ps with
      | nil => exact absurd h (s.pieces_ne_ok_nil c lv hi acc _)
      | cons p ps => exact absurd h (hne p ps)

/-- An access that passes its checks has the pieces of each of its parts (R197). -/
theorem State.memCheck_length {s : State} {c : CoreId} {lv : Level} {hi : Byte} {sp : Space} {acc : Access} {align : Nat} {deny : Bool}
    {xs : List (Word × Nat)} {ps : List (List Piece)} (h : s.memCheck c lv hi sp acc align deny xs = .ok ps) :
    ps.length = xs.length := by
  unfold State.memCheck at h
  split at h
  · cases h
  · split at h
    case h_1 b _ =>
      unfold bufCheck at h
      split at h <;> cases h
      exact List.length_map _
    case h_2 =>
      split at h
      · cases h
      · split at h
        case h_1 hg =>
          split at h <;> cases h
          exact State.globalCheck_length hg
        case h_2 hne => exact absurd h (hne _)

@[simp] theorem untranslated_length (xs : List (Word × Nat)) : (untranslated xs).length = xs.length := List.length_map _

/-- What a word does with its pieces matters only for as many lists of them as it has accesses. -/
theorem State.withMem_congr {s : State} {sp : Space} {acc : Access} {align : Nat} {xs : List (Word × Nat)}
    {k k' : State → List (List Piece) → Option Need → Outcome}
    (hk : ∀ m ps need, ps.length = xs.length → k m ps need = k' m ps need) (deny blocks : Bool) (stream : Access) :
    s.withMem sp acc align xs k deny blocks stream = s.withMem sp acc align xs k' deny blocks stream := by
  unfold State.withMem
  dsimp only
  split
  · rfl
  · split
    case h_1 hok => exact hk _ _ _ (State.memCheck_length hok)
    case h_2 => rw [hk _ _ _ (untranslated_length xs)]
    case h_3 => rfl

/-- A load of no part retires, with zero for its value (R200). -/
theorem State.loadWord_nil {m : State} (hroom : m.me.logRoom = true) (hlog : m.me.logged = none) (h : Hdr) (dst : Reg)
    (mask : VecWord) (kind : LoadKind) (sp : Space) (acq : Option Scope) (lat : Nat) (need : Option Need) :
    m.loadWord h dst mask kind sp [] acq lat need =
      .next (m.retire h none { pend := some (m.me.live.front.pendOf dst mask (m.cycle + lat) (some 0)) }) := by
  simp [State.loadWord, hroom, hlog]

end Sys2Proof.Machine

end

section

/-! ## O22: the loads -/

namespace Sys2Proof.Claims

open Sys2Proof.Machine

theorem Awaits.mono {s t : State} {tag : TagId} {d : Reg} {mask : VecWord} {m n : Nat} {v : Option VecWord} {fl : FFlags} (h : m ≤ n)
    (ha : Awaits s t tag d mask n v fl) : Awaits s t tag d mask m v fl := by
  obtain ⟨hw, p, ht, hfix, hd, hm, hn, hrest⟩ := ha
  exact ⟨hw, p, ht, hfix, hd, hm, h.trans hn, hrest⟩

theorem laneAddr_eq_laneEA (s : State) (h : Hdr) (base : SReg) (str : Bool) (off : BitVec 24) (k : Nat) :
    laneAddr str (srcA s h base) off k = laneEA s h base str off k := by
  cases str
  · rfl
  · simp only [laneAddr, laneEA, if_true, BitVec.ofInt_mul, BitVec.ofInt_natCast]
    rfl

theorem indexAddr_eq_indexEA (s : State) (h : Hdr) (base : SReg) (off : BitVec 24) (x : VReg) (k : Nat) :
    indexAddr (srcA s h base) off ((fe s).regs.getV x) k = indexEA s h base off x k := by
  rw [indexAddr, indexEA, BitVec.ofNat_mul, BitVec.ofNat_toNat]
  rfl

/-- A word whose accesses load as `loadWord` says, at the earliest after `least` cycles (R134, R197). -/
theorem loads_of_withMem {s : State} {i : Instr} {h : Hdr} {u : Use} {tag : TagId} {d : Reg} {mask : VecWord} {kind : LoadKind}
    {sp : Space} {align : Nat} {xs : List (Word × Nat)} {bit : List Nat} {acq : Option Scope} {least : Nat}
    (he : Issues s h u → ∃ lat, least ≤ lat ∧ exec i s = s.withMem sp .load align xs fun m ps need =>
      m.loadWord h d mask kind sp (loadUnits (bit.zip ps)) acq lat need) :
    Loads s i h u tag d mask kind sp align xs bit acq least := by
  intro hi ht
  obtain ⟨lat, hlat, he⟩ := he hi
  refine accesses_of_withMem he fun m ps need hm he hroom hlog => ⟨fun hus => ?none, fun hus => ?some⟩
  case none =>
    obtain ⟨ms, hme⟩ := hm.me
    rw [hus, State.loadWord_nil (by rw [hme]; exact hroom) (by rw [hme]; exact hlog)] at he
    refine ⟨_, he, retired_after s m hm.cur (congrArg (·.at_.pc) hm.fe) (congrArg (·.at_.po) hm.fe) hm.bytes h none _, ?_⟩
    rw [show m.me.live.front = fe s from hm.fe, hm.cycle]
    exact awaits_retire (congrArg (·.regs) hm.fe) ht (Nat.add_le_add_left hlat _)
  case some =>
    obtain ⟨t, hload, hret, haw⟩ := loadWord_joins hm ⟨ht, hroom, hlog⟩ hus
    exact ⟨t, he.trans hload, hret, haw.mono (Nat.add_le_add_left hlat _)⟩

/-- A scalar load has one access, whose pieces land at bit 0 of the result (R199). -/
theorem loads_of_scalarLoad {s : State} {i : Instr} {h : Hdr} {d base : SReg} {sp : Space} {wd : MWidth} {sx : Bool} {off : BitVec 24}
    {align : Nat} {acq : Option Scope} (he : exec i s = s.scalarLoad i h d base sp wd sx off align acq) (tag : TagId) :
    Loads s i h { srcs := [(.s base, h.pda)], dsts := [.s d], engine := true } tag (.s d) (wordOf (BitVec.allOnes 64))
      (.scalar (MWidth.size wd) sx) sp align [(ea s h base off, MWidth.size wd)] [0] acq (if sp = .g then 300 else 12) := by
  refine loads_of_withMem fun hi =>
    ⟨_, le_rfl, (exec_of_issues he hi).trans (State.withMem_congr (fun m ps need hps => ?_) ..)⟩
  obtain ⟨p, rfl⟩ := List.length_eq_one_iff.1 hps
  rfl

/-- A vector load has one access for each active lane, whose pieces land in that lane (R200, R201). In a buffer its latency may be
higher than the minimum, where lanes meet in one bank (R202). -/
theorem loads_of_vectorLoad {s : State} {i : Instr} {h : Hdr} {d : VReg} {base : SReg} {locks : List Reg} {sp : Space}
    {addr : Front → Nat → Word} {gather : Bool} {a : Nat → Word} (he : exec i s = s.vectorLoad i h d base locks sp addr gather)
    (ha : ∀ k, addr (fe s) k = a k) (tag : TagId) :
    Loads s i h { srcs := [(.s base, h.pda)], locks := locks, dsts := [.v d], lanewise := true, engine := true } tag (.v d)
      (laneMask (activeP s h)) .vec sp 4 ((lanesOf (activeP s h)).map fun k => (a k, 4)) ((lanesOf (activeP s h)).map (32 * ·))
      none (if sp = .g then 300 else 12) := by
  obtain rfl : addr (fe s) = a := funext ha
  refine loads_of_withMem fun hi => ?_
  have hload := exec_of_issues he hi
  dsimp only at hload
  rw [List.map_map] at hload
  refine ⟨_, ?_, hload⟩
  cases sp <;> cases gather <;> simp [spaceBuf]

/-- Settles O22: two scalar loads and two vector loads, the address of each as R196 gives it. -/
theorem loadsJoinTheLoadStream : Obligations.LoadsJoinTheLoadStream := by
  unfold Obligations.LoadsJoinTheLoadStream
  intro h d base vd x sp wd scope sx str off tag s n lat us uv ls vec
  refine ⟨loads_of_scalarLoad rfl tag, loads_of_scalarLoad rfl tag, ?vld, ?vgather⟩
  case vld =>
    have he : exec (.vld h vd base sp str off) s =
      s.vectorLoad _ h vd base [] sp (fun f => laneAddr str (f.srcS base h.pda) off) false := rfl
    exact loads_of_vectorLoad he (laneAddr_eq_laneEA s h base str off) tag
  case vgather =>
    have he : exec (.vgather h vd base sp x off) s =
      s.vectorLoad _ h vd base [.v x] sp (fun f => indexAddr (f.srcS base h.pda) off (f.regs.getV x)) true := rfl
    exact loads_of_vectorLoad he (indexAddr_eq_indexEA s h base off x) tag

end Sys2Proof.Claims

end

section

/-! ## O54: sample words -/

namespace Sys2Proof.Claims

open Sys2Proof.Machine

/-- Settles O54: closed words, decoded in the kernel. -/
theorem sampleWordsDecode : Obligations.SampleWordsDecode := by
  unfold Obligations.SampleWordsDecode
  decide +kernel

end Sys2Proof.Claims

end

section

/-! ## O1, O3: scalar arithmetic as numbers

The operations of `Sys2Proof/Machine/Scalar.lean` in any width, as the rules give them: by the numbers that the operands stand for,
or bit by bit (R149 to R153). -/

namespace Sys2Proof.Machine
section width
variable {n : Nat}

/-- The high half of a number of 2n bits. -/
theorem extractLsb'_ofInt_high (z : Int) : (BitVec.ofInt (n + n) z).extractLsb' n n = BitVec.ofInt n (z / 2 ^ n) := by
  have hp : (2 : Int) ^ n ≠ 0 := by positivity
  have hz : z % (2 ^ n * 2 ^ n) = z - 2 ^ n * (2 ^ n * (z / (2 ^ n * 2 ^ n))) := by rw [Int.emod_def, mul_assoc]
  have hlow : z % (2 ^ n * 2 ^ n) / 2 ^ n % 2 ^ n = z / 2 ^ n % 2 ^ n := by
    rw [hz, Int.sub_mul_ediv_left _ _ hp, Int.sub_mul_emod_self_left]
  have hpos : 0 ≤ z % (2 ^ n * 2 ^ n) := Int.emod_nonneg _ (by positivity)
  apply BitVec.eq_of_toNat_eq
  rw [BitVec.extractLsb'_toNat, BitVec.toNat_ofInt, BitVec.toNat_ofInt, Nat.shiftRight_eq_div_pow]
  push_cast
  rw [pow_add]
  zify
  rw [Int.toNat_of_nonneg hpos, Int.toNat_of_nonneg (Int.emod_nonneg _ hp), hlow]

theorem mul_eq_ofInt (a b : BitVec n) : a * b = BitVec.ofInt n (a.toInt * b.toInt) := by
  rw [BitVec.ofInt_mul, BitVec.ofInt_toInt, BitVec.ofInt_toInt]

theorem mulHigh_eq (a b : BitVec n) : mulHigh a b = BitVec.ofInt n (a.toInt * b.toInt / 2 ^ n) := by
  have hext (x : BitVec n) : x.signExtend (n + n) = BitVec.ofInt (n + n) x.toInt := by
    rw [← BitVec.toInt_signExtend_of_le (Nat.le_add_right n n), BitVec.ofInt_toInt]
  rw [mulHigh, hext, hext, ← BitVec.ofInt_mul, extractLsb'_ofInt_high]

theorem mulHighU_eq (a b : BitVec n) : mulHighU a b = BitVec.ofNat n (a.toNat * b.toNat / 2 ^ n) := by
  have hn : n ≤ n + n := Nat.le_add_right n n
  have hlt : a.toNat * b.toNat < 2 ^ (n + n) := by
    rw [pow_add]
    exact Nat.mul_lt_mul'' a.isLt b.isLt
  apply BitVec.eq_of_toNat_eq
  rw [mulHighU, BitVec.extractLsb'_toNat, BitVec.toNat_mul, BitVec.toNat_setWidth_of_le hn, BitVec.toNat_setWidth_of_le hn,
    Nat.mod_eq_of_lt hlt, Nat.shiftRight_eq_div_pow, BitVec.toNat_ofNat]

theorem divS_eq (a b : BitVec n) :
    divS a b = if b = 0 then BitVec.allOnes n else BitVec.ofInt n (a.toInt.tdiv b.toInt) := by
  rw [divS, ← BitVec.ofInt_toInt (x := a.sdiv b), BitVec.toInt_sdiv, ← BitVec.toInt_ofInt, BitVec.ofInt_toInt]

theorem remS_eq (a b : BitVec n) : remS a b = if b = 0 then a else BitVec.ofInt n (a.toInt.tmod b.toInt) := by
  rw [remS, ← BitVec.toInt_srem, BitVec.ofInt_toInt]

theorem divU_eq (a b : BitVec n) : divU a b = if b = 0 then BitVec.allOnes n else BitVec.ofNat n (a.toNat / b.toNat) := by
  rw [divU, ← BitVec.toNat_udiv, BitVec.ofNat_toNat, BitVec.setWidth_eq]

theorem remU_eq (a b : BitVec n) : remU a b = if b = 0 then a else BitVec.ofNat n (a.toNat % b.toNat) := by
  rw [remU, ← BitVec.toNat_umod, BitVec.ofNat_toNat, BitVec.setWidth_eq]

theorem shiftLeft_eq_ofNat (a : BitVec n) (k : Nat) : a <<< k = BitVec.ofNat n (a.toNat * 2 ^ k) := by
  apply BitVec.eq_of_toNat_eq
  rw [BitVec.toNat_shiftLeft, Nat.shiftLeft_eq, BitVec.toNat_ofNat]

theorem ushiftRight_eq_ofNat (a : BitVec n) (k : Nat) : a >>> k = BitVec.ofNat n (a.toNat / 2 ^ k) := by
  rw [← Nat.shiftRight_eq_div_pow, ← BitVec.toNat_ushiftRight, BitVec.ofNat_toNat, BitVec.setWidth_eq]

theorem sshiftRight_eq_ofInt (a : BitVec n) (k : Nat) : a.sshiftRight k = BitVec.ofInt n (a.toInt / 2 ^ k) := by
  rw [BitVec.sshiftRight, Int.shiftRight_eq_div_pow]
  push_cast
  rfl

/-- The two parts of a rotation share no bit, so that they may as well be added. -/
theorem rotateRight_eq_ofNat (a : BitVec n) (k : Nat) (hk : k < n) :
    a.rotateRight k = BitVec.ofNat n (a.toNat / 2 ^ k + a.toNat * 2 ^ (n - k)) := by
  have hdisjoint : a >>> k &&& a <<< (n - k) = 0#n := by
    apply BitVec.eq_of_getLsbD_eq
    intro i hi
    by_cases hlow : i < n - k
    · simp [hlow]
    · simp [BitVec.getLsbD_of_ge a (k + i) (by omega)]
  rw [BitVec.rotateRight_def, Nat.mod_eq_of_lt hk, ← BitVec.add_eq_or_of_and_eq_zero _ _ hdisjoint, BitVec.ofNat_add,
    ushiftRight_eq_ofNat, shiftLeft_eq_ofNat]

/-- The leading zero bits are counted down from the highest bit that is set. -/
theorem leadingZeros_eq {a : BitVec n} {k : Nat} (hk : k ≤ n) (hzero : ∀ i < k, a.getLsbD (n - 1 - i) = false)
    (hone : k < n → a.getLsbD (n - 1 - k) = true) : leadingZeros a = BitVec.ofNat n k := by
  rcases Nat.lt_or_eq_of_le hk with hlt | rfl
  · have hset : a.toNat.testBit (n - 1 - k) = true := hone hlt
    have hne : a ≠ 0 := by
      rintro rfl
      simp at hset
    have hlog : a.toNat.log2 = n - 1 - k := by
      rw [Nat.log2_eq_iff (fun h => hne (BitVec.eq_of_toNat_eq h))]
      refine ⟨Nat.ge_two_pow_of_testBit hset, Nat.lt_pow_two_of_testBit _ fun i hi => ?_⟩
      by_cases hin : i < n
      · have := hzero (n - 1 - i) (by omega)
        rwa [show n - 1 - (n - 1 - i) = i by omega] at this
      · exact BitVec.getLsbD_of_ge a i (Nat.le_of_not_lt hin)
    rw [leadingZeros, if_neg hne, hlog]
    congr 1
    omega
  · have hz : a = 0 := by
      apply BitVec.eq_of_getLsbD_eq
      intro i hi
      have := hzero (k - 1 - i) (by omega)
      rw [show k - 1 - (k - 1 - i) = i by omega] at this
      simpa using this
    rw [leadingZeros, if_pos hz]

theorem trailingZeros_eq {a : BitVec n} {k : Nat} (hk : k ≤ n) (hzero : ∀ i < k, a.getLsbD i = false)
    (hone : k < n → a.getLsbD k = true) : trailingZeros a = BitVec.ofNat n k := by
  have hfind : ((List.range n).find? fun i => a.getLsbD i).getD n = k := by
    rcases Nat.lt_or_eq_of_le hk with hlt | rfl
    · have : (List.range n).find? (fun i => a.getLsbD i) = some k := by
        simpa [List.find?_range_eq_some, hlt, hone hlt] using hzero
      rw [this, Option.getD_some]
    · have : (List.range k).find? (fun i => a.getLsbD i) = none := by
        simpa [List.find?_range_eq_none] using hzero
      rw [this, Option.getD_none]
  rw [trailingZeros, hfind]

theorem toInt_minS (a b : BitVec n) : (minS a b).toInt = min a.toInt b.toInt := by
  simp only [minS, BitVec.slt_iff_toInt_lt, min_comm a.toInt, min_def_lt]
  split <;> rfl

theorem toInt_maxS (a b : BitVec n) : (maxS a b).toInt = max a.toInt b.toInt := by
  simp only [maxS, BitVec.slt_iff_toInt_lt, max_def_lt]
  split <;> rfl

theorem minS_eq (a b : BitVec n) : minS a b = BitVec.ofInt n (min a.toInt b.toInt) := by
  rw [← toInt_minS, BitVec.ofInt_toInt]

theorem maxS_eq (a b : BitVec n) : maxS a b = BitVec.ofInt n (max a.toInt b.toInt) := by
  rw [← toInt_maxS, BitVec.ofInt_toInt]

theorem minU_eq (a b : BitVec n) : minU a b = BitVec.ofNat n (min a.toNat b.toNat) := by
  simp only [minU, BitVec.ult_iff_toNat_lt, min_comm a.toNat, min_def_lt]
  split <;> simp

theorem maxU_eq (a b : BitVec n) : maxU a b = BitVec.ofNat n (max a.toNat b.toNat) := by
  simp only [maxU, BitVec.ult_iff_toNat_lt, max_def_lt]
  split <;> simp

end width

section field
variable (a : Word) (wm1 lsb : Fin 64)

theorem bitField_unsigned : bitField false a wm1 lsb = BitVec.ofNat 64 (a.toNat / 2 ^ lsb.val % 2 ^ (wm1.val + 1)) := by
  apply BitVec.eq_of_getLsbD_eq
  intro i hi
  have hin : 63 - wm1.val + i < 64 ↔ i ≤ wm1.val := by omega
  rw [BitVec.getLsbD_ofNat]
  simp [bitField, hi, hin, Nat.testBit_div_two_pow, Nat.add_comm i, BitVec.testBit_toNat]

theorem bitField_signed : bitField true a wm1 lsb = BitVec.ofInt 64 (a.extractLsb' lsb.val (wm1.val + 1)).toInt := by
  change _ = (a.extractLsb' lsb.val (wm1.val + 1)).signExtend 64
  apply BitVec.eq_of_getLsbD_eq
  intro i hi
  have hin : 63 - wm1.val + i < 64 ↔ i < wm1.val + 1 := by omega
  have htop : 64 - 1 - (63 - wm1.val) = wm1.val := by omega
  have hup : ¬ 63 < 63 - wm1.val := by omega
  simp only [bitField, if_true, BitVec.getLsbD_sshiftRight, BitVec.getLsbD_signExtend, BitVec.msb_eq_getLsbD_last,
    BitVec.getLsbD_shiftLeft, BitVec.getLsbD_ushiftRight, BitVec.getLsbD_extractLsb', hin, htop]
  split
  · next hlt => simp [hi, hlt]
  · simp [hi, hup]

theorem getLsbD_bitInsert (d : Word) {i : Nat} (hi : i < 64) :
    (bitInsert d a wm1 lsb).getLsbD i =
      if lsb.val ≤ i ∧ i < lsb.val + (wm1.val + 1) then a.getLsbD (i - lsb.val) else d.getLsbD i := by
  have hmask : ((BitVec.allOnes 64 >>> (63 - wm1.val)) <<< lsb.val).getLsbD i =
      decide (lsb.val ≤ i ∧ i < lsb.val + (wm1.val + 1)) := by
    rw [BitVec.getLsbD_shiftLeft, BitVec.getLsbD_ushiftRight, BitVec.getLsbD_allOnes, Bool.eq_iff_iff]
    simp only [hi, decide_true, Bool.true_and, Bool.and_eq_true, Bool.not_eq_true', decide_eq_false_iff_not, decide_eq_true_eq]
    omega
  simp only [bitInsert, BitVec.getLsbD_or, BitVec.getLsbD_and, BitVec.getLsbD_not, BitVec.getLsbD_shiftLeft a, hmask]
  split
  · next hin => simp [hin, hi]
  · next hout => simp [hout, hi]

end field

/-- An operand cut to its low bits, as a number (R152). -/
theorem zext_eq_ofNat (a : Word) (k : Nat) : (a.setWidth k).setWidth 64 = BitVec.ofNat 64 (a.toNat % 2 ^ k) := by
  rw [← BitVec.toNat_setWidth, BitVec.ofNat_toNat]

/-- A condition of `cmp` over the signed and the unsigned numbers of its operands (R153). -/
def condOf (k : ICond) (i j : Int) (p q : Nat) : Bool :=
  match k with
  | .eq => decide (p = q)
  | .ne => decide (p ≠ q)
  | .lt => decide (i < j)
  | .ge => decide (j ≤ i)
  | .ltu => decide (p < q)
  | .geu => decide (q ≤ p)

theorem icond_eq {n : Nat} (k : ICond) (a b : BitVec n) : icond k a b = condOf k a.toInt b.toInt a.toNat b.toNat := by
  cases k with
  | eq | ne => simp [icond, condOf, BitVec.toNat_inj, bne, beq_eq_decide]
  | lt => exact BitVec.slt_eq_decide
  | ltu => exact BitVec.ult_eq_decide
  | ge => simp only [icond, condOf, BitVec.slt_eq_decide, ← decide_not, not_lt]
  | geu => simp only [icond, condOf, BitVec.ult_eq_decide, ← decide_not, not_lt]

theorem wordTarget_eq (pc : Word) (off : BitVec 32) : wordTarget pc off = pc + BitVec.ofInt 64 (10 * off.toInt) := by
  rw [BitVec.ofInt_mul]
  rfl

theorem word_eq_zero_iff (x : Word) : x = 0 ↔ ∀ k < 64, x.getLsbD k = false := by
  refine ⟨fun h k _ => by simp [h], fun h => BitVec.eq_of_getLsbD_eq fun k hk => ?_⟩
  simpa using h k hk

theorem word_eq_allOnes_iff (x : Word) : x = BitVec.allOnes 64 ↔ ∀ k < 64, x.getLsbD k = true := by
  refine ⟨fun h k hk => by rw [h, BitVec.getLsbD_allOnes, decide_eq_true hk], fun h => BitVec.eq_of_getLsbD_eq fun k hk => ?_⟩
  rw [h k hk, BitVec.getLsbD_allOnes, decide_eq_true hk]

end Sys2Proof.Machine

end

section

/-! ## O1, O3, O4: words of fixed latency -/

namespace Sys2Proof.Claims

open Sys2Proof.Machine

section words
variable {s : State} {i : Instr} {h : Hdr}

theorem one_of_scalar1 {d a : SReg} {f : Word → Word} {r : Word} (he : exec i s = s.scalar1 i h 1 d a f)
    (hr : f (srcA s h a) = r) : One s i h d a r :=
  computes_scalarOp s i h 1 _ [] d _ r he hr

theorem two_of_scalar2 {lat : Nat} {d a b : SReg} {f : Word → Word → Word} {r : Word} (he : exec i s = s.scalar2 i h lat d a b f)
    (hr : f (srcA s h a) (srcB s h b) = r) : Two s i h d a b lat r :=
  computes_scalarOp s i h lat _ [] d _ r he hr

theorem one_of_x64 {d a : SReg} {f : {n : Nat} → BitVec n → BitVec n} {r : Word}
    (he : exec i s = s.scalar1 i h 1 d a (widthOp1 .x64 f)) (hr : f (srcA s h a) = r) : One s i h d a r :=
  one_of_scalar1 he hr

/-- A 32-bit result is written sign-extended (R148). -/
theorem one_of_i32 {d a : SReg} {f : {n : Nat} → BitVec n → BitVec n} {r : BitVec 32}
    (he : exec i s = s.scalar1 i h 1 d a (widthOp1 .i32 f)) (hr : f (low32 (srcA s h a)) = r) : One s i h d a (ext32 r) :=
  one_of_scalar1 he (congrArg ext32 hr)

theorem two_of_x64 {lat : Nat} {d a b : SReg} {f : {n : Nat} → BitVec n → BitVec n → BitVec n} {r : Word}
    (he : exec i s = s.scalar2 i h lat d a b (widthOp .x64 f)) (hr : f (srcA s h a) (srcB s h b) = r) : Two s i h d a b lat r :=
  two_of_scalar2 he hr

theorem two_of_i32 {lat : Nat} {d a b : SReg} {f : {n : Nat} → BitVec n → BitVec n → BitVec n} {r : BitVec 32}
    (he : exec i s = s.scalar2 i h lat d a b (widthOp .i32 f)) (hr : f (low32 (srcA s h a)) (low32 (srcB s h b)) = r) :
    Two s i h d a b lat (ext32 r) :=
  two_of_scalar2 he (congrArg ext32 hr)

/-- A shift by the low bits of a register, or by a number of the word (R149). -/
theorem computes_shiftOp {w : IWidth} {m : Nat} {d a : SReg} {n : ShAmt} {f : {n : Nat} → BitVec n → Nat → BitVec n} {r : Word}
    (hm : ∀ y : Word, shiftBits w y = y.toNat % m) (he : exec i s = s.shiftOp i h w d a n f)
    (hr : widthOp1 w (fun x => f x (amount s h m n)) (srcA s h a) = r) :
    Computes s i h (useShift h d a n) (.s d) (wordOf r) := by
  cases n with
  | reg b =>
    have he : exec i s = s.scalar2 i h 1 d a b fun x y => widthOp1 w (fun v => f v (shiftBits w y)) x := he
    have hr : widthOp1 w (fun v => f v (shiftBits w (srcB s h b))) (srcA s h a) = r := by rw [hm]; exact hr
    exact two_of_scalar2 he hr
  | imm k =>
    have he : exec i s = s.scalar1 i h 1 d a fun x => widthOp1 w (fun v => f v k.val) x := he
    exact one_of_scalar1 he hr

/-- A word that issues, writes one register, and does nothing else. -/
theorem computes_of_writes {u : Use} {eff : State → Outcome} {lat : Option Nat} {d : Reg} {x : VecWord} {fl : FFlags}
    {ws : List (Reg × VecWord × VecWord)} (he : exec i s = s.issue i h u eff)
    (heff : eff s = .next (s.retire h lat { writes := ws, flags := fl }))
    (hw : WritesReg s (s.retire h lat { writes := ws, flags := fl }) d x) : Computes s i h u d x fl :=
  fun hi => ⟨_, (exec_of_issues he hi).trans heff, retired .., hw, lfsr_retire ..⟩

end words

theorem ext32_allOnes : ext32 (BitVec.allOnes 32) = BitVec.allOnes 64 := by decide

/-- A 32-bit result that its divisor decides. -/
theorem ext32_ite (p : Prop) [Decidable p] (x y : BitVec 32) : ext32 (if p then x else y) = if p then ext32 x else ext32 y :=
  apply_ite ..

theorem amount_lt (s : State) (h : Hdr) (n : ShAmt) : amount s h 64 n < 64 := by
  cases n with
  | reg b => exact Nat.mod_lt _ (by decide)
  | imm k => exact k.isLt

/-- A word made of its two halves, as `movhi` makes it (R150). -/
theorem halves_eq_append (x y : BitVec 32) : (x.setWidth 64 <<< 32) ||| y.setWidth 64 = x ++ y := by
  apply BitVec.eq_of_getLsbD_eq
  intro i hi
  simp only [BitVec.getLsbD_or, BitVec.getLsbD_shiftLeft, BitVec.getLsbD_setWidth, BitVec.getLsbD_append]
  by_cases h : i < 32
  · simp [h, hi]
  · simp [h, hi, BitVec.getLsbD_of_ge y i (Nat.le_of_not_lt h)]
    omega

/-- Settles O1: each word is `State.scalar1`, `State.scalar2` or `State.shiftOp` of an operation above, at its width. -/
theorem scalarIntegers : Obligations.ScalarIntegers := by
  unfold Obligations.ScalarIntegers
  refine ⟨fun h d a b s => ?products, fun h d a b sh imm s => ?sums, fun h d a b n s => ?bits⟩
  case products =>
    intro x y v w
    refine ⟨two_of_x64 rfl (mul_eq_ofInt x y), two_of_i32 rfl (mul_eq_ofInt v w), two_of_x64 rfl (mulHigh_eq x y),
      two_of_i32 rfl (mulHigh_eq v w), two_of_x64 rfl (mulHighU_eq x y), two_of_i32 rfl (mulHighU_eq v w),
      two_of_x64 rfl (divS_eq x y), ?div32, two_of_x64 rfl (divU_eq x y), ?divu32,
      two_of_x64 rfl (remS_eq x y), ?rem32, two_of_x64 rfl (remU_eq x y), ?remu32⟩
    case div32 =>
      rw [← ext32_allOnes, ← ext32_ite]
      exact two_of_i32 rfl (divS_eq v w)
    case divu32 =>
      rw [← ext32_allOnes, ← ext32_ite]
      exact two_of_i32 rfl (divU_eq v w)
    case rem32 =>
      rw [← ext32_ite]
      exact two_of_i32 rfl (remS_eq v w)
    case remu32 =>
      rw [← ext32_ite]
      exact two_of_i32 rfl (remU_eq v w)
  case sums =>
    intro x y
    exact ⟨two_of_x64 rfl rfl, two_of_i32 rfl rfl, two_of_x64 rfl rfl, two_of_i32 rfl rfl,
      one_of_scalar1 (f := (· + imm.signExtend 64)) rfl rfl,
      two_of_scalar2 (f := fun x y => x + y <<< sh.val) rfl (congrArg (x + ·) (shiftLeft_eq_ofNat y sh)),
      one_of_scalar1 (f := id) rfl rfl,
      computes_scalarOp s _ h 1 [] [] d (fun _ => imm.signExtend 64) _ rfl rfl,
      computes_scalarOp s _ h 1 [] [.s d] d (fun f => imm.setWidth 64 <<< 32 ||| (low32 (f.regs.getS d)).setWidth 64) _ rfl
        (halves_eq_append ..)⟩
  case bits =>
    intro x y v k m shift
    have h64 (y : Word) : shiftBits .x64 y = y.toNat % 64 := rfl
    have h32 (y : Word) : shiftBits .i32 y = y.toNat % 32 := rfl
    exact ⟨two_of_scalar2 (f := (· &&& ·)) rfl rfl, two_of_scalar2 (f := (· ||| ·)) rfl rfl,
      two_of_scalar2 (f := (· ^^^ ·)) rfl rfl,
      two_of_scalar2 (f := fun x y => x &&& ~~~y) rfl rfl,
      computes_shiftOp h64 rfl (shiftLeft_eq_ofNat x k), computes_shiftOp h64 rfl (ushiftRight_eq_ofNat x k),
      computes_shiftOp h64 rfl (sshiftRight_eq_ofInt x k), computes_shiftOp h64 rfl (rotateRight_eq_ofNat x k (amount_lt s h n)),
      computes_shiftOp h32 rfl (congrArg ext32 (shiftLeft_eq_ofNat v m)),
      computes_shiftOp h32 rfl (congrArg ext32 (ushiftRight_eq_ofNat v m)),
      computes_shiftOp h32 rfl (congrArg ext32 (sshiftRight_eq_ofInt v m))⟩

end Sys2Proof.Claims

end

section

/-! ## O3, O4: fields, comparisons, and scalar FP32 -/

namespace Sys2Proof.Claims

open Sys2Proof.Machine

/-- A count of bits of a 32-bit operand is not negative, so that it is written as it stands. -/
theorem ext32_ofNat {n : Nat} (hn : n ≤ 32) : ext32 (BitVec.ofNat 32 n) = BitVec.ofNat 64 n := by
  interval_cases n <;> rfl

theorem ones_le {n : Nat} (x : BitVec n) : ones x ≤ n := by
  simpa [ones] using List.countP_le_length (p := fun i => x.getLsbD i) (l := List.range n)

section words
variable {s : State} {h : Hdr} {d a b : SReg}

/-- `clz` counts in either width (R149). -/
theorem one_clz {n : Nat} (hx : Leading (srcA s h a) n) : One s (.clz h .x64 d a) h d a (BitVec.ofNat 64 n) := by
  obtain ⟨hle, hzero, hone⟩ := hx
  exact one_of_x64 rfl (leadingZeros_eq hle hzero hone)
theorem one_clz_i32 {n : Nat} (hx : Leading (low32 (srcA s h a)) n) : One s (.clz h .i32 d a) h d a (BitVec.ofNat 64 n) := by
  obtain ⟨hle, hzero, hone⟩ := hx
  rw [← ext32_ofNat hle]
  exact one_of_i32 rfl (leadingZeros_eq hle hzero hone)
/-- `ctz` counts in either width (R149). -/
theorem one_ctz {n : Nat} (hx : Trailing (srcA s h a) n) : One s (.ctz h .x64 d a) h d a (BitVec.ofNat 64 n) := by
  obtain ⟨hle, hzero, hone⟩ := hx
  exact one_of_x64 rfl (trailingZeros_eq hle hzero hone)
theorem one_ctz_i32 {n : Nat} (hx : Trailing (low32 (srcA s h a)) n) : One s (.ctz h .i32 d a) h d a (BitVec.ofNat 64 n) := by
  obtain ⟨hle, hzero, hone⟩ := hx
  rw [← ext32_ofNat hle]
  exact one_of_i32 rfl (trailingZeros_eq hle hzero hone)

/-- A field inserted bit by bit is the one that `bfi` inserts (R152). -/
theorem computes_bfi {wm1 lsb : Fin 64} {r : Word} (hr : ∀ i < 64, r.getLsbD i =
      if lsb.val ≤ i ∧ i < lsb.val + (wm1.val + 1) then (srcA s h a).getLsbD (i - lsb.val) else ((fe s).regs.getS d).getLsbD i) :
    Computes s (.bfi h d a wm1 lsb) h (useS [(.s a, h.pda)] (.s d) 1 [.s d]) (.s d) (wordOf r) := by
  refine computes_scalarOp s _ h 1 _ [.s d] d (fun f => bitInsert (f.regs.getS d) (f.srcS a h.pda) wm1 lsb) r rfl
    (BitVec.eq_of_getLsbD_eq fun i hi => ?_)
  rw [hr i hi]
  exact getLsbD_bitInsert (srcA s h a) wm1 lsb _ hi

end words

section compare
variable {s : State} {i : Instr} {h : Hdr} {u : Use} {p : PReg}

/-- A word that compares writes all bits of a predicate register (R153, R156). -/
theorem computes_predicate {lat : Option Nat} (t : State → Bool) (fl : State → FFlags) (he : exec i s = s.issue i h u fun s =>
      .next (s.retire h lat { writes := [writeP p (predOf (t s))], flags := fl s })) :
    Computes s i h u (.p p) (wordOf (if t s then BitVec.allOnes 64 else 0)) (fl s) :=
  computes_of_writes he rfl (writesReg_writeP s h lat p (predOf (t s)) _ rfl)

/-- `cmp` in one of its widths. -/
theorem computes_cmp {k : ICond} {m : Nat} (x y : State → BitVec m) (he : exec i s = s.issue i h u fun s =>
      .next (s.retire h (some 1) { writes := [writeP p (predOf (icond k (x s) (y s)))] })) :
    Computes s i h u (.p p)
      (wordOf (if condOf k (x s).toInt (y s).toInt (x s).toNat (y s).toNat then BitVec.allOnes 64 else 0)) := by
  rw [← icond_eq]
  exact computes_predicate _ _ he

end compare

theorem low32_signExtend (imm : BitVec 12) : (low32 (imm.signExtend 64)).toInt = imm.toInt := by
  have : low32 (imm.signExtend 64) = imm.signExtend 32 := by
    apply BitVec.eq_of_getLsbD_eq
    intro i hi
    have hi64 : i < 64 := Nat.lt_trans hi (by decide)
    simp only [low32, BitVec.getLsbD_setWidth, BitVec.getLsbD_signExtend, hi, hi64, decide_true, Bool.true_and]
  rw [this, BitVec.toInt_signExtend_of_le (by decide)]

/-- Settles O3: each word is `State.scalar1`, `State.scalar2` or one call of `State.issue` over the operations above. -/
theorem scalarBitsFieldsAndComparisons : Obligations.ScalarBitsFieldsAndComparisons := by
  unfold Obligations.ScalarBitsFieldsAndComparisons
  refine ⟨fun h d a wm1 lsb n s => ?bits, fun h d a b c p imm s => ?compared⟩
  case bits =>
    intro x v len
    refine ⟨one_clz, one_clz_i32, one_ctz, one_ctz_i32, one_of_x64 rfl rfl, ?popc32, one_of_scalar1 rfl rfl, one_of_scalar1 rfl rfl,
      one_of_scalar1 rfl rfl, one_of_scalar1 rfl (zext_eq_ofNat x 8), one_of_scalar1 rfl (zext_eq_ofNat x 16),
      one_of_scalar1 rfl (zext_eq_ofNat x 32), fun _ => ⟨?bfx, ?bfxs, fun r => computes_bfi⟩⟩
    case popc32 =>
      rw [← ext32_ofNat (ones_le v)]
      exact one_of_i32 rfl rfl
    case bfx => exact one_of_scalar1 (f := fun x => bitField false x wm1 lsb) rfl (bitField_unsigned x wm1 lsb)
    case bfxs => exact one_of_scalar1 (f := fun x => bitField true x wm1 lsb) rfl (bitField_signed x wm1 lsb)
  case compared =>
    intro x y v w z truth all
    refine ⟨two_of_x64 rfl (minS_eq x y), two_of_x64 rfl (maxS_eq x y), two_of_x64 rfl (minU_eq x y), two_of_x64 rfl (maxU_eq x y),
      ?min32, ?max32, two_of_i32 rfl (minU_eq v w), two_of_i32 rfl (maxU_eq v w), ?sel, fun k => ?cmp⟩
    case min32 =>
      rw [← toInt_minS]
      exact two_of_i32 rfl rfl
    case max32 =>
      rw [← toInt_maxS]
      exact two_of_i32 rfl rfl
    case sel =>
      exact computes_scalarOp s _ h 1 _ [.p c] d
        (fun f => if (f.regs.getP c).getLsbD 0 then f.srcS a h.pda else f.srcS b h.pdb) _ rfl rfl
    case cmp =>
      refine ⟨computes_cmp (srcA · h a) (srcB · h b) rfl,
        computes_cmp (fun s => low32 (srcA s h a)) (fun s => low32 (srcB s h b)) rfl,
        computes_cmp (srcA · h a) (fun _ => z) rfl, ?_⟩
      rw [← low32_signExtend imm]
      exact computes_cmp (fun s => low32 (srcA s h a)) (fun _ => low32 z) rfl

/-- A scalar FP32 word that rounds one exact value of its operands (R155). -/
theorem computes_rounded {s : State} {i : Instr} {h : Hdr} {rm : Rnd} {srcs : List (Reg × Fin 4)} {locks : List Reg} {d : SReg}
    (x : Front → Machine.Num × Bool) (he : exec i s = s.fpOp i h rm srcs locks d fun f m y => f32Round m y (x f)) :
    let m := roundMode rm (fe s).regs.round
    let r := f32Round m (draw m (fe s) 0 1) (x (fe s))
    Computes s i h (useS srcs (.s d) 4 locks) (.s d) (wordOf r.1) r.2 (stepLanes m 1 1 (fe s).regs.lfsr) :=
  computes_fpOp s i h rm srcs locks d _ he

/-- Settles O4: the words that round are `State.fpOp`, whose result `computes_fpOp` gives. -/
theorem scalarFloat : Obligations.ScalarFloat := by
  unfold Obligations.ScalarFloat
  intro h rm d a b c p k sat fc s f m y x z w lf two rounds
  let num := fun (r : SReg) (pd : Fin 4) (g : Front) => f32Of (g.srcS r pd)
  let compared := fun s => fcmpCode fc (low32 (srcA s h a)) (low32 (srcB s h b))
  let chosen := fun (max : Bool) (x y : Word) => BitVec.ofNat 64 (minMaxCode descF32 max (x.toNat % 2 ^ 32) (y.toNat % 2 ^ 32))
  exact ⟨computes_rounded (fun g => (num a h.pda g).add (num b h.pdb g)) rfl,
    computes_rounded (fun g => (num a h.pda g).add (num b h.pdb g).negate) rfl,
    computes_rounded (fun g => (num a h.pda g).mul (num b h.pdb g)) rfl,
    computes_rounded (fun g => fmaExact (num a h.pda g) (num b h.pdb g) (f32Of (g.regs.getS c))) rfl,
    computes_fpOp s _ h rm _ [] d (fun g m y => fconv k m sat y (g.srcS a h.pda)) rfl,
    two_of_scalar2 (f := chosen false) rfl rfl, two_of_scalar2 (f := chosen true) rfl rfl,
    computes_predicate (fun s => (compared s).1) (fun s => (compared s).2) rfl⟩

end Sys2Proof.Claims

end

section

/-! ## O6: the loop check

What the loop check answers, in one equation for a word that transfers and one for a word that does not (R161). -/

namespace Sys2Proof.Machine

/-- The address of a word lies in the body of a loop. -/
abbrev inBody (ls le x : Word) : Prop := ls.toNat ≤ x.toNat ∧ x.toNat ≤ le.toNat

theorem loopLeaves_iff (ls le lc pc target : Word) :
    loopLeaves ls le lc pc target = true ↔ lc ≠ 0 ∧ inBody ls le pc ∧ ¬ inBody ls le target := by
  simp only [loopLeaves, inBody, Bool.and_eq_true, Bool.or_eq_true, decide_eq_true_eq]
  by_cases h : lc = 0 <;> simp only [h, ne_eq, not_true, not_false_eq_true, false_and, true_and]
  omega

/-- The count of a set that a transfer leaves (R161): a count of zero stays zero. -/
def countLeft (own : Option Bool) (set1 keeps : Bool) (ls le lc pc target : Word) : Word :=
  if own ≠ some set1 ∧ inBody ls le pc ∧ ¬ inBody ls le target ∧ keeps = false then 0 else lc

theorem countLeft_eq (own : Option Bool) (set1 keeps : Bool) (ls le lc pc target : Word) :
    countLeft own set1 keeps ls le lc pc target =
      if !keeps && own != some set1 && loopLeaves ls le lc pc target then 0 else lc := by
  simp only [countLeft, Bool.and_eq_true, Bool.not_eq_true', bne_iff_ne, loopLeaves_iff]
  by_cases h : lc = 0
  · simp [h]
  · simp only [h, ne_eq, not_false_eq_true, true_and]
    congr 1
    rw [eq_iff_iff]
    tauto

/-- A transfer out of a body ends the loop, unless the word has loaded that set itself or keeps the loops (R161). -/
theorem loopCheck_some (l : Loops) (pc target : Word) (own : Option Bool) (keeps : Bool) :
    loopCheck l pc (some target) own keeps =
      ({ l with
          lc0 := countLeft own false keeps l.ls0 l.le0 l.lc0 pc target
          lc1 := countLeft own true keeps l.ls1 l.le1 l.lc1 pc target }, target) := by
  simp only [loopCheck, countLeft_eq]
  split <;> split <;> rfl

theorem counted_lc1 (p : Prop) [Decidable p] (l : Loops) (x : Word) :
    (if p then { l with lc1 := x } else l) = { l with lc1 := if p then x else l.lc1 } := by split <;> rfl

/-- A count that has fallen by one is not yet zero unless it was one. -/
theorem fallen_ne_zero_iff (p : Prop) [Decidable p] (x : Word) : (p ∧ (if p then x - 1 else x) ≠ 0) ↔ p ∧ x ≠ 1 :=
  and_congr_right fun hp => by rw [if_pos hp, ne_eq, sub_eq_zero]

/-- A word that does not transfer counts at the end of a body: set 1 first, set 0 where set 1 does not go back (R161). -/
theorem loopCheck_none (l : Loops) (pc : Word) (own : Option Bool) (keeps : Bool) :
    let ends1 := l.lc1 ≠ 0 ∧ pc = l.le1
    let back1 := ends1 ∧ l.lc1 ≠ 1
    let ends0 := ¬ back1 ∧ l.lc0 ≠ 0 ∧ pc = l.le0
    let back0 := ends0 ∧ l.lc0 ≠ 1
    loopCheck l pc none own keeps =
      ({ l with lc1 := if ends1 then l.lc1 - 1 else l.lc1, lc0 := if ends0 then l.lc0 - 1 else l.lc0 },
        if back1 then l.ls1 else if back0 then l.ls0 else pc + 10) := by
  intro ends1 back1 ends0 back0
  simp only [loopCheck, counted_lc1, Bool.and_eq_true, beq_iff_eq, decide_eq_true_eq, fallen_ne_zero_iff]
  by_cases hback1 : back1
  · have hends0 : ¬ ends0 := fun h => h.1 hback1
    rw [if_pos hback1, if_pos hback1, if_neg hends0]
  · have hends0 : ends0 ↔ l.lc0 ≠ 0 ∧ pc = l.le0 := and_iff_right hback1
    rw [if_neg hback1, if_neg hback1]
    by_cases h0 : l.lc0 ≠ 0 ∧ pc = l.le0
    · rw [if_pos h0, if_pos (hends0.2 h0)]
      by_cases hb : back0
      · rw [if_pos hb]
        exact if_pos ⟨h0, mt sub_eq_zero.1 hb.2⟩
      · rw [if_neg hb]
        exact if_neg fun h => hb ⟨hends0.2 h0, mt sub_eq_zero.2 h.2⟩
    · rw [if_neg h0, if_neg (mt hends0.1 h0), if_neg fun h : back0 => h0 (hends0.1 h.1)]
      exact if_neg fun h => h0 h.1

end Sys2Proof.Machine

end


section

/-! ## O5, O6: transfers -/

namespace Sys2Proof.Claims

open Sys2Proof.Machine

/-- The loop registers of the front end that issues replaced. -/
def withLoops (s : State) (l : Loops) : State := s.modFront s.cur fun f => f.modRegs fun r => { r with loops := l }

theorem withLoops_self (s : State) : withLoops s (fe s).regs.loops = s := s.modFront_front s.cur
theorem fe_withLoops (s : State) (l : Loops) : fe (withLoops s l) = (fe s).modRegs fun r => { r with loops := l } := fe_modFront ..

/-- Changing the loop registers writes no register that a word computes with. -/
theorem writesNone_withLoops (s : State) (l : Loops) : WritesNone s (withLoops s l) := by
  intro g
  rw [reg, reg, fe_withLoops]
  cases g <;> rfl

theorem WritesNone.trans {s t u : State} (h : WritesNone s t) (k : WritesNone t u) : WritesNone s u := fun g => (k g).trans (h g)

section transfer
variable {s : State} {i : Instr} {h : Hdr} {lat : Option Nat} {target : Word} {ws : List (Reg × VecWord × VecWord)}
  {own : Option Bool} {keeps : Bool} {wr : State → Prop}

/-- A word that loads loop registers and transfers (R158, R160). -/
theorem transfersTo_of_loops {l : Loops}
    (he : exec i s = if target.toNat % 10 ≠ 0 then .next (s.trapHere .alignFault target)
      else .next ((withLoops s l).retire h lat { writes := ws, target := some target, own := own, keeps := keeps }))
    (hwr : wr ((withLoops s l).retire h lat { writes := ws, target := some target, own := own, keeps := keeps })) :
    TransfersTo s i target wr l own keeps := by
  refine ⟨fun ht => ⟨_, he.trans (if_neg (not_not.2 ht)), ?_, hwr, ?_⟩, fun ht => he.trans (if_pos ht)⟩
  · exact retired_after s (withLoops s l) rfl (congrArg (·.at_.pc) (fe_withLoops s l)) (congrArg (·.at_.po) (fe_withLoops s l))
      (.modFront ..) h lat { writes := ws, target := some target, own := own, keeps := keeps }
  · rw [fe_retire, Front.retire_nextAt]
    rfl

variable {u : Use} {eff : State → Outcome} (he : ∀ s, exec i s = s.issue i h u eff) (hi : Issues s h u)
include he hi

/-- A word that transfers (R158). -/
theorem transfersTo_of_transfer (heff : eff s = s.transfer h lat target { writes := ws, keeps := keeps })
    (hwr : wr (s.retire h lat { writes := ws, target := some target, keeps := keeps })) :
    TransfersTo s i target wr (keeps := keeps) := by
  refine transfersTo_of_loops (h := h) (lat := lat) (ws := ws) ?_ ?_
  · rw [withLoops_self]
    exact (exec_of_issues (he s) hi).trans heff
  · rwa [withLoops_self]

/-- A transfer that writes no register. -/
theorem transfersTo_of_jump (heff : eff s = s.transfer h none target {}) : TransfersTo s i target (WritesNone s) :=
  transfersTo_of_transfer he hi heff (writesNone_retire _ _ _ _ rfl)

/-- A transfer that writes the link register, and keeps the loops that it leaves (R158, R161). -/
theorem transfersTo_of_link
    (heff : eff s = s.transfer h (some 1) target { writes := [writeS 63 (pcOf s + 10)], keeps := true }) :
    TransfersTo s i target (fun t => WritesReg s t (.s 63) (wordOf (pcOf s + 10))) (keeps := true) :=
  transfersTo_of_transfer he hi heff (writesReg_writeS _ _ _ _ _ _ rfl)

theorem justRetires_of_retire (heff : eff s = .next (s.retire h lat {})) : JustRetires s s i :=
  ⟨_, (exec_of_issues (he s) hi).trans heff, retired .., writesNone_retire _ _ _ _ rfl⟩

end transfer

/-- The model's branch condition is that of the statement (R159). -/
theorem condHolds_iff (s : State) (h : Hdr) (k : BCond) : condHolds h (fe s) k = true ↔ BranchTaken s h k := by
  cases k with
  | cmp c a b =>
    change icond c (srcA s h a) (srcB s h b) = true ↔ _
    rw [icond_eq]
    cases c <;> simp [condOf, BranchTaken, BitVec.toNat_inj]
  | pt a => rfl
  | pf a => simp [condHolds, BranchTaken]
  | pany a => simp only [condHolds, BranchTaken, bne_iff_ne, ne_eq, word_eq_zero_iff]; simp
  | pall a => simp only [condHolds, BranchTaken, beq_iff_eq, word_eq_allOnes_iff]
  | pnone a => simp only [condHolds, BranchTaken, beq_iff_eq, word_eq_zero_iff]

/-- Settles O5: each word is `State.transfer` to its target, or retires. -/
theorem transfersAndLinks : Obligations.TransfersAndLinks := by
  unfold Obligations.TransfersAndLinks
  intro h off a k s target x link
  have htarget : wordTarget (pcOf s) off = target := wordTarget_eq ..
  refine ⟨fun hi => ?br, fun hi => ⟨fun ht => ?taken, fun ht => ?notTaken⟩, fun hi => ?call, fun hi => ?ret, fun hi => ?jmpr,
    fun hi => ?jmprLink⟩
  case br =>
    rw [← htarget]
    exact transfersTo_of_jump (fun _ => rfl) hi rfl
  case taken =>
    rw [← htarget]
    exact transfersTo_of_jump (fun _ => rfl) hi (if_pos ((condHolds_iff s h k).2 ht))
  case notTaken =>
    exact justRetires_of_retire (fun _ => rfl) hi (if_neg (mt (condHolds_iff s h k).1 ht))
  case call =>
    rw [← htarget]
    exact transfersTo_of_link (fun _ => rfl) hi rfl
  case ret => exact transfersTo_of_jump (fun _ => rfl) hi rfl
  case jmpr => exact transfersTo_of_jump (fun _ => rfl) hi rfl
  case jmprLink => exact transfersTo_of_link (fun _ => rfl) hi rfl

/-- The loop registers once a word has loaded a set (R160). -/
def loaded (l : Loops) (set1 : Bool) (ls le n : Word) : Loops :=
  if set1 then { l with ls1 := ls, le1 := le, lc1 := n } else { l with ls0 := ls, le0 := le, lc0 := n }

/-- A word that loads a loop set goes to the body, or past it where the count is zero (R160). -/
theorem transfersTo_of_startLoop {s : State} {i : Instr} {h : Hdr} {u : Use} {eff : State → Outcome} {set1 : Bool} {n : Word}
    {off : BitVec 32} (he : ∀ s, exec i s = s.issue i h u eff) (hi : Issues s h u) (heff : eff s = s.startLoop h set1 n off) :
    let le := pcOf s + BitVec.ofInt 64 (10 * off.toInt)
    TransfersTo s i (if n = 0 then le + 10 else pcOf s + 10) (WritesNone s) (loaded (fe s).regs.loops set1 (pcOf s + 10) le n)
      (some set1) := by
  intro le
  have hle : wordTarget (pcOf s) off = le := wordTarget_eq ..
  refine transfersTo_of_loops (h := h) (lat := none) (ws := []) ?_ ?_
  · rw [exec_of_issues (he s) hi, heff, ← hle]
    exact ite_congr rfl (fun _ => rfl) fun ht => if_neg ht
  · exact .trans (writesNone_withLoops s _) (writesNone_retire _ _ _ _ rfl)

/-- Settles O6: `loop` and `loopi` are `State.startLoop`, and the loop check is read off its two equations. -/
theorem hardwareLoops : Obligations.HardwareLoops := by
  unfold Obligations.HardwareLoops
  refine ⟨fun h set1 a count off s => ?loops, fun l pc target own keeps => ?check⟩
  case loops =>
    intro le l loads
    refine ⟨fun hi => ?_, fun hi => ?_⟩
    · exact transfersTo_of_startLoop (fun _ => rfl) hi rfl
    · exact transfersTo_of_startLoop (fun _ => rfl) hi (congrArg (s.startLoop h set1 · off) (BitVec.ofNat_toNat 64 count).symm)
  case check =>
    intro inside
    rw [loopCheck_some, loopCheck_none]
    refine ⟨⟨rfl, rfl, rfl, rfl, rfl, rfl, rfl⟩, rfl, rfl, rfl, rfl, fun h => if_pos h, fun h => if_neg h, fun h => if_pos h,
      fun h => if_neg h, fun h => if_pos h, fun h => ?_, fun h1 h0 => ?_⟩
    · exact (if_neg h.1.1).trans (if_pos h)
    · exact (if_neg h1).trans (if_neg h0)

end Sys2Proof.Claims

end

section

/-! ## O7: control registers and waits -/

namespace Sys2Proof.Machine

theorem State.setWait_eq (s : State) (c : CoreId) {w : FWait} (hw : w ≠ .none) :
    s.setWait c w = s.modFront c fun f => f.modAt fun a => { a with wait := w, waitSince := s.cycle } := by
  simp only [State.setWait, hw, if_false]

/-- The condition of a `wfi` (R320). -/
theorem State.wakes_iff (s : State) (c : CoreId) (wake : Fin 8) (limit : Nat) :
    s.wakes c wake limit = true ↔ (wake.val % 2 = 1 ∧ (s.core c).live.queues.fifo[3] ≠ 0) ∨
      (wake.val / 2 % 2 = 1 ∧ (s.core c).live.queues.fifo[4] ≠ 0) ∨ (4 ≤ wake.val ∧ limit ≤ s.cycle) := by
  simp [State.wakes, or_assoc]

/-- The loop registers are none that a word computes with. -/
@[simp] theorem Regs.get_withLoops (r : Regs) (l : Loops) (g : Reg) : ({ r with loops := l } : Regs).get g = r.get g := by
  cases g <;> rfl

end Sys2Proof.Machine

namespace Sys2Proof.Claims

open Sys2Proof.Machine

section word
variable {s : State} {i : Instr} {h : Hdr} {u : Use} {eff : State → Outcome}

/-- A word that issues has its own effect. -/
theorem exec_issued (he : ∀ s, exec i s = s.issue i h u eff) (hi : Issues s h u) : exec i s = eff s := exec_of_issues (he s) hi

/-- A word that retires and waits (R320). -/
theorem justRetires_waiting {w : FWait} (hw : w ≠ .none) (he : exec i s = .next ((s.retire h none {}).setWait s.cur w)) :
    JustRetires s (waiting s w) i := by
  have hfe : fe ((s.retire h none {}).setWait s.cur w) =
      ((fe s).retire h none {} s.cycle).modAt fun a => { a with wait := w, waitSince := s.cycle } := by
    rw [State.setWait_eq _ _ hw]
    rw [← fe_retire]
    exact fe_modFront (s.retire h none {}) _
  have hwaiting : fe (waiting s w) = (fe s).modAt fun a => { a with wait := w } := fe_modFront ..
  refine ⟨_, he, ⟨?only, .trans (.modFront ..) (.modFront ..), ?flags, ?frame, ?pc, ?loops, ?po⟩, fun g => ?none⟩
  case only =>
    rw [hfe, State.setWait_eq _ _ hw, waiting, State.retire, State.modFront_modFront, State.modFront_modFront,
      modFront_fe, fe_modFront]
    rfl
  case none =>
    rw [reg, hfe]
    exact Front.retire_get (fe s) h none {} s.cycle g
  all_goals rw [hfe]
  case flags =>
    rw [hwaiting]
    exact Front.retire_fflags ..
  case frame =>
    rw [hwaiting]
    constructor <;> simp [Front.modAt]
  case pc =>
    rw [hwaiting]
    exact Front.retire_pc ..
  case loops =>
    rw [hwaiting]
    exact Front.retire_loops ..
  case po => exact Front.retire_po ..

end word

/-- What `getc` reads, by the register's name (R168). -/
theorem readCtl_eq (s : State) (r : CtlReg) (sel : Fin 128) : s.readCtl r sel = ctlValue s sel r := by
  cases r with
  | priv =>
    simp only [State.readCtl, ctlValue, fe]
    cases s.me.live.front.level <;> rfl
  | _ => rfl

/-- The low bits of a word, by a mask and by a remainder. -/
theorem and_mask_eq (x : Word) (k : Nat) (hk : k < 64) : x &&& BitVec.ofNat 64 (2 ^ k - 1) = BitVec.ofNat 64 (x.toNat % 2 ^ k) := by
  apply BitVec.eq_of_toNat_eq
  have hlt : 2 ^ k < 2 ^ 64 := Nat.pow_lt_pow_right (by decide) hk
  rw [BitVec.toNat_and, BitVec.toNat_ofNat, BitVec.toNat_ofNat, Nat.mod_eq_of_lt (a := 2 ^ k - 1) (by omega),
    Nat.and_two_pow_sub_one_eq_mod, Nat.mod_eq_of_lt ((Nat.mod_lt _ (by positivity)).trans hlt)]

theorem roundStored_eq (x : Word) : roundStored x = if x.toNat % 4 = 3 then 0 else BitVec.ofNat 64 (x.toNat % 4) := by
  have hlow : x &&& 3 = BitVec.ofNat 64 (x.toNat % 2 ^ 2) := and_mask_eq x 2 (by decide)
  have hiff : BitVec.ofNat 64 (x.toNat % 2 ^ 2) = (3 : Word) ↔ x.toNat % 4 = 3 := by
    rw [← BitVec.toNat_inj, BitVec.toNat_ofNat]
    change x.toNat % 2 ^ 2 % 2 ^ 64 = 3 ↔ _
    omega
  simp only [roundStored, hlow, hiff]
  rfl

/-- What `setc` leaves, by the register's name (R67, R168). -/
theorem writeCtl_eq (g : Regs) (r : CtlReg) (x : Word) : g.writeCtl r x = ctlAfter g x r := by
  cases r with
  | fflags =>
    have : x &&& 0xFF = BitVec.ofNat 64 (x.toNat % 2 ^ 8) := and_mask_eq x 8 (by decide)
    simp only [Regs.writeCtl, ctlAfter, this]
    rfl
  | round => simp only [Regs.writeCtl, ctlAfter, roundStored_eq]
  | seed =>
    have : x &&& 0xFFFF = BitVec.ofNat 64 (x.toNat % 2 ^ 16) := and_mask_eq x 16 (by decide)
    simp only [Regs.writeCtl, Regs.seedWith, ctlAfter, this]
    rfl
  | _ => rfl

theorem isAddr_iff (r : CtlReg) : CtlReg.isAddr r = true ↔ holdsAddress r := by
  cases r <;> simp [CtlReg.isAddr, holdsAddress]

/-- A control register is none that a word computes with. -/
theorem get_ctlAfter (g : Regs) (x : Word) (r : CtlReg) (k : Reg) : (ctlAfter g x r).get k = g.get k := by
  have : (ctlAfter g x r).s = g.s ∧ (ctlAfter g x r).v = g.v ∧ (ctlAfter g x r).p = g.p := by
    cases r <;> exact ⟨rfl, rfl, rfl⟩
  obtain ⟨hs, hv, hp⟩ := this
  cases k <;> simp only [Regs.get, Regs.getS, Regs.getV, Regs.getP, hs, hv, hp]

/-- Settles O7: each word is one call of `State.issue`, and its effect a test with a retirement or a wait behind it. -/
theorem frontEndWords : Obligations.FrontEndWords := by
  unfold Obligations.FrontEndWords
  intro h imm r d a sel wake s x limit met
  refine ⟨fun hi => ?nop, fun hi => ⟨fun h0 => ?noPause, fun h0 => ?pause⟩, ?getc, fun hi => ?setc,
    fun hi => ⟨fun hm => ?woken, fun hm => ?waits⟩⟩
  case nop => exact justRetires_of_retire (fun _ => rfl) hi rfl
  case noPause => exact justRetires_of_retire (fun _ => rfl) hi (congrArg Host.Outcome.next (if_pos h0))
  case pause =>
    have he := exec_issued (i := .pause h imm) (fun _ => rfl) hi
    rw [he, if_neg h0, State.setWait_eq s s.cur (FWait.noConfusion : FWait.pause _ ≠ .none)]
  case getc =>
    rw [← readCtl_eq]
    exact computes_of_writes (eff := fun s => .next (s.retire h (some 2) { writes := [writeS d (s.readCtl r sel)] })) rfl rfl
      (writesReg_writeS _ _ _ _ _ _ rfl)
  case setc =>
    have he : exec (.setc h r a) s = if CtlReg.isAddr r && x.toNat % 10 != 0 then .next (s.trapHere .alignFault x)
        else .next ((s.modFront s.cur fun f => f.modRegs fun g => g.writeCtl r x).retire h none {}) :=
      exec_issued (i := .setc h r a) (fun _ => rfl) hi
    have hbad : (CtlReg.isAddr r && x.toNat % 10 != 0) = true ↔ holdsAddress r ∧ x.toNat % 10 ≠ 0 := by
      rw [Bool.and_eq_true, isAddr_iff, bne_iff_ne]
    refine ⟨fun hr hx => he.trans (if_pos (hbad.2 ⟨hr, hx⟩)), fun hok => ?_⟩
    replace he := he.trans (if_neg (mt hbad.1 hok))
    simp only [writeCtl_eq] at he
    set m := s.modFront s.cur fun f => f.modRegs fun g => ctlAfter g x r
    have hfe : fe m = (fe s).modRegs fun g => ctlAfter g x r := fe_modFront ..
    refine ⟨_, he, retired_after s m rfl (congrArg (·.at_.pc) hfe) (congrArg (·.at_.po) hfe) (.modFront ..) h none {}, ?_⟩
    refine .trans (fun g => ?_) (writesNone_retire _ _ _ _ rfl)
    exact (congrArg (·.regs.get g) hfe).trans (get_ctlAfter ..)
  case woken =>
    refine justRetires_of_retire (fun _ => rfl) hi (congrArg Host.Outcome.next (if_pos ?_))
    exact (s.wakes_iff s.cur wake limit).2 hm
  case waits =>
    have he := exec_issued (i := .wfi h wake a) (fun _ => rfl) hi
    exact justRetires_waiting nofun (he.trans (congrArg Host.Outcome.next (if_neg (mt (s.wakes_iff s.cur wake limit).1 hm))))

end Sys2Proof.Claims

end

section

/-! ## O9, O10: returns from a trap, and the ends of the front end -/

namespace Sys2Proof.Machine

section frames
variable (f : Front) (l : Level) (x : Frame) (now : Nat)

@[simp] theorem Front.setFrame_at : (f.setFrame l x).at_ = f.at_ := by unfold Front.setFrame; split <;> rfl
@[simp] theorem Front.setFrame_regs : (f.setFrame l x).regs = f.regs := by unfold Front.setFrame; split <;> rfl
@[simp] theorem Front.setFrame_level : (f.setFrame l x).level = f.level := by unfold Front.setFrame; split <;> rfl
@[simp] theorem Front.frame_setFrame : (f.setFrame l x).frame l = x := by
  unfold Front.setFrame Front.frame
  split <;> rfl
/-- The frames of S and M are two. -/
theorem Front.frame_setFrame_ne {l l' : Level} (hl : l ≠ .u) (hl' : l' ≠ .u) (h : l' ≠ l) :
    (f.setFrame l x).frame l' = f.frame l' := by
  cases l with
  | u => exact absurd rfl hl
  | s => cases l' with
    | u => exact absurd rfl hl'
    | s => exact absurd rfl h
    | m => rfl
  | m => cases l' with
    | u => exact absurd rfl hl'
    | s => rfl
    | m => exact absurd rfl h

/-- A front end that discards the frame of the handler it runs (R163, R316). -/
def Front.discardFrame (f : Front) (l : Level) : Front := if l = .u then f else f.setFrame l (f.frame l).clear

@[simp] theorem Front.discardFrame_regs : (f.discardFrame l).regs = f.regs := by unfold Front.discardFrame; split <;> simp
@[simp] theorem Front.discardFrame_level : (f.discardFrame l).level = f.level := by unfold Front.discardFrame; split <;> simp
theorem Front.discardFrame_sFrame : (f.discardFrame l).sFrame = if l = .s then f.sFrame.clear else f.sFrame := by
  cases l <;> rfl
theorem Front.discardFrame_mFrame : (f.discardFrame l).mFrame = if l = .m then f.mFrame.clear else f.mFrame := by
  cases l <;> rfl

@[simp] theorem Front.frame_allocate (h : Hdr) (lat : Option Nat) (d : Done) : (f.allocate h lat d now).frame l = f.frame l := by
  obtain ⟨ts, e⟩ := f.allocate_eq h lat d now
  rw [e]
  rfl

/-- PREV of a frame (R310). -/
theorem Level.dec_eq (n : Nat) : Level.dec n = if n = 1 then .s else if n = 2 then .m else .u := by
  unfold Level.dec
  split
  · rfl
  · rfl
  · next h1 h2 => rw [if_neg h1, if_neg h2]

/-- What a return takes from the frame of its level (R316). -/
theorem Front.leave_regs : (f.leave now).regs = { f.regs with loops := (f.frame f.level).loops } := by simp [Front.leave]
theorem Front.leave_frame_self : (f.leave now).frame f.level = (f.frame f.level).clear := f.frame_setFrame f.level _
theorem Front.leave_frame_ne {l : Level} (hf : f.level ≠ .u) (hl : l ≠ .u) (h : l ≠ f.level) : (f.leave now).frame l = f.frame l :=
  f.frame_setFrame_ne _ hf hl h

end frames

/-- A core whose iteration has ended (R36, R163): what the end changes, and what it leaves. -/
structure Core.IterEnds (k k' : Core) : Prop where
  regs : k'.live.front.regs = { k.live.front.regs with loops := { k.live.front.regs.loops with lc0 := 0, lc1 := 0 } }
  idle : k'.live.front.at_.idle = true
  level : k'.live.front.level = k.live.front.level
  sFrame : k'.live.front.sFrame = k.live.front.sFrame
  mFrame : k'.live.front.mFrame = k.live.front.mFrame
  walker : k'.live.walker =
    if k.live.walker.state = .susp then { k.live.walker with state := .idle, end_ := 2 } else k.live.walker
  queues : k'.live.queues = k.live.queues
  rings : k'.live.rings = k.live.rings
  copies : k'.live.copies = k.live.copies
  store : k'.store = k.store
  job : ∀ j ∈ k'.run.job, j.iter = none

theorem Job.ended_iter (j : Job) (po now : Nat) : (j.ended po now).iter = none := by
  unfold Job.ended
  split
  · rfl
  · next h => simpa using h

/-- The end of an iteration changes its core, and may count it in a launch. -/
theorem State.endIteration_eq (s : State) (c : CoreId) :
    ∃ m k, s.endIteration c = m.setCore c k ∧ (m = s ∨ ∃ p n g, m = s.modLaunch p n g) ∧ (s.core c).IterEnds k := by
  unfold State.endIteration
  extract_lets k s'
  have hs' : s' = s ∨ ∃ p n g, s' = s.modLaunch p n g := by
    simp only [s']
    split
    · split
      · exact .inr ⟨_, _, _, rfl⟩
      · exact .inl rfl
    · exact .inl rfl
  have hcore : s'.core c = s.core c := by
    obtain h | ⟨p, n, g, h⟩ := hs' <;> rw [h]
    rfl
  refine ⟨s', _, rfl, hs', ?_⟩
  rw [hcore]
  refine ⟨rfl, rfl, rfl, rfl, rfl, rfl, rfl, rfl, rfl, rfl, fun j hj => ?_⟩
  obtain ⟨j0, -, rfl⟩ := Option.map_eq_some_iff.1 hj
  exact j0.ended_iter _ _

theorem State.endIteration_cur (s : State) (c : CoreId) : (s.endIteration c).cur = s.cur := by
  obtain ⟨m, k, h, hm | ⟨p, n, g, hm⟩, -⟩ := s.endIteration_eq c <;> rw [h, hm] <;> rfl

theorem State.endIteration_core (s : State) (c : CoreId) : (s.core c).IterEnds ((s.endIteration c).core c) := by
  obtain ⟨m, k, h, -, hk⟩ := s.endIteration_eq c
  rwa [h, State.core_setCore]

end Sys2Proof.Machine

namespace Sys2Proof.Claims

open Sys2Proof.Machine

theorem sameBytes_endIteration (s : State) (c : CoreId) : SameBytes s (s.endIteration c) := by
  obtain ⟨m, k, h, hm, hk⟩ := s.endIteration_eq c
  have hmem : SameBytes s m := by
    obtain rfl | ⟨p, n, g, rfl⟩ := hm
    · exact .refl _
    · exact ⟨fun _ => rfl, fun _ _ _ => rfl⟩
  have hcore : m.core c = s.core c := by
    obtain h | ⟨p, n, g, h⟩ := hm <;> rw [h]
    rfl
  rw [h]
  exact hmem.trans (.setCore fun b => by rw [hk.store, hcore])

/-- A core that stops for good: it has no handler to go back to (R322). -/
def halted (k : Core) : Core :=
  { k with run := { k.run with halted := true } }.setFront
    { k.live.front with sFrame := k.live.front.sFrame.clear, mFrame := k.live.front.mFrame.clear }

/-- `trap` and `sysc` retire before they raise their trap (R164, R321). -/
theorem raises_userTrap {s : State} {i : Instr} {h : Hdr} {u : Use} {eff : State → Outcome} {info : Word}
    (he : ∀ s, exec i s = s.issue i h u eff) (hi : Issues s h u) (heff : eff s = s.userTrap h info) :
    ∃ t, Retired s s t 0 none none false ∧ WritesNone s t ∧
      exec i s = .next (t.takeTrap s.cur { cause := .userTrap, info := info, word := pcOf s } (fe t).at_.pc) :=
  ⟨_, retired s h none {}, writesNone_retire _ _ _ _ rfl, (exec_issued he hi).trans heff⟩

/-- The state once a return from a trap has left its frame (R316). -/
def returned (s : State) (h : Hdr) : State := s.modFront s.cur fun f => (f.allocate h none {} s.cycle).leave s.cycle

theorem fe_returned (s : State) (h : Hdr) : fe (returned s h) = ((fe s).allocate h none {} s.cycle).leave s.cycle := fe_modFront ..

/-- What a return takes from the frame x of its level (R316). -/
structure TakesFrame (f g : Front) (x : Frame) : Prop where
  pc : g.at_.pc = x.pc
  pcHi : g.at_.pcHi = x.pcHi
  win : g.win = x.win
  level : g.level = Level.dec (x.stat.toNat % 4)
  regs : g.regs = { f.regs with loops := x.loops }
  own : g.frame f.level = x.clear
  other : f.level ≠ .u → ∀ l, l ≠ .u → l ≠ f.level → g.frame l = f.frame l

theorem takesFrame_returned (s : State) (h : Hdr) : TakesFrame (fe s) (fe (returned s h)) ((fe s).frame (fe s).level) := by
  rw [fe_returned]
  set f := (fe s).allocate h none {} s.cycle with hf
  have hlevel : f.level = (fe s).level := Front.allocate_level ..
  have hframe (l : Level) : f.frame l = (fe s).frame l := Front.frame_allocate ..
  have hregs : f.regs = (fe s).regs := Front.allocate_regs ..
  rw [← hlevel, ← hframe]
  refine ⟨rfl, rfl, rfl, rfl, ?_, ?_, ?_⟩
  · rw [Front.leave_regs, hregs]
  · rw [hlevel, ← hlevel, Front.leave_frame_self]
  · intro hu l hl hne
    rw [Front.leave_frame_ne f s.cycle (hlevel ▸ hu) hl (hlevel ▸ hne), hframe]

/-- `rett` with a frame that allows it; back at U the engines stopped by the fault try again (R220, R316). -/
theorem rett_returns {s : State} {h : Hdr} (hi : Issues s h { level := .s }) (hv : ((fe s).frame (fe s).level).valid = true)
    (hpc : ((fe s).frame (fe s).level).pc.toNat % 10 = 0) :
    ∃ t, exec (.rett h) s = .next t ∧ SameBytes s t ∧ fe t = fe (returned s h) ∧
      ((fe t).level ≠ .u → t = returned s h) := by
  have he : exec (.rett h) s = .next (if (fe (returned s h)).level = .u then
      (returned s h).modCore (returned s h).cur fun k => k.modLive Live.resumeParties else returned s h) := by
    refine (exec_issued (i := .rett h) (fun _ => rfl) hi).trans ((if_neg ?_).trans (if_neg (not_not.2 hpc)))
    simpa [fe] using hv
  by_cases hu : (fe (returned s h)).level = .u
  · rw [if_pos hu] at he
    have hfe := fe_modCore (returned s h) fun k => k.modLive Live.resumeParties
    refine ⟨_, he, (SameBytes.modFront ..).trans (.modCore _ _ _ fun _ _ => rfl), hfe, fun hn => absurd ?_ hn⟩
    exact (congrArg Front.level hfe).trans hu
  · rw [if_neg hu] at he
    exact ⟨_, he, .modFront .., rfl, fun _ => rfl⟩

/-- Settles O9: `trap` and `sysc` are `State.userTrap`, and `rett` leaves its frame by `Front.leave`. -/
theorem trapWords : Obligations.TrapWords := by
  unfold Obligations.TrapWords
  refine ⟨fun h imm n s hi => ?raises, fun h s hi => ?rett⟩
  case raises =>
    intro raises
    refine ⟨raises_userTrap (fun _ => rfl) hi (congrArg (s.userTrap h) ?_),
      raises_userTrap (fun _ => rfl) hi (congrArg (s.userTrap h) ?_)⟩
    · exact (BitVec.ofNat_toNat 64 imm).symm
    · rw [BitVec.ofNat_add, BitVec.ofNat_toNat]
      exact congrArg (· + n.setWidth 64) (BitVec.ofNat_pow ..).symm
  case rett =>
    intro f x
    have he := exec_issued (i := .rett h) (fun _ => rfl) hi
    refine ⟨fun hv => he.trans (if_pos ?_), fun hv hpc => he.trans ((if_neg ?_).trans (if_pos hpc)), fun hv hpc => ?_⟩
    · simpa [x, f, fe] using hv
    · simpa [x, f, fe] using hv
    · obtain ⟨t, het, hsame, hfe, honly⟩ := rett_returns hi hv hpc
      obtain ⟨hpc', hhi, hwin, hlevel, hregs, hown, hother⟩ := takesFrame_returned s h
      have hu : f.level ≠ .u := fun hu => absurd hi.level (by rw [hu]; decide)
      rw [← hfe] at hpc' hhi hwin hlevel hregs hown hother
      rw [Level.dec_eq] at hlevel
      refine ⟨t, het, hsame, hpc', hhi, hwin, hlevel, hregs, hown, hother hu, fun hn => ?_⟩
      rw [honly hn, returned, ← modFront_fe]

/-- The end of an iteration leaves no loop running, and every other register as it was. -/
theorem writesNone_of_iterEnds {s t : State} (h : s.me.IterEnds t.me) : WritesNone s t := by
  intro g
  rw [reg, reg, fe, h.regs, Regs.get_withLoops]
  rfl

/-- Settles O10: `endit` and `halt` end the iteration by `State.endIteration`, of which `Core.IterEnds` says what it does. -/
theorem endsOfTheFrontEnd : Obligations.EndsOfTheFrontEnd := by
  unfold Obligations.EndsOfTheFrontEnd
  refine ⟨fun h s hi => ?endit, fun h s hi => ⟨fun hn => ?waits, fun hc hf => ?halts⟩⟩
  case endit =>
    set m := s.modFront s.cur fun f => (f.allocate h none {} s.cycle).discardFrame (fe s).level
    have he : exec (.endit h) s = .next (m.endIteration s.cur) := exec_issued (i := .endit h) (fun _ => rfl) hi
    have hfe : fe m = ((fe s).allocate h none {} s.cycle).discardFrame (fe s).level := fe_modFront ..
    have hme : m.me = s.me.setFront (fe m) := by
      rw [hfe]
      exact s.core_modFront s.cur _
    have hends : m.me.IterEnds (m.endIteration s.cur).me := by
      have := m.endIteration_core m.cur
      rwa [State.me, State.me, m.endIteration_cur]
    have hsame : SameBytes s (m.endIteration s.cur) := .trans (.modFront ..) (sameBytes_endIteration ..)
    have hregs : (fe m).regs = (fe s).regs := by simp [hfe]
    have hlevel : (fe m).level = (fe s).level := by simp [hfe]
    have hframes : (fe m).sFrame = (if (fe s).level = .s then (fe s).sFrame.clear else (fe s).sFrame) ∧
        (fe m).mFrame = if (fe s).level = .m then (fe s).mFrame.clear else (fe s).mFrame := by
      simp [hfe, Front.discardFrame_sFrame, Front.discardFrame_mFrame]
    have hlive : m.me.live = { s.me.live with front := fe m } := congrArg Core.live hme
    have hwrites : WritesNone s (m.endIteration s.cur) := fun g =>
      (writesNone_of_iterEnds hends g).trans (congrArg (·.get g) hregs)
    obtain ⟨hr, hidle, hl, hs, hf, hwalker, hqueues, hrings, hcopies, -, hjob⟩ := hends
    rw [hlive] at hr hl hs hf hwalker hqueues hrings hcopies
    rw [hregs] at hr
    refine ⟨_, he, hsame, hwrites, hidle, ?_⟩
    rw [fe, hr, hl, hs, hf, hlevel, hframes.1, hframes.2]
    exact ⟨rfl, rfl, rfl, rfl, rfl, rfl, rfl, hwalker, hqueues, hrings, hcopies, hjob⟩
  case waits =>
    refine (exec_issued (i := .halt h) (fun _ => rfl) hi).trans (if_neg fun hc => hn ?_)
    exact Bool.and_eq_true_iff.1 hc
  case halts =>
    set m := s.endIteration s.cur
    have he : exec (.halt h) s = .next (m.modCore m.cur halted) :=
      (exec_issued (i := .halt h) (fun _ => rfl) hi).trans (if_pos (Bool.and_eq_true_iff.2 ⟨hc, hf⟩))
    have hends : s.me.IterEnds m.me := by
      have := s.endIteration_core s.cur
      rwa [State.me, State.me, s.endIteration_cur]
    have hme : (m.modCore m.cur halted).me = halted m.me := m.core_modCore m.cur halted
    have hwrites := writesNone_of_iterEnds hends
    obtain ⟨hr, hidle, hl, hs, hf, -, -, -, -, -, hjob⟩ := hends
    have hfe : fe (m.modCore m.cur halted) = (halted m.me).live.front := congrArg (·.live.front) hme
    refine ⟨_, he, (sameBytes_endIteration ..).trans (.modCore _ _ _ fun _ _ => rfl), fun g => ?_, ?_⟩
    · rw [reg, hfe]
      exact hwrites g
    · have hregs : (halted m.me).live.front.regs = m.me.live.front.regs := rfl
      rw [hfe, hme, hregs, hr]
      exact ⟨rfl, hidle, hl, congrArg Frame.clear hs, congrArg Frame.clear hf, rfl, rfl, rfl, rfl, hjob⟩

end Sys2Proof.Claims

end

section

/-! ## O37: the ends of the front end's waits -/

namespace Sys2Proof.Machine

/-- Two fields one above the other, as a number. -/
theorem toNat_append_eq_add {n m : Nat} (x : BitVec n) (y : BitVec m) : (x ++ y).toNat = x.toNat * 2 ^ m + y.toNat := by
  rw [BitVec.toNat_append, ← Nat.shiftLeft_add_eq_or_of_lt y.isLt, Nat.shiftLeft_eq]

/-- A flag of a status word, by its weight. -/
theorem ite_eq_toNat_mul (b : Bool) (n : Nat) : (if b then n else 0) = b.toNat * n := by cases b <;> simp

/-- The slot tag of R87, as a sum and as its fields. -/
theorem Slot.tag_eq_tagWord (x : Slot) : x.tag = Claims.tagWord x := by
  obtain ⟨coord, res, tagerr, poison, fmt, state, by_, since, own⟩ := x
  have hcoord := coord.isLt
  have hres : res.toNat < 2 ^ 8 := res.isLt
  have hfmt := fmt.isLt
  have htagerr := tagerr.toNat_le
  have hpoison := poison.toNat_le
  apply BitVec.eq_of_toNat_eq
  unfold Slot.tag Claims.tagWord
  refine Eq.trans ?_ (toNat_append_eq_add ..).symm
  simp only [ite_eq_toNat_mul, toNat_append_eq_add, BitVec.toNat_ofNat, BitVec.toNat_ofBool]
  cases state
  all_goals
    simp only [SlotState.code, BitVec.toNat_ofNat]
    omega

/-- A vector with one place changed, by what each place holds. -/
theorem ofFn_eq_set {α : Type} {n : Nat} (v : Vector α n) (j : Fin n) (g : α → α) :
    (Vector.ofFn fun i : Fin n => if i == j then g v[i] else v[i]) = v.set j (g v[j]) := by
  ext i hi
  by_cases h : j.val = i
  · subst h
    simp
  · have hne : (⟨i, hi⟩ : Fin n) ≠ j := fun e => h (congrArg Fin.val e).symm
    simp [hne, h]

/-- What a pop takes from the tokens of a core (R108, R216). -/
theorem Live.popIf_eq (l : Live) (b : Bool) (j : Fin 8) :
    l.popIf b j = { l with queues := Claims.lessTokens l.queues fun i => b && i == j } := by
  cases b
  case false => simp [Live.popIf, Claims.lessTokens, Vector.ofFn_getElem]
  case true =>
    have hfifo := ofFn_eq_set l.queues.fifo j (· - 1)
    have hmarks := ofFn_eq_set l.queues.marks j (·.drop 1)
    exact (congrArg₂ (fun v w => { l with queues := { l.queues with fifo := v, marks := w } }) hfifo hmarks).symm

/-- Tokens that go from distinct FIFOs one after another go at once. -/
theorem lessTokens_lessTokens {q : Queues} {a b : Fin 8 → Bool} (h : ∀ j, ¬ (a j = true ∧ b j = true)) :
    Claims.lessTokens (Claims.lessTokens q a) b = Claims.lessTokens q fun j => a j || b j := by
  have once {α : Type} (v : Vector α 8) (g : α → α) (j : Fin 8) :
      (if b j then g (if a j then g v[j] else v[j]) else if a j then g v[j] else v[j]) = if a j || b j then g v[j] else v[j] := by
    by_cases hb : b j = true
    · have ha : a j = false := by simpa using fun ha => h j ⟨ha, hb⟩
      simp [ha, hb]
    · simp [hb]
  have hfifo := congrArg Vector.ofFn (funext (once q.fifo (· - 1)))
  have hmarks := congrArg Vector.ofFn (funext (once q.marks (·.drop 1)))
  simp only [Claims.lessTokens, Fin.getElem_fin, Vector.getElem_ofFn, Fin.eta] at hfifo hmarks ⊢
  rw [hfifo, hmarks]

/-- `tokw` takes one token of each FIFO that it names. -/
theorem Live.tokwTake_eq (l : Live) (x y : Bool) :
    l.tokwTake x y = { l with queues := Claims.lessTokens l.queues fun j => (x && j == 3) || (y && j == 4) } := by
  rw [Live.tokwTake, Live.popIf_eq, Live.popIf_eq, lessTokens_lessTokens]
  rintro j ⟨h3, h4⟩
  simp only [Bool.and_eq_true, beq_iff_eq] at h3 h4
  exact absurd (h3.2.symm.trans h4.2) (by decide)

theorem Live.tokwReady_iff (l : Live) (x y : Bool) :
    l.tokwReady x y = true ↔ (x = true → l.queues.fifo[3] ≠ 0) ∧ (y = true → l.queues.fifo[4] ≠ 0) := by
  cases x <;> cases y <;> simp [Live.tokwReady, Live.hasToken]

theorem CopyEntry.active_iff (e : CopyEntry) : e.active = true ↔ e.state = .run ∨ e.state = .demand := by
  simp [CopyEntry.active]

/-- The slot that the next take of a ring gets, where no release has departed before (R88). -/
theorem Core.head_eq {k : Core} {q : RingId} {r : Ring} (hr : k.ring q = some r)
    (hg : (k.flow.gone.find? fun e => e.ring == q && e.defNo == r.viewNo && e.num == r.tookMade) = none) :
    k.head q = if r.viewNo = r.defNo ∧ r.tookMade < r.filled ∧ (r.slot (r.tookMade % r.def_.nslot)).state = .full then
      some ⟨r.tookMade % r.def_.nslot, r.slot (r.tookMade % r.def_.nslot), false⟩ else none := by
  rw [Core.head, hr, Option.bind_some, Core.takeOf, hr, Option.bind_some, hg]

/-- A ring whose slot i the front end takes and holds (R88, R262). -/
def Ring.takeByFront (r : Ring) (i : Nat) : Ring :=
  { r with
    slots := r.slots.set i { r.slot i with state := .held, by_ := .front }, taken := max r.taken (r.tookMade + 1)
    tookMade := r.tookMade + 1, frontHeld := r.frontHeld ++ [i] }

/-- The front end takes a slot FULL, whatever its front end waits for. -/
theorem Core.take_front {k : Core} {q : RingId} {i : Nat} {x : Slot} {f : Front} (h : k.head q = some ⟨i, x, false⟩) :
    ((k.setFront f).take q .front).modRing q (fun r => { r with frontHeld := r.frontHeld ++ [i] }) =
      (k.setFront f).modRing q (·.takeByFront i) := by
  have h' : (k.setFront f).head q = some ⟨i, x, false⟩ := h
  simp [Core.take, h', Core.modRing, Core.modLive, Ring.takeByFront, Ring.modSlot, Function.comp_def]

/-- An acquire that joins the load stream changes the front end's tags alone. -/
theorem Core.pushAcquire_moves (k : Core) (c : CoreId) (now : Nat) (atomic : Option Nat) (scope : Scope) :
    k.StreamsMove (k.pushAcquire c now atomic scope) :=
  .trans (l := k.modFlow fun f => { f with loads := f.loads ++ [⟨.acquire atomic, .g, [], none, k.live.front.at_.po,
    k.live.front.at_.mark, some scope, now, none, k.live.front.at_.pc⟩] }) (.of_eq rfl rfl) (Core.settle_moves _ c now)

end Sys2Proof.Machine

namespace Sys2Proof.Claims

open Sys2Proof.Machine

/-- A front end whose word has completed, with no register written. -/
structure CompletesFront (f g : Front) : Prop where
  wait : g.at_.wait = .none
  pc : g.at_.pc = (loopCheck f.regs.loops f.at_.pc none none false).2
  loops : g.regs.loops = (loopCheck f.regs.loops f.at_.pc none none false).1
  po : g.at_.po = f.at_.po + 1
  level : g.level = f.level
  regs : ∀ r, g.regs.get r = f.regs.get r

/-- A wait that is over and its word's retirement, with no register to write. -/
theorem CompletesFront.retire {f w : Front} (h : Hdr) (p : Option Pend) (now : Nat) (hwait : w.at_.wait = .none)
    (hpc : w.at_.pc = f.at_.pc) (hpo : w.at_.po = f.at_.po) (hregs : w.regs = f.regs) (hlevel : w.level = f.level) :
    CompletesFront f (w.retire h none { pend := p } now) where
  wait := by rw [Front.retire_wait, hwait]
  pc := by rw [Front.retire_pc, hpc, hregs]
  loops := by rw [Front.retire_loops, hpc, hregs]
  po := by rw [Front.retire_po, hpo]
  level := by rw [Front.retire_level, hlevel]
  regs r := by rw [Front.retire_get, hregs]; rfl

/-- The word at which a core stands completes by a change of its front end. -/
theorem completes_modFront {m : State} {c : CoreId} {g : Front → Front} (h : CompletesFront (m.front c) (g (m.front c))) :
    Completes m (m.modFront c g) c := by
  obtain ⟨hwait, hpc, hloops, hpo, hlevel, hregs⟩ := h
  unfold Completes
  rw [State.front_modFront]
  exact ⟨rfl, hwait, hpc, hloops, hpo, hlevel, hregs⟩

/-- The front end of a core that no longer waits. -/
def unwaiting (now : Nat) (f : Front) : Front :=
  f.modAt fun a => { a with wait := .none, waitSince := now, nextAt := max a.nextAt now }

theorem setWait_none (m : State) (c : CoreId) : m.setWait c .none = m.modFront c (unwaiting m.cycle) := rfl

theorem completes_unwaiting (f : Front) (h : Hdr) (p : Option Pend) (since now : Nat) :
    CompletesFront f ((unwaiting since f).retire h none { pend := p } now) := .retire h p now rfl rfl rfl rfl rfl

theorem endWait_eq (m : State) (c : CoreId) :
    m.endWait c = m.modFront c fun f => (unwaiting m.cycle f).retire Hdr.zero none {} m.cycle :=
  State.modFront_modFront m c (unwaiting m.cycle) fun f => f.retire Hdr.zero none {} m.cycle

theorem completes_endWait (m : State) (c : CoreId) : Completes m (m.endWait c) c := by
  rw [endWait_eq]
  exact completes_modFront (completes_unwaiting ..)

/-- A `gbar` that returns forgets its own report. -/
theorem completes_endWait_gbar (m : State) (c : CoreId) (g : List GbarProg → List GbarProg) :
    Completes m ((m.endWait c).modFront c fun f => { f with gbar := g f.gbar }) c := by
  rw [endWait_eq, State.modFront_modFront]
  obtain ⟨hwait, hpc, hloops, hpo, hlevel, hregs⟩ := completes_unwaiting (m.front c) Hdr.zero none m.cycle m.cycle
  exact completes_modFront ⟨hwait, hpc, hloops, hpo, hlevel, hregs⟩

theorem gbar_endWait (m : State) (c : CoreId) : ((m.endWait c).front c).gbar = (m.front c).gbar := by
  rw [endWait_eq, State.front_modFront, Front.retire_gbar]
  rfl

/-- An acquire leaves the group barriers of its front end as they are. -/
theorem gbar_pushAcquire (m : State) (c : CoreId) (n now : Nat) (atomic : Option Nat) (scope : Scope) :
    ((m.modCore c fun k => (k.logInput n none).pushAcquire c now atomic scope).front c).gbar = (m.front c).gbar := by
  obtain ⟨ts, hts⟩ := (Core.pushAcquire_moves ((m.core c).logInput n none) c now atomic scope).front
  rw [State.front, State.core_modCore, hts]
  rfl

/-! What each event does, by the wait that it ends. -/

section ends
variable {s : State} {c : CoreId}

theorem exec_pauseEnd {n : Nat} (hw : (s.front c).at_.wait = .pause n) :
    exec (.pauseEnd c) s = .next (if n ≤ s.cycle then s.pauseOver c n else s) := by
  change execPauseEnd c s = _
  simp only [execPauseEnd, hw]

theorem exec_wfiWake {wake : Fin 8} {limit : Nat} (hw : (s.front c).at_.wait = .wfi wake limit) :
    exec (.wfiWake c) s = .next (if s.wakes c wake limit then s.setWait c .none else s) := by
  change execWfiWake c s = _
  simp only [execWfiWake, hw]

theorem exec_tokwPop {x y : Bool} (hw : (s.front c).at_.wait = .tokw x y) :
    exec (.tokwPop c) s = if (s.core c).live.tokwReady x y then
      .next ((s.modCore c fun k => k.modLive fun l => l.tokwTake x y).endWait c) else .next s := by
  change execTokwPop c s = _
  simp only [execTokwPop, hw]

theorem exec_cwaitReturn {e : EntryNo} (hw : (s.front c).at_.wait = .cwait e) :
    exec (.cwaitReturn c) s = if ((s.core c).copy e).active then .next s else .next (s.endWait c) := by
  change execCwaitReturn c s = _
  simp only [execCwaitReturn, hw]

theorem exec_qpopTake {q : RingId} {d : SReg} {tag : TagId} {x : Option Taken} (hw : (s.front c).at_.wait = .qpop q d tag)
    (hx : (s.core c).head q = x) :
    exec (.qpopTake c) s = x.elim (.next s) fun x => if x.tag.tagerr then
        .next (s.takeTrap c { cause := .ringState, info := slotInfo q x.slot, word := (s.front c).at_.pc } (s.front c).at_.pc)
      else .next (State.popSlot { s.setWait c .none with cur := c } { Hdr.zero with tag := some tag } d q x) := by
  change execQpopTake c s = _
  simp only [execQpopTake, hw, hx]
  cases x <;> rfl

theorem exec_barWaitCheck {a : Nat} {va : Word} {ph : Bool} {scope : Scope} {s1 : State}
    (hw : (s.front c).at_.wait = .barWait a va ph scope none) (hl : (s.core c).flow.loads = []) (ha : here a)
    (hs1 : s.readGrant c a 32 false = .ok s1) :
    exec (.barWaitCheck c) s = .next (s1.modFront c fun f => f.modAt fun p => { p with
      wait := .barWait a va ph scope
        (if (s1.readBar a).over_ then some true else if (s1.readBar a).phase ≠ ph then some false else none) }) := by
  have hw' : (s.core c).live.front.at_.wait = .barWait a va ph scope none := hw
  have ha' : remoteChip a = none := ha
  change execBarWaitCheck c s = _
  simp [execBarWaitCheck, hw', hl, hs1, ha']

theorem exec_barWaitReturn {a : Nat} {va : Word} {ph isOver : Bool} {scope : Scope}
    (hw : (s.front c).at_.wait = .barWait a va ph scope (some isOver)) :
    exec (.barWaitReturn c) s = if s.cycle < (s.front c).at_.waitSince + 300 + 2 * s.homeDelay c a then .next s
      else if isOver then .next (s.takeTrap c { cause := .barOver, info := va, word := (s.front c).at_.pc } (s.front c).at_.pc)
      else .next ((s.modCore c fun k => (k.logInput (s.front c).at_.po none).pushAcquire c s.cycle none scope).endWait c) := by
  change execBarWaitReturn c s = _
  simp only [execBarWaitReturn, hw]

section gbar
variable {a n : Nat} {va : Word} {scope : Scope} {r : Bool}

/-- A `gbar` whose reply has come, before it may look at its record (R215). -/
theorem exec_gbarReturn_early (hw : (s.front c).at_.wait = .gbar a va scope true)
    (hf : ((s.front c).gbar.find? fun g => g.addr == a) = some ⟨a, n, some r⟩)
    (hn : ¬ ((s.core c).flow.loads = [] ∧ (s.front c).at_.waitSince + 460 + 2 * s.homeDelay c a ≤ s.cycle)) :
    exec (.gbarReturn c) s = .next s := by
  have hw' : (s.core c).live.front.at_.wait = .gbar a va scope true := hw
  have hf' : ((s.core c).live.front.gbar.find? fun g => g.addr == a) = some ⟨a, n, some r⟩ := hf
  change execGbarReturn c s = _
  simp only [execGbarReturn, hw', hf']
  refine if_pos ?_
  rwa [Bool.not_eq_true', List.isEmpty_eq_false_iff, ← not_le, ← not_and_or]

/-- The same, where it looks at its record (R215). -/
theorem exec_gbarReturn_looks {s1 : State} (hw : (s.front c).at_.wait = .gbar a va scope true)
    (hf : ((s.front c).gbar.find? fun g => g.addr == a) = some ⟨a, n, some r⟩)
    (hnow : (s.core c).flow.loads = [] ∧ (s.front c).at_.waitSince + 460 + 2 * s.homeDelay c a ≤ s.cycle) (ha : here a)
    (hs1 : s.readGrant c a 8 false = .ok s1) :
    exec (.gbarReturn c) s = if (s1.readGroup a).phase = r then .next s1 else
      .next (((s1.modCore c fun k => (k.logInput (s.front c).at_.po none).pushAcquire c s.cycle none scope).endWait c).modFront c
        fun f => { f with gbar := f.gbar.filter fun g => g.num != n }) := by
  have hw' : (s.core c).live.front.at_.wait = .gbar a va scope true := hw
  have hf' : ((s.core c).live.front.gbar.find? fun g => g.addr == a) = some ⟨a, n, some r⟩ := hf
  have ha' : remoteChip a = none := ha
  have hcycle : s1.cycle = s.cycle := by rw [(State.readGrant_metered hs1).eq]
  obtain ⟨hl, hdue⟩ := hnow
  change execGbarReturn c s = _
  simp only [execGbarReturn, hw', hf', hs1, ha', Option.isSome_none, Bool.false_eq_true, if_false, hcycle, hl]
  refine if_neg ?_
  rintro (h | h)
  · exact Bool.noConfusion h
  · exact hdue.not_gt h

end gbar

end ends

/-- A waiting `wfi` goes on (R320). -/
theorem goesOn_setWait (s : State) (c : CoreId) : GoesOn s (s.setWait c .none) c := by
  rw [setWait_none]
  unfold GoesOn
  rw [State.front_modFront]
  exact ⟨rfl, rfl, rfl, rfl, rfl, rfl⟩

/-- A `pause` that is over completes (R165). -/
theorem completes_pauseOver (s : State) (c : CoreId) (n : Nat) : Completes s (s.pauseOver c n) c := by
  have heq : s.pauseOver c n = s.modFront c fun f => (unwaiting s.cycle f).retire Hdr.zero none {} (n - 1) :=
    State.modFront_modFront ..
  rw [heq]
  exact completes_modFront (completes_unwaiting ..)

/-- A value that the device has at issue, and that no log holds, waits at its tag (R133, R360). -/
theorem deliver_eq {s : State} (hl : s.me.logged = none) (h : Hdr) (d : SReg) (lat : Nat) (v : Word) :
    s.deliver h d lat v = (s.modCore s.cur fun k => k.logInput (fe s).at_.po (some (wordOf v))).retire h none
      { pend := some ((fe s).pendOf (.s d) (wordOf (BitVec.allOnes 64)) (s.cycle + lat) (some (wordOf v))) } := by
  have hfe (g : Core → Core) (hg : (g s.me).live.front = fe s) : fe (s.modCore s.cur g) = fe s := (fe_modCore ..).trans hg
  unfold State.deliver
  simp only [hl]
  exact congrArg (fun f : Front => State.retire _ h none { pend := some (f.pendOf _ _ _ _) }) (hfe _ rfl)

/-- Two changes of a core that agree there. -/
theorem modCore_congr {s : State} {c : CoreId} {k : Core} {g l : Core → Core} (hk : s.core c = k) (h : g k = l k) :
    s.modCore c g = s.modCore c l := by
  subst hk
  exact congrArg (s.setCore c) h

/-- A ring and the replay log change apart from the front end. -/
theorem modFront_modRing_logInput (s : State) (c : CoreId) (q : RingId) (r : Ring → Ring) (n : Nat) (v : Option VecWord)
    (g w : Front → Front) :
    (((s.modFront c g).modCore c (·.modRing q r)).modCore c (·.logInput n v)).modFront c w =
      (s.modCore c fun k => (k.modRing q r).logInput n v).modFront c (w ∘ g) := by
  simp only [State.modFront, State.modCore_modCore]
  rfl

/-- A `qpop` that takes a slot FULL: the slot is HELD by the front end, and its tag is the result (R88, R262). -/
theorem completes_popSlot {s : State} {q : RingId} {i : Nat} {x : Slot} (tag : TagId) (d : SReg)
    (hhead : s.me.head q = some ⟨i, x, false⟩) (hl : s.me.logged = none) :
    let t := (s.setWait s.cur .none).popSlot { Hdr.zero with tag := some tag } d q ⟨i, x, false⟩
    let v := wordOf (tagWord { x with state := .held })
    Completes (s.modCore s.cur fun k => (k.modRing q (·.takeByFront i)).logInput (fe s).at_.po (some v)) t s.cur ∧
    ∃ p, (t.front s.cur).tags[tag] = some p ∧ p.fixed = false ∧ p.dst = some (.s d) ∧ p.value = some v ∧ p.trap = none := by
  intro t v
  set m := s.modCore s.cur fun k => (k.modRing q (·.takeByFront i)).logInput (fe s).at_.po (some v)
  set u := (s.modFront s.cur (unwaiting s.cycle)).modCore s.cur (·.modRing q (·.takeByFront i)) with hu
  have hme : u.me = (s.me.modRing q (·.takeByFront i)).setFront (unwaiting s.cycle (fe s)) := by
    have hcore := (s.modFront s.cur (unwaiting s.cycle)).core_modCore s.cur (·.modRing q (·.takeByFront i))
    rw [s.core_modFront] at hcore
    exact hcore
  have hdeliver : t = u.deliver { Hdr.zero with tag := some tag } d 12 (tagWord { x with state := .held }) := by
    rw [← Slot.tag_eq_tagWord]
    exact congrArg (State.deliver · _ d 12 _) (modCore_congr (s.core_modFront s.cur (unwaiting s.cycle)) (Core.take_front hhead))
  set p := (fe u).pendOf (.s d) (wordOf (BitVec.allOnes 64)) (s.cycle + 12) (some v)
  have ht : t = m.modFront s.cur fun f =>
      (unwaiting s.cycle f).retire { Hdr.zero with tag := some tag } none { pend := some p } s.cycle := by
    rw [hdeliver, deliver_eq (by rw [hme]; exact hl)]
    have hpo : (fe u).at_.po = (fe s).at_.po := congrArg (·.live.front.at_.po) hme
    rw [hpo]
    exact modFront_modRing_logInput ..
  have hfront : t.front s.cur =
      (unwaiting s.cycle (m.front s.cur)).retire { Hdr.zero with tag := some tag } none { pend := some p } s.cycle := by
    rw [ht, State.front_modFront]
  have htag := Front.retire_tag (unwaiting s.cycle (m.front s.cur)) { Hdr.zero with tag := some tag } tag p s.cycle rfl
  exact ⟨ht ▸ completes_modFront (completes_unwaiting ..), _, hfront ▸ htag, rfl, rfl, rfl, rfl⟩

/-- A record's flag, as a bit and as a remainder. -/
theorem testBit_eq_beq (w n : Nat) : (w / 2 ^ n % 2 == 1) = w.testBit n := Nat.testBit_eq_decide_div_mod_eq.symm

/-- Settles O37: each wait ends by `State.endWait`, of which `completes_endWait` says what it does. -/
theorem waitsOfTheFrontEnd : Obligations.WaitsOfTheFrontEnd := by
  unfold Obligations.WaitsOfTheFrontEnd
  intro c n a limit wake x y ph isOver r scope va e q d tag ring s k f fifo en i there logged
  refine ⟨fun hw => ?pause, fun hw => ?wfi, fun hw => ?tokw, fun hw => ?cwait, fun hw hr hg => ?qpop,
    fun hw hl ha s1 hs1 => ?barCheck, fun hw => ?bar, fun hw hf ha => ?gbar⟩
  case pause =>
    have he := exec_pauseEnd hw
    exact ⟨fun hn => ⟨_, he.trans (congrArg _ (if_pos hn)), completes_pauseOver ..⟩,
      fun hn => he.trans (congrArg _ (if_neg hn.not_ge))⟩
  case wfi =>
    intro met
    have he := exec_wfiWake hw
    have hmet : s.wakes c wake limit = true ↔ met := State.wakes_iff ..
    exact ⟨fun h => ⟨_, he.trans (congrArg _ (if_pos (hmet.2 h))), goesOn_setWait ..⟩,
      fun h => he.trans (congrArg _ (if_neg (mt hmet.1 h)))⟩
  case tokw =>
    intro met
    have he := exec_tokwPop hw
    have hmet : k.live.tokwReady x y = true ↔ met := Live.tokwReady_iff ..
    refine ⟨fun h => ⟨_, he.trans (if_pos (hmet.2 h)), ?_⟩, fun h => he.trans (if_neg (mt hmet.1 h))⟩
    simp only [Live.tokwTake_eq]
    exact completes_endWait ..
  case cwait =>
    have he := exec_cwaitReturn hw
    have hact := en.active_iff
    exact ⟨fun hrun hdem => ⟨_, he.trans (if_neg fun h => (hact.1 h).elim hrun hdem), completes_endWait ..⟩,
      fun h => he.trans (if_pos (hact.2 h))⟩
  case qpop =>
    have hhead := Core.head_eq hr hg
    refine ⟨fun ht => ?_, fun ht herr => ?_, fun ht herr hl => ?_⟩
    · exact exec_qpopTake hw (hhead.trans (if_neg ht))
    · exact (exec_qpopTake hw (hhead.trans (if_pos ht))).trans (if_pos herr)
    · have he := (exec_qpopTake hw (hhead.trans (if_pos ht))).trans (if_neg (Bool.eq_false_iff.1 herr))
      exact ⟨_, he, completes_popSlot (s := { s with cur := c }) tag d (hhead.trans (if_pos ht)) hl⟩
  case barCheck =>
    intro w
    have hover : (s1.readBar a).over_ = w.testBit 49 := testBit_eq_beq w 49
    have hphase : (s1.readBar a).phase = w.testBit 48 := testBit_eq_beq w 48
    have he := exec_barWaitCheck hw hl ha hs1
    simp only [hover, hphase, ne_eq, ite_not] at he
    exact he
  case bar =>
    intro due
    have he := exec_barWaitReturn hw
    refine ⟨fun h => he.trans (if_pos h), fun h ho => ?_, fun h ho => ⟨_, ?_, completes_endWait ..⟩⟩
    · exact he.trans ((if_neg h.not_gt).trans (if_pos ho))
    · exact he.trans ((if_neg h.not_gt).trans (if_neg (by simp [ho])))
  case gbar =>
    intro now
    refine ⟨exec_gbarReturn_early hw hf, fun hnow s1 hs1 => ?_⟩
    have hphase : (s1.readGroup a).phase = (s1.peek (a + 32) 8).1.testBit 18 := testBit_eq_beq _ 18
    have hgbar : ((logged s1).front c).gbar = f.gbar := by
      rw [gbar_pushAcquire, (State.readGrant_metered hs1).front]
    have he := exec_gbarReturn_looks hw hf hnow ha hs1
    rw [hphase] at he
    refine ⟨fun h => he.trans (if_pos h), fun h => ⟨_, he.trans (if_neg h), ?_, ?_⟩⟩
    · exact completes_endWait_gbar (logged s1) c _
    · rw [State.front_modFront]
      exact congrArg _ ((gbar_endWait ..).trans hgbar)

end Sys2Proof.Claims

end

section

/-! ## O12 to O15: elements of a lane

A lane of 32 bits is 32 / w elements of w bits, element 0 lowest (R170). -/

namespace Sys2Proof.Machine

/-- Digit j of a number built from its digits, each cut to the base. -/
theorem foldr_digits (b : Nat) (hb : 1 < b) (f : Nat → Nat) (l : List Nat) (j : Nat) :
    l.foldr (fun k n => f k % b + b * n) 0 / b ^ j % b = ((l[j]?.map f).getD 0) % b := by
  have hpos : 0 < b := by omega
  induction l generalizing j with
  | nil => simp
  | cons k l ih =>
    cases j with
    | zero => simp
    | succ j =>
      have hdiv (n : Nat) : (f k % b + b * n) / b = n := by
        rw [Nat.add_mul_div_left _ _ hpos, Nat.div_eq_of_lt (Nat.mod_lt _ hpos), Nat.zero_add]
      rw [List.foldr_cons, Nat.pow_succ', ← Nat.div_div_eq_div_mul, hdiv, ih]
      rfl

theorem foldr_digits_lt (b : Nat) (hb : 0 < b) (f : Nat → Nat) (l : List Nat) :
    l.foldr (fun k n => f k % b + b * n) 0 < b ^ l.length := by
  induction l with
  | nil => simp
  | cons k l ih =>
    have hmod := Nat.mod_lt (f k) hb
    have := Nat.mul_le_mul_left b (Nat.succ_le_of_lt ih)
    rw [List.foldr_cons, List.length_cons, Nat.pow_succ']
    rw [Nat.mul_succ] at this
    omega

variable {w : Nat}

theorem elem_lt (w j : Nat) (x : Lane) : elem w j x < 2 ^ w := Nat.mod_lt _ (Nat.two_pow_pos w)

/-- Bit i of a lane is bit i % w of its element i / w. -/
theorem getLsbD_eq_testBit_elem (hw : 0 < w) (x : Lane) (i : Nat) :
    x.getLsbD i = (elem w (i / w) x).testBit (i % w) := by
  rw [elem, Nat.testBit_mod_two_pow, Nat.testBit_div_two_pow, Nat.mod_add_div, decide_eq_true (Nat.mod_lt i hw), Bool.true_and]
  rfl

/-- A lane is known by its elements. -/
theorem lane_ext (hw : w * (32 / w) = 32) {x y : Lane} (h : ∀ j < 32 / w, elem w j x = elem w j y) : x = y := by
  have hpos : 0 < w := Nat.pos_of_ne_zero (by rintro rfl; simp at hw)
  apply BitVec.eq_of_getLsbD_eq
  intro i hi
  have hj : i / w < 32 / w := Nat.div_lt_of_lt_mul (by rwa [hw])
  rw [getLsbD_eq_testBit_elem hpos x, getLsbD_eq_testBit_elem hpos y, h _ hj]

/-- The value and the flags of a packed lane, apart. -/
theorem packLane_eq (w : Nat) (f : Nat → Nat × FFlags) :
    packLane w f = (BitVec.ofNat 32 ((List.range (32 / w)).foldr (fun j n => (f j).1 % 2 ^ w + 2 ^ w * n) 0),
      (List.range (32 / w)).foldr (fun j n => (f j).2 ||| n) 0) := by
  have (l : List Nat) : l.foldr (fun j (n : Nat × FFlags) => ((f j).1 % 2 ^ w + 2 ^ w * n.1, (f j).2 ||| n.2)) (0, 0) =
      (l.foldr (fun j n => (f j).1 % 2 ^ w + 2 ^ w * n) 0, l.foldr (fun j n => (f j).2 ||| n) 0) := by
    induction l with
    | nil => rfl
    | cons j l ih => rw [List.foldr_cons, ih]; rfl
  simp only [packLane, this]

/-- An element of a packed lane. -/
theorem elem_packLane (hw : w * (32 / w) = 32) (f : Nat → Nat × FFlags) {j : Nat} (hj : j < 32 / w) :
    elem w j (packLane w f).1 = (f j).1 % 2 ^ w := by
  have hpos : w ≠ 0 := by rintro rfl; simp at hw
  have hlt := foldr_digits_lt (2 ^ w) (Nat.two_pow_pos w) (fun j => (f j).1) (List.range (32 / w))
  rw [List.length_range, ← pow_mul, hw] at hlt
  rw [packLane_eq, elem, BitVec.toNat_ofNat, Nat.mod_eq_of_lt hlt, pow_mul,
    foldr_digits (2 ^ w) (Nat.one_lt_two_pow hpos) (fun j => (f j).1), List.getElem?_range hj]
  rfl

/-- A packed lane depends on its own elements only. -/
theorem packLane_congr {f g : Nat → Nat × FFlags} (h : ∀ j < 32 / w, f j = g j) : packLane w f = packLane w g := by
  unfold packLane
  rw [List.foldr_ext _ _ _ fun j hj n => by rw [h j (List.mem_range.1 hj)]]

/-- Elements without flags leave none. -/
theorem packLane_noFlags (w : Nat) (v : Nat → Nat) : packLane w (fun j => (v j, 0)) = ((packLane w fun j => (v j, 0)).1, 0) := by
  refine Prod.ext rfl ?_
  rw [packLane_eq]
  exact (List.foldr_ext _ _ _ fun _ _ _ => BitVec.zero_or).trans (List.foldr_fixed _)

theorem VTy.lanes_width (t : VTy) : VTy.width t * (32 / VTy.width t) = 32 := by cases t <;> rfl
theorem FTy.lanes_width (t : FTy) : FTy.width t * (32 / FTy.width t) = 32 := by cases t <;> rfl
theorem ITy.lanes_width (t : ITy) : ITy.width t * (32 / ITy.width t) = 32 := by cases t <;> rfl

end Sys2Proof.Machine
end

section

/-! ## O12 to O15: the numbers of integer elements, and lane-wise words

What a lane-wise word is held to (R171, R173), from what it computes lane by lane and element by element. -/

namespace Sys2Proof.Claims

open Sys2Proof.Machine

section numbers
variable {w x : Nat}

theorem toSigned_eq_signedOf (hx : x < 2 ^ w) : toSigned w x = signedOf w x := by
  simp only [toSigned, signedOf, Nat.mod_eq_of_lt hx, ← not_lt, ite_not]

theorem intElem_eq_valueOf (u : Bool) (hx : x < 2 ^ w) : intElem w u x = valueOf w u x := by
  rw [intElem, valueOf, toSigned_eq_signedOf hx]

theorem wrap_ofNat (hx : x < 2 ^ w) : wrap w x = x := by
  rw [wrap, Int.emod_eq_of_lt (by omega) (by exact_mod_cast hx), Int.toNat_natCast]

/-- An element is the code of the integer it stands for. -/
theorem wrap_valueOf (u : Bool) (hx : x < 2 ^ w) : wrap w (valueOf w u x) = x := by
  have hsub : wrap w ((x : Int) - 2 ^ w) = x := by rw [wrap, Int.sub_emod_right]; exact wrap_ofNat hx
  unfold valueOf signedOf
  split
  · exact wrap_ofNat hx
  · split
    · exact wrap_ofNat hx
    · exact hsub

/-- Elements compare as the integers they stand for. -/
theorem valueOf_lt_valueOf (u : Bool) {y : Nat} (hx : x < 2 ^ w) (hy : y < 2 ^ w) :
    (if u then decide (x < y) else decide (toSigned w x < toSigned w y)) = decide (valueOf w u x < valueOf w u y) := by
  rw [toSigned_eq_signedOf hx, toSigned_eq_signedOf hy]
  cases u <;> simp [valueOf]

end numbers

section lanewise
variable {s : State} {i : Instr} {h : Hdr} {u : Use} {d : VReg} {fl fl' : FFlags} {lf : Vector (BitVec 16) 64}

/-- The flags of a lane-wise word are known by its lanes (R173). -/
theorem FlagsOf.unique {p : Word} {g : Nat → FFlags} (hfl : FlagsOf p fl g) (hfl' : FlagsOf p fl' g) : fl = fl' :=
  BitVec.eq_of_getLsbD_eq fun b hb => Bool.eq_iff_iff.2 ((hfl b hb).trans (hfl' b hb).symm)

theorem FlagsOf.congr {p : Word} {g g' : Nat → FFlags} (hfl : FlagsOf p fl g) (hg : ∀ k < 64, g k = g' k) : FlagsOf p fl g' :=
  fun b hb => (hfl b hb).trans (exists_congr fun k => and_congr_right fun hk => by rw [hg k hk])

/-- Only the 64 lanes of a register count. -/
theorem ComputesLanes.congr {f g : Nat → Lane} (hc : ComputesLanes s i h u d f fl lf) (hfg : ∀ k < 64, f k = g k) :
    ComputesLanes s i h u d g fl lf := by
  intro hi
  obtain ⟨t, hexec, hret, ⟨hlanes, hrest⟩, hlf⟩ := hc hi
  refine ⟨t, hexec, hret, ⟨fun k hk => ?_, hrest⟩, hlf⟩
  rw [hlanes k hk, hfg k hk]

section laneOp
variable {lat n feature : Nat} {srcs : List (Reg × Fin 4)} {locks : List Reg} {rm : Rnd} {f : Front → RMode → Nat → Lane × FFlags}

/-- A lane-wise word of fixed latency gives each lane what it computes there. -/
theorem lanewise_of_laneOp {g : Nat → Lane × FFlags} (he : exec i s = s.laneOp i h lat srcs locks d rm n f feature)
    (hg : ∀ k < 64, f (fe s) (roundMode rm (fe s).regs.round) k = g k) :
    Lanewise s i h (useV srcs (.v d) lat locks feature) d g
      (stepLanes (roundMode rm (fe s).regs.round) (activeP s h) n (fe s).regs.lfsr) := by
  intro fl hfl
  have hc := computes_laneOp s i h lat srcs locks d rm n f feature he
  rw [hfl.unique ((flagsOf_computeLanes _ _).congr fun k hk => congrArg Prod.snd (hg k hk))]
  exact hc.congr fun k hk => by rw [hg k hk]

/-- A lane-wise word of fixed latency that packs its lanes gives each element what it packs there. -/
theorem elementwise_of_laneOp {w : Nat} (hw : w * (32 / w) = 32) {e g : Nat → Nat → Nat × FFlags}
    (he : exec i s = s.laneOp i h lat srcs locks d rm n f feature)
    (hf : ∀ k, f (fe s) (roundMode rm (fe s).regs.round) k = packLane w (e k)) (hg : ∀ k < 64, ∀ j < 32 / w, e k j = g k j) :
    Elementwise s i h (useV srcs (.v d) lat locks feature) d w g
      (stepLanes (roundMode rm (fe s).regs.round) (activeP s h) n (fe s).regs.lfsr) := by
  intro v fl hv hfl
  have hc := lanewise_of_laneOp (g := fun k => packLane w (g k)) he fun k hk => (hf k).trans (packLane_congr (hg k hk))
  refine (hc fl fun b hb => (hfl b hb).trans ?flags).congr fun k hk => ?value
  case flags =>
    refine exists_congr fun k => and_congr_right fun _ => and_congr_right fun _ => ?_
    simp only [packLane_eq, getLsbD_foldr_or, List.mem_range]
  case value => exact lane_ext hw fun j hj => (elem_packLane hw (g k) hj).trans (hv k hk j hj).symm

end laneOp

end lanewise

section shapes
variable {s : State} {i : Instr} {h : Hdr} {lat : Nat} {d a b c : VReg}

theorem lanewise_of_lane1 {f : Lane → Lane} (he : exec i s = s.lane1 i h lat d a f) :
    Lanewise s i h (useV (vA h a) (.v d) lat) d fun k => (f (laneA s h a k), 0) :=
  lanewise_of_laneOp he fun _ _ => rfl

theorem lanewise_of_lane2 {f : Lane → Lane → Lane × FFlags} (he : exec i s = s.lane2 i h lat d a b f) :
    Lanewise s i h (useV (vAB h a b) (.v d) lat) d fun k => f (laneA s h a k) (laneB s h b k) :=
  lanewise_of_laneOp he fun _ _ => rfl

variable {w : Nat} (hw : w * (32 / w) = 32)
include hw

/-- One operand, element by element, without flags. -/
theorem elementwise_of_lane1 {f : Nat → Nat} {g : Nat → Nat → Nat}
    (he : exec i s = s.lane1 i h lat d a fun x => (packLane w fun j => (f (elem w j x), 0)).1)
    (hg : ∀ k j, f (elem w j (laneA s h a k)) = g k j) :
    Elementwise s i h (useV (vA h a) (.v d) lat) d w fun k j => (g k j, 0) :=
  elementwise_of_laneOp hw he (fun k => (packLane_noFlags w fun j => f (elem w j (laneA s h a k))).symm)
    fun k _ j _ => congrArg (·, 0) (hg k j)

/-- Two operands, element by element. -/
theorem elementwise_of_lane2 {f : Nat → Nat → Nat × FFlags} {g : Nat → Nat → Nat × FFlags}
    (he : exec i s = s.lane2 i h lat d a b fun x y => packLane w fun j => f (elem w j x) (elem w j y))
    (hg : ∀ k j, f (elem w j (laneA s h a k)) (elem w j (laneB s h b k)) = g k j) :
    Elementwise s i h (useV (vAB h a b) (.v d) lat) d w g :=
  elementwise_of_laneOp hw he (fun _ => rfl) fun k _ j _ => hg k j

end shapes

end Sys2Proof.Claims
end

section

/-! ## O12, O13, O14: vector arithmetic, fused forms, extremes and signs -/

namespace Sys2Proof.Claims

open Sys2Proof.Machine

section arithmetic
variable {s : State} {i : Instr} {h : Hdr} {rm : Rnd} {d a b c : VReg}

/-- A two-operand word on floats rounds the exact value of each pair of elements once (R175). -/
theorem elementwise_of_elem2_float {t : VTy} {fd : FDesc} {ff : Machine.Num → Machine.Num → Machine.Num × Bool}
    {fi : Int → Int → Int} (hfd : VTy.float t = some fd) (he : exec i s = s.elem2 i h t rm d a b ff fi) :
    let w := VTy.width t
    let m := roundMode rm (fe s).regs.round
    Elementwise s i h (useV (vAB h a b) (.v d) 4) d w
      (fun k j => floatElem fd m (draw m (fe s) k (j + 1))
        (ff (fd.decode (elem w j (laneA s h a k))) (fd.decode (elem w j (laneB s h b k)))))
      (stepLanes m (activeP s h) (32 / w) (fe s).regs.lfsr) := by
  simp only [State.elem2, hfd] at he
  exact elementwise_of_laneOp (VTy.lanes_width t) he (fun _ => rfl) fun _ _ _ _ => rfl

/-- A two-operand word on integers wraps the exact value of each pair of elements (R176). -/
theorem elementwise_of_elem2_int {t : VTy} {ff : Machine.Num → Machine.Num → Machine.Num × Bool}
    {fi : Int → Int → Int} (hint : VTy.float t = none) (he : exec i s = s.elem2 i h t rm d a b ff fi) :
    let w := VTy.width t
    let m := roundMode rm (fe s).regs.round
    Elementwise s i h (useV (vAB h a b) (.v d) 2) d w
      (fun k j => (wrap w (fi (signedOf w (elem w j (laneA s h a k))) (signedOf w (elem w j (laneB s h b k)))), 0))
      (stepLanes m (activeP s h) (32 / w) (fe s).regs.lfsr) := by
  simp only [State.elem2, hint] at he
  refine elementwise_of_laneOp (VTy.lanes_width t) he (fun _ => rfl) fun k _ j _ => ?_
  rw [← toSigned_eq_signedOf (elem_lt ..), ← toSigned_eq_signedOf (elem_lt ..)]
  rfl

/-- A fused word rounds the exact value of each triple of elements once (R175). -/
theorem elementwise_of_elem3 {t : FTy} {ff : Machine.Num → Machine.Num → Machine.Num → Machine.Num × Bool}
    (he : exec i s = s.elem3 i h t rm d a b c ff) :
    let w := FTy.width t
    let fd := FTy.desc t
    let m := roundMode rm (fe s).regs.round
    Elementwise s i h (useV (vAB h a b) (.v d) 4 [.v c]) d w
      (fun k j => floatElem fd m (draw m (fe s) k (j + 1)) (ff (fd.decode (elem w j (laneA s h a k)))
        (fd.decode (elem w j (laneB s h b k))) (fd.decode (elem w j (laneC s c k)))))
      (stepLanes m (activeP s h) (32 / w) (fe s).regs.lfsr) := by
  simp only [State.elem3] at he
  exact elementwise_of_laneOp (FTy.lanes_width t) he (fun _ => rfl) fun _ _ _ _ => rfl

/-- `vdot2` computes whole lanes (R177). -/
theorem lanewise_vdot2 (flt : Bool) {g : Nat → Lane × FFlags} (hg : ∀ k, (if flt then
      dotBf16 (roundMode rm (fe s).regs.round) (draw (roundMode rm (fe s).regs.round) (fe s) k 1) (laneA s h a k) (laneB s h b k)
        (laneC s c k)
      else (dotI16 (laneA s h a k) (laneB s h b k) (laneC s c k), 0)) = g k) :
    Lanewise s (.vdot2 h flt rm d a b c) h (useV (vAB h a b) (.v d) 4 [.v c]) d g
      (stepLanes (roundMode rm (fe s).regs.round) (activeP s h) 1 (fe s).regs.lfsr) := by
  have he : exec (.vdot2 h flt rm d a b c) s = execVdot2 h flt rm d a b c s := rfl
  simp only [execVdot2] at he
  exact lanewise_of_laneOp he fun k _ => hg k

end arithmetic

/-- Settles O12: each word is `State.elem2` of its operation on exact values and on integers. -/
theorem vectorArithmetic : Obligations.VectorArithmetic := by
  unfold Obligations.VectorArithmetic
  intro h t rm d a b s w m x y lf op
  have of_elem2 {i : Instr} {ff : Machine.Num → Machine.Num → Machine.Num × Bool} {fi : Int → Int → Int}
      (he : exec i s = s.elem2 i h t rm d a b ff fi) : op i ff fi :=
    ⟨fun fd hfd => elementwise_of_elem2_float hfd he, fun hint => elementwise_of_elem2_int hint he⟩
  exact ⟨of_elem2 (fi := (· + ·)) rfl, of_elem2 (ff := fun x y => x.add y.negate) (fi := (· - ·)) rfl,
    of_elem2 (fi := (· * ·)) rfl⟩

theorem dotI16_eq (x y z : Lane) : dotI16 x y z = BitVec.ofInt 32 (z.toInt
    + signedOf 16 (elem 16 0 x) * signedOf 16 (elem 16 0 y) + signedOf 16 (elem 16 1 x) * signedOf 16 (elem 16 1 y)) := by
  simp only [dotI16, toSigned_eq_signedOf (elem_lt 16 _ _)]

/-- Settles O13: the fused words are `State.elem3`, and `vdot2` computes whole lanes. -/
theorem vectorFused : Obligations.VectorFused := by
  unfold Obligations.VectorFused
  intro h t rm d a b c s w fd m lf u fused
  refine ⟨elementwise_of_elem3 (ff := fmaExact) rfl, elementwise_of_elem3 (ff := fun x y z => fmaExact x y z.negate) rfl,
    elementwise_of_elem3 (ff := fun x y z => fmaExact x.negate y z) rfl, lanewise_vdot2 true fun _ => if_pos rfl,
    lanewise_vdot2 false fun k => (if_neg Bool.false_ne_true).trans ?_⟩
  rw [dotI16_eq]

section extremes
variable {t : VTy}

theorem minMaxElem_float {fd : FDesc} (hfd : VTy.float t = some fd) (larger un : Bool) (x y : Nat) :
    minMaxElem t larger un x y = minMaxCode fd larger x y := by
  simp only [minMaxElem, hfd]

/-- Of two integer elements the one taken is the code of the smaller, or of the larger, integer (R176). -/
theorem minMaxElem_int (hint : VTy.float t = none) (larger un : Bool) {x y : Nat} (hx : x < 2 ^ VTy.width t)
    (hy : y < 2 ^ VTy.width t) :
    minMaxElem t larger un x y = wrap (VTy.width t) (if larger then max (valueOf (VTy.width t) un x) (valueOf (VTy.width t) un y)
      else min (valueOf (VTy.width t) un x) (valueOf (VTy.width t) un y)) := by
  simp only [minMaxElem, hint, valueOf_lt_valueOf un hx hy]
  by_cases hlt : valueOf (VTy.width t) un x < valueOf (VTy.width t) un y
  · cases larger
    · simp [hlt, min_eq_left hlt.le, wrap_valueOf un hx]
    · simp [hlt, max_eq_right hlt.le, wrap_valueOf un hy]
  · cases larger
    · simp [hlt, min_eq_right (not_lt.1 hlt), wrap_valueOf un hy]
    · simp [hlt, max_eq_left (not_lt.1 hlt), wrap_valueOf un hx]

theorem absElem_float {fd : FDesc} (hfd : VTy.float t = some fd) (x : Nat) : absElem t x = x % 2 ^ (VTy.width t - 1) := by
  simp only [absElem, hfd]

theorem absElem_int (hint : VTy.float t = none) {x : Nat} (hx : x < 2 ^ VTy.width t) :
    absElem t x = wrap (VTy.width t) |signedOf (VTy.width t) x| := by
  simp only [absElem, hint, toSigned_eq_signedOf hx, Int.natCast_natAbs]
  rfl

/-- Negation of a float turns its sign bit over (R175). -/
theorem negElem_float {fd : FDesc} (hfd : VTy.float t = some fd) {x : Nat} (hx : x < 2 ^ VTy.width t) :
    negElem t x = if x < 2 ^ (VTy.width t - 1) then x + 2 ^ (VTy.width t - 1) else x - 2 ^ (VTy.width t - 1) := by
  have htop : 2 ^ VTy.width t = 2 * 2 ^ (VTy.width t - 1) := by cases t <;> rfl
  simp only [negElem, hfd]
  rw [htop] at hx ⊢
  generalize 2 ^ (VTy.width t - 1) = top at hx ⊢
  split
  · exact Nat.mod_eq_of_lt (by omega)
  · next hge =>
    rw [show x + top = x - top + 2 * top by omega, Nat.add_mod_right]
    exact Nat.mod_eq_of_lt (by omega)

theorem negElem_int (hint : VTy.float t = none) {x : Nat} (hx : x < 2 ^ VTy.width t) :
    negElem t x = wrap (VTy.width t) (-signedOf (VTy.width t) x) := by
  simp only [negElem, hint, toSigned_eq_signedOf hx]
  rfl

end extremes

/-- Settles O14: each word is `State.lane1` or `State.lane2` of an element's operation, on integers and on floats. -/
theorem vectorExtremesAndSigns : Obligations.VectorExtremesAndSigns := by
  unfold Obligations.VectorExtremesAndSigns
  intro h t un d a b s w x y i2 f2 e1
  have hw := VTy.lanes_width t
  refine ⟨fun hint => ?int, fun fd hfd => ?float⟩
  case int =>
    have hlat : vecLat (VTy.float t).isSome = 2 := by rw [hint]; rfl
    have hext {i : Instr} (larger : Bool) {g : Int → Int → Int} (hg : ∀ x y, (if larger then max x y else min x y) = g x y)
        (he : exec i s = s.lane2 i h (vecLat (VTy.float t).isSome) d a b fun x y =>
          packLane w fun j => (minMaxElem t larger un (elem w j x) (elem w j y), 0)) : i2 i g := by
      rw [hlat] at he
      exact elementwise_of_lane2 hw (f := fun x y => (minMaxElem t larger un x y, 0)) he fun k j => by
        rw [minMaxElem_int hint larger un (elem_lt ..) (elem_lt ..), hg]
    exact ⟨hext false (fun _ _ => rfl) rfl, hext true (fun _ _ => rfl) rfl,
      elementwise_of_lane1 hw (f := absElem t) rfl fun _ _ => absElem_int hint (elem_lt ..),
      elementwise_of_lane1 hw (f := negElem t) rfl fun _ _ => negElem_int hint (elem_lt ..)⟩
  case float =>
    have hlat : vecLat (VTy.float t).isSome = 4 := by rw [hfd]; rfl
    have hext {i : Instr} (larger : Bool)
        (he : exec i s = s.lane2 i h (vecLat (VTy.float t).isSome) d a b fun x y =>
          packLane w fun j => (minMaxElem t larger un (elem w j x) (elem w j y), 0)) : f2 i larger fd := by
      rw [hlat] at he
      exact elementwise_of_lane2 hw (f := fun x y => (minMaxElem t larger un x y, 0)) he fun k j => by rw [minMaxElem_float hfd]
    exact ⟨hext false rfl, hext true rfl, elementwise_of_lane1 hw (f := absElem t) rfl fun _ _ => absElem_float hfd _,
      elementwise_of_lane1 hw (f := negElem t) rfl fun _ _ => negElem_float hfd (elem_lt ..)⟩

end Sys2Proof.Claims
end

section

/-! ## O15: logic, comparisons, shifts, saturating sums and high products -/

namespace Sys2Proof.Machine

/-- A bit of a number that began below the bits set in it, in ascending order. -/
theorem testBit_foldl_pow (t : Nat → Bool) (j : Nat) {l : List Nat} (hl : l.Pairwise (· < ·)) {n : Nat}
    (hn : ∀ i ∈ l, n < 2 ^ i) :
    (l.foldl (fun n i => if t i then n + 2 ^ i else n) n).testBit j = (n.testBit j || (decide (j ∈ l) && t j)) := by
  induction l generalizing n with
  | nil => simp
  | cons i l ih =>
    obtain ⟨hi, hl⟩ := List.pairwise_cons.1 hl
    have hni : n < 2 ^ i := hn i (List.mem_cons_self ..)
    rw [List.foldl_cons]
    by_cases ht : t i
    · have hor : n + 2 ^ i = 2 ^ i ||| n := by
        rw [Nat.add_comm]
        simpa using Nat.two_pow_add_eq_or_of_lt hni 1
      have hnext : ∀ k ∈ l, n + 2 ^ i < 2 ^ k := fun k hk => by
        have := Nat.pow_le_pow_right (n := 2) (by decide) (Nat.succ_le_of_lt (hi k hk))
        rw [Nat.pow_succ] at this
        omega
      rw [if_pos ht, ih hl hnext, hor, Nat.testBit_or, Nat.testBit_two_pow, Bool.eq_iff_iff]
      by_cases hij : i = j
      · subst hij; simp [ht]
      · simp [hij, Ne.symm hij]
    · rw [if_neg ht, ih hl fun k hk => hn k (List.mem_cons_of_mem _ hk), Bool.eq_iff_iff]
      by_cases hij : i = j
      · subst hij; simp [ht]
      · simp [Ne.symm hij]

theorem activeLanes_pairwise (p : Word) : (activeLanes p).Pairwise (· < ·) := List.pairwise_lt_range.filter _

/-- A bit of flags ORed from the left. -/
theorem getLsbD_foldl_or (l : List Nat) (g : Nat → FFlags) (fl : FFlags) (b : Nat) :
    (l.foldl (fun n k => n ||| g k) fl).getLsbD b = true ↔ fl.getLsbD b = true ∨ ∃ k ∈ l, (g k).getLsbD b = true := by
  induction l generalizing fl with
  | nil => simp
  | cons k l ih => rw [List.foldl_cons, ih, BitVec.getLsbD_or, Bool.or_eq_true, List.exists_mem_cons_iff, or_assoc]

end Sys2Proof.Machine

namespace Sys2Proof.Claims

open Sys2Proof.Machine

section dispatch
variable (h : Hdr) (t : ITy) (un sub : Bool) (d a b : VReg) (c p : PReg) (n : VShAmt) (k : VCond) (s : State)

theorem exec_vsel : exec (.vsel h d a b c) s = execVsel h d a b c s := rfl
theorem exec_vshl : exec (.vshl h t d a n) s = execVshl h t d a n s := rfl
theorem exec_vshr : exec (.vshr h t d a n) s = execVshr h t d a n s := rfl
theorem exec_vsra : exec (.vsra h t d a n) s = execVsra h t d a n s := rfl
theorem exec_vadds : exec (.vadds h t un sub d a b) s = execVadds h t un sub d a b s := rfl
theorem exec_vmulh : exec (.vmulh h t un d a b) s = execVmulh h t un d a b s := rfl
theorem exec_vcmp : exec (.vcmp h k p a b) s = execVcmp h k p a b s := rfl

end dispatch

section elements
variable {w : Nat}

/-- Clamping keeps the range of the type, and says whether it had to (R176). -/
theorem clampElem_eq (un : Bool) (x : Int) :
    let lo : Int := if un then 0 else -2 ^ (w - 1)
    let hi : Int := if un then 2 ^ w - 1 else 2 ^ (w - 1) - 1
    clampElem w un x = (wrap w (max lo (min hi x)), if x < lo ∨ hi < x then fISAT else 0) := by
  intro lo hi
  have hrange : lo ≤ hi := by
    have hw : (0 : Int) < 2 ^ w := by positivity
    have hw1 : (0 : Int) < 2 ^ (w - 1) := by positivity
    cases un <;> simp only [lo, hi, if_true, Bool.false_eq_true, if_false] <;> omega
  change (if x < lo then _ else _) = _
  by_cases hlo : x < lo
  · rw [if_pos hlo, if_pos (Or.inl hlo), max_eq_left ((min_le_right _ _).trans hlo.le)]
    rfl
  · by_cases hhi : hi < x
    · rw [if_neg hlo, if_pos hhi, if_pos (Or.inr hhi), min_eq_left hhi.le, max_eq_right hrange]
      rfl
    · rw [if_neg hlo, if_neg hhi, if_neg (not_or.2 ⟨hlo, hhi⟩), min_eq_right (not_lt.1 hhi), max_eq_right (not_lt.1 hlo)]
      rfl

end elements

section compare
variable {s : State} {h : Hdr} {p : PReg}

/-- The bits that `vcmp` writes: those of the active lanes where the condition holds (R178). -/
theorem getLsbD_comparisonBits (m : Word) (t : Nat → Bool) {i : Nat} (hi : i < 64) (hm : m.getLsbD i = true) :
    (BitVec.ofNat 64 ((activeLanes m).foldl (fun n i => if t i then n + 2 ^ i else n) 0)).getLsbD i = t i := by
  have hpos : ∀ j ∈ activeLanes m, 0 < 2 ^ j := fun j _ => Nat.two_pow_pos j
  have hmem : i ∈ activeLanes m := mem_activeLanes.2 ⟨hi, hm⟩
  rw [BitVec.getLsbD_ofNat, testBit_foldl_pow t i (activeLanes_pairwise m) hpos]
  simp [hi, hmem]

/-- A bit of a predicate register after a write under a mask. -/
theorem getLsbD_fit_writeMasked (old : VecWord) (x m : Word) {i : Nat} (hi : i < 64) :
    (Reg.fit (.p p) (mergeBits old (wordOf x) (wordOf m))).getLsbD i = if m.getLsbD i then x.getLsbD i else old.getLsbD i := by
  have hi' : i < 2048 := by omega
  simp only [Reg.fit, wordOf, BitVec.getLsbD_setWidth, getLsbD_mergeBits, hi, hi', decide_true, Bool.true_and]

theorem flagsOf_foldl (m : Word) (g : Nat → FFlags) : FlagsOf m ((activeLanes m).foldl (fun n k => n ||| g k) 0) g := by
  intro b _
  rw [getLsbD_foldl_or]
  simp [mem_activeLanes, and_assoc]

/-- A word that issues and writes the bits of a mask in a predicate register (R172). -/
theorem completes_of_writesBits {i : Instr} {u : Use} {eff : State → Outcome} {lat : Option Nat} {fl : FFlags} {x m : Word}
    {t : Nat → Bool} (he : exec i s = s.issue i h u eff)
    (heff : eff s = .next (s.retire h lat { writes := [(.p p, wordOf x, wordOf m)], flags := fl }))
    (hx : ∀ j < 64, m.getLsbD j = true → x.getLsbD j = t j) (hi : Issues s h u) :
    ∃ t', exec i s = .next t' ∧ Retired s s t' fl none none false ∧ (fe t').regs.lfsr = (fe s).regs.lfsr ∧
      (∀ g, g ≠ .p p → reg t' g = reg s g) ∧
      (p ≠ 0 → ∀ j < 64, (reg t' (.p p)).getLsbD j = if m.getLsbD j then t j else (reg s (.p p)).getLsbD j) ∧
      (p = 0 → reg t' (.p p) = reg s (.p p)) := by
  have hwrites := writesReg_retire s h lat (.p p) _ _ { writes := [(.p p, wordOf x, wordOf m)], flags := fl } rfl
  refine ⟨_, (exec_of_issues he hi).trans heff, retired .., lfsr_retire .., fun g hg => ?other, fun hp j hj => ?bit, fun hp => ?wired⟩
  case other => rw [hwrites, if_neg fun h => hg h.1]
  case bit =>
    rw [hwrites, if_pos ⟨rfl, by simpa [Reg.wired] using hp⟩, getLsbD_fit_writeMasked _ _ _ hj]
    split
    · next hm => exact hx j hj hm
    · rfl
  case wired => rw [hwrites, if_neg fun h => by simp [Reg.wired, hp] at h]

end compare

/-- Settles O15: the words are `State.lane1`, `State.lane2`, `State.vshift` or `State.laneOp`, and `vcmp` writes bits. -/
theorem vectorLogicAndIntegers : Obligations.VectorLogicAndIntegers := by
  unfold Obligations.VectorLogicAndIntegers
  intro h t un sub d a b c p n k s w x y bits by_ shift lo hi sum
  have hw := ITy.lanes_width t
  have of_vshift {i : Instr} {f : Nat → Nat → Nat → Nat} {g : Nat → Nat → Nat} (he : exec i s = s.vshift i h t d a n f)
      (hg : ∀ x < 2 ^ w, ∀ k, f w x k = g x k) : shift i g := by
    cases n with
    | reg v =>
      exact elementwise_of_lane2 hw (f := fun x y => (f w x (y % w), 0)) he fun k j => by rw [hg _ (elem_lt ..)]
    | imm m => exact elementwise_of_lane1 hw (f := fun x => f w x m.val) he fun k j => hg _ (elem_lt ..) _
  refine ⟨lanewise_of_lane2 (f := fun x y => (x &&& y, 0)) rfl, lanewise_of_lane2 (f := fun x y => (x ||| y, 0)) rfl,
    lanewise_of_lane2 (f := fun x y => (x ^^^ y, 0)) rfl, lanewise_of_lane1 rfl,
    lanewise_of_laneOp (exec_vsel ..) fun _ _ => rfl, of_vshift (exec_vshl ..) fun _ _ _ => rfl,
    of_vshift (exec_vshr ..) fun _ _ _ => rfl, ?sra, ?adds, ?mulh, fun fl hfl => ?cmp⟩
  case sra => exact of_vshift (exec_vsra ..) fun x hx k => congrArg (fun z => wrap w (z / 2 ^ k)) (toSigned_eq_signedOf hx)
  case adds =>
    refine elementwise_of_lane2 hw (f := fun x y => clampElem w un (if sub then intElem w un x - intElem w un y else
      intElem w un x + intElem w un y)) (exec_vadds ..) fun k j => ?_
    rw [intElem_eq_valueOf un (elem_lt ..), intElem_eq_valueOf un (elem_lt ..)]
    exact clampElem_eq un _
  case mulh =>
    refine elementwise_of_lane2 hw (f := fun x y => (ofSigned w (intElem w un x * intElem w un y / 2 ^ w), 0)) (exec_vmulh ..)
      fun k j => ?_
    rw [intElem_eq_valueOf un (elem_lt ..), intElem_eq_valueOf un (elem_lt ..)]
    rfl
  case cmp =>
    rw [hfl.unique (flagsOf_foldl _ _)]
    have he := exec_vcmp h a b p k s
    cases k <;>
    · simp only [execVcmp] at he
      exact completes_of_writesBits he rfl fun i => getLsbD_comparisonBits _ _

end Sys2Proof.Claims
end

section

/-! ## O17, O19, O21: moves of lanes, sparse words, predicates -/

namespace Sys2Proof.Claims

open Sys2Proof.Machine

section dispatch
variable (h : Hdr) (up : Bool) (d a b c : VReg) (p : PReg) (v : VBcastSrc) (m : VMovForm) (n : RotAmt) (f : BmForm) (src : PfxSrc)
  (bits : Bool) (sd : SReg) (q r : PReg) (pf : PSetForm) (s : State)

theorem exec_vbcast : exec (.vbcast h d v) s = execVbcast h d v s := rfl
theorem exec_vmov : exec (.vmov h m) s = execVmov h m s := rfl
theorem exec_vperm : exec (.vperm h d a b) s = execVperm h d a b s := rfl
theorem exec_vrot : exec (.vrot h d a n) s = execVrot h d a n s := rfl
theorem exec_vslide : exec (.vslide h up d a c n) s = execVslide h up d a c n s := rfl
theorem exec_vcompact : exec (.vcompact h d a p) s = execVcompact h d a p s := rfl
theorem exec_vexpand : exec (.vexpand h d a p) s = execVexpand h d a p s := rfl
theorem exec_vbmand : exec (.vbmand h p f) s = execVbmand h p f s := rfl
theorem exec_vpopc : exec (.vpopc h d a) s = execVpopc h d a s := rfl
theorem exec_vpfx : exec (.vpfx h d src) s = execVpfx h d src s := rfl
theorem exec_pand : exec (.pand h p q r) s = execPand h p q r s := rfl
theorem exec_por : exec (.por h p q r) s = execPor h p q r s := rfl
theorem exec_pxor : exec (.pxor h p q r) s = execPxor h p q r s := rfl
theorem exec_pnot : exec (.pnot h p q) s = execPnot h p q s := rfl
theorem exec_pcnt : exec (.pcnt h bits sd p) s = execPcnt h bits sd p s := rfl
theorem exec_pfirst : exec (.pfirst h sd p) s = execPfirst h sd p s := rfl
theorem exec_pset : exec (.pset h p pf) s = execPset h p pf s := rfl

end dispatch

section words
variable {s : State} {i : Instr} {h : Hdr} {u : Use} {eff : State → Outcome}

/-- A word that issues and writes the lanes of a mask in a vector register. -/
theorem completes_of_writesLanes {lat : Option Nat} {d : VReg} {x : VecWord} {m : Word} {f : Nat → Lane}
    (he : exec i s = s.issue i h u eff) (heff : eff s = .next (s.retire h lat { writes := [writeV d x m] }))
    (hx : ∀ k < 64, m.getLsbD k = true → lane x k = f k) (hi : Issues s h u) :
    ∃ t, exec i s = .next t ∧ Retired s s t 0 none none false ∧ (fe t).regs.lfsr = (fe s).regs.lfsr ∧
      (∀ g, g ≠ .v d → reg t g = reg s g) ∧
      ∀ k < 64, lane (reg t (.v d)) k = if m.getLsbD k = true then f k else lane (reg s (.v d)) k := by
  obtain ⟨hlanes, hother⟩ := writesLanes_writeV s h lat d x m f hx { writes := [writeV d x m] } rfl
  exact ⟨_, (exec_of_issues he hi).trans heff, retired .., lfsr_retire .., hother, hlanes⟩

/-- A predicate word writes one register whole (R194). -/
theorem computes_predOp_scalar {srcs : List (Reg × Fin 4)} {d : SReg} {f : Front → Word} {r : Word}
    (he : exec i s = s.predOp i h srcs (.s d) f) (hr : f (fe s) = r) : Computes s i h (useS srcs (.s d) 1) (.s d) (wordOf r) :=
  computes_of_writes he rfl (writesReg_writeS s h (some 1) d r _ (by rw [← hr]; rfl))
theorem computes_predOp {srcs : List (Reg × Fin 4)} {d : PReg} {f : Front → Word} {r : Word}
    (he : exec i s = s.predOp i h srcs (.p d) f) (hr : f (fe s) = r) : Computes s i h (useS srcs (.p d) 1) (.p d) (wordOf r) :=
  computes_of_writes he rfl (writesReg_writeP s h (some 1) d r _ (by rw [← hr]; rfl))

end words

/-- A mask of one lane. -/
theorem getLsbD_and_two_pow (p : Word) (n : Nat) {k : Nat} (hk : k < 64) :
    (p &&& BitVec.ofNat 64 (2 ^ n)).getLsbD k = true ↔ k = n ∧ p.getLsbD k = true := by
  rw [BitVec.getLsbD_and, BitVec.getLsbD_ofNat, Nat.testBit_two_pow, decide_eq_true hk, Bool.true_and, Bool.and_eq_true,
    decide_eq_true_eq, and_comm, eq_comm]

/-- Settles O17: the words are `State.laneOp` or `State.lane1`, but for `vmov.x`, which is whole, and `vmov.i`, which writes one lane. -/
theorem vectorMoves : Obligations.VectorMoves := by
  unfold Obligations.VectorMoves
  intro h up d a b c sa sd p n ln s x rot srcs moves below
  refine ⟨?scalar, ?lane, lanewise_of_lane1 (f := id) (exec_vmov h (.mov d a) s), ?extract, fun hi => ?insert,
    lanewise_of_laneOp (exec_vperm ..) fun _ _ => rfl, ?rot, ?slide,
    lanewise_of_laneOp (exec_vcompact ..) fun k _ => ?compact, lanewise_of_laneOp (exec_vexpand ..) fun k _ => ?expand⟩
  case scalar =>
    have he := exec_vbcast h d (.scalar sa) s
    simp only [execVbcast] at he
    exact lanewise_of_laneOp he fun _ _ => rfl
  case lane =>
    have he := exec_vbcast h d (.lane a ln) s
    simp only [execVbcast] at he
    exact lanewise_of_laneOp he fun _ _ => rfl
  case extract =>
    have he := exec_vmov h (.extract sd a ln) s
    simp only [execVmov] at he
    exact computes_scalarOp s _ h 3 _ [] sd _ _ he rfl
  case insert =>
    have he := exec_vmov h (.insert d sa ln) s
    simp only [execVmov] at he
    obtain ⟨t, hexec, hret, hlf, hother, hlanes⟩ := completes_of_writesLanes he rfl (fun k hk _ => lane_ofLanes _ k hk) hi
    refine ⟨t, hexec, hret, hlf, hother, fun k hk => (hlanes k hk).trans ?_⟩
    simp only [getLsbD_and_two_pow _ _ hk]
    rfl
  case rot => cases n <;> exact lanewise_of_laneOp (exec_vrot ..) fun _ _ => rfl
  case slide => cases n <;> exact lanewise_of_laneOp (exec_vslide ..) fun _ _ => rfl
  case compact =>
    change ((match (lanesOf (selP s p))[k]? with | some j => x j | none => 0), (0 : FFlags)) =
      ((((lanesOf (selP s p))[k]?).map x).getD 0, 0)
    cases (lanesOf (selP s p))[k]? <;> rfl
  case expand =>
    have hbelow : onesBelow (selP s p) k = below k := List.countP_eq_length_filter
    exact congrArg (fun n => (if (selP s p).getLsbD k = true then x n else 0, (0 : FFlags))) hbelow

/-- Settles O19: `vbmand` writes one predicate register, and the other two are `State.laneOp`. -/
theorem sparseWords : Obligations.SparseWords := by
  unfold Obligations.SparseWords
  intro h p f d a src s pair one
  refine ⟨?bmand, lanewise_of_laneOp (exec_vpopc ..) fun _ _ => rfl, ?pfx⟩
  case bmand =>
    have he := exec_vbmand h p f s
    cases f <;>
    · simp only [execVbmand] at he
      exact computes_of_writes he rfl (writesReg_writeP s h (some 3) p _ _ rfl)
  case pfx =>
    have he := exec_vpfx h d src s
    cases src <;>
    · simp only [execVpfx] at he
      exact lanewise_of_laneOp he fun _ _ => rfl

/-- The low bits of a predicate that `pset` sets (R194). -/
theorem getLsbD_lowPred (n : Nat) {k : Nat} (hk : k < 64) : (lowPred n).getLsbD k = decide (k < n) := by
  rw [lowPred, BitVec.getLsbD_ofNat, Nat.testBit_two_pow_sub_one, decide_eq_true hk, Bool.true_and]
  exact decide_eq_decide.2 (by omega)

theorem lowPred_eq {n : Nat} {r : Word} (hr : ∀ k < 64, r.getLsbD k = decide (k < n)) : lowPred n = r :=
  BitVec.eq_of_getLsbD_eq fun k hk => (getLsbD_lowPred n hk).trans (hr k hk).symm

/-- Settles O21: the words are `State.predOp`. -/
theorem predicateWords : Obligations.PredicateWords := by
  unfold Obligations.PredicateWords
  intro h d a b sd sa n s x y two low
  have hset := exec_pset h d (s := s)
  simp only [execPset] at hset
  exact ⟨computes_predOp (exec_pand ..) rfl, computes_predOp (exec_por ..) rfl, computes_predOp (exec_pxor ..) rfl,
    computes_predOp (exec_pnot ..) rfl, computes_predOp_scalar (exec_pcnt ..) (if_pos rfl),
    computes_predOp_scalar (exec_pcnt ..) (if_neg Bool.false_ne_true),
    fun ⟨hle, hzero, hone⟩ => computes_predOp_scalar (exec_pfirst ..) (trailingZeros_eq hle hzero hone),
    fun k r hr => computes_predOp (hset (.imm k)) (lowPred_eq hr), fun r hr => computes_predOp (hset (.count sa)) (lowPred_eq hr),
    computes_predOp (hset (.bits sa)) rfl⟩

end Sys2Proof.Claims
end

section

/-! ## O20: conversions -/

namespace Sys2Proof.Machine

variable {s : State} {i : Instr} {h : Hdr}

/-- A word's effect counts at the state that issues it only. -/
theorem State.issue_congr {u : Use} {eff eff' : State → Outcome} (he : eff s = eff' s) : s.issue i h u eff = s.issue i h u eff' := by
  simp only [State.issue, he]

/-- A conversion that does not trap is a lane-wise word of latency 4 (R138, R188). -/
theorem State.convOp_eq_laneOp {t : CvtTy} {srcs : List (Reg × Fin 4)} {d : VReg} {rm : Rnd} {n : Nat}
    {f : Front → RMode → Nat → Lane × FFlags} (ht : ¬ (t = .tag 7 ∧ s.me.live.front.predicate h ≠ 0)) :
    s.convOp i h t srcs d rm n f = s.laneOp i h 4 srcs [] d rm n f :=
  State.issue_congr (if_neg ht)

theorem tagWidth_lanes (t : Fin 8) : tagWidth t * (32 / tagWidth t) = 32 := by revert t; decide

/-- A mask of n bits from bit m on. -/
theorem getLsbD_and_ones (p : Word) (m n : Nat) {k : Nat} (hk : k < 64) :
    (p &&& BitVec.ofNat 64 ((2 ^ n - 1) * 2 ^ m)).getLsbD k = true ↔ m ≤ k ∧ k < m + n ∧ p.getLsbD k = true := by
  have hbit : ((2 ^ n - 1) * 2 ^ m).testBit k = (decide (m ≤ k) && decide (k - m < n)) := by
    rw [Nat.testBit_mul_two_pow, Nat.testBit_two_pow_sub_one]
  rw [BitVec.getLsbD_and, BitVec.getLsbD_ofNat, hbit, decide_eq_true hk, Bool.true_and]
  simp only [Bool.and_eq_true, decide_eq_true_eq]
  constructor
  · rintro ⟨hp, hm, hn⟩
    exact ⟨hm, by omega, hp⟩
  · rintro ⟨hm, hn, hp⟩
    exact ⟨hp, hm, by omega⟩

end Sys2Proof.Machine

namespace Sys2Proof.Claims

open Sys2Proof.Machine

section dispatch
variable (h : Hdr) (up sat : Bool) (rm : Rnd) (ct : CvtTy) (t part : Fin 8) (d a : VReg) (b sd : SReg) (c : PReg) (s : State)

theorem exec_vcvt : exec (.vcvt h up rm sat ct d a) s = execVcvt h up rm sat ct d a s := rfl
theorem exec_vquant : exec (.vquant h rm sat t d a b) s = execVquant h rm sat t d a b s := rfl
theorem exec_vdequant : exec (.vdequant h rm t d a b) s = execVdequant h rm t d a b s := rfl
theorem exec_vunpack : exec (.vunpack h t part d a) s = execVunpack h t part d a s := rfl
theorem exec_vrnd : exec (.vrnd h rm d a) s = execVrnd h rm d a s := rfl
theorem exec_vquantScale : exec (.vquantScale h t sd a c) s = execVquantScale h t sd a c s := rfl
theorem exec_vpack : exec (.vpack h t part d a) s = execVpack h t part d a s := rfl

end dispatch

section words
variable {s : State} {i : Instr} {h : Hdr} {u : Use} {eff : State → Outcome}

/-- A word whose effect is the trap FORMAT where it stands. -/
theorem traps_format (he : exec i s = s.issue i h u eff) (heff : eff s = .next (s.trapHere .format (wordInfo i))) (hi : Issues s h u) :
    Traps s s i .format (BitVec.ofNat 64 (encode i)) := by
  rw [trapHere_eq rfl rfl] at heff
  exact (exec_of_issues he hi).trans heff

/-- A conversion computes its lanes, or raises FORMAT for a type of 0xF with a lane active (R138). -/
theorem convOp_spec {ty : CvtTy} {srcs : List (Reg × Fin 4)} {d : VReg} {rm : Rnd} {n : Nat}
    {f : Front → RMode → Nat → Lane × FFlags} {g : Nat → Lane × FFlags} (he : exec i s = s.convOp i h ty srcs d rm n f)
    (hg : ∀ k, f (fe s) (roundMode rm (fe s).regs.round) k = g k) :
    (ty ≠ .tag 7 ∨ activeP s h = 0 → Lanewise s i h (useV srcs (.v d) 4) d g
        (stepLanes (roundMode rm (fe s).regs.round) (activeP s h) n (fe s).regs.lfsr)) ∧
      (ty = .tag 7 → activeP s h ≠ 0 → Issues s h (useV srcs (.v d) 4) → Traps s s i .format (BitVec.ofNat 64 (encode i))) := by
  refine ⟨fun hok => ?lanes, fun hty hp hi => traps_format he (if_pos ⟨hty, hp⟩) hi⟩
  have hno : ¬ (ty = .tag 7 ∧ activeP s h ≠ 0) := fun ⟨hty, hp⟩ => hok.elim (· hty) hp
  exact lanewise_of_laneOp (he.trans (State.convOp_eq_laneOp hno)) fun k _ => hg k

end words

/-- Settles O20: the lane-wise conversions are `State.convOp`; `vpack` writes the active lanes of its part. -/
theorem conversions : Obligations.Conversions := by
  unfold Obligations.Conversions
  intro h up sat rm ct t part d a b sd c s m y x e lf conv one two w
  refine ⟨convOp_spec (exec_vcvt ..) fun _ => rfl, convOp_spec (exec_vquant ..) fun _ => rfl,
    convOp_spec (exec_vdequant ..) fun _ => rfl, convOp_spec (exec_vunpack ..) fun _ => rfl,
    lanewise_of_laneOp (exec_vrnd ..) fun _ _ => rfl, ?scale, fun hi => ?pack⟩
  case scale =>
    have he := exec_vquantScale h t a sd c s
    exact ⟨fun ht => computes_of_writes he (if_neg ht) (writesReg_writeS s h (some 4) sd _ _ rfl),
      fun ht hi => traps_format he (if_pos ht) hi⟩
  case pack =>
    have he := exec_vpack h t part d a s
    refine ⟨fun ht hp => traps_format he (if_pos ⟨ht, hp⟩) hi, fun hok => ?_⟩
    have hno : ¬ (t = 7 ∧ activeP s h ≠ 0) := fun ⟨ht, hp⟩ => hok.elim (· ht) hp
    obtain ⟨t', hexec, hret, hlf, hother, hlanes⟩ :=
      completes_of_writesLanes he (if_neg hno) (fun k hk _ => lane_ofLanes _ k hk) hi
    refine ⟨t', hexec, hret, hlf, hother, fun k hk => ?_⟩
    have hend : 2 * w * (part.val + 1) = 2 * w * part.val + 2 * w := Nat.mul_succ ..
    have hmask := getLsbD_and_ones (activeP s h) (2 * w * part.val) (2 * w) hk
    rw [hend]
    refine ⟨fun hin j hj => ?_, fun hout => (hlanes k hk).trans (if_neg (mt hmask.1 hout))⟩
    obtain ⟨hlo, hhi, hp⟩ := hin
    rw [((hlanes k hk).trans (if_pos (hmask.2 ⟨hlo, hhi, hp⟩))).trans (if_pos ⟨hlo, hhi⟩)]
    exact (elem_packLane (tagWidth_lanes t) _ hj).trans (Nat.mod_mod _ _)

end Sys2Proof.Claims
end

section

/-! ## O18: trees, scans and extremes of the selected lanes -/

namespace Sys2Proof.Machine

/-- Any fold by `max` from a lower bound: it is a bound, and one of its values (R184). -/
theorem foldl_max_spec {α : Type} [LinearOrder α] (val : Nat → α) (l : List Nat) (lo : α) :
    lo ≤ l.foldl (fun n k => max n (val k)) lo ∧ (∀ k ∈ l, val k ≤ l.foldl (fun n k => max n (val k)) lo) ∧
      (l.foldl (fun n k => max n (val k)) lo = lo ∨ ∃ k ∈ l, l.foldl (fun n k => max n (val k)) lo = val k) := by
  induction l generalizing lo with
  | nil => simp
  | cons j l ih =>
    obtain ⟨hlo, hall, hmem⟩ := ih (max lo (val j))
    simp only [List.foldl_cons, List.forall_mem_cons, List.exists_mem_cons_iff]
    refine ⟨(le_max_left ..).trans hlo, ⟨(le_max_right ..).trans hlo, hall⟩, ?_⟩
    rcases hmem with hmem | hmem
    · rcases max_choice lo (val j) with hm | hm
      · exact Or.inl (hmem.trans hm)
      · exact Or.inr (Or.inl (hmem.trans hm))
    · exact Or.inr (Or.inr hmem)

/-- The number of a lane, unsigned or signed. -/
def laneInt (u : Bool) (x : Lane) : Int := if u then (x.toNat : Int) else x.toInt
/-- The least and the greatest number of a lane. -/
def laneLow (u : Bool) : Int := if u then 0 else -2 ^ 31
def laneHigh (u : Bool) : Int := if u then 2 ^ 32 - 1 else 2 ^ 31 - 1

theorem laneInt_mem (u : Bool) (x : Lane) : laneLow u ≤ laneInt u x ∧ laneInt u x ≤ laneHigh u := by
  have := x.isLt
  have := BitVec.toInt_lt (x := x)
  have := BitVec.le_toInt (x := x)
  cases u <;> simp only [laneInt, laneLow, laneHigh, if_true, Bool.false_eq_true, if_false] <;> omega

section extremes
variable (u : Bool) (x : VecWord) (m : Word)

/-- The greatest number of the selected lanes (R184). -/
theorem redExtI_max_spec :
    (laneLow u ≤ redExtI u true x m ∧ redExtI u true x m ≤ laneHigh u) ∧
      (∀ k ∈ activeLanes m, laneInt u (lane x k) ≤ redExtI u true x m) ∧
      (activeLanes m ≠ [] → ∃ k ∈ activeLanes m, redExtI u true x m = laneInt u (lane x k)) := by
  obtain ⟨hlo, hall, hmem⟩ := foldl_max_spec (fun k => laneInt u (lane x k)) (activeLanes m) (laneLow u)
  change laneLow u ≤ redExtI u true x m at hlo
  change ∀ k ∈ activeLanes m, laneInt u (lane x k) ≤ redExtI u true x m at hall
  change redExtI u true x m = laneLow u ∨ ∃ k ∈ activeLanes m, redExtI u true x m = laneInt u (lane x k) at hmem
  refine ⟨⟨hlo, ?_⟩, hall, fun hne => ?_⟩
  · rcases hmem with hmem | ⟨k, -, hk⟩
    · rw [hmem]; cases u <;> decide
    · exact hk.trans_le (laneInt_mem u _).2
  · rcases hmem with hmem | hmem
    · obtain ⟨k, hk⟩ := List.exists_mem_of_ne_nil _ hne
      exact ⟨k, hk, le_antisymm (hmem.trans_le (laneInt_mem u _).1) (hall k hk)⟩
    · exact hmem

/-- The least number of the selected lanes (R184): the greatest one of the opposite order. -/
theorem redExtI_min_spec :
    (laneLow u ≤ redExtI u false x m ∧ redExtI u false x m ≤ laneHigh u) ∧
      (∀ k ∈ activeLanes m, redExtI u false x m ≤ laneInt u (lane x k)) ∧
      (activeLanes m ≠ [] → ∃ k ∈ activeLanes m, redExtI u false x m = laneInt u (lane x k)) := by
  obtain ⟨hhi, hall, hmem⟩ := foldl_max_spec (α := ℤᵒᵈ) (fun k => laneInt u (lane x k)) (activeLanes m) (laneHigh u)
  change redExtI u false x m ≤ laneHigh u at hhi
  change ∀ k ∈ activeLanes m, redExtI u false x m ≤ laneInt u (lane x k) at hall
  change redExtI u false x m = laneHigh u ∨ ∃ k ∈ activeLanes m, redExtI u false x m = laneInt u (lane x k) at hmem
  refine ⟨⟨?_, hhi⟩, hall, fun hne => ?_⟩
  · rcases hmem with hmem | ⟨k, -, hk⟩
    · rw [hmem]; cases u <;> decide
    · exact (laneInt_mem u _).1.trans_eq hk.symm
  · rcases hmem with hmem | hmem
    · obtain ⟨k, hk⟩ := List.exists_mem_of_ne_nil _ hne
      exact ⟨k, hk, le_antisymm (hall k hk) ((laneInt_mem u _).2.trans_eq hmem.symm)⟩
    · exact hmem

end extremes

/-- A number of a lane in a word reads back as itself. -/
theorem toInt_ofInt_laneRange {z : Int} (h : laneLow false ≤ z ∧ z ≤ laneHigh false) : (BitVec.ofInt 64 z).toInt = z := by
  obtain ⟨hlo, hhi⟩ := h
  simp only [laneLow, laneHigh, Bool.false_eq_true, if_false] at hlo hhi
  exact BitVec.toInt_ofInt_eq_self (by decide) (by omega) (by omega)
theorem toNat_ofInt_laneRange {z : Int} (h : laneLow true ≤ z ∧ z ≤ laneHigh true) : ((BitVec.ofInt 64 z).toNat : Int) = z := by
  obtain ⟨hlo, hhi⟩ := h
  simp only [laneLow, laneHigh, if_true] at hlo hhi
  rw [BitVec.toNat_ofInt]
  omega

section sums

/-- A sum of lanes as numbers, cut to any width. -/
theorem ofInt_sum_toInt (l : List Lane) : BitVec.ofInt 32 (l.map BitVec.toInt).sum = l.sum := by
  induction l with
  | nil => rfl
  | cons x l ih => rw [List.map_cons, List.sum_cons, List.sum_cons, BitVec.ofInt_add, ih, BitVec.ofInt_toInt]

variable (leaf : Nat → Option Lane)

/-- An absent node counts as zero. -/
theorem laneNode_succ_getD (n k : Nat) :
    (laneNode (· + ·) leaf (n + 1) k).getD 0 =
      (laneNode (· + ·) leaf n (2 * k)).getD 0 + (laneNode (· + ·) leaf n (2 * k + 1)).getD 0 := by
  rw [laneNode]
  cases laneNode (· + ·) leaf n (2 * k) <;> cases laneNode (· + ·) leaf n (2 * k + 1) <;> simp

/-- A node of the tree is the sum over the lanes below it (R183). -/
theorem laneNode_sum (n k : Nat) :
    (laneNode (· + ·) leaf n k).getD 0 = ∑ j ∈ Finset.Ico (k * 2 ^ n) (k * 2 ^ n + 2 ^ n), (leaf j).getD 0 := by
  induction n generalizing k with
  | zero => simp [laneNode]
  | succ n ih =>
    have hleft : 2 * k * 2 ^ n = k * 2 ^ (n + 1) := by ring
    have hright : (2 * k + 1) * 2 ^ n = k * 2 ^ (n + 1) + 2 ^ n := by ring
    have hend : k * 2 ^ (n + 1) + 2 ^ (n + 1) = k * 2 ^ (n + 1) + 2 ^ n + 2 ^ n := by ring
    rw [laneNode_succ_getD, ih, ih, hleft, hright, hend, Finset.sum_Ico_consecutive _ (Nat.le_add_right ..) (Nat.le_add_right ..)]

/-- A block that starts at a multiple of its size joins the sum of the lanes before it. -/
theorem sum_range_add_block {n lo : Nat} (hlo : 2 ^ n ∣ lo) :
    ∑ j ∈ Finset.range lo, (leaf j).getD 0 + (laneNode (· + ·) leaf n (lo / 2 ^ n)).getD 0 =
      ∑ j ∈ Finset.range (lo + 2 ^ n), (leaf j).getD 0 := by
  rw [laneNode_sum, Nat.div_mul_cancel hlo, Finset.range_eq_Ico, Finset.range_eq_Ico,
    Finset.sum_Ico_consecutive _ (Nat.zero_le _) (Nat.le_add_right ..)]

/-- A scan adds up all lanes to its own, block by block from the largest (R185). -/
theorem scanGo_sum (i n lo : Nat) (acc : Option Lane) (hlo : 2 ^ n ∣ lo) (hle : lo ≤ i + 1) (hlt : i + 1 < lo + 2 ^ (n + 1))
    (hacc : acc.getD 0 = ∑ j ∈ Finset.range lo, (leaf j).getD 0) :
    (scanGo (· + ·) leaf i n lo acc).getD 0 = ∑ j ∈ Finset.range (i + 1), (leaf j).getD 0 := by
  induction n generalizing lo acc with
  | zero =>
    have hblock := sum_range_add_block leaf hlo
    unfold scanGo
    by_cases htake : lo + 2 ^ 0 ≤ i + 1
    · have hi : i + 1 = lo + 2 ^ 0 := by omega
      simp only [if_pos htake]
      rw [hi, ← hblock, ← hacc]
      cases acc <;> cases laneNode (· + ·) leaf 0 (lo / 2 ^ 0) <;> simp
    · have hi : i + 1 = lo := by omega
      simp only [if_neg htake]
      rw [hi, hacc]
  | succ n ih =>
    have hblock := sum_range_add_block leaf hlo
    unfold scanGo
    by_cases htake : lo + 2 ^ (n + 1) ≤ i + 1
    · simp only [if_pos htake]
      have hdvd : 2 ^ n ∣ lo + 2 ^ (n + 1) := (Nat.pow_dvd_pow 2 (Nat.le_succ n)).trans (Nat.dvd_add hlo (dvd_refl _))
      refine ih _ _ hdvd htake (by rw [Nat.pow_succ] at hlt; omega) ?_
      rw [← hblock, ← hacc]
      cases acc <;> cases laneNode (· + ·) leaf (n + 1) (lo / 2 ^ (n + 1)) <;> simp
    · simp only [if_neg htake]
      exact ih _ _ ((Nat.pow_dvd_pow 2 (Nat.le_succ n)).trans hlo) hle (by omega) hacc

end sums

end Sys2Proof.Machine
end

section

/-! ## O18: the ranking of `vtopk`

A lane's rank is the place of its number in one linear order, NaN first (R186); insertion keeps equal lanes in their order. -/

namespace Sys2Proof.Machine

open Sys2Proof.Claims

/-- The integer of a finite value, aligned to an exponent at or below its own, stands for that value. -/
theorem atExp_mul (n : Bool) (m : Nat) {e e0 : Int} (he : e0 ≤ e) : (atExp n m e e0 : ℚ) * 2 ^ e0 = ratOf n m e := by
  have hexp : (2 : ℚ) ^ (e - e0).toNat * 2 ^ e0 = 2 ^ e := by
    rw [← zpow_natCast, ← zpow_add₀ (by norm_num), Int.toNat_of_nonneg (by omega), Int.sub_add_cancel]
  cases n <;> simp only [atExp, ratOf, if_true, Bool.false_eq_true, if_false] <;> push_cast <;> rw [← hexp] <;> ring

/-- The place of an exact value in the order of ranks: minus infinity, the numbers, infinity, NaN. -/
def Num.rank : Num → ℤ ×ₗ ℚ
  | .nan => toLex (2, 0)
  | .inf n => toLex (if n then -1 else 1, 0)
  | .fin n m e => toLex (0, ratOf n m e)

theorem atExp_lt_iff (n k : Bool) (m l : Nat) (e f : Int) :
    atExp n m e (min e f) < atExp k l f (min e f) ↔ ratOf n m e < ratOf k l f := by
  rw [← atExp_mul n m (min_le_left e f), ← atExp_mul k l (min_le_right e f), mul_lt_mul_iff_left₀ (by positivity), Int.cast_lt]

/-- Values that are not NaN compare as their ranks. -/
theorem Num.lt_iff_rank {a b : Num} (ha : a.isNan = false) (hb : b.isNan = false) : a.lt b = true ↔ a.rank < b.rank := by
  cases a with
  | nan => simp [Num.isNan] at ha
  | inf n =>
    cases b with
    | nan => simp [Num.isNan] at hb
    | inf k => cases n <;> cases k <;> simp [Num.lt, Num.rank, Prod.Lex.toLex_lt_toLex]
    | fin k l f => cases n <;> simp [Num.lt, Num.rank, Prod.Lex.toLex_lt_toLex]
  | fin n m e =>
    cases b with
    | nan => simp [Num.isNan] at hb
    | inf k => cases k <;> simp [Num.lt, Num.rank, Prod.Lex.toLex_lt_toLex]
    | fin k l f => simp [Num.lt, Num.rank, Prod.Lex.toLex_lt_toLex, atExp_lt_iff]

/-- NaN has the highest rank. -/
theorem Num.rank_lt_nan {a : Num} (ha : a.isNan = false) : a.rank < Num.rank .nan := by
  cases a with
  | nan => simp [Num.isNan] at ha
  | inf n => cases n <;> simp [Num.rank, Prod.Lex.toLex_lt_toLex]
  | fin n m e => simp [Num.rank, Prod.Lex.toLex_lt_toLex]

theorem Num.isNan_iff {a : Num} : a.isNan = true ↔ a = .nan := by cases a <;> simp [Num.isNan]

/-- The integer by which a lane of integers ranks: its value, or its magnitude. -/
def laneKey (mag : Bool) (x : Lane) : Int := if mag then (x.toInt.natAbs : Int) else x.toInt

/-- The rank of a lane by R186. -/
def laneRank (flt mag : Bool) (x : Lane) : ℤ ×ₗ ℚ :=
  if flt then (decF32 (if mag then x &&& 0x7FFFFFFF else x)).rank
  else toLex (0, (laneKey mag x : ℚ))

/-- One lane ranks before another where its rank is higher. -/
theorem ranksBefore_iff (flt mag : Bool) (x y : Lane) : ranksBefore flt mag x y = true ↔ laneRank flt mag y < laneRank flt mag x := by
  cases flt with
  | false =>
    change decide (laneKey mag y < laneKey mag x) = true ↔ _
    simp [laneRank, Prod.Lex.toLex_lt_toLex]
  | true =>
    simp only [ranksBefore, laneRank, if_true]
    generalize decF32 (if mag = true then x &&& 0x7FFFFFFF else x) = a
    generalize decF32 (if mag = true then y &&& 0x7FFFFFFF else y) = b
    cases ha : a.isNan
    · cases hb : b.isNan
      · simp only [Bool.false_eq_true, if_false]
        exact Num.lt_iff_rank hb ha
      · have := Num.rank_lt_nan ha
        rw [Num.isNan_iff.1 hb]
        simp [this.le]
    · rw [Num.isNan_iff.1 ha]
      cases hb : b.isNan
      · simp [Num.rank_lt_nan hb]
      · rw [Num.isNan_iff.1 hb]
        simp

section insertion
variable {α : Type} [LinearOrder α] {before : Nat → Nat → Bool} {rank : Nat → α}

/-- i stands before j in a stable ranking: j does not rank before i, and where neither does, i is the lower lane. -/
def RankedBefore (before : Nat → Nat → Bool) (i j : Nat) : Prop := before j i = false ∧ (before i j = true ∨ i < j)

theorem insertRank_perm (before : Nat → Nat → Bool) (i : Nat) (l : List Nat) : (insertRank before i l).Perm (i :: l) := by
  induction l with
  | nil => exact .refl _
  | cons j l ih =>
    rw [insertRank]
    split
    · exact .refl _
    · exact (ih.cons j).trans (.swap i j l)

/-- Insertion of a lane above all the ranked ones keeps the ranking (R186). -/
theorem insertRank_ranked (hb : ∀ i j, before i j = true ↔ rank j < rank i) {i : Nat} {l : List Nat}
    (hl : l.Pairwise (RankedBefore before)) (hi : ∀ j ∈ l, j < i) : (insertRank before i l).Pairwise (RankedBefore before) := by
  have hnot (i j : Nat) : before i j = false ↔ rank i ≤ rank j := by rw [← not_lt, ← hb, Bool.not_eq_true]
  induction l with
  | nil => exact List.pairwise_singleton ..
  | cons j l ih =>
    obtain ⟨hj, hl'⟩ := List.pairwise_cons.1 hl
    rw [insertRank]
    split
    · next hij =>
      refine List.pairwise_cons.2 ⟨fun k hk => ?_, hl⟩
      have hjk : rank k ≤ rank j := by
        rcases List.mem_cons.1 hk with rfl | hk
        · exact le_rfl
        · exact (hnot k j).1 (hj k hk).1
      have hki := hjk.trans_lt ((hb i j).1 hij)
      exact ⟨(hnot k i).2 hki.le, Or.inl ((hb i k).2 hki)⟩
    · next hij =>
      refine List.pairwise_cons.2 ⟨fun k hk => ?_, ih hl' fun k hk => hi k (List.mem_cons_of_mem _ hk)⟩
      rcases List.mem_cons.1 ((insertRank_perm before i l).subset hk) with rfl | hk
      · exact ⟨Bool.eq_false_iff.2 hij, Or.inr (hi j (List.mem_cons_self ..))⟩
      · exact hj k hk

/-- Lanes inserted in ascending order make a stable ranking of them all. -/
theorem foldl_insertRank (hb : ∀ i j, before i j = true ↔ rank j < rank i) {l r : List Nat} (hl : l.Pairwise (· < ·))
    (hr : r.Pairwise (RankedBefore before)) (hlr : ∀ j ∈ r, ∀ i ∈ l, j < i) :
    (l.foldl (fun r i => insertRank before i r) r).Perm (l ++ r) ∧
      (l.foldl (fun r i => insertRank before i r) r).Pairwise (RankedBefore before) := by
  induction l generalizing r with
  | nil => exact ⟨.refl _, hr⟩
  | cons i l ih =>
    obtain ⟨hi, hl'⟩ := List.pairwise_cons.1 hl
    have hperm := insertRank_perm before i r
    obtain ⟨hp, hranked⟩ := ih hl' (insertRank_ranked hb hr fun j hj => hlr j hj i (List.mem_cons_self ..)) fun j hj k hk => by
      rcases List.mem_cons.1 (hperm.subset hj) with rfl | hj
      · exact hi k hk
      · exact hlr j hj k (List.mem_cons_of_mem _ hk)
    exact ⟨hp.trans ((hperm.append_left l).trans List.perm_middle), hranked⟩

end insertion

/-- The ranking of `vtopk` holds the selected lanes, stably sorted by rank (R186). -/
theorem ranking_spec (flt mag : Bool) (x : VecWord) (m : Word) :
    (ranking flt mag x m).Perm (activeLanes m) ∧
      (ranking flt mag x m).Pairwise (RankedBefore fun i j => ranksBefore flt mag (lane x i) (lane x j)) := by
  have h := foldl_insertRank (rank := fun i => laneRank flt mag (lane x i))
    (fun i j => ranksBefore_iff flt mag (lane x i) (lane x j)) (activeLanes_pairwise m) List.Pairwise.nil (by simp)
  rwa [List.append_nil] at h

end Sys2Proof.Machine
end

section

/-! ## O18: reductions, scans and top-k -/

namespace Sys2Proof.Claims

open Sys2Proof.Machine

section dispatch
variable (h : Hdr) (t : RedTy) (e : ExtTy) (flt mag idx : Bool) (k : Fin 65) (sd : SReg) (d a : VReg) (p : PReg) (s : State)

theorem exec_vredsum : exec (.vredsum h t sd a p) s = execVredsum h t sd a p s := rfl
theorem exec_vredmax : exec (.vredmax h e sd a p) s = execVredmax h e sd a p s := rfl
theorem exec_vredmin : exec (.vredmin h e sd a p) s = execVredmin h e sd a p s := rfl
theorem exec_vscan : exec (.vscan h flt d a p) s = execVscan h flt d a p s := rfl
theorem exec_vtopk : exec (.vtopk h flt mag idx k d a p) s = execVtopk h flt mag idx k d a p s := rfl

end dispatch

/-- A reduction writes one scalar register and sets its flags (R184). -/
theorem computes_reduceOp {s : State} {i : Instr} {h : Hdr} {sd : SReg} {a : VReg} {p : PReg} {f : VecWord → Word → Word × FFlags}
    (he : exec i s = s.reduceOp i h sd a p f) :
    let r := f ((fe s).srcV a h.pda) (selP s p)
    Computes s i h (useS (vA h a) (.s sd) 8 [.p p]) (.s sd) (wordOf r.1) r.2 :=
  computes_of_writes he rfl (writesReg_writeS s h (some 8) sd _ _ rfl)

theorem redExt_flags (e : ExtTy) (larger : Bool) (x : VecWord) (m : Word) : (redExt e larger x m).2 = 0 := by cases e <;> rfl

/-- An integer extreme lies in the range of its type, and so reads back from the register. -/
theorem redExt_i32_toInt (larger : Bool) (x : VecWord) (m : Word) :
    (redExt .i32 larger x m).1.toInt = redExtI false larger x m := by
  cases larger
  · exact toInt_ofInt_laneRange (redExtI_min_spec false x m).1
  · exact toInt_ofInt_laneRange (redExtI_max_spec false x m).1
theorem redExt_u32_toNat (larger : Bool) (x : VecWord) (m : Word) :
    ((redExt .u32 larger x m).1.toNat : Int) = redExtI true larger x m := by
  cases larger
  · exact toNat_ofInt_laneRange (redExtI_min_spec true x m).1
  · exact toNat_ofInt_laneRange (redExtI_max_spec true x m).1

theorem redSum_i32 (x : VecWord) (m : Word) :
    redSum .i32 x m = (BitVec.ofInt 64 ((activeLanes m).map fun k => (lane x k).toInt).sum, 0) := by
  rw [List.sum_eq_foldl, List.foldl_map]
  rfl

/-- The integer scan at lane i is the sum of the selected lanes up to i (R185). -/
theorem scanGo_i32 (x : Nat → Lane) (m : Word) {i : Nat} (hi : i < 64) :
    (scanGo (· + ·) (fun j => if m.getLsbD j then some (x j) else none) i 6 0 none).getD 0 =
      BitVec.ofInt 32 (((lanesOf m).filter fun j => decide (j ≤ i)).map fun k => (x k).toInt).sum := by
  rw [scanGo_sum _ i 6 0 none (dvd_zero _) (by omega) (by omega) rfl]
  have hsel : ((lanesOf m).filter fun j => decide (j ≤ i)).toFinset = (Finset.range (i + 1)).filter fun j => m.getLsbD j = true := by
    ext j
    simp only [lanesOf, List.mem_toFinset, List.mem_filter, List.mem_range, Finset.mem_filter, Finset.mem_range, decide_eq_true_eq]
    exact ⟨fun ⟨⟨_, hm⟩, hji⟩ => ⟨by omega, hm⟩, fun ⟨hji, hm⟩ => ⟨⟨by omega, hm⟩, by omega⟩⟩
  have hnodup : ((lanesOf m).filter fun j => decide (j ≤ i)).Nodup := (List.nodup_range.filter _).filter _
  have hmap : (((lanesOf m).filter fun j => decide (j ≤ i)).map fun k => (x k).toInt) =
      (((lanesOf m).filter fun j => decide (j ≤ i)).map x).map BitVec.toInt := by rw [List.map_map]; rfl
  rw [hmap, ofInt_sum_toInt, ← List.sum_toFinset x hnodup, hsel, Finset.sum_filter]
  exact Finset.sum_congr rfl fun j _ => by split <;> rfl

/-- A mask of the lowest k lanes. -/
theorem getLsbD_and_low (p : Word) (k : Nat) {n : Nat} (hn : n < 64) :
    (p &&& BitVec.ofNat 64 (2 ^ k - 1)).getLsbD n = true ↔ n < k ∧ p.getLsbD n = true := by
  simpa [and_comm] using getLsbD_and_ones p 0 k hn

/-- Settles O18: reductions are `State.reduceOp`, scans `State.laneOp`, and `vtopk` writes the lanes of `ranking`. -/
theorem reductionsScansAndTopK : Obligations.ReductionsScansAndTopK := by
  unfold Obligations.ReductionsScansAndTopK
  refine ⟨fun h t e sd d a p s => ?reductions, fun h flt mag idx k d a c s => ?topk⟩
  case reductions =>
    intro v x sel u uv sum
    refine ⟨computes_reduceOp (exec_vredsum ..), redSum_i32 .., ?max, ?min, fun k hk => ?bounds, fun hne => ?attained, ?scanF, ?scanI⟩
    case max =>
      rw [← redExt_flags e true v (selP s p)]
      exact computes_reduceOp (exec_vredmax ..)
    case min =>
      rw [← redExt_flags e false v (selP s p)]
      exact computes_reduceOp (exec_vredmin ..)
    case bounds =>
      obtain ⟨-, hmax, -⟩ := redExtI_max_spec false v (selP s p)
      obtain ⟨-, hmin, -⟩ := redExtI_min_spec false v (selP s p)
      obtain ⟨-, hmaxu, -⟩ := redExtI_max_spec true v (selP s p)
      obtain ⟨-, hminu, -⟩ := redExtI_min_spec true v (selP s p)
      refine ⟨?_, ?_, Int.ofNat_le.1 ?_, Int.ofNat_le.1 ?_⟩
      · exact (hmax k hk).trans_eq (redExt_i32_toInt true v _).symm
      · exact (redExt_i32_toInt false v _).trans_le (hmin k hk)
      · exact (hmaxu k hk).trans_eq (redExt_u32_toNat true v _).symm
      · exact (redExt_u32_toNat false v _).trans_le (hminu k hk)
    case attained =>
      obtain ⟨-, -, hmax⟩ := redExtI_max_spec false v (selP s p)
      obtain ⟨-, -, hmin⟩ := redExtI_min_spec false v (selP s p)
      obtain ⟨k, hk, hkmax⟩ := hmax hne
      obtain ⟨j, hj, hjmin⟩ := hmin hne
      exact ⟨k, hk, j, hj, (redExt_i32_toInt true v _).trans hkmax, (redExt_i32_toInt false v _).trans hjmin⟩
    case scanF => exact lanewise_of_laneOp (exec_vscan ..) fun _ _ => if_pos rfl
    case scanI =>
      refine lanewise_of_laneOp (exec_vscan ..) fun k hk => (if_neg Bool.false_ne_true).trans ?_
      exact congrArg (·, 0) (scanGo_i32 x (selP s p) hk)
  case topk =>
    intro order before
    obtain ⟨hperm, hranked⟩ := ranking_spec flt mag ((fe s).srcV a h.pda) (selP s c)
    refine ⟨hperm, hranked, fun hi => ?_⟩
    obtain ⟨t, hexec, hret, hlf, hother, hlanes⟩ :=
      completes_of_writesLanes (exec_vtopk ..) rfl (fun k hk _ => lane_ofLanes _ k hk) hi
    refine ⟨t, hexec, hret, hlf, hother, fun n hn => (hlanes n hn).trans ?_⟩
    simp only [getLsbD_and_low _ _ hn]
    rfl

end Sys2Proof.Claims
end

section

/-! ## O23, O25: a word's effects before it retires or waits

Before a word retires or waits it may ask for a walk, join a stream, or pop and push tokens. Of the front end that issues this changes
the tags alone, and no byte. -/

namespace Sys2Proof.Claims

open Sys2Proof.Machine

/-- The state m is s after effects of the word that issues, whose front end still stands at the word. -/
structure FrontStands (s m : State) : Prop where
  cur : m.cur = s.cur
  front : ∃ ts, fe m = { fe s with tags := ts }
  bytes : SameBytes s m

theorem FrontStands.refl (s : State) : FrontStands s s := ⟨rfl, ⟨_, rfl⟩, .refl s⟩

theorem FrontStands.trans {s t u : State} (h : FrontStands s t) (k : FrontStands t u) : FrontStands s u := by
  obtain ⟨_, hst⟩ := h.front
  obtain ⟨ts, htu⟩ := k.front
  exact ⟨k.cur.trans h.cur, ⟨ts, by rw [htu, hst]⟩, h.bytes.trans k.bytes⟩

theorem AsksAtMost.frontStands {s m : State} (h : AsksAtMost s m) : FrontStands s m := ⟨h.cur, ⟨_, h.fe⟩, h.bytes⟩

/-- Entries of the streams of the core that issues may move. -/
theorem FrontStands.of_moves {s : State} {f : Core → Core} (h : ∀ k : Core, k.StreamsMove (f k)) :
    FrontStands s (s.modCore s.cur f) := by
  obtain ⟨ts, hf⟩ := (h s.me).front
  exact ⟨rfl, ⟨ts, (fe_modCore s f).trans hf⟩, .modCore _ _ _ fun k => (h k).buf⟩

/-- The same of entries that move on a condition only. -/
theorem FrontStands.of_moves_if {s m : State} {f : Core → Core} (hm : FrontStands s m) (h : ∀ k : Core, k.StreamsMove (f k)) (p : Prop)
    [Decidable p] : FrontStands s (if p then m.modCore s.cur f else m) := by
  split
  case isTrue => exact hm.trans (hm.cur ▸ .of_moves h)
  case isFalse => exact hm

/-- A word without register result retires after its effects; its tag may stay open (R133). -/
theorem FrontStands.justRetires {s m : State} {i : Instr} {h : Hdr} {held : Bool} (hm : FrontStands s m)
    (he : exec i s = .next (m.retire h none { holdTag := held })) : JustRetires s m i := by
  obtain ⟨ts, hfe⟩ := hm.front
  have hret := retired_after s m hm.cur (congrArg (·.at_.pc) hfe) (congrArg (·.at_.po) hfe) hm.bytes h none { holdTag := held }
  exact ⟨_, he, hret, fun g => (writesNone_retire m h none _ rfl g).trans (congrArg (·.regs.get g) hfe)⟩

end Sys2Proof.Claims

end

section

/-! ## O23: the stores -/

namespace Sys2Proof.Claims

open Sys2Proof.Machine

theorem joinStores_frontStands (s : State) (act : StoreAct) (rel : Option Scope) (tag : Option TagId) (need : Option Need) :
    FrontStands s (joinStores s act rel tag need) :=
  .of_moves fun k => k.pushStore_moves s.cur s.cycle act rel tag 0 need

/-- A word for whose bytes the hold-back buffer has room joins the store stream and retires (R27, R98). -/
theorem storeWord_eq {m : State} {act : StoreAct} (hroom : m.me.holdRoom (queuedBytes m.me + actBytes act) = true) (h : Hdr)
    (rel : Option Scope) (need : Option Need) :
    ∃ held, m.storeWord h act rel need = .next ((joinStores m act rel h.tag need).retire h none { holdTag := held }) := by
  refine ⟨_, if_neg ?_⟩
  rw [Bool.not_eq_true', Bool.not_eq_false]
  cases act <;> exact hroom

theorem joinsStores_of_storeWord {s m : State} {i : Instr} {h : Hdr} {act : StoreAct} {rel : Option Scope} {need : Option Need}
    (hm : AsksAtMost s m) (he : exec i s = m.storeWord h act rel need) : JoinsStores s i h act rel m need := by
  intro hroom
  obtain ⟨ms, hme⟩ := hm.me
  obtain ⟨held, hstore⟩ := storeWord_eq (m := m) (by rw [hme]; exact hroom) h rel need
  have hjoin : FrontStands s (joinStores m act rel h.tag need) := hm.frontStands.trans (joinStores_frontStands ..)
  rw [← hm.cur, ← hm.cycle]
  exact hjoin.justRetires (he.trans hstore)

/-- A word whose accesses store as `storeWord` says; one of no access retires (R200). -/
theorem stores_of_withMem {s : State} {i : Instr} {h : Hdr} {u : Use} {sp : Space} {align : Nat} {xs : List (Word × Nat)}
    {data : List (List Byte)} {comb : Comb} {rel : Option Scope}
    (he : Issues s h u → exec i s = s.withMem sp .store align xs fun m ps need =>
      if xs = [] then .next (m.retire h none {}) else m.storeWord h (storeAct sp (storeUnits (data.zip ps)) comb) rel need) :
    Stores s i h u sp align xs data comb rel := by
  intro hi
  refine accesses_of_withMem (he hi) fun m ps need hm he => ?_
  split
  case isTrue hnone => exact hm.frontStands.justRetires (he.trans (if_pos hnone))
  case isFalse hsome => exact joinsStores_of_storeWord hm (he.trans (if_neg hsome))

/-- A scalar store has one access, of the low bytes of its data register (R199). -/
theorem stores_of_scalarStore {s : State} {i : Instr} {h : Hdr} {data base : SReg} {sp : Space} {wd : MWidth} {off : BitVec 24}
    {align : Nat} {rel : Option Scope} (he : exec i s = s.scalarStore i h data base sp wd off align rel) :
    Stores s i h { srcs := [(.s base, h.pda), (.s data, h.pdb)], engine := true } sp align
      [(ea s h base off, MWidth.size wd)] [toBytes (MWidth.size wd) (srcB s h data).toNat] .none rel := by
  refine stores_of_withMem fun hi => (exec_of_issues he hi).trans (State.withMem_congr (fun m ps need hps => ?_) ..)
  obtain ⟨p, rfl⟩ := List.length_eq_one_iff.1 hps
  exact (if_neg (List.cons_ne_nil _ _)).symm

/-- A vector store has one access for each active lane, of that lane's bytes (R200, R201). -/
theorem stores_of_vectorStore {s : State} {i : Instr} {h : Hdr} {data : VReg} {base : SReg} {locks : List Reg} {sp : Space}
    {comb : Comb} {addr : Front → Nat → Word} {a : Nat → Word} (he : exec i s = s.vectorStore i h data base locks sp comb addr)
    (ha : ∀ k, addr (fe s) k = a k) :
    Stores s i h { srcs := [(.s base, h.pda), (.v data, h.pdb)], locks := locks, lanewise := true, engine := true } sp 4
      ((lanesOf (activeP s h)).map fun k => (a k, 4))
      ((lanesOf (activeP s h)).map fun k => toBytes 4 (laneB s h data k).toNat) comb none := by
  obtain rfl : addr (fe s) = a := funext ha
  refine stores_of_withMem fun hi => (exec_of_issues he hi).trans (State.withMem_congr (fun m ps need _ => ?_) ..)
  simp only [List.isEmpty_iff, List.map_eq_nil_iff]
  rfl

/-- Settles O23: two scalar stores and two vector stores, the address of each as R196 gives it. -/
theorem storesJoinTheStoreStream : Obligations.StoresJoinTheStoreStream := by
  unfold Obligations.StoresJoinTheStoreStream
  intro h data base vd x sp wd scope str comb off s n us uv ls vec
  refine ⟨stores_of_scalarStore rfl, stores_of_scalarStore rfl, ?vst, ?vscatter⟩
  case vst =>
    have he : exec (.vst h vd base sp str off) s =
      s.vectorStore _ h vd base [] sp .none fun f => laneAddr str (f.srcS base h.pda) off := rfl
    exact stores_of_vectorStore he (laneAddr_eq_laneEA s h base str off)
  case vscatter =>
    have he : exec (.vscatter h vd base sp comb x off) s =
      s.vectorStore _ h vd base [.v x] sp comb fun f => indexAddr (f.srcS base h.pda) off (f.regs.getV x) := rfl
    exact stores_of_vectorStore he (indexAddr_eq_indexEA s h base off x)

end Sys2Proof.Claims

end

section

/-! ## O25: FIFO tokens

What a pop and a push do to the counts of a core's FIFOs (R216). -/

namespace Sys2Proof.Machine

/-- A push changes the tokens of its FIFO alone, and no front end. -/
theorem Live.front_pushIf (l : Live) (b : Bool) (j : Fin 8) (mark : Nat) : (l.pushIf b j mark).front = l.front := by
  cases b <;> rfl

/-- A push counts one token more in its FIFO (R216). -/
theorem Live.fifo_pushIf (l : Live) (b : Bool) (i j : Fin 8) (mark : Nat) :
    (l.pushIf b j mark).queues.fifo[i] = if b = true ∧ i = j then l.queues.fifo[i] + 1 else l.queues.fifo[i] := by
  cases b
  case false => simp [Live.pushIf]
  case true =>
    by_cases hij : i = j
    · subst hij
      simp [Live.pushIf, Live.setFifo, Live.setMarks]
    · have : j.val ≠ i.val := fun e => hij (Fin.ext e.symm)
      simp [Live.pushIf, Live.setFifo, Live.setMarks, hij, this]

/-- What `tokw` leaves in the FIFOs (R216). -/
theorem Live.fifo_tokwTake (l : Live) (x y : Bool) (j : Fin 8) :
    (l.tokwTake x y).queues.fifo[j] = if x = true ∧ j = 3 ∨ y = true ∧ j = 4 then l.queues.fifo[j] - 1 else l.queues.fifo[j] := by
  simp [Live.tokwTake_eq, Claims.lessTokens]

/-- What `toks` leaves in the FIFOs (R216). -/
theorem Live.fifo_toks (l : Live) (x y : Bool) (mark : Nat) (j : Fin 8) :
    ((l.pushIf x 7 mark).pushIf y 0 mark).queues.fifo[j] =
      if x = true ∧ j = 7 ∨ y = true ∧ j = 0 then l.queues.fifo[j] + 1 else l.queues.fifo[j] := by
  rw [Live.fifo_pushIf, Live.fifo_pushIf]
  by_cases h7 : j = 7
  · subst h7
    simp
  · simp [h7]

/-- The FIFO of SP, where it is full, is the one of the trap (R128). -/
theorem Live.tokenOver_first {l : Live} {x : Bool} (y : Bool) {j k : Fin 8} (hx : x = true) (hj : l.queues.fifo[j].val = 16) :
    l.tokenOver x y j k = some j := by
  have : l.queues.fifo[j] = 16 := Fin.ext hj
  simp [Live.tokenOver, hx, this]

/-- The FIFO of SN is the one of the trap where that of SP takes its token (R128). -/
theorem Live.tokenOver_second {l : Live} {x y : Bool} {j k : Fin 8} (hx : ¬ (x = true ∧ l.queues.fifo[j].val = 16)) (hy : y = true)
    (hk : l.queues.fifo[k].val = 16) : l.tokenOver x y j k = some k := by
  have hk : l.queues.fifo[k] = 16 := Fin.ext hk
  have hx : ¬ (x = true ∧ l.queues.fifo[j] = 16) := fun h => hx ⟨h.1, congrArg Fin.val h.2⟩
  simp only [Live.tokenOver, Bool.and_eq_true, beq_iff_eq, if_neg hx, hy, hk, and_self, if_true]

theorem Live.tokenOver_none {l : Live} {x y : Bool} {j k : Fin 8} (hx : x = true → l.queues.fifo[j].val < 16)
    (hy : y = true → l.queues.fifo[k].val < 16) : l.tokenOver x y j k = none := by
  have room {b : Bool} {i : Fin 8} (h : b = true → l.queues.fifo[i].val < 16) : ¬ (b && l.queues.fifo[i] == 16) = true := by
    rw [Bool.and_eq_true, beq_iff_eq]
    rintro ⟨hb, hi⟩
    exact (h hb).ne (congrArg Fin.val hi)
  simp only [Live.tokenOver, if_neg (room hx), if_neg (room hy)]

end Sys2Proof.Machine

end

section

/-! ## O25: words that stand at their places -/

namespace Sys2Proof.Machine

theorem Core.pushGate_moves (k : Core) (c : CoreId) (now : Nat) (act : StoreAct) (rel : Scope) (tag : Option TagId) :
    k.StreamsMove (k.pushGate c now act rel tag) :=
  .trans (l := k.modFlow fun f => { f with storeQ := f.storeQ ++ [⟨act, k.live.front.at_.po, k.live.prod.store, some rel, tag, 0, none,
    k.live.front.at_.pc, false⟩] }) (.of_eq rfl rfl) (Core.settle_moves _ c now)

end Sys2Proof.Machine

namespace Sys2Proof.Claims

open Sys2Proof.Machine

/-- A word that waits once its effects are made stands at its place. -/
theorem FrontStands.standsIn {s m : State} {i : Instr} {w : FWait} (hm : FrontStands s m)
    (he : exec i s = .next (m.setWait m.cur w)) (hw : w ≠ .none) : StandsIn s m i w := by
  obtain ⟨ts, hf⟩ := hm.front
  rw [State.setWait_eq _ _ hw] at he
  have hfe : fe (m.modFront m.cur fun f => f.modAt fun a => { a with wait := w, waitSince := m.cycle }) =
      ({ fe s with tags := ts } : Front).modAt fun a => { a with wait := w, waitSince := m.cycle } := by
    rw [fe_modFront, hf]
  refine ⟨_, he, ?only, hm.bytes.trans (.modFront ..), fun g => congrArg (·.regs.get g) hfe, congrArg (·.at_.wait) hfe,
    congrArg (·.at_.pc) hfe, congrArg (·.at_.po) hfe⟩
  case only =>
    rw [← hm.cur]
    exact modFront_fe ..

/-- The same of a wait whose end the replay log would hold and does not (R360). -/
theorem FrontStands.standsIn_of_log {s m : State} {i : Instr} {h : Hdr} {w : FWait} (hm : FrontStands s m)
    (hroom : s.me.logRoom = true) (hlog : s.me.logged = none)
    (he : exec i s = if s.me.logged.isSome then .next (s.retire h none {}) else if !s.me.logRoom then .next s
      else .next (m.setWait m.cur w)) (hw : w ≠ .none) : StandsIn s m i w := by
  refine hm.standsIn (he.trans ?_) hw
  simp [hroom, hlog]

/-- Where a word stands, without its place in program order. -/
theorem StandsIn.atWord {s m : State} {i : Instr} {w : FWait} (h : StandsIn s m i w) :
    ∃ t, exec i s = .next t ∧ t = m.modFront s.cur (fun _ => fe t) ∧ SameBytes s t ∧ WritesNone s t ∧ (fe t).at_.wait = w ∧
      (fe t).at_.pc = pcOf s := by
  obtain ⟨t, he, honly, hbytes, hnone, hwait, hpc, -⟩ := h
  exact ⟨t, he, honly, hbytes, hnone, hwait, hpc⟩

/-- A word after which none may issue goes on only from the state in which it issues (R197, R348). -/
theorem accesses_of_blocking {s : State} {i : Instr} {sp : Space} {acc : Access} {align : Nat} {xs : List (Word × Nat)}
    {deny : Bool} {stream : Access} {k : State → List (List Piece) → Option Need → Outcome}
    {go : State → List (List Piece) → Option Need → Prop}
    (he : exec i s = s.withMem sp acc align xs k deny true stream)
    (hk : ∀ ps need, exec i s = k s ps need → go s ps need) :
    Accesses s i sp acc align xs deny true go stream := by
  have hfrom : Accesses s i sp acc align xs deny true (fun m ps need => m = s → go m ps need) stream := by
    refine accesses_of_withMem he fun m ps need _ he hm => ?_
    subst hm
    exact hk ps need he
  obtain ⟨hsus, hgo⟩ := hfrom
  refine ⟨hsus, fun h => ?_⟩
  obtain ⟨htrap, hpass, hmiss⟩ := hgo h
  exact ⟨htrap, fun ps hr => hpass ps hr rfl, fun a hr => ⟨fun _ hb => absurd hb (by decide), (hmiss a hr).2⟩⟩

/-- A record word that waits at its place, from what it does with the record's address (R213, R215). -/
theorem recordAccess_of_recordWord {s : State} {i : Instr} {h : Hdr} {srcs : List (Reg × Fin 4)} {base : SReg} {off : BitVec 24}
    {n : Nat} {k : State → Nat → Word → Option Need → Outcome} {go : State → Nat → Option Need → Prop}
    (he : exec i s = s.recordWord i h srcs base off n (fun _ => false) k true)
    (hi : Issues s h { srcs := (.s base, h.pda) :: srcs, engine := true })
    (hk : ∀ pa need, exec i s = k s pa (ea s h base off) need → go s pa need) :
    RecordAccess s i n n (ea s h base off) false true go :=
  accesses_of_blocking (exec_of_issues he hi) fun ps need he => hk (firstAddr ps) need he

/-- What `bar.wait` does with its record's address (R213). -/
theorem exec_barWait (h : Hdr) (base : SReg) (scope : Scope) (ph : PhSrc) (off : BitVec 24) (s : State) :
    exec (.barWait h base scope ph off) s = s.recordWord (.barWait h base scope ph off) h
      (match ph with | .imm _ => [] | .reg b => [(.s b, h.pdb)]) base off 32 (fun _ => false) (blocks := true) fun m pa va _ =>
        if m.me.logged.isSome then .next (m.retire h none {}) else if !m.me.logRoom then .next m
        else .next (m.setWait m.cur (.barWait pa va (match ph with | .imm p => p | .reg b => (srcB m h b).getLsbD 0) scope none)) :=
  rfl

/-! What may change while a word retires. -/

/-- The front end that issues with its marker at a place in program order (R203). -/
def marked (t : State) (n : Nat) : State := t.modFront t.cur fun f => f.modAt fun a => { a with mark := n }

theorem fe_marked (t : State) (n : Nat) : fe (marked t n) = (fe t).modAt fun a => { a with mark := n } := fe_modFront ..

/-- A retirement stays one where the word has placed its marker. -/
theorem Retired.marked {s m t : State} {fl : FFlags} {target : Option Word} {own : Option Bool} {keeps : Bool}
    (h : Retired s m t fl target own keeps) (hc : t.cur = s.cur) (n : Nat) : Retired s m (marked t n) fl target own keeps := by
  obtain ⟨honly, hbytes, hflags, ⟨hlevel, hsF, hmF, hround, hseed, hpcHi, hvahi, hgbar, hwait, hidle, htrap⟩, hpc, hloops, hpo⟩ := h
  refine ⟨?only, hbytes.trans (.modFront ..), ?_, ⟨?_, ?_, ?_, ?_, ?_, ?_, ?_, ?_, ?_, ?_, ?_⟩, ?_, ?_, ?_⟩
  case only =>
    rw [fe_marked, Claims.marked, hc]
    conv_lhs => rw [honly]
    exact State.modFront_modFront ..
  all_goals rw [fe_marked]; assumption

/-- A retirement leaves the queues and FIFOs of its core as its word's effects left them. -/
theorem Retired.queues {s m t : State} {fl : FFlags} {target : Option Word} {own : Option Bool} {keeps : Bool}
    (h : Retired s m t fl target own keeps) (hc : m.cur = s.cur) : t.me.live.queues = m.me.live.queues := by
  have hme : (m.modFront s.cur fun _ => fe t).me = m.me.setFront (fe t) := hc ▸ m.core_modFront m.cur fun _ => fe t
  exact (congrArg (·.me.live.queues) h.only).trans (congrArg (·.live.queues) hme)

/-- A word that pops or pushes tokens and retires (R216). -/
theorem retires_tokens {s : State} {i : Instr} {h : Hdr} {f : Live → Live} (hf : ∀ l, (f l).front = l.front)
    (he : exec i s = .next ((s.modCore s.cur fun k => k.modLive f).retire h none {})) :
    ∃ t, exec i s = .next t ∧ WritesNone s t ∧ SameBytes s t ∧ (fe t).at_.po = (fe s).at_.po + 1 ∧
      t.me.live.queues = (f s.me.live).queues := by
  have hm : FrontStands s (s.modCore s.cur fun k => k.modLive f) := .of_moves fun k => .of_eq (hf k.live) rfl
  obtain ⟨t, he, hret, hnone⟩ := hm.justRetires he
  refine ⟨t, he, hnone, hret.bytes, hret.po, (hret.queues rfl).trans ?_⟩
  exact congrArg (·.live.queues) (s.core_modCore s.cur _)

/-! The words of the streams and of the tokens, where they issue. -/

section issued
variable {s : State} {h : Hdr}

theorem exec_align (hi : Issues s h { engine := true }) :
    exec (.align h) s = .next (marked (s.retire h none {}) (fe s).at_.po) := by
  change execAlign h s = _
  rw [execAlign, s.issue_go _ h _ _ hi.gate]
  rfl

theorem exec_tokw (hi : Issues s h {}) (x y : Bool) :
    exec (.tokw h x y) s = if s.me.live.tokwReady x y then
      .next ((s.modCore s.cur fun k => k.modLive fun l => l.tokwTake x y).retire h none {})
      else .next (s.setWait s.cur (.tokw x y)) := by
  change execTokw h x y s = _
  rw [execTokw, s.issue_go _ h _ _ hi.gate]

theorem exec_toks (hi : Issues s h {}) (x y : Bool) :
    exec (.toks h x y) s = ((s.me.live.tokenOver x y 7 0).elim
      (.next ((s.modCore s.cur fun k => k.modLive fun l => (l.pushIf x 7 l.front.at_.po).pushIf y 0 l.front.at_.po).retire h none {}))
      fun j => .next (s.trapHere .tokenOver (BitVec.ofNat 64 j.val))) := by
  change execToks h x y s = _
  rw [execToks, s.issue_go _ h _ _ hi.gate]
  cases s.me.live.tokenOver x y 7 0 <;> rfl

/-- `toks` traps with the number of the FIFO that a push would overfill (R128, R216). -/
theorem toks_traps (hi : Issues s h {}) {x y : Bool} {j : Fin 8} (hj : s.me.live.tokenOver x y 7 0 = some j) :
    Traps s s (.toks h x y) .tokenOver (BitVec.ofNat 64 j.val) := by
  have he := exec_toks hi x y
  rw [hj] at he
  exact he

end issued

/-- Settles O25: each word retires by `FrontStands.justRetires` or waits by `FrontStands.standsIn`. -/
theorem waitsMarkersFencesAndTokens : Obligations.WaitsMarkersFencesAndTokens := by
  unfold Obligations.WaitsMarkersFencesAndTokens
  refine ⟨fun h base scope ph off s => ?waits, fun h ord scope x y s => ?words⟩
  case waits =>
    intro a phase srcs
    refine ⟨fun hi => ?barWait, fun hi => ?gbar⟩
    case barWait =>
      exact recordAccess_of_recordWord (exec_barWait ..) hi fun pa _ he hroom hlog =>
        ((FrontStands.refl s).standsIn_of_log hroom hlog he nofun).atWord
    case gbar =>
      have hgbar : exec (.gbar h base scope off) s = execGbar h base scope off s := rfl
      refine recordAccess_of_recordWord hgbar hi fun pa _ he hroom hlog => ?_
      intro sent m
      have hm : FrontStands s m := by
        unfold m
        split
        · exact .refl s
        · exact .of_moves fun k => k.pushGate_moves ..
      exact (hm.standsIn_of_log hroom hlog he nofun).atWord
  case words =>
    intro q fifo
    refine ⟨fun hi => ?align, fun hi => ?fence, fun hi => ⟨fun hready => ?pops, fun hready => ?stands⟩,
      fun hi => ⟨fun hx hfull => ?trapSP, fun hx hy hfull => ?trapSN, fun hx hy => ?pushes⟩⟩
    case align =>
      have hfe := fe_marked (s.retire h none {}) (fe s).at_.po
      refine ⟨_, exec_align hi, (retired s h none {}).marked rfl _, fun g => ?_, congrArg (·.at_.mark) hfe⟩
      exact (congrArg (·.regs.get g) hfe).trans (writesNone_retire s h none {} rfl g)
    case fence =>
      intro m1 m2
      have hm1 : FrontStands s m1 := (FrontStands.refl s).of_moves_if (fun k => k.pushGate_moves ..) _
      have hm2 : FrontStands s m2 := hm1.of_moves_if (fun k => k.pushAcquire_moves ..) _
      have he : exec (.fence h ord scope) s = execFence h ord scope s := rfl
      rw [execFence, s.issue_go _ h _ _ hi.gate] at he
      refine hm2.justRetires (h := h) (held := m1.me.flow.storeQ.any fun o => o.po == (fe s).at_.po) (he.trans ?_)
      cases ord <;> rfl
    case pops =>
      have he := (exec_tokw hi x y).trans (if_pos ((Live.tokwReady_iff ..).2 hready))
      obtain ⟨t, he, hnone, hbytes, hpo, hq⟩ := retires_tokens (fun l => by rw [Live.tokwTake_eq]) he
      refine ⟨t, he, hnone, hbytes, hpo, fun j => ?_⟩
      simp only [fifo, hq, Live.fifo_tokwTake]
      split
      case isTrue htaken =>
        refine Fin.val_sub_one_of_ne_zero ?_
        obtain ⟨hx, rfl⟩ | ⟨hy, rfl⟩ := htaken
        · exact hready.1 hx
        · exact hready.2 hy
      case isFalse => rfl
    case stands =>
      have he := (exec_tokw hi x y).trans (if_neg (mt (Live.tokwReady_iff ..).1 hready))
      obtain ⟨t, he, honly, -, hnone, hwait, hpc⟩ := ((FrontStands.refl s).standsIn he nofun).atWord
      exact ⟨t, he, honly, hnone, hwait, hpc⟩
    case trapSP => exact toks_traps (j := 7) hi (Live.tokenOver_first y hx hfull)
    case trapSN => exact toks_traps (j := 0) hi (Live.tokenOver_second hx hy hfull)
    case pushes =>
      have he := exec_toks hi x y
      rw [Live.tokenOver_none hx hy] at he
      obtain ⟨t, he, hnone, hbytes, hpo, hq⟩ := retires_tokens (fun l => by rw [Live.front_pushIf, Live.front_pushIf]) he
      refine ⟨t, he, hnone, hbytes, hpo, fun j => ?_⟩
      simp only [fifo, hq, Live.fifo_toks]
      split
      case isTrue hpushed =>
        refine Fin.val_add_one_of_lt (Fin.lt_def.2 ?_)
        obtain ⟨hx', rfl⟩ | ⟨hy', rfl⟩ := hpushed
        · exact hx hx'
        · exact hy hy'
      case isFalse => rfl

end Sys2Proof.Claims

end

section

/-! ## O26: dispatch

A queue word is one call of `State.dispatch`: a full queue stalls it, and otherwise its entry joins the queue (R218). -/

namespace Sys2Proof.Machine

/-- The dispatch generation from an operation on: a `plane` begins the next one (R224). -/
def QOp.generation (op : QOp) (g : Nat) : Nat :=
  match op with
  | .plane _ => g + 1
  | _ => g

/-- What placing an entry does to the queues of a core. -/
theorem Core.place_eq (k : Core) (x : PoolQ) (op : QOp) (tok : Tok) (word : Word) (level : Level) (vahi : Byte) (po : Nat) :
    k.place x op tok word level vahi po = k.modQueues fun q =>
      { q with genD := op.generation q.genD }.setQueue x
        (q.queue x ++ [QEntry.of op tok word level vahi (op.generation q.genD) po]) := by
  unfold Core.place
  congr 1
  funext q
  cases op <;> cases x <;> rfl

/-- Placing an entry changes the queues alone. -/
theorem Core.place_moves (k : Core) (x : PoolQ) (op : QOp) (tok : Tok) (word : Word) (level : Level) (vahi : Byte) (po : Nat) :
    k.StreamsMove (k.place x op tok word level vahi po) := .of_eq rfl rfl

end Sys2Proof.Machine

namespace Sys2Proof.Claims

open Sys2Proof.Machine

/-- A word that is one call of `State.dispatch` is dispatched, with the operation o that its front end gives. -/
theorem dispatches {s : State} {i : Instr} {h : Hdr} {srcs : List (Reg × Fin 4)} {locks : List Reg} {x : PoolQ} {t : Tok}
    {op : Front → QOp} {o : QOp} {gen : Nat} (he : exec i s = s.dispatch i h srcs locks x t op) (ho : op (fe s) = o)
    (hgen : o.generation s.me.live.queues.genD = gen) : Dispatches s i h srcs locks x t o gen := by
  subst ho hgen
  intro hi es f
  have hexec := exec_of_issues he hi
  refine ⟨fun hfull => ?stalls, fun hroom => ?places⟩
  case stalls =>
    exact hexec.trans (if_pos (by simpa [Core.queueRoom] using hfull))
  case places =>
    have hm : FrontStands s (s.modCore s.cur fun k => k.place x (op f) t f.at_.pc f.level f.at_.vahi f.at_.po) :=
      .of_moves fun k => k.place_moves ..
    have hret := hm.justRetires (hexec.trans (if_neg (by simpa [Core.queueRoom] using hroom)))
    have hplace := congrArg (s.setCore s.cur) (s.me.place_eq x (op f) t f.at_.pc f.level f.at_.vahi f.at_.po)
    change s.modCore s.cur (fun k => k.place x (op f) t f.at_.pc f.level f.at_.vahi f.at_.po) = _ at hplace
    rw [hplace] at hret
    exact hret

/-- Settles O26: each of the nine words is one call of `State.dispatch`. -/
theorem poolDispatch : Obligations.PoolDispatch := by
  unfold Obligations.PoolDispatch
  intro h t a b c q bias lane slot fmt tpsm1 y s g x z w one two
  have carve : exec (.carve h t a b y) s = execCarve h t a b y s := rfl
  have wload : exec (.wload h t q a) s = execWload h t q a s := rfl
  have mmap : exec (.mmap h t a b) s = execMmap h t a b s := rfl
  have plane : exec (.plane h t y) s = execPlane h t y s := rfl
  have sbind : exec (.sbind h t q lane y) s = execSbind h t q lane y s := rfl
  have feed : exec (.feed h t q a b c lane slot tpsm1) s = execFeed h t q a b c lane slot tpsm1 s := rfl
  have feedx : exec (.feedx h t a b c lane slot fmt) s = execFeedx h t a b c lane slot fmt s := rfl
  have drain : exec (.drain h t q a b lane bias) s = execDrain h t q a b lane bias s := rfl
  have aclr : exec (.aclr h t b) s = execAclr h t b s := rfl
  exact ⟨dispatches carve rfl rfl, dispatches wload rfl rfl, dispatches mmap rfl rfl, dispatches plane rfl rfl,
    dispatches sbind rfl rfl, dispatches feed rfl rfl, dispatches feedx rfl rfl, dispatches drain rfl rfl, dispatches aclr rfl rfl⟩

end Sys2Proof.Claims

end

section

/-! ## O27: status words

The words of R246, R258 and R285: the model adds up their fields, the statement concatenates them. -/

namespace Sys2Proof.Machine

/-- A sum over a list, as the model forms it. -/
theorem foldl_add_eq_sum {α : Type} (l : List α) (g : α → Nat) : l.foldl (fun n x => n + g x) 0 = (l.map g).sum := by
  rw [List.sum_eq_foldl, List.foldl_map]

/-- The same over the numbers of lanes or FIFOs. -/
theorem foldl_finRange_eq_sum {n : Nat} (g : Fin n → Nat) : (List.finRange n).foldl (fun a j => a + g j) 0 = ∑ j, g j := by
  rw [foldl_add_eq_sum, Fin.sum_univ_def]

/-- A number summed of the weights of flags has these flags as its bits. -/
theorem testBit_foldl_range {g : Nat → Nat → Nat} {p : Nat → Bool} (hg : ∀ a b, g a b = if p b then a + 2 ^ b else a) (n i : Nat) :
    ((List.range n).foldl g 0).testBit i = (decide (i < n) && p i) := by
  suffices h : (List.range n).foldl g 0 < 2 ^ n ∧ ∀ i, ((List.range n).foldl g 0).testBit i = (decide (i < n) && p i) from h.2 i
  clear i
  induction n with
  | zero => simp
  | succ n ih =>
    rw [List.range_succ, List.foldl_append, List.foldl_cons, List.foldl_nil, hg]
    generalize (List.range n).foldl g 0 = a at ih
    obtain ⟨hlt, hbits⟩ := ih
    have hor : a + 2 ^ n = 2 ^ n ||| a := by
      have := Nat.two_pow_add_eq_or_of_lt hlt 1
      rwa [mul_one, add_comm] at this
    refine ⟨by split <;> omega, fun i => ?_⟩
    have hi : (a + 2 ^ n).testBit i = (decide (n = i) || decide (i < n) && p i) := by
      rw [hor, Nat.testBit_or, Nat.testBit_two_pow, hbits]
    obtain rfl | hne := eq_or_ne n i
    · cases hp : p n <;> simp [hi, hbits, hp]
    · have hlt : i < n + 1 ↔ i < n := by omega
      cases hp : p n <;> simp [hi, hbits, hne, hlt]

/-- A flag of a sticky mask, by its weight. -/
theorem ite_zero_eq_toNat_mul (x : FFlags) (n : Nat) : (if x = 0 then 0 else n) = (decide (x ≠ 0)).toNat * n := by
  by_cases h : x = 0
  · rw [if_pos h, decide_eq_false (not_not.2 h), Bool.toNat_false, zero_mul]
  · rw [if_neg h, decide_eq_true h, Bool.toNat_true, one_mul]

/-- A lane is armed where a stream of it has an operation left to retire (R246). -/
theorem LaneState.unretired_eq_zero_iff (l : LaneState) :
    l.unretired = 0 ↔ (l.streams.any fun (x : Stream) => decide (x.retired < x.count)) = false := by
  rw [LaneState.unretired, foldl_add_eq_sum]
  simp [List.sum_eq_zero_iff, Nat.sub_eq_zero_iff_le]

theorem LaneState.armed_eq (l : LaneState) (n m : Nat) :
    (if l.unretired = 0 then n else n + m) =
      n + (l.streams.any fun (x : Stream) => decide (x.retired < x.count)).toNat * m := by
  simp only [LaneState.unretired_eq_zero_iff]
  cases l.streams.any fun (x : Stream) => decide (x.retired < x.count) <;> simp

/-- Word 0 of R246: the generation, the armed lanes, the live plane and the queues. -/
theorem Core.poolStatus_zero (k : Core) : k.poolStatus 0 = Claims.poolWord k 0 := by
  have harmed (l : LaneId) := (k.live.queues.lanes[l].streams.any fun (x : Stream) => decide (x.retired < x.count)).toNat_le
  have h0 := harmed 0
  have h1 := harmed 1
  have h2 := harmed 2
  have h3 := harmed 3
  have hplane := k.store.liveSel.isLt
  apply BitVec.eq_of_toNat_eq
  refine Eq.trans ?_ (toNat_append_eq_add ..).symm
  simp only [Core.poolStatus, LaneState.armed_eq, foldl_finRange_eq_sum, Fin.sum_univ_four, Fin.coe_ofNat_eq_mod, Nat.reduceMod,
    Nat.zero_mod, if_true, toNat_append_eq_add, BitVec.toNat_ofNat, BitVec.toNat_ofBool]
  omega

/-- Word 1 of R246: the counts of the FIFOs. -/
theorem Core.poolStatus_one (k : Core) : k.poolStatus 1 = Claims.poolWord k 1 := by
  have hstatus : k.poolStatus 1 =
      BitVec.ofNat 64 ((List.finRange 8).foldl (fun n j => n + k.live.queues.fifo[j].val * 2 ^ (5 * j.val)) 0) := rfl
  have htokens (j : Fin 8) := k.live.queues.fifo[j].isLt
  have h0 := htokens 0
  have h1 := htokens 1
  have h2 := htokens 2
  have h3 := htokens 3
  have h4 := htokens 4
  have h5 := htokens 5
  have h6 := htokens 6
  have h7 := htokens 7
  rw [hstatus, foldl_finRange_eq_sum, Fin.sum_univ_eight]
  apply BitVec.eq_of_toNat_eq
  refine Eq.trans ?_ (toNat_append_eq_add ..).symm
  simp only [Fin.coe_ofNat_eq_mod, Nat.reduceMod, Nat.reduceMul, toNat_append_eq_add, BitVec.toNat_ofNat]
  omega

/-- Words 4 to 7 of R246: a lane's undrained count and its operations not yet fired. -/
theorem Core.poolStatus_lane (k : Core) {sel : Fin 16} (hsel : 4 ≤ sel.val) : k.poolStatus sel = Claims.poolWord k sel := by
  have h0 : sel.val ≠ 0 := by omega
  have h1 : sel.val ≠ 1 := by omega
  have hlane : k.live.queues.lanes[sel.val % 4]?.getD ⟨[], 0, 0, 0⟩ = k.live.queues.lanes[(Fin.ofNat 4 sel.val : LaneId)] := by
    rw [Vector.getElem?_eq_getElem (Nat.mod_lt _ (by decide))]
    rfl
  have hword : Claims.poolWord k sel =
      let l := k.live.queues.lanes[(Fin.ofNat 4 sel.val : LaneId)]
      BitVec.ofNat 32 l.undrained ++ BitVec.ofNat 32 (l.streams.map fun (x : Stream) => x.count - x.fired).sum :=
    (if_neg fun h => h0 (congrArg Fin.val h)).trans (if_neg fun h => h1 (congrArg Fin.val h))
  rw [hword, Core.poolStatus]
  simp only [h0, h1, if_false, hlane, LaneState.remain, foldl_add_eq_sum]
  apply BitVec.eq_of_toNat_eq
  simp only [toNat_append_eq_add, BitVec.toNat_ofNat]
  omega

/-- The status words of R246. -/
theorem Core.poolStatus_eq_poolWord (k : Core) {sel : Fin 16} (hsel : sel = 0 ∨ sel = 1 ∨ 4 ≤ sel.val ∧ sel.val < 8) :
    k.poolStatus sel = Claims.poolWord k sel := by
  obtain rfl | rfl | ⟨hlane, -⟩ := hsel
  · exact k.poolStatus_zero
  · exact k.poolStatus_one
  · exact k.poolStatus_lane hlane

/-- The status word of a copy entry (R258). -/
theorem CopyEntry.status_eq_entryWord (x : CopyEntry) : x.status = Claims.entryWord x := by
  have hflag (m : FFlags) := (decide (x.flags &&& m ≠ 0)).toNat_le
  have hnl := hflag fNANLOST
  have hisat := hflag fISAT
  have hfsat := hflag fFSAT
  have hnx := hflag fNX
  apply BitVec.eq_of_toNat_eq
  unfold CopyEntry.status Claims.entryWord
  refine Eq.trans ?_ (toNat_append_eq_add ..).symm
  simp only [ite_zero_eq_toNat_mul, toNat_append_eq_add, BitVec.toNat_ofNat, BitVec.toNat_ofBool]
  cases x.state
  all_goals
    simp only [CopyState.code, BitVec.toNat_ofNat]
    omega

/-- The status word of a circuit (R258), whose bits FULL are those of its branches with a full elastic buffer. -/
theorem Circuit.status_eq_circuitWord {x : Circuit} {full : BitVec 16}
    (hfull : ∀ b < 16, full.getLsbD b = true ↔ ∃ y, x.branches[b]? = some y ∧ 16 ≤ y.elastic.length) :
    x.status = Claims.circuitWord x full := by
  unfold Circuit.status
  extract_lets bits nbr
  have hbits : bits % 2 ^ 16 = full.toNat := by
    refine Nat.eq_of_testBit_eq fun i => ?_
    rw [Nat.testBit_mod_two_pow, testBit_foldl_range (p := fun b => x.branches[b]?.any fun y => decide (16 ≤ y.elastic.length)),
      BitVec.testBit_toNat]
    · by_cases hi : i < 16
      · have hlt {y} (hy : x.branches[i]? = some y) : i < x.branches.length := (List.getElem?_eq_some_iff.1 hy).1
        rw [Bool.eq_iff_iff, hfull i hi]
        simp only [hi, Bool.and_eq_true, decide_eq_true_eq, Option.any_eq_true, true_and]
        exact ⟨fun h => h.2, fun ⟨y, hy, hlen⟩ => ⟨hlt hy, y, hy, hlen⟩⟩
      · simp [hi, BitVec.getLsbD_of_ge full i (Nat.le_of_not_lt hi)]
    · intro a b
      cases x.branches[b]? <;> simp
  apply BitVec.eq_of_toNat_eq
  unfold Claims.circuitWord
  refine Eq.trans ?_ (toNat_append_eq_add ..).symm
  simp only [toNat_append_eq_add, BitVec.toNat_ofNat, nbr, hbits]
  have := full.isLt
  cases x.state
  all_goals
    simp only [CircState.code, BitVec.toNat_ofNat, reduceCtorEq, if_true, if_false]
    omega

/-- The words of the walker (R285). -/
theorem Walker.word_eq_stateWord (w : Walker) (sel : Nat) : w.word sel = Claims.stateWord w sel := by
  apply BitVec.eq_of_toNat_eq
  match sel with
  | 0 =>
    have := w.end_.isLt
    have := w.phase.isLt
    have := w.cause.isLt
    have := w.bop.isLt
    have := w.reserr.toNat_le
    refine Eq.trans ?_ (toNat_append_eq_add ..).symm
    simp only [Walker.word, ite_eq_toNat_mul, toNat_append_eq_add, BitVec.toNat_ofNat, BitVec.toNat_ofBool]
    cases w.state
    all_goals
      simp only [WState.code, BitVec.toNat_ofNat]
      omega
  | 1 => simp [Walker.word, Claims.stateWord]
  | 2 | 3 =>
    refine Eq.trans ?_ (toNat_append_eq_add ..).symm
    simp only [Walker.word, toNat_append_eq_add, BitVec.toNat_ofNat]
    omega
  | 4 =>
    have := w.scan.toNat_le
    refine Eq.trans ?_ (toNat_append_eq_add ..).symm
    simp only [Walker.word, ite_eq_toNat_mul, toNat_append_eq_add, BitVec.toNat_ofNat, BitVec.toNat_ofBool]
    omega
  | 5 =>
    refine Eq.trans ?_ (toNat_append_eq_add ..).symm
    simp only [Walker.word, BitVec.toNat_ofNat]
    omega
  | n + 6 => simp [Walker.word, Claims.stateWord]

end Sys2Proof.Machine

namespace Sys2Proof.Claims

open Sys2Proof.Machine

/-- A value that the device has when a word issues is the word's result, and the replay log takes it (R133, R360). -/
theorem yields_of_deliver {s : State} {i : Instr} {h : Hdr} {tag : TagId} {d : SReg} {lat : Nat} {v : Word}
    (hf : Fresh s h tag) (he : exec i s = .next (s.deliver h d lat v)) : Yields s s i tag d v := by
  obtain ⟨htag, -, hlog⟩ := hf
  have hfe : fe (s.modCore s.cur fun k => k.logInput (fe s).at_.po (some (wordOf v))) = fe s := fe_modCore ..
  rw [deliver_eq hlog] at he
  have hret (dn : Done) := retired_after s (s.modCore s.cur fun k => k.logInput (fe s).at_.po (some (wordOf v))) rfl
    (congrArg (·.at_.pc) hfe) (congrArg (·.at_.po) hfe) (.modCore _ _ _ fun _ _ => rfl) h none dn
  exact ⟨_, he, hret _, awaits_retire (congrArg (·.regs) hfe) htag (Nat.le_add_right ..)⟩

/-- `cast` reads the cast store as it stands (R319). -/
theorem cast_gives {s : State} {h : Hdr} {d : SReg} {j : Fin 4} {tag : TagId} (htag : h.tag = some tag)
    (hi : Issues s h { dsts := [.s d], level := .s }) {f : CastField} {v : Word} (hv : s.me.castField f j = v) :
    ∃ t, exec (.cast h d f j) s = .next t ∧ Retired s s t 0 none none false ∧
      Awaits s t tag (.s d) (wordOf (BitVec.allOnes 64)) (s.cycle + 6) (some (wordOf v)) 0 := by
  subst hv
  have he : exec (.cast h d f j) s = execCast h d f j s := rfl
  have he := exec_of_issues he hi
  exact ⟨_, he, retired .., awaits_retire rfl htag le_rfl⟩

/-- Settles O27: each word delivers a field or status word of the model, which is the one of the statement. -/
theorem statusWords : Obligations.StatusWords := by
  unfold Obligations.StatusWords
  intro h d sel n e full j tag s k x cu hf
  have ⟨htag, hlogRoom, _⟩ := hf
  have hroom : ¬ (!k.logRoom) = true := by simp [show k.logRoom = true from hlogRoom]
  refine ⟨fun hi hsel => ?pstat, fun hi hn => ?entry, fun hi hfull => ?circuit, fun hi => ?wstat, fun hi => ?cast⟩
  case pstat =>
    have he : exec (.pstat h d sel) s = execPstat h d sel s := rfl
    rw [← k.poolStatus_eq_poolWord hsel]
    exact yields_of_deliver hf ((exec_of_issues he hi).trans (if_neg hroom))
  case entry =>
    have he : exec (.cstat h d false n) s = execCstat h d false n s := rfl
    have hentry : Fin.ofNat 16 n.val = e := Fin.ext ((congrArg (· % 16) hn).trans (Nat.mod_eq_of_lt e.isLt))
    have he : exec (.cstat h d false n) s = s.withEntry e fun s x => .next (s.deliver h d 6 x.status) :=
      hentry ▸ (exec_of_issues he hi).trans (if_neg hroom)
    have hx : s.me.copy e = x := rfl
    refine ⟨fun hnone => ?_, fun hsome hnotrap => ?_⟩
    · rw [← x.status_eq_entryWord]
      simp only [State.withEntry, hx, hnone] at he
      exact yields_of_deliver hf he
    · obtain ⟨r, hr⟩ := Option.ne_none_iff_exists'.1 hsome
      simpa only [State.withEntry, hx, hr, hnotrap] using he
  case circuit =>
    have he : exec (.cstat h d true n) s = execCstat h d true n s := rfl
    rw [← Circuit.status_eq_circuitWord hfull]
    exact yields_of_deliver hf ((exec_of_issues he hi).trans (if_neg hroom))
  case wstat =>
    have he : exec (.wstat h d sel) s = execWstat h d sel s := rfl
    rw [← Walker.word_eq_stateWord]
    exact yields_of_deliver hf ((exec_of_issues he hi).trans (if_neg hroom))
  case cast =>
    intro gives
    have hfield {f : CastField} {v : Word} (hv : k.castField f j = v) : gives f v := cast_gives htag hi hv
    refine ⟨fun hnone => ⟨hfield ?_, hfield ?_, hfield ?_⟩, fun c hsome => ⟨hfield ?_, hfield ?_, hfield ?_⟩⟩
    all_goals simp only [Core.castField, *]

end Sys2Proof.Claims

end

section

/-! ## O28: ring definitions -/

namespace Sys2Proof.Machine

/-- A ring definition word whose space names no buffer (R31, R32). -/
theorem ringDefOf_none {w : Word} (hb : ringBuf (bits w 4 2) = none) (c0 cs : BitVec 32) (chk : Bool) :
    ringDefOf w c0 cs chk = none := by
  rw [ringDefOf, hb]

/-- A ring definition word whose space names a buffer (R31, R32). -/
theorem ringDefOf_eq {w : Word} {b : Buf} (hb : ringBuf (bits w 4 2) = some b) (c0 cs : BitVec 32) (chk : Bool) :
    ringDefOf w c0 cs chk =
      if (1 ≤ bits w 29 7 ∧ bits w 29 7 ≤ 64) ∧ (1 ≤ bits w 19 10 ∧ bits w 19 10 ≤ 512) then
        some { buf := b, base := bits w 6 13, nslot := bits w 29 7, slotsz := bits w 19 10, coord0 := c0, cstep := cs, chk := chk }
      else none := by
  simp only [ringDefOf, hb]
  split
  · rw [if_neg (by omega)]
  · rw [if_pos (by omega)]

/-- The high half of a word. -/
theorem setWidth_ushiftRight_32 (x : Word) : (x >>> 32).setWidth 32 = x.extractLsb' 32 32 :=
  BitVec.eq_of_toNat_eq (by simp)

/-- A change of a ring leaves the front end as it is (R259). -/
@[simp] theorem Core.front_changeRing (k : Core) (q : RingId) (d : Option RingDef) (now : Nat) :
    (k.changeRing q d now).live.front = k.live.front := by
  unfold Core.changeRing
  dsimp only
  split <;> rfl

end Sys2Proof.Machine

namespace Sys2Proof.Claims

open Sys2Proof.Machine

/-- The word traps where it stands, its effects so far made (R314). -/
theorem traps_of_trapHere {s m : State} {i : Instr} {cause : Cause} {info : Word} (hc : m.cur = s.cur) (hf : fe m = fe s)
    (he : exec i s = .next (m.trapHere cause info)) : Traps s m i cause info := he.trans (congrArg _ (trapHere_eq hc hf ..))

/-- The same of a word that has no effect before. -/
theorem traps_here {s : State} {i : Instr} {cause : Cause} {info : Word} (he : exec i s = .next (s.trapHere cause info)) :
    Traps s s i cause info := traps_of_trapHere rfl rfl he

/-- A change of the core that issues, which leaves its front end and its buffers. -/
theorem FrontStands.of_setCore {s : State} {k : Core} (hf : k.live.front = fe s) (hs : k.store = s.me.store) :
    FrontStands s (s.setCore s.cur k) :=
  ⟨rfl, ⟨(fe s).tags, (congrArg (·.live.front) (s.core_setCore s.cur k)).trans hf⟩, .setCore fun _ => by rw [hs]; rfl⟩

/-- A word that changes a ring and retires (R259, R260). -/
theorem justRetires_changeRing {s : State} {i : Instr} {h : Hdr} {q : RingId} {z : Option RingDef}
    (he : exec i s = .next ((s.modCore s.cur fun k => k.changeRing q z s.cycle).retire h none {})) :
    JustRetires s (s.modCore s.cur fun k => k.changeRing q z s.cycle) i :=
  (FrontStands.of_setCore (s.me.front_changeRing ..) (s.me.changeRing_store ..)).justRetires he

/-- A `qdef` that issues, by what its definition word says (R259). -/
theorem exec_qdef {s : State} {h : Hdr} {q : RingId} {a b : SReg} {r : Option RingDef}
    (hi : Issues s h { srcs := [(.s a, h.pda), (.s b, h.pdb)], engine := true })
    (hr : ringDefOf (srcA s h a) ((srcB s h b).setWidth 32) ((srcB s h b).extractLsb' 32 32) ((srcA s h a).getLsbD 36) = r) :
    exec (.qdef h q a b) s = r.elim (.next (s.trapHere .bounds (srcA s h a))) fun d =>
      if bits (srcA s h a) 0 4 ≠ 0 ∨ bits (srcA s h a) 37 27 ≠ 0 ∨ s.me.reserved d.buf < d.endByte then
        .next (s.trapHere .bounds (srcA s h a))
      else if !s.me.changeDeparted q && (s.me.ringUsed q || s.me.ringNamed q) then .next (s.trapHere .ringState (slotInfo q 0))
      else .next ((s.modCore s.cur fun k => k.changeRing q (some d) s.cycle).retire h none {}) := by
  have he : exec (.qdef h q a b) s = execQdef h q a b s := rfl
  have he := exec_of_issues he hi
  rw [← setWidth_ushiftRight_32] at hr
  simp only [srcA, srcB, fe] at hr
  simp only [hr] at he
  cases r <;> exact he

/-- Settles O28: the checks of a definition word in their order, and of a ring that may change. -/
theorem ringDefinitions : Obligations.RingDefinitions := by
  unfold Obligations.RingDefinitions
  intro h q a b buf s k x y d legal fresh changes
  have hmay (t : Bool) (p : Prop) (ht : t = true ↔ p) : (!k.changeDeparted q && t) = true ↔ fresh ∧ p := by
    rw [Bool.and_eq_true, ht, Bool.not_eq_true']
  refine ⟨fun hi => ⟨fun hspace => ?noBuffer, fun hspace => ?buffer⟩, fun hi => ?reset⟩
  case noBuffer => exact traps_here (exec_qdef hi (ringDefOf_none (congrArg ringBuf hspace) ..))
  case buffer =>
    have hbuf : ringBuf (bits x 4 2) = some buf := by obtain ⟨hn, rfl⟩ | ⟨hn, rfl⟩ | ⟨hn, rfl⟩ := hspace <;> rw [hn] <;> rfl
    have he := exec_qdef (q := q) hi (ringDefOf_eq hbuf ..)
    have hend : d.endByte = 512 * (d.base + d.nslot * d.slotsz) := by rw [RingDef.endByte]; ring
    have hfits : (bits x 0 4 ≠ 0 ∨ bits x 37 27 ≠ 0 ∨ k.reserved buf < d.endByte) ↔
        ¬ (bits x 0 4 = 0 ∧ bits x 37 27 = 0 ∧ 512 * (d.base + d.nslot * d.slotsz) ≤ k.reserved buf) := by
      rw [hend, not_and_or, not_and_or, not_le]
    have hused := hmay (k.ringUsed q || k.ringNamed q) _ (Bool.or_eq_true_iff ..)
    by_cases hr : (1 ≤ d.nslot ∧ d.nslot ≤ 64) ∧ (1 ≤ d.slotsz ∧ d.slotsz ≤ 512)
    case neg =>
      rw [if_neg hr] at he
      exact ⟨fun _ => traps_here he, fun hok => absurd ⟨hok.1, hok.2.1⟩ hr, fun hok => absurd ⟨hok.1, hok.2.1⟩ hr⟩
    case pos =>
      rw [if_pos hr] at he
      refine ⟨fun hbad => traps_here ?_, fun hok hfr hu => traps_here ?_, fun hok hfree => justRetires_changeRing (h := h) ?_⟩
      · exact he.trans (if_pos (hfits.2 fun hz => hbad ⟨hr.1, hr.2, hz⟩))
      · exact (he.trans (if_neg fun hz => hfits.1 hz hok.2.2)).trans (if_pos (hused.2 ⟨hfr, hu⟩))
      · exact (he.trans (if_neg fun hz => hfits.1 hz hok.2.2)).trans (if_neg (mt hused.1 hfree))
  case reset =>
    have he : exec (.qreset h q) s = execQreset h q s := rfl
    have he := exec_of_issues he hi
    have hheld := hmay ((k.ring q).isNone || k.ringNamed q) (k.ring q = none ∨ k.ringNamed q = true) (by simp)
    exact ⟨fun hfr hn => traps_here (he.trans (if_pos (hheld.2 ⟨hfr, hn⟩))),
      fun hfree => justRetires_changeRing (he.trans (if_neg (mt hheld.1 hfree)))⟩

end Sys2Proof.Claims

end

section

/-! ## O29, O43: where a fill begins

A slot that is freed in the cycle of a fill becomes EMPTY first (R89); then the fill begins at the producer pointer, or finds its
slot taken (R88). -/

namespace Sys2Proof.Machine

theorem Slot.open_iff (x : Slot) : x.open = true ↔ x.state = .empty ∧ x.by_ ≠ .again := by simp [Slot.open]

section fill
variable {k : Core} {q : RingId} {r : Ring} {now : Nat}

theorem Ring.lt_length_of_slot_ne {r : Ring} {i : Nat} (h : (r.slot i).state ≠ .empty) : i < r.slots.length := by
  by_contra hi
  refine h ?_
  rw [Ring.slot, List.getD_eq_getElem?_getD, List.getElem?_eq_none (Nat.le_of_not_lt hi)]
  rfl

theorem Core.modRing_modRing (k : Core) (q : RingId) (f g : Ring → Ring) : (k.modRing q f).modRing q g = k.modRing q (g ∘ f) := by
  simp [Core.modRing, Core.modLive]

/-- Two changes of a ring that agree on it. -/
theorem Core.modRing_congr {k : Core} {q : RingId} {r : Ring} {f g : Ring → Ring} (hr : k.ring q = some r) (h : f r = g r) :
    k.modRing q f = k.modRing q g := by
  simp only [Core.modRing, Core.modLive]
  rw [show k.live.rings[q] = some r from hr, Option.map_some, Option.map_some, h]

/-- Nothing is freed for a fill whose slot is not HELD, or whose ring has no release that is due (R89). -/
theorem Core.freeFirst_of_none_due (hr : k.ring q = some r)
    (h : (r.slot r.prod).state = .held → ∀ e ∈ r.rels.head?, now < e.entered + Config.tQ) : k.freeFirst q now = k := by
  simp only [Core.freeFirst, hr]
  split
  case isFalse => rfl
  case isTrue hheld =>
    cases hrels : r.rels with
    | nil => rfl
    | cons e es =>
      have hdue := h hheld e (by rw [hrels]; rfl)
      simp [Core.departFrom, hdue]

/-- The ring r once the one release that it has, of the slot at its producer pointer, has departed (R88, R89). -/
def Ring.freed (r : Ring) : Ring :=
  { ({ r with rels := [] } : Ring).modSlot r.prod fun x => { x with state := .empty, by_ := .none } with relDep := r.relDep + 1 }

theorem Ring.length_freed (r : Ring) : r.freed.slots.length = r.slots.length := List.length_set ..

theorem Ring.open_freed {r : Ring} (hlen : r.prod < r.slots.length) : (r.freed.slot r.freed.prod).open = true := by
  have hslot : r.freed.slot r.freed.prod = { r.slot r.prod with state := .empty, by_ := .none } := Ring.slot_of_set_self rfl hlen
  rw [hslot]
  rfl

/-- The one release of a ring departs for the fill that comes to its slot (R89). -/
theorem Core.ring_freeFirst_of_due {n : Nat} (hr : k.ring q = some r) (hheld : (r.slot r.prod).state = .held)
    (hrels : r.rels = [⟨r.prod, n⟩]) (hdue : n + Config.tQ ≤ now) (hroom : k.noticeRoom q = true) :
    (k.freeFirst q now).ring q = some r.freed := by
  have hr' : (k.modRing q fun r => { r with rels := [] }).ring q = some { r with rels := [] } := by simp [hr]
  have hfree : k.freeFirst q now = (k.modRing q fun r => { r with rels := [] }).emptySlot q r.prod now := by
    simp [Core.freeFirst, hr, hheld, hrels, Core.departFrom, Nat.not_lt.2 hdue, hroom]
  rw [hfree]
  exact Core.ring_emptySlot hr' ..

theorem Core.front_departFrom (rels : List Release) (k : Core) : (Core.departFrom q now rels k).live.front = k.live.front := by
  induction rels generalizing k with
  | nil => rfl
  | cons e es ih =>
    unfold Core.departFrom
    split
    · rfl
    · rw [ih, Core.front_emptySlot, Core.modRing_front]

/-- What is freed leaves the front end as it is. -/
theorem Core.front_freeFirst : (k.freeFirst q now).live.front = k.live.front := by
  unfold Core.freeFirst
  split
  · split
    · exact Core.front_departFrom ..
    · rfl
  · rfl

/-- The ring r once a fill of its own core has begun at its producer pointer (R88). -/
def Ring.fillFrom (r : Ring) (who : Holder) (now : Nat) : Ring :=
  { r with
    slots := r.slots.set r.prod { r.slot r.prod with state := .filling, by_ := who, since := now, own := r.ownMade }
    filled := r.filled + 1, ownMade := r.ownMade + 1, ownKept := r.ownMade + 1 }

theorem Ring.state_fillFrom (hlen : r.prod < r.slots.length) (who : Holder) : ((r.fillFrom who now).slot r.prod).state = .filling := by
  have hslot : (r.fillFrom who now).slot r.prod =
      { r.slot r.prod with state := .filling, by_ := who, since := now, own := r.ownMade } := Ring.slot_of_set_self rfl hlen
  rw [hslot]

/-- A fill of the core's own, where re-execution has made every fill that stands (R88, R361). -/
theorem Core.beginFill_eq (hr : (k.freeFirst q now).ring q = some r) (hdef : r.viewNo = r.defNo) (hown : r.ownKept ≤ r.ownMade)
    (who : Holder) :
    k.beginFill q who now =
      if (r.slot r.prod).open then .ok r.prod ((k.freeFirst q now).modRing q (·.fillFrom who now)) else .busy r.prod := by
  have hne : ¬ r.ownMade < r.ownKept := Nat.not_lt.2 hown
  simp only [Core.beginFill, hr, hdef, ne_eq, not_true_eq_false, if_false, hne]
  cases hopen : (r.slot r.prod).open
  · rfl
  · refine congrArg (Fill.ok r.prod) ?_
    rfl

end fill

end Sys2Proof.Machine

namespace Sys2Proof.Claims

open Sys2Proof.Machine

/-- The core that a word leaves when it retires is the one that its effects have made, but for the front end. -/
theorem Retired.me {s m t : State} {fl : FFlags} {target : Option Word} {own : Option Bool} {keeps : Bool}
    (h : Retired s m t fl target own keeps) (hc : m.cur = s.cur) : t.me = m.me.setFront (fe t) := by
  conv_lhs => rw [h.only]
  exact hc ▸ m.core_modFront m.cur fun _ => fe t

theorem JustRetires.congr {s m m' : State} {i : Instr} (h : JustRetires s m i) (e : m = m') : JustRetires s m' i := e ▸ h

/-- The fill that a `qfill` notes for the time its slot becomes FULL (R261). -/
def noteFill (x : Word) (po i : Nat) (r : Ring) : Ring :=
  { r with fills := r.fills ++ [⟨i, x.setWidth 32, Fin.ofNat 8 (bits x 32 3), po⟩] }

section qfill
variable {s : State} {h : Hdr} {q : RingId} {a : SReg} {r : Ring} (hi : Issues s h { srcs := [(.s a, h.pda)], engine := true })
  (h0 : bits (srcA s h a) 35 29 = 0) (h7 : bits (srcA s h a) 32 3 ≠ 7)
include hi h0

/-- A `qfill` of FORMAT 7 (R261). -/
theorem exec_qfill_format (h7 : bits (srcA s h a) 32 3 = 7) :
    exec (.qfill h q a) s = .next (s.takeWord.2.trapHere .format s.takeWord.1) := by
  have he : exec (.qfill h q a) s = execQfill h q a s := rfl
  exact ((exec_of_issues he hi).trans (if_neg (not_not.2 h0))).trans (if_pos h7)

include h7

/-- A legal `qfill`, by what its ring answers (R89, R261). -/
theorem exec_qfill (hr : s.me.ring q ≠ none) :
    exec (.qfill h q a) s = match s.me.beginFill q .front s.cycle with
      | .busy i => .next ((s.modCore s.cur fun k => k.doubleFill q s.cycle).trapHere .ringDoubleFill (s.fillInfo s.cur 0 q i))
      | .kept k => .next ((s.setCore s.cur k).retire h none {})
      | .ok i k => .next ((s.setCore s.cur (k.modRing q (noteFill (srcA s h a) k.live.front.at_.po i))).retire h none {}) := by
  have he : exec (.qfill h q a) s = execQfill h q a s := rfl
  have he := ((exec_of_issues he hi).trans (if_neg (not_not.2 h0))).trans (if_neg h7)
  have hdefined : ¬ (s.me.ring q).isNone = true := mt Option.isNone_iff_eq_none.1 hr
  refine (he.trans (if_neg hdefined)).trans ?_
  cases s.me.beginFill q .front s.cycle <;> rfl

theorem exec_qfill_undefined (hr : s.me.ring q = none) : exec (.qfill h q a) s = .next (s.trapHere .ringState (slotInfo q 0)) := by
  have he : exec (.qfill h q a) s = execQfill h q a s := rfl
  have he := ((exec_of_issues he hi).trans (if_neg (not_not.2 h0))).trans (if_neg h7)
  exact he.trans (if_pos (Option.isNone_iff_eq_none.2 hr))

/-- A `qfill` that begins its fill retires (R88, R261). -/
theorem qfill_begins (hr : s.me.ring q ≠ none) (hl : (s.me.freeFirst q s.cycle).ring q = some r) (hdef : r.viewNo = r.defNo)
    (hown : r.ownKept ≤ r.ownMade) (hopen : (r.slot r.prod).open = true) :
    JustRetires s (s.modCore s.cur fun k => (k.freeFirst q s.cycle).modRing q
      (noteFill (srcA s h a) (fe s).at_.po r.prod ∘ (·.fillFrom .front s.cycle))) (.qfill h q a) := by
  have he := exec_qfill hi h0 h7 hr
  rw [Core.beginFill_eq hl hdef hown, if_pos hopen] at he
  dsimp only at he
  rw [Core.modRing_modRing, Core.modRing_front, Core.front_freeFirst] at he
  exact (FrontStands.of_setCore ((Core.modRing_front ..).trans Core.front_freeFirst) (Core.freeFirst_store ..)).justRetires he

end qfill

/-- Settles O29: what becomes of the slot at the producer pointer is read off `Core.beginFill_eq`. -/
theorem fillsOfTheFrontEnd : Obligations.FillsOfTheFrontEnd := by
  unfold Obligations.FillsOfTheFrontEnd
  intro h q a r s k x i hi
  have he : exec (.qfill h q a) s = execQfill h q a s := rfl
  refine ⟨fun h0 => traps_here ((exec_of_issues he hi).trans (if_pos h0)),
    fun h0 h7 => ⟨_, traps_of_trapHere (m := s.takeWord.2) rfl rfl (exec_qfill_format hi h0 h7)⟩,
    fun h0 h7 => ⟨fun hr => traps_here (exec_qfill_undefined hi h0 h7 hr),
      fun hr hdef hown => ⟨fun hs hd => ?busy, fun n hs hrels hdue hfed hfar => ?freed, fun hs hby => ?empty⟩⟩⟩
  all_goals have hsome : k.ring q ≠ none := by simp [hr]
  case busy =>
    have he := exec_qfill hi h0 h7 hsome
    have hshut : ¬ (r.slot r.prod).open = true := fun hopen => hs ((Slot.open_iff _).1 hopen).1
    have hfree : k.freeFirst q s.cycle = k := Core.freeFirst_of_none_due hr hd
    rw [Core.beginFill_eq (hfree ▸ hr) hdef hown, if_neg hshut] at he
    exact traps_of_trapHere rfl (fe_modCore ..) he
  case freed =>
    have hlen : r.prod < r.slots.length := Ring.lt_length_of_slot_ne (by rw [show (r.slot r.prod).state = .held from hs]; decide)
    have hroom : k.noticeRoom q = true := (Core.noticeRoom_of_ring hr).trans (by simp [hfed, hfar])
    have hl := Core.ring_freeFirst_of_due hr hs hrels hdue hroom
    obtain ⟨t, he, hret, hnone⟩ := qfill_begins hi h0 h7 hsome hl hdef hown (Ring.open_freed hlen)
    refine ⟨t, noteFill x (fe s).at_.po r.prod (r.freed.fillFrom .front s.cycle), he, hnone, hret.bytes, hret.po, ?_, ?_, rfl, rfl⟩
    · rw [hret.me rfl, State.me, State.modCore_cur, State.core_modCore]
      exact (Core.ring_modRing ..).trans (congrArg _ hl)
    · exact Ring.state_fillFrom (r := r.freed) (Ring.length_freed r ▸ hlen) .front
  case empty =>
    have hopen : (r.slot r.prod).open = true := (Slot.open_iff _).2 ⟨hs, hby⟩
    have hfree : k.freeFirst q s.cycle = k := Core.freeFirst_of_none_due hr fun hheld => absurd (hs.symm.trans hheld) (by decide)
    refine (qfill_begins hi h0 h7 hsome (hfree ▸ hr) hdef hown hopen).congr (modCore_congr rfl ?_)
    change (k.freeFirst q s.cycle).modRing q _ = _
    rw [hfree]
    exact Core.modRing_congr hr rfl

end Sys2Proof.Claims

end

section

/-! ## O30: the ring words that take, release and read a slot -/

namespace Sys2Proof.Machine

/-- The pointer word of R263, as a sum and as its fields. -/
theorem Ring.ptrWord_eq_pointerWord (r : Ring) : r.ptrWord = Claims.pointerWord r := by
  have hchk := r.def_.chk.toNat_le
  have hnext := r.nextc.isLt
  apply BitVec.eq_of_toNat_eq
  unfold Ring.ptrWord Claims.pointerWord
  refine Eq.trans ?_ (toNat_append_eq_add ..).symm
  simp only [ite_eq_toNat_mul, toNat_append_eq_add, BitVec.toNat_ofNat, BitVec.toNat_ofBool]
  simp only [Ring.cons, Ring.prod, Ring.nextc, Ring.expected] at hnext ⊢
  omega

/-- The slot that the next take of a ring gets, where its release has departed before a rollback (R361). -/
theorem Core.head_of_gone {k : Core} {q : RingId} {r : Ring} {e : Gone} (hr : k.ring q = some r)
    (hg : (k.flow.gone.find? fun e => e.ring == q && e.defNo == r.viewNo && e.num == r.tookMade) = some e) :
    k.head q = some ⟨e.slot, e.tag, true⟩ := by
  rw [Core.head, hr, Option.bind_some, Core.takeOf, hr, Option.bind_some, hg]

/-- The front end takes again a slot whose release has departed: the take is only counted (R361). -/
theorem Core.take_front_gone {k : Core} {q : RingId} {i : Nat} {x : Slot} (h : k.head q = some ⟨i, x, true⟩) :
    (k.take q .front).modRing q (fun r => { r with frontHeld := r.frontHeld ++ [i] }) = k.modRing q fun r =>
      { r with tookMade := r.tookMade + 1, ghosts := r.ghosts ++ [i], frontHeld := r.frontHeld ++ [i] } := by
  simp only [Core.take, h, if_true, Core.modRing_modRing]
  rfl

end Sys2Proof.Machine

namespace Sys2Proof.Claims

open Sys2Proof.Machine

/-- A word whose result the device has once its effects on rings are made (R133, R360). -/
theorem yields_after {s : State} {g : Core → Core} {i : Instr} {h : Hdr} {tag : TagId} {d : SReg} {lat : Nat} {v : Word}
    (hf : Fresh s h tag) (hfe : (g s.me).live.front = fe s) (hlog : (g s.me).logged = none) (hs : (g s.me).store = s.me.store)
    (he : exec i s = .next ((s.modCore s.cur g).deliver h d lat v)) : Yields s (s.modCore s.cur g) i tag d v := by
  have hme : (s.modCore s.cur g).me = g s.me := s.core_modCore s.cur g
  have hm : fe (s.modCore s.cur g) = fe s := (fe_modCore s g).trans hfe
  set m := s.modCore s.cur g with hmdef
  have hlogged : fe (m.modCore s.cur fun k => k.logInput (fe s).at_.po (some (wordOf v))) = fe s := (fe_modCore m _).trans hm
  rw [deliver_eq (by rw [hme]; exact hlog), hm] at he
  have hbytes : SameBytes s m := .setCore fun b => congrArg (·.buf b) hs
  have hret (dn : Done) := retired_after s (m.modCore s.cur fun k => k.logInput (fe s).at_.po (some (wordOf v))) rfl
    (congrArg (·.at_.pc) hlogged) (congrArg (·.at_.po) hlogged) (hbytes.trans (.modCore _ _ _ fun _ _ => rfl)) h none dn
  exact ⟨_, he, hret _, awaits_retire (congrArg (·.regs) hlogged) hf.1 (Nat.le_add_right ..)⟩

section words
variable {s : State} {h : Hdr} {d : SReg} {q : RingId} {tag : TagId} {r : Ring} (hi : Issues s h { dsts := [.s d], engine := true })
include hi

/-- The three words on a ring that is not defined (R262, R263). -/
theorem ringWords_undefined (hr : s.me.ring q = none) (slot : Fin 64) (ptr : Bool) :
    Traps s s (.qpop h d q) .ringState (slotInfo q 0) ∧ Traps s s (.qpopFree h d q) .ringState (slotInfo q 0) ∧
      Traps s s (.qtag h d q slot ptr) .ringState (slotInfo q 0) := by
  have hpop : exec (.qpop h d q) s = execQpop h d q s := rfl
  have hfree : exec (.qpopFree h d q) s = execQpopFree h d q s := rfl
  have htag : exec (.qtag h d q slot ptr) s = execQtag h d q slot ptr s := rfl
  have hpop := exec_of_issues hpop hi
  have hfree := exec_of_issues hfree hi
  have htag := exec_of_issues htag hi
  simp only [hr] at hfree htag
  exact ⟨traps_here (hpop.trans (if_pos (Option.isNone_iff_eq_none.2 hr))), traps_here hfree, traps_here htag⟩

variable (hf : Fresh s h tag) (hr : s.me.ring q = some r)
include hf hr

/-- A `qpop` on a ring that is defined, by what its consumer pointer finds (R262). -/
theorem exec_qpop {x : Option Taken} (hx : s.me.head q = x) :
    exec (.qpop h d q) s = x.elim (.next (s.setWait s.cur (.qpop q d tag))) fun x =>
      if x.tag.tagerr then .next (s.trapHere .ringState (slotInfo q x.slot)) else .next (s.popSlot h d q x) := by
  have ⟨_, hroom, _⟩ := hf
  have he : exec (.qpop h d q) s = execQpop h d q s := rfl
  have he := exec_of_issues he hi
  simp only [hr, hx, hroom, Fresh.theTag hf, Option.isNone_some, Bool.not_true, Bool.false_eq_true, if_false] at he
  cases x <;> exact he

/-- A `qpop` that takes a slot, whatever the take makes of the ring (R88, R262). -/
theorem qpop_yields {x : Taken} {g : Ring → Ring} (hx : s.me.head q = some x) (herr : x.tag.tagerr = false)
    (hg : (s.me.take q .front).modRing q (fun r => { r with frontHeld := r.frontHeld ++ [x.slot] }) = s.me.modRing q g) :
    Yields s (s.modCore s.cur fun k => k.modRing q g) (.qpop h d q) tag d (tagWord { x.tag with state := .held }) := by
  have he := (exec_qpop hi hf hr hx).trans (if_neg (Bool.eq_false_iff.1 herr))
  have hcore : s.popSlot h d q x = (s.modCore s.cur fun k => k.modRing q g).deliver h d 12 { x.tag with state := .held }.tag :=
    congrArg (State.deliver · h d 12 _) (modCore_congr rfl hg)
  rw [hcore, Slot.tag_eq_tagWord] at he
  exact yields_after hf rfl hf.2.2 rfl he

/-- `qpop.free` where the front end holds a slot, and where it holds none (R262). -/
theorem exec_qpopFree :
    exec (.qpopFree h d q) s = match r.frontHeld with
      | [] => .next (s.trapHere .ringState (slotInfo q 0))
      | n :: ns => .next ((s.modCore s.cur fun k =>
          (k.release q n s.cycle).modRing q fun r => { r with frontHeld := ns }).deliver h d 12 (r.slot n).tag) := by
  have ⟨_, hroom, _⟩ := hf
  have he : exec (.qpopFree h d q) s = execQpopFree h d q s := rfl
  have he := exec_of_issues he hi
  simp only [hr, hroom, Bool.not_true, Bool.false_eq_true, if_false] at he
  exact he

/-- What `qtag` reads of a ring that is defined (R263). -/
theorem exec_qtag (slot : Fin 64) (ptr : Bool) :
    exec (.qtag h d q slot ptr) s = if ptr then .next (s.deliver h d 6 r.ptrWord)
      else if r.def_.nslot ≤ slot.val then .next (s.takeWord.2.trapHere .bounds s.takeWord.1)
      else .next (s.deliver h d 6 (r.slot slot.val).tag) := by
  have ⟨_, hroom, _⟩ := hf
  have he : exec (.qtag h d q slot ptr) s = execQtag h d q slot ptr s := rfl
  have he := exec_of_issues he hi
  simp only [hr, hroom, Bool.not_true, Bool.false_eq_true, if_false] at he
  exact he

end words

/-- Settles O30: a take is `Core.head` and `Core.take`; a release and the readings are one step each. -/
theorem ringWordsOfTheFrontEnd : Obligations.RingWordsOfTheFrontEnd := by
  unfold Obligations.RingWordsOfTheFrontEnd
  intro h d q slot n ns tag r s k here i gone there hf hi
  refine ⟨fun hr => ⟨(ringWords_undefined hi hr slot false).1, (ringWords_undefined hi hr slot false).2.1,
    fun b => (ringWords_undefined hi hr slot b).2.2⟩, fun hr => ?_⟩
  refine ⟨fun e hg => ⟨fun herr => ?goneErr, fun herr => ?goneTaken⟩, 
    fun hg => ⟨fun ht => ?stands, fun ht herr => ?err, fun ht herr => ?taken⟩,
    fun hheld => ?noneHeld, fun hheld => ?released, fun hlt => ?slotTag, fun hge => ⟨s.takeWord.1, ?noSlot⟩, ?pointers⟩
  case goneErr => exact traps_here ((exec_qpop hi hf hr (Core.head_of_gone hr hg)).trans (if_pos herr))
  case goneTaken =>
    have hhead := Core.head_of_gone hr hg
    exact qpop_yields (x := ⟨e.slot, e.tag, true⟩) hi hf hr hhead herr (Core.take_front_gone hhead)
  case stands =>
    have hhead := (Core.head_eq hr hg).trans (if_neg ht)
    exact (FrontStands.refl s).standsIn (exec_qpop hi hf hr hhead) FWait.noConfusion
  case err => exact traps_here ((exec_qpop hi hf hr ((Core.head_eq hr hg).trans (if_pos ht))).trans (if_pos herr))
  case taken =>
    have hhead := (Core.head_eq hr hg).trans (if_pos ht)
    have htake : (k.take q .front).modRing q _ = k.modRing q (·.takeByFront i) := Core.take_front (f := k.live.front) hhead
    refine qpop_yields (x := ⟨i, r.slot i, false⟩) hi hf hr hhead herr (htake.trans (Core.modRing_congr hr ?_))
    rfl
  case noneHeld =>
    have he := exec_qpopFree hi hf hr
    rw [hheld] at he
    exact traps_here he
  case released =>
    have he := exec_qpopFree hi hf hr
    rw [hheld] at he
    rw [← Slot.tag_eq_tagWord]
    exact yields_after hf rfl hf.2.2 rfl he
  case slotTag =>
    rw [← Slot.tag_eq_tagWord]
    exact yields_of_deliver hf ((exec_qtag hi hf hr slot false).trans (if_neg (Nat.not_le.2 hlt)))
  case noSlot =>
    exact traps_of_trapHere (m := s.takeWord.2) rfl rfl ((exec_qtag hi hf hr slot false).trans (if_pos hge))
  case pointers =>
    rw [← Ring.ptrWord_eq_pointerWord]
    exact yields_of_deliver hf (exec_qtag hi hf hr slot true)

end Sys2Proof.Claims

end

section

/-! ## O31: the copy words -/

namespace Sys2Proof.Machine

@[simp] theorem Core.modCopy_front (k : Core) (e : EntryNo) (f : CopyEntry → CopyEntry) : (k.modCopy e f).live.front = k.live.front := rfl

/-- `cdef`, as R255 has it, of an entry: it asks for the descriptor at an address. -/
def CopyEntry.ask (x : CopyEntry) (sp : Space) (a : Word) (f : Front) : CopyEntry :=
  { x with
    reading := some (sp, a.toNat), readTrap := none, state := .idle, trap := none, ends := [], level := f.level, vahi := f.at_.vahi
    word := f.at_.pc, po := f.at_.po }

end Sys2Proof.Machine

namespace Sys2Proof.Claims

open Sys2Proof.Machine

/-- A word that changes its core and retires, its front end and its buffers as they were. -/
theorem justRetires_of_modCore {s : State} {i : Instr} {h : Hdr} {g : Core → Core} (hfront : (g s.me).live.front = fe s)
    (hstore : (g s.me).store = s.me.store) (he : exec i s = .next ((s.modCore s.cur g).retire h none {})) :
    JustRetires s (s.modCore s.cur g) i := (FrontStands.of_setCore hfront hstore).justRetires he

section words
variable {s : State} {h : Hdr} {e : EntryNo} {a b : SReg}

/-- `cdef` (R255). -/
theorem exec_cdef (sp : Space) (hi : Issues s h { srcs := [(.s a, h.pda)], engine := true }) :
    exec (.cdef h e sp a) s = if (srcA s h a).toNat % 64 ≠ 0 then .next (s.trapHere .alignFault (srcA s h a))
      else if (s.me.copy e).active then .next (s.trapHere .copyDesc (copyInfo e 0xFF))
      else .next ((s.modCore s.cur fun k => k.modCopy e fun x => x.ask sp (srcA s h a) (fe s)).retire h none {}) := by
  have he : exec (.cdef h e sp a) s = execCdef h e sp a s := rfl
  exact exec_of_issues he hi

/-- The entry of s that a `cgo` or `cdem` starts (R256). -/
def started (s : State) (e : EntryNo) (d : Desc) (demand : Bool) (src dst : Word) (f : Front) (bar : Option Nat) : State :=
  s.modCore s.cur fun k => k.modCopy e fun x => x.start demand src dst f bar (k.live.circuits[Desc.circ d]).openings

section start
variable {i : Instr} {demand : Bool} (hi : Issues s h { srcs := [(.s a, h.pda), (.s b, h.pdb)], engine := true })
  (he : exec i s = s.startCopy i h e a b demand)
include hi he

/-- `cgo` and `cdem` wait while their entry's descriptor is read (R255). -/
theorem startCopy_waits (hread : (s.me.copy e).reading ≠ none) (htrap : (s.me.copy e).readTrap = none) : exec i s = .next s := by
  obtain ⟨x, hx⟩ := Option.ne_none_iff_exists'.1 hread
  have he := exec_of_issues he hi
  simpa only [State.withEntry, hx, htrap] using he

variable (hread : (s.me.copy e).reading = none)
include hread

/-- An entry that moves data is not started again (R253). -/
theorem startCopy_active (hact : (s.me.copy e).active = true) :
    exec i s = .next (s.trapHere .copyDesc (copyInfo e 0xFF)) := by
  have he := exec_of_issues he hi
  simp only [State.withEntry, hread] at he
  exact he.trans (if_pos hact)

variable (hact : ¬ (s.me.copy e).active = true)
include hact

/-- An entry without descriptor is not started (R253). -/
theorem startCopy_empty (hdesc : (s.me.copy e).desc = none) : exec i s = .next (s.trapHere .copyDesc (copyInfo e 0xFE)) := by
  have he := exec_of_issues he hi
  simp only [State.withEntry, hread] at he
  rw [if_neg hact, hdesc] at he
  exact he

/-- A descriptor is checked, and where it completes with a barrier that barrier's address is translated (R253, R256). -/
theorem startCopy_desc {d : Desc} (hdesc : (s.me.copy e).desc = some d) :
    exec i s = match Desc.bad d s.me (srcA s h a) (srcB s h b) with
      | some off => .next (s.trapHere .copyDesc (copyInfo e off))
      | none =>
        if Desc.cmpl d = 1 then
          s.withMem .g .rmw 32 [(Desc.caddr d, 32)] (blocks := true) fun m ps _ => .next ((started m e d demand (srcA s h a)
            (srcB s h b) (fe s) ((ps.headD []).head?.map (·.addr))).retire h none {})
        else .next ((started s e d demand (srcA s h a) (srcB s h b) (fe s) none).retire h none {}) := by
  have he := exec_of_issues he hi
  simp only [State.withEntry, hread] at he
  rw [if_neg hact, hdesc] at he
  refine he.trans ?_
  dsimp only
  change (match Desc.bad d s.me (srcA s h a) (srcB s h b) with | some _ => _ | none => _) = _
  cases Desc.bad d s.me (srcA s h a) (srcB s h b) <;> rfl

end start

end words

/-- Settles O31. -/
theorem copyWords : Obligations.CopyWords := by
  unfold Obligations.CopyWords
  intro h e sp a b desc s k x y en f active word starts
  have hactive : (k.copy e).active = true ↔ active := CopyEntry.active_iff _
  refine ⟨fun hi => ?cdef, fun hi i dem hit => ?start, fun hi => ?cwait⟩
  case cdef =>
    have he := exec_cdef (e := e) sp hi
    refine ⟨fun hx => traps_here (he.trans (if_pos hx)), 
      fun hx ha => traps_here ((he.trans (if_neg (not_not.2 hx))).trans (if_pos (hactive.2 ha))), fun hx ha => ?_⟩
    exact justRetires_of_modCore rfl rfl ((he.trans (if_neg (not_not.2 hx))).trans (if_neg (mt hactive.1 ha)))
  case start =>
    have he : exec i s = s.startCopy i h e a b dem := by obtain ⟨rfl, rfl⟩ | ⟨rfl, rfl⟩ := hit <;> rfl
    have hstarts {bar : Option Nat} (he : exec i s = .next ((started s e desc dem x y f bar).retire h none {})) :
        JustRetires s (starts dem bar) i := justRetires_of_modCore rfl rfl he
    refine ⟨startCopy_waits hi he, fun hread =>
      ⟨fun ha => traps_here (startCopy_active hi he hread (hactive.2 ha)), fun ha hdesc => ?_, fun ha hdesc => ?_⟩⟩
    all_goals replace ha := mt hactive.1 ha
    · exact traps_here (startCopy_empty hi he hread ha hdesc)
    · have hd := startCopy_desc hi he hread ha hdesc
      refine ⟨fun off hbad => ?_, fun hgood hcmpl => ?_, fun hgood hcmpl => ?_⟩
      · rw [hbad] at hd
        exact traps_here hd
      all_goals rw [hgood] at hd
      · exact hstarts (hd.trans (if_neg hcmpl))
      · refine accesses_of_blocking (hd.trans (if_pos hcmpl)) fun ps need hps p hp => hstarts ?_
        rw [hp] at hps
        exact hps
  case cwait => 
    have he : exec (.cwait h e) s = execCwait h e s := rfl
    have he := exec_of_issues he hi
    exact ⟨fun ha => (FrontStands.refl s).standsIn (he.trans (if_pos (hactive.2 ha))) FWait.noConfusion,
      fun ha => (FrontStands.refl s).justRetires (he.trans (if_neg (mt hactive.1 ha)))⟩
end Sys2Proof.Claims
end

section

/-! ## O32: what the store stream and the reads of an engine leave of the state -/

namespace Sys2Proof.Machine

/-- The core k' has rings, queues, engines and circuits as k has them: at most its front end and its counts of effects differ. -/
def Core.EnginesStay (k k' : Core) : Prop := k'.live = { k.live with front := k'.live.front, prod := k'.live.prod }

theorem Core.EnginesStay.trans {k l m : Core} (h : k.EnginesStay l) (g : l.EnginesStay m) : k.EnginesStay m := by
  unfold Core.EnginesStay at *
  rw [g, h]

theorem Core.EnginesStay.live {k k' : Core} (h : k.EnginesStay k') :
    k'.live = { k.live with front := k'.live.front, prod := k'.live.prod } := h
theorem Core.EnginesStay.circ {k k' : Core} (h : k.EnginesStay k') (n : CircNo) : k'.circ n = k.circ n :=
  (congrArg (fun l : Live => l.circuits[n]) h.live).trans rfl
theorem Core.EnginesStay.ring {k k' : Core} (h : k.EnginesStay k') : k'.ring = k.ring :=
  funext fun q => (congrArg (fun l : Live => l.rings[q]) h.live).trans rfl
theorem Core.EnginesStay.fullSlots {k k' : Core} (h : k.EnginesStay k') (x : Circuit) : k'.fullSlots x = k.fullSlots x := by
  rw [Core.fullSlots, Core.fullSlots, h.ring]

theorem Core.enterStore_enginesStay (k : Core) (now : Nat) (op : StoreOp) : k.EnginesStay (k.enterStore now op) := by
  unfold Core.enterStore
  cases op.act <;> rfl

theorem Core.settleFrom_enginesStay (c : CoreId) (now : Nat) (ops : List StoreOp) (k : Core) :
    k.EnginesStay (Core.settleFrom c now ops k) := by
  induction ops generalizing k with
  | nil => rfl
  | cons op ops ih =>
    unfold Core.settleFrom
    extract_lets wide stays
    split
    · exact (k.enterStore_enginesStay now op).trans (ih _)
    · rfl

theorem Core.settle_enginesStay (k : Core) (c : CoreId) (now : Nat) : k.EnginesStay (k.settle c now) :=
  have once (k : Core) : k.EnginesStay (Core.settleFrom c now k.flow.storeQ k).popAcquires :=
    (Core.settleFrom_enginesStay c now _ k).trans rfl
  (once k).trans (once _)

/-- An effect that joins the store stream is none of the engines (R98). -/
theorem Core.pushStore_enginesStay (k : Core) (c : CoreId) (now : Nat) (act : StoreAct) (rel : Option Scope) (tag : Option TagId)
    (party : Fin 4) (need : Option Need) : k.EnginesStay (k.pushStore c now act rel tag party need) := by
  unfold Core.pushStore
  extract_lets n level k1
  split
  · rfl
  · exact Core.EnginesStay.trans (l := k1.modFlow _) rfl (Core.settle_enginesStay ..)

theorem State.readOwn_metered {s t : State} {c : CoreId} {b : Option Buf} {mark a n : Nat} {cmp bad : Bool} {bs : List Byte}
    (h : s.readOwn c b mark a n cmp = some (bs, bad, t)) : Metered s t := by
  unfold State.readOwn at h
  dsimp only at h
  split at h
  · cases h
  · cases h
    (repeat' split)
    · exact .refl _
    · exact .of_free (State.takeWords_free ..)
    · exact .refl _

/-- A read of an engine that is served changes the counts of regulators and ports alone (R108, R383). -/
theorem State.readPieces_metered {s t : State} {c : CoreId} {party : Fin 4} {b : Option Buf} {mark : Nat} {ps : List Piece}
    {bs l : List Byte} {bad w : Option Word} (h : s.readPieces c party b mark ps bs bad = .ok l w t) : Metered s t := by
  induction ps generalizing s bs bad with
  | nil => cases h; exact .refl _
  | cons p ps ih =>
    unfold State.readPieces at h
    split at h
    · cases h
    · cases h
    case h_3 u hu =>
      have hsu : Metered s u := by
        (repeat' split at hu)
        · cases hu; exact .refl s
        · cases hu
        · exact State.readGrant_metered hu
      split at h
      · cases h
      case h_2 hv => exact (hsu.trans (State.readOwn_metered hv)).trans (ih h)

theorem State.engineReadAll_metered {s t : State} {c : CoreId} {party : Nat} {lv : Level} {hi : Byte} {acc : Access} {mark : Nat}
    {sp : Space} {xs : List (Word × Nat)} {bs : List Byte} {w : Option Word}
    (h : s.engineReadAll c party lv hi acc mark sp xs = .ok bs w t) : Metered s t := by
  unfold State.engineReadAll at h
  split at h
  · cases h
  · cases h
  · exact State.readPieces_metered h

theorem State.readPieces_ne_trap {s t : State} {c : CoreId} {party : Fin 4} {b : Option Buf} {mark : Nat} {ps : List Piece}
    {bs : List Byte} {bad : Option Word} {cause : Cause} {a : Word} : s.readPieces c party b mark ps bs bad ≠ .trap cause a t := by
  induction ps generalizing s bs bad with
  | nil => exact EngRead.noConfusion
  | cons p ps ih =>
    unfold State.readPieces
    split
    · exact EngRead.noConfusion
    · exact EngRead.noConfusion
    · split
      · exact EngRead.noConfusion
      case h_2 => exact ih

/-- A read of an engine that traps leaves the front ends as they are (R197). -/
theorem State.front_of_engineReadAll_trap {s t : State} {c : CoreId} {party : Nat} {lv : Level} {hi : Byte} {acc : Access} {mark : Nat}
    {sp : Space} {xs : List (Word × Nat)} {cause : Cause} {a : Word}
    (h : s.engineReadAll c party lv hi acc mark sp xs = .trap cause a t) : t.cur = s.cur ∧ t.front c = s.front c := by
  unfold State.engineReadAll at h
  split at h
  · cases h
  · cases h
    split
    · exact ⟨rfl, congrArg (·.live.front) (s.core_modCore c _)⟩
    · exact ⟨rfl, rfl⟩
  · exact absurd h State.readPieces_ne_trap

end Sys2Proof.Machine

end

section

/-! ## O32: the circuit words -/

namespace Sys2Proof.Machine

theorem Core.circ_modCirc (k : Core) (n : CircNo) (f : Circuit → Circuit) : (k.modCirc n f).circ n = f (k.circ n) := by
  simp [Core.circ, Core.modCirc]
theorem Core.circ_modCirc_ne (k : Core) {n j : CircNo} (h : j ≠ n) (f : Circuit → Circuit) : (k.modCirc n f).circ j = k.circ j := by
  have : n.val ≠ j.val := fun e => h (Fin.ext e.symm)
  simp [Core.circ, Core.modCirc, this]

/-- Branches that the open circuits of a core use, as the model counts them (R264). -/
theorem usedBranches_eq (v : Vector Circuit 64) :
    v.foldl (fun m (x : Circuit) => if x.state = .closed then m else m + x.branches.length) 0 =
      (v.toList.map fun (y : Circuit) => if y.state = .closed then 0 else y.branches.length).sum := by
  rw [← foldl_add_eq_sum, ← Vector.foldl_toList]
  congr 1
  funext m x
  split <;> rfl

theorem circDests_core {w : Word} (h : w.getLsbD 12 = false) (members : Nat) (c : CoreId) :
    circDests w members c = [Fin.ofNat 256 (bits w 0 8)] := if_neg (Bool.eq_false_iff.1 h)
/-- The members of a group without the core itself (R45, R264). -/
theorem circDests_group {w : Word} (h : w.getLsbD 12 = true) (members : Nat) (c : CoreId) :
    circDests w members c = (List.finRange 256).filter fun (d : CoreId) => members.testBit d.val && d != c := by
  rw [circDests, if_pos h]
  simp only [Nat.testBit_eq_decide_div_mod_eq, beq_eq_decide]

end Sys2Proof.Machine

namespace Sys2Proof.Claims

open Sys2Proof.Machine

/-- What a `circ` notes for its re-execution, its front end and bytes as they were (R264, R359). -/
theorem fe_logCirc (m : State) (y : Option Word) : fe (m.logCirc y) = fe m := fe_modCore ..

theorem shut_state_due (x : Circuit) (due : Nat) :
    (x.shut due).state = (if x.state = .open_ ∨ x.state = .opening then .closing else if x.state = .refused then .closed else x.state) ∧
    (x.state = .open_ ∨ x.state = .opening → (x.shut due).due = some due) := by
  unfold Circuit.shut
  cases h : x.state <;> simp [h]

/-- A word whose request joins the store stream retires; it leaves the engines as they were (R98). -/
theorem storeWord_next {m : State} {r : Req} (hroom : m.me.holdRoom (queuedBytes m.me + r.size) = true) (h : Hdr) :
    ∃ held, m.storeWord h (.req r) none = .next ((joinStores m (.req r) none h.tag none).retire h none { holdTag := held }) :=
  storeWord_eq hroom h none none

/-- The engines of a core that has joined its store stream and whose word has retired. -/
theorem me_retire_joinStores (m : State) (act : StoreAct) (rel : Option Scope) (tag : Option TagId) (need : Option Need) (h : Hdr)
    (dn : Done) :
    m.me.EnginesStay ((joinStores m act rel tag need).retire h none dn).me ∧
      ((joinStores m act rel tag need).retire h none dn).me.flow = (joinStores m act rel tag need).me.flow := by
  have hme : ((joinStores m act rel tag need).retire h none dn).me =
      (joinStores m act rel tag need).me.setFront ((fe (joinStores m act rel tag need)).retire h none dn m.cycle) :=
    State.core_modFront ..
  rw [hme]
  refine ⟨Core.EnginesStay.trans (l := (joinStores m act rel tag need).me) ?_ rfl, rfl⟩
  rw [show (joinStores m act rel tag need).me = m.me.pushStore m.cur m.cycle act rel tag 0 need from State.core_modCore ..]
  exact Core.pushStore_enginesStay ..

/-- A word without register result that retires after its effects writes no register, and changes no byte. -/
theorem FrontStands.retire {s m : State} (hm : FrontStands s m) (h : Hdr) (held : Bool) :
    WritesNone s (m.retire h none { holdTag := held }) ∧ SameBytes s (m.retire h none { holdTag := held }) ∧
      (fe (m.retire h none { holdTag := held })).at_.po = (fe s).at_.po + 1 := by
  obtain ⟨ts, hfe⟩ := hm.front
  refine ⟨fun g => (writesNone_retire m h none _ rfl g).trans (congrArg (·.regs.get g) hfe), hm.bytes.trans (.modFront ..), ?_⟩
  rw [fe_retire, Front.retire_po, hfe]

/-- `ccls`: its request joins the store stream, and its circuit closes (R266). -/
theorem ccls_shuts {s : State} {h : Hdr} {n : CircNo} (hi : Issues s h { engine := true }) (hreplay : s.me.replaying = false)
    (hroom : s.me.holdRoom (queuedBytes s.me + 64) = true) :
    ∃ t, exec (.ccls h n) s = .next t ∧ WritesNone s t ∧ SameBytes s t ∧ (fe t).at_.po = (fe s).at_.po + 1 ∧
      t.me.flow = (joinStores s (.req (.close n)) none h.tag none).me.flow ∧
      t.me.circ n = (s.me.circ n).shut (s.me.fullSlots (s.me.circ n)) ∧ ∀ j, j ≠ n → t.me.circ j = s.me.circ j := by
  have he : exec (.ccls h n) s = execCcls h n s := rfl
  have he := exec_of_issues he hi
  obtain ⟨held, hstore⟩ := storeWord_next (m := s) (r := .close n) hroom h
  obtain ⟨hstay, hflow⟩ := me_retire_joinStores s (.req (.close n)) none h.tag none h { holdTag := held }
  obtain ⟨hnone, hbytes, hpo⟩ := (joinStores_frontStands s (.req (.close n)) none h.tag none).retire h held
  set u := (joinStores s (.req (.close n)) none h.tag none).retire h none { holdTag := held }
  have hnew : ¬ (u.me.live.front.at_.po = s.me.live.front.at_.po ∨ s.me.replaying = true) := by
    rw [show u.me.live.front.at_.po = s.me.live.front.at_.po + 1 from hpo, hreplay]
    simp
  rw [hstore] at he
  replace he := he.trans (if_neg hnew)
  have hme : (u.modCore s.cur fun k => k.modCirc n fun x => x.shut (k.fullSlots x)).me =
      u.me.modCirc n fun x => x.shut (u.me.fullSlots x) := State.core_modCore ..
  refine ⟨_, he, fun g => ?_, hbytes.trans (.modCore _ _ _ fun _ _ => rfl), ?_, ?_, ?_, fun j hj => ?_⟩
  · exact (congrArg (fun k : Core => k.live.front.regs.get g) hme).trans (hnone g)
  · exact (congrArg (fun k : Core => k.live.front.at_.po) hme).trans hpo
  · rw [hme]
    exact hflow
  · rw [hme, Core.circ_modCirc, hstay.circ, hstay.fullSlots]
  · rw [hme, Core.circ_modCirc_ne _ hj, hstay.circ]

/-- The port that a circuit word names, where its circuit goes to another chip (R264, R400). -/
def circPort (m : State) (w : Word) : Option PortId := if w.getLsbD 13 then m.chipPort (bits w 14 16) else none

/-- The opening of a circuit, as its request (R264). -/
def openingReq (m : State) (n : CircNo) (w : Word) (size : Nat) (ds : List CoreId) : Req :=
  .opening n ((List.range ds.length).zip ds) (if w.getLsbD 13 then some (bits w 14 16, circPort m w) else none)
    (Fin.ofNat 16 (bits w 8 4)) size ((m.me.circ n).openings + 1)

/-- The state in which a circuit is OPENING and its word noted (R264, R359). -/
def openingIn (m : State) (n : CircNo) (q : RingId) (w : Word) (ds : List CoreId) : State :=
  (m.logCirc none).modCore m.cur fun k => k.modCirc n fun y => y.open w q ds (fe m) (circPort m w)

/-- Branches that the circuits of the core that issues use. -/
def usedBranches (m : State) : Nat :=
  (m.me.live.circuits.toList.map fun (y : Circuit) => if y.state = .closed then 0 else y.branches.length).sum

/-- The destinations of a circuit are neither too few nor too many (R264). -/
def branchesFit (m : State) (ds : List CoreId) : Prop := 1 ≤ ds.length ∧ ds.length ≤ 16 ∧ usedBranches m + ds.length ≤ 64

theorem openingIn_frontStands (m : State) (n : CircNo) (q : RingId) (w : Word) (ds : List CoreId) :
    FrontStands m (openingIn m n q w ds) :=
  .trans (t := m.logCirc none) (.of_moves fun _ => .of_eq rfl rfl) (.of_moves fun _ => .of_eq rfl rfl)

theorem me_openingIn (m : State) (n : CircNo) (q : RingId) (w : Word) (ds : List CoreId) :
    (openingIn m n q w ds).me = (m.logCirc none).me.modCirc n fun y => y.open w q ds (fe m) (circPort m w) := State.core_modCore ..

theorem openCircuit_eq (m : State) (h : Hdr) (n : CircNo) (q : RingId) (w : Word) (size members : Nat) {ds : List CoreId}
    (hds : circDests w members m.cur = ds) :
    (¬ branchesFit m ds → m.openCircuit h n q w size members = .next (m.circBounds w)) ∧
    (branchesFit m ds → m.me.holdRoom (queuedBytes m.me + 64) = true →
      ∃ held, m.openCircuit h n q w size members = .next ((joinStores (openingIn m n q w ds) (.req (openingReq m n w size ds)) none
        h.tag none).retire h none { holdTag := held })) := by
  have hfit : (ds.isEmpty || decide (16 < ds.length) || decide (64 < m.me.live.circuits.foldl
      (fun m (x : Circuit) => if x.state = .closed then m else m + x.branches.length) 0 + ds.length)) = true ↔ ¬ branchesFit m ds := by
    rw [usedBranches_eq]
    simp only [Bool.or_eq_true, List.isEmpty_iff_length_eq_zero, decide_eq_true_eq, branchesFit, usedBranches]
    omega
  unfold State.openCircuit
  simp only [hds]
  refine ⟨fun hbad => if_pos (hfit.2 hbad), fun hgood hroom => ?_⟩
  rw [if_neg (mt hfit.1 (not_not.2 hgood))]
  have hopen : ((m.logCirc none).modCore m.cur fun k => k.modCirc n fun y => y.open w q ds k.live.front (circPort m w)) =
      openingIn m n q w ds := modCore_congr rfl
    (congrArg (fun f => (m.logCirc none).me.modCirc n fun y => y.open w q ds f (circPort m w)) (fe_logCirc m none))
  have hroom' : (openingIn m n q w ds).me.holdRoom (queuedBytes (openingIn m n q w ds).me + 64) = true := by
    rw [me_openingIn, show (m.logCirc none).me = _ from State.core_modCore ..]
    exact hroom
  obtain ⟨held, hstore⟩ := storeWord_next (r := openingReq m n w size ds) hroom' h
  have hstands : FrontStands m (joinStores (openingIn m n q w ds) (.req (openingReq m n w size ds)) none h.tag none) :=
    (openingIn_frontStands m n q w ds).trans (joinStores_frontStands ..)
  obtain ⟨-, -, hpo⟩ := hstands.retire h held
  rw [← hopen] at hstore hpo ⊢
  have hnew := congrArg (fun o : Outcome => (match o with
    | .next t => if t.me.live.front.at_.po = m.me.live.front.at_.po then Host.Outcome.next m else Host.Outcome.next t
    | o => o : Outcome)) hstore
  exact ⟨held, hnew.trans (if_neg (hpo.trans_ne (Nat.succ_ne_self _)))⟩

/-- What follows a `circ` that has passed the checks of its word, whose first access of memory has left m (R264). -/
theorem opens_of_openCircuit {s m : State} {h : Hdr} {n : CircNo} {q : RingId} {a b : SReg} {w : Word} {size members : Nat}
    {ds : List CoreId} (hc : m.cur = s.cur) (hf : fe m = fe s) (hb : SameBytes s m) (hds : circDests w members s.cur = ds)
    (he : exec (.circ h n q a b) s = m.openCircuit h n q w size members) :
    (¬ branchesFit m ds → Traps s (m.logCirc (some w)) (.circ h n q a b) .bounds w) ∧
    (branchesFit m ds → m.me.holdRoom (queuedBytes m.me + 64) = true →
      ∃ t, exec (.circ h n q a b) s = .next t ∧
        t = (joinStores (openingIn m n q w ds) (.req (openingReq m n w size ds)) none h.tag none).modFront s.cur (fun _ => fe t) ∧
        WritesNone s t ∧ (fe t).at_.po = (fe s).at_.po + 1 ∧ (t.me.live.circuits[n]).state = .opening) := by
  obtain ⟨hbad, hgood⟩ := openCircuit_eq m h n q w size members (hc.symm ▸ hds)
  refine ⟨fun hfit => traps_of_trapHere hc ((fe_logCirc m _).trans hf) (he.trans (hbad hfit)), fun hfit hroom => ?_⟩
  obtain ⟨held, hnext⟩ := hgood hfit hroom
  have hstands : FrontStands s (joinStores (openingIn m n q w ds) (.req (openingReq m n w size ds)) none h.tag none) :=
    .trans ⟨hc, ⟨_, hf⟩, hb⟩ ((openingIn_frontStands m n q w ds).trans (joinStores_frontStands ..))
  obtain ⟨hnone, -, hpo⟩ := hstands.retire h held
  refine ⟨_, he.trans hnext, ?_, hnone, hpo, ?_⟩
  · exact (congrArg (fun c => State.modFront _ c _) hstands.cur).symm ▸ modFront_fe ..
  · have hstay := (me_retire_joinStores (openingIn m n q w ds) (.req (openingReq m n w size ds)) none h.tag none h { holdTag := held }).1
    refine (congrArg Circuit.state (hstay.circ n)).trans ?_
    rw [me_openingIn, Core.circ_modCirc]
    rfl

/-- A `circ` that issues, in the order of its checks (R264). -/
theorem circ_checks {s : State} {h : Hdr} {n : CircNo} {q : RingId} {a b : SReg}
    (hi : Issues s h { srcs := [(.s a, h.pda), (.s b, h.pdb)], engine := true }) (hreplay : s.me.replaying = false) :
    let w := srcA s h a
    let g := srcB s h b
    let x := s.me.circ n
    (¬ circBad w q (s.pairedSide s.cur).isSome = false → exec (.circ h n q a b) s = .next (s.circBounds w)) ∧
    (circBad w q (s.pairedSide s.cur).isSome = false →
      (x.state = .closing ∨ s.closePending s.cur n = true → exec (.circ h n q a b) s = .next s) ∧
      (x.state ≠ .closing → s.closePending s.cur n = false → x.state ≠ .closed → exec (.circ h n q a b) s = .next (s.circBounds w)) ∧
      (s.closePending s.cur n = false → x.state = .closed →
        (w.getLsbD 31 = true → s.me.ring q = none → exec (.circ h n q a b) s = .next (s.trapHere .ringState (slotInfo q 0))) ∧
        ∀ size, (if w.getLsbD 31 then (s.me.ring q).map (·.size) else some (512 * bits w 32 10)) = some size →
          (w.getLsbD 12 = false → exec (.circ h n q a b) s = s.openCircuit h n q w size 0) ∧
          (w.getLsbD 12 = true → g.toNat % 64 ≠ 0 → exec (.circ h n q a b) s = .next (s.trapHere .alignFault g)) ∧
          (w.getLsbD 12 = true → g.toNat % 64 = 0 →
            exec (.circ h n q a b) s =
              match s.engineRead s.cur 0 (fe s).level (fe s).at_.vahi .load (fe s).at_.po .g g 32 with
              | .wait m => .next m
              | .trap cause y m => .next (m.trapHere cause y)
              | .ok _ (some y) m => .next (m.trapHere .poison y)
              | .ok bs none m => m.openCircuit h n q w size (ofBytes bs)))) := by
  intro w g x
  have he : exec (.circ h n q a b) s = execCirc h n q a b s := rfl
  replace he := exec_of_issues he hi
  have hfound : (s.me.flow.circLog.find? fun e => s.me.replaying && e.1 == s.me.live.front.at_.po) = none := by
    rw [List.find?_eq_none, hreplay]
    exact fun _ _ => Bool.false_ne_true
  dsimp only at he
  rw [hfound, show s.me.live.front.srcS a h.pda = w from rfl, show s.me.live.front.srcS b h.pdb = g from rfl] at he
  replace he := he.trans ((if_neg Bool.false_ne_true).trans (if_neg Bool.false_ne_true))
  refine ⟨fun hbad => he.trans (if_pos (Bool.not_eq_false _ ▸ hbad)), fun hok => ?_⟩
  replace he := he.trans (if_neg (ne_true_of_eq_false hok))
  refine ⟨fun hclosing => he.trans (if_pos hclosing), fun hx hp hopen => ?_, fun hp hclosed => ?_⟩
  · exact he.trans ((if_neg (not_or.2 ⟨hx, ne_true_of_eq_false hp⟩)).trans (if_pos hopen))
  replace he := he.trans ((if_neg (not_or.2 ⟨ne_of_eq_of_ne hclosed CircState.noConfusion, ne_true_of_eq_false hp⟩)).trans
    (if_neg (not_not.2 hclosed)))
  refine ⟨fun h31 hring => ?_, fun size hsize => ?_⟩
  · rw [if_pos h31, hring] at he
    exact he
  rw [hsize] at he
  refine ⟨fun h12 => he.trans (if_pos (by simpa using h12)), fun h12 hg => ?_, fun h12 hg => ?_⟩
  · exact he.trans ((if_neg (by simpa using h12)).trans (if_pos hg))
  · exact he.trans ((if_neg (by simpa using h12)).trans (if_neg (not_not.2 hg)))

/-- Counts of regulators and ports are nothing that a word sees (R383). -/
theorem seen_of_metered {s m : State} (h : Metered s m) : m.cur = s.cur ∧ fe m = fe s ∧ SameBytes s m := by
  rw [h.eq]
  exact ⟨rfl, rfl, fun _ => rfl, fun _ _ _ => rfl⟩

/-- The size of a circuit's slots, by its circuit word (R264). -/
theorem circSize_eq {w : Word} {r? : Option Ring} {size : Nat}
    (hs : w.getLsbD 31 = true ∧ (∃ r, r? = some r ∧ size = r.size) ∨ w.getLsbD 31 = false ∧ size = 512 * bits w 32 10) :
    (if w.getLsbD 31 then r?.map (·.size) else some (512 * bits w 32 10)) = some size := by
  obtain ⟨h31, r, rfl, rfl⟩ | ⟨h31, rfl⟩ := hs
  · rw [if_pos h31]
    rfl
  · rw [if_neg (ne_true_of_eq_false h31)]

/-- Settles O32: the checks of `circ` in their order, its opening as `openCircuit_eq` has it, and `ccls` as `ccls_shuts` has it. -/
theorem circuitWords : Obligations.CircuitWords := by
  intro h n q a b size s k w g x f noted opens
  refine ⟨fun hi hreplay => ?_, fun hi hreplay hroom => ?_⟩
  · obtain ⟨hbad, hchecks⟩ := circ_checks (q := q) hi hreplay
    refine ⟨fun hok => traps_of_trapHere rfl (fe_logCirc ..) (hbad hok), fun hok => (hchecks hok).1,
      fun hok hx hp hopen => traps_of_trapHere rfl (fe_logCirc ..) ((hchecks hok).2.1 hx hp hopen), fun hok hp hclosed => ?_⟩
    obtain ⟨hring, hsized⟩ := (hchecks hok).2.2 hp hclosed
    refine ⟨fun h31 hr => traps_here (hring h31 hr), fun hsize => ?_⟩
    obtain ⟨hcore, halign, hgroup⟩ := hsized size (circSize_eq hsize)
    refine ⟨fun h12 => opens_of_openCircuit rfl rfl (.refl s) (circDests_core h12 ..) (hcore h12),
      fun h12 hg => traps_here (halign h12 hg), fun h12 hg => ?_⟩
    replace hgroup := hgroup h12 hg
    split at hgroup
    case h_1 hread => rw [hread]; exact hgroup
    case h_2 m hread =>
      rw [hread]
      obtain ⟨hc, hf⟩ := State.front_of_engineReadAll_trap hread
      exact traps_of_trapHere hc ((congrArg m.front hc).trans hf) hgroup
    case h_3 m hread =>
      rw [hread]
      obtain ⟨hc, hf, -⟩ := seen_of_metered (State.engineReadAll_metered hread)
      exact traps_of_trapHere hc hf hgroup
    case h_4 m hread =>
      rw [hread]
      obtain ⟨hc, hf, hb⟩ := seen_of_metered (State.engineReadAll_metered hread)
      exact opens_of_openCircuit hc hf hb (circDests_group h12 ..) hgroup
  · obtain ⟨t, he, hnone, hbytes, hpo, hflow, hself, hothers⟩ := ccls_shuts (n := n) hi hreplay hroom
    obtain ⟨hstate, hdue⟩ := shut_state_due (s.me.circ n) (s.me.fullSlots (s.me.circ n))
    rw [← hself] at hstate hdue
    exact ⟨t, he, hnone, hbytes, hpo, hflow, hstate, hdue, hothers⟩

end Sys2Proof.Claims

end

section

/-! ## O43: messages of a circuit that reach a core (R264, R265) -/

namespace Sys2Proof.Machine

/-- Once a message is gone, none has its number. -/
theorem State.msg_dropMsg (s : State) (id : Nat) : (s.dropMsg id).msg id = none :=
  List.find?_eq_none.2 fun m hm he => by
    have hne := (List.mem_filter.1 hm).2
    simp_all

section answer
variable {x : Circuit} {b code op : Nat}

theorem Circuit.answer_of_ne (h : x.openings ≠ op) : x.answer b code op = x := if_pos h

/-- The branches of a circuit to which an answer has come (R264). -/
def Circuit.answered (x : Circuit) (b code : Nat) : List Branch :=
  x.branches.modify b fun y => { y with reply := some code, credit := y.credit + (code - 1) }

/-- What the answer to a branch makes of its circuit (R264, R266). -/
theorem Circuit.answer_eq (h : x.openings = op) :
    x.answer b code op =
      let bs := x.answered b code
      let all := bs.all fun y => match y.reply with
        | some n => n != 0
        | none => false
      let x := { x with branches := bs }
      match x.state with
      | .opening =>
        if bs.any fun y => y.reply.isNone then x
        else if all then { x with state := .open_ } else { x with state := .refused }
      | .closing => if code = 0 then { x with state := .closed } else if all then { x with early := false } else x
      | _ => x := if_neg (not_not.2 h)

theorem Circuit.branches_answer (h : x.openings = op) : (x.answer b code op).branches = x.answered b code := by
  rw [Circuit.answer_eq h]
  dsimp only
  (repeat' split) <;> rfl

/-- An OPENING circuit waits for every branch, and is open if none refuses (R264). -/
theorem Circuit.answer_of_opening (h : x.openings = op) (hs : x.state = .opening) :
    ((∃ w ∈ x.answered b code, w.reply = none) → (x.answer b code op).state = .opening) ∧
    ((∀ w ∈ x.answered b code, w.reply ≠ none) →
      ((∀ w ∈ x.answered b code, w.reply ≠ some 0) → (x.answer b code op).state = .open_) ∧
      ((∃ w ∈ x.answered b code, w.reply = some 0) → (x.answer b code op).state = .refused)) := by
  rw [Circuit.answer_eq h]
  simp only [hs, List.any_eq_true, List.all_eq_true, Option.isNone_iff_eq_none]
  refine ⟨fun hwait => by rw [if_pos hwait], fun hcome => ?_⟩
  rw [if_neg fun ⟨w, hw, hnone⟩ => hcome w hw hnone]
  refine ⟨fun hok => ?_, fun ⟨w, hw, hzero⟩ => ?_⟩
  · rw [if_pos]
    intro w hw
    obtain ⟨v, hv⟩ := Option.ne_none_iff_exists'.1 (hcome w hw)
    have hne := hok w hw
    rw [hv] at hne ⊢
    simpa using hne
  · rw [if_neg fun hall => ?_]
    have := hall w hw
    rw [hzero] at this
    exact absurd this (by decide)

/-- A CLOSING circuit is CLOSED by the first refusal (R266). -/
theorem Circuit.answer_of_closing (h : x.openings = op) (hs : x.state = .closing) :
    (x.answer b code op).state = if code = 0 then .closed else .closing := by
  rw [Circuit.answer_eq h]
  simp only [hs]
  (repeat' split) <;> rfl

end answer

end Sys2Proof.Machine

namespace Sys2Proof.Claims

open Sys2Proof.Machine

/-- The state in which a core has taken a message for it (R27). -/
def taken (s : State) (m : Msg) (d : CoreId) (f : Core → Core) : State := ((s.modCore d f).dropMsg m.id).touch m.part

theorem msg_taken (s : State) (m : Msg) (d : CoreId) (f : Core → Core) : (taken s m d f).msg m.id = none := State.msg_dropMsg ..
theorem core_taken (s : State) (m : Msg) (d : CoreId) (f : Core → Core) : (taken s m d f).core d = f (s.core d) := s.core_modCore d f
theorem circuit_taken (s : State) (m : Msg) (d : CoreId) (n : CircNo) (f : Circuit → Circuit) :
    circuit (taken s m d (·.modCirc n f)) d n = f (circuit s d n) :=
  (congrArg (·.circ n) (core_taken ..)).trans (Core.circ_modCirc ..)

/-- A branch that alone of its circuit's branches is changed. -/
theorem branch_of_modify {s t : State} {c : CoreId} {n : CircNo} {b : Nat} {z : Branch} {g : Branch → Branch}
    (hz : branch s c n b = some z) (ht : (circuit t c n).branches = (circuit s c n).branches.modify b g) :
    branch t c n b = some (g z) := by
  have hz' : (circuit s c n).branches[b]? = some z := hz
  rw [branch, ht, List.getElem?_modify_eq, hz']
  rfl

/-- A message that a core takes leaves its front end and its bytes as they are. -/
theorem engineStep_taken {s : State} {i : Instr} {m : Msg} {d : CoreId} {f : Core → Core} {P : State → Prop}
    (he : exec i s = .next (taken s m d f)) (hf : ∀ k, (f k).live.front = k.live.front) (hs : ∀ k, (f k).store = k.store)
    (hp : P (taken s m d f)) : EngineStep s i d P :=
  ⟨_, he, (congrArg (·.live.front) (core_taken s m d f)).trans (hf _),
    SameBytes.modCore s d f fun k b => congrArg (·.buf b) (hs k), hp⟩

/-- The check of a message for a core of this chip, as its event makes it (R27, R379). -/
theorem arrived_iff (s : State) (m : Msg) (d : CoreId) :
    (m.dropped.isSome || !s.portReady m || (s.guard m.part m.src (.core d)).isSome ||
      decide (s.cycle < m.departed + 24 * edges m.src.die d.die)) = true ↔ ¬ Arrived s m d := by
  rw [← Bool.not_eq_false, not_iff_not]
  simp [Arrived, and_assoc]

section openings
variable {s : State} {m : Msg} {d : CoreId} {n : CircNo} {b size op : Nat} {q : RingId}

/-- What the opening of a branch makes of its destination: its reply, and the ring's new feed where the destination accepts
(R264). -/
def openedAt (s : State) (m : Msg) (d : CoreId) (n : CircNo) (b : Nat) (q : RingId) (size op : Nat) (k : Core) : Core :=
  let code := s.openingAnswer m.src d q size
  let x := circuit s m.src n
  let k := if code = 0 || !(x.openings == op && x.state != .closed) then k
    else k.modRing q fun r => { r with fedBy := some ⟨m.src, n, b, op, none, false⟩ }
  k.modFlow fun f => { f with hold := f.hold ++ [⟨.reply m.src n b code op, .other, 0, 1, s.cycle, 64, false, false⟩] }

theorem openedAt_eq (k : Core) :
    openedAt s m d n b q size op k =
      (if s.openingAnswer m.src d q size ≠ 0 ∧ (circuit s m.src n).openings = op ∧ (circuit s m.src n).state ≠ .closed then
        k.modRing q fun r => { r with fedBy := some ⟨m.src, n, b, op, none, false⟩ } else k).modFlow fun f =>
          { f with hold := f.hold ++
            [⟨.reply m.src n b (s.openingAnswer m.src d q size) op, .other, 0, 1, s.cycle, 64, false, false⟩] } := by
  rw [openedAt, ← ite_not]
  congr 2
  simp [not_or]

theorem exec_openingArrive (hm : s.msg m.id = some m) (hreq : m.hold.req = .opening n [(b, d)] none q size op) :
    (¬ Arrived s m d → Idles s (.circuitOpeningArrive m.id)) ∧
    (Arrived s m d → (s.core d).holdRoom 64 = true →
      exec (.circuitOpeningArrive m.id) s = .next (taken s m d (openedAt s m d n b q size op))) := by
  have he : exec (.circuitOpeningArrive m.id) s = execCircuitOpeningArrive m.id s := rfl
  unfold execCircuitOpeningArrive at he
  rw [hm] at he
  simp only [hreq] at he
  exact ⟨fun h => he.trans (if_pos ((arrived_iff s m d).2 h)), fun h hroom => he.trans
    ((if_neg (mt (arrived_iff s m d).1 (not_not.2 h))).trans ((if_neg Bool.false_ne_true).trans (if_neg (by simp [hroom]))))⟩

/-- A destination takes a circuit into its ring r (R264, R374). -/
def TakesCircuit (s : State) (src d : CoreId) (size : Nat) (r : Ring) : Prop :=
  (s.core d).run.job ≠ none ∧ (s.core d).regs.asid = (s.core src).regs.asid ∧ r.fedBy = none ∧ r.fedFar = none ∧ size ≤ r.size ∧
    s.pairedSide src = s.pairedSide d

theorem openingAnswer_of_none (src : CoreId) (size : Nat) (hr : (s.core d).ring q = none) : s.openingAnswer src d q size = 0 := by
  simp only [State.openingAnswer, hr]
theorem openingAnswer_of_some {src : CoreId} {r : Ring} (hr : (s.core d).ring q = some r) :
    (¬ TakesCircuit s src d size r → s.openingAnswer src d q size = 0) ∧
    (TakesCircuit s src d size r → s.openingAnswer src d q size = r.empties + 1) := by
  have hcheck : ((s.core d).run.job.isNone || (s.core d).regs.asid != (s.core src).regs.asid || r.fedBy.isSome || r.fedFar.isSome ||
      decide (r.size < size) || s.pairedSide src != s.pairedSide d) = true ↔ ¬ TakesCircuit s src d size r := by
    rw [← Bool.not_eq_false, not_iff_not]
    simp [TakesCircuit, and_assoc, Option.ne_none_iff_isSome]
  simp only [State.openingAnswer, hr]
  exact ⟨fun h => if_pos (hcheck.2 h), fun h => if_neg (mt hcheck.1 (not_not.2 h))⟩

/-- The opening of a branch reaches its destination (R264). -/
theorem openingArrive_replies (hm : s.msg m.id = some m) (hreq : m.hold.req = .opening n [(b, d)] none q size op)
    (ha : Arrived s m d) (hroom : (s.core d).holdRoom 64 = true) :
    EngineStep s (.circuitOpeningArrive m.id) d fun t =>
      t.msg m.id = none ∧ (t.core d).flow.hold = (s.core d).flow.hold ++
        [⟨.reply m.src n b (s.openingAnswer m.src d q size) op, .other, 0, 1, s.cycle, 64, false, false⟩] ∧
      (t.core d).ring q = if s.openingAnswer m.src d q size ≠ 0 ∧ (circuit s m.src n).openings = op ∧
        (circuit s m.src n).state ≠ .closed then ((s.core d).ring q).map fun r => { r with fedBy := some ⟨m.src, n, b, op, none, false⟩ }
        else (s.core d).ring q := by
  refine engineStep_taken ((exec_openingArrive hm hreq).2 ha hroom) (fun k => ?_) (fun k => ?_) ⟨msg_taken .., ?_⟩
  · rw [openedAt_eq]
    split <;> rfl
  · rw [openedAt_eq]
    split <;> rfl
  · rw [core_taken, openedAt_eq]
    split
    · exact ⟨rfl, Core.ring_modRing ..⟩
    · exact ⟨rfl, rfl⟩

end openings

theorem EngineStep.imp {s : State} {i : Instr} {c : CoreId} {P Q : State → Prop} (h : EngineStep s i c P) (hpq : ∀ t, P t → Q t) :
    EngineStep s i c Q := by
  obtain ⟨t, he, hf, hb, hp⟩ := h
  exact ⟨t, he, hf, hb, hpq t hp⟩

section replies
variable {s : State} {m : Msg} {c : CoreId} {n : CircNo} {b code op : Nat} {z : Branch}

theorem exec_replyArrive (hm : s.msg m.id = some m) (hreq : m.hold.req = .reply c n b code op) :
    (¬ Arrived s m c → Idles s (.circuitReplyArrive m.id)) ∧
    (Arrived s m c → exec (.circuitReplyArrive m.id) s = .next (taken s m c (·.modCirc n (·.answer b code op)))) := by
  have he : exec (.circuitReplyArrive m.id) s = execCircuitReplyArrive m.id s := rfl
  unfold execCircuitReplyArrive at he
  rw [hm] at he
  simp only [hreq] at he
  exact ⟨fun h => he.trans (if_pos ((arrived_iff s m c).2 h)), fun h => he.trans (if_neg (mt (arrived_iff s m c).1 (not_not.2 h)))⟩

/-- A reply reaches the source of its circuit, whose answer `Circuit.answer` says (R264). -/
theorem replyArrive_answers (hm : s.msg m.id = some m) (hreq : m.hold.req = .reply c n b code op) (ha : Arrived s m c) :
    EngineStep s (.circuitReplyArrive m.id) c fun t => t.msg m.id = none ∧ circuit t c n = (circuit s c n).answer b code op :=
  engineStep_taken ((exec_replyArrive hm hreq).2 ha) (fun _ => rfl) (fun _ => rfl) ⟨msg_taken .., circuit_taken ..⟩

/-- The circuit that a free notice leaves (R265). -/
def credited (b op : Nat) (x : Circuit) : Circuit :=
  if x.openings ≠ op then x else { x with branches := x.branches.modify b fun y => { y with credit := y.credit + 1 } }

theorem exec_noticeArrive (hm : s.msg m.id = some m) (hreq : m.hold.req = .notice c n b op) :
    (¬ Arrived s m c → Idles s (.freeNoticeArrive m.id)) ∧
    (Arrived s m c → exec (.freeNoticeArrive m.id) s = .next (taken s m c (·.modCirc n (credited b op)))) := by
  have he : exec (.freeNoticeArrive m.id) s = execFreeNoticeArrive m.id s := rfl
  unfold execFreeNoticeArrive at he
  rw [hm] at he
  simp only [hreq] at he
  exact ⟨fun h => he.trans (if_pos ((arrived_iff s m c).2 h)), fun h => he.trans (if_neg (mt (arrived_iff s m c).1 (not_not.2 h)))⟩

theorem noticeArrive_credits (hm : s.msg m.id = some m) (hreq : m.hold.req = .notice c n b op) (ha : Arrived s m c) :
    EngineStep s (.freeNoticeArrive m.id) c fun t => t.msg m.id = none ∧ circuit t c n = credited b op (circuit s c n) :=
  engineStep_taken ((exec_noticeArrive hm hreq).2 ha) (fun _ => rfl) (fun _ => rfl) ⟨msg_taken .., circuit_taken ..⟩

end replies

end Sys2Proof.Claims

end

section

/-! ## O43: a circuit moves on (R265) -/

namespace Sys2Proof.Machine

/-- A flit as it leaves the hold-back buffer (R265). -/
def Flit.leave (f : Flit) (bad : Bool) (now : Nat) : Flit := { f with left := now, poison := f.poison || bad }

/-- A circuit once a flit of it has left into every elastic buffer (R265). -/
def Circuit.pass (x : Circuit) (f : Flit) : Circuit :=
  { x with branches := x.branches.map fun (b : Branch) => { b with elastic := b.elastic ++ [f] }
           sent := if f.last then x.sent + 1 else x.sent }

/-- The core in which the oldest flit of its hold-back buffer has left (R265). -/
def Core.passFlit (k : Core) (n : CircNo) (h : Hold) (f : Flit) (now : Nat) : Core :=
  (((k.modFlow fun w => { w with hold := w.hold.eraseIdx 0, depCirc := w.depCirc.set n (h.num + 1), leftAt := some now }).modCirc n
    (·.pass (f.leave h.poison now))).flitGone n (f.leave h.poison now) now)

section leave
variable {s s1 : State} {c : CoreId} {n : CircNo} {h : Hold} {hs : List Hold} {f : Flit}

/-- The oldest entry of the hold-back buffer leaves if it is a flit of the circuit, has aged, and finds room (R265). -/
theorem State.flitLeave_eq (hhold : (s.core c).flow.hold = h :: hs) (hstream : h.stream = .circuit n) (hreq : h.req = .flit n f)
    (hage : h.entered + Config.tQ ≤ s.cycle) (hserved : s.served (s.pmapOf c) = true)
    (hroom : ∀ w ∈ ((s.core c).circ n).branches, w.elastic.length < 16)
    (hspine : s.spineGrant (s.pmapOf c) c (((s.core c).circ n).branches.map ((s.core c).circ n).dest) 1 = some s1) :
    s.flitLeave c n = some ((s1.modCore c fun k => k.passFlit n h f s1.cycle).touch (s1.pmapOf c)) := by
  obtain ⟨req, stream, num, party, entered, size, poison, phys⟩ := h
  subst hstream hreq
  have hgo : ¬ (decide (s.cycle < entered + Config.tQ) || !s.served (s.pmapOf c) ||
      ((s.core c).circ n).branches.any fun b => decide (16 ≤ b.elastic.length)) = true := by
    simpa [hserved, hage] using hroom
  unfold State.flitLeave
  simp only [hhold, List.length_cons, List.range_succ_eq_map, List.find?_cons, List.getElem?_cons_zero, beq_self_eq_true, if_neg hgo,
    hspine]
  rfl

/-- A circuit of which nothing is held lets no flit leave. -/
theorem State.flitLeave_eq_none (h : ∀ y ∈ (s.core c).flow.hold, y.stream ≠ .circuit n) : s.flitLeave c n = none := by
  have hfind : ((List.range (s.core c).flow.hold.length).find? fun i => match (s.core c).flow.hold[i]? with
      | some h => h.stream == .circuit n
      | none => false) = none := by
    refine List.find?_eq_none.2 fun i _ => ?_
    cases hi : (s.core c).flow.hold[i]? with
    | none => exact Bool.false_ne_true
    | some y => simpa using h y (List.mem_of_getElem? hi)
  unfold State.flitLeave
  dsimp only
  split
  · rfl
  case h_2 i hi => exact absurd (hi.symm.trans hfind) (by simp)

end leave

/-- The core k' is as k but for its rings, as far as the front end and the engines see. -/
def Core.RingsMove (k k' : Core) : Prop := k'.live = { k.live with rings := k'.live.rings }

theorem Core.RingsMove.circ {k k' : Core} (h : k.RingsMove k') (n : CircNo) : k'.circ n = k.circ n :=
  (congrArg (fun l : Live => l.circuits[n]) h).trans rfl
theorem Core.RingsMove.front {k k' : Core} (h : k.RingsMove k') : k'.live.front = k.live.front := by rw [h]
theorem Core.RingsMove.trans {k l m : Core} (h : k.RingsMove l) (g : l.RingsMove m) : k.RingsMove m := by
  unfold Core.RingsMove at *
  rw [g, h]

section gone
variable {k : Core} {n : CircNo} {f : Flit} {now : Nat}

theorem Core.flitGone_ringsMove (k : Core) (n : CircNo) (f : Flit) (now : Nat) : k.RingsMove (k.flitGone n f now) := by
  unfold Core.flitGone
  (repeat' split) <;> rfl
theorem Core.flow_flitGone (k : Core) (n : CircNo) (f : Flit) (now : Nat) : (k.flitGone n f now).flow = k.flow := by
  unfold Core.flitGone
  (repeat' split) <;> rfl

/-- The last flit of a tile releases the tile's slot (R265). -/
theorem Core.ring_flitGone {q : RingId} {slot : Nat} {r : Ring} (hlast : f.last = true) (hsrc : (k.circ n).src = some q)
    (hslot : f.slot = some slot) (hr : k.ring q = some r) (hghost : slot ∉ r.ghosts) :
    (k.flitGone n f now).ring q = some { r with rels := r.rels ++ [⟨slot, now⟩] } := by
  simp [Core.flitGone, hsrc, hslot, hlast, Core.release, hr, hghost]

end gone

theorem Metered.core {s t : State} (h : Metered s t) (c : CoreId) : t.core c = s.core c := by
  rw [h.eq]
  rfl

section cut
variable {k : Core} {n : CircNo} {q : RingId} {tk : Taken} {r : Ring} {now : Nat}

theorem Core.take_ringsMove (k : Core) (q : RingId) (who : Holder) : k.RingsMove (k.take q who) := by
  unfold Core.take
  split <;> rfl

/-- A take of a slot that is there advances the pointer (R88). -/
theorem Core.ring_take (who : Holder) (hr : k.ring q = some r) (hhead : k.head q = some tk) (hgone : tk.gone = false) :
    ∃ r', (k.take q who).ring q = some r' ∧ r'.tookMade = r.tookMade + 1 := by
  simp [Core.take, hhead, hr, hgone]

/-- A circuit whose slot a store of its own core still changes waits (R108). -/
theorem Core.cutSlot_of_waits (hr : k.ring q = some r) (hgone : tk.gone = false)
    (hdata : k.slotData r (k.circ n).po tk.slot 0 r.size = none) : k.cutSlot n q tk now = k := by
  simp [Core.cutSlot, hgone, hr, hdata]

/-- The circuit that has cut a slot of a ring into flits (R265). -/
def Circuit.cutFrom (x : Circuit) (r : Ring) (tk : Taken) (bs : List Byte) (bad : Bool) : Circuit :=
  let w := tagWidth tk.tag.fmt
  let cs := unpackCodes w (8 * r.size / w) bs
  x.cutTile tk.tag.fmt.val x.ksz (rowRuns cs.length) cs tk.tag.coord tk.tag.fmt bad (some tk.slot) none

theorem Core.cutSlot_of_data {bs : List Byte} {bad : Bool} (hr : k.ring q = some r) (hgone : tk.gone = false)
    (hdata : k.slotData r (k.circ n).po tk.slot 0 r.size = some (bs, bad)) :
    k.cutSlot n q tk now = ((k.take q (.circuit n)).modCirc n fun _ => (k.circ n).cutFrom r tk bs bad).modFlow fun f =>
      { f with cuts := (n, (k.circ n).tile, ((k.circ n).cutFrom r tk bs bad).seq - (k.circ n).seq) :: f.cuts } := by
  simp only [Core.cutSlot, hgone, hr, Option.bind_some, hdata]
  rfl

end cut

section pass
variable {k : Core} {n : CircNo} {h : Hold} {f : Flit} {now : Nat}

theorem Core.flow_passFlit : (k.passFlit n h f now).flow =
    { k.flow with hold := k.flow.hold.eraseIdx 0, depCirc := k.flow.depCirc.set n (h.num + 1), leftAt := some now } :=
  Core.flow_flitGone ..
theorem Core.circ_passFlit : (k.passFlit n h f now).circ n = (k.circ n).pass (f.leave h.poison now) :=
  ((Core.flitGone_ringsMove ..).circ n).trans (Core.circ_modCirc ..)
theorem Core.ring_passFlit {q : RingId} {slot : Nat} {r : Ring} (hlast : f.last = true) (hsrc : (k.circ n).src = some q)
    (hslot : f.slot = some slot) (hr : k.ring q = some r) (hghost : slot ∉ r.ghosts) :
    (k.passFlit n h f now).ring q = some { r with rels := r.rels ++ [⟨slot, now⟩] } := by
  refine Core.ring_flitGone hlast ?_ hslot hr hghost
  exact (congrArg Circuit.src (Core.circ_modCirc ..)).trans hsrc
theorem Core.front_passFlit : (k.passFlit n h f now).live.front = k.live.front := (Core.flitGone_ringsMove ..).front
theorem Core.store_passFlit : (k.passFlit n h f now).store = k.store := Core.flitGone_store ..

end pass

end Sys2Proof.Machine

namespace Sys2Proof.Claims

open Sys2Proof.Machine

/-- Traffic of a partition that has moved is no byte (R46). -/
theorem SameBytes.touch {s t : State} (h : SameBytes s t) (p : PartId) : SameBytes s (t.touch p) := h

section leave
variable {s : State} {c : CoreId} {n : CircNo}

/-- A copy engine that does not run moves no flit. -/
theorem flitLeave_idles (h : ¬ ((s.core c).enginesRun = true ∧ (s.core c).regs.freeze.ce = false)) :
    Idles s (.circuitFlitLeave c n) := by
  have he : exec (.circuitFlitLeave c n) s = execCircuitFlitLeave c n s := rfl
  refine he.trans (if_pos ?_)
  simp only [Bool.or_eq_true, Bool.not_eq_true', ← Bool.not_eq_true (Core.enginesRun _)]
  rw [not_and_or, Bool.not_eq_false] at h
  exact h

/-- What moves in a circuit is, of these, the first that can: a flit that leaves, one that enters, a slot that is taken (R265). -/
theorem exec_flitLeave (h : (s.core c).enginesRun = true ∧ (s.core c).regs.freeze.ce = false) :
    (∀ t, s.flitLeave c n = some t → exec (.circuitFlitLeave c n) s = .next t) ∧
    (s.flitLeave c n = none → ∀ t, s.flitEnter c n = some t → exec (.circuitFlitLeave c n) s = .next t) ∧
    (s.flitLeave c n = none → s.flitEnter c n = none → exec (.circuitFlitLeave c n) s = .next (s.takeSlot c n)) := by
  have he : exec (.circuitFlitLeave c n) s = execCircuitFlitLeave c n s := rfl
  replace he := he.trans (if_neg (by simp [h]))
  refine ⟨fun t ht => ?_, fun hl t ht => ?_, fun hl ht => ?_⟩
  · rw [he, ht]
  · rw [he, hl, ht]
  · rw [he, hl, ht]

/-- The oldest flit of a core's hold-back buffer leaves into every elastic buffer of its circuit (R265). -/
theorem flitLeave_leaves {s1 : State} {h : Hold} {hs : List Hold} {f : Flit}
    (hrun : (s.core c).enginesRun = true ∧ (s.core c).regs.freeze.ce = false) (hhold : (s.core c).flow.hold = h :: hs)
    (hstream : h.stream = .circuit n) (hreq : h.req = .flit n f)
    (hage : h.entered + Config.tQ ≤ s.cycle) (hserved : s.served (s.pmapOf c) = true)
    (hroom : ∀ w ∈ (circuit s c n).branches, w.elastic.length < 16)
    (hspine : s.spineGrant (s.pmapOf c) c ((circuit s c n).branches.map (circuit s c n).dest) 1 = some s1) :
    EngineStep s (.circuitFlitLeave c n) c fun t =>
      (t.core c).flow.hold = hs ∧ (t.core c).flow.depCirc[n] = h.num + 1 ∧
      circuit t c n = (circuit s c n).pass (f.leave h.poison s.cycle) ∧
      ∀ q slot r, f.last = true → (circuit s c n).src = some q → f.slot = some slot → (s.core c).ring q = some r → slot ∉ r.ghosts →
        (t.core c).ring q = some { r with rels := r.rels ++ [⟨slot, s.cycle⟩] } := by
  have he := (exec_flitLeave hrun).1 _ (State.flitLeave_eq hhold hstream hreq hage hserved hroom hspine)
  have hm : Metered s s1 := State.spineOn_metered hspine
  have hcycle : s1.cycle = s.cycle := by rw [hm.eq]
  have hcore : (s1.modCore c fun k => k.passFlit n h f s1.cycle).core c = (s.core c).passFlit n h f s.cycle := by
    rw [State.core_modCore, hcycle, hm.core]
  have hflow := (congrArg Core.flow hcore).trans Core.flow_passFlit
  obtain ⟨-, -, hbytes⟩ := seen_of_metered hm
  refine ⟨_, he, (congrArg (·.live.front) hcore).trans Core.front_passFlit,
    hbytes.trans (.touch (.modCore s1 c _ fun k b => congrArg (·.buf b) Core.store_passFlit) _), ?_, ?_,
    (congrArg (·.circ n) hcore).trans Core.circ_passFlit, fun q slot r hlast hsrc hslot hr hghost => ?_⟩
  · exact (congrArg (·.hold) hflow).trans (by rw [hhold, List.eraseIdx_cons_zero])
  · exact (congrArg (·.depCirc[n]) hflow).trans (Vector.getElem_set_self ..)
  · exact (congrArg (·.ring q) hcore).trans (Core.ring_passFlit hlast hsrc hslot hr hghost)

/-- A cut flit that is to leave (R359) enters the hold-back buffer where it has room (R265). -/
theorem flitLeave_enters {f : Flit} {fs : List Flit}
    (hrun : (s.core c).enginesRun = true ∧ (s.core c).regs.freeze.ce = false) (hnone : s.flitLeave c n = none)
    (hcut : (circuit s c n).cut = f :: fs) (hseq : (s.core c).flow.depCirc[n] ≤ f.seq) (hroom : (s.core c).holdRoom 64 = true) :
    EngineStep s (.circuitFlitLeave c n) c fun t => (circuit t c n).cut = fs ∧
      (t.core c).flow.hold = (s.core c).flow.hold ++ [⟨.flit n f, .circuit n, f.seq, 1, s.cycle, 64, f.poison, false⟩] := by
  have hcut' : ((s.core c).circ n).cut = f :: fs := hcut
  have henter : s.flitEnter c n = some (s.setCore c (((s.core c).modCirc n fun x => { x with cut := fs }).modFlow fun w =>
      { w with hold := w.hold ++ [⟨.flit n f, .circuit n, f.seq, 1, s.cycle, 64, f.poison, false⟩] })) := by
    simp only [State.flitEnter, hcut', Nat.not_lt.2 hseq, if_false, hroom]
    rfl
  refine engineStep_of_setCore ((exec_flitLeave hrun).2.1 hnone _ henter) rfl rfl ?_
  rw [circuit, State.core_setCore]
  exact ⟨congrArg Circuit.cut (Core.circ_modCirc (s.core c) n fun x => { x with cut := fs }), rfl⟩

theorem flitEnter_eq_none (h : (circuit s c n).cut = []) : s.flitEnter c n = none := by
  have h' : ((s.core c).circ n).cut = [] := h
  simp only [State.flitEnter, h']

section take
variable {q : RingId} {r : Ring} {tk : Taken}

/-- A circuit still takes slots of its source ring r (R265, R266). -/
def MayTake (x : Circuit) (r : Ring) : Prop :=
  x.state = .open_ ∨ (x.state = .closing ∧ x.early = false ∧ ∃ j, x.due = some j ∧ r.tookMade < j)

/-- What a circuit does with the slot at the head of its source ring (R265). -/
def takeHead (s : State) (c : CoreId) (n : CircNo) (q : RingId) (tk : Taken) : State :=
  if tk.tag.tagerr then s.modCore c fun k => k.modCirc n fun x => x.fault .ringState (slotInfo q tk.slot)
  else if tk.tag.fmt = 7 then s.modCore c fun k => k.modCirc n fun x => x.fault .format (slotInfo q tk.slot)
  else s.setCore c ((s.core c).cutSlot n q tk s.cycle)

theorem takeSlot_eq (hsrc : (circuit s c n).src = some q) (hr : (s.core c).ring q = some r) (hmay : MayTake (circuit s c n) r)
    (htrap : (circuit s c n).trap = none) :
    s.takeSlot c n = (((s.core c).head q).map (takeHead s c n q)).getD s := by
  have hsrc' : ((s.core c).circ n).src = some q := hsrc
  have hgo : ¬ (!(((s.core c).circ n).state == .open_ || ((s.core c).circ n).state == .closing && !((s.core c).circ n).early &&
      !(s.core c).delivered ((s.core c).circ n)) || ((s.core c).circ n).trap.isSome) = true := by
    obtain hopen | ⟨hclosing, hearly, j, hdue, hj⟩ := hmay
    · simp [show ((s.core c).circ n).state = .open_ from hopen, show ((s.core c).circ n).trap = none from htrap]
    · have hdeliver : (s.core c).delivered ((s.core c).circ n) = false := by
        simp [Core.delivered, hsrc', hr, show ((s.core c).circ n).due = some j from hdue, hj]
      simp [show ((s.core c).circ n).state = .closing from hclosing, show ((s.core c).circ n).early = false from hearly, hdeliver,
        show ((s.core c).circ n).trap = none from htrap]
  unfold State.takeSlot
  simp only [hsrc', if_neg hgo]
  cases (s.core c).head q <;> rfl

/-- A ring-fed circuit of which nothing is cut or held comes to the head of its source ring (R265). -/
theorem exec_flitLeave_takes (hrun : (s.core c).enginesRun = true ∧ (s.core c).regs.freeze.ce = false) (hnone : s.flitLeave c n = none)
    (hcut : (circuit s c n).cut = []) (hsrc : (circuit s c n).src = some q) (hr : (s.core c).ring q = some r)
    (hmay : MayTake (circuit s c n) r) (htrap : (circuit s c n).trap = none) :
    exec (.circuitFlitLeave c n) s = .next ((((s.core c).head q).map (takeHead s c n q)).getD s) := by
  rw [(exec_flitLeave hrun).2.2 hnone (flitEnter_eq_none hcut), takeSlot_eq hsrc hr hmay htrap]

/-- A source slot that faults stops its circuit (R89, R265). -/
theorem circuit_faults {cause : Cause} {info : Word}
    (he : exec (.circuitFlitLeave c n) s = .next (s.modCore c fun k => k.modCirc n fun x => x.fault cause info)) :
    EngineStep s (.circuitFlitLeave c n) c fun t =>
      ∃ y, (circuit t c n).trap = some y ∧ y.cause = cause ∧ y.info = info ∧ y.src = .ce := by
  refine engineStep_of_setCore he rfl rfl ?_
  rw [circuit, State.core_setCore]
  exact ⟨_, congrArg Circuit.trap (Core.circ_modCirc (s.core c) n fun x => x.fault cause info), rfl, rfl, rfl⟩

/-- A circuit takes the FULL slot at the head of its source ring and cuts the whole of it (R265). -/
theorem circuit_cuts {bs : List Byte} {bad : Bool} (hr : (s.core c).ring q = some r) (hhead : (s.core c).head q = some tk)
    (hgone : tk.gone = false) (hdata : (s.core c).slotData r (circuit s c n).po tk.slot 0 r.size = some (bs, bad))
    (he : exec (.circuitFlitLeave c n) s = .next (s.setCore c ((s.core c).cutSlot n q tk s.cycle))) :
    EngineStep s (.circuitFlitLeave c n) c fun t => circuit t c n = (circuit s c n).cutFrom r tk bs bad ∧
      ∃ r', (t.core c).ring q = some r' ∧ r'.tookMade = r.tookMade + 1 := by
  rw [Core.cutSlot_of_data hr hgone hdata] at he
  refine engineStep_of_setCore he ((s.core c).take_ringsMove q (.circuit n)).front ?_ ?_
  · exact Core.take_store ..
  · rw [circuit, State.core_setCore]
    exact ⟨Core.circ_modCirc ((s.core c).take q (.circuit n)) n fun _ => (circuit s c n).cutFrom r tk bs bad,
      Core.ring_take (.circuit n) hr hhead hgone⟩

end take

end leave

end Sys2Proof.Claims

end

section

/-! ## O43: a branch begins the fill of its tile (R265, R416) -/

namespace Sys2Proof.Machine

section free
variable {q : RingId} {now : Nat}

theorem Core.emptySlot_ringsMove (k : Core) (slot : Nat) : k.RingsMove (k.emptySlot q slot now) := by
  unfold Core.emptySlot
  dsimp only
  (repeat' split) <;> rfl

theorem Core.departFrom_ringsMove (rels : List Release) (k : Core) : k.RingsMove (Core.departFrom q now rels k) := by
  induction rels generalizing k with
  | nil => rfl
  | cons e es ih =>
    unfold Core.departFrom
    split
    · rfl
    · exact (Core.RingsMove.trans (l := k.modRing q _) rfl (Core.emptySlot_ringsMove ..)).trans (ih _)

theorem Core.freeFirst_ringsMove (k : Core) : k.RingsMove (k.freeFirst q now) := by
  unfold Core.freeFirst
  split
  · split
    · exact Core.departFrom_ringsMove ..
    · rfl
  · rfl

end free

/-- The ring r once a fill of another core has begun at its producer pointer (R88). -/
def Ring.fillRemote (r : Ring) (now : Nat) : Ring :=
  { r.modSlot r.prod fun x => { x with state := .filling, by_ := .remote, since := now } with filled := r.filled + 1 }

theorem Ring.state_fillRemote {r : Ring} (hlen : r.prod < r.slots.length) (now : Nat) :
    ((r.fillRemote now).slot r.prod).state = .filling := by
  have hslot : (r.fillRemote now).slot r.prod = { r.slot r.prod with state := .filling, by_ := .remote, since := now } :=
    Ring.slot_of_set_self rfl hlen
  rw [hslot]

theorem Core.beginRemote_eq {k : Core} {q : RingId} {now : Nat} {r : Ring} (hr : (k.freeFirst q now).ring q = some r) :
    k.beginRemote q now =
      if (r.slot r.prod).open then some (r.prod, (k.freeFirst q now).modRing q (·.fillRemote now)) else none := by
  simp only [Core.beginRemote, hr]
  cases (r.slot r.prod).open <;> rfl

/-- The core k' has the front end and the circuits of k. -/
structure Core.KeepsCircuits (k k' : Core) : Prop where
  front : k'.live.front = k.live.front
  circ : ∀ n, k'.circ n = k.circ n

theorem Core.RingsMove.keepsCircuits {k k' : Core} (h : k.RingsMove k') : k.KeepsCircuits k' := ⟨h.front, h.circ⟩

/-- A branch that begins the fill of its tile in a slot, for one credit (R265). -/
def Branch.beginFill (z : Branch) (f : Flit) (slot : Nat) : Branch := { z with credit := z.credit - 1, filling := some (f.tile, slot) }

end Sys2Proof.Machine

namespace Sys2Proof.Claims

open Sys2Proof.Machine

section branch
variable {s : State} {c d : CoreId} {n : CircNo} {b : Nat} {z : Branch}

/-- A change of a circuit changes nothing else of a core. -/
theorem core_modCirc (s : State) (c : CoreId) (n : CircNo) (g : Circuit → Circuit) (e : CoreId) :
    ∃ v, (s.modCore c fun k => k.modCirc n g).core e = { s.core e with live := { (s.core e).live with circuits := v } } := by
  by_cases he : e = c
  · subst he
    exact ⟨_, State.core_modCore ..⟩
  · exact ⟨_, State.core_modCore_ne (h := he) ..⟩
theorem core_modBranch (s : State) (c : CoreId) (n : CircNo) (b : Nat) (g : Branch → Branch) (e : CoreId) :
    ∃ v, (s.modCore c fun k => k.modBranch n b g).core e =
      { s.core e with live := { (s.core e).live with circuits := v } } := core_modCirc ..

theorem branch_modBranch (hz : branch s c n b = some z) (g : Branch → Branch) :
    branch (s.modCore c fun k => k.modBranch n b g) c n b = some (g z) := by
  have hcirc : circuit (s.modCore c fun k => k.modBranch n b g) c n = { circuit s c n with
      branches := (circuit s c n).branches.modify b g } :=
    (congrArg (·.circ n) (s.core_modCore c _)).trans (Core.circ_modCirc ..)
  exact branch_of_modify hz (congrArg Circuit.branches hcirc)

/-- Another core, or the same one, goes on with its circuits as they were. -/
theorem circuit_setCore {k : Core} (h : (s.core d).KeepsCircuits k) : circuit (s.setCore d k) c n = circuit s c n := by
  by_cases hcd : c = d
  · subst hcd
    exact (congrArg (·.circ n) (s.core_setCore c k)).trans (h.circ n)
  · exact congrArg (·.circ n) (s.core_setCore_ne d c k hcd)
theorem front_setCore {k : Core} (h : (s.core d).KeepsCircuits k) : ((s.setCore d k).core c).live.front = (s.core c).live.front := by
  by_cases hcd : c = d
  · subst hcd
    exact (congrArg (·.live.front) (s.core_setCore c k)).trans h.front
  · exact congrArg (·.live.front) (s.core_setCore_ne d c k hcd)

end branch

section fill
variable {s : State} {c : CoreId} {n : CircNo} {br : Fin 16} {z : Branch} {f : Flit} {fs : List Flit} {r : Ring} {y : Feed}

/-- The state in which a branch has spent a credit for a fill (R265). -/
def spend (s : State) (c : CoreId) (n : CircNo) (b : Nat) (f : Flit) (slot : Nat) : State :=
  s.modCore c fun k => k.modBranch n b (·.beginFill f slot)

/-- The trap of a fill that finds its slot not EMPTY (R89). -/
def fillTrap (s : State) (c : CoreId) (n : CircNo) (r : Ring) : Trap :=
  { cause := .ringDoubleFill, info := s.fillInfo c 1 (circuit s c n).dring r.prod, src := .ce, word := (circuit s c n).word }

/-- The destination at which a fill finds its slot not EMPTY (R89). -/
def clashed (k : Core) (q : RingId) (now : Nat) (x : Trap) : Core :=
  (k.doubleFill q now).modLive fun l => { l with queues := { l.queues with fillTraps := l.queues.fillTraps ++ [x] } }

/-- A tile may begin its fill (R265). -/
def MayBegin (z : Branch) (f : Flit) : Prop := f.first = true ∧ z.filling = none ∧ z.credit ≠ 0

theorem fillBegin_idles (hz : branch s c n br.val = some z) (hf : z.elastic = f :: fs) (hmay : ¬ MayBegin z f) :
    Idles s (.branchFillBegin c n br) := by
  have hz' : ((s.core c).circ n).branches[br.val]? = some z := hz
  have he : exec (.branchFillBegin c n br) s = execBranchFillBegin c n br s := rfl
  refine he.trans ?_
  simp only [execBranchFillBegin, hz', hf]
  refine if_pos ?_
  by_contra hno
  refine hmay ?_
  simpa [MayBegin, and_assoc] using hno

/-- What a fill that begins has changed at its destination is done; then the branch spends its credit (R265). -/
theorem fillBegin_spends {k : Core} {P : State → Prop} {slot : Nat} (hz : branch s c n br.val = some z)
    (hk : (s.core z.dst).KeepsCircuits k) (hs : k.store = (s.core z.dst).store)
    (he : exec (.branchFillBegin c n br) s = .next (spend (s.setCore z.dst k) c n br.val f slot))
    (hp : ∀ t v, t.core z.dst = { k with live := { k.live with circuits := v } } → P t) :
    EngineStep s (.branchFillBegin c n br) c fun t =>
      branch t c n br.val = some { z with credit := z.credit - 1, filling := some (f.tile, slot) } ∧ P t := by
  have hz' : branch (s.setCore z.dst k) c n br.val = some z := (congrArg (·.branches[br.val]?) (circuit_setCore hk)).trans hz
  obtain ⟨u, hu⟩ := core_modBranch (s.setCore z.dst k) c n br.val (·.beginFill f slot) c
  obtain ⟨v, hv⟩ := core_modBranch (s.setCore z.dst k) c n br.val (·.beginFill f slot) z.dst
  rw [State.core_setCore] at hv
  refine ⟨_, he, (congrArg (·.live.front) hu).trans (front_setCore hk), ?_, branch_modBranch hz' _, hp _ v hv⟩
  exact (SameBytes.setCore fun b => congrArg (·.buf b) hs).trans (.modCore _ _ _ fun _ _ => rfl)

section may
variable (hz : branch s c n br.val = some z) (hf : z.elastic = f :: fs) (hmay : MayBegin z f) (hrem : (circuit s c n).remote = none)
  (hr : (s.core z.dst).ring (circuit s c n).dring = some r)
include hz hf hmay hrem hr

/-- A branch that may begin: what stops its tile, and what its destination answers (R89, R265, R379, R416). -/
theorem exec_fillBegin :
    exec (.branchFillBegin c n br) s =
      if (s.guard (s.pmapOf c) c (.core z.dst)).isSome || !(r.fedBy.any (·.is c n br.val)) then .next (spend s c n br.val f nowhere)
      else match (s.core z.dst).beginRemote (circuit s c n).dring s.cycle with
        | some (slot, kd) => .next (spend (s.setCore z.dst kd) c n br.val f slot)
        | none => .next (spend (s.setCore z.dst (clashed (s.core z.dst) (circuit s c n).dring s.cycle (fillTrap s c n r)))
          c n br.val f nowhere) := by
  have hz' : ((s.core c).circ n).branches[br.val]? = some z := hz
  have hrem' : ((s.core c).circ n).remote = none := hrem
  have hr' : (s.core z.dst).ring ((s.core c).circ n).dring = some r := hr
  have hgo : ¬ (!f.first || z.filling.isSome || decide (z.credit = 0)) = true := by simpa [MayBegin, and_assoc] using hmay
  have he : exec (.branchFillBegin c n br) s = execBranchFillBegin c n br s := rfl
  refine he.trans ?_
  simp only [execBranchFillBegin, hz', hf, Circuit.dest, hrem', hr']
  refine (if_neg hgo).trans ?_
  cases (s.guard (s.pmapOf c) c (.core z.dst)).isSome
  · cases r.fedBy.any (·.is c n br.val)
    · rfl
    · rfl
  · rfl

/-- A tile that a guard drops, or whose ring the circuit no longer feeds, is written nowhere (R379, R416). -/
theorem fillBegin_nowhere
    (hstop : s.guard (s.pmapOf c) c (.core z.dst) ≠ none ∨ ∀ y, r.fedBy = some y → y.is c n br.val = false) :
    EngineStep s (.branchFillBegin c n br) c fun t =>
      branch t c n br.val = some { z with credit := z.credit - 1, filling := some (f.tile, 64) } := by
  have he := exec_fillBegin hz hf hmay hrem hr
  rw [if_pos ?_] at he
  · obtain ⟨u, hu⟩ := core_modBranch s c n br.val (·.beginFill f nowhere) c
    exact ⟨_, he, congrArg (·.live.front) hu, .modCore _ _ _ fun _ _ => rfl, branch_modBranch hz _⟩
  · rw [Bool.or_eq_true, Bool.not_eq_true', Option.any_eq_false]
    exact hstop.imp (fun hg => Option.isSome_iff_ne_none.2 hg) fun h y hy => by simp [h y hy]

variable (hguard : s.guard (s.pmapOf c) c (.core z.dst) = none) (hy : r.fedBy = some y) (hfeeds : y.is c n br.val = true)
include hguard hy hfeeds

/-- A fill begins at the producer pointer, once what is freed for it is freed (R88, R89, R265). -/
theorem fillBegin_begins {r' : Ring} (hl : ((s.core z.dst).freeFirst (circuit s c n).dring s.cycle).ring (circuit s c n).dring = some r')
    (hopen : (r'.slot r'.prod).open = true) :
    EngineStep s (.branchFillBegin c n br) c fun t =>
      branch t c n br.val = some { z with credit := z.credit - 1, filling := some (f.tile, r'.prod) } ∧
      (t.core z.dst).ring (circuit s c n).dring = some (r'.fillRemote s.cycle) := by
  have he := exec_fillBegin hz hf hmay hrem hr
  rw [if_neg (by simp [hguard, hy, hfeeds]), Core.beginRemote_eq hl, if_pos hopen] at he
  have hmoves : (s.core z.dst).RingsMove (((s.core z.dst).freeFirst (circuit s c n).dring s.cycle).modRing (circuit s c n).dring
      (·.fillRemote s.cycle)) := (Core.freeFirst_ringsMove _).trans rfl
  refine fillBegin_spends hz hmoves.keepsCircuits (Core.freeFirst_store ..) he fun t v ht => ?_
  have hring := (congrArg (·.ring (circuit s c n).dring) ht).trans
    (Core.ring_modRing ((s.core z.dst).freeFirst (circuit s c n).dring s.cycle) (circuit s c n).dring (·.fillRemote s.cycle))
  rw [hring, hl, Option.map_some]

/-- A fill that finds its slot not EMPTY makes the destination trap (R89). -/
theorem fillBegin_clashes {r' : Ring} (hl : ((s.core z.dst).freeFirst (circuit s c n).dring s.cycle).ring (circuit s c n).dring = some r')
    (hshut : ¬ (r'.slot r'.prod).open = true) :
    EngineStep s (.branchFillBegin c n br) c fun t =>
      branch t c n br.val = some { z with credit := z.credit - 1, filling := some (f.tile, 64) } ∧
      ∃ y, (t.core z.dst).live.queues.fillTraps = (s.core z.dst).live.queues.fillTraps ++ [y] ∧ y.cause = .ringDoubleFill := by
  have he := exec_fillBegin hz hf hmay hrem hr
  rw [if_neg (by simp [hguard, hy, hfeeds]), Core.beginRemote_eq hl, if_neg hshut] at he
  exact fillBegin_spends (k := clashed (s.core z.dst) (circuit s c n).dring s.cycle (fillTrap s c n r)) hz
    ⟨rfl, fun _ => rfl⟩ rfl he fun t v ht => ⟨fillTrap s c n r, congrArg (·.live.queues.fillTraps) ht, rfl⟩

/-- A fill whose slot is EMPTY begins (R88). -/
theorem fillBegin_of_empty (hlen : r.prod < r.slots.length) (hs : (r.slot r.prod).state = .empty) (hby : (r.slot r.prod).by_ ≠ .again) :
    EngineStep s (.branchFillBegin c n br) c fun t =>
      branch t c n br.val = some { z with credit := z.credit - 1, filling := some (f.tile, r.prod) } ∧
      ∃ r', (t.core z.dst).ring (circuit s c n).dring = some r' ∧ r'.filled = r.filled + 1 ∧ (r'.slot r.prod).state = .filling := by
  have hopen : (r.slot r.prod).open = true := (Slot.open_iff _).2 ⟨hs, hby⟩
  have hfree : (s.core z.dst).freeFirst (circuit s c n).dring s.cycle = s.core z.dst :=
    Core.freeFirst_of_none_due hr fun hheld => absurd (hs.symm.trans hheld) (by decide)
  have hl := (congrArg (·.ring (circuit s c n).dring) hfree).trans hr
  exact (fillBegin_begins hz hf hmay hrem hr hguard hy hfeeds hl hopen).imp fun t ⟨hgoes, hring⟩ =>
    ⟨hgoes, _, hring, rfl, Ring.state_fillRemote hlen _⟩

/-- A fill whose slot is freed in its cycle begins (R89). -/
theorem fillBegin_of_freed (hlen : r.prod < r.slots.length) {at_ : Nat} (hs : (r.slot r.prod).state = .held)
    (hrels : r.rels = [⟨r.prod, at_⟩]) (hdue : at_ + Config.tQ ≤ s.cycle) (hroom : (s.core z.dst).holdRoom 64 = true) :
    EngineStep s (.branchFillBegin c n br) c fun t =>
      branch t c n br.val = some { z with credit := z.credit - 1, filling := some (f.tile, r.prod) } ∧
      ∃ r', (t.core z.dst).ring (circuit s c n).dring = some r' ∧ r'.filled = r.filled + 1 ∧ (r'.slot r.prod).state = .filling := by
  have hl := Core.ring_freeFirst_of_due hr hs hrels hdue ((Core.noticeRoom_of_ring hr).trans (by simp [hroom]))
  exact (fillBegin_begins hz hf hmay hrem hr hguard hy hfeeds hl (Ring.open_freed hlen)).imp fun t ⟨hgoes, hring⟩ =>
    ⟨hgoes, _, hring, rfl, Ring.state_fillRemote (r := r.freed) (r.length_freed ▸ hlen) _⟩

/-- A fill whose slot is not EMPTY, with nothing to free it, makes the destination trap (R89). -/
theorem fillBegin_of_busy (hs : (r.slot r.prod).state ≠ .empty) (hrels : (r.slot r.prod).state = .held → r.rels = []) :
    EngineStep s (.branchFillBegin c n br) c fun t =>
      branch t c n br.val = some { z with credit := z.credit - 1, filling := some (f.tile, 64) } ∧
      ∃ y, (t.core z.dst).live.queues.fillTraps = (s.core z.dst).live.queues.fillTraps ++ [y] ∧ y.cause = .ringDoubleFill := by
  have hshut : ¬ (r.slot r.prod).open = true := fun hopen => hs ((Slot.open_iff _).1 hopen).1
  have hfree : (s.core z.dst).freeFirst (circuit s c n).dring s.cycle = s.core z.dst :=
    Core.freeFirst_of_none_due hr fun hheld e he => by simp [hrels hheld] at he
  exact fillBegin_clashes hz hf hmay hrem hr hguard hy hfeeds ((congrArg (·.ring (circuit s c n).dring) hfree).trans hr) hshut

end may

end fill

end Sys2Proof.Claims

end

section

/-! ## O43: a flit reaches its destination (R83 to R85, R265, R268) -/

namespace Sys2Proof.Machine

theorem Store.buf_performCells (t : Store) (b : Buf) (cells : List (Nat × Byte)) (poison : Bool) :
    (t.performCells b cells poison).buf b = cells.foldl (fun m x => m.writeByte x.1 x.2) (t.buf b) := by
  unfold Store.performCells
  cases b with
  | wb | ab => rfl
  | cb =>
    dsimp only
    split <;> rfl

/-- A byte that no cell names stays. -/
theorem Memory.readByte_cells_of_forall_ne {cells : List (Nat × Byte)} {a : Nat} (h : ∀ x ∈ cells, x.1 ≠ a) (m : Memory) :
    (cells.foldl (fun m x => m.writeByte x.1 x.2) m).readByte a = m.readByte a := by
  induction cells generalizing m with
  | nil => rfl
  | cons x xs ih =>
    rw [List.foldl_cons, ih fun y hy => h y (List.mem_cons_of_mem _ hy), Memory.readByte_writeByte,
      if_neg (h x List.mem_cons_self).symm]

/-- A byte for which every cell that names it has one value gets it. -/
theorem Memory.readByte_cells_of_mem {cells : List (Nat × Byte)} {a : Nat} {v : Byte} (hmem : (a, v) ∈ cells)
    (h : ∀ u, (a, u) ∈ cells → u = v) (m : Memory) :
    (cells.foldl (fun m x => m.writeByte x.1 x.2) m).readByte a = v := by
  induction cells generalizing m with
  | nil => cases hmem
  | cons x xs ih =>
    rw [List.foldl_cons]
    by_cases hin : (a, v) ∈ xs
    · exact ih hin (fun u hu => h u (List.mem_cons_of_mem _ hu)) _
    · obtain rfl : (a, v) = x := (List.mem_cons.1 hmem).resolve_right hin
      have hne : ∀ y ∈ xs, y.1 ≠ a := fun y hy he => hin (by
        obtain rfl := he
        rwa [← h y.2 (List.mem_cons_of_mem _ hy)])
      rw [Memory.readByte_cells_of_forall_ne hne, Memory.readByte_writeByte, if_pos rfl]

section land
variable {k : Core} {q : RingId} {r : Ring} {slot : Nat}

/-- What a flit's bytes leave in the destination's buffer (R84, R85). -/
theorem Core.buf_landBytes (hr : k.ring q = some r) (bytes : List (Nat × Byte)) (poison : Bool) :
    (k.landBytes q slot bytes poison).store.buf r.def_.buf =
      ((bytes.filter fun x => decide (x.1 < r.size)).map fun x => (r.offset slot + x.1, x.2)).foldl
        (fun m x => m.writeByte x.1 x.2) (k.store.buf r.def_.buf) := by
  simp only [Core.landBytes, hr]
  exact Store.buf_performCells ..

theorem Core.live_landBytes (k : Core) (bytes : List (Nat × Byte)) (poison : Bool) :
    (k.landBytes q slot bytes poison).live = k.live := by
  unfold Core.landBytes
  split <;> rfl

/-- The bytes of a flit that lie inside its slot are those that its bank word takes (R84, R85). -/
theorem Core.readByte_landBytes (hr : k.ring q = some r) (f : Flit) (w : Nat) (poison : Bool) :
    (∀ i v, (i, v) ∈ f.bytes → i / 64 = w → i < r.size → (∀ u, (i, u) ∈ f.bytes → u = v) →
      ((k.landBytes q slot (f.inWord w) poison).store.buf r.def_.buf).readByte (r.offset slot + i) = v) ∧
    (∀ a, (∀ i v, (i, v) ∈ f.bytes → i / 64 = w → i < r.size → a ≠ r.offset slot + i) →
      ((k.landBytes q slot (f.inWord w) poison).store.buf r.def_.buf).readByte a = (k.store.buf r.def_.buf).readByte a) := by
  have hcell (a : Nat) (v : Byte) :
      (a, v) ∈ ((f.inWord w).filter fun x => decide (x.1 < r.size)).map (fun x => (r.offset slot + x.1, x.2)) ↔
        ∃ i, (i, v) ∈ f.bytes ∧ i / 64 = w ∧ i < r.size ∧ r.offset slot + i = a := by
    simp only [Flit.inWord, List.mem_map, List.mem_filter, beq_iff_eq, decide_eq_true_eq, Prod.mk.injEq, Prod.exists]
    exact ⟨fun ⟨i, u, ⟨⟨hm, hw⟩, hi⟩, ha, hu⟩ => ⟨i, hu ▸ hm, hw, hi, ha⟩,
      fun ⟨i, hm, hw, hi, ha⟩ => ⟨i, v, ⟨⟨hm, hw⟩, hi⟩, ha, rfl⟩⟩
  rw [Core.buf_landBytes hr]
  refine ⟨fun i v hmem hw hi hone => ?_, fun a ha => ?_⟩
  · refine Memory.readByte_cells_of_mem ((hcell _ _).2 ⟨i, hmem, hw, hi, rfl⟩) (fun u hu => ?_) _
    obtain ⟨j, hj, -, -, he⟩ := (hcell _ _).1 hu
    exact hone u (Nat.add_left_cancel he ▸ hj)
  · refine Memory.readByte_cells_of_forall_ne (fun x hx he => ?_) _
    obtain ⟨j, hj, hw, hi, hx⟩ := (hcell x.1 x.2).1 hx
    exact ha j x.2 hj hw hi (he.symm.trans hx.symm)

/-- Where a flit may write its slot (R85, R268, R416). -/
theorem Core.flitLands_iff {c : CoreId} {n : CircNo} {b : Nat} {f : Flit} (hr : k.ring q = some r) :
    k.flitLands q slot c n b f = true ↔ slot < r.def_.nslot ∧ (r.slot slot).state = .filling ∧ (r.slot slot).by_ = .remote ∧
      ∃ y, r.fedBy = some y ∧ y.is c n b = true ∧ seenBefore y.landed f.seq = false := by
  simp [Core.flitLands, hr, and_assoc, Option.any_eq_true]

theorem Core.flitLanded_ringsMove (k : Core) (q : RingId) (slot : Nat) (f : Flit) : k.RingsMove (k.flitLanded q slot f) := by
  unfold Core.flitLanded
  dsimp only
  split <;> rfl

/-- The ring r whose feed y has heard of the flit f (R268). -/
def Ring.hears (r : Ring) (y : Feed) (f : Flit) : Ring :=
  { r with fedBy := some { y with landed := some (f.seq % 2 ^ 32), poison := (f.poison || y.poison) && !f.last } }

/-- A ring into which the whole of a flit has landed (R87, R265, R268). -/
theorem Core.ring_flitLanded {f : Flit} {y : Feed} (hr : k.ring q = some r) (hy : r.fedBy = some y)
    (hfill : (r.slot slot).state = .filling) (hby : (r.slot slot).by_ = .remote) :
    ∃ r', (k.flitLanded q slot f).ring q = some r' ∧
      r'.fedBy = some { y with landed := some (f.seq % 2 ^ 32), poison := (f.poison || y.poison) && !f.last } ∧
      (f.last = true → slot < r.slots.length → (r'.slot slot).state = .full ∧ (r'.slot slot).coord = f.coord ∧
        (r'.slot slot).fmt = f.fmt ∧ (r'.slot slot).res = f.res ∧ (r'.slot slot).poison = (f.poison || y.poison)) := by
  have hbad : (f.poison || ((k.ring q).bind (·.fedBy)).any (·.poison)) = (f.poison || y.poison) := by simp [hr, hy]
  have hfed : (k.modRing q fun r => { r with fedBy := r.fedBy.map fun (x : Feed) =>
      { x with landed := some (f.seq % 2 ^ 32), poison := (f.poison || y.poison) && !f.last } }).ring q = some (r.hears y f) := by
    rw [Core.ring_modRing, hr, Option.map_some, hy]
    rfl
  unfold Core.flitLanded
  rw [hbad]
  dsimp only
  split
  case isFalse hlast => exact ⟨_, hfed, rfl, fun h => absurd h hlast⟩
  case isTrue =>
    refine ⟨_, Core.ring_endFill hfed hfill hby .., rfl, fun _ hlen => ?_⟩
    rw [Ring.modSlot, Ring.slot_of_set_self (r := r.hears y f) rfl hlen]
    exact ⟨rfl, rfl, rfl, by simp, rfl⟩

end land

/-- A branch whose oldest flit f is gone (R265). -/
def Branch.pop (z : Branch) (f : Flit) (fs : List Flit) : Branch :=
  { z with elastic := fs, filling := if f.last then none else z.filling }

/-- A branch of whose oldest flit f the bank word w is written, and others are not (R83). -/
def Branch.keep (z : Branch) (f : Flit) (fs : List Flit) (w : Nat) : Branch :=
  { z with elastic := { f with bytes := f.bytes.filter fun y => y.1 / 64 != w } :: fs }

end Sys2Proof.Machine

namespace Sys2Proof.Claims

open Sys2Proof.Machine

section arrive
variable {s : State} {c : CoreId} {n : CircNo} {br : Fin 16} {z : Branch} {f : Flit} {fs : List Flit} {slot : Nat} {r : Ring} {y : Feed}

/-- The state in which the oldest flit of a branch is gone (R265). -/
def popFlit (s : State) (c : CoreId) (n : CircNo) (b : Nat) (f : Flit) (fs : List Flit) : State :=
  s.modCore c fun k => k.modBranch n b (·.pop f fs)

/-- The state in which one bank word of a flit has been written at its destination (R83, R265). -/
def landWord (s : State) (d : CoreId) (q : RingId) (slot : Nat) (f : Flit) (w : Nat) : State :=
  s.takeNat.2.modCore d fun k => k.landBytes q slot (f.inWord w) f.poison

/-- The bank words of a flit that are still to be written. -/
def flitWords (f : Flit) : List Nat := (f.bytes.map fun y => y.1 / 64).dedup

theorem mem_flitWords {w : Nat} : w ∈ flitWords f ↔ ∃ i v, (i, v) ∈ f.bytes ∧ i / 64 = w := by simp [flitWords]

/-- A flit lies in one bank word, of those that are still to be written, if every byte of it does. -/
theorem flitWords_length_eq_one {w : Nat} (hw : w ∈ flitWords f) :
    (flitWords f).length = 1 ↔ ∀ i v, (i, v) ∈ f.bytes → i / 64 = w := by
  refine ⟨fun h i v hmem => ?_, fun hall => ?_⟩
  · obtain ⟨x, hx⟩ := List.length_eq_one_iff.1 h
    have hi : i / 64 ∈ flitWords f := mem_flitWords.2 ⟨i, v, hmem, rfl⟩
    rw [hx, List.mem_singleton] at hi hw
    exact hi.trans hw.symm
  · have hrep := List.eq_replicate_of_mem (l := flitWords f) fun x hx => by
      obtain ⟨i, v, hmem, rfl⟩ := mem_flitWords.1 hx
      exact hall i v hmem
    have hnodup : (flitWords f).Nodup := List.nodup_dedup _
    rw [hrep, List.nodup_replicate] at hnodup
    exact Nat.le_antisymm hnodup (List.length_pos_of_mem hw)

/-- One of the bank words of a flit is written, whichever (R83). -/
theorem exists_flitWord (hne : f.bytes ≠ []) (i : Nat) :
    ∃ w, (flitWords f)[i % (flitWords f).length]? = some w ∧ w ∈ flitWords f := by
  obtain ⟨x, hx⟩ := List.exists_mem_of_ne_nil _ hne
  have hpos : 0 < (flitWords f).length := List.length_pos_of_mem (mem_flitWords.2 ⟨x.1, x.2, hx, rfl⟩)
  exact ⟨_, List.getElem?_eq_getElem (Nat.mod_lt i hpos), List.getElem_mem _⟩

section word
variable {d : CoreId} {q : RingId} {w : Nat}

/-- A bank word that is written changes the bytes of its destination alone. -/
theorem core_landWord : (landWord s d q slot f w).core d = (s.core d).landBytes q slot (f.inWord w) f.poison :=
  State.core_modCore ..
theorem live_landWord (e : CoreId) : ((landWord s d q slot f w).core e).live = (s.core e).live := by
  by_cases he : e = d
  · subst he
    exact (congrArg (·.live) core_landWord).trans (Core.live_landBytes ..)
  · exact congrArg (·.live) (State.core_modCore_ne (s := s.takeNat.2) (h := he) ..)
theorem branch_landWord (b : Nat) : branch (landWord s d q slot f w) c n b = branch s c n b :=
  congrArg (fun l : Live => l.circuits[n].branches[b]?) (live_landWord c)

end word

/-- What is written of a flit whose bank word w has landed at the ring r, whose slot it fills. -/
def WordWritten (s t : State) (d : CoreId) (r : Ring) (slot : Nat) (f : Flit) (w : Nat) : Prop :=
  let before := (s.core d).store.buf r.def_.buf
  let after := (t.core d).store.buf r.def_.buf
  (∀ i v, (i, v) ∈ f.bytes → i / 64 = w → i < r.size → (∀ u, (i, u) ∈ f.bytes → u = v) → after.readByte (r.offset slot + i) = v) ∧
    (∀ a, (∀ i v, (i, v) ∈ f.bytes → i / 64 = w → i < r.size → a ≠ r.offset slot + i) → after.readByte a = before.readByte a)

theorem wordWritten {t : State} {d : CoreId} {q : RingId} {w : Nat} (hr : (s.core d).ring q = some r)
    (h : (t.core d).store = ((landWord s d q slot f w).core d).store) : WordWritten s t d r slot f w := by
  rw [core_landWord] at h
  rw [WordWritten, h]
  exact Core.readByte_landBytes hr f w f.poison

section due
variable (hz : branch s c n br.val = some z) (hf : z.elastic = f :: fs) (hfill : z.filling = some (f.tile, slot))
  (hrem : (circuit s c n).remote = none)
include hz hf hfill hrem

theorem flitArrive_idles (hdue : ¬ f.left + 24 * edges c.die z.dst.die ≤ s.cycle) : Idles s (.circuitFlitArrive c n br) := by
  have hz' : ((s.core c).circ n).branches[br.val]? = some z := hz
  have hrem' : ((s.core c).circ n).remote = none := hrem
  have he : exec (.circuitFlitArrive c n br) s = execCircuitFlitArrive c n br s := rfl
  refine he.trans ?_
  simp only [execCircuitFlitArrive, hz', hf, hfill, hrem']
  exact if_pos (.inr ⟨rfl, Nat.not_le.1 hdue⟩)

variable (hdue : f.left + 24 * edges c.die z.dst.die ≤ s.cycle) (hguard : s.guard (s.pmapOf c) c (.core z.dst) = none)
include hdue hguard

/-- A flit that has come to its destination and passed the guards (R265, R380). -/
theorem exec_flitArrive :
    exec (.circuitFlitArrive c n br) s =
      if (s.core z.dst).flitLands (circuit s c n).dring slot c n br.val f then
        match (flitWords f)[s.takeNat.1 % (flitWords f).length]? with
        | some w =>
          let m := landWord s z.dst (circuit s c n).dring slot f w
          if (flitWords f).length = 1 then
            .next (((popFlit m c n br.val f fs).touch (s.pmapOf c)).modCore z.dst fun k => k.flitLanded (circuit s c n).dring slot f)
          else .next (m.modCore c fun k => k.modBranch n br.val (·.keep f fs w))
        | none =>
          .next (((popFlit s c n br.val f fs).touch (s.pmapOf c)).modCore z.dst fun k => k.flitLanded (circuit s c n).dring slot f)
      else .next ((popFlit s c n br.val f fs).touch (s.pmapOf c)) := by
  have hz' : ((s.core c).circ n).branches[br.val]? = some z := hz
  have hrem' : ((s.core c).circ n).remote = none := hrem
  have hgo : ¬ (f.tile ≠ f.tile ∨
      (Option.isNone (none : Option (BitVec 16)) = true ∧ s.cycle < f.left + 24 * edges c.die z.dst.die)) := by
    simpa using hdue
  have he : exec (.circuitFlitArrive c n br) s = execCircuitFlitArrive c n br s := rfl
  refine he.trans ?_
  simp only [execCircuitFlitArrive, hz', hf, hfill, hrem', Circuit.dest, hguard]
  exact if_neg hgo

/-- A flit that may not write its slot is gone all the same (R85, R268, R416). -/
theorem flitArrive_drops (hr : (s.core z.dst).ring (circuit s c n).dring = some r)
    (hno : slot < r.def_.nslot → (r.slot slot).state = .filling → (r.slot slot).by_ = .remote →
      ∀ y, r.fedBy = some y → y.is c n br.val = true → seenBefore y.landed f.seq = true) :
    EngineStep s (.circuitFlitArrive c n br) c fun t =>
      branch t c n br.val = some { z with elastic := fs, filling := if f.last then none else z.filling } ∧
      (t.core z.dst).ring (circuit s c n).dring = some r := by
  have he := exec_flitArrive hz hf hfill hrem hdue hguard
  have hstays : ¬ (s.core z.dst).flitLands (circuit s c n).dring slot c n br.val f = true := fun hlands => by
    obtain ⟨hs, hst, hby, y, hy, hfeeds, hnew⟩ := (Core.flitLands_iff hr).1 hlands
    exact Bool.noConfusion (hnew.symm.trans (hno hs hst hby y hy hfeeds))
  rw [if_neg hstays] at he
  obtain ⟨u, hu⟩ := core_modBranch s c n br.val (·.pop f fs) c
  obtain ⟨v, hv⟩ := core_modBranch s c n br.val (·.pop f fs) z.dst
  have hbytes : SameBytes s (popFlit s c n br.val f fs) := .modCore _ _ _ fun _ _ => rfl
  exact ⟨_, he, congrArg (·.live.front) hu, hbytes.touch _, branch_modBranch hz _,
    (congrArg (·.ring (circuit s c n).dring) hv).trans hr⟩

section lands
variable (hr : (s.core z.dst).ring (circuit s c n).dring = some r)
  (hlands : (s.core z.dst).flitLands (circuit s c n).dring slot c n br.val f = true)
  {w : Nat} (hpick : (flitWords f)[s.takeNat.1 % (flitWords f).length]? = some w)
include hr hlands hpick

/-- A flit that lies in several bank words has one of them written, and stays for the others (R83). -/
theorem flitArrive_writes (hmany : (flitWords f).length ≠ 1) :
    Occurs s (.circuitFlitArrive c n br) fun t => t.mem = s.mem ∧ (t.core c).live.front = (s.core c).live.front ∧
      WordWritten s t z.dst r slot f w ∧ (t.core z.dst).ring (circuit s c n).dring = some r ∧ branch t c n br.val =
        some { z with elastic := { f with bytes := f.bytes.filter fun u => u.1 / 64 != w } :: fs } := by
  have he := exec_flitArrive hz hf hfill hrem hdue hguard
  rw [if_pos hlands, hpick] at he
  replace he := he.trans (if_neg hmany)
  set m := landWord s z.dst (circuit s c n).dring slot f w
  obtain ⟨u, hu⟩ := core_modBranch m c n br.val (·.keep f fs w) c
  obtain ⟨v, hv⟩ := core_modBranch m c n br.val (·.keep f fs w) z.dst
  refine ⟨_, he, rfl, ?_, wordWritten hr (congrArg (·.store) hv), ?_, branch_modBranch ((branch_landWord _).trans hz) (·.keep f fs w)⟩
  · exact (congrArg (·.live.front) hu).trans (congrArg (·.front) (live_landWord c))
  · exact (congrArg (·.ring (circuit s c n).dring) hv).trans ((congrArg (·.rings[(circuit s c n).dring]) (live_landWord z.dst)).trans hr)

/-- A flit of which the last bank word is written has landed (R83, R265, R268). -/
theorem flitArrive_lands (hone : (flitWords f).length = 1) :
    Occurs s (.circuitFlitArrive c n br) fun t => t.mem = s.mem ∧ (t.core c).live.front = (s.core c).live.front ∧
      WordWritten s t z.dst r slot f w ∧
      branch t c n br.val = some { z with elastic := fs, filling := if f.last then none else z.filling } ∧
      ∃ k : Core, k.ring (circuit s c n).dring = some r ∧ t.core z.dst = k.flitLanded (circuit s c n).dring slot f := by
  have he := exec_flitArrive hz hf hfill hrem hdue hguard
  rw [if_pos hlands, hpick] at he
  replace he := he.trans (if_pos hone)
  set m := landWord s z.dst (circuit s c n).dring slot f w
  set u := popFlit m c n br.val f fs
  obtain ⟨v, hv⟩ := core_modBranch m c n br.val (·.pop f fs) c
  obtain ⟨v', hv'⟩ := core_modBranch m c n br.val (·.pop f fs) z.dst
  have hkeeps : ((u.touch (s.pmapOf c)).core z.dst).KeepsCircuits ((u.core z.dst).flitLanded (circuit s c n).dring slot f) :=
    (Core.flitLanded_ringsMove ..).keepsCircuits
  have hcore := (u.touch (s.pmapOf c)).core_modCore z.dst fun k => k.flitLanded (circuit s c n).dring slot f
  refine ⟨_, he, rfl, ?_, wordWritten hr ?_, ?_, u.core z.dst, ?_, hcore⟩
  · exact (front_setCore hkeeps).trans ((congrArg (·.live.front) hv).trans (congrArg (·.front) (live_landWord c)))
  · exact (congrArg (·.store) hcore).trans ((Core.flitLanded_store ..).trans (congrArg (·.store) hv'))
  · exact (congrArg (·.branches[br.val]?) (circuit_setCore hkeeps)).trans (branch_modBranch ((branch_landWord _).trans hz) _)
  · exact (congrArg (·.ring (circuit s c n).dring) hv').trans
      ((congrArg (·.rings[(circuit s c n).dring]) (live_landWord z.dst)).trans hr)

end lands

end due

end arrive

end Sys2Proof.Claims

end

section

/-! ## O43: a circuit is closed (R266) -/

namespace Sys2Proof.Machine

/-- A ring that a circuit no longer feeds (R266). -/
def Ring.unfeed (c : CoreId) (n : CircNo) (r : Ring) : Ring :=
  { r with fedBy := r.fedBy.filter fun f => !(f.src == c && f.circ == n) }

theorem Ring.fedBy_unfeed {c : CoreId} {n : CircNo} {r : Ring} {y : Feed} (h : (r.unfeed c n).fedBy = some y) :
    ¬ (y.src = c ∧ y.circ = n) := by
  have hkept := (Option.filter_eq_some_iff.1 h).2
  rw [not_and_or]
  simpa using hkept

/-- The ring q of a core is not fed by the circuit n of core c. -/
def Core.Unfed (k : Core) (q : RingId) (c : CoreId) (n : CircNo) : Prop :=
  ∀ r, k.ring q = some r → ∀ y, r.fedBy = some y → ¬ (y.src = c ∧ y.circ = n)

theorem Core.unfed_modRing (k : Core) (q : RingId) (c : CoreId) (n : CircNo) : (k.modRing q (·.unfeed c n)).Unfed q c n := by
  intro r' hr' y hy
  rw [Core.ring_modRing] at hr'
  obtain ⟨r, -, rfl⟩ := Option.map_eq_some_iff.1 hr'
  exact Ring.fedBy_unfeed hy

/-- The destinations of a circuit, none of which it feeds any more (R266). -/
def State.unfeed (s : State) (c : CoreId) (n : CircNo) (q : RingId) (bs : List Branch) : State :=
  bs.foldl (fun s (b : Branch) => s.modCore b.dst (·.modRing q (·.unfeed c n))) s

section unfeed
variable {c : CoreId} {n : CircNo} {q : RingId}

theorem State.unfeed_ringsMove (bs : List Branch) (s : State) (e : CoreId) : (s.core e).RingsMove ((s.unfeed c n q bs).core e) := by
  induction bs generalizing s with
  | nil => rfl
  | cons b bs ih =>
    refine .trans ?_ (ih _)
    by_cases he : e = b.dst
    · subst he
      rw [State.core_modCore]
      rfl
    · rw [State.core_modCore_ne (h := he)]
      rfl

/-- A core that the circuit does not feed stays one. -/
theorem State.unfed_unfeed_of_unfed (bs : List Branch) (s : State) {e : CoreId} (h : (s.core e).Unfed q c n) :
    ((s.unfeed c n q bs).core e).Unfed q c n := by
  induction bs generalizing s with
  | nil => exact h
  | cons b bs ih =>
    refine ih _ ?_
    by_cases he : e = b.dst
    · subst he
      rw [State.core_modCore]
      exact (s.core _).unfed_modRing q c n
    · rwa [State.core_modCore_ne (h := he)]

theorem State.unfed_unfeed {bs : List Branch} {b : Branch} (hb : b ∈ bs) (s : State) : ((s.unfeed c n q bs).core b.dst).Unfed q c n := by
  induction bs generalizing s with
  | nil => cases hb
  | cons a bs ih =>
    obtain rfl | hb := List.mem_cons.1 hb
    · refine State.unfed_unfeed_of_unfed bs _ ?_
      rw [State.core_modCore]
      exact (s.core _).unfed_modRing q c n
    · exact ih hb _

end unfeed

/-- A closing circuit has taken every slot that it still delivers (R266). -/
theorem Core.delivered_iff (k : Core) (x : Circuit) :
    k.delivered x = true ↔ ∀ q r j, x.src = some q → k.ring q = some r → x.due = some j → j ≤ r.tookMade := by
  unfold Core.delivered
  split
  case h_1 r j hr hj =>
    obtain ⟨q, hq, hr⟩ := Option.bind_eq_some_iff.1 hr
    rw [decide_eq_true_eq, hj]
    exact ⟨fun h q' r' j' hq' hr' hj' => by simp_all, fun h => h q r j hq hr rfl⟩
  case h_2 hno =>
    exact ⟨fun _ q r j hq hr hj => (hno r j (Option.bind_eq_some_iff.2 ⟨q, hq, hr⟩) hj).elim, fun _ => rfl⟩

end Sys2Proof.Machine

namespace Sys2Proof.Claims

open Sys2Proof.Machine

theorem sameBytes_unfeed {c : CoreId} {n : CircNo} {q : RingId} (bs : List Branch) (s : State) : SameBytes s (s.unfeed c n q bs) := by
  induction bs generalizing s with
  | nil => exact .refl s
  | cons b bs ih =>
    have hb : SameBytes s (s.modCore b.dst (·.modRing q (·.unfeed c n))) := .modCore s b.dst _ fun _ _ => rfl
    exact hb.trans (ih _)

section closed
variable {s : State} {c : CoreId} {n : CircNo} {m : Msg}

/-- Nothing is left that a circuit still delivers (R266). -/
def MayClose (k : Core) (x : Circuit) (n : CircNo) : Prop :=
  x.state = .closed ∨ x.state = .closing ∧ x.early = false ∧ k.circQuiet n = true ∧
    ∀ q r j, x.src = some q → k.ring q = some r → x.due = some j → j ≤ r.tookMade

theorem exec_circuitClosed (hm : s.net.find? (fun y => y.src == c && y.hold.req == .close n) = some m) :
    (¬ MayClose (s.core c) (circuit s c n) n → Idles s (.circuitClosed c n)) ∧
    (MayClose (s.core c) (circuit s c n) n → exec (.circuitClosed c n) s = .next ((s.closeCircuit c n).dropMsg m.id)) := by
  have hready : (match (circuit s c n).state with
      | .closed => true
      | .closing => !(circuit s c n).early && (s.core c).delivered (circuit s c n) && (s.core c).circQuiet n
      | _ => false) = true ↔ MayClose (s.core c) (circuit s c n) n := by
    rw [MayClose, ← Core.delivered_iff]
    cases (circuit s c n).state <;> simp [and_assoc, and_comm (a := (s.core c).delivered _ = true)]
  have he : exec (.circuitClosed c n) s = execCircuitClosed c n s := rfl
  simp only [execCircuitClosed, hm] at he
  exact ⟨fun h => he.trans (if_neg (mt hready.1 h)), fun h => he.trans (if_pos (hready.2 h))⟩

/-- A circuit CLOSED: its closing request is gone, and its destinations' rings are free for another one (R266). -/
theorem circuitClosed_closes (hm : s.net.find? (fun y => y.src == c && y.hold.req == .close n) = some m)
    (h : MayClose (s.core c) (circuit s c n) n) :
    EngineStep s (.circuitClosed c n) c fun t => t.msg m.id = none ∧ (circuit t c n).state = .closed ∧ (circuit t c n).branches = [] ∧
      ∀ w ∈ (circuit s c n).branches, (t.core w.dst).Unfed (circuit s c n).dring c n := by
  set x := circuit s c n
  set u := s.unfeed c n x.dring x.branches
  set g : Circuit → Circuit := fun x =>
    { x with state := .closed, branches := [], due := none, early := false, src := none, remote := none, port := none, trap := none }
  have he : exec (.circuitClosed c n) s = .next ((u.modCore c fun k => k.modCirc n g).dropMsg m.id) := (exec_circuitClosed hm).2 h
  have hcirc : circuit (u.modCore c fun k => k.modCirc n g) c n = g (circuit u c n) :=
    (congrArg (·.circ n) (u.core_modCore c _)).trans (Core.circ_modCirc ..)
  have hbytes : SameBytes s (u.modCore c fun k => k.modCirc n g) :=
    (sameBytes_unfeed x.branches s).trans (.modCore _ _ _ fun _ _ => rfl)
  refine ⟨_, he, ?_, hbytes, State.msg_dropMsg .., congrArg Circuit.state hcirc, congrArg Circuit.branches hcirc, fun w hw => ?_⟩
  · obtain ⟨v, hv⟩ := core_modCirc u c n g c
    exact (congrArg (·.live.front) hv).trans (State.unfeed_ringsMove x.branches s c).front
  · obtain ⟨v, hv⟩ := core_modCirc u c n g w.dst
    rw [show ∀ (t : State), (t.dropMsg m.id).core w.dst = t.core w.dst from fun _ => rfl, hv]
    exact State.unfed_unfeed hw s

end closed

end Sys2Proof.Claims

end

section

/-! ## O43: the events of a circuit, together -/

namespace Sys2Proof.Claims

open Sys2Proof.Machine

/-- Settles O43: each event by its lemma above. -/
theorem circuitEvents : Obligations.CircuitEvents := by
  intro c d n b q size code op m r z h hs f fs tk br slot at_ y s1 s k x runs
  refine ⟨fun hm hreq => ?opening, fun hm hreq => ?reply, fun hm hreq => ?notice, flitLeave_idles,
    fun hrun hhold hstream hreq hage hserved hroom hspine => ?leaves, fun hrun hheld => ?moves, fun hz hf => ?begins,
    fun hz hf hfill hrem => ?arrives, fun hm => ?closed⟩
  case opening =>
    refine ⟨(exec_openingArrive hm hreq).1, fun ha hroom => ?_⟩
    refine (openingArrive_replies hm hreq ha hroom).imp fun t ⟨hmsg, hhold, hring⟩ => ?_
    refine ⟨fun hr => ?_, fun hr hno => ?_, fun hr htakes => ?_⟩
    · rw [openingAnswer_of_none _ _ hr] at hhold
      exact ⟨hmsg, hhold⟩
    · rw [(openingAnswer_of_some hr).1 hno] at hhold
      exact ⟨hmsg, hhold⟩
    · rw [(openingAnswer_of_some hr).2 htakes] at hhold hring
      rw [hr] at hring
      refine ⟨⟨hmsg, hhold⟩, fun hlives => ?_, fun hlives => ?_⟩
      · rwa [if_pos ⟨Nat.succ_ne_zero _, hlives⟩] at hring
      · rwa [if_neg fun hh => hlives hh.2] at hring
  case reply =>
    refine ⟨(exec_replyArrive hm hreq).1, fun ha => (replyArrive_answers hm hreq ha).imp fun t ⟨hmsg, hcirc⟩ => ⟨hmsg, ?_⟩⟩
    rw [hcirc]
    refine ⟨fun hop => Circuit.answer_of_ne hop, fun hop => ?_⟩
    have hbranches := Circuit.branches_answer (b := b) (code := code) hop
    rw [hbranches]
    refine ⟨fun hz => ?_, fun hs => (Circuit.answer_of_opening hop hs).1, fun hs => (Circuit.answer_of_opening hop hs).2,
      fun hs hcode => ?_, fun hs hcode => ?_⟩
    · exact branch_of_modify hz ((congrArg Circuit.branches hcirc).trans hbranches)
    · rw [Circuit.answer_of_closing hop hs, if_pos hcode]
    · rw [Circuit.answer_of_closing hop hs, if_neg hcode]
  case notice =>
    refine ⟨(exec_noticeArrive hm hreq).1, fun ha hz => (noticeArrive_credits hm hreq ha).imp fun t ⟨hmsg, hcirc⟩ => ⟨hmsg, ?_⟩⟩
    refine ⟨fun hop => branch_of_modify hz (congrArg Circuit.branches (hcirc.trans (if_neg (not_not.2 hop)))), fun hop => ?_⟩
    exact (congrArg (·.branches[b]?) (hcirc.trans (if_pos hop))).trans hz
  case leaves =>
    refine (flitLeave_leaves hrun hhold hstream hreq hage hserved hroom hspine).imp fun t ⟨hhold, hdep, hcirc, hrel⟩ => ?_
    exact ⟨hhold, hdep, congrArg Circuit.branches hcirc, congrArg Circuit.sent hcirc,
      fun hlast hsrc hslot hr hghost => ⟨_, hrel _ _ _ hlast hsrc hslot hr hghost, rfl⟩⟩
  case moves =>
    have hnone : s.flitLeave c n = none := State.flitLeave_eq_none hheld
    refine ⟨flitLeave_enters hrun hnone, fun hcut hsrc hr hmay htrap => ?_⟩
    have he := exec_flitLeave_takes hrun hnone hcut hsrc hr hmay htrap
    refine ⟨fun hhead => ?_, fun hhead herr => ?_, fun hhead herr hfmt => ?_, fun hhead hgone herr hfmt => ?_⟩
    all_goals rw [show (s.core c).head q = _ from hhead] at he
    · exact he
    · exact circuit_faults (he.trans (congrArg _ (if_pos herr)))
    · exact circuit_faults (he.trans (congrArg _ ((if_neg (ne_true_of_eq_false herr)).trans (if_pos hfmt))))
    · replace he := he.trans (congrArg _ ((if_neg (ne_true_of_eq_false herr)).trans (if_neg hfmt)))
      refine ⟨fun hdata => ?_, fun bs bad hdata => ?_⟩
      · rw [Core.cutSlot_of_waits hr hgone hdata] at he
        exact he.trans (congrArg _ (s.setCore_self c))
      · refine (circuit_cuts hr hhead hgone hdata he).imp fun t ⟨hcirc, hring⟩ => ?_
        have hdue : ((circuit s c n).cutFrom r tk bs bad).due = x.due := rfl
        exact ⟨congrArg Circuit.cut hcirc, congrArg Circuit.tile hcirc, (congrArg Circuit.due hcirc).trans hdue, hring⟩
  case begins =>
    exact ⟨fillBegin_idles hz hf, fun hmay hrem hr => ⟨fun hno => fillBegin_nowhere hz hf hmay hrem hr (.inr hno),
      fun hg => fillBegin_nowhere hz hf hmay hrem hr (.inl hg), fun hg hy hfeeds hlen =>
        ⟨fillBegin_of_empty hz hf hmay hrem hr hg hy hfeeds hlen, fillBegin_of_freed hz hf hmay hrem hr hg hy hfeeds hlen,
          fillBegin_of_busy hz hf hmay hrem hr hg hy hfeeds⟩⟩⟩
  case arrives =>
    refine ⟨flitArrive_idles hz hf hfill hrem, fun hdue hguard hr =>
      ⟨flitArrive_drops hz hf hfill hrem hdue hguard hr, fun hs hst hby hy hfeeds hnew hne => ?_⟩⟩
    have hlands := (Core.flitLands_iff hr).2 ⟨hs, hst, hby, y, hy, hfeeds, hnew⟩
    obtain ⟨w, hpick, hw⟩ := exists_flitWord hne s.takeNat.1
    have hcount := flitWords_length_eq_one hw
    by_cases hone : (flitWords f).length = 1
    · obtain ⟨t, he, hmem, hfront, ⟨hin, hout⟩, hgone, k', hr', hcore⟩ :=
        flitArrive_lands hz hf hfill hrem hdue hguard hr hlands hpick hone
      refine ⟨t, he, w, mem_flitWords.1 hw, hmem, hfront, hin, hout, fun ⟨i, v, hiv, hne⟩ => ?_, fun _ => ⟨hgone, ?_⟩⟩
      · exact absurd (hcount.1 hone i v hiv) hne
      · rw [hcore]
        exact Core.ring_flitLanded hr' hy hst hby
    · obtain ⟨t, he, hmem, hfront, ⟨hin, hout⟩, hring, hbranch⟩ :=
        flitArrive_writes hz hf hfill hrem hdue hguard hr hlands hpick hone
      exact ⟨t, he, w, mem_flitWords.1 hw, hmem, hfront, hin, hout, fun _ => ⟨hring, hbranch⟩,
        fun hall => absurd (hcount.2 hall) hone⟩
  case closed =>
    exact ⟨(exec_circuitClosed hm).1, circuitClosed_closes hm⟩

end Sys2Proof.Claims

end

section

/-! ## O33: the walk words -/

namespace Sys2Proof.Claims

open Sys2Proof.Machine

/-- A wait of the front end leaves the walker of its core, and the context of its walk, as the word's effects left them. -/
theorem walk_of_modFront {s m t : State} {f : Front} (hc : m.cur = s.cur) (h : t = m.modFront s.cur fun _ => f) :
    t.me.live.walker = m.me.live.walker ∧ t.me.live.wctx = m.me.live.wctx := by
  have hme : t.me = m.me.setFront f := h ▸ hc ▸ m.core_modFront m.cur fun _ => f
  rw [hme]
  exact ⟨rfl, rfl⟩

/-- The replay log has room for a fresh word's result, so that the word does not wait for it (R360). -/
theorem Fresh.not_logFull {s : State} {h : Hdr} {tag : TagId} (hf : Fresh s h tag) : ¬ (!s.me.logRoom) = true := by
  simp [hf.2.1]

/-- The word stands until the walk ends, with its core's walker as given, and the walk reads at the word's level and addresses
(R283). -/
def WalksFrom (s : State) (i : Instr) (d : SReg) (tag : TagId) (v : Walker) : Prop :=
  ∃ t, exec i s = .next t ∧ WritesNone s t ∧ SameBytes s t ∧
    (fe t).at_.wait = .wdrive d tag ∧ (fe t).at_.pc = pcOf s ∧ (fe t).at_.po = (fe s).at_.po ∧ t.me.live.walker = v ∧
    t.me.live.wctx.trap = none ∧ t.me.live.wctx.level = (fe s).level ∧ t.me.live.wctx.vahi = (fe s).at_.vahi

section words
variable {s : State} {i : Instr} {h : Hdr} {d a : SReg} {tag : TagId}

/-- A word that starts or resumes a walk in its core, and waits for its end. -/
theorem walksFrom_of_walkFor {g : Core → Core} (hf : Fresh s h tag) (hfront : (g s.me).live.front = fe s)
    (hstore : (g s.me).store = s.me.store) (htrap : (g s.me).live.wctx.trap = none) (hlevel : (g s.me).live.wctx.level = (fe s).level)
    (hvahi : (g s.me).live.wctx.vahi = (fe s).at_.vahi) (he : exec i s = (s.modCore s.cur g).walkFor h d) :
    WalksFrom s i d tag (g s.me).live.walker := by
  have hm : FrontStands s (s.modCore s.cur g) := .of_setCore hfront hstore
  have hme : (s.modCore s.cur g).me = g s.me := s.core_modCore s.cur g
  rw [State.walkFor, Fresh.theTag hf] at he
  obtain ⟨t, he, honly, hbytes, hnone, hwait, hpc, hpo⟩ := hm.standsIn he FWait.noConfusion
  obtain ⟨hwalker, hwctx⟩ := walk_of_modFront rfl honly
  rw [hme] at hwalker hwctx
  rw [← hwctx] at htrap hlevel hvahi
  exact ⟨t, he, hnone, hbytes, hwait, hpc, hpo, hwalker, htrap, hlevel, hvahi⟩

/-- The new walk of R283 from the felt at an address, in the core that issues. -/
def newWalk (s : State) (h : Hdr) (d : SReg) (x : Word) : Outcome :=
  if x.toNat % 64 ≠ 0 then .next (s.trapHere .alignFault x) else (s.modCore s.cur fun k => k.startWalk x s.cycle).walkFor h d

/-- A new walk needs an aligned felt (R283). -/
theorem traps_of_newWalk {x : Word} (he : exec i s = newWalk s h d x) (hx : x.toNat % 64 ≠ 0) : Traps s s i .alignFault x :=
  traps_here (he.trans (if_pos hx))

/-- A new walk starts with every state word cleared (R283). -/
theorem walksFrom_of_newWalk (hf : Fresh s h tag) {x : Word} (he : exec i s = newWalk s h d x) (hx : x.toNat % 64 = 0) :
    WalksFrom s i d tag { Walker.reset with felt := x, state := .run } :=
  walksFrom_of_walkFor hf rfl rfl rfl rfl rfl (he.trans (if_neg (not_not.2 hx)))

section issued
variable (hf : Fresh s h tag) (hi : Issues s h { srcs := [(.s a, h.pda)], dsts := [.s d], feature := 3, engine := true })
include hf hi

/-- A plain `wdrive` resumes a suspended walk, and otherwise starts one (R283). -/
theorem exec_wdrive : exec (.wdrive h d a) s =
    if s.me.live.walker.state = .susp then (s.modCore s.cur fun k => k.resumeWalk s.cycle).walkFor h d
    else newWalk s h d (srcA s h a) := by
  have he : exec (.wdrive h d a) s = execWdrive h d a s := rfl
  exact (exec_of_issues he hi).trans (if_neg hf.not_logFull)

theorem exec_wdriveNew : exec (.wdriveNew h d a) s = newWalk s h d (srcA s h a) := by
  have he : exec (.wdriveNew h d a) s = execWdriveNew h d a s := rfl
  exact (exec_of_issues he hi).trans (if_neg hf.not_logFull)

/-- A suspended walk goes on with the state words it has, at the level and addresses of the word that resumes it (R283, R288). -/
theorem wdrive_resumes (hs : s.me.live.walker.state = .susp) :
    WalksFrom s (.wdrive h d a) d tag { s.me.live.walker with state := .run } :=
  walksFrom_of_walkFor hf rfl rfl rfl rfl rfl ((exec_wdrive hf hi).trans (if_pos hs))

end issued

/-- `wdrive.abort` gives a suspended walk up and reads the status that this leaves (R283). -/
theorem wdriveAbort_yields (hf : Fresh s h tag) (hi : Issues s h { dsts := [.s d], feature := 3, engine := true }) :
    Yields s (s.modCore s.cur fun k => k.modWalker Walker.abort) (.wdriveAbort h d) tag d (stateWord s.me.live.walker.abort 0) := by
  have he : exec (.wdriveAbort h d) s = execWdriveAbort h d s := rfl
  have he := (exec_of_issues he hi).trans (if_neg hf.not_logFull)
  have hme : (s.modCore s.cur fun k => k.modWalker Walker.abort).me = s.me.modWalker Walker.abort := s.core_modCore s.cur _
  dsimp only at he
  rw [hme, Walker.word_eq_stateWord] at he
  exact yields_after hf rfl hf.2.2 rfl he

end words

/-- Settles O33: the plain word resumes by `wdrive_resumes`, and a new walk is `newWalk` for both words that may start one. -/
theorem walkWords : Obligations.WalkWords := by
  unfold Obligations.WalkWords
  intro h d a tag s hf x w fresh stands
  refine ⟨fun hi => ?walks, fun hi => ?abort⟩
  case walks =>
    have hnew := exec_wdriveNew hf hi
    have hplain (hs : w.state ≠ .susp) := (exec_wdrive hf hi).trans (if_neg hs)
    exact ⟨wdrive_resumes hf hi, fun hs => traps_of_newWalk (hplain hs), fun hs => walksFrom_of_newWalk hf (hplain hs),
      traps_of_newWalk hnew, walksFrom_of_newWalk hf hnew⟩
  case abort =>
    intro v
    have hcore : (s.modCore s.cur fun k => k.modWalker Walker.abort) =
        s.modCore s.cur fun k => k.modLive fun l => { l with walker := v } := modCore_congr rfl rfl
    rw [← hcore]
    exact wdriveAbort_yields hf hi

end Sys2Proof.Claims

end

section

/-! ## O58: legal ACCEPT, and the state's operations -/

namespace Sys2Proof.Machine

/-- A set of features is one that ACCEPT may hold: the device's features, and CORE among them (R325). -/
def legalFeatures (a : Word) : Prop := a &&& 0x3F = a ∧ a.getLsbD 0 = true

theorem acceptLegal_of_pkg {s t : State} (h : t.pkg = s.pkg) : AcceptLegal t ↔ AcceptLegal s := by
  unfold AcceptLegal
  rw [h]

@[simp] theorem legalFeatures_accept (s : State) : legalFeatures s.pkg.accept ↔ AcceptLegal s := by rw [legalFeatures, AcceptLegal]

@[simp] theorem acceptLegal_mk (cores : Vector Core 256) (parts : Vector Part 16) (mem : Mem) (pkg : PkgRegs) (host : HostRegs)
    (ports : Vector Port 8) (mgmt : Mgmt) (net : List Msg) (images : List (ℕ × Core)) (parked : List (ℕ × Msg))
    (nextMsg nextLaunch cycle ptime sixths : ℕ) (timeRuns : Bool) (ties : SMap (Option (ℕ × ℕ))) (cur : CoreId) (turns : List Turn)
    (steps free : ℕ) :
    AcceptLegal ⟨cores, parts, mem, pkg, host, ports, mgmt, net, images, parked, nextMsg, nextLaunch, cycle, ptime, sixths,
      timeRuns, ties, cur, turns, steps, free⟩ ↔ legalFeatures pkg.accept := by rw [legalFeatures, AcceptLegal]

/-- The state an outcome goes on with, where it goes on, has ACCEPT legal (R325). -/
def OutcomeLegal (o : Outcome) : Prop := ∀ t, o = .next t → AcceptLegal t

@[simp] theorem outcomeLegal_next (s : State) : OutcomeLegal (.next s) ↔ AcceptLegal s :=
  ⟨fun h => h s rfl, fun h _ e => by cases e; exact h⟩

@[simp] theorem outcomeLegal_ite (p : Prop) [Decidable p] (a b : Outcome) :
    OutcomeLegal (if p then a else b) ↔ if p then OutcomeLegal a else OutcomeLegal b := by split <;> rfl

@[simp] theorem acceptLegal_ite (p : Prop) [Decidable p] (s t : State) :
    AcceptLegal (if p then s else t) ↔ if p then AcceptLegal s else AcceptLegal t := by split <;> rfl

theorem outcomeLegal_ite_of {p q : Prop} [Decidable p] {a b : Outcome} (ha : OutcomeLegal a ↔ q) (hb : OutcomeLegal b ↔ q) :
    OutcomeLegal (if p then a else b) ↔ q := by split <;> assumption

theorem acceptLegal_ite_of {p q : Prop} [Decidable p] {s t : State} (hs : AcceptLegal s ↔ q) (ht : AcceptLegal t ↔ q) :
    AcceptLegal (if p then s else t) ↔ q := by split <;> assumption

/-- The state there, where there is one, has ACCEPT legal (R325). -/
def OptionLegal (o : Option State) : Prop := ∀ t, o = some t → AcceptLegal t

@[simp] theorem optionLegal_none : OptionLegal none := fun _ h => (Option.some_ne_none _ h.symm).elim

@[simp] theorem optionLegal_some (s : State) : OptionLegal (some s) ↔ AcceptLegal s :=
  ⟨fun h => h s rfl, fun h _ e => by cases e; exact h⟩

@[simp] theorem optionLegal_map {α : Type} (o : Option α) (f : α → State) :
    OptionLegal (o.map f) ↔ ∀ x, o = some x → AcceptLegal (f x) := by cases o <;> simp

@[simp] theorem optionLegal_ite (p : Prop) [Decidable p] (a b : Option State) :
    OptionLegal (if p then a else b) ↔ if p then OptionLegal a else OptionLegal b := by split <;> rfl

@[simp] theorem State.foldl_acceptLegal {α : Type} (l : List α) (s : State) (g : State → α → State)
    (h : ∀ s x, AcceptLegal (g s x) ↔ AcceptLegal s) : AcceptLegal (l.foldl g s) ↔ AcceptLegal s := by
  induction l generalizing s with
  | nil => rfl
  | cons x l ih => rw [List.foldl_cons, ih, h]

@[simp] theorem State.foldl_snd_acceptLegal {α β : Type} (l : List α) (x : β × State) (g : β × State → α → β × State)
    (h : ∀ x a, AcceptLegal (g x a).2 ↔ AcceptLegal x.2) : AcceptLegal (l.foldl g x).2 ↔ AcceptLegal x.2 := by
  induction l generalizing x with
  | nil => rfl
  | cons a l ih => rw [List.foldl_cons, ih, h]

@[simp] theorem State.poke_acceptLegal (s : State) (a bs cmp bad own) : AcceptLegal (s.poke a bs cmp bad own) ↔ AcceptLegal s :=
  acceptLegal_of_pkg (State.poke_pkg ..)

@[simp] theorem State.pokeWord_acceptLegal (s : State) (a x) : AcceptLegal (s.pokeWord a x) ↔ AcceptLegal s := s.poke_acceptLegal ..

@[simp] theorem State.pokeWords_acceptLegal (s : State) (a ws) : AcceptLegal (s.pokeWords a ws) ↔ AcceptLegal s := by
  induction ws generalizing s a with
  | nil => rfl
  | cons w ws ih => exact (ih _ _).trans (s.pokeWord_acceptLegal a w)

@[simp] theorem State.takeWords_acceptLegal (s : State) (n) : AcceptLegal (s.takeWords n).2 ↔ AcceptLegal s := by
  induction n generalizing s with
  | zero => rfl
  | succ n ih => exact (ih _).trans (acceptLegal_of_pkg rfl)

@[simp] theorem State.takeBytes_acceptLegal (s : State) (n) : AcceptLegal (s.takeBytes n).2 ↔ AcceptLegal s := by
  induction n generalizing s with
  | zero => rfl
  | succ n ih => exact (ih _).trans (acceptLegal_of_pkg rfl)

@[simp] theorem State.setCore_acceptLegal (s : State) (c x) : AcceptLegal (s.setCore c x) ↔ AcceptLegal s :=
  acceptLegal_of_pkg rfl

@[simp] theorem State.modCore_acceptLegal (s : State) (c g) : AcceptLegal (s.modCore c g) ↔ AcceptLegal s :=
  acceptLegal_of_pkg rfl

@[simp] theorem State.modFront_acceptLegal (s : State) (c g) : AcceptLegal (s.modFront c g) ↔ AcceptLegal s :=
  acceptLegal_of_pkg rfl

@[simp] theorem State.modPart_acceptLegal (s : State) (p g) : AcceptLegal (s.modPart p g) ↔ AcceptLegal s :=
  acceptLegal_of_pkg rfl

@[simp] theorem State.signal_acceptLegal (s : State) (p bit) : AcceptLegal (s.signal p bit) ↔ AcceptLegal s := by
  simp [State.signal]

@[simp] theorem State.charge_acceptLegal (s : State) (p d m n) : AcceptLegal (s.charge p d m n) ↔ AcceptLegal s :=
  acceptLegal_of_pkg rfl

@[simp] theorem State.freezeCore_acceptLegal (s : State) (c fe ce bw viol t) :
    AcceptLegal (s.freezeCore c fe ce bw viol t) ↔ AcceptLegal s := by
  unfold State.freezeCore
  dsimp only
  (repeat' split) <;> simp

@[simp] theorem State.faultRecord_acceptLegal (s : State) (c target ws) :
    AcceptLegal (s.faultRecord c target ws).1 ↔ AcceptLegal s := by
  unfold State.faultRecord
  dsimp only
  (repeat' split) <;> simp

@[simp] theorem State.enterAt_acceptLegal (s : State) (c t resume ls) : AcceptLegal (s.enterAt c t resume ls) ↔ AcceptLegal s := by
  induction ls generalizing t with
  | nil => simp [State.enterAt]
  | cons l ls ih =>
    unfold State.enterAt
    dsimp only
    split
    · exact ih t
    · split
      · exact ih _
      · simp

@[simp] theorem State.enterIf_acceptLegal (s : State) (c t resume) : AcceptLegal (s.enterIf c t resume) ↔ AcceptLegal s := by
  simp [State.enterIf]

@[simp] theorem State.tryEnter_acceptLegal (s : State) (c) : AcceptLegal (s.tryEnter c) ↔ AcceptLegal s := by
  unfold State.tryEnter
  dsimp only
  (repeat' split) <;> simp

@[simp] theorem State.retire_acceptLegal (s : State) (h lat x) : AcceptLegal (s.retire h lat x) ↔ AcceptLegal s :=
  acceptLegal_of_pkg rfl

@[simp] theorem State.takeTrap_acceptLegal (s : State) (c t resume) : AcceptLegal (s.takeTrap c t resume) ↔ AcceptLegal s := by
  simp [State.takeTrap]

@[simp] theorem State.trapHere_acceptLegal (s : State) (cause info) : AcceptLegal (s.trapHere cause info) ↔ AcceptLegal s := by
  simp [State.trapHere]

/-- A word keeps ACCEPT legal where its own effect does (R138). -/
@[simp] theorem State.issue_acceptLegal (s : State) (i h u) (eff : State → Outcome) (he : OutcomeLegal (eff s) ↔ AcceptLegal s) :
    OutcomeLegal (s.issue i h u eff) ↔ AcceptLegal s := by
  unfold State.issue
  split
  · simp
  · simp
  · simp
  · exact he

theorem State.issue_legal {s : State} {i h u} {eff : State → Outcome} (hs : AcceptLegal s) (he : OutcomeLegal (eff s)) :
    OutcomeLegal (s.issue i h u eff) := (s.issue_acceptLegal i h u eff (iff_of_true he hs)).2 hs

@[simp] theorem State.askWalk_acceptLegal (s : State) (c hi va party) : AcceptLegal (s.askWalk c hi va party) ↔ AcceptLegal s :=
  acceptLegal_of_pkg rfl

/-- A memory word keeps ACCEPT legal where what it does with its pieces does. -/
@[simp] theorem State.withMem_acceptLegal (s : State) (sp acc align xs) (k : State → List (List Piece) → Option Need → Outcome)
    (deny blocks stream) (hk : ∀ t ps need, OutcomeLegal (k t ps need) ↔ AcceptLegal t) :
    OutcomeLegal (s.withMem sp acc align xs k deny blocks stream) ↔ AcceptLegal s := by
  unfold State.withMem
  dsimp only
  (repeat' split) <;> simp [hk]

@[simp] theorem State.withEntry_acceptLegal (s : State) (e k) (hk : ∀ x, OutcomeLegal (k s x) ↔ AcceptLegal s) :
    OutcomeLegal (s.withEntry e k) ↔ AcceptLegal s := by
  unfold State.withEntry
  dsimp only
  split <;> simp [hk]

@[simp] theorem State.withHead_acceptLegal (s : State) (c x) (f : QEntry → State → State)
    (hf : ∀ e t, AcceptLegal (f e t) ↔ AcceptLegal t) : OutcomeLegal (s.withHead c x f) ↔ AcceptLegal s := by
  unfold State.withHead
  split <;> simp [hf]

@[simp] theorem State.recordWord_acceptLegal (s : State) (i h srcs base off align deny)
    (k : State → Nat → Word → Option Need → Outcome) (blocks)
    (hk : ∀ t a va need, OutcomeLegal (k t a va need) ↔ AcceptLegal t) :
    OutcomeLegal (s.recordWord i h srcs base off align deny k blocks) ↔ AcceptLegal s := by
  simp [State.recordWord, hk]

theorem State.grant_acceptLegal {s t : State} {p d m n} (h : s.grant p d m n = some t) : AcceptLegal t ↔ AcceptLegal s := by
  unfold State.grant at h
  dsimp only at h
  (repeat' split at h) <;> cases h <;> simp

theorem State.spineOn_acceptLegal {s t : State} {p ds n} (h : s.spineOn p ds n = some t) : AcceptLegal t ↔ AcceptLegal s := by
  have hfold : ∀ r, ds.foldl (fun (s : Option State) d => s.bind fun s => s.grant p d 1 n) (some s) = some r →
      (AcceptLegal r ↔ AcceptLegal s) := by
    refine List.foldlRecOn (motive := fun o => ∀ r, o = some r → (AcceptLegal r ↔ AcceptLegal s)) ds _ (fun r e => by cases e; rfl)
      fun o ho d _ r e => ?_
    obtain ⟨u, rfl, hu⟩ := Option.bind_eq_some_iff.1 e
    rw [State.grant_acceptLegal hu, ho u rfl]
  exact hfold t h

theorem State.homeGrant_acceptLegal {s t : State} {p a n cmp} (h : s.homeGrant p a n cmp = some t) : AcceptLegal t ↔ AcceptLegal s := by
  simp only [State.homeGrant, Option.ite_none_left_eq_some] at h
  rw [State.grant_acceptLegal h.2]
  exact acceptLegal_of_pkg rfl

theorem State.spineGrant_acceptLegal {s t : State} {p c ds n} (h : s.spineGrant p c ds n = some t) : AcceptLegal t ↔ AcceptLegal s :=
  State.spineOn_acceptLegal h

theorem State.replyGrant_acceptLegal {s t : State} {p c a n} (h : s.replyGrant p c a n = some t) : AcceptLegal t ↔ AcceptLegal s :=
  State.spineOn_acceptLegal h

theorem State.portGrant_acceptLegal {s t : State} {p c q n} (h : s.portGrant p c q n = some t) : AcceptLegal t ↔ AcceptLegal s := by
  simp only [State.portGrant, Option.ite_none_left_eq_some] at h
  exact State.grant_acceptLegal h.2

theorem State.linkGrant_acceptLegal {s t : State} {p c r} (h : s.linkGrant p c r = some t) : AcceptLegal t ↔ AcceptLegal s := by
  unfold State.linkGrant at h
  split at h
  · cases h; rfl
  · exact State.portGrant_acceptLegal h

@[simp] theorem State.takeWord_acceptLegal (s : State) : AcceptLegal s.takeWord.2 ↔ AcceptLegal s := acceptLegal_of_pkg rfl

@[simp] theorem State.takeNat_acceptLegal (s : State) : AcceptLegal s.takeNat.2 ↔ AcceptLegal s := acceptLegal_of_pkg rfl
@[simp] theorem State.modPort_acceptLegal (s : State) (q f) : AcceptLegal (s.modPort q f) ↔ AcceptLegal s := acceptLegal_of_pkg rfl
@[simp] theorem State.transmit_acceptLegal (s : State) (q p ty dchip udesc) :
    AcceptLegal (s.transmit q p ty dchip udesc) ↔ AcceptLegal s := by
  simp [State.transmit]

theorem State.readGrant_acceptLegal {s t : State} {c a n cmp} (h : s.readGrant c a n cmp = .ok t) : AcceptLegal t ↔ AcceptLegal s := by
  unfold State.readGrant at h
  dsimp only at h
  split at h
  · cases h
  · split at h
    case h_2 => cases h
    case h_1 hr =>
      cases h
      split at hr
      · simp only [Option.bind_eq_some_iff] at hr
        obtain ⟨u, ⟨v, hv, hu⟩, ht⟩ := hr
        rw [State.replyGrant_acceptLegal ht, State.homeGrant_acceptLegal hu, State.spineGrant_acceptLegal hv]
      · split at hr
        · cases hr
        · simp only [Option.map_eq_some_iff, Option.bind_eq_some_iff] at hr
          obtain ⟨u, ⟨v, hv, hu⟩, rfl⟩ := hr
          rw [State.transmit_acceptLegal, State.portGrant_acceptLegal hu, State.spineGrant_acceptLegal hv]

@[simp] theorem State.readFar_acceptLegal (s : State) (a n cmp) : AcceptLegal (s.readFar a n cmp).2 ↔ AcceptLegal s := by
  unfold State.readFar
  split <;> simp

theorem State.readOwn_acceptLegal {s t : State} {c b mark a n cmp bad bs} (h : s.readOwn c b mark a n cmp = some (bs, bad, t)) :
    AcceptLegal t ↔ AcceptLegal s := by
  unfold State.readOwn at h
  dsimp only at h
  split at h
  · cases h
  · cases h
    (repeat' split) <;> simp

/-- What words, waits and messages change is outside the package registers. -/
@[simp] theorem wordUpdates_acceptLegal (s : State) :
    (∀ p n f, AcceptLegal (s.modLaunch p n f) ↔ AcceptLegal s) ∧
    (∀ p, AcceptLegal (s.touch p) ↔ AcceptLegal s) ∧
    (∀ n, AcceptLegal (s.pass n) ↔ AcceptLegal s) ∧
    (∀ key route, AcceptLegal (s.tie key route) ↔ AcceptLegal s) ∧
    (∀ h d lat v, AcceptLegal (s.deliver h d lat v) ↔ AcceptLegal s) ∧
    (∀ q nak, AcceptLegal (s.sendNak q nak) ↔ AcceptLegal s) ∧
    (∀ c hi xs, AcceptLegal (s.foresee c hi xs) ↔ AcceptLegal s) ∧
    (∀ f, AcceptLegal (s.setLoops f) ↔ AcceptLegal s) ∧
    (∀ c w, AcceptLegal (s.setWait c w) ↔ AcceptLegal s) ∧
    (∀ c t, AcceptLegal (s.pauseOver c t) ↔ AcceptLegal s) ∧
    (∀ a g poison, AcceptLegal (s.writeGroup a g poison) ↔ AcceptLegal s) ∧
    (∀ id, AcceptLegal (s.dropMsg id) ↔ AcceptLegal s) ∧
    (∀ c num, AcceptLegal (s.performed c num) ↔ AcceptLegal s) ∧
    (∀ c t po v trap, AcceptLegal (s.answer c t po v trap) ↔ AcceptLegal s) ∧
    (∀ c, AcceptLegal (s.endWait c) ↔ AcceptLegal s) ∧
    (∀ p q f, AcceptLegal (s.modQueue p q f) ↔ AcceptLegal s) ∧
    (∀ ts kind va, AcceptLegal (s.trimWalkCaches ts kind va) ↔ AcceptLegal s) ∧
    (∀ m t po va dbl old, AcceptLegal (s.atomicReply m t po va dbl old) ↔ AcceptLegal s) ∧
    (∀ num p, AcceptLegal (s.gbarReply num p) ↔ AcceptLegal s) ∧
    (∀ info, AcceptLegal (s.logCirc info) ↔ AcceptLegal s) := by
  and_intros <;> intros <;> exact acceptLegal_of_pkg rfl

/-- What the pool, the rings and the walker change is outside the package registers. -/
@[simp] theorem engineUpdates_acceptLegal (s : State) :
    (∀ c x cause info n lane, AcceptLegal (s.stopHead c x cause info n lane) ↔ AcceptLegal s) ∧
    (∀ c x e, AcceptLegal (s.finishHead c x e) ↔ AcceptLegal s) ∧
    (∀ c x n, AcceptLegal (s.finishAfter c x n) ↔ AcceptLegal s) ∧
    (∀ c lane x o, AcceptLegal (s.fire c lane x o) ↔ AcceptLegal s) ∧
    (∀ c lane x cause info, AcceptLegal (s.stopStream c lane x cause info) ↔ AcceptLegal s) ∧
    (∀ h d q x, AcceptLegal (s.popSlot h d q x) ↔ AcceptLegal s) ∧
    (∀ c w, AcceptLegal (s.walkWait c w) ↔ AcceptLegal s) ∧
    (∀ c a w, AcceptLegal (s.walkTo c a w) ↔ AcceptLegal s) := by
  and_intros <;> intros <;> exact acceptLegal_of_pkg rfl

/-- What contexts, ports, the host and management change leaves the package's ACCEPT as it is. -/
@[simp] theorem deviceUpdates_acceptLegal (s : State) :
    (∀ c b, AcceptLegal (s.ctxBusy c b) ↔ AcceptLegal s) ∧
    (∀ c, AcceptLegal (s.ctxError c) ↔ AcceptLegal s) ∧
    (∀ c, AcceptLegal (s.park c) ↔ AcceptLegal s) ∧
    (∀ c asid img a, AcceptLegal (s.readSlot c asid img a) ↔ AcceptLegal s) ∧
    (∀ p asid a, AcceptLegal (s.readRunning p asid a) ↔ AcceptLegal s) ∧
    (∀ to_ a q, AcceptLegal (s.unstowPort to_ a q) ↔ AcceptLegal s) ∧
    (∀ p f, AcceptLegal (s.modLogs p f) ↔ AcceptLegal s) ∧
    (∀ p m v, AcceptLegal (s.writeBudget p m v) ↔ AcceptLegal s) ∧
    (∀ c v, AcceptLegal (s.writeFeed c v) ↔ AcceptLegal s) ∧
    (∀ c rollback, AcceptLegal (s.countStrike c rollback) ↔ AcceptLegal s) ∧
    (∀ b bit off, AcceptLegal (s.hostErr b bit off) ↔ AcceptLegal s) ∧
    (∀ v, AcceptLegal (s.writePcap v) ↔ AcceptLegal s) ∧
    (∀ v, AcceptLegal (s.writeTlimit v) ↔ AcceptLegal s) ∧
    (∀ ur, AcceptLegal (s.completed ur) ↔ AcceptLegal s) ∧
    (∀ v, AcceptLegal (s.answerHost v) ↔ AcceptLegal s) ∧
    (AcceptLegal s.release ↔ AcceptLegal s) := by
  and_intros <;> intros <;> exact acceptLegal_of_pkg rfl

end Sys2Proof.Machine

end

section

/-! ## O58: the engines' reads, and fetching -/

namespace Sys2Proof.Machine

@[simp] theorem State.newGuard_acceptLegal (s : State) (p route x d type) :
    AcceptLegal (s.newGuard p route x d type) ↔ AcceptLegal s := by
  simp [State.newGuard]

@[simp] theorem State.guardRecord_acceptLegal (s : State) (c party p x d type) :
    AcceptLegal (s.guardRecord c party p x d type) ↔ AcceptLegal s := by
  unfold State.guardRecord
  dsimp only
  split <;> simp

@[simp] theorem State.dropFreeze_acceptLegal (s : State) (c party) : AcceptLegal (s.dropFreeze c party) ↔ AcceptLegal s := by
  simp [State.dropFreeze]

theorem State.readPieces_acceptLegal (s : State) (c party b mark ps bs bad) :
    AcceptLegal (s.readPieces c party b mark ps bs bad).state ↔ AcceptLegal s := by
  induction ps generalizing s bs bad with
  | nil => rfl
  | cons p ps ih =>
    unfold State.readPieces
    split
    · simp
    · rfl
    case h_3 t ht =>
      have ht : AcceptLegal t ↔ AcceptLegal s := by
        split at ht
        · cases ht; rfl
        · split at ht
          · cases ht
          · exact State.readGrant_acceptLegal ht
      split
      · exact ht
      case h_2 hu => rw [ih, State.readOwn_acceptLegal hu, ht]

theorem State.engineReadAll_acceptLegal {s : State} {c party lv hi acc mark sp xs r}
    (h : s.engineReadAll c party lv hi acc mark sp xs = r) : AcceptLegal r.state ↔ AcceptLegal s := by
  subst h
  unfold State.engineReadAll
  split
  · simp
  · simp
  · exact State.readPieces_acceptLegal ..

theorem State.engineRead_acceptLegal {s : State} {c party lv hi acc mark sp a n r}
    (h : s.engineRead c party lv hi acc mark sp a n = r) : AcceptLegal r.state ↔ AcceptLegal s := State.engineReadAll_acceptLegal h

theorem State.feltRead_acceptLegal {s : State} {c a n r} (h : s.feltRead c a n = r) : AcceptLegal r.state ↔ AcceptLegal s :=
  State.engineReadAll_acceptLegal h

theorem State.bitmapRead_acceptLegal {s : State} {c cmp2 off r} (h : s.bitmapRead c cmp2 off = r) :
    AcceptLegal r.state ↔ AcceptLegal s := by
  subst h
  unfold State.bitmapRead
  split
  case h_1 hr =>
    have ht := State.feltRead_acceptLegal hr
    split
    · split
      case h_1 hr => exact (State.feltRead_acceptLegal hr).trans ht
      case h_2 => exact (State.feltRead_acceptLegal rfl).trans ht
    · exact ht
  case h_2 => exact State.feltRead_acceptLegal rfl

theorem State.feltPieces_acceptLegal (s : State) (c ps) : AcceptLegal (s.feltPieces c ps).1.state ↔ AcceptLegal s := by
  induction ps generalizing s with
  | nil => rfl
  | cons p ps ih =>
    unfold State.feltPieces
    split
    case h_1 t hr =>
      have ht := (ih t).trans (State.feltRead_acceptLegal hr)
      split
      case h_1 hp => rwa [hp] at ht
      case h_2 => exact ht
    case h_2 => exact State.feltRead_acceptLegal rfl

theorem EngRead.source_acceptLegal {s : State} {r : EngRead} {k : List Byte → Option Word → State → SrcRead}
    (hr : AcceptLegal r.state ↔ AcceptLegal s) (hk : ∀ bs bad t, AcceptLegal (k bs bad t).state ↔ AcceptLegal t) :
    AcceptLegal (r.source k).state ↔ AcceptLegal s := by
  cases r with
  | wait s => exact hr
  | trap c a s => exact hr
  | ok bs bad s => exact (hk bs bad s).trans hr

theorem State.copyScale_acceptLegal {s : State} {c e x y r} (h : s.copyScale c e x y = r) : AcceptLegal r.state ↔ AcceptLegal s := by
  subst h
  unfold State.copyScale
  dsimp only
  split
  · rfl
  · split
    · (repeat' split) <;> rfl
    · exact EngRead.source_acceptLegal (State.engineRead_acceptLegal rfl) fun _ _ _ => Iff.rfl

theorem State.copySource_acceptLegal {s : State} {c e x y r} (h : s.copySource c e x y = r) : AcceptLegal r.state ↔ AcceptLegal s := by
  subst h
  unfold State.copySource
  dsimp only
  split
  · (repeat' split) <;> rfl
  · refine EngRead.source_acceptLegal (State.engineReadAll_acceptLegal rfl) fun bs bad t => ?_
    split
    · split
      · rfl
      · exact EngRead.source_acceptLegal (State.engineReadAll_acceptLegal rfl) fun _ _ _ => Iff.rfl
    · rfl

theorem State.readLine_acceptLegal {s : State} {c ps bs r} (h : s.readLine c ps bs = r) :
    AcceptLegal (r.elim id Prod.snd) ↔ AcceptLegal s := by
  subst h
  induction ps generalizing s bs with
  | nil => rfl
  | cons p ps ih =>
    unfold State.readLine
    split
    · simp
    · rfl
    case h_3 t ht =>
      refine ih.trans ((t.readFar_acceptLegal ..).trans ?_)
      split at ht
      · cases ht; rfl
      · exact State.readGrant_acceptLegal ht

theorem State.fetchLine_acceptLegal {s : State} {c va r} (h : s.fetchLine c va = r) :
    AcceptLegal (r.elim Fetched.state Prod.snd) ↔ AcceptLegal s := by
  subst h
  unfold State.fetchLine
  dsimp only
  split
  · simp
  · simp
  · split
    case h_1 hr => exact State.readLine_acceptLegal hr
    case h_2 hr => exact State.readLine_acceptLegal hr

theorem State.fetch_acceptLegal {s : State} {c refetch r} (h : s.fetch c refetch = r) : AcceptLegal r.state ↔ AcceptLegal s := by
  subst h
  unfold State.fetch
  dsimp only
  split
  · simp
  · split
    · rfl
    · split
      case h_1 hr => exact State.fetchLine_acceptLegal hr
      case h_2 hr => simpa using State.fetchLine_acceptLegal hr

@[simp] theorem State.readContext_acceptLegal (s : State) (asid acc xs) : AcceptLegal (s.readContext asid acc xs).2 ↔ AcceptLegal s := by
  induction xs generalizing s with
  | nil => rfl
  | cons x xs ih =>
    unfold State.readContext
    (repeat' split) <;> simp [ih]

end Sys2Proof.Machine

end

section

/-! ## O58: words -/

namespace Sys2Proof.Machine

@[simp] theorem State.clearMarks_acceptLegal (s : State) (cells cmp) :
    AcceptLegal (s.clearMarks cells cmp) ↔ AcceptLegal s := by simp [State.clearMarks]

@[simp] theorem State.rlog_acceptLegal (s : State) (p hdr p0 p1 p2) :
    AcceptLegal (s.rlog p hdr p0 p1 p2) ↔ AcceptLegal s := by simp [State.rlog]

@[simp] theorem State.rlogCore_acceptLegal (s : State) (c n kind p0 p1 p2) :
    AcceptLegal (s.rlogCore c n kind p0 p1 p2) ↔ AcceptLegal s := by simp [State.rlogCore]

@[simp] theorem State.endIteration_acceptLegal (s : State) (c) : AcceptLegal (s.endIteration c) ↔ AcceptLegal s := by
  unfold State.endIteration
  dsimp only
  (repeat' split) <;> simp

@[simp] theorem State.loadWord_acceptLegal (s : State) (h dst mask kind sp us acq lat need) :
    OutcomeLegal (s.loadWord h dst mask kind sp us acq lat need) ↔ AcceptLegal s := by simp [State.loadWord]

@[simp] theorem State.storeWord_acceptLegal (s : State) (h act rel need) :
    OutcomeLegal (s.storeWord h act rel need) ↔ AcceptLegal s := by
  simp [State.storeWord]

theorem State.storeWord_next_acceptLegal {s t : State} {h act rel need} (e : s.storeWord h act rel need = .next t) :
    AcceptLegal t ↔ AcceptLegal s := by
  rw [← outcomeLegal_next, ← e, State.storeWord_acceptLegal]

@[simp] theorem State.transmitAll_acceptLegal (s : State) (q p type_ dchip udesc n) :
    AcceptLegal (s.transmitAll q p type_ dchip udesc n) ↔ AcceptLegal s := by simp [State.transmitAll]

@[simp] theorem State.poisonSeen_acceptLegal (s : State) (c what) : AcceptLegal (s.poisonSeen c what) ↔ AcceptLegal s := by
  unfold State.poisonSeen
  (repeat' split) <;> simp

@[simp] theorem execSlotReleaseDepart_acceptLegal (s : State) (c q) :
    OutcomeLegal (execSlotReleaseDepart c q s) ↔ AcceptLegal s := by
  unfold execSlotReleaseDepart
  dsimp only
  (repeat' split) <;> simp

@[simp] theorem State.scalarOp_acceptLegal (s : State) (i h lat srcs locks d f) :
    OutcomeLegal (s.scalarOp i h lat srcs locks d f) ↔ AcceptLegal s := by simp [State.scalarOp]

@[simp] theorem State.scalar1_acceptLegal (s : State) (i h lat d a f) :
    OutcomeLegal (s.scalar1 i h lat d a f) ↔ AcceptLegal s := by simp [State.scalar1]

@[simp] theorem State.scalar2_acceptLegal (s : State) (i h lat d a b f) :
    OutcomeLegal (s.scalar2 i h lat d a b f) ↔ AcceptLegal s := by simp [State.scalar2]

@[simp] theorem State.shiftOp_acceptLegal (s : State) (i h w d a n f) : OutcomeLegal (s.shiftOp i h w d a n f) ↔ AcceptLegal s := by
  unfold State.shiftOp
  (repeat' split) <;> simp

@[simp] theorem State.fpOp_acceptLegal (s : State) (i h rm srcs locks d f) :
    OutcomeLegal (s.fpOp i h rm srcs locks d f) ↔ AcceptLegal s := by simp [State.fpOp]

@[simp] theorem State.laneOp_acceptLegal (s : State) (i h lat srcs locks d rm n f feature) :
    OutcomeLegal (s.laneOp i h lat srcs locks d rm n f feature) ↔ AcceptLegal s := by simp [State.laneOp]

@[simp] theorem State.lane1_acceptLegal (s : State) (i h lat d a f) :
    OutcomeLegal (s.lane1 i h lat d a f) ↔ AcceptLegal s := by simp [State.lane1]

@[simp] theorem State.lane2_acceptLegal (s : State) (i h lat d a b f) :
    OutcomeLegal (s.lane2 i h lat d a b f) ↔ AcceptLegal s := by simp [State.lane2]

@[simp] theorem State.elem2_acceptLegal (s : State) (i h t rm d a b ff fi) :
    OutcomeLegal (s.elem2 i h t rm d a b ff fi) ↔ AcceptLegal s := by simp [State.elem2]

@[simp] theorem State.elem3_acceptLegal (s : State) (i h t rm d a b c ff) :
    OutcomeLegal (s.elem3 i h t rm d a b c ff) ↔ AcceptLegal s := by simp [State.elem3]

@[simp] theorem State.vshift_acceptLegal (s : State) (i h t d a n f) : OutcomeLegal (s.vshift i h t d a n f) ↔ AcceptLegal s := by
  unfold State.vshift
  (repeat' split) <;> simp

@[simp] theorem State.specialOp_acceptLegal (s : State) (i h rm d a f) :
    OutcomeLegal (s.specialOp i h rm d a f) ↔ AcceptLegal s := by simp [State.specialOp]

@[simp] theorem State.reduceOp_acceptLegal (s : State) (i h d a c f) :
    OutcomeLegal (s.reduceOp i h d a c f) ↔ AcceptLegal s := by simp [State.reduceOp]

@[simp] theorem vectorMoveEvents_acceptLegal (s : State) :
    (∀ h d a, OutcomeLegal (execVbcast h d a s) ↔ AcceptLegal s) ∧
    (∀ h f, OutcomeLegal (execVmov h f s) ↔ AcceptLegal s) := by
  and_intros
  all_goals
    intros
    simp only [execVbcast, execVmov]
    (repeat' split) <;> simp

@[simp] theorem State.convOp_acceptLegal (s : State) (i h t srcs d rm n f) :
    OutcomeLegal (s.convOp i h t srcs d rm n f) ↔ AcceptLegal s := by simp [State.convOp]

@[simp] theorem State.predOp_acceptLegal (s : State) (i h srcs d f) :
    OutcomeLegal (s.predOp i h srcs d f) ↔ AcceptLegal s := by simp [State.predOp]

@[simp] theorem execPset_acceptLegal (s : State) (h d f) :
    OutcomeLegal (execPset h d f s) ↔ AcceptLegal s := by
  unfold execPset
  (repeat' split) <;> simp

@[simp] theorem State.transfer_acceptLegal (s : State) (h lat t d) :
    OutcomeLegal (s.transfer h lat t d) ↔ AcceptLegal s := by simp [State.transfer]

@[simp] theorem State.startLoop_acceptLegal (s : State) (h set1 count off) :
    OutcomeLegal (s.startLoop h set1 count off) ↔ AcceptLegal s := by simp [State.startLoop]

@[simp] theorem State.userTrap_acceptLegal (s : State) (h info) :
    OutcomeLegal (s.userTrap h info) ↔ AcceptLegal s := by simp [State.userTrap]

@[simp] theorem controlEvents_acceptLegal (s : State) :
    (∀ h n, OutcomeLegal (execSysc h n s) ↔ AcceptLegal s) ∧
    (∀ c, OutcomeLegal (execPauseEnd c s) ↔ AcceptLegal s) ∧
    (∀ h wake a, OutcomeLegal (execWfi h wake a s) ↔ AcceptLegal s) ∧
    (∀ c, OutcomeLegal (execWfiWake c s) ↔ AcceptLegal s) ∧
    (∀ h, OutcomeLegal (execHalt h s) ↔ AcceptLegal s) := by
  and_intros
  all_goals
    intros
    simp only [execSysc, execPauseEnd, execWfi, execWfiWake, execHalt]
    (repeat' split) <;> simp

end Sys2Proof.Machine

end

section

/-! ## O58: memory -/

namespace Sys2Proof.Machine

@[simp] theorem State.scalarLoad_acceptLegal (s : State) (i h d base sp w sx off align acq) :
    OutcomeLegal (s.scalarLoad i h d base sp w sx off align acq) ↔ AcceptLegal s := by simp [State.scalarLoad]

@[simp] theorem State.scalarStore_acceptLegal (s : State) (i h data base sp w off align rel) :
    OutcomeLegal (s.scalarStore i h data base sp w off align rel) ↔ AcceptLegal s := by simp [State.scalarStore]

@[simp] theorem State.vectorLoad_acceptLegal (s : State) (i h d base locks sp addr gather) :
    OutcomeLegal (s.vectorLoad i h d base locks sp addr gather) ↔ AcceptLegal s := by simp [State.vectorLoad]

@[simp] theorem State.vectorStore_acceptLegal (s : State) (i h data base locks sp comb addr) :
    OutcomeLegal (s.vectorStore i h data base locks sp comb addr) ↔ AcceptLegal s := by simp [State.vectorStore]

@[simp] theorem State.atomicWord_acceptLegal (s : State) (h d t scope ord r addr need) :
    OutcomeLegal (s.atomicWord h d t scope ord r addr need) ↔ AcceptLegal s := by simp [State.atomicWord]

@[simp] theorem execCred_acceptLegal (s : State) (h data base dbl scope ord op u cm1 off) :
    OutcomeLegal (execCred h data base dbl scope ord op u cm1 off s) ↔ AcceptLegal s := by
  refine State.recordWord_acceptLegal _ _ _ _ _ _ _ _ _ _ fun t a va need => ?_
  dsimp only
  split
  case h_1 u hu => split <;> simp [State.storeWord_next_acceptLegal hu]
  case h_2 => exact t.storeWord_acceptLegal ..

@[simp] theorem execGleave_acceptLegal (s : State) (h base off) : OutcomeLegal (execGleave h base off s) ↔ AcceptLegal s := by
  refine State.recordWord_acceptLegal _ _ _ _ _ _ _ _ _ _ fun t a va need => ?_
  split <;> simp

@[simp] theorem execToks_acceptLegal (s : State) (h sp sn) : OutcomeLegal (execToks h sp sn s) ↔ AcceptLegal s := by
  refine State.issue_acceptLegal _ _ _ _ _ ?_
  split <;> simp

@[simp] theorem memIssueEvents_acceptLegal (s : State) :
    (∀ h d base dbl scope ord op u off, OutcomeLegal (execAmo h d base dbl scope ord op u off s) ↔ AcceptLegal s) ∧
    (∀ h d base dbl scope ord off, OutcomeLegal (execCas h d base dbl scope ord off s) ↔ AcceptLegal s) ∧
    (∀ h data base scope off, OutcomeLegal (execBarInit h data base scope off s) ↔ AcceptLegal s) ∧
    (∀ h base rel scope off, OutcomeLegal (execBarArrive h base rel scope off s) ↔ AcceptLegal s) ∧
    (∀ h base scope ph off, OutcomeLegal (execBarWait h base scope ph off s) ↔ AcceptLegal s) ∧
    (∀ h base off, OutcomeLegal (execGjoin h base off s) ↔ AcceptLegal s) ∧
    (∀ h base scope off, OutcomeLegal (execGbar h base scope off s) ↔ AcceptLegal s) := by
  and_intros
  all_goals
    intros
    simp only [execAmo, execCas, execBarInit, execBarArrive, execBarWait, execGjoin, execGbar]
    (repeat' split) <;> simp

@[simp] theorem State.sign_acceptLegal (s : State) (c h) : AcceptLegal (s.sign c h) ↔ AcceptLegal s := by
  unfold State.sign
  (repeat' split) <;> simp

@[simp] theorem State.signOp_acceptLegal (s : State) (m va d op) :
    AcceptLegal (s.signOp m va d op) ↔ AcceptLegal s := by simp [State.signOp]

@[simp] theorem State.writeBar_acceptLegal (s : State) (a b poison) :
    AcceptLegal (s.writeBar a b poison) ↔ AcceptLegal s := by simp [State.writeBar]

@[simp] theorem State.barrier_acceptLegal (s : State) (a arrivals n poison) :
    AcceptLegal (s.barrier a arrivals n poison) ↔ AcceptLegal s := by simp [State.barrier]

@[simp] theorem State.send_acceptLegal (s : State) (c e) : AcceptLegal (s.send c e) ↔ AcceptLegal s := by
  unfold State.send
  dsimp only
  (repeat' split) <;> simp

@[simp] theorem State.combined_acceptLegal (s : State) (m a) : AcceptLegal (s.combined m a) ↔ AcceptLegal s := by simp [State.combined]

@[simp] theorem State.applied_acceptLegal (s : State) (m) : AcceptLegal (s.applied m) ↔ AcceptLegal s := by simp [State.applied]

@[simp] theorem State.peekFar_acceptLegal (s : State) (a n cmp) : AcceptLegal (s.peekFar a n cmp).2.2 ↔ AcceptLegal s := by
  unfold State.peekFar
  (repeat' split) <;> simp

@[simp] theorem State.codeLine_acceptLegal (s : State) (asid vahi a) :
    AcceptLegal (s.codeLine asid vahi a).2 ↔ AcceptLegal s := by simp [State.codeLine]

@[simp] theorem State.recWords_acceptLegal (s : State) (a cmp) :
    AcceptLegal (s.recWords a cmp).2 ↔ AcceptLegal s := by simp [State.recWords]

@[simp] theorem State.pokeRec_acceptLegal (s : State) (a bs cmp) :
    AcceptLegal (s.pokeRec a bs cmp) ↔ AcceptLegal s := by simp [State.pokeRec]

@[simp] theorem State.noteHead_acceptLegal (s : State) (p q) : AcceptLegal (s.noteHead p q) ↔ AcceptLegal s := by simp [State.noteHead]

@[simp] theorem State.noteHeads_acceptLegal (s : State) (p) : AcceptLegal (s.noteHeads p) ↔ AcceptLegal s := by simp [State.noteHeads]

@[simp] theorem State.readEntry_acceptLegal (s : State) (p q n) : AcceptLegal (s.readEntry p q n).2 ↔ AcceptLegal s := by
  unfold State.readEntry
  dsimp only
  (repeat' split) <;> simp

@[simp] theorem State.rebuild_acceptLegal (s : State) (p q) : AcceptLegal (s.rebuild p q) ↔ AcceptLegal s := by simp [State.rebuild]

@[simp] theorem State.loadQueue_acceptLegal (s : State) (p q cfg ptr ctx) :
    AcceptLegal (s.loadQueue p q cfg ptr ctx) ↔ AcceptLegal s := by simp [State.loadQueue]

@[simp] theorem State.trapLate_acceptLegal (s : State) (c x) : AcceptLegal (s.trapLate c x) ↔ AcceptLegal s := by simp [State.trapLate]

@[simp] theorem State.trapAccess_acceptLegal (s : State) (c n cause a word) :
    AcceptLegal (s.trapAccess c n cause a word) ↔ AcceptLegal s := by simp [State.trapAccess]

@[simp] theorem State.placeLoad_acceptLegal (s : State) (c) : AcceptLegal (s.placeLoad c) ↔ AcceptLegal s := by
  unfold State.placeLoad
  (repeat' split) <;> simp

@[simp] theorem State.placeStore_acceptLegal (s : State) (c) : AcceptLegal (s.placeStore c) ↔ AcceptLegal s := by
  unfold State.placeStore
  (repeat' split) <;> simp

@[simp] theorem State.tlbStart_acceptLegal (s : State) (c) : AcceptLegal (s.tlbStart c) ↔ AcceptLegal s := by
  unfold State.tlbStart
  dsimp only
  (repeat' split) <;> simp

@[simp] theorem State.tlbEnd_acceptLegal (s : State) (c) : AcceptLegal (s.tlbEnd c) ↔ AcceptLegal s := by
  unfold State.tlbEnd
  (repeat' split) <;> simp

@[simp] theorem State.gbarSend_acceptLegal (s : State) (c) : AcceptLegal (s.gbarSend c) ↔ AcceptLegal s := by
  unfold State.gbarSend
  dsimp only
  (repeat' split) <;> simp

@[simp] theorem execHoldbackDepart_acceptLegal (s : State) (c n) : OutcomeLegal (execHoldbackDepart c n s) ↔ AcceptLegal s := by
  unfold execHoldbackDepart
  dsimp only
  split
  · simp
  split
  · simp
  split
  · simp
  case h_2 t ht =>
    obtain ⟨u, hu, ht⟩ := Option.bind_eq_some_iff.1 ht
    simp [State.linkGrant_acceptLegal ht, State.spineGrant_acceptLegal hu]

@[simp] theorem State.finishLoad_acceptLegal (s : State) (c l) : AcceptLegal (s.finishLoad c l) ↔ AcceptLegal s := by
  unfold State.finishLoad
  dsimp only
  (repeat' split) <;> simp

@[simp] theorem State.loadDropped_acceptLegal (s : State) (c x d) :
    AcceptLegal (s.loadDropped c x d) ↔ AcceptLegal s := by simp [State.loadDropped]

/-- The units of a load that are read together. -/
theorem State.readUnits_acceptLegal {s : State} {c b l} {now : ℕ → LoadUnit → Bool} {is : List ℕ} {us t}
    (h : is.foldl (fun (st : Option (List LoadUnit × State)) i =>
      match st, (Load.units l)[i]? with
      | some (us, s), some v =>
        if now i v then
          match s.readOwn c b l.mark v.addr v.n v.cmp with
          | some (bs, bad, s) => some (us ++ [{ v with value := some (ofBytes bs), bad := v.bad || bad }], s)
          | none => none
        else some (us ++ [v], s)
      | _, _ => none) (some ([], s)) = some (us, t)) : AcceptLegal t ↔ AcceptLegal s := by
  refine List.foldlRecOn (motive := fun o => ∀ us t, o = some (us, t) → (AcceptLegal t ↔ AcceptLegal s)) is _
    (fun _ _ e => by cases e; rfl) (fun o ho i _ us t e => ?_) us t h
  split at e
  · split at e
    · split at e
      · cases e
        rw [State.readOwn_acceptLegal ‹_›, ho _ _ rfl]
      · cases e
    · cases e
      exact ho _ _ rfl
  · cases e

@[simp] theorem execLoadPerform_acceptLegal (s : State) (c n unit) : OutcomeLegal (execLoadPerform c n unit s) ↔ AcceptLegal s := by
  unfold execLoadPerform
  dsimp only
  split
  case h_2 => simp
  split
  · simp
  split
  · simp
  split
  · simp
  split
  · simp
  · simp
  case h_3 t ht =>
    have ht : AcceptLegal t ↔ AcceptLegal s := by
      split at ht
      · cases ht; rfl
      · exact State.readGrant_acceptLegal ht
    split
    · simp [ht]
    split
    · simp [ht]
    case h_2 hu =>
      split <;> simp [State.readUnits_acceptLegal hu, ht]

@[simp] theorem State.pokeUnit_acceptLegal (s : State) (u red poison own) :
    AcceptLegal (s.pokeUnit u red poison own) ↔ AcceptLegal s := by simp [State.pokeUnit]

@[simp] theorem State.copyCount_acceptLegal (s : State) (m us) : AcceptLegal (s.copyCount m us) ↔ AcceptLegal s := by
  unfold State.copyCount
  split
  · refine State.foldl_acceptLegal _ _ _ fun t d => ?_
    dsimp only
    split <;> simp
  · rfl

@[simp] theorem State.clearWhole_acceptLegal (s : State) (us) :
    AcceptLegal (s.clearWhole us) ↔ AcceptLegal s := by simp [State.clearWhole]

@[simp] theorem State.applyUnit_acceptLegal (s : State) (m us red bar unit) :
    OutcomeLegal (s.applyUnit m us red bar unit) ↔ AcceptLegal s := by
  unfold State.applyUnit
  split
  · simp
  refine outcomeLegal_ite_of (by simp) ?_
  split
  · simp
  case h_2 t ht =>
    have ht : AcceptLegal t ↔ AcceptLegal s := by
      split at ht
      · exact State.homeGrant_acceptLegal ht
      · cases ht; rfl
    rw [← ht]
    extract_lets tp tw done new t2 t3 t4
    have hp : AcceptLegal tp ↔ AcceptLegal t := acceptLegal_ite_of (by simp) (by simp)
    have hw : AcceptLegal tw ↔ AcceptLegal t := by
      refine acceptLegal_ite_of Iff.rfl ?_
      cases bar <;> simp [hp]
    have h2 : AcceptLegal t2 ↔ AcceptLegal t := acceptLegal_ite_of hw (by simp [hw])
    have h3 : AcceptLegal t3 ↔ AcceptLegal t := acceptLegal_ite_of (by simp [h2]) h2
    have h4 : AcceptLegal t4 ↔ AcceptLegal t := acceptLegal_ite_of (by simp [h3]) h3
    exact outcomeLegal_ite_of (by simp [h4]) (by simp [hw])

@[simp] theorem State.combineAt_acceptLegal (s : State) (m a n) (f : State → State) (hf : ∀ t, AcceptLegal (f t) ↔ AcceptLegal t) :
    OutcomeLegal (s.combineAt m a n f) ↔ AcceptLegal s := by
  unfold State.combineAt
  split
  · simp
  split
  · split
    · simp
    case h_2 ht => simp [hf, State.homeGrant_acceptLegal ht]
  · simp

@[simp] theorem execAmoApply_acceptLegal (s : State) (msg) : OutcomeLegal (execAmoApply msg s) ↔ AcceptLegal s := by
  unfold execAmoApply
  split
  · simp
  split
  · refine outcomeLegal_ite_of (by simp) (outcomeLegal_ite_of ?_ (by simp))
    split
    · simp
    case h_2 ht => simp [State.homeGrant_acceptLegal ht]
  · simp

@[simp] theorem execCasApply_acceptLegal (s : State) (msg) : OutcomeLegal (execCasApply msg s) ↔ AcceptLegal s := by
  unfold execCasApply
  split
  · simp
  split
  · refine outcomeLegal_ite_of (by simp) (outcomeLegal_ite_of ?_ (by simp))
    split
    · simp
    case h_2 ht => simp [State.homeGrant_acceptLegal ht]
  · simp

@[simp] theorem State.contribute_acceptLegal (s : State) (a dbl op u cnt x poison) :
    AcceptLegal (s.contribute a dbl op u cnt x poison) ↔ AcceptLegal s := by simp [State.contribute]

@[simp] theorem execGbarReturn_acceptLegal (s : State) (c) : OutcomeLegal (execGbarReturn c s) ↔ AcceptLegal s := by
  unfold execGbarReturn
  dsimp only
  split
  · split
    · refine outcomeLegal_ite_of (by simp) ?_
      split
      · simp
      · simp
      case h_3 ht => simp [State.readGrant_acceptLegal ht]
    · simp
  · simp

@[simp] theorem execBarWaitCheck_acceptLegal (s : State) (c) : OutcomeLegal (execBarWaitCheck c s) ↔ AcceptLegal s := by
  unfold execBarWaitCheck
  dsimp only
  split
  · refine outcomeLegal_ite_of (by simp) ?_
    split
    · simp
    · simp
    case h_3 ht => simp [State.readGrant_acceptLegal ht]
  · simp

@[simp] theorem State.errorRecords_acceptLegal (s : State) (unit die a) :
    AcceptLegal (s.errorRecords unit die a) ↔ AcceptLegal s := by simp [State.errorRecords]

@[simp] theorem State.hbmError_acceptLegal (s : State) (unit) :
    AcceptLegal (s.hbmError unit) ↔ AcceptLegal s := by simp [State.hbmError]

@[simp] theorem State.cacheError_acceptLegal (s : State) (d unit) :
    AcceptLegal (s.cacheError d unit) ↔ AcceptLegal s := by simp [State.cacheError]

@[simp] theorem execCacheMissRead_acceptLegal (s : State) (d block) : OutcomeLegal (execCacheMissRead d block s) ↔ AcceptLegal s := by
  refine outcomeLegal_ite_of (by simp) (outcomeLegal_ite_of (by simp) (outcomeLegal_ite_of (by simp) ?_))
  split
  · simp
  case h_2 ht => simp [State.grant_acceptLegal ht]

@[simp] theorem execCompressedWriteback_acceptLegal (s : State) (d block) :
    OutcomeLegal (execCompressedWriteback d block s) ↔ AcceptLegal s := by
  refine outcomeLegal_ite_of (by simp) ?_
  split
  · simp
  · refine outcomeLegal_ite_of (by simp) ?_
    split
    · simp
    case h_2 ht => simp [State.grant_acceptLegal ht]

@[simp] theorem memEventsEvents_acceptLegal (s : State) :
    (∀ c t, OutcomeLegal (execRegisterResultArrive c t s) ↔ AcceptLegal s) ∧
    (∀ c, OutcomeLegal (execTokwPop c s) ↔ AcceptLegal s) ∧
    (∀ c b order, OutcomeLegal (execWriteAgePerform c b order s) ↔ AcceptLegal s) ∧
    (∀ msg unit, OutcomeLegal (execHomeStoreApply msg unit s) ↔ AcceptLegal s) ∧
    (∀ msg, OutcomeLegal (execBoundCopyWriteApply msg s) ↔ AcceptLegal s) ∧
    (∀ msg, OutcomeLegal (execCredApply msg s) ↔ AcceptLegal s) ∧
    (∀ msg, OutcomeLegal (execBarInitApply msg s) ↔ AcceptLegal s) ∧
    (∀ msg, OutcomeLegal (execBarrierArrivalApply msg s) ↔ AcceptLegal s) ∧
    (∀ msg, OutcomeLegal (execGroupOpApply msg s) ↔ AcceptLegal s) ∧
    (∀ msg, OutcomeLegal (execGbarArrivalApply msg s) ↔ AcceptLegal s) ∧
    (∀ c, OutcomeLegal (execBarWaitReturn c s) ↔ AcceptLegal s) ∧
    (∀ c n, OutcomeLegal (execRequestAck c n s) ↔ AcceptLegal s) := by
  and_intros
  all_goals
    intros
    simp only [execRegisterResultArrive, execTokwPop, execWriteAgePerform, execHomeStoreApply, execBoundCopyWriteApply,
      execCredApply, execBarInitApply, execBarrierArrivalApply, execGroupOpApply, execGbarArrivalApply, execBarWaitReturn,
      execRequestAck]
    (repeat' split) <;> simp

end Sys2Proof.Machine

end

section

/-! ## O58: circuits, launches and copies -/

namespace Sys2Proof.Machine

@[simp] theorem State.circBounds_acceptLegal (s : State) (w) :
    AcceptLegal (s.circBounds w) ↔ AcceptLegal s := by simp [State.circBounds]

@[simp] theorem State.openCircuit_acceptLegal (s : State) (h n q w size members) :
    OutcomeLegal (s.openCircuit h n q w size members) ↔ AcceptLegal s := by
  unfold State.openCircuit
  dsimp only
  split
  · simp
  split
  case h_1 t ht => split <;> simp [State.storeWord_next_acceptLegal ht]
  case h_2 => simp

@[simp] theorem execCirc_acceptLegal (s : State) (h n q a b) : OutcomeLegal (execCirc h n q a b s) ↔ AcceptLegal s := by
  refine State.issue_acceptLegal _ _ _ _ _ ?_
  dsimp only
  iterate 5
    split
    · simp
  split
  · simp
  split
  · simp
  split
  · simp
  split
  case h_1 hr => simpa using State.engineRead_acceptLegal hr
  case h_2 hr => simpa using State.engineRead_acceptLegal hr
  case h_3 hr => simpa using State.engineRead_acceptLegal hr
  case h_4 hr => simpa using State.engineRead_acceptLegal hr

@[simp] theorem execCcls_acceptLegal (s : State) (h n) : OutcomeLegal (execCcls h n s) ↔ AcceptLegal s := by
  refine State.issue_acceptLegal _ _ _ _ _ ?_
  dsimp only
  split
  case h_1 t ht => split <;> simp [State.storeWord_next_acceptLegal ht]
  case h_2 => simp

theorem State.flitLeave_acceptLegal {s t : State} {c n} (h : s.flitLeave c n = some t) : AcceptLegal t ↔ AcceptLegal s := by
  unfold State.flitLeave at h
  dsimp only at h
  split at h
  · cases h
  split at h
  · split at h
    · cases h
    · split at h
      · cases h
      case h_2 hu =>
        cases h
        simp [State.spineGrant_acceptLegal hu]
  · cases h

theorem State.flitEnter_acceptLegal {s t : State} {c n} (h : s.flitEnter c n = some t) : AcceptLegal t ↔ AcceptLegal s := by
  unfold State.flitEnter at h
  dsimp only at h
  (repeat' split at h) <;> cases h <;> simp

@[simp] theorem State.takeSlot_acceptLegal (s : State) (c n) : AcceptLegal (s.takeSlot c n) ↔ AcceptLegal s := by
  unfold State.takeSlot
  dsimp only
  (repeat' split) <;> simp

@[simp] theorem execCircuitFlitLeave_acceptLegal (s : State) (c n) : OutcomeLegal (execCircuitFlitLeave c n s) ↔ AcceptLegal s := by
  unfold execCircuitFlitLeave
  dsimp only
  split
  · simp
  split
  case h_1 ht => simp [State.flitLeave_acceptLegal ht]
  split
  case h_1 ht => simp [State.flitEnter_acceptLegal ht]
  case h_2 => simp

@[simp] theorem execCircuitFlitArrive_acceptLegal (s : State) (c n branch) :
    OutcomeLegal (execCircuitFlitArrive c n branch s) ↔ AcceptLegal s := by
  unfold execCircuitFlitArrive
  dsimp only
  split
  · simp
  split
  case h_2 => simp
  split
  · simp
  split
  · simp
  split
  · split
    · simp
    case h_2 ht =>
      obtain ⟨q, -, ht⟩ := Option.bind_eq_some_iff.1 ht
      obtain ⟨u, hu, e⟩ := Option.map_eq_some_iff.1 ht
      cases e
      simp [State.portGrant_acceptLegal hu]
  · (repeat' split) <;> simp

@[simp] theorem State.closeCircuit_acceptLegal (s : State) (c n) :
    AcceptLegal (s.closeCircuit c n) ↔ AcceptLegal s := by simp [State.closeCircuit]

@[simp] theorem circuitsEvents_acceptLegal (s : State) :
    (∀ msg, OutcomeLegal (execCircuitOpeningArrive msg s) ↔ AcceptLegal s) ∧
    (∀ msg, OutcomeLegal (execCircuitReplyArrive msg s) ↔ AcceptLegal s) ∧
    (∀ msg, OutcomeLegal (execFreeNoticeArrive msg s) ↔ AcceptLegal s) ∧
    (∀ c n branch, OutcomeLegal (execBranchFillBegin c n branch s) ↔ AcceptLegal s) ∧
    (∀ c n, OutcomeLegal (execCircuitClosed c n s) ↔ AcceptLegal s) := by
  and_intros
  all_goals
    intros
    simp only [execCircuitOpeningArrive, execCircuitReplyArrive, execFreeNoticeArrive, execBranchFillBegin, execCircuitClosed]
    (repeat' split) <;> simp

@[simp] theorem execLaunch_acceptLegal (s : State) (h d a q) : OutcomeLegal (execLaunch h d a q s) ↔ AcceptLegal s := by
  refine State.issue_acceptLegal _ _ _ _ _ (State.withMem_acceptLegal _ _ _ _ _ _ _ _ _ fun t ps need => ?_)
  (repeat' split) <;> simp

@[simp] theorem State.lwaitWord_acceptLegal (s : State) (i h d a test) : OutcomeLegal (s.lwaitWord i h d a test) ↔ AcceptLegal s := by
  refine State.issue_acceptLegal _ _ _ _ _ ?_
  dsimp only
  split
  · simp
  refine State.withMem_acceptLegal _ _ _ _ _ _ _ _ _ fun t ps need => ?_
  split <;> simp

@[simp] theorem execLwaitReturn_acceptLegal (s : State) (c) : OutcomeLegal (execLwaitReturn c s) ↔ AcceptLegal s := by
  unfold execLwaitReturn
  split
  · simp
  split
  · refine outcomeLegal_ite_of (by simp) (outcomeLegal_ite_of (by simp) ?_)
    split
    · simp
    · simp
    case h_3 ht => simp [State.readGrant_acceptLegal ht]
  · simp

@[simp] theorem State.accept_acceptLegal (s : State) (p q e w) :
    AcceptLegal (s.accept p q e w) ↔ AcceptLegal s := by simp [State.accept]

@[simp] theorem State.enqueue_acceptLegal (s : State) (p q e) :
    AcceptLegal (s.enqueue p q e).2 ↔ AcceptLegal s := by simp [State.enqueue]

@[simp] theorem State.doorbell_acceptLegal (s : State) (p dev v) : AcceptLegal (s.doorbell p dev v) ↔ AcceptLegal s := by
  unfold State.doorbell
  dsimp only
  (repeat' split) <;> simp

@[simp] theorem execLaunchRequestArrive_acceptLegal (s : State) (msg) :
    OutcomeLegal (execLaunchRequestArrive msg s) ↔ AcceptLegal s := by
  unfold execLaunchRequestArrive
  (repeat' split) <;> simp

@[simp] theorem State.permFreeze_acceptLegal (s : State) (c cause ce t) :
    AcceptLegal (s.permFreeze c cause ce t) ↔ AcceptLegal s := by simp [State.permFreeze]

@[simp] theorem execCdefReadComplete_acceptLegal (s : State) (c e) : OutcomeLegal (execCdefReadComplete c e s) ↔ AcceptLegal s := by
  unfold execCdefReadComplete
  dsimp only
  split
  · refine outcomeLegal_ite_of (by simp) ?_
    split
    all_goals
      rename_i hr
      simpa using State.engineRead_acceptLegal hr
  · simp

@[simp] theorem State.startCopy_acceptLegal (s : State) (i h e a b demand) :
    OutcomeLegal (s.startCopy i h e a b demand) ↔ AcceptLegal s := by
  refine State.issue_acceptLegal _ _ _ _ _ (State.withEntry_acceptLegal _ _ _ fun x => ?_)
  dsimp only
  (repeat' split) <;> simp

@[simp] theorem State.copyFault_acceptLegal (s : State) (c e cause info) :
    AcceptLegal (s.copyFault c e cause info) ↔ AcceptLegal s := by simp [State.copyFault]

@[simp] theorem State.copyMemory_acceptLegal (s : State) (c e y v used poison) :
    AcceptLegal (s.copyMemory c e y v used poison) ↔ AcceptLegal s := by
  unfold State.copyMemory
  extract_lets
  (repeat' split) <;> simp

@[simp] theorem State.copySlot_acceptLegal (s : State) (c e y v used poison) :
    AcceptLegal (s.copySlot c e y v used poison) ↔ AcceptLegal s := by
  unfold State.copySlot
  (repeat' split) <;> simp

@[simp] theorem State.copyCircuit_acceptLegal (s : State) (c e y v used poison) :
    AcceptLegal (s.copyCircuit c e y v used poison) ↔ AcceptLegal s := by
  unfold State.copyCircuit
  dsimp only
  (repeat' split) <;> simp

/-- A block's move keeps ACCEPT legal where what follows its checks does. -/
@[simp] theorem State.copyChecked_acceptLegal (s : State) (c e xs k) (hk : AcceptLegal k ↔ AcceptLegal s) :
    AcceptLegal (s.copyChecked c e xs k) ↔ AcceptLegal s := by
  unfold State.copyChecked
  dsimp only
  split <;> simp [hk]

@[simp] theorem State.copyMove_acceptLegal (s : State) (c e y) : AcceptLegal (s.copyMove c e y) ↔ AcceptLegal s := by
  refine State.copyChecked_acceptLegal _ _ _ _ _ ?_
  split
  case h_1 hr => exact State.copyScale_acceptLegal hr
  case h_2 hr => simpa using State.copyScale_acceptLegal hr
  case h_3 t hr =>
    have ht : AcceptLegal t ↔ AcceptLegal s := State.copyScale_acceptLegal hr
    rw [← ht]
    split
    case h_1 hr => exact State.copySource_acceptLegal hr
    case h_2 hr => simpa using State.copySource_acceptLegal hr
    case h_3 u hr =>
      have hu : AcceptLegal u ↔ AcceptLegal t := State.copySource_acceptLegal hr
      rw [ht]
      refine State.copyChecked_acceptLegal _ _ _ _ _ ?_
      rw [← ht]
      split
      · simp [hu]
      · (repeat' split) <;> simp [hu]

@[simp] theorem State.copyStep_acceptLegal (s : State) (c e) : AcceptLegal (s.copyStep c e) ↔ AcceptLegal s := by
  unfold State.copyStep
  dsimp only
  (repeat' split) <;> simp

@[simp] theorem copyEvents_acceptLegal (s : State) :
    (∀ c, OutcomeLegal (execCwaitReturn c s) ↔ AcceptLegal s) ∧
    (∀ h d circuit n, OutcomeLegal (execCstat h d circuit n s) ↔ AcceptLegal s) ∧
    (∀ c e, OutcomeLegal (execCopyCompletionTokenPush c e s) ↔ AcceptLegal s) := by
  and_intros
  all_goals
    intros
    simp only [execCwaitReturn, execCstat, execCopyCompletionTokenPush]
    (repeat' split) <;> simp

end Sys2Proof.Machine

end

section

/-! ## O58: the pool and the rings -/

namespace Sys2Proof.Machine

@[simp] theorem State.dispatch_acceptLegal (s : State) (i h srcs locks x t op) :
    OutcomeLegal (s.dispatch i h srcs locks x t op) ↔ AcceptLegal s := by simp [State.dispatch]

@[simp] theorem State.actOrFinish_acceptLegal (s : State) (c x e) (act : State → State) (ha : AcceptLegal (act s) ↔ AcceptLegal s) :
    AcceptLegal (s.actOrFinish c x e act) ↔ AcceptLegal s := by
  unfold State.actOrFinish
  (repeat' split) <;> simp [ha]

@[simp] theorem execCarveRecordRead_acceptLegal (s : State) (c) : OutcomeLegal (execCarveRecordRead c s) ↔ AcceptLegal s := by
  refine State.withHead_acceptLegal _ _ _ _ fun e t => ?_
  split
  · split
    · rfl
    · split
      case h_1 hr => exact State.engineRead_acceptLegal hr
      case h_2 hr => simpa using State.engineRead_acceptLegal hr
      case h_3 hr => simpa using State.engineRead_acceptLegal hr
      case h_4 hr => simpa using State.engineRead_acceptLegal hr
  · rfl

@[simp] theorem execMmapBegin_acceptLegal (s : State) (c) : OutcomeLegal (execMmapBegin c s) ↔ AcceptLegal s := by
  refine State.withHead_acceptLegal _ _ _ _ fun e t => ?_
  split
  · refine State.actOrFinish_acceptLegal _ _ _ _ _ ?_
    split <;> simp
  · rfl

@[simp] theorem State.wloadSlot_acceptLegal (s : State) (c q a e r x gs) :
    AcceptLegal (s.wloadSlot c q a e r x gs) ↔ AcceptLegal s := by
  unfold State.wloadSlot
  dsimp only
  (repeat' split) <;> simp

@[simp] theorem State.arm_acceptLegal (s : State) (c e lane x) : AcceptLegal (s.arm c e lane x) ↔ AcceptLegal s := by simp [State.arm]

@[simp] theorem poolQueueHeads_acceptLegal (s : State) :
    (∀ c, OutcomeLegal (execCarveBegin c s) ↔ AcceptLegal s) ∧
    (∀ c, OutcomeLegal (execSbindBegin c s) ↔ AcceptLegal s) ∧
    (∀ c, OutcomeLegal (execPlaneSwap c s) ↔ AcceptLegal s) ∧
    (∀ c, OutcomeLegal (execWloadSlotStep c s) ↔ AcceptLegal s) ∧
    (∀ c q, OutcomeLegal (execTokenEntryBegin c q s) ↔ AcceptLegal s) ∧
    (∀ c, OutcomeLegal (execFeedArm c s) ↔ AcceptLegal s) := by
  and_intros
  all_goals
    intros
    refine State.withHead_acceptLegal _ _ _ _ fun e t => ?_
    dsimp -failIfUnchanged only
    (repeat' split) <;> simp

@[simp] theorem execPoolOperationFire_acceptLegal (s : State) (c lane) :
    OutcomeLegal (execPoolOperationFire c lane s) ↔ AcceptLegal s := by
  unfold execPoolOperationFire
  dsimp only
  split
  · simp
  refine outcomeLegal_ite_of (by simp) (outcomeLegal_ite_of (by simp) ?_)
  split
  · simp
  · simp
  refine outcomeLegal_ite_of (by simp) ?_
  split
  · simp
  split
  · simp
  case h_2 ht => split <;> simp [State.grant_acceptLegal ht]

@[simp] theorem State.combine_acceptLegal (s : State) (c lane o p hs) : AcceptLegal (s.combine c lane o p hs) ↔ AcceptLegal s := by
  unfold State.combine
  (repeat' split) <;> simp

@[simp] theorem State.drainSlot_acceptLegal (s : State) (c d) : AcceptLegal (s.drainSlot c d) ↔ AcceptLegal s := by
  unfold State.drainSlot
  dsimp only
  (repeat' split) <;> simp

@[simp] theorem State.drainBias_acceptLegal (s : State) (c d) : AcceptLegal (s.drainBias c d) ↔ AcceptLegal s := by
  unfold State.drainBias
  (repeat' split) <;> simp

@[simp] theorem State.drainRead_acceptLegal (s : State) (c d e) : AcceptLegal (s.drainRead c d e) ↔ AcceptLegal s := by
  unfold State.drainRead
  dsimp only
  (repeat' split) <;> simp

@[simp] theorem State.drainStep_acceptLegal (s : State) (c d e) : AcceptLegal (s.drainStep c d e) ↔ AcceptLegal s := by
  unfold State.drainStep
  dsimp only
  (repeat' split) <;> simp

@[simp] theorem poolRunHeads_acceptLegal (s : State) :
    (∀ c, OutcomeLegal (execDrainBegin c s) ↔ AcceptLegal s) ∧
    (∀ c, OutcomeLegal (execDrainSlotFull c s) ↔ AcceptLegal s) ∧
    (∀ c, OutcomeLegal (execAclrBegin c s) ↔ AcceptLegal s) := by
  and_intros
  all_goals
    intros
    refine State.withHead_acceptLegal _ _ _ _ fun e t => ?_
    dsimp -failIfUnchanged only
    (repeat' split) <;> simp

@[simp] theorem poolRunEvents_acceptLegal (s : State) :
    (∀ c lane, OutcomeLegal (execPassEnterResultStage c lane s) ↔ AcceptLegal s) ∧
    (∀ c lane, OutcomeLegal (execOperationRetire c lane s) ↔ AcceptLegal s) ∧
    (∀ msg, OutcomeLegal (execExtendedPartArrive msg s) ↔ AcceptLegal s) := by
  and_intros
  all_goals
    intros
    simp only [execPassEnterResultStage, execOperationRetire, execExtendedPartArrive]
    (repeat' split) <;> simp

@[simp] theorem execQpop_acceptLegal (s : State) (h d q) : OutcomeLegal (execQpop h d q s) ↔ AcceptLegal s := by
  refine State.issue_acceptLegal _ _ _ _ _ ?_
  split
  · simp
  (repeat' split) <;> simp

@[simp] theorem execQpopFree_acceptLegal (s : State) (h d q) : OutcomeLegal (execQpopFree h d q s) ↔ AcceptLegal s := by
  refine State.issue_acceptLegal _ _ _ _ _ ?_
  split
  · simp
  (repeat' split) <;> simp

@[simp] theorem ringWordsWords_acceptLegal (s : State) :
    (∀ h q a b, OutcomeLegal (execQdef h q a b s) ↔ AcceptLegal s) ∧
    (∀ h q a, OutcomeLegal (execQfill h q a s) ↔ AcceptLegal s) ∧
    (∀ h d q slot ptr, OutcomeLegal (execQtag h d q slot ptr s) ↔ AcceptLegal s) := by
  and_intros
  all_goals
    intros
    refine State.issue_acceptLegal _ _ _ _ _ ?_
    dsimp only
    (repeat' split) <;> simp

@[simp] theorem ringWordsEvents_acceptLegal (s : State) :
    (∀ c q, OutcomeLegal (execQdefTakeEffect c q s) ↔ AcceptLegal s) ∧
    (∀ c q, OutcomeLegal (execQresetTakeEffect c q s) ↔ AcceptLegal s) ∧
    (∀ c q, OutcomeLegal (execQfillSlotFull c q s) ↔ AcceptLegal s) ∧
    (∀ c, OutcomeLegal (execQpopTake c s) ↔ AcceptLegal s) := by
  and_intros
  all_goals
    intros
    simp only [execQdefTakeEffect, execQresetTakeEffect, execQfillSlotFull, execQpopTake]
    (repeat' split) <;> simp

end Sys2Proof.Machine

end

section

/-! ## O58: the walker -/

namespace Sys2Proof.Machine

@[simp] theorem State.walkFor_acceptLegal (s : State) (h d) : OutcomeLegal (s.walkFor h d) ↔ AcceptLegal s := by simp [State.walkFor]

@[simp] theorem State.walkFault_acceptLegal (s : State) (c cause info) :
    AcceptLegal (s.walkFault c cause info) ↔ AcceptLegal s := by simp [State.walkFault]

@[simp] theorem State.payloadMark_acceptLegal (s : State) (c bad) : AcceptLegal (s.payloadMark c bad) ↔ AcceptLegal s := by
  unfold State.payloadMark
  (repeat' split) <;> simp

@[simp] theorem execFeltHeaderRead_acceptLegal (s : State) (c) : OutcomeLegal (execFeltHeaderRead c s) ↔ AcceptLegal s := by
  refine outcomeLegal_ite_of (by simp) ?_
  dsimp only
  split
  case h_1 hr => simpa using State.feltRead_acceptLegal hr
  case h_2 hr => simpa using State.feltRead_acceptLegal hr
  case h_3 hr => simpa using State.feltRead_acceptLegal hr
  case h_4 hr =>
    have ht := State.feltRead_acceptLegal hr
    split <;> simpa using ht

@[simp] theorem State.feltPlaced_acceptLegal (s : State) (c) :
    AcceptLegal (s.feltPlaced c) ↔ AcceptLegal s := by simp [State.feltPlaced]

@[simp] theorem State.carveFelt_acceptLegal (s : State) (c) : AcceptLegal (s.carveFelt c) ↔ AcceptLegal s := by
  refine acceptLegal_ite_of (acceptLegal_ite_of (by simp) (by simp)) (acceptLegal_ite_of (by simp) ?_)
  dsimp only
  split
  case h_1 hr => simpa using State.feltRead_acceptLegal hr
  case h_2 hr => simpa using State.feltRead_acceptLegal hr
  case h_3 hr =>
    have ht := State.feltRead_acceptLegal hr
    split
    · simpa using ht
    · split <;> simpa using ht

@[simp] theorem State.loadBegin_acceptLegal (s : State) (c h gs) : AcceptLegal (s.loadBegin c h gs) ↔ AcceptLegal s := by
  unfold State.loadBegin
  dsimp only
  (repeat' split) <;> simp

@[simp] theorem State.loadScales_acceptLegal (s : State) (c h gs) : AcceptLegal (s.loadScales c h gs) ↔ AcceptLegal s := by
  unfold State.loadScales
  dsimp only
  split
  all_goals
    rename_i hr
    simpa using State.feltRead_acceptLegal hr

@[simp] theorem State.loadScan_acceptLegal (s : State) (c h gs e) : AcceptLegal (s.loadScan c h gs e) ↔ AcceptLegal s := by
  refine acceptLegal_ite_of (by simp) ?_
  dsimp only
  split
  case h_1 hr => simpa using State.bitmapRead_acceptLegal hr
  case h_2 hr => simpa using State.bitmapRead_acceptLegal hr
  case h_3 hr =>
    have ht := State.bitmapRead_acceptLegal hr
    split <;> simpa using ht

@[simp] theorem State.loadEnd_acceptLegal (s : State) (c h gs e) :
    AcceptLegal (s.loadEnd c h gs e) ↔ AcceptLegal s := by simp [State.loadEnd]

@[simp] theorem State.putBlock_acceptLegal (s : State) (c h g b d boff run) :
    AcceptLegal (s.putBlock c h g b d boff run) ↔ AcceptLegal s := by
  unfold State.putBlock
  dsimp only
  split
  · simp
  all_goals
    rename_i hr
    have hr := State.feltRead_acceptLegal (Option.some_inj.1 (Option.ite_none_right_eq_some.1 hr).2)
    simpa using hr

@[simp] theorem State.loadBlock_acceptLegal (s : State) (c h gs e) : AcceptLegal (s.loadBlock c h gs e) ↔ AcceptLegal s := by
  unfold State.loadBlock
  extract_lets w
  split
  · simp
  extract_lets zero values
  have hvalues (t : State) (n mk boff) : AcceptLegal (values t n mk boff) ↔ AcceptLegal t := by
    have hr : AcceptLegal (t.loadValues c h w.voff e.pos n mk).1.state ↔ AcceptLegal t := t.feltPieces_acceptLegal c _
    dsimp only [values]
    split
    all_goals
      rename_i e
      rw [e] at hr
      simpa using hr
  split
  · exact hvalues ..
  split
  · simp
  split
  case h_1 hr => simpa using State.bitmapRead_acceptLegal hr
  case h_2 hr => simpa using State.bitmapRead_acceptLegal hr
  case h_3 t hr =>
    have ht : AcceptLegal t ↔ AcceptLegal s := State.bitmapRead_acceptLegal hr
    dsimp only
    split <;> simp [hvalues, ht]

@[simp] theorem execLoadwBlock_acceptLegal (s : State) (c) : OutcomeLegal (execLoadwBlock c s) ↔ AcceptLegal s := by
  refine State.withHead_acceptLegal _ _ _ _ fun e t => ?_
  dsimp only
  (repeat' split) <;> simp

@[simp] theorem State.walkArrive_acceptLegal (s : State) (c h) : AcceptLegal (s.walkArrive c h) ↔ AcceptLegal s := by
  unfold State.walkArrive
  dsimp only
  (repeat' split) <;> simp

@[simp] theorem State.walkEnd_acceptLegal (s : State) (c) : AcceptLegal (s.walkEnd c) ↔ AcceptLegal s := by
  unfold State.walkEnd
  dsimp only
  (repeat' split) <;> simp

@[simp] theorem walkerRunEvents_acceptLegal (s : State) :
    (∀ h d a, OutcomeLegal (execWdrive h d a s) ↔ AcceptLegal s) ∧
    (∀ h d a, OutcomeLegal (execWdriveNew h d a s) ↔ AcceptLegal s) ∧
    (∀ c, OutcomeLegal (execFeltActionPlace c s) ↔ AcceptLegal s) ∧
    (∀ c, OutcomeLegal (execWalkerToken c s) ↔ AcceptLegal s) ∧
    (∀ c, OutcomeLegal (execFeltSuccessor c s) ↔ AcceptLegal s) ∧
    (∀ c, OutcomeLegal (execTagbrResolve c s) ↔ AcceptLegal s) := by
  and_intros
  all_goals
    intros
    simp only [execWdrive, execWdriveNew, execFeltActionPlace, execWalkerToken, execFeltSuccessor, execTagbrResolve]
    (repeat' split) <;> simp

end Sys2Proof.Machine

end

section

/-! ## O58: the scheduler and the contexts -/

namespace Sys2Proof.Machine

@[simp] theorem State.assignAll_acceptLegal (s : State) (l cs) :
    AcceptLegal (s.assignAll l cs) ↔ AcceptLegal s := by simp [State.assignAll]

@[simp] theorem State.beginHead_acceptLegal (s : State) (p q l cs) :
    AcceptLegal (s.beginHead p q l cs) ↔ AcceptLegal s := by simp [State.beginHead]

@[simp] theorem State.markRunning_acceptLegal (s : State) (l) :
    AcceptLegal (s.markRunning l) ↔ AcceptLegal s := by simp [State.markRunning]

@[simp] theorem State.bringItdone_acceptLegal (s : State) (l) :
    AcceptLegal (s.bringItdone l) ↔ AcceptLegal s := by simp [State.bringItdone]

@[simp] theorem schedEvents_acceptLegal (s : State) :
    (∀ p q, OutcomeLegal (execWaitbarRead p q s) ↔ AcceptLegal s) ∧
    (∀ p, OutcomeLegal (execSchedulerGrant p s) ↔ AcceptLegal s) ∧
    (∀ c, OutcomeLegal (execCoreClearComplete c s) ↔ AcceptLegal s) ∧
    (∀ c, OutcomeLegal (execIterationDispatch c s) ↔ AcceptLegal s) ∧
    (∀ c, OutcomeLegal (execCoreRelease c s) ↔ AcceptLegal s) ∧
    (∀ p n, OutcomeLegal (execLaunchComplete p n s) ↔ AcceptLegal s) := by
  and_intros
  all_goals
    intros
    simp only [execWaitbarRead, execSchedulerGrant, execCoreClearComplete, execIterationDispatch, execCoreRelease, execLaunchComplete]
    (repeat' split) <;> simp

@[simp] theorem execQsave_acceptLegal (s : State) (h q a) : OutcomeLegal (execQsave h q a s) ↔ AcceptLegal s := by
  refine State.issue_acceptLegal _ _ _ _ _ ?_
  dsimp only
  split
  · simp
  refine State.withMem_acceptLegal _ _ _ _ _ _ _ _ _ fun t ps need => ?_
  split
  case h_1 u hu => split <;> simp [State.storeWord_next_acceptLegal hu]
  case h_2 => simp

@[simp] theorem State.abandonWait_acceptLegal (s : State) (c) : AcceptLegal (s.abandonWait c) ↔ AcceptLegal s := by
  unfold State.abandonWait
  (repeat' split) <;> simp

@[simp] theorem State.pokeFree_acceptLegal (s : State) (n a) : AcceptLegal (s.pokeFree n a) ↔ AcceptLegal s := by
  induction n generalizing s a with
  | zero => rfl
  | succ n ih => exact (ih _ _).trans ((State.pokeWord_acceptLegal ..).trans (s.takeWord_acceptLegal))

@[simp] theorem State.writeSlot_acceptLegal (s : State) (c) : AcceptLegal (s.writeSlot c) ↔ AcceptLegal s := by
  unfold State.writeSlot
  refine acceptLegal_ite_of Iff.rfl ?_
  simp only [acceptLegal_mk, legalFeatures_accept, State.poke_acceptLegal, State.pokeWords_acceptLegal, State.pokeFree_acceptLegal,
    State.pokeWord_acceptLegal]

@[simp] theorem execSaveComplete_acceptLegal (s : State) (c) : OutcomeLegal (execSaveComplete c s) ↔ AcceptLegal s := by
  unfold execSaveComplete
  split
  · refine outcomeLegal_ite_of (outcomeLegal_next s) ?_
    have hw : AcceptLegal ((s.writeSlot c).modCore c fun k => k.setStop .stopped) ↔ AcceptLegal s :=
      (State.modCore_acceptLegal ..).trans (s.writeSlot_acceptLegal c)
    refine outcomeLegal_ite_of ?_ ?_
    · rw [outcomeLegal_next, State.modPart_acceptLegal, hw]
    · rw [outcomeLegal_next, (deviceUpdates_acceptLegal _).1, hw]
  · exact outcomeLegal_next s

@[simp] theorem State.pausePort_acceptLegal (s : State) (p a q) :
    AcceptLegal (s.pausePort p a q) ↔ AcceptLegal s := by simp [State.pausePort]

@[simp] theorem State.switchStart_acceptLegal (s : State) (p) :
    AcceptLegal (s.switchStart p) ↔ AcceptLegal s := by simp [State.switchStart]

@[simp] theorem State.switchLoad_acceptLegal (s : State) (p) : AcceptLegal (s.switchLoad p) ↔ AcceptLegal s := by
  unfold State.switchLoad
  refine State.foldl_acceptLegal _ _ _ fun t c => ?_
  dsimp only
  (repeat' split) <;> simp

@[simp] theorem State.pokeFlits_acceptLegal (s : State) (a xs) :
    AcceptLegal (s.pokeFlits a xs) ↔ AcceptLegal s := by simp [State.pokeFlits]

@[simp] theorem State.stowPort_acceptLegal (s : State) (asid a q) :
    AcceptLegal (s.stowPort asid a q) ↔ AcceptLegal s := by simp [State.stowPort]

@[simp] theorem State.writePort_acceptLegal (s : State) (a q) : AcceptLegal (s.writePort a q) ↔ AcceptLegal s := by
  simp only [State.writePort, State.pokeFree_acceptLegal, State.pokeWords_acceptLegal, State.pokeWord_acceptLegal]

@[simp] theorem State.writeRunning_acceptLegal (s : State) (a l) :
    AcceptLegal (s.writeRunning a l) ↔ AcceptLegal s := by simp [State.writeRunning]

@[simp] theorem State.writeBlock_acceptLegal (s : State) (p asid) :
    AcceptLegal (s.writeBlock p asid) ↔ AcceptLegal s := by simp [State.writeBlock]

@[simp] theorem State.resumePort_acceptLegal (s : State) (to_ q) : AcceptLegal (s.resumePort to_ q) ↔ AcceptLegal s := by
  unfold State.resumePort
  (repeat' split) <;> simp

@[simp] theorem State.switchEnd_acceptLegal (s : State) (p) : AcceptLegal (s.switchEnd p) ↔ AcceptLegal s := by simp [State.switchEnd]

@[simp] theorem State.switchTurn_acceptLegal (s : State) (p) :
    AcceptLegal (s.switchTurn p) ↔ AcceptLegal s := by simp [State.switchTurn]

@[simp] theorem execCtxsave_acceptLegal (s : State) (h a) :
    OutcomeLegal (execCtxsave h a s) ↔ AcceptLegal s := by
  refine State.issue_acceptLegal _ _ _ _ _ ?_
  dsimp only
  (repeat' split) <;> simp

@[simp] theorem contextsEvents_acceptLegal (s : State) :
    (∀ h a, OutcomeLegal (execCtxload h a s) ↔ AcceptLegal s) ∧
    (∀ h q a, OutcomeLegal (execQload h q a s) ↔ AcceptLegal s) ∧
    (∀ c, OutcomeLegal (execCoreStop c s) ↔ AcceptLegal s) ∧
    (∀ c, OutcomeLegal (execLoadComplete c s) ↔ AcceptLegal s) := by
  and_intros
  all_goals
    intros
    simp only [execCtxload, execQload, execCoreStop, execLoadComplete]
    (repeat' split) <;> simp

end Sys2Proof.Machine

end

section

/-! ## O58: registers, translation and errors -/

namespace Sys2Proof.Machine

@[simp] theorem State.readReg_acceptLegal (s : State) (c r) : AcceptLegal (s.readReg c r).2 ↔ AcceptLegal s := by
  unfold State.readReg
  dsimp only
  (repeat' split) <;> simp

@[simp] theorem State.queueWrite_acceptLegal (s : State) (p q f) :
    AcceptLegal (s.queueWrite p q f) ↔ AcceptLegal s := by simp [State.queueWrite]

@[simp] theorem State.writeLqCfg_legal (s : State) (p q v) (hs : AcceptLegal s) : OptionLegal (s.writeLqCfg p q v) := by
  simp [State.writeLqCfg, hs]

@[simp] theorem State.writeSwitchAt_legal (s : State) (p v) (hs : AcceptLegal s) : OptionLegal (s.writeSwitchAt p v) := by
  simp [State.writeSwitchAt, hs]

@[simp] theorem State.writePart_legal (s : State) (c p n v) (hs : AcceptLegal s) : OptionLegal (s.writePart c p n v) := by
  simp [State.writePart, hs]

@[simp] theorem State.writeCoreCtl_legal (s : State) (c v) (hs : AcceptLegal s) : OptionLegal (s.writeCoreCtl c v) := by
  simp [State.writeCoreCtl, hs]

@[simp] theorem State.writeCore_legal (s : State) (c n v) (hs : AcceptLegal s) : OptionLegal (s.writeCore c n v) := by
  simp [State.writeCore, hs]

@[simp] theorem State.writePmap_legal (s : State) (i v) (hs : AcceptLegal s) : OptionLegal (s.writePmap i v) := by
  simp [State.writePmap, hs]

@[simp] theorem State.writePctl_legal (s : State) (v) (hs : AcceptLegal s) : OptionLegal (s.writePctl v) := by
  simp [State.writePctl, hs]

@[simp] theorem State.writeRtabx_legal (s : State) (p v) (hs : AcceptLegal s) : OptionLegal (s.writeRtabx p v) := by
  simp [State.writeRtabx, hs]

@[simp] theorem State.writeMdbase_legal (s : State) (i v) (hs : AcceptLegal s) : OptionLegal (s.writeMdbase i v) := by
  simp [State.writeMdbase, hs]

/-- A write of ACCEPT leaves out what the device has not, and keeps CORE. -/
theorem PkgRegs.writeAccept_legal {g : PkgRegs} (hg : legalFeatures g.accept) (i v) : legalFeatures (g.writeAccept i v).accept := by
  unfold PkgRegs.writeAccept
  split
  · exact hg
  · have hf : featureWord 0 = 0x3F := by decide
    have h1 : (1 : Word) &&& 0x3F = 1 := by decide
    refine ⟨?_, by simp⟩
    ext j hj
    have hb := congrArg (·[j]) h1
    simp only [hf, BitVec.getElem_and, BitVec.getElem_or] at hb ⊢
    rw [Bool.and_or_distrib_right, hb, Bool.and_assoc, Bool.and_self]

@[simp] theorem State.writePkg_legal (s : State) (n v) (hs : AcceptLegal s) : OptionLegal (s.writePkg n v) := by
  have hg : legalFeatures s.pkg.accept := (legalFeatures_accept s).2 hs
  simp only [State.writePkg, optionLegal_ite, optionLegal_some, acceptLegal_mk, PkgRegs.writeAccept_legal hg, PkgRegs.lockAccept,
    legalFeatures_accept, State.writeMdbase_legal, State.writePmap_legal, State.writePctl_legal, State.writeRtabx_legal, hs, ite_self]

@[simp] theorem State.writeReg_legal (s : State) (c r v) (hs : AcceptLegal s) : OptionLegal (s.writeReg c r v) := by
  unfold State.writeReg
  dsimp only
  split <;> simp [hs]

@[simp] theorem execPwr_legal (s : State) (h r a) (hs : AcceptLegal s) : OutcomeLegal (execPwr h r a s) := by
  refine State.issue_legal hs ?_
  dsimp only
  split
  · simp [hs]
  · split
    case h_1 hw => simp [s.writeReg_legal _ _ _ hs _ hw]
    case h_2 => simp [hs]

@[simp] theorem State.freezePort_acceptLegal (s : State) (q viol) : AcceptLegal (s.freezePort q viol) ↔ AcceptLegal s := by
  unfold State.freezePort
  dsimp only
  (repeat' split) <;> simp

@[simp] theorem State.applyFreeze_acceptLegal (s : State) (target port mask thaw) :
    AcceptLegal (s.applyFreeze target port mask thaw) ↔ AcceptLegal s := by simp [State.applyFreeze]

@[simp] theorem State.freezeWord_acceptLegal (s : State) (i h f a thaw) :
    OutcomeLegal (s.freezeWord i h f a thaw) ↔ AcceptLegal s := by
  refine State.issue_acceptLegal _ _ _ _ _ ?_
  dsimp only
  (repeat' split) <;> simp

@[simp] theorem execTlbi_acceptLegal (s : State) (h x k) : OutcomeLegal (execTlbi h x k s) ↔ AcceptLegal s := by
  unfold execTlbi
  extract_lets
  refine State.issue_acceptLegal _ _ _ _ _ ?_
  split <;> simp

@[simp] theorem systemEvents_acceptLegal (s : State) :
    (∀ h r d, OutcomeLegal (execPrd h r d s) ↔ AcceptLegal s) ∧
    (∀ h d f j, OutcomeLegal (execCast h d f j s) ↔ AcceptLegal s) ∧
    (∀ msg, OutcomeLegal (execFreezeApply msg s) ↔ AcceptLegal s) := by
  and_intros
  · simp [execPrd]
  · simp [execCast]
  · intro msg
    unfold execFreezeApply
    (repeat' split) <;> simp

@[simp] theorem execEngineFaultTaken_acceptLegal (s : State) (c) : OutcomeLegal (execEngineFaultTaken c s) ↔ AcceptLegal s := by
  unfold execEngineFaultTaken
  dsimp only
  split <;> simp

@[simp] theorem State.cacheWalk_acceptLegal (s : State) (d es) :
    AcceptLegal (s.cacheWalk d es) ↔ AcceptLegal s := by simp [State.cacheWalk]

@[simp] theorem State.startMiss_acceptLegal (s : State) (c) : AcceptLegal (s.startMiss c) ↔ AcceptLegal s := by
  unfold State.startMiss
  (repeat' split) <;> simp

theorem State.walkGrant_acceptLegal {s t : State} {c as} (h : s.walkGrant c as = some t) : AcceptLegal t ↔ AcceptLegal s := by
  induction as generalizing s with
  | nil => cases h; rfl
  | cons a as ih =>
    simp only [State.walkGrant, Option.bind_eq_some_iff] at h
    obtain ⟨u, ⟨v, ⟨w, hw, hv⟩, hu⟩, ht⟩ := h
    rw [ih ht, State.replyGrant_acceptLegal hu, State.homeGrant_acceptLegal hv, State.spineGrant_acceptLegal hw]

@[simp] theorem execPageWalkComplete_acceptLegal (s : State) (c n) : OutcomeLegal (execPageWalkComplete c n s) ↔ AcceptLegal s := by
  unfold execPageWalkComplete
  dsimp only
  split
  · simp
  split
  · simp
  split
  · simp
  split
  · simp
  split
  · simp
  case h_2 ht =>
    have ht := (State.walkGrant_acceptLegal ht).trans s.takeNat_acceptLegal
    split <;> simp [ht]

@[simp] theorem execWalkSlotGrant_acceptLegal (s : State) (d) :
    OutcomeLegal (execWalkSlotGrant d s) ↔ AcceptLegal s := by
  unfold execWalkSlotGrant
  dsimp only
  (repeat' split) <;> simp

@[simp] theorem State.bufferError_acceptLegal (s : State) (c n) :
    AcceptLegal (s.bufferError c n) ↔ AcceptLegal s := by simp [State.bufferError]

@[simp] theorem State.passError_acceptLegal (s : State) (c n) : AcceptLegal (s.passError c n) ↔ AcceptLegal s := by
  unfold State.passError
  dsimp only
  (repeat' split) <;> simp

@[simp] theorem State.holdError_acceptLegal (s : State) (c n) : AcceptLegal (s.holdError c n) ↔ AcceptLegal s := by
  unfold State.holdError
  dsimp only
  (repeat' split) <;> simp

@[simp] theorem State.logError_acceptLegal (s : State) (c n) : AcceptLegal (s.logError c n) ↔ AcceptLegal s := by
  unfold State.logError
  dsimp only
  (repeat' split) <;> simp

@[simp] theorem State.sramErrors_acceptLegal (s : State) (c) : AcceptLegal (s.sramErrors c) ↔ AcceptLegal s := by
  unfold State.sramErrors
  dsimp only
  (repeat' split) <;> simp

@[simp] theorem State.loggedWait_acceptLegal (s : State) (c) : AcceptLegal (s.loggedWait c) ↔ AcceptLegal s := by
  unfold State.loggedWait
  dsimp only
  (repeat' split) <;> simp

@[simp] theorem State.rollBack_acceptLegal (s : State) (c j estimate) : AcceptLegal (s.rollBack c j estimate) ↔ AcceptLegal s := by
  unfold State.rollBack
  dsimp only
  (repeat' split) <;> simp

@[simp] theorem State.noCast_acceptLegal (s : State) (c estimate) :
    AcceptLegal (s.noCast c estimate) ↔ AcceptLegal s := by simp [State.noCast]

@[simp] theorem State.applyStrike_acceptLegal (s : State) (c estimate) : OutcomeLegal (s.applyStrike c estimate) ↔ AcceptLegal s := by
  unfold State.applyStrike
  dsimp only
  (repeat' split) <;> simp

@[simp] theorem State.resendFor_acceptLegal (s : State) (b p estimate) :
    AcceptLegal (s.resendFor b p estimate) ↔ AcceptLegal s := by simp [State.resendFor]

@[simp] theorem State.blockResend_acceptLegal (s : State) (b estimate) :
    AcceptLegal (s.blockResend b estimate) ↔ AcceptLegal s := by simp [State.blockResend]

@[simp] theorem State.rejectFlit_acceptLegal (s : State) (n) : AcceptLegal (s.rejectFlit n) ↔ AcceptLegal s := by
  unfold State.rejectFlit
  dsimp only
  (repeat' split) <;> simp

@[simp] theorem reliabilityEvents_acceptLegal (s : State) :
    (∀ c, OutcomeLegal (execCastTake c s) ↔ AcceptLegal s) ∧
    (∀ c time estimate, OutcomeLegal (execStrikeReport c time estimate s) ↔ AcceptLegal s) ∧
    (∀ msg, OutcomeLegal (execResidueReject msg s) ↔ AcceptLegal s) := by
  and_intros
  all_goals
    intros
    simp only [execCastTake, execStrikeReport, execResidueReject]
    (repeat' split) <;> simp

@[simp] theorem State.forget_acceptLegal (s : State) (m) : AcceptLegal (s.forget m) ↔ AcceptLegal s := by
  unfold State.forget
  (repeat' split) <;> simp

@[simp] theorem partitionEvents_acceptLegal (s : State) :
    (∀ msg, OutcomeLegal (execGuardDrop msg s) ↔ AcceptLegal s) ∧
    (∀ msg, OutcomeLegal (execDropNoticeArrive msg s) ↔ AcceptLegal s) ∧
    (OutcomeLegal (execBudgetWindow s) ↔ AcceptLegal s) := by
  and_intros
  all_goals
    intros
    simp only [execGuardDrop, execDropNoticeArrive, execBudgetWindow]
    (repeat' split) <;> simp

end Sys2Proof.Machine

end

section

/-! ## O58: links and the host -/

namespace Sys2Proof.Machine

@[simp] theorem State.portDown_acceptLegal (s : State) (q) : AcceptLegal (s.portDown q) ↔ AcceptLegal s := by simp [State.portDown]

@[simp] theorem State.inboundDrop_acceptLegal (s : State) (q p kind d type) :
    AcceptLegal (s.inboundDrop q p kind d type) ↔ AcceptLegal s := by
  unfold State.inboundDrop
  (repeat' split) <;> simp

@[simp] theorem State.farUnit_acceptLegal (s : State) (q p c n seq bs) : AcceptLegal (s.farUnit q p c n seq bs) ↔ AcceptLegal s := by
  unfold State.farUnit
  dsimp only
  (repeat' split) <;> simp

@[simp] theorem State.farOpening_acceptLegal (s : State) (q p chip source c n r job size) :
    AcceptLegal (s.farOpening q p chip source c n r job size) ↔ AcceptLegal s := by
  unfold State.farOpening
  (repeat' split) <;> simp

@[simp] theorem State.farWrite_acceptLegal (s : State) (q p chip) : AcceptLegal (s.farWrite q p chip) ↔ AcceptLegal s := by
  unfold State.farWrite
  dsimp only
  (repeat' split) <;> simp

@[simp] theorem State.deliverFlit_acceptLegal (s : State) (q p x) : AcceptLegal (s.deliverFlit q p x) ↔ AcceptLegal s := by
  unfold State.deliverFlit
  (repeat' split) <;> simp

theorem State.takeNext_acceptLegal {s t : State} {q p x} (h : s.takeNext q p x = some t) : AcceptLegal t ↔ AcceptLegal s := by
  unfold State.takeNext at h
  dsimp only at h
  (repeat' split at h) <;> cases h <;> simp

@[simp] theorem State.deliverAhead_acceptLegal (s : State) (q p n) : AcceptLegal (s.deliverAhead q p n) ↔ AcceptLegal s := by
  induction n generalizing s with
  | zero => rfl
  | succ n ih =>
    unfold State.deliverAhead
    dsimp only
    split
    · rfl
    split
    · rfl
    split
    · rfl
    case h_2 ht => simp [ih, State.takeNext_acceptLegal ht]

@[simp] theorem State.takeSeq_acceptLegal (s : State) (q p x) : AcceptLegal (s.takeSeq q p x) ↔ AcceptLegal s := by
  unfold State.takeSeq
  dsimp only
  refine acceptLegal_ite_of ?_ (acceptLegal_ite_of ?_ Iff.rfl)
  · split
    case h_1 ht => simp [State.takeNext_acceptLegal ht]
    case h_2 => simp
  · split <;> simp

@[simp] theorem State.chargeInbound_acceptLegal (s : State) (q p) : AcceptLegal (s.chargeInbound q p).1 ↔ AcceptLegal s := by
  unfold State.chargeInbound
  dsimp only
  (repeat' split) <;> simp

@[simp] theorem State.resend_acceptLegal (s : State) (q seq pause) : AcceptLegal (s.resend q seq pause) ↔ AcceptLegal s := by
  unfold State.resend
  dsimp only
  (repeat' split) <;> simp

@[simp] theorem execPortTrained_acceptLegal (s : State) (q) : OutcomeLegal (execPortTrained q s) ↔ AcceptLegal s := by
  unfold execPortTrained
  extract_lets x t ack
  have ht : AcceptLegal t.2 ↔ AcceptLegal s := s.takeNat_acceptLegal
  refine outcomeLegal_ite_of (by simp) (outcomeLegal_ite_of (by simp [ht]) (outcomeLegal_ite_of (by simp [ht]) ?_))
  rw [outcomeLegal_next, State.modPort_acceptLegal, ht]

@[simp] theorem execTimeExchange_acceptLegal (s : State) (q) : OutcomeLegal (execTimeExchange q s) ↔ AcceptLegal s := by
  unfold execTimeExchange
  extract_lets h t a b c off run u
  have hu : AcceptLegal u ↔ AcceptLegal s := by simp [u, c, b, a, t]
  refine outcomeLegal_ite_of (by simp) (outcomeLegal_ite_of (by simp [t]) ?_)
  rw [outcomeLegal_next]
  (repeat' split) <;> exact hu

@[simp] theorem State.abandonFar_acceptLegal (s : State) (m) : AcceptLegal (s.abandonFar m) ↔ AcceptLegal s := by
  unfold State.abandonFar
  (repeat' split) <;> simp

@[simp] theorem State.restartPort_acceptLegal (s : State) (q) :
    AcceptLegal (s.restartPort q) ↔ AcceptLegal s := by simp [State.restartPort]

@[simp] theorem State.writeLpctl_acceptLegal (s : State) (q v) :
    AcceptLegal (s.writeLpctl q v) ↔ AcceptLegal s := by simp [State.writeLpctl]

@[simp] theorem linksEvents_acceptLegal (s : State) :
    (∀ q, OutcomeLegal (execLinkFlitReceive q s) ↔ AcceptLegal s) ∧
    (∀ q, OutcomeLegal (execLinkNakResend q s) ↔ AcceptLegal s) := by
  and_intros
  all_goals
    intros
    simp only [execLinkFlitReceive, execLinkNakResend]
    (repeat' split) <;> simp

/-- A write of a register by the host, which may be one of ACCEPT. -/
@[simp] theorem State.hostReg_legal (s : State) (b c r v) (hs : AcceptLegal s) : AcceptLegal (s.hostReg b c r v) := by
  unfold State.hostReg
  split
  · exact hs
  split
  · simp [hs]
  split
  · exact hs
  split
  · simp [hs]
  split
  case h_1 hw => exact s.writeReg_legal _ _ _ hs _ hw
  case h_2 => simp [hs]

@[simp] theorem State.writeApbase_acceptLegal (s : State) (v) :
    AcceptLegal (s.writeApbase v) ↔ AcceptLegal s := by simp [State.writeApbase]

@[simp] theorem State.writeCtab_acceptLegal (s : State) (v) : AcceptLegal (s.writeCtab v) ↔ AcceptLegal s := by simp [State.writeCtab]

@[simp] theorem State.attGo_acceptLegal (s : State) : AcceptLegal (s.attGo) ↔ AcceptLegal s := by simp [State.attGo]

@[simp] theorem State.writeGo_acceptLegal (s : State) : AcceptLegal (s.writeGo) ↔ AcceptLegal s := by simp [State.writeGo]

@[simp] theorem State.writeBlock8_acceptLegal (s : State) (off v) : AcceptLegal (s.writeBlock8 off v) ↔ AcceptLegal s := by
  unfold State.writeBlock8
  (repeat' split) <;> simp

@[simp] theorem State.writeMgmt_acceptLegal (s : State) (i n v) :
    AcceptLegal (s.writeMgmt i n v) ↔ AcceptLegal s := by simp [State.writeMgmt]

@[simp] theorem State.windowWrite_legal (s : State) (b a whole v) (hs : AcceptLegal s) : AcceptLegal (s.windowWrite b a whole v) := by
  unfold State.windowWrite
  (repeat' split) <;> simp [hs]

theorem State.hostGrant_refused_acceptLegal {s t : State} {b off a n reply} (h : s.hostGrant b off a n reply = .refused t) :
    AcceptLegal t ↔ AcceptLegal s := by
  unfold State.hostGrant at h
  dsimp only at h
  split at h
  · cases h
    simp
  · split at h <;> cases h

theorem State.hostGrant_ok_acceptLegal {s t : State} {b off a n reply} (h : s.hostGrant b off a n reply = .ok t) :
    AcceptLegal t ↔ AcceptLegal s := by
  unfold State.hostGrant at h
  dsimp only at h
  split at h
  · cases h
  split at h
  case h_1 hr =>
    cases h
    simp only [Option.bind_eq_some_iff] at hr
    obtain ⟨u, ⟨v, hv, hu⟩, ht⟩ := hr
    rw [State.spineOn_acceptLegal ht, State.homeGrant_acceptLegal hu, State.spineOn_acceptLegal hv]
  case h_2 => cases h

@[simp] theorem execHostWrite_legal (s : State) (b addr n v) (hs : AcceptLegal s) : OutcomeLegal (execHostWrite b addr n v s) := by
  unfold execHostWrite
  dsimp only
  split
  · simp [hs]
  split
  · simp [hs]
  split
  · simp [hs]
  · simp [hs]
  · simp [hs]
  · simp [hs]
  · split
    · split
      case h_1 ht => simp [State.hostGrant_refused_acceptLegal ht, hs]
      case h_2 => simp [hs]
      case h_3 ht => simp [State.hostGrant_ok_acceptLegal ht, hs]
    · simp [hs]
  · simp [hs]
  · simp only [outcomeLegal_next, deviceUpdates_acceptLegal]
    exact List.foldlRecOn _ _ hs fun t ht a _ => t.windowWrite_legal _ _ _ _ ht

@[simp] theorem State.hostRegRead_acceptLegal (s : State) (b c r) : AcceptLegal (s.hostRegRead b c r).2 ↔ AcceptLegal s := by
  unfold State.hostRegRead
  (repeat' split) <;> simp

@[simp] theorem State.windowBytes_acceptLegal (s : State) (b as) : AcceptLegal (s.windowBytes b as).2 ↔ AcceptLegal s := by
  induction as generalizing s with
  | nil => rfl
  | cons a as ih =>
    unfold State.windowBytes
    refine (ih _).trans ?_
    (repeat' split) <;> simp

@[simp] theorem execHostRead_acceptLegal (s : State) (b addr n) : OutcomeLegal (execHostRead b addr n s) ↔ AcceptLegal s := by
  unfold execHostRead
  dsimp only
  refine outcomeLegal_ite_of (by simp) (outcomeLegal_ite_of (by simp) (outcomeLegal_ite_of (by simp) ?_))
  split
  · simp
  · simp
  · simp
  · simp
  · split
    · split
      case h_1 ht => simp [State.hostGrant_refused_acceptLegal ht]
      case h_2 => simp
      case h_3 ht => simp [State.hostGrant_ok_acceptLegal ht]
    · simp
  · simp
  · simp

theorem acceptLegal_reset : AcceptLegal State.reset := ⟨rfl, rfl⟩

@[simp] theorem State.fresh_legal (s : State) : AcceptLegal s.fresh := acceptLegal_reset

@[simp] theorem State.prepareCore_acceptLegal (s : State) (c entry) :
    AcceptLegal (s.prepareCore c entry) ↔ AcceptLegal s := by simp [State.prepareCore]

@[simp] theorem State.prepare_acceptLegal (s : State) : AcceptLegal (s.prepare) ↔ AcceptLegal s := by simp [State.prepare]

@[simp] theorem execBootStage_acceptLegal (s : State) (ok) :
    OutcomeLegal (execBootStage ok s) ↔ AcceptLegal s := by
  unfold execBootStage
  dsimp only
  (repeat' split) <;> simp

-- FILE Turns

end Sys2Proof.Machine

end

section

/-! ## O58: instructions, and the step -/

namespace Sys2Proof.Machine

/-- Every instruction and every event keeps ACCEPT legal. The ones unfolded here are each one shared operation; the others have a rule
of their own above. -/
@[simp] theorem exec_legal (i : Instr) (s : State) (hs : AcceptLegal s) : OutcomeLegal (exec i s) := by
  cases i <;> simp [exec,
    execAdd, execSub, execAddi, execMul, execMulh, execMulhu, execDiv, execDivu, execRem, execRemu, execAnd, execOr, execXor, execAndn,
    execShl, execShr, execSra, execRot, execClz, execCtz, execPopc, execMin, execMax, execMinu, execMaxu, execSext, execZext, execBfx,
    execBfi, execMov, execMovi, execMovhi, execSel, execCmp, execLea, execFadd, execFsub, execFmul, execFfma, execFmin, execFmax,
    execFcmp, execFcvt, execBr, execBc, execCall, execRet, execJmpr, execLoop, execLoopi, execEndit, execTrap, execNop, execPause,
    execGetc, execSetc, execVadd, execVsub, execVmul, execVfma, execVfms, execVnfma, execVmin, execVmax, execVabs, execVneg, execVcmp,
    execVsel, execVand, execVor, execVxor, execVnot, execVshl, execVshr, execVsra, execVadds, execVmulh, execVdot2, execVexp2,
    execVlog2, execVrcp, execVrsqrt, execVsqrt, execVtanh, execVsigm, execVperm, execVrot, execVslide, execVcompact, execVexpand,
    execVredsum, execVredmax, execVredmin, execVscan, execVtopk, execVbmand, execVpopc, execVpfx, execVcvt, execVquantScale, execVquant,
    execVdequant, execVpack, execVunpack, execVrnd, execPand, execPor, execPxor, execPnot, execPcnt, execPfirst, execLd, execSt,
    execLdacq, execStrel, execVld, execVst, execVgather, execVscatter, execAlign, execFence, execTokw, execCarve, execWload, execMmap,
    execPlane, execSbind, execFeed, execFeedx, execDrain, execAclr, execPstat, execQreset, execCdef, execCgo, execCdem, execCwait,
    execWdriveAbort, execWstat, execLwait, execLwaitT, execRett, execFreeze, execThaw, execReleaseWaitEnd, execCopyBlock, execCopyDone,
    execLqDoorWrite, execHeadStarving, execDeadlockDetect, execSharedBlockStrike, execLockstepMismatch, execHbmScrubPass,
    execHbmErrSample, execGangSwitch, execAcceptWrite, execAccept3Write, execCoreCtlWrite, execLqCfgWrite, execSwitchAtWrite,
    execPmapWrite, execPctlWrite, execCalWrite, execRtabxWrite, execBudgetWrite, execFeedBudWrite, execMdbaseWrite, execApbaseWrite,
    execLpctlWrite, execPcapWrite, execTlimitWrite, execAttCtlGo, execRegisterWrite, execVfFunctionReset, execPfFunctionReset,
    execLinkResendTimeout, execPortRetrain, execPowerRamp, execRstNAssert, execRstNRelease,
    execServiceProcessorStrike, execGovernorSample, execThermtrip, execAttReportReady, execPowerRemoval, execTlbEntryLeave, hs]

@[simp] theorem stepWord_legal (w : ℕ) (s : State) (hs : AcceptLegal s) : OutcomeLegal (stepWord w s) := by
  unfold stepWord
  split <;> simp [hs]

@[simp] theorem stepFront_legal (c : CoreId) (refetch : Bool) (s : State) (hs : AcceptLegal s) :
    OutcomeLegal (stepFront c refetch s) := by
  have ht {r : Fetched} (h : State.fetch { s with cur := c } c refetch = r) : AcceptLegal r.state := (State.fetch_acceptLegal h).2 hs
  unfold stepFront
  split
  case h_1 hf => exact (outcomeLegal_next _).2 (ht hf)
  case h_2 t u hf => exact (outcomeLegal_next _).2 ((u.takeTrap_acceptLegal ..).2 (ht hf))
  case h_3 hf => exact stepWord_legal _ _ (ht hf)

@[simp] theorem stepBoundary_legal (c : CoreId) (refetch : Bool) (s : State) (hs : AcceptLegal s) :
    OutcomeLegal (stepBoundary c refetch s) := by
  have ho : OutcomeLegal (stepFront c refetch s) := stepFront_legal c refetch s hs
  unfold stepBoundary
  dsimp only
  split
  · split
    case h_1 h =>
      split
      · exact ho
      · exact (execEngineFaultTaken_acceptLegal s c).2 hs
    case h_2 => exact ho
  · exact ho

@[simp] theorem stepStrike_legal (c : CoreId) (s : State) (hs : AcceptLegal s) : OutcomeLegal (stepStrike c s) := by
  unfold stepStrike
  split <;> simp [hs]

@[simp] theorem stepAct_legal (a : Act) (s : State) (hs : AcceptLegal s) : OutcomeLegal (stepAct a s) := by
  unfold stepAct
  split
  · simp [hs]
  · (repeat' split) <;> simp [hs]
  · simp [hs]
  · split <;> simp [hs]
  · simp [hs]
  · simp [hs]

theorem State.nextTurn_acceptLegal (s : State) : AcceptLegal s.nextTurn.2 ↔ AcceptLegal s := by
  unfold State.nextTurn
  split
  · rfl
  · dsimp only
    split
    · rfl
    · split <;> rfl

/-- Settles O58: the turn and the clock touch no register, a reset keeps CORE alone, and every instruction and event writes ACCEPT only
through the register's own write, which leaves out what the device has not and keeps CORE. -/
theorem stepKeepsAcceptLegal : Obligations.StepKeepsAcceptLegal := by
  unfold Obligations.StepKeepsAcceptLegal
  intro s t hs h
  have hp : AcceptLegal (s.nextTurn.2.pass s.nextTurn.1.wait) := by simpa [State.nextTurn_acceptLegal] using hs
  have ho : OutcomeLegal (step s) := by
    unfold step
    dsimp only
    split
    · exact (outcomeLegal_next _).2 hp
    · exact stepAct_legal _ _ hp
  exact ho t h

end Sys2Proof.Machine

end

section

/-! ## O55: the state after reset -/

namespace Sys2Proof.Claims

open Sys2Proof.Machine

theorem core_reset (c : CoreId) : State.reset.core c = .reset := by simp [State.reset, State.core]

theorem part_reset (p : PartId) : State.reset.part p = .reset := by simp [State.reset, State.part]

theorem port_reset (q : PortId) : State.reset.ports[q] = .reset := by simp [State.reset]

/-- A core that a hold keeps issues nothing (R408). -/
theorem mayIssue_of_inHold {k : Core} (h : k.run.inHold = true) (now : ℕ) : k.mayIssue now = false := by simp [Core.mayIssue, h]

/-- Settles O55: each core, partition and port stands at its own reset value, which the clauses read. -/
theorem resetState : Obligations.ResetState := by
  unfold Obligations.ResetState
  refine ⟨fun c => ?_, rfl, rfl, rfl, fun p n => ?_, fun q => ?_, rfl, rfl, rfl, by decide, rfl, acceptLegal_reset, memoryCanonical_reset⟩
  · rw [core_reset]
    exact ⟨rfl, mayIssue_of_inHold rfl _, rfl, rfl⟩
  · simp [part_reset, Part.reset]
  · rw [port_reset]
    exact ⟨rfl, rfl, rfl⟩

end Sys2Proof.Claims

end

section

/-! ## O8: records of faults, freezes, and entry to a handler -/

namespace Sys2Proof.Machine

section records
variable (s : State) (c : CoreId)

@[simp] theorem State.signal_core (p : PartId) (bit : Nat) : (s.signal p bit).core c = s.core c := by
  unfold State.signal
  extract_lets old ev t a u
  have ht : t.core c = s.core c := rfl
  have hu : u.core c = s.core c := by
    simp only [u]
    split
    · exact (congrArg (fun v : Vector Core 256 => v[c]) (t.poke_cores ..)).trans ht
    · exact ht
  split <;> exact hu

/-- A fault record enters the store stream: of the front end that changes the tags alone (R315). -/
theorem State.faultRecord_front (l : Level) (ws : List Word) :
    ∃ ts, (s.faultRecord c l ws).1.front c = { s.front c with tags := ts } := by
  unfold State.faultRecord
  dsimp only
  split
  · exact ⟨_, rfl⟩
  split
  · exact ⟨_, congrArg (·.live.front) (s.core_modCore c Core.nextRecord)⟩
  · obtain ⟨ts, hts⟩ := ((s.core c).pushStore_moves c s.cycle (.req (.store _)) none none 0 none).front
    exact ⟨ts, (congrArg (·.live.front) (s.core_modCore c _)).trans hts⟩

theorem State.poke_core (a : Nat) (bs : List Byte) (cmp bad : Bool) (own : PartId) : (s.poke a bs cmp bad own).core c = s.core c :=
  congrArg (fun v : Vector Core 256 => v[c]) (s.poke_cores ..)

theorem State.foldl_poke_core (us : List WUnit) (cmp : Bool) :
    (us.foldl (fun (t : State) u => t.poke u.addr u.bytes cmp) s).core c = s.core c :=
  List.foldlRecOn (motive := fun t : State => t.core c = s.core c) us _ rfl fun t ht _ _ => (t.poke_core c ..).trans ht

/-- What a freeze of the front end leaves of it: its wait is over, and its tags may have moved (R315, R317). -/
theorem State.freezeCore_front (ce bw : Bool) (viol : Fin 16) (t : Option Trap) :
    ∃ ts, (s.freezeCore c true ce bw viol t).front c = { s.front c with tags := ts, at_ := { (s.front c).at_ with wait := .none } } := by
  unfold State.freezeCore
  extract_lets k z lv x cause src ws r u v
  have hr : ∃ ts, r.front c = { s.front c with tags := ts } := by
    simp only [r]
    split
    · split
      · exact ⟨_, congrArg (·.live.front) (s.foldl_poke_core c _ _)⟩
      · obtain ⟨ts, hts⟩ := (Core.settle_moves (k.modFlow _) c s.cycle).front
        exact ⟨ts, (congrArg (·.live.front) (s.core_modCore c _)).trans hts⟩
    · exact ⟨_, rfl⟩
  have hu : ∃ ts, u.front c = { s.front c with tags := ts } := by
    simp only [u]
    split
    · obtain ⟨ts, hts⟩ := hr
      exact ⟨ts, (congrArg (·.live.front) (r.core_modCore c Core.nextRecord)).trans hts⟩
    · exact ⟨_, rfl⟩
  obtain ⟨ts, hts⟩ := hu
  have hts : (u.core c).live.front = _ := hts
  refine ⟨ts, ?_⟩
  simp only [State.front, State.signal_core, v, State.core_modCore, if_pos, Core.setFront, Front.modAt, hts]
  rfl

/-- The masters that a freeze adds, and its VIOL (R317). -/
theorem State.freezeCore_freeze (fe ce bw : Bool) (viol : Fin 16) (t : Option Trap) :
    ((s.freezeCore c fe ce bw viol t).core c).regs.freeze =
      ⟨(s.core c).regs.freeze.fe || fe, (s.core c).regs.freeze.ce || ce, (s.core c).regs.freeze.bw || bw, viol⟩ := by
  unfold State.freezeCore
  extract_lets k z lv x cause src ws r u v
  rw [State.signal_core]
  simp only [v, State.core_modCore]
  split <;> rfl

end records

section entry
variable (s : State) (c : CoreId) (t : Trap) (resume : Word) (l : Level) (ls : List Level)

/-- A level whose frame is in use passes the trap on (R312). -/
theorem State.enterAt_used (h : ((s.front c).frame l).valid = true) : s.enterAt c t resume (l :: ls) = s.enterAt c t resume ls := by
  rw [State.enterAt]
  exact if_pos h

/-- The first level whose frame is free takes the trap (R312). -/
theorem State.enterAt_free (h : ((s.front c).frame l).valid = false) (hv : ((s.front c).frame l).vec.toNat % 10 = 0) :
    ∃ ts rec_ recv, (s.enterAt c t resume (l :: ls)).front c =
      Front.enter { s.front c with tags := ts } l t resume (statWord rec_ recv t.src.code (s.front c).level.code) s.cycle := by
  rw [State.enterAt]
  simp only [h, hv, Bool.false_eq_true, ne_eq, not_true_eq_false, if_false, State.front_modFront]
  obtain ⟨ts, hts⟩ := s.faultRecord_front c l _
  exact ⟨ts, _, _, by rw [hts]⟩

/-- A trap at M enters no handler (R317). -/
theorem State.enterAt_nil : ∃ ts, (s.enterAt c t resume []).front c =
    { s.front c with tags := ts, at_ := { (s.front c).at_ with wait := .none, trapping := none, pc := resume } } := by
  obtain ⟨ts, hts⟩ := s.freezeCore_front c false false 5 (some t)
  refine ⟨ts, ?_⟩
  rw [State.enterAt, State.front_modFront, hts]
  rfl

theorem State.enterAt_nil_freeze : ((s.enterAt c t resume []).core c).regs.freeze =
    ⟨true, (s.core c).regs.freeze.ce, (s.core c).regs.freeze.bw, 5⟩ := by
  rw [State.enterAt, State.core_modFront, Core.setFront_regs, State.freezeCore_freeze]
  simp

/-- A front end that has taken a trap and has its waits behind it (R312, R314). -/
def Front.trapped (f : Front) (t : Trap) (resume : Word) : Front :=
  f.modAt fun a => { a with trapping := some (t, resume), wait := .none }

/-- The state in which a taken trap attempts its entry: the front end without its wait, the trap pending (R312, R314). -/
def State.trapTaken (s : State) (c : CoreId) (t : Trap) (f : Front) (resume : Word) : State :=
  s.modCore c fun k => (((k.setFront f).modLive fun l => l.leaveWalk t.cause.code).forget).setFront (f.trapped t resume)

theorem Live.leaveWalk_front (v : Live) (n : Nat) : (v.leaveWalk n).front = v.front := by
  unfold Live.leaveWalk
  (repeat' split) <;> rfl

theorem State.takeTrap_eq : s.takeTrap c t resume =
    let f := (s.front c).pauseDone t.src s.cycle
    (s.trapTaken c t f (if f.at_.po = (s.front c).at_.po then resume else f.at_.pc)).tryEnter c := by
  unfold State.takeTrap State.trapTaken
  extract_lets f r
  congr 1
  rw [State.modFront, State.modCore_modCore]
  congr 1
  funext k
  simp only [Function.comp_apply, Core.forget, Core.modLive, Core.setFront, Live.leaveWalk_front]
  rfl

section taken
variable (f : Front)

@[simp] theorem State.trapTaken_front : (s.trapTaken c t f resume).front c = f.trapped t resume := by
  simp [State.trapTaken, State.front]

@[simp] theorem State.trapTaken_fences : ((s.trapTaken c t f resume).core c).flow.fencesDone = (s.core c).flow.fencesDone := by
  simp [State.trapTaken, Core.forget]

@[simp] theorem State.trapTaken_freeze : ((s.trapTaken c t f resume).core c).regs = (s.core c).regs := by
  simp [State.trapTaken, Core.forget]

@[simp] theorem State.trapTaken_cycle : (s.trapTaken c t f resume).cycle = s.cycle := rfl

end taken

theorem Front.allClear_trapped (f : Front) (now : Nat) : (f.trapped t resume).allClear now = f.allClear now := rfl

/-- A pending trap whose waits are over is entered (R135, R204, R312). -/
theorem State.trapTaken_enters (f : Front) (hc : f.allClear s.cycle = true) (hf : (s.core c).flow.fencesDone = true)
    (hz : (s.core c).regs.freeze.fe = false) :
    (s.trapTaken c t f resume).tryEnter c =
      ((s.trapTaken c t f resume).enterAt c t resume f.level.above).modFront c fun f => f.modAt Pos.pickLate := by
  have hfront : ((s.trapTaken c t f resume).core c).live.front = f.trapped t resume := s.trapTaken_front ..
  have ha : ((s.trapTaken c t f resume).front c).at_.trapping = some (t, resume) := congrArg (·.at_.trapping) hfront
  rw [State.tryEnter, ha]
  dsimp only
  rw [State.enterIf, if_pos]
  · rw [hfront]
    rfl
  · simp [hfront, hf, hz, Front.allClear_trapped, hc]

/-- A front end that waits for no walk leaves the walker as it is. -/
theorem State.trapTaken_of_no_walk {f : Front} (hw : f.at_.wait = .none ∨ ∃ n, f.at_.wait = .pause n) :
    s.trapTaken c t f resume = s.modCore c fun k => (k.setFront (f.trapped t resume)).forget := by
  unfold State.trapTaken Live.leaveWalk
  congr 1
  funext k
  obtain hw | ⟨n, hw⟩ := hw
  all_goals
    simp only [Core.modLive, Core.setFront, hw]
    rfl

/-- A `pause` counts as complete where a trap ends it: the trap is the next word's, at the front end that retired it (R165). -/
theorem State.takeTrap_pause {n : Nat} (hw : (s.front c).at_.wait = .pause n) (hq : t.src.queue = false) (f g : Front)
    (hf : f = (s.front c).retire Hdr.zero none {} s.cycle) (hg : g = { f with at_ := { f.at_ with wait := .none } }) :
    s.takeTrap c t resume = (s.modFront c fun _ => g).takeTrap c t g.at_.pc := by
  have hdone : (s.front c).pauseDone t.src s.cycle = f := by simp [Front.pauseDone, hw, hq, hf]
  have hpo : f.at_.po ≠ (s.front c).at_.po := by simp [hf]
  have hgw : g.at_.wait = .none := by rw [hg]
  have hdone' : ((s.modFront c fun _ => g).front c).pauseDone t.src s.cycle = g := by
    rw [State.front_modFront]
    simp [Front.pauseDone, hgw]
  rw [State.takeTrap_eq, State.takeTrap_eq]
  have hcycle : (s.modFront c fun _ => g).cycle = s.cycle := rfl
  simp only [hcycle, hdone, hdone', if_neg hpo, ite_self]
  congr 1
  have hfw : ∃ n, f.at_.wait = .pause n := ⟨n, by simp [hf, hw]⟩
  rw [State.trapTaken_of_no_walk _ _ _ _ (.inr hfw), State.trapTaken_of_no_walk _ _ _ _ (.inl hgw), State.modFront, State.modCore_modCore, hg]
  rfl

end entry

section enter
variable (f : Front) (l : Level) (t : Trap) (resume stat : Word) (now : Nat)

@[simp] theorem Front.enter_regs :
    (f.enter l t resume stat now).regs = { f.regs with loops := { f.regs.loops with lc0 := 0, lc1 := 0 } } := by
  simp [Front.enter]

@[simp] theorem Front.enter_at : (f.enter l t resume stat now).at_ =
    { f.at_ with pc := (f.frame l).vec, pcHi := if l = .m then 0 else f.at_.vahi, trapping := none, wait := .none, nextAt := now + 1 } := by
  simp [Front.enter]

/-- The frame of the level that a trap enters (R312). -/
theorem Front.enter_frame : (f.enter l t resume stat now).frame l =
    { f.frame l with pc := resume, cause := BitVec.ofNat 64 t.cause.code, info := t.info, stat := stat, loops := f.regs.loops
                     win := f.win, pcHi := f.at_.pcHi } := f.frame_setFrame l _

theorem Front.enter_frame_ne {l' : Level} (hl : l ≠ .u) (hl' : l' ≠ .u) (h : l' ≠ l) :
    (f.enter l t resume stat now).frame l' = f.frame l' := f.frame_setFrame_ne _ hl hl' h

/-- A front end without late traps picks none. -/
theorem Front.pickLate_of_none (h : f.at_.late = []) : f.modAt Pos.pickLate = f := by
  unfold Front.modAt Pos.pickLate
  rw [h]

/-- A trap leaves a wait as it is unless it ends a `pause` (R165). -/
theorem Front.pauseDone_self (src : Src) (h : (∃ n, f.at_.wait = .pause n) → src.queue = true) : f.pauseDone src now = f := by
  unfold Front.pauseDone
  split
  case h_1 n hn => rw [if_pos (h ⟨n, hn⟩)]
  case h_2 => rfl

end enter

section stat
variable (rec_ : Nat) (recv : Bool) (src : Src) (prev : Level)

theorem Src.code_lt : src.code < 8 := by cases src <;> decide
theorem Level.code_lt : prev.code < 4 := by cases prev <;> decide

/-- The fields of TRAP_STAT (R310). -/
theorem statWord_valid : (statWord rec_ recv src.code prev.code).getLsbD 2 = true := by
  have := src.code_lt
  have := prev.code_lt
  have h : (rec_ * 128 + (if recv then 64 else 0) + src.code * 8 + 4 + prev.code) / 4 % 2 = 1 := by
    split <;> omega
  rw [statWord, BitVec.getLsbD_ofNat, Nat.testBit_eq_decide_div_mod_eq]
  simp [h]

theorem statWord_prev : (statWord rec_ recv src.code prev.code).toNat % 4 = prev.code := by
  have := prev.code_lt
  rw [statWord, BitVec.toNat_ofNat]
  split <;> omega

theorem statWord_src : (statWord rec_ recv src.code prev.code).toNat / 8 % 8 = src.code := by
  have := src.code_lt
  have := prev.code_lt
  rw [statWord, BitVec.toNat_ofNat]
  split <;> omega

end stat

/-- The level that takes a trap is the first above whose frame is free (R312). -/
theorem State.enterAt_above (s : State) (c : CoreId) (t : Trap) (resume : Word) (l : Level)
    (hl : l = .s ∧ (s.front c).level = .u ∨
      l = .m ∧ ((s.front c).level = .s ∨ (s.front c).level = .u ∧ (s.front c).sFrame.valid = true)) :
    ∃ ls, s.enterAt c t resume (s.front c).level.above = s.enterAt c t resume (l :: ls) := by
  obtain ⟨rfl, hu⟩ | ⟨rfl, hs | ⟨hu, hv⟩⟩ := hl
  · exact ⟨_, by rw [hu]; rfl⟩
  · exact ⟨_, by rw [hs]; rfl⟩
  · exact ⟨_, by rw [hu]; exact s.enterAt_used c t resume .s _ hv⟩

end Sys2Proof.Machine

namespace Sys2Proof.Claims

open Sys2Proof.Machine

section
variable {s : State} {c : CoreId} {t : Trap} {resume : Word} (hc : (s.front c).allClear s.cycle = true)
  (hf : (s.core c).flow.fencesDone = true) (hz : (s.core c).regs.freeze.fe = false)
include hc hf hz

/-- A taken trap attempts its entry at once, where its waits are over. -/
theorem takeTrap_of_clear (hp : (∃ n, (s.front c).at_.wait = .pause n) → t.src.queue = true) :
    s.takeTrap c t resume = ((s.trapTaken c t (s.front c) resume).enterAt c t resume (s.front c).level.above).modFront c
      fun f => f.modAt Pos.pickLate := by
  rw [State.takeTrap_eq]
  dsimp only
  rw [Front.pauseDone_self _ _ _ hp, if_pos rfl]
  exact s.trapTaken_enters c t resume _ hc hf hz

/-- The front end behind an entry (R312). -/
theorem takeTrap_front_of_free {l : Level} (hp : (∃ n, (s.front c).at_.wait = .pause n) → t.src.queue = true)
    (hlate : (s.front c).at_.late = [])
    (hl : l = .s ∧ (s.front c).level = .u ∨
      l = .m ∧ ((s.front c).level = .s ∨ (s.front c).level = .u ∧ (s.front c).sFrame.valid = true))
    (hv : ((s.front c).frame l).valid = false) (ha : ((s.front c).frame l).vec.toNat % 10 = 0) :
    ∃ ts rec_ recv, (s.takeTrap c t resume).front c = Front.enter { (s.front c).trapped t resume with tags := ts } l t resume
      (statWord rec_ recv t.src.code (s.front c).level.code) s.cycle := by
  rw [takeTrap_of_clear hc hf hz hp, State.front_modFront]
  have hfront := s.trapTaken_front c t resume (s.front c)
  obtain ⟨ls, hls⟩ := (s.trapTaken c t (s.front c) resume).enterAt_above c t resume l (by rwa [hfront])
  rw [hfront] at hls
  obtain ⟨ts, rec_, recv, he⟩ := (s.trapTaken c t (s.front c) resume).enterAt_free c t resume l ls
    (by rw [hfront]; exact hv) (by rw [hfront]; exact ha)
  refine ⟨ts, rec_, recv, ?_⟩
  rw [← hls, hfront] at he
  refine (congrArg (·.modAt Pos.pickLate) he).trans (Front.pickLate_of_none _ ?_)
  rw [Front.enter_at]
  exact hlate

/-- The front end behind a trap taken at M (R317). -/
theorem takeTrap_at_m (hp : ∀ n, (s.front c).at_.wait ≠ .pause n) (hlate : (s.front c).at_.late = []) (hm : (s.front c).level = .m) :
    ((s.takeTrap c t resume).core c).regs.freeze = ⟨true, (s.core c).regs.freeze.ce, (s.core c).regs.freeze.bw, 5⟩ ∧
    ∃ ts, (s.takeTrap c t resume).front c =
      { s.front c with tags := ts, at_ := { (s.front c).at_ with wait := .none, trapping := none, pc := resume } } := by
  rw [takeTrap_of_clear hc hf hz fun ⟨n, hn⟩ => absurd hn (hp n), hm, State.core_modFront, State.front_modFront]
  have hfront := s.trapTaken_front c t resume (s.front c)
  obtain ⟨ts, he⟩ := (s.trapTaken c t (s.front c) resume).enterAt_nil c t resume
  rw [hfront] at he
  constructor
  · rw [Core.setFront_regs]
    refine (State.enterAt_nil_freeze ..).trans ?_
    rw [State.trapTaken_freeze]
  · refine ⟨ts, (congrArg (·.modAt Pos.pickLate) he).trans ((Front.pickLate_of_none _ ?_).trans rfl)⟩
    exact hlate

end

/-- Settles O8: entry is `Front.enter` at the first free level above, and a front end at M freezes. -/
theorem trapEntry : Obligations.TrapEntry := by
  unfold Obligations.TrapEntry
  refine ⟨?_, ?_, ?_⟩
  · intro s c t resume l hc hf hlate hz hp hl hv ha f g x
    obtain ⟨ts, rec_, recv, hg⟩ := takeTrap_front_of_free (t := t) (resume := resume) hc hf hz hp hlate hl hv ha
    have hg : g = _ := hg
    have hx : x = _ := (congrArg (·.frame l) hg).trans (Front.enter_frame ..)
    have hlu : l ≠ .u := by
      rintro rfl
      simp at hl
    rw [hx, hg, Front.enter_at, Front.enter_regs]
    refine ⟨rfl, rfl, rfl, rfl, rfl, rfl, rfl, rfl, rfl, rfl, rfl, rfl, rfl, rfl, statWord_valid .., statWord_prev .., statWord_src ..,
      fun l' hl' hne => ?_, rfl⟩
    exact Front.enter_frame_ne _ _ _ _ _ _ hlu hl' hne
  · intro s c t resume hc hf hlate hz hm hp u
    obtain ⟨hfreeze, ts, hu⟩ := takeTrap_at_m (t := t) (resume := resume) hc hf hz hp hlate hm
    have hfreeze : (u.core c).regs.freeze = _ := hfreeze
    have hu : u.front c = _ := hu
    rw [hfreeze, hu]
    exact ⟨rfl, rfl, rfl, hm, rfl, rfl, rfl⟩
  · intro s c t resume n hw hq m
    refine (s.takeTrap_pause c t resume hw hq _ _ rfl rfl).trans ?_
    simp only [m, State.front_modFront]
    rfl

end Sys2Proof.Claims

end

section

/-! ## O36: the words of the system family -/

namespace Sys2Proof.Machine

/-- A register's read changes nothing, or takes a free choice (R311, R354). -/
theorem State.readReg_state (s : State) (c : CoreId) (r : BitVec 12) : ∃ n, (s.readReg c r).2 = { s with free := n } := by
  unfold State.readReg
  dsimp only
  (repeat' split) <;> exact ⟨_, rfl⟩

/-- The instruction itself needs S; a register may need M (R137, R309). -/
theorem accessLevel_eq (n : Nat) (write : Bool) : accessLevel n write = if regLevel n write = .m then .m else .s := by
  unfold accessLevel
  cases regLevel n write <;> rfl

section freeze
variable (s : State) (x : Word) (thaw : Bool)

theorem State.freezeReq_core (mask : Fin 8) : s.freezeReq (.core mask) x thaw =
    if 2 ^ 8 ≤ x.toNat ∨ s.me.live.front.level = .s ∧ s.pmapOf (Fin.ofNat 256 x.toNat) ≠ s.pmapOf s.cur then none
    else some (.freeze (Fin.ofNat 256 x.toNat : CoreId).val false mask thaw) := by
  have h : x.toNat / 2 ^ 8 ≠ 0 ↔ 2 ^ 8 ≤ x.toNat := by omega
  simp only [State.freezeReq, h, targetOf]

theorem State.freezeReq_port (lk : Bool) : s.freezeReq (.port lk) x thaw =
    if 8 ≤ x.toNat ∨ (s.pkg.rtabx[s.pmapOf s.cur]).getLsbD (x.toNat % 8) = false then none
    else some (.freeze (x.toNat % 8) true (if lk then 1 else 0) thaw) := by
  have h : x.toNat / 2 ^ 3 ≠ 0 ↔ 8 ≤ x.toNat := by omega
  simp only [State.freezeReq, h, Bool.not_eq_true']

end freeze

end Sys2Proof.Machine

namespace Sys2Proof.Claims

open Sys2Proof.Machine

section words
variable {s : State} {h : Hdr} {tag : TagId} {d a : SReg} {r : BitVec 12}

/-- `prd` reads the register as it stands (R311). -/
theorem prd_yields (hf : Fresh s h tag) (hi : Issues s h { dsts := [.s d], level := accessLevel r.toNat false }) :
    Yields s (s.readReg s.cur r).2 (.prd h r d) tag d (s.readReg s.cur r).1 := by
  obtain ⟨htag, hroom, hlog⟩ := hf
  have he : exec (.prd h r d) s = execPrd h r d s := rfl
  have he := exec_of_issues he hi
  simp only [hroom, Bool.not_true, Bool.false_eq_true, if_false] at he
  obtain ⟨n, hn⟩ := s.readReg_state s.cur r
  generalize (s.readReg s.cur r).1 = v at he ⊢
  rw [hn] at he ⊢
  rw [deliver_eq (s := { s with free := n }) hlog] at he
  have hfe : fe (({ s with free := n } : State).modCore s.cur fun k => k.logInput (fe s).at_.po (some (wordOf v))) = fe s := fe_modCore ..
  have hret (dn : Done) := retired_after s (({ s with free := n } : State).modCore s.cur fun k => k.logInput (fe s).at_.po (some (wordOf v)))
    rfl (congrArg (·.at_.pc) hfe) (congrArg (·.at_.po) hfe) (.modCore _ _ _ fun _ _ => rfl) h none dn
  exact ⟨_, he, hret _, awaits_retire (congrArg (·.regs) hfe) htag (Nat.le_add_right ..)⟩

/-- `pwr` of a doorbell waits for its turn (R327). -/
theorem exec_pwr (hi : Issues s h { srcs := [(.s a, h.pda)], level := accessLevel r.toNat true }) :
    exec (.pwr h r a) s =
      if r = 0x5C0 ∧ !s.tieFree (tieQueue (s.pmapOf s.cur) (Fin.ofNat 64 (srcA s h a).toNat)) (s.frontRoute s.cur) then .next s
      else match s.writeReg s.cur r (srcA s h a) with
      | some m => .next (m.retire h none {})
      | none => .next (s.takeWord.2.trapHere .bounds s.takeWord.1) :=
  exec_issued (i := .pwr h r a) (fun _ => rfl) hi

/-- A `tlbi` traps where it may not name its target, and joins the store stream as a release otherwise (R351, R352). -/
theorem tlbi_settles {sc : TlbScope} {kd : TlbKind} {va : Word} (he : exec (.tlbi h sc kd) s =
      if s.tlbiDenied sc kd then .next (s.trapHere .bounds (tlbiImm sc kd))
      else .next ((s.modCore s.cur fun k => k.pushGate s.cur s.cycle (.tlbi sc kd va) .pkg h.tag).retire h none { holdTag := true }))
    {bad : Prop} (hbad : s.tlbiDenied sc kd = true ↔ bad) :
    (bad → Traps s s (.tlbi h sc kd) .bounds (tlbiImm sc kd)) ∧
    (¬ bad → JustRetires s (s.modCore s.cur fun k => k.pushGate s.cur s.cycle (.tlbi sc kd va) .pkg h.tag) (.tlbi h sc kd)) :=
  ⟨fun hb => traps_here (he.trans (if_pos (hbad.2 hb))),
    fun hb => (FrontStands.of_moves fun k => k.pushGate_moves ..).justRetires (he.trans (if_neg (mt hbad.1 hb)))⟩

/-- A `freeze` or `thaw` traps where its target is refused, and sends its request otherwise (R318). -/
theorem freezeWord_settles {i : Instr} {f : FreezeSel} {thaw : Bool} (he : exec i s = s.freezeWord i h f a thaw)
    (hi : Issues s h { srcs := [(.s a, h.pda)], level := .s }) {bad : Prop} [Decidable bad] {q : Req}
    (hq : s.freezeReq f (srcA s h a) thaw = if bad then none else some q) :
    (bad → Traps s s i .bounds (srcA s h a)) ∧ (¬ bad → JoinsStores s i h (.req q) none) := by
  have he : exec i s = match s.freezeReq f (srcA s h a) thaw with
      | none => .next (s.trapHere .bounds (srcA s h a))
      | some r => s.storeWord h (.req r) none := exec_of_issues he hi
  refine ⟨fun hb => traps_here ?_, fun hb => joinsStores_of_storeWord (.inl rfl) ?_⟩
  · rw [he, hq, if_pos hb]
  · rw [he, hq, if_neg hb]

end words

/-- Settles O36: `prd` and `pwr` by the register's read and write, `tlbi` by what it may name, `freeze` and `thaw` by their request. -/
theorem systemWords : Obligations.SystemWords := by
  unfold Obligations.SystemWords
  intro h d a r sc kd mask lk tag s x lv p s?
  have hlv (write : Bool) : lv write = accessLevel r.toNat write := (accessLevel_eq ..).symm
  refine ⟨fun hf hi => ?_, fun hi => ?_, ?_, ?_⟩
  · rw [hlv] at hi
    exact prd_yields hf hi
  · intro turn
    rw [hlv] at hi
    have he := exec_pwr hi
    have hturn : turn ↔ ¬ (r = 0x5C0 ∧ (!s.tieFree (tieQueue p (Fin.ofNat 64 x.toNat)) (s.frontRoute s.cur)) = true) := by
      simp [turn]
    refine ⟨fun hn => ?_, fun ht m hm => ?_, fun ht hm => ⟨s.takeWord.1, ?_⟩⟩
    · exact he.trans (if_pos (not_not.1 (mt hturn.2 hn)))
    · refine he.trans ((if_neg (hturn.1 ht)).trans ?_)
      rw [hm]
    · refine he.trans ((if_neg (hturn.1 ht)).trans ?_)
      rw [hm]
      rfl
  · intro names va elsewhere hi
    have hlevel : s.me.live.front.level = .s ↔ s? := Iff.rfl
    cases kd with
    | all =>
      have he := exec_issued (i := .tlbi h sc .all) (fun _ => rfl) hi
      exact tlbi_settles he (by simp [State.tlbiDenied, elsewhere, hlevel])
    | asid n =>
      have he := exec_issued (i := .tlbi h sc (.asid n)) (fun _ => rfl) hi
      exact tlbi_settles he (by simp [State.tlbiDenied, elsewhere, hlevel, p])
    | va g vahi n =>
      have he := exec_issued (i := .tlbi h sc (.va g vahi n)) (fun _ => rfl) hi
      exact tlbi_settles he (by simp [State.tlbiDenied, elsewhere, hlevel, p])
  · intro i thaw hthaw hi t badCore badPort
    have he (f : FreezeSel) : exec (i f) s = s.freezeWord (i f) h f a thaw := by
      obtain ⟨rfl, rfl⟩ | ⟨rfl, rfl⟩ := hthaw <;> rfl
    obtain ⟨hbad, hgood⟩ := freezeWord_settles (he (.core mask)) hi (s.freezeReq_core x thaw mask)
    obtain ⟨hpbad, hpgood⟩ := freezeWord_settles (he (.port lk)) hi (s.freezeReq_port x thaw lk)
    exact ⟨hbad, hgood, hpbad, hpgood⟩

end Sys2Proof.Claims

end

section

/-! ## O48: words and bytes of a slot in HBM -/

namespace Sys2Proof.Machine

@[simp] theorem toBytes_length (n v : Nat) : (toBytes n v).length = n := by
  induction n generalizing v with
  | zero => rfl
  | succ n ih => simp [toBytes, ih]

/-- Byte i of a little-endian number (R5). -/
theorem toBytes_getD (n v : Nat) {i : Nat} (h : i < n) : (toBytes n v).getD i 0 = BitVec.ofNat 8 (v / 256 ^ i) := by
  induction n generalizing v i with
  | zero => omega
  | succ n ih =>
    cases i with
    | zero => simp [toBytes]
    | succ i =>
      rw [toBytes, List.getD_cons_succ, ih _ (by omega), Nat.div_div_eq_div_mul, Nat.pow_succ']

theorem ofBytes_toBytes (n v : Nat) : ofBytes (toBytes n v) = v % 256 ^ n := by
  induction n generalizing v with
  | zero => simp [toBytes, ofBytes, Nat.mod_one]
  | succ n ih =>
    rw [toBytes, ofBytes, ih, BitVec.toNat_ofNat, pow_succ' 256 n]
    exact Nat.mod_mul.symm

section memory
variable (m : Memory) (a : Nat) (bs cs : List Byte)

theorem Memory.put_append : m.put a (bs ++ cs) = (m.put a bs).put (a + bs.length) cs := by
  induction bs generalizing m a with
  | nil => rfl
  | cons b bs ih =>
    rw [List.cons_append, Memory.put, ih, Memory.put, List.length_cons]
    congr 1
    omega

/-- Bytes clear of those that are put. -/
theorem Memory.bytes_put_outside {b n : Nat} (h : b + n ≤ a ∨ a + bs.length ≤ b) : (m.put a bs).bytes b n = m.bytes b n := by
  unfold Memory.bytes
  refine List.map_congr_left fun i hi => Memory.readByte_put_outside _ _ _ _ ?_
  have := List.mem_range.1 hi
  omega

theorem Memory.getD_bytes {n i : Nat} (h : i < n) : (m.bytes a n).getD i 0 = m.readByte (a + i) := by
  simp [Memory.bytes, List.getD_eq_getElem?_getD, h]

/-- Bytes within those that are put. -/
theorem Memory.bytes_put_inside {k n : Nat} (h : k + n ≤ bs.length) : (m.put a bs).bytes (a + k) n = (bs.drop k).take n := by
  have hb := (m.put a bs).bytes_slice a h
  rw [Memory.bytes_put] at hb
  exact hb.symm

theorem Memory.readByte_put_inside {i : Nat} (h : i < bs.length) : (m.put a bs).readByte (a + i) = bs.getD i 0 := by
  rw [Memory.readByte_put, if_pos (by omega)]
  simp

/-- The bytes of words in their order. -/
def wordBytesOf (ws : List Word) : List Byte := ws.flatMap fun w => toBytes 8 w.toNat

theorem wordBytesOf_cons (w : Word) (ws : List Word) : wordBytesOf (w :: ws) = toBytes 8 w.toNat ++ wordBytesOf ws := rfl

@[simp] theorem wordBytesOf_length (ws : List Word) : (wordBytesOf ws).length = 8 * ws.length := by
  induction ws with
  | nil => rfl
  | cons w ws ih =>
    rw [wordBytesOf_cons, List.length_append, ih, toBytes_length, List.length_cons]
    omega

theorem wordBytesOf_slice (ws : List Word) {j : Nat} (h : j < ws.length) :
    ((wordBytesOf ws).drop (8 * j)).take 8 = toBytes 8 ws[j].toNat := by
  induction ws generalizing j with
  | nil => simp at h
  | cons w ws ih =>
    cases j with
    | zero => simp [wordBytesOf_cons]
    | succ j =>
      have hj : 8 * (j + 1) = (toBytes 8 w.toNat).length + 8 * j := by rw [toBytes_length]; omega
      rw [wordBytesOf_cons, hj, List.drop_length_add_append]
      exact ih (by simpa using h)

/-- A word among words that are put reads as it is. -/
theorem Memory.word_put (ws : List Word) {j : Nat} (h : j < ws.length) :
    ofBytes ((m.put a (wordBytesOf ws)).bytes (a + 8 * j) 8) = ws[j].toNat := by
  rw [Memory.bytes_put_inside _ _ _ (by rw [wordBytesOf_length]; omega), wordBytesOf_slice ws h, ofBytes_toBytes]
  exact Nat.mod_eq_of_lt ws[j].isLt

end memory

section poke
variable (s : State) (a : Nat)

/-- Plain pokes change memory alone. -/
theorem State.pokeWords_eq (ws : List Word) : s.pokeWords a ws = { s with mem := (s.pokeWords a ws).mem } := by
  induction ws generalizing s a with
  | nil => rfl
  | cons w ws ih => exact ih (s.pokeWord a w) (a + 8)

theorem State.pokeFree_eq (n : Nat) :
    State.pokeFree n a s = { s with mem := (State.pokeFree n a s).mem, free := (State.pokeFree n a s).free } := by
  induction n generalizing s a with
  | zero => rfl
  | succ n ih => exact ih (s.takeWord.2.pokeWord a s.takeWord.1) (a + 8)

theorem State.pokeWords_hbm (ws : List Word) : (s.pokeWords a ws).mem.hbm = s.mem.hbm.put a (wordBytesOf ws) := by
  induction ws generalizing s a with
  | nil => rfl
  | cons w ws ih =>
    rw [wordBytesOf_cons, Memory.put_append, toBytes_length]
    exact ih (s.pokeWord a w) (a + 8)

theorem State.pokeFree_hbm (n : Nat) : ∃ ws, ws.length = n ∧ (State.pokeFree n a s).mem.hbm = s.mem.hbm.put a (wordBytesOf ws) := by
  induction n generalizing s a with
  | zero => exact ⟨[], rfl, rfl⟩
  | succ n ih =>
    obtain ⟨ws, hn, hws⟩ := ih (s.takeWord.2.pokeWord a s.takeWord.1) (a + 8)
    refine ⟨s.takeWord.1 :: ws, congrArg (· + 1) hn, hws.trans ?_⟩
    rw [wordBytesOf_cons, Memory.put_append, toBytes_length]
    rfl

end poke

end Sys2Proof.Machine

end

section

/-! ## O48: a slot as it is written -/

namespace Sys2Proof.Machine

/-- The bytes of the parts of a core slot (R334). -/
structure SlotParts where
  header : List Byte
  time : List Byte
  free : List Byte
  regs : List Byte
  walker : List Byte
  wb : List Byte
  ab : List Byte
  cb : List Byte

/-- The parts have their sizes. -/
structure SlotParts.Sized (x : SlotParts) : Prop where
  header : x.header.length = 8
  time : x.time.length = 8
  free : x.free.length = 0xF0000 - 16
  regs : x.regs.length = 8 * 1121
  walker : x.walker.length = 80
  wb : x.wb.length = 2 ^ 22
  ab : x.ab.length = 3 * 2 ^ 20
  cb : x.cb.length = 2 ^ 20

/-- HBM with a core slot in it, its parts in the order in which they are written (R334). -/
def SlotParts.put (x : SlotParts) (m : Memory) (a : Nat) : Memory :=
  (((((((m.put a x.header).put (a + 8) x.time).put (a + 16) x.free).put (a + 0x1000) x.regs).put (a + 0x2C000) x.walker).put
    (a + 0x0F0000) x.wb).put (a + 0x4F0000) x.ab).put (a + 0x7F0000) x.cb

section image
variable {x : SlotParts} (hx : x.Sized) (m : Memory) (a : Nat)
include hx

theorem SlotParts.put_outside {b : Nat} (h : b < a ∨ a + 0x8F0000 ≤ b) : (x.put m a).readByte b = m.readByte b := by
  obtain ⟨h1, h2, h3, h4, h5, h6, h7, h8⟩ := hx
  unfold SlotParts.put
  iterate 8 rw [Memory.readByte_put_outside _ _ _ _ (by omega)]

theorem SlotParts.put_cb {i : Nat} (h : i < 2 ^ 20) : (x.put m a).readByte (a + 0x7F0000 + i) = x.cb.getD i 0 :=
  Memory.readByte_put_inside _ _ _ (hx.cb ▸ h)

theorem SlotParts.put_ab {i : Nat} (h : i < 3 * 2 ^ 20) : (x.put m a).readByte (a + 0x4F0000 + i) = x.ab.getD i 0 := by
  unfold SlotParts.put
  rw [Memory.readByte_put_outside _ _ _ _ (by omega)]
  exact Memory.readByte_put_inside _ _ _ (hx.ab ▸ h)

theorem SlotParts.put_wb {i : Nat} (h : i < 2 ^ 22) : (x.put m a).readByte (a + 0x0F0000 + i) = x.wb.getD i 0 := by
  unfold SlotParts.put
  iterate 2 rw [Memory.readByte_put_outside _ _ _ _ (by omega)]
  exact Memory.readByte_put_inside _ _ _ (hx.wb ▸ h)

theorem SlotParts.put_walker {i : Nat} (h : i < 10) : (x.put m a).bytes (a + 0x2C000 + 8 * i) 8 = (x.walker.drop (8 * i)).take 8 := by
  have := hx.walker
  unfold SlotParts.put
  iterate 3 rw [Memory.bytes_put_outside _ _ _ (by omega)]
  exact Memory.bytes_put_inside _ _ _ (by omega)

theorem SlotParts.put_regs {i : Nat} (h : i < 1121) : (x.put m a).bytes (a + 0x1000 + 8 * i) 8 = (x.regs.drop (8 * i)).take 8 := by
  have := hx.regs
  unfold SlotParts.put
  iterate 4 rw [Memory.bytes_put_outside _ _ _ (by omega)]
  exact Memory.bytes_put_inside _ _ _ (by omega)

theorem SlotParts.put_time : (x.put m a).bytes (a + 8) 8 = x.time := by
  have := hx.free
  unfold SlotParts.put
  iterate 6 rw [Memory.bytes_put_outside _ _ _ (by omega)]
  rw [← hx.time]
  exact Memory.bytes_put ..

theorem SlotParts.put_header {i : Nat} (h : i < 8) : (x.put m a).readByte (a + i) = x.header.getD i 0 := by
  unfold SlotParts.put
  iterate 7 rw [Memory.readByte_put_outside _ _ _ _ (by omega)]
  exact Memory.readByte_put_inside _ _ _ (hx.header ▸ h)

end image

section slot
variable (s : State) (c : CoreId)

theorem slotWords_length (r : Regs) : r.slotWords.length = 1121 := by
  have hv : (r.v.toList.flatMap vecWords).length = 1024 := by
    rw [List.length_flatMap]
    simp [vecWords]
  simp only [Regs.slotWords, List.length_append, hv, Vector.length_toList, List.length_cons, List.length_nil, List.length_map,
    List.length_range]

/-- The scalar registers open the words of a slot (R19, R334). -/
theorem slotWords_scalar (r : Regs) (i : SReg) (h : i.val < r.slotWords.length) : r.slotWords[i.val] = r.s[i] := by
  have hi : i.val < r.s.toList.length := by simp
  simp only [Regs.slotWords, List.append_assoc]
  rw [List.getElem_append_left hi, Vector.getElem_toList]
  rfl

/-- What a save writes (R334), beside the words of no stated layout. -/
def Core.slotParts (k : Core) (c : CoreId) (ptime : Nat) (free : List Byte) : SlotParts :=
  { header := toBytes 8 (k.slotHeader c).toNat, time := toBytes 8 (BitVec.ofNat 64 ptime).toNat, free := free
    regs := wordBytesOf k.live.front.regs.slotWords, walker := wordBytesOf ((List.range 10).map k.live.walker.word)
    wb := k.store.wb.bytes 0 (bufSize .wb), ab := k.store.ab.bytes 0 (bufSize .ab), cb := k.store.cb.bytes 0 (bufSize .cb) }

theorem Core.slotParts_put (k : Core) (ptime : Nat) (free : List Byte) (m : Memory) (a : Nat) : (k.slotParts c ptime free).put m a =
    (((((((m.put a (toBytes 8 (k.slotHeader c).toNat)).put (a + 8) (toBytes 8 (BitVec.ofNat 64 ptime).toNat)).put (a + 16) free).put
      (a + 0x1000) (wordBytesOf k.live.front.regs.slotWords)).put (a + 0x2C000)
      (wordBytesOf ((List.range 10).map k.live.walker.word))).put (a + 0x0F0000) (k.store.wb.bytes 0 (bufSize .wb))).put
      (a + 0x4F0000) (k.store.ab.bytes 0 (bufSize .ab))).put (a + 0x7F0000) (k.store.cb.bytes 0 (bufSize .cb)) := by
  simp only [SlotParts.put, Core.slotParts]

theorem Core.slotParts_sized (k : Core) (ptime : Nat) {free : List Byte} (hf : free.length = 0xF0000 - 16) :
    (k.slotParts c ptime free).Sized := by
  refine ⟨toBytes_length .., toBytes_length .., hf, ?_, ?_, ?_, ?_, ?_⟩
  · rw [Core.slotParts, wordBytesOf_length, slotWords_length]
  · rw [Core.slotParts, wordBytesOf_length, List.length_map, List.length_range]
  all_goals simp only [Core.slotParts, Memory.bytes_length, bufSize]

/-- The state t is s after writes that do f to HBM, and free choices. -/
def State.Puts (s t : State) (f : Memory → Memory) : Prop := ∃ m n, t = { s with mem := m, free := n } ∧ m.hbm = f s.mem.hbm

theorem State.Puts.trans {s t u : State} {f g : Memory → Memory} (h : s.Puts t f) (k : t.Puts u g) : s.Puts u fun m => g (f m) := by
  obtain ⟨m, n, rfl, hm⟩ := h
  obtain ⟨m', n', rfl, hm'⟩ := k
  exact ⟨m', n', rfl, hm'.trans (congrArg g hm)⟩

theorem State.puts_poke (a : Nat) (bs : List Byte) : s.Puts (s.poke a bs) (·.put a bs) := ⟨_, _, rfl, rfl⟩

theorem State.puts_pokeWord (a : Nat) (x : Word) : s.Puts (s.pokeWord a x) (·.put a (toBytes 8 x.toNat)) := s.puts_poke a _

theorem State.puts_pokeWords (a : Nat) (ws : List Word) : s.Puts (s.pokeWords a ws) (·.put a (wordBytesOf ws)) :=
  ⟨_, _, s.pokeWords_eq a ws, s.pokeWords_hbm a ws⟩

theorem State.puts_pokeFree (a n : Nat) : ∃ ws, ws.length = n ∧ s.Puts (State.pokeFree n a s) (·.put a (wordBytesOf ws)) := by
  obtain ⟨ws, hn, hws⟩ := s.pokeFree_hbm a n
  exact ⟨ws, hn, _, _, s.pokeFree_eq a n, hws⟩

/-- A slot in local HBM is written whole, and nothing else of the device changes but the image beside it and the free choices. -/
theorem State.writeSlot_eq (h : s.slotAddr (s.core c).regs.asid c + 0x8F0000 ≤ 2 ^ 39) : ∃ free m is n,
    free.length = 0xF0000 - 16 ∧ s.writeSlot c = { s with mem := m, images := is, free := n } ∧
      m.hbm = ((s.core c).slotParts c s.ptime free).put s.mem.hbm (s.slotAddr (s.core c).regs.asid c) := by
  unfold State.writeSlot
  extract_lets k a t1 t2 t3 t4 t5
  have hlocal : ¬ (!localHbm (a + 0x8EFFFF)) = true := by
    have h : a + 0x8F0000 ≤ 2 ^ 39 := h
    simp only [localHbm, Bool.not_eq_true', decide_eq_false_iff_not, not_not]
    omega
  have ha : s.slotAddr (s.core c).regs.asid c = a := rfl
  have hk : s.core c = k := rfl
  rw [if_neg hlocal, ha, hk]
  obtain ⟨ws, hn, h2⟩ := t1.puts_pokeFree (a + 16) ((0xF0000 - 16) / 8)
  have h1 : s.Puts t1 _ := (s.puts_pokeWord a (k.slotHeader c)).trans (State.puts_pokeWord _ (a + 8) _)
  have h3 : t2.Puts t3 _ := t2.puts_pokeWords (a + 0x1000) k.live.front.regs.slotWords
  have h4 : t3.Puts t4 _ := t3.puts_pokeWords (a + 0x2C000) ((List.range 10).map k.live.walker.word)
  have h5 : t4.Puts t5 _ := ((t4.puts_poke (a + 0x0F0000) _).trans (State.puts_poke _ (a + 0x4F0000) _)).trans
    (State.puts_poke _ (a + 0x7F0000) _)
  obtain ⟨m, n, ht, hm⟩ := (((h1.trans h2).trans h3).trans h4).trans h5
  clear_value t5
  subst ht
  have hlen := wordBytesOf_length ws
  refine ⟨wordBytesOf ws, m, (a, k.image) :: s.images.filter fun x => x.1 != a, n, ?_, ?_, ?_⟩
  · omega
  · rfl
  · rw [Core.slotParts_put]
    exact hm

end slot

end Sys2Proof.Machine

end

section

/-! ## O48: stops, saves and loads -/

namespace Sys2Proof.Machine

section reads
variable (s : State) (c : CoreId)

theorem ofBytes_byte (m : Memory) (a : Nat) : ofBytes (m.bytes a 1) = (m.readByte a).toNat := by simp [Memory.bytes, ofBytes]

/-- The fields of a slot's header (R334). -/
theorem slotHeader_toNat (k : Core) : (k.slotHeader c).toNat =
    0xC5 + c.val * 2 ^ 8 + k.regs.asid.toNat * 2 ^ 16 + 2 ^ 24 + k.regs.freeze.stat % 8 * 2 ^ 25 := by
  have := c.isLt
  have := k.regs.asid.isLt
  rw [Core.slotHeader, BitVec.toNat_ofNat, Nat.mod_eq_of_lt]
  omega

/-- CTXBUSY and CTXERR of a core after a write of its bit. -/
theorem setBit_getLsbD (w : BitVec 256) (b : Bool) : (setBit w c b).getLsbD c.val = b := by
  have h : (BitVec.ofNat 256 (2 ^ c.val)).getLsbD c.val = true := by
    rw [BitVec.getLsbD_ofNat, Nat.testBit_two_pow_self, decide_eq_true c.isLt, Bool.and_self]
  cases b
  · rw [setBit, if_neg Bool.false_ne_true, BitVec.getLsbD_and, BitVec.getLsbD_not, h]
    simp
  · rw [setBit, if_pos rfl, BitVec.getLsbD_or, h, Bool.or_true]

/-- A stop ends the front end's wait, and changes no more. -/
theorem State.abandonWait_eq : ∃ g, s.abandonWait c = s.modFront c g := by
  unfold State.abandonWait
  split
  · exact ⟨_, State.modFront_modFront ..⟩
  · exact ⟨_, rfl⟩

end reads

end Sys2Proof.Machine

namespace Sys2Proof.Claims

open Sys2Proof.Machine

/-- A core that is not stopping has none of the events of a stop, a save or a load. -/
theorem contextEvents_idle {s : State} {c : CoreId} (h : (s.core c).run.stop = .none) :
    Idles s (.coreStop c) ∧ Idles s (.saveComplete c) ∧ Idles s (.loadComplete c) := by
  have h1 : exec (.coreStop c) s = execCoreStop c s := rfl
  have h2 : exec (.saveComplete c) s = execSaveComplete c s := rfl
  have h3 : exec (.loadComplete c) s = execLoadComplete c s := rfl
  unfold Idles
  rw [h1, h2, h3, execCoreStop, execSaveComplete, execLoadComplete, h]
  exact ⟨rfl, rfl, rfl⟩

/-- A core stops at its boundary: its unretired operations are abandoned, and the stop cast is its newest one (R332, R358). -/
theorem coreStop_occurs {s : State} {c : CoreId} {gang : Bool} {since : Nat} (h : (s.core c).run.stop = .asked gang since)
    (hb : (s.abandonWait c).atBoundary c = true) : KeepsMemory s (.coreStop c) fun t =>
      (t.core c).run.stop = .saving gang (max since s.cycle) ∧ (∀ l : LaneId, (t.core c).store.ops[l] = []) ∧
      ∃ z, (t.core c).casts.head? = some z ∧ z.live = (t.core c).live ∧ z.cyc = s.cycle ∧ z.usable = true := by
  have he : exec (.coreStop c) s = execCoreStop c s := rfl
  rw [execCoreStop, h] at he
  simp only [hb, Bool.not_true, Bool.false_eq_true, if_false] at he
  obtain ⟨g, hg⟩ := s.abandonWait_eq c
  rw [hg] at he
  refine ⟨_, he, ?_, ?_⟩
  · refine (SameBytes.modFront s c g).trans (.trans (t := (s.modFront c g).park c) ⟨fun _ => rfl, fun _ _ _ => rfl⟩ (.modCore _ _ _ ?_))
    intro k b
    cases b <;> rfl
  · dsimp only
    rw [State.core_modCore]
    refine ⟨rfl, fun l => ?_, _, rfl, rfl, rfl, rfl⟩
    simp [Core.setStop, Core.abandonOps]

/-- What HBM reads as where a core's slot has been written (R334). -/
theorem slot_reads {s t : State} {c : CoreId} {a : Nat} {free : List Byte} (hf : free.length = 0xF0000 - 16)
    (ht : t.mem.hbm = ((s.core c).slotParts c s.ptime free).put s.mem.hbm a) :
    (t.peek a 1).1 = 0xC5 ∧ (t.peek (a + 1) 1).1 = c.val ∧ (t.peek (a + 2) 1).1 = (s.core c).regs.asid.toNat ∧
      (t.peek (a + 8) 8).1 = s.ptime % 2 ^ 64 ∧
      (∀ i : SReg, (t.peek (a + 0x1000 + 8 * i.val) 8).1 = ((s.front c).regs.s[i]).toNat) ∧
      (∀ i < 10, (t.peek (a + 0x2C000 + 8 * i) 8).1 = ((s.core c).live.walker.word i).toNat) ∧
      (∀ i < 2 ^ 22, t.mem.hbm.readByte (a + 0x0F0000 + i) = (s.core c).store.wb.readByte i) ∧
      (∀ i < 3 * 2 ^ 20, t.mem.hbm.readByte (a + 0x4F0000 + i) = (s.core c).store.ab.readByte i) ∧
      (∀ i < 2 ^ 20, t.mem.hbm.readByte (a + 0x7F0000 + i) = (s.core c).store.cb.readByte i) ∧
      (∀ b, b < a ∨ a + 0x8F0000 ≤ b → t.mem.hbm.readByte b = s.mem.hbm.readByte b) := by
  have hx := (s.core c).slotParts_sized c s.ptime hf
  have hpeek (b n : Nat) : (t.peek b n).1 = ofBytes (t.mem.hbm.bytes b n) := rfl
  have hbyte {i : Nat} (hi : i < 8) : (t.peek (a + i) 1).1 = ((s.core c).slotHeader c).toNat / 256 ^ i % 256 := by
    rw [hpeek, ofBytes_byte, ht, SlotParts.put_header hx _ _ hi]
    refine (congrArg BitVec.toNat (toBytes_getD _ _ hi)).trans (BitVec.toNat_ofNat ..)
  have hhdr := slotHeader_toNat c (s.core c)
  have := c.isLt
  have := (s.core c).regs.asid.isLt
  refine ⟨?_, ?_, ?_, ?_, fun i => ?_, fun i hi => ?_, fun i hi => ?_, fun i hi => ?_, fun i hi => ?_, fun b hb => ?_⟩
  · rw [← Nat.add_zero a, hbyte (by omega), hhdr]
    omega
  · rw [hbyte (by omega), hhdr]
    omega
  · rw [hbyte (by omega), hhdr]
    omega
  · rw [hpeek, ht, SlotParts.put_time hx, Core.slotParts, ofBytes_toBytes, BitVec.toNat_ofNat]
    omega
  · have hi : i.val < 1121 := by omega
    have hw := wordBytesOf_slice (s.core c).live.front.regs.slotWords (slotWords_length _ ▸ hi)
    rw [hpeek, ht, SlotParts.put_regs hx _ _ hi, Core.slotParts, hw, ofBytes_toBytes, slotWords_scalar]
    exact Nat.mod_eq_of_lt (BitVec.isLt _)
  · have hw := wordBytesOf_slice ((List.range 10).map (s.core c).live.walker.word) (j := i) (by simpa using hi)
    rw [hpeek, ht, SlotParts.put_walker hx _ _ hi, Core.slotParts, hw, ofBytes_toBytes, List.getElem_map, List.getElem_range]
    exact Nat.mod_eq_of_lt (BitVec.isLt _)
  · rw [ht, SlotParts.put_wb hx _ _ hi, Core.slotParts]
    dsimp only
    rw [Memory.getD_bytes _ _ (n := bufSize .wb) hi, Nat.zero_add]
  · rw [ht, SlotParts.put_ab hx _ _ hi, Core.slotParts]
    dsimp only
    rw [Memory.getD_bytes _ _ (n := bufSize .ab) hi, Nat.zero_add]
  · rw [ht, SlotParts.put_cb hx _ _ hi, Core.slotParts]
    dsimp only
    rw [Memory.getD_bytes _ _ (n := bufSize .cb) hi, Nat.zero_add]
  · rw [ht]
    exact SlotParts.put_outside hx _ _ hb

end Sys2Proof.Claims

end

section

/-! ## O48: saves and loads complete -/

namespace Sys2Proof.Machine

section loads
variable (s : State) (c : CoreId) (asid : Byte) (img : Core) (a : Nat)

/-- A word of a slot as HBM holds it. -/
def State.slotWord (s : State) (a i : Nat) : Word := BitVec.ofNat 64 (s.peek (a + 8 * i) 8).1

/-- The core k is c as a load leaves it: the registers, the walker's words and the buffers as the slot holds them, the rest as its image
kept it, and every cast the stop cast (R334, R335, R340). -/
structure State.Loads (s : State) (c : CoreId) (asid : Byte) (img : Core) (a : Nat) (k : Core) : Prop where
  stop : k.run.stop = .none
  asid : k.regs.asid = asid
  fe : k.regs.freeze.fe = ((s.peek a 8).1 / 2 ^ 25 % 2 == 1 || (s.core c).regs.freeze.fe)
  ce : k.regs.freeze.ce = ((s.peek a 8).1 / 2 ^ 25 / 2 % 2 == 1 || (s.core c).regs.freeze.ce)
  bw : k.regs.freeze.bw = ((s.peek a 8).1 / 2 ^ 25 / 4 % 2 == 1 || (s.core c).regs.freeze.bw)
  regs : k.live.front.regs = Regs.ofSlot (s.slotWord (a + 0x1000))
  walker : k.live.walker = Walker.ofSlot (s.slotWord (a + 0x2C000))
  pc : k.live.front.at_.pc = img.live.front.at_.pc
  rings : k.live.rings = img.live.rings
  misses : k.misses = []
  wb : k.store.wb = s.slotBuf (a + 0x0F0000) (bufSize .wb)
  ab : k.store.ab = s.slotBuf (a + 0x4F0000) (bufSize .ab)
  cb : k.store.cb = s.slotBuf (a + 0x7F0000) (bufSize .cb)
  casts : ∃ z : Cast, k.casts = List.replicate 4 z ∧ z.live.front.regs = k.live.front.regs ∧ z.live.rings = img.live.rings ∧
    (∀ x xs, img.casts = x :: xs → z.cyc = 0 ∧ z.ns = x.ns ∧ z.usable = x.usable) ∧ (img.casts = [] → z.usable = true)

theorem State.readSlot_loads : s.Loads c asid img a ((s.readSlot c asid img a).core c) := by
  unfold State.readSlot
  simp only [State.core_modCore, Core.setFront, Front.modAt, Live.renumber]
  refine ⟨rfl, rfl, rfl, rfl, rfl, rfl, rfl, rfl, rfl, rfl, ?_, ?_, ?_, _, rfl, ?_⟩
  · dsimp only
  · dsimp only
  · dsimp only
  cases h : img.casts with
  | nil => exact ⟨rfl, rfl, fun _ _ h => (List.cons_ne_nil _ _ h.symm).elim, fun _ => rfl⟩
  | cons x xs =>
    refine ⟨rfl, rfl, fun y ys h => ?_, fun h => (List.cons_ne_nil _ _ h).elim⟩
    cases h
    exact ⟨rfl, rfl, rfl⟩

/-- A load touches no memory and no partition. -/
theorem State.readSlot_mem : (s.readSlot c asid img a).mem = s.mem := rfl
theorem State.readSlot_pmapOf : (s.readSlot c asid img a).pmapOf c = s.pmapOf c := rfl

theorem State.ctxBusy_getLsbD (b : Bool) : ((s.ctxBusy c b).part (s.pmapOf c)).ctxBusy.getLsbD c.val = b :=
  (congrArg (fun x : Part => x.ctxBusy.getLsbD c.val) (s.part_modPart (s.pmapOf c) _)).trans (setBit_getLsbD ..)

theorem State.ctxBusy_ctxErr (b : Bool) : ((s.ctxBusy c b).part (s.pmapOf c)).ctxErr = (s.part (s.pmapOf c)).ctxErr :=
  congrArg (·.ctxErr) (s.part_modPart (s.pmapOf c) _)

theorem State.ctxError_getLsbD : ((s.ctxError c).part (s.pmapOf c)).ctxErr.getLsbD c.val = true :=
  (congrArg (fun x : Part => x.ctxErr.getLsbD c.val) (s.part_modPart (s.pmapOf c) _)).trans (setBit_getLsbD ..)

/-- What stands for the image of a slot that no save of this device wrote: a core at reset, at a free word (log 36). -/
def State.otherImage (s : State) : Core :=
  (Core.reset.setFront (Core.reset.live.front.modAt fun p => { p with pc := s.takeWord.1 })).image

theorem State.Loads.of_takeWord {k : Core} (h : s.takeWord.2.Loads c asid img a k) : s.Loads c asid img a k :=
  ⟨h.stop, h.asid, h.fe, h.ce, h.bw, h.regs, h.walker, h.pc, h.rings, h.misses, h.wb, h.ab, h.cb, h.casts⟩

theorem readByte_slotBuf {n i : Nat} (h : i < n) : (s.slotBuf a n).readByte i = s.mem.hbm.readByte (a + i) := by
  have hlen : (s.mem.hbm.bytes a n).length = n := Memory.bytes_length ..
  have hput := Memory.readByte_put_inside [] 0 (s.mem.hbm.bytes a n) (i := i) (by rw [hlen]; exact h)
  rw [Nat.zero_add] at hput
  exact hput.trans (Memory.getD_bytes _ _ h)

end loads

end Sys2Proof.Machine

namespace Sys2Proof.Claims

open Sys2Proof.Machine

section save
variable {s : State} {c : CoreId} {gang : Bool} {since : Nat} (h : (s.core c).run.stop = .saving gang since)
include h

theorem saveComplete_idle (hc : s.cycle < since + 36608) : Idles s (.saveComplete c) := by
  have he : exec (.saveComplete c) s = execSaveComplete c s := rfl
  rw [execSaveComplete, h] at he
  exact he.trans (if_pos hc)

/-- A save completes: the slot holds the context, and the save has left its set (R334, R335). -/
theorem saveComplete_occurs (hc : since + 36608 ≤ s.cycle) (ha : s.slotAddr (s.core c).regs.asid c + 0x8F0000 ≤ 2 ^ 39) :
    ∃ t free, exec (.saveComplete c) s = .next t ∧ free.length = 0xF0000 - 16 ∧ (t.core c).run.stop = .stopped ∧
      t.mem.hbm = ((s.core c).slotParts c s.ptime free).put s.mem.hbm (s.slotAddr (s.core c).regs.asid c) ∧
      (gang = false → (t.part (s.pmapOf c)).ctxBusy.getLsbD c.val = false) ∧
      (gang = true → (t.part (s.pmapOf c)).switch.saves = (s.part (s.pmapOf c)).switch.saves.filter (· ≠ c)) := by
  obtain ⟨free, m, is, n, hf, hw, hm⟩ := s.writeSlot_eq c ha
  have he : exec (.saveComplete c) s = execSaveComplete c s := rfl
  rw [execSaveComplete, h] at he
  have hc : ¬ s.cycle < since + saveCycles := not_lt.2 hc
  simp only [hw, if_neg hc] at he
  set w : State := { s with mem := m, images := is, free := n }
  have hstop : ((w.modCore c fun k => k.setStop .stopped).core c).run.stop = .stopped := by rw [State.core_modCore]; rfl
  cases gang with
  | true =>
    refine ⟨_, free, he, hf, hstop, hm, nofun, fun _ => ?_⟩
    have hp : (w.modCore c fun k => k.setStop .stopped).pmapOf c = s.pmapOf c := rfl
    rw [if_pos rfl] at he
    rw [hp, State.part_modPart]
    exact List.filter_congr fun x _ => Bool.eq_iff_iff.2 (by simp)
  | false =>
    refine ⟨_, free, he, hf, hstop, hm, fun _ => ?_, nofun⟩
    exact (w.modCore c fun k => k.setStop .stopped).ctxBusy_getLsbD c false

end save

section load
variable {s : State} {c : CoreId} {asid : Byte} {since : Nat} (h : (s.core c).run.stop = .loading asid false since)
include h

/-- A load, by what its slot is (R335). -/
theorem exec_loadComplete : exec (.loadComplete c) s =
    if s.slotOk (s.slotAddr asid c) c then
      if s.cycle < since + 36608 then .next s
      else match s.images.find? fun x => x.1 == s.slotAddr asid c with
        | some x => .next ((s.readSlot c asid x.2 (s.slotAddr asid c)).ctxBusy c false)
        | none => .next ((s.takeWord.2.readSlot c asid s.otherImage (s.slotAddr asid c)).ctxBusy c false)
    else .next (((s.modCore c fun k => k.setStop .stopped).ctxError c).ctxBusy c false) := by
  have he : exec (.loadComplete c) s = execLoadComplete c s := rfl
  rw [execLoadComplete, h] at he
  exact he

/-- A slot that is not usable leaves its core STOPPED (R335). -/
theorem loadComplete_unusable (hok : s.slotOk (s.slotAddr asid c) c = false) : KeepsMemory s (.loadComplete c) fun t =>
    (t.core c).run.stop = .stopped ∧ (t.part (s.pmapOf c)).ctxErr.getLsbD c.val = true ∧
      (t.part (s.pmapOf c)).ctxBusy.getLsbD c.val = false := by
  have he := exec_loadComplete h
  rw [hok, if_neg Bool.false_ne_true] at he
  have hbytes : SameBytes s (s.modCore c fun k => k.setStop .stopped) := .modCore _ _ _ fun k b => by cases b <;> rfl
  refine ⟨_, he, hbytes.trans ⟨fun _ => rfl, fun _ _ _ => rfl⟩, ?_, ?_, ?_⟩
  · exact congrArg (·.run.stop) (s.core_modCore c fun k => k.setStop .stopped)
  · have hbusy := ((s.modCore c fun k => k.setStop .stopped).ctxError c).ctxBusy_ctxErr c false
    exact (congrArg (·.getLsbD c.val) hbusy).trans (State.ctxError_getLsbD _ c)
  · exact ((s.modCore c fun k => k.setStop .stopped).ctxError c).ctxBusy_getLsbD c false

theorem loadComplete_idle (hok : s.slotOk (s.slotAddr asid c) c = true) (hc : s.cycle < since + 36608) : Idles s (.loadComplete c) :=
  (exec_loadComplete h).trans ((if_pos hok).trans (if_pos hc))

/-- A load from a slot that another device has saved: its program counter is a free word (R334). -/
theorem loadComplete_other (hok : s.slotOk (s.slotAddr asid c) c = true)
    (hi : s.images.find? (fun z => z.1 == s.slotAddr asid c) = none) (hc : since + 36608 ≤ s.cycle) : Occurs s (.loadComplete c) fun t =>
      t.mem = s.mem ∧ s.Loads c asid s.otherImage (s.slotAddr asid c) (t.core c) := by
  have he := exec_loadComplete h
  rw [if_pos hok, if_neg (not_lt.2 hc), hi] at he
  exact ⟨_, he, rfl, .of_takeWord _ _ _ _ _ (s.takeWord.2.readSlot_loads c asid s.otherImage (s.slotAddr asid c))⟩

/-- A load from a slot that this device has saved (R335, R340). -/
theorem loadComplete_own {img : Nat × Core} (hok : s.slotOk (s.slotAddr asid c) c = true)
    (hi : s.images.find? (fun z => z.1 == s.slotAddr asid c) = some img) (hc : since + 36608 ≤ s.cycle) :
    Occurs s (.loadComplete c) fun t => t.mem = s.mem ∧ (t.part (s.pmapOf c)).ctxBusy.getLsbD c.val = false ∧
      s.Loads c asid img.2 (s.slotAddr asid c) (t.core c) := by
  have he := exec_loadComplete h
  rw [if_pos hok, if_neg (not_lt.2 hc), hi] at he
  exact ⟨_, he, rfl, State.ctxBusy_getLsbD _ c false, s.readSlot_loads c asid img.2 (s.slotAddr asid c)⟩

end load

end Sys2Proof.Claims

end

section

/-! ## O48: a gang switch -/

namespace Sys2Proof.Machine

section switch
variable (s : State) (p : PartId)

theorem State.part_modPart_switch {g : Part → Part} (hg : ∀ x : Part, (g x).switch = x.switch) (q : PartId) :
    ((s.modPart p g).part q).switch = (s.part q).switch := by
  by_cases h : q = p
  · subst h
    rw [State.part_modPart, hg]
  · rw [State.part_modPart_ne s _ _ _ h]

/-- The state t is s but for partitions, whose gang switches are as they were. -/
def State.KeepsSwitches (s t : State) : Prop :=
  t = { s with parts := t.parts } ∧ ∀ q, (t.part q).switch = (s.part q).switch

theorem State.KeepsSwitches.trans {s t u : State} (h : s.KeepsSwitches t) (k : t.KeepsSwitches u) : s.KeepsSwitches u := by
  obtain ⟨ht, hst⟩ := h
  obtain ⟨hu, htu⟩ := k
  refine ⟨?_, fun q => (htu q).trans (hst q)⟩
  rw [hu, ht]

theorem State.KeepsSwitches.modPart {g : Part → Part} (hg : ∀ x : Part, (g x).switch = x.switch) : s.KeepsSwitches (s.modPart p g) :=
  ⟨rfl, s.part_modPart_switch p hg⟩

/-- What the eligible queues note is theirs (R328). -/
theorem State.noteHeads_keeps : s.KeepsSwitches (s.noteHeads p) := by
  have hhead (t : State) (q : QueueNo) : t.KeepsSwitches (t.noteHead p q) := by
    unfold State.noteHead
    split <;> exact .modPart _ _ fun _ => rfl
  exact List.foldlRecOn (motive := fun t : State => s.KeepsSwitches t) _ _ ⟨rfl, fun _ => rfl⟩ fun t ht q _ => ht.trans (hhead t q)

/-- The state t is s but for its ports and the free choices. -/
def State.PortsOnly (s t : State) : Prop := t = { s with ports := t.ports, free := t.free }

theorem State.PortsOnly.trans {s t u : State} (h : s.PortsOnly t) (k : t.PortsOnly u) : s.PortsOnly u := by
  unfold State.PortsOnly at *
  rw [k, h]

theorem State.PortsOnly.foldl {α : Type} {g : State → α → State} (hg : ∀ t x, State.PortsOnly t (g t x)) (l : List α) :
    s.PortsOnly (l.foldl g s) :=
  List.foldlRecOn (motive := fun t : State => s.PortsOnly t) _ _ rfl fun t ht x _ => ht.trans (hg t x)

theorem State.transmit_portsOnly (q : PortId) (type_ dchip : Nat) (udesc : List Nat) :
    s.PortsOnly (s.transmit q p type_ dchip udesc) := by
  unfold State.transmit State.PortsOnly
  dsimp only
  rw [State.takeBytes_free]
  rfl

theorem State.pausePort_portsOnly (a : Byte) (q : PortId) : s.PortsOnly (s.pausePort p a q) := by
  unfold State.pausePort
  dsimp only
  split
  · exact .trans (.trans (t := s.takeNat.2) rfl (State.transmit_portsOnly ..)) rfl
  · rfl

theorem State.resumePort_portsOnly (a : Byte) (q : PortId) : s.PortsOnly (s.resumePort a q) := by
  unfold State.resumePort
  dsimp only
  (repeat' split) <;> rfl

theorem State.modPort_ports (q r : PortId) (f : Port → Port) :
    (s.modPort q f).ports[r] = if r = q then f s.ports[q] else s.ports[r] := by
  simp only [State.modPort]
  split
  next h => subst h; simp
  next h => simp [Fin.val_ne_of_ne (Ne.symm h)]

theorem State.transmit_paused (q r : PortId) (type_ dchip : Nat) (udesc : List Nat) :
    ((s.transmit q p type_ dchip udesc).ports[r]).paused = (s.ports[r]).paused := by
  unfold State.transmit
  dsimp only
  rw [State.modPort_ports, State.takeBytes_free]
  split
  next h => subst h; rfl
  next => rfl

/-- A port that has been paused for a context carries it no more; another port carries what it carried (R339). -/
theorem State.mem_paused_pausePort (a : Byte) (q r : PortId) (h : r = q ∨ a ∈ (s.ports[r]).paused) :
    a ∈ ((s.pausePort p a q).ports[r]).paused := by
  unfold State.pausePort
  dsimp only
  rw [State.modPort_ports]
  split
  next => exact List.mem_cons_self
  next hr =>
    have hmem : a ∈ (s.ports[r]).paused := h.resolve_left hr
    split
    · rw [State.transmit_paused]
      exact hmem
    · exact hmem

theorem State.mem_paused_foldl (a : Byte) (l : List PortId) (r : PortId) (h : r ∈ l ∨ a ∈ (s.ports[r]).paused) :
    a ∈ ((l.foldl (fun s q => s.pausePort p a q) s).ports[r]).paused := by
  induction l generalizing s with
  | nil => exact h.resolve_left List.not_mem_nil
  | cons q l ih =>
    refine ih _ ?_
    obtain h | h := h
    · obtain rfl | h := List.mem_cons.1 h
      · exact .inr (s.mem_paused_pausePort p a r r (.inl rfl))
      · exact .inl h
    · exact .inr (s.mem_paused_pausePort p a q r (.inr h))

/-- Cores that are asked to stop together. -/
theorem State.foldl_setStop_core (l : List CoreId) (x : Stop) (d : CoreId) :
    (l.foldl (fun s c => s.modCore c fun k => k.setStop x) s).core d = if d ∈ l then (s.core d).setStop x else s.core d := by
  induction l generalizing s with
  | nil => rfl
  | cons c l ih =>
    rw [List.foldl_cons, ih]
    by_cases h : d = c
    · subst h
      rw [State.core_modCore, if_pos List.mem_cons_self]
      split <;> rfl
    · rw [State.core_modCore_ne s c d _ h]
      simp only [List.mem_cons, h, false_or]

theorem State.foldl_setStop_eq (l : List CoreId) (now : Nat) (h : s.cycle = now) :
    ∃ cs, l.foldl (fun s c => s.modCore c fun k => k.setStop (.asked true s.cycle)) s = { s with cores := cs } ∧
      l.foldl (fun s c => s.modCore c fun k => k.setStop (.asked true s.cycle)) s =
        l.foldl (fun s c => s.modCore c fun k => k.setStop (.asked true now)) s := by
  induction l generalizing s with
  | nil => exact ⟨s.cores, rfl, rfl⟩
  | cons c l ih =>
    obtain ⟨cs, hcs, hl⟩ := ih (s.modCore c fun k => k.setStop (.asked true s.cycle)) h
    exact ⟨cs, hcs, by rw [List.foldl_cons, List.foldl_cons, hl, h]⟩

/-- The cores that a gang switch asks to stop (R338). -/
def State.switchSaves (s : State) (p : PartId) : List CoreId :=
  (List.finRange 256).filter fun c => s.pmapOf c == p && (s.core c).regs.asid == (s.part p).from_ && (s.core c).run.stop == .none &&
    !(s.core c).run.inHold && !s.freeCore p c

theorem State.mem_switchSaves (d : CoreId) : d ∈ s.switchSaves p ↔ s.pmapOf d = p ∧ (s.core d).regs.asid = (s.part p).from_ ∧
    (s.core d).run.stop = .none ∧ (s.core d).run.inHold = false ∧ s.freeCore p d = false := by
  simp [State.switchSaves, and_assoc]

/-- What the start of a gang switch leaves (R338, R339). -/
structure State.Starts (s : State) (p : PartId) (t : State) : Prop where
  core : ∀ d, t.core d = if d ∈ s.switchSaves p then (s.core d).setStop (.asked true s.cycle) else s.core d
  mem : t.mem = s.mem
  busy : (t.part p).switch.busy = true
  done : (t.part p).switch.done = false
  saves : (t.part p).switch.saves = s.switchSaves p
  paused : (s.part p).from_ ∈ (t.part p).switch.paused
  ports : ∀ q ∈ s.portsOf p, (s.part p).from_ ∈ (t.ports[q]).paused

theorem State.switchStart_starts : s.Starts p (s.switchStart p) := by
  unfold State.switchStart
  extract_lets x saves t u
  obtain ⟨cs, ht, hcores⟩ := s.foldl_setStop_eq saves s.cycle rfl
  have ht : t = { s with cores := cs } := ht
  have hcore (d : CoreId) : t.core d = if d ∈ saves then (s.core d).setStop (.asked true s.cycle) else s.core d :=
    (congrArg (·.core d) hcores).trans (s.foldl_setStop_core saves _ d)
  have hpart : t.part p = s.part p := by
    rw [ht]
    rfl
  have hports : u.portsOf p = s.portsOf p := by
    have h : t.portsOf p = s.portsOf p := by
      rw [ht]
      rfl
    exact h
  have hup : (u.part p).switch = _ := congrArg (·.switch) (t.part_modPart p _)
  obtain ⟨hn, hswitch⟩ := u.noteHeads_keeps p
  generalize u.noteHeads p = v at hn hswitch ⊢
  have hpaused (q : PortId) (hq : q ∈ s.portsOf p) := v.mem_paused_foldl p x.from_ (u.portsOf p) q (.inl (hports ▸ hq))
  have hall : v.PortsOnly _ := State.PortsOnly.foldl _ (fun t q => t.pausePort_portsOnly p x.from_ q) (u.portsOf p)
  generalize (u.portsOf p).foldl (fun s q => s.pausePort p x.from_ q) v = w at hall hpaused ⊢
  unfold State.PortsOnly at hall
  have hend : (w.part p).switch = (u.part p).switch := (congrArg (fun m : State => (m.part p).switch) hall).trans (hswitch p)
  rw [hup, hpart] at hend
  refine ⟨fun d => ?_, ?_, ?_, ?_, ?_, ?_, hpaused⟩
  · rw [hall, hn]
    exact hcore d
  · rw [hall, hn]
    exact congrArg (·.mem) ht
  · rw [hend]
  · rw [hend]
  · rw [hend]
    rfl
  · rw [hend]
    exact List.mem_cons_self

/-- The end of a gang switch (R338). -/
theorem State.switchEnd_ends : ((s.switchEnd p).part p).switch.busy = false ∧ ((s.switchEnd p).part p).switch.done = true ∧
    (s.switchEnd p).cores = s.cores := by
  unfold State.switchEnd
  extract_lets x load t u
  have ht : (t.part p).switch = _ := congrArg (·.switch) (s.part_modPart p _)
  have hu : t.PortsOnly u := by
    simp only [u]
    split
    · exact .foldl _ (fun t q => t.resumePort_portsOnly x.to_ q) _
    · rfl
  unfold State.PortsOnly at hu
  obtain ⟨hn, hswitch⟩ := u.noteHeads_keeps p
  have hend : (u.part p).switch = (t.part p).switch := by
    rw [hu]
    rfl
  have hcores : u.cores = s.cores := by
    rw [hu]
    rfl
  rw [hswitch, hend, ht, hn]
  exact ⟨rfl, rfl, hcores⟩

end switch

end Sys2Proof.Machine

namespace Sys2Proof.Claims

open Sys2Proof.Machine

section gang
variable {s : State} {p : PartId}

theorem exec_gangSwitch_idle (hb : (s.part p).switch.busy = false) : exec (.gangSwitch p) s =
    if (s.part p).switchAt ≠ 0 ∧ (!(s.part p).switch.done) = true ∧ (s.part p).switchAt.toNat ≤ s.ptime then .next (s.switchStart p)
    else .next s := by
  have he : exec (.gangSwitch p) s = execGangSwitch p s := rfl
  rw [execGangSwitch] at he
  dsimp only at he
  rwa [hb, if_neg Bool.false_ne_true] at he

/-- A switch in progress that has no core to load, and whose block is written or waits for a core to stop. -/
theorem exec_gangSwitch_busy (hb : (s.part p).switch.busy = true) (hl : (s.part p).switch.loads = []) (ht : s.switchTurn p = s) :
    exec (.gangSwitch p) s =
      .next (if ((s.part p).switch.written && (s.part p).switch.saves.isEmpty && (s.part p).switch.loads.isEmpty) = true then s.switchEnd p
        else s) := by
  have he : exec (.gangSwitch p) s = execGangSwitch p s := rfl
  have hload : s.switchLoad p = s := by
    rw [State.switchLoad, hl]
    rfl
  rw [execGangSwitch] at he
  dsimp only at he
  rwa [hb, if_pos rfl, ht, hload] at he

/-- The start of a gang switch keeps memory (R338). -/
theorem switchStart_bytes : SameBytes s (s.switchStart p) := by
  have h := s.switchStart_starts p
  refine ⟨fun a => by rw [h.mem], fun c b a => ?_⟩
  rw [h.core]
  split
  · cases b <;> rfl
  · rfl

end gang

end Sys2Proof.Claims

end

section

/-! ## O48: context events -/

namespace Sys2Proof.Claims

open Sys2Proof.Machine

/-- The low bits that a mask of ones keeps. -/
theorem toNat_and_mask (n x : Nat) {m : Word} (hm : m.toNat = 2 ^ n - 1) (hn : n ≤ 64) :
    (BitVec.ofNat 64 x &&& m).toNat = x % 2 ^ n := by
  rw [BitVec.toNat_and, hm, Nat.and_two_pow_sub_one_eq_mod, BitVec.toNat_ofNat,
    Nat.mod_mod_of_dvd _ (Nat.pow_dvd_pow 2 hn)]

/-- A bit of a number, by its quotients. -/
theorem beq_div_mod_eq_testBit (x i : Nat) : (x / 2 ^ i % 2 == 1) = x.testBit i := by
  rw [Nat.testBit_eq_decide_div_mod_eq]
  rfl

section loaded
variable {s : State} {c : CoreId} {asid : Byte} {img k : Core} {a : Nat} (h : s.Loads c asid img a k)
include h

/-- The scalar registers of a loaded core (R334). -/
theorem loaded_regs (i : SReg) : k.live.front.regs.s[i] = BitVec.ofNat 64 (s.peek (a + 0x1000 + 8 * i.val) 8).1 := by
  rw [h.regs]
  simp [Regs.ofSlot, State.slotWord]

theorem loaded_fflags : k.live.front.regs.fflags.toNat = (s.peek (a + 0x1000 + 8 * 1102) 8).1 % 256 := by
  rw [h.regs]
  exact toNat_and_mask 8 _ rfl (by omega)

theorem loaded_seed : k.live.front.regs.seed.toNat = (s.peek (a + 0x1000 + 8 * 1104) 8).1 % 65536 := by
  rw [h.regs]
  exact toNat_and_mask 16 _ rfl (by omega)

theorem loaded_felt : k.live.walker.felt = BitVec.ofNat 64 (s.peek (a + 0x2C008) 8).1 := by
  rw [h.walker]
  rfl

end loaded

section turn
variable {s : State} {p : PartId}

/-- A switch whose block is written takes no further turn (R338). -/
theorem switchTurn_written (hw : (s.part p).switch.written = true) : s.switchTurn p = s := by
  unfold State.switchTurn
  dsimp only
  rw [hw, Bool.true_or, if_pos rfl]

/-- A switch waits for a core that has been asked to stop (R338). -/
theorem switchTurn_asked {d : CoreId} {gang : Bool} {since : Nat} (hd : d ∈ (s.part p).switch.saves)
    (hs : (s.core d).run.stop = .asked gang since) : s.switchTurn p = s := by
  unfold State.switchTurn
  extract_lets x stopped
  have hstopped : stopped = false := by
    refine List.all_eq_false.2 ⟨d, hd, ?_⟩
    rw [hs]
    exact Bool.false_ne_true
  rw [hstopped, Bool.not_false, Bool.or_true, if_pos rfl]

end turn

/-- Settles O48: each event by what it does to the core, its slot or the switch. -/
theorem contextEvents : Obligations.ContextEvents := by
  unfold Obligations.ContextEvents
  intro c gang since asid img cast older p s k x own stopped s0
  refine ⟨contextEvents_idle, coreStop_occurs, fun h => ⟨saveComplete_idle h, fun hc ha => ?_⟩, fun h => ⟨?_, ?_, ?_, ?_⟩,
    fun hb => ⟨?_, ?_⟩, fun hb hw hl ⟨d, hd, gang, since, hs⟩ => ?_, fun hb hw hs hl => ?_⟩
  · obtain ⟨t, free, he, hf, hstop, hmem, hbusy, hsaves⟩ := saveComplete_occurs h hc ha
    obtain ⟨h1, h2, h3, h4, h5, h6, h7, h8, h9, h10⟩ := slot_reads hf hmem
    exact ⟨t, he, hstop, h1, h2, h3, h4, h5, h6, h7, h8, h9, h10, hbusy, hsaves⟩
  · exact loadComplete_unusable h
  · exact loadComplete_idle h
  · intro hok hi hc
    obtain ⟨t, he, hmem, hl⟩ := loadComplete_other h hok hi hc
    obtain ⟨z, hz, hregs, -, -, husable⟩ := hl.casts
    refine ⟨t, he, hl.stop, hl.asid, hl.pc, loaded_regs hl, ?_, fun y hy => ?_, hmem⟩
    · rw [hz, List.length_replicate]
    · rw [hz] at hy
      obtain rfl := List.eq_of_mem_replicate hy
      exact ⟨husable rfl, hregs⟩
  · intro hok hi hcast hc
    obtain ⟨t, he, hmem, hbusy, hl⟩ := loadComplete_own h hok hi hc
    obtain ⟨z, hz, hregs, hrings, hown, -⟩ := hl.casts
    obtain ⟨hcyc, hns, husable⟩ := hown _ _ hcast
    refine ⟨t, he, hl.stop, hl.asid, loaded_regs hl, loaded_fflags hl, loaded_seed hl, loaded_felt hl, hl.pc, hl.rings, ?_, ?_, ?_, ?_,
      fun y hy => ?_, hl.misses, fun i hi => ?_, fun i hi => ?_, fun i hi => ?_, hmem, hbusy⟩
    · rw [hl.fe, beq_div_mod_eq_testBit]
    · rw [hl.ce, Nat.div_div_eq_div_mul]
      exact congrArg (· || _) (beq_div_mod_eq_testBit _ 26)
    · rw [hl.bw, Nat.div_div_eq_div_mul]
      exact congrArg (· || _) (beq_div_mod_eq_testBit _ 27)
    · rw [hz, List.length_replicate]
    · rw [hz] at hy
      obtain rfl := List.eq_of_mem_replicate hy
      exact ⟨hcyc, hns, husable, hregs, hrings⟩
    · rw [hl.wb]
      exact readByte_slotBuf s _ hi
    · rw [hl.ab]
      exact readByte_slotBuf s _ hi
    · rw [hl.cb]
      exact readByte_slotBuf s _ hi
  · intro hd
    exact (exec_gangSwitch_idle hb).trans (if_neg (by simpa using hd))
  · intro hd
    have hs := s.switchStart_starts p
    refine ⟨_, (exec_gangSwitch_idle hb).trans (if_pos (by simpa using hd)), switchStart_bytes, hs.busy, hs.done, hs.paused, hs.ports,
      fun d hfree => ?_, fun d hp hasid hstop hhold hfree => ?_⟩
    · rw [hs.core, if_neg]
      rw [State.mem_switchSaves, hfree]
      simp
    · have hmem : d ∈ s.switchSaves p := (s.mem_switchSaves p d).2 ⟨hp, hasid, hstop, hhold, hfree⟩
      rw [hs.core, if_pos hmem, hs.saves]
      exact ⟨rfl, hmem⟩
  · have he := exec_gangSwitch_busy hb hl (switchTurn_asked hd hs)
    rw [hw] at he
    exact he
  · have he := exec_gangSwitch_busy hb hl (switchTurn_written hw)
    rw [hw, hs, hl] at he
    replace he : exec (.gangSwitch p) s = .next (s.switchEnd p) := he
    exact ⟨s.switchEnd p, he, s.switchEnd_ends p⟩

end Sys2Proof.Claims

end
